-- ==== Sys2Proof/Word.lean ====
section
/-! DEFINITION. The word types of the DZ9: a byte, a 32-bit word (an instruction word, a lane), a
doubleword and a row of 16 lanes (R30, R64, R65). -/

namespace Sys2Proof

/-- A byte (R65). -/
abbrev Byte := BitVec 8

/-- A 32-bit word: one instruction word, one lane of a row, one 32-bit control register. -/
abbrev Word := BitVec 32

/-- A 64-bit quantity: a page-table entry, a 64-bit control register. -/
abbrev DWord := BitVec 64

/-- A row: 64 bytes, byte b at bits 8b+7..8b, lane i at bits 32i+31..32i (R65). -/
abbrev Row := BitVec 512

end Sys2Proof
end

