-- ==== Sys2Proof/Config.lean ====
section
/-! DEFINITION. What an implementation fixes and the manual does not: the free values. Each is opaque,
so nothing can be proved of its value (see the assumption log). -/

namespace Sys2Proof.Config

/-- The result bits an approximation instruction proposes (R109): 0 `frcp`, 1 `frsq`, 2 `fexp2`,
3 `flog2`, as a function of the input bits. The model takes the proposal only where it lies within the
manual's bound (log 20). -/
opaque approx : Nat → BitVec 32 → BitVec 32

/-- Whether an ML-DSA-44 signature verifies under the key whose KEYID is the first argument, over the
digest that is the second (R346), left uninterpreted (log 21). -/
opaque mldsaVerify : BitVec 256 → BitVec 256 → List (BitVec 8) → Bool

/-- The ML-DSA-44 signature of a digest by the identity key of a seed (R375), uninterpreted (log 21). -/
opaque mldsaSign : BitVec 256 → BitVec 256 → List (BitVec 8)

/-- The 32-byte seed the physical unclonable function gives (R375; log 21). -/
opaque pufSeed : BitVec 256

/-- The ML-DSA-44 public key derived from a seed (R375; log 21). -/
opaque mldsaPublic : BitVec 256 → List (BitVec 8)

/-- The native image the kiln's translator makes of a portable section (R349), none where the
translation fails; the translator's choices are not the manual's (log 22). -/
opaque translate : List (BitVec 8) → Option (List (BitVec 8))

/-- Energy of n counts of an activity class, in 2^-16 cones: the calibration of R351; class 0 stands for leakage,
refresh and idle power (R352; log 23). -/
opaque energyOf : Nat → Nat → Nat

/-- The host completer supports the AtomicOp: 0 FetchAdd, 1 Swap, 2 CAS (R324; log 33). -/
opaque hostAtomicOk : Nat → Bool

/-- The host address that the host gives the notify pages, page q for queue q (R283; log 70). -/
opaque notifyBar : Nat

/-- The page requests that the host allocates to the package as PRI is enabled (R326). -/
opaque prgAlloc : Nat

/-- The context identifier that the kiln gives the starting context of a tag, from the process and the tag (R262,
R279; log 62). -/
opaque ctxidOf : Nat → Nat → BitVec 16

/-- The measured current of the package exceeds its electrical limit, as the n-th measurement tells
(R356; log 23). -/
opaque overCurrent : Nat → Bool

/-- Device words the package reports: 0 STEPPING, 1 FEATURE (R338; log 24). -/
opaque deviceWord : Nat → BitVec 32

/-- The contents of the attestation store: certificate chain bytes, ROM and firmware measurement
(R375, R376; log 24). -/
opaque certChain : List (BitVec 8)

/-- KEYID of Prervaec's provisioning key (R374; log 24). -/
opaque provisioningKey : BitVec 256

/-- The package limit, in watts, that a configuration payload sets (R356; log 23). -/
opaque limitOf : List (BitVec 8) → Nat

/-- A package limit keeps the package under its electrical limit with its 256 clusters at those settings (R356; log 23). -/
opaque limitKeeps : Nat → List Nat → Bool

/-- Package power, averaged over each 1 ms, stays under a limit with the clusters at those settings (R356; log 23). -/
opaque powerStays : Nat → List Nat → Bool

/-- Measurement of the management core's ROM and firmware (R376, index 1; log 24). -/
opaque romMeasurement : BitVec 256

/-- The links by which a target in CXL or host memory is reached, by its key (R365; log 81). -/
opaque externLinks : Nat → List Nat

/-- An unconstrained value for the n-th use: a value the manual does not state (log 5). -/
opaque freeValue : Nat → BitVec 512

end Sys2Proof.Config
end

