-- ==== Sys2Proof/Syntax.lean ====
section
/-! DEFINITION. The abstract syntax of the DZ9: operand specifiers, field codes, and one constructor of
Instr per row of the table of operations and events (R32-R45). -/

namespace Sys2Proof

/-- A legal operand specifier (R38). -/
inductive Opnd where
  | w (n : Fin 96)
  | o (n : Fin 8)
  | lat
  | z
  | q (n : Fin 4)
  | c (n : Fin 4)
  | m (n : Fin 8)
  deriving DecidableEq, Repr

/-- Ordering label ORD (R33). -/
inductive Ord where
  | rlx | acq | rel | sc
  deriving DecidableEq, Repr

/-- Scope SCP (R33, R178). -/
inductive Scp where
  | core | clus | die | pkg | pod
  deriving DecidableEq, Repr

/-- Condition of `bc` (R33, R120). -/
inductive Cnd where
  | eq0 | ne0 | lt0 | ge0 | gt0 | le0 | always
  deriving DecidableEq, Repr

/-- Element type T (R35). -/
inductive ETy where
  | i8 | i16 | i32 | n8 | n16 | n32 | f32 | b16 | e4m3 | e5m2
  deriving DecidableEq, Repr

/-- Size of `ldx` and `stx` (R40). -/
inductive MSize where
  | b | h | w | d | v
  deriving DecidableEq, Repr

/-- Operation of `amo` (R155). -/
inductive AmoOp where
  | add | and | or | xor | min | max | minn | maxn | swap
  deriving DecidableEq, Repr

/-- Kind of `fence` (R158). -/
inductive FKind where
  | acq | rel | ar | sc
  deriving DecidableEq, Repr

/-- Kind of `cpy` (R166). -/
inductive CpyKind where
  | copy | redi32 | redf32 | redb16 | slide | fill
  deriving DecidableEq, Repr

/-- Conversion of `accrd` (R81). -/
inductive Conv where
  | i32 | f32 | b16 | i8 | lo | hi
  deriving DecidableEq, Repr

/-- Semiring of `accz` and `mgang` (R222, R229). -/
inductive Ring where
  | pt | minp | maxp | ora
  deriving DecidableEq, Repr

/-- A format of `mgang` (R222). -/
inductive AFmt where
  | t | c4 | i8 | i16
  deriving DecidableEq, Repr

/-- EXT of `mgang` (R222). -/
structure GangWord where
  kb   : BitVec 7
  mask : BitVec 8
  bf   : Bool
  af   : AFmt
  ring : Ring
  base : BitVec 4
  deriving DecidableEq, Repr

/-- Operation of `vred` (R100). -/
inductive RedOp where
  | add | min | max | xor
  deriving DecidableEq, Repr

/-- Operation of `fred` (R114). -/
inductive FRedOp where
  | add | min | max
  deriving DecidableEq, Repr

/-- The assigned control registers (R132). -/
inductive CReg where
  | core | clus | cycle | mode | fpm | mstat | scla | sclb | rfsh | cone | lend
  | grp0 | grp1 | grp2 | grp3 | wb | wl | pb | pl | tagsel | tagent
  deriving DecidableEq, Repr

/-- Response code of a Page Request Group Response (R326). -/
inductive PrgCode where
  | success | invalid | failure
  deriving DecidableEq, Repr

/-- What another package tells: its NI has room for the message, a core of it refuses the message, the work that
the message started there has ended, or a member of a group there has arrived at the barrier, its counted copies settled
(R187, R204, R286; log 64). -/
inductive SendAns where
  | accepted
  | refused (core : Word)
  | finished
  | arrived (part grp : Nat)
  deriving DecidableEq, Repr

/-- Another package of the pod: the cores that its description lists as present (R1, R198, R318), the links over which
work can reach it (R365) and its identity key (R346). -/
structure PodPkg where
  id : Nat
  cores : List Word
  links : List Nat
  key : Option (BitVec 256)
  deriving DecidableEq, Repr

/-- The cores of a partition: clusters and memory cores of this package, cores of others (R1). -/
structure PartCores where
  clusters : List Nat
  memCores : List Nat
  others : List Word
  deriving DecidableEq, Repr
/-- The overflow area of a partition's clusters in steps of 16 KiB, and the ranges of dependence-counter entries for its
kernels (R139, R199). -/
structure PartRoom where
  ovf16 : Nat
  dct : List (Nat × Nat)
  deriving DecidableEq, Repr
/-- What the kiln gives a partition. -/
structure PartDesc extends PartCores, PartRoom where
  part : Nat
  deriving DecidableEq, Repr

/-- What the loader chooses or hears from outside: a window base for each handler, the page-table entries that map the
data, the native image that a lower-numbered package of the pod has sent, and the statuses of the partition's other
packages (R347, R349; log 73). -/
structure LoadIns where
  windows : List Nat
  maps : List (Nat × DWord)
  sent : Option (List Byte)
  peers : List Nat
  deriving DecidableEq, Repr
/-- A load: partition, process, file, the text's PC, and the loader's inputs. -/
structure LoadDesc extends LoadIns where
  part : Nat
  proc : Nat
  file : List Byte
  pc : Word
  deriving DecidableEq, Repr

/-- What full service begins with: the cores that failed, and the other packages of the pod (R318, R373). -/
structure ServiceDesc where
  withheld : List Word
  links : List Nat
  pod : List PodPkg
  deriving DecidableEq, Repr

/-- The operations and events of the DZ9, one constructor per row of the table: the instructions, then the steps
of the device, whose arguments say which unit acts and what the outside supplies; those without operands stand
last. -/
inductive Instr where
  /-- BC (R120): Conditional branch on lane 0 of A compared with zero, to PC + 8 × O15. -/
  | bc (cnd : Cnd) (a : Opnd) (off : BitVec 15)
  /-- CALL (R121): Writes the return PC to A and transfers to PC + 8 × O15. -/
  | call (a : Opnd) (off : BitVec 15)
  /-- JR (R121): Register jump to lane 0 of B, writing the return PC to A. -/
  | jr (a b : Opnd)
  /-- LOOP (R123): Pushes a hardware-loop entry with its count from A, or skips the body when the count is 0. -/
  | loop (a : Opnd) (off : BitVec 15)
  /-- LOOPI (R123): Lone loop push with its count taken from EXT. -/
  | loopi (off : BitVec 15) (count : Word)
  /-- TRAP (R127): Raises cause TRAP(n), with EPC-C set to the next bundle. -/
  | trap (n : BitVec 11)
  /-- BRK (R127): Raises cause BRK, with EPC-C set to the brk bundle itself. -/
  | brk (n : BitVec 11)
  /-- FSYNC (R129): Stalls the control stream until n cycles pass or the same-tag peers of the cluster reach this PC. -/
  | fsync (n : BitVec 11)
  /-- CSRR (R131): Reads a control register into A. -/
  | csrr (a : Opnd) (r : CReg)
  /-- CSRW (R131): Writes lane 0 of A to a control register. -/
  | csrw (a : Opnd) (r : CReg)
  /-- MOVI (R130): Lone instruction that writes the 32-bit EXT value to lane 0 of A. -/
  | movi (a : Opnd) (imm : Word)
  /-- ADDA (R130): Writes lane 0 of B plus a signed 11-bit addend to lane 0 of A. -/
  | adda (a b : Opnd) (k : BitVec 11)
  /-- LDB (R149): Pair-form load of one byte, zero-extended, as a late write. -/
  | ldb (a b : Opnd) (off : BitVec 5) (ord : Ord) (scp : Scp)
  /-- LDH (R149): Pair-form load of a halfword. -/
  | ldh (a b : Opnd) (off : BitVec 5) (ord : Ord) (scp : Scp)
  /-- LDW (R149): Pair-form load of a word. -/
  | ldw (a b : Opnd) (off : BitVec 5) (ord : Ord) (scp : Scp)
  /-- LDD (R149): Pair-form load of a doubleword into lanes 0 and 1. -/
  | ldd (a b : Opnd) (off : BitVec 5) (ord : Ord) (scp : Scp)
  /-- LDV (R149): Pair-form load of a 64-byte row. -/
  | ldv (a b : Opnd) (off : BitVec 5) (ord : Ord) (scp : Scp)
  /-- LDB_LONE (R149): Lone-form byte load with a signed 32-bit offset in EXT. -/
  | ldbLone (a b : Opnd) (ord : Ord) (scp : Scp) (ext : Word)
  /-- LDH_LONE (R149): Lone-form halfword load. -/
  | ldhLone (a b : Opnd) (ord : Ord) (scp : Scp) (ext : Word)
  /-- LDW_LONE (R149): Lone-form word load. -/
  | ldwLone (a b : Opnd) (ord : Ord) (scp : Scp) (ext : Word)
  /-- LDD_LONE (R149): Lone-form doubleword load. -/
  | lddLone (a b : Opnd) (ord : Ord) (scp : Scp) (ext : Word)
  /-- LDV_LONE (R149): Lone-form row load. -/
  | ldvLone (a b : Opnd) (ord : Ord) (scp : Scp) (ext : Word)
  /-- STB (R150): Pair-form store of the low byte of lane 0 of A. -/
  | stb (a b : Opnd) (off : BitVec 5) (ord : Ord) (scp : Scp)
  /-- STH (R150): Pair-form halfword store. -/
  | sth (a b : Opnd) (off : BitVec 5) (ord : Ord) (scp : Scp)
  /-- STW (R150): Pair-form word store. -/
  | stw (a b : Opnd) (off : BitVec 5) (ord : Ord) (scp : Scp)
  /-- STD (R150): Pair-form doubleword store of lanes 0 and 1. -/
  | std (a b : Opnd) (off : BitVec 5) (ord : Ord) (scp : Scp)
  /-- STV (R150): Pair-form store of a 64-byte row. -/
  | stv (a b : Opnd) (off : BitVec 5) (ord : Ord) (scp : Scp)
  /-- STB_LONE (R150): Lone-form byte store with a signed 32-bit offset in EXT. -/
  | stbLone (a b : Opnd) (ord : Ord) (scp : Scp) (ext : Word)
  /-- STH_LONE (R150): Lone-form halfword store. -/
  | sthLone (a b : Opnd) (ord : Ord) (scp : Scp) (ext : Word)
  /-- STW_LONE (R150): Lone-form word store. -/
  | stwLone (a b : Opnd) (ord : Ord) (scp : Scp) (ext : Word)
  /-- STD_LONE (R150): Lone-form doubleword store. -/
  | stdLone (a b : Opnd) (ord : Ord) (scp : Scp) (ext : Word)
  /-- STV_LONE (R150): Lone-form row store. -/
  | stvLone (a b : Opnd) (ord : Ord) (scp : Scp) (ext : Word)
  /-- LDX (R154): Relaxed indexed load from a 64-bit base plus a scaled index. -/
  | ldx (a b c : Opnd) (size : MSize)
  /-- STX (R154): Relaxed indexed store to a 64-bit base plus a scaled index. -/
  | stx (a b c : Opnd) (size : MSize)
  /-- AMO (R155): Lone atomic read-modify-write at the home of the location, returning the old value as a late write. -/
  | amo (op : AmoOp) (a b c : Opnd) (ord : Ord) (scp : Scp) (d64 : Bool)
  /-- CAS (R156): Lone compare-and-swap that returns the old value. -/
  | cas (a b c : Opnd) (ord : Ord) (scp : Scp) (d64 : Bool)
  /-- FENCE (R158): Waits until earlier accesses, and engine work when E is set, are performed at the scope for its kind. -/
  | fence (kind : FKind) (scp : Scp) (e : Bool)
  /-- STRM (R161): Checks and translates an affine pattern and starts a stream of beats to a channel. -/
  | strm (a : Opnd)
  /-- CPY (R165): Checks a job descriptor, allocates RLT entries and queues a copy-unit job in the open batch. -/
  | cpy (kind : CpyKind) (a b : Opnd)
  /-- CPSEAL (R171): Closes the context's open batch and returns its number. -/
  | cpseal (a : Opnd)
  /-- CPWAIT (R172): Waits until a batch, or every sealed batch, settles; writes the status or traps CPF. -/
  | cpwait (all : Bool) (a b : Opnd)
  /-- STI (R248): Pair-form imaged store: a row store whose mirrored images the mould writes. -/
  | sti (a b : Opnd) (off : BitVec 5) (ord : Ord) (scp : Scp)
  /-- STI_LONE (R248): Lone-form imaged store with a signed 32-bit offset. -/
  | stiLone (a b : Opnd) (ord : Ord) (scp : Scp) (ext : Word)
  /-- SEND (R209): Releases, then sends a message to one core and waits for acceptance. -/
  | send (a b : Opnd)
  /-- SEND_GRP (R209): Sends one message to every member of a group-table entry. -/
  | sendGrp (a b : Opnd)
  /-- SENDA (R209): Sends a message to the owner core that the hash of a data address selects. -/
  | senda (a b : Opnd)
  /-- TAGSET_ON (R211): Enables a tag and makes its waiting messages ready. -/
  | tagsetOn (t : BitVec 8)
  /-- TAGSET_OFF (R211): Disables a tag so that its ready messages wait again. -/
  | tagsetOff (t : BitVec 8)
  /-- DCARM (R217): Arms a DCT entry with a count and a held message, or releases the message at once for a count of 0. -/
  | dcarm (a b : Opnd)
  /-- DCDEC (R217): Sends a decrement to a DCT entry and retires without waiting. -/
  | dcdec (a : Opnd)
  /-- GBAR (R214): Arrives at a group barrier phase and waits until the phase completes. -/
  | gbar (k : BitVec 2)
  /-- MGANG (R222): Lone gang instruction: checks, registers RLT entries, posts EXT to the gang unit and waits for the start. -/
  | mgang (a b : Opnd) (g : GangWord)
  /-- MCODE (R237): Loads the 16-entry code table and sets the c4 plane count. -/
  | mcode (a : Opnd)
  /-- ACCRD (R238): Waits for the steps that feed a tile, then reads a converted half-row of that tile as a late write. -/
  | accrd (conv : Conv) (a b : Opnd)
  /-- ACCZ (R236): Waits for earlier gangs into tiles F to L, then writes the semiring identity to them and sets FRESH. -/
  | accz (ring : Ring) (first last : BitVec 4)
  /-- SETWIN (R259): Pair form: checks and sets the window base and limit from A. -/
  | setwin (a : Opnd)
  /-- SETWIN_LONE (R259): Lone form: sets the window from EXT. -/
  | setwinLone (wb : BitVec 11) (wl : BitVec 7)
  /-- GETWIN (R260): Writes the window base and limit to A. -/
  | getwin (a : Opnd)
  /-- SETBND (R261): Privileged: sets the slot's outer bound or a process bound table entry. -/
  | setbnd (a : Opnd)
  /-- LEND (R307): Lends a footprint of rows and scratchpad pages to the harvest slot. -/
  | lend (a : Opnd)
  /-- XLD (R332): Memory core: queues a transfer job from translated external memory into its buffer. -/
  | xld (a : Opnd)
  /-- XST (R332): Memory core: queues a transfer job from its buffer to translated external memory. -/
  | xst (a : Opnd)
  /-- XPUSH (R333): Memory core: pushes buffer bytes into a compute core's local memory, with a stage word and a completion message. -/
  | xpush (a : Opnd)
  /-- XWS (R334): Memory core, privileged: writes buffer bytes into a weight-store slice while the store is open. -/
  | xws (a : Opnd)
  /-- ADD (R88): Scalar 32-bit wrapping add. -/
  | add (d s1 s2 : Opnd)
  /-- SUB (R88): Scalar wrapping subtract. -/
  | sub (d s1 s2 : Opnd)
  /-- MUL (R88): Scalar low-half multiply. -/
  | mul (d s1 s2 : Opnd)
  /-- MULH (R88): Scalar signed high-half multiply. -/
  | mulh (d s1 s2 : Opnd)
  /-- MULHN (R88): Scalar unsigned high-half multiply. -/
  | mulhn (d s1 s2 : Opnd)
  /-- DIV (R89): Scalar signed division; traps DZ on a zero divisor when MODE.DZ is set. -/
  | div (d s1 s2 : Opnd)
  /-- DIVN (R89): Scalar unsigned division. -/
  | divn (d s1 s2 : Opnd)
  /-- REM (R89): Scalar signed remainder. -/
  | rem (d s1 s2 : Opnd)
  /-- REMN (R89): Scalar unsigned remainder. -/
  | remn (d s1 s2 : Opnd)
  /-- AND (R88): Scalar bitwise AND. -/
  | and (d s1 s2 : Opnd)
  /-- OR (R88): Scalar bitwise OR. -/
  | or (d s1 s2 : Opnd)
  /-- XOR (R88): Scalar bitwise XOR. -/
  | xor (d s1 s2 : Opnd)
  /-- SHL (R88): Scalar left shift. -/
  | shl (d s1 s2 : Opnd)
  /-- SHR (R88): Scalar logical right shift. -/
  | shr (d s1 s2 : Opnd)
  /-- SRA (R88): Scalar arithmetic right shift. -/
  | sra (d s1 s2 : Opnd)
  /-- MIN (R88): Scalar signed minimum. -/
  | min (d s1 s2 : Opnd)
  /-- MAX (R88): Scalar signed maximum. -/
  | max (d s1 s2 : Opnd)
  /-- MINN (R88): Scalar unsigned minimum. -/
  | minn (d s1 s2 : Opnd)
  /-- MAXN (R88): Scalar unsigned maximum. -/
  | maxn (d s1 s2 : Opnd)
  /-- SLT (R88): Scalar signed set-less-than. -/
  | slt (d s1 s2 : Opnd)
  /-- SLTN (R88): Scalar unsigned set-less-than. -/
  | sltn (d s1 s2 : Opnd)
  /-- SEQ (R88): Scalar set-if-equal. -/
  | seq (d s1 s2 : Opnd)
  /-- SEL (R90): Scalar select of S1 or S2 on lane 0 of D. -/
  | sel (d s1 s2 : Opnd)
  /-- CLZ (R88): Count of leading zeros. -/
  | clz (d s1 : Opnd)
  /-- POPC (R88): Population count. -/
  | popc (d s1 : Opnd)
  /-- ADDI (R91): Add of a sign-extended immediate. -/
  | addi (d s1 : Opnd) (imm : BitVec 11)
  /-- ANDI (R91): AND with a sign-extended immediate. -/
  | andi (d s1 : Opnd) (imm : BitVec 11)
  /-- ORI (R91): OR with a sign-extended immediate. -/
  | ori (d s1 : Opnd) (imm : BitVec 11)
  /-- XORI (R91): XOR with a sign-extended immediate. -/
  | xori (d s1 : Opnd) (imm : BitVec 11)
  /-- SHLI (R91): Left shift by an immediate count. -/
  | shli (d s1 : Opnd) (n : BitVec 5)
  /-- SHRI (R91): Logical right shift by an immediate count. -/
  | shri (d s1 : Opnd) (n : BitVec 5)
  /-- SRAI (R91): Arithmetic right shift by an immediate count. -/
  | srai (d s1 : Opnd) (n : BitVec 5)
  /-- SLTI (R91): Signed set-less-than against an immediate. -/
  | slti (d s1 : Opnd) (imm : BitVec 11)
  /-- LANE (R92): Extracts an element of S1, extended to 32 bits, into lane 0 of D. -/
  | lane (d s1 : Opnd) (idx : BitVec 7) (t : ETy)
  /-- MV (R93): Copies a whole row. -/
  | mv (d s1 : Opnd)
  /-- INS (R94): Inserts lane 0 of S1 as one element of D. -/
  | ins (d s1 : Opnd) (idx : BitVec 7) (t : ETy)
  /-- VADD (R95): Element-wise wrapping add. -/
  | vadd (d s1 s2 : Opnd) (t : ETy)
  /-- VSUB (R95): Element-wise wrapping subtract. -/
  | vsub (d s1 s2 : Opnd) (t : ETy)
  /-- VMUL (R95): Element-wise low multiply. -/
  | vmul (d s1 s2 : Opnd) (t : ETy)
  /-- VMULH (R95): Element-wise high multiply. -/
  | vmulh (d s1 s2 : Opnd) (t : ETy)
  /-- VMAC (R95): Element-wise multiply-accumulate into D. -/
  | vmac (d s1 s2 : Opnd) (t : ETy)
  /-- VMIN (R95): Element-wise minimum. -/
  | vmin (d s1 s2 : Opnd) (t : ETy)
  /-- VMAX (R95): Element-wise maximum. -/
  | vmax (d s1 s2 : Opnd) (t : ETy)
  /-- VAND (R95): Element-wise AND. -/
  | vand (d s1 s2 : Opnd) (t : ETy)
  /-- VOR (R95): Element-wise OR. -/
  | vor (d s1 s2 : Opnd) (t : ETy)
  /-- VXOR (R95): Element-wise XOR. -/
  | vxor (d s1 s2 : Opnd) (t : ETy)
  /-- VSHL (R95): Element-wise left shift. -/
  | vshl (d s1 s2 : Opnd) (t : ETy)
  /-- VSHR (R95): Element-wise logical right shift. -/
  | vshr (d s1 s2 : Opnd) (t : ETy)
  /-- VSRA (R95): Element-wise arithmetic right shift. -/
  | vsra (d s1 s2 : Opnd) (t : ETy)
  /-- VABS (R95): Element-wise absolute value. -/
  | vabs (d s1 : Opnd) (t : ETy)
  /-- VADDS (R95): Element-wise saturating add. -/
  | vadds (d s1 s2 : Opnd) (t : ETy)
  /-- VSUBS (R95): Element-wise saturating subtract. -/
  | vsubs (d s1 s2 : Opnd) (t : ETy)
  /-- VCMPEQ (R96): Element-wise equality mask. -/
  | vcmpeq (d s1 s2 : Opnd) (t : ETy)
  /-- VCMPLT (R96): Element-wise less-than mask. -/
  | vcmplt (d s1 s2 : Opnd) (t : ETy)
  /-- VCMPLE (R96): Element-wise less-or-equal mask. -/
  | vcmple (d s1 s2 : Opnd) (t : ETy)
  /-- VSEL (R96): Element-wise select by the mask in D. -/
  | vsel (d s1 s2 : Opnd) (t : ETy)
  /-- VBCAST (R97): Broadcasts element 0 of S1. -/
  | vbcast (d s1 : Opnd) (t : ETy)
  /-- VPERM (R97): Permutes S1 by the indices in S2. -/
  | vperm (d s1 s2 : Opnd) (t : ETy)
  /-- VROT (R97): Rotates a row down by k elements. -/
  | vrot (d s1 : Opnd) (k : BitVec 7) (t : ETy)
  /-- VNARROW (R98): Saturating narrow of two rows into one. -/
  | vnarrow (d s1 s2 : Opnd) (t : ETy)
  /-- VWIDEN (R99): Widens the low or high half of a row. -/
  | vwiden (high : Bool) (d s1 : Opnd) (t : ETy)
  /-- VRED (R100): Tree reduction of a row by add, min, max or xor into lane 0. -/
  | vred (op : RedOp) (d s1 : Opnd) (t : ETy)
  /-- VSCAN (R101): Inclusive prefix sums. -/
  | vscan (d s1 : Opnd) (t : ETy)
  /-- VPACKT (R102): Packs element signs as trits in format t. -/
  | vpackt (d s1 : Opnd) (t : ETy)
  /-- VUNPKT (R103): Decodes t groups into trit elements, setting BADT on bad bytes. -/
  | vunpkt (d s1 : Opnd) (t : ETy)
  /-- VIOTA (R104): Writes the element indices. -/
  | viota (d : Opnd) (t : ETy)
  /-- VDOT4 (R105): Sums four byte products per 32-bit lane. -/
  | vdot4 (d s1 s2 : Opnd) (t : ETy)
  /-- FADD (R106): Correctly rounded FP add. -/
  | fadd (d s1 s2 : Opnd) (t : ETy)
  /-- FSUB (R106): FP subtract. -/
  | fsub (d s1 s2 : Opnd) (t : ETy)
  /-- FMUL (R106): FP multiply. -/
  | fmul (d s1 s2 : Opnd) (t : ETy)
  /-- FMA (R106): Fused x × y + z with one rounding. -/
  | fma (d s1 s2 : Opnd) (t : ETy)
  /-- FMS (R106): Fused z − x × y with one rounding. -/
  | fms (d s1 s2 : Opnd) (t : ETy)
  /-- FMIN (R107): FP minimum. -/
  | fmin (d s1 s2 : Opnd) (t : ETy)
  /-- FMAX (R107): FP maximum. -/
  | fmax (d s1 s2 : Opnd) (t : ETy)
  /-- FDIV (R106): FP divide. -/
  | fdiv (d s1 s2 : Opnd) (t : ETy)
  /-- FSQRT (R106): FP square root. -/
  | fsqrt (d s1 : Opnd) (t : ETy)
  /-- FRCP (R109): Approximate reciprocal. -/
  | frcp (d s1 : Opnd) (t : ETy)
  /-- FRSQ (R109): Approximate reciprocal square root. -/
  | frsq (d s1 : Opnd) (t : ETy)
  /-- FEXP2 (R109): Approximate 2 to the power x. -/
  | fexp2 (d s1 : Opnd) (t : ETy)
  /-- FLOG2 (R109): Approximate base-2 logarithm. -/
  | flog2 (d s1 : Opnd) (t : ETy)
  /-- FCMPEQ (R108): FP equality mask. -/
  | fcmpeq (d s1 s2 : Opnd) (t : ETy)
  /-- FCMPLT (R108): FP less-than mask. -/
  | fcmplt (d s1 s2 : Opnd) (t : ETy)
  /-- FCMPLE (R108): FP less-or-equal mask. -/
  | fcmple (d s1 s2 : Opnd) (t : ETy)
  /-- FCLASS (R110): Classifies each element as a one-hot bit. -/
  | fclass (d s1 : Opnd) (t : ETy)
  /-- FCVT (R112): Converts between FP formats, optionally saturating. -/
  | fcvt (d s1 : Opnd) (t src : ETy) (sat : Bool)
  /-- FCVTI (R113): Converts FP to an integer type. -/
  | fcvti (d s1 : Opnd) (t src : ETy)
  /-- ICVTF (R113): Converts an integer type to FP. -/
  | icvtf (d s1 : Opnd) (t src : ETy)
  /-- FRED (R114): FP tree reduction by add, min or max. -/
  | fred (op : FRedOp) (d s1 : Opnd) (t : ETy)
  /-- FABS (R115): Clears sign bits. -/
  | fabs (d s1 : Opnd) (t : ETy)
  /-- FNEG (R115): Inverts sign bits. -/
  | fneg (d s1 : Opnd) (t : ETy)
  /-- FSGNJ (R115): Takes magnitude bits from S1 and sign bits from S2. -/
  | fsgnj (d s1 s2 : Opnd) (t : ETy)
  /-- TOKB (R126): Pushes a taken or not-taken token for a bundle-offset target. -/
  | tokb (s1 : Opnd) (off : BitVec 11)
  /-- TOKJ (R126): Pushes a taken token whose target is lane 0 of S1. -/
  | tokj (s1 : Opnd)
  /-- LATE_WRITE_LANDING (R257): A load's, amo's, cas's or accrd's data lands in the physical row or queue entry bound at issue. -/
  | lateWriteLanding (core : Word) (ue : Bool)
  /-- MESSAGE_DELIVERY (R202): A message reaches a core's NI and is placed in a slot, spilled, refused or discarded by tag and generation. -/
  | messageDelivery (i : Nat)
  /-- SEND_ANSWER (R204): The destination's acceptance or refusal reaches a waiting send, which completes or traps OVF. -/
  | sendAnswer (core : Word) (ans : SendAns)
  /-- HANDLER_START (R206): The owner slot dispatches the next ready message by class order and starts its handler. -/
  | handlerStart (core : Word)
  /-- PREEMPT (R207): A ready prompt message pre-empts a normal or bulk handler within 12 cycles. -/
  | preempt (core : Word)
  /-- PREEMPT_RESUME (R278): A pre-empted handler resumes from the shadow set once no prompt message is ready. -/
  | preemptResume (core : Word)
  /-- SERVICE_DISPATCH (R256): The kiln starts a handler directly through its management path, with PRV = 1. -/
  | serviceDispatch (core : Word) (pc : Word) (wb wl pb pl proc : Nat)
  /-- DCT_DECREMENT (R217): A decrement reaches a DCT entry: it counts down and releases the held message, faults the entry, or is discarded. -/
  | dctDecrement (i : Nat)
  /-- BARRIER_PHASE_COMPLETE (R187): All members have arrived and the counted copies have settled, so every member's gbar returns. -/
  | barrierPhaseComplete (grp : Nat)
  /-- COPY_JOB_START (R169): A queued copy job starts once no earlier entry locks its ranges. -/
  | copyJobStart (cl : Nat) (j : Nat)
  /-- COPY_BEAT (R167): The copy unit performs one beat of a job, or stops the job FAULTED before a faulting beat. -/
  | copyBeat (cl : Nat) (j : Nat) (ue : Bool)
  /-- STREAM_BEAT (R163): A stream reads and sends one beat to a channel; the END beat frees its slot and RLT entry. Of stream n % 4; where
  n is 4 or more the read meets an error that cannot be corrected (R360; log 28). -/
  | streamBeat (core : Word) (n : Nat)
  /-- HELD_REMOTE_ACCESS (R141): A translated access from another cluster that was held by an RLT entry is performed once the entry frees. -/
  | heldRemoteAccess (i : Nat)
  /-- IMAGE_WRITE (R248): The mould performs an image write of an sti. -/
  | imageWrite (cl : Nat)
  /-- GANG_START (R225): Eight cycles after every named core holds a matching post, the gang starts, sampling state and retiring the mgang instructions. -/
  | gangStart (cl : Nat)
  /-- GANGTO (R226): A post pending for 2^20 cycles traps GANGTO and is withdrawn. -/
  | gangto (core : Word)
  /-- GANG_STEP_RETIRE (R229): A ring step retires into its tile, setting flags; the last step retires the operation and frees its entries. -/
  | gangStepRetire (cl : Nat) (ue : Nat)
  /-- REFRESH_WINDOW (R138): A slice's refresh window opens or closes on the refresh timer; reads are held until its end. -/
  | refreshWindow (core : Word) (opens : Bool)
  /-- HARVEST_DISPATCH (R304): An idle H slot with lending active takes a parked context or a harvest-eligible bulk message. -/
  | harvestDispatch (core : Word)
  /-- REVOCATION (R309): An overlapping owner message, reclaim or lend triggers revocation: the harvester is cancelled, parked and scrubbed. -/
  | revocation (core : Word)
  /-- REVOCATION_COMPLETE (R310): Revocation completes within RVK, and the owner issues at full rate. -/
  | revocationComplete (core : Word)
  /-- LENDING_RESUME (R312): After the owner's done, with no owner message ready, lending resumes and lent rows are zeroed. -/
  | lendingResume (core : Word)
  /-- PARKED_CONTEXT_RESUME (R312): A parked context is copied back from its bank and restarted as eret with keep. -/
  | parkedContextResume (core : Word)
  /-- PARKED_CONTEXT_MOVE (R312): The kiln moves a parked context to another core's bank or to the save area. -/
  | parkedContextMove (core : Word) (bank : Nat) (dest : Option (Word × Nat))
  /-- PAGE_WALK (R321): A walker completes a page-table walk, filling the TLBs or reporting a fault. -/
  | pageWalk (core : Word)
  /-- TLB_INVALIDATE (R322): The kiln invalidates translations by range, by process or entirely. -/
  | tlbInvalidate (part : Nat) (proc : Option Nat) (va len : Nat)
  /-- TRANSLATION_COMPLETION (R325): An ATS Translation Completion arrives, filling the ATC or failing the access. -/
  | translationCompletion (core : Word) (ok : Bool) (page logSize : Nat) (r w : Bool)
  /-- PAGE_REQUEST_GROUP_RESPONSE (R326): A PRI response arrives: success retranslates; failure ends the access. -/
  | pageRequestGroupResponse (core : Word) (code : PrgCode)
  /-- INVALIDATE_REQUEST (R327): An ATS Invalidate Request removes matching ATC entries. -/
  | invalidateRequest (pasid page logSize : Nat)
  /-- TRANSFER_BEAT (R332): A memory-core transfer job performs one beat, incrementing a stage word for xpush, or faults. -/
  | transferBeat (core : Word) (j : Nat) (ue : Bool)
  /-- PUSH_COMPLETION_MESSAGE (R333): After the last push beat lands, the completion message is sent, waiting while it is refused. -/
  | pushCompletionMessage (core : Word) (j : Nat)
  /-- PI_WRITE (R284): A write of the producer index admits records, is ignored, or faults the queue on ring overrun. -/
  | piWrite (q : Nat) (v : Word)
  /-- CLRF (R283): Clears FAULT, returns a faulted queue to admission and a stopped queue to service. -/
  | clrf (q : Nat)
  /-- STOP (R294): Starts the pre-emption ladder for the queue. -/
  | stopQueue (q : Nat)
  /-- FCI_WRITE (R297): Advances the fault consumer index, freeing room in the fault area. -/
  | fciWrite (q : Nat) (v : Word)
  /-- NOTIFY_PAGE_OTHER_WRITE (R283): Any other access to the notify page is ignored. -/
  | notifyPageOtherWrite (q : Nat) (off : Nat) (v : Word)
  /-- MESSAGE_RECORD (R287): A message command record starts once its message has been accepted at its destination or destinations. -/
  | messageRecord (q : Nat)
  /-- LAUNCH_RECORD (R289): A launch command record is checked, its groups are filled, and it starts the walker, or it is rejected. -/
  | launchRecord (q : Nat)
  /-- SIGNAL_RECORD (R287): A signal command record starts and retires at once. -/
  | signalRecord (q : Nat)
  /-- ENERGY_BUDGET_RECORD (R354): An energy budget command record sets the process's budget per quantum. -/
  | energyBudgetRecord (q : Nat)
  /-- WALKER_ISSUE (R292): The walker issues the next canonical point's message to its placement, waiting while there is no room. -/
  | walkerIssue (i : Nat)
  /-- KERNEL_COMPLETE (R286): All of a kernel's handlers, entries and engine work are done, so its record retires. -/
  | kernelComplete (q : Nat) (rec : Word)
  /-- COMPLETION_SIGNAL (R288): Once a retired record's earlier signals are written, the 16-byte signal is written, or a KILN fault record is. -/
  | completionSignal (q : Nat)
  /-- WHEEL_TURN (R293): At a quantum's end, the wheel maps the next process's queues and resets its budget. -/
  | wheelTurn (part : Nat)
  /-- TLIMIT_EXPIRY (R294): A kernel exceeding TLIMIT triggers the ladder. -/
  | tlimitExpiry (q : Nat) (rec : Word)
  /-- LADDER_DRAIN_COMPLETE (R294): Every started kernel completes within T1: RUNG 1 and STATE idle. -/
  | ladderDrainComplete (q : Nat)
  /-- LADDER_T1_EXPIRY (R294): T1 expires without a drain, so rung 2 saves the queue's work. -/
  | ladderT1Expiry (q : Nat)
  /-- LADDER_SAVE_COMPLETE (R294): The save completes: RUNG 2 and STATE saved. -/
  | ladderSaveComplete (q : Nat)
  /-- LADDER_T2_EXPIRY (R294): T2 expires without a save, so rung 3 resets the clusters. -/
  | ladderT2Expiry (q : Nat)
  /-- LADDER_RESET (R295): Rung 3 increments GEN, fences external writes and reports STATE reset. -/
  | ladderReset (q : Nat)
  /-- QUEUE_RESTORE (R294): A queue returns to service and its saved work is restored. -/
  | queueRestore (q : Nat)
  /-- PROCESS_KILL (R294): Killing a process climbs the ladder and destroys its queues. -/
  | processKill (proc : Nat)
  /-- PARTITION_CHANGE (R294): A partition change triggers the ladder for the affected queues. -/
  | partitionChange (part : Nat) (cores : PartCores) (room : PartRoom)
  /-- QUEUE_CREATE (R281): The kiln checks a queue descriptor and creates the queue with GEN 0. -/
  | queueCreate (q : Nat) (desc : List Word)
  /-- PROCESS_CHANGE (R135): When the old process's cluster work is gone, the kiln zeroes cluster memories and changes the cluster's process. -/
  | processChange (cl : Nat)
  /-- METERING_INTERVAL (R351): Every 10 us, each cluster converts activity counts to cones and charges them to processes. -/
  | meteringInterval (cl : Nat)
  /-- CLOCK_CHANGE (R357): The planner changes a cluster's clock at a bundle boundary, pausing issue for 32 cycles. -/
  | clockChange (cl : Nat) (n : Nat)
  /-- PAIR_ROLLBACK (R364): A pair mismatch or own-array error rolls both cores back to the last checkpoint. -/
  | pairRollback (core : Word)
  /-- LINK_FLIT (R365): A link receives a flit, accepting it in order or discarding it on a CRC failure or duplicate. -/
  | linkFlit (link : Nat) (seq : Nat) (crcOk : Bool)
  /-- LINK_RETRAIN (R365): After 16 failures of one flit the link retrains, or it is marked down. -/
  | linkRetrain (link : Nat) (ok : Bool)
  /-- DURABLE_REPLAY (R368): After a reset touching a durable queue, the kiln applies committed journals and replays unretired records. -/
  | durableReplay (q : Nat)
  /-- MODULE_LOAD (R347): The loader verifies, places, relocates and publishes a module and returns a handle or a status. -/
  | moduleLoad (part : Nat) (proc : Nat) (file : List Byte) (pc : Word) (ins : LoadIns)
  /-- MODULE_UNLOAD (R350): Unloads a module, or returns BUSY while it is in use. -/
  | moduleUnload (proc : Nat) (handle : Nat)
  /-- WEIGHT_STORE_OPEN (R334): The kiln opens a partition's weight store when no kernel runs there. -/
  | weightStoreOpen (part : Nat)
  /-- WEIGHT_STORE_CLOSE (R334): The kiln closes the weight store after every xws job has completed, as a pkg release. -/
  | weightStoreClose (part : Nat)
  /-- KEY_SLOT_LOAD (R329): The kiln loads or unloads an XTS key slot through its management path. -/
  | keySlotLoad (slot : Nat) (keys : Option (BitVec 256 × BitVec 256))
  /-- CORE_RESET (R254): Core reset clears the operand file, windows, bounds and tiles to their reset values. -/
  | coreReset (core : Word)
  /-- FIRMWARE_UPDATE (R371): A live update writes and verifies the new image, quiesces, hands over and restarts the kiln cores. -/
  | firmwareUpdate (image : List Byte) (version : Nat) (sigOff : Nat)
  /-- FULL_SERVICE (R373): Calibration and training finish, and stage 2 full service begins. -/
  | fullService (d : ServiceDesc)
  /-- SIGNED_RECORD (R374): The management core accepts or rejects a signed configuration, repair or disable record. -/
  | signedRecord (file : List Byte)
  /-- NEGOTIATE_ALGORITHMS (R376): SPDM NEGOTIATE_ALGORITHMS request, offering SHA3-256 and ML-DSA-44. -/
  | negotiateAlgorithms (sha3 mldsa : Bool)
  /-- CHALLENGE (R376): SPDM CHALLENGE request, signed by the identity key. -/
  | challenge (nonce : BitVec 256)
  /-- GET_MEASUREMENTS (R376): SPDM GET_MEASUREMENTS request returning measurement indices 1–5. -/
  | getMeasurements (index : Nat)
  /-- ILLEGAL_ENCODING (R46): A word with an unassigned OP, a form mismatch, a reserved code or a nonzero must-be-zero field reaches its trap point and raises ILL. -/
  | illegalEncoding (ari : Bool) (reason : Nat) (word : Word)
  /-- WRITE_PERFORMED (R151): A store's or atomic's write becomes performed at a scope some time after the instruction issued, which releases fences and release waits. -/
  | writePerformed (core : Word)
  /-- MALFORMED_COMMAND_RECORD (R288): An admitted command record whose TYPE is malformed, or that cannot be read, is rejected with code 9 or 10, or retires with a KILN fault record. -/
  | malformedCommandRecord (q : Nat)
  /-- COMPLETION_TIMEOUT (R324): An external request's completion timer runs out, ending the access as an uncorrectable error or a transfer fault of kind 7. -/
  | completionTimeout (core : Word)
  /-- SCRUB (R360): In idle cycles the SRAM arrays are scrubbed, correcting errors and reporting lines corrected twice within a second for repair. -/
  | scrub (core : Word) (line : Nat) (corrected : Bool)
  /-- PAGE_TABLE_WRITE (R321): The kiln rewrites a process's page-table entries, which later walks may read old or new. -/
  | pageTableWrite (key : Nat) (entry : DWord)
  /-- L2_HIT_FILL (R320): An L1 miss that hits the cluster L2 TLB fills the L1 four cycles later and ends the stall. -/
  | l2HitFill (core : Word)
  /-- CNOP (R119): Control-slot no-operation. -/
  | cnop
  /-- LOOP_POP (R124): Discards the innermost loop-stack entry. -/
  | loopPop
  /-- JTOK (R126): Pops the head token and continues at its PC if taken, or falls through; stalls while the token queue is empty. -/
  | jtok
  /-- ERET (R128): Returns from a trap handler to EPC-C and EPC-A, honouring SKIP and the backlog, and clears IT. -/
  | eret
  /-- IFENCE (R160): Discards prefetched bundles and refetches from the instruction store. -/
  | ifence
  /-- RLS (R210): Frees the current message slot after earlier arithmetic words have completed. -/
  | rls
  /-- DONE (R210): Ends the handler, discarding queue entries, clearing the loop stack and IT, and freeing or keeping the slot. -/
  | done
  /-- RECLAIM (R308): Revokes the lent footprint and ends lending. -/
  | reclaim
  /-- CKPT (R363): In a paired kernel, waits for both cores and forms a checkpoint; otherwise does nothing. -/
  | ckpt
  /-- ANOP (R39): Arithmetic-slot no-operation. -/
  | anop
  /-- FETCH (R9): The cluster fetch port reads one 64-byte line for the requesting cores; a fetch beyond the store traps ADDR. -/
  | fetch
  /-- STRDL (R29): Both streams of a slot stall on each other with wait codes, and the core raises STRDL. -/
  | strdl
  /-- TRAP_ENTRY (R273): After pending writes to the header row land, the trap writes the header, sets IT and starts the handler, or escalates. -/
  | trapEntry
  /-- KERNEL_STOP (R276): The kiln stops a kernel, aborting jobs, streams, gangs and DCT entries and discarding unperformed accesses. -/
  | kernelStop
  /-- TLB_INVALIDATE_COMPLETE (R193): Once in-flight accesses through removed entries are performed at pod scope, completion is reported as a release. -/
  | tlbInvalidateComplete
  /-- INVALIDATION_COMPLETION (R327): After accesses that used the removed entries are performed, the Invalidation Completion is sent. -/
  | invalidationCompletion
  /-- OVERCURRENT_STEP (R356): While measured current exceeds the electrical limit, clusters above their floors step down every 10 us. -/
  | overcurrentStep
  /-- FIRMWARE_HEARTBEAT (R371): The new image's first heartbeat switches the active slot and makes the measurement current. -/
  | firmwareHeartbeat
  /-- FIRMWARE_HEARTBEAT_MISS (R371): With no heartbeat within 50 ms, the old image is restarted with the handover structure. -/
  | firmwareHeartbeatMiss
  /-- POWER_ON (R373): Stage 0: the management core derives the identity key and verifies the kiln image. -/
  | powerOn
  /-- REDUCED_SERVICE (R373): Die 0 up: stage 1 reduced service begins; the host gives the notify pages their address. -/
  | reducedService
  /-- PRI_REENABLE (R326): The kiln re-enables PRI after a Response Failure, so page requests may be sent again, as many as the host allocates. -/
  | priReenable
  /-- GET_VERSION (R376): SPDM GET_VERSION request answered over DOE. -/
  | getVersion
  /-- GET_CAPABILITIES (R376): SPDM GET_CAPABILITIES request. -/
  | getCapabilities
  /-- GET_DIGESTS (R376): SPDM GET_DIGESTS request. -/
  | getDigests
  /-- GET_CERTIFICATE (R376): SPDM GET_CERTIFICATE request. -/
  | getCertificate
  deriving DecidableEq, Repr

end Sys2Proof
end

