-- ==== Sys2Proof/Machine/Bits.lean ====
section
/-! DEFINITION. Rows as lanes, bytes and elements, and the integer operations on element bits (R64, R65,
R84). An element is held as the natural number its bits denote. -/

namespace Sys2Proof.Machine

/-- n bits of a row from bit pos up, as a number. -/
def bitsAt (r : Row) (pos n : Nat) : Nat := (r.toNat >>> pos) % 2 ^ n

/-- Lane i of a row (R65, R84). -/
def lane (r : Row) (i : Nat) : Word := r.extractLsb' (32 * i) 32

/-- The row with lane i replaced. -/
def setLane (r : Row) (i : Nat) (x : Word) : Row :=
  (r &&& ~~~(BitVec.setWidth 512 (BitVec.allOnes 32) <<< (32 * i))) ||| (x.setWidth 512 <<< (32 * i))

/-- A row with x in lane 0 and zero elsewhere (R15). -/
def laneRow (x : Word) : Row := x.setWidth 512

/-- A row from its lanes, lowest first; missing lanes are 0. -/
def rowOfLanes : List Word → Row
  | [] => 0
  | x :: xs => x.setWidth 512 ||| (rowOfLanes xs <<< 32)

/-- The first n lanes taken from a, the others from b. -/
def mergeLanes (n : Nat) (a b : Row) : Row :=
  let m : Row := BitVec.ofNat 512 (2 ^ (32 * n) - 1)
  (a &&& m) ||| (b &&& ~~~m)

/-- Element e of width w (R65). -/
def elem (r : Row) (w e : Nat) : Nat := bitsAt r (w * e) w

/-- The row with element e of width w replaced (R84). -/
def setElem (r : Row) (w e x : Nat) : Row :=
  (r &&& ~~~(BitVec.ofNat 512 (2 ^ w - 1) <<< (w * e))) ||| (BitVec.ofNat 512 (x % 2 ^ w) <<< (w * e))

/-- The number whose first n elements of width w are f 0, f 1, ... -/
def packN (w : Nat) (f : Nat → Nat) : Nat → Nat
  | 0 => 0
  | n + 1 => packN w f n + ((f n % 2 ^ w) <<< (w * n))

/-- The row whose first n elements of width w are f 0, f 1, ..., the others zero. -/
def rowOf (w n : Nat) (f : Nat → Nat) : Row := BitVec.ofNat 512 (packN w f n)

/-- Byte b of a row (R65). -/
def rowByte (r : Row) (b : Nat) : Byte := r.extractLsb' (8 * b) 8

/-- The n lowest bytes of a row, lowest first. -/
def rowBytes (r : Row) (n : Nat) : List Byte := (List.range n).map (rowByte r)

/-- The number that bytes denote, lowest first (R65). -/
def bytesNat : List Byte → Nat
  | [] => 0
  | b :: bs => b.toNat + 256 * bytesNat bs

/-- The n lowest bytes of a number, lowest first. -/
def natBytes (v : Nat) : Nat → List Byte
  | 0 => []
  | n + 1 => BitVec.ofNat 8 v :: natBytes (v / 256) n

/-- A row from bytes, lowest first; missing bytes are 0. -/
def rowOfBytes (bs : List Byte) : Row := BitVec.ofNat 512 (bytesNat bs)

end Sys2Proof.Machine

namespace Sys2Proof

/-- Element width in bits (R64, R84). -/
def ETy.width : ETy → Nat
  | .i8 => 8 | .n8 => 8 | .e4m3 => 8 | .e5m2 => 8
  | .i16 => 16 | .n16 => 16 | .b16 => 16
  | .i32 => 32 | .n32 => 32 | .f32 => 32

/-- The type is a signed integer type (R64). -/
def ETy.isSigned : ETy → Bool
  | .i8 => true | .i16 => true | .i32 => true | _ => false

/-- The integer type of twice the width and the same signedness (R98, R99). -/
def ETy.doubled : ETy → ETy
  | .i8 => .i16 | .i16 => .i32 | .n8 => .n16 | .n16 => .n32 | t => t

end Sys2Proof

namespace Sys2Proof.Machine

/-- Two's complement value of w bits (R84). -/
def signedVal (w x : Nat) : Int := if x % 2 ^ w < 2 ^ (w - 1) then ((x % 2 ^ w : Nat) : Int) else ((x % 2 ^ w : Nat) : Int) - 2 ^ w

/-- Val: the integer the bits x of an element denote (R84). -/
def val (t : ETy) (x : Nat) : Int := if t.isSigned then signedVal t.width x else ((x % 2 ^ t.width : Nat) : Int)

/-- Wrap: reduction modulo 2^w (R84). -/
def wrap (w : Nat) (i : Int) : Nat := (i % (2 ^ w : Int)).toNat

/-- Least and greatest value of an integer type (R64). -/
def tyMin (t : ETy) : Int := if t.isSigned then -(2 ^ (t.width - 1)) else 0
def tyMax (t : ETy) : Int := if t.isSigned then 2 ^ (t.width - 1) - 1 else 2 ^ t.width - 1

/-- Sat: clamps to the range of T (R84). -/
def sat (t : ETy) (i : Int) : Nat := wrap t.width (max (tyMin t) (min (tyMax t) i))

/-- Ext: widened to 32 bits (R84). -/
def ext32 (t : ETy) (x : Nat) : Word := BitVec.ofNat 32 (wrap 32 (val t x))

/-- Quotient rounded toward zero (R89). -/
def quot (a b : Int) : Int := Int.tdiv a b

/-- The number of one bits among the first n bits (R88). -/
def popcount (x : Word) : Nat := ((List.range 32).filter (fun i => x.getLsbD i)).length

/-- The number of leading zero bits (R88). -/
def leadingZeros (x : Word) : Nat := if x = 0 then 32 else 31 - Nat.log2 x.toNat

/-! ### Ternary groups (R58, R66) -/

/-- The trit of a group's byte g at place i (R66), 0 where the byte is bad. -/
def tritOf (b : Nat) (i : Nat) : Int := if b > 242 then 0 else (((b / 3 ^ i) % 3 : Nat) : Int) - 1

/-- Decodes one 8-byte group to its 32 trits, and whether it holds a bad byte (R66). -/
def tritGroup (bs : Nat → Nat) : (Nat → Int) × Bool :=
  if bs 7 != 0 then (fun _ => 0, true)
  else
    (fun i =>
      if i < 30 then tritOf (bs (i / 5)) (i % 5)
      else if bs 6 > 8 then 0
      else if i = 30 then ((bs 6 % 3 : Nat) : Int) - 1
      else ((bs 6 / 3 : Nat) : Int) - 1,
     (List.range 6).any (fun g => decide (bs g > 242)) || decide (bs 6 > 8))

/-- Packs 32 trits as one 8-byte group (R58): byte g at index g. -/
def tritPack (t : Nat → Int) (g : Nat) : Nat :=
  let d := fun i => (t i + 1).toNat
  if g < 6 then d (5 * g) + 3 * d (5 * g + 1) + 9 * d (5 * g + 2) + 27 * d (5 * g + 3) + 81 * d (5 * g + 4)
  else if g = 6 then d 30 + 3 * d 31
  else 0

end Sys2Proof.Machine
end

