-- ==== Sys2Proof/Machine/Float.lean ====
section
/-! DEFINITION. Floating point (R73-R83, R106-R116): the formats, exact values, rounding once under a mode,
and the operations on one element. Everything is exact arithmetic on Nat and Int, narrowed at the end. -/

namespace Sys2Proof.Machine

/-- The exceptions of R75, in the order of INFO[13:9] and of the flags of cx.fpm. -/
structure Exc where
  nv : Bool
  dz : Bool
  of : Bool
  uf : Bool
  nx : Bool
  deriving DecidableEq, Repr

def Exc.none : Exc := ⟨false, false, false, false, false⟩
def Exc.invalid : Exc := { Exc.none with nv := true }
def Exc.divZero : Exc := { Exc.none with dz := true }
def Exc.overflow : Exc := { Exc.none with of := true, nx := true }
def Exc.underflow : Exc := { Exc.none with uf := true, nx := true }
def Exc.inexact : Exc := { Exc.none with nx := true }
def Exc.or (a b : Exc) : Exc := ⟨a.nv || b.nv, a.dz || b.dz, a.of || b.of, a.uf || b.uf, a.nx || b.nx⟩
/-- Bit 0 invalid, 1 division by zero, 2 overflow, 3 underflow, 4 inexact (R75, R74 from bit 4 up). -/
def Exc.bits (e : Exc) : Nat := e.nv.toNat + 2 * e.dz.toNat + 4 * e.of.toNat + 8 * e.uf.toNat + 16 * e.nx.toNat

/-- Rounding modes (R74). -/
inductive RMode where
  | rne | rtz | rdn | rup
  deriving DecidableEq, Repr

/-- The mode that RM codes (R74). -/
def RMode.of (b : BitVec 2) : RMode := if b = 0 then .rne else if b = 1 then .rtz else if b = 2 then .rdn else .rup

/-- A format: fraction bits, bias, greatest finite code, code of an overflow to infinity and of the
canonical NaN, width (R73, R76-R78). -/
structure Fmt where
  mb : Nat
  bias : Nat
  maxCode : Nat
  infCode : Nat
  infSigned : Bool
  nan : Nat
  width : Nat
  flush : Bool

/-- The four formats (R73, R77, R78). -/
def fmt : ETy → Fmt
  | .b16 => ⟨7, 127, 0x7F7F, 0x7F80, true, 0x7FC0, 16, true⟩
  | .e4m3 => ⟨3, 7, 0x7E, 0x7F, false, 0x7F, 8, false⟩
  | .e5m2 => ⟨2, 15, 0x7B, 0x7C, true, 0x7E, 8, false⟩
  | _ => ⟨23, 127, 0x7F7FFFFF, 0x7F800000, true, 0x7FC00000, 32, false⟩

/-- A floating-point datum: a NaN (signalling or quiet), an infinity, or ± m · 2^e. -/
inductive FNum where
  | nan (signalling : Bool)
  | inf (neg : Bool)
  | fin (neg : Bool) (m : Nat) (e : Int)
  deriving DecidableEq, Repr

/-- The sign bit of an element code. -/
def fSign (t : ETy) (x : Nat) : Bool := (x >>> ((fmt t).width - 1)) % 2 == 1
/-- The code without its sign bit. -/
def fMag (t : ETy) (x : Nat) : Nat := x % 2 ^ ((fmt t).width - 1)
/-- A code from sign and magnitude bits. -/
def fCode (t : ETy) (neg : Bool) (mag : Nat) : Nat := if neg then 2 ^ ((fmt t).width - 1) + mag else mag

/-- The datum of a code, read as a number (R73, R76-R78). -/
def fDecode (t : ETy) (x : Nat) : FNum :=
  let f := fmt t
  let neg := fSign t x
  let mag := fMag t x
  let ex := mag >>> f.mb
  let fr := mag % 2 ^ f.mb
  if mag > f.maxCode then
    if f.infSigned && mag == f.infCode then .inf neg
    else .nan (f.width > 8 && fr < 2 ^ (f.mb - 1))
  else if ex = 0 then
    if f.flush then .fin neg 0 0 else .fin neg fr (1 - (f.bias : Int) - f.mb)
  else .fin neg (2 ^ f.mb + fr) ((ex : Int) - f.bias - f.mb)

/-- Shifts m right by n, rounding to an integer under the mode: the result and whether it is inexact.
sticky says that the exact value lies strictly above m. -/
def roundShift (rm : RMode) (neg : Bool) (m n : Nat) (sticky : Bool) : Nat × Bool :=
  let q := m >>> n
  let r := m % 2 ^ n
  let inexact := r != 0 || sticky
  let half := 2 ^ (n - 1)
  let up :=
    match rm with
    | .rne => n != 0 && (decide (r > half) || (r == half && (sticky || q % 2 == 1)))
    | .rtz => false
    | .rdn => neg && inexact
    | .rup => !neg && inexact
  (if up then q + 1 else q, inexact)

/-- Rounds ± m · 2^e (strictly above it where sticky holds) to a multiple of 2^q. -/
def roundQ (rm : RMode) (neg : Bool) (m : Nat) (e q : Int) (sticky : Bool) : Nat × Bool :=
  if e < q then roundShift rm neg m (q - e).toNat sticky
  else (m <<< (e - q).toNat, sticky)

/-- The result of an overflow (R79). -/
def overflowCode (t : ETy) (rm : RMode) (neg satBit : Bool) : Nat :=
  let f := fmt t
  let toInf :=
    match rm with
    | .rne => true
    | .rtz => false
    | .rdn => neg
    | .rup => !neg
  if satBit || !toInf then fCode t neg f.maxCode
  else if f.infSigned then fCode t neg f.infCode
  else f.infCode

/-- Rounds the exact value ± m · 2^e (m not 0; strictly above it where sticky holds) once to the format,
with its exceptions (R73, R75, R77, R79). -/
def roundTo (t : ETy) (rm : RMode) (satBit neg : Bool) (m : Nat) (e : Int) (sticky : Bool) : Nat × Exc :=
  let f := fmt t
  let emin : Int := 1 - f.bias - f.mb
  let top : Int := Nat.log2 m + e
  let qu := top - f.mb
  let free := roundQ rm neg m e qu sticky
  let tiny := decide (free.1 = 0) || decide ((Nat.log2 free.1 : Int) + qu < 1 - f.bias)
  let q := max qu emin
  let r := roundQ rm neg m e q sticky
  let mag := ((q - emin).toNat <<< f.mb) + r.1
  if mag > f.maxCode then (overflowCode t rm neg satBit, Exc.overflow)
  else if f.flush && tiny then (fCode t neg 0, Exc.underflow)
  else (fCode t neg mag, { Exc.none with nx := r.2, uf := tiny && r.2 })

/-- Rounds a datum to the format (R79): conversions, and the last step of every operation. An infinity goes
to e4m3 as R79 says; NaN results are canonical (R76). -/
def fRound (t : ETy) (rm : RMode) (satBit : Bool) : FNum → Nat × Exc
  | .nan s => ((fmt t).nan, if s then Exc.invalid else Exc.none)
  | .inf neg =>
    match t with
    | .e4m3 => if satBit then (fCode .e4m3 neg 0x7E, Exc.none) else (0x7F, Exc.invalid)
    | .f32 => (fCode .f32 neg (fmt .f32).infCode, Exc.none)
    | t => if satBit then (fCode t neg (fmt t).maxCode, Exc.none) else (fCode t neg (fmt t).infCode, Exc.none)
  | .fin neg m e => if m = 0 then (fCode t neg 0, Exc.none) else roundTo t rm satBit neg m e false

/-- A datum is a signalling NaN. -/
def FNum.snan : FNum → Bool
  | .nan s => s
  | _ => false
def FNum.isNan : FNum → Bool
  | .nan _ => true
  | _ => false
def FNum.negate : FNum → FNum
  | .nan s => .nan s
  | .inf n => .inf (!n)
  | .fin n m e => .fin (!n) m e

/-- The canonical NaN with invalid where asked (R76). -/
def nanOut (t : ETy) (inv : Bool) : Nat × Exc := ((fmt t).nan, if inv then Exc.invalid else Exc.none)

/-- The sum of two exact data, rounded once; the sign of an exact zero sum is R106's. -/
def addRound (t : ETy) (rm : RMode) (x y : FNum) (inv : Bool) : Nat × Exc :=
  match x, y with
  | .nan _, _ => nanOut t inv
  | _, .nan _ => nanOut t inv
  | .inf a, .inf b => if a == b then fRound t rm false (.inf a) else nanOut t true
  | .inf a, .fin _ _ _ => fRound t rm false (.inf a)
  | .fin _ _ _, .inf b => fRound t rm false (.inf b)
  | .fin a m e, .fin b n k =>
    let lo := min e k
    let u : Int := (m <<< (e - lo).toNat : Nat)
    let v : Int := (n <<< (k - lo).toNat : Nat)
    let s : Int := (if a then -u else u) + (if b then -v else v)
    if s = 0 then
      let neg := if m = 0 && n = 0 && a == b then a else rm == .rdn
      (fCode t neg 0, Exc.none)
    else roundTo t rm false (s < 0) s.natAbs lo false

/-- The exact product (R106). -/
def mulExact (x y : FNum) : FNum :=
  match x, y with
  | .nan s, .nan r => .nan (s || r)
  | .nan s, _ => .nan s
  | _, .nan r => .nan r
  | .inf a, .inf b => .inf (a != b)
  | .inf a, .fin b n _ => if n = 0 then .nan true else .inf (a != b)
  | .fin a m _, .inf b => if m = 0 then .nan true else .inf (a != b)
  | .fin a m e, .fin b n k => .fin (a != b) (m * n) (e + k)

/-- `fadd` and `fsub` on one element (R106). -/
def fAdd (t : ETy) (rm : RMode) (x y : Nat) : Nat × Exc :=
  let a := fDecode t x
  let b := fDecode t y
  addRound t rm a b (a.snan || b.snan)
def fSub (t : ETy) (rm : RMode) (x y : Nat) : Nat × Exc :=
  let a := fDecode t x
  let b := fDecode t y
  addRound t rm a b.negate (a.snan || b.snan)

/-- `fmul` on one element (R106). -/
def fMul (t : ETy) (rm : RMode) (x y : Nat) : Nat × Exc := fRound t rm false (mulExact (fDecode t x) (fDecode t y))

/-- `fma` and `fms` on one element: z ± x·y, rounded once (R106). -/
def fMac (t : ETy) (rm : RMode) (sub : Bool) (x y z : Nat) : Nat × Exc :=
  let p := mulExact (fDecode t x) (fDecode t y)
  let c := fDecode t z
  addRound t rm c (if sub then p.negate else p) (p.snan || c.snan)

/-- `fdiv` on one element (R106): the quotient is carried to 64 bits beyond the divisor's length with a
sticky remainder, and rounded once. -/
def fDiv (t : ETy) (rm : RMode) (x y : Nat) : Nat × Exc :=
  let a := fDecode t x
  let b := fDecode t y
  match a, b with
  | .nan _, _ => nanOut t (a.snan || b.snan)
  | _, .nan _ => nanOut t b.snan
  | .inf _, .inf _ => nanOut t true
  | .inf s, .fin r _ _ => fRound t rm false (.inf (s != r))
  | .fin s _ _, .inf r => (fCode t (s != r) 0, Exc.none)
  | .fin s m e, .fin r n k =>
    if n = 0 then
      if m = 0 then nanOut t true else (fCode t (s != r) (fmt t).infCode, Exc.divZero)
    else if m = 0 then (fCode t (s != r) 0, Exc.none)
    else
      let u := m <<< 64
      roundTo t rm false (s != r) (u / n) (e - 64 - k) (u % n != 0)

/-- The integer square root, bit by bit from bit k down. -/
def isqrtFrom (n : Nat) : Nat → Nat → Nat
  | 0, r => if (r + 1) * (r + 1) ≤ n then r + 1 else r
  | k + 1, r => isqrtFrom n k (if (r + 2 ^ (k + 1)) * (r + 2 ^ (k + 1)) ≤ n then r + 2 ^ (k + 1) else r)
def isqrt (n : Nat) : Nat := isqrtFrom n (Nat.log2 n / 2 + 1) 0

/-- `fsqrt` on one element (R106). -/
def fSqrt (t : ETy) (rm : RMode) (x : Nat) : Nat × Exc :=
  match fDecode t x with
  | .nan s => nanOut t s
  | .inf neg => if neg then nanOut t true else fRound t rm false (.inf false)
  | .fin neg m e =>
    if m = 0 then (fCode t neg 0, Exc.none)
    else if neg then nanOut t true
    else
      let odd := e % 2 != 0
      let u := (if odd then 2 * m else m) <<< 64
      let k : Int := (if odd then e - 1 else e) - 64
      let r := isqrt u
      roundTo t rm false false r (k / 2) (r * r != u)

/-- Compares two finite or infinite data: -1, 0 or 1; no meaning for NaN. -/
def fCmp (x y : FNum) : Int :=
  match x, y with
  | .inf a, .inf b => if a == b then 0 else if a then -1 else 1
  | .inf a, _ => if a then -1 else 1
  | _, .inf b => if b then 1 else -1
  | .fin a m e, .fin b n k =>
    let lo := min e k
    let u : Int := (m <<< (e - lo).toNat : Nat)
    let v : Int := (n <<< (k - lo).toNat : Nat)
    let s := if a then -u else u
    let r := if b then -v else v
    if s < r then -1 else if s = r then 0 else 1
  | _, _ => 0

/-- The code an operand counts as, b16 subnormals flushed (R77). -/
def fFlush (t : ETy) (x : Nat) : Nat :=
  if (fmt t).flush && fMag t x < 2 ^ (fmt t).mb then fCode t (fSign t x) 0 else x

/-- `fmin` (less) and `fmax` on one element (R107). -/
def fMinMax (t : ETy) (less : Bool) (x y : Nat) : Nat × Exc :=
  let a := fDecode t x
  let b := fDecode t y
  let ex := if a.snan || b.snan then Exc.invalid else Exc.none
  match a.isNan, b.isNan with
  | true, true => ((fmt t).nan, ex)
  | true, false => (fFlush t y, ex)
  | false, true => (fFlush t x, ex)
  | false, false =>
    let c := fCmp a b
    let xLess := if c = 0 then fSign t x else c < 0
    (if xLess == less then fFlush t x else fFlush t y, ex)

/-- The relations of the compares (R108). -/
inductive FRel where
  | eq | lt | le
  deriving DecidableEq, Repr

/-- A compare on one element: all ones or 0 (R108). -/
def fCompare (t : ETy) (r : FRel) (x y : Nat) : Nat × Exc :=
  let a := fDecode t x
  let b := fDecode t y
  if a.isNan || b.isNan then
    (0, if a.snan || b.snan || r != .eq then Exc.invalid else Exc.none)
  else
    let c := fCmp a b
    let holds := match r with
      | .eq => decide (c = 0)
      | .lt => decide (c < 0)
      | .le => decide (c ≤ 0)
    (if holds then 2 ^ t.width - 1 else 0, Exc.none)

/-- `fclass` on one element: bits, not numbers (R110). -/
def fClass (t : ETy) (x : Nat) : Nat :=
  let f := fmt t
  let neg := fSign t x
  let mag := fMag t x
  if mag = f.infCode then (if neg then 1 else 128)
  else if mag > f.infCode then (if mag % 2 ^ f.mb < 2 ^ (f.mb - 1) then 256 else 512)
  else if mag = 0 then (if neg then 8 else 16)
  else if mag < 2 ^ f.mb then (if neg then 4 else 32)
  else (if neg then 2 else 64)

/-- The sign operations: a NaN in S1 gives the canonical NaN (R115). -/
def fSignOp (t : ETy) (x : Nat) (neg : Bool) : Nat :=
  if fMag t x > (fmt t).infCode then (fmt t).nan else fCode t neg (fMag t x)

/-! ### Approximations (R109) -/

/-- The four approximation instructions. -/
inductive Approx where
  | rcp | rsq | exp2 | log2
  deriving DecidableEq, Repr
def Approx.num : Approx → Nat
  | .rcp => 0 | .rsq => 1 | .exp2 => 2 | .log2 => 3

/-- The exponent of one unit in the last place of an f32, or a b16, near ± m · 2^e. -/
def ulpExp (m : Nat) (e : Int) : Int := max ((Nat.log2 m : Int) + e) (-126) - 23
def ulpExpB16 (m : Nat) (e : Int) : Int := max ((Nat.log2 m : Int) + e) (-126) - 7

/-- |c - x| ≤ k · 2^u for c = ± m·2^e and every x between ± a·2^b and ± (a+2)·2^b. -/
def within (neg : Bool) (m : Nat) (e : Int) (xneg : Bool) (a : Nat) (b : Int) (k : Nat) (u : Int) : Bool :=
  let lo := min (min e b) u
  let c : Int := (m <<< (e - lo).toNat : Nat)
  let x : Int := (a <<< (b - lo).toNat : Nat)
  let y : Int := ((a + 2) <<< (b - lo).toNat : Nat)
  let d : Int := (k <<< (u - lo).toNat : Nat)
  let c := if neg then -c else c
  let x1 := if xneg then -y else x
  let x2 := if xneg then -x else y
  x2 - d ≤ c && c ≤ x1 + d

/-- 2^(2^-i) in units of 2^-64, by repeated square roots. -/
def rootTwo : Nat → Nat
  | 0 => 2 ^ 65
  | i + 1 => isqrt (rootTwo i <<< 64)

/-- 2^f in units of 2^-64, the fraction f given in units of 2^-k: each set bit multiplies its root. -/
def expFrac (f : Nat) : Nat → Nat → Nat → Nat → Nat
  | 0, _, _, acc => acc
  | n + 1, k, root, acc =>
    let r := isqrt (root <<< 64)
    expFrac f n (k - 1) r (if k != 0 && (f >>> (k - 1)) % 2 == 1 then (acc * r) >>> 64 else acc)

/-- The fraction of log2 of a number in [1, 2) given in units of 2^-128: n bits by repeated squaring. -/
def logFrac : Nat → Nat → Nat → Nat
  | 0, _, acc => acc
  | n + 1, m, acc =>
    let s := (m * m) >>> 128
    if s ≥ 2 ^ 129 then logFrac n (s >>> 1) (2 * acc + 1) else logFrac n s (2 * acc)

/-- The exact result of an approximation instruction at ± m · 2^e (m not 0, no special input), as sign, a
and b with the result between a · 2^b and (a+2) · 2^b (R109). -/
def approxExact (op : Approx) (neg : Bool) (m : Nat) (e : Int) : Bool × Nat × Int :=
  match op with
  | .rcp => (neg, 2 ^ 128 / m, -e - 128)
  | .rsq =>
    let odd := e % 2 != 0
    let n := if odd then 2 * m else m
    let k : Int := if odd then e - 1 else e
    (false, isqrt (2 ^ 256 / n), -128 - k / 2)
  | .exp2 =>
    let sh := (-e).toNat
    let whole : Nat := if e < 0 then m >>> sh else m <<< e.toNat
    let frac := if e < 0 then m % 2 ^ sh else 0
    let up := neg && frac != 0
    let f := if up then 2 ^ sh - frac else frac
    let w : Int := if neg then -(whole : Int) - (if up then 1 else 0) else whole
    (false, expFrac f 60 sh (2 ^ 65) (2 ^ 64) >>> 12, w - 52)
  | .log2 =>
    let k := Nat.log2 m
    let fr := logFrac 48 (m <<< (128 - k)) 0
    let v : Int := ((k : Int) + e) * 2 ^ 48 + fr
    (v < 0, if v < 0 then v.natAbs - 2 else v.natAbs, -48)

/-- The b16 roundings of ± m · 2^e under every mode lie within one b16 ulp of the exact result x; one that flushes to
zero does too (R77, R109). -/
def nearB16 (neg : Bool) (m : Nat) (e : Int) (x : Bool × Nat × Int) : Bool :=
  [RMode.rne, .rtz, .rdn, .rup].all (fun rm =>
    match fDecode .b16 (fRound .b16 rm false (.fin neg m e)).1 with
    | .fin rn rm re => rm == 0 || within rn rm re x.1 x.2.1 x.2.2 1 (ulpExpB16 x.2.1 x.2.2)
    | _ => true)

/-- The f32 result of an approximation away from its special inputs, and whether the input is one of its
exact cases (R109): the proposal of Config where it lies within the bound of the exact value, and, for an input that
is a b16 datum, its b16 roundings within theirs; else the exact value rounded to nearest (log 20). -/
def approxF32 (op : Approx) (bits : Nat) (neg : Bool) (m : Nat) (e : Int) : Nat × Bool :=
  let k := Nat.log2 m
  let pow := m == 2 ^ k
  let p : Int := (k : Int) + e
  let exact :=
    match op with
    | .rcp => pow && decide (-p ≥ -149)
    | .rsq => pow && p % 2 == 0
    | .exp2 => decide (e ≥ 0) || m % 2 ^ (-e).toNat == 0
    | .log2 => pow
  let x := approxExact op neg m e
  let base := if x.2.1 = 0 then 0 else (roundTo .f32 .rne false x.1 x.2.1 x.2.2 false).1
  if exact then
    let v : Nat × Exc :=
      match op with
      | .rcp => roundTo .f32 .rne false neg 1 (-p) false
      | .rsq => roundTo .f32 .rne false false 1 (-(p / 2)) false
      | .exp2 => roundTo .f32 .rne false false 1 (if neg then -((m : Int) * 2 ^ e.toNat / 2 ^ (-e).toNat) else (m : Int) * 2 ^ e.toNat / 2 ^ (-e).toNat) false
      | .log2 => if p = 0 then (0, Exc.none) else roundTo .f32 .rne false (p < 0) p.natAbs 0 false
    (v.1, true)
  else
    let c := (Config.approx op.num (BitVec.ofNat 32 bits)).toNat
    let u := if x.2.1 = 0 then -149 else ulpExp x.2.1 x.2.2
    let ok :=
      match fDecode .f32 c with
      | .fin cn cm ce =>
        (match op with
        | .rcp => within cn cm ce x.1 x.2.1 x.2.2 1 u
        | .rsq => within cn cm ce x.1 x.2.1 x.2.2 1 u
        | .exp2 => within cn cm ce x.1 x.2.1 x.2.2 2 u
        | .log2 => within cn cm ce x.1 x.2.1 x.2.2 2 u || within cn cm ce x.1 x.2.1 x.2.2 1 (-22)) &&
        (bits % 65536 != 0 || nearB16 cn cm ce x)
      | _ => false
    (if ok then c else base, false)

/-- An approximation instruction on one element (R109). -/
def fApprox (t : ETy) (rm : RMode) (op : Approx) (x : Nat) : Nat × Exc :=
  let infc := fun neg => fCode t neg (fmt t).infCode
  match fDecode t x with
  | .nan s => nanOut t s
  | .inf neg =>
    match op with
    | .rcp => (fCode t neg 0, Exc.none)
    | .rsq => if neg then nanOut t true else (0, Exc.none)
    | .exp2 => if neg then (0, Exc.none) else (infc false, Exc.none)
    | .log2 => if neg then nanOut t true else (infc false, Exc.none)
  | .fin neg m e =>
    if m = 0 then
      match op with
      | .rcp => (infc neg, Exc.divZero)
      | .rsq => (infc neg, Exc.divZero)
      | .exp2 => (fCode t false ((fmt t).bias <<< (fmt t).mb), Exc.none)
      | .log2 => (infc true, Exc.divZero)
    else
      let x32 := fDecode t x
      let big := fCmp x32 (.fin false 128 0) ≥ 0
      let small := fCmp x32 (.fin true 149 0) < 0
      let rcpOver := fCmp (.fin false m e) (.fin false 1 (-128)) ≤ 0
      if op == .rcp && rcpOver then (infc neg, Exc.overflow)
      else if (op == .rsq || op == .log2) && neg then nanOut t true
      else if op == .exp2 && big then (infc false, Exc.overflow)
      else if op == .exp2 && small then (0, Exc.underflow)
      else
        let bits := (fRound .f32 .rne false x32).1
        let r := approxF32 op bits neg m e
        match fDecode .f32 r.1 with
        | .fin rn m2 e2 =>
          let tiny := fCmp (.fin false m2 e2) (.fin false 1 (-126)) < 0
          match t with
          | .b16 =>
            let o := fRound .b16 rm false (.fin rn m2 e2)
            (o.1, if r.2 then o.2 else { o.2 with nx := true, uf := o.2.uf || tiny })
          | _ => (r.1, if r.2 then Exc.none else { Exc.inexact with uf := tiny })
        | _ => (r.1, Exc.inexact)

/-! ### Conversions (R79, R80, R111-R113) -/

/-- `fcvti` on one element (R80). -/
def fToInt (t src : ETy) (rm : RMode) (x : Nat) : Nat × Exc :=
  match fDecode src x with
  | .nan _ => (0, Exc.invalid)
  | .inf neg => (wrap t.width (if neg then tyMin t else tyMax t), Exc.invalid)
  | .fin neg m e =>
    let r := roundQ rm neg m e 0 false
    let v : Int := if neg then -(r.1 : Int) else r.1
    if v < tyMin t then (wrap t.width (tyMin t), Exc.invalid)
    else if v > tyMax t then (wrap t.width (tyMax t), Exc.invalid)
    else (wrap t.width v, if r.2 then Exc.inexact else Exc.none)

/-- `icvtf` on one element (R80). -/
def intToF (t : ETy) (rm : RMode) (v : Int) : Nat × Exc := fRound t rm false (.fin (v < 0) v.natAbs 0)

/-- `fcvt` on one element (R79, R112). -/
def fConvert (t src : ETy) (rm : RMode) (satBit : Bool) (x : Nat) : Nat × Exc := fRound t rm satBit (fDecode src x)

/-- The halving tree of R82 over element codes, with its exceptions. -/
def fTree (op : Nat → Nat → Nat × Exc) : Nat → (Nat → Nat) → Exc → Nat × Exc
  | 0, v, ex => (v 0, ex)
  | k + 1, v, ex =>
    let h := 2 ^ k
    let xs := (List.range h).map (fun e => op (v e) (v (e + h)))
    let ex := xs.foldl (fun a r => a.or r.2) ex
    fTree op k (fun e => (xs.getD e (0, Exc.none)).1) ex

/-- Element-wise application with the union of the exceptions (R75). -/
def fMap (w n : Nat) (f : Nat → Nat × Exc) : Row × Exc :=
  let xs := (List.range n).map f
  (rowOf w n (fun e => (xs.getD e (0, Exc.none)).1), xs.foldl (fun a r => a.or r.2) Exc.none)

/-! ### Accumulator conversions (R81) -/

/-- The 32-bit result of `accrd` for one element, its exceptions, and whether it sets CSAT (R81). The manual does not
say which exceptions the last step of F = 3 raises: here a saturation or a NaN raises no invalid, and a fraction
raises inexact, saturated or not (DESIGN CHOICE, log 57). -/
def accConvert (c : Conv) (rm : RMode) (acc : BitVec 48) (sa sb : Word) : Nat × Exc × Bool :=
  let v := acc.toInt
  let scaled := fun rm =>
    let x := intToF .f32 rm v
    let y := fMul .f32 rm x.1 sa.toNat
    let z := fMul .f32 rm y.1 sb.toNat
    (z.1, (x.2.or y.2).or z.2)
  match c with
  | .i32 =>
    let r := sat .i32 v
    (r, Exc.none, decide (signedVal 32 r ≠ v))
  | .f32 =>
    let z := scaled rm
    (z.1, z.2, false)
  | .b16 =>
    let z := scaled rm
    let r := fConvert .b16 .f32 rm false z.1
    (r.1, z.2.or r.2, false)
  | .i8 =>
    let z := scaled .rne
    match fDecode .f32 z.1 with
    | .nan _ => (0, z.2, true)
    | .inf neg => (if neg then 2 ^ 32 - 128 else 127, z.2, true)
    | .fin neg m e =>
      let r := roundQ .rne neg m e 0 false
      let v : Int := if neg then -(r.1 : Int) else r.1
      (wrap 32 (max (-128) (min 127 v)), if r.2 then z.2.or Exc.inexact else z.2, decide (v < -128) || decide (v > 127))
  | .lo => ((acc.extractLsb' 0 32).toNat, Exc.none, false)
  | .hi => (wrap 32 (signedVal 16 (acc.extractLsb' 32 16).toNat), Exc.none, false)

end Sys2Proof.Machine
end

