-- ==== Sys2Proof/WellFormed.lean ====
section
/-! DEFINITION. Which syntax terms are instructions: the direction rules of operands (R14, R22, R26), the
admitted types, orders and values (R33, R36, R37, R40). An event is always well formed. -/

namespace Sys2Proof

/-- Control-slot source (R14, R22). -/
def Opnd.srcC : Opnd → Bool
  | .q n => n.val == 2 || n.val == 3
  | .c _ => false
  | _ => true

/-- Control-slot destination of a result complete at issue (R14, R22). -/
def Opnd.dstC : Opnd → Bool
  | .q n => n.val == 0 || n.val == 1
  | .c _ => false
  | .m _ => false
  | _ => true

/-- Control-slot destination that admits no latch (R149, R157, R171, R238, R260). -/
def Opnd.dstLate : Opnd → Bool
  | .lat => false
  | x => x.dstC

/-- Arithmetic-slot source (R14, R22). -/
def Opnd.srcA : Opnd → Bool
  | .q n => n.val == 0 || n.val == 1
  | _ => true

/-- Arithmetic-slot destination (R14, R22). -/
def Opnd.dstA : Opnd → Bool
  | .q n => n.val == 2 || n.val == 3
  | .c _ => false
  | .m _ => false
  | _ => true

/-- Arithmetic-slot destination that is also read (R14, R85). -/
def Opnd.dstRead : Opnd → Bool
  | .q _ => false
  | x => x.dstA

/-- The six integer types (R64). -/
def ETy.ints : List ETy := [.i8, .i16, .i32, .n8, .n16, .n32]
/-- The signed types. -/
def ETy.signed : List ETy := [.i8, .i16, .i32]
/-- The 8- and 16-bit integer types. -/
def ETy.narrow : List ETy := [.i8, .i16, .n8, .n16]
/-- The types of FP arithmetic. -/
def ETy.fps : List ETy := [.f32, .b16]
/-- The four floating-point formats. -/
def ETy.floats : List ETy := [.f32, .b16, .e4m3, .e5m2]

/-- Elements per row (R64, R84). -/
def ETy.count : ETy → Nat
  | .i8 => 64 | .n8 => 64 | .e4m3 => 64 | .e5m2 => 64
  | .i16 => 32 | .n16 => 32 | .b16 => 32
  | .i32 => 16 | .n32 => 16 | .f32 => 16

/-- Registers that `csrw` may name (R132, R43). -/
def CReg.writable : CReg → Bool
  | .mode => true | .fpm => true | .mstat => true | .scla => true | .sclb => true | .tagsel => true | .tagent => true
  | _ => false

/-- The A formats a semiring admits (R222). -/
def Ring.admits : Ring → AFmt → Bool
  | .pt, f => f != .i16
  | .ora, f => f != .i16
  | _, f => f == .i8 || f == .i16

/-- EXT of `mgang` within R223. -/
def GangWord.ok (g : GangWord) : Bool :=
  g.base.toNat ≤ 8 && g.mask != 0 && g.kb != 0 && g.ring.admits g.af

/-- Loads admit rlx, acq and sc; stores rlx, rel and sc (R33). -/
def Ord.load (o : Ord) : Bool := o != .rel
def Ord.store (o : Ord) : Bool := o != .acq

/-- The term is an instruction the maps admit (R33-R44). -/
def Instr.wf : Instr → Bool
  | .cnop => true
  | .bc c a _ => if c = .always then a = .z else a.srcC
  | .call a _ => a.dstC
  | .jr a b => a.dstC && b.srcC
  | .loop a off => a.srcC && 0 < off.toInt
  | .loopPop => true
  | .loopi off _ => 0 < off.toInt
  | .jtok => true
  | .trap _ => true
  | .eret => true
  | .brk _ => true
  | .fsync _ => true
  | .csrr a _ => a.dstC
  | .csrw a r => a.srcC && r.writable
  | .movi a _ => a.dstC
  | .adda a b _ => a.dstC && b.srcC
  | .ldb a b _ o _ => a.dstLate && b.srcC && o.load
  | .ldh a b _ o _ => a.dstLate && b.srcC && o.load
  | .ldw a b _ o _ => a.dstLate && b.srcC && o.load
  | .ldd a b _ o _ => a.dstLate && b.srcC && o.load
  | .ldv a b _ o _ => a.dstLate && b.srcC && o.load
  | .ldbLone a b o _ _ => a.dstLate && b.srcC && o.load
  | .ldhLone a b o _ _ => a.dstLate && b.srcC && o.load
  | .ldwLone a b o _ _ => a.dstLate && b.srcC && o.load
  | .lddLone a b o _ _ => a.dstLate && b.srcC && o.load
  | .ldvLone a b o _ _ => a.dstLate && b.srcC && o.load
  | .stb a b _ o _ => a.srcC && b.srcC && o.store
  | .sth a b _ o _ => a.srcC && b.srcC && o.store
  | .stw a b _ o _ => a.srcC && b.srcC && o.store
  | .std a b _ o _ => a.srcC && b.srcC && o.store
  | .stv a b _ o _ => a.srcC && b.srcC && o.store
  | .stbLone a b o _ _ => a.srcC && b.srcC && o.store
  | .sthLone a b o _ _ => a.srcC && b.srcC && o.store
  | .stwLone a b o _ _ => a.srcC && b.srcC && o.store
  | .stdLone a b o _ _ => a.srcC && b.srcC && o.store
  | .stvLone a b o _ _ => a.srcC && b.srcC && o.store
  | .ldx a b c _ => a.dstLate && b.srcC && c.srcC
  | .stx a b c _ => a.srcC && b.srcC && c.srcC
  | .amo _ a b c _ _ _ => a.dstLate && b.srcC && c.srcC
  | .cas a b c _ _ _ => a.dstLate && b.srcC && c.srcC
  | .fence _ _ _ => true
  | .ifence => true
  | .strm a => a.srcC
  | .cpy _ a b => a.srcC && b.dstLate
  | .cpseal a => a.dstLate
  | .cpwait al a b => a.dstLate && (if al then b = .z else b.srcC)
  | .sti a b _ o _ => a.srcC && b.srcC && o.store
  | .stiLone a b o _ _ => a.srcC && b.srcC && o.store
  | .send a b => a.srcC && b.srcC
  | .sendGrp a b => a.srcC && b.srcC
  | .senda a b => a.srcC && b.srcC
  | .rls => true
  | .done => true
  | .tagsetOn _ => true
  | .tagsetOff _ => true
  | .dcarm a b => a.srcC && b.srcC
  | .dcdec a => a.srcC
  | .gbar _ => true
  | .mgang a b g => a.srcC && b.srcC && g.ok
  | .mcode a => a.srcC
  | .accrd _ a b => a.dstLate && b.srcC
  | .accz _ f l => f.toNat ≤ l.toNat
  | .setwin a => a.srcC
  | .setwinLone _ _ => true
  | .getwin a => a.dstLate
  | .setbnd a => a.srcC
  | .lend a => a.srcC
  | .reclaim => true
  | .xld a => a.srcC
  | .xst a => a.srcC
  | .xpush a => a.srcC
  | .xws a => a.srcC
  | .ckpt => true
  | .anop => true
  | .add d x y => d.dstA && x.srcA && y.srcA
  | .sub d x y => d.dstA && x.srcA && y.srcA
  | .mul d x y => d.dstA && x.srcA && y.srcA
  | .mulh d x y => d.dstA && x.srcA && y.srcA
  | .mulhn d x y => d.dstA && x.srcA && y.srcA
  | .div d x y => d.dstA && x.srcA && y.srcA
  | .divn d x y => d.dstA && x.srcA && y.srcA
  | .rem d x y => d.dstA && x.srcA && y.srcA
  | .remn d x y => d.dstA && x.srcA && y.srcA
  | .and d x y => d.dstA && x.srcA && y.srcA
  | .or d x y => d.dstA && x.srcA && y.srcA
  | .xor d x y => d.dstA && x.srcA && y.srcA
  | .shl d x y => d.dstA && x.srcA && y.srcA
  | .shr d x y => d.dstA && x.srcA && y.srcA
  | .sra d x y => d.dstA && x.srcA && y.srcA
  | .min d x y => d.dstA && x.srcA && y.srcA
  | .max d x y => d.dstA && x.srcA && y.srcA
  | .minn d x y => d.dstA && x.srcA && y.srcA
  | .maxn d x y => d.dstA && x.srcA && y.srcA
  | .slt d x y => d.dstA && x.srcA && y.srcA
  | .sltn d x y => d.dstA && x.srcA && y.srcA
  | .seq d x y => d.dstA && x.srcA && y.srcA
  | .sel d x y => d.dstRead && x.srcA && y.srcA
  | .clz d x => d.dstA && x.srcA
  | .popc d x => d.dstA && x.srcA
  | .addi d x _ => d.dstA && x.srcA
  | .andi d x _ => d.dstA && x.srcA
  | .ori d x _ => d.dstA && x.srcA
  | .xori d x _ => d.dstA && x.srcA
  | .shli d x _ => d.dstA && x.srcA
  | .shri d x _ => d.dstA && x.srcA
  | .srai d x _ => d.dstA && x.srcA
  | .slti d x _ => d.dstA && x.srcA
  | .lane d x k t => d.dstA && x.srcA && ETy.ints.contains t && k.toNat < t.count
  | .mv d x => d.dstA && x.srcA
  | .ins d x k t => d.dstRead && x.srcA && ETy.ints.contains t && k.toNat < t.count
  | .vadd d x y t => d.dstA && x.srcA && y.srcA && ETy.ints.contains t
  | .vsub d x y t => d.dstA && x.srcA && y.srcA && ETy.ints.contains t
  | .vmul d x y t => d.dstA && x.srcA && y.srcA && ETy.ints.contains t
  | .vmulh d x y t => d.dstA && x.srcA && y.srcA && ETy.ints.contains t
  | .vmac d x y t => d.dstRead && x.srcA && y.srcA && ETy.ints.contains t
  | .vmin d x y t => d.dstA && x.srcA && y.srcA && ETy.ints.contains t
  | .vmax d x y t => d.dstA && x.srcA && y.srcA && ETy.ints.contains t
  | .vand d x y t => d.dstA && x.srcA && y.srcA && ETy.ints.contains t
  | .vor d x y t => d.dstA && x.srcA && y.srcA && ETy.ints.contains t
  | .vxor d x y t => d.dstA && x.srcA && y.srcA && ETy.ints.contains t
  | .vshl d x y t => d.dstA && x.srcA && y.srcA && ETy.ints.contains t
  | .vshr d x y t => d.dstA && x.srcA && y.srcA && ETy.ints.contains t
  | .vsra d x y t => d.dstA && x.srcA && y.srcA && ETy.ints.contains t
  | .vabs d x t => d.dstA && x.srcA && ETy.signed.contains t
  | .vadds d x y t => d.dstA && x.srcA && y.srcA && ETy.ints.contains t
  | .vsubs d x y t => d.dstA && x.srcA && y.srcA && ETy.ints.contains t
  | .vcmpeq d x y t => d.dstA && x.srcA && y.srcA && ETy.ints.contains t
  | .vcmplt d x y t => d.dstA && x.srcA && y.srcA && ETy.ints.contains t
  | .vcmple d x y t => d.dstA && x.srcA && y.srcA && ETy.ints.contains t
  | .vsel d x y t => d.dstRead && x.srcA && y.srcA && ETy.ints.contains t
  | .vbcast d x t => d.dstA && x.srcA && ETy.ints.contains t
  | .vperm d x y t => d.dstA && x.srcA && y.srcA && ETy.ints.contains t
  | .vrot d x k t => d.dstA && x.srcA && ETy.ints.contains t && k.toNat < t.count
  | .vnarrow d x y t => d.dstA && x.srcA && y.srcA && ETy.narrow.contains t
  | .vwiden _ d x t => d.dstA && x.srcA && ETy.narrow.contains t
  | .vred _ d x t => d.dstA && x.srcA && ETy.ints.contains t
  | .vscan d x t => d.dstA && x.srcA && ETy.ints.contains t
  | .vpackt d x t => d.dstA && x.srcA && ETy.signed.contains t
  | .vunpkt d x t => d.dstA && x.srcA && ETy.signed.contains t
  | .viota d t => d.dstA && ETy.ints.contains t
  | .vdot4 d x y t => d.dstA && x.srcA && y.srcA && [ETy.i8, .n8].contains t
  | .fadd d x y t => d.dstA && x.srcA && y.srcA && ETy.fps.contains t
  | .fsub d x y t => d.dstA && x.srcA && y.srcA && ETy.fps.contains t
  | .fmul d x y t => d.dstA && x.srcA && y.srcA && ETy.fps.contains t
  | .fma d x y t => d.dstRead && x.srcA && y.srcA && ETy.fps.contains t
  | .fms d x y t => d.dstRead && x.srcA && y.srcA && ETy.fps.contains t
  | .fmin d x y t => d.dstA && x.srcA && y.srcA && ETy.fps.contains t
  | .fmax d x y t => d.dstA && x.srcA && y.srcA && ETy.fps.contains t
  | .fdiv d x y t => d.dstA && x.srcA && y.srcA && ETy.fps.contains t
  | .fsqrt d x t => d.dstA && x.srcA && ETy.fps.contains t
  | .frcp d x t => d.dstA && x.srcA && ETy.fps.contains t
  | .frsq d x t => d.dstA && x.srcA && ETy.fps.contains t
  | .fexp2 d x t => d.dstA && x.srcA && ETy.fps.contains t
  | .flog2 d x t => d.dstA && x.srcA && ETy.fps.contains t
  | .fcmpeq d x y t => d.dstA && x.srcA && y.srcA && ETy.fps.contains t
  | .fcmplt d x y t => d.dstA && x.srcA && y.srcA && ETy.fps.contains t
  | .fcmple d x y t => d.dstA && x.srcA && y.srcA && ETy.fps.contains t
  | .fclass d x t => d.dstA && x.srcA && ETy.fps.contains t
  | .fcvt d x t s _ => d.dstA && x.srcA && ETy.floats.contains t && ETy.floats.contains s && t != s
  | .fcvti d x t s => d.dstA && x.srcA && ETy.ints.contains t && ETy.fps.contains s
  | .icvtf d x t s => d.dstA && x.srcA && ETy.fps.contains t && ETy.ints.contains s
  | .fred _ d x t => d.dstA && x.srcA && ETy.fps.contains t
  | .fabs d x t => d.dstA && x.srcA && ETy.fps.contains t
  | .fneg d x t => d.dstA && x.srcA && ETy.fps.contains t
  | .fsgnj d x y t => d.dstA && x.srcA && y.srcA && ETy.fps.contains t
  | .tokb x _ => x.srcA
  | .tokj x => x.srcA
  | .fetch => true
  | .strdl => true
  | .lateWriteLanding _ _ => true
  | .trapEntry => true
  | .kernelStop => true
  | .messageDelivery _ => true
  | .sendAnswer _ _ => true
  | .handlerStart _ => true
  | .preempt _ => true
  | .preemptResume _ => true
  | .serviceDispatch _ _ _ _ _ _ _ => true
  | .dctDecrement _ => true
  | .barrierPhaseComplete _ => true
  | .copyJobStart _ _ => true
  | .copyBeat _ _ _ => true
  | .streamBeat _ _ => true
  | .heldRemoteAccess _ => true
  | .imageWrite _ => true
  | .gangStart _ => true
  | .gangto _ => true
  | .gangStepRetire _ _ => true
  | .refreshWindow _ _ => true
  | .harvestDispatch _ => true
  | .revocation _ => true
  | .revocationComplete _ => true
  | .lendingResume _ => true
  | .parkedContextResume _ => true
  | .parkedContextMove _ _ _ => true
  | .pageWalk _ => true
  | .tlbInvalidate _ _ _ _ => true
  | .tlbInvalidateComplete => true
  | .translationCompletion _ _ _ _ _ _ => true
  | .pageRequestGroupResponse _ _ => true
  | .invalidateRequest _ _ _ => true
  | .invalidationCompletion => true
  | .transferBeat _ _ _ => true
  | .pushCompletionMessage _ _ => true
  | .piWrite _ _ => true
  | .clrf _ => true
  | .stopQueue _ => true
  | .fciWrite _ _ => true
  | .notifyPageOtherWrite _ _ _ => true
  | .messageRecord _ => true
  | .launchRecord _ => true
  | .signalRecord _ => true
  | .energyBudgetRecord _ => true
  | .walkerIssue _ => true
  | .kernelComplete _ _ => true
  | .completionSignal _ => true
  | .wheelTurn _ => true
  | .tlimitExpiry _ _ => true
  | .ladderDrainComplete _ => true
  | .ladderT1Expiry _ => true
  | .ladderSaveComplete _ => true
  | .ladderT2Expiry _ => true
  | .ladderReset _ => true
  | .queueRestore _ => true
  | .processKill _ => true
  | .partitionChange .. => true
  | .queueCreate _ _ => true
  | .processChange _ => true
  | .meteringInterval _ => true
  | .clockChange _ _ => true
  | .overcurrentStep => true
  | .pairRollback _ => true
  | .linkFlit _ _ _ => true
  | .linkRetrain _ _ => true
  | .durableReplay _ => true
  | .moduleLoad .. => true
  | .moduleUnload _ _ => true
  | .weightStoreOpen _ => true
  | .weightStoreClose _ => true
  | .keySlotLoad _ _ => true
  | .coreReset _ => true
  | .firmwareUpdate _ _ _ => true
  | .firmwareHeartbeat => true
  | .firmwareHeartbeatMiss => true
  | .powerOn => true
  | .reducedService => true
  | .fullService _ => true
  | .signedRecord _ => true
  | .getVersion => true
  | .getCapabilities => true
  | .negotiateAlgorithms _ _ => true
  | .getDigests => true
  | .getCertificate => true
  | .challenge _ => true
  | .getMeasurements _ => true
  | .illegalEncoding _ _ _ => true
  | .writePerformed _ => true
  | .malformedCommandRecord _ => true
  | .priReenable => true
  | .completionTimeout _ => true
  | .scrub _ _ _ => true
  | .pageTableWrite _ _ => true
  | .l2HitFill _ => true

end Sys2Proof
end

