-- ==== Sys2Proof/Decode.lean ====
section
/-! DEFINITION. Decoding (R30-R48): the fields of a word, the reason codes of R46, the control and the
arithmetic map; then the encoder, from the same maps. Decoding is total: a word that is no instruction
is rejected with the lowest reason code that applies (R46). -/

namespace Sys2Proof

/-! ### Field codes -/

/-- The operand code as a specifier, none for 0x7A-0x7F (R38). -/
def opnd? (b : BitVec 7) : Option Opnd :=
  let n := b.toNat
  if h : n < 96 then some (.w ⟨n, h⟩)
  else if h : n - 96 < 8 then some (.o ⟨n - 96, h⟩)
  else if n = 0x68 then some .lat
  else if n = 0x69 then some .z
  else if h : n - 0x6A < 4 then some (.q ⟨n - 0x6A, h⟩)
  else if h : n - 0x6E < 4 then some (.c ⟨n - 0x6E, h⟩)
  else if h : n - 0x72 < 8 then some (.m ⟨n - 0x72, h⟩)
  else none

/-- The code of a specifier (R38). -/
def Opnd.code : Opnd → BitVec 7
  | .w n => BitVec.ofNat 7 n.val
  | .o n => BitVec.ofNat 7 (0x60 + n.val)
  | .lat => 0x68
  | .z => 0x69
  | .q n => BitVec.ofNat 7 (0x6A + n.val)
  | .c n => BitVec.ofNat 7 (0x6E + n.val)
  | .m n => BitVec.ofNat 7 (0x72 + n.val)

/-- ORD code (R33). -/
def ordOf (b : BitVec 2) : Ord :=
  if b = 0 then .rlx else if b = 1 then .acq else if b = 2 then .rel else .sc
def Ord.code : Ord → BitVec 2
  | .rlx => 0 | .acq => 1 | .rel => 2 | .sc => 3

/-- SCP code, none for 5-7 (R33). -/
def scp? (b : BitVec 3) : Option Scp :=
  match b.toNat with
  | 0 => some .core | 1 => some .clus | 2 => some .die | 3 => some .pkg | 4 => some .pod | _ => none
def Scp.code : Scp → BitVec 3
  | .core => 0 | .clus => 1 | .die => 2 | .pkg => 3 | .pod => 4

/-- CND code of `bc`, none for 7 (R33). -/
def cnd? (b : BitVec 3) : Option Cnd :=
  match b.toNat with
  | 0 => some .eq0 | 1 => some .ne0 | 2 => some .lt0 | 3 => some .ge0 | 4 => some .gt0 | 5 => some .le0
  | 6 => some .always | _ => none
def Cnd.code : Cnd → BitVec 3
  | .eq0 => 0 | .ne0 => 1 | .lt0 => 2 | .ge0 => 3 | .gt0 => 4 | .le0 => 5 | .always => 6

/-- T code, none for the reserved codes (R35). -/
def ety? (b : BitVec 4) : Option ETy :=
  match b.toNat with
  | 0 => some .i8 | 1 => some .i16 | 2 => some .i32 | 4 => some .n8 | 5 => some .n16 | 6 => some .n32
  | 8 => some .f32 | 9 => some .b16 | 10 => some .e4m3 | 11 => some .e5m2 | _ => none
def ETy.code : ETy → BitVec 4
  | .i8 => 0 | .i16 => 1 | .i32 => 2 | .n8 => 4 | .n16 => 5 | .n32 => 6
  | .f32 => 8 | .b16 => 9 | .e4m3 => 10 | .e5m2 => 11

/-- Size code of `ldx` and `stx` (R40). -/
def msize? (b : BitVec 3) : Option MSize :=
  match b.toNat with
  | 0 => some .b | 1 => some .h | 2 => some .w | 3 => some .d | 4 => some .v | _ => none
def MSize.code : MSize → BitVec 4
  | .b => 0 | .h => 1 | .w => 2 | .d => 3 | .v => 4

/-- F code of `amo` (R155). -/
def amo? (b : BitVec 4) : Option AmoOp :=
  match b.toNat with
  | 0 => some .add | 1 => some .and | 2 => some .or | 3 => some .xor | 4 => some .min | 5 => some .max
  | 6 => some .minn | 7 => some .maxn | 8 => some .swap | _ => none
def AmoOp.code : AmoOp → BitVec 4
  | .add => 0 | .and => 1 | .or => 2 | .xor => 3 | .min => 4 | .max => 5 | .minn => 6 | .maxn => 7 | .swap => 8

/-- Kind code of `fence` (R158). -/
def fkindOf (b : BitVec 2) : FKind :=
  if b = 0 then .acq else if b = 1 then .rel else if b = 2 then .ar else .sc
def FKind.code : FKind → BitVec 2
  | .acq => 0 | .rel => 1 | .ar => 2 | .sc => 3

/-- Kind code of `cpy` (R166). -/
def cpy? (b : BitVec 4) : Option CpyKind :=
  match b.toNat with
  | 0 => some .copy | 1 => some .redi32 | 2 => some .redf32 | 3 => some .redb16 | 4 => some .slide
  | 5 => some .fill | _ => none
def CpyKind.code : CpyKind → BitVec 4
  | .copy => 0 | .redi32 => 1 | .redf32 => 2 | .redb16 => 3 | .slide => 4 | .fill => 5

/-- Conversion code of `accrd` (R238). -/
def conv? (b : BitVec 4) : Option Conv :=
  match b.toNat with
  | 0 => some .i32 | 1 => some .f32 | 2 => some .b16 | 3 => some .i8 | 4 => some .lo | 5 => some .hi | _ => none
def Conv.code : Conv → BitVec 4
  | .i32 => 0 | .f32 => 1 | .b16 => 2 | .i8 => 3 | .lo => 4 | .hi => 5

/-- Semiring code (R222, R236). -/
def ringOf (b : BitVec 2) : Ring :=
  if b = 0 then .pt else if b = 1 then .minp else if b = 2 then .maxp else .ora
def Ring.code : Ring → BitVec 2
  | .pt => 0 | .minp => 1 | .maxp => 2 | .ora => 3

/-- A format code of `mgang` (R222). -/
def afmtOf (b : BitVec 2) : AFmt :=
  if b = 0 then .t else if b = 1 then .c4 else if b = 2 then .i8 else .i16
def AFmt.code : AFmt → BitVec 2
  | .t => 0 | .c4 => 1 | .i8 => 2 | .i16 => 3

/-- Operation code of `vred` (R37). -/
def redOf (b : BitVec 2) : RedOp :=
  if b = 0 then .add else if b = 1 then .min else if b = 2 then .max else .xor
def RedOp.code : RedOp → BitVec 2
  | .add => 0 | .min => 1 | .max => 2 | .xor => 3
def FRedOp.code : FRedOp → BitVec 2
  | .add => 0 | .min => 1 | .max => 2

/-- Register number of a control register (R132). -/
def CReg.num : CReg → BitVec 11
  | .core => 0x000 | .clus => 0x001 | .cycle => 0x002 | .mode => 0x003 | .fpm => 0x004 | .mstat => 0x005
  | .scla => 0x006 | .sclb => 0x007 | .rfsh => 0x008 | .cone => 0x009 | .lend => 0x00A
  | .grp0 => 0x010 | .grp1 => 0x011 | .grp2 => 0x012 | .grp3 => 0x013 | .wb => 0x020 | .wl => 0x021
  | .pb => 0x040 | .pl => 0x041 | .tagsel => 0x042 | .tagent => 0x043
def creg? (b : BitVec 11) : Option CReg :=
  match b.toNat with
  | 0x000 => some .core | 0x001 => some .clus | 0x002 => some .cycle | 0x003 => some .mode | 0x004 => some .fpm
  | 0x005 => some .mstat | 0x006 => some .scla | 0x007 => some .sclb | 0x008 => some .rfsh | 0x009 => some .cone
  | 0x00A => some .lend | 0x010 => some .grp0 | 0x011 => some .grp1 | 0x012 => some .grp2 | 0x013 => some .grp3
  | 0x020 => some .wb | 0x021 => some .wl | 0x040 => some .pb | 0x041 => some .pl | 0x042 => some .tagsel
  | 0x043 => some .tagent | _ => none

/-! ### Fields of a word -/

def uF (w : Word) : Bool := w.getLsbD 31
def opC (w : Word) : BitVec 6 := w.extractLsb' 25 6
def opA (w : Word) : BitVec 7 := w.extractLsb' 25 7
def aF (w : Word) : BitVec 7 := w.extractLsb' 18 7
def bF (w : Word) : BitVec 7 := w.extractLsb' 11 7
def cF (w : Word) : BitVec 7 := w.extractLsb' 4 7
def fF (w : Word) : BitVec 4 := w.extractLsb' 0 4
def i11F (w : Word) : BitVec 11 := w.extractLsb' 0 11
def o15F (w : Word) : BitVec 15 := w.extractLsb' 0 15
def cndF (w : Word) : BitVec 3 := w.extractLsb' 15 3
def off5F (w : Word) : BitVec 5 := w.extractLsb' 6 5
def scpB (w : Word) : BitVec 3 := w.extractLsb' 1 3

/-- A parsed field: its value, and the reason codes its bits give (R46). -/
structure Fld (α : Type) where
  val : α
  bad : List Nat

/-- A must-be-zero field (reason 6, R39). -/
def mz (n : Nat) : List Nat := if n = 0 then [] else [6]
def az (w : Word) : List Nat := mz (aF w).toNat
def bz (w : Word) : List Nat := mz (bF w).toNat
def cz (w : Word) : List Nat := mz (cF w).toNat
def fz (w : Word) : List Nat := mz (fF w).toNat
def f3 (w : Word) : List Nat := mz (w.extractLsb' 3 1).toNat
def b0 (w : Word) : List Nat := mz (w.extractLsb' 0 1).toNat
/-- A used field whose value must satisfy p (reason 4). -/
def rng (p : Bool) : List Nat := if p then [] else [4]

/-- A specifier field used as p allows: reason 4 for 0x7A-0x7F, reason 5 for a forbidden use (R46). -/
def opF (p : Opnd → Bool) (b : BitVec 7) : Fld Opnd :=
  match opnd? b with
  | none => ⟨.z, [4]⟩
  | some o => if p o then ⟨o, []⟩ else ⟨o, [5]⟩
def srcC : BitVec 7 → Fld Opnd := opF Opnd.srcC
def dstC : BitVec 7 → Fld Opnd := opF Opnd.dstC
def dstL : BitVec 7 → Fld Opnd := opF Opnd.dstLate
def srcA : BitVec 7 → Fld Opnd := opF Opnd.srcA
def dstA : BitVec 7 → Fld Opnd := opF Opnd.dstA
def dstR : BitVec 7 → Fld Opnd := opF Opnd.dstRead

/-- An enumerated field: reason 4 where its code is none of the values. -/
def enumF {α : Type} (d : α) : Option α → Fld α
  | some v => ⟨v, []⟩
  | none => ⟨d, [4]⟩
def scpF (b : BitVec 3) : Fld Scp := enumF .core (scp? b)
def ordF (w : Word) (ok : List Ord) : Fld Ord :=
  let o := ordOf (w.extractLsb' 4 2)
  ⟨o, rng (ok.contains o)⟩
def sizeF (w : Word) : Fld MSize := enumF .b (msize? (w.extractLsb' 0 3))
def amoF (w : Word) : Fld AmoOp := enumF .add (amo? (fF w))
def cpyF (w : Word) : Fld CpyKind := enumF .copy (cpy? (fF w))
def convF (w : Word) : Fld Conv := enumF .i32 (conv? (fF w))
def fredF (b : BitVec 2) : Fld FRedOp :=
  if b = 0 then ⟨.add, []⟩ else if b = 1 then ⟨.min, []⟩ else if b = 2 then ⟨.max, []⟩ else ⟨.add, [4]⟩
/-- A type code that must be among ok (R36). -/
def tyC (b : BitVec 4) (ok : List ETy) : Fld ETy :=
  match ety? b with
  | some t => ⟨t, rng (ok.contains t)⟩
  | none => ⟨.i8, [4]⟩
def tyF (w : Word) (ok : List ETy) : Fld ETy := tyC (fF w) ok
/-- T of the scalar AR class, where only 0 is admitted (reason 4, R36). -/
def t0 (w : Word) : List Nat := rng (fF w = 0)

/-- EXT of `mgang` (R222, R223). -/
def gangF (x : Word) : Fld GangWord :=
  let g : GangWord := { kb := x.extractLsb' 17 7, mask := x.extractLsb' 9 8, bf := x.getLsbD 8, af := afmtOf (x.extractLsb' 6 2),
                        ring := ringOf (x.extractLsb' 4 2), base := x.extractLsb' 0 4 }
  ⟨g, rng g.ok ++ mz (x.extractLsb' 24 8).toNat⟩

/-- The lowest reason code of a list. -/
def lowest : List Nat → Option Nat
  | [] => none
  | r :: rs => some (match lowest rs with | none => r | some q => min r q)

/-- The instruction, unless some reason code applies: then the lowest one (R46). -/
def fin (i : Instr) (bad : List Nat) : Except Nat Instr :=
  match lowest bad with
  | none => .ok i
  | some r => .error r

/-- Reasons 2 and 3 come before those of the fields (R46). -/
def guardForm (badForm badKind : Bool) (r : Except Nat Instr) : Except Nat Instr :=
  if badForm then .error 2 else if badKind then .error 3 else r

/-! ### The control map (R40-R43) -/

/-- Decodes word0 of a bundle whose second word is ext, on a memory core where mem holds. -/
def decodeControl (mem : Bool) (w ext : Word) : Except Nat Instr :=
  let u := uF w
  match (opC w).toNat with
  | 0 =>  -- 0x00
    guardForm (u) (false) <|
    fin .cnop (az w ++ bz w ++ cz w ++ fz w)
  | 1 =>  -- 0x01
    guardForm (u) (false) <|
    let a := if cndF w = 6 then Fld.mk Opnd.z (az w) else srcC (aF w)
    match cnd? (cndF w) with
    | some c => fin (.bc c a.val (o15F w)) a.bad
    | none => fin .cnop (4 :: a.bad)
  | 2 =>  -- 0x02
    guardForm (u) (false) <|
    let a := dstC (aF w); fin (.call a.val (o15F w)) (a.bad ++ mz (cndF w).toNat)
  | 3 =>  -- 0x03
    guardForm (u) (false) <|
    let a := dstC (aF w); let b := srcC (bF w); fin (.jr a.val b.val) (a.bad ++ b.bad ++ cz w ++ fz w)
  | 4 =>  -- 0x04
    guardForm (false) (false) <|
    if u then fin (.loopi (o15F w) ext) (az w ++ mz (cndF w).toNat ++ rng (0 < (o15F w).toInt))
    else if cndF w = 7 then fin .loopPop (az w ++ mz (o15F w).toNat)
    else let a := srcC (aF w)
         fin (.loop a.val (o15F w)) (a.bad ++ rng (cndF w = 0) ++ rng (0 < (o15F w).toInt))
  | 5 =>  -- 0x05
    guardForm (u) (false) <|
    fin .jtok (az w ++ bz w ++ cz w ++ fz w)
  | 6 =>  -- 0x06
    guardForm (u) (false) <|
    fin (.trap (i11F w)) (az w ++ bz w)
  | 7 =>  -- 0x07
    guardForm (u) (false) <|
    fin .eret (az w ++ bz w ++ cz w ++ fz w)
  | 8 =>  -- 0x08
    guardForm (u) (false) <|
    fin (.brk (i11F w)) (az w ++ bz w)
  | 9 =>  -- 0x09
    guardForm (u) (false) <|
    fin (.fsync (i11F w)) (az w ++ bz w)
  | 10 =>  -- 0x0a
    guardForm (u) (false) <|
    let a := dstC (aF w)
    match creg? (i11F w) with
    | some r => fin (.csrr a.val r) (a.bad ++ bz w)
    | none => fin .cnop (4 :: a.bad ++ bz w)
  | 11 =>  -- 0x0b
    guardForm (u) (false) <|
    let a := srcC (aF w)
    match creg? (i11F w) with
    | some r => fin (.csrw a.val r) (a.bad ++ bz w ++ rng r.writable)
    | none => fin .cnop (4 :: a.bad ++ bz w)
  | 12 =>  -- 0x0c
    guardForm (!u) (false) <|
    let a := dstC (aF w); fin (.movi a.val ext) (a.bad ++ bz w ++ cz w ++ fz w)
  | 13 =>  -- 0x0d
    guardForm (u) (false) <|
    let a := dstC (aF w); let b := srcC (bF w); fin (.adda a.val b.val (i11F w)) (a.bad ++ b.bad)
  | 16 =>  -- 0x10
    guardForm (false) (false) <|
    let a := dstL (aF w); let b := srcC (bF w); let o := ordF w [.rlx, .acq, .sc]; let s := scpF (scpB w)
    if u then fin (.ldbLone a.val b.val o.val s.val ext) (a.bad ++ b.bad ++ o.bad ++ s.bad ++ mz (off5F w).toNat ++ b0 w)
    else fin (.ldb a.val b.val (off5F w) o.val s.val) (a.bad ++ b.bad ++ o.bad ++ s.bad ++ b0 w)
  | 17 =>  -- 0x11
    guardForm (false) (false) <|
    let a := dstL (aF w); let b := srcC (bF w); let o := ordF w [.rlx, .acq, .sc]; let s := scpF (scpB w)
    if u then fin (.ldhLone a.val b.val o.val s.val ext) (a.bad ++ b.bad ++ o.bad ++ s.bad ++ mz (off5F w).toNat ++ b0 w)
    else fin (.ldh a.val b.val (off5F w) o.val s.val) (a.bad ++ b.bad ++ o.bad ++ s.bad ++ b0 w)
  | 18 =>  -- 0x12
    guardForm (false) (false) <|
    let a := dstL (aF w); let b := srcC (bF w); let o := ordF w [.rlx, .acq, .sc]; let s := scpF (scpB w)
    if u then fin (.ldwLone a.val b.val o.val s.val ext) (a.bad ++ b.bad ++ o.bad ++ s.bad ++ mz (off5F w).toNat ++ b0 w)
    else fin (.ldw a.val b.val (off5F w) o.val s.val) (a.bad ++ b.bad ++ o.bad ++ s.bad ++ b0 w)
  | 19 =>  -- 0x13
    guardForm (false) (false) <|
    let a := dstL (aF w); let b := srcC (bF w); let o := ordF w [.rlx, .acq, .sc]; let s := scpF (scpB w)
    if u then fin (.lddLone a.val b.val o.val s.val ext) (a.bad ++ b.bad ++ o.bad ++ s.bad ++ mz (off5F w).toNat ++ b0 w)
    else fin (.ldd a.val b.val (off5F w) o.val s.val) (a.bad ++ b.bad ++ o.bad ++ s.bad ++ b0 w)
  | 20 =>  -- 0x14
    guardForm (false) (false) <|
    let a := dstL (aF w); let b := srcC (bF w); let o := ordF w [.rlx, .acq, .sc]; let s := scpF (scpB w)
    if u then fin (.ldvLone a.val b.val o.val s.val ext) (a.bad ++ b.bad ++ o.bad ++ s.bad ++ mz (off5F w).toNat ++ b0 w)
    else fin (.ldv a.val b.val (off5F w) o.val s.val) (a.bad ++ b.bad ++ o.bad ++ s.bad ++ b0 w)
  | 21 =>  -- 0x15
    guardForm (false) (false) <|
    let a := srcC (aF w); let b := srcC (bF w); let o := ordF w [.rlx, .rel, .sc]; let s := scpF (scpB w)
    if u then fin (.stbLone a.val b.val o.val s.val ext) (a.bad ++ b.bad ++ o.bad ++ s.bad ++ mz (off5F w).toNat ++ b0 w)
    else fin (.stb a.val b.val (off5F w) o.val s.val) (a.bad ++ b.bad ++ o.bad ++ s.bad ++ b0 w)
  | 22 =>  -- 0x16
    guardForm (false) (false) <|
    let a := srcC (aF w); let b := srcC (bF w); let o := ordF w [.rlx, .rel, .sc]; let s := scpF (scpB w)
    if u then fin (.sthLone a.val b.val o.val s.val ext) (a.bad ++ b.bad ++ o.bad ++ s.bad ++ mz (off5F w).toNat ++ b0 w)
    else fin (.sth a.val b.val (off5F w) o.val s.val) (a.bad ++ b.bad ++ o.bad ++ s.bad ++ b0 w)
  | 23 =>  -- 0x17
    guardForm (false) (false) <|
    let a := srcC (aF w); let b := srcC (bF w); let o := ordF w [.rlx, .rel, .sc]; let s := scpF (scpB w)
    if u then fin (.stwLone a.val b.val o.val s.val ext) (a.bad ++ b.bad ++ o.bad ++ s.bad ++ mz (off5F w).toNat ++ b0 w)
    else fin (.stw a.val b.val (off5F w) o.val s.val) (a.bad ++ b.bad ++ o.bad ++ s.bad ++ b0 w)
  | 24 =>  -- 0x18
    guardForm (false) (false) <|
    let a := srcC (aF w); let b := srcC (bF w); let o := ordF w [.rlx, .rel, .sc]; let s := scpF (scpB w)
    if u then fin (.stdLone a.val b.val o.val s.val ext) (a.bad ++ b.bad ++ o.bad ++ s.bad ++ mz (off5F w).toNat ++ b0 w)
    else fin (.std a.val b.val (off5F w) o.val s.val) (a.bad ++ b.bad ++ o.bad ++ s.bad ++ b0 w)
  | 25 =>  -- 0x19
    guardForm (false) (false) <|
    let a := srcC (aF w); let b := srcC (bF w); let o := ordF w [.rlx, .rel, .sc]; let s := scpF (scpB w)
    if u then fin (.stvLone a.val b.val o.val s.val ext) (a.bad ++ b.bad ++ o.bad ++ s.bad ++ mz (off5F w).toNat ++ b0 w)
    else fin (.stv a.val b.val (off5F w) o.val s.val) (a.bad ++ b.bad ++ o.bad ++ s.bad ++ b0 w)
  | 26 =>  -- 0x1a
    guardForm (u) (false) <|
    let a := dstL (aF w); let b := srcC (bF w); let c := srcC (cF w); let z := sizeF w
    fin (.ldx a.val b.val c.val z.val) (a.bad ++ b.bad ++ c.bad ++ z.bad ++ f3 w)
  | 27 =>  -- 0x1b
    guardForm (u) (false) <|
    let a := srcC (aF w); let b := srcC (bF w); let c := srcC (cF w); let z := sizeF w
    fin (.stx a.val b.val c.val z.val) (a.bad ++ b.bad ++ c.bad ++ z.bad ++ f3 w)
  | 28 =>  -- 0x1c
    guardForm (!u) (false) <|
    let a := dstL (aF w); let b := srcC (bF w); let c := srcC (cF w); let op := amoF w; let s := scpF (ext.extractLsb' 0 3)
    fin (.amo op.val a.val b.val c.val (ordOf (ext.extractLsb' 3 2)) s.val (ext.getLsbD 5))
      (a.bad ++ b.bad ++ c.bad ++ op.bad ++ s.bad ++ mz (ext.extractLsb' 6 26).toNat)
  | 29 =>  -- 0x1d
    guardForm (!u) (false) <|
    let a := dstL (aF w); let b := srcC (bF w); let c := srcC (cF w); let s := scpF (ext.extractLsb' 0 3)
    fin (.cas a.val b.val c.val (ordOf (ext.extractLsb' 3 2)) s.val (ext.getLsbD 5))
      (a.bad ++ b.bad ++ c.bad ++ fz w ++ s.bad ++ mz (ext.extractLsb' 6 26).toNat)
  | 30 =>  -- 0x1e
    guardForm (u) (false) <|
    let s := scpF (w.extractLsb' 0 3)
    fin (.fence (fkindOf (w.extractLsb' 3 2)) s.val (w.getLsbD 5)) (s.bad ++ mz (w.extractLsb' 6 5).toNat ++ az w ++ bz w)
  | 31 =>  -- 0x1f
    guardForm (u) (false) <|
    fin .ifence (az w ++ bz w ++ cz w ++ fz w)
  | 32 =>  -- 0x20
    guardForm (u) (false) <|
    let a := srcC (aF w); fin (.strm a.val) (a.bad ++ bz w ++ cz w ++ fz w)
  | 33 =>  -- 0x21
    guardForm (u) (false) <|
    let a := srcC (aF w); let b := dstL (bF w); let k := cpyF w; fin (.cpy k.val a.val b.val) (a.bad ++ b.bad ++ k.bad ++ cz w)
  | 34 =>  -- 0x22
    guardForm (u) (false) <|
    let a := dstL (aF w); fin (.cpseal a.val) (a.bad ++ bz w ++ cz w ++ fz w)
  | 35 =>  -- 0x23
    guardForm (u) (false) <|
    let a := dstL (aF w); let al := w.getLsbD 0; let b := if al then Fld.mk Opnd.z (bz w) else srcC (bF w)
    fin (.cpwait al a.val b.val) (a.bad ++ b.bad ++ mz (w.extractLsb' 1 10).toNat)
  | 36 =>  -- 0x24
    guardForm (false) (false) <|
    let a := srcC (aF w); let b := srcC (bF w); let o := ordF w [.rlx, .rel, .sc]; let s := scpF (scpB w)
    if u then fin (.stiLone a.val b.val o.val s.val ext) (a.bad ++ b.bad ++ o.bad ++ s.bad ++ mz (off5F w).toNat ++ b0 w)
    else fin (.sti a.val b.val (off5F w) o.val s.val) (a.bad ++ b.bad ++ o.bad ++ s.bad ++ b0 w)
  | 40 =>  -- 0x28
    guardForm (u) (false) <|
    let a := srcC (aF w); let b := srcC (bF w); let bad := a.bad ++ b.bad ++ cz w ++ mz (w.extractLsb' 0 3).toNat
    if w.getLsbD 3 then fin (.sendGrp a.val b.val) bad else fin (.send a.val b.val) bad
  | 41 =>  -- 0x29
    guardForm (u) (false) <|
    let a := srcC (aF w); let b := srcC (bF w); fin (.senda a.val b.val) (a.bad ++ b.bad ++ cz w ++ fz w)
  | 42 =>  -- 0x2a
    guardForm (u) (false) <|
    fin .rls (az w ++ bz w ++ cz w ++ fz w)
  | 43 =>  -- 0x2b
    guardForm (u) (false) <|
    fin .done (az w ++ bz w ++ cz w ++ fz w)
  | 44 =>  -- 0x2c
    guardForm (u) (false) <|
    let bad := az w ++ bz w ++ mz (w.extractLsb' 9 2).toNat
    if w.getLsbD 8 then fin (.tagsetOn (w.extractLsb' 0 8)) bad else fin (.tagsetOff (w.extractLsb' 0 8)) bad
  | 45 =>  -- 0x2d
    guardForm (u) (false) <|
    let a := srcC (aF w); let b := srcC (bF w); fin (.dcarm a.val b.val) (a.bad ++ b.bad ++ cz w ++ fz w)
  | 46 =>  -- 0x2e
    guardForm (u) (false) <|
    let a := srcC (aF w); fin (.dcdec a.val) (a.bad ++ bz w ++ cz w ++ fz w)
  | 47 =>  -- 0x2f
    guardForm (u) (false) <|
    fin (.gbar (w.extractLsb' 0 2)) (az w ++ bz w ++ mz (w.extractLsb' 2 9).toNat)
  | 48 =>  -- 0x30
    guardForm (!u) (mem) <|
    let a := srcC (aF w); let b := srcC (bF w); let g := gangF ext; fin (.mgang a.val b.val g.val) (a.bad ++ b.bad ++ g.bad ++ cz w ++ fz w)
  | 49 =>  -- 0x31
    guardForm (u) (mem) <|
    let a := srcC (aF w); fin (.mcode a.val) (a.bad ++ bz w ++ cz w ++ fz w)
  | 50 =>  -- 0x32
    guardForm (u) (mem) <|
    let a := dstL (aF w); let b := srcC (bF w); let v := convF w; fin (.accrd v.val a.val b.val) (a.bad ++ b.bad ++ v.bad ++ cz w)
  | 51 =>  -- 0x33
    guardForm (u) (mem) <|
    fin (.accz (ringOf (w.extractLsb' 8 2)) (w.extractLsb' 0 4) (w.extractLsb' 4 4))
      (az w ++ bz w ++ mz (w.extractLsb' 10 1).toNat ++ rng ((w.extractLsb' 0 4).toNat ≤ (w.extractLsb' 4 4).toNat))
  | 52 =>  -- 0x34
    guardForm (false) (false) <|
    if u then fin (.setwinLone (ext.extractLsb' 0 11) (ext.extractLsb' 16 7))
      (az w ++ bz w ++ cz w ++ fz w ++ mz (ext.extractLsb' 11 5).toNat ++ mz (ext.extractLsb' 23 9).toNat)
    else let a := srcC (aF w); fin (.setwin a.val) (a.bad ++ bz w ++ cz w ++ fz w)
  | 53 =>  -- 0x35
    guardForm (u) (false) <|
    let a := dstL (aF w); fin (.getwin a.val) (a.bad ++ bz w ++ cz w ++ fz w)
  | 54 =>  -- 0x36
    guardForm (u) (false) <|
    let a := srcC (aF w); fin (.setbnd a.val) (a.bad ++ bz w ++ cz w ++ fz w)
  | 55 =>  -- 0x37
    guardForm (u) (false) <|
    let a := srcC (aF w); fin (.lend a.val) (a.bad ++ bz w ++ cz w ++ fz w)
  | 56 =>  -- 0x38
    guardForm (u) (false) <|
    fin .reclaim (az w ++ bz w ++ cz w ++ fz w)
  | 57 =>  -- 0x39
    guardForm (u) (!mem) <|
    let a := srcC (aF w); fin (.xld a.val) (a.bad ++ bz w ++ cz w ++ fz w)
  | 58 =>  -- 0x3a
    guardForm (u) (!mem) <|
    let a := srcC (aF w); fin (.xst a.val) (a.bad ++ bz w ++ cz w ++ fz w)
  | 59 =>  -- 0x3b
    guardForm (u) (!mem) <|
    let a := srcC (aF w); fin (.xpush a.val) (a.bad ++ bz w ++ cz w ++ fz w)
  | 60 =>  -- 0x3c
    guardForm (u) (!mem) <|
    let a := srcC (aF w); fin (.xws a.val) (a.bad ++ bz w ++ cz w ++ fz w)
  | 61 =>  -- 0x3d
    guardForm (u) (false) <|
    fin .ckpt (az w ++ bz w ++ cz w ++ fz w)
  | _ => .error 1

/-! ### The arithmetic map (R44, R45) -/

/-- Decodes word1 of a pair bundle. -/
def decodeArith (w : Word) : Except Nat Instr :=
  match (opA w).toNat with
  | 0 =>  -- 0x00
    fin .anop (mz (w.extractLsb' 0 25).toNat)
  | 1 =>  -- 0x01
    let d := dstA (aF w); let x := srcA (bF w); let y := srcA (cF w); fin (.add d.val x.val y.val) (d.bad ++ x.bad ++ y.bad ++ t0 w)
  | 2 =>  -- 0x02
    let d := dstA (aF w); let x := srcA (bF w); let y := srcA (cF w); fin (.sub d.val x.val y.val) (d.bad ++ x.bad ++ y.bad ++ t0 w)
  | 3 =>  -- 0x03
    let d := dstA (aF w); let x := srcA (bF w); let y := srcA (cF w); fin (.mul d.val x.val y.val) (d.bad ++ x.bad ++ y.bad ++ t0 w)
  | 4 =>  -- 0x04
    let d := dstA (aF w); let x := srcA (bF w); let y := srcA (cF w); fin (.mulh d.val x.val y.val) (d.bad ++ x.bad ++ y.bad ++ t0 w)
  | 5 =>  -- 0x05
    let d := dstA (aF w); let x := srcA (bF w); let y := srcA (cF w); fin (.mulhn d.val x.val y.val) (d.bad ++ x.bad ++ y.bad ++ t0 w)
  | 6 =>  -- 0x06
    let d := dstA (aF w); let x := srcA (bF w); let y := srcA (cF w); fin (.div d.val x.val y.val) (d.bad ++ x.bad ++ y.bad ++ t0 w)
  | 7 =>  -- 0x07
    let d := dstA (aF w); let x := srcA (bF w); let y := srcA (cF w); fin (.divn d.val x.val y.val) (d.bad ++ x.bad ++ y.bad ++ t0 w)
  | 8 =>  -- 0x08
    let d := dstA (aF w); let x := srcA (bF w); let y := srcA (cF w); fin (.rem d.val x.val y.val) (d.bad ++ x.bad ++ y.bad ++ t0 w)
  | 9 =>  -- 0x09
    let d := dstA (aF w); let x := srcA (bF w); let y := srcA (cF w); fin (.remn d.val x.val y.val) (d.bad ++ x.bad ++ y.bad ++ t0 w)
  | 10 =>  -- 0x0a
    let d := dstA (aF w); let x := srcA (bF w); let y := srcA (cF w); fin (.and d.val x.val y.val) (d.bad ++ x.bad ++ y.bad ++ t0 w)
  | 11 =>  -- 0x0b
    let d := dstA (aF w); let x := srcA (bF w); let y := srcA (cF w); fin (.or d.val x.val y.val) (d.bad ++ x.bad ++ y.bad ++ t0 w)
  | 12 =>  -- 0x0c
    let d := dstA (aF w); let x := srcA (bF w); let y := srcA (cF w); fin (.xor d.val x.val y.val) (d.bad ++ x.bad ++ y.bad ++ t0 w)
  | 13 =>  -- 0x0d
    let d := dstA (aF w); let x := srcA (bF w); let y := srcA (cF w); fin (.shl d.val x.val y.val) (d.bad ++ x.bad ++ y.bad ++ t0 w)
  | 14 =>  -- 0x0e
    let d := dstA (aF w); let x := srcA (bF w); let y := srcA (cF w); fin (.shr d.val x.val y.val) (d.bad ++ x.bad ++ y.bad ++ t0 w)
  | 15 =>  -- 0x0f
    let d := dstA (aF w); let x := srcA (bF w); let y := srcA (cF w); fin (.sra d.val x.val y.val) (d.bad ++ x.bad ++ y.bad ++ t0 w)
  | 16 =>  -- 0x10
    let d := dstA (aF w); let x := srcA (bF w); let y := srcA (cF w); fin (.min d.val x.val y.val) (d.bad ++ x.bad ++ y.bad ++ t0 w)
  | 17 =>  -- 0x11
    let d := dstA (aF w); let x := srcA (bF w); let y := srcA (cF w); fin (.max d.val x.val y.val) (d.bad ++ x.bad ++ y.bad ++ t0 w)
  | 18 =>  -- 0x12
    let d := dstA (aF w); let x := srcA (bF w); let y := srcA (cF w); fin (.minn d.val x.val y.val) (d.bad ++ x.bad ++ y.bad ++ t0 w)
  | 19 =>  -- 0x13
    let d := dstA (aF w); let x := srcA (bF w); let y := srcA (cF w); fin (.maxn d.val x.val y.val) (d.bad ++ x.bad ++ y.bad ++ t0 w)
  | 20 =>  -- 0x14
    let d := dstA (aF w); let x := srcA (bF w); let y := srcA (cF w); fin (.slt d.val x.val y.val) (d.bad ++ x.bad ++ y.bad ++ t0 w)
  | 21 =>  -- 0x15
    let d := dstA (aF w); let x := srcA (bF w); let y := srcA (cF w); fin (.sltn d.val x.val y.val) (d.bad ++ x.bad ++ y.bad ++ t0 w)
  | 22 =>  -- 0x16
    let d := dstA (aF w); let x := srcA (bF w); let y := srcA (cF w); fin (.seq d.val x.val y.val) (d.bad ++ x.bad ++ y.bad ++ t0 w)
  | 23 =>  -- 0x17
    let d := dstR (aF w); let x := srcA (bF w); let y := srcA (cF w); fin (.sel d.val x.val y.val) (d.bad ++ x.bad ++ y.bad ++ t0 w)
  | 24 =>  -- 0x18
    let d := dstA (aF w); let x := srcA (bF w); fin (.clz d.val x.val) (d.bad ++ x.bad ++ cz w ++ t0 w)
  | 25 =>  -- 0x19
    let d := dstA (aF w); let x := srcA (bF w); fin (.popc d.val x.val) (d.bad ++ x.bad ++ cz w ++ t0 w)
  | 26 =>  -- 0x1a
    let d := dstA (aF w); let x := srcA (bF w); fin (.addi d.val x.val (i11F w)) (d.bad ++ x.bad)
  | 27 =>  -- 0x1b
    let d := dstA (aF w); let x := srcA (bF w); fin (.andi d.val x.val (i11F w)) (d.bad ++ x.bad)
  | 28 =>  -- 0x1c
    let d := dstA (aF w); let x := srcA (bF w); fin (.ori d.val x.val (i11F w)) (d.bad ++ x.bad)
  | 29 =>  -- 0x1d
    let d := dstA (aF w); let x := srcA (bF w); fin (.xori d.val x.val (i11F w)) (d.bad ++ x.bad)
  | 30 =>  -- 0x1e
    let d := dstA (aF w); let x := srcA (bF w); fin (.shli d.val x.val (w.extractLsb' 0 5)) (d.bad ++ x.bad ++ mz (w.extractLsb' 5 6).toNat)
  | 31 =>  -- 0x1f
    let d := dstA (aF w); let x := srcA (bF w); fin (.shri d.val x.val (w.extractLsb' 0 5)) (d.bad ++ x.bad ++ mz (w.extractLsb' 5 6).toNat)
  | 32 =>  -- 0x20
    let d := dstA (aF w); let x := srcA (bF w); fin (.srai d.val x.val (w.extractLsb' 0 5)) (d.bad ++ x.bad ++ mz (w.extractLsb' 5 6).toNat)
  | 33 =>  -- 0x21
    let d := dstA (aF w); let x := srcA (bF w); fin (.slti d.val x.val (i11F w)) (d.bad ++ x.bad)
  | 34 =>  -- 0x22
    let d := dstA (aF w); let x := srcA (bF w); let t := tyF w ETy.ints; fin (.lane d.val x.val (cF w) t.val) (d.bad ++ x.bad ++ t.bad ++ rng ((cF w).toNat < t.val.count))
  | 35 =>  -- 0x23
    let d := dstA (aF w); let x := srcA (bF w); fin (.mv d.val x.val) (d.bad ++ x.bad ++ cz w ++ t0 w)
  | 36 =>  -- 0x24
    let d := dstR (aF w); let x := srcA (bF w); let t := tyF w ETy.ints; fin (.ins d.val x.val (cF w) t.val) (d.bad ++ x.bad ++ t.bad ++ rng ((cF w).toNat < t.val.count))
  | 48 =>  -- 0x30
    let d := dstA (aF w); let x := srcA (bF w); let y := srcA (cF w); let t := tyF w ETy.ints; fin (.vadd d.val x.val y.val t.val) (d.bad ++ x.bad ++ y.bad ++ t.bad)
  | 49 =>  -- 0x31
    let d := dstA (aF w); let x := srcA (bF w); let y := srcA (cF w); let t := tyF w ETy.ints; fin (.vsub d.val x.val y.val t.val) (d.bad ++ x.bad ++ y.bad ++ t.bad)
  | 50 =>  -- 0x32
    let d := dstA (aF w); let x := srcA (bF w); let y := srcA (cF w); let t := tyF w ETy.ints; fin (.vmul d.val x.val y.val t.val) (d.bad ++ x.bad ++ y.bad ++ t.bad)
  | 51 =>  -- 0x33
    let d := dstA (aF w); let x := srcA (bF w); let y := srcA (cF w); let t := tyF w ETy.ints; fin (.vmulh d.val x.val y.val t.val) (d.bad ++ x.bad ++ y.bad ++ t.bad)
  | 52 =>  -- 0x34
    let d := dstR (aF w); let x := srcA (bF w); let y := srcA (cF w); let t := tyF w ETy.ints; fin (.vmac d.val x.val y.val t.val) (d.bad ++ x.bad ++ y.bad ++ t.bad)
  | 53 =>  -- 0x35
    let d := dstA (aF w); let x := srcA (bF w); let y := srcA (cF w); let t := tyF w ETy.ints; fin (.vmin d.val x.val y.val t.val) (d.bad ++ x.bad ++ y.bad ++ t.bad)
  | 54 =>  -- 0x36
    let d := dstA (aF w); let x := srcA (bF w); let y := srcA (cF w); let t := tyF w ETy.ints; fin (.vmax d.val x.val y.val t.val) (d.bad ++ x.bad ++ y.bad ++ t.bad)
  | 55 =>  -- 0x37
    let d := dstA (aF w); let x := srcA (bF w); let y := srcA (cF w); let t := tyF w ETy.ints; fin (.vand d.val x.val y.val t.val) (d.bad ++ x.bad ++ y.bad ++ t.bad)
  | 56 =>  -- 0x38
    let d := dstA (aF w); let x := srcA (bF w); let y := srcA (cF w); let t := tyF w ETy.ints; fin (.vor d.val x.val y.val t.val) (d.bad ++ x.bad ++ y.bad ++ t.bad)
  | 57 =>  -- 0x39
    let d := dstA (aF w); let x := srcA (bF w); let y := srcA (cF w); let t := tyF w ETy.ints; fin (.vxor d.val x.val y.val t.val) (d.bad ++ x.bad ++ y.bad ++ t.bad)
  | 58 =>  -- 0x3a
    let d := dstA (aF w); let x := srcA (bF w); let y := srcA (cF w); let t := tyF w ETy.ints; fin (.vshl d.val x.val y.val t.val) (d.bad ++ x.bad ++ y.bad ++ t.bad)
  | 59 =>  -- 0x3b
    let d := dstA (aF w); let x := srcA (bF w); let y := srcA (cF w); let t := tyF w ETy.ints; fin (.vshr d.val x.val y.val t.val) (d.bad ++ x.bad ++ y.bad ++ t.bad)
  | 60 =>  -- 0x3c
    let d := dstA (aF w); let x := srcA (bF w); let y := srcA (cF w); let t := tyF w ETy.ints; fin (.vsra d.val x.val y.val t.val) (d.bad ++ x.bad ++ y.bad ++ t.bad)
  | 61 =>  -- 0x3d
    let d := dstA (aF w); let x := srcA (bF w); let t := tyF w ETy.signed; fin (.vabs d.val x.val t.val) (d.bad ++ x.bad ++ t.bad ++ cz w)
  | 62 =>  -- 0x3e
    let d := dstA (aF w); let x := srcA (bF w); let y := srcA (cF w); let t := tyF w ETy.ints; fin (.vadds d.val x.val y.val t.val) (d.bad ++ x.bad ++ y.bad ++ t.bad)
  | 63 =>  -- 0x3f
    let d := dstA (aF w); let x := srcA (bF w); let y := srcA (cF w); let t := tyF w ETy.ints; fin (.vsubs d.val x.val y.val t.val) (d.bad ++ x.bad ++ y.bad ++ t.bad)
  | 64 =>  -- 0x40
    let d := dstA (aF w); let x := srcA (bF w); let y := srcA (cF w); let t := tyF w ETy.ints; fin (.vcmpeq d.val x.val y.val t.val) (d.bad ++ x.bad ++ y.bad ++ t.bad)
  | 65 =>  -- 0x41
    let d := dstA (aF w); let x := srcA (bF w); let y := srcA (cF w); let t := tyF w ETy.ints; fin (.vcmplt d.val x.val y.val t.val) (d.bad ++ x.bad ++ y.bad ++ t.bad)
  | 66 =>  -- 0x42
    let d := dstA (aF w); let x := srcA (bF w); let y := srcA (cF w); let t := tyF w ETy.ints; fin (.vcmple d.val x.val y.val t.val) (d.bad ++ x.bad ++ y.bad ++ t.bad)
  | 67 =>  -- 0x43
    let d := dstR (aF w); let x := srcA (bF w); let y := srcA (cF w); let t := tyF w ETy.ints; fin (.vsel d.val x.val y.val t.val) (d.bad ++ x.bad ++ y.bad ++ t.bad)
  | 68 =>  -- 0x44
    let d := dstA (aF w); let x := srcA (bF w); let t := tyF w ETy.ints; fin (.vbcast d.val x.val t.val) (d.bad ++ x.bad ++ t.bad ++ cz w)
  | 69 =>  -- 0x45
    let d := dstA (aF w); let x := srcA (bF w); let y := srcA (cF w); let t := tyF w ETy.ints; fin (.vperm d.val x.val y.val t.val) (d.bad ++ x.bad ++ y.bad ++ t.bad)
  | 70 =>  -- 0x46
    let d := dstA (aF w); let x := srcA (bF w); let t := tyF w ETy.ints; fin (.vrot d.val x.val (cF w) t.val) (d.bad ++ x.bad ++ t.bad ++ rng ((cF w).toNat < t.val.count))
  | 71 =>  -- 0x47
    let d := dstA (aF w); let x := srcA (bF w); let y := srcA (cF w); let t := tyF w ETy.narrow; fin (.vnarrow d.val x.val y.val t.val) (d.bad ++ x.bad ++ y.bad ++ t.bad)
  | 72 =>  -- 0x48
    let d := dstA (aF w); let x := srcA (bF w); let t := tyF w ETy.narrow; fin (.vwiden (w.getLsbD 4) d.val x.val t.val) (d.bad ++ x.bad ++ t.bad ++ mz (w.extractLsb' 5 6).toNat)
  | 73 =>  -- 0x49
    let d := dstA (aF w); let x := srcA (bF w); let t := tyF w ETy.ints; fin (.vred (redOf (w.extractLsb' 4 2)) d.val x.val t.val) (d.bad ++ x.bad ++ t.bad ++ mz (w.extractLsb' 6 5).toNat)
  | 74 =>  -- 0x4a
    let d := dstA (aF w); let x := srcA (bF w); let t := tyF w ETy.ints; fin (.vscan d.val x.val t.val) (d.bad ++ x.bad ++ t.bad ++ cz w)
  | 75 =>  -- 0x4b
    let d := dstA (aF w); let x := srcA (bF w); let t := tyF w ETy.signed; fin (.vpackt d.val x.val t.val) (d.bad ++ x.bad ++ t.bad ++ cz w)
  | 76 =>  -- 0x4c
    let d := dstA (aF w); let x := srcA (bF w); let t := tyF w ETy.signed; fin (.vunpkt d.val x.val t.val) (d.bad ++ x.bad ++ t.bad ++ cz w)
  | 77 =>  -- 0x4d
    let d := dstA (aF w); let t := tyF w ETy.ints; fin (.viota d.val t.val) (d.bad ++ t.bad ++ bz w ++ cz w)
  | 78 =>  -- 0x4e
    let d := dstA (aF w); let x := srcA (bF w); let y := srcA (cF w); let t := tyF w [.i8, .n8]; fin (.vdot4 d.val x.val y.val t.val) (d.bad ++ x.bad ++ y.bad ++ t.bad)
  | 96 =>  -- 0x60
    let d := dstA (aF w); let x := srcA (bF w); let y := srcA (cF w); let t := tyF w ETy.fps; fin (.fadd d.val x.val y.val t.val) (d.bad ++ x.bad ++ y.bad ++ t.bad)
  | 97 =>  -- 0x61
    let d := dstA (aF w); let x := srcA (bF w); let y := srcA (cF w); let t := tyF w ETy.fps; fin (.fsub d.val x.val y.val t.val) (d.bad ++ x.bad ++ y.bad ++ t.bad)
  | 98 =>  -- 0x62
    let d := dstA (aF w); let x := srcA (bF w); let y := srcA (cF w); let t := tyF w ETy.fps; fin (.fmul d.val x.val y.val t.val) (d.bad ++ x.bad ++ y.bad ++ t.bad)
  | 99 =>  -- 0x63
    let d := dstR (aF w); let x := srcA (bF w); let y := srcA (cF w); let t := tyF w ETy.fps; fin (.fma d.val x.val y.val t.val) (d.bad ++ x.bad ++ y.bad ++ t.bad)
  | 100 =>  -- 0x64
    let d := dstR (aF w); let x := srcA (bF w); let y := srcA (cF w); let t := tyF w ETy.fps; fin (.fms d.val x.val y.val t.val) (d.bad ++ x.bad ++ y.bad ++ t.bad)
  | 101 =>  -- 0x65
    let d := dstA (aF w); let x := srcA (bF w); let y := srcA (cF w); let t := tyF w ETy.fps; fin (.fmin d.val x.val y.val t.val) (d.bad ++ x.bad ++ y.bad ++ t.bad)
  | 102 =>  -- 0x66
    let d := dstA (aF w); let x := srcA (bF w); let y := srcA (cF w); let t := tyF w ETy.fps; fin (.fmax d.val x.val y.val t.val) (d.bad ++ x.bad ++ y.bad ++ t.bad)
  | 103 =>  -- 0x67
    let d := dstA (aF w); let x := srcA (bF w); let y := srcA (cF w); let t := tyF w ETy.fps; fin (.fdiv d.val x.val y.val t.val) (d.bad ++ x.bad ++ y.bad ++ t.bad)
  | 104 =>  -- 0x68
    let d := dstA (aF w); let x := srcA (bF w); let t := tyF w ETy.fps; fin (.fsqrt d.val x.val t.val) (d.bad ++ x.bad ++ t.bad ++ cz w)
  | 105 =>  -- 0x69
    let d := dstA (aF w); let x := srcA (bF w); let t := tyF w ETy.fps; fin (.frcp d.val x.val t.val) (d.bad ++ x.bad ++ t.bad ++ cz w)
  | 106 =>  -- 0x6a
    let d := dstA (aF w); let x := srcA (bF w); let t := tyF w ETy.fps; fin (.frsq d.val x.val t.val) (d.bad ++ x.bad ++ t.bad ++ cz w)
  | 107 =>  -- 0x6b
    let d := dstA (aF w); let x := srcA (bF w); let t := tyF w ETy.fps; fin (.fexp2 d.val x.val t.val) (d.bad ++ x.bad ++ t.bad ++ cz w)
  | 108 =>  -- 0x6c
    let d := dstA (aF w); let x := srcA (bF w); let t := tyF w ETy.fps; fin (.flog2 d.val x.val t.val) (d.bad ++ x.bad ++ t.bad ++ cz w)
  | 109 =>  -- 0x6d
    let d := dstA (aF w); let x := srcA (bF w); let y := srcA (cF w); let t := tyF w ETy.fps; fin (.fcmpeq d.val x.val y.val t.val) (d.bad ++ x.bad ++ y.bad ++ t.bad)
  | 110 =>  -- 0x6e
    let d := dstA (aF w); let x := srcA (bF w); let y := srcA (cF w); let t := tyF w ETy.fps; fin (.fcmplt d.val x.val y.val t.val) (d.bad ++ x.bad ++ y.bad ++ t.bad)
  | 111 =>  -- 0x6f
    let d := dstA (aF w); let x := srcA (bF w); let y := srcA (cF w); let t := tyF w ETy.fps; fin (.fcmple d.val x.val y.val t.val) (d.bad ++ x.bad ++ y.bad ++ t.bad)
  | 112 =>  -- 0x70
    let d := dstA (aF w); let x := srcA (bF w); let t := tyF w ETy.fps; fin (.fclass d.val x.val t.val) (d.bad ++ x.bad ++ t.bad ++ cz w)
  | 113 =>  -- 0x71
    let d := dstA (aF w); let x := srcA (bF w); let t := tyF w ETy.floats; let s := tyC (w.extractLsb' 4 4) ETy.floats
    fin (.fcvt d.val x.val t.val s.val (w.getLsbD 8)) (d.bad ++ x.bad ++ t.bad ++ s.bad ++ rng (t.val ≠ s.val) ++ mz (w.extractLsb' 9 2).toNat)
  | 114 =>  -- 0x72
    let d := dstA (aF w); let x := srcA (bF w); let t := tyF w ETy.ints; let s := tyC (w.extractLsb' 4 4) ETy.fps
    fin (.fcvti d.val x.val t.val s.val) (d.bad ++ x.bad ++ t.bad ++ s.bad ++ mz (w.extractLsb' 8 3).toNat)
  | 115 =>  -- 0x73
    let d := dstA (aF w); let x := srcA (bF w); let t := tyF w ETy.fps; let s := tyC (w.extractLsb' 4 4) ETy.ints
    fin (.icvtf d.val x.val t.val s.val) (d.bad ++ x.bad ++ t.bad ++ s.bad ++ mz (w.extractLsb' 8 3).toNat)
  | 116 =>  -- 0x74
    let d := dstA (aF w); let x := srcA (bF w); let t := tyF w ETy.fps; let o := fredF (w.extractLsb' 4 2)
    fin (.fred o.val d.val x.val t.val) (d.bad ++ x.bad ++ t.bad ++ o.bad ++ mz (w.extractLsb' 6 5).toNat)
  | 117 =>  -- 0x75
    let d := dstA (aF w); let x := srcA (bF w); let t := tyF w ETy.fps; fin (.fabs d.val x.val t.val) (d.bad ++ x.bad ++ t.bad ++ cz w)
  | 118 =>  -- 0x76
    let d := dstA (aF w); let x := srcA (bF w); let t := tyF w ETy.fps; fin (.fneg d.val x.val t.val) (d.bad ++ x.bad ++ t.bad ++ cz w)
  | 119 =>  -- 0x77
    let d := dstA (aF w); let x := srcA (bF w); let y := srcA (cF w); let t := tyF w ETy.fps; fin (.fsgnj d.val x.val y.val t.val) (d.bad ++ x.bad ++ y.bad ++ t.bad)
  | 124 =>  -- 0x7c
    let x := srcA (bF w); fin (.tokb x.val (i11F w)) (az w ++ x.bad)
  | 125 =>  -- 0x7d
    let x := srcA (bF w); fin (.tokj x.val) (az w ++ x.bad ++ cz w ++ t0 w)
  | _ => .error 1

/-- What a bundle decodes to: its control word, and its arithmetic word unless it is lone (R30). -/
structure Bundle where
  ctl  : Except Nat Instr
  lone : Bool
  ari  : Except Nat Instr

/-- Decodes the eight bytes of a bundle, word0 first (R30). -/
def decodeBundle (mem : Bool) (w0 w1 : Word) : Bundle :=
  { ctl := decodeControl mem w0 w1, lone := uF w0, ari := decodeArith w1 }

/-! ### Encoding -/

def cr (u : BitVec 1) (op : BitVec 6) (a b c : BitVec 7) (f : BitVec 4) : Word := u ++ op ++ a ++ b ++ c ++ f
def ci (u : BitVec 1) (op : BitVec 6) (a b : BitVec 7) (i : BitVec 11) : Word := u ++ op ++ a ++ b ++ i
def cb (u : BitVec 1) (op : BitVec 6) (a : BitVec 7) (c : BitVec 3) (o : BitVec 15) : Word := u ++ op ++ a ++ c ++ o
def cm (u : BitVec 1) (op : BitVec 6) (a b : BitVec 7) (off : BitVec 5) (o : BitVec 2) (s : BitVec 3) : Word :=
  u ++ op ++ a ++ b ++ off ++ o ++ s ++ (0 : BitVec 1)
def ar (op d x y : BitVec 7) (t : BitVec 4) : Word := op ++ d ++ x ++ y ++ t
def ai (op d x : BitVec 7) (i : BitVec 11) : Word := op ++ d ++ x ++ i

/-- EXT of `amo` and `cas` (R155). -/
def atomExt (o : Ord) (s : Scp) (d : Bool) : Word := (0 : BitVec 26) ++ BitVec.ofBool d ++ o.code ++ s.code

/-- EXT of `mgang` (R222). -/
def GangWord.word (g : GangWord) : Word :=
  (0 : BitVec 8) ++ g.kb ++ g.mask ++ BitVec.ofBool g.bf ++ g.af.code ++ g.ring.code ++ g.base

/-- The two words of the bundle that holds an instruction: word0 and EXT, or word0 with `anop`, or
`cnop` with word1. None for an event, which has no words. -/
def encode : Instr → Option (Word × Word)
  | .cnop => some (cr 0 0x00 0 0 0 0, 0)
  | .jtok => some (cr 0 0x05 0 0 0 0, 0)
  | .eret => some (cr 0 0x07 0 0 0 0, 0)
  | .ifence => some (cr 0 0x1f 0 0 0 0, 0)
  | .rls => some (cr 0 0x2a 0 0 0 0, 0)
  | .done => some (cr 0 0x2b 0 0 0 0, 0)
  | .reclaim => some (cr 0 0x38 0 0 0 0, 0)
  | .ckpt => some (cr 0 0x3d 0 0 0 0, 0)
  | .bc c a off => some (cb 0 0x01 (if c = .always then 0 else a.code) c.code off, 0)
  | .call a off => some (cb 0 0x02 a.code 0 off, 0)
  | .jr a b => some (cr 0 0x03 a.code b.code 0 0, 0)
  | .loop a off => some (cb 0 0x04 a.code 0 off, 0)
  | .loopPop => some (cb 0 0x04 0 7 0, 0)
  | .loopi off n => some (cb 1 0x04 0 0 off, n)
  | .trap n => some (ci 0 0x06 0 0 n, 0)
  | .brk n => some (ci 0 0x08 0 0 n, 0)
  | .fsync n => some (ci 0 0x09 0 0 n, 0)
  | .csrr a r => some (ci 0 0x0a a.code 0 r.num, 0)
  | .csrw a r => some (ci 0 0x0b a.code 0 r.num, 0)
  | .movi a v => some (cr 1 0x0c a.code 0 0 0, v)
  | .adda a b k => some (ci 0 0x0d a.code b.code k, 0)
  | .ldb a b off o s => some (cm 0 0x10 a.code b.code off o.code s.code, 0)
  | .ldbLone a b o s n => some (cm 1 0x10 a.code b.code 0 o.code s.code, n)
  | .ldh a b off o s => some (cm 0 0x11 a.code b.code off o.code s.code, 0)
  | .ldhLone a b o s n => some (cm 1 0x11 a.code b.code 0 o.code s.code, n)
  | .ldw a b off o s => some (cm 0 0x12 a.code b.code off o.code s.code, 0)
  | .ldwLone a b o s n => some (cm 1 0x12 a.code b.code 0 o.code s.code, n)
  | .ldd a b off o s => some (cm 0 0x13 a.code b.code off o.code s.code, 0)
  | .lddLone a b o s n => some (cm 1 0x13 a.code b.code 0 o.code s.code, n)
  | .ldv a b off o s => some (cm 0 0x14 a.code b.code off o.code s.code, 0)
  | .ldvLone a b o s n => some (cm 1 0x14 a.code b.code 0 o.code s.code, n)
  | .stb a b off o s => some (cm 0 0x15 a.code b.code off o.code s.code, 0)
  | .stbLone a b o s n => some (cm 1 0x15 a.code b.code 0 o.code s.code, n)
  | .sth a b off o s => some (cm 0 0x16 a.code b.code off o.code s.code, 0)
  | .sthLone a b o s n => some (cm 1 0x16 a.code b.code 0 o.code s.code, n)
  | .stw a b off o s => some (cm 0 0x17 a.code b.code off o.code s.code, 0)
  | .stwLone a b o s n => some (cm 1 0x17 a.code b.code 0 o.code s.code, n)
  | .std a b off o s => some (cm 0 0x18 a.code b.code off o.code s.code, 0)
  | .stdLone a b o s n => some (cm 1 0x18 a.code b.code 0 o.code s.code, n)
  | .stv a b off o s => some (cm 0 0x19 a.code b.code off o.code s.code, 0)
  | .stvLone a b o s n => some (cm 1 0x19 a.code b.code 0 o.code s.code, n)
  | .sti a b off o s => some (cm 0 0x24 a.code b.code off o.code s.code, 0)
  | .stiLone a b o s n => some (cm 1 0x24 a.code b.code 0 o.code s.code, n)
  | .ldx a b c z => some (cr 0 0x1a a.code b.code c.code z.code, 0)
  | .stx a b c z => some (cr 0 0x1b a.code b.code c.code z.code, 0)
  | .amo op a b c o s d => some (cr 1 0x1c a.code b.code c.code op.code, atomExt o s d)
  | .cas a b c o s d => some (cr 1 0x1d a.code b.code c.code 0, atomExt o s d)
  | .fence k s e => some (ci 0 0x1e 0 0 ((0 : BitVec 5) ++ BitVec.ofBool e ++ k.code ++ s.code), 0)
  | .strm a => some (cr 0 0x20 a.code 0 0 0, 0)
  | .cpseal a => some (cr 0 0x22 a.code 0 0 0, 0)
  | .dcdec a => some (cr 0 0x2e a.code 0 0 0, 0)
  | .mcode a => some (cr 0 0x31 a.code 0 0 0, 0)
  | .setwin a => some (cr 0 0x34 a.code 0 0 0, 0)
  | .getwin a => some (cr 0 0x35 a.code 0 0 0, 0)
  | .setbnd a => some (cr 0 0x36 a.code 0 0 0, 0)
  | .lend a => some (cr 0 0x37 a.code 0 0 0, 0)
  | .xld a => some (cr 0 0x39 a.code 0 0 0, 0)
  | .xst a => some (cr 0 0x3a a.code 0 0 0, 0)
  | .xpush a => some (cr 0 0x3b a.code 0 0 0, 0)
  | .xws a => some (cr 0 0x3c a.code 0 0 0, 0)
  | .cpy k a b => some (cr 0 0x21 a.code b.code 0 k.code, 0)
  | .cpwait al a b => some (ci 0 0x23 a.code (if al then 0 else b.code) ((0 : BitVec 10) ++ BitVec.ofBool al), 0)
  | .send a b => some (cr 0 0x28 a.code b.code 0 0, 0)
  | .sendGrp a b => some (cr 0 0x28 a.code b.code 0 8, 0)
  | .senda a b => some (cr 0 0x29 a.code b.code 0 0, 0)
  | .dcarm a b => some (cr 0 0x2d a.code b.code 0 0, 0)
  | .tagsetOn t => some (ci 0 0x2c 0 0 ((1 : BitVec 3) ++ t), 0)
  | .tagsetOff t => some (ci 0 0x2c 0 0 ((0 : BitVec 3) ++ t), 0)
  | .gbar k => some (ci 0 0x2f 0 0 ((0 : BitVec 9) ++ k), 0)
  | .mgang a b g => some (cr 1 0x30 a.code b.code 0 0, g.word)
  | .accrd v a b => some (cr 0 0x32 a.code b.code 0 v.code, 0)
  | .accz r f l => some (ci 0 0x33 0 0 ((0 : BitVec 1) ++ r.code ++ l ++ f), 0)
  | .setwinLone wb wl => some (cr 1 0x34 0 0 0 0, (0 : BitVec 9) ++ wl ++ (0 : BitVec 5) ++ wb)
  | .anop => some (0, ar 0x00 0 0 0 0)
  | .add d x y => some (0, ar 0x01 d.code x.code y.code 0)
  | .sub d x y => some (0, ar 0x02 d.code x.code y.code 0)
  | .mul d x y => some (0, ar 0x03 d.code x.code y.code 0)
  | .mulh d x y => some (0, ar 0x04 d.code x.code y.code 0)
  | .mulhn d x y => some (0, ar 0x05 d.code x.code y.code 0)
  | .div d x y => some (0, ar 0x06 d.code x.code y.code 0)
  | .divn d x y => some (0, ar 0x07 d.code x.code y.code 0)
  | .rem d x y => some (0, ar 0x08 d.code x.code y.code 0)
  | .remn d x y => some (0, ar 0x09 d.code x.code y.code 0)
  | .and d x y => some (0, ar 0x0a d.code x.code y.code 0)
  | .or d x y => some (0, ar 0x0b d.code x.code y.code 0)
  | .xor d x y => some (0, ar 0x0c d.code x.code y.code 0)
  | .shl d x y => some (0, ar 0x0d d.code x.code y.code 0)
  | .shr d x y => some (0, ar 0x0e d.code x.code y.code 0)
  | .sra d x y => some (0, ar 0x0f d.code x.code y.code 0)
  | .min d x y => some (0, ar 0x10 d.code x.code y.code 0)
  | .max d x y => some (0, ar 0x11 d.code x.code y.code 0)
  | .minn d x y => some (0, ar 0x12 d.code x.code y.code 0)
  | .maxn d x y => some (0, ar 0x13 d.code x.code y.code 0)
  | .slt d x y => some (0, ar 0x14 d.code x.code y.code 0)
  | .sltn d x y => some (0, ar 0x15 d.code x.code y.code 0)
  | .seq d x y => some (0, ar 0x16 d.code x.code y.code 0)
  | .sel d x y => some (0, ar 0x17 d.code x.code y.code 0)
  | .clz d x => some (0, ar 0x18 d.code x.code 0 0)
  | .popc d x => some (0, ar 0x19 d.code x.code 0 0)
  | .mv d x => some (0, ar 0x23 d.code x.code 0 0)
  | .addi d x i => some (0, ai 0x1a d.code x.code i)
  | .andi d x i => some (0, ai 0x1b d.code x.code i)
  | .ori d x i => some (0, ai 0x1c d.code x.code i)
  | .xori d x i => some (0, ai 0x1d d.code x.code i)
  | .slti d x i => some (0, ai 0x21 d.code x.code i)
  | .shli d x n => some (0, ai 0x1e d.code x.code ((0 : BitVec 6) ++ n))
  | .shri d x n => some (0, ai 0x1f d.code x.code ((0 : BitVec 6) ++ n))
  | .srai d x n => some (0, ai 0x20 d.code x.code ((0 : BitVec 6) ++ n))
  | .lane d x k t => some (0, ar 0x22 d.code x.code k t.code)
  | .ins d x k t => some (0, ar 0x24 d.code x.code k t.code)
  | .vrot d x k t => some (0, ar 0x46 d.code x.code k t.code)
  | .vadd d x y t => some (0, ar 0x30 d.code x.code y.code t.code)
  | .vsub d x y t => some (0, ar 0x31 d.code x.code y.code t.code)
  | .vmul d x y t => some (0, ar 0x32 d.code x.code y.code t.code)
  | .vmulh d x y t => some (0, ar 0x33 d.code x.code y.code t.code)
  | .vmac d x y t => some (0, ar 0x34 d.code x.code y.code t.code)
  | .vmin d x y t => some (0, ar 0x35 d.code x.code y.code t.code)
  | .vmax d x y t => some (0, ar 0x36 d.code x.code y.code t.code)
  | .vand d x y t => some (0, ar 0x37 d.code x.code y.code t.code)
  | .vor d x y t => some (0, ar 0x38 d.code x.code y.code t.code)
  | .vxor d x y t => some (0, ar 0x39 d.code x.code y.code t.code)
  | .vshl d x y t => some (0, ar 0x3a d.code x.code y.code t.code)
  | .vshr d x y t => some (0, ar 0x3b d.code x.code y.code t.code)
  | .vsra d x y t => some (0, ar 0x3c d.code x.code y.code t.code)
  | .vadds d x y t => some (0, ar 0x3e d.code x.code y.code t.code)
  | .vsubs d x y t => some (0, ar 0x3f d.code x.code y.code t.code)
  | .vcmpeq d x y t => some (0, ar 0x40 d.code x.code y.code t.code)
  | .vcmplt d x y t => some (0, ar 0x41 d.code x.code y.code t.code)
  | .vcmple d x y t => some (0, ar 0x42 d.code x.code y.code t.code)
  | .vsel d x y t => some (0, ar 0x43 d.code x.code y.code t.code)
  | .vperm d x y t => some (0, ar 0x45 d.code x.code y.code t.code)
  | .vnarrow d x y t => some (0, ar 0x47 d.code x.code y.code t.code)
  | .vdot4 d x y t => some (0, ar 0x4e d.code x.code y.code t.code)
  | .fadd d x y t => some (0, ar 0x60 d.code x.code y.code t.code)
  | .fsub d x y t => some (0, ar 0x61 d.code x.code y.code t.code)
  | .fmul d x y t => some (0, ar 0x62 d.code x.code y.code t.code)
  | .fma d x y t => some (0, ar 0x63 d.code x.code y.code t.code)
  | .fms d x y t => some (0, ar 0x64 d.code x.code y.code t.code)
  | .fmin d x y t => some (0, ar 0x65 d.code x.code y.code t.code)
  | .fmax d x y t => some (0, ar 0x66 d.code x.code y.code t.code)
  | .fdiv d x y t => some (0, ar 0x67 d.code x.code y.code t.code)
  | .fcmpeq d x y t => some (0, ar 0x6d d.code x.code y.code t.code)
  | .fcmplt d x y t => some (0, ar 0x6e d.code x.code y.code t.code)
  | .fcmple d x y t => some (0, ar 0x6f d.code x.code y.code t.code)
  | .fsgnj d x y t => some (0, ar 0x77 d.code x.code y.code t.code)
  | .vabs d x t => some (0, ar 0x3d d.code x.code 0 t.code)
  | .vbcast d x t => some (0, ar 0x44 d.code x.code 0 t.code)
  | .vscan d x t => some (0, ar 0x4a d.code x.code 0 t.code)
  | .vpackt d x t => some (0, ar 0x4b d.code x.code 0 t.code)
  | .vunpkt d x t => some (0, ar 0x4c d.code x.code 0 t.code)
  | .fsqrt d x t => some (0, ar 0x68 d.code x.code 0 t.code)
  | .frcp d x t => some (0, ar 0x69 d.code x.code 0 t.code)
  | .frsq d x t => some (0, ar 0x6a d.code x.code 0 t.code)
  | .fexp2 d x t => some (0, ar 0x6b d.code x.code 0 t.code)
  | .flog2 d x t => some (0, ar 0x6c d.code x.code 0 t.code)
  | .fclass d x t => some (0, ar 0x70 d.code x.code 0 t.code)
  | .fabs d x t => some (0, ar 0x75 d.code x.code 0 t.code)
  | .fneg d x t => some (0, ar 0x76 d.code x.code 0 t.code)
  | .vwiden h d x t => some (0, ar 0x48 d.code x.code ((0 : BitVec 6) ++ BitVec.ofBool h) t.code)
  | .vred o d x t => some (0, ar 0x49 d.code x.code ((0 : BitVec 5) ++ o.code) t.code)
  | .fred o d x t => some (0, ar 0x74 d.code x.code ((0 : BitVec 5) ++ o.code) t.code)
  | .viota d t => some (0, ar 0x4d d.code 0 0 t.code)
  | .fcvt d x t s sat => some (0, ar 0x71 d.code x.code ((0 : BitVec 2) ++ BitVec.ofBool sat ++ s.code) t.code)
  | .fcvti d x t s => some (0, ar 0x72 d.code x.code ((0 : BitVec 3) ++ s.code) t.code)
  | .icvtf d x t s => some (0, ar 0x73 d.code x.code ((0 : BitVec 3) ++ s.code) t.code)
  | .tokb x i => some (0, ai 0x7c 0 x.code i)
  | .tokj x => some (0, ar 0x7d 0 x.code 0 0)
  | .fetch => none
  | .strdl => none
  | .lateWriteLanding _ _ => none
  | .trapEntry => none
  | .kernelStop => none
  | .messageDelivery _ => none
  | .sendAnswer _ _ => none
  | .handlerStart _ => none
  | .preempt _ => none
  | .preemptResume _ => none
  | .serviceDispatch _ _ _ _ _ _ _ => none
  | .dctDecrement _ => none
  | .barrierPhaseComplete _ => none
  | .copyJobStart _ _ => none
  | .copyBeat _ _ _ => none
  | .streamBeat _ _ => none
  | .heldRemoteAccess _ => none
  | .imageWrite _ => none
  | .gangStart _ => none
  | .gangto _ => none
  | .gangStepRetire _ _ => none
  | .refreshWindow _ _ => none
  | .harvestDispatch _ => none
  | .revocation _ => none
  | .revocationComplete _ => none
  | .lendingResume _ => none
  | .parkedContextResume _ => none
  | .parkedContextMove _ _ _ => none
  | .pageWalk _ => none
  | .tlbInvalidate _ _ _ _ => none
  | .tlbInvalidateComplete => none
  | .translationCompletion _ _ _ _ _ _ => none
  | .pageRequestGroupResponse _ _ => none
  | .invalidateRequest _ _ _ => none
  | .invalidationCompletion => none
  | .transferBeat _ _ _ => none
  | .pushCompletionMessage _ _ => none
  | .piWrite _ _ => none
  | .clrf _ => none
  | .stopQueue _ => none
  | .fciWrite _ _ => none
  | .notifyPageOtherWrite _ _ _ => none
  | .messageRecord _ => none
  | .launchRecord _ => none
  | .signalRecord _ => none
  | .energyBudgetRecord _ => none
  | .walkerIssue _ => none
  | .kernelComplete _ _ => none
  | .completionSignal _ => none
  | .wheelTurn _ => none
  | .tlimitExpiry _ _ => none
  | .ladderDrainComplete _ => none
  | .ladderT1Expiry _ => none
  | .ladderSaveComplete _ => none
  | .ladderT2Expiry _ => none
  | .ladderReset _ => none
  | .queueRestore _ => none
  | .processKill _ => none
  | .partitionChange .. => none
  | .queueCreate _ _ => none
  | .processChange _ => none
  | .meteringInterval _ => none
  | .clockChange _ _ => none
  | .overcurrentStep => none
  | .pairRollback _ => none
  | .linkFlit _ _ _ => none
  | .linkRetrain _ _ => none
  | .durableReplay _ => none
  | .moduleLoad .. => none
  | .moduleUnload _ _ => none
  | .weightStoreOpen _ => none
  | .weightStoreClose _ => none
  | .keySlotLoad _ _ => none
  | .coreReset _ => none
  | .firmwareUpdate _ _ _ => none
  | .firmwareHeartbeat => none
  | .firmwareHeartbeatMiss => none
  | .powerOn => none
  | .reducedService => none
  | .fullService _ => none
  | .signedRecord _ => none
  | .getVersion => none
  | .getCapabilities => none
  | .negotiateAlgorithms _ _ => none
  | .getDigests => none
  | .getCertificate => none
  | .challenge _ => none
  | .getMeasurements _ => none
  | .illegalEncoding _ _ _ => none
  | .writePerformed _ => none
  | .malformedCommandRecord _ => none
  | .priReenable => none
  | .completionTimeout _ => none
  | .scrub _ _ _ => none
  | .pageTableWrite _ _ => none
  | .l2HitFill _ => none

/-- Whether an instruction is an arithmetic-slot word. -/
def Instr.isArith (i : Instr) : Bool :=
  match encode i with
  | some (w0, w1) => w0 == 0 && (match i with | .cnop => false | _ => true) && (w1 != 0 || (match i with | .anop => true | _ => false))
  | none => false

/-- The decoder's answer, as an option. -/
def okInstr : Except Nat Instr → Option Instr
  | .ok i => some i
  | .error _ => none

/-- The instruction read from bits numbered as the table numbers them. Word0 is bits 31..0; the table
gives an arithmetic row the 32 bits of its own word1, so a word that is no control word on either kind of
core is read as the word1 of a pair whose word0 is `cnop` (log 15). -/
def decodeTableWord (nbits w : Nat) : Option Instr :=
  let v : BitVec 64 := BitVec.ofNat 64 (w % 2 ^ nbits)
  let w0 := v.extractLsb' 0 32
  let w1 := v.extractLsb' 32 32
  match okInstr (decodeControl false w0 w1) with
  | some i => some i
  | none =>
    match okInstr (decodeControl true w0 w1) with
    | some i => some i
    | none => okInstr (decodeArith w0)

end Sys2Proof
end

