-- ==== Sys2Proof/Machine/State.lean ====
section
/-! DEFINITION. The state of the machine as plain data: issue slots, cores, clusters, the package. The
current core and its current issue slot stand at Core.slot and State.core; every other core stands in
State.peers, and a core or cluster that is listed nowhere is as reset leaves it. -/

namespace Sys2Proof.Machine

/-- A register-store row, an operand-file row or cx.fpm, as a place that bundle order and the interlocks
speak of (R11, R20). -/
inductive Loc where
  | reg (n : Nat)
  | ofile (n : Nat)
  | fpm
  deriving DecidableEq, Repr

/-- A queue entry: filled, or reserved for the late write of that number (R15). -/
inductive QEnt where
  | full (r : Row)
  | rsv (id : Nat)
  deriving DecidableEq, Repr

/-- A control token (R126). -/
structure Token where
  taken : Bool
  pc    : Word
  deriving DecidableEq, Repr

/-- A bundle whose control word has issued and whose arithmetic word has not (R13, R267). `old`
holds the rows its own word0 changed, as they were before and after it: its word1 still reads them as before,
but for lanes that something else has changed since (R11; log 55). -/
structure BEnt where
  pc   : Word
  word : Word
  lone : Bool
  old  : List (Loc × Row × Row)
  skip : Bool
  deriving DecidableEq, Repr

/-- A trap: cause code, stream, INFO, FADDR, faulting word (R262, R271). -/
structure Trap where
  cause : Nat
  ari   : Bool
  info  : Nat
  faddr : Nat
  fword : Word
  deriving DecidableEq, Repr

/-- The kernel a piece of work belongs to: its queue, generation and record number (R286). -/
structure KRef where
  queue : Nat
  gen   : Nat
  recNo : Word
  deriving DecidableEq, Repr

/-- A group element of a symmetric launch: point map x'_d = ± x_(perm d) + off_d, and its sign (R241). -/
structure GElem where
  p0 : Nat
  p1 : Nat
  p2 : Nat
  s0 : Bool
  s1 : Bool
  s2 : Bool
  o0 : Nat
  o1 : Nat
  o2 : Nat
  neg : Bool
  deriving DecidableEq, Repr

/-- The imaged-output descriptor (R244). -/
structure OutDesc where
  base : Nat
  x0 : Nat
  x1 : Nat
  x2 : Nat
  t0 : Nat
  t1 : Nat
  t2 : Nat
  ety : ETy
  v : Bool
  deriving DecidableEq, Repr

/-- The mould latch of a handler: the point, the tile counts, the image set, the descriptor (R247). -/
structure ImgLatch where
  i0 : Nat
  i1 : Nat
  i2 : Nat
  n0 : Nat
  n1 : Nat
  n2 : Nat
  set : List GElem
  out : OutDesc
  deriving DecidableEq, Repr

/-- An active message (R197, R200, R202). -/
structure Msg where
  hdr   : Word
  rows  : List Row
  dest  : List Word
  srcw  : Word
  kind  : Nat
  addr  : Nat
  i0    : Nat
  i1    : Nat
  i2    : Nat
  stab  : Nat
  dent  : Nat
  hvSrc : Bool
  kern  : KRef
  ctxid : Nat
  stamp : Nat
  img   : Option ImgLatch
  deriving DecidableEq, Repr

/-- State of an allocated NI slot (R202, R203, R210). -/
inductive NiSt where
  | waiting | ready | running | kept
  deriving DecidableEq, Repr

/-- An allocated slot of the NI bank; `keep` names the tag it is kept for (R210). -/
structure NiSlot where
  idx  : Nat
  msg  : Msg
  cls  : Nat
  st   : NiSt
  keep : Option Nat
  deriving DecidableEq, Repr

/-- A channel beat (R212), with the time at which its stream issued. -/
structure Beat where
  strm : Nat
  row  : Row
  last : Bool
  kern : KRef
  hv   : Bool
  src  : Word
  deriving DecidableEq, Repr

/-- The batch chain of one context of one slot in one kernel (R377): the open batch's number, the last
sealed number (0 for none), and the batches that a revocation aborted a job of. -/
structure Chain where
  kern    : KRef
  ctxid   : Nat
  opened  : Nat
  lastSealed : Nat
  revoked : List Nat
  deriving DecidableEq, Repr

/-- Where a late write lands (R20, R257, R310). -/
inductive LDest where
  | row (n : Nat)
  | ofile (sid n : Nat)
  | queue (id : Nat)
  | bank (b n : Nat)
  | none
  deriving DecidableEq, Repr

/-- Classes of activity that are counted apart: instructions issued by stream and opcode, array cell cycles, SRAM
and weight-store accesses, network beats, parking and resumption (R351, R352; log 23). -/
inductive AClass where
  | instr (ari : Bool) (op : Nat)
  | cell | sram | net | saggar
  deriving DecidableEq, Repr

/-- Activity of a context since the last metering: the count of one class (R351). -/
structure Act where
  cls : AClass
  ctxid : Nat
  proc : Nat
  kern : KRef
  n : Nat
  deriving DecidableEq, Repr

/-- The part of a cone left over for a context, in 2^-16 cones (R351). -/
structure Frac where
  ctxid : Nat
  proc : Nat
  n : Nat
  deriving DecidableEq, Repr

/-- A late write in flight: it fills the first `lanes` lanes (a queue entry whole, R15); `data` is none
while the access is still held (R141). -/
structure Late where
  id    : Nat
  dest  : LDest
  lanes : Nat
  data  : Option Row
  kern  : KRef
  ctxid : Nat
  /-- PROC of the tag whose handler issued it (R265) -/
  proc  : Nat
  addr  : Nat
  hv    : Bool
  poison : Bool
  deriving DecidableEq, Repr

/-- A store or atomic issued and not yet performed at its scope (R151, R179). -/
structure PendW where
  addr : Nat
  scp  : Scp
  proc : Nat
  kern : KRef
  ctxid : Nat
  deriving DecidableEq, Repr

/-- A TLB entry: one page of its leaf's size, tagged by process (R320). -/
structure TlbEnt where
  proc : Nat
  va   : Nat
  log  : Nat
  leaf : DWord
  deriving DecidableEq, Repr

/-- What the instruction at a PC, or a job's next beat, has been told of its pages while it waits: the page it
waits for, the translations that have come, the pages a walk reported a fault of with their process and INFO, and the host
pages that ended in a failure, as PASID, page and fault kind (R147, R318, R320, R325). -/
structure Xlat where
  page : Option Nat
  ents : List TlbEnt
  bad : List (Nat × Nat × Nat)
  ebad : List (Nat × Nat × Nat)
  deriving DecidableEq, Repr
def Xlat.none : Xlat := { page := Option.none, ents := [], bad := [], ebad := [] }

/-- A `send` that waits for the answer of another package: accepted, or refused by a core (R204). -/
structure SendWait where
  msg  : Msg
  answer : Option SendAns
  deriving DecidableEq, Repr

/-- Where the `mgang` at the PC of a slot stands: its ranges are registered, its post is pending, the gang has
started, the post was withdrawn by a comparison or by its timeout, with the mask to report (R225, R226, R235). -/
inductive GangSt where
  | idle
  | regd (es : List (Nat × Nat))
  | posted
  | started
  | clash (mask : Nat)
  | late (mask : Nat)
  deriving DecidableEq, Repr

/-- What a trap sets aside for `eret` (R267, R275). -/
structure Aside where
  backlog : List BEnt
  wb : Nat
  wl : Nat
  epcC : Word
  epcA : Word
  winNext : Option (Nat × Nat)
  /-- a SKIP of R275 whose word had not been passed when the trap came -/
  skipC : Bool
  skipA : Bool
  /-- the word at epcC was to execute again after its CPF trap (R173) -/
  retry : Bool
  /-- where the `mgang` and the answer to the `send` at epcC stood (R204, R225) -/
  gang : GangSt
  sendWait : Option SendWait
  deriving DecidableEq, Repr

/-- The state of one issue slot (R25). -/
structure Slot where
  /-- identity of the context that the slot's own late writes are bound to -/
  sid : Nat
  /-- a handler runs (R206, R210) -/
  active : Bool
  /-- its kernel is to be stopped (R276) -/
  halted : Bool
  /-- the control stream's PC (R8) -/
  pc : Word
  /-- bundles whose arithmetic word has not completed, oldest first (R13) -/
  backlog : List BEnt
  /-- what a trap set aside (R267, R275) -/
  aside : Option Aside
  /-- a trap that waits for late writes to the header row (R257, R273) -/
  trapWait : Option Trap
  /-- cx.wb (R254) -/
  wb : Nat
  /-- cx.wl (R254) -/
  wl : Nat
  /-- cx.pb (R254) -/
  pb : Nat
  /-- cx.pl (R254) -/
  pl : Nat
  /-- the privilege bit (R256) -/
  prv : Bool
  /-- operand file o0-o7 (R19) -/
  ofile : Vector Row 8
  /-- the control latch (R21) -/
  latC : Row
  /-- the arithmetic latch (R21) -/
  latA : Row
  /-- data queues q0-q3, head first (R15) -/
  queues : Vector (List QEnt) 4
  /-- the token queue, head first (R17, R126) -/
  toks : List Token
  /-- cx.fpm (R74) -/
  fpm : Word
  /-- the NI slot of the current message (R22) -/
  msgSlot : Option Nat
  /-- `rls` has not released it (R210) -/
  msgLive : Bool
  /-- TAG of the running handler (R201) -/
  tag : Nat
  /-- the class its message was dispatched with (R205, R207) -/
  cls : Nat
  /-- PROC of its tag (R201) -/
  proc : Nat
  /-- the process that ran here last (R135) -/
  lastProc : Option Nat
  /-- the kernel of the running handler (R286) -/
  kern : KRef
  /-- the mould latch (R247) -/
  latch : Option ImgLatch
  /-- wait codes of R28; 100 stands for an outside wait -/
  waitC : Option Nat
  waitA : Option Nat
  /-- repetitions done of a streamed form (R26, R27) -/
  rep : Nat
  /-- lines held prefetched (R160, R192) -/
  fetched : List (Nat × Row)
  /-- batch chains (R171, R377) -/
  chains : List Chain
  /-- stores not yet performed, oldest first (R151) -/
  pend : List PendW
  /-- SKIP of R275, pending for the control word, or the arithmetic word, at the resume PC -/
  skipC : Bool
  skipA : Bool
  /-- the window that takes effect once this bundle's arithmetic word has completed (R259) -/
  winNext : Option (Nat × Nat)
  /-- the control word at the PC waits only for its own bundle's arithmetic word (R128, R210) -/
  ctlIssued : Bool
  /-- the header row as the `eret` that waits has read it (R11, R128) -/
  eretRow : Option Row
  /-- the `send` that waits for an answer (R204) -/
  sendWait : Option SendWait
  /-- translations the instruction at the PC has waited for (R147, R320) -/
  xl : Xlat
  /-- where its `mgang` stands (R225, R226) -/
  gang : GangSt
  /-- the `lend` or `reclaim` at the PC has had its revocation (R307, R308) -/
  revoked : Bool
  /-- the word at the PC executes again after a CPF trap that it raised (R173) -/
  retry : Bool
  /-- it runs a kernel of a pair (R362) -/
  paired : Bool
  deriving DecidableEq, Repr

/-- The slot at core reset (R19, R25, R254). -/
def Slot.reset : Slot :=
  { sid := 0, active := false, halted := false, pc := 0, backlog := [], aside := none, trapWait := none,
    wb := 0, wl := 1, pb := 0, pl := 2048, prv := false, ofile := Vector.replicate 8 0, latC := 0, latA := 0,
    queues := Vector.replicate 4 [], toks := [], fpm := 0, msgSlot := none, msgLive := false, tag := 0, cls := 0, proc := 0,
    lastProc := none, kern := ⟨4096, 0, 0⟩, latch := none, waitC := none, waitA := none, rep := 0, fetched := [],
    chains := [], pend := [], skipC := false, skipA := false, winNext := none, ctlIssued := false, eretRow := none, sendWait := none,
    xl := Xlat.none, gang := .idle, revoked := false, retry := false, paired := false }

/-- The shadow set of a pre-empted handler: its slot state, and lanes 2-4 of its header (R207, R278). -/
structure Shadow where
  slot : Slot
  l2 : Word
  l3 : Word
  l4 : Word
  deriving DecidableEq, Repr

/-- A footprint of rows and scratchpad pages (R301, R302). -/
structure Foot where
  rb : Nat
  rn : Nat
  pb : Nat
  pn : Nat
  deriving DecidableEq, Repr

/-- A parked context in a saggar bank (R312): its rows, slot state, lanes 2-4 of its header, footprint, and when it was parked (R304). -/
structure Parked where
  bank : Nat
  rows : List (Nat × Row)
  slot : Slot
  l2 : Word
  l3 : Word
  l4 : Word
  /-- its message slot, while it is off its core (R312) -/
  ni : Option NiSlot
  foot : Foot
  order : Nat
  deriving DecidableEq, Repr

/-- A stream of the stream unit (R161-R164): `key` is the key of BASE, lo and hi are the first and last key
of the pattern, `va` its lowest address, in a page of 2^log bytes, i the next beat; `owner` is the core that holds
the issuing context now (R312); `at_` is the time at which it issued. -/
structure Strm where
  at_ : Nat
  key : Nat
  n0 : Nat
  n1 : Nat
  n2 : Nat
  s0 : Int
  s1 : Int
  s2 : Int
  dest : Word
  ch : Nat
  i : Nat
  lo : Nat
  hi : Nat
  va : Nat
  log : Nat
  enc : Option Nat
  proc : Nat
  owner : Word
  rlt : List (Nat × Nat)
  kern : KRef
  ctxid : Nat
  hv : Bool
  deriving DecidableEq, Repr

/-- Who waits for a translation at a core: an issue slot, a job of the core's unit, or nobody any more (R337). -/
inductive Asker where
  | slot (hv : Bool)
  | job (slot : Nat)
  | none
  deriving DecidableEq, Repr

/-- A missed page of a core that waits for its walk (R320, R321). -/
structure Miss where
  core : Word
  asker : Asker
  proc : Nat
  page : Nat
  deriving DecidableEq, Repr

/-- An ATC entry (R325), most recently used first in the list that holds it. -/
structure AtcEnt where
  pasid : Nat
  page  : Nat
  log   : Nat
  hpa   : Nat
  r : Bool
  w : Bool
  deriving DecidableEq, Repr

/-- An outstanding ATS or PRI request of a memory core, with the rights it needs: a Translation Request, a Page
Request that waits for a place, or one that is out (R325, R326), and the kernel whose access it is (R337). -/
structure ExtReq where
  asker : Asker
  pasid : Nat
  page  : Nat
  r     : Bool
  w     : Bool
  paged : Bool
  sent  : Bool
  kern  : KRef
  deriving DecidableEq, Repr

/-- A checkpoint of a paired core: what a rollback restores, the first late write that does not belong to it,
and the undo log of its local memory since, newest first (R363, R364). -/
structure Ckpt where
  regs : List (Nat × Row)
  slot : Slot
  /-- the pre-empted handler's shadow set (R207) -/
  shadow : Option Shadow
  mstat : Word
  scla : Word
  sclb : Word
  chans : Vector (List Beat) 4
  nextId : Nat
  tries : Nat
  bundles : Nat
  undo : List (Nat × Byte)
  /-- the register rows written since, each once -/
  rows : List Nat
  /-- a rollback to it waits for the late writes that belong to it (R364) -/
  rolling : Bool
  deriving DecidableEq, Repr

/-- One core (R25, R132). -/
structure Core where
  /-- cx.core (R132, R198) -/
  id : Word
  /-- the issue slot that is current in the model -/
  slot : Slot
  /-- the other issue slot (R25) -/
  alt : Slot
  /-- the current slot is the harvest slot -/
  hvNow : Bool
  /-- the register store, rows that are not 0 (R254) -/
  regs : List (Nat × Row)
  /-- late writes in flight, in issue order (R20) -/
  late : List Late
  /-- number of the next late write -/
  nextId : Nat
  /-- accumulator tiles, elements that are not 0 (R71, R236) -/
  acc : List (Nat × BitVec 48)
  /-- FRESH of each tile (R236) -/
  fresh : BitVec 16
  /-- tiles an uncorrectable error has marked (R231) -/
  poison : BitVec 16
  /-- sampled row scales that are not 1.0 (R227, R236) -/
  scaleA : List (Nat × Word)
  /-- sampled column scales (R227, R236) -/
  scaleB : List (Nat × Word)
  /-- the c4 code table (R237) -/
  codes : Vector Byte 16
  /-- its plane count (R237) -/
  kc : Nat
  /-- cx.mstat (R72) -/
  mstat : Word
  /-- cx.scla (R132) -/
  scla : Word
  /-- cx.sclb (R132) -/
  sclb : Word
  /-- cx.cycle (R132) -/
  cycle : DWord
  /-- cx.lend (R302) -/
  lend : Word
  /-- the kernel that executed the `lend` (R302) -/
  lendKern : Option KRef
  /-- cx.grp0-3 (R213) -/
  grp : Vector Word 4
  /-- cx.tagsel (R132) -/
  tagsel : Nat
  /-- the tag table, entries that are not 0 (R201) -/
  tags : List (Nat × BitVec 128)
  /-- the process bound table, entries that are not (0, 2048) (R255) -/
  bounds : List (Nat × (Nat × Nat))
  /-- the NI message bank, allocated slots (R202) -/
  ni : List NiSlot
  /-- channels c0-c3, oldest beat first (R212) -/
  chans : Vector (List Beat) 4
  /-- the stream unit (R164) -/
  strms : List Strm
  /-- the shadow set (R207) -/
  shadow : Option Shadow
  /-- contexts in the saggar banks (R312) -/
  parked : List Parked
  /-- a revocation is in progress (R309) -/
  revoking : Bool
  /-- the owner slot has executed `done` since lending was suspended, and no message has started there since (R312) -/
  ownerDone : Bool
  /-- the L1 TLB, newest first (R320) -/
  tlb : List TlbEnt
  /-- the ATC of a memory core (R325) -/
  atc : List AtcEnt
  /-- its outstanding requests to the host (R325, R326) -/
  ext : List ExtReq
  /-- its slice is in its refresh window (R138) -/
  inRefresh : Bool
  /-- groups whose barrier it has arrived at, with the phase (R214) -/
  barArr : List (Nat × Nat)
  /-- the checkpoint of a pair (R363) -/
  ckpt : Option Ckpt
  /-- activity since the last metering (R351) -/
  activity : List Act
  /-- the corrected-error counter, and the lines corrected with the time of each (R360) -/
  errCount : Nat
  corrected : List (Nat × Nat)
  /-- lines that hold an error the code cannot correct, which nothing has read yet (R360; log 28) -/
  broken : List Nat
  /-- lines reported for repair (R360) -/
  repair : List Nat
  deriving DecidableEq, Repr

/-- The core of that address word at core reset (R19, R132, R201, R236, R237, R254, R255). -/
def Core.reset (id : Word) : Core :=
  { id := id, slot := Slot.reset, alt := { Slot.reset with sid := 1 }, hvNow := false, regs := [], late := [], nextId := 2,
    acc := [], fresh := 0, poison := 0, scaleA := [], scaleB := [], codes := Vector.replicate 16 0, kc := 1, mstat := 0,
    scla := 0, sclb := 0, cycle := 0, lend := 0, lendKern := none, grp := Vector.replicate 4 0, tagsel := 0, tags := [], bounds := [],
    ni := [], chans := Vector.replicate 4 [], strms := [], shadow := none, parked := [],
    revoking := false, ownerDone := false, tlb := [], atc := [], ext := [], inRefresh := false, barArr := [], ckpt := none, activity := [], errCount := 0, corrected := [],
    broken := [], repair := [] }

/-- A range-lock entry over spans lo..hi of 64-byte lines of the memory keys (R140, R169); `order` is its
place among the requests to its table. -/
structure RltEnt where
  idx : Nat
  spans : List (Nat × Nat)
  lockR : Bool
  lockW : Bool
  order : Nat
  deriving DecidableEq, Repr

/-- Kinds of copy and transfer job (R166, R332). -/
inductive JKind where
  | cpy (k : CpyKind) | xld | xst | xpush | xws
  deriving DecidableEq, Repr

/-- State of a job (R169, R170). -/
inductive JSt where
  | queued | running | faulted (kind addr : Nat)
  deriving DecidableEq, Repr

/-- A job of a copy unit or of a transfer engine (R142, R165, R330). -/
structure Job where
  slot : Nat
  kind : JKind
  st : JSt
  src : Nat
  dst : Nat
  len : Nat
  fill : Word
  w : Nat
  kw : Nat
  sx : Nat
  dx : Nat
  cg : Nat
  xp : Nat
  x0 : Int
  xn : Nat
  dest : Word
  hdr : Word
  sw : Word
  beat : Nat
  order : Nat
  core : Word
  proc : Nat
  kern : KRef
  ctxid : Nat
  hv : Bool
  /-- the core that holds the issuing context now (R312) -/
  owner : Word
  batch : Nat
  /-- translations its next beat has waited for (R320) -/
  xl : Xlat
  rlt : List (Nat × Nat)
  phase : Option (Nat × Nat)
  msgDue : Bool
  deriving DecidableEq, Repr

/-- A dependence-counter entry that is not FREE (R216, R217). -/
inductive DctEnt where
  | armed (count : Nat) (hdr dest : Word) (row : Option Row) (kern : KRef) (ctxid : Nat)
  | fault (kern : KRef)
  deriving DecidableEq, Repr

/-- A pending gang post (R225). -/
structure Post where
  core : Nat
  ext  : GangWord
  a : Nat
  b : Nat
  at_ : Nat
  kern : KRef
  ctxid : Nat
  proc : Nat
  rlt : List (Nat × Nat)
  deriving DecidableEq, Repr

/-- A member of a started gang operation, with what it sampled (R227). -/
structure Member where
  core : Nat
  a : Nat
  b : Nat
  /-- where it read its row and column scales, if a tile was FRESH -/
  scales : Option (Nat × Nat)
  codes : Vector Byte 16
  rlt : List (Nat × Nat)
  kern : KRef
  ctxid : Nat
  proc : Nat
  deriving DecidableEq, Repr

/-- A started gang operation and the ring step it is at (R229). -/
structure GangOp where
  ext : GangWord
  members : List Member
  step : Nat
  k : Nat
  deriving DecidableEq, Repr

/-- An image write of the mould that is still due, with the agent whose store it is (R177, R248) and the time at which
that store issued. -/
structure Img where
  key : Nat
  enc : Option Nat
  bytes : List Byte
  /-- SCP of the `sti` (R191, R249) -/
  scp : Scp
  core : Word
  hv : Bool
  proc : Nat
  kern : KRef
  ctxid : Nat
  at_ : Nat
  deriving DecidableEq, Repr

/-- The next beat that the destination of a reduce-add or a push expects from a job, which its unit and its place there
identify (R366). -/
structure Port where
  unit : Nat
  order : Nat
  next : Nat
  deriving DecidableEq, Repr

/-- One cluster, or the engines of a memory core (number 256 + 16·die + index) (R142, R176). -/
structure Cluster where
  id : Nat
  proc : Option Nat
  rlt : List RltEnt
  jobs : List Job
  nextOrder : Nat
  dct : List (Nat × DctEnt)
  posts : List Post
  ops : List GangOp
  spill : List (Word × Msg)
  imgs : List Img
  l2 : List TlbEnt
  /-- the setting of its clock (R356), the one the planner has chosen for it (R359), and how many cycles of its own clock it
  is behind the reference clock (R357) -/
  clock : Nat
  choice : Nat
  lag : DWord
  frac : List Frac
  /-- the job that made the last beat (R142) -/
  rr : Nat
  deriving DecidableEq, Repr

/-- The cluster at cluster reset; in full service its clock is the highest setting (log 1). -/
def Cluster.reset (id : Nat) : Cluster :=
  { id := id, proc := none, rlt := [], jobs := [], nextOrder := 0, dct := [], posts := [], ops := [], spill := [],
    imgs := [], l2 := [], clock := 12, choice := 12, lag := 0, frac := [], rr := 64 }

/-- Bytes of one line: key, the key slot that encrypts them, how many (R329). -/
structure Spot where
  key : Nat
  enc : Option Nat
  n : Nat
  deriving DecidableEq, Repr

/-- An access that has issued and is held: by an RLT entry of another cluster (R141), by an earlier held access
of its core to the same bytes (R180), or, for a release, by any earlier one (R151). `core` holds its context now,
`lateAt` is where its late write lands; `imgs` are the images of an `sti`, due once it is performed (R191); `acq` says that
later memory instructions wait for it; `at_` is the time at which it issued. -/
structure Held where
  core : Word
  lateAt : Word
  spots : List Spot
  store : Option (List Byte)
  rmw : Option (AmoOp × DWord)
  cas : Option (DWord × DWord)
  acq : Bool
  rel : Bool
  sc : Bool
  /-- the scope of a release (R151, R249) -/
  scp : Scp
  imgs : List Img
  at_ : Nat
  lateId : Nat
  kern : KRef
  ctxid : Nat
  proc : Nat
  hv : Bool
  deriving DecidableEq, Repr

/-- A decrement on its way to its DCT, of this package or another (R199, R217, R299), from a harvest slot or not (R277). -/
structure Dec where
  pkg : Nat
  cl : Nat
  entry : Nat
  core : Word
  ctxid : Nat
  kern : KRef
  hv : Bool
  deriving DecidableEq, Repr

/-- A process of the package (R315, R325, R353, R354). -/
structure Proc where
  id : Nat
  root : Nat
  pasid : Nat
  part : Nat
  cone : DWord
  budget : Nat
  left : Nat
  turnCharged : DWord
  /-- as its turn began, the first launch record that waited in each of its queues: queue and number, in the order in
  which R354's rule falls to them; the queue it fell to last (R354; log 86) -/
  firstLaunch : List (Nat × Word)
  lastFirst : Nat
  deriving DecidableEq, Repr

/-- A partition: its description, group table, store state, wheel (R1, R139, R199, R213, R293, R334). -/
structure Part where
  id : Nat
  clusters : List Nat
  memCores : List Nat
  absent : List Word
  /-- its cores in other packages of the pod (R1, R252) -/
  others : List Word
  ovf : Nat
  /-- made in reduced service: it gets no part of another die (R373) -/
  early : Bool
  /-- the ranges of dependence-counter entries for its kernels, each as first and last entry (R199) -/
  dct : List (Nat × Nat)
  groups : List (Nat × List Word)
  storeOpen : Bool
  wheel : List Nat
  cur : Option Nat
  deriving DecidableEq, Repr

/-- A barrier: its current phase and the members that have arrived (R187, R214). -/
structure Bar where
  part : Nat
  grp : Nat
  phase : Nat
  arrived : List Word
  deriving DecidableEq, Repr

/-- A record whose work has ended and whose signal is due (R287, R288). -/
structure Retired where
  recNo : Word
  sig : Bool
  sigAddr : Nat
  sigVal : DWord
  status : Nat
  code : Nat
  gen : Nat
  deriving DecidableEq, Repr

/-- Why a queue's ladder is climbed (R294). -/
inductive Trig where
  | stop | limit | kill | partition | firmware
  deriving DecidableEq, Repr

/-- Where a queue stands on the ladder (R294): in service, draining (rung 1 under way), saving (rung 2 under
way), drained (rung 1 reached), saved (rung 2 reached), resetting (rung 3 under way), reset (rung 3 reached). -/
inductive QPhase where
  | serving | draining | saving | drained | saved | resetting | reset
  deriving DecidableEq, Repr

/-- Bytes that a durable kernel has written outside the chip, in its queue's journal: where they go, under which key
slot (R367). -/
structure JWrite where
  key : Nat
  enc : Option Nat
  bytes : List Byte
  deriving DecidableEq, Repr

/-- A hardware queue (R281, R283, R296). `faulted` is a fault 4 or 5 that CLRF has not cleared; `cleared` and
`turned` say that CLRF, or the end of the change, and a turn of its process have come since its ladder began. -/
structure Queue where
  id : Nat
  ring : Nat
  log2n : Nat
  res : Bool
  dur : Bool
  process : Nat
  part : Nat
  farea : Nat
  flen : Nat
  p : Word
  ci : Word
  next : Word
  fcount : Word
  fci : Word
  gen : Nat
  fault : Nat
  faulted : Bool
  phase : QPhase
  mapped : Bool
  ladder : Option Trig
  cleared : Bool
  turned : Bool
  /-- the clusters, and engines of memory cores, that rung 3 resets (R294) -/
  engines : List Nat
  retired : List Retired
  journal : List (Word × List JWrite)
  committed : List Word
  deriving DecidableEq, Repr

/-- A kernel that has started and not ended (R286, R289, R294, R355). -/
structure Kern where
  ref : KRef
  proc : Nat
  part : Nat
  launch : Bool
  /-- a handler of it has started on a compute core (R194) -/
  compute : Bool
  pair : Bool
  /-- the module whose text its handlers run, 0 for none (R350) -/
  module : Nat
  groups : List Nat
  dctLo : Nat
  dctHi : Nat
  cap : Nat
  charged : DWord
  tlimit : Nat
  began : Nat
  sig : Bool
  sigAddr : Nat
  sigVal : DWord
  deriving DecidableEq, Repr

/-- A launch whose points are still being issued (R243, R292). -/
structure Walker where
  kern : KRef
  part : Nat
  hdr : Word
  rows : List Row
  n0 : Nat
  n1 : Nat
  n2 : Nat
  elems : List GElem
  out : OutDesc
  place : Nat
  at_ : Nat
  issued : Nat
  deriving DecidableEq, Repr

/-- A kernel that the kiln has to stop, with the fault record to write (R276, R277). -/
structure StopReq where
  kern : KRef
  flags : Nat
  core : Word
  ctxid : Nat
  proc : Nat
  pc : Word
  lane4 : Word
  faddr : Nat
  fword : Word
  stamp : DWord
  epcA : Word
  status : Nat
  faultCode : Nat
  deriving DecidableEq, Repr

/-- A loaded module (R347, R350): its text, its tags, its launch section as relocated (R344), the page-table entries
that map its data, and the ranges of the data. -/
structure Module where
  handle : Nat
  proc : Nat
  part : Nat
  pc : Nat
  size : Nat
  tags : List Nat
  launch : List Byte
  maps : List Nat
  data : List (Nat × Nat)
  deriving DecidableEq, Repr

/-- A module whose text is in place and whose tags are not: the cores whose service dispatch has not executed `ifence`,
those where it has and `done` is due, and the tag entries to write then (R348). -/
structure Publish where
  mod : Module
  tags : List (Word × Nat × BitVec 128)
  wait : List Word
  fenced : List Word
  deriving DecidableEq, Repr

/-- A 128-bit granule of kiln memory with its tag (R369). -/
structure Granule where
  tag : Bool
  val : BitVec 128
  deriving DecidableEq, Repr

/-- A link: next expected number, failures of the current flit, down (R365). -/
structure Link where
  id : Nat
  /-- the number of the next flit that it accepts (R365) -/
  expect : Nat
  fails : Nat
  retrain : Bool
  down : Bool
  deriving DecidableEq, Repr

/-- An SPDM answer on the mailbox (R376). -/
inductive SpdmAns where
  | version (major minor : Nat)
  | capabilities (cert chal meas : Bool)
  | algorithms (sha3 mldsa : Bool)
  | digests (d : BitVec 256)
  | certificate (bytes : List Byte)
  | challengeAuth (nonce : BitVec 256) (meas : BitVec 256) (sig : List Byte)
  | measurements (vals : List (Nat × BitVec 256))
  | error
  deriving DecidableEq, Repr

/-- A kiln image slot: its handover VERSION, the digest of its body, and its signature block (R346, R371). -/
structure Image where
  version : Nat
  digest : BitVec 256
  key : BitVec 256
  sig : List Byte
  deriving DecidableEq, Repr

/-- The handover structure of a live update: LEN is the length of its body (R371). -/
structure Handover where
  version : Nat
  len : Nat
  digest : BitVec 256
  body : List Byte
  deriving DecidableEq, Repr

/-- The firmware and identity state (R371-R376). -/
structure Firm where
  stage : Nat
  activeB : Bool
  imgA : Option Image
  imgB : Option Image
  runningB : Bool
  pending : Option (BitVec 256)
  updating : Bool
  handover : Option Handover
  records : List (Nat × List Byte)
  inForce : List (Nat × List Byte)
  seqs : List (Nat × Nat)
  /-- the image whose measurement is current (R371, R376) -/
  measured : Option Image
  withheld : List Word
  answers : List SpdmAns
  deriving DecidableEq, Repr

/-- An invalidation whose completion is still due (R193, R322, R327). -/
inductive Inval where
  | tlb (part : Nat) (proc : Option Nat) (va len : Nat)
  | host (pasid page log : Nat)
  deriving DecidableEq, Repr

/-- Memory: address keys and bytes, keys strictly rising, no entry equal to 0, which is what an
unlisted key reads as (log 2). -/
abbrev Memory := List Host.Cell

/-- A context saved off the core: a saggar spill or a ladder save (R294, R311). -/
structure Saved where
  core : Word
  kern : KRef
  ctx : Parked
  /-- the slot it left: 0 a bank, 1 the owner slot, 2 the shadow set -/
  place : Nat
  deriving DecidableEq, Repr

/-- What the matrix array of a core holds: tiles, samples and code table (R236, R237). -/
structure Tiles where
  acc : List (Nat × BitVec 48)
  fresh : BitVec 16
  poison : BitVec 16
  scaleA : List (Nat × Word)
  scaleB : List (Nat × Word)
  codes : Vector Byte 16
  kc : Nat
  deriving DecidableEq, Repr

/-- The array at core reset. -/
def Tiles.reset : Tiles := { acc := [], fresh := 0, poison := 0, scaleA := [], scaleB := [], codes := Vector.replicate 16 0, kc := 1 }

/-- The memories of a cluster and the arrays of its cores as the ladder saved them for a process; `lost` says that the
cluster has changed its process since (R135, R294). -/
structure SavedMem where
  proc : Nat
  cl : Nat
  bytes : List (Nat × Byte)
  tiles : List (Word × Tiles)
  /-- the register rows of each core within the process's bound there (R255, R294) -/
  regs : List (Word × List (Nat × Row))
  lost : Bool
  deriving DecidableEq, Repr

/-- The machine. -/
structure State where
  /-- the core that is current in the model -/
  core : Core
  /-- the other cores that are not as reset leaves them -/
  peers : List Core
  /-- clusters and memory-core engines that are not as reset leaves them -/
  clusters : List Cluster
  /-- every memory, by key (R2, R317) -/
  mem : Memory
  /-- partitions (R1, R139) -/
  parts : List Part
  /-- processes (R315, R353, R354) -/
  procs : List Proc
  /-- loaded XTS key slots (R329) -/
  keys : List (Nat × (BitVec 256 × BitVec 256))
  /-- hardware queues (R281) -/
  queues : List Queue
  /-- kernels in progress (R286) -/
  kerns : List Kern
  /-- launch walkers (R292) -/
  walkers : List Walker
  /-- kernels that the kiln has to stop, oldest first (R276) -/
  stops : List StopReq
  /-- messages that wait at their source (R204) -/
  net : List Msg
  /-- messages on their way to another package (R204) -/
  outbound : List Msg
  /-- messages that another package has accepted, whose work there has not ended (R286) -/
  remote : List Msg
  /-- decrements on their way (R217) -/
  decs : List Dec
  /-- accesses held back, oldest first (R141, R151, R180) -/
  held : List Held
  /-- barriers (R187, R214) -/
  bars : List Bar
  /-- loaded modules (R347) -/
  modules : List Module
  /-- modules on their way to their cores (R348) -/
  publishing : List Publish
  /-- contexts in the save area (R294, R311) -/
  saved : List Saved
  /-- memories of clusters in the save area (R294) -/
  savedMem : List SavedMem
  /-- messages saved by the ladder (R294) -/
  savedMsgs : List Msg
  /-- DCT entries saved by the ladder (R294) -/
  savedDct : List (Nat × Nat × DctEnt)
  /-- invalidations not yet completed, oldest first (R193, R327) -/
  invals : List Inval
  /-- missed pages that wait for their walks, in arrival order (R321) -/
  misses : List Miss
  /-- page requests are enabled (R326) -/
  priEnabled : Bool
  /-- page requests that the host allocates to the package (R326) -/
  prgAlloc : Nat
  /-- the other packages of the pod (R198, R318) -/
  pod : List PodPkg
  /-- kiln memory: granules that are not clear, by number (R369) -/
  kiln : List (Nat × Granule)
  /-- the host address of the notify pages, page q for queue q; none until the host has given one (R283; log 70) -/
  bar : Option Nat
  /-- the refresh timer (R138) -/
  timer : Nat
  /-- the next beats that destinations expect from jobs (R366) -/
  ports : List Port
  /-- links that have carried something (R365) -/
  links : List Link
  /-- the package account, in cones, and the part of a cone left over, in 2^-16 cones (R2, R352) -/
  pkgEnergy : DWord
  pkgFrac : Nat
  /-- metering intervals so far (R351) -/
  meterings : Nat
  /-- the last measurement exceeded the limit (R356) -/
  limited : Bool
  /-- firmware and identity (R371-R376) -/
  firm : Firm
  /-- native images that this package has translated and multicast to the other packages of a partition (R349) -/
  images : List (Nat × List Byte)
  /-- the loader's last answer: status and handle (R347, R350) -/
  loader : Nat × Nat
  /-- what happens outside the cores and engines, in order: inputs that the coming steps take (log 3) -/
  events : List Instr
  /-- the model's scheduler: whose turn the next step is (log 3) -/
  turn : Nat
  /-- uses of free values so far: the model's own (log 5) -/
  free : Nat
  deriving DecidableEq, Repr

/-- Why the machine stops. The DZ9 reports every fault of an instruction to the program (a trap) or to
the kiln (a kernel stop), after which it goes on, so there is no fault outcome: no constructor. -/
inductive Fault where
  deriving DecidableEq, Repr

/-- Why an instruction has no meaning. -/
inductive Refusal where
  /-- Raised by an arm of exec whose instruction is not modelled yet; safe, since no claim speaks of it. -/
  | notModelled (mnemonic : String)
  deriving DecidableEq, Repr

/-- The one partition of the package at reset: every cluster and memory core of R2, no overflow area
(log 4). -/
def Part.full : Part :=
  { id := 0, clusters := List.range 256, memCores := List.range 64, absent := [], others := [], ovf := 0, early := false, dct := [(0, 1023)],
    groups := [], storeOpen := false, wheel := [], cur := none }

/-- Firmware state at package reset: stage 0, nothing verified yet (R373). -/
def Firm.reset : Firm :=
  { stage := 0, activeB := false, imgA := none, imgB := none, runningB := false, pending := none, updating := false,
    handover := none, records := [], inForce := [], seqs := [], measured := none, withheld := [], answers := [] }

/-- The machine right after reset. -/
def State.reset : State :=
  { core := Core.reset 0, peers := [], clusters := [], mem := [], parts := [Part.full], procs := [], keys := [], queues := [],
    kerns := [], walkers := [], stops := [], net := [], outbound := [], remote := [], decs := [], held := [], bars := [], modules := [],
    publishing := [], saved := [], savedMem := [], savedMsgs := [], savedDct := [], invals := [], misses := [], priEnabled := true, prgAlloc := 512, pod := [], kiln := [], bar := none, timer := 0, ports := [], links := [], pkgEnergy := 0, pkgFrac := 0,
    meterings := 0, limited := false, firm := Firm.reset, images := [], loader := (0, 0), events := [], turn := 0, free := 0 }

end Sys2Proof.Machine
end

