-- ==== Sys2Proof/Machine/Mem.lean ====
section
/-! DEFINITION. Memory as one canonical list of (key, byte) pairs, the keys of the address spaces (R133,
R317), and sparse tables by number. -/

namespace Sys2Proof.Machine

/-! ### Tables by number -/

/-- The entry of a sparse table, d where it is not listed. -/
def look {α : Type} (d : α) : List (Nat × α) → Nat → α
  | [], _ => d
  | (k, v) :: r, n => if k = n then v else look d r n

/-- Sets the entry of a sparse table, kept in rising order of its numbers. -/
def put {α : Type} : List (Nat × α) → Nat → α → List (Nat × α)
  | [], n, x => [(n, x)]
  | (k, v) :: r, n, x =>
    if n < k then (n, x) :: (k, v) :: r else if k = n then (n, x) :: r else (k, v) :: put r n x

/-- Removes the entries of a number. -/
def drop' {α : Type} (l : List (Nat × α)) (n : Nat) : List (Nat × α) := l.filter (fun e => e.1 != n)

/-! ### Bytes (log 2) -/

/-- What an unlisted key reads as (log 2). -/
def unlisted : Byte := 0

/-- Reads one byte. -/
def memRead : Memory → Nat → Byte
  | [], _ => unlisted
  | (k, b) :: r, a => if k = a then b else memRead r a

/-- Writes one byte, keeping the canonical form. -/
def memWrite : Memory → Nat → Byte → Memory
  | [], a, b => if b = unlisted then [] else [(a, b)]
  | (k, c) :: r, a, b =>
    if a < k then (if b = unlisted then (k, c) :: r else (a, b) :: (k, c) :: r)
    else if k = a then (if b = unlisted then r else (a, b) :: r)
    else (k, c) :: memWrite r a b

/-- The canonical form from key lo up: rising keys, no entry that reads as an unlisted one. -/
def Memory.wfFrom (lo : Nat) : Memory → Bool
  | [] => true
  | (k, b) :: r => decide (lo ≤ k) && (b != unlisted) && Memory.wfFrom (k + 1) r

/-- The canonical form of memory. -/
def Memory.wf (m : Memory) : Bool := Memory.wfFrom 0 m

/-- The entries of the n keys from a up. -/
def memSpan (m : Memory) (a n : Nat) : Memory := m.filter (fun c => decide (a ≤ c.1) && decide (c.1 < a + n))

/-- Reads n bytes from a key up. -/
def memReadN (m : Memory) (a n : Nat) : List Byte :=
  let l := memSpan m a n
  (List.range n).map (fun i => memRead l (a + i))

/-- Writes bytes from a key up. -/
def memWriteN (m : Memory) (a : Nat) : List Byte → Memory
  | [] => m
  | b :: bs => memWriteN (memWrite m a b) (a + 1) bs

/-- Zeroes the keys lo to lo + n - 1. -/
def memZero (m : Memory) (lo n : Nat) : Memory := m.filter (fun c => decide (c.1 < lo) || decide (lo + n ≤ c.1))

/-- A number of n bytes, least significant byte first (R65). -/
def memNat (m : Memory) (a n : Nat) : Nat := bytesNat (memReadN m a n)

/-! ### Keys -/

def spaceSize : Nat := 2 ^ 52
/-- The CXL pool, the host under a PASID, the weight slices and the instruction stores. -/
def cxlKey (a : Nat) : Nat := spaceSize + a
def hostKey (a : Nat) : Nat := 2 * spaceSize + a

/-- Package, die and cluster (or memory-core index) of a core address word (R198). -/
def pkgOf (w : Word) : Nat := (w.extractLsb' 24 6).toNat
def dieOf (w : Word) : Nat := (w.extractLsb' 22 2).toNat
def clOf (w : Word) : Nat := (w.extractLsb' 16 6).toNat
def coreOf (w : Word) : Nat := (w.extractLsb' 13 3).toNat
def isMem (w : Word) : Bool := w.getLsbD 31

/-- The cluster number of a core: 0-255, or 256 up for the engines of a memory core. -/
def clIdx (w : Word) : Nat := if isMem w then 256 + 16 * dieOf w + clOf w else 64 * dieOf w + clOf w
/-- The core's number among the compute cores, or after them. -/
def coreIdx (w : Word) : Nat := if isMem w then 2048 + clIdx w - 256 else 8 * clIdx w + coreOf w

/-- The address word of core c of a cluster number (R198). -/
def coreWord (pkg cl c : Nat) : Word :=
  if cl < 256 then BitVec.ofNat 32 (pkg <<< 24 ||| (cl / 64) <<< 22 ||| (cl % 64) <<< 16 ||| c <<< 13)
  else BitVec.ofNat 32 (2 ^ 31 ||| pkg <<< 24 ||| ((cl - 256) / 16) <<< 22 ||| ((cl - 256) % 16) <<< 16)

/-- On-chip target address (R317). -/
def chipKey (pkg die kind cl core off : Nat) : Nat := pkg <<< 46 ||| die <<< 44 ||| kind <<< 42 ||| cl <<< 36 ||| core <<< 33 ||| off
/-- Local memory of a compute core, buffer of a memory core. -/
def localKey (w : Word) (off : Nat) : Nat :=
  if isMem w then chipKey (pkgOf w) (dieOf w) 2 (clOf w) 0 off else chipKey (pkgOf w) (dieOf w) 0 (clOf w) (coreOf w) off
/-- The scratchpad of a core's cluster. -/
def scratchKey (w : Word) (off : Nat) : Nat := chipKey (pkgOf w) (dieOf w) 1 (clOf w) 0 off
/-- Scratchpad of a cluster number. -/
def scratchKeyOf (pkg cl off : Nat) : Nat := chipKey pkg (cl / 64) 1 (cl % 64) 0 off
/-- The weight slice of a compute core. -/
def sliceKey (w : Word) (off : Nat) : Nat := 3 * spaceSize + coreIdx w * 2 ^ 24 + off
/-- The instruction store of a cluster or memory core. -/
def storeKey (cl : Nat) (off : Nat) : Nat := 4 * spaceSize + cl * 2 ^ 18 + off

/-- Fields of an on-chip key. -/
def keyPkg (k : Nat) : Nat := (k >>> 46) % 64
def keyKind (k : Nat) : Nat := (k >>> 42) % 4
def keyOff (k : Nat) : Nat := k % 2 ^ 21
/-- The cluster number that owns an on-chip key. -/
def keyCl (k : Nat) : Nat :=
  if keyKind k = 2 then 256 + 16 * ((k >>> 44) % 4) + (k >>> 36) % 64 else 64 * ((k >>> 44) % 4) + (k >>> 36) % 64
/-- The key lies on a die of the pod. -/
def isChip (k : Nat) : Bool := decide (k < spaceSize)
/-- The number of the memory a key lies in: equal for two keys of one memory. -/
def keyMem (k : Nat) : Nat :=
  if k < spaceSize then k >>> 33
  else if 3 * spaceSize ≤ k && k < 4 * spaceSize then 2 ^ 30 + (k - 3 * spaceSize) / 2 ^ 24
  else if 4 * spaceSize ≤ k then 2 ^ 31 + (k - 4 * spaceSize) / 2 ^ 18
  else 2 ^ 32 + k / spaceSize

/-! ### Cores and clusters -/

/-- Puts a core in the list of the others, in place of the one of its address word. -/
def putPeer : List Core → Core → List Core
  | [], c => [c]
  | d :: r, c => if d.id = c.id then c :: r else d :: putPeer r c

/-- The cluster of a number. -/
def getCl (s : State) (n : Nat) : Cluster :=
  match s.clusters.find? (fun c => c.id == n) with
  | some c => c
  | none => Cluster.reset n

/-- A core that is listed nowhere: as reset leaves it, its cycle counter apart, which has run since in its cluster's own
clock (R132, R357). -/
def idleCore (s : State) (w : Word) : Core := { Core.reset w with cycle := BitVec.ofNat 64 s.timer - (getCl s (clIdx w)).lag }

/-- The core of an address word. -/
def getCore (s : State) (w : Word) : Core :=
  if s.core.id = w then s.core
  else match s.peers.find? (fun c => c.id == w) with
    | some c => c
    | none => idleCore s w

/-- Stores a core under its own address word. -/
def setCore (s : State) (c : Core) : State :=
  if s.core.id = c.id then { s with core := c } else { s with peers := putPeer s.peers c }

def modCore (s : State) (w : Word) (f : Core → Core) : State := setCore s (f (getCore s w))

/-- Every core that is listed. -/
def allCores (s : State) : List Core := s.core :: s.peers

/-- Applies f to every listed core. -/
def mapCores (s : State) (f : Core → Core) : State := { s with core := f s.core, peers := s.peers.map f }

/-- Puts a cluster in the list, in place of the one of its number. -/
def putCluster : List Cluster → Cluster → List Cluster
  | [], c => [c]
  | d :: r, c => if d.id = c.id then c :: r else d :: putCluster r c

def setCl (s : State) (c : Cluster) : State := { s with clusters := putCluster s.clusters c }
def modCl (s : State) (n : Nat) (f : Cluster → Cluster) : State := setCl s (f (getCl s n))
def mapCls (s : State) (f : Cluster → Cluster) : State := { s with clusters := s.clusters.map f }

/-- The owner and the harvest slot of a core (R25). -/
def Core.owner (c : Core) : Slot := if c.hvNow then c.alt else c.slot
def Core.harvest (c : Core) : Slot := if c.hvNow then c.slot else c.alt
def Core.setOwner (c : Core) (x : Slot) : Core := if c.hvNow then { c with alt := x } else { c with slot := x }
def Core.setHarvest (c : Core) (x : Slot) : Core := if c.hvNow then { c with slot := x } else { c with alt := x }

/-- Applies f to every slot of the core: the issue slots, the pre-empted handler, the parked contexts. -/
def Core.mapSlots (c : Core) (f : Slot → Slot) : Core :=
  { c with slot := f c.slot, alt := f c.alt, shadow := c.shadow.map (fun h => { h with slot := f h.slot }),
           parked := c.parked.map (fun p => { p with slot := f p.slot }) }
/-- Those slots. -/
def Core.slots (c : Core) : List Slot := [c.slot, c.alt] ++ (c.shadow.map (fun h => h.slot)).toList ++ c.parked.map (fun p => p.slot)

/-- The table entries of an `mgang` that the slot has registered and not posted, here or under a trap (R140, R225). -/
def Slot.gangRegs (x : Slot) : List (Nat × Nat) :=
  let of (g : GangSt) : List (Nat × Nat) := match g with
    | .regd es => es
    | _ => []
  of x.gang ++ x.aside.elim [] (fun a => of a.gang)

/-- Updates of the current core, the current slot and the memory. -/
def State.modC (s : State) (f : Core → Core) : State := { s with core := f s.core }
def State.modS (s : State) (f : Slot → Slot) : State := { s with core := { s.core with slot := f s.core.slot } }

/-- What the matrix array of a core holds, and a core with it. -/
def Core.tiles (c : Core) : Tiles :=
  { acc := c.acc, fresh := c.fresh, poison := c.poison, scaleA := c.scaleA, scaleB := c.scaleB, codes := c.codes, kc := c.kc }
def Core.setTiles (c : Core) (t : Tiles) : Core :=
  { c with acc := t.acc, fresh := t.fresh, poison := t.poison, scaleA := t.scaleA, scaleB := t.scaleB, codes := t.codes, kc := t.kc }

/-! ### Array lines (R360): the numbers by which SCRUB names them (log 28) -/

/-- A register row. -/
def regLine (n : Nat) : Nat := n
/-- A row of the operand file of the owner, or of the harvest, slot. -/
def ofileLine (hv : Bool) (n : Nat) : Nat := 2048 + (if hv then 8 else 0) + n
/-- A row of a saggar bank, of 128. -/
def bankLine (bank n : Nat) : Nat := 4096 + 128 * bank + n
/-- A payload row of a slot of the NI bank. -/
def niLine (slot n : Nat) : Nat := 8192 + 8 * slot + n
/-- The 64-byte line of the instruction store that holds a PC. -/
def codeLine (pc : Nat) : Nat := 65536 + pc / 64
/-- The array of a line, as a machine check names it (R361). -/
def lineArray (line : Nat) : Nat := if line < 2048 then 0 else if 65536 ≤ line then 4 else 7
/-- The aperture address of a line of the instruction store; the other numbered arrays have none (R136, R361). -/
def lineAddrOf (line : Nat) : Nat := if 65536 ≤ line then 0x1C00000 + 64 * (line - 65536) else 0
/-- The line holds no error any more. -/
def Core.mend (c : Core) (line : Nat) : Core := { c with broken := c.broken.filter (fun l => l != line) }

/-- Adds to one count of a context (R351). -/
def bump (l : List Act) (cls : AClass) (ctxid proc : Nat) (k : KRef) (n : Nat) : List Act :=
  match l with
  | [] => [{ cls := cls, ctxid := ctxid, proc := proc, kern := k, n := n }]
  | a :: r =>
    if a.cls = cls ∧ a.ctxid = ctxid ∧ a.proc = proc ∧ a.kern = k then { a with n := a.n + n } :: r
    else a :: bump r cls ctxid proc k n
/-- n counts of engine work for the agent that issued it, at a core (R352). -/
def chargeN (n : Nat) (s : State) (w : Word) (cls : AClass) (ctxid proc : Nat) (k : KRef) : State :=
  modCore s w (fun c => { c with activity := bump c.activity cls ctxid proc k n })
def charge (s : State) (w : Word) (cls : AClass) (ctxid proc : Nat) (k : KRef) : State := chargeN 1 s w cls ctxid proc k

/-! ### Register rows -/

/-- A physical row of the register store (R254). -/
def Core.row (c : Core) (n : Nat) : Row := look 0 c.regs n
def Core.setRow (c : Core) (n : Nat) (r : Row) : Core := { c with regs := put c.regs n r }

/-- The header row of the current context (R254, R262). -/
def Core.hdr (c : Core) : Row := c.row c.slot.wb
def Core.setHdr (c : Core) (r : Row) : Core := c.setRow c.slot.wb r

/-- MODE of a header row (R263). -/
def modeOf (h : Row) : BitVec 16 := (lane h 1).extractLsb' 16 16
def modeDZ (m : BitVec 16) : Bool := m.getLsbD 0
def modeFV (m : BitVec 16) : Bool := m.getLsbD 1
def modeFO (m : BitVec 16) : Bool := m.getLsbD 2
def modeFU (m : BitVec 16) : Bool := m.getLsbD 3
def modeFX (m : BitVec 16) : Bool := m.getLsbD 4
def modeAL (m : BitVec 16) : Bool := m.getLsbD 5
def modeIT (m : BitVec 16) : Bool := m.getLsbD 6
/-- The header with IT set or clear (R263). -/
def setIT (h : Row) (b : Bool) : Row :=
  let l := lane h 1
  setLane h 1 (if b then l ||| 0x400000 else l &&& ~~~(0x400000 : Word))
/-- The context identifier in lane 1 (R262). -/
def ctxOf (h : Row) : Nat := ((lane h 1).extractLsb' 0 16).toNat

/-- A parked, pre-empted or other slot of the core that holds a late write's queue entry. -/
def landQ (id : Nat) (r : Row) (q : List QEnt) : List QEnt :=
  q.map (fun e => match e with
    | .full x => .full x
    | .rsv j => if j = id then .full r else .rsv j)

/-- Fills a reserved queue entry of a slot (R15). -/
def Slot.land (x : Slot) (id : Nat) (r : Row) : Slot := { x with queues := x.queues.map (landQ id r) }

/-- Whether a late write is pending to a physical row (R20, R257). -/
def Core.pendingRow (c : Core) (n : Nat) : Bool := c.late.any (fun l => l.dest == .row n)
/-- Whether a late write is pending to an operand-file row of the slot. -/
def Core.pendingO (c : Core) (sid n : Nat) : Bool := c.late.any (fun l => l.dest == .ofile sid n)

/-! ### Partitions, processes, kernels -/

/-- The partition a cluster number belongs to (R1, R139). -/
def partOfCl (s : State) (cl : Nat) : Option Part :=
  s.parts.find? (fun p => if cl < 256 then p.clusters.contains cl else p.memCores.contains (cl - 256))
def partOf (s : State) (w : Word) : Option Part := partOfCl s (clIdx w)
def partById (s : State) (n : Nat) : Option Part := s.parts.find? (fun p => p.id == n)
def modPart (s : State) (n : Nat) (f : Part → Part) : State := { s with parts := s.parts.map (fun p => if p.id = n then f p else p) }

/-- A core and its shadow form a pair: a compute core of an even number in a partition where a paired kernel runs (R362). -/
def pairCore (s : State) (w : Word) : Bool :=
  s.kerns.any (fun k => k.pair && !isMem w && (partOf s w).any (fun p => p.id == k.part))
/-- The shadow of a pair: while the kernel runs, it is its primary's second self (R362; log 27). -/
def shadowCore (s : State) (w : Word) : Bool := coreOf w % 2 == 1 && pairCore s w

/-- This package. -/
def ownPkg (s : State) : Nat := pkgOf s.core.id

/-- The bits of a core address word are in form: reserved bits zero, a memory core's index at most 15 (R198). -/
def wordForm (w : Word) : Bool := !w.getLsbD 30 && w.extractLsb' 0 13 == 0 && (!isMem w || (clOf w < 16 && coreOf w == 0))

/-- The description of a partition lists the core as present (R1, R198). -/
def listed (s : State) (p : Part) (w : Word) : Bool :=
  if pkgOf w = ownPkg s then (partOf s w).any (fun q => q.id == p.id) && !p.absent.contains w
  else s.pod.any (fun k => k.id == pkgOf w) && p.others.contains w

/-- A core address word is well-formed for a partition (R198). -/
def coreOkIn (s : State) (p : Part) (w : Word) : Bool := wordForm w && listed s p w

/-- A core address word is well-formed for the issuing core: the description of its partition lists it (R198). -/
def coreOk (s : State) (w : Word) : Bool := (partOf s s.core.id).any (fun p => coreOkIn s p w)

/-- A present core of this package, of whichever partition. -/
def coreHere (s : State) (w : Word) : Bool := wordForm w && pkgOf w == ownPkg s && (partOf s w).any (fun p => !p.absent.contains w)

/-- A cluster of this package of which some core is present (R1, R318). -/
def clusterHere (s : State) (cl : Nat) : Bool := (List.range 8).any (fun i => coreHere s (coreWord (ownPkg s) cl i))

/-- A present core of another package of the pod, as that package's description has it (R318). -/
def coreThere (s : State) (w : Word) : Bool := wordForm w && s.pod.any (fun k => k.id == pkgOf w && k.cores.contains w)

/-- Puts a word into an ascending list, and every word of a list. -/
def insertWord : List Word → Word → List Word
  | [], w => [w]
  | v :: r, w => if w.toNat < v.toNat then w :: v :: r else v :: insertWord r w
def insertAll (l : List Word) (ws : List Word) : List Word := ws.foldl insertWord l

/-- Every present compute core of a partition, in ascending order of address words (R209). -/
def partCores (s : State) (p : Part) : List Word :=
  let ws := (List.range 2048).filterMap (fun n =>
    if p.clusters.contains (n / 8) then some (coreWord (ownPkg s) (n / 8) (n % 8)) else none)
  insertAll (ws.filter (fun w => !p.absent.contains w)) (p.others.filter (fun w => !isMem w))

def procById (s : State) (n : Nat) : Option Proc := s.procs.find? (fun p => p.id == n)
def modProc (s : State) (n : Nat) (f : Proc → Proc) : State := { s with procs := s.procs.map (fun p => if p.id = n then f p else p) }

/-- The scratchpad limit of a cluster number (R139). -/
def scratchLimit (s : State) (cl : Nat) : Nat :=
  2031616 - (match partOfCl s cl with
    | some p => p.ovf
    | none => 0)

/-- A free value, and the state in which the next use takes another (log 5). -/
def takeFree (s : State) : Row × State := (Config.freeValue s.free, { s with free := s.free + 1 })

end Sys2Proof.Machine
end

