-- ==== Sys2Proof/Machine/Operands.lean ====
section
/-! DEFINITION. Every operand form: what a specifier reads and writes in each stream (R14-R23, R26, R38),
and which operands each arithmetic instruction has. -/

namespace Sys2Proof.Machine

/-- NROWS, TAG and CLASS of a header word (R197). -/
def hdrRows (h : Word) : Nat := (h.extractLsb' 19 3).toNat
def hdrTag (h : Word) : Nat := (h.extractLsb' 22 8).toNat
def hdrClass (h : Word) : Nat := (h.extractLsb' 30 2).toNat
/-- The header word is malformed (R197). -/
def hdrBad (h : Word) : Bool := hdrClass h == 3 || h.extractLsb' 0 19 != 0

/-- The header row m0 of a delivered message (R200). -/
def Msg.row0 (m : Msg) (cls : Nat) : Row :=
  rowOfLanes [BitVec.ofNat 2 cls ++ m.hdr.extractLsb' 0 30, m.srcw, BitVec.ofNat 32 m.kind, BitVec.ofNat 32 m.addr,
    BitVec.ofNat 32 (m.addr >>> 32), BitVec.ofNat 32 m.i0, BitVec.ofNat 32 m.i1, BitVec.ofNat 32 m.i2,
    BitVec.ofNat 32 m.stab, BitVec.ofNat 32 m.dent]

/-- The allocated NI slot of a number. -/
def niFind (c : Core) (i : Nat) : Option NiSlot := c.ni.find? (fun n => n.idx == i)

/-- Row mn of the current message slot: 0 beyond NROWS, after `rls`, and where there is no message (R22). -/
def msgRow (c : Core) (x : Slot) (n : Nat) : Row :=
  if x.msgLive then
    match x.msgSlot with
    | some i =>
      match niFind c i with
      | some e => if n = 0 then e.msg.row0 e.cls else if n ≤ hdrRows e.msg.hdr then e.msg.rows.getD (n - 1) 0 else 0
      | none => 0
    | none => 0
  else 0

/-- The place a window or operand-file specifier names. -/
def locOf (x : Slot) : Opnd → Option Loc
  | .w n => some (.reg (x.wb + n.val))
  | .o n => some (.ofile n.val)
  | _ => none
def locsOf (x : Slot) (os : List Opnd) : List Loc := os.filterMap (locOf x)

/-- A window operand beyond the limit (R18). -/
def beyond (x : Slot) : Opnd → Bool
  | .w n => decide (x.wl ≤ n.val)
  | _ => false

/-- A late write is pending to the place (R20, R257). -/
def pendingLoc (c : Core) : Loc → Bool
  | .reg n => c.pendingRow n
  | .ofile n => c.pendingO c.slot.sid n
  | .fpm => false

/-- A source with how many of its kind come before it in the instruction (R16). -/
def readAll {α : Type} (rd : Opnd → Nat → α) : List Opnd → List Opnd → List α
  | [], _ => []
  | o :: os, seen => rd o (seen.count o) :: readAll rd os (o :: seen)

/-- The k-th entry of a queue from its head. -/
def qEnt (x : Slot) (n k : Nat) : Option QEnt := (x.queues[n]?.getD [])[k]?

/-- The row a filled entry holds. -/
def QEnt.row : Option QEnt → Row
  | some (.full r) => r
  | _ => 0

/-- A control-stream source (R21, R22). -/
def readC (c : Core) (o : Opnd) (k : Nat) : Row :=
  let x := c.slot
  match o with
  | .w n => c.row (x.wb + n.val)
  | .o n => x.ofile[n.val]
  | .lat => x.latC
  | .z => 0
  | .q n => QEnt.row (qEnt x n.val k)
  | .c _ => 0
  | .m n => msgRow c x n.val

/-- The wait code of a control-stream source that is not there yet, 0 where it is (R15, R28). -/
def waitSrcC (c : Core) (o : Opnd) (k : Nat) : Nat :=
  match o with
  | .q n =>
    match qEnt c.slot n.val k with
    | none => 3
    | some (.rsv _) => 100
    | some (.full _) => 0
  | _ => 0

/-- The lanes of a row that still stand as a word0 left them (new) as they were before it (old); the others, which
something else has changed since, as they stand (R11; log 55). -/
def beforeWord0 (old new now : Row) : Row :=
  rowOfLanes ((List.range 16).map (fun j => if lane now j = lane new j then lane old j else lane now j))

/-- A row as its bundle's word1 sees it: what its own word0 changed reads as before (R11). -/
def oldLoc (e : BEnt) (l : Loc) (now : Row) : Row :=
  match e.old.find? (fun p => p.1 == l) with
  | some p => beforeWord0 p.2.1 p.2.2 now
  | none => now

/-- An arithmetic-stream source of the bundle e, with window row operands moved by i rows (R22, R26). -/
def readA (c : Core) (e : BEnt) (i : Nat) (o : Opnd) (k : Nat) : Row :=
  let x := c.slot
  match o with
  | .w n => oldLoc e (.reg (x.wb + n.val + i)) (c.row (x.wb + n.val + i))
  | .o n => oldLoc e (.ofile n.val) x.ofile[n.val]
  | .lat => x.latA
  | .z => 0
  | .q n => QEnt.row (qEnt x n.val k)
  | .c n => ((c.chans[n.val])[k]?.map Beat.row).getD 0
  | .m n => msgRow c x n.val

/-- The wait code of an arithmetic-stream source that is not there yet, 0 where it is (R15, R26, R28). -/
def waitSrcA (c : Core) (o : Opnd) (k : Nat) : Nat :=
  match o with
  | .q n =>
    match qEnt c.slot n.val k with
    | none => 2
    | some (.rsv _) => 100
    | some (.full _) => 0
  | .c n =>
    match (c.chans[n.val])[k]? with
    | some _ => 0
    | none => 100
  | _ => 0

/-- The first wait code of a list, 0 for none. -/
def firstWait : List Nat → Nat
  | [] => 0
  | 0 :: r => firstWait r
  | n :: _ => n

/-- The destination is a full queue (R15). -/
def fullQ (x : Slot) : Option Opnd → Bool
  | some (.q n) => decide (16 ≤ (x.queues[n.val]).length)
  | _ => false

/-- Takes the head of a queue, or of a channel, for one source naming (R15, R26). -/
def popOne (c : Core) (o : Opnd) : Core :=
  match o with
  | .q n => { c with slot := { c.slot with queues := c.slot.queues.set n.val (c.slot.queues[n.val]).tail } }
  | .c n => { c with chans := c.chans.set n.val (c.chans[n.val]).tail }
  | _ => c
def popAll (c : Core) (os : List Opnd) : Core := os.foldl popOne c

/-- Pushes an entry. -/
def pushQ (c : Core) (n : Fin 4) (e : QEnt) : Core :=
  { c with slot := { c.slot with queues := c.slot.queues.set n.val (c.slot.queues[n.val] ++ [e]) } }

/-- Delivers a result of n lanes (16 for a whole row) to a destination, window rows moved by i; the stream's
latch is written by the caller (R15, R21-R23). -/
def writeDst (c : Core) (o : Opnd) (i n : Nat) (r : Row) : Core :=
  match o with
  | .w k =>
    let p := c.slot.wb + k.val + i
    c.setRow p (mergeLanes n r (c.row p))
  | .o k => { c with slot := { c.slot with ofile := c.slot.ofile.set k.val (mergeLanes n r c.slot.ofile[k.val]) } }
  | .q k => pushQ c k (.full (mergeLanes n r 0))
  | _ => c

/-- Where a late write to a destination lands (R20). -/
def lateDest (c : Core) : Opnd → LDest
  | .w k => .row (c.slot.wb + k.val)
  | .o k => .ofile c.slot.sid k.val
  | .q _ => .queue c.nextId
  | _ => .none

/-- Issues a late write of n lanes to a destination: a queue entry is reserved (R15, R20). -/
def issueLate (c : Core) (o : Opnd) (n : Nat) (data : Option Row) (addr : Nat) : Core :=
  let l : Late := { id := c.nextId, dest := lateDest c o, lanes := n, data := data, kern := c.slot.kern, ctxid := ctxOf c.hdr,
                    proc := c.slot.proc, addr := addr, hv := c.hvNow, poison := false }
  let c := match o with
    | .q k => pushQ c k (.rsv c.nextId)
    | _ => c
  { c with late := c.late ++ [l], nextId := c.nextId + 1 }

/-! ### Operands of the arithmetic instructions -/

/-- Destination, sources, whether D is read too, and whether D is accumulated into (R26, R85). -/
structure AOps where
  dst : Option Opnd
  srcs : List Opnd
  readsD : Bool
  acc : Bool
  deriving DecidableEq, Repr

/-- The operands of an arithmetic instruction, none for any other (R44). -/
def aOps : Instr → Option AOps
  | .anop => some ⟨none, [], false, false⟩
  | .add d x y | .sub d x y | .mul d x y | .mulh d x y | .mulhn d x y | .div d x y | .divn d x y | .rem d x y
  | .remn d x y | .and d x y | .or d x y | .xor d x y | .shl d x y | .shr d x y | .sra d x y | .min d x y
  | .max d x y | .minn d x y | .maxn d x y | .slt d x y | .sltn d x y | .seq d x y => some ⟨some d, [x, y], false, false⟩
  | .sel d x y => some ⟨some d, [x, y], true, false⟩
  | .clz d x | .popc d x | .mv d x => some ⟨some d, [x], false, false⟩
  | .addi d x _ | .andi d x _ | .ori d x _ | .xori d x _ | .slti d x _ => some ⟨some d, [x], false, false⟩
  | .shli d x _ | .shri d x _ | .srai d x _ => some ⟨some d, [x], false, false⟩
  | .lane d x _ _ => some ⟨some d, [x], false, false⟩
  | .ins d x _ _ => some ⟨some d, [x], true, false⟩
  | .vadd d x y _ | .vsub d x y _ | .vmul d x y _ | .vmulh d x y _ | .vmin d x y _ | .vmax d x y _ | .vand d x y _
  | .vor d x y _ | .vxor d x y _ | .vshl d x y _ | .vshr d x y _ | .vsra d x y _ | .vadds d x y _ | .vsubs d x y _
  | .vcmpeq d x y _ | .vcmplt d x y _ | .vcmple d x y _ | .vperm d x y _ | .vnarrow d x y _ | .vdot4 d x y _
  | .fadd d x y _ | .fsub d x y _ | .fmul d x y _ | .fmin d x y _ | .fmax d x y _ | .fdiv d x y _ | .fcmpeq d x y _
  | .fcmplt d x y _ | .fcmple d x y _ | .fsgnj d x y _ => some ⟨some d, [x, y], false, false⟩
  | .vsel d x y _ => some ⟨some d, [x, y], true, false⟩
  | .vmac d x y _ | .fma d x y _ | .fms d x y _ => some ⟨some d, [x, y], true, true⟩
  | .vabs d x _ | .vbcast d x _ | .vscan d x _ | .vpackt d x _ | .vunpkt d x _ | .fsqrt d x _ | .frcp d x _ | .frsq d x _
  | .fexp2 d x _ | .flog2 d x _ | .fclass d x _ | .fabs d x _ | .fneg d x _ => some ⟨some d, [x], false, false⟩
  | .vrot d x _ _ => some ⟨some d, [x], false, false⟩
  | .vwiden _ d x _ => some ⟨some d, [x], false, false⟩
  | .vred _ d x _ => some ⟨some d, [x], false, false⟩
  | .fred _ d x _ => some ⟨some d, [x], false, false⟩
  | .viota d _ => some ⟨some d, [], false, false⟩
  | .fcvt d x _ _ _ => some ⟨some d, [x], false, false⟩
  | .fcvti d x _ _ | .icvtf d x _ _ => some ⟨some d, [x], false, false⟩
  | .tokb x _ => some ⟨none, [x], false, false⟩
  | .tokj x => some ⟨none, [x], false, false⟩
  | _ => none

/-- The instruction raises FP exceptions: it reads and writes cx.fpm and reads MODE (R75). -/
def usesFpm : Instr → Bool
  | .fadd .. | .fsub .. | .fmul .. | .fma .. | .fms .. | .fmin .. | .fmax .. | .fdiv .. | .fsqrt .. | .frcp .. | .frsq ..
  | .fexp2 .. | .flog2 .. | .fcmpeq .. | .fcmplt .. | .fcmple .. | .fcvt .. | .fcvti .. | .icvtf .. | .fred .. => true
  | _ => false
/-- The instruction reads MODE (R75, R89). -/
def usesMode : Instr → Bool
  | .div .. | .divn .. | .rem .. | .remn .. => true
  | i => usesFpm i
/-- The instruction writes cx.mstat (R103). -/
def usesMstat : Instr → Bool
  | .vunpkt .. => true
  | _ => false

/-- A source is a channel: the instruction is a streamed form (R26). -/
def streamed (os : List Opnd) : Bool := os.any (fun o => match o with
  | .c _ => true
  | _ => false)

/-- What a pending arithmetic word reads and writes (R11). -/
structure Footprint where
  rd : List Loc
  wr : List Loc
  mode : Bool
  fpm : Bool
  mstat : Bool

/-- Rows a destination may write: from D on for a streamed form that does not accumulate (R26; log 30). -/
def dstLocs (x : Slot) (a : AOps) : List Loc :=
  match a.dst with
  | some (.w n) =>
    if streamed a.srcs && !a.acc then (List.range (x.wl - n.val)).map (fun i => .reg (x.wb + n.val + i))
    else [.reg (x.wb + n.val)]
  | some o => locsOf x [o]
  | none => []

def footOf (x : Slot) (i : Instr) : Footprint :=
  match aOps i with
  | some a => { rd := locsOf x a.srcs ++ (if a.readsD then dstLocs x a else []), wr := dstLocs x a, mode := usesMode i,
                fpm := usesFpm i, mstat := usesMstat i }
  | none => ⟨[], [], false, false, false⟩

/-- The footprint of a bundle's pending word. -/
def entFoot (x : Slot) (e : BEnt) : Footprint :=
  if e.lone || e.skip then ⟨[], [], false, false, false⟩
  else match decodeArith e.word with
    | .ok i => footOf x i
    | .error _ => ⟨[], [], false, false, false⟩

def meets (a b : List Loc) : Bool := a.any (fun l => b.contains l)

/-- What a control word reads and writes (R11). -/
structure CFoot where
  rd : List Loc
  wr : List Loc
  /-- rows written as a whole or in the MODE lane -/
  wrMode : List Loc
  fpm : Bool
  mstat : Bool

/-- The control word must wait for that pending arithmetic word (R11). -/
def conflicts (hdr : Loc) (p : Footprint) (c : CFoot) : Bool :=
  meets p.wr c.rd || meets p.wr c.wr || meets p.rd c.wr || (p.mode && c.wrMode.contains hdr) || (p.fpm && c.fpm) ||
  (p.mstat && c.mstat)

/-- The control word must wait for an arithmetic result (R11). -/
def arithBusy (x : Slot) (c : CFoot) : Bool := x.backlog.any (fun e => conflicts (.reg x.wb) (entFoot x e) c)

end Sys2Proof.Machine
end

