-- ==== Sys2Proof/Machine/Flags.lean ====
section
/-! DEFINITION. Every flag computation: the FP flags of cx.fpm and their traps (R74, R75), the matrix flags
of cx.mstat (R72), the mode register (R263). -/

namespace Sys2Proof.Machine

/-- The rounding mode of a cx.fpm value (R74). -/
def fpmMode (w : Word) : RMode := RMode.of (w.extractLsb' 0 2)
/-- cx.fpm with the raised exceptions ORed into its flags (R75). -/
def fpmRaise (w : Word) (e : Exc) : Word := w ||| BitVec.ofNat 32 (e.bits <<< 4)
/-- The bits of cx.fpm that a `csrw` writes; the others are ignored (R74). -/
def fpmMask : Word := 0x1F3

/-- cx.fpm as the word1 of bundle e reads it (R131). -/
def fpmOf (c : Core) (e : BEnt) : Word := lane (oldLoc e .fpm (laneRow c.slot.fpm)) 0
/-- MODE as the word1 of bundle e reads it (R131, R263). -/
def modeFor (c : Core) (e : BEnt) : BitVec 16 := modeOf (oldLoc e (.reg c.slot.wb) c.hdr)

/-- A raised exception is enabled in MODE (R75). -/
def excEnabled (m : BitVec 16) (e : Exc) : Bool :=
  (e.nv && modeFV m) || (e.dz && modeDZ m) || (e.of && modeFO m) || (e.uf && modeFU m) || (e.nx && modeFX m)

/-- Matrix flags (R72). -/
def mstatBADT : Word := 1
def mstatAOV : Word := 2
def mstatCSAT : Word := 4

/-- cx.mode after a `csrw`: IT and the reserved bits as they were in the header (R263). -/
def modeWrite (h : Row) (v : Word) : Row :=
  let l := lane h 1
  setLane h 1 ((l &&& 0xFFC0FFFF) ||| ((v &&& 0x3F) <<< 16))

end Sys2Proof.Machine
end

