-- ==== Sys2Proof/Machine/Crypto.lean ====
section
/-! DEFINITION. AES-256-XTS over one 64-byte line, as the pool encryption uses it (R329): a block is its 16
bytes, in order; the state's column c is bytes 4c to 4c + 3. SHA3-256, as the loader and the identity
functions use it (R339, R346, R371-R376). -/

namespace Sys2Proof.Machine

/-- Multiplication by x in GF(2^8). -/
def gfX (a : Byte) : Byte := (a <<< 1) ^^^ (if a.getLsbD 7 then 0x1B else 0)
/-- Product in GF(2^8), over the n low bits of b. -/
def gfMulN : Nat → Byte → Byte → Byte
  | 0, _, _ => 0
  | n + 1, a, b => (if b.getLsbD 0 then a else 0) ^^^ gfMulN n (gfX a) (b >>> 1)
def gfMul (a b : Byte) : Byte := gfMulN 8 a b
/-- The inverse, 0 for 0: a^254. -/
def gfInv (a : Byte) : Byte :=
  let a2 := gfMul a a
  let a3 := gfMul a2 a
  let a6 := gfMul a3 a3
  let a12 := gfMul a6 a6
  let a15 := gfMul a12 a3
  let a30 := gfMul a15 a15
  let a60 := gfMul a30 a30
  let a120 := gfMul a60 a60
  let a240 := gfMul a120 a120
  gfMul (gfMul a240 a12) a2
/-- The substitution and its inverse. -/
def subByte (a : Byte) : Byte :=
  let i := gfInv a
  i ^^^ i.rotateLeft 1 ^^^ i.rotateLeft 2 ^^^ i.rotateLeft 3 ^^^ i.rotateLeft 4 ^^^ 0x63
def unsubByte (a : Byte) : Byte := gfInv (a.rotateLeft 1 ^^^ a.rotateLeft 3 ^^^ a.rotateLeft 6 ^^^ 0x05)

def xorBytes (a b : List Byte) : List Byte := List.zipWith (fun x y => x ^^^ y) a b
def byteAt (l : List Byte) (i : Nat) : Byte := l.getD i 0

/-- Rows shifted left by their number, or right for the inverse. -/
def shiftRows (b : List Byte) (k : Nat) : List Byte :=
  (List.range 16).map (fun i => byteAt b ((4 * ((i / 4 + k * (i % 4)) % 4)) + i % 4))
/-- Columns multiplied by the circulant of c. -/
def mixWith (c : List Byte) (b : List Byte) : List Byte :=
  (List.range 16).map (fun i =>
    (List.range 4).foldl (fun acc j => acc ^^^ gfMul (byteAt c ((j + 4 - i % 4) % 4)) (byteAt b (4 * (i / 4) + j))) 0)

/-- The expanded key, 60 words of 4 bytes, latest first: n more words after those given. -/
def expandKey : Nat → Nat → Byte → List (List Byte) → List (List Byte)
  | 0, _, _, ws => ws
  | n + 1, i, rc, ws =>
    let t := ws.headD []
    let t1 :=
      if i % 8 = 0 then xorBytes ((List.range 4).map (fun j => subByte (byteAt t ((j + 1) % 4)))) [rc, 0, 0, 0]
      else if i % 8 = 4 then t.map subByte
      else t
    expandKey n (i + 1) (if i % 8 = 0 then gfX rc else rc) (xorBytes (ws.getD 7 []) t1 :: ws)

/-- The 15 round keys of a 32-byte key. -/
def roundKeys (key : List Byte) : List (List Byte) :=
  let ws0 := ((List.range 8).map (fun i => (List.range 4).map (fun j => byteAt key (4 * i + j)))).reverse
  let ws := (expandKey 52 8 1 ws0).reverse
  (List.range 15).map (fun r => (List.range 4).flatMap (fun j => ws.getD (4 * r + j) []))

/-- AES-256 on one block. -/
def aesEnc (key : List Byte) (b : List Byte) : List Byte :=
  let ks := roundKeys key
  let s0 := xorBytes b (ks.getD 0 [])
  let s := (List.range 13).foldl (fun s r => xorBytes (mixWith [2, 3, 1, 1] (shiftRows (s.map subByte) 1)) (ks.getD (r + 1) [])) s0
  xorBytes (shiftRows (s.map subByte) 1) (ks.getD 14 [])
def aesDec (key : List Byte) (b : List Byte) : List Byte :=
  let ks := roundKeys key
  let s0 := (shiftRows (xorBytes b (ks.getD 14 [])) 3).map unsubByte
  let s := (List.range 13).foldl (fun s r =>
    (shiftRows (mixWith [14, 11, 13, 9] (xorBytes s (ks.getD (13 - r) []))) 3).map unsubByte) s0
  xorBytes s (ks.getD 0 [])

/-- The tweak times the primitive element, per block. -/
def tweakNext (t : List Byte) : List Byte :=
  let v := bytesNat t
  natBytes ((2 * v) % 2 ^ 128 ^^^ (if v ≥ 2 ^ 127 then 0x87 else 0)) 16

/-- XTS over the blocks of a line from block i up. -/
def xtsBlocks (f : List Byte → List Byte) (line : List Byte) : Nat → Nat → List Byte → List Byte
  | 0, _, _ => []
  | n + 1, i, t =>
    let b := (List.range 16).map (fun j => byteAt line (16 * i + j))
    xorBytes (f (xorBytes b t)) t ++ xtsBlocks f line n (i + 1) (tweakNext t)

/-- Encrypts and decrypts a 64-byte line with the two keys of a slot, the tweak being line address bits
51:6 (R329). -/
def keyBytes (k : BitVec 256) : List Byte := natBytes k.toNat 32
def xtsEnc (k1 k2 : BitVec 256) (lineNo : Nat) (line : List Byte) : List Byte :=
  xtsBlocks (aesEnc (keyBytes k1)) line 4 0 (aesEnc (keyBytes k2) (natBytes lineNo 16))
def xtsDec (k1 k2 : BitVec 256) (lineNo : Nat) (line : List Byte) : List Byte :=
  xtsBlocks (aesDec (keyBytes k1)) line 4 0 (aesEnc (keyBytes k2) (natBytes lineNo 16))

/-! ### SHA3-256 -/

/-- Lane (x, y) of the permutation's state is entry x + 5y. -/
def kLane (a : List DWord) (x y : Nat) : DWord := a.getD (x % 5 + 5 * (y % 5)) 0
def kBuild (f : Nat → Nat → DWord) : List DWord := (List.range 25).map (fun i => f (i % 5) (i / 5))

/-- The rotation offsets, at x + 5y. -/
def kRot : List Nat := [0, 1, 62, 28, 27, 36, 44, 6, 55, 20, 3, 10, 43, 25, 39, 41, 45, 15, 21, 8, 18, 2, 61, 56, 14]
/-- The round constants. -/
def kRound : List DWord :=
  [0x1, 0x8082, 0x800000000000808A, 0x8000000080008000, 0x808B, 0x80000001, 0x8000000080008081, 0x8000000000008009] ++
  [0x8A, 0x88, 0x80008009, 0x8000000A, 0x8000808B, 0x800000000000008B, 0x8000000000008089, 0x8000000000008003] ++
  [0x8000000000008002, 0x8000000000000080, 0x800A, 0x800000008000000A, 0x8000000080008081, 0x8000000000008080] ++
  [0x80000001, 0x8000000080008008]

/-- One round. -/
def kStep (a : List DWord) (rc : DWord) : List DWord :=
  let c := (List.range 5).map (fun x => (List.range 5).foldl (fun v y => v ^^^ kLane a x y) 0)
  let d := (List.range 5).map (fun x => c.getD ((x + 4) % 5) 0 ^^^ (c.getD ((x + 1) % 5) 0).rotateLeft 1)
  let t := kBuild (fun x y => kLane a x y ^^^ d.getD x 0)
  -- lane (X, Y) after the rotations comes from (x, y) with X = y and Y = 2x + 3y
  let b := kBuild (fun x y => (kLane t (x + 3 * y) x).rotateLeft (kRot.getD ((x + 3 * y) % 5 + 5 * x) 0))
  let e := kBuild (fun x y => kLane b x y ^^^ (~~~(kLane b (x + 1) y) &&& kLane b (x + 2) y))
  match e with
  | v :: r => (v ^^^ rc) :: r
  | [] => []
def keccakF (a : List DWord) : List DWord := kRound.foldl kStep a

/-- Absorbs n blocks of 136 bytes. -/
def kAbsorb : Nat → List Byte → List DWord → List DWord
  | 0, _, a => a
  | n + 1, m, a =>
    kAbsorb n (m.drop 136) (keccakF (kBuild (fun x y =>
      let i := x + 5 * y
      kLane a x y ^^^ (if i < 17 then BitVec.ofNat 64 (bytesNat ((m.drop (8 * i)).take 8)) else 0))))

/-- SHA3-256: the digest, its first byte least significant. -/
def sha3 (m : List Byte) : BitVec 256 :=
  let n := m.length / 136 + 1
  let pad := n * 136 - m.length
  let p : List Byte := if pad = 1 then [0x86] else [0x06] ++ List.replicate (pad - 2) 0 ++ [0x80]
  let a := kAbsorb n (m ++ p) (List.replicate 25 0)
  BitVec.ofNat 256 (a.foldr (fun l v => l.toNat + 2 ^ 64 * v) 0)

end Sys2Proof.Machine
end

