-- ==== Sys2Proof/Machine/Translate.lean ====
section
/-! DEFINITION. Where an address leads: the apertures (R133), the page tables (R315-R319), the ATC (R325),
lent pages (R305), the range-lock table (R140, R141), and the bytes of a place, encrypted or not (R329). -/

namespace Sys2Proof.Machine

/-- Who makes an access: core, issue slot, process. -/
structure Who where
  core : Word
  hv : Bool
  proc : Nat
  deriving DecidableEq, Repr

/-- What an access does to its bytes (R319). -/
inductive AKind where
  | load | store | rmw
  deriving DecidableEq, Repr
def AKind.reads : AKind → Bool
  | .store => false
  | _ => true
def AKind.writes : AKind → Bool
  | .load => false
  | _ => true

/-- Bytes of memory: the key of the first, and the key slot that encrypts them (R329). -/
structure Place where
  key : Nat
  enc : Option Nat
  deriving DecidableEq, Repr

/-- Where one byte's address leads. -/
inductive Tr where
  | ok (p : Place)
  | miss (page : Nat)
  | ext (r : ExtReq)
  | addr (info : Nat)
  | extern
  deriving DecidableEq, Repr

/-- INFO bits of R148, in their places of header lane 4. -/
def infoWRO : Nat := 2 ^ 9
def infoUNMAP : Nat := 2 ^ 10
def infoPERM : Nat := 2 ^ 11
def infoFMT : Nat := 2 ^ 12
def infoDESC : Nat := 2 ^ 13

/-! ### Lent pages (R302, R305) -/

def lendV (l : Word) : Bool := l.getLsbD 31
def lendSusp (l : Word) : Bool := l.getLsbD 30
/-- Lending is active (R302). -/
def lendActive (l : Word) : Bool := lendV l && !lendSusp l
def lendRB (l : Word) : Nat := 16 * (l.extractLsb' 19 7).toNat
def lendRN (l : Word) : Nat := 16 * (l.extractLsb' 26 4).toNat
def lendPB (l : Word) : Nat := (l.extractLsb' 9 9).toNat
def lendPN (l : Word) : Nat := (l.extractLsb' 0 9).toNat
/-- The register's value for a footprint (R302). -/
def lendWord (rb rn pb pn : Nat) : Word :=
  BitVec.ofNat 32 (2 ^ 31 ||| (rn / 16) <<< 26 ||| (rb / 16) <<< 19 ||| pb <<< 9 ||| pn)

/-- The core of a cluster that lends a scratchpad page: of those that `of` admits by their cx.lend. -/
def lenderBy (of : Word → Bool) (s : State) (cl page : Nat) : Option Word :=
  match (allCores s).find? (fun c => clIdx c.id == cl && !isMem c.id && of c.lend &&
      decide (lendPB c.lend ≤ page) && decide (page < lendPB c.lend + lendPN c.lend)) with
  | some c => some c.id
  | none => none
/-- The core that lends the page actively (R305). -/
def lender (s : State) (cl page : Nat) : Option Word := lenderBy lendActive s cl page
/-- The core whose footprint holds the page, lending active or suspended: one core of a cluster at a time (R305). -/
def holder (s : State) (cl page : Nat) : Option Word := lenderBy lendV s cl page

/-- R305 keeps the accessor from a scratchpad offset of a cluster. -/
def lentFrom (s : State) (w : Who) (cl off : Nat) : Bool :=
  match lender s cl (off / 4096) with
  | some l => !(w.hv && l == w.core)
  | none => false

/-- What an accessor has issued may still reach a key: no core has lent the page away from it since (R305). An access
that may not is dropped: a read gives zeros (DESIGN CHOICE, log 68). -/
def reaches (s : State) (w : Who) (key : Nat) : Bool := !(isChip key && keyKind key == 1 && lentFrom s w (keyCl key) (keyOff key))

/-! ### Apertures (R133) -/

def inStore (a : Nat) : Bool := decide (0x1C00000 ≤ a) && decide (a < 0x1C40000)

/-- The range of the aperture that holds an address, as (first, length), for a core; none for a hole. -/
def apertureRegion (s : State) (w : Word) (a : Nat) : Option (Nat × Nat) :=
  if isMem w then
    if a < 0x200000 then some (0, 0x200000)
    else if 0x1C00000 ≤ a && a < 0x1C20000 then some (0x1C00000, 0x20000)
    else none
  else if a < 0x60000 then some (0, 0x60000)
  else if 0x100000 ≤ a && a < 0x100000 + scratchLimit s (clIdx w) then some (0x100000, scratchLimit s (clIdx w))
  else if 0x1000000 ≤ a && a < 0x1A00000 then some (0x1000000, 0xA00000)
  else if inStore a then some (0x1C00000, 0x40000)
  else none

/-- An address below 0x0200_0000 (R133, R305). -/
def aperture (s : State) (w : Who) (k : AKind) (a : Nat) : Tr :=
  if isMem w.core then
    if a < 0x200000 then .ok ⟨localKey w.core a, none⟩
    else if 0x1C00000 ≤ a && a < 0x1C20000 then
      if k == .rmw then .addr infoPERM else .ok ⟨storeKey (clIdx w.core) (a - 0x1C00000), none⟩
    else .addr infoUNMAP
  else if a < 0x60000 then
    if w.hv then .addr infoPERM else .ok ⟨localKey w.core a, none⟩
  else if 0x100000 ≤ a && a < 0x100000 + scratchLimit s (clIdx w.core) then
    let off := a - 0x100000
    if w.hv then
      if lender s (clIdx w.core) (off / 4096) == some w.core then .ok ⟨scratchKey w.core off, none⟩ else .addr infoPERM
    else if lentFrom s w (clIdx w.core) off then .addr infoPERM
    else .ok ⟨scratchKey w.core off, none⟩
  else if 0x1000000 ≤ a && a < 0x1A00000 then
    if w.hv then .addr ((if k.writes then infoWRO else 0) ||| infoPERM)
    else if k.writes then .addr infoWRO
    else .ok ⟨sliceKey w.core (a - 0x1000000), none⟩
  else if inStore a then
    if k == .rmw then .addr infoPERM else .ok ⟨storeKey (clIdx w.core) (a - 0x1C00000), none⟩
  else .addr infoUNMAP

/-! ### Page tables (R315-R318) -/

/-- Fields of an entry (R316). -/
def pteV (e : DWord) : Bool := e.getLsbD 0
def pteT (e : DWord) : Bool := e.getLsbD 1
def pteSize (e : DWord) : Nat := (e.extractLsb' 2 3).toNat
def pteR (e : DWord) : Bool := e.getLsbD 5
def pteW (e : DWord) : Bool := e.getLsbD 6
def pteE (e : DWord) : Bool := e.getLsbD 7
def pteTgt (e : DWord) : Nat := (e.extractLsb' 8 2).toNat
def pteFrame (e : DWord) : Nat := (e.extractLsb' 12 40).toNat * 4096
def pteKey (e : DWord) : Nat := (e.extractLsb' 52 12).toNat
/-- log2 of a leaf's size (R316). -/
def sizeLog (n : Nat) : Nat :=
  match n with
  | 0 => 12 | 1 => 14 | 2 => 16 | 3 => 18 | 4 => 21 | 5 => 25 | 6 => 30 | _ => 34

/-- What a walk ends in (R318). -/
inductive WalkEnd where
  | leaf (e : DWord)
  | unmap
  | fmt
  deriving DecidableEq, Repr

/-- The level holds leaves of that size (R315). -/
def levelHolds (level size : Nat) : Bool :=
  match level with
  | 0 => decide (size ≤ 3)
  | 1 => size == 4 || size == 5
  | 2 => size == 6 || size == 7
  | _ => false

/-- A leaf's page lies wholly in a present target memory (R318). -/
def leafTargetOk (s : State) (e : DWord) : Bool :=
  let f := pteFrame e
  let size := 2 ^ sizeLog (pteSize e)
  let off := f % 2 ^ 33
  let pkg := keyPkg f
  let cl := (f >>> 36) % 64
  let core := (f >>> 33) % 8
  let here := pkg == ownPkg s
  match keyKind f with
  | 0 => here && decide (off + size ≤ 0x60000) && coreHere s (coreWord pkg (64 * ((f >>> 44) % 4) + cl) core)
  | 1 => here && core == 0 && clusterHere s (keyCl f) && decide (off + size ≤ scratchLimit s (keyCl f))
  | 2 =>
    let w := coreWord pkg (keyCl f) 0
    core == 0 && decide (cl < 16) && decide (off + size ≤ 0x200000) && (if here then coreHere s w else coreThere s w)
  | _ => false

/-- The key slot is loaded (R329). -/
def keyLoaded (s : State) (k : Nat) : Bool := s.keys.any (fun e => e.1 == k)

/-- A leaf entry's format at a level (R318). -/
def leafOk (s : State) (level : Nat) (e : DWord) : Bool :=
  levelHolds level (pteSize e) && pteFrame e % 2 ^ sizeLog (pteSize e) == 0 &&
  (if pteE e then pteTgt e == 1 && keyLoaded s (pteKey e) else pteKey e == 0) &&
  (pteTgt e != 0 || leafTargetOk s e)

/-- A table pointer's format (R318). -/
def pointerOk (e : DWord) : Bool :=
  pteSize e == 0 && !pteR e && !pteW e && !pteE e && pteKey e == 0 && decide (pteTgt e ≤ 1) &&
  (pteTgt e == 1 || keyKind (pteFrame e) == 2)

/-- Index of an address at a level (R315). -/
def vaIndex (level va : Nat) : Nat := if level = 3 then (va >>> 39) % 8192 else (va >>> (12 + 9 * level)) % 512

/-- A walk from the table at a key, at level n (R315, R318). -/
def walkFrom (s : State) (va : Nat) : Nat → Nat → WalkEnd
  | n, table =>
    let e : DWord := BitVec.ofNat 64 (memNat s.mem (table + 8 * vaIndex n va) 8)
    if !pteV e then .unmap
    else if e.extractLsb' 10 2 != 0 || pteTgt e == 3 then .fmt
    else if pteT e then
      match n with
      | 0 => .fmt
      | m + 1 =>
        if pointerOk e then walkFrom s va m (if pteTgt e = 1 then cxlKey (pteFrame e) else pteFrame e) else .fmt
    else if leafOk s n e then .leaf e
    else .fmt

/-- A walk of a process's table (R315). A process the kiln does not know has no table. -/
def walk (s : State) (proc va : Nat) : WalkEnd :=
  match procById s proc with
  | some p => walkFrom s va 3 p.root
  | none => .unmap

/-- The target address of va through a leaf. -/
def leafTarget (e : DWord) (va : Nat) : Nat := pteFrame e + va % 2 ^ sizeLog (pteSize e)

/-- A TLB entry that holds an address of a process (R320). -/
def tlbFind (l : List TlbEnt) (proc va : Nat) : Option TlbEnt :=
  l.find? (fun t => t.proc == proc && t.va >>> t.log == va >>> t.log)
/-- The entry a leaf fills for an address (R320). -/
def tlbEntry (proc va : Nat) (e : DWord) : TlbEnt :=
  { proc := proc, va := va / 2 ^ sizeLog (pteSize e) * 2 ^ sizeLog (pteSize e), log := sizeLog (pteSize e), leaf := e }
/-- Adds an entry; the oldest goes when n are held (R320). -/
def tlbFill (l : List TlbEnt) (n : Nat) (t : TlbEnt) : List TlbEnt := (t :: l).take n

/-- The ATC entry of an untranslated address (R325). -/
def atcFind (l : List AtcEnt) (pasid a : Nat) : Option AtcEnt :=
  l.find? (fun t => t.pasid == pasid && t.page >>> t.log == a >>> t.log)

/-- Host memory through the ATC of a memory core (R325, R326). -/
def hostTarget (s : State) (w : Who) (k : AKind) (a : Nat) : Tr :=
  let pasid := match procById s w.proc with
    | some p => p.pasid
    | none => 0
  match atcFind (getCore s w.core).atc pasid a with
  | none => .ext ⟨.slot w.hv, pasid, a / 4096, k.reads, k.writes, false, false, ⟨4096, 0, 0⟩⟩
  | some t =>
    if (k.reads && !t.r) || (k.writes && !t.w) then .ext ⟨.slot w.hv, pasid, a / 4096, k.reads && !t.r, k.writes && !t.w, true, false, ⟨4096, 0, 0⟩⟩
    else .ok ⟨hostKey (t.hpa / 2 ^ t.log * 2 ^ t.log + a % 2 ^ t.log), none⟩

/-- A target address as memory has it: in the local memory of a pair's shadow, its primary's (R362; log 27). -/
def pairKey (s : State) (t : Nat) : Nat :=
  if keyKind t == 0 && (t >>> 33) % 2 == 1 && shadowCore s (coreWord (keyPkg t) (keyCl t) ((t >>> 33) % 8)) then t - 2 ^ 33 else t

/-- Through a leaf: permission, lent pages, the target (R319, R305, R134, R324). -/
def throughLeaf (s : State) (w : Who) (k : AKind) (e : DWord) (va : Nat) : Tr :=
  if (k.reads && !pteR e) || (k.writes && !pteW e) then .addr infoPERM
  else
    let t := leafTarget e va
    match pteTgt e with
    | 0 =>
      if keyKind t == 1 && lentFrom s w (keyCl t) (keyOff t) then .addr infoPERM else .ok ⟨pairKey s t, none⟩
    | 1 => if isMem w.core then .ok ⟨cxlKey t, if pteE e then some (pteKey e) else none⟩ else .extern
    | _ => if isMem w.core then hostTarget s w k t else .extern

/-- What the issue slot that an accessor is has been told of its pages. -/
def xlOf (s : State) (w : Who) : Xlat :=
  let c := getCore s w.core
  if w.hv then c.harvest.xl else c.owner.xl

/-- The leaf that the L1 TLB gives for an address, or what a walk has told of its page. -/
inductive PageTr where
  | leaf (e : DWord)
  | bad (info : Nat)
  | miss
  deriving DecidableEq, Repr

/-- The translation of an address from 0x0200_0000 up: what came for the asker, the L1 TLB, the fault a walk has
reported (R147, R320). -/
def pageX (x : Xlat) (s : State) (w : Who) (a : Nat) : PageTr :=
  match (tlbFind x.ents w.proc a).or (tlbFind (getCore s w.core).tlb w.proc a) with
  | some t => .leaf t.leaf
  | none =>
    match x.bad.find? (fun e => e.1 == w.proc && e.2.1 == a / 4096) with
    | some e => .bad e.2.2
    | none => .miss

/-- Where the byte at an address leads for a core access or an engine's beat, x what its asker has been told (R133,
R134, R320). -/
def resolveX (x : Xlat) (s : State) (w : Who) (k : AKind) (a : Nat) : Tr :=
  if a < 0x2000000 then aperture s w k a
  else if a ≥ 2 ^ 52 then .addr infoUNMAP
  else
    match pageX x s w a with
    | .leaf e => throughLeaf s w k e a
    | .bad info => .addr info
    | .miss => .miss (a / 4096)

/-- Where the byte at an address leads for a core access. -/
def resolve (s : State) (w : Who) (k : AKind) (a : Nat) : Tr := resolveX (xlOf s w) s w k a

/-- The L2 entry that answers a miss of a core (R320). -/
def l2Find (s : State) (w : Word) (proc page : Nat) : Option TlbEnt :=
  if isMem w then none else tlbFind (getCl s (clIdx w)).l2 proc (page * 4096)

/-- A miss joins the queue of its die: 256 of those that no L2 answers (R321). -/
def askPage (s : State) (m : Miss) : State :=
  let here := s.misses.filter (fun n => dieOf n.core == dieOf m.core && (l2Find s n.core n.proc n.page).isNone)
  if s.misses.contains m then s
  else if (l2Find s m.core m.proc m.page).isSome || decide (here.length < 256) then { s with misses := s.misses ++ [m] }
  else s

/-- log2 of the page that an address from 0x0200_0000 up is translated in: the leaf's, or the ATC's where that is
smaller (R325). -/
def pageLog (s : State) (w : Who) (a : Nat) : Option Nat :=
  match pageX (xlOf s w) s w a with
  | .leaf e =>
    let n := sizeLog (pteSize e)
    if isMem w.core && pteTgt e == 2 then
      let pasid := ((procById s w.proc).map Proc.pasid).getD 0
      some ((atcFind (getCore s w.core).atc pasid (leafTarget e a)).elim n (fun t => min n t.log))
    else some n
  | _ => none

/-- The least recently used order of the ATC: an access through a host leaf makes its entry the newest (R325). -/
def touchAtc (x : Xlat) (s : State) (w : Who) (a : Nat) : State :=
  if isMem w.core && decide (0x2000000 ≤ a) then
    match pageX x s w a with
    | .leaf e =>
      let pasid := ((procById s w.proc).map Proc.pasid).getD 0
      if pteTgt e = 2 then
        match atcFind (getCore s w.core).atc pasid (leafTarget e a) with
        | some t => modCore s w.core (fun c => { c with atc := t :: c.atc.filter (fun f => f != t) })
        | none => s
      else s
    | _ => s
  else s

/-! ### Bytes of a place (R329) -/

/-- The 64-byte line of a place, decrypted. -/
def lineOf (s : State) (key slot : Nat) : List Byte :=
  let l := key / 64 * 64
  match s.keys.find? (fun e => e.1 == slot) with
  | some (_, k1, k2) => xtsDec k1 k2 (l % spaceSize / 64) (memReadN s.mem l 64)
  | none => memReadN s.mem l 64

/-- Reads n bytes of a place that lie in one line. -/
def readPlace (s : State) (p : Place) (n : Nat) : List Byte :=
  match p.enc with
  | none => memReadN s.mem p.key n
  | some slot => ((lineOf s p.key slot).drop (p.key % 64)).take n

/-- Writes bytes of a place that lie in one line; an encrypted line is read, changed and written (R329). -/
def writePlace (s : State) (p : Place) (bs : List Byte) : State :=
  match p.enc with
  | none => { s with mem := memWriteN s.mem p.key bs }
  | some slot =>
    let l := p.key / 64 * 64
    let o := p.key % 64
    let old := lineOf s p.key slot
    let new := old.take o ++ bs ++ old.drop (o + bs.length)
    match s.keys.find? (fun e => e.1 == slot) with
    | some (_, k1, k2) => { s with mem := memWriteN s.mem l (xtsEnc k1 k2 (l % spaceSize / 64) new) }
    | none => { s with mem := memWriteN s.mem l new }

/-! ### The range-lock table (R140, R141) -/

/-- The entry locks that kind of access. -/
def RltEnt.locks (e : RltEnt) (k : AKind) : Bool := (k.reads && e.lockR) || (k.writes && e.lockW)
/-- The entry covers the line of a key. -/
def RltEnt.covers (e : RltEnt) (key : Nat) : Bool := e.spans.any (fun p => decide (p.1 ≤ key / 64) && decide (key / 64 ≤ p.2))

/-- The entry, if any, that locks an access of n bytes at a key (one line): where several do, the one registered first,
whose index INFO then holds (DESIGN CHOICE, log 59). -/
def rltLock (s : State) (k : AKind) (key : Nat) : Option RltEnt :=
  if isChip key then (getCl s (keyCl key)).rlt.find? (fun e => e.covers key && e.locks k) else none

/-- Two lists of line spans share a line. -/
def spansMeet (a b : List (Nat × Nat)) : Bool := a.any (fun p => b.any (fun q => decide (p.1 ≤ q.2) && decide (q.1 ≤ p.2)))

/-- The index a new entry takes: the lowest free one (DESIGN CHOICE, log 59). -/
def rltFree (l : List RltEnt) : Nat :=
  match (List.range 64).find? (fun i => !l.any (fun e => e.idx == i)) with
  | some i => i
  | none => 64

/-- A range to register in the RLT of a cluster: line spans of one memory, and its locks (R140). -/
structure Reg where
  cl : Nat
  mem : Nat
  spans : List (Nat × Nat)
  lockR : Bool
  lockW : Bool
  deriving DecidableEq, Repr

/-- Memories whose ranges take an entry: local memories and scratchpads of this package (R140). -/
def rltMem (s : State) (key : Nat) : Bool := isChip key && decide (keyKind key ≤ 1) && keyPkg key == ownPkg s

/-- Adds n bytes at a key to the ranges of a request: one entry for each memory (R140, R169). -/
def regAdd (key n : Nat) (lockR lockW : Bool) : List Reg → List Reg
  | [] => [⟨keyCl key, keyMem key, [(key / 64, (key + n - 1) / 64)], lockR, lockW⟩]
  | r :: rs =>
    if r.mem = keyMem key then { r with spans := r.spans ++ [(key / 64, (key + n - 1) / 64)] } :: rs
    else r :: regAdd key n lockR lockW rs

/-- The ranges of a request from its pieces (key, length). -/
def regsOf (s : State) (ps : List (Nat × Nat)) (lockR lockW : Bool) : List Reg :=
  ps.foldl (fun rs p => if rltMem s p.1 then regAdd p.1 p.2 lockR lockW rs else rs) []

/-- There is room for the ranges in every table they go to (R141, R169). -/
def rltRoom (s : State) (rs : List Reg) : Bool :=
  rs.all (fun r => decide ((getCl s r.cl).rlt.length + (rs.filter (fun q => q.cl == r.cl)).length ≤ 64))

/-- Registers the ranges, in order; answers the entries' clusters and indexes. -/
def rltAdd : List Reg → State → State × List (Nat × Nat)
  | [], s => (s, [])
  | r :: rs, s =>
    let c := getCl s r.cl
    let i := rltFree c.rlt
    let e : RltEnt := { idx := i, spans := r.spans, lockR := r.lockR, lockW := r.lockW, order := c.nextOrder }
    let t := rltAdd rs (setCl s { c with rlt := c.rlt ++ [e], nextOrder := c.nextOrder + 1 })
    (t.1, (r.cl, i) :: t.2)

/-- Frees entries. -/
def rltDrop (s : State) (es : List (Nat × Nat)) : State :=
  es.foldl (fun s e => modCl s e.1 (fun c => { c with rlt := c.rlt.filter (fun t => t.idx != e.2) })) s

/-- A number for a job's place in its unit's queue (R142). -/
def newOrder (s : State) (cl : Nat) : Nat × State :=
  let c := getCl s cl
  (c.nextOrder, setCl s { c with nextOrder := c.nextOrder + 1 })

/-- An entry locks reads of one of the ranges: a registration over them waits (R141). -/
def rltReadLocked (s : State) (rs : List Reg) : Bool :=
  rs.any (fun r => (getCl s r.cl).rlt.any (fun e => e.lockR && spansMeet e.spans r.spans))

/-! ### Ranges that an engine registers (R162, R169, R224) -/

/-- The pieces (key, length) of n bytes from a up, by 4 KiB pages, those that do not translate left out; f
bounds the number of pages. -/
def rangePieces (s : State) (w : Who) (k : AKind) : Nat → Nat → Nat → List (Nat × Nat)
  | 0, _, _ => []
  | f + 1, a, n =>
    let len := min n (4096 - a % 4096)
    let rest := if n ≤ len then [] else rangePieces s w k f (a + len) (n - len)
    match resolve s w k a with
    | .ok p => (p.key, len) :: rest
    | _ => rest

/-- The first page of n bytes from a up whose translation is not in the L1 TLB (R169). -/
def rangeMiss (s : State) (w : Who) (k : AKind) : Nat → Nat → Nat → Option Nat
  | 0, _, _ => none
  | f + 1, a, n =>
    let len := min n (4096 - a % 4096)
    match resolve s w k a with
    | .miss page => some page
    | _ => if n ≤ len then none else rangeMiss s w k f (a + len) (n - len)

/-- The lowest address of n bytes from a up that does not translate, with what it meets. -/
def rangeBad (s : State) (w : Who) (k : AKind) : Nat → Nat → Nat → Option (Nat × Tr)
  | 0, _, _ => none
  | f + 1, a, n =>
    let len := min n (4096 - a % 4096)
    match resolve s w k a with
    | .ok _ => if n ≤ len then none else rangeBad s w k f (a + len) (n - len)
    | t => some (a, t)

/-- The places of n bytes at a for an engine's beat, by lines: the first that faults ends it (R170). -/
def beatPlaces (x : Xlat) (s : State) (w : Who) (k : AKind) : Nat → Nat → Nat → Except (Nat × Tr) (List (Place × Nat))
  | 0, _, _ => .ok []
  | f + 1, a, n =>
    if n = 0 then .ok []
    else
      let len := min n (64 - a % 64)
      match resolveX x s w k a with
      | .ok p => (beatPlaces x s w k f (a + len) (n - len)).map (fun r => (p, len) :: r)
      | t => .error (a, t)

/-! ### One core access -/

/-- What a core access of up to 64 bytes meets (R147). -/
inductive Plan where
  | ok (a : Place) (n : Nat) (b : Option Place)
  | trap (cause info faddr : Nat)
  | miss (page : Nat)
  | ext (r : ExtReq) (faddr : Nat)
  deriving DecidableEq, Repr

/-- Checks the line of a key against the RLT of the issuing core's own cluster (R141). -/
def rlkCheck (s : State) (w : Who) (k : AKind) (key a : Nat) : Option Plan :=
  if isChip key && keyCl key == clIdx w.core then
    match rltLock s k key with
    | some e => some (.trap 6 (e.idx <<< 9 ||| (if k.writes then 2 ^ 15 else 0) ||| (if e.lockR then 2 ^ 16 else 0)) a)
    | none => none
  else none

/-- The plan of an access of n bytes at a (R147, steps 6 to 8). An access that crosses a 64-byte line is
looked up in both lines; no range of R133 and no page ends inside a line. A CM access that runs past 2^32 - 1 goes on
at 2^32 (DESIGN CHOICE, log 61). -/
def planAccess (s : State) (w : Who) (k : AKind) (a n : Nat) : Plan :=
  let cut := (a + n - 1) / 64 * 64
  if cut ≤ a then
    match resolve s w k a with
    | .ok p =>
      match rlkCheck s w k p.key a with
      | some t => t
      | none => .ok p n none
    | .miss page => .miss page
    | .ext r => .ext r a
    | .addr info => .trap 3 info a
    | .extern => .trap 4 0 a
  else
    match resolve s w k a, resolve s w k cut with
    | .addr info, _ => .trap 3 info a
    | .miss page, _ => .miss page
    | .ext r, _ => .ext r a
    | _, .addr info => .trap 3 info cut
    | _, .miss page => .miss page
    | _, .ext r => .ext r cut
    | .extern, _ => .trap 4 0 a
    | _, .extern => .trap 4 0 cut
    | .ok p, .ok q =>
      match rlkCheck s w k p.key a, rlkCheck s w k q.key a with
      | some t, _ => t
      | _, some t => t
      | none, none => .ok p (cut - a) (some q)

end Sys2Proof.Machine
end

