-- ==== Sys2Proof/Machine/Ops.lean ====
section
/-! DEFINITION. The shared operations of every instruction: fetching a bundle, stalls, the loop end test,
taking a trap and returning from one, issuing a control word, and issuing an arithmetic word. -/

namespace Sys2Proof.Machine

/-- What an instruction's meaning answers. -/
abbrev Out := Host.Outcome State Fault Refusal

/-- The code the model gives the outside waits, which R28 leaves out of its table. -/
def outside : Nat := 100

/-- The control, or the arithmetic, stream of the current slot stalls (R28). -/
def stallC (s : State) (code : Nat) : Out := .next (s.modS (fun x => { x with waitC := some code }))
def stallA (s : State) (code : Nat) : Out := .next (s.modS (fun x => { x with waitA := some code }))

/-! ### Fetch (R8, R9, R192) -/

/-- The end of a core's instruction store (R8). -/
def pcLimit (w : Word) : Nat := if isMem w then 0x20000 else 0x40000

/-- The 64-byte line of the core's instruction store. -/
def storeLine (s : State) (line : Nat) : Row := rowOfBytes (memReadN s.mem (storeKey (clIdx s.core.id) line) 64)

/-- The line a slot fetches from: a line it holds prefetched, else the store (R160, R192). -/
def slotLine (s : State) (line : Nat) : Row :=
  match s.core.slot.fetched.find? (fun e => e.1 == line) with
  | some e => e.2
  | none => storeLine s line

/-- The bundle at a PC: word0 and word1; none beyond the store (R8). -/
def bundleAt (s : State) (pc : Word) : Option (Word × Word) :=
  if pcLimit s.core.id ≤ pc.toNat then none
  else
    let r := slotLine s (pc.toNat / 64 * 64)
    let i := pc.toNat % 64 / 4
    some (lane r i, lane r (i + 1))

/-! ### The loop stack (R122-R125) -/

/-- The number of entries of the loop stack in a header row (R122). -/
def loopDepth (h : Row) : Nat := if lane h 10 = 0 then 0 else if lane h 13 = 0 then 1 else 2
/-- Lanes of entry i: CNT at 8 + 3i, BEG, END. -/
def loopSet (h : Row) (i : Nat) (cnt beg fin : Word) : Row :=
  setLane (setLane (setLane h (8 + 3 * i) cnt) (9 + 3 * i) beg) (10 + 3 * i) fin
/-- Discards the innermost entry (R124, R125). -/
def loopPopTop (h : Row) : Row :=
  match loopDepth h with
  | 0 => h
  | d + 1 => loopSet h d 0 0 0

/-- The end test at PC p with n entries to look at: the new header and the next PC (R125). A BEG lane that software
has written with bits 2:0 not zero is taken as it stands: R118 asks `jr` and `tokj` alone for the alignment
(DESIGN CHOICE, log 56). -/
def endTestN (p : Word) : Nat → Row → Row × Word
  | 0, h => (h, p + 8)
  | d + 1, h =>
    if lane h (10 + 3 * d) = p then
      if lane h (8 + 3 * d) = 0 then endTestN p d (loopSet h d 0 0 0)
      else (setLane h (8 + 3 * d) (lane h (8 + 3 * d) - 1), lane h (9 + 3 * d))
    else (h, p + 8)
/-- The end test of R125, not applied while IT is set (R274). -/
def endTest (h : Row) (p : Word) : Row × Word :=
  if modeIT (modeOf h) then (h, p + 8) else endTestN p (loopDepth h) h

/-! ### Traps (R266-R278) -/

def mkTrap (cause info faddr : Nat) : Trap := { cause := cause, ari := false, info := info, faddr := faddr, fword := 0 }

/-- Cause codes (R271). -/
def cILL : Nat := 0x01
def cWIN : Nat := 0x02
def cADDR : Nat := 0x03
def cXEXT : Nat := 0x04
def cAL : Nat := 0x05
def cRLK : Nat := 0x06
def cDZ : Nat := 0x07
def cFP : Nat := 0x08
def cOVF : Nat := 0x09
def cSTRDL : Nat := 0x0A
def cLOOPOV : Nat := 0x0B
def cGANG : Nat := 0x0C
def cGANGTO : Nat := 0x0D
def cCPF : Nat := 0x0E
def cTRAP : Nat := 0x0F
def cBRK : Nat := 0x10
def cPRIV : Nat := 0x11
def cDCTF : Nat := 0x20
def cMCHK : Nat := 0x21

/-- Lane 4 of the header for a trap (R273). -/
def Trap.lane4 (t : Trap) : Word := BitVec.ofNat 32 (t.cause ||| (if t.ari then 256 else 0) ||| t.info)

/-- QSTATE of a slot, SKIP clear (R264). -/
def qstate (x : Slot) : Word :=
  BitVec.ofNat 32 ((x.queues[0]).length ||| (x.queues[1]).length <<< 5 ||| (x.queues[2]).length <<< 10 |||
    (x.queues[3]).length <<< 15 ||| x.toks.length <<< 20)

/-- The PC of the arithmetic stream's current bundle (R266). -/
def epcAOf (x : Slot) : Word :=
  match x.backlog with
  | [] => x.pc
  | e :: _ => e.pc

/-- A control word that waits only for its own bundle's arithmetic word counts as not issued at a trap
(R128, R210; log 31): its bundle leaves the backlog. -/
def unissue (x : Slot) : Slot := if x.ctlIssued then { x with backlog := x.backlog.dropLast, ctlIssued := false, eretRow := none } else x

/-- Both streams of a slot move to a PC, with an empty backlog and no wait. -/
def Slot.goto (x : Slot) (pc : Word) : Slot :=
  { x with pc := pc, backlog := [], waitC := none, waitA := none, rep := 0, xl := Xlat.none, revoked := false, retry := false, ctlIssued := false, eretRow := none, winNext := none, trapWait := none,
           skipC := false, skipA := false }

/-- The trap escalates: the kiln stops the kernel (R276), with the fault record of R277. -/
def escalate (s : State) (t : Trap) : State :=
  let c := s.core
  let x := c.slot
  let h := c.hdr
  let epcC := x.pc
  let epcA := epcAOf x
  let flags := (if modeIT (modeOf h) then 1 else 0) + (if lane h 0 = 0 then 2 else 0) + (if c.hvNow then 8 else 0)
  let r : StopReq := { kern := x.kern, flags := flags, core := c.id, ctxid := ctxOf h, proc := x.proc,
                       pc := if t.ari then epcA else epcC, lane4 := t.lane4, faddr := t.faddr, fword := t.fword, stamp := c.cycle,
                       epcA := epcA, status := 2, faultCode := 1 }
  { s with stops := s.stops ++ [r], core := { c with slot := { x with halted := true, trapWait := none, waitC := none, waitA := none } } }

/-- The header row as trap entry writes it (R273). -/
def trapHeader (x : Slot) (h : Row) (t : Trap) : Row :=
  let h := setLane h 2 x.pc
  let h := setLane h 3 (epcAOf x)
  let h := setLane h 4 t.lane4
  let h := setLane h 5 (BitVec.ofNat 32 t.faddr)
  let h := setLane h 6 (BitVec.ofNat 32 (t.faddr >>> 32))
  let h := setLane h 7 t.fword
  let h := setLane h 14 (qstate x)
  setIT h true

/-- Trap entry once no late write is pending to the header row (R273). A streamed form that the other stream's trap finds
between two repetitions begins again at repetition 0 (DESIGN CHOICE, log 76). What an `mgang` or a `send` at the PC has
begun waits for it to execute again (R204, R225; DEDUCED, log 76). The context whose window is current answers:
for a STRDL raised while a `setwin` waits for its own bundle's arithmetic word, that is the old window
(DESIGN CHOICE, log 54). -/
def enterTrap (s : State) (t : Trap) : State :=
  let s := s.modS unissue
  let c := s.core
  let x := c.slot
  let h := c.hdr
  if modeIT (modeOf h) || lane h 0 == 0 then escalate s t
  else
    let a : Aside := { backlog := x.backlog, wb := x.wb, wl := x.wl, epcC := x.pc, epcA := epcAOf x, winNext := x.winNext,
                        skipC := x.skipC, skipA := x.skipA, retry := x.retry, gang := x.gang, sendWait := x.sendWait }
    let c := c.setHdr (trapHeader x h t)
    { s with core := { c with slot := { x.goto (lane h 0 &&& ~~~(7 : Word)) with aside := some a, gang := .idle, sendWait := none } } }

/-- Taking a trap in the current slot: at once, or after the late writes pending to the header row (R257,
R273). The EPCs are those of the slot's streams as they stand. -/
def takeTrap (s : State) (t : Trap) : State :=
  if s.core.pendingRow s.core.slot.wb then s.modS (fun x => { x with trapWait := some t, waitC := none, waitA := none })
  else enterTrap s t

/-- A window change takes effect once no bundle before it is outstanding (R259). -/
def applyWin (x : Slot) : Slot :=
  match x.backlog, x.winNext with
  | [], some (wb, wl) => { x with wb := wb, wl := wl, winNext := none }
  | _, _ => x

/-- The bundles from a PC up, n of them, as a backlog read from the store (R275). -/
def storeBacklog (s : State) (pc : Word) : Nat → List BEnt
  | 0 => []
  | n + 1 =>
    match bundleAt s pc with
    | some (w0, w1) => { pc := pc, word := w1, lone := uF w0, old := [], skip := false } :: storeBacklog s (pc + 8) n
    | none => []

/-- Marks the first word of a backlog as skipped. -/
def skipFirst : List BEnt → List BEnt
  | [] => []
  | e :: r => { e with skip := true } :: r

/-- The backlog begins with a bundle that has an arithmetic word: empty positions take no cycle (R10). -/
def dropLone (b : List BEnt) : List BEnt := b.dropWhile (fun e => e.lone)

/-- Whether the window and the EPC lanes are as trap entry left them (R275). -/
def keepOf (x : Slot) (h : Row) : Option Aside :=
  match x.aside with
  | some a => if a.wb = x.wb ∧ a.wl = x.wl ∧ a.epcC = lane h 2 ∧ a.epcA = lane h 3 then some a else none
  | none => none

/-- The `cpwait` or fence whose CPF trap a header row records executes again at the PC (R173). -/
def runsAgain (s : State) (h : Row) (pc : Word) : Bool :=
  lane h 4 &&& 0x1FF == BitVec.ofNat 32 cCPF && !(lane h 14).getLsbD 31 &&
  (match bundleAt s pc with
   | some (w0, _) => w0 == lane h 7
   | none => false)

/-- What stood begun at the word that `eret` returns to: nothing where it returns to another one, or to another window
(R204, R225, R275). -/
def begunAt (x : Slot) (pc : Word) : GangSt × Option SendWait :=
  match x.aside with
  | some a => if a.epcC = pc ∧ a.wb = x.wb ∧ a.wl = x.wl then (a.gang, a.sendWait) else (.idle, none)
  | none => (.idle, none)

/-- The return of `eret`, once its wait is over: the streams resume at the EPCs of the header row as it read them
(R11, R128, R275). A SKIP of an earlier `eret` whose word has not been passed yet goes on with them. -/
def returnTrap (s : State) : State :=
  let c := s.core
  let x := c.slot
  let h := c.hdr
  let g := x.eretRow.getD h
  let epcC := lane g 2 &&& ~~~(7 : Word)
  let epcA := lane g 3 &&& ~~~(7 : Word)
  let skip := (lane g 14).getLsbD 31
  let ari := (lane g 4).getLsbD 8
  let h' := setIT (setLane h 14 (lane h 14 &&& 0x7FFFFFFF)) false
  let n := (epcC - epcA).toNat / 8
  let keep := keepOf x g
  let old := match keep with
    | some a => a.backlog
    | none => if n ≤ 32 then storeBacklog s epcA n else []
  let here := epcA == epcC && old.isEmpty
  let b := dropLone (if skip && ari then skipFirst old else old)
  let x' := { x.goto epcC with backlog := b, winNext := keep.bind (fun a => a.winNext), aside := none,
                                   skipC := (skip && !ari) || keep.any (fun a => a.skipC),
                                   skipA := (skip && ari && here) || keep.any (fun a => a.skipA),
                                   retry := runsAgain s g epcC || keep.any (fun a => a.retry),
                                   gang := (begunAt x epcC).1, sendWait := (begunAt x epcC).2 }
  let left := if (begunAt x epcC).1 = .idle then x.gangRegs else []
  { rltDrop s left with core := { (c.setHdr h') with slot := applyWin x' } }

/-! ### Issuing a control word -/

/-- How a control instruction ends. -/
inductive CRes where
  /-- it stalls, with its wait code; the state may hold what the wait has begun -/
  | wait (code : Nat) (s : State)
  /-- it traps -/
  | trap (s : State) (t : Trap)
  /-- it has its effect, delivers a result and may transfer control -/
  | go (s : State) (v : Row) (target : Option Word)
  /-- as go, and the effect leaves the core (R363) -/
  | out (s : State) (v : Row)

/-- What the shared prologue and epilogue need to know of a control instruction: its sources in field
order, its destination, whether that is a late write, how many lanes the result fills, whether the latch
receives it, and which of the header row, cx.fpm and cx.mstat it reaches beyond its operands. -/
structure CSpec where
  srcs : List Opnd := []
  dst : Option Opnd := none
  late : Bool := false
  lanes : Nat := 1
  latch : Bool := false
  hdrW : Bool := false
  modeW : Bool := false
  fpm : Bool := false
  mstat : Bool := false
  /-- the trap that the instruction meets before WIN: GANG of a harvest slot or a pair, PRIV (R224, R239, R261, R307) -/
  bar : Option Trap := none
  /-- `ifence`: what has been fetched beyond the word is discarded (R160) -/
  refetch : Bool := false
  /-- the word transfers control or traps, so that no end test follows it (R117, R125) -/
  moves : Bool := false
  deriving DecidableEq, Repr

/-- The footprint of a control word: it reads the header (IT, the loop stack), and writes it where the end
test or the instruction does (R11, R122). A `loop`, `loopi` or `loop.pop` counts as writing it whether or not its count and the
stack leave something to write (DESIGN CHOICE, log 54). -/
def cFoot (x : Slot) (h : Row) (p : CSpec) : CFoot :=
  let d := match p.dst with
    | some o => locsOf x [o]
    | none => []
  let test := !p.moves && (endTest h x.pc).1 != h
  { rd := .reg x.wb :: locsOf x p.srcs
    wr := d ++ (if test || p.hdrW || p.modeW then [.reg x.wb] else [])
    wrMode := d ++ (if p.modeW then [.reg x.wb] else [])
    fpm := p.fpm, mstat := p.mstat }

/-- The control stream may not begin its next bundle yet: the run-ahead limit, or a window change that waits for
its own bundle's arithmetic word (R13, R259). -/
def gateC (x : Slot) : Bool := 32 ≤ x.backlog.length || x.winNext.isSome

/-- The wait of a control word before it can issue, 0 for none: run-ahead and window changes (R13, R259),
bundle order (R11), pending late writes (R20), queue entries (R15). Where a word waits for several things at once the
manual gives no order of the codes: here a pending header row comes first, then 1, 5, other late writes, 3 and 2
(DESIGN CHOICE, log 54). -/
def cWait (c : Core) (p : CSpec) : Nat :=
  let x := c.slot
  let f := cFoot x c.hdr p
  let lateWr := if p.late then [] else f.wr
  if c.pendingRow x.wb then outside
  else if gateC x then 1
  else if arithBusy x f then 5
  else if (f.rd ++ lateWr).any (pendingLoc c) then outside
  else
    match firstWait (readAll (waitSrcC c) p.srcs []) with
    | 0 => if fullQ x p.dst then 2 else 0
    | n => n

/-- The latch of the control stream after a result of n lanes (R21, R23). -/
def latchC (x : Slot) (n : Nat) (v : Row) : Slot := { x with latC := mergeLanes n v x.latC }

/-- Delivers a control result (R21, R23). A destination `lat` writes the latch and nothing else. -/
def deliverC (c : Core) (p : CSpec) (v : Row) : Core :=
  let c := match p.dst with
    | some o => if p.late then c else writeDst c o 0 p.lanes v
    | none => c
  let toLatch := p.latch || p.dst == some .lat
  if toLatch then { c with slot := latchC c.slot p.lanes v } else c

/-- The rows that word0 of the bundle has changed and that its word1 still reads, before and after it (R11, R131). -/
def oldRows (c0 c1 : Core) (p : CSpec) : List (Loc × Row × Row) :=
  let x := c0.slot
  let rows := Loc.reg x.wb :: (match p.dst with
    | some o => locsOf x [o]
    | none => [])
  let now (c : Core) : Loc → Row
    | .reg n => c.row n
    | .ofile n => c.slot.ofile[n]?.getD 0
    | .fpm => laneRow c.slot.fpm
  ((rows ++ [Loc.fpm]).filter (fun l => now c0 l != now c1 l)).map (fun l => (l, now c0 l, now c1 l))

/-- The arithmetic position of the bundle at the PC joins the backlog (R10, R13). -/
def pushBundle (s : State) (x : Slot) (old : List (Loc × Row × Row)) : Slot :=
  match bundleAt s x.pc with
  | some (w0, w1) =>
    if uF w0 && x.backlog.isEmpty then { x with skipA := false }
    else { x with backlog := x.backlog ++ [{ pc := x.pc, word := w1, lone := uF w0, old := old, skip := x.skipA }], skipA := false }
  | none => x

/-- The line of the PC, kept as fetched until an `ifence` or another line replaces it (R160, R192). -/
def keepLine (s : State) (x : Slot) : Slot :=
  { x with fetched := [(x.pc.toNat / 64 * 64, slotLine s (x.pc.toNat / 64 * 64))] }

/-- Issues the control word at the PC: its sources are popped from s1 (the state its effect left), its
result is delivered, its bundle joins the backlog, and the stream moves on (R13, R117, R125). s0 is the
state in which it was fetched. -/
def issueC (s0 s1 : State) (p : CSpec) (v : Row) (target : Option Word) : State :=
  let c := deliverC (popAll s1.core p.srcs) p v
  let x := c.slot
  let t := endTest c.hdr x.pc
  let c := match target with
    | some _ => c
    | none => c.setHdr t.1
  let x := pushBundle s0 { c.slot with waitC := none, waitA := none, skipC := false, xl := Xlat.none, revoked := false, retry := false } (oldRows s0.core c p)
  let x := if p.refetch then { x with fetched := [] } else keepLine s0 x
  let pc := match target with
    | some n => n
    | none => t.2
  { s1 with core := { c with slot := applyWin { x with pc := pc } } }

/-- The faulting word of a control instruction: its word0 (R262). -/
def word0Of (i : Instr) : Word :=
  match encode i with
  | some (w0, _) => w0
  | none => 0
def word1Of (i : Instr) : Word :=
  match encode i with
  | some (_, w1) => w1
  | none => 0

/-! ### Checkpoints of a paired core (R363) -/

/-- A core with a new checkpoint: its architectural state at this point, its owner slot being the given one (R363). -/
def Core.mark (c : Core) (x : Slot) : Core :=
  { c with ckpt := some { regs := c.regs, slot := x, shadow := c.shadow, mstat := c.mstat, scla := c.scla, sclb := c.sclb, chans := c.chans,
                          nextId := c.nextId, tries := 0, bundles := 0, undo := [], rows := [], rolling := false } }

/-- Forms a checkpoint of the current core (R363). -/
def checkpoint (s : State) : State := s.modC (fun c => c.mark c.slot)

/-- After an outbound effect a paired core forms a checkpoint (R363). -/
def outbound (s : State) : State := if s.core.slot.paired then checkpoint s else s

/-- A paired core counts a bundle of which the control word has issued (R363). -/
def countBundle (s : State) : State :=
  if s.core.slot.paired then
    match s.core.ckpt with
    | some k => s.modC (fun c => { c with ckpt := some { k with bundles := k.bundles + 1 } })
    | none => checkpoint s
  else s

/-- The bundles that a core has completed since its checkpoint (R363). -/
def completedSince (x : Slot) (k : Ckpt) : Nat := k.bundles + k.slot.backlog.length - x.backlog.length
/-- A checkpoint is due: 4096 bundles have completed since the last one, or an undo log is full (R363). -/
def ckptDue (x : Slot) (k : Ckpt) : Bool :=
  decide (4096 ≤ completedSince x k) || decide (512 ≤ k.rows.length) || decide (256 ≤ ((k.undo.map (fun e => e.1 / 64)).eraseDups).length)

/-- What a control word meets at its trap point before its effect: its bar, then WIN for its operands (R18, R224, R261). -/
def meetsAt (x : Slot) (p : CSpec) : Option Trap :=
  match p.bar with
  | some t => some t
  | none => if (p.srcs ++ p.dst.toList).any (beyond x) then some (mkTrap cWIN 0 0) else none

/-- PRIV of an instruction that needs PRV = 1 (R132, R256). -/
def privBar (s : State) : Option Trap := if s.core.slot.prv then none else some (mkTrap cPRIV 0 0)

/-- The common course of a control instruction: the waits; at its trap point, which is its issue, its bar and WIN for its
operands (R18, R266); its effect f on the rows its sources give; and then a stall, a trap, or its issue. -/
def control (i : Instr) (p : CSpec) (f : List Row → State → CRes) (s : State) : Out :=
  match cWait s.core p with
  | 0 =>
    match meetsAt s.core.slot p with
    | some t => .next (takeTrap s { t with fword := word0Of i })
    | none =>
      match f (readAll (readC s.core) p.srcs []) s with
      | .wait code s' => stallC s' code
      | .trap s' t => .next (takeTrap s' { t with fword := word0Of i })
      | .go s' v target => .next (countBundle (issueC s s' p v target))
      | .out s' v => .next (outbound (issueC s s' p v none))
  | n => stallC s n

/-- Element i of the rows a meaning is given. -/
def nth (rs : List Row) (i : Nat) : Row := rs.getD i 0

/-- A control instruction whose effect waits for its own bundle's arithmetic word as well (R128, R210): the
word is issued first, unless it is an empty or idle one, and fin acts once it has completed and no late write is pending
to the header row (R257). p says what the word reaches. -/
def afterBundle (p : CSpec) (fin : State → Out) (s : State) : Out :=
  let x := s.core.slot
  if x.ctlIssued then
    if !x.backlog.isEmpty then stallC s 1
    else if s.core.pendingRow x.wb then stallC s outside
    else fin s
  else
    match cWait s.core p with
    | 0 =>
      let y := keepLine s (pushBundle s { x with waitA := none } [])
      match y.backlog with
      | [] => fin s
      | e :: r =>
        if r.isEmpty && e.word == 0 && !e.lone then fin s
        else .next (s.modS (fun _ => { y with ctlIssued := true, waitC := some 1 }))
    | n => stallC s n

/-! ### Issuing an arithmetic word -/

/-- How an arithmetic instruction ends. -/
inductive ARes where
  | wait (code : Nat)
  | trap (cause info faddr : Nat)
  /-- it has its effect and delivers a result of n lanes -/
  | go (s : State) (v : Row) (n : Nat)

/-- After the head of the backlog has completed: empty positions pass, and a window change waiting for its
bundle takes effect (R10, R259). -/
def retireA (x : Slot) : Slot :=
  let b := dropLone x.backlog.tail
  applyWin { x with backlog := b, rep := 0, waitA := none, waitC := none }

/-- How far window row D moves in repetition i (R26, R85). -/
def dstShift (a : AOps) (i : Nat) : Nat := if streamed a.srcs && !a.acc then i else 0

/-- Row D of this repetition of a streamed form lies beyond the limit (R27). -/
def farD (x : Slot) (a : AOps) : Bool :=
  match a.dst with
  | some (.w n) => streamed a.srcs && !a.acc && decide (x.wl ≤ n.val + x.rep)
  | _ => false

/-- A beat marked END is among those the repetition consumes (R26). -/
def endBeat (c : Core) (os : List Opnd) : Bool :=
  (readAll (fun o k => match o with
    | .c n => ((c.chans[n.val])[k]?.map Beat.last).getD false
    | _ => false) os []).any id

/-- The head of the backlog once a repetition has written a place: its word0's old value is gone (R26). -/
def forgetOld (x : Slot) (l : Option Loc) : Slot :=
  match x.backlog, l with
  | e :: r, some l => { x with backlog := { e with old := e.old.filter (fun p => p.1 != l) } :: r }
  | _, _ => x

/-- The place that repetition i writes. -/
def dstLoc (x : Slot) (a : AOps) (i : Nat) : Option Loc :=
  match a.dst with
  | some (.w n) => some (.reg (x.wb + n.val + dstShift a i))
  | some o => locOf x o
  | none => none

/-- The wait of an arithmetic word, 0 for none: pending late writes (R20), queue entries and beats (R15,
R26). Where it waits for several things at once, late writes come first, then code 2, then 3 (DESIGN CHOICE, log 54). -/
def aWait (c : Core) (i : Instr) (a : AOps) : Nat :=
  let x := c.slot
  if (locsOf x a.srcs ++ (dstLoc x a x.rep).toList).any (pendingLoc c) || (usesMode i && c.pendingRow x.wb) then outside
  else
    match firstWait (readAll (waitSrcA c) a.srcs []) with
    | 0 => if fullQ x a.dst then 3 else 0
    | n => n

/-- The row D as the instruction reads it (R85). -/
def readD (c : Core) (e : BEnt) (a : AOps) : Row :=
  match a.dst with
  | some o => readA c e (dstShift a c.slot.rep) o 0
  | none => 0

/-- Completes one repetition: pops, result, latch; the last one retires the bundle (R21, R26). -/
def commitA (s : State) (a : AOps) (v : Row) (n : Nat) : State :=
  let c0 := s.core
  let done := !streamed a.srcs || endBeat c0 a.srcs
  let c := popAll c0 a.srcs
  let c := match a.dst with
    | some o => writeDst c o (dstShift a c0.slot.rep) n v
    | none => c
  let x := match a.dst with
    | some _ => { c.slot with latA := mergeLanes n v c.slot.latA }
    | none => c.slot
  let x := if done then retireA x
    else { forgetOld x (dstLoc c0.slot a c0.slot.rep) with rep := x.rep + 1, waitA := none, waitC := none }
  { s with core := { c with slot := x } }

/-- A trap of the arithmetic stream in its bundle; the instruction starts again from its first repetition
(R27, R86). -/
def trapA (s : State) (word : Word) (cause info faddr : Nat) : Out :=
  .next (takeTrap (s.modS (fun x => { x with rep := 0 })) { cause := cause, ari := true, info := info, faddr := faddr, fword := word })

/-- The common course of an arithmetic instruction: WIN of a streamed form's next row before it takes a beat (R27),
the waits, WIN at its trap point (R18, R266), its result from D and the sources, and then a stall, a trap or its
completion. -/
def arith (i : Instr) (f : BEnt → Row → List Row → State → ARes) (s : State) : Out :=
  let c := s.core
  let x := c.slot
  match x.backlog, aOps i with
  | e :: _, some a =>
    if farD x a then trapA s (word1Of i) cWIN (1 <<< 19 ||| x.rep <<< 9) 0
    else
      match aWait c i a with
      | 0 =>
        if (a.srcs ++ a.dst.toList).any (beyond x) then trapA s (word1Of i) cWIN 0 0
        else
        match f e (readD c e a) (readAll (readA c e 0) a.srcs []) s with
        | .wait n => stallA s n
        | .trap cause info faddr => trapA s (word1Of i) cause info faddr
        | .go s' v n => .next (commitA s' a v n)
      | n => stallA s n
  | _, _ => stallA s 1

end Sys2Proof.Machine
end

