-- ==== Sys2Proof/Machine/Scalar.lean ====
section
/-! DEFINITION. The scalar and immediate instructions, lane extract, row move and lane insert (R88-R94), and
`anop`. -/

namespace Sys2Proof.Machine

/-- A scalar instruction: lane 0 of S1 and S2 to lane 0 of D (R23, R88). -/
def scalar (i : Instr) (f : Word → Word → Word) (s : State) : Out :=
  arith i (fun _ _ rs s => .go s (laneRow (f (lane (nth rs 0) 0) (lane (nth rs 1) 0))) 1) s

def flag (b : Bool) : Word := if b then 1 else 0

/-- One of the divisions: it traps DZ where MODE.DZ is set, with the repetition index (R89, R86). -/
def divide (i : Instr) (f : Word → Word → Word) (s : State) : Out :=
  arith i (fun e _ rs s =>
    let a := lane (nth rs 0) 0
    let b := lane (nth rs 1) 0
    if b == 0 && modeDZ (modeFor s.core e) then .trap cDZ (s.core.slot.rep <<< 9) 0
    else .go s (laneRow (f a b)) 1) s

/-- Signed quotient and remainder (R89). -/
def divS (a b : Word) : Word := if b = 0 then 0xFFFFFFFF else BitVec.ofInt 32 (Int.tdiv a.toInt b.toInt)
def remS (a b : Word) : Word := if b = 0 then a else BitVec.ofInt 32 (a.toInt - Int.tdiv a.toInt b.toInt * b.toInt)
/-- Unsigned quotient and remainder (R89). -/
def divU (a b : Word) : Word := if b = 0 then 0xFFFFFFFF else BitVec.ofNat 32 (a.toNat / b.toNat)
def remU (a b : Word) : Word := if b = 0 then a else BitVec.ofNat 32 (a.toNat % b.toNat)

/-- `anop` (R39). -/
def execAnop (s : State) : Out := arith .anop (fun _ _ _ s => .go s 0 0) s

def execAdd (d x y : Opnd) (s : State) : Out := scalar (.add d x y) (fun a b => a + b) s
def execSub (d x y : Opnd) (s : State) : Out := scalar (.sub d x y) (fun a b => a - b) s
def execMul (d x y : Opnd) (s : State) : Out := scalar (.mul d x y) (fun a b => a * b) s
def execMulh (d x y : Opnd) (s : State) : Out := scalar (.mulh d x y) (fun a b => BitVec.ofInt 32 (a.toInt * b.toInt / 2 ^ 32)) s
def execMulhn (d x y : Opnd) (s : State) : Out := scalar (.mulhn d x y) (fun a b => BitVec.ofNat 32 (a.toNat * b.toNat / 2 ^ 32)) s
def execDiv (d x y : Opnd) (s : State) : Out := divide (.div d x y) divS s
def execDivn (d x y : Opnd) (s : State) : Out := divide (.divn d x y) divU s
def execRem (d x y : Opnd) (s : State) : Out := divide (.rem d x y) remS s
def execRemn (d x y : Opnd) (s : State) : Out := divide (.remn d x y) remU s
def execAnd (d x y : Opnd) (s : State) : Out := scalar (.and d x y) (fun a b => a &&& b) s
def execOr (d x y : Opnd) (s : State) : Out := scalar (.or d x y) (fun a b => a ||| b) s
def execXor (d x y : Opnd) (s : State) : Out := scalar (.xor d x y) (fun a b => a ^^^ b) s
def execShl (d x y : Opnd) (s : State) : Out := scalar (.shl d x y) (fun a b => a <<< (b.toNat % 32)) s
def execShr (d x y : Opnd) (s : State) : Out := scalar (.shr d x y) (fun a b => a >>> (b.toNat % 32)) s
def execSra (d x y : Opnd) (s : State) : Out := scalar (.sra d x y) (fun a b => a.sshiftRight (b.toNat % 32)) s
def execMin (d x y : Opnd) (s : State) : Out := scalar (.min d x y) (fun a b => if a.toInt < b.toInt then a else b) s
def execMax (d x y : Opnd) (s : State) : Out := scalar (.max d x y) (fun a b => if a.toInt < b.toInt then b else a) s
def execMinn (d x y : Opnd) (s : State) : Out := scalar (.minn d x y) (fun a b => if a.toNat < b.toNat then a else b) s
def execMaxn (d x y : Opnd) (s : State) : Out := scalar (.maxn d x y) (fun a b => if a.toNat < b.toNat then b else a) s
def execSlt (d x y : Opnd) (s : State) : Out := scalar (.slt d x y) (fun a b => flag (decide (a.toInt < b.toInt))) s
def execSltn (d x y : Opnd) (s : State) : Out := scalar (.sltn d x y) (fun a b => flag (decide (a.toNat < b.toNat))) s
def execSeq (d x y : Opnd) (s : State) : Out := scalar (.seq d x y) (fun a b => flag (a == b)) s
/-- `sel` tests lane 0 of D (R90). -/
def execSel (d x y : Opnd) (s : State) : Out :=
  arith (.sel d x y) (fun _ old rs s => .go s (laneRow (if lane old 0 = 0 then lane (nth rs 1) 0 else lane (nth rs 0) 0)) 1) s
def execClz (d x : Opnd) (s : State) : Out := scalar (.clz d x) (fun a _ => BitVec.ofNat 32 (leadingZeros a)) s
def execPopc (d x : Opnd) (s : State) : Out := scalar (.popc d x) (fun a _ => BitVec.ofNat 32 (popcount a)) s

/-! ### Immediate forms (R91) -/

def execAddi (d x : Opnd) (k : BitVec 11) (s : State) : Out := scalar (.addi d x k) (fun a _ => a + k.signExtend 32) s
def execAndi (d x : Opnd) (k : BitVec 11) (s : State) : Out := scalar (.andi d x k) (fun a _ => a &&& k.signExtend 32) s
def execOri (d x : Opnd) (k : BitVec 11) (s : State) : Out := scalar (.ori d x k) (fun a _ => a ||| k.signExtend 32) s
def execXori (d x : Opnd) (k : BitVec 11) (s : State) : Out := scalar (.xori d x k) (fun a _ => a ^^^ k.signExtend 32) s
def execShli (d x : Opnd) (n : BitVec 5) (s : State) : Out := scalar (.shli d x n) (fun a _ => a <<< n.toNat) s
def execShri (d x : Opnd) (n : BitVec 5) (s : State) : Out := scalar (.shri d x n) (fun a _ => a >>> n.toNat) s
def execSrai (d x : Opnd) (n : BitVec 5) (s : State) : Out := scalar (.srai d x n) (fun a _ => a.sshiftRight n.toNat) s
def execSlti (d x : Opnd) (k : BitVec 11) (s : State) : Out :=
  scalar (.slti d x k) (fun a _ => flag (decide (a.toInt < (k.signExtend 32).toInt))) s

/-! ### Lanes and rows (R92-R94) -/

def execLane (d x : Opnd) (k : BitVec 7) (t : ETy) (s : State) : Out :=
  arith (.lane d x k t) (fun _ _ rs s => .go s (laneRow (ext32 t (elem (nth rs 0) t.width k.toNat))) 1) s
def execMv (d x : Opnd) (s : State) : Out := arith (.mv d x) (fun _ _ rs s => .go s (nth rs 0) 16) s
def execIns (d x : Opnd) (k : BitVec 7) (t : ETy) (s : State) : Out :=
  arith (.ins d x k t) (fun _ old rs s => .go s (setElem old t.width k.toNat (lane (nth rs 0) 0).toNat) 16) s

end Sys2Proof.Machine
end

