-- ==== Sys2Proof/Machine/Control.lean ====
section
/-! DEFINITION. Control flow, loops, tokens, traps and their return, control registers (R117-R132), and the
steps of the core that belong to them: a fetch, an illegal word, trap entry, the deadlock trap. -/

namespace Sys2Proof.Machine

/-- PC + 8 × the signed offset (R120). -/
def branchTo (pc : Word) (off : BitVec 15) : Word := pc + (off.signExtend 32 <<< 3)

def execCnop (s : State) : Out := control .cnop {} (fun _ s => .go s 0 none) s

/-- The condition of `bc` (R120). -/
def cndHolds (c : Cnd) (v : Int) : Bool :=
  match c with
  | .eq0 => decide (v = 0)
  | .ne0 => decide (v ≠ 0)
  | .lt0 => decide (v < 0)
  | .ge0 => decide (0 ≤ v)
  | .gt0 => decide (0 < v)
  | .le0 => decide (v ≤ 0)
  | .always => true

/-- The branch is taken on what its source holds now (R120). -/
def takes (s : State) (c : Cnd) (a : Opnd) : Bool := cndHolds c (lane (nth (readAll (readC s.core) [a] []) 0) 0).toInt

def execBc (c : Cnd) (a : Opnd) (off : BitVec 15) (s : State) : Out :=
  control (.bc c a off) { srcs := [a], moves := takes s c a } (fun rs s =>
    .go s 0 (if cndHolds c (lane (nth rs 0) 0).toInt then some (branchTo s.core.slot.pc off) else none)) s

def execCall (a : Opnd) (off : BitVec 15) (s : State) : Out :=
  control (.call a off) { dst := some a, moves := true } (fun _ s =>
    .go s (laneRow (s.core.slot.pc + 8)) (some (branchTo s.core.slot.pc off))) s

/-- `jr`: a misaligned target traps ADDR with the target as fault address (R118, R121). -/
def execJr (a b : Opnd) (s : State) : Out :=
  control (.jr a b) { srcs := [b], dst := some a, moves := true } (fun rs s =>
    let t := lane (nth rs 0) 0
    if t.toNat % 8 ≠ 0 then .trap s (mkTrap cADDR 0 t.toNat) else .go s (laneRow (s.core.slot.pc + 8)) (some t)) s

/-! ### Loops (R122-R125, R274) -/

/-- The push of `loop` and `loopi`: LOOPOV on a full stack or while IT is set, the body skipped for a count
of 0 (R123, R274). A `loop`, `loopi` or `loop.pop` that writes nothing (a count of 0, an empty stack) waits for the readers of
the header row as the others do (DESIGN CHOICE, log 54). -/
def loopPush (n : Word) (off : BitVec 15) (s : State) : CRes :=
  let h := s.core.hdr
  let p := s.core.slot.pc
  let e := branchTo p off
  if modeIT (modeOf h) || loopDepth h == 2 then .trap s (mkTrap cLOOPOV 0 0)
  else if n = 0 then .go s 0 (some (e + 8))
  else .go (s.modC (fun c => c.setHdr (loopSet h (loopDepth h) (n - 1) (p + 8) e))) 0 none

def execLoop (a : Opnd) (off : BitVec 15) (s : State) : Out :=
  control (.loop a off) { srcs := [a], hdrW := true } (fun rs s => loopPush (lane (nth rs 0) 0) off s) s
def execLoopi (off : BitVec 15) (n : Word) (s : State) : Out :=
  control (.loopi off n) { hdrW := true } (fun _ s => loopPush n off s) s
def execLoopPop (s : State) : Out :=
  control .loopPop { hdrW := true } (fun _ s => .go (s.modC (fun c => c.setHdr (loopPopTop c.hdr))) 0 none) s

/-! ### Tokens (R126) -/

/-- The first token says that `jtok` transfers control (R126). -/
def jumps (s : State) : Bool := (s.core.slot.toks.head?.map Token.taken).getD false

def execJtok (s : State) : Out :=
  control .jtok { moves := jumps s } (fun _ s =>
    match s.core.slot.toks with
    | [] => .wait 4 s
    | t :: ts => .go (s.modS (fun x => { x with toks := ts })) 0 (if t.taken then some t.pc else none)) s

/-- Pushes a token: a full queue stalls the arithmetic stream (R17). -/
def pushToken (t : Token) (s : State) : ARes :=
  if 2 ≤ s.core.slot.toks.length then .wait 4 else .go (s.modS (fun x => { x with toks := x.toks ++ [t] })) 0 0

def execTokb (x : Opnd) (off : BitVec 11) (s : State) : Out :=
  arith (.tokb x off) (fun e _ rs s =>
    pushToken { taken := lane (nth rs 0) 0 != 0, pc := e.pc + (off.signExtend 32 <<< 3) } s) s
/-- `tokj`: of a misaligned target and a full token queue the trap comes first; WIN of `tokb` and `tokj` likewise (R118, R126;
DESIGN CHOICE, log 74). -/
def execTokj (x : Opnd) (s : State) : Out :=
  arith (.tokj x) (fun _ _ rs s =>
    let t := lane (nth rs 0) 0
    if t.toNat % 8 ≠ 0 then .trap cADDR 0 t.toNat else pushToken { taken := true, pc := t } s) s

/-! ### Traps and their return (R127, R128) -/

/-- `trap n`: the bundle counts as issued, so that the resume PC is the next bundle (R127). -/
def execTrap (n : BitVec 11) (s : State) : Out :=
  match cWait s.core { moves := true } with
  | 0 =>
    .next (takeTrap (issueC s s { moves := true } 0 (some (s.core.slot.pc + 8)))
      { mkTrap cTRAP (n.toNat <<< 9) 0 with fword := word0Of (.trap n) })
  | k => stallC s k
def execBrk (n : BitVec 11) (s : State) : Out := control (.brk n) { moves := true } (fun _ s => .trap s (mkTrap cBRK (n.toNat <<< 9) 0)) s

/-- `eret` has read the header row: both words of a bundle read before either writes (R11). -/
def readEret (s : State) : State :=
  if !s.core.slot.ctlIssued && cWait s.core { moves := true } == 0 then s.modS (fun x => { x with eretRow := some s.core.hdr }) else s

/-- `eret`: ILL with reason 7 where IT is clear, else the return once its bundle has completed (R128). -/
def execEret (s : State) : Out :=
  if !s.core.slot.ctlIssued && cWait s.core { moves := true } == 0 && !modeIT (modeOf s.core.hdr) then
    .next (takeTrap s { mkTrap cILL (7 <<< 9) 0 with fword := word0Of .eret })
  else afterBundle { moves := true } (fun s => .next (returnTrap s)) (readEret s)

/-- `fsync` changes timing only (R129). -/
def execFsync (n : BitVec 11) (s : State) : Out := control (.fsync n) {} (fun _ s => .go s 0 none) s

/-! ### Immediates (R130) -/

def execMovi (a : Opnd) (v : Word) (s : State) : Out :=
  control (.movi a v) { dst := some a, latch := true } (fun _ s => .go s (laneRow v) none) s
def execAdda (a b : Opnd) (k : BitVec 11) (s : State) : Out :=
  control (.adda a b k) { srcs := [b], dst := some a, latch := true } (fun rs s =>
    .go s (laneRow (lane (nth rs 0) 0 + k.signExtend 32)) none) s

/-! ### Control registers (R131, R132) -/

/-- Needs PRV = 1 (R132, R256). -/
def cregPriv : CReg → Bool
  | .pb => true | .pl => true | .tagsel => true | .tagent => true
  | _ => false

/-- Lanes that a register moves (R131, R132). -/
def cregLanes : CReg → Nat
  | .cycle => 2 | .cone => 2 | .tagent => 4
  | _ => 1

/-- Where the refresh timer stands for a core's slice: 0 to 255 is its window (R138). -/
def refreshPhase (s : State) (w : Word) : Nat := (s.timer + 256 * ((8 * clOf w + coreOf w) % 256)) % 65536

/-- cx.rfsh: the cluster's own cycles until the slice's next window (R132, R138; log 14). -/
def rfsh (s : State) (w : Word) : Nat :=
  if isMem w || s.timer = 0 then 65535
  else
    let p := refreshPhase s w
    if p < 256 then 0 else (65536 - p) * (4 + (getCl s (clIdx w)).clock) / 16

/-- A tag entry as a row (R201). -/
def tagRow (t : BitVec 128) : Row := t.setWidth 512

/-- The value of a control register, in its lanes (R132). -/
def creg (s : State) (r : CReg) : Row :=
  let c := s.core
  let x := c.slot
  match r with
  | .core => laneRow c.id
  | .clus => laneRow (BitVec.ofNat 32 (dieOf c.id <<< 6 ||| clOf c.id))
  | .cycle => c.cycle.setWidth 512
  | .mode => laneRow ((modeOf c.hdr).setWidth 32 &&& 0x7F)
  | .fpm => laneRow x.fpm
  | .mstat => laneRow c.mstat
  | .scla => laneRow c.scla
  | .sclb => laneRow c.sclb
  | .rfsh => laneRow (BitVec.ofNat 32 (rfsh s c.id))
  | .cone => match procById s x.proc with
    | some p => p.cone.setWidth 512
    | none => 0
  | .lend => laneRow c.lend
  | .grp0 => laneRow c.grp[0]
  | .grp1 => laneRow c.grp[1]
  | .grp2 => laneRow c.grp[2]
  | .grp3 => laneRow c.grp[3]
  | .wb => laneRow (BitVec.ofNat 32 x.wb)
  | .wl => laneRow (BitVec.ofNat 32 x.wl)
  | .pb => laneRow (BitVec.ofNat 32 x.pb)
  | .pl => laneRow (BitVec.ofNat 32 x.pl)
  | .tagsel => laneRow (BitVec.ofNat 32 c.tagsel)
  | .tagent => tagRow (look 0 c.tags c.tagsel)

/-- The bits of a tag entry that are not reserved (R201). -/
def tagMask : Row := rowOfLanes [0x0003FFF8, 0xBF7F07FF, 0xFFFF07FF, 0x01FF01FF]

/-- Writes a control register; only the writable ones reach it (R43, R132). -/
def cregWrite (s : State) (r : CReg) (v : Row) : State :=
  let w := lane v 0
  match r with
  | .mode => s.modC (fun c => c.setHdr (modeWrite c.hdr w))
  | .fpm => s.modS (fun x => { x with fpm := w &&& fpmMask })
  | .mstat => s.modC (fun c => { c with mstat := c.mstat &&& ~~~w })
  | .scla => s.modC (fun c => { c with scla := w })
  | .sclb => s.modC (fun c => { c with sclb := w })
  | .tagsel => s.modC (fun c => { c with tagsel := w.toNat % 256 })
  | .tagent => s.modC (fun c => { c with tags := put c.tags c.tagsel ((v &&& tagMask).setWidth 128) })
  | _ => s

def execCsrr (a : Opnd) (r : CReg) (s : State) : Out :=
  control (.csrr a r) { dst := some a, lanes := (cregLanes r), latch := true, fpm := r == .fpm, mstat := r == .mstat,
                        bar := if cregPriv r then privBar s else none }
    (fun _ s => .go s (creg s r) none) s
def execCsrw (a : Opnd) (r : CReg) (s : State) : Out :=
  control (.csrw a r) { srcs := [a], modeW := r == .mode, fpm := r == .fpm, mstat := r == .mstat,
                        bar := if cregPriv r then privBar s else none }
    (fun rs s => .go (cregWrite s r (nth rs 0)) 0 none) s

/-! ### Steps of the core -/

/-- FETCH: the line of the current PC reaches the slots of the cluster that ask for it; beyond the store the
control stream traps ADDR, once it may begin the bundle (R8, R9, R13, R259). -/
def execFetch (s : State) : Out :=
  let x := s.core.slot
  if !x.active then .next s
  else if pcLimit s.core.id ≤ x.pc.toNat then
    if gateC x then stallC s 1 else .next (takeTrap s (mkTrap cADDR 0 x.pc.toNat))
  else
    let l := x.pc.toNat / 64 * 64
    let r := storeLine s l
    let cl := clIdx s.core.id
    let take (y : Slot) : Slot :=
      if y.active && y.pc.toNat / 64 * 64 == l && !y.fetched.any (fun e => e.1 == l) then { y with fetched := [(l, r)] } else y
    .next (mapCores s (fun c => if clIdx c.id = cl then { c with slot := take c.slot, alt := take c.alt } else c))

/-- ILLEGAL_ENCODING: the word raises ILL at its trap point, with its reason; a control word once it may begin
its bundle (R13, R46, R47, R259, R266). -/
def execIllegalEncoding (ari : Bool) (reason : Nat) (w : Word) (s : State) : Out :=
  if !ari && gateC s.core.slot then stallC s 1
  else .next (takeTrap (s.modS (fun x => { x with rep := 0 })) { cause := cILL, ari := ari, info := reason <<< 9, faddr := 0, fword := w })

/-- TRAP_ENTRY: the trap that waits for the header row is taken (R257, R273). -/
def execTrapEntry (s : State) : Out :=
  match s.core.slot.trapWait with
  | some t => if s.core.pendingRow s.core.slot.wb then .next s else .next (enterTrap s t)
  | none => .next s

/-- The arithmetic stream's wait code: 1 where no bundle has been issued to it (R28). -/
def waitOfA (x : Slot) : Option Nat := if x.backlog.isEmpty then some 1 else x.waitA
def tableCode : Option Nat → Bool
  | some n => decide (1 ≤ n) && decide (n ≤ 5)
  | none => false

/-- STRDL: both streams of the slot stall with codes of the table (R28, R29); the header that answers is that of the
window as it stands (log 54). -/
def execStrdl (s : State) : Out :=
  let x := s.core.slot
  if x.active && tableCode x.waitC && tableCode (waitOfA x) then
    .next (takeTrap s (mkTrap cSTRDL ((x.waitC.getD 0) <<< 9 ||| ((waitOfA x).getD 0) <<< 13) 0))
  else .next s

end Sys2Proof.Machine
end

