-- ==== Sys2Proof/Machine/Capability.lean ====
section
/-! DEFINITION. Capabilities of the kiln (R369): their layout, the tag of a granule of kiln memory, and the check of an
access through one. -/

namespace Sys2Proof.Machine

/-- A capability: permissions, length in 256-byte units, first byte, current address. -/
def capWord (x w r : Bool) (len base addr : Nat) : BitVec 128 :=
  BitVec.ofNat 128 (x.toNat <<< 126 ||| w.toNat <<< 125 ||| r.toNat <<< 124 ||| (len % 2 ^ 20) <<< 104 ||| (base % 2 ^ 52) <<< 52 ||| addr % 2 ^ 52)
def capX (c : BitVec 128) : Bool := c.getLsbD 126
def capW (c : BitVec 128) : Bool := c.getLsbD 125
def capR (c : BitVec 128) : Bool := c.getLsbD 124
def capLen (c : BitVec 128) : Nat := (c.extractLsb' 104 20).toNat
def capBase (c : BitVec 128) : Nat := (c.extractLsb' 52 52).toNat
def capAddr (c : BitVec 128) : Nat := (c.extractLsb' 0 52).toNat
/-- The capability with another current address. -/
def capAt (c : BitVec 128) (addr : Nat) : BitVec 128 := capWord (capX c) (capW c) (capR c) (capLen c) (capBase c) addr
/-- The capability of n bytes from a up. -/
def capFor (w r : Bool) (a n : Nat) : BitVec 128 := capWord false w r ((n + 255) / 256) a a

/-- A granule of kiln memory. -/
def granule (s : State) (i : Nat) : Granule := look ⟨false, 0⟩ s.kiln i
/-- A capability store of a kiln core sets the tag. -/
def capStore (s : State) (i : Nat) (c : BitVec 128) : State := { s with kiln := put s.kiln i ⟨true, c⟩ }
/-- Any other write of the granule clears it. -/
def kilnPut (s : State) (i : Nat) (v : BitVec 128) : State := { s with kiln := put s.kiln i ⟨false, v⟩ }

/-- What a kiln core does through a capability. -/
inductive KAcc where
  | read | write | fetch
  deriving DecidableEq, Repr
def capPermits (c : BitVec 128) : KAcc → Bool
  | .read => capR c
  | .write => capW c
  | .fetch => capX c

/-- An access to n bytes at the current address faults: the tag is clear, the permission is missing, or a byte lies
outside (R369). -/
def capFaults (g : Granule) (k : KAcc) (n : Nat) : Bool :=
  !g.tag || !capPermits g.val k || decide (capAddr g.val < capBase g.val) || decide (capBase g.val + 256 * capLen g.val < capAddr g.val + n)

/-- The granules where the kiln keeps the capabilities of a queue: its ring, and its fault area (log 72). -/
def ringGranule (q : Nat) : Nat := 2 * q
def areaGranule (q : Nat) : Nat := 2 * q + 1

/-- The granules of the capabilities of a queue's save area, and of the saggar bank that the kiln is taking a context out of or
putting one into (log 72). -/
def saveGranule (q : Nat) : Nat := 24576 + q
def bankGranule : Nat := 28672
/-- The capability of a queue's save area, 1 MiB at a place of its own, and of a bank, whose context is 128 rows and its state
(DESIGN CHOICE, log 72). -/
def saveCap (q : Nat) : BitVec 128 := capWord false true true 4096 (2 ^ 20 * q) (2 ^ 20 * q)
def bankCap (w : Word) (b : Nat) : BitVec 128 := capWord false true true 64 (2 ^ 33 + 65536 * coreIdx w + 16384 * b) (2 ^ 33 + 65536 * coreIdx w + 16384 * b)

/-- An access to n bytes at an address through the capability in a granule faults. -/
def viaFaults (s : State) (i : Nat) (k : KAcc) (addr n : Nat) : Bool :=
  capFaults { granule s i with val := capAt (granule s i).val addr } k n

/-- The capability of a queue's save area does not admit the access; the kiln's own work, numbered from 4096 up, has none
(R369). -/
def saveFaults (s : State) (q : Nat) (k : KAcc) : Bool :=
  decide (q < 4096) && viaFaults s (saveGranule q) k (capBase (granule s (saveGranule q)).val) 64
/-- The kiln derives the capability of a bank. -/
def deriveBank (s : State) (w : Word) (b : Nat) : State := capStore s bankGranule (bankCap w b)
/-- It goes through that capability to the bank's context. -/
def bankFaults (s : State) (w : Word) (b : Nat) (k : KAcc) : Bool := viaFaults s bankGranule k (capBase (bankCap w b)) 64

end Sys2Proof.Machine
end

