-- ==== Sys2Proof/Machine/Notify.lean ====
section
/-! DEFINITION. The notify page of a queue (R283, R284, R296, R297): its words, its writes, and where a device agent
reaches it. -/

namespace Sys2Proof.Machine

def queueById (s : State) (q : Nat) : Option Queue := s.queues.find? (fun x => x.id == q)
def modQueue (s : State) (q : Nat) (f : Queue → Queue) : State := { s with queues := s.queues.map (fun x => if x.id = q then f x else x) }

/-- The fault area is full (R297). -/
def Queue.full (x : Queue) : Bool := x.fcount - x.fci == BitVec.ofNat 32 x.flen

/-- The queue status word (R296, R297). STATE shows a fault of kind 4 or 5 until CLRF, whatever the ladder does
meanwhile; while rung 3 is under way STATE is 2 and RUNG 0; FAULT is 6 for as long as the fault area is full, whatever has
been cleared or has failed since (DESIGN CHOICE, log 71). -/
def statusWord (x : Queue) : Word :=
  let rung := match x.phase with
    | .drained => 1
    | .saved => 2
    | .reset => 3
    | _ => 0
  let st := if x.faulted then 5 else match x.phase with
    | .serving => if x.p = x.ci then 0 else 1
    | .drained => 0
    | .saved => 3
    | .reset => 4
    | _ => 2
  BitVec.ofNat 32 ((x.gen % 65536) <<< 16 ||| (if x.full then 6 else x.fault) <<< 8 ||| rung <<< 4 ||| st)

/-- A write of PI (R284). -/
def piWrite (v : Word) (x : Queue) : Queue :=
  if x.faulted || v = x.p || 2 ^ 31 ≤ (v - x.p).toNat then x
  else if 2 ^ x.log2n < (v - x.ci).toNat then { x with fault := 4, faulted := true }
  else { x with p := v }

/-- CLRF (R283, R294). -/
def clearFault (y : Queue) : Queue :=
  { y with fault := 0, faulted := false, cleared := y.cleared || y.ladder == some .stop,
           turned := if y.ladder == some .stop then false else y.turned }

/-- A queue that is in service starts down the ladder (R294). -/
def startLadder (t : Trig) (y : Queue) : Queue :=
  if y.phase = .serving then { y with phase := .draining, ladder := some t, cleared := false, turned := false } else y

/-- A write of FCI: forward, and not beyond FCOUNT (R297). -/
def fciWrite (v : Word) (x : Queue) : Queue :=
  if 2 ^ 31 ≤ (v - x.fci).toNat || (x.fcount - x.fci).toNat < (v - x.fci).toNat then x else { x with fci := v }

/-! ### Accesses by a device agent (R283, R285; log 70) -/

/-- The queue and the offset in its notify page of a key. -/
def notifyAt (s : State) (key : Nat) : Option (Nat × Nat) :=
  match s.bar with
  | some b => if hostKey b ≤ key ∧ key < hostKey b + 2 ^ 24 then some ((key - hostKey b) / 4096, (key - hostKey b) % 4096) else none
  | none => none

/-- What an aligned 32-bit read of the page gives (R283). -/
def notifyWord (s : State) (q off : Nat) : Word :=
  match queueById s q with
  | none => 0
  | some x =>
    match off with
    | 0x000 => x.p
    | 0x004 => statusWord x
    | 0x008 => x.ci
    | 0x00C => x.fcount
    | 0x014 => x.fci
    | _ => 0

/-- An aligned 32-bit write of the page (R283). -/
def notifyWrite (s : State) (q off : Nat) (v : Word) : State :=
  match off with
  | 0x000 => modQueue s q (piWrite v)
  | 0x010 => modQueue s q (fun x =>
      let y := if v.getLsbD 0 then clearFault x else x
      if v.getLsbD 1 then startLadder .stop y else y)
  | 0x014 => modQueue s q (fciWrite v)
  | _ => s

/-- Only aligned 32-bit accesses act (R283). -/
def notifyActs (off n : Nat) : Bool := off % 4 == 0 && n == 4

/-- A read of n bytes at an offset of the page. -/
def notifyRead (s : State) (q off n : Nat) : List Byte :=
  if notifyActs off n then natBytes (notifyWord s q off).toNat 4 else List.replicate n 0

/-- A write of bytes at an offset of the page. -/
def notifyPut (s : State) (q off : Nat) (bs : List Byte) : State :=
  if notifyActs off bs.length then notifyWrite s q off (BitVec.ofNat 32 (bytesNat bs)) else s

end Sys2Proof.Machine
end

