-- ==== Sys2Proof/Machine/Access.lean ====
section
/-! DEFINITION. Core accesses to memory: address and alignment checks (R144-R148), the wait for a
translation, reading and writing through the journal of a durable queue (R367) and the undo log of a pair
(R363), accesses that another cluster's range lock holds (R141). -/

namespace Sys2Proof.Machine

/-- The accessor that the current slot is. -/
def who (s : State) : Who := ⟨s.core.id, s.core.hvNow, s.core.slot.proc⟩

/-- CXL or host memory. -/
def isExternal (k : Nat) : Bool := decide (spaceSize ≤ k) && decide (k < 3 * spaceSize)

/-! ### Links (R365) -/

/-- The link of a number; one that has carried nothing expects flit 0. -/
def linkOf (s : State) (n : Nat) : Link :=
  match s.links.find? (fun l => l.id == n) with
  | some l => l
  | none => { id := n, expect := 0, fails := 0, retrain := false, down := false }
def setLink (s : State) (l : Link) : State := { s with links := s.links.filter (fun k => k.id != l.id) ++ [l] }

/-- The links over which another package, and a target address, can be reached; none where no link lies between (R318, R365;
log 81). -/
def linksTo (s : State) (pkg : Nat) : List Nat :=
  if pkg = ownPkg s then [] else ((s.pod.find? (fun p => p.id == pkg)).map PodPkg.links).getD []
def linksOf (s : State) (key : Nat) : List Nat :=
  if isChip key then linksTo s (keyPkg key) else if isExternal key then Config.externLinks key else []

/-- A target address lies beyond a core's cluster: its lines cross the network (R351; log 23). -/
def awayFrom (s : State) (w : Word) (key : Nat) : Bool := isExternal key || (isChip key && (keyPkg key != ownPkg s || keyCl key != clIdx w))

/-- Every link that leads there is down: the target cannot be reached (R361, R365). -/
def linksCut (s : State) (ls : List Nat) : Bool := s.links.any Link.down && !ls.isEmpty && ls.all (fun n => (linkOf s n).down)
/-- Every link that leads there is down or retraining: traffic for the target waits (R365). -/
def linksWait (s : State) (ls : List Nat) : Bool :=
  s.links.any (fun l => l.down || l.retrain) && !ls.isEmpty && ls.all (fun n => (linkOf s n).down || (linkOf s n).retrain)

/-! ### The journal of a durable queue (R367) -/

/-- The journalled writes of a kernel, if its queue is durable. -/
def journalOf (s : State) (k : KRef) : Option (List JWrite) :=
  match s.queues.find? (fun q => q.id == k.queue && q.dur) with
  | some q =>
    match q.journal.find? (fun e => e.1 == k.recNo) with
    | some e => some e.2
    | none => some []
  | none => none

/-- Memory as a kernel sees it: with its own journalled writes. -/
def viewOf (s : State) (k : KRef) : State :=
  match journalOf s k with
  | some j => j.foldl (fun t e => writePlace t ⟨e.key, e.enc⟩ e.bytes) s
  | none => s

/-- Replaces the journal of a record of a queue. -/
def setJournal (s : State) (k : KRef) (j : List JWrite) : State :=
  { s with queues := s.queues.map (fun q =>
      if q.id = k.queue then { q with journal := (q.journal.filter (fun e => e.1 != k.recNo)) ++ [(k.recNo, j)] } else q) }

/-- The kernel has journalled a write of the key. -/
def journalled (s : State) (k : KRef) (key : Nat) : Bool :=
  ((journalOf s k).getD []).any (fun e => decide (e.key ≤ key) && decide (key < e.key + e.bytes.length))

/-- Reads n bytes of a place for a kernel: of memory, or of a notify page (R283). -/
def kRead (s : State) (k : KRef) (p : Place) (n : Nat) : List Byte :=
  match notifyAt s p.key with
  | some (q, off) => if journalled s k p.key then readPlace (viewOf s k) p n else notifyRead s q off n
  | none => if isExternal p.key then readPlace (viewOf s k) p n else readPlace s p n

/-- The request to stop a kernel with a machine check of a slot's work (R277, R361). -/
def mchkStop (s : State) (k : KRef) (w : Word) (hv : Bool) (ctxid proc : Nat) (info faddr : Nat) : State :=
  let r : StopReq := { kern := k, flags := if hv then 12 else 4, core := w, ctxid := ctxid, proc := proc, pc := 0,
                       lane4 := BitVec.ofNat 32 (cMCHK ||| info), faddr := faddr, fword := 0, stamp := (getCore s w).cycle, epcA := 0,
                       status := 2, faultCode := 2 }
  { s with stops := s.stops ++ [r] }

/-- Work that can reach one of its targets over no link stops its kernel by a machine check, SOURCE 3; `ls` are the links to
each target (R361, R365). -/
def linkStop (s : State) (ls : List (List Nat)) (k : KRef) (w : Word) (hv : Bool) (ctxid proc : Nat) : State :=
  if ls.any (linksCut s) && !s.stops.any (fun r => r.kern == k) then mchkStop s k w hv ctxid proc (7 <<< 17 ||| 3 <<< 9) 0 else s

/-- A write without a journal: of memory, or of a notify page (R283). -/
def plainWrite (s : State) (p : Place) (bs : List Byte) : State :=
  match notifyAt s p.key with
  | some (q, off) => notifyPut s q off bs
  | none => writePlace s p bs

/-- The write has no effect: it goes to a notify page, and is no aligned 32-bit access (R283). -/
def notifyMiss (s : State) (key n : Nat) : Bool := (notifyAt s key).any (fun e => !notifyActs e.2 n)

/-- The bytes in the journal area of a kernel's queue, which its running kernels share (R367). -/
def journalSize (s : State) (k : KRef) : Nat :=
  ((s.queues.filter (fun q => q.id == k.queue)).flatMap (fun q => q.journal.map (fun e => (e.2.map (fun w => w.bytes.length)).sum))).sum

/-- Writes bytes of a place for a kernel: a durable kernel's external write goes to its journal, which a
machine check ends when the area of 64 MiB is full (R367). -/
def kWrite (s : State) (k : KRef) (w : Word) (hv : Bool) (ctxid proc : Nat) (p : Place) (bs : List Byte) : State :=
  if isExternal p.key then
    match if notifyMiss s p.key bs.length then none else journalOf s k with
    | some j =>
      if 2 ^ 26 < journalSize s k + bs.length then mchkStop s k w hv ctxid proc (4 <<< 9) 0 else setJournal s k (j ++ [⟨p.key, p.enc, bs⟩])
    | none => plainWrite s p bs
  else writePlace s p bs

/-- Journalled writes are performed in order (R367). -/
def applyWrites (j : List JWrite) (s : State) : State := j.foldl (fun s e => plainWrite s ⟨e.key, e.enc⟩ e.bytes) s

/-- A key lies in the core's own local memory. -/
def ownLocal (w : Word) (key : Nat) : Bool := isChip key && keyMem key == keyMem (localKey w 0)

/-- A core that runs a paired kernel logs the n bytes of its local memory that it overwrites (R363). -/
def logUndo (s : State) (w : Word) (p : Place) (n : Nat) : State :=
  match (getCore s w).ckpt with
  | some k =>
    if (getCore s w).owner.paired && ownLocal w p.key then
      modCore s w (fun c => { c with ckpt := some { k with undo := (List.range n).map (fun i => (p.key + i, memRead s.mem (p.key + i))) ++ k.undo } })
    else s
  | none => s

/-- Writes bytes for the current slot; a paired core logs what it overwrites in its local memory (R363). -/
def coreWrite (s : State) (p : Place) (bs : List Byte) : State :=
  let c := s.core
  kWrite (if c.slot.paired then logUndo s c.id p bs.length else s) c.slot.kern c.id c.hvNow (ctxOf c.hdr) c.slot.proc p bs

/-! ### Checks -/

/-- The access is misaligned (R146): 64-byte accesses and atomics always need alignment, the others where they
are ordered or MODE.AL is set; `rlx` says that it is neither ordered nor an atomic. -/
def misaligned (s : State) (rlx : Bool) (n ea : Nat) : Bool :=
  ea % n != 0 && (n == 64 || !rlx || modeAL (modeOf s.core.hdr))

/-- A byte of the access lies in the instruction store's aperture. -/
def touchesStore (s : State) (ea n : Nat) : Bool :=
  let hi := if isMem s.core.id then 0x1C20000 else 0x1C40000
  decide (0x1C00000 < ea + n) && decide (ea < hi)

/-- The core's slot of that kind. -/
def Core.slotOf (c : Core) (hv : Bool) : Slot := if hv then c.harvest else c.owner

/-- Asks for the translation of a page, and waits (R147, R320, R321). -/
def waitPage (s : State) (page : Nat) : CRes :=
  let m : Miss := { core := s.core.id, asker := .slot s.core.hvNow, proc := s.core.slot.proc, page := page }
  .wait outside ((askPage s m).modS (fun x => { x with xl := { x.xl with page := some page } }))

/-- A Page Request may go out: PRI is enabled, and fewer are out than 512 and than the host allocates (R326). -/
def mayPageReq (s : State) : Bool :=
  s.priEnabled && decide (((allCores s).flatMap (fun c => c.ext.filter (fun r => r.paged && r.sent))).length < min 512 s.prgAlloc)

/-- A request to the host goes out, or, a Page Request, waits for a place. An asker that has a request for the page out
waits for it; a Page Request that has not gone out gives way to what the access now needs (R325, R326). -/
def askExt (s : State) (w : Word) (r : ExtReq) : State :=
  let c := getCore s w
  let same (q : ExtReq) : Bool := q.asker == r.asker && q.kern == r.kern && q.pasid == r.pasid && q.page == r.page
  let new := { r with sent := !r.paged || mayPageReq s }
  match c.ext.find? same with
  | some q => if q.sent then s else setCore s { c with ext := c.ext.map (fun e => if e = q then new else e) }
  | none => setCore s { c with ext := c.ext ++ [new] }

/-- The host has refused the page of a request (R325, R326). -/
def refused (x : Xlat) (r : ExtReq) : Bool := x.ebad.any (fun e => e.1 == r.pasid && e.2.1 == r.page)

/-- Asks the host for a translation and waits, or traps where the host has refused it (R325, R326). -/
def waitExt (s : State) (r : ExtReq) (ea : Nat) : CRes :=
  if refused s.core.slot.xl r then .trap s (mkTrap cADDR infoPERM ea)
  else
    .wait outside ((askExt s s.core.id { r with asker := .slot s.core.hvNow, kern := s.core.slot.kern }).modS (fun x => { x with xl := { x.xl with page := some r.page } }))

/-- An acquire, or an sc access, of the current slot is held: its later memory instructions wait (R151, R184). -/
def acqHeld (s : State) : Bool := s.held.any (fun h => h.core == s.core.id && h.hv == s.core.hvNow && h.acq)

/-- The spots of an access of n bytes: m bytes at p, the rest at q. -/
def spotsOf (p : Place) (m n : Nat) (q : Option Place) : List Spot :=
  match q with
  | none => [⟨p.key, p.enc, n⟩]
  | some q => [⟨p.key, p.enc, m⟩, ⟨q.key, q.enc, n - m⟩]

/-- Checks an access in the order of R147 from step 3 on, and goes on with its places. -/
def access (s : State) (k : AKind) (ord : Ord) (n ea : Nat) (go : State → List Spot → CRes) : CRes :=
  let w := who s
  if acqHeld s then .wait outside s
  else if k == .store && touchesStore s ea n && !s.core.slot.prv then .trap s (mkTrap cPRIV 0 0)
  else if misaligned s (ord == .rlx && k != .rmw) n ea then .trap s (mkTrap cAL (if k.writes then infoWRO else 0) ea)
  else
    match planAccess s w k ea n with
    | .trap cause info faddr => .trap s (mkTrap cause info faddr)
    | .miss page => waitPage s page
    | .ext r a => waitExt s r a
    | .ok p m q =>
      let s := touchAtc (xlOf s w) s w ea
      go (if q.isSome then touchAtc (xlOf s w) s w (ea + m) else s) (spotsOf p m n q)

/-- Effective address of the CM format (R144). -/
def eaCM (b off : Word) : Nat := (b + off).toNat

/-- The 64-bit base in lanes 0 and 1 (R145): none where its high bits are not zero. -/
def base64 (b : Row) : Option Nat :=
  if (lane b 1).toNat < 2 ^ 20 then some ((lane b 0).toNat + 2 ^ 32 * (lane b 1).toNat) else none

/-- A malformed row: lane i of it is at fault (R148). -/
def malformed (s : State) (r : Row) (i : Nat) : CRes := .trap s (mkTrap cADDR infoDESC ((lane r i).toNat + 2 ^ 32 * i))

/-- The lanes that a value of n bytes fills (R149). -/
def lanesFor (n : Nat) : Nat := if n ≤ 4 then 1 else if n = 8 then 2 else 16

/-- Ordering labels: the read part of an acquire, the write part of a release (R151). -/
def isAcq : Ord → Bool
  | .acq => true | .sc => true | _ => false
def isRel : Ord → Bool
  | .rel => true | .sc => true | _ => false

/-- A lock of another cluster lies on one of the spots (R141). -/
def lockedThere (s : State) (k : AKind) (l : List Spot) : Bool :=
  l.any (fun p => isChip p.key && keyCl p.key != clIdx s.core.id && (rltLock s k p.key).isSome)

/-- Two lists of spots share a byte. -/
def spotsMeet (a b : List Spot) : Bool := a.any (fun p => b.any (fun q => decide (p.key < q.key + q.n) && decide (q.key < p.key + p.n)))

/-- The scopes in order: each lies in the next (R152). -/
def Scp.rank : Scp → Nat
  | .core => 0
  | .clus => 1
  | .die => 2
  | .pkg => 3
  | .pod => 4

/-- The narrowest scope that holds two cores, and that holds a core and a list of them (R185). -/
def scopeOf (a b : Word) : Scp :=
  if pkgOf a ≠ pkgOf b then .pod else if dieOf a ≠ dieOf b then .pkg else if clIdx a ≠ clIdx b then .die else if a ≠ b then .clus else .core
def narrowest (w : Word) (ws : List Word) : Scp := ws.foldl (fun m v => if Scp.rank m < Scp.rank (scopeOf w v) then scopeOf w v else m) .core

/-- Images of stores that a slot of a core issued before time t are still due, of a scope that lies in the given one (R191,
R249). -/
def imagesDue (s : State) (w : Word) (hv : Bool) (scp : Scp) (t : Nat) : Bool :=
  s.clusters.any (fun c => c.imgs.any (fun i => i.core == w && i.hv == hv && decide (Scp.rank i.scp ≤ Scp.rank scp) && decide (i.at_ < t)))

/-- A held access of the current slot (R177). -/
def ownHeld (s : State) (h : Held) : Bool := h.core == s.core.id && h.hv == s.core.hvNow

/-- A release of the current slot that is no store waits: an earlier access is held, or not performed at its own scope (log
6), or images are due of a scope that the release's contains (R151, R185, R186, R187, R191, R249). -/
def releaseWaits (s : State) (scp : Scp) : Bool :=
  !s.core.slot.pend.isEmpty || s.held.any (ownHeld s) || imagesDue s s.core.id s.core.hvNow scp s.timer

/-- The access writes a notify page: a release store at pod scope, whatever its label (R285). -/
def notifies (s : State) (k : AKind) (l : List Spot) : Bool := k.writes && l.any (fun p => (notifyAt s p.key).isSome)

/-- The scope of an access as a release: one of a notify page has pod scope (R151, R285). -/
def relScope (s : State) (k : AKind) (scp : Scp) (l : List Spot) : Scp := if notifies s k l then .pod else scp

/-- The links to each target of some spots. -/
def spotLinks (s : State) (l : List Spot) : List (List Nat) := l.map (fun p => linksOf s p.key)

/-- The access cannot be performed yet: a lock, links that are down or retraining, an earlier held access to its bytes, for a
release or an sc access anything earlier that is not performed (R141, R151, R180, R184, R191, R249, R365). -/
def mustHold (s : State) (k : AKind) (ord : Ord) (scp : Scp) (l : List Spot) : Bool :=
  lockedThere s k l || (spotLinks s l).any (linksWait s) || s.held.any (fun h => h.core == s.core.id && spotsMeet h.spots l) ||
  (ord == .sc && s.held.any (ownHeld s)) ||
  (k.writes && (isRel ord || notifies s k l) && (s.held.any (ownHeld s) || imagesDue s s.core.id s.core.hvNow (relScope s k scp l) s.timer))

/-- An earlier held store of the current slot writes one of the pieces (key, length): an engine that would read them
waits for it at issue (R163, R188, R189; log 63). -/
def storeHeld (s : State) (ps : List (Nat × Nat)) : Bool :=
  s.held.any (fun h => ownHeld s h && (h.store.isSome || h.rmw.isSome || h.cas.isSome) &&
    spotsMeet h.spots (ps.map (fun p => ⟨p.1, none, p.2⟩)))

/-- The access leaves the core: it is not to its own local memory (R363). -/
def leaves (s : State) (l : List Spot) (s' : State) (v : Row) : CRes :=
  if l.all (fun p => ownLocal s.core.id p.key) then .go s' v none else .out s' v

/-- Where no link leads to one of the spots of a held access of the current slot, its kernel stops (R361, R365). -/
def cutStop (s : State) (l : List Spot) (s' : State) : State :=
  linkStop s' (spotLinks s l) s.core.slot.kern s.core.id s.core.hvNow (ctxOf s.core.hdr) s.core.slot.proc

/-- An access of the current slot to spots is held (R141, R151, R365). -/
def hold (s : State) (l : List Spot) (s' : State) : CRes := leaves s l (cutStop s l s') 0

/-- The held form of an access of the current slot, with nothing to do. -/
def blankHeld (s : State) (l : List Spot) (k : AKind) (ord : Ord) (scp : Scp) : Held :=
  { core := s.core.id, lateAt := s.core.id, spots := l, store := none, rmw := none, cas := none, acq := (k.reads && isAcq ord) || ord == .sc,
    rel := k.writes && (isRel ord || notifies s k l), sc := ord == .sc, scp := relScope s k scp l, imgs := [], at_ := s.timer, lateId := s.core.nextId, kern := s.core.slot.kern, ctxid := ctxOf s.core.hdr,
    proc := s.core.slot.proc, hv := s.core.hvNow }

/-- Reads spots for a kernel. -/
def readSpots (s : State) (k : KRef) (l : List Spot) : List Byte := l.flatMap (fun p => kRead s k ⟨p.key, p.enc⟩ p.n)

/-- The key that a late write remembers. -/
def spotKey : List Spot → Nat
  | [] => 0
  | p :: _ => p.key

/-- A load of n bytes at ea to a destination (R149). -/
def loadAt (a : Opnd) (ord : Ord) (n ea : Nat) (s : State) : CRes :=
  access s .load ord n ea (fun s l =>
    if mustHold s .load ord .core l then
      hold s l { s with core := issueLate s.core a (lanesFor n) none (spotKey l), held := s.held ++ [blankHeld s l .load ord .core] }
    else
      let bs := readSpots s s.core.slot.kern l
      leaves s l (s.modC (fun c => issueLate c a (lanesFor n) (some (rowOfBytes bs)) (spotKey l))) 0)

/-- Writes bytes to spots for the current slot, in order. -/
def writeSpots : List Spot → List Byte → State → State
  | [], _, s => s
  | p :: ps, bs, s => writeSpots ps (bs.drop p.n) (coreWrite s ⟨p.key, p.enc⟩ (bs.take p.n))

/-- A store or atomic of the current slot that is not yet performed at its scope. -/
def pendOf (s : State) (l : List Spot) (scp : Scp) : PendW := ⟨spotKey l, scp, s.core.slot.proc, s.core.slot.kern, ctxOf s.core.hdr⟩

/-- The store of bytes at ea (R150): performed at once in this model, and kept as not yet performed at its
scope until WRITE_PERFORMED (R151; log 6). -/
def storeAt (bs : List Byte) (ord : Ord) (scp : Scp) (ea : Nat) (s : State) : CRes :=
  access s .store ord bs.length ea (fun s l =>
    let s1 := s.modS (fun x => { x with pend := x.pend ++ [pendOf s l scp] })
    if mustHold s .store ord scp l then
      hold s l { s1.modC (fun c => { c with nextId := c.nextId + 1 }) with held := s1.held ++ [{ blankHeld s l .store ord scp with store := some bs }] }
    else leaves s l (writeSpots l bs s1) 0)

end Sys2Proof.Machine
end

