-- ==== Sys2Proof/Machine/Messages.lean ====
section
/-! DEFINITION. Active messages (R197-R212): delivery into the NI bank, dispatch, pre-emption, the sending
instructions, `rls`, `done`, `tagset`, and the steps of the network and the dispatcher. -/

namespace Sys2Proof.Machine

/-! ### Tag entries (R201) -/

def tagOf (c : Core) (t : Nat) : BitVec 128 := look 0 c.tags t
def tagPC (e : BitVec 128) : Word := e.extractLsb' 0 32
def tagWB (e : BitVec 128) : Nat := (e.extractLsb' 32 11).toNat
def tagWL (e : BitVec 128) : Nat := (e.extractLsb' 48 7).toNat
def tagClass (e : BitVec 128) : Nat := (e.extractLsb' 56 2).toNat
def tagHV (e : BitVec 128) : Bool := e.getLsbD 58
def tagKeep (e : BitVec 128) : Bool := e.getLsbD 59
def tagEN (e : BitVec 128) : Bool := e.getLsbD 60
def tagPend (e : BitVec 128) : Bool := e.getLsbD 61
def tagV (e : BitVec 128) : Bool := e.getLsbD 63
def tagCRB (e : BitVec 128) : Nat := (e.extractLsb' 64 11).toNat
def tagCRN (e : BitVec 128) : Nat := (e.extractLsb' 80 8).toNat
def tagProc (e : BitVec 128) : Nat := (e.extractLsb' 88 8).toNat
def tagCPB (e : BitVec 128) : Nat := (e.extractLsb' 96 9).toNat
def tagCPN (e : BitVec 128) : Nat := (e.extractLsb' 112 9).toNat
/-- The entry with EN and PEND set as given. -/
def tagSetEN (e : BitVec 128) (en pend : Bool) : BitVec 128 :=
  (e &&& ~~~((3 : BitVec 128) <<< 60)) ||| (if en then (1 : BitVec 128) <<< 60 else 0) ||| (if pend then (1 : BitVec 128) <<< 61 else 0)

/-! ### Kernels as messages see them (R202, R286) -/

/-- The work of a message still counts: its generation is current and its kernel has not been stopped. Work
that no queue started (the kiln's own, numbered 4096) always counts (log 34). -/
def kernLive (s : State) (k : KRef) : Bool :=
  match s.queues.find? (fun q => q.id == k.queue) with
  | some q => q.gen == k.gen && s.kerns.any (fun r => r.ref == k)
  | none => decide (4096 ≤ k.queue)

/-- The kiln's request to stop a kernel with a fault record of its own (R270, R277). -/
def kilnStop (s : State) (k : KRef) (w : Word) (hv : Bool) (ctxid proc cause info faddr : Nat) : State :=
  let r : StopReq := { kern := k, flags := if hv then 12 else 4, core := w, ctxid := ctxid, proc := proc, pc := 0, lane4 := BitVec.ofNat 32 (cause ||| info),
                       faddr := faddr, fword := 0, stamp := (getCore s w).cycle, epcA := 0, status := 2, faultCode := 2 }
  { s with stops := s.stops ++ [r] }

/-- The queue of a kernel has been taken off its cores, or is being taken: none of its handlers starts or goes on (R294,
rungs 2 and 3). -/
def stopped (s : State) (k : KRef) : Bool :=
  s.queues.any (fun q => q.id == k.queue && q.phase != .serving && q.phase != .draining)

/-- The generation of a kernel's queue is current (R217, R286). -/
def genLive (s : State) (k : KRef) : Bool :=
  match s.queues.find? (fun q => q.id == k.queue) with
  | some q => q.gen == k.gen
  | none => decide (4096 ≤ k.queue)

/-- The record of a kernel has started: later ones may follow (R287). -/
def markStarted (s : State) (k : KRef) : State :=
  { s with queues := s.queues.map (fun q =>
      if q.id = k.queue ∧ q.gen = k.gen ∧ (k.recNo - q.next).toNat < 2 ^ 31 then { q with next := k.recNo + 1 } else q) }

/-- The header row of a starting context, as the kiln creates it: CTXID, and 0 (R262, R279; log 62). -/
def startHeader (proc tag : Nat) : Row := rowOfLanes [0, (Config.ctxidOf proc tag).setWidth 32]

/-- The kiln creates the starting context of a tag on a core (R279). -/
def createContext (t : Nat) (c : Core) : Core :=
  let e := tagOf c t
  if tagV e then c.setRow (tagWB e) (startHeader (tagProc e) t) else c

/-! ### Delivery (R202, R203) -/

/-- The lowest free NI slot (R203). -/
def niFree (c : Core) : Option Nat := (List.range 16).find? (fun i => !c.ni.any (fun n => n.idx == i))

/-- A slot kept for a tag that holds no undispatched message (R210). -/
def niKept (c : Core) (t : Nat) : Option NiSlot := c.ni.find? (fun n => n.st == .kept && n.keep == some t)

/-- Puts a message in a slot of the core: it waits or is ready as its tag says (R202, R205). -/
def niPlace (c : Core) (i : Nat) (keep : Option Nat) (m : Msg) : Core :=
  let t := hdrTag m.hdr
  let e := tagOf c t
  let n : NiSlot := { idx := i, msg := m, cls := max (hdrClass m.hdr) (tagClass e), st := if tagEN e then .ready else .waiting, keep := keep }
  { c with ni := c.ni.filter (fun n => n.idx != i) ++ [n] }

/-- A message has arrived for a tag: PEND records it while EN = 0 (R201, R202). -/
def arrived (t : Nat) (c : Core) : Core := if tagEN (tagOf c t) then c else { c with tags := put c.tags t (tagSetEN (tagOf c t) false true) }

/-- The messages the overflow area of a cluster has room for (R139, R203). -/
def spillRoom (s : State) (cl : Nat) : Nat :=
  if cl < 256 then (match partOfCl s cl with
    | some p => p.ovf / 512
    | none => 0)
  else 0

/-- The destinations of a message in this package, and whether it has one in another (R198). -/
def Msg.near (s : State) (m : Msg) : List Word := m.dest.filter (fun w => pkgOf w == ownPkg s)
def Msg.far (s : State) (m : Msg) : Bool := m.dest.any (fun w => pkgOf w != ownPkg s)

/-- Delivers a message to one core: none where it is refused. A message of a stopped kernel or a stale
generation is discarded; one to an invalid tag is discarded and its kernel stopped (R202, R203, R204): PROC of that record is
the PROC field of the invalid entry (DESIGN CHOICE, log 83). -/
def deliverOne (s : State) (m : Msg) (w : Word) : Option State :=
  let c := getCore s w
  if !kernLive s m.kern then some s
  else if !tagV (tagOf c (hdrTag m.hdr)) then
    some (kilnStop s m.kern m.srcw m.hvSrc m.ctxid (tagProc (tagOf c (hdrTag m.hdr))) cADDR 0 0)
  else
    let m := { m with stamp := s.timer }
    let c := arrived (hdrTag m.hdr) c
    match niKept c (hdrTag m.hdr) with
    | some n => some (setCore s (niPlace c n.idx n.keep m))
    | none =>
      match niFree c with
      | some i => some (setCore s (niPlace c i none m))
      | none =>
        let cl := getCl s (clIdx w)
        if cl.spill.length < spillRoom s cl.id then some (setCl (setCore s c) { cl with spill := cl.spill ++ [(w, m)] }) else none

/-- Delivers to every core of a list: all of them, or the first that refuses (R204). -/
def deliverAll (m : Msg) : List Word → State → Except Word State
  | [], s => .ok s
  | w :: ws, s =>
    match deliverOne s m w with
    | some s' => deliverAll m ws s'
    | none => .error w

/-- A slot has become free: the oldest spilled message for the core moves into it (R203). A slot that is kept for the
message's tag is none: it takes the next message that arrives for the tag (R210; DESIGN CHOICE, log 78). -/
def unspill (s : State) (w : Word) : State :=
  let cl := getCl s (clIdx w)
  match cl.spill.find? (fun e => e.1 == w) with
  | none => s
  | some e =>
    let c := getCore s w
    match niFree c with
    | none => s
    | some i => setCore (setCl s { cl with spill := cl.spill.erase e }) (niPlace c i none e.2)

/-- Frees a message slot of a core (R203, R210). -/
def niDrop (s : State) (w : Word) (i : Nat) : State :=
  unspill (modCore s w (fun c => { c with ni := c.ni.filter (fun n => n.idx != i) })) w

/-! ### Handler start (R135, R206) -/

/-- Before the first bundle of a handler whose process differs from the last one that the slot ran, the slot's
operand file, latches and cx.fpm are zeroed (R19, R135). -/
def Slot.forProc (x : Slot) (proc : Nat) : Slot :=
  let y := { x with lastProc := some proc }
  if x.lastProc.isSome && x.lastProc != some proc then { y with ofile := Vector.replicate 8 0, latC := 0, latA := 0, fpm := 0 } else y

/-- As a slot of the core changes to another process, a late write still pending to its operand file lands nowhere: no process
observes another's registers (R135; log 79). -/
def Core.quitOfile (c : Core) (x : Slot) (proc : Nat) : Core :=
  let left (l : Late) : Late := match l.dest with
    | .ofile sid _ => if sid = x.sid then { l with dest := .none } else l
    | _ => l
  if x.lastProc.isSome && x.lastProc != some proc then { c with late := c.late.map left } else c

/-- A slot starts the handler of a message: state per R206; a change of process clears the slot's own
operand file, latches and cx.fpm (R135). -/
def startHandler (s : State) (c : Core) (x : Slot) (n : NiSlot) : Slot :=
  let e := tagOf c (hdrTag n.msg.hdr)
  let proc := tagProc e
  let b := look (0, 2048) c.bounds proc
  { ((x.forProc proc).goto (tagPC e)) with
    active := true, halted := false, wb := tagWB e, wl := tagWL e, pb := b.1, pl := b.2, prv := false,
    queues := Vector.replicate 4 [], toks := [], msgSlot := some n.idx, msgLive := true, tag := hdrTag n.msg.hdr, cls := n.cls, proc := proc,
    kern := n.msg.kern, latch := n.msg.img, fetched := [], aside := none, sendWait := none, gang := .idle,
    paired := s.kerns.any (fun k => k.ref == n.msg.kern && k.pair) }

/-- The NI slot's message is the one its slot runs (R206). -/
def niRun (c : Core) (i : Nat) : Core := { c with ni := c.ni.map (fun n => if n.idx = i then { n with st := .running } else n) }

/-- The key by which the dispatcher orders ready messages (R205). -/
def orderKey (n : NiSlot) : List Nat :=
  [n.cls, n.msg.stamp, n.msg.srcw.toNat, n.msg.kind, if n.msg.kind = 4 then n.msg.dent else 0, n.msg.hvSrc.toNat]

/-- Lexicographic order of keys. -/
def keyLess : List Nat → List Nat → Bool
  | a :: as, b :: bs => decide (a < b) || (a == b && keyLess as bs)
  | _, _ => false

/-- The first ready message by R205 among those that p admits. -/
def pickReady (p : NiSlot → Bool) : List NiSlot → Option NiSlot
  | [] => none
  | n :: r =>
    match pickReady p r with
    | none => if n.st == .ready && p n then some n else none
    | some m => if n.st == .ready && p n && !keyLess (orderKey m) (orderKey n) then some n else some m

/-- The tag window of an entry lies within the lent rows (R304). -/
def windowLent (c : Core) (e : BitVec 128) : Bool :=
  lendActive c.lend && decide (lendRB c.lend ≤ tagWB e) && decide (tagWB e + tagWL e ≤ lendRB c.lend + lendRN c.lend)
/-- The claim of an entry overlaps the lent footprint (R303). -/
def claimMeets (c : Core) (e : BitVec 128) : Bool :=
  (decide (tagCRB e < lendRB c.lend + lendRN c.lend) && decide (lendRB c.lend < tagCRB e + tagCRN e) && tagCRN e != 0) ||
  (decide (tagCPB e < lendPB c.lend + lendPN c.lend) && decide (lendPB c.lend < tagCPB e + tagCPN e) && tagCPN e != 0 && lendPN c.lend != 0)

/-- The harvest slot alone takes the message (R304). -/
def harvestOnly (c : Core) (n : NiSlot) : Bool :=
  let e := tagOf c (hdrTag n.msg.hdr)
  n.cls == 2 && tagHV e && windowLent c e

/-- The message's process differs from that of the core's cluster (R135); a cluster that has started no handler
has none (log 7). -/
def foreignMsg (s : State) (c : Core) (n : NiSlot) : Bool :=
  !isMem c.id && (match (getCl s (clIdx c.id)).proc with
    | some p => p != tagProc (tagOf c (hdrTag n.msg.hdr))
    | none => false)

/-- The message counts as ready for the owner slot: its process is the cluster's (R135), it is not left to
the harvest slot, its queue is not taken off (R294). -/
def ownerMay (s : State) (c : Core) (n : NiSlot) : Bool := !foreignMsg s c n && !harvestOnly c n && !stopped s n.msg.kern

/-- The message the owner slot takes next (R205). -/
def ownerNext (s : State) (c : Core) : Option NiSlot := pickReady (ownerMay s c) c.ni

/-- The start of a message's handler waits for a revocation: its claim overlaps a footprint that is still
being taken back, or still lent (R309). -/
def claimWaits (c : Core) (n : NiSlot) : Bool :=
  lendV c.lend && claimMeets c (tagOf c (hdrTag n.msg.hdr)) && (lendActive c.lend || c.revoking)

/-- The weight store of a compute core's partition is open: no kernel runs there, so none starts (R194, R334). -/
def storeOpenAt (s : State) (w : Word) : Bool := !isMem w && (partOf s w).any (fun p => p.storeOpen)

/-- A handler of the kernel has started on the core (R194). -/
def ranOn (s : State) (w : Word) (k : KRef) : State :=
  if isMem w then s else { s with kerns := s.kerns.map (fun r => if r.ref = k then { r with compute := true } else r) }

/-- The kiln creates the starting context of a tag whose header row holds none, as after lending has zeroed it (R279, R310;
log 62). -/
def createMissing (t : Nat) (c : Core) : Core := if c.row (tagWB (tagOf c t)) = 0 then createContext t c else c

/-- HANDLER_START: the idle owner slot starts the next ready message; a pre-empted handler comes before
normal and bulk work (R205, R206). The shadow of a pair starts none of its own, no compute core while the weight store is
open (R334, R362). -/
def execHandlerStart (w : Word) (s : State) : Out :=
  let c := getCore s w
  let x := c.owner
  match ownerNext s c with
  | some n =>
    if x.active || claimWaits c n || (c.shadow.isSome && n.cls != 0) || shadowCore s w || storeOpenAt s w then .next s
    else
      let y := startHandler s c x n
      let b := createMissing (hdrTag n.msg.hdr) (c.quitOfile x y.proc)
      let d := niRun ({ b with ownerDone := false }.setOwner y) n.idx
      let s' := ranOn (setCore s (if y.paired then d.mark y else d)) w y.kern
      .next (if isMem w then s' else modCl s' (clIdx w) (fun u => { u with proc := some (tagProc (tagOf c (hdrTag n.msg.hdr))) }))
  | none => .next s

/-- PREEMPT: a ready prompt message takes the owner slot from a normal or bulk handler at a bundle boundary of both
streams; its EPCs go to its header, the slot's state to the shadow set (R207, R278). A streamed form that has begun
is no boundary: it ends first (log 66). -/
def execPreempt (w : Word) (s : State) : Out :=
  let c := getCore s w
  let x := unissue c.owner
  let prompt := pickReady (fun n => ownerMay s c n && n.cls == 0) c.ni
  if prompt.isNone || !x.active || x.halted || x.cls == 0 || x.rep != 0 || c.shadow.isSome || x.trapWait.isSome || c.pendingRow x.wb then .next s
  else
    let h := c.row x.wb
    let c := c.setRow x.wb (setLane (setLane (setLane h 2 x.pc) 3 (epcAOf x)) 4 0)
    let sh : Shadow := { slot := { x with waitC := none, waitA := none, rep := 0 }, l2 := lane h 2, l3 := lane h 3, l4 := lane h 4 }
    let y : Slot := { x.goto 0 with
                      active := false, queues := Vector.replicate 4 [], toks := [], msgSlot := none, msgLive := false,
                      aside := none, latch := none, sendWait := none, gang := .idle, paired := false, pend := [] }
    .next (setCore s { (c.setOwner y) with shadow := some sh })

/-- PREEMPT_RESUME: no prompt message is ready, and the pre-empted handler goes on from its shadow set; the
operand file is the slot's (R205, R207, R278). -/
def execPreemptResume (w : Word) (s : State) : Out :=
  let c := getCore s w
  let y := c.owner
  match c.shadow with
  | none => .next s
  | some sh =>
    if y.active || stopped s sh.slot.kern || (pickReady (fun n => ownerMay s c n && n.cls == 0) c.ni).isSome || c.pendingRow sh.slot.wb then .next s
    else
      let h := c.row sh.slot.wb
      let x := { sh.slot with pc := lane h 2 &&& ~~~(7 : Word), ofile := y.ofile, fetched := [], chains := y.chains, lastProc := y.lastProc,
                                pend := sh.slot.pend ++ y.pend }
      let c := c.setRow sh.slot.wb (setLane (setLane (setLane h 2 sh.l2) 3 sh.l3) 4 sh.l4)
      .next (setCore s { (c.setOwner x) with shadow := none })

/-- A window and a bound keep R254: 1 to 96 rows, within the bound, the bound within the register store. -/
def windowOk (wb wl pb pl : Nat) : Bool :=
  decide (1 ≤ wl) && decide (wl ≤ 96) && decide (pb ≤ wb) && decide (wb + wl ≤ pb + pl) && decide (pb + pl ≤ 2048)

/-- SERVICE_DISPATCH: the kiln starts a handler on a present core (R1) with PRV set, its window, bound and PC given; it gives only those that
R254 admits. The slot is cleared where its process changes (R135). Such a dispatch names no tag, so the process of
the cluster, which R135 takes from the tag, stays; the handler has no class and is not pre-empted (R207, R256). -/
def execServiceDispatch (w : Word) (pc : Word) (wb wl pb pl proc : Nat) (s : State) : Out :=
  let c := getCore s w
  let x := c.owner
  if x.active || !coreHere s w || shadowCore s w || !windowOk wb wl pb pl then .next s
  else
    let x := { ((x.forProc proc).goto (pc &&& ~~~(7 : Word))) with
               active := true, halted := false, wb := wb, wl := wl, pb := pb, pl := pl, prv := true, queues := Vector.replicate 4 [],
               toks := [], msgSlot := none, msgLive := false, cls := 0, proc := proc, kern := ⟨4096, 0, 0⟩, latch := none, fetched := [],
               aside := none, sendWait := none, gang := .idle, paired := false }
    .next (setCore s ({ c.quitOfile c.owner proc with ownerDone := false }.setOwner x))

/-! ### Sending (R209, R219) -/

/-- ADDR for a malformed message operand: REASON, and the two words of lanes 5 and 6 (R219). -/
def msgTrap (s : State) (reason l5 l6 : Nat) : CRes := .trap s (mkTrap cADDR (reason <<< 14 ||| infoDESC) (l5 + 2 ^ 32 * l6))

/-- Lane i of the A operand is malformed. -/
def laneTrap (s : State) (reason : Nat) (a : Row) (i : Nat) : CRes := msgTrap s reason (lane a i).toNat i

/-- The payload of n rows from B: none where it runs beyond the window, o7 or m7, or is `lat` of several
rows (R209, R219). -/
def payloadOk (x : Slot) (b : Opnd) (n : Nat) : Bool :=
  n == 0 || (match b with
    | .w k => decide (k.val + n ≤ x.wl)
    | .o k => decide (k.val + n ≤ 8)
    | .m k => decide (k.val + n ≤ 8)
    | .lat => n == 1
    | _ => true)

/-- The places the payload is read from. -/
def payloadLocs (x : Slot) (b : Opnd) (n : Nat) : List Loc :=
  match b with
  | .w k => (List.range n).map (fun i => .reg (x.wb + k.val + i))
  | .o k => (List.range n).map (fun i => .ofile (k.val + i))
  | _ => []

/-- The wait of the payload, 0 for none; seen counts the pops that A has taken of the same queue. -/
def payloadWait (c : Core) (b : Opnd) (n seen : Nat) : Nat :=
  let x := c.slot
  let ls := payloadLocs x b n
  if x.backlog.any (fun e => meets (entFoot x e).wr ls) then 5
  else if ls.any (pendingLoc c) then outside
  else firstWait ((List.range n).map (fun i => waitSrcC c b (seen + i)))

/-- The payload rows. -/
def payload (c : Core) (b : Opnd) (n seen : Nat) : List Row :=
  let x := c.slot
  (List.range n).map (fun i =>
    match b with
    | .w k => c.row (x.wb + k.val + i)
    | .o k => x.ofile[k.val + i]?.getD 0
    | .m k => msgRow c x (k.val + i)
    | .q k => QEnt.row (qEnt x k.val (seen + i))
    | .lat => x.latC
    | _ => 0)

/-- The code of a specifier, as reason 3 reports it. -/
def codeOf (o : Opnd) : Nat := o.code.toNat

/-- The message of the current context. -/
def newMsg (s : State) (hdr : Word) (rows : List Row) (dest : List Word) (kind addr : Nat) : Msg :=
  let c := s.core
  { hdr := hdr, rows := rows, dest := dest, srcw := c.id, kind := kind, addr := addr, i0 := 0, i1 := 0, i2 := 0, stab := 0, dent := 0,
    hvSrc := c.hvNow, kern := c.slot.kern, ctxid := ctxOf c.hdr, stamp := 0, img := none }

/-- OVF: the refusing core, and whether a group was sent to (R204). -/
def ovfTrap (s : State) (w : Word) (group : Bool) : CRes := .trap s (mkTrap cOVF (if group then 2 ^ 9 else 0) w.toNat)

/-- The process of a kernel. -/
def procOfKern (s : State) (k : KRef) : Nat :=
  match s.kerns.find? (fun r => r.ref == k) with
  | some r => r.proc
  | none => 0

/-- The links to each destination of a message in another package. -/
def Msg.farLinks (s : State) (m : Msg) : List (List Nat) := (m.dest.filter (fun w => pkgOf w != ownPkg s)).map (fun w => linksTo s (pkgOf w))

/-- A message goes on its way to another package; where no link leads there, its kernel stops (R204, R365). -/
def goFar (m : Msg) (s : State) : State :=
  linkStop { s with outbound := s.outbound ++ [m] } (m.farLinks s) m.kern m.srcw m.hvSrc m.ctxid (procOfKern s m.kern)

/-- The send has been answered: it completes, its payload popped. -/
def sendDone (b : Opnd) (n : Nat) (s : State) : CRes :=
  .out (s.modC (fun c => { popAll c (List.replicate n b) with slot := { (popAll c (List.replicate n b)).slot with sendWait := none } })) 0

/-- The lower of two core address words. -/
def lowerWord (a b : Word) : Word := if a.toNat ≤ b.toNat then a else b

/-- Sends a message whose operands are good: it waits for the payload, for the release, and for the answer
(R204, R209). A destination in another package answers by SEND_ANSWER, and the cores of this package are asked once that
answer is there (log 64); lane 5 names the lowest of all that refuse. -/
def sendMsg (hdr : Word) (b : Opnd) (seen : Nat) (dest : List Word) (kind addr : Nat) (s : State) : CRes :=
  let c := s.core
  let n := hdrRows hdr
  match c.slot.sendWait with
  | some w =>
    match w.answer with
    | none => .wait outside s
    | some (.refused r) =>
      let low := match deliverAll w.msg (w.msg.near s) s with
        | .ok _ => r
        | .error q => lowerWord q r
      ovfTrap (s.modS (fun x => { x with sendWait := none })) low (kind == 6)
    | some _ =>
      match deliverAll w.msg (w.msg.near s) s with
      | .ok s' => sendDone b n { s' with remote := s'.remote ++ [w.msg] }
      | .error r => ovfTrap (s.modS (fun x => { x with sendWait := none })) r (kind == 6)
  | none =>
    match payloadWait c b n seen with
    | 0 =>
      if releaseWaits s (narrowest c.id dest) then .wait outside s
      else
        let m := newMsg s hdr (payload c b n seen) dest kind addr
        if m.far s then .wait outside (goFar m (s.modS (fun x => { x with sendWait := some ⟨m, none⟩ })))
        else
          match deliverAll m (m.near s) s with
          | .error w => ovfTrap s w (kind == 6)
          | .ok s' => .out (s'.modC (fun c => popAll c (List.replicate n b))) 0
    | k => .wait k s

/-- A core address word as a destination: a shadow of a pair is malformed (R198, R362). -/
def destOk (s : State) (w : Word) : Bool := coreOk s w && !(s.core.slot.paired && coreOf w % 2 == 1)

/-- Members of a group-table entry of the issuing core's partition (R213); a paired kernel's are primaries (R362). -/
def groupOf (s : State) (g : Nat) : List Word :=
  match partOf s s.core.id with
  | some p => (look [] p.groups g).filter (fun w => !(s.core.slot.paired && coreOf w % 2 == 1))
  | none => []

/-- The pops A takes of the queue that B names. -/
def seenBy (a b : Opnd) : Nat := if a = b then 1 else 0

def execSend (a b : Opnd) (s : State) : Out :=
  control (.send a b) { srcs := [a] } (fun rs s =>
    let r := nth rs 0
    let h := lane r 0
    if hdrBad h then laneTrap s 1 r 0
    else if !destOk s (lane r 1) then laneTrap s 2 r 1
    else if !payloadOk s.core.slot b (hdrRows h) then msgTrap s 3 (codeOf b) (hdrRows h)
    else sendMsg h b (seenBy a b) [lane r 1] 2 0 s) s

def execSendGrp (a b : Opnd) (s : State) : Out :=
  control (.sendGrp a b) { srcs := [a] } (fun rs s =>
    let r := nth rs 0
    let h := lane r 0
    let g := groupOf s ((lane r 1).toNat % 256)
    if hdrBad h then laneTrap s 1 r 0
    else if !payloadOk s.core.slot b (hdrRows h) then msgTrap s 3 (codeOf b) (hdrRows h)
    else if 256 ≤ (lane r 1).toNat || g.isEmpty then laneTrap s 4 r 1
    else sendMsg h b (seenBy a b) g 6 0 s) s

/-- ceil(log2 n), at least 1 (R209). -/
def ownerBits (n : Nat) : Nat := max 1 (if n ≤ 1 then 0 else Nat.log2 (n - 1) + 1)
/-- XOR of the b-bit pieces of g, k of them. -/
def foldXor (b : Nat) : Nat → Nat → Nat
  | 0, _ => 0
  | k + 1, g => (g % 2 ^ b) ^^^ foldXor b k (g >>> b)
/-- The owner core of a data address among the cores of a partition (R209). -/
def ownerCore (l : List Word) (addr : Nat) : Word :=
  let n := l.length
  let b := ownerBits n
  let h := foldXor b ((36 + b - 1) / b) (addr / 65536)
  l.getD (if h < n then h else h - n) 0

/-- The primaries of the whole pairs among some cores (R362). -/
def primaries (l : List Word) : List Word := l.filter (fun w => coreOf w % 2 == 0 && l.contains (w ||| 0x2000))

/-- The cores that a kernel's hash ranges over: a paired one's senders address primaries only (R209, R362). -/
def hashCores (s : State) : List Word :=
  match partOf s s.core.id with
  | some p => if s.core.slot.paired then primaries (partCores s p) else partCores s p
  | none => []

def execSenda (a b : Opnd) (s : State) : Out :=
  control (.senda a b) { srcs := [a] } (fun rs s =>
    let r := nth rs 0
    let h := lane r 0
    let addr := (lane r 1).toNat + 2 ^ 32 * (lane r 2).toNat
    if hdrBad h then laneTrap s 1 r 0
    else if !payloadOk s.core.slot b (hdrRows h) then msgTrap s 3 (codeOf b) (hdrRows h)
    else if 2 ^ 52 ≤ addr then laneTrap s 8 r 2
    else sendMsg h b (seenBy a b) [ownerCore (hashCores s) addr] 3 addr s) s

/-! ### Ending a handler (R210) -/

/-- `rls` frees the current slot and ends its retention; from its bundle on the message reads zero. -/
def execRls (s : State) : Out :=
  control .rls {} (fun _ s =>
    let x := s.core.slot
    if !x.backlog.isEmpty then .wait 1 s
    else if !x.msgLive then .go s 0 none
    else
      let s' := s.modS (fun x => { x with msgLive := false, msgSlot := none })
      match x.msgSlot with
      | some i => .out (niDrop s' s.core.id i) 0
      | none => .out s' 0) s

/-- A reserved queue entry of the slot still waits for its data (R210). -/
def queuesPending (x : Slot) : Bool := x.queues.toList.any (fun q => q.any (fun e => match e with
  | .rsv _ => true
  | _ => false))

/-- Where several jobs of a context are FAULTED, `done` names the first by unit and place in it (DESIGN CHOICE, log 77). A
copy job of the slot's context is FAULTED, on whatever core it was issued (R174, R312, R377). -/
def Job.faultedFor (j : Job) (w : Word) (hv : Bool) (k : KRef) (ctxid : Nat) : Bool :=
  j.owner == w && j.hv == hv && j.kern == k && j.ctxid == ctxid && (match j.st with
    | .faulted _ _ => true
    | _ => false)
def faultedJob (s : State) : Option Job :=
  let c := s.core
  (s.clusters.flatMap (fun u => u.jobs)).find? (fun j => j.faultedFor c.id c.hvNow c.slot.kern (ctxOf c.hdr))

/-- The core runs a process now (R135, R312). -/
def runsProc (s : State) (w : Word) (proc : Nat) : Bool :=
  if isMem w then (getCore s w).owner.lastProc == some proc else (getCl s (clIdx w)).proc == some proc

/-- The module's tags are written, its contexts created where no other process runs, and its handle returned (R279, R347,
R348). -/
def completePublish (s : State) (p : Publish) : State :=
  let put1 (s : State) (e : Word × Nat × BitVec 128) : State :=
    modCore s e.1 (fun c =>
      let c := { c with tags := put c.tags e.2.1 e.2.2 }
      if (getCl s (clIdx e.1)).proc.all (fun q => q == p.mod.proc) then createContext e.2.1 c else c)
  { p.tags.foldl put1 s with modules := s.modules ++ [p.mod], loader := (0, p.mod.handle) }

/-- Modules that no core has to fence for any more are published (R348). -/
def publishDue (s : State) : State :=
  let due (p : Publish) : Bool := p.wait.isEmpty && p.fenced.isEmpty
  (s.publishing.filter due).foldl completePublish { s with publishing := s.publishing.filter (fun p => !due p) }

/-- The `done` of a service dispatch of the loader (R348). -/
def serviceDone (s : State) (w : Word) : State :=
  if s.publishing.isEmpty then s
  else publishDue { s with publishing := s.publishing.map (fun p => { p with fenced := p.fenced.filter (fun v => v != w) }) }

/-- The effect of `done` once its bundle has completed (R210, R174, R256, R348). It waits for no image that is due: R249 names
releases and E fences (DESIGN CHOICE, log 35). On a core of a pair a checkpoint forms, whichever kernel's handler ends
(R363). -/
def finishHandler (s : State) : Out :=
  let c := s.core
  let x := c.slot
  match faultedJob s with
  | some j =>
    let kind := match j.st with
      | .faulted k a => (k, a)
      | _ => (0, 0)
    .next (escalate (s.modS unissue) { mkTrap cCPF (j.slot <<< 9 ||| kind.1 <<< 15) kind.2 with fword := word0Of .done })
  | none =>
    if queuesPending x then stallC s outside
    else
      let h := c.hdr
      let h := (List.range 6).foldl (fun h i => setLane h (8 + i) 0) h
      let c := c.setHdr (setIT h false)
      let c := { c with ownerDone := c.ownerDone || (!c.hvNow && lendV c.lend) }
      let keep := x.msgLive && tagKeep (tagOf c x.tag)
      let y : Slot := { x.goto x.pc with
                        active := false, queues := Vector.replicate 4 [], toks := [], msgSlot := none, msgLive := false,
                        prv := false, aside := none, latch := none, gang := .idle, paired := false }
      let s1 := { s with core := { c with slot := y } }
      let s2 := match x.msgSlot with
        | some i =>
          if keep then s1.modC (fun c => { c with ni := c.ni.map (fun n => if n.idx = i then { n with st := .kept, keep := some x.tag } else n) })
          else niDrop s1 c.id i
        | none => s1
      let s3 := rltDrop s2 x.gangRegs
      let s4 := if x.prv then serviceDone s3 c.id else s3
      .next (if x.paired || c.ckpt.isSome then checkpoint s4 else s4)

/-- `done` (R210). -/
def execDone (s : State) : Out := afterBundle { moves := true } finishHandler s

/-! ### tagset (R211) -/

/-- Sets EN of a tag and moves its messages that have not started (R211). -/
def tagEnable (c : Core) (t : Nat) (on : Bool) : Core :=
  let move (n : NiSlot) : NiSlot :=
    if hdrTag n.msg.hdr = t then
      match n.st with
      | .waiting => if on then { n with st := .ready } else n
      | .ready => if on then n else { n with st := .waiting }
      | _ => n
    else n
  { c with tags := put c.tags t (tagSetEN (tagOf c t) on false), ni := c.ni.map move }

/-- `tagset`: PRIV for another process's tag unless PRV is set (R211). -/
def tagset (i : Instr) (t : BitVec 8) (on : Bool) (s : State) : Out :=
  control i {} (fun _ s =>
    let c := s.core
    let e := tagOf c t.toNat
    if !c.slot.prv && (!tagV e || tagProc e != c.slot.proc) then .trap s (mkTrap cPRIV 0 0)
    else if !tagV e then .go s 0 none
    else .out (s.modC (fun c => tagEnable c t.toNat on)) 0) s
def execTagsetOn (t : BitVec 8) (s : State) : Out := tagset (.tagsetOn t) t true s
def execTagsetOff (t : BitVec 8) (s : State) : Out := tagset (.tagsetOff t) t false s

/-! ### Steps of the network -/

/-- The message would start a record of a queue that starts none now: the front end keeps it at its source (R287, R294). -/
def startHeld (s : State) (m : Msg) : Bool := decide (m.kind ≤ 1) && s.queues.any (fun q => q.id == m.kern.queue && q.phase != .serving)

/-- The beat on the network of a message that a counter entry or a push sends; those of a `send` count with it (R351; log 23). -/
def chargeMsg (m : Msg) (s : State) : State :=
  if m.kind == 4 || m.kind == 5 then charge s m.srcw .net m.ctxid (procOfKern s m.kern) m.kern else s

/-- MESSAGE_DELIVERY: a message that waits at its source is delivered to all its destinations, or goes on
waiting where one refuses it; one for another package goes there, and waits for its answer (R202, R204, R287). -/
def execMessageDelivery (i : Nat) (s : State) : Out :=
  match s.net[i]? with
  | none => .next s
  | some m =>
    if startHeld s m then .next s else
    match deliverAll m (m.near s) { s with net := s.net.eraseIdx i } with
    | .ok s' =>
      if m.far s then .next (chargeMsg m (goFar m { s with net := s.net.eraseIdx i }))
      else .next (chargeMsg m (if m.kind ≤ 1 then markStarted s' m.kern else s'))
    | .error _ => .next s

/-- The answers that a slot has to a `send`, or waits for: of the word at its PC, and of the one that a trap has set aside. -/
def Slot.sends (x : Slot) : List SendWait := x.sendWait.toList ++ (x.aside.bind (fun a => a.sendWait)).toList
/-- A `send` of the slot that waits for its answer. -/
def Slot.sendDue (x : Slot) : Option SendWait := x.sends.find? (fun d => d.answer.isNone)

/-- A message comes from the control stream of a core, which waits for the answer (R204). -/
def Msg.isSend (m : Msg) : Bool := m.kind == 2 || m.kind == 3 || m.kind == 6

/-- The answer to a waiting `send` of a slot of the core. -/
def answerSend (c : Core) (sid : Nat) (d : SendWait) (a : SendAns) (s : State) : State :=
  let got (o : Option SendWait) : Option SendWait := o.map (fun e => if e = d then { e with answer := some a } else e)
  let f (x : Slot) : Slot :=
    if x.sid = sid then { x with sendWait := got x.sendWait, aside := x.aside.map (fun b => { b with sendWait := got b.sendWait }), waitC := none } else x
  { setCore s (c.mapSlots f) with outbound := s.outbound.erase d.msg }

/-- The answer to a message that waits at its source: it is accepted, which starts a record (R287), or waits again (R204).
That of a `send` whose handler has ended since goes nowhere else. -/
def answerSource (m : Msg) (a : SendAns) (s : State) : State :=
  let s := { s with outbound := s.outbound.erase m }
  match a, deliverAll m (m.near s) s with
  | .accepted, .ok s' => if m.kind ≤ 1 then markStarted { s' with remote := s'.remote ++ [m] } m.kern else { s' with remote := s'.remote ++ [m] }
  | _, _ => if m.isSend then s else { s with net := s.net ++ [m] }

/-- The barrier of a group, phase 0 before any arrival (R187, R214). -/
def barOf (s : State) (part grp : Nat) : Bar :=
  match s.bars.find? (fun b => b.part == part && b.grp == grp) with
  | some b => b
  | none => { part := part, grp := grp, phase := 0, arrived := [] }
def setBar (s : State) (b : Bar) : State :=
  { s with bars := s.bars.filter (fun a => !(a.part == b.part && a.grp == b.grp)) ++ [b] }

end Sys2Proof.Machine
end

