-- ==== Sys2Proof/Machine/Clocks.lean ====
section
/-! DEFINITION. Cluster clocks (R356-R359): floors, barrier domains, the planner's choices. -/

namespace Sys2Proof.Machine

/-- A core of the cluster holds an enabled prompt tag (R358). -/
def promptTag (s : State) (cl : Nat) : Bool :=
  (allCores s).any (fun c => clIdx c.id == cl && c.tags.any (fun e => tagV e.2 && tagEN e.2 && tagClass e.2 == 0))
/-- The lowest setting of a cluster: 825 MHz with a prompt tag (R356, R358). -/
def clockFloor (s : State) (cl : Nat) : Nat := if promptTag s cl then 8 else 0

/-- The members of a barrier's group. -/
def barMembers (s : State) (b : Bar) : List Word := match partById s b.part with
  | some p => look [] p.groups b.grp
  | none => []
/-- The clusters of this package that a barrier's members lie in. -/
def barClusters (s : State) (b : Bar) : List Nat := (((barMembers s b).filter (fun w => pkgOf w == ownPkg s)).map clIdx).eraseDups

/-- The network barriers whose phase is in progress, as their clusters (R213, R359). -/
def netBars (s : State) : List (List Nat) :=
  ((s.bars.filter (fun b => !b.arrived.isEmpty)).map (barClusters s)).filter (fun l => decide (1 < l.length))

/-- The barrier domain of a list of clusters, n times widened (R359). -/
def widen (bs : List (List Nat)) : Nat → List Nat → List Nat
  | 0, l => l
  | n + 1, l => widen bs n ((bs.filter (fun b => b.any l.contains)).foldl (fun l b => l ++ b.filter (fun c => !l.contains c)) l)
def domain (s : State) (cl : Nat) : List Nat := widen (netBars s) (netBars s).length [cl]

/-- The planner defers a change to the cluster (R357). -/
def deferred (s : State) (cl : Nat) : Bool :=
  (allCores s).any (fun c => clIdx c.id == cl && c.revoking) || !(getCl s cl).ops.isEmpty ||
  s.bars.any (fun b => barClusters s b == [cl] && (barMembers s b).all b.arrived.contains)

/-- The setting of a domain: the lowest that the planner has chosen for a cluster of it, raised to every floor there
(R358, R359). -/
def domainSetting (s : State) (d : List Nat) : Nat :=
  d.foldl (fun m c => max m (clockFloor s c)) (d.foldl (fun m c => min m (getCl s c).choice) 12)

/-- The package limit in watts: what the configuration in force sets, and 1,200 at most (R356). -/
def packageLimit (s : State) : Nat := min 1200 (Config.limitOf (look [] s.firm.inForce 1))
/-- The settings of the package's clusters. -/
def settings (s : State) : List Nat := (List.range 256).map (fun c => (getCl s c).clock)
/-- The planner may go from s to t: no cluster gets faster, or package power stays under the limit (R356). -/
def powerAdmits (s t : State) : Bool :=
  (List.range 256).all (fun c => decide ((getCl t c).clock ≤ (getCl s c).clock)) || Config.powerStays (packageLimit s) (settings t)

/-- The clusters of a domain at a setting. -/
def setClocks (s : State) (d : List Nat) (n : Nat) : State := d.foldl (fun t c => modCl t c (fun u => { u with clock := n })) s
/-- The slowest clock that a domain has now, raised to every floor there. -/
def slowest (s : State) (d : List Nat) : Nat :=
  d.foldl (fun m c => max m (clockFloor s c)) (d.foldl (fun m c => min m (getCl s c).clock) 12)

/-- Every cluster of the domain of a cluster gets one clock, unless a change there is deferred, or the package is in reduced
service (R357, R359, R373): what the planner has chosen where package power admits it, else the slowest that one of them has
(R356). -/
def planDomain (s : State) (cl : Nat) : State :=
  let d := domain s cl
  let n := domainSetting s d
  if d.all (fun c => (getCl s c).clock == n) || d.any (deferred s) || s.firm.stage == 1 then s
  else if powerAdmits s (setClocks s d n) then setClocks s d n
  else setClocks s d (slowest s d)

/-- A barrier phase that spans clusters has begun (R359). -/
def joinDomain (s : State) (cl : Nat) : State := if 1 < (domain s cl).length then planDomain s cl else s

/-- The management core accepts a configuration payload: its limit is at most 1,200 W, and keeps the package under its
electrical limit with every cluster at its floor, those without one at 275 MHz (R356). -/
def limitOk (s : State) (payload : List Byte) : Bool :=
  decide (Config.limitOf payload ≤ 1200) && Config.limitKeeps (Config.limitOf payload) ((List.range 256).map (clockFloor s))

end Sys2Proof.Machine
end

