-- ==== Sys2Proof/Machine/LoadStore.lean ====
section
/-! DEFINITION. Loads, stores, indexed accesses, atomics and `ifence` (R144-R157, R160). -/

namespace Sys2Proof.Machine

/-- A CM load of n bytes whose offset is off (R144, R149). -/
def load (i : Instr) (a b : Opnd) (n : Nat) (off : Word) (ord : Ord) (s : State) : Out :=
  control i { srcs := [b], dst := some a, late := true } (fun rs s =>
    loadAt a ord n (eaCM (lane (nth rs 0) 0) off) s) s

/-- A CM store of n bytes whose offset is off (R144, R150). -/
def store (i : Instr) (a b : Opnd) (n : Nat) (off : Word) (ord : Ord) (scp : Scp) (s : State) : Out :=
  control i { srcs := [a, b] } (fun rs s =>
    storeAt (rowBytes (nth rs 0) n) ord scp (eaCM (lane (nth rs 1) 0) off) s) s

/-- OFF5 × s (R144). -/
def scaled (off : BitVec 5) (n : Nat) : Word := BitVec.ofNat 32 (off.toNat * n)

def execLdb (a b : Opnd) (off : BitVec 5) (ord : Ord) (scp : Scp) (s : State) : Out :=
  load (.ldb a b off ord scp) a b 1 (scaled off 1) ord s
def execLdbLone (a b : Opnd) (ord : Ord) (scp : Scp) (ext : Word) (s : State) : Out :=
  load (.ldbLone a b ord scp ext) a b 1 ext ord s
def execStb (a b : Opnd) (off : BitVec 5) (ord : Ord) (scp : Scp) (s : State) : Out :=
  store (.stb a b off ord scp) a b 1 (scaled off 1) ord scp s
def execStbLone (a b : Opnd) (ord : Ord) (scp : Scp) (ext : Word) (s : State) : Out :=
  store (.stbLone a b ord scp ext) a b 1 ext ord scp s
def execLdh (a b : Opnd) (off : BitVec 5) (ord : Ord) (scp : Scp) (s : State) : Out :=
  load (.ldh a b off ord scp) a b 2 (scaled off 2) ord s
def execLdhLone (a b : Opnd) (ord : Ord) (scp : Scp) (ext : Word) (s : State) : Out :=
  load (.ldhLone a b ord scp ext) a b 2 ext ord s
def execSth (a b : Opnd) (off : BitVec 5) (ord : Ord) (scp : Scp) (s : State) : Out :=
  store (.sth a b off ord scp) a b 2 (scaled off 2) ord scp s
def execSthLone (a b : Opnd) (ord : Ord) (scp : Scp) (ext : Word) (s : State) : Out :=
  store (.sthLone a b ord scp ext) a b 2 ext ord scp s
def execLdw (a b : Opnd) (off : BitVec 5) (ord : Ord) (scp : Scp) (s : State) : Out :=
  load (.ldw a b off ord scp) a b 4 (scaled off 4) ord s
def execLdwLone (a b : Opnd) (ord : Ord) (scp : Scp) (ext : Word) (s : State) : Out :=
  load (.ldwLone a b ord scp ext) a b 4 ext ord s
def execStw (a b : Opnd) (off : BitVec 5) (ord : Ord) (scp : Scp) (s : State) : Out :=
  store (.stw a b off ord scp) a b 4 (scaled off 4) ord scp s
def execStwLone (a b : Opnd) (ord : Ord) (scp : Scp) (ext : Word) (s : State) : Out :=
  store (.stwLone a b ord scp ext) a b 4 ext ord scp s
def execLdd (a b : Opnd) (off : BitVec 5) (ord : Ord) (scp : Scp) (s : State) : Out :=
  load (.ldd a b off ord scp) a b 8 (scaled off 8) ord s
def execLddLone (a b : Opnd) (ord : Ord) (scp : Scp) (ext : Word) (s : State) : Out :=
  load (.lddLone a b ord scp ext) a b 8 ext ord s
def execStd (a b : Opnd) (off : BitVec 5) (ord : Ord) (scp : Scp) (s : State) : Out :=
  store (.std a b off ord scp) a b 8 (scaled off 8) ord scp s
def execStdLone (a b : Opnd) (ord : Ord) (scp : Scp) (ext : Word) (s : State) : Out :=
  store (.stdLone a b ord scp ext) a b 8 ext ord scp s
def execLdv (a b : Opnd) (off : BitVec 5) (ord : Ord) (scp : Scp) (s : State) : Out :=
  load (.ldv a b off ord scp) a b 64 (scaled off 64) ord s
def execLdvLone (a b : Opnd) (ord : Ord) (scp : Scp) (ext : Word) (s : State) : Out :=
  load (.ldvLone a b ord scp ext) a b 64 ext ord s
def execStv (a b : Opnd) (off : BitVec 5) (ord : Ord) (scp : Scp) (s : State) : Out :=
  store (.stv a b off ord scp) a b 64 (scaled off 64) ord scp s
def execStvLone (a b : Opnd) (ord : Ord) (scp : Scp) (ext : Word) (s : State) : Out :=
  store (.stvLone a b ord scp ext) a b 64 ext ord scp s

/-! ### Indexed (R145, R154) -/

def MSize.bytes : MSize → Nat
  | .b => 1 | .h => 2 | .w => 4 | .d => 8 | .v => 64

/-- base + index × size, exact; outside 0 to 2^52 - 1 it traps ADDR with UNMAP (R145), before AL where it is misaligned as
well (DESIGN CHOICE, log 74). -/
def indexed (b c : Row) (n : Nat) (go : Nat → State → CRes) (s : State) : CRes :=
  match base64 b with
  | none => malformed s b 1
  | some base =>
    let ea : Int := base + (lane c 0).toInt * n
    if ea < 0 ∨ 2 ^ 52 ≤ ea then .trap s (mkTrap cADDR infoUNMAP (ea % 2 ^ 52).toNat) else go ea.toNat s

def execLdx (a b c : Opnd) (size : MSize) (s : State) : Out :=
  control (.ldx a b c size) { srcs := [b, c], dst := some a, late := true } (fun rs s =>
    indexed (nth rs 0) (nth rs 1) (MSize.bytes size) (loadAt a .rlx (MSize.bytes size)) s) s
def execStx (a b c : Opnd) (size : MSize) (s : State) : Out :=
  control (.stx a b c size) { srcs := [a, b, c] } (fun rs s =>
    indexed (nth rs 1) (nth rs 2) (MSize.bytes size) (storeAt (rowBytes (nth rs 0) (MSize.bytes size)) .rlx .core) s) s

/-! ### Atomics (R155-R157, R324) -/

/-- The new value of an `amo` of w bits (R155). -/
def amoNew (op : AmoOp) (w old y : Nat) : Nat :=
  match op with
  | .add => (old + y) % 2 ^ w
  | .and => old &&& y
  | .or => old ||| y
  | .xor => old ^^^ y
  | .min => if signedVal w old ≤ signedVal w y then old else y
  | .max => if signedVal w old ≤ signedVal w y then y else old
  | .minn => min old y
  | .maxn => max old y
  | .swap => y

/-- Atomics that the host link carries, where the host completer supports them: FetchAdd, Swap and, for `cas`, CAS
(R324; log 33). -/
def hostAtomic (op : Option AmoOp) : Bool :=
  match op with
  | none => Config.hostAtomicOk 2
  | some .add => Config.hostAtomicOk 0
  | some .swap => Config.hostAtomicOk 1
  | _ => false

/-- An atomic of n bytes at ea: f gives the bytes to write, if any, from the old value (R155, R156). -/
def atomicAt (a : Opnd) (op : Option AmoOp) (n : Nat) (ord : Ord) (scp : Scp) (f : Nat → Option Nat) (rmw : Option (AmoOp × DWord))
    (cas : Option (DWord × DWord)) (ea : Nat) (s : State) : CRes :=
  access s .rmw ord n ea (fun s l =>
    if 2 * spaceSize ≤ spotKey l && isExternal (spotKey l) && !hostAtomic op then .trap s (mkTrap cADDR infoPERM ea)
    else
      let s1 := s.modS (fun x => { x with pend := x.pend ++ [pendOf s l scp] })
      if mustHold s .rmw ord scp l then
        let h := { blankHeld s l .rmw ord scp with rmw := rmw, cas := cas }
        hold s l { s1.modC (fun c => issueLate c a (lanesFor n) none (spotKey l)) with held := s.held ++ [h] }
      else
        let old := bytesNat (readSpots s s.core.slot.kern l)
        let s2 := match f old with
          | some v => writeSpots l (natBytes v n) s1
          | none => s
        leaves s l (s2.modC (fun c => issueLate c a (lanesFor n) (some (BitVec.ofNat 512 old)) (spotKey l))) 0)

/-- The 64-bit value in lanes i and i + 1, or lane i alone. -/
def wide (r : Row) (i : Nat) (d64 : Bool) : Nat :=
  (lane r i).toNat + (if d64 then 2 ^ 32 * (lane r (i + 1)).toNat else 0)

def execAmo (op : AmoOp) (a b c : Opnd) (ord : Ord) (scp : Scp) (d64 : Bool) (s : State) : Out :=
  control (.amo op a b c ord scp d64) { srcs := [b, c], dst := some a, late := true } (fun rs s =>
    let n := if d64 then 8 else 4
    let y := wide (nth rs 1) 0 d64
    match base64 (nth rs 0) with
    | none => malformed s (nth rs 0) 1
    | some ea => atomicAt a (some op) n ord scp (fun old => some (amoNew op (8 * n) old y)) (some (op, BitVec.ofNat 64 y)) none ea s) s

def execCas (a b c : Opnd) (ord : Ord) (scp : Scp) (d64 : Bool) (s : State) : Out :=
  control (.cas a b c ord scp d64) { srcs := [b, c], dst := some a, late := true } (fun rs s =>
    let n := if d64 then 8 else 4
    let x := wide (nth rs 1) 0 d64
    let y := wide (nth rs 1) 2 d64
    match base64 (nth rs 0) with
    | none => malformed s (nth rs 0) 1
    | some ea =>
      atomicAt a none n ord scp (fun old => if old = x then some y else none) none (some (BitVec.ofNat 64 x, BitVec.ofNat 64 y)) ea s) s

/-- The `ifence` of a service dispatch of the loader (R348). -/
def serviceFence (s : State) : State :=
  if s.core.slot.prv then
    { s with publishing := s.publishing.map (fun p =>
        if p.wait.contains s.core.id then { p with wait := p.wait.erase s.core.id, fenced := p.fenced ++ [s.core.id] } else p) }
  else s

/-- `ifence` discards what the slot has fetched beyond itself (R160). -/
def execIfence (s : State) : Out := control .ifence { refetch := true } (fun _ s => .go (serviceFence s) 0 none) s

/-! ### Landing and performing -/

/-- A late write in a bank's copy of a row. In the header row, lanes 2-4 stand aside until the context resumes: they
hold its resume PCs, which are written after the late write (R257, R278, R310). -/
def Parked.land (p : Parked) (n lanes : Nat) (r : Row) : Parked :=
  let old := look 0 p.rows n
  let new := mergeLanes lanes r old
  if n = p.slot.wb ∧ 5 ≤ lanes then
    { p with rows := put p.rows n (setLane (setLane (setLane new 2 (lane old 2)) 3 (lane old 3)) 4 (lane old 4)),
             l2 := lane r 2, l3 := lane r 3, l4 := lane r 4 }
  else { p with rows := put p.rows n new }

/-- Lands a late write in its row, operand file, queue entry or bank (R15, R20, R257, R310). -/
def landIn (c : Core) (l : Late) (r : Row) : Core :=
  match l.dest with
  | .row n => c.setRow n (mergeLanes l.lanes r (c.row n))
  | .ofile sid n =>
    let f (x : Slot) : Slot := if x.sid = sid then { x with ofile := x.ofile.set! n (mergeLanes l.lanes r (x.ofile[n]?.getD 0)) } else x
    c.mapSlots f
  | .queue id =>
    let f (x : Slot) : Slot := x.land id (mergeLanes l.lanes r 0)
    c.mapSlots f
  | .bank b n =>
    { c with parked := c.parked.map (fun p => if p.bank = b then p.land n l.lanes r else p) }
  | .none => c

/-- A late write that belongs to the checkpoint lands in it as well; another is a row written since (R363). -/
def landCkpt (c : Core) (l : Late) (r : Row) : Core :=
  match c.ckpt with
  | some k =>
    if l.id < k.nextId then
      let d := landIn ({ c with regs := k.regs, shadow := k.shadow }.setOwner k.slot) l r
      { c with ckpt := some { k with regs := d.regs, slot := d.owner, shadow := d.shadow } }
    else match l.dest with
      | .row n => { c with ckpt := some { k with rows := if k.rows.contains n then k.rows else n :: k.rows } }
      | _ => c
  | none => c

/-- A read of the weight slice waits for the end of a refresh window (R138). -/
def refreshHolds (c : Core) (l : Late) : Bool := c.inRefresh && decide (3 * spaceSize ≤ l.addr) && decide (l.addr < 4 * spaceSize)

/-- The late write that lands next: the first that has its data and that no earlier one to the same place
holds back (R257). -/
def nextLanding (c : Core) : List Late → List LDest → Option Late
  | [], _ => none
  | l :: r, seen =>
    if l.data.isSome && !refreshHolds c l && !seen.contains l.dest then some l else nextLanding c r (l.dest :: seen)

/-- The mark of a late write that comes from an accumulator tile (R238). -/
def accKey : Nat := 5 * spaceSize

/-- ARRAY of R361 for a key. -/
def arrayOf (k : Nat) : Nat :=
  if k < spaceSize then (match keyKind k with
    | 0 => 1
    | 1 => 2
    | _ => 3)
  else if 3 * spaceSize ≤ k && k < 4 * spaceSize then 5
  else if 5 * spaceSize ≤ k then 6
  else if 4 * spaceSize ≤ k then 4
  else 7

/-- FADDR of R361 for the line of a key: its target address, or, in a weight slice or an instruction store, its aperture's. -/
def lineAddr (k : Nat) : Nat :=
  let l := k / 64 * 64
  if 4 * spaceSize ≤ k then 0x1C00000 + (l - 4 * spaceSize) % 2 ^ 18
  else if 3 * spaceSize ≤ k then 0x1000000 + (l - 3 * spaceSize) % 2 ^ 24
  else l % spaceSize

/-- FADDR of the machine check for a late write: an accumulator line has no such address, so it is a free value (log 5). -/
def lateAddr (k : Nat) (s : State) : Nat × State :=
  if 5 * spaceSize ≤ k then ((takeFree s).1.toNat % 2 ^ 52, (takeFree s).2) else (lineAddr k, s)

/-! ### Rolling back a pair (R364) -/

/-- The pair goes back to its checkpoint: both of its owner's contexts, running and pre-empted, the rows and lines since; what
it has issued since and not performed is gone. Until every late write that belongs to the checkpoint has landed, it stands
still. The third time without passing it, the kernel stops by a machine check (R364). -/
def rollback (s : State) (w : Word) : State :=
  let c := getCore s w
  match c.ckpt with
  | none => s
  | some k =>
    if c.late.any (fun l => decide (l.id < k.nextId)) then setCore s { c with ckpt := some { k with rolling := true } }
    else
      let m := k.undo.foldl (fun m e => memWrite m e.1 e.2) s.mem
      let x := { k.slot with fetched := [], waitC := none, waitA := none, xl := Xlat.none }
      let c' := { (c.setOwner x) with regs := k.regs, shadow := k.shadow, mstat := k.mstat, scla := k.scla, sclb := k.sclb, chans := k.chans, late := [],
                                      ckpt := some { k with tries := k.tries + 1, undo := [], rows := [], bundles := 0, rolling := false } }
      let s' := setCore { s with mem := m, held := s.held.filter (fun h => !(h.core == w && decide (k.nextId ≤ h.lateId))) } c'
      let o := c.owner
      if k.tries < 2 then s'
      else mchkStop s' o.kern w false (ctxOf (c.row o.wb)) o.proc (2 <<< 9 ||| 3 <<< 13) 0

/-- A rollback that waited goes on once it can (R364). -/
def rollOn (s : State) (w : Word) : State :=
  match (getCore s w).ckpt with
  | some k => if k.rolling && !(getCore s w).late.any (fun l => decide (l.id < k.nextId)) then rollback s w else s
  | none => s

/-- An uncorrectable error on the data of a paired core's late write from its own local memory (R364). -/
def pairErr (c : Core) (l : Late) : Bool := c.owner.paired && c.ckpt.isSome && isChip l.addr && keyMem l.addr == keyMem (localKey c.id 0)

/-- LATE_WRITE_LANDING: the next late write of the core lands; with an uncorrectable error it lands zeros and
the kiln stops the kernel of the load by a machine check (R153, R257, R361). In a pair's own local memory the
partner's data land where the write belongs to the checkpoint, and the pair rolls back (R364). -/
def execLateWriteLanding (w : Word) (ue : Bool) (s : State) : Out :=
  let c := getCore s w
  match nextLanding c c.late [] with
  | none => .next s
  | some l =>
    let pair := ue && pairErr c l
    let r := if ue && !pair then 0 else l.data.getD 0
    let c' := landCkpt (landIn { c with late := c.late.filter (fun m => m.id != l.id) } l r) l r
    let s' := rollOn (setCore s c') w
    let at_ := lateAddr l.addr s'
    .next (if pair then rollback s' w
      else if ue then mchkStop at_.2 l.kern w l.hv l.ctxid l.proc (arrayOf l.addr <<< 17 ||| 1 <<< 9) at_.1 else s')

/-- A write of a slot of a core is held. -/
def writeHeld (s : State) (w : Word) (hv : Bool) : Bool :=
  s.held.any (fun h => h.core == w && h.hv == hv && (h.store.isSome || h.rmw.isSome || h.cas.isSome))

/-- The oldest store or atomic of a context that is not performed may be: none of its slot's writes is held, and a link leads
to its target (R151, R365). -/
def mayPerform (s : State) (held : Bool) (x : Slot) : Bool := !held && (x.pend.head?).any (fun p => !linksWait s (linksOf s p.addr))

/-- The core with the oldest such write of its contexts performed: of the owner slot's, the harvest slot's, the pre-empted one's,
the parked ones'. -/
def performOne (s : State) (c : Core) : Option Core :=
  let now := mayPerform s (writeHeld s c.id c.hvNow)
  let owner := mayPerform s (writeHeld s c.id false)
  let hv := mayPerform s (writeHeld s c.id true)
  let next (x : Slot) : Slot := { x with pend := x.pend.tail }
  if now c.slot then some { c with slot := next c.slot }
  else if mayPerform s (writeHeld s c.id (!c.hvNow)) c.alt then some { c with alt := next c.alt }
  else if c.shadow.any (fun h => owner h.slot) then some { c with shadow := c.shadow.map (fun h => { h with slot := next h.slot }) }
  else (c.parked.find? (fun p => hv p.slot)).map (fun p =>
    { c with parked := c.parked.map (fun q => if q.bank = p.bank then { q with slot := next q.slot } else q) })

/-- WRITE_PERFORMED: the oldest store or atomic not yet performed, of a context that the core holds or has in the save area, is
performed (R151, R158, R294). -/
def execWritePerformed (w : Word) (s : State) : Out :=
  match performOne s (getCore s w) with
  | some c => .next (setCore s c)
  | none =>
    match s.saved.find? (fun e => e.core == w && !e.ctx.slot.pend.isEmpty) with
    | some e => .next { s with saved := s.saved.map (fun f => if f = e then { f with ctx := { f.ctx with slot := { f.ctx.slot with pend := f.ctx.slot.pend.tail } } } else f) }
    | none => .next s

/-- What kind of access is held. -/
def Held.akind (h : Held) : AKind := if h.store.isSome then .store else if h.rmw.isSome || h.cas.isSome then .rmw else .load

/-- Nothing holds back the access of place i of the list any more. -/
def heldReady (s : State) (i : Nat) (h : Held) : Bool :=
  let before := (s.held.take i).filter (fun g => g.core == h.core)
  h.spots.all (fun p => (rltLock s h.akind p.key).isNone) && !(spotLinks s h.spots).any (linksWait s) && !before.any (fun g => spotsMeet g.spots h.spots) &&
  (!h.sc || !before.any (fun g => g.hv == h.hv)) &&
  (!h.rel || (!before.any (fun g => g.hv == h.hv) && !imagesDue s h.core h.hv h.scp h.at_))

/-- The bytes that a held access writes, from the old ones. -/
def Held.new (h : Held) (old : List Byte) : Option (List Byte) :=
  match h.store, h.rmw, h.cas with
  | some bs, _, _ => some bs
  | none, some (op, y), _ => some (natBytes (amoNew op (8 * old.length) (bytesNat old) y.toNat) old.length)
  | none, none, some (x, y) => if bytesNat old = x.toNat then some (natBytes y.toNat old.length) else none
  | none, none, none => none

/-- The bytes that a held access reads in its spots. -/
def heldRead (h : Held) (s : State) : List Byte :=
  h.spots.flatMap (fun p => if reaches s ⟨h.core, h.hv, h.proc⟩ p.key then kRead s h.kern ⟨p.key, p.enc⟩ p.n else List.replicate p.n 0)

/-- A paired core logs the bytes that a held access overwrites in its local memory, if the access issued since the checkpoint
(R363). -/
def heldUndo (h : Held) (p : Spot) (s : State) : State :=
  if (getCore s h.core).ckpt.any (fun k => decide (k.nextId ≤ h.lateId)) then logUndo s h.core ⟨p.key, p.enc⟩ p.n else s

/-- Writes the bytes of a held access to its spots. -/
def heldWrite (h : Held) : List Spot → List Byte → State → State
  | [], _, s => s
  | p :: ps, bs, s =>
    heldWrite h ps (bs.drop p.n)
      (if reaches s ⟨h.core, h.hv, h.proc⟩ p.key then kWrite (heldUndo h p s) h.kern h.core h.hv h.ctxid h.proc ⟨p.key, p.enc⟩ (bs.take p.n) else s)

/-- HELD_REMOTE_ACCESS: an access that was held is performed once nothing holds it back (R141, R151, R180). -/
def execHeldRemoteAccess (i : Nat) (s : State) : Out :=
  match s.held[i]? with
  | none => .next s
  | some h =>
    if !heldReady s i h then .next s
    else
      let s := { s with held := s.held.eraseIdx i }
      let old := heldRead h s
      let s := match h.new old with
        | some bs => heldWrite h h.spots bs s
        | none => s
      let s := h.imgs.foldl (fun s i => modCl s (clIdx i.core) (fun u => { u with imgs := u.imgs ++ [i] })) s
      .next (modCore s h.lateAt (fun c => { c with late := c.late.map (fun l =>
        if l.id = h.lateId && l.data.isNone && h.store.isNone then { l with data := some (rowOfBytes old) } else l) }))

end Sys2Proof.Machine
end

