-- ==== Sys2Proof/Machine/StreamCopy.lean ====
section
/-! DEFINITION. Streams (R161-R164), copy jobs and their batches (R142, R143, R165-R176, R377), fences (R158,
R159), and the steps of the stream and copy units. -/

namespace Sys2Proof.Machine

/-- The lowest lane of a row that a condition names as bad. -/
def firstLane (l : List (Nat × Bool)) : Option Nat := (l.find? (fun e => e.2)).map Prod.fst
/-- The lanes of a row that hold a bit outside their masks. -/
def reservedLanes (r : Row) (masks : List Nat) : List (Nat × Bool) :=
  masks.zipIdx.map (fun e => (e.2, (lane r e.2).toNat &&& (2 ^ 32 - 1 - e.1) != 0))
/-- A 52-bit value in lanes i and i + 1. -/
def addr52 (r : Row) (i : Nat) : Nat := (lane r i).toNat + 2 ^ 32 * (lane r (i + 1)).toNat
/-- Full lanes, as a mask. -/
def all32 : Nat := 2 ^ 32 - 1

/-! ### Streams -/

/-- Offset of beat k from BASE (R163). -/
def Strm.off (t : Strm) (k : Nat) : Int :=
  ((k % t.n0 : Nat) : Int) * t.s0 + ((k / t.n0 % t.n1 : Nat) : Int) * t.s1 + ((k / (t.n0 * t.n1) : Nat) : Int) * t.s2
def Strm.beats (t : Strm) : Nat := t.n0 * t.n1 * t.n2

/-- The span of one dimension below and above BASE. -/
def dimLo (n : Nat) (st : Int) : Int := min 0 ((n - 1 : Nat) * st)
def dimHi (n : Nat) (st : Int) : Int := max 0 ((n - 1 : Nat) * st)

/-- Every beat of lo..hi lies within one aperture region or one translated page (R162): a hole is no region. A pattern
that lies in a 4 KiB page whose walk ends in a fault is left to that fault, which R147 reports (DEDUCED, log 46). -/
def oneRegion (s : State) (w : Who) (lo hi : Nat) : Bool :=
  if hi < 0x2000000 then
    match apertureRegion s w.core lo with
    | some r => decide (hi < r.1 + r.2)
    | none => false
  else if lo < 0x2000000 || 2 ^ 52 ≤ hi then false
  else
    let n := (pageLog s w lo).getD 12
    lo / 2 ^ n == hi / 2 ^ n

/-- log2 of the size of the device leaf that translates an address (R316): the page that an invalidation names (R322). -/
def leafLog (s : State) (w : Who) (a : Nat) : Option Nat :=
  match pageX (xlOf s w) s w a with
  | .leaf e => some (sizeLog (pteSize e))
  | _ => none

/-- The trap of an engine's range at issue (R147). -/
def rangeTrap (s : State) (a : Nat) (t : Tr) : CRes :=
  match t with
  | .addr info => .trap s (mkTrap cADDR info a)
  | .extern => .trap s (mkTrap cXEXT 0 a)
  | .ext r => waitExt s r a
  | .miss page => waitPage s page
  | .ok _ => .trap s (mkTrap cADDR infoUNMAP a)

/-- The wait of a `strm` for the translation of its pattern's page: the check that the pattern lies in one page comes
before AL and needs it (R147, R162). A translation that the host has refused is reported after AL. -/
def streamWait (s : State) (w : Who) (lo : Nat) : Option CRes :=
  match resolve s w .load lo with
  | .miss page => some (waitPage s page)
  | .ext r => if refused s.core.slot.xl r then none else some (waitExt s r lo)
  | _ => none

/-- `strm` on its descriptor row (R161-R164). DEST names no shadow of a pair (R362). AL reports BASE also where only a stride is
no multiple of 64 (DESIGN CHOICE, log 74). It waits at issue for its own context's held stores to the pattern
(R163; log 63). -/
def startStream (r : Row) (s : State) : CRes :=
  let c := s.core
  let w := who s
  let base := addr52 r 0
  let n0 := (lane r 4).toNat % 65536
  let n1 := (lane r 4).toNat / 65536
  let n2 := (lane r 5).toNat % 65536
  let s0 := (lane r 6).toInt
  let s1 := (lane r 7).toInt
  let s2 := (lane r 8).toInt
  let dest := lane r 2
  let loI : Int := base + dimLo n0 s0 + dimLo n1 s1 + dimLo n2 s2
  let hiI : Int := base + dimHi n0 s0 + dimHi n1 s1 + dimHi n2 s2 + 63
  let lo := loI.toNat
  let hi := hiI.toNat
  let res := reservedLanes r [all32, 2 ^ 20 - 1, all32, 3, all32, 65535, all32, all32, all32, 0, 0, 0, 0, 0, 0, 0]
  let named := [(2, !coreHere s dest || shadowCore s dest), (4, n0 == 0 || n1 == 0), (5, n2 == 0)]
  match firstLane ((List.range 16).map (fun i => (i, (res ++ named).any (fun e => e.1 == i && e.2)))) with
  | some i => malformed s r i
  | none =>
    let steps := [base, (lane r 6).toNat, (lane r 7).toNat, (lane r 8).toNat]
    if loI < 0 then malformed s r 0
    else
      match streamWait s w lo with
      | some res => res
      | none =>
        if !oneRegion s w lo hi then malformed s r 0
        else if steps.any (fun v => v % 64 != 0) then .trap s (mkTrap cAL 0 base)
        else
          let n := hi + 1 - lo
          match rangeBad s w .load (n / 4096 + 2) lo n with
          | some (a, t) => rangeTrap s a t
          | none =>
            match resolve s w .load lo with
            | .ok p =>
              let regs := regsOf s [(p.key, n)] false true
              if acqHeld s || storeHeld s [(p.key, n)] || 4 ≤ c.strms.length || rltReadLocked s regs || !rltRoom s regs then .wait outside s
              else
                let (sr, es) := rltAdd regs s
                let t : Strm := { at_ := s.timer, key := p.key + (base - lo), n0 := n0, n1 := n1, n2 := n2, s0 := s0, s1 := s1, s2 := s2, dest := dest,
                                  ch := (lane r 3).toNat % 4, i := 0, lo := p.key, hi := p.key + n - 1, va := lo,
                                  log := (leafLog s w lo).getD 12, enc := p.enc, proc := c.slot.proc, owner := c.id, rlt := es,
                                  kern := c.slot.kern, ctxid := ctxOf c.hdr, hv := c.hvNow }
                .out ((touchAtc c.slot.xl sr w lo).modC (fun c => { c with strms := c.strms ++ [t] })) 0
            | t => rangeTrap s lo t

def execStrm (a : Opnd) (s : State) : Out :=
  control (.strm a) { srcs := [a] } (fun rs s => startStream (nth rs 0) s) s

/-- Another stream to the same channel goes first: it has begun to send, and its END beat has not gone, or it is
an earlier one of the same core (R163). -/
def channelTaken (s : State) (w : Word) (i : Nat) (t : Strm) : Bool :=
  (allCores s).any (fun c => c.strms.zipIdx.any (fun e =>
    !(c.id == w && e.2 == i) && e.1.dest == t.dest && e.1.ch == t.ch && (decide (0 < e.1.i) || (c.id == w && decide (e.2 < i)))))

/-- STREAM_BEAT: the stream reads its next beat and sends it, zeros where the page has been lent away from it (R305; log
68); a full channel, an earlier stream to the
channel, a refresh window or links that carry nothing hold it (R138, R163, R164, R365). A beat that meets an error the code
cannot correct carries zeros, and the kiln stops the kernel by a machine check of the array, as of a load (R153, R360, R361). A
core has at most four streams (R164): n below 4 is a beat of stream n, and n from 4 on one of stream n % 4 that meets such an
error (log 28). -/
def execStreamBeat (w : Word) (n : Nat) (s : State) : Out :=
  let i := n % 4
  let ue := decide (4 ≤ n)
  let c := getCore s w
  match c.strms[i]? with
  | none => .next s
  | some t =>
    let d := getCore s t.dest
    let key := ((t.key : Int) + t.off t.i).toNat
    let slice := decide (3 * spaceSize ≤ key) && decide (key < 4 * spaceSize)
    if 16 ≤ (d.chans[t.ch]?.getD []).length || (t.i == 0 && channelTaken s w i t) || (slice && c.inRefresh) then .next s
    else if linksWait s (linksOf s key) then .next (linkStop s [linksOf s key] t.kern w t.hv t.ctxid t.proc)
    else
      let last := t.i + 1 == t.beats
      let bs := if !ue && reaches s ⟨w, t.hv, t.proc⟩ key then kRead s t.kern ⟨key, t.enc⟩ 64 else []
      let b : Beat := { strm := t.at_, row := rowOfBytes bs, last := last, kern := t.kern, hv := t.hv, src := w }
      let add (q : Vector (List Beat) 4) : Vector (List Beat) 4 := q.set! t.ch (q[t.ch]?.getD [] ++ [b])
      let s := if ue then mchkStop s t.kern w t.hv t.ctxid t.proc (arrayOf key <<< 17 ||| 1 <<< 9) (lineAddr key) else s
      let s := modCore (charge (charge s w .sram t.ctxid t.proc t.kern) w .net t.ctxid t.proc t.kern) t.dest (fun d => { d with chans := add d.chans, ckpt := d.ckpt.map (fun k => { k with chans := add k.chans }) })
      if last then
        .next (rltDrop (modCore s w (fun c => { c with strms := c.strms.eraseIdx i })) t.rlt)
      else .next (modCore s w (fun c => { c with strms := c.strms.set i { t with i := t.i + 1 } }))

/-! ### Batches (R377) -/

/-- The chain of a slot for a kernel and CTXID; a new one opens batch 1. -/
def chainOf (x : Slot) (k : KRef) (ctx : Nat) : Chain :=
  match x.chains.find? (fun h => h.kern == k && h.ctxid == ctx) with
  | some h => h
  | none => { kern := k, ctxid := ctx, opened := 1, lastSealed := 0, revoked := [] }
def setChain (x : Slot) (h : Chain) : Slot :=
  { x with chains := x.chains.filter (fun g => !(g.kern == h.kern && g.ctxid == h.ctxid)) ++ [h] }
/-- The chain of the current context. -/
def chainNow (s : State) : Chain := chainOf s.core.slot s.core.slot.kern (ctxOf s.core.hdr)

/-! ### Jobs -/

/-- The jobs of a unit: at most 64, or 16 in a memory core (R142, R176). -/
def jobCap (cl : Nat) : Nat := if cl < 256 then 64 else 16
/-- The slot a new job takes: the lowest free one of its unit (R143; DESIGN CHOICE, log 59). -/
def jobFree (l : List Job) : Nat :=
  match (List.range 64).find? (fun i => !l.any (fun j => j.slot == i)) with
  | some i => i
  | none => 64

/-- A job of the current context, with nothing but its place. -/
def blankJob (s : State) (k : JKind) (slot : Nat) : Job :=
  let c := s.core
  { slot := slot, kind := k, st := .queued, src := 0, dst := 0, len := 0, fill := 0, w := 0, kw := 0, sx := 0, dx := 0, cg := 0, xp := 0,
    x0 := 0, xn := 0, dest := 0, hdr := 0, sw := 0, beat := 0, order := 0, core := c.id, proc := c.slot.proc, kern := c.slot.kern,
    ctxid := ctxOf c.hdr, hv := c.hvNow, owner := c.id, batch := (chainNow s).opened, xl := Xlat.none, rlt := [], phase := none,
    msgDue := false }

/-- The current context owns the job (R377). -/
def mine (s : State) (j : Job) : Bool :=
  let c := s.core
  j.owner == c.id && j.hv == c.hvNow && j.kern == c.slot.kern && j.ctxid == ctxOf c.hdr

/-- Every job of the package. -/
def allJobs (s : State) : List Job := s.clusters.flatMap (fun c => c.jobs)

/-- A group-table index in a membership register (R132). -/
def grpIndex (w : Word) : Nat := w.toNat % 256

/-- The partition number of the current core. -/
def partNow (s : State) : Nat :=
  match partOf s s.core.id with
  | some p => p.id
  | none => 0

/-- The barrier phase that a job counts into: that of the core's next arrival, which is the one after the phase where
the core has arrived already (R166, R187). -/
def phaseOf (s : State) (v : Word) : Option (Nat × Nat) :=
  let g := grpIndex ((s.core.grp[v.toNat / 2 % 4]?).getD 0)
  let p := (barOf s (partNow s) g).phase
  if v.getLsbD 0 then some (g, if s.core.barArr.contains (g, p) then p + 1 else p) else none

/-- Lanes of the job descriptor that a kind uses (R165, R166). -/
def cpyMasks (k : CpyKind) : List Nat :=
  let a20 := 2 ^ 20 - 1
  match k with
  | .fill => [0, 0, all32, a20, 2 ^ 24 - 1, all32, 0, 0, 0, 0, 0, 0, 7, 0, 0, 0]
  | .slide => [all32, a20, all32, a20, 0, 0, all32, 0xFFFF00FF, all32, all32, 65535, 0, 7, 0, 0, 0]
  | _ => [all32, a20, all32, a20, 2 ^ 24 - 1, 0, 0, 0, 0, 0, 0, 0, 7, 0, 0, 0]
/-- Alignment of SRC and DST, and of LEN (R166). -/
def cpyAlign : CpyKind → Nat
  | .redi32 => 4 | .redf32 => 4 | .redb16 => 2 | .fill => 4 | _ => 1
/-- A reduce kind. -/
def isReduce : CpyKind → Bool
  | .redi32 => true | .redf32 => true | .redb16 => true | _ => false

/-- Lane 12 with PH = 1 is malformed (R166). -/
def phaseBad (s : State) (v : Word) : Bool :=
  v.getLsbD 0 && (s.core.hvNow || isMem s.core.id ||
    (let g := (s.core.grp[v.toNat / 2 % 4]?).getD 0
     !g.getLsbD 31 || (groupOf s (grpIndex g)).isEmpty))

/-- A descriptor as a job (R165). -/
def cpyJob (s : State) (k : CpyKind) (r : Row) (slot : Nat) : Job :=
  let l6 := (lane r 6).toNat
  let l7 := (lane r 7).toNat
  let j := { blankJob s (.cpy k) slot with
             src := addr52 r 0, dst := addr52 r 2, fill := lane r 5, w := l6 % 65536, kw := l6 / 65536 % 256, sx := l6 / 2 ^ 24,
             dx := l7 % 256, cg := l7 / 65536, xp := (lane r 8).toNat, x0 := (lane r 9).toInt, xn := (lane r 10).toNat % 65536 }
  { j with len := match k with
      | .slide => j.w * j.kw * j.cg
      | _ => (lane r 4).toNat }

/-- The offending lane of a malformed descriptor (R166, R148). -/
def cpyBad (s : State) (k : CpyKind) (r : Row) (j : Job) : Option Nat :=
  let named : List (Nat × Bool) :=
    match k with
    | .slide => [(6, j.w == 0 || j.kw == 0 || j.sx == 0 || decide (2 ^ 24 ≤ j.len)), (7, j.dx == 0 || j.cg == 0), (10, j.xn == 0)]
    | _ => [(4, (lane r 4).toNat % cpyAlign k != 0)]
  let bad := reservedLanes r (cpyMasks k) ++ named ++ [(12, phaseBad s (lane r 12))]
  firstLane ((List.range 16).map (fun i => (i, bad.any (fun e => e.1 == i && e.2))))

/-- Bytes of a job's source range (R168). -/
def cpyLen (k : CpyKind) (j : Job) : Nat :=
  match k with
  | .slide => (j.xn - 1) * j.xp + j.cg
  | .fill => 0
  | _ => j.len
/-- How a job touches its destination (R167). -/
def cpyDst (k : CpyKind) : AKind := if isReduce k then .rmw else .store

/-- The first page of a job's ranges that the L1 TLB does not hold (R169). -/
def cpyMiss (s : State) (k : CpyKind) (j : Job) : Option Nat :=
  let n := cpyLen k j
  (if n = 0 then none else rangeMiss s (who s) .load (n / 4096 + 2) j.src n).or (rangeMiss s (who s) (cpyDst k) (j.len / 4096 + 2) j.dst j.len)

/-- The pieces of a job's source, if it has one, and of its destination. -/
def cpySrcPieces (s : State) (k : CpyKind) (j : Job) : List (Nat × Nat) :=
  let n := cpyLen k j
  if n = 0 then [] else rangePieces s (who s) .load (n / 4096 + 2) j.src n
def cpyDstPieces (s : State) (k : CpyKind) (j : Job) : List (Nat × Nat) := rangePieces s (who s) (cpyDst k) (j.len / 4096 + 2) j.dst j.len

/-- The ranges that a job registers: its source, if it has one, and its destination (R140, R168, R169). -/
def cpyRegs (s : State) (k : CpyKind) (j : Job) : List Reg :=
  regsOf s (cpySrcPieces s k j) false true ++ regsOf s (cpyDstPieces s k j) true true

/-- Queues a job in its unit (R142, R169). -/
def enqueue (s : State) (j : Job) (regs : List Reg) : State :=
  let (s1, es) := rltAdd regs s
  let (o, s2) := newOrder s1 (clIdx s.core.id)
  modCl s2 (clIdx s.core.id) (fun c => { c with jobs := c.jobs ++ [{ j with order := o, rlt := es }] })

/-- The job identifier (R143). -/
def jobWord (j : Job) : Word := BitVec.ofNat 32 (j.batch <<< 16 ||| j.slot)

/-- `cpy` on its descriptor row (R165-R169). Where SRC and DST are both misaligned, AL reports SRC (DESIGN CHOICE, log 74). It waits at issue for the translation of every page of its ranges, for
a place and entries, and for its own context's held stores to the bytes it reads (R188; log 63); one to bytes that it only
writes may still be held, and is performed after the job has begun (DESIGN CHOICE, log 63). -/
def startCopy (k : CpyKind) (r : Row) (s : State) : CRes :=
  let unit := getCl s (clIdx s.core.id)
  let j := cpyJob s k r (jobFree unit.jobs)
  match cpyBad s k r j with
  | some i => malformed s r i
  | none =>
    let al := cpyAlign k
    if j.src % al ≠ 0 then .trap s (mkTrap cAL 0 j.src)
    else if j.dst % al ≠ 0 then .trap s (mkTrap cAL infoWRO j.dst)
    else if acqHeld s || jobCap unit.id ≤ unit.jobs.length then .wait outside s
    else if j.len = 0 then .go s (laneRow (jobWord j)) none
    else
      match cpyMiss s k j with
      | some page => waitPage s page
      | none =>
      let regs := cpyRegs s k j
      if storeHeld s (cpySrcPieces s k j ++ (if isReduce k then cpyDstPieces s k j else [])) || !rltRoom s regs then .wait outside s
      else
        .out (enqueue s { j with phase := phaseOf s (lane r 12) } regs) (laneRow (jobWord j))

def execCpy (k : CpyKind) (a b : Opnd) (s : State) : Out :=
  control (.cpy k a b) { srcs := [a], dst := some b } (fun rs s => startCopy k (nth rs 0) s) s

/-- `cpseal` (R171, R377). -/
def execCpseal (a : Opnd) (s : State) : Out :=
  control (.cpseal a) { dst := some a } (fun _ s =>
    let h := chainNow s
    let h' := { h with opened := h.opened % 65535 + 1, lastSealed := h.opened }
    .go (s.modS (fun x => setChain x h')) (laneRow (BitVec.ofNat 32 h.opened)) none) s

/-! ### What a job waits behind (R141, R169, R170) -/

/-- The entries of earlier requests that lock what the job would do. -/
def blockers (s : State) (j : Job) : List (Nat × Nat) :=
  j.rlt.flatMap (fun p =>
    let t := (getCl s p.1).rlt
    match t.find? (fun e => e.idx == p.2) with
    | none => []
    | some e =>
      (t.filter (fun f => decide (f.order < e.order) && !j.rlt.contains (p.1, f.idx) && spansMeet f.spans e.spans &&
        (if e.lockR then f.lockW else f.lockR))).map (fun f => (p.1, f.idx)))

/-- The job is FAULTED. -/
def Job.isFaulted (j : Job) : Bool := match j.st with
  | .faulted _ _ => true
  | _ => false

/-- The job waits behind an entry of a FAULTED job that `of` admits, or of one that does; n bounds the chain
(R170). -/
def blocked (s : State) (of : Job → Bool) : Nat → Job → Bool
  | 0, _ => false
  | n + 1, j =>
    j.st == .queued &&
      (blockers s j).any (fun p => (allJobs s).any (fun k => k.rlt.contains p && ((k.isFaulted && of k) || blocked s of n k)))

/-- Completed jobs have left their unit; a job that is still there is settled when FAULTED or BLOCKED (R172). -/
def settled (s : State) (j : Job) : Bool := j.isFaulted || blocked s (fun _ => true) 64 j

/-- Applies f to the jobs that p admits, in every unit. -/
def modJobs (s : State) (p : Job → Bool) (f : Job → Job) : State :=
  mapCls s (fun c => { c with jobs := c.jobs.map (fun j => if p j then f j else j) })

/-- An instruction that executes again after its CPF trap first restarts every FAULTED job that it waits for (R173). -/
def restart (s : State) (p : Job → Bool) : State :=
  if s.core.slot.retry then
    modJobs (s.modS (fun x => { x with retry := false })) (fun j => p j && j.isFaulted) (fun j => { j with st := .queued })
  else s

/-- The job of the lowest slot. -/
def lowestSlot : List Job → Option Job
  | [] => none
  | j :: r => match lowestSlot r with
    | some k => if k.slot < j.slot then some k else some j
    | none => some j

/-- CPF for the FAULTED jobs of a list (R173). -/
def cpfTrap (s : State) (l : List Job) : CRes :=
  match lowestSlot (l.filter Job.isFaulted) with
  | some j =>
    let f := match j.st with
      | .faulted k a => (k, a)
      | _ => (0, 0)
    .trap s (mkTrap cCPF (j.slot <<< 9 ||| f.1 <<< 15) f.2)
  | none => .wait outside s

/-- The status word of `cpwait` (R172): of a batch number beyond 16 bits its low 16 bits (DESIGN CHOICE, log 77). -/
def waitWord (batch st : Nat) : Row := laneRow (BitVec.ofNat 32 ((batch % 65536) <<< 16 ||| st))

/-- `cpwait` for one batch, or for all sealed ones (R172, R173). -/
def waitBatch (all : Bool) (b : Nat) (s : State) : CRes :=
  let h := chainNow s
  if !all && b == h.opened then .go s (waitWord b 2) none
  else
    let p (j : Job) : Bool := mine s j && (if all then j.batch != h.opened else j.batch == b)
    let s1 := restart s p
    let l := (allJobs s1).filter p
    if !l.all (settled s1) then .wait outside s1
    else if l.any Job.isFaulted then cpfTrap s1 l
    else
      let covered (n : Nat) : Bool := if all then n != h.opened else n == b
      let rev := h.revoked.any covered
      let s2 := if rev then s1.modS (fun x => setChain x { chainNow s1 with revoked := h.revoked.filter (fun n => !covered n) }) else s1
      .go s2 (waitWord (if all then h.lastSealed else b) (if rev then 1 else 0)) none

def execCpwait (all : Bool) (a b : Opnd) (s : State) : Out :=
  control (.cpwait all a b) { srcs := if all then [] else [b], dst := some a } (fun rs s =>
    waitBatch all (lane (nth rs 0) 0).toNat s) s

/-! ### Fences (R158, R159) -/

/-- A load or atomic of the current slot has not been performed: a range lock holds it (R141). -/
def loadsPending (s : State) : Bool :=
  s.held.any (fun h => ownHeld s h && h.store.isNone)

/-- Engine work of the current context, copy and transfer jobs apart (R159). Gang operations are an owner slot's. -/
def enginesBusy (s : State) : Bool :=
  let c := s.core
  let k := c.slot.kern
  let ctx := ctxOf c.hdr
  (allCores s).any (fun d => d.strms.any (fun t => t.owner == c.id && t.kern == k && t.hv == c.hvNow && t.ctxid == ctx)) ||
  s.clusters.any (fun l => l.imgs.any (fun i => i.core == c.id && i.kern == k && i.hv == c.hvNow && i.ctxid == ctx) ||
    (l.id == clIdx c.id && !c.hvNow && (l.posts.any (fun p => p.core == coreOf c.id && p.kern == k && p.ctxid == ctx) ||
      l.ops.any (fun o => o.members.any (fun m => m.core == coreOf c.id && m.kern == k && m.ctxid == ctx)))))

/-- The wait of a fence (R158), and of one with E (R159). -/
def waitFence (kind : FKind) (e : Bool) (s : State) : CRes :=
  let x := s.core.slot
  if kind == .acq then (if loadsPending s then .wait outside s else .go s 0 none)
  else
    let s1 := if e then restart s (mine s) else s
    let l := if e then (allJobs s1).filter (mine s1) else []
    let free (j : Job) : Bool := j.isFaulted || blocked s1 (mine s1) 64 j
    if loadsPending s1 || !x.pend.isEmpty || (e && (enginesBusy s1 || !l.all free)) then .wait outside s1
    else if l.any Job.isFaulted then cpfTrap s1 l
    else .go s1 0 none

def execFence (kind : FKind) (scp : Scp) (e : Bool) (s : State) : Out :=
  control (.fence kind scp e) {} (fun _ s => waitFence kind e s) s

/-! ### Steps of the copy unit -/

/-- Nothing holds the job back from its first beat (R141, R169). -/
def startable (s : State) (j : Job) : Bool := j.st == .queued && (blockers s j).isEmpty

/-- COPY_JOB_START: the first job of the queue that nothing holds back starts; a copy unit runs at most eight
(R142, R169). -/
def execCopyJobStart (cl j : Nat) (s : State) : Out :=
  let u := getCl s cl
  let running := (u.jobs.filter (fun k => k.st == .running)).length
  match u.jobs.find? (startable s) with
  | some k =>
    if k.slot ≠ j || (cl < 256 && 8 ≤ running) then .next s
    else .next (setCl s { u with jobs := u.jobs.map (fun i => if i.slot = j then { i with st := .running } else i) })
  | none => .next s

/-- The fault kind of R170 for an address that does not lead anywhere; none where the beat waits for a walk or the host. -/
def faultKind : Tr → Option Nat
  | .ok _ => none
  | .ext _ => none
  | .miss _ => none
  | .extern => some 4
  | .addr info => if info &&& infoWRO ≠ 0 then some 3 else if info &&& (infoPERM ||| infoFMT) ≠ 0 then some 2 else some 1

/-- Who a job's beats are made for. -/
def Job.who (j : Job) : Who := ⟨j.core, j.hv, j.proc⟩

/-- The places of n bytes for a beat: a copy's destination is never an instruction store (R133, R139, R166). -/
def jobPlaces (s : State) (j : Job) (k : AKind) (a n : Nat) : Except (Nat × Tr) (List (Place × Nat)) :=
  if k.writes && decide (0x1C00000 ≤ a) && decide (a < 0x1C00000 + pcLimit j.core) then .error (a, .addr infoWRO)
  else beatPlaces j.xl s j.who k 4 a n

/-- Bytes of places, for the job's kernel. -/
def readPlaces (s : State) (j : Job) (ps : List (Place × Nat)) : List Byte := ps.flatMap (fun p => kRead s j.kern p.1 p.2)
/-- Writes bytes to places in order. -/
def writePlaces (j : Job) : List (Place × Nat) → List Byte → State → State
  | [], _, s => s
  | p :: ps, bs, s => writePlaces j ps (bs.drop p.2) (kWrite s j.kern j.core j.hv j.ctxid j.proc p.1 (bs.take p.2))

/-- The address of byte i of a slide's output, none where the column lies outside the image (R168). -/
def slideAddr (j : Job) (i : Nat) : Option Nat :=
  let c := i % j.cg
  let t := i / j.cg % j.kw
  let o := i / (j.cg * j.kw)
  let x : Int := j.x0 + (o : Int) * j.sx + (t : Int) * j.dx
  if 0 ≤ x ∧ x < j.xn then some (j.src + x.toNat * j.xp + c) else none

/-- The source bytes of a slide's beat, byte by byte. -/
def slideBytes (s : State) (j : Job) : List Nat → Except (Nat × Tr) (List Byte)
  | [] => .ok []
  | i :: is =>
    match slideAddr j i with
    | none => (slideBytes s j is).map (fun r => 0 :: r)
    | some a =>
      match resolveX j.xl s j.who .load a with
      | .ok p => (slideBytes s j is).map (fun r => kRead s j.kern p 1 ++ r)
      | t => .error (a, t)

/-- The source bytes of a copy's beat (R167). -/
def cpySource (s : State) (j : Job) (k : CpyKind) (b n : Nat) : Except (Nat × Tr) (List Byte) :=
  match k with
  | .fill => .ok ((List.range n).map (fun i => j.fill.extractLsb' (8 * ((b + i) % 4)) 8))
  | .slide => slideBytes s j ((List.range n).map (fun i => b + i))
  | _ => (jobPlaces s j .load (j.src + b) n).map (readPlaces s j)

/-- Element-wise reduction of old and new bytes, elements of n bytes (R167). -/
def reduceBytes (n : Nat) (f : Nat → Nat → Nat) (old new : List Byte) : List Byte :=
  (List.range (old.length / n)).flatMap (fun e =>
    natBytes (f (bytesNat ((old.drop (n * e)).take n)) (bytesNat ((new.drop (n * e)).take n))) n)
def combine (k : CpyKind) (old new : List Byte) : List Byte :=
  match k with
  | .redi32 => reduceBytes 4 (fun x y => (x + y) % 2 ^ 32) old new
  | .redf32 => reduceBytes 4 (fun x y => (fAdd .f32 .rne x y).1) old new
  | .redb16 => reduceBytes 2 (fun x y => (fAdd .b16 .rne x y).1) old new
  | _ => new

/-- The beat that a job's destination expects next (R366). -/
def expected (s : State) (j : Job) : Nat :=
  ((s.ports.find? (fun p => p.unit == clIdx j.core && p.order == j.order)).map Port.next).getD 0
/-- The destination of a job has accepted its beat (R366). -/
def accepted (s : State) (j : Job) : State :=
  { s with ports := s.ports.filter (fun p => !(p.unit == clIdx j.core && p.order == j.order)) ++ [⟨clIdx j.core, j.order, j.beat + 1⟩] }

/-- One beat of a copy: the state it leaves, or where it faults (R167, R170); the destination of a reduction discards a beat
that it has accepted before (R366). -/
def cpyBeat (s : State) (j : Job) (k : CpyKind) : Except (Nat × Tr) State :=
  let b := 64 * j.beat
  let n := min 64 (j.len - b)
  match cpySource s j k b n with
  | .error e => .error e
  | .ok src =>
    match jobPlaces s j (if isReduce k then .rmw else .store) (j.dst + b) n with
    | .error e => .error e
    | .ok ps =>
      if !isReduce k then .ok (writePlaces j ps src s)
      else if j.beat < expected s j then .ok s
      else .ok (writePlaces j ps (combine k (readPlaces s j ps) src) (accepted s j))

/-- Replaces the job of a slot of a unit. -/
def setJob (s : State) (cl : Nat) (j : Job) : State :=
  modCl s cl (fun u => { u with jobs := u.jobs.map (fun k => if k.slot = j.slot then j else k) })
/-- A job leaves its unit, its entries freed (R140). -/
def dropJob (s : State) (cl : Nat) (j : Job) : State :=
  let s := { s with ports := s.ports.filter (fun p => !(p.unit == cl && p.order == j.order)) }
  rltDrop (modCl s cl (fun u => { u with jobs := u.jobs.filter (fun k => k.slot != j.slot) })) j.rlt

/-- A beat could not be performed: the job is FAULTED, or it waits for a walk or the host (R170, R320, R325, R326). -/
def beatFault (s : State) (cl : Nat) (j : Job) (e : Nat × Tr) : State :=
  match e.2 with
  | .miss page =>
    setJob (askPage s { core := j.core, asker := .job j.slot, proc := j.proc, page := page }) cl { j with xl := { j.xl with page := some page } }
  | .ext r =>
    match j.xl.ebad.find? (fun f => f.1 == r.pasid && f.2.1 == r.page) with
    | some f => setJob s cl { j with st := .faulted f.2.2 e.1, xl := Xlat.none }
    | none => setJob (askExt s j.core { r with asker := .job j.slot, kern := j.kern }) cl { j with xl := { j.xl with page := some r.page } }
  | t =>
    match faultKind t with
    | some k => setJob s cl { j with st := .faulted k e.1, xl := Xlat.none }
    | none => s

/-- A beat's accesses make the ATC entries that they use the newest (R325). -/
def touchRange (x : Xlat) (s : State) (w : Who) (a n : Nat) : State := touchAtc x (touchAtc x s w a) w (a + n - 1)

/-- The lines of a beat's source lie in a slice whose refresh window is open (R138). -/
def sliceWaits (s : State) (j : Job) : Bool :=
  (getCore s j.core).inRefresh && decide (0x1000000 ≤ j.src) && decide (j.src < 0x1A00000)

/-- The job can make a beat: it runs, and owes no more than its read-back (R332). -/
def Job.beats (j : Job) : Bool := j.st == .running && (!j.msgDue || j.kind == .xst)

/-- The running job whose turn the next beat is: beats of running jobs go round-robin (R142). -/
def nextBeat (u : Cluster) : Option Job :=
  (lowestSlot (u.jobs.filter (fun j => j.beats && decide (u.rr < j.slot)))).or (lowestSlot (u.jobs.filter Job.beats))

/-- The first address that a beat reads (R167, R168). -/
def beatAddr (j : Job) (k : CpyKind) : Nat :=
  let b := 64 * j.beat
  match k with
  | .slide => ((List.range (min 64 (j.len - b))).findSome? (fun i => slideAddr j (b + i))).getD j.src
  | _ => j.src + b

/-- The target addresses that the first and the last byte of a job's next beat lead to. -/
def jobTargets (s : State) (j : Job) : List Nat :=
  let n := min 64 (j.len - 64 * j.beat)
  let one (k : AKind) (a : Nat) : List Nat := match resolveX j.xl s j.who k a with
    | .ok p => [p.key]
    | _ => []
  let at_ (k : AKind) (a : Nat) : List Nat := one k a ++ one k (a + n - 1)
  match j.kind with
  | .xld => at_ .load (j.dst + 64 * j.beat)
  | .xst => at_ .store (j.dst + 64 * j.beat)
  | .cpy k => (if k == .fill then [] else at_ .load (beatAddr j k)) ++ at_ (cpyDst k) (j.dst + 64 * j.beat)
  | _ => []

/-- The links to each target of a job's next beat. -/
def jobLinks (s : State) (j : Job) : List (List Nat) := (jobTargets s j).map (linksOf s)
/-- A job's beat waits for links; where none leads to a target, its kernel stops (R365). -/
def jobHeld (s : State) (j : Job) : State := linkStop s (jobLinks s j) j.kern j.core j.hv j.ctxid j.proc

/-- The source or the destination of a copy's beat lies beyond its cluster: its lines cross the network (R351; log 23). -/
def beatLeaves (s : State) (j : Job) : Bool := (jobTargets s j).any (awayFrom s j.core)

/-- COPY_BEAT: the unit performs the next beat of the running job whose turn it is, or stops it FAULTED before the
beat; the last beat completes it (R142, R167, R170). A job that waits lets its turn pass. -/
def execCopyBeat (cl i : Nat) (ue : Bool) (s : State) : Out :=
  let u := getCl s cl
  match nextBeat u with
  | none => .next s
  | some j =>
    match j.kind with
    | .cpy k =>
      if j.slot ≠ i then .next s
      else
        let s := setCl s { u with rr := i }
        if sliceWaits s j && k != .fill then .next s
        else if (jobLinks s j).any (linksWait s) then .next (jobHeld s j)
        else if ue && k != .fill then .next (setJob s cl { j with st := .faulted 5 (beatAddr j k) })
        else
          match cpyBeat s j k with
          | .error e => .next (beatFault s cl j e)
          | .ok s2 =>
            let s3 := touchRange j.xl (touchRange j.xl s2 j.who (beatAddr j k) (min 64 (j.len - 64 * j.beat))) j.who (j.dst + 64 * j.beat) (min 64 (j.len - 64 * j.beat))
            let s4 := chargeN (if k == .fill then 1 else 2) s3 j.core .sram j.ctxid j.proc j.kern
            let s' := if beatLeaves s j then charge s4 j.core .net j.ctxid j.proc j.kern else s4
            if j.len ≤ 64 * (j.beat + 1) then .next (dropJob s' cl j)
            else .next (setJob s' cl { j with beat := j.beat + 1, xl := Xlat.none })
    | _ => .next s

end Sys2Proof.Machine
end

