-- ==== Sys2Proof/Machine/Groups.lean ====
section
/-! DEFINITION. Dependence counters (R199, R216-R218, R299), group barriers (R187, R213-R215), and the answers of other
packages (R204). -/

namespace Sys2Proof.Machine

/-! ### Dependence counters -/

/-- The cluster and entry of a DCT reference (R199). -/
def dctCl (w : Word) : Nat := 64 * dieOf w + clOf w
def dctEntry (w : Word) : Nat := w.toNat % 1024
/-- The entry lies in the range that the partition description gives a kernel (R199); work that no kernel issued may
name an entry of any of the partition's ranges (log 65). -/
def dctHas (s : State) (k : KRef) (e : Nat) : Bool :=
  match s.kerns.find? (fun r => r.ref == k) with
  | some r => decide (r.dctLo ≤ e) && decide (e ≤ r.dctHi)
  | none => (partOf s s.core.id).any (fun p => p.dct.any (fun r => decide (r.1 ≤ e) && decide (e ≤ r.2)))
/-- The reference is malformed: a reserved bit, a cluster of which the issuing core's partition lists no core, here or in
another package, an entry outside the range of the issuing kernel (R1, R199). -/
def dctBad (s : State) (w : Word) : Bool :=
  w.extractLsb' 30 2 != 0 || w.extractLsb' 10 6 != 0 || !dctHas s s.core.slot.kern (dctEntry w) ||
  !(List.range 8).any (fun i => coreOk s (coreWord (pkgOf w) (dctCl w) i))

/-- The address word of a cluster with CORE = 0 (R200). -/
def dctWord (s : State) (cl : Nat) : Word := coreWord (ownPkg s) cl 0
/-- The reference of an entry. -/
def dctRef (s : State) (cl e : Nat) : Word := dctWord s cl ||| BitVec.ofNat 32 e

/-- The held message of an entry starts on its way from the DCT's cluster; it waits at its source until there
is room (R200, R204, R217). -/
def releaseHeld (s : State) (cl e : Nat) (hdr dest : Word) (row : Option Row) (k : KRef) (ctx : Nat) : State :=
  let m : Msg := { hdr := hdr, rows := row.toList, dest := [dest], srcw := dctWord s cl, kind := 4, addr := 0, i0 := 0, i1 := 0, i2 := 0,
                   stab := 0, dent := e, hvSrc := false, kern := k, ctxid := ctx, stamp := 0, img := none }
  { s with net := s.net ++ [m] }

/-- Sets or frees an entry of a DCT. -/
def setDct (s : State) (cl e : Nat) (v : Option DctEnt) : State :=
  modCl s cl (fun c => { c with dct := match v with
    | some x => put c.dct e x
    | none => drop' c.dct e })

/-- A decrement arrives at its entry (R217): one of a stale generation is discarded, one for another package has left this
one (log 64). -/
def decrement (s : State) (d : Dec) : State :=
  if d.pkg != ownPkg s || !genLive s d.kern then s
  else
    let stop (k : KRef) (ctx : Nat) : State :=
      kilnStop (setDct s d.cl d.entry (some (.fault k))) k d.core d.hv ctx (procOfKern s k) cDCTF 0 (dctRef s d.cl d.entry).toNat
    let ent : Option DctEnt := ((getCl s d.cl).dct.find? (fun p => p.1 == d.entry)).map Prod.snd
    match ent with
    | some (.armed n hdr dest row k ctx) =>
      if k.queue ≠ d.kern.queue ∨ k.gen ≠ d.kern.gen then s
      else if n ≤ 1 then releaseHeld (setDct s d.cl d.entry none) d.cl d.entry hdr dest row k ctx
      else setDct s d.cl d.entry (some (.armed (n - 1) hdr dest row k ctx))
    | some (.fault k) => stop k d.ctxid
    | none => stop d.kern d.ctxid

/-- The decrements of one context, as R177 names it by core, slot and CTXID, at a DCT that are still under way are performed, in
order (R299). -/
def drainDecs (s : State) (cl : Nat) (w : Word) (hv : Bool) (ctx : Nat) : State :=
  let p (d : Dec) : Bool := d.pkg == ownPkg s && d.cl == cl && d.core == w && d.hv == hv && d.ctxid == ctx
  (s.decs.filter p).foldl decrement { s with decs := s.decs.filter (fun d => !p d) }

/-- `dcarm` on its operand row: the checks of R219 in the order of their reasons, then the arming (R217). -/
def armEntry (b : Opnd) (a : Opnd) (r : Row) (s : State) : CRes :=
  let c := s.core
  let ref := lane r 0
  let cnt := (lane r 1).toNat
  let hdr := lane r 2
  let dest := lane r 3
  let n := hdrRows hdr
  let s := drainDecs s (dctCl ref) c.id c.hvNow (ctxOf c.hdr)
  let free := !(getCl s (dctCl ref)).dct.any (fun p => p.1 == dctEntry ref)
  if hdrBad hdr then laneTrap s 1 r 2
  else if !destOk s dest then laneTrap s 2 r 3
  else if n == 1 && !payloadOk c.slot b 1 then msgTrap s 3 (codeOf b) n
  else if dctBad s ref || pkgOf ref != ownPkg s || dctCl ref != clIdx c.id || isMem c.id then laneTrap s 6 r 0
  else if 65536 ≤ cnt then laneTrap s 6 r 1
  else if !free then laneTrap s 6 r 0
  else if 1 < n then laneTrap s 7 r 2
  else
    match payloadWait c b n (seenBy a b) with
    | 0 =>
      if releaseWaits s .pod then .wait outside s
      else
        let row := (payload c b n (seenBy a b)).head?
        let s1 := s.modC (fun c => popAll c (List.replicate n b))
        let k := c.slot.kern
        let ctx := ctxOf c.hdr
        if cnt = 0 then .out (releaseHeld s1 (dctCl ref) (dctEntry ref) hdr dest row k ctx) 0
        else .out (setDct s1 (dctCl ref) (dctEntry ref) (some (.armed cnt hdr dest row k ctx))) 0
    | k => .wait k s

def execDcarm (a b : Opnd) (s : State) : Out :=
  control (.dcarm a b) { srcs := [a] } (fun rs s => armEntry b a (nth rs 0) s) s

/-- `dcdec`: the decrement is sent, and the instruction does not wait for it (R217); where no link leads to its package, its
kernel stops (R365). -/
def execDcdec (a : Opnd) (s : State) : Out :=
  control (.dcdec a) { srcs := [a] } (fun rs s =>
    let c := s.core
    let ref := lane (nth rs 0) 0
    if dctBad s ref then laneTrap s 6 (nth rs 0) 0
    else if releaseWaits s .pod then .wait outside s
    else
      let d : Dec := { pkg := pkgOf ref, cl := dctCl ref, entry := dctEntry ref, core := c.id, ctxid := ctxOf c.hdr, kern := c.slot.kern, hv := c.hvNow }
      .out (linkStop { s with decs := s.decs ++ [d] } [linksTo s d.pkg] d.kern c.id c.hvNow d.ctxid c.slot.proc) 0) s

/-- DCT_DECREMENT: a decrement arrives, after every earlier one of its context at that DCT, and once a link carries it (R217, R299,
R365). -/
def execDctDecrement (i : Nat) (s : State) : Out :=
  match s.decs[i]? with
  | none => .next s
  | some d =>
    if (s.decs.take i).any (fun e => e.pkg == d.pkg && e.cl == d.cl && e.core == d.core && e.hv == d.hv && e.ctxid == d.ctxid) ||
       linksWait s (linksTo s d.pkg) then .next s
    else .next (decrement { s with decs := s.decs.eraseIdx i } d)

/-! ### Barriers -/

/-- `gbar` once its membership is good: it arrives once, and returns when the phase has completed (R187, R214,
R215). The clusters of a phase in progress have one clock (R359). -/
def waitBarrier (grp : Nat) (s : State) : CRes :=
  let c := s.core
  let b := barOf s (partNow s) grp
  match c.barArr.find? (fun e => e.1 == grp) with
  | some e =>
    if e.2 < b.phase then .out (s.modC (fun c => { c with barArr := c.barArr.filter (fun e => e.1 != grp) })) 0
    else .wait outside s
  | none =>
    if releaseWaits s (narrowest c.id (barMembers s b)) then .wait outside s
    else
      .wait outside (joinDomain (setBar (s.modC (fun c => { c with barArr := c.barArr ++ [(grp, b.phase)] })) { b with arrived := b.arrived ++ [c.id] }) (clIdx c.id))

def execGbar (k : BitVec 2) (s : State) : Out :=
  control (.gbar k) {} (fun _ s =>
    let g := (s.core.grp[k.toNat]?).getD 0
    if s.core.hvNow then msgTrap s 5 0 k.toNat
    else if !g.getLsbD 31 || (groupOf s (grpIndex g)).isEmpty then msgTrap s 5 g.toNat k.toNat
    else waitBarrier (grpIndex g) s) s

/-- BARRIER_PHASE_COMPLETE: every member of a group has arrived and every copy counted into the phase has
settled, so the phase completes (R187). A shadow core that a paired kernel's fill lists is a member whose arrival never comes
(DESIGN CHOICE, log 27). A change of clock that was deferred for the phase is made now (R357, R359). -/
def execBarrierPhaseComplete (grp : Nat) (s : State) : Out :=
  let ready (b : Bar) : Bool :=
    let members := match partById s b.part with
      | some p => look [] p.groups b.grp
      | none => []
    let counted := (s.clusters.filter (fun c => (partOfCl s c.id).any (fun p => p.id == b.part))).flatMap (fun c =>
      c.jobs.filter (fun j => j.phase == some (b.grp, b.phase)))
    b.grp == grp && !members.isEmpty && members.all (fun w => b.arrived.contains w) && counted.all (settled s)
  let done := s.bars.filter ready
  .next (done.foldl (fun t b => (barClusters s b).foldl planDomain t)
    { s with bars := s.bars.map (fun b => if ready b then { b with phase := b.phase + 1, arrived := [] } else b) })

/-! ### Answers of other packages (R204, R286) -/

/-- A member of a group in another package has arrived at its barrier, whose phase is then in progress here too (R187, R213,
R214, R359). -/
def arriveAt (part grp : Nat) (w : Word) (s : State) : State :=
  let b := barOf s part grp
  if pkgOf w != ownPkg s && (partById s part).any (fun p => (look [] p.groups grp).contains w) && !b.arrived.contains w then
    (barClusters s b).foldl joinDomain (setBar s { b with arrived := b.arrived ++ [w] })
  else s

/-- SEND_ANSWER: the answer of another package reaches the core's waiting `send`, or the source of another message;
or the package tells that the work of an accepted message has ended, or that its core has arrived at a barrier (R187, R204,
R286). While no link to the package works, nothing comes from it (R365). -/
def execSendAnswer (w : Word) (a : SendAns) (s : State) : Out :=
  let c := getCore s w
  let waits (m : Msg) : Bool := (m.farLinks s).any (linksWait s)
  match a with
  | .finished =>
    match s.remote.find? (fun m => m.srcw == w && !waits m) with
    | some m => .next { s with remote := s.remote.erase m }
    | none => .next s
  | .arrived part grp => if linksWait s (linksTo s (pkgOf w)) then .next s else .next (arriveAt part grp w s)
  | _ =>
    match c.slots.findSome? (fun y => y.sendDue.map (fun d => (y.sid, d))) with
    | some (sid, d) => if waits d.msg then .next s else .next (answerSend c sid d a s)
    | none =>
      match s.outbound.find? (fun m => m.srcw == w) with
      | some m => if startHeld s m || waits m then .next s else .next (answerSource m a s)
      | none => .next s

end Sys2Proof.Machine
end

