-- ==== Sys2Proof/Machine/Harvest.lean ====
section
/-! DEFINITION. Lending, revocation, parking and resumption (R301-R312). A granule marked scrub-on-read reads as
zero until it is written (R310): the model zeroes the lent pages where the manual marks them. -/

namespace Sys2Proof.Machine

/-- The lent footprint of a core (R302). -/
def lentFoot (c : Core) : Foot := ⟨lendRB c.lend, lendRN c.lend, lendPB c.lend, lendPN c.lend⟩

/-- Zeroes rows rb to rb + rn - 1. -/
def Core.zeroRows (c : Core) (rb rn : Nat) : Core := { c with regs := c.regs.filter (fun e => decide (e.1 < rb) || decide (rb + rn ≤ e.1)) }

/-- Marks the lent pages scrub-on-read (R310). -/
def scrubPages (s : State) (w : Word) (f : Foot) : State :=
  { s with mem := memZero s.mem (scratchKey w (4096 * f.pb)) (4096 * f.pn) }

/-- Lines of the lent pages. -/
def pageSpan (w : Word) (f : Foot) : List (Nat × Nat) :=
  if f.pn = 0 then [] else [(scratchKey w (4096 * f.pb) / 64, (scratchKey w (4096 * (f.pb + f.pn)) - 1) / 64)]

/-- Some of the entries of a list lie over the spans. -/
def entriesTouch (s : State) (es : List (Nat × Nat)) (sp : List (Nat × Nat)) : Bool :=
  es.any (fun p => (getCl s p.1).rlt.any (fun e => e.idx == p.2 && spansMeet e.spans sp))

/-- Where an address of a job leads among the memories of the chip: by what its beat has been told, the TLB, or the tables as
they stand, whoever may use the page now. -/
def leadsTo (s : State) (j : Job) (a : Nat) : Option Nat :=
  let of (e : DWord) : Option Nat := if pteTgt e = 0 then some (leafTarget e a) else none
  if a < 0x2000000 then (if 0x100000 ≤ a ∧ a < 0x300000 then some (scratchKey j.core (a - 0x100000)) else none)
  else match pageX j.xl s j.who a, walk s j.proc a with
    | .leaf e, _ => of e
    | _, .leaf e => of e
    | _, _ => none

/-- Some of n bytes from a up lead to one of the spans; f bounds the pages. -/
def rangeTouches (s : State) (j : Job) (sp : List (Nat × Nat)) : Nat → Nat → Nat → Bool
  | 0, _, _ => false
  | f + 1, a, n =>
    let len := min n (4096 - a % 4096)
    n != 0 && ((leadsTo s j a).any (fun key => spansMeet [(key / 64, (key + len - 1) / 64)] sp) || rangeTouches s j sp f (a + len) (n - len))

/-- A job touches one of the spans: an entry of it lies there, or a page of its ranges leads there now, be it that it did not
translate at issue (R169, R309). -/
def jobTouches (s : State) (j : Job) (sp : List (Nat × Nat)) : Bool :=
  entriesTouch s j.rlt sp ||
  (match j.kind with
   | .cpy k => rangeTouches s j sp (cpyLen k j / 4096 + 2) j.src (cpyLen k j) || rangeTouches s j sp (j.len / 4096 + 2) j.dst j.len
   | _ => false)

/-- Aborts the jobs of the core's harvest contexts that touch a lent page, and cancels their streams, whose beats leave their
channels and what a pair keeps of them; each job's batch is marked revoked in its chain (R309, R310). -/
def abortHarvest (s : State) (w : Word) (f : Foot) : State :=
  let sp := pageSpan w f
  let hit (j : Job) : Bool := j.hv && j.owner == w && jobTouches s j sp
  let gone := (allJobs s).filter hit
  let s := gone.foldl (fun s j => dropJob s (clIdx j.core) j) s
  let mark (x : Slot) (j : Job) : Slot :=
    let h := chainOf x j.kern j.ctxid
    setChain x { h with revoked := if h.revoked.contains j.batch then h.revoked else h.revoked ++ [j.batch] }
  let s := modCore s w (fun c => c.setHarvest (gone.foldl mark c.harvest))
  let dies (t : Strm) : Bool := t.hv && t.owner == w && entriesTouch s t.rlt sp
  let clean (e : Word × Strm) (v : Vector (List Beat) 4) : Vector (List Beat) 4 :=
    v.map (fun q => q.filter (fun b => !(b.src == e.1 && b.strm == e.2.at_)))
  let one (s : State) (e : Word × Strm) : State := rltDrop (modCore s e.2.dest (fun d =>
    { d with chans := clean e d.chans, ckpt := d.ckpt.map (fun k => { k with chans := clean e k.chans }) })) e.2.rlt
  let dead := (allCores s).flatMap (fun c => (c.strms.filter dies).map (fun t => (c.id, t)))
  mapCores (dead.foldl one s) (fun c => { c with strms := c.strms.filter (fun t => !dead.contains (c.id, t)) })

/-- Takes a context off its bank, with its message slot, for the kiln's save area or another core (R312). -/
def unbank (s : State) (w : Word) (p : Parked) : State × Parked :=
  let c := getCore s w
  let ni := match p.slot.msgSlot with
    | some i => niFind c i
    | none => none
  let s := setCore s { c with parked := c.parked.filter (fun q => q.bank != p.bank) }
  let s := match p.slot.msgSlot with
    | some i => niDrop s w i
    | none => s
  (s, { p with ni := ni })

/-- No late write is pending to the bank (R312). -/
def bankSettled (c : Core) (p : Parked) : Bool := !c.late.any (fun l => match l.dest with
  | .bank b _ => b == p.bank
  | _ => false)

/-- No late write is pending to a row, the operand file or a queue of a parked context, and every store of it has been
performed: it may move (R312, R322). -/
def contextSettled (c : Core) (p : Parked) : Bool :=
  bankSettled c p && p.slot.pend.isEmpty && !c.late.any (fun l => match l.dest with
    | .ofile sid _ => sid == p.slot.sid
    | .queue id => p.slot.queues.toList.any (fun q => q.contains (.rsv id))
    | _ => false)

/-- The parked context that was parked first. -/
def oldestParked (c : Core) : Option Parked :=
  c.parked.foldl (fun (m : Option Parked) p => match m with
    | some q => if p.order < q.order then some p else some q
    | none => some p) none

/-- The context may move to its queue's save area: it is settled, and the area's capability admits it (R311, R312, R369). -/
def maySave (s : State) (c : Core) (p : Parked) : Bool := contextSettled c p && !saveFaults s p.slot.kern.queue .write

/-- A bank is free, or the oldest parked context may move to the save area (R311). -/
def bankReady (s : State) (c : Core) : Bool := decide (c.parked.length < 4) || (oldestParked c).any (maySave s c)

/-- The oldest parked context goes to the save area when no bank is free (R311). -/
def saveOldest (s : State) (w : Word) : State :=
  let c := getCore s w
  if c.parked.length < 4 then s
  else
    match oldestParked c with
    | some p =>
      let (s, q) := unbank s w p
      { s with saved := s.saved ++ [{ core := w, kern := p.slot.kern, ctx := q, place := 0 }] }
    | none => s

/-- The lowest free bank. -/
def freeBank (c : Core) : Nat := ((List.range 4).find? (fun b => !c.parked.any (fun p => p.bank == b))).getD 0

/-- A slot left by its context (R206). -/
def Slot.vacant (x : Slot) : Slot :=
  { x.goto 0 with
    active := false, halted := false, queues := Vector.replicate 4 [], toks := [], msgSlot := none, msgLive := false, aside := none,
    latch := none, sendWait := none, gang := .idle, paired := false, pend := [] }

/-- The energy of parking or resuming a context is the harvester's (R306, R352). -/
def chargeSaggar (s : State) (w : Word) (p : Parked) : State :=
  charge s w .saggar (ctxOf (look 0 p.rows p.slot.wb)) p.slot.proc p.slot.kern

/-- Parks the context of the harvest slot in a bank: its resume PCs go to its header as a pre-emption writes
them, its rows to the bank, late writes still pending follow them (R278, R310). -/
def park (s : State) (w : Word) (f : Foot) : State :=
  let s := saveOldest s w
  let c := getCore s w
  let x := unissue c.harvest
  let h := c.row x.wb
  let c := c.setRow x.wb (setLane (setLane (setLane h 2 x.pc) 3 (epcAOf x)) 4 0)
  let b := freeBank c
  let rows := (List.range f.rn).map (fun i => (f.rb + i, c.row (f.rb + i)))
  let p : Parked := { bank := b, rows := rows, slot := { x with waitC := none, waitA := none, chains := [] }, l2 := lane h 2,
                      l3 := lane h 3, l4 := lane h 4, ni := none, foot := f, order := s.timer }
  let follow (l : Late) : Late := match l.dest with
    | .row n => if f.rb ≤ n ∧ n < f.rb + f.rn then { l with dest := .bank b n } else l
    | _ => l
  let c := { c with late := c.late.map follow, parked := c.parked ++ [p], nextId := c.nextId + 1 }
  chargeSaggar (setCore s ((c.zeroRows f.rb f.rn).setHarvest { x.vacant with sid := c.nextId })) w p

/-- Zeroes the lent rows, each after the late writes pending to it (R309, R312). -/
def Core.zeroLent (c : Core) (f : Foot) : Core :=
  let drop (l : Late) : Late := match l.dest with
    | .row n => if f.rb ≤ n ∧ n < f.rb + f.rn then { l with dest := .none } else l
    | _ => l
  { c with late := c.late.map drop }.zeroRows f.rb f.rn

/-- The spots of a store that lie outside some spans of lines, and their bytes. -/
def spotsOff (sp : List (Nat × Nat)) : List Spot → List Byte → List Spot × List Byte
  | [], _ => ([], [])
  | p :: ps, bs =>
    let r := spotsOff sp ps (bs.drop p.n)
    if spansMeet [(p.key / 64, p.key / 64)] sp then r else (p :: r.1, bs.take p.n ++ r.2)

/-- A key that nothing writes: a read of it gives zeros. -/
def voidKey : Nat := 6 * spaceSize
/-- The spots of a read with those in some spans of lines void. -/
def voidSpots (sp : List (Nat × Nat)) (l : List Spot) : List Spot :=
  l.map (fun p => if spansMeet [(p.key / 64, p.key / 64)] sp then { p with key := voidKey, enc := none } else p)

/-- Writes that the core's harvest contexts have issued to a lent page and not performed are discarded: held stores,
the write parts of held atomics, and images (R310). Held reads there give zeros, as the page then reads, whatever is written to
it before they are performed (R310, R313; log 68). What of them goes to other memory stays: a discarded store's other images
are due. -/
def dropLentWrites (s : State) (w : Word) (f : Foot) : State :=
  let sp := pageSpan w f
  let img (i : Img) : Bool := i.hv && i.core == w && spansMeet [(i.key / 64, i.key / 64)] sp
  let hit (h : Held) : Bool := h.core == w && h.hv && spansMeet (h.spots.map (fun p => (p.key / 64, p.key / 64))) sp
  let rest (h : Held) : Held :=
    let h := { h with imgs := h.imgs.filter (fun i => !img i) }
    if !hit h then h
    else match h.store with
      | some bs => { h with spots := (spotsOff sp h.spots bs).1, store := some (spotsOff sp h.spots bs).2 }
      | none => { h with rmw := none, cas := none, rel := false, spots := voidSpots sp h.spots }
  let all := s.held.map rest
  let void (h : Held) : Bool := h.store.isSome && h.spots.isEmpty
  let due := (all.filter void).flatMap Held.imgs
  let s := mapCls { s with held := all.filter (fun h => !void h) } (fun u => { u with imgs := u.imgs.filter (fun i => !img i) })
  due.foldl (fun s i => modCl s (clIdx i.core) (fun u => { u with imgs := u.imgs ++ [i] })) s

/-- Starts a revocation (R309, R310): lending is suspended, the harvester's work on lent pages stopped, the lent pages
zeroed, and the harvester parked, or the lent rows zeroed where there is none. Where every bank is taken and the oldest
context cannot move yet, the harvester stands still until it can (R311). A second trigger has no further effect. The
model writes every arithmetic result back as its word issues, so a revocation finds none to cancel (DESIGN CHOICE,
log 58). -/
def revoke (s : State) (w : Word) : State :=
  let c := getCore s w
  if !lendV c.lend || c.revoking then s
  else
    let f := lentFoot c
    let s := setCore s { c with lend := c.lend ||| 0x40000000, revoking := true, ownerDone := false }
    let s := scrubPages (dropLentWrites (abortHarvest s w f) w f) w f
    if !c.harvest.active then modCore s w (fun c => c.zeroLent f)
    else if bankReady s c then park s w f
    else s

/-! ### `lend` and `reclaim` (R307, R308) -/

/-- The offending lane of a footprint descriptor (R307). -/
def lendBad (s : State) (r : Row) : Option Nat :=
  let c := s.core
  let x := c.slot
  let rb := (lane r 0).toNat
  let rn := (lane r 1).toNat
  let pb := (lane r 2).toNat
  let pn := (lane r 3).toNat
  let pages := if isMem c.id then 0 else scratchLimit s (clIdx c.id) / 4096
  let rows := rb % 16 != 0 || decide (rb < x.pb) || decide (x.pb + x.pl < rb + rn) || (decide (rb < x.wb + x.wl) && decide (x.wb < rb + rn))
  let taken := (List.range pn).any (fun i => match holder s (clIdx c.id) (pb + i) with
    | some w => w != c.id
    | none => false)
  let bad := reservedLanes r ([2047, 255, 511, 511] ++ List.replicate 12 0) ++
    [(0, rows), (1, rn % 16 != 0 || rn == 0 || decide (128 < rn)), (2, decide (pages < pb + pn) || taken)]
  firstLane ((List.range 16).map (fun i => (i, bad.any (fun e => e.1 == i && e.2))))

/-- A `lend` or a `reclaim` first revokes where V is set, once; what it has revoked may have become active again while
it waited (R307-R309). -/
def needsRevoke (c : Core) : Bool := lendV c.lend && (!c.slot.revoked || lendActive c.lend)

/-- PRIV of `lend` and `reclaim` in a harvest slot (R307, R308). -/
def ownerBar (s : State) : Option Trap := if s.core.hvNow then some (mkTrap cPRIV 0 0) else none

/-- `lend` on its descriptor (R307, R362). -/
def startLend (r : Row) (s : State) : CRes :=
  let c := s.core
  match lendBad s r with
  | some i => malformed s r i
  | none =>
    let f : Foot := ⟨(lane r 0).toNat, (lane r 1).toNat, (lane r 2).toNat, (lane r 3).toNat⟩
    if needsRevoke c then .wait outside ((revoke s c.id).modS (fun x => { x with revoked := true }))
    else if c.revoking then .wait outside s
    else if (getCl s (clIdx c.id)).rlt.any (fun e => spansMeet e.spans (pageSpan c.id f)) then .wait outside s
    else if c.late.any (fun l => match l.dest with
      | .row n => decide (f.rb ≤ n) && decide (n < f.rb + f.rn)
      | _ => false) then .wait outside s
    else
      let v := lendWord f.rb f.rn f.pb f.pn ||| (if c.slot.paired then 0x40000000 else 0)
      .out (scrubPages (s.modC (fun c => { c.zeroRows f.rb f.rn with lend := v, lendKern := some c.slot.kern, ownerDone := false })) c.id f) 0

def execLend (a : Opnd) (s : State) : Out :=
  control (.lend a) { srcs := [a], bar := ownerBar s } (fun rs s => startLend (nth rs 0) s) s

def execReclaim (s : State) : Out :=
  control .reclaim { bar := ownerBar s } (fun _ s =>
    let c := s.core
    if !lendV c.lend then .go s 0 none
    else if needsRevoke c then .wait outside ((revoke s c.id).modS (fun x => { x with revoked := true }))
    else if c.revoking then .wait outside s
    else .out (s.modC (fun c => { c with lend := c.lend &&& 0x3FFFFFFF, lendKern := none })) 0) s

/-! ### Steps of the harvest slot -/

/-- A message that the owner slot would take, with a claim that overlaps the lent footprint (R309). -/
def revocationDue (s : State) (c : Core) : Bool :=
  c.ni.any (fun n => n.st == .ready && n.cls == 0 && ownerMay s c n && claimMeets c (tagOf c (hdrTag n.msg.hdr))) ||
  (!c.owner.active && c.shadow.isNone && (match ownerNext s c with
    | some n => claimMeets c (tagOf c (hdrTag n.msg.hdr))
    | none => false))

/-- REVOCATION: an owner message whose claim overlaps the lent footprint revokes it (R309). -/
def execRevocation (w : Word) (s : State) : Out :=
  let c := getCore s w
  if lendActive c.lend && revocationDue s c then .next (revoke s w) else .next s

/-- REVOCATION_COMPLETE: the revocation is complete, once the harvester has been parked; where its kernel has stopped
before a bank was free, the lent rows are zeroed now (R309-R311). A change of clock that was deferred for it is made now
(R357). -/
def execRevocationComplete (w : Word) (s : State) : Out :=
  let c := getCore s w
  let ends (s : State) : State := planDomain (modCore s w (fun c => { c with revoking := false })) (clIdx w)
  if !c.revoking then .next s
  else if !c.harvest.active then .next (ends (modCore s w (fun c => c.zeroLent (lentFoot c))))
  else if bankReady s c then .next (ends (park s w (lentFoot c)))
  else .next s

/-- The `lend` was a paired kernel's, or the core runs a pair: its lending does not become active (R362). -/
def pairLend (s : State) (c : Core) : Bool := pairCore s c.id || s.kerns.any (fun k => k.pair && c.lendKern == some k.ref)

/-- LENDING_RESUME: once the owner slot has executed `done` with V = 1, no message having started there since, and no
owner-slot message is ready, lending resumes over zeroed rows and pages (R312; log 69). -/
def execLendingResume (w : Word) (s : State) : Out :=
  let c := getCore s w
  let f := lentFoot c
  if !lendV c.lend || !lendSusp c.lend || c.revoking || !c.ownerDone || pairLend s c || (ownerNext s c).isSome then .next s
  else .next (scrubPages (setCore s ({ c with lend := c.lend &&& 0xBFFFFFFF, ownerDone := false }.zeroLent f)) w f)

/-- A footprint lies within another (R304). -/
def Foot.within (a b : Foot) : Bool :=
  decide (b.rb ≤ a.rb) && decide (a.rb + a.rn ≤ b.rb + b.rn) && (a.pn == 0 || (decide (b.pb ≤ a.pb) && decide (a.pb + a.pn ≤ b.pb + b.pn)))

/-- The parked context that resumes next: the most recently parked within the footprint (R304). -/
def nextParked (s : State) (c : Core) : Option Parked :=
  (c.parked.filter (fun p => p.foot.within (lentFoot c) && !stopped s p.slot.kern)).foldl (fun (m : Option Parked) p => match m with
    | some q => if q.order < p.order then some p else some q
    | none => some p) none

/-- The harvest slot is free to take work (R304). -/
def harvestIdle (c : Core) : Bool := lendActive c.lend && !c.revoking && !c.harvest.active

/-- Resumes a parked context: rows back from the bank, slot state rebound, streams as `eret` with keep (R278,
R312). -/
def unpark (c : Core) (p : Parked) : Core :=
  let x := p.slot
  let h := look 0 p.rows x.wb
  let rows : List (Nat × Row) := put p.rows x.wb (setLane (setLane (setLane h 2 p.l2) 3 p.l3) 4 p.l4)
  let c := { c with regs := rows.foldl (fun m (e : Nat × Row) => put m e.1 e.2) c.regs, parked := c.parked.filter (fun q => q.bank != p.bank) }
  let y := c.harvest
  c.setHarvest { x with pc := lane h 2 &&& ~~~(7 : Word), fetched := [], chains := y.chains, lastProc := x.lastProc, pend := x.pend ++ y.pend }

/-- A row of a context's bank that holds an error the code cannot correct (R360). -/
def bankBroken (c : Core) (p : Parked) : Option Nat := c.broken.find? (fun l => decide (bankLine p.bank 0 ≤ l) && decide (l < bankLine p.bank 128))

/-- Resumes the next parked context, if the slot is free and its bank settled; one whose bank holds an error stops by a machine
check (R360, R361). -/
def tryUnpark (s : State) (w : Word) : State :=
  let c := getCore s w
  match nextParked s c with
  | some p =>
    if harvestIdle c && bankSettled c p then
      match bankBroken c p with
      | none => chargeSaggar (setCore s (unpark c p)) w p
      | some l =>
        let d := unpark (c.mend l) p
        mchkStop (setCore s (d.setHarvest { d.harvest with halted := true })) p.slot.kern w true (ctxOf (look 0 p.rows p.slot.wb)) p.slot.proc
          (lineArray l <<< 17 ||| 1 <<< 9) 0
    else s
  | none => s

/-- PARKED_CONTEXT_RESUME (R312), on a core that runs no pair (R362). -/
def execParkedContextResume (w : Word) (s : State) : Out :=
  .next (if pairCore s w then s else tryUnpark s w)

/-- The message that the harvest slot takes: harvest-eligible, its window in the lent rows (R304). -/
def harvestNext (s : State) (c : Core) : Option NiSlot := pickReady (fun n => harvestOnly c n && !stopped s n.msg.kern) c.ni

/-- HARVEST_DISPATCH: the free harvest slot of a core that runs no pair takes a parked context, or else a message, confined to the lent
rows, in a context that the kiln creates (R279, R304, R362). -/
def execHarvestDispatch (w : Word) (s : State) : Out :=
  let c := getCore s w
  if !harvestIdle c || pairCore s w || storeOpenAt s w then .next s
  else
    match nextParked s c with
    | some _ => .next (tryUnpark s w)
    | none =>
      match harvestNext s c with
      | some n =>
        let x := { startHandler s c c.harvest n with pb := lendRB c.lend, pl := lendRN c.lend }
        .next (ranOn (setCore s (niRun ((createContext (hdrTag n.msg.hdr) (c.quitOfile c.harvest x.proc)).setHarvest x) n.idx)) w x.kern)
      | none => .next s

/-- The work of a harvest context follows it to another core: its chain of batches, which takes the place of one of the same
kernel and CTXID there (DESIGN CHOICE, log 77), its jobs and streams, the accesses it has issued and not performed, and the
decrements it has sent, in whichever window (R299, R312, R377). -/
def moveChain (s : State) (a b : Word) (k : KRef) (ctx : Nat) : State :=
  let h := chainOf (getCore s a).harvest k ctx
  let s := modCore s a (fun c => c.setHarvest { c.harvest with chains := c.harvest.chains.filter (fun g => !(g.kern == k && g.ctxid == ctx)) })
  let s := modCore s b (fun c => c.setHarvest (setChain c.harvest h))
  let s := modJobs s (fun j => j.owner == a && j.hv && j.kern == k && j.ctxid == ctx) (fun j => { j with owner := b })
  let s := mapCores s (fun c => { c with strms := c.strms.map (fun t =>
    if t.owner = a ∧ t.hv ∧ t.kern = k ∧ t.ctxid = ctx then { t with owner := b } else t) })
  let img (i : Img) : Img := if i.core = a ∧ i.hv ∧ i.kern = k ∧ i.ctxid = ctx then { i with core := b } else i
  let s := mapCls s (fun u => { u with imgs := u.imgs.map img })
  { s with held := s.held.map (fun h =>
             if h.core = a ∧ h.hv ∧ h.kern = k ∧ h.ctxid = ctx then { h with core := b, imgs := h.imgs.map img } else h),
           decs := s.decs.map (fun d => if d.core = a ∧ d.hv ∧ d.kern = k ∧ d.ctxid = ctx then { d with core := b } else d) }

/-- Puts a context that is off its core into a bank of a core, with its message slot: none where either is not
free (R312). -/
def bankIn (s : State) (w : Word) (b : Nat) (p : Parked) : Option State :=
  let c := getCore s w
  if 4 ≤ b || c.parked.any (fun q => q.bank == b) then none
  else
    match p.ni, niFree c with
    | some n, some i =>
      let q := { p with bank := b, ni := none, slot := { p.slot with msgSlot := some i, sid := c.nextId } }
      some (setCore s { c with parked := c.parked ++ [q], ni := c.ni ++ [{ n with idx := i }], nextId := c.nextId + 1 })
    | some _, none => none
    | none, _ =>
      let q := { p with bank := b, slot := { p.slot with sid := c.nextId } }
      some (setCore s { c with parked := c.parked ++ [q], nextId := c.nextId + 1 })

/-- The kernel's queue is in service. -/
def inService (s : State) (k : KRef) : Bool := !s.queues.any (fun q => q.id == k.queue && q.phase != .serving)

/-- A present core to which a context of the process may move (R1, R312). -/
def takesContext (s : State) (w : Word) (proc : Nat) : Bool := coreHere s w && runsProc s w proc

/-- A saved context may come off its queue's save area, onto a core (R312, R369). -/
def mayUnsave (s : State) (w v : Word) (e : Saved) : Bool :=
  e.place == 0 && inService s e.kern && (v == w || takesContext s v e.ctx.slot.proc) && !saveFaults s e.kern.queue .read

/-- PARKED_CONTEXT_MOVE: the kiln moves a parked context from a bank of a core to a bank of another core of its
process, to the save area, or back to its own, once no late write is pending to it, and its parking order goes with it; bank 4 + i names the core's i-th context in the save
area (R312). Each context is reached through a capability (R369). -/
def execParkedContextMove (w : Word) (b : Nat) (dest : Option (Word × Nat)) (s : State) : Out :=
  let c := getCore s w
  if b < 4 then
    match c.parked.find? (fun p => p.bank == b) with
    | none => .next s
    | some p =>
      let d := deriveBank s w b
      if !contextSettled c p || bankFaults d w b .read then .next s
      else
        let (s1, q) := unbank d w p
        let ctx := ctxOf (look 0 p.rows p.slot.wb)
        match dest with
        | none => if !maySave s c p then .next s else .next { s1 with saved := s1.saved ++ [{ core := w, kern := p.slot.kern, ctx := q, place := 0 }] }
        | some (v, d) =>
          if !takesContext s v p.slot.proc then .next s else
          match bankIn (moveChain s1 w v p.slot.kern ctx) v d q with
          | some s2 => .next s2
          | none => .next s
  else
    match (s.saved.filter (fun e => e.core == w))[b - 4]?, dest with
    | some e, some (v, d) =>
      let t := deriveBank s v d
      if !mayUnsave s w v e || bankFaults t v d .write then .next s else
      let ctx := ctxOf (look 0 e.ctx.rows e.ctx.slot.wb)
      match bankIn (moveChain { t with saved := t.saved.erase e } w v e.kern ctx) v d e.ctx with
      | some s2 => .next s2
      | none => .next s
    | _, _ => .next s

end Sys2Proof.Machine
end

