-- ==== Sys2Proof/Machine/Matrix.lean ====
section
/-! DEFINITION. The ring matrix array (R220-R239): `mgang`, `accz`, `mcode`, `accrd`, and the steps of the gang
unit. -/

namespace Sys2Proof.Machine

/-! ### Operands (R220, R222) -/

/-- Bytes of A per row and K-block (R68, R220). -/
def aRow : AFmt → Nat
  | .t => 8 | .c4 => 16 | .i8 => 32 | .i16 => 64
/-- Bytes of a row of B. -/
def bRow (wide : Bool) : Nat := if wide then 64 else 32
end Sys2Proof.Machine

namespace Sys2Proof

open Machine in
def GangWord.aSize (g : GangWord) : Nat := 32 * g.kb.toNat * aRow g.af
open Machine in
def GangWord.bSize (g : GangWord) : Nat := 32 * g.kb.toNat * bRow g.bf
/-- The members of the gang, in ascending order (R221). -/
def GangWord.cores (g : GangWord) : List Nat := (List.range 8).filter (fun c => g.mask.getLsbD c)
/-- The tiles that the operation feeds (R221). -/
def GangWord.tiles (g : GangWord) : List Nat := g.cores.map (fun c => g.base.toNat + c)

end Sys2Proof

namespace Sys2Proof.Machine

/-- The core of a number in a cluster. -/
def clCore (s : State) (cl c : Nat) : Word := coreWord (ownPkg s) cl c

/-! ### The checks of `mgang` (R224, R228) -/

/-- GANG with a reason (R224). -/
def gangTrap (s : State) (reason : Nat) : CRes := .trap s (mkTrap cGANG (reason <<< 9) 0)

/-- The first byte of a range of n bytes at a that no range of the list holds wholly from its start on. -/
def rangeOutside (l : List (Nat × Nat)) (a n : Nat) : Option Nat :=
  match l.find? (fun r => decide (r.1 ≤ a) && decide (a < r.2)) with
  | some r => if a + n ≤ r.2 then none else some r.2
  | none => some a

/-- The lowest of two offending addresses. -/
def lowest : Option Nat → Option Nat → Option Nat
  | some x, some y => some (min x y)
  | some x, none => some x
  | none, y => y

def localRange : Nat × Nat := (0, 0x60000)
def sliceRange : Nat × Nat := (0x1000000, 0x1A00000)

/-- A tile that the operation feeds is FRESH. -/
def anyFresh (c : Core) (g : GangWord) : Bool := g.tiles.any (fun t => c.fresh.getLsbD t)
/-- The scale ranges (R228). -/
def sclaAt (c : Core) : Nat := c.scla.toNat / 128 * 128
def sclbAt (c : Core) : Nat := c.sclb.toNat / 128 * 128

/-- The checks of an `mgang` after its operand fields (R224 from 3 on, R228). -/
def gangCheck (s : State) (g : GangWord) (a b : Nat) : Option Trap :=
  let c := s.core
  let cl := clIdx c.id
  if !g.mask.getLsbD (coreOf c.id) || g.cores.any (fun k => !coreHere s (clCore s cl k)) then some (mkTrap cGANG (2 <<< 9) 0)
  else if a % 64 ≠ 0 then some (mkTrap cAL 0 a)
  else if b % 64 ≠ 0 then some (mkTrap cAL 0 b)
  else
    match lowest (rangeOutside [localRange, sliceRange] a g.aSize) (rangeOutside [localRange] b g.bSize) with
    | some x => some (mkTrap cADDR infoUNMAP x)
    | none =>
      if anyFresh c g then
        match lowest (rangeOutside [localRange] (sclaAt c) 128) (rangeOutside [localRange] (sclbAt c) 1024) with
        | some x => some (mkTrap cADDR infoUNMAP x)
        | none => none
      else none

/-- The ranges an `mgang` registers: A unless it lies in the slice, and B (R225). -/
def gangRegs (s : State) (g : GangWord) (a b : Nat) : List Reg :=
  let one (x n : Nat) : Reg := ⟨clIdx s.core.id, keyMem (localKey s.core.id x), [(localKey s.core.id x / 64, localKey s.core.id (x + n - 1) / 64)], false, true⟩
  (if a < 0x60000 then [one a g.aSize] else []) ++ [one b g.bSize]

/-! ### Posts (R225, R226) -/

/-- The operations that a core has started and that have not retired. -/
def startedOps (u : Cluster) (c : Nat) : Nat := (u.ops.filter (fun o => o.members.any (fun m => m.core == c))).length

/-- What has become of the pending post of a slot's `mgang`, be it at its PC or set aside by a trap; none where it has no
post. -/
def Slot.tellGang (g : GangSt) (x : Slot) : Option Slot :=
  if x.gang == .posted then some { x with gang := g, waitC := none }
  else match x.aside with
    | some a => if a.gang == .posted then some { x with aside := some { a with gang := g } } else none
    | none => none

/-- Tells the slot whose post is pending what has become of it: the owner slot, or the pre-empted handler. -/
def tellPost (c : Core) (g : GangSt) : Core :=
  match c.owner.tellGang g with
  | some x => c.setOwner x
  | none =>
    match c.shadow with
    | some h => { c with shadow := some { h with slot := (h.slot.tellGang g).getD h.slot } }
    | none => c

/-- The mask of a list of core numbers. -/
def maskOf (l : List Nat) : Nat := l.foldl (fun m c => m ||| 2 ^ c) 0

/-- Withdraws the posts of the cores of a list, each slot told what to report (R226). -/
def withdraw (s : State) (cl : Nat) (l : List Nat) (g : GangSt) : State :=
  let u := getCl s cl
  let gone := u.posts.filter (fun p => l.contains p.core)
  let s := setCl s { u with posts := u.posts.filter (fun p => !l.contains p.core) }
  gone.foldl (fun s p => modCore (rltDrop s p.rlt) (clCore s cl p.core) (fun c => tellPost c g)) s

/-- Posts EXT: the comparison of R226 with the posts that concern it, then the wait. -/
def postGang (g : GangWord) (a b : Nat) (es : List (Nat × Nat)) (s : State) : CRes :=
  let c := s.core
  let cl := clIdx c.id
  let me := coreOf c.id
  let u := getCl s cl
  if 2 ≤ startedOps u me || u.posts.any (fun p => p.core == me) then .wait outside s
  else
    let seen := u.posts.filter (fun p => g.mask.getLsbD p.core || p.ext.mask.getLsbD me)
    if seen.any (fun p => p.ext != g) then
      let l := me :: seen.map Post.core
      let s := withdraw (rltDrop s es) cl l (.clash (maskOf l))
      .trap (s.modS (fun x => { x with gang := .idle })) (mkTrap cGANG (1 <<< 9 ||| maskOf l <<< 13) 0)
    else
      let p : Post := { core := me, ext := g, a := a, b := b, at_ := c.cycle.toNat, kern := c.slot.kern, ctxid := ctxOf c.hdr,
                         proc := c.slot.proc, rlt := es }
      .wait outside (setCl (s.modS (fun x => { x with gang := .posted })) { u with posts := u.posts ++ [p] })

/-- The bytes that an `mgang` and its start read, as key and length: A, B and, for a FRESH tile, the scales (R189,
R227, R234). -/
def gangReads (c : Core) (g : GangWord) (a b : Nat) : List (Nat × Nat) :=
  [(if a < 0x60000 then localKey c.id a else sliceKey c.id (a - 0x1000000), g.aSize), (localKey c.id b, g.bSize)] ++
  (if anyFresh c g then [(localKey c.id (sclaAt c), 128), (localKey c.id (sclbAt c), 1024)] else [])

/-- `mgang` by where it stands (R225, R226, R235). -/
def gangStep (g : GangWord) (a b : Nat) (s : State) : CRes :=
  let idle := s.modS (fun x => { x with gang := .idle })
  match s.core.slot.gang with
  | .started => .go idle 0 none
  | .posted => .wait outside s
  | .clash m => .trap idle (mkTrap cGANG (1 <<< 9 ||| m <<< 13) 0)
  | .late m => .trap idle (mkTrap cGANGTO (m <<< 13) 0)
  | .regd es => postGang g a b es s
  | .idle =>
    match gangCheck s g a b with
    | some t => .trap s t
    | none =>
      let regs := gangRegs s g a b
      if acqHeld s || rltReadLocked s regs || storeHeld s (gangReads s.core g a b) || !rltRoom s regs then .wait outside s
      else
        let (s1, es) := rltAdd regs s
        postGang g a b es (s1.modS (fun x => { x with gang := .regd es }))

/-- What a matrix instruction meets in a harvest slot, or in a paired kernel (R224, R239, R362). -/
def matrixBar (s : State) : Option Trap :=
  if s.core.hvNow then some (mkTrap cGANG (3 <<< 9) 0) else if s.core.slot.paired then some (mkTrap cGANG (4 <<< 9) 0) else none

def execMgang (a b : Opnd) (g : GangWord) (s : State) : Out :=
  control (.mgang a b g) { srcs := [a, b], bar := matrixBar s } (fun rs s =>
    gangStep g (lane (nth rs 0) 0).toNat (lane (nth rs 1) 0).toNat s) s

/-! ### `mcode`, `accz` and `accrd` (R236-R238) -/

/-- The c4 plane count of a table (R237). -/
def planes (l : List Byte) : Nat :=
  let m := l.foldl (fun m b => max m b.toInt.natAbs) 0
  if m ≤ 1 then 1 else if m ≤ 4 then 2 else if m ≤ 13 then 3 else if m ≤ 40 then 4 else if m ≤ 121 then 5 else 6

def execMcode (a : Opnd) (s : State) : Out :=
  control (.mcode a) { srcs := [a], bar := matrixBar s } (fun rs s =>
    let r := nth rs 0
    let t : Vector Byte 16 := Vector.ofFn (fun e => (lane r e.val).extractLsb' 0 8)
    .go (s.modC (fun c => { c with codes := t, kc := planes t.toList })) 0 none) s

/-- The identity of a semiring (R229). -/
def identity : Ring → BitVec 48
  | .pt => 0 | .minp => 0x7FFFFFFFFFFF | .maxp => 0x800000000000 | .ora => 0

/-- An element of a tile (R236). -/
def tileKey (t row col : Nat) : Nat := 1024 * t + 32 * row + col
def tileAt (c : Core) (t row col : Nat) : BitVec 48 := look 0 c.acc (tileKey t row col)

/-- The tiles first to last with every element at v; an element that is 0 is not listed. -/
def fillTiles (acc : List (Nat × BitVec 48)) (first last : Nat) (v : BitVec 48) : List (Nat × BitVec 48) :=
  acc.filter (fun e => decide (e.1 < 1024 * first)) ++
  (if v = 0 then [] else (List.range (1024 * (last + 1 - first))).map (fun i => (1024 * first + i, v))) ++
  acc.filter (fun e => decide (1024 * (last + 1) ≤ e.1))

/-- The bits first to last of a 16-bit mask. -/
def tileMask (first last : Nat) : BitVec 16 := BitVec.ofNat 16 (2 ^ (last + 1) - 2 ^ first)

/-- A gang of this core that feeds a tile of first..last has not retired, or has not started (R236). -/
def tilesBusy (s : State) (first last : Nat) : Bool :=
  let u := getCl s (clIdx s.core.id)
  let me := coreOf s.core.id
  let feeds (g : GangWord) : Bool := g.tiles.any (fun t => decide (first ≤ t) && decide (t ≤ last))
  u.ops.any (fun o => o.members.any (fun m => m.core == me) && feeds o.ext) || u.posts.any (fun p => p.core == me && feeds p.ext)

def execAccz (ring : Ring) (first last : BitVec 4) (s : State) : Out :=
  control (.accz ring first last) { bar := matrixBar s } (fun _ s =>
    let f := first.toNat
    let l := last.toNat
    if tilesBusy s f l then .wait outside s
    else
      .go (s.modC (fun c => { c with acc := fillTiles c.acc f l (identity ring), fresh := c.fresh ||| tileMask f l,
                                     poison := c.poison &&& ~~~(tileMask f l) })) 0 none) s

/-- The step of an operation at which a member feeds the tile of origin core j (R221). -/
def stepOf (g : GangWord) (c j : Nat) : Nat :=
  let l := g.cores
  (l.idxOf j + l.length - l.idxOf c) % l.length

/-- A step that feeds tile t of this core has not retired, or its gang has not started (R238). -/
def tileFed (s : State) (t : Nat) : Bool :=
  let u := getCl s (clIdx s.core.id)
  let me := coreOf s.core.id
  u.ops.any (fun o => o.members.any (fun m => m.core == me) && o.ext.tiles.contains t &&
    decide (o.step ≤ stepOf o.ext me (t - o.ext.base.toNat))) ||
  u.posts.any (fun p => p.core == me && p.ext.tiles.contains t)

/-- Sampled scales of a tile, 1.0 where none were (R236). -/
def scaleOf (l : List (Nat × Word)) (t i : Nat) : Word := look 0x3F800000 l (32 * t + i)

/-- `accrd` of half a row of a tile (R81, R231, R238). An accumulator line has neither an aperture nor a target address, so
FADDR of the machine check is a free value (R361; log 5). -/
def readTile (conv : Conv) (a : Opnd) (sel : Word) (s : State) : CRes :=
  let c := s.core
  let t := sel.toNat % 16
  let row := sel.toNat / 16 % 32
  let h := sel.toNat / 512 % 2
  if tileFed s t then .wait outside s
  else if c.poison.getLsbD t then
    let (at_, s) := takeFree s
    let s1 := mchkStop s c.slot.kern c.id c.hvNow (ctxOf c.hdr) c.slot.proc (6 <<< 17 ||| 1 <<< 9) (at_.toNat % 2 ^ 52)
    .go (s1.modC (fun c => issueLate c a 16 (some 0) accKey)) 0 none
  else
    let rm := fpmMode c.slot.fpm
    let one (l : Nat) : Nat × Exc × Bool :=
      accConvert conv rm (tileAt c t row (16 * h + l)) (scaleOf c.scaleA t row) (scaleOf c.scaleB t (16 * h + l))
    let res := (List.range 16).map one
    let exc := res.foldl (fun e r => e.or r.2.1) Exc.none
    let csat := res.any (fun r => r.2.2)
    let v := rowOf 32 16 (fun l => (res.getD l (0, Exc.none, false)).1)
    let c1 := { c with slot := { c.slot with fpm := fpmRaise c.slot.fpm exc }, mstat := if csat then c.mstat ||| mstatCSAT else c.mstat }
    .go { s with core := issueLate c1 a 16 (some v) accKey } 0 none

def execAccrd (conv : Conv) (a b : Opnd) (s : State) : Out :=
  control (.accrd conv a b) { srcs := [b], dst := some a, late := true, lanes := 16, fpm := true, mstat := true, bar := matrixBar s }
    (fun rs s => readTile conv a (lane (nth rs 0) 0) s) s

/-! ### Steps of the gang unit -/

/-- 32-bit words of local memory from an address up. -/
def localWords (s : State) (w : Word) (a n : Nat) : List Word :=
  (List.range n).map (fun i => BitVec.ofNat 32 (memNat s.mem (localKey w (a + 4 * i)) 4))

/-- Puts a list of words from entry n of a table up. -/
def putWords (l : List (Nat × Word)) (n : Nat) : List Word → List (Nat × Word)
  | [] => l
  | w :: ws => putWords (put l n w) (n + 1) ws

/-- The scales that the start samples on a core: for each FRESH tile that is fed (R227). -/
def sampleScales (s : State) (g : GangWord) (c : Core) : Core :=
  g.cores.foldl (fun c j =>
    let t := g.base.toNat + j
    if c.fresh.getLsbD t then
      { c with scaleA := putWords c.scaleA (32 * t) (localWords s c.id (sclaAt c) 32),
               scaleB := putWords c.scaleB (32 * t) (localWords s c.id (sclbAt c + 128 * j) 32),
               fresh := c.fresh &&& ~~~(tileMask t t) }
    else c) c

/-- An entry that locks reads lies over a scale range that the start would read (R228). -/
def scalesLocked (s : State) (cl : Nat) (g : GangWord) : Bool :=
  g.cores.any (fun k =>
    let c := getCore s (clCore s cl k)
    anyFresh c g &&
      (let spans := [(localKey c.id (sclaAt c) / 64, localKey c.id (sclaAt c + 127) / 64), (localKey c.id (sclbAt c) / 64, localKey c.id (sclbAt c + 1023) / 64)]
       (getCl s cl).rlt.any (fun e => e.lockR && spansMeet e.spans spans)))

/-- A post whose gang is complete: every core of its mask has a pending post with the same EXT (R225). -/
def complete (u : Cluster) (p : Post) : Bool := p.ext.cores.all (fun c => u.posts.any (fun q => q.core == c && q.ext == p.ext))

/-- The plane count of an operation (R227). -/
def opPlanes (s : State) (cl : Nat) (g : GangWord) : Nat :=
  match g.ring, g.af with
  | .pt, .i8 => 6
  | .pt, .c4 => g.cores.foldl (fun m k => max m (getCore s (clCore s cl k)).kc) 1
  | _, _ => 1

/-- The SRAM lines that a core's part of a start reads: row and column scales of each FRESH tile that is fed (R227, R351). -/
def scaleLines (g : GangWord) (c : Core) : Nat := 4 * (g.cores.filter (fun j => c.fresh.getLsbD (g.base.toNat + j))).length
/-- A member's reads of scales are charged to it (R351, R352). -/
def chargeScales (cl : Nat) (g : GangWord) (s : State) (m : Member) : State :=
  chargeN (scaleLines g (getCore s (clCore s cl m.core))) s (clCore s cl m.core) .sram m.ctxid m.proc m.kern

/-- GANG_START: the first complete gang of the cluster whose scales no entry locks starts: each member samples its state and its `mgang` retires
(R225, R227). -/
def execGangStart (cl : Nat) (s : State) : Out :=
  let u := getCl s cl
  match u.posts.find? (fun p => complete u p && !scalesLocked s cl p.ext) with
  | none => .next s
  | some p =>
    let g := p.ext
    let member (q : Post) : Member :=
      let c := getCore s (clCore s cl q.core)
      { core := q.core, a := q.a, b := q.b, scales := if anyFresh c g then some (sclaAt c, sclbAt c) else none, codes := c.codes, rlt := q.rlt,
        kern := q.kern, ctxid := q.ctxid, proc := q.proc }
    let ms := g.cores.filterMap (fun k => (u.posts.find? (fun q => q.core == k && q.ext == g)).map member)
    let o : GangOp := { ext := g, members := ms, step := 0, k := opPlanes s cl g }
    let s0 := (ms.filter (fun m => m.scales.isSome)).foldl (chargeScales cl g) s
    let s1 := setCl s0 { u with posts := u.posts.filter (fun q => !(g.mask.getLsbD q.core && q.ext == g)), ops := u.ops ++ [o] }
    .next (g.cores.foldl (fun s2 k => modCore s2 (clCore s2 cl k) (fun c => tellPost (sampleScales s g c) .started)) s1)

/-- GANGTO: a post pending for 2^20 cycles of its cluster is withdrawn, and its member traps GANGTO (R226). The mask of the
cores that had posted by then holds those whose posts are pending: a post that was withdrawn before does not count (DESIGN
CHOICE, log 84). -/
def execGangto (w : Word) (s : State) : Out :=
  let cl := clIdx w
  let u := getCl s cl
  match u.posts.find? (fun p => p.core == coreOf w) with
  | some p =>
    if (getCore s w).cycle.toNat < p.at_ + 2 ^ 20 then .next s
    else .next (withdraw s cl [p.core] (.late (maskOf (p.ext.cores.filter (fun c => u.posts.any (fun q => q.core == c))))))
  | none => .next s

/-- The n bytes from an address of a core's local memory or slice up. -/
def opBytes (s : State) (w : Word) (a n : Nat) : List Byte :=
  memReadN s.mem (if a < 0x60000 then localKey w a else sliceKey w (a - 0x1000000)) n

/-- The signed 16-bit values of a list of bytes. -/
def pairsOf : List Byte → List Int
  | b :: c :: r => signedVal 16 (b.toNat + 256 * c.toNat) :: pairsOf r
  | _ => []
/-- The signed 8-bit values of a list of bytes. -/
def onesOf (l : List Byte) : List Int := l.map (fun b => signedVal 8 b.toNat)

/-- The A values of one row, and whether a ternary byte is bad (R66, R67, R229). -/
def aValues (s : State) (w : Word) (m : Member) (g : GangWord) (row : Nat) : List Int × Bool :=
  let at_ := m.a + row * g.kb.toNat * aRow g.af
  let bs := opBytes s w at_ (g.kb.toNat * aRow g.af)
  match g.af with
  | .t =>
    let gs := (List.range g.kb.toNat).map (fun b =>
      let ts := (bs.drop (8 * b)).take 8
      tritGroup (fun i => (ts.getD i 0).toNat))
    (gs.flatMap (fun q => (List.range 32).map q.1), gs.any Prod.snd)
  | .c4 =>
    (bs.flatMap (fun b => [(m.codes[b.toNat % 16]?.getD 0).toInt, (m.codes[b.toNat / 16]?.getD 0).toInt]), false)
  | .i8 => (onesOf bs, false)
  | .i16 => (pairsOf bs, false)

/-- The rows of B values of a block (R220). -/
def bRows (s : State) (w : Word) (b : Nat) (g : GangWord) : List (List Int) :=
  let row := bRow g.bf
  (List.range (32 * g.kb.toNat)).map (fun i =>
    let bs := opBytes s w (b + row * i) row
    if g.bf then pairsOf bs else onesOf bs)

/-- The columns of B values of a block. -/
def bColumns (s : State) (w : Word) (b : Nat) (g : GangWord) : List (List Int) :=
  (bRows s w b g).foldr (fun r cs => List.zipWith List.cons r cs) (List.replicate 32 [])

/-- Finite of R229 for a value of w bits in minp, or in maxp. -/
def finiteMin (w : Nat) (v : Int) : Bool := decide (v ≠ 2 ^ (w - 1) - 1)
def finiteMax (w : Nat) (v : Int) : Bool := decide (v ≠ -(2 ^ (w - 1)))

/-- One cell of a step: its new value, and whether a plus-times sum wrapped (R71, R229). -/
def cell (g : GangWord) (x : BitVec 48) (as bs : List Int) : BitVec 48 × Bool :=
  let aw := if g.af == .i16 then 16 else 8
  let bw := if g.bf then 16 else 8
  let ps := as.zip bs
  match g.ring with
  | .pt =>
    let v := ps.foldl (fun t p => t + p.1 * p.2) x.toInt
    (BitVec.ofInt 48 v, decide (v < -(2 ^ 47)) || decide (2 ^ 47 ≤ v))
  | .ora => (if ps.any (fun p => p.1 != 0 && p.2 != 0) then 1 else x, false)
  | .minp =>
    (BitVec.ofInt 48 (ps.foldl (fun t p => if finiteMin aw p.1 && finiteMin bw p.2 then min t (p.1 + p.2) else t) x.toInt), false)
  | .maxp =>
    (BitVec.ofInt 48 (ps.foldl (fun t p => if finiteMax aw p.1 && finiteMax bw p.2 then max t (p.1 + p.2) else t) x.toInt), false)

/-- Replaces the elements of one tile. -/
def setTile (acc : List (Nat × BitVec 48)) (t : Nat) (vs : List (BitVec 48)) : List (Nat × BitVec 48) :=
  acc.filter (fun e => decide (e.1 < 1024 * t)) ++
  (vs.zipIdx.filter (fun e => e.1 != 0)).map (fun e => (1024 * t + e.2, e.1)) ++
  acc.filter (fun e => decide (1024 * (t + 1) ≤ e.1))

/-- The cycles of one step of an operation (R232). -/
def stepCycles (o : GangOp) : Nat := 32 * o.ext.kb.toNat * max o.k (if o.ext.bf then 2 else 1)
/-- The 64-byte lines that a member's reads of A and of B take in one step (R351; log 23). -/
def stepLines (g : GangWord) : Nat := (32 * g.kb.toNat * aRow g.af + 63) / 64 + (32 * g.kb.toNat * bRow g.bf + 63) / 64

/-- One member's part of a step (R221, R229, R230): bad says that an operand read of the step met an uncorrectable
error, which poisons the tile. -/
def memberStep (cl : Nat) (o : GangOp) (m : Member) (bad : Bool) (s : State) : State :=
  let g := o.ext
  let l := g.cores
  let j := l.getD ((l.idxOf m.core + o.step) % l.length) 0
  let w := clCore s cl m.core
  let src := clCore s cl j
  let b := match o.members.find? (fun n => n.core == j) with
    | some n => n.b
    | none => 0
  let t := g.base.toNat + j
  let c := getCore s w
  let cols := bColumns s src b g
  let rows := (List.range 32).map (aValues s w m g)
  let old := c.acc.filter (fun e => decide (e.1 / 1024 = t))
  let cells := rows.zipIdx.flatMap (fun r => cols.zipIdx.map (fun q => cell g (look 0 old (tileKey t r.2 q.2)) r.1.1 q.1))
  let flags : Word := (if rows.any Prod.snd then mstatBADT else 0) ||| (if cells.any Prod.snd then mstatAOV else 0)
  let c := { c with acc := setTile c.acc t (cells.map Prod.fst), mstat := c.mstat ||| flags,
                    poison := if bad then c.poison ||| tileMask t t else c.poison }
  let s := chargeN (stepCycles o) (setCore s c) w .cell m.ctxid m.proc m.kern
  chargeN (stepLines g) s w .sram m.ctxid m.proc m.kern

/-- The address that a gang read at a of a core's space meets: its target address, or the aperture's (R361). -/
def gangAddr (w : Word) (a : Nat) : Nat := if a < 0x60000 then localKey w a else a

/-- The first addresses and the arrays of what a member's operand reads met errors in: its A rows, its block of B, its row
and column scales as sampled; bits 7:0, 15:8 and 23:16 of `ue` name the members, and its bits from 24 up the 64-byte line of
the range: of the scales, lines 0 and 1 are the row vector and those from 2 up the column vectors (R227, R230, R361). -/
def badReads (ue : Nat) (m : Member) : List (Nat × Nat) :=
  let failed (i : Nat) : Bool := ue / 2 ^ (i + m.core) % 2 == 1
  let line := ue / 2 ^ 24
  (if failed 0 then [(if m.a < 0x60000 then 1 else 5, m.a / 64 * 64 + 64 * line)] else []) ++
  (if failed 8 then [(1, m.b / 64 * 64 + 64 * line)] else []) ++
  (match m.scales with
   | some (a, b) => if failed 16 then [(1, if line < 2 then a + 64 * line else b + 64 * (line - 2))] else []
   | none => [])

/-- The machine checks of one member for a step (R230, R361). -/
def memberChecks (cl ue : Nat) (s : State) (m : Member) : State :=
  let w := clCore s cl m.core
  (badReads ue m).foldl (fun s e => mchkStop s m.kern w false m.ctxid m.proc (e.1 <<< 17 ||| 1 <<< 9) (gangAddr w e.2)) s

/-- GANG_STEP_RETIRE: the step of the cluster's oldest operation retires on every member; the last one
retires the operation and frees its entries (R229-R232). `ue` names the operand reads of the step that met an
uncorrectable error, as `badReads` has it; any of them poisons every tile that the step feeds (R230). A change of clock that
was deferred for the operation is made as it retires (R357). -/
def execGangStepRetire (cl ue : Nat) (s : State) : Out :=
  let u := getCl s cl
  match u.ops with
  | [] => .next s
  | o :: os =>
    let s0 := o.members.foldl (fun s m => memberStep cl o m (o.members.any (fun n => !(badReads ue n).isEmpty)) s) s
    let s1 := o.members.foldl (memberChecks cl ue) s0
    if o.step + 1 < o.ext.cores.length then
      .next (modCl s1 cl (fun u => { u with ops := { o with step := o.step + 1 } :: os }))
    else .next (planDomain (rltDrop (modCl s1 cl (fun u => { u with ops := os })) (o.members.flatMap Member.rlt)) cl)

end Sys2Proof.Machine
end

