-- ==== Sys2Proof/Machine/Mould.lean ====
section
/-! DEFINITION. Symmetric launches (R240-R243, R246), the mould (R244, R245, R247-R249): the group of a launch,
image sets, imaged stores and image writes. -/

namespace Sys2Proof.Machine

/-! ### Group elements (R240, R241) -/

/-- A point or an extent, by dimension. -/
structure Pt where
  x0 : Nat
  x1 : Nat
  x2 : Nat
  deriving DecidableEq, Repr

def Pt.get (p : Pt) (d : Nat) : Nat := if d = 0 then p.x0 else if d = 1 then p.x1 else p.x2

/-- Coordinate of an image: ± x + o modulo n. -/
def moved (n : Nat) (neg : Bool) (o x : Nat) : Nat := if neg then (o + n - x % n) % n else (x + o) % n

/-- The image of a point under an element, for extents n (R241). -/
def GElem.act (g : GElem) (n p : Pt) : Pt :=
  { x0 := moved n.x0 g.s0 g.o0 (p.get g.p0), x1 := moved n.x1 g.s1 g.o1 (p.get g.p1), x2 := moved n.x2 g.s2 g.o2 (p.get g.p2) }

/-- The image of an in-tile position, for tile extents t (R245). -/
def GElem.actIn (g : GElem) (t p : Pt) : Pt :=
  let f (neg : Bool) (n x : Nat) : Nat := if neg then n - 1 - x else x
  { x0 := f g.s0 t.x0 (p.get g.p0), x1 := f g.s1 t.x1 (p.get g.p1), x2 := f g.s2 t.x2 (p.get g.p2) }

def GElem.identity : GElem := { p0 := 0, p1 := 1, p2 := 2, s0 := false, s1 := false, s2 := false, o0 := 0, o1 := 0, o2 := 0, neg := false }

/-- One output coordinate of an element: source dimension, sign, offset. -/
def GElem.coord (g : GElem) (d : Nat) : Nat × Bool × Nat :=
  if d = 0 then (g.p0, g.s0, g.o0) else if d = 1 then (g.p1, g.s1, g.o1) else (g.p2, g.s2, g.o2)

/-- The composition g·h: h first, then g (R241). -/
def GElem.comp (n : Pt) (g h : GElem) : GElem :=
  let c (d : Nat) : Nat × Bool × Nat :=
    let a := g.coord d
    let b := h.coord a.1
    (b.1, a.2.1 != b.2.1, moved (n.get d) a.2.1 a.2.2 b.2.2)
  { p0 := (c 0).1, p1 := (c 1).1, p2 := (c 2).1, s0 := (c 0).2.1, s1 := (c 1).2.1, s2 := (c 2).2.1,
    o0 := (c 0).2.2, o1 := (c 1).2.2, o2 := (c 2).2.2, neg := g.neg != h.neg }

/-- A coordinate in a form that depends only on its point map: an extent of 1 leaves one value, an extent of 2
makes x and -x the same. -/
def canonCoord (n d : Nat) (c : Nat × Bool × Nat) : Nat × Bool × Nat :=
  if n ≤ 1 then (d, false, 0) else if n = 2 then (c.1, false, c.2.2) else c

/-- Two elements have the same point map. -/
def GElem.samePoints (n : Pt) (g h : GElem) : Bool :=
  [0, 1, 2].all (fun d => canonCoord (n.get d) d (g.coord d) == canonCoord (n.get d) d (h.coord d))

/-- Fields of a generator word (R240). -/
def genKind (w : Word) : Nat := (w.extractLsb' 30 2).toNat
def genD (w : Word) : Nat := (w.extractLsb' 27 2).toNat
def genE (w : Word) : Nat := (w.extractLsb' 25 2).toNat
def genS (w : Word) : Nat := (w.extractLsb' 0 16).toNat

/-- The element of a generator word, none for an empty one (R240, R241). -/
def genElem (n : Pt) (w : Word) : Option GElem :=
  let d := genD w
  let e := genE w
  let neg := w.getLsbD 29
  let id := { GElem.identity with neg := neg }
  match genKind w with
  | 1 =>
    let f (x : Nat) : Nat := if x = d then e else if x = e then d else x
    some { id with p0 := f 0, p1 := f 1, p2 := f 2 }
  | 2 => some { id with s0 := d == 0, s1 := d == 1, s2 := d == 2, o0 := if d = 0 then n.x0 - 1 else 0,
                        o1 := if d = 1 then n.x1 - 1 else 0, o2 := if d = 2 then n.x2 - 1 else 0 }
  | 3 => some { id with o0 := if d = 0 then genS w else 0, o1 := if d = 1 then genS w else 0, o2 := if d = 2 then genS w else 0 }
  | _ => none

/-- A generator word breaks R240, for nd dimensions, extents n and tile extents t (R242, code 3). -/
def genBad (nd : Nat) (n t : Pt) (w : Word) : Bool :=
  let d := genD w
  let e := genE w
  w.extractLsb' 16 9 != 0 ||
  (match genKind w with
   | 0 => (d != 0 && decide (nd ≤ d)) || e != 0 || genS w != 0
   | 1 => decide (nd ≤ d) || decide (nd ≤ e) || d == e || n.get d != n.get e || t.get d != t.get e || genS w != 0
   | 2 => decide (nd ≤ d) || e != 0 || genS w != 0
   | _ => decide (nd ≤ d) || e != 0 || decide (genS w < 1) || decide (n.get d ≤ genS w))

/-- The walker's closure (R241): i is the next element of the list to multiply; the second answer says that two
products with one point map differ in sign. It stops at 17 elements; f bounds the steps. -/
def closeGroup (n : Pt) (gens : List GElem) : Nat → Nat → List GElem → Bool → List GElem × Bool
  | 0, _, l, bad => (l, bad)
  | f + 1, i, l, bad =>
    match l[i]? with
    | none => (l, bad)
    | some h =>
      let step (acc : List GElem × Bool) (g : GElem) : List GElem × Bool :=
        let x := GElem.comp n g h
        match acc.1.find? (fun y => y.samePoints n x) with
        | some y => (acc.1, acc.2 || y.neg != x.neg)
        | none => (acc.1 ++ [x], acc.2)
      let r := gens.foldl step (l, bad)
      if 16 < r.1.length then r else closeGroup n gens f (i + 1) r.1 r.2

/-- The group of a launch, and whether an identity map has sign -1. -/
def groupFrom (n : Pt) (words : List Word) : List GElem × Bool :=
  closeGroup n (words.filterMap (genElem n)) 17 0 [GElem.identity] false

/-- Lexicographic order of points (R243). -/
def Pt.le (p q : Pt) : Bool :=
  decide (p.x0 < q.x0) || (p.x0 == q.x0 && (decide (p.x1 < q.x1) || (p.x1 == q.x1 && decide (p.x2 ≤ q.x2))))

/-- The walker issues a point when it is the least of its orbit (R243). -/
def canonical (n : Pt) (l : List GElem) (p : Pt) : Bool := l.all (fun g => p.le (g.act n p))
/-- The stabilizer mask of a point (R243). -/
def stabilizer (n : Pt) (l : List GElem) (p : Pt) : Nat :=
  l.zipIdx.foldl (fun m e => if e.1.act n p = p then m ||| 2 ^ e.2 else m) 0

/-- The image set of a point: for each other point of its orbit the lowest-numbered element that leads there
(R246). -/
def imageSet (n : Pt) (l : List GElem) (p : Pt) : List GElem :=
  l.foldl (fun acc g => if g.act n p = p || acc.any (fun h => decide (h.act n p = g.act n p)) then acc else acc ++ [g]) []

/-! ### The imaged-output descriptor (R244) -/

def OutDesc.ext (o : OutDesc) : Pt := ⟨o.x0, o.x1, o.x2⟩
def OutDesc.tile (o : OutDesc) : Pt := ⟨o.t0, o.t1, o.t2⟩
def OutDesc.esize (o : OutDesc) : Nat := o.ety.width / 8
def OutDesc.size (o : OutDesc) : Nat := o.x0 * o.x1 * o.x2 * o.esize
/-- Address of an element (R244). -/
def OutDesc.addr (o : OutDesc) (e : Pt) : Nat := o.base + ((e.x0 * o.x1 + e.x1) * o.x2 + e.x2) * o.esize
/-- The element of a linear number. -/
def OutDesc.elemAt (o : OutDesc) (i : Nat) : Pt := ⟨i / (o.x1 * o.x2), i / o.x2 % o.x1, i % o.x2⟩

end Sys2Proof.Machine

namespace Sys2Proof.Machine

/-- The image of an element and its address under a group element (R245). -/
def imageAddr (o : OutDesc) (n : Pt) (g : GElem) (e : Pt) : Nat :=
  let t := o.tile
  let i := g.act n ⟨e.x0 / t.x0, e.x1 / t.x1, e.x2 / t.x2⟩
  let x := g.actIn t ⟨e.x0 % t.x0, e.x1 % t.x1, e.x2 % t.x2⟩
  o.addr ⟨i.x0 * t.x0 + x.x0, i.x1 * t.x1 + x.x1, i.x2 * t.x2 + x.x2⟩

/-- The value that an image holds: negated by an element of sign -1, a float by its sign bit alone (R245). -/
def imageVal (ety : ETy) (neg : Bool) (v : Nat) : Nat :=
  if !neg then v
  else match ety with
    | .f32 => v ^^^ 2 ^ 31
    | .b16 => v ^^^ 2 ^ 15
    | t => (2 ^ t.width - v) % 2 ^ t.width

/-! ### `sti` (R248) -/

/-- The element writes of a row's images: address and bytes. -/
def imageWrites (l : ImgLatch) (ea : Nat) (r : Row) : List (Nat × List Byte) :=
  let o := l.out
  let n : Pt := ⟨l.n0, l.n1, l.n2⟩
  let first := (ea - o.base) / o.esize
  (List.range (64 / o.esize)).flatMap (fun k =>
    l.set.map (fun g => (imageAddr o n g (o.elemAt (first + k)), natBytes (imageVal o.ety g.neg (elem r o.ety.width k)) o.esize)))

/-- ADDR for an imaged store, with its reason (R248). -/
def imageTrap (s : State) (reason ea : Nat) : CRes := .trap s (mkTrap cADDR (reason <<< 14 ||| infoDESC) ea)

/-- What the lowest address of a list meets, among those that p admits. -/
def lowestTr (p : Tr → Bool) : List (Nat × Tr) → Option (Nat × Tr)
  | [] => none
  | e :: r =>
    match lowestTr p r with
    | some f => if p e.2 && decide (e.1 ≤ f.1) then some e else some f
    | none => if p e.2 then some e else none

/-- The addresses of an imaged store checked together (R147, R248): the first fault of step 6, by address, unless
a lower one still waits for its translation; then step 7. -/
def checkAll (s : State) (l : List (Nat × Tr)) : Option CRes :=
  let notYet (t : Tr) : Bool := match t with
    | .ok _ => false
    | .extern => false
    | _ => true
  match lowestTr notYet l with
  | some (a, .addr info) => some (.trap s (mkTrap cADDR info a))
  | some (_, .miss page) => some (waitPage s page)
  | some (a, .ext r) => some (waitExt s r a)
  | _ =>
    match lowestTr (fun t => t == .extern) l with
    | some (a, _) => some (.trap s (mkTrap cXEXT 0 a))
    | none => none

/-- The image writes as work for the mould (R248, R249). -/
def dueImages (s : State) (scp : Scp) (ws : List (Nat × List Byte)) : List Img :=
  ws.filterMap (fun w => match resolve s (who s) .store w.1 with
    | .ok p => some { key := p.key, enc := p.enc, bytes := w.2, scp := scp, core := s.core.id, hv := s.core.hvNow, proc := s.core.slot.proc,
                      kern := s.core.slot.kern, ctxid := ctxOf s.core.hdr, at_ := s.timer }
    | _ => none)

/-- The images of a store whose state before and after are given: due at once, or once the primary, which is held,
has been performed (R191, R249). -/
def queueImages (imgs : List Img) (s0 s : State) : State :=
  if s.held.length = s0.held.length then modCl s (clIdx s.core.id) (fun c => { c with imgs := c.imgs ++ imgs })
  else { s with held := s.held.mapIdx (fun i h => if i = s0.held.length then { h with imgs := imgs } else h) }

/-- `sti` of a row at ea (R248). -/
def imagedStore (r : Row) (ord : Ord) (scp : Scp) (ea : Nat) (s : State) : CRes :=
  match s.core.slot.latch with
  | none => storeAt (rowBytes r 64) ord scp ea s
  | some l =>
    let o := l.out
    if ea + 63 < o.base || o.base + o.size ≤ ea then storeAt (rowBytes r 64) ord scp ea s
    else if ea < o.base || o.base + o.size ≤ ea + 63 then imageTrap s 1 ea
    else
      let first := (ea - o.base) / o.esize
      let t := o.tile
      let strays := (List.range (64 / o.esize)).any (fun k =>
        let e := o.elemAt (first + k)
        !(e.x0 / t.x0 == l.i0 && e.x1 / t.x1 == l.i1 && e.x2 / t.x2 == l.i2))
      if strays then imageTrap s 2 ea
      else if ea % 64 ≠ 0 then .trap s (mkTrap cAL infoWRO ea)
      else
        let ws := imageWrites l ea r
        let trs := (ea, resolve s (who s) .store ea) :: ws.map (fun w => (w.1, resolve s (who s) .store w.1))
        match checkAll s trs with
        | some res => res
        | none =>
          let imgs := dueImages s scp ws
          match storeAt (rowBytes r 64) ord scp ea s with
          | .go s' v t => .go (queueImages imgs s s') v t
          | .out s' v => .out (queueImages imgs s s') v
          | res => res

def execSti (a b : Opnd) (off : BitVec 5) (ord : Ord) (scp : Scp) (s : State) : Out :=
  control (.sti a b off ord scp) { srcs := [a, b] } (fun rs s =>
    imagedStore (nth rs 0) ord scp (eaCM (lane (nth rs 1) 0) (scaled off 64)) s) s
def execStiLone (a b : Opnd) (ord : Ord) (scp : Scp) (ext : Word) (s : State) : Out :=
  control (.stiLone a b ord scp ext) { srcs := [a, b] } (fun rs s =>
    imagedStore (nth rs 0) ord scp (eaCM (lane (nth rs 1) 0) ext) s) s

/-- IMAGE_WRITE: the mould of a cluster performs its oldest image that neither a range lock nor a held access to its bytes
that issued before its store keeps back, and that a link carries (R141, R180, R248, R249, R365). -/
def execImageWrite (cl : Nat) (s : State) : Out :=
  let c := getCl s cl
  let free (i : Img) : Bool := (rltLock s .store i.key).isNone && !linksWait s (linksOf s i.key) &&
    !s.held.any (fun h => h.core == i.core && decide (h.at_ < i.at_) && spotsMeet h.spots [⟨i.key, i.enc, i.bytes.length⟩])
  match c.imgs.find? free with
  | none => .next s
  | some i =>
    let s0 := charge (setCl s { c with imgs := c.imgs.erase i }) i.core .sram i.ctxid i.proc i.kern
    let s' := if awayFrom s i.core i.key then charge s0 i.core .net i.ctxid i.proc i.kern else s0
    .next (if reaches s ⟨i.core, i.hv, i.proc⟩ i.key then kWrite s' i.kern i.core i.hv i.ctxid i.proc ⟨i.key, i.enc⟩ i.bytes else s')

end Sys2Proof.Machine
end

