-- ==== Sys2Proof/Machine/Transfer.lean ====
section
/-! DEFINITION. Memory-core transfers (R330-R334), the weight store's state, key slots (R329), and the steps of
the transfer engines. -/

namespace Sys2Proof.Machine

/-- Address field of a transfer: XA of `xld` and `xst`, OFF of the others (R330). -/
def xferAddr (k : JKind) (r : Row) : Nat :=
  match k with
  | .xld => addr52 r 2
  | .xst => addr52 r 2
  | _ => (lane r 3).toNat

/-- The partition of a core and the issuing core's are one, and its weight store is open (R331, R334). -/
def storeReady (s : State) (w : Word) : Bool :=
  !isMem w && coreHere s w && (match partOf s w, partOf s s.core.id with
    | some p, some q => p.id == q.id && p.storeOpen
    | _, _ => false)

/-- The conditions of R330 and R331, each with the lanes it names, by their lowest. -/
def xferNamed (s : State) (k : JKind) (r : Row) : List (Nat × Bool) :=
  let buf := (lane r 0).toNat
  let len := ((lane r 1).extractLsb' 0 22).toNat
  let off := (lane r 3).toNat
  let hdr := lane r 4
  let sw := (lane r 5).toNat
  let common := [(0, decide (0x200000 < buf + len)), (1, decide (2 ^ 21 < len))]
  match k with
  | .xpush =>
    common ++ [(2, isMem (lane r 2) || !coreHere s (lane r 2) || shadowCore s (lane r 2)), (1, decide (0x60000 < off + len)),
      (4, hdr != 0 && (hdrBad hdr || decide (1 < hdrRows hdr))), (5, sw != all32 && (decide (0x60000 ≤ sw) || sw % 4 != 0)),
      (1, sw != all32 && decide (off ≤ sw) && decide (sw < off + len))]
  | .xws => common ++ [(2, !storeReady s (lane r 2)), (1, decide (0xA00000 < off + len))]
  | _ => common ++ [(2, decide (addr52 r 2 < 0x2000000))]

/-- Lanes and bits that a transfer uses (R330). -/
def xferMasks (k : JKind) : List Nat :=
  [all32, 2 ^ 22 - 1] ++ (match k with
    | .xpush => [all32, all32, all32, all32]
    | .xws => [all32, all32, 0, 0]
    | _ => [all32, 2 ^ 20 - 1, 0, 0]) ++ List.replicate 10 0

/-- The range an `xpush` registers in the consumer's cluster (R140, R331). -/
def xferRegs (k : JKind) (j : Job) : List Reg :=
  match k with
  | .xpush =>
    let a := localKey j.dest j.dst
    [⟨keyCl a, keyMem a, [(a / 64, (a + j.len - 1) / 64)], true, true⟩]
  | _ => []

/-- The bytes that a transfer reads, as pieces (key, length). -/
def xferReads (s : State) (k : JKind) (j : Job) : List (Nat × Nat) :=
  match k with
  | .xld => rangePieces s (who s) .load (j.len / 4096 + 2) j.dst j.len
  | _ => [(localKey j.core j.src, j.len)]

/-- A transfer on its descriptor (R331); like a copy it waits for its own context's held stores to the bytes it reads
(R188, R332; log 63). -/
def startTransfer (k : JKind) (r : Row) (s : State) : CRes :=
  let bad := reservedLanes r (xferMasks k) ++ xferNamed s k r
  let unit := getCl s (clIdx s.core.id)
  if k == .xws && !s.core.slot.prv then .trap s (mkTrap cPRIV 0 0)
  else
    match firstLane ((List.range 16).map (fun i => (i, bad.any (fun e => e.1 == i && e.2)))) with
    | some i => malformed s r i
    | none =>
      match [(lane r 0).toNat, (lane r 1).toNat, xferAddr k r].find? (fun v => v % 64 != 0) with
      | some v => .trap s (mkTrap cAL 0 v)
      | none =>
        let j := { blankJob s k (jobFree unit.jobs) with
                   src := (lane r 0).toNat, len := (lane r 1).toNat, dst := xferAddr k r, dest := lane r 2, hdr := lane r 4, sw := lane r 5 }
        if acqHeld s || jobCap unit.id ≤ unit.jobs.length then .wait outside s
        else if j.len = 0 then .go s 0 none
        else if storeHeld s (xferReads s k j) || !rltRoom s (xferRegs k j) then .wait outside s
        else .out (enqueue s j (xferRegs k j)) 0

def execXld (a : Opnd) (s : State) : Out := control (.xld a) { srcs := [a] } (fun rs s => startTransfer .xld (nth rs 0) s) s
def execXst (a : Opnd) (s : State) : Out := control (.xst a) { srcs := [a] } (fun rs s => startTransfer .xst (nth rs 0) s) s
def execXpush (a : Opnd) (s : State) : Out := control (.xpush a) { srcs := [a] } (fun rs s => startTransfer .xpush (nth rs 0) s) s
def execXws (a : Opnd) (s : State) : Out := control (.xws a) { srcs := [a] } (fun rs s => startTransfer .xws (nth rs 0) s) s

/-! ### Beats (R332, R333) -/

/-- 64 bytes of the engine's buffer. -/
def bufBytes (s : State) (j : Job) (b : Nat) : List Byte := memReadN s.mem (localKey j.core (j.src + b)) 64

/-- A beat has left the range of the push's entry (R333). -/
def shrinkEntries (s : State) (j : Job) (b : Nat) : State :=
  let line := localKey j.dest (j.dst + b) / 64
  j.rlt.foldl (fun s p => modCl s p.1 (fun c => { c with rlt := c.rlt.map (fun e =>
    if e.idx = p.2 then { e with spans := e.spans.filterMap (fun q => if q.2 ≤ line then none else some (max q.1 (line + 1), q.2)) } else e) })) s

/-- The beat at byte b of a transfer: the state it leaves, or where it faults (R332); a push's destination discards one that
it has accepted before (R366). -/
def xferBeat (s : State) (j : Job) (b : Nat) : Except (Nat × Tr) State :=
  match j.kind with
  | .xld =>
    match resolveX j.xl s j.who .load (j.dst + b) with
    | .ok p => .ok { s with mem := memWriteN s.mem (localKey j.core (j.src + b)) (kRead s j.kern p 64) }
    | t => .error (j.dst + b, t)
  | .xst =>
    match resolveX j.xl s j.who .store (j.dst + b) with
    | .ok p => .ok (kWrite s j.kern j.core j.hv j.ctxid j.proc p (bufBytes s j b))
    | t => .error (j.dst + b, t)
  | .xws => .ok { s with mem := memWriteN s.mem (sliceKey j.dest (j.dst + b)) (bufBytes s j b) }
  | _ =>
    if j.beat < expected s j then .ok (shrinkEntries s j b)
    else
      let m := memWriteN s.mem (localKey j.dest (j.dst + b)) (bufBytes s j b)
      let k := localKey j.dest j.sw.toNat
      let m' := if j.sw.toNat = all32 then m else memWriteN m k (natBytes ((memNat m k 4 + 1) % 2 ^ 32) 4)
      .ok (shrinkEntries { accepted s j with mem := m' } j b)

/-- The kind is a transfer's. -/
def JKind.isXfer : JKind → Bool
  | .cpy _ => false
  | _ => true

/-- The beat of an `xst` went to host memory: a read of the last line follows, after which the job completes (R332). -/
def readsBack (s : State) (j : Job) (b : Nat) : Bool :=
  j.kind == .xst && (match resolveX j.xl s j.who .store (j.dst + b) with
    | .ok p => decide (2 * spaceSize ≤ p.key) && decide (p.key < 3 * spaceSize)
    | _ => false)

/-- TRANSFER_BEAT: the engine of a memory core performs the next beat of the running transfer whose turn it is, or
stops it FAULTED before the beat; a push that still owes its message stays, an `xst` to host memory waits for its
read-back (R142, R332, R333). -/
def execTransferBeat (w : Word) (i : Nat) (ue : Bool) (s : State) : Out :=
  let cl := clIdx w
  let u := getCl s cl
  match nextBeat u with
  | none => .next s
  | some j =>
    let b := 64 * j.beat
    if j.slot ≠ i || !j.kind.isXfer then .next s
    else
      let s := setCl s { u with rr := i }
      if j.msgDue then .next (if ue then setJob s cl { j with st := .faulted 5 (j.dst + b - 64) } else dropJob s cl j)
      else if j.kind == .xws && (getCore s j.dest).inRefresh then .next s
      else if (jobLinks s j).any (linksWait s) then .next (jobHeld s j)
      else if ue then .next (setJob s cl { j with st := .faulted 5 (if j.kind == .xld then j.dst + b else j.src + b) })
      else
        match xferBeat s j b with
        | .error e => .next (beatFault s cl j e)
        | .ok s2 =>
          let s3 := if j.kind == .xld || j.kind == .xst then touchRange j.xl s2 j.who (j.dst + b) 64 else s2
          let s' := charge (charge s3 j.core .sram j.ctxid j.proc j.kern) j.core .net j.ctxid j.proc j.kern
          let j' := { j with beat := j.beat + 1, xl := Xlat.none }
          if b + 64 < j.len then .next (setJob s' cl j')
          else if (j.kind == .xpush && j.hdr != 0) || readsBack s j b then .next (setJob s' cl { j' with msgDue := true })
          else .next (dropJob s' cl j)

/-- An earlier access of a slot of a core is held or not performed at its scope, or images are due of a scope that the
release's contains: the release waits (R151, R190, R191, R249). -/
def agentBusy (s : State) (w : Word) (hv : Bool) (scp : Scp) : Bool :=
  !((getCore s w).slotOf hv).pend.isEmpty || s.held.any (fun h => h.core == w && h.hv == hv) || imagesDue s w hv scp s.timer

/-- PUSH_COMPLETION_MESSAGE: the message of a push whose beats have all landed is sent, as a release of the memory
core, and waits at its source while it is refused; the push's entry is freed (R140, R190, R204, R333). -/
def execPushCompletionMessage (w : Word) (i : Nat) (s : State) : Out :=
  let cl := clIdx w
  match (getCl s cl).jobs.find? (fun j => j.slot == i && j.kind == .xpush && j.msgDue) with
  | none => .next s
  | some j =>
    if agentBusy s w j.hv (narrowest w [j.dest]) then .next s else
    let rows := if hdrRows j.hdr = 0 then [] else [rowOfLanes [BitVec.ofNat 32 j.dst, BitVec.ofNat 32 j.len]]
    let m : Msg := { hdr := j.hdr, rows := rows, dest := [j.dest], srcw := w, kind := 5, addr := 0, i0 := 0, i1 := 0, i2 := 0, stab := 0,
                     dent := 0, hvSrc := j.hv, kern := j.kern, ctxid := j.ctxid, stamp := 0, img := none }
    .next { dropJob s cl j with net := s.net ++ [m] }

/-! ### The weight store and the key slots -/

/-- A kernel runs on compute cores of the partition: a handler, a message, a walker, a counter, a held access or engine
work of one is there, or what the ladder has saved of one returns there; or a kernel in progress, a launch or one that has run
on them, has work on memory cores that may still reach them (R194, R286, R334). -/
def partBusy (s : State) (p : Part) : Bool :=
  let here (w : Word) : Bool := !isMem w && pkgOf w == ownPkg s && p.clusters.contains (clIdx w)
  s.kerns.any (fun k => k.part == p.id && (k.launch || k.compute)) || s.saved.any (fun e => here e.core) || s.savedMsgs.any (fun m => m.dest.any here) ||
  s.savedDct.any (fun e => p.clusters.contains e.1) ||
  (allCores s).any (fun c => here c.id &&
    (c.slot.active || c.alt.active || !c.ni.isEmpty || c.shadow.isSome || !c.parked.isEmpty || !c.strms.isEmpty || !c.late.isEmpty)) ||
  s.clusters.any (fun u => p.clusters.contains u.id &&
    (!u.jobs.isEmpty || !u.dct.isEmpty || !u.posts.isEmpty || !u.ops.isEmpty || !u.imgs.isEmpty || !u.spill.isEmpty)) ||
  s.walkers.any (fun w => w.part == p.id) || s.net.any (fun m => m.dest.any here) || s.outbound.any (fun m => here m.srcw) ||
  s.decs.any (fun d => p.clusters.contains d.cl) || s.held.any (fun h => here h.core)

/-- WEIGHT_STORE_OPEN: the kiln opens the store of a partition where no kernel runs, but not in reduced service
(R334, R373). -/
def execWeightStoreOpen (part : Nat) (s : State) : Out :=
  match partById s part with
  | some p => if partBusy s p || s.firm.stage != 2 then .next s else .next (modPart s part (fun p => { p with storeOpen := true }))
  | none => .next s

/-- WEIGHT_STORE_CLOSE: the kiln closes it once every `xws` job of the partition has completed (R334). -/
def execWeightStoreClose (part : Nat) (s : State) : Out :=
  match partById s part with
  | some p =>
    if s.clusters.any (fun c => decide (256 ≤ c.id) && p.memCores.contains (c.id - 256) && c.jobs.any (fun j => j.kind == .xws)) then .next s
    else .next (modPart s part (fun p => { p with storeOpen := false }))
  | none => .next s

/-- KEY_SLOT_LOAD: the kiln loads or unloads an XTS key slot (R329); at stage 0 there is no service (R373). -/
def execKeySlotLoad (slot : Nat) (keys : Option (BitVec 256 × BitVec 256)) (s : State) : Out :=
  if 4096 ≤ slot || s.firm.stage == 0 then .next s
  else
    .next { s with keys := match keys with
      | some k => put s.keys slot k
      | none => drop' s.keys slot }

end Sys2Proof.Machine
end

