-- ==== Sys2Proof/Machine/Paging.lean ====
section
/-! DEFINITION. The steps of translation: walks, TLB fills and invalidations (R193, R320-R322), ATS and PRI
(R325-R327), completion timeouts (R324), page-table writes (R321). -/

namespace Sys2Proof.Machine

/-- The asker of a miss goes on: f tells it what came, if it still waits for that page. -/
def tellAsker (f : Xlat → Xlat) (s : State) (w : Word) (who : Asker) (page : Nat) : State :=
  let tell (x : Xlat) : Xlat := if x.page = some page then { f x with page := none } else x
  match who with
  | .slot hv =>
    modCore s w (fun c =>
      let x := { c.slotOf hv with xl := tell (c.slotOf hv).xl, waitC := none }
      if hv then c.setHarvest x else c.setOwner x)
  | .none => s
  | .job n => modCl s (clIdx w) (fun u => { u with jobs := u.jobs.map (fun j => if j.slot = n then { j with xl := tell j.xl } else j) })

/-- A translation fills the L1 of a core that misses it, and its asker goes on (R320). -/
def fillL1 (t : TlbEnt) (s : State) (m : Miss) : State :=
  tellAsker (fun x => { x with ents := t :: x.ents }) (modCore s m.core (fun c => { c with tlb := tlbFill c.tlb 256 t })) m.core m.asker m.page

/-- The miss lies in the page of the entry. -/
def Miss.within (m : Miss) (t : TlbEnt) : Bool := m.proc == t.proc && (m.page * 4096) >>> t.log == t.va >>> t.log

/-- The 32 walks that a die's walkers are at: the first of its queue, misses of one process and page being one walk
(R321). -/
def walking (s : State) (die : Nat) : List (Nat × Nat) :=
  (((s.misses.filter (fun m => dieOf m.core == die && (l2Find s m.core m.proc m.page).isNone)).map (fun m => (m.proc, m.page))).eraseDups).take 32

/-- PAGE_WALK: a walk for the core's first miss that a walker is at completes: it fills the L1 of every core of the
die that waits for its page, and the L2 of their clusters, or reports its fault to them (R318, R321). -/
def execPageWalk (w : Word) (s : State) : Out :=
  match s.misses.find? (fun m => m.core == w && (l2Find s m.core m.proc m.page).isNone && (walking s (dieOf w)).contains (m.proc, m.page)) with
  | none => .next s
  | some m =>
    match walk s m.proc (m.page * 4096) with
    | .leaf e =>
      let t := tlbEntry m.proc (m.page * 4096) e
      let hit (n : Miss) : Bool := dieOf n.core == dieOf w && n.within t
      let waiting := s.misses.filter hit
      let cls := ((waiting.filter (fun n => !isMem n.core)).map (fun n => clIdx n.core)).eraseDups
      let s := cls.foldl (fun s n => modCl s n (fun u => { u with l2 := tlbFill u.l2 4096 t })) { s with misses := s.misses.filter (fun n => !hit n) }
      .next (waiting.foldl (fillL1 t) s)
    | f =>
      let info := if f = .fmt then infoFMT else infoUNMAP
      let hit (n : Miss) : Bool := dieOf n.core == dieOf w && n.proc == m.proc && n.page == m.page
      let tell (s : State) (n : Miss) : State := tellAsker (fun x => { x with bad := (n.proc, n.page, info) :: x.bad }) s n.core n.asker n.page
      .next ((s.misses.filter hit).foldl tell { s with misses := s.misses.filter (fun n => !hit n) })

/-- L2_HIT_FILL: a miss that hits the cluster's L2 fills the L1 (R320). -/
def execL2HitFill (w : Word) (s : State) : Out :=
  match s.misses.find? (fun m => m.core == w && (l2Find s m.core m.proc m.page).isSome) with
  | none => .next s
  | some m =>
    match l2Find s w m.proc m.page with
    | some t => .next (fillL1 t { s with misses := s.misses.erase m } m)
    | none => .next s

/-- An entry or a stream lies in the range that an invalidation names (R322). -/
def invalHits (proc : Option Nat) (va len p a n : Nat) : Bool :=
  (match proc with
   | some q => p == q && (len == 0 || (decide (a < va + len) && decide (va < a + n)))
   | none => true)

/-- The core belongs to the partition. -/
def inPart (s : State) (part : Nat) (w : Word) : Bool :=
  match partOf s w with
  | some p => p.id == part
  | none => false

/-- The kiln removes translations of a partition: of a process and range, of a process (length 0), or all; completion is
due (R322). -/
def invalidate (part : Nat) (proc : Option Nat) (va len : Nat) (s : State) : State :=
  let keep (t : TlbEnt) : Bool := !invalHits proc va len t.proc t.va (2 ^ t.log)
  let old (x : Xlat) : Xlat := { x with ents := x.ents.filter keep }
  let kept (e : Saved) : Saved := { e with ctx := { e.ctx with slot := { e.ctx.slot with xl := old e.ctx.slot.xl } } }
  let s := mapCores s (fun c =>
    if inPart s part c.id then { c with tlb := c.tlb.filter keep }.mapSlots (fun x => { x with xl := old x.xl }) else c)
  let s := mapCls s (fun u =>
    if (partOfCl s u.id).any (fun p => p.id == part) then
      { u with l2 := u.l2.filter keep, jobs := u.jobs.map (fun j => { j with xl := old j.xl }) }
    else u)
  { s with saved := s.saved.map (fun e => if inPart s part e.core then kept e else e), invals := s.invals ++ [.tlb part proc va len] }

/-- TLB_INVALIDATE (R322). -/
def execTlbInvalidate (part : Nat) (proc : Option Nat) (va len : Nat) (s : State) : Out := .next (invalidate part proc va len s)

/-- An `xst` job's read-back of its last line has not returned (R332). -/
def Job.readBack (j : Job) : Bool := j.kind == .xst && j.msgDue

/-- An access that could have used a removed entry is still under way: a stream through the page of its pattern, a
store of any context, on its core or in the save area, an image, a held access or a read-back of the process (R193, R322). A
write that a durable kernel has journalled is no such access: its commit writes the target that it was translated to (DESIGN
CHOICE, log 85). -/
def invalWaits (s : State) (part : Nat) (proc : Option Nat) (va len : Nat) : Bool :=
  let of (p : Nat) : Bool := match proc with
    | some q => p == q
    | none => true
  (allCores s).any (fun c => inPart s part c.id &&
    (c.strms.any (fun t => decide (0x2000000 ≤ t.va) && invalHits proc va len t.proc (t.va / 2 ^ t.log * 2 ^ t.log) (2 ^ t.log)) ||
     c.slots.any (fun x => x.pend.any (fun p => of p.proc)))) ||
  s.saved.any (fun e => inPart s part e.core && e.ctx.slot.pend.any (fun p => of p.proc)) || s.held.any (fun h => inPart s part h.core && of h.proc) ||
  s.clusters.any (fun u => u.imgs.any (fun i => inPart s part i.core && of i.proc) ||
    u.jobs.any (fun j => j.readBack && inPart s part j.core && of j.proc))

/-- TLB_INVALIDATE_COMPLETE: the oldest TLB invalidation is reported complete once no access through a removed
entry is under way (R193). -/
def execTlbInvalidateComplete (s : State) : Out :=
  let isTlb (i : Inval) : Bool := match i with
    | .tlb .. => true
    | _ => false
  match s.invals.find? isTlb with
  | some (.tlb part proc va len) =>
    if invalWaits s part proc va len then .next s else .next { s with invals := s.invals.erase (.tlb part proc va len) }
  | _ => .next s

/-! ### ATS and PRI -/

/-- The request is gone from the core's list. -/
def dropExt (s : State) (w : Word) (q : ExtReq) : State := modCore s w (fun c => { c with ext := c.ext.erase q })
/-- A request has ended in a failure of kind 6, which its asker meets (R325, R326, R329). -/
def failExt (s : State) (w : Word) (q : ExtReq) : State :=
  tellAsker (fun x => { x with ebad := (q.pasid, q.page, 6) :: x.ebad }) (dropExt s w q) w q.asker q.page

/-- TRANSLATION_COMPLETION: the answer to a core's oldest Translation Request: the host page of 4 KiB × 2^n with its
rights fills the ATC, or the access fails (R325). -/
def execTranslationCompletion (w : Word) (ok : Bool) (page logSize : Nat) (r wr : Bool) (s : State) : Out :=
  match (getCore s w).ext.find? (fun q => !q.paged) with
  | none => .next s
  | some q =>
    if ok then
      let t : AtcEnt := { pasid := q.pasid, page := q.page * 4096, log := 12 + logSize, hpa := page * 4096, r := r, w := wr }
      let put (l : List AtcEnt) : List AtcEnt := (t :: l.filter (fun e => !(e.pasid == q.pasid && e.page >>> e.log == (q.page * 4096) >>> e.log))).take 1024
      .next (tellAsker id (modCore (dropExt s w q) w (fun c => { c with atc := put c.atc })) w q.asker q.page)
    else .next (failExt s w q)

/-- PAGE_REQUEST_GROUP_RESPONSE: the answer to a core's oldest Page Request: success leads to a new Translation
Request; the other responses end the access, and a Response Failure stops page requests until PRI is enabled again
(R326). The answer to an abandoned request is discarded (R337). -/
def execPageRequestGroupResponse (w : Word) (code : PrgCode) (s : State) : Out :=
  match (getCore s w).ext.find? (fun q => q.paged && q.sent) with
  | none => .next s
  | some q =>
    if q.asker = .none then .next (dropExt s w q) else
    match code with
    | .success => .next (modCore s w (fun c => { c with ext := c.ext.map (fun e => if e = q then { e with paged := false } else e) }))
    | .invalid => .next (failExt s w q)
    | .failure => .next { failExt s w q with priEnabled := false }

/-- PRI_REENABLE: page requests may be sent again, as many at a time as the host allocates (R326). -/
def execPriReenable (s : State) : Out := .next { s with priEnabled := true, prgAlloc := Config.prgAlloc }

/-- INVALIDATE_REQUEST: every memory core removes the matching ATC entries at once (R327). -/
def execInvalidateRequest (pasid page logSize : Nat) (s : State) : Out :=
  let lo := page * 4096
  let n := 2 ^ (12 + logSize)
  let keep (t : AtcEnt) : Bool :=
    !(t.pasid == pasid && decide (t.page / 2 ^ t.log * 2 ^ t.log < lo + n) && decide (lo < t.page / 2 ^ t.log * 2 ^ t.log + 2 ^ t.log))
  let s := mapCores s (fun c => { c with atc := c.atc.filter keep })
  .next { s with invals := s.invals ++ [.host pasid page logSize] }

/-- INVALIDATION_COMPLETION: the oldest host invalidation is answered once no access to host memory is still
under way (R327). -/
def execInvalidationCompletion (s : State) : Out :=
  let isHost (i : Inval) : Bool := match i with
    | .host .. => true
    | _ => false
  let host (k : Nat) : Bool := decide (2 * spaceSize ≤ k) && decide (k < 3 * spaceSize)
  let busy := s.held.any (fun h => h.spots.any (fun p => host p.key)) ||
    (allCores s).any (fun c => c.late.any (fun l => host l.addr) || c.strms.any (fun t => host t.lo) ||
      c.slots.any (fun x => x.pend.any (fun p => host p.addr))) || s.saved.any (fun e => e.ctx.slot.pend.any (fun p => host p.addr)) ||
    s.clusters.any (fun u => u.imgs.any (fun i => host i.key) || u.jobs.any Job.readBack)
  match s.invals.find? isHost with
  | some i => if busy then .next s else .next { s with invals := s.invals.erase i }
  | none => .next s

/-- A request to external memory that is out: a load or atomic, a store, a job's beat with the address it is at. -/
inductive ExtOut where
  | load (l : Late)
  | store (hv : Bool) (p : PendW)
  | beat (j : Job) (addr : Nat)
  deriving DecidableEq, Repr

/-- An address leads a job's beat to external memory. -/
def outOfChip (s : State) (j : Job) (k : AKind) (a : Nat) : Bool :=
  match resolveX j.xl s j.who k a with
  | .ok p => isExternal p.key
  | _ => false

/-- The external request of a running job of a memory core, by its address: the beat that is next, once it is translated and
leads outside, or the read-back of the last one (R326, R329, R332). -/
def jobOut (s : State) (j : Job) : Option Nat :=
  let b := 64 * j.beat
  if j.st != .running then none
  else
    match j.kind with
    | .cpy k =>
      if k != .fill && outOfChip s j .load (beatAddr j k) then some (beatAddr j k)
      else if outOfChip s j (cpyDst k) (j.dst + b) then some (j.dst + b)
      else none
    | .xld => if outOfChip s j .load (j.dst + b) then some (j.dst + b) else none
    | .xst => if j.msgDue then some (j.dst + b - 64) else if outOfChip s j .store (j.dst + b) then some (j.dst + b) else none
    | _ => none

/-- The external requests of a core that are out: a held access is not. -/
def extOut (s : State) (w : Word) : List ExtOut :=
  let c := getCore s w
  let held (hv : Bool) (p : PendW) : Bool := s.held.any (fun h => h.core == w && h.hv == hv && spotKey h.spots == p.addr)
  let stores (hv : Bool) (x : Slot) : List ExtOut := (x.pend.filter (fun p => isExternal p.addr && !held hv p)).map (ExtOut.store hv)
  (c.late.filter (fun l => isExternal l.addr && l.data.isSome)).map ExtOut.load ++ stores c.hvNow c.slot ++ stores (!c.hvNow) c.alt ++
    (getCl s (clIdx w)).jobs.filterMap (fun j => (jobOut s j).map (ExtOut.beat j))

/-- COMPLETION_TIMEOUT: the completion of an external request of the core ends in an error or does not come, one of those
that are out, which a free value chooses (log 5): a load lands zeros with a machine check, a store has one, a job's beat is
FAULTED with kind 7 (R153, R324, R329). -/
def execCompletionTimeout (w : Word) (s0 : State) : Out :=
  let l := extOut s0 w
  let (r, s) := takeFree s0
  let c := getCore s w
  let mchk (s : State) (k : KRef) (hv : Bool) (ctxid proc addr : Nat) : State :=
    mchkStop s k w hv ctxid proc (arrayOf addr <<< 17 ||| 1 <<< 9) (lineAddr addr)
  match l[r.toNat % l.length]? with
  | some (.load l) =>
    let c' := landCkpt (landIn { c with late := c.late.filter (fun m => m.id != l.id) } l 0) l 0
    .next (mchk (setCore s c') l.kern l.hv l.ctxid l.proc l.addr)
  | some (.store hv p) =>
    let drop (x : Slot) : Slot := { x with pend := x.pend.erase p }
    let c' := if hv then c.setHarvest (drop c.harvest) else c.setOwner (drop c.owner)
    .next (mchk (setCore s c') p.kern hv p.ctxid p.proc p.addr)
  | some (.beat j a) => .next (setJob s (clIdx w) { j with st := .faulted 7 a })
  | none => .next s0

/-- The kiln rewrites an entry of a table, in a memory-core buffer or in the pool; elsewhere there is none (R315). -/
def putEntry (s : State) (key : Nat) (entry : DWord) : State :=
  let table := key % 8 == 0 && ((isChip key && keyKind key == 2) || (decide (spaceSize ≤ key) && decide (key < 2 * spaceSize)))
  if table then { s with mem := memWriteN s.mem key (natBytes entry.toNat 8) } else s

/-- PAGE_TABLE_WRITE (R315, R321). -/
def execPageTableWrite (key : Nat) (entry : DWord) (s : State) : Out := .next (putEntry s key entry)

end Sys2Proof.Machine
end

