-- ==== Sys2Proof/Machine/Kernels.lean ====
section
/-! DEFINITION. Stopping a kernel (R276, R277, R297), change of process (R135), core reset (R254), paired cores
(R362-R364), links (R365), scrubbing (R360), refresh windows (R138), and what the kiln reads and writes through
a process's tables (R288, R370). -/

namespace Sys2Proof.Machine

/-! ### The kiln's accesses for a queue -/

/-- The place of a byte of a process, as the front end and the kiln reach it; none where it is not mapped, or not
for that kind of access (R288, R370). -/
def kilnPlace (s : State) (proc : Nat) (k : AKind) (a : Nat) : Option Place :=
  if a < 0x2000000 || 2 ^ 52 ≤ a then none
  else
    match walk s proc a with
    | .leaf e =>
      let t := leafTarget e a
      if (k.reads && !pteR e) || (k.writes && !pteW e) then none
      else
        match pteTgt e with
        | 0 => if keyKind t == 1 && (lender s (keyCl t) (keyOff t / 4096)).isSome then none else some ⟨pairKey s t, none⟩
        | 1 => some ⟨cxlKey t, if pteE e then some (pteKey e) else none⟩
        | _ => some ⟨hostKey t, none⟩
    | _ => none

/-- n bytes from a up lie in mapped ranges of the process that permit an access of the kind, if one is given; f bounds
the pages (R281, R370). -/
def mappedFrom (s : State) (proc : Nat) (k : Option AKind) : Nat → Nat → Nat → Bool
  | 0, _, n => n == 0
  | f + 1, a, n =>
    n == 0 || (decide (0x2000000 ≤ a) && decide (a < 2 ^ 52) &&
      (match walk s proc a with
       | .leaf e =>
         let m := min n (2 ^ sizeLog (pteSize e) - a % 2 ^ sizeLog (pteSize e))
         k.all (fun k => (!k.reads || pteR e) && (!k.writes || pteW e)) && mappedFrom s proc k f (a + m) (n - m)
       | _ => false))
def mapped (s : State) (proc : Nat) (k : Option AKind) (a n : Nat) : Bool := mappedFrom s proc k (n / 4096 + 2) a n

/-- Reads n bytes by lines; f bounds their number. -/
def kilnRead (s : State) (proc : Nat) : Nat → Nat → Nat → Option (List Byte)
  | 0, _, _ => some []
  | f + 1, a, n =>
    let m := min n (64 - a % 64)
    if n = 0 then some []
    else
      match kilnPlace s proc .load a, kilnRead s proc f (a + m) (n - m) with
      | some p, some r => some (readPlace s p m ++ r)
      | _, _ => none

/-- Writes bytes that lie in one line: none where the write faults. -/
def kilnWrite (s : State) (proc a : Nat) (bs : List Byte) : Option State :=
  (kilnPlace s proc .store a).map (fun p => writePlace s p bs)

/-- The 32-bit words of a list of bytes. -/
def wordsOf (n : Nat) (bs : List Byte) : List Word := (List.range n).map (fun i => BitVec.ofNat 32 (bytesNat ((bs.drop (4 * i)).take 4)))

/-! ### Queues -/

/-- CI moves past the records that have retired, and with it the next one to start, where CI had come up to it: after a replay
the first of them may have retired before (R283, R287, R368); n bounds the moves. -/
def advanceCi : Nat → Queue → Queue
  | 0, q => q
  | n + 1, q =>
    if q.retired.any (fun r => r.recNo == q.ci) then
      advanceCi n { q with ci := q.ci + 1, next := if q.next = q.ci then q.ci + 1 else q.next }
    else q

/-- A record retires (R287). -/
def retire (s : State) (q : Nat) (r : Retired) : State :=
  modQueue s q (fun x => advanceCi (x.retired.length + 1) { x with retired := x.retired ++ [r] })

/-- Writes a fault record through the capability of the fault area, unless the area is full; the record that fills it
sets FAULT 6 (R277, R297, R369). `words` are words 0 to 14. -/
def writeFault (s : State) (x : Queue) (words : List Word) : State :=
  if x.full then modQueue s x.id (fun y => { y with fault := 6 })
  else
    let seq : Word := if x.fcount + 1 = 0 then 1 else x.fcount + 1
    let row := setLane (rowOfLanes (words.take 15)) 15 seq
    let at_ := x.farea + 64 * (x.fcount.toNat % x.flen)
    let s' := if viaFaults s (areaGranule x.id) .write at_ 64 then s else (kilnWrite s x.process at_ (rowBytes row 64)).getD s
    modQueue s' x.id (fun y =>
      let y := { y with fcount := y.fcount + 1 }
      if y.full then { y with fault := 6 } else y)

/-- The words 0 to 14 of the fault record of a stop (R277). -/
def stopWords (r : StopReq) : List Word :=
  [BitVec.ofNat 32 (r.kern.queue ||| r.flags <<< 12 ||| (r.kern.gen % 65536) <<< 16), r.kern.recNo, r.core,
   BitVec.ofNat 32 (r.ctxid ||| r.proc <<< 24), r.pc, r.lane4, BitVec.ofNat 32 r.faddr, BitVec.ofNat 32 (r.faddr >>> 32), r.fword,
   r.stamp.extractLsb' 0 32, r.stamp.extractLsb' 32 32, r.epcA, 0, 0, 0]

/-- A fault record of the kiln that no core raised: CAUSE ADDR with an INFO and FADDR (R288, R370). -/
def kilnFault (s : State) (x : Queue) (recNo : Word) (info faddr : Nat) : State :=
  writeFault s x [BitVec.ofNat 32 (x.id ||| 4 <<< 12 ||| (x.gen % 65536) <<< 16), recNo, 0, BitVec.ofNat 32 (x.process <<< 24), 0,
    BitVec.ofNat 32 (cADDR ||| info), BitVec.ofNat 32 faddr, BitVec.ofNat 32 (faddr >>> 32), 0, 0, 0, 0, 0, 0, 0]

/-! ### Taking a kernel's work away (R276) -/

/-- Accesses of the kernel that have issued and are not performed are discarded; a load among them lands zeros, so that
no interlock is left waiting (R195, R276). -/
def dropHeld (s : State) (k : KRef) : State :=
  let gone := s.held.filter (fun h => h.kern == k)
  let free (s : State) (h : Held) : State := modCore s h.lateAt (fun c =>
    { c with late := c.late.map (fun l => if l.id = h.lateId ∧ l.data = none ∧ l.kern = k then { l with data := some 0 } else l) })
  { gone.foldl free s with held := s.held.filter (fun h => h.kern != k) }

/-- The kernel's copy jobs and transfers are aborted (R143). -/
def dropJobs (s : State) (k : KRef) : State := ((allJobs s).filter (fun j => j.kern == k)).foldl (fun s j => dropJob s (clIdx j.core) j) s

/-- Its streams are cancelled, and its beats in channels discarded (R164). -/
def dropStreams (s : State) (k : KRef) : State :=
  let es := (allCores s).flatMap (fun c => (c.strms.filter (fun t => t.kern == k)).flatMap (fun t => t.rlt))
  let clean (q : Vector (List Beat) 4) : Vector (List Beat) 4 := q.map (fun l => l.filter (fun b => b.kern != k))
  mapCores (rltDrop s es) (fun c => { c with strms := c.strms.filter (fun t => t.kern != k), chans := clean c.chans,
                                             ckpt := c.ckpt.map (fun p => { p with chans := clean p.chans }) })

/-- Its posts are withdrawn and its operations cancelled, their entries freed (R235). -/
def dropGangs (s : State) (k : KRef) : State :=
  let mineOp (o : GangOp) : Bool := o.members.any (fun m => m.kern == k)
  let es := s.clusters.flatMap (fun u => (u.posts.filter (fun p => p.kern == k)).flatMap (fun p => p.rlt) ++
    (u.ops.filter mineOp).flatMap (fun o => o.members.flatMap Member.rlt))
  let held := (allCores s).flatMap (fun c => c.slots.flatMap (fun x => if x.kern == k && x.active then x.gangRegs else []))
  mapCls (rltDrop s (es ++ held)) (fun u => { u with posts := u.posts.filter (fun p => p.kern != k), ops := u.ops.filter (fun o => !mineOp o) })

/-- The requests to the host of the kernels that p admits are abandoned: the response to a page request that has been sent
will find nobody (R337). -/
def abandonExt (p : KRef → Bool) (s : State) : State :=
  let ofReq (e : ExtReq) : Option ExtReq :=
    if !p e.kern then some e else if e.paged && e.sent then some { e with asker := .none } else none
  mapCores s (fun c => { c with ext := c.ext.filterMap ofReq })

/-- Its DCT entries become FREE, its decrements are discarded (R218), its image writes are discarded (R195). -/
def dropEntries (s : State) (k : KRef) : State :=
  let keep (e : Nat × DctEnt) : Bool := match e.2 with
    | .armed _ _ _ _ k' _ => k' != k
    | .fault k' => k' != k
  { mapCls s (fun u => { u with dct := u.dct.filter keep, imgs := u.imgs.filter (fun i => i.kern != k) }) with
    savedDct := s.savedDct.filter (fun e => keep e.2), decs := s.decs.filter (fun d => d.kern != k) }

/-- Its message slots are freed, its messages discarded (R202, R203). -/
def dropMsgs (s : State) (k : KRef) : State :=
  let s := mapCls s (fun u => { u with spill := u.spill.filter (fun e => e.2.kern != k) })
  let gone := (allCores s).flatMap (fun c => (c.ni.filter (fun n => n.msg.kern == k)).map (fun n => (c.id, n.idx)))
  let s := gone.foldl (fun s e => niDrop s e.1 e.2) s
  { s with net := s.net.filter (fun m => m.kern != k), outbound := s.outbound.filter (fun m => m.kern != k),
           remote := s.remote.filter (fun m => m.kern != k), savedMsgs := s.savedMsgs.filter (fun m => m.kern != k) }

/-- Its contexts leave their slots, the shadow sets, the banks, with the late writes that are due there, and the save area; a
lending that it began ends
(R302). -/
def dropContexts (s : State) (k : KRef) : State :=
  let out (x : Slot) : Slot := if x.kern = k && (x.active || x.halted) then x.vacant else x
  let left (c : Core) (l : Late) : Late := match l.dest with
    | .bank b _ => if c.parked.any (fun p => p.bank == b && p.slot.kern == k) then { l with dest := .none } else l
    | _ => l
  let s := mapCores s (fun c =>
    { c with late := c.late.map (left c), slot := out c.slot, alt := out c.alt, shadow := c.shadow.filter (fun h => h.slot.kern != k),
             parked := c.parked.filter (fun p => p.slot.kern != k), ckpt := if c.owner.kern = k then none else c.ckpt,
             lend := if c.lendKern = some k then c.lend &&& 0x7FFFFFFF else c.lend,
             lendKern := if c.lendKern = some k then none else c.lendKern })
  { s with saved := s.saved.filter (fun e => e.kern != k) }

/-- The group-table entries of the kernel are given back: `cx.grp`, the barriers and their arrivals (R291). -/
def dropGroups (s : State) (k : Kern) : State :=
  let held (w : Word) : Bool := w.getLsbD 31 && k.groups.contains (grpIndex w)
  let s := mapCores s (fun c => if inPart s k.part c.id && !k.groups.isEmpty then
    { c with grp := c.grp.map (fun w => if held w then 0 else w), barArr := c.barArr.filter (fun e => !k.groups.contains e.1) } else c)
  let s := { s with bars := s.bars.filter (fun b => !(b.part == k.part && k.groups.contains b.grp)) }
  modPart s k.part (fun p => { p with groups := p.groups.filter (fun e => !k.groups.contains e.1) })

/-- A core that is no longer one of a pair: no checkpoint, no slot of it runs a paired kernel (R362). -/
def Core.unpair (c : Core) : Core := { c.mapSlots (fun x => { x with paired := false }) with ckpt := none }

/-- A former shadow as its primary is: its rows, arrays and control registers, and, where it has no handler of its own, what the
owner slot keeps between handlers (R19, R362, R363; log 27). -/
def Core.twin (c d : Core) : Core :=
  let x := c.owner
  let y := d.owner
  let e := { (d.setTiles c.tiles) with regs := c.regs, mstat := c.mstat, scla := c.scla, sclb := c.sclb }
  if y.active then e else e.setOwner { y with ofile := x.ofile, latC := x.latC, latA := x.latA, fpm := x.fpm, lastProc := x.lastProc }

/-- The last paired kernel of a partition has ended: each shadow holds what its primary holds, and is a core again (R362;
log 27). -/
def splitPairs (s : State) (part : Nat) : State :=
  if s.kerns.any (fun k => k.pair && k.part == part) then s
  else
    let odd (a : Nat) : Bool := (a >>> 33) % 2 == 1
    let mine (a : Nat) : Bool := isChip a && keyPkg a == ownPkg s && keyKind a == 0 && (partOfCl s (keyCl a)).any (fun p => p.id == part)
    let own := s.mem.filter (fun c => !(mine c.1 && odd c.1))
    let m := (own.filter (fun c => mine c.1)).foldl (fun m c => memWrite m (c.1 + 2 ^ 33) c.2) own
    let ps := (allCores s).filter (fun c => !isMem c.id && coreOf c.id % 2 == 0 && inPart s part c.id)
    mapCores (ps.foldl (fun s c => modCore s (c.id ||| 0x2000) (Core.twin c)) { s with mem := m })
      (fun c => if inPart s part c.id then c.unpair else c)

/-- Everything of a kernel is gone (R276, R367): its journal, if any, is discarded. -/
def dropKernel (s : State) (k : Kern) : State :=
  let s := dropGangs (dropStreams (dropJobs (abandonExt (fun r => r == k.ref) s) k.ref) k.ref) k.ref
  let s := dropContexts (dropMsgs (dropEntries (dropHeld s k.ref) k.ref) k.ref) k.ref
  let s := dropGroups s k
  let s := modQueue s k.ref.queue (fun x => { x with journal := x.journal.filter (fun e => e.1 != k.ref.recNo) })
  let s := { s with walkers := s.walkers.filter (fun w => w.kern != k.ref), kerns := s.kerns.filter (fun r => r.ref != k.ref) }
  if k.pair then splitPairs s k.part else s

/-- A kernel as one that has no record: the kiln's own work. -/
def bareKern (k : KRef) : Kern :=
  { ref := k, proc := 0, part := 0, launch := false, compute := false, pair := false, module := 0, groups := [], dctLo := 0, dctHi := 1023, cap := 0, charged := 0,
    tlimit := 0, began := 0, sig := false, sigAddr := 0, sigVal := 0 }

/-- What a kernel leaves to its signal when its record retires with a status and code. -/
def Kern.ending (k : Kern) (status code : Nat) : Retired :=
  { recNo := k.ref.recNo, sig := k.sig, sigAddr := k.sigAddr, sigVal := k.sigVal, status := status, code := code, gen := k.ref.gen }

/-- A kernel of a queue ends without completing: its record retires with that status and code, be it that it had not started,
and later ones may follow (R287, R288). -/
def endKernel (s : State) (k : Kern) (status code : Nat) : State :=
  retire (markStarted (dropKernel s k) k.ref) k.ref.queue (k.ending status code)

/-- A kernel completes: its groups are given back and its record retires; what it leaves in the machine stays
(R286, R291). -/
def finishKernel (s : State) (k : Kern) : State :=
  let s := dropGroups s k
  let s := { s with kerns := s.kerns.filter (fun r => r.ref != k.ref) }
  retire (if k.pair then splitPairs s k.part else s) k.ref.queue (k.ending 0 0)

/-- KERNEL_STOP: the kiln stops the kernel of the oldest request, writes its fault record, and retires its record
with STATUS 2 (R276, R277, R297). -/
def execKernelStop (s : State) : Out :=
  match s.stops with
  | [] => .next s
  | r :: rs =>
    let s := { s with stops := rs }
    match queueById s r.kern.queue with
    | none => .next (dropKernel s (bareKern r.kern))
    | some x =>
      if x.gen ≠ r.kern.gen then .next s
      else
        let s := modQueue s x.id (fun y => { y with fault := r.faultCode })
        let s := writeFault s x (stopWords r)
        match s.kerns.find? (fun k => k.ref == r.kern) with
        | some k => .next (endKernel s k 2 (r.lane4.toNat % 256))
        | none => .next s

/-! ### Change of process (R135) -/

/-- Owner-slot work of the cluster's process remains on the cluster. -/
def ownerWork (s : State) (cl : Nat) : Bool :=
  let here (w : Word) : Bool := clIdx w == cl
  let u := getCl s cl
  (allCores s).any (fun c => here c.id && (c.owner.active || c.shadow.isSome || c.strms.any (fun t => !t.hv))) ||
  !u.posts.isEmpty || !u.ops.isEmpty || (allJobs s).any (fun j => here j.core && !j.hv)

/-- The process of the message that a core's owner slot would take but for the cluster's process: the first by
R205 among those of another process. Where several cores have one, the first listed core's counts (DESIGN CHOICE,
log 60). -/
def waitingProc (s : State) (cl : Nat) : Option Nat :=
  let foreign (c : Core) (n : NiSlot) : Bool := foreignMsg s c n && !harvestOnly c n && !stopped s n.msg.kern
  match (allCores s).find? (fun c => clIdx c.id == cl && (pickReady (foreign c) c.ni).isSome) with
  | some c => (pickReady (foreign c) c.ni).map (fun n => tagProc (tagOf c (hdrTag n.msg.hdr)))
  | none => none

/-- Rows lo to lo + n - 1, operand file, latches, tiles and code table of a core, zeroed for a process; its lending
ends (R302). -/
def cleanCore (proc : Nat) (c : Core) : Core :=
  let b := look (0, 2048) c.bounds proc
  let x := c.owner
  let c := c.setOwner { x with ofile := Vector.replicate 8 0, latC := 0, latA := 0 }
  { ((c.zeroRows b.1 b.2).setTiles Tiles.reset) with lend := c.lend &&& 0x7FFFFFFF, lendKern := none }

/-- The scratchpad and the local memories of a cluster, as listed, and the arrays of its cores, and the rows within a process's
bound there. -/
def clusterBytes (s : State) (cl : Nat) : List (Nat × Byte) :=
  s.mem.filter (fun c => isChip c.1 && keyPkg c.1 == ownPkg s && keyKind c.1 != 2 && keyCl c.1 == cl)
def clusterTiles (s : State) (cl : Nat) : List (Word × Tiles) :=
  ((allCores s).filter (fun c => clIdx c.id == cl)).map (fun c => (c.id, c.tiles))

def clusterRegs (s : State) (cl proc : Nat) : List (Word × List (Nat × Row)) :=
  ((allCores s).filter (fun c => clIdx c.id == cl)).map (fun c =>
    let b := look (0, 2048) c.bounds proc
    (c.id, c.regs.filter (fun e => decide (b.1 ≤ e.1) && decide (e.1 < b.1 + b.2))))

/-- The cluster leaves a process: what the save area holds of its memories for it is as they are now (R294). -/
def leaveMem (s : State) (cl : Nat) : State :=
  { s with savedMem := s.savedMem.map (fun e =>
      if e.cl = cl ∧ (getCl s cl).proc = some e.proc ∧ e.lost = false then
        { e with bytes := clusterBytes s cl, tiles := clusterTiles s cl, regs := clusterRegs s cl e.proc, lost := true }
      else e) }

/-- The kiln creates the starting contexts of a process on a core anew, whose rows it has zeroed (R262, R279). -/
def createContexts (proc : Nat) (c : Core) : Core :=
  (c.tags.filter (fun e => tagV e.2 && tagProc e.2 == proc)).foldl (fun c e => createContext e.1 c) c

/-- The cluster's memories are zeroed for a process, and the cluster changes to it (R135, R231, R236, R237). -/
def changeProcess (s : State) (cl p : Nat) : State :=
  let s := mapCores (leaveMem s cl) (fun c => if clIdx c.id == cl then createContexts p (cleanCore p c) else c)
  let m := memZero s.mem (scratchKeyOf (ownPkg s) cl 0) 0x1F0000
  let m := (List.range 8).foldl (fun m i => memZero m (localKey (clCore s cl i) 0) 0x60000) m
  modCl { s with mem := m } cl (fun u => { u with proc := some p })

/-- The cluster can change its process: nothing of its process is left on its owner slots, and every late write
has landed (R135). -/
def mayChange (s : State) (cl : Nat) : Bool :=
  decide (cl < 256) && !ownerWork s cl && !(allCores s).any (fun c => clIdx c.id == cl && !c.late.isEmpty)

/-- PROCESS_CHANGE: the cluster changes to the process that waits (R135). -/
def execProcessChange (cl : Nat) (s : State) : Out :=
  match waitingProc s cl with
  | none => .next s
  | some p => if mayChange s cl then .next (changeProcess s cl p) else .next s

/-! ### Core reset -/

/-- CORE_RESET: the core is as reset leaves it, its register rows apart, which no rule clears; its streams and posts go with
it. The jobs it has issued begin again at their first beat; what a reduction or a push has delivered is not delivered again
(R19, R132, R231, R236, R254, R366; log 80). What its contexts have done since the last metering is still to be charged (R351). -/
def execCoreReset (w : Word) (s : State) : Out :=
  let c := getCore s w
  let cl := clIdx w
  let mineJob (j : Job) : Bool := j.core == w
  let s := modJobs s mineJob (fun j => { j with beat := 0, xl := Xlat.none, msgDue := false, st := if j.st == .running then .queued else j.st })
  let s := rltDrop s (c.strms.flatMap (fun t => t.rlt))
  let u := getCl s cl
  let gone := u.posts.filter (fun p => !isMem w && p.core == coreOf w)
  let mineOp (o : GangOp) : Bool := !isMem w && o.members.any (fun m => m.core == coreOf w)
  let es := gone.flatMap (fun p => p.rlt) ++ (u.ops.filter mineOp).flatMap (fun o => o.members.flatMap Member.rlt) ++
    c.slots.flatMap Slot.gangRegs
  let s := if gone.isEmpty && !u.ops.any mineOp then s
    else setCl s { u with posts := u.posts.filter (fun p => !gone.contains p), ops := u.ops.filter (fun o => !mineOp o) }
  let s := rltDrop s es
  let s := { s with held := s.held.filter (fun h => h.core != w), misses := s.misses.filter (fun m => m.core != w) }
  .next (setCore s { Core.reset w with regs := c.regs, activity := c.activity })

/-! ### Paired cores -/

/-- `ckpt` (R364): in a paired kernel a checkpoint forms once the control stream is here and every earlier
arithmetic word has completed; elsewhere it does nothing. -/
def execCkpt (s : State) : Out :=
  control .ckpt {} (fun _ s =>
    let x := s.core.slot
    if !x.paired || s.core.hvNow || isMem s.core.id then .go s 0 none
    else if !x.backlog.isEmpty then .wait outside s
    else .out s 0) s

/-- PAIR_ROLLBACK: the cores of a pair differ, or one has met an uncorrectable error of its own: the pair rolls
back to its checkpoint (R364). -/
def execPairRollback (w : Word) (s : State) : Out :=
  if (getCore s w).owner.paired then .next (rollback s w) else .next s

/-! ### Links (R365) -/

/-- LINK_FLIT: a flit arrives: accepted in order, discarded where its CRC fails or it has been accepted before;
the sixteenth failure of one flit makes the link retrain (R365). -/
def execLinkFlit (n seq : Nat) (crcOk : Bool) (s : State) : Out :=
  let l := linkOf s n
  if l.down || l.retrain then .next s
  else if !crcOk then .next (setLink s { l with fails := l.fails + 1, retrain := decide (16 ≤ l.fails + 1) })
  else if seq = l.expect then .next (setLink s { l with expect := l.expect + 1, fails := 0 })
  else .next s

/-- Work whose target lies beyond the package: its kernel, core, slot, CTXID and process, and the links that lead there
(R361, R365). -/
structure Beyond where
  kern : KRef
  core : Word
  hv : Bool
  ctxid : Nat
  proc : Nat
  links : List Nat
  deriving DecidableEq, Repr

/-- The stores not yet performed of a context. -/
def Slot.beyond (s : State) (w : Word) (hv : Bool) (x : Slot) : List Beyond :=
  x.pend.map (fun p => ⟨p.kern, w, hv, p.ctxid, p.proc, linksOf s p.addr⟩)

def beyondWork (s : State) : List Beyond :=
  let far (m : Msg) : List Beyond := (m.dest.filter (fun w => pkgOf w != ownPkg s)).map (fun w =>
    ⟨m.kern, m.srcw, m.hvSrc, m.ctxid, procOfKern s m.kern, linksTo s (pkgOf w)⟩)
  List.flatten
    [(s.outbound ++ s.remote ++ s.net).flatMap far,
     s.decs.filterMap (fun d => if d.pkg = ownPkg s then none else some ⟨d.kern, d.core, d.hv, d.ctxid, procOfKern s d.kern, linksTo s d.pkg⟩),
     s.held.flatMap (fun h => h.spots.map (fun p => ⟨h.kern, h.core, h.hv, h.ctxid, h.proc, linksOf s p.key⟩)),
     (allCores s).flatMap (fun c => c.slot.beyond s c.id c.hvNow ++ c.alt.beyond s c.id (!c.hvNow) ++
       (c.shadow.toList.flatMap (fun h => h.slot.beyond s c.id false)) ++ c.parked.flatMap (fun p => p.slot.beyond s c.id true)),
     (allCores s).flatMap (fun c => c.strms.map (fun t => ⟨t.kern, c.id, t.hv, t.ctxid, t.proc, linksOf s t.key⟩)),
     (allJobs s).flatMap (fun j => (jobLinks s j).map (fun l => ⟨j.kern, j.core, j.hv, j.ctxid, j.proc, l⟩))]

/-- Work that can reach its target only over links that are down, the given one among them. -/
def cutOff (s : State) (n : Nat) : List Beyond :=
  (beyondWork s).filter (fun b => b.links.contains n && b.links.all (fun l => (linkOf s l).down))

/-- The first of each kernel's. -/
def perKernel : List Beyond → List Beyond
  | [] => []
  | b :: r => b :: (perKernel r).filter (fun d => d.kern != b.kern)

/-- LINK_RETRAIN: the link works again, or is marked down: the kiln routes around it, and a kernel whose work can reach its
target over no other link stops by a machine check, SOURCE 3 (R361, R365). -/
def execLinkRetrain (n : Nat) (ok : Bool) (s : State) : Out :=
  let l := linkOf s n
  if !l.retrain then .next s
  else if ok then .next (setLink s { l with retrain := false, fails := 0 })
  else
    let s' := setLink s { l with retrain := false, down := true }
    .next ((perKernel (cutOff s' n)).foldl (fun s b => mchkStop s b.kern b.core b.hv b.ctxid b.proc (7 <<< 17 ||| 3 <<< 9) 0) s')

/-! ### Scrubbing and refresh -/

/-- SCRUB: an array line of the core's own is scrubbed. A corrected error is counted; a line corrected twice within a second,
1.1 × 10^9 reference cycles, is reported for repair. A line that cannot be corrected stays broken, for every core that
has it, until a word reads it (R360; log 28). -/
def execScrub (w : Word) (line : Nat) (corrected : Bool) (s : State) : Out :=
  let c := getCore s w
  let mark (d : Core) : Core := { d.mend line with broken := (d.mend line).broken ++ [line] }
  if !corrected then .next (if 65536 ≤ line then mapCores s (fun d => if clIdx d.id == clIdx w then mark d else d) else setCore s (mark c))
  else
    let again := c.corrected.any (fun e => e.1 == line && decide (s.timer < e.2 + 1100000000))
    .next (setCore s { c with errCount := c.errCount + 1, corrected := (line, s.timer) :: c.corrected.filter (fun e => e.1 != line),
                              repair := if again && !c.repair.contains line then c.repair ++ [line] else c.repair })

/-- REFRESH_WINDOW: the core's slice goes into its refresh window, or comes out of it, when the refresh timer says
so (R138). -/
def execRefreshWindow (w : Word) (opens : Bool) (s : State) : Out :=
  if isMem w || opens != decide (refreshPhase s w < 256) then .next s
  else .next (modCore s w (fun c => { c with inRefresh := opens }))

end Sys2Proof.Machine
end

