-- ==== Sys2Proof/Machine/Records.lean ====
section
/-! DEFINITION. Queues and their records (R281-R292): the notify page, the records, launches and the walker,
completion and its signals. Addresses in records are addresses of the queue's process (R370). -/

namespace Sys2Proof.Machine

/-! ### The notify page as the host reaches it (R283, R284, R297) -/

/-- PI_WRITE (R284). -/
def execPiWrite (q : Nat) (v : Word) (s : State) : Out := .next (notifyWrite s q 0x000 v)

/-- CLRF (R283, R294). -/
def execClrf (q : Nat) (s : State) : Out := .next (notifyWrite s q 0x010 1)

/-- STOP (R283, R294). -/
def execStopQueue (q : Nat) (s : State) : Out := .next (notifyWrite s q 0x010 2)

/-- FCI_WRITE: forward, and not beyond FCOUNT (R297). -/
def execFciWrite (q : Nat) (v : Word) (s : State) : Out := .next (notifyWrite s q 0x014 v)

/-- NOTIFY_PAGE_OTHER_WRITE: ignored (R283). -/
def execNotifyPageOtherWrite (_q : Nat) (_off : Nat) (_v : Word) (s : State) : Out := .next s

/-! ### The next record (R282, R285, R287) -/

/-- The number of the next record that has not retired. -/
def nextRec (x : Queue) : Nat → Word → Word
  | 0, v => v
  | n + 1, v => if x.retired.any (fun r => r.recNo == v) then nextRec x n (v + 1) else v
def Queue.head (x : Queue) : Word := nextRec x (x.retired.length + 1) x.next

/-- The next record is on its way to its start: a message of it has not been accepted yet (R287). -/
def starting (s : State) (x : Queue) : Bool := s.kerns.any (fun k => k.ref == ⟨x.id, x.gen, x.head⟩)

/-- The queue may start a record: it is in service and mapped, has one, and its process has not overspent its
turn; at stage 0 there is no service (R287, R293, R294, R296, R354, R372, R373). -/
def mayStart (s : State) (x : Queue) : Bool :=
  x.phase == .serving && !x.faulted && (x.mapped || x.res) && x.head != x.p && !starting s x && !s.firm.updating && s.firm.stage != 0 &&
  (match procById s x.process with
   | some p => p.budget == 0 || decide (p.turnCharged.toNat < p.budget)
   | none => true)

/-- Address of a record (R281). -/
def recAddr (x : Queue) (v : Word) : Nat := x.ring + 128 * (v.toNat % 2 ^ x.log2n)

/-- The slot of the next record is not what the capability of the ring admits (R369, R370). -/
def slotFaults (s : State) (x : Queue) : Bool := viaFaults s (ringGranule x.id) .read (recAddr x x.head) 128

/-- The record's 32 words, none where it cannot be read. -/
def recWords (s : State) (x : Queue) : Option (List Word) :=
  if slotFaults s x then none else (kilnRead s x.process 8 (recAddr x x.head) 128).map (wordsOf 32)

def w32 (ws : List Word) (i : Nat) : Nat := (ws.getD i 0).toNat
def w64 (ws : List Word) (i : Nat) : Nat := w32 ws i + 2 ^ 32 * w32 ws (i + 1)
/-- Words lo to hi - 1 are zero. -/
def zeros (ws : List Word) (lo hi : Nat) : Bool := (List.range (hi - lo)).all (fun i => ws.getD (lo + i) 0 == 0)

/-- The granules of the capabilities that the kiln derives for the ranges that a record names: 0 PAY or LREC, 1 ARGS, 2 GFILL
(R369, R370; log 72). -/
def fieldGranule (q i : Nat) : Nat := 8192 + 4 * q + i
/-- The kiln derives the capability of a range in the queue process's mapped ranges. -/
def derive (s : State) (x : Queue) (i a n : Nat) : State := capStore s (fieldGranule x.id i) (capFor false true a n)
/-- It reads n bytes through that capability: none where a check or the read faults. -/
def viaRead (s : State) (x : Queue) (i a n : Nat) : Option (List Byte) :=
  if viaFaults s (fieldGranule x.id i) .read a n then none else kilnRead s x.process (n / 64 + 2) a n

/-- Fields of a record (R282). -/
def recType (ws : List Word) : Nat := w32 ws 0 % 16
def recSig (ws : List Word) : Bool := (ws.getD 0 0).getLsbD 4
def recBar (ws : List Word) : Bool := (ws.getD 0 0).getLsbD 5
def sigBad (ws : List Word) : Bool := w64 ws 2 % 16 != 0 || decide (2 ^ 52 ≤ w64 ws 2)
/-- The common words are well-formed (R282). -/
def commonOk (ws : List Word) : Bool := decide (w32 ws 0 < 64) && w32 ws 1 == 0 && !sigBad ws

/-- A record of the type that may start now: BAR waits for every earlier record to retire (R287). -/
def recordOf (s : State) (q type : Nat) : Option (Queue × List Word) :=
  match queueById s q with
  | none => none
  | some x =>
    if !mayStart s x then none
    else
      match recWords s x with
      | some ws => if recType ws = type && (!recBar ws || x.ci == x.head) then some (x, ws) else none
      | none => none

/-- The record counts as started: later ones may follow. -/
def started (s : State) (x : Queue) : State := modQueue s x.id (fun y => { y with next := x.head + 1 })

/-- What a record leaves to its signal when it retires with a status and code. -/
def ending (x : Queue) (ws : List Word) (status code : Nat) : Retired :=
  { recNo := x.head, sig := recSig ws, sigAddr := w64 ws 2, sigVal := BitVec.ofNat 64 (w64 ws 4), status := status, code := code, gen := x.gen }

/-- A record is rejected (R288): FAULT 3, or a fault record where its signal cannot be written. -/
def reject (s : State) (x : Queue) (ws : List Word) (code : Nat) : State :=
  let s := modQueue (started s x) x.id (fun y => { y with fault := 3 })
  if recSig ws && sigBad ws then
    let s := kilnFault (modQueue s x.id (fun y => { y with fault := 2 })) x x.head infoDESC (w64 ws 2)
    retire s x.id { ending x ws 1 code with sig := false }
  else retire s x.id (ending x ws 1 code)

/-- A record is rejected by a capability check of a field, or of its own slot (R370). -/
def capReject (s : State) (x : Queue) (ws : List Word) (field : Nat) : State :=
  let s := modQueue (started s x) x.id (fun y => { y with fault := 5, faulted := true })
  retire (kilnFault s x x.head infoDESC field) x.id (ending x ws 1 11)

/-- The first of a list of (address, length) that does not lie in the process's mapped ranges (R370). -/
def unmappedField (s : State) (x : Queue) (l : List (Nat × Nat)) : Option Nat :=
  (l.find? (fun e => !mapped s x.process none e.1 e.2)).map Prod.fst

/-- The signal's range, where the record asks for one. -/
def sigRange (ws : List Word) : List (Nat × Nat) := if recSig ws then [(w64 ws 2, 16)] else []

/-- The range of dependence-counter entries that a new kernel of a partition gets: the first that no running one has,
else the first (R199; DESIGN CHOICE, log 65). -/
def kernDct (s : State) (p : Part) : Nat × Nat :=
  match p.dct.find? (fun r => !s.kerns.any (fun k => k.part == p.id && k.dctLo == r.1 && k.dctHi == r.2)) with
  | some r => r
  | none => p.dct.headD (0, 1023)

/-- The kernel of a record (R286). -/
def newKern (s : State) (x : Queue) (ws : List Word) : Kern :=
  let d := ((partById s x.part).map (kernDct s)).getD (0, 1023)
  { ref := ⟨x.id, x.gen, x.head⟩, proc := x.process, part := x.part, launch := false, compute := false, pair := false, module := 0, groups := [], dctLo := d.1,
    dctHi := d.2, cap := 0, charged := 0, tlimit := 0, began := s.timer, sig := recSig ws, sigAddr := w64 ws 2,
    sigVal := BitVec.ofNat 64 (w64 ws 4) }

/-- The source word of host records and walkers (R200). -/
def hostWord : Word := 0x40000000

/-- MALFORMED_COMMAND_RECORD: a record whose slot its capability does not admit, that cannot be read, or whose TYPE is
malformed (R282, R288, R370). -/
def execMalformedCommandRecord (q : Nat) (s : State) : Out :=
  match queueById s q with
  | none => .next s
  | some x =>
    if !mayStart s x then .next s
    else
      if slotFaults s x then .next (capReject s x [] (recAddr x x.head))
      else
      match recWords s x with
      | none =>
        let s := kilnFault (modQueue (started s x) q (fun y => { y with fault := 2 })) x x.head infoUNMAP (recAddr x x.head)
        .next (retire s q { ending x [] 1 10 with sig := false })
      | some ws =>
        if 1 ≤ recType ws && recType ws ≤ 4 then .next s
        else if recBar ws && x.ci != x.head then .next s
        else .next (reject s x ws 9)

/-- SIGNAL_RECORD: it starts and retires at once (R287). -/
def execSignalRecord (q : Nat) (s : State) : Out :=
  match recordOf s q 3 with
  | none => .next s
  | some (x, ws) =>
    if !commonOk ws || !recSig ws || !zeros ws 6 32 then .next (reject s x ws 9)
    else
      match unmappedField s x (sigRange ws) with
      | some a => .next (capReject s x ws a)
      | none => .next (retire (started s x) q (ending x ws 0 0))

/-- ENERGY_BUDGET_RECORD: the process's budget per quantum (R282, R354). -/
def execEnergyBudgetRecord (q : Nat) (s : State) : Out :=
  match recordOf s q 4 with
  | none => .next s
  | some (x, ws) =>
    if !commonOk ws || !zeros ws 8 32 then .next (reject s x ws 9)
    else
      match unmappedField s x (sigRange ws) with
      | some a => .next (capReject s x ws a)
      | none => .next (retire (started (modProc s x.process (fun p => { p with budget := w64 ws 6 })) x) q (ending x ws 0 0))

/-! ### Message records (R282, R287) -/

/-- Present compute cores of the queue's partition. -/
def queueCores (s : State) (x : Queue) : List Word := match partById s x.part with
  | some p => partCores s p
  | none => []

/-- The form of a message record (R282). -/
def messageOk (s : State) (x : Queue) (ws : List Word) : Bool :=
  let mode := w32 ws 7
  commonOk ws && !hdrBad (ws.getD 6 0) && decide (mode < 3) && w64 ws 11 % 64 == 0 && decide (w64 ws 11 < 2 ^ 52) && zeros ws 13 32 &&
  (match mode with
   | 0 => (partById s x.part).any (fun p => coreOkIn s p (ws.getD 8 0)) && zeros ws 9 11
   | 1 => w32 ws 8 == 0 && decide (w64 ws 9 < 2 ^ 52) && !(queueCores s x).isEmpty
   | _ => decide (w32 ws 8 < 256) && zeros ws 9 11)

/-- Where a message record goes (R282, R209). -/
def messageDest (s : State) (x : Queue) (ws : List Word) : List Word :=
  match w32 ws 7 with
  | 0 => [ws.getD 8 0]
  | 1 => [ownerCore (queueCores s x) (w64 ws 9)]
  | _ => match partById s x.part with
    | some p => look [] p.groups (w32 ws 8)
    | none => []

/-- A message record waits for the close of the weight store where it would start a kernel on a compute core
(R334). -/
def storeWaits (s : State) (x : Queue) (ws : List Word) : Bool :=
  (partById s x.part).any (fun p => p.storeOpen) && (messageDest s x ws).any (fun w => !isMem w)

/-- The module of the queue's process in which the handler of a tag lies, on the first of the cores, or their like, that is of this
package (R350; log 64). -/
def moduleOf (s : State) (x : Queue) (dest : List Word) (tag : Nat) : Option Nat :=
  let like (w : Word) : Bool := pkgOf w == ownPkg s && dest.any (fun v => isMem v == isMem w)
  ((dest ++ ((allCores s).filter (fun c => inPart s x.part c.id)).map Core.id).find? like).bind (fun w =>
    let e := tagOf (getCore s w) tag
    (s.modules.find? (fun m => tagV e && m.proc == x.process && m.part == x.part && decide (m.pc ≤ (tagPC e).toNat) &&
      decide ((tagPC e).toNat < m.pc + m.size))).map Module.handle)

/-- MESSAGE_RECORD: the record starts once its message has been accepted everywhere; until then it waits at the
front end, or for the answer of another package (R204, R287). -/
def execMessageRecord (q : Nat) (s : State) : Out :=
  match recordOf s q 1 with
  | none => .next s
  | some (x, ws) =>
    if !messageOk s x ws then .next (reject s x ws 9)
    else
      let hdr := ws.getD 6 0
      let n := hdrRows hdr
      let pay := w64 ws 11
      match unmappedField s x (sigRange ws ++ [(pay, 64 * n)]) with
      | some a => .next (capReject s x ws a)
      | none =>
        let s0 := s
        let s := derive s x 0 pay (64 * n)
        match viaRead s x 0 pay (64 * n) with
        | none => .next (reject s x ws 10)
        | some bs =>
          let k := { newKern s x ws with module := (moduleOf s x (messageDest s x ws) (hdrTag hdr)).getD 0 }
          let rows := (List.range n).map (fun i => rowOfBytes ((bs.drop (64 * i)).take 64))
          let m : Msg := { hdr := hdr, rows := rows, dest := messageDest s x ws, srcw := hostWord, kind := 0,
                           addr := if w32 ws 7 = 1 then w64 ws 9 else 0, i0 := 0, i1 := 0, i2 := 0, stab := 0, dent := 0, hvSrc := false,
                           kern := k.ref, ctxid := 0, stamp := 0, img := none }
          if storeWaits s x ws then .next s0
          else
            match deliverAll m (m.near s) { s with kerns := s.kerns ++ [k] } with
            | .error _ => .next s0
            | .ok s' => if m.far s then .next (goFar m { s with kerns := s.kerns ++ [k] }) else .next (started s' x)

/-! ### Launch records (R288-R291) -/

/-- Fields of a launch record (R289). -/
def lTag (l : List Word) : Nat := w32 l 0 % 256
def lClass (l : List Word) : Nat := w32 l 0 / 256 % 4
def lPair (l : List Word) : Bool := (l.getD 0 0).getLsbD 10
def lPlace (l : List Word) : Nat := w32 l 0 / 2048 % 8
def lDim (l : List Word) : Nat := w32 l 0 / 2 ^ 14 % 4
def lModule (l : List Word) : Nat := w32 l 0 / 65536
/-- The extents: 1 for an unused dimension. -/
def lExt (l : List Word) : Pt := ⟨w32 l 1 % 65536 + 1, w32 l 1 / 65536 + 1, w32 l 2 % 65536 + 1⟩
def lRows (l : List Word) : Nat := w32 l 16 % 8
def lNgf (l : List Word) : Nat := w32 l 19
/-- The element type of an output descriptor (R244). -/
def outEty : Nat → Option ETy
  | 0 => some .i8 | 1 => some .i16 | 2 => some .i32 | 8 => some .f32 | 9 => some .b16 | _ => none
/-- The output descriptor (R244). -/
def lOut (l : List Word) : OutDesc :=
  { base := w64 l 6, x0 := w32 l 8, x1 := w32 l 9, x2 := w32 l 10, t0 := w32 l 11 % 65536, t1 := w32 l 11 / 65536, t2 := w32 l 12 % 65536,
    ety := (outEty (w32 l 12 / 65536 % 16)).getD .i8, v := (l.getD 12 0).getLsbD 31 }

/-- The layout of a launch record breaks R289 (code 5). -/
def layoutBad (l : List Word) : Bool :=
  let nd := lDim l
  lClass l == 3 || nd == 0 || decide (65536 ≤ w32 l 2) || (decide (nd < 3) && w32 l 2 != 0) || (decide (nd < 2) && decide (65536 ≤ w32 l 1)) ||
  w64 l 14 % 64 != 0 || decide (2 ^ 52 ≤ w64 l 14) || decide (8 ≤ w32 l 16) || w64 l 17 % 16 != 0 || decide (2 ^ 52 ≤ w64 l 17) ||
  decide (256 < lNgf l) || !zeros l 25 64

/-- The output descriptor breaks R244 (code 4). An extent of zero, which a zero tile extent gives, breaks it too: the region would be
empty (DESIGN CHOICE: the spec names no check for it; log 87). -/
def outBad (l : List Word) : Bool :=
  let o := lOut l
  let n := lExt l
  o.base % 64 != 0 || decide (2 ^ 52 ≤ w64 l 6) || (outEty (w32 l 12 / 65536 % 16)).isNone || w32 l 12 / 2 ^ 20 % 2 ^ 11 != 0 || w32 l 13 != 0 ||
  o.x0 != n.x0 * o.t0 || o.x1 != n.x1 * o.t1 || o.x2 != n.x2 * o.t2 || o.x0 == 0 || o.x1 == 0 || o.x2 == 0 ||
  (decide (lDim l < 2) && o.x1 != 1) || (decide (lDim l < 3) && o.x2 != 1) || decide (o.base < 0x2000000) || decide (2 ^ 32 < o.base + o.size)

/-- The cluster of a compute core, as its core 0, and its eight cores. -/
def clusterWord (w : Word) : Word := w &&& 0xFFFF1FFF
def clusterOf (cw : Word) : List Word := (List.range 8).map (fun i => cw ||| BitVec.ofNat 32 (i <<< 13))

/-- The clusters of a partition of which a core is present, in the partition's order: by package, die, cluster (R252,
R291). -/
def partClusters (s : State) (p : Part) : List Word := ((partCores s p).map clusterWord).eraseDups

/-- The clusters of a partition whose eight cores are all present, in order (R252). -/
def fullClusters (s : State) (p : Part) : List Word :=
  let l := partCores s p
  (partClusters s p).filter (fun cw => (clusterOf cw).all l.contains)

/-- The cores that a launch runs on: a paired one on the primaries of whole pairs (R292, R362). -/
def launchCores (s : State) (p : Part) (pair : Bool) : List Word :=
  if pair then primaries (partCores s p) else partCores s p
def clusterCores (cw : Word) (pair : Bool) : List Word := (clusterOf cw).filter (fun w => !pair || coreOf w % 2 == 0)

/-- Placement is malformed (code 8). -/
def placeBad (s : State) (p : Part) (l : List Word) : Bool :=
  match lPlace l with
  | 0 => (launchCores s p (lPair l)).isEmpty
  | 1 => (fullClusters s p).isEmpty
  | 2 => w64 l 6 == 0 || (launchCores s p (lPair l)).isEmpty
  | _ => true

/-- The walker of a launch before its first point (R243, R290). -/
def walkerOf (k : KRef) (part : Nat) (l : List Word) (rows : List Row) : Walker :=
  let n := lExt l
  { kern := k, part := part, hdr := BitVec.ofNat 32 (lClass l <<< 30 ||| lTag l <<< 22 ||| lRows l <<< 19), rows := rows, n0 := n.x0, n1 := n.x1,
    n2 := n.x2, elems := (groupFrom n [l.getD 3 0, l.getD 4 0, l.getD 5 0]).1, out := lOut l, place := lPlace l, at_ := 0, issued := 0 }
/-- The extents of a walker, and its current point. -/
def Walker.ext (w : Walker) : Pt := ⟨w.n0, w.n1, w.n2⟩
def Walker.pt (w : Walker) : Pt := ⟨w.at_ / (w.n1 * w.n2), w.at_ / w.n2 % w.n1, w.at_ % w.n2⟩

/-- Where issued point k goes, for the point p (R292). Under placement 1 the list of whole clusters is taken anew at each point, and
with none left the point goes to the cores of cluster word 0: a change of the partition while the launch's queue was off the device may
bring that about (DESIGN CHOICE: the spec is silent; log 87). -/
def placeOf (s : State) (w : Walker) (pt : Part) (pair : Bool) (p : Pt) : List Word :=
  match w.place with
  | 0 =>
    let l := launchCores s pt pair
    [l.getD (w.issued % l.length) 0]
  | 1 =>
    let l := fullClusters s pt
    clusterCores (l.getD (w.issued % l.length) 0) pair
  | _ => [ownerCore (launchCores s pt pair) (w.out.addr ⟨p.x0 * w.out.t0, p.x1 * w.out.t1, p.x2 * w.out.t2⟩)]

/-- The cores that the canonical points of a walker go to, found so far `acc`, of `all` that there are; n bounds
the points. -/
def hitCores (s : State) (p : Part) (pair : Bool) (all : Nat) : Nat → Walker → List Word → List Word
  | 0, _, acc => acc
  | n + 1, w, acc =>
    if all ≤ acc.length then acc
    else if canonical w.ext w.elems w.pt then
      hitCores s p pair all n { w with at_ := w.at_ + 1, issued := w.issued + 1 } (acc ++ (placeOf s w p pair w.pt).filter (fun v => !acc.contains v))
    else hitCores s p pair all n { w with at_ := w.at_ + 1 } acc

/-- The target cores of a launch (R288). -/
def targets (s : State) (p : Part) (l : List Word) : List Word :=
  let all := if lPlace l = 1 then (fullClusters s p).flatMap (fun c => clusterCores c (lPair l)) else launchCores s p (lPair l)
  let n := lExt l
  hitCores s p (lPair l) all.length (n.x0 * n.x1 * n.x2) (walkerOf ⟨0, 0, 0⟩ 0 l []) []

/-- Module and tag are not good (code 6). A core of another package answers for itself, as its message arrives (R202;
log 64). -/
def moduleBad (s : State) (x : Queue) (p : Part) (l : List Word) : Bool :=
  match s.modules.find? (fun m => m.handle == lModule l && m.proc == x.process) with
  | none => true
  | some m => ((targets s p l).filter (fun w => pkgOf w == ownPkg s)).any (fun w =>
      let e := tagOf (getCore s w) (lTag l)
      !tagV e || decide ((tagPC e).toNat < m.pc) || decide (m.pc + m.size ≤ (tagPC e).toNat))

/-- A group fill entry (R291): the group and its members; none where it breaks R291. -/
def fillEntry (s : State) (p : Part) (e : List Word) : Option (Nat × List Word) :=
  let first := e.getD 1 0
  let last := e.getD 2 0
  let cls := partClusters s p
  if 65536 ≤ w32 e 0 || w32 e 3 ≠ 0 || !cls.contains first || !cls.contains last || last.toNat < first.toNat then none
  else
    let ws := (cls.filter (fun c => decide (first.toNat ≤ c.toNat) && decide (c.toNat ≤ last.toNat))).flatMap (fun c =>
      (clusterOf c).filter (fun w => (e.getD 0 0).getLsbD (8 + coreOf w)))
    if ws.all (partCores s p).contains then some (w32 e 0 % 256, ws) else none

/-- Unites entries of one group, members in ascending order of their words, groups in ascending order. -/
def unite : List (Nat × List Word) → List (Nat × List Word) → List (Nat × List Word)
  | gs, [] => gs
  | gs, (g, ws) :: r =>
    let old := look [] gs g
    unite (put gs g (old ++ ws.filter (fun w => !old.contains w))) r

/-- The group fill of a launch; none where it breaks R291, or gives a core a fifth membership (code 7). -/
def groupFill (s : State) (p : Part) (n : Nat) (bs : List Byte) : Option (List (Nat × List Word)) :=
  let es := (List.range n).map (fun i => fillEntry s p (wordsOf 4 (bs.drop (16 * i))))
  if es.any Option.isNone then none
  else
    let sorted (ws : List Word) : List Word := (ws.foldl (fun (t : List (Nat × Word)) w => put t w.toNat w) []).map Prod.snd
    let gs := (unite [] (es.filterMap id)).map (fun g => (g.1, sorted g.2))
    let members := (gs.flatMap Prod.snd).eraseDups
    if members.any (fun w => decide (4 < (gs.filter (fun g => g.2.contains w)).length)) then none else some gs

/-- The number of free `cx.grp` registers of a core. -/
def freeGrps (c : Core) : Nat := (c.grp.toList.filter (fun w => !w.getLsbD 31)).length

/-- The launch waits for its groups, which are held, or which a member core has too few free registers for (R291), or for the
close of the weight store (R334). -/
def groupsWait (s : State) (p : Part) (gs : List (Nat × List Word)) : Bool :=
  let members := ((gs.flatMap Prod.snd).eraseDups).filter (fun w => pkgOf w == ownPkg s)
  p.storeOpen || gs.any (fun g => p.groups.any (fun h => h.1 == g.1)) ||
  members.any (fun w => decide (freeGrps (getCore s w) < (gs.filter (fun g => g.2.contains w)).length))

/-- A launch record of the list that R354's rule may fall to could start now but for its energy (log 86). -/
def firstReady (s : State) (e : Nat × Word) : Bool :=
  match recordOf s e.1 2 with
  | some (y, ws) =>
    y.head == e.2 &&
    (match partById s y.part, (kilnRead s y.process 8 (w64 ws 6) 256).map (wordsOf 64) with
     | some p, some l =>
       ((kilnRead s y.process 66 (w64 l 17) (16 * lNgf l)).bind (groupFill s p (lNgf l))).any (fun gs => !groupsWait s p gs)
     | _, _ => false)
  | none => false

/-- The first waiting record of the turn starts whatever its energy: of the records that waited first in the process's queues as
the turn began, the first that could start (R354; log 86). -/
def exempt (s : State) (c : Proc) (x : Queue) : Bool :=
  let e := (x.id, x.head)
  c.firstLaunch.contains e && !(c.firstLaunch.takeWhile (fun d => d != e)).any (firstReady s)

/-- The launch waits: for its groups or the store, or its energy does not fit what is left of the turn (R291, R334, R354). -/
def launchWaits (s : State) (x : Queue) (p : Part) (l : List Word) (gs : List (Nat × List Word)) : Bool :=
  groupsWait s p gs || (procById s x.process).any (fun c => c.budget != 0 && !exempt s c x && decide (c.left < w64 l 20))

/-- Puts memberships in the free registers of a core, in ascending order of their groups (R291). -/
def fillGrps : List Nat → List Word → List Word
  | [], ws => ws
  | _, [] => []
  | g :: gs, w :: ws => if w.getLsbD 31 then w :: fillGrps (g :: gs) ws else BitVec.ofNat 32 (2 ^ 31 ||| g) :: fillGrps gs ws
def joinGroups (gs : List (Nat × List Word)) (c : Core) : Core :=
  let l := fillGrps ((gs.filter (fun g => g.2.contains c.id)).map Prod.fst) c.grp.toList
  { c with grp := Vector.ofFn (fun i : Fin 4 => l.getD i.val 0) }

/-- The launch's kernel is there, its groups are written, its walker is at its first point (R290, R291). -/
def startLaunch (s : State) (x : Queue) (ws l : List Word) (rows : List Row) (gs : List (Nat × List Word)) : State :=
  let k := { newKern s x ws with launch := true, pair := lPair l, module := lModule l, groups := gs.map Prod.fst, cap := w64 l 22, tlimit := w32 l 24 }
  let w := walkerOf k.ref x.part l rows
  let s := modPart s x.part (fun p => { p with groups := gs.foldl (fun t g => put t g.1 g.2) p.groups })
  let s := (((gs.flatMap Prod.snd).eraseDups).filter (fun w => pkgOf w == ownPkg s)).foldl (fun s v => modCore s v (joinGroups gs)) s
  let used := (procById s x.process).any (fun c => exempt s c x)
  let s := modProc s x.process (fun c => if used then { c with left := c.left - w64 l 20, firstLaunch := [], lastFirst := x.id }
    else { c with left := c.left - w64 l 20 })
  { s with kerns := s.kerns ++ [k], walkers := s.walkers ++ [w] }

/-- The rejection code of a launch record, in the order of R288 from 4 to 9. -/
def launchCode (s : State) (x : Queue) (p : Part) (l : List Word) : Option Nat :=
  let n := lExt l
  let gens := [l.getD 3 0, l.getD 4 0, l.getD 5 0]
  let o := lOut l
  let g := groupFrom n gens
  if layoutBad l then some 5
  else if gens.any (genBad (lDim l) n o.tile) then some 3
  else if 16 < g.1.length then some 1
  else if g.2 then some 2
  else if (o.v || (lPlace l == 2 && o.base != 0)) && outBad l then some 4
  else if placeBad s p l then some 8
  else if moduleBad s x p l then some 6
  else none

/-! ### The walker (R243, R292) -/

/-- The message of a point (R243, R247, R290). -/
def pointMsg (w : Walker) (p : Pt) (dest : List Word) : Msg :=
  let n := w.ext
  let img : Option ImgLatch :=
    if w.out.v then some { i0 := p.x0, i1 := p.x1, i2 := p.x2, n0 := w.n0, n1 := w.n1, n2 := w.n2, set := imageSet n w.elems p, out := w.out } else none
  { hdr := w.hdr, rows := w.rows, dest := dest, srcw := hostWord, kind := 1, addr := 0, i0 := p.x0, i1 := p.x1, i2 := p.x2,
    stab := stabilizer n w.elems p, dent := 0, hvSrc := false, kern := w.kern, ctxid := 0, stamp := 0, img := img }

/-- The walker goes on to its next point, or has issued every one. -/
def walkerNext (s : State) (i : Nat) (w : Walker) (issued : Nat) : State :=
  if w.n0 * w.n1 * w.n2 ≤ w.at_ + 1 then { s with walkers := s.walkers.eraseIdx i }
  else { s with walkers := s.walkers.set i { w with at_ := w.at_ + 1, issued := issued } }

/-- A message of the walker waits at its source, for room or for another package's answer: later points wait behind it
(R204, R292). -/
def walkerHeld (s : State) (w : Walker) : Bool := (s.net ++ s.outbound).any (fun m => m.kern == w.kern && m.kind == 1)

/-- The i-th walker issues its point: none while the message finds no room. A launch starts as its first point is
accepted (R243, R287, R292). -/
def issuePoint (s : State) (i : Nat) (w : Walker) : Option State :=
  (partById s w.part).bind (fun pt =>
    let pair := s.kerns.any (fun k => k.ref == w.kern && k.pair)
    let m := pointMsg w w.pt (placeOf s w pt pair w.pt)
    match deliverAll m (m.near s) s with
    | .error _ => none
    | .ok s' =>
      some (if m.far s then walkerNext (goFar m s) i w (w.issued + 1)
            else walkerNext (markStarted s' w.kern) i w (w.issued + 1)))

/-- WALKER_ISSUE: the walker passes a point that is not canonical, or issues it, waiting while its message finds
no room (R243, R292); a queue on the ladder issues none (R294). -/
def execWalkerIssue (i : Nat) (s : State) : Out :=
  match s.walkers[i]? with
  | none => .next s
  | some w =>
    if !inService s w.kern || walkerHeld s w then .next s
    else if !canonical w.ext w.elems w.pt then .next (walkerNext s i w w.issued)
    else .next ((issuePoint s i w).getD s)

/-- LAUNCH_RECORD: the launch record is read, checked in the order of R288, and rejected, or started as the walker issues
its first point; it may have to wait (R287-R291, R370). -/
def execLaunchRecord (q : Nat) (s : State) : Out :=
  match recordOf s q 2 with
  | none => .next s
  | some (x, ws) =>
    let lrec := w64 ws 6
    if !commonOk ws || lrec % 64 ≠ 0 || 2 ^ 52 ≤ lrec || !zeros ws 8 32 then .next (reject s x ws 9)
    else
      let s0 := s
      let s := derive s x 0 lrec 256
      match unmappedField s x (sigRange ws ++ [(lrec, 256)]), viaRead s x 0 lrec 256, partById s x.part with
      | some a, _, _ => .next (capReject s x ws a)
      | none, none, _ => .next (reject s x ws 10)
      | none, some _, none => .next (reject s x ws 8)
      | none, some bs, some p =>
        let l := wordsOf 64 bs
        match launchCode s x p l with
        | some code => .next (reject s x ws code)
        | none =>
          let args := (w64 l 14, 64 * lRows l)
          let fill := (w64 l 17, 16 * lNgf l)
          let s := derive (derive s x 1 args.1 args.2) x 2 fill.1 fill.2
          match unmappedField s x [args, fill, (w64 l 6, if w64 l 6 = 0 then 0 else 1)],
                viaRead s x 1 args.1 args.2, viaRead s x 2 fill.1 fill.2 with
          | some a, _, _ => .next (capReject s x ws a)
          | none, none, _ => .next (reject s x ws 10)
          | none, some _, none => .next (reject s x ws 10)
          | none, some as, some fs =>
            match groupFill s p (lNgf l) fs with
            | none => .next (reject s x ws 7)
            | some gs =>
              if launchWaits s x p l gs then .next s0
              else
                let s' := startLaunch s x ws l ((List.range (lRows l)).map (fun i => rowOfBytes ((as.drop (64 * i)).take 64))) gs
                .next (((s'.walkers.getLast?).bind (issuePoint s' (s'.walkers.length - 1))).getD s0)

/-! ### Completion (R286, R288, R367) -/

/-- Work of a kernel is left (R286). -/
def kernBusy (s : State) (k : KRef) : Bool :=
  let msg (m : Msg) : Bool := m.kern == k
  s.walkers.any (fun w => w.kern == k) || s.net.any msg || s.outbound.any msg || s.remote.any msg || s.savedMsgs.any msg ||
  s.held.any (fun h => h.kern == k) || s.stops.any (fun r => r.kern == k) || s.saved.any (fun e => e.kern == k) ||
  s.savedDct.any (fun e => match e.2.2 with
    | .armed _ _ _ _ k' _ => k' == k
    | _ => false) ||
  (allCores s).any (fun c =>
    c.ni.any (fun n => n.msg.kern == k && (n.st == .waiting || n.st == .ready)) || c.strms.any (fun t => t.kern == k) ||
    c.slots.any (fun x => x.kern == k && (x.active || x.halted))) ||
  s.clusters.any (fun u =>
    u.spill.any (fun e => e.2.kern == k) || u.imgs.any (fun i => i.kern == k) || u.jobs.any (fun j => j.kern == k) ||
    u.posts.any (fun p => p.kern == k) || u.ops.any (fun o => o.members.any (fun m => m.kern == k)) ||
    u.dct.any (fun e => match e.2 with
      | .armed _ _ _ _ k' _ => k' == k
      | _ => false))

/-- The writes of a committed record are performed, in journal order (R367). -/
def applyJournal (s : State) (q : Nat) (recNo : Word) : State :=
  match queueById s q with
  | none => s
  | some x =>
    let j := (x.journal.filter (fun e => e.1 == recNo)).flatMap Prod.snd
    let s := applyWrites j s
    modQueue s q (fun y => { y with journal := y.journal.filter (fun e => e.1 != recNo), committed := y.committed.filter (fun v => v != recNo) })

/-- KERNEL_COMPLETE: nothing of the kernel is left: its groups are given back and its record retires (R286,
R291). A durable kernel, in record order, first commits; then its writes are performed and it retires (R367). -/
def execKernelComplete (q : Nat) (recNo : Word) (s : State) : Out :=
  match queueById s q, s.kerns.find? (fun k => k.ref.queue == q && k.ref.recNo == recNo) with
  | some x, some k =>
    if kernBusy s k.ref || (x.dur && x.ci != recNo) then .next s
    else if x.dur && !x.committed.contains recNo then .next (modQueue s q (fun y => { y with committed := y.committed ++ [recNo] }))
    else .next (finishKernel (applyJournal s q recNo) k)
  | _, _ => .next s

/-- The oldest retired record whose earlier records have all retired (R288). -/
def nextSignal (x : Queue) : Option Retired :=
  (x.retired.filter (fun r => decide ((x.ci - r.recNo).toNat - 1 < 2 ^ 31) && r.recNo != x.ci)).foldl (fun (m : Option Retired) r => match m with
    | some o => if (x.ci - o.recNo).toNat < (x.ci - r.recNo).toNat then some r else some o
    | none => some r) none

/-- The 16 bytes of a signal (R288). -/
def signalBytes (r : Retired) : List Byte :=
  natBytes r.sigVal.toNat 8 ++ natBytes ((r.gen % 65536) <<< 16 ||| r.code <<< 8 ||| r.status) 4 ++ natBytes r.recNo.toNat 4

/-- COMPLETION_SIGNAL: the next signal of the queue is written, or a fault record says that it could not be
(R288). -/
def execCompletionSignal (q : Nat) (s : State) : Out :=
  match queueById s q with
  | none => .next s
  | some x =>
    match nextSignal x with
    | none => .next s
    | some r =>
      let s := modQueue s q (fun y => { y with retired := y.retired.erase r })
      if !r.sig then .next s
      else
        match kilnWrite s x.process r.sigAddr (signalBytes r) with
        | some s' => .next s'
        | none => .next (kilnFault (modQueue s q (fun y => { y with fault := 2 })) x r.recNo infoUNMAP r.sigAddr)

end Sys2Proof.Machine
end

