-- ==== Sys2Proof/Machine/Ladder.lean ====
section
/-! DEFINITION. The wheel (R293, R354), the pre-emption ladder (R294, R295), the kiln's changes of queues,
processes and partitions (R281, R294), durable replay (R368). -/

namespace Sys2Proof.Machine

/-! ### The wheel -/

/-- The process after the current one on a run list. -/
def wheelAfter (l : List Nat) (cur : Option Nat) : Option Nat :=
  match l with
  | [] => none
  | a :: _ => match cur with
    | none => some a
    | some c => if l.contains c then l[(l.idxOf c + 1) % l.length]? else some a

/-- The launch records that wait first as a turn of a process begins, one of each of its queues that start records, as queue
and number: those of the queues after the one that had the rule of R354 last, then the others (log 86). -/
def firstWaiting (s : State) (part proc last : Nat) : List (Nat × Word) :=
  let waits (x : Queue) : Bool := x.part == part && x.process == proc && x.phase == .serving && !x.faulted && x.head != x.p && (recWords s x).any (fun ws => recType ws == 2)
  let l := (s.queues.filter waits).map (fun x => (x.id, x.head))
  l.filter (fun e => decide (last < e.1)) ++ l.filter (fun e => decide (e.1 ≤ last))

/-- WHEEL_TURN: the next process's queues are mapped beside the resident ones, its budget begins anew; a turn during a live
update restores nothing (R293, R354, R372). -/
def execWheelTurn (part : Nat) (s : State) : Out :=
  match partById s part with
  | none => .next s
  | some p =>
    match wheelAfter p.wheel p.cur with
    | none => .next s
    | some n =>
      let s := modPart s part (fun p => { p with cur := some n })
      let s := modProc s n (fun c => { c with left := c.budget, turnCharged := 0, firstLaunch := firstWaiting s part n c.lastFirst })
      .next { s with queues := s.queues.map (fun x => if x.part = part then
        { x with mapped := x.res || x.process == n, turned := x.turned || (x.process == n && !s.firm.updating) } else x) }

/-! ### Saving and restoring (R294, R278) -/

/-- The queue of a kernel. -/
def ofQueue (q : Nat) (k : KRef) : Bool := k.queue == q

/-- A kernel is that of a record whose message has not been accepted: it has not started (R287). -/
def unstarted (s : State) (k : KRef) : Bool := s.queues.any (fun x => k == ⟨x.id, x.gen, x.head⟩)
/-- Some kernel of the queue has started and not ended. -/
def queueRuns (s : State) (q : Nat) : Bool := s.kerns.any (fun k => ofQueue q k.ref && !unstarted s k.ref)

/-- The memories of a cluster and the arrays and rows of its cores go back as they were saved. -/
def putMem (s : State) (e : SavedMem) : State :=
  let own (a : Nat) : Bool := isChip a && keyPkg a == ownPkg s && keyKind a != 2 && keyCl a == e.cl
  let s := { s with mem := e.bytes.foldl (fun m b => memWrite m b.1 b.2) (s.mem.filter (fun c => !own c.1)) }
  let s := e.tiles.foldl (fun s t => modCore s t.1 (fun c => c.setTiles t.2)) s
  e.regs.foldl (fun s t => modCore s t.1 (fun c =>
    let b := look (0, 2048) c.bounds e.proc
    { c with regs := t.2.foldl (fun m (r : Nat × Row) => put m r.1 r.2) (c.zeroRows b.1 b.2).regs })) s

/-- A gang state as a save keeps it: a post is withdrawn and will be made again, one that has ended or begun stays so
(R235, R278). -/
def savedGang : GangSt → GangSt
  | .started => .started
  | .clash m => .clash m
  | .late m => .late m
  | _ => .idle

/-- A context taken out of its slot, with its window's rows; `place` names the slot. -/
def takeContext (s : State) (w : Word) (x : Slot) (place : Nat) (l2 l3 l4 : Word) : Saved :=
  let c := getCore s w
  let rows := (List.range x.wl).map (fun i => (x.wb + i, c.row (x.wb + i)))
  let ni := match x.msgSlot with
    | some i => niFind c i
    | none => none
  { core := w, kern := x.kern, place := place,
    ctx := { bank := 0, rows := rows, slot := { x with waitC := none, waitA := none, gang := savedGang x.gang, aside := x.aside.map (fun a => { a with gang := savedGang a.gang }), halted := false }, l2 := l2, l3 := l3,
             l4 := l4, ni := ni, foot := ⟨x.wb, x.wl, 0, 0⟩, order := 0 } }

/-- Frees the message slot of a context. -/
def freeMsg (s : State) (w : Word) (x : Slot) : State := match x.msgSlot with
  | some i => niDrop s w i
  | none => s

/-- The owner slot's handler is stopped as a pre-emption and saved, if it is the queue's. -/
def saveOwner (q : Nat) (s : State) (w : Word) : State :=
  let c := getCore s w
  let x := unissue c.owner
  if !x.active || !ofQueue q x.kern then s
  else
    let h := c.row x.wb
    let s1 := setCore s (c.setRow x.wb (setLane (setLane (setLane h 2 x.pc) 3 (epcAOf x)) 4 0))
    let e := takeContext s1 w x 1 (lane h 2) (lane h 3) (lane h 4)
    let s2 := freeMsg (modCore s1 w (fun c => c.setOwner x.vacant)) w x
    { s2 with saved := s2.saved ++ [e] }

/-- The pre-empted handler is saved, if it is the queue's. -/
def saveShadow (q : Nat) (s : State) (w : Word) : State :=
  let c := getCore s w
  match c.shadow with
  | some h =>
    if ofQueue q h.slot.kern then
      let e := takeContext s w h.slot 2 h.l2 h.l3 h.l4
      let s1 := freeMsg (modCore s w (fun c => { c with shadow := none })) w h.slot
      { s1 with saved := s1.saved ++ [e] }
    else s
  | none => s

/-- The harvester is parked and the queue's parked contexts go to the save area. -/
def saveParked (q : Nat) (s : State) (w : Word) : State :=
  let c := getCore s w
  let s := if c.harvest.active && ofQueue q c.harvest.kern then park s w (lentFoot c) else s
  ((getCore s w).parked.filter (fun p => ofQueue q p.slot.kern)).foldl (fun s p =>
    let (s1, r) := unbank s w p
    { s1 with saved := s1.saved ++ [{ core := w, kern := p.slot.kern, ctx := { r with slot := { r.slot with halted := false } }, place := 0 }] }) s

/-- The queue's messages that have not been dispatched, waiting at a core or at their source. -/
def saveMsgs (q : Nat) (s : State) : State :=
  let here (c : Core) : List NiSlot := c.ni.filter (fun n => ofQueue q n.msg.kern && (n.st == .waiting || n.st == .ready))
  let inNi := (allCores s).flatMap (fun c => (here c).map (fun n => ({ n.msg with dest := [c.id] } : Msg)))
  let inSpill := s.clusters.flatMap (fun u => (u.spill.filter (fun e => ofQueue q e.2.kern)).map (fun e => ({ e.2 with dest := [e.1] } : Msg)))
  let mineN (m : Msg) : Bool := ofQueue q m.kern && !unstarted s m.kern
  let inNet := s.net.filter mineN
  let slots := (allCores s).flatMap (fun c => (here c).map (fun n => (c.id, n.idx)))
  let s := mapCls s (fun u => { u with spill := u.spill.filter (fun e => !ofQueue q e.2.kern) })
  let s := slots.foldl (fun s e => niDrop s e.1 e.2) s
  { s with net := s.net.filter (fun m => !mineN m), savedMsgs := s.savedMsgs ++ inNi ++ inSpill ++ inNet }

/-- The queue's armed DCT entries. -/
def saveDct (q : Nat) (s : State) : State :=
  let mineE (e : Nat × DctEnt) : Bool := match e.2 with
    | .armed _ _ _ _ k _ => ofQueue q k
    | _ => false
  { mapCls s (fun u => { u with dct := u.dct.filter (fun e => !mineE e) }) with
    savedDct := s.savedDct ++ s.clusters.flatMap (fun u => (u.dct.filter mineE).map (fun e => (u.id, e.1, e.2))) }

/-- The queue's pending posts are withdrawn: a resumed `mgang` posts again. -/
def withdrawPosts (q : Nat) (s : State) : State :=
  let es := s.clusters.flatMap (fun u => (u.posts.filter (fun p => ofQueue q p.kern)).flatMap (fun p => p.rlt))
  let held := (allCores s).flatMap (fun c => c.slots.flatMap (fun x => if ofQueue q x.kern && x.active then x.gangRegs else []))
  mapCls (rltDrop s (es ++ held)) (fun u => { u with posts := u.posts.filter (fun p => !ofQueue q p.kern) })

/-- The memories of the clusters that run the queue's process in its partition, as the save area has them from now on: one
copy for a process and cluster, whichever of its queues are saved (R294; log 26). -/
def saveMems (q : Nat) (s : State) : State :=
  match queueById s q with
  | none => s
  | some x =>
    let mine (u : Cluster) : Bool := decide (u.id < 256) && u.proc == some x.process && (partOfCl s u.id).any (fun p => p.id == x.part)
    let new := (s.clusters.filter mine).map (fun u =>
      ({ proc := x.process, cl := u.id, bytes := clusterBytes s u.id, tiles := clusterTiles s u.id, regs := clusterRegs s u.id x.process, lost := false } : SavedMem))
    { s with savedMem := s.savedMem.filter (fun e => !new.any (fun n => n.proc == e.proc && n.cl == e.cl)) ++ new }

/-- Saves the queue's work (R294, rung 2). -/
def saveQueue (s : State) (q : Nat) : State :=
  let ws := (allCores s).map (fun c => c.id)
  let s := withdrawPosts q s
  let s := ws.foldl (fun s w => saveShadow q (saveOwner q (saveParked q s w) w) w) s
  saveMems q (saveDct q (saveMsgs q s))

/-- Nothing of the queue is under way that the save has to wait for: jobs that still run, gang operations, images,
decrements, messages to other packages, held accesses, late writes and stores of its contexts, a trap that waits, and, where a
harvester is to be parked, a bank for it. -/
def saveReady (s : State) (q : Nat) : Bool :=
  (allJobs s).all (fun j => !ofQueue q j.kern || settled s j) && !s.decs.any (fun d => ofQueue q d.kern) &&
  !s.outbound.any (fun m => ofQueue q m.kern && !unstarted s m.kern) && !s.held.any (fun h => ofQueue q h.kern) &&
  s.clusters.all (fun u => !u.imgs.any (fun i => ofQueue q i.kern) && !u.ops.any (fun o => o.members.any (fun m => ofQueue q m.kern))) &&
  (allCores s).all (fun c => !c.late.any (fun l => ofQueue q l.kern) && !c.slots.any (fun x => ofQueue q x.kern && x.active && (!x.trapWait.isNone || !x.pend.isEmpty)) &&
    (!c.harvest.active || !ofQueue q c.harvest.kern || bankReady s c))

/-- A process that has no queue left in a partition leaves it: the kiln removes its ATC entries there (R336). -/
def leavePart (s : State) (part proc : Nat) : State :=
  if s.queues.any (fun x => x.part == part && x.process == proc) then s
  else
    match procById s proc with
    | none => s
    | some p => mapCores s (fun c => if isMem c.id && inPart s part c.id then { c with atc := c.atc.filter (fun e => e.pasid != p.pasid) } else c)

/-- The save area keeps memories for a process while a queue of it is off the device. -/
def dropSavedMem (s : State) (proc : Nat) : State :=
  if s.queues.any (fun x => x.process == proc && x.phase == .saved) then s else { s with savedMem := s.savedMem.filter (fun e => e.proc != proc) }

/-- Takes a queue off the device for good: its capabilities are cleared (R294, R369). -/
def destroyQueue (s : State) (q : Nat) : State :=
  let s := (s.kerns.filter (fun k => ofQueue q k.ref)).foldl dropKernel s
  let s' := { s with queues := s.queues.filter (fun x => x.id != q), stops := s.stops.filter (fun r => !ofQueue q r.kern) }
  let s' := kilnPut (kilnPut (kilnPut s' (ringGranule q) 0) (areaGranule q) 0) (saveGranule q) 0
  match queueById s q with
  | some x => leavePart (dropSavedMem s' x.process) x.part x.process
  | none => s'

/-- The queue has come off the device at a rung; a killed process's queue is destroyed (R294). -/
def reach (s : State) (x : Queue) (ph : QPhase) : State :=
  if x.ladder = some .kill then destroyQueue s x.id else modQueue s x.id (fun y => { y with phase := ph })

/-- LADDER_DRAIN_COMPLETE (R294, rung 1). -/
def execLadderDrainComplete (q : Nat) (s : State) : Out :=
  match queueById s q with
  | none => .next s
  | some x => if x.phase != .draining || queueRuns s q then .next s else .next (reach s x .drained)

/-- LADDER_T1_EXPIRY: the drain did not end in time: the queue's handlers stop (R294, rung 2). -/
def execLadderT1Expiry (q : Nat) (s : State) : Out :=
  match queueById s q with
  | none => .next s
  | some x =>
    if x.phase != .draining || !queueRuns s q then .next s
    else
      let stop (y : Slot) : Slot := if y.active && ofQueue q y.kern then { y with halted := true } else y
      .next (modQueue (mapCores s (fun c => { c with slot := stop c.slot, alt := stop c.alt })) q (fun y => { y with phase := .saving }))

/-- LADDER_SAVE_COMPLETE (R294, rung 2): the contexts go through the capability of the queue's save area (R369). -/
def execLadderSaveComplete (q : Nat) (s : State) : Out :=
  match queueById s q with
  | none => .next s
  | some x => if x.phase != .saving || !saveReady s q || saveFaults s q .write then .next s else .next (reach (saveQueue s q) x .saved)

/-- The clusters, and engines of memory cores, on which the queue has work (R294). -/
def enginesOf (s : State) (q : Nat) : List Nat :=
  let ofCore (c : Core) : Bool := c.slots.any (fun x => (x.active || x.halted) && ofQueue q x.kern) ||
    c.ni.any (fun n => ofQueue q n.msg.kern) || c.strms.any (fun t => ofQueue q t.kern)
  let ofEnt (e : Nat × DctEnt) : Bool := match e.2 with
    | .armed _ _ _ _ k _ => ofQueue q k
    | .fault k => ofQueue q k
  let ofCl (u : Cluster) : Bool := u.jobs.any (fun j => ofQueue q j.kern) || u.spill.any (fun e => ofQueue q e.2.kern) ||
    u.posts.any (fun p => ofQueue q p.kern) || u.ops.any (fun o => o.members.any (fun m => ofQueue q m.kern)) ||
    u.imgs.any (fun i => ofQueue q i.kern) || u.dct.any ofEnt
  (((allCores s).filter ofCore).map (fun c => clIdx c.id) ++ (s.clusters.filter ofCl).map Cluster.id).eraseDups

/-- LADDER_T2_EXPIRY: the save did not end in time (R294, rung 3). -/
def execLadderT2Expiry (q : Nat) (s : State) : Out :=
  .next (modQueue s q (fun y => if y.phase = .saving then { y with phase := .resetting, engines := enginesOf s q } else y))

/-- The outstanding requests of the queue's work are abandoned, of pre-empted contexts too (R337). -/
def abandon (q : Nat) (s : State) : State :=
  let mineA (c : Core) : Asker → Bool
    | .slot hv => (c.slotOf hv).active && ofQueue q (c.slotOf hv).kern
    | .job n => (getCl s (clIdx c.id)).jobs.any (fun j => j.slot == n && ofQueue q j.kern)
    | .none => false
  let gone := s.misses.filter (fun m => (allCores s).any (fun c => c.id == m.core && mineA c m.asker))
  { abandonExt (fun k => ofQueue q k) s with misses := s.misses.filter (fun m => !gone.contains m) }

/-- What other queues have on the clusters has settled, as a save asks of it (R294). -/
def othersSettled (s : State) (cls : List Nat) : Bool :=
  let on (w : Word) : Bool := cls.contains (clIdx w)
  (allJobs s).all (fun j => !on j.core || settled s j) && !s.held.any (fun h => on h.core) &&
  s.clusters.all (fun u => !cls.contains u.id || (u.ops.isEmpty && u.imgs.isEmpty)) &&
  (allCores s).all (fun c => !on c.id || (c.late.isEmpty && !c.slots.any (fun x => x.active && x.trapWait.isSome)))

/-- A handler that stands stopped for its own sake: its kernel is to be stopped, its queue is being saved, or another
queue's reset waits for it (R276, R294). -/
def staysHalted (s : State) (q cl : Nat) (x : Slot) : Bool :=
  s.stops.any (fun r => r.kern == x.kern) ||
  s.queues.any (fun y => y.id != q && ((y.id == x.kern.queue && (y.phase == .saving || y.phase == .resetting)) ||
    (y.phase == .resetting && y.engines.contains cl)))

/-- Of the core's array and its control registers, what a cluster's reset leaves. -/
def arrayReset (c : Core) : Core :=
  let r := Core.reset c.id
  { (c.setTiles r.tiles) with mstat := r.mstat, scla := r.scla, sclb := r.sclb }

/-- The core as its reset leaves it, but for the work of other queues, which is restored in place, and for what the kiln
holds there: tags, bounds, `cx.tagsel`, memberships, translations; register rows are cleared by no rule (R254, R294). The
array and its control registers are part of that work where the cluster's process has a kernel in progress. -/
def engineReset (s : State) (c : Core) : Core :=
  let kept (x : Slot) : Slot := if x.active then x else { Slot.reset with sid := x.sid, chains := x.chains, lastProc := x.lastProc }
  let c := { c with slot := kept c.slot, alt := kept c.alt }
  if s.kerns.any (fun k => (getCl s (clIdx c.id)).proc == some k.proc) then c else arrayReset c

/-- The pending signals of a queue are written, n of them at most. -/
def drainSignals (q : Nat) : Nat → State → State
  | 0, s => s
  | n + 1, s =>
    match execCompletionSignal q s with
    | .next s' => drainSignals q n s'
    | _ => s

/-- The committed journals of a durable queue are applied, in record order, and their records retire (R367, R368). -/
def commitAll (q : Nat) (s : State) : State :=
  match queueById s q with
  | none => s
  | some x => x.committed.foldl (fun s v => match s.kerns.find? (fun k => ofQueue q k.ref && k.ref.recNo == v) with
    | some k => endKernel (applyJournal s q v) k 0 0
    | none => applyJournal s q v) s

/-- Rung 3 begins: the queue's work is discarded, its kernels signal STATUS 3 (a durable queue's records are replayed),
and the handlers of other queues on its clusters stop (R294, R295, R337). -/
def discardQueue (x : Queue) (s : State) : State :=
  let q := x.id
  let cls := (x.engines ++ enginesOf s q).eraseDups
  let s := abandon q (if x.dur then commitAll q s else s)
  let s := (s.kerns.filter (fun k => ofQueue q k.ref)).foldl (fun s k => if x.dur then dropKernel s k else endKernel s k 3 0) s
  let s := { s with held := s.held.filter (fun h => !ofQueue q h.kern), stops := s.stops.filter (fun r => !ofQueue q r.kern) }
  let s := mapCores s (fun c =>
    if cls.contains (clIdx c.id) then c.mapSlots (fun y => { y with halted := y.halted || y.active }) else c)
  modQueue s q (fun y => { y with engines := cls })

/-- Rung 3 ends: the clusters are reset and the other queues' handlers go on there; GEN advances, and the queue's signals
are written before STATE shows the reset (R294, R295). -/
def resetEngines (x : Queue) (s : State) : State :=
  let q := x.id
  let s := mapCores s (fun c =>
    if x.engines.contains (clIdx c.id) then
      (engineReset s c).mapSlots (fun y => { y with halted := y.halted && staysHalted s q (clIdx c.id) y })
    else c)
  let s := modQueue s q (fun y => { y with gen := (y.gen + 1) % 65536, fault := 7, next := if x.dur then y.ci else y.next, engines := [], journal := [] })
  reach (drainSignals q x.retired.length s) x .reset

/-- LADDER_RESET: rung 3: the queue's work goes at once, its clusters are reset as soon as what others have there has
settled (R294, R295). -/
def execLadderReset (q : Nat) (s : State) : Out :=
  match queueById s q with
  | none => .next s
  | some x =>
    if x.phase != .resetting then .next s
    else
      let s := discardQueue x s
      match queueById s q with
      | none => .next s
      | some x => .next (if othersSettled s x.engines then resetEngines x s else s)

/-- Rows of a saved context back in the register store, lanes 2 to 4 of its header restored, streams as `eret`
with keep (R278). -/
def putContext (c : Core) (e : Saved) : Core × Slot :=
  let p := e.ctx
  let x := p.slot
  let h := look 0 p.rows x.wb
  let rows := put p.rows x.wb (setLane (setLane (setLane h 2 p.l2) 3 p.l3) 4 p.l4)
  ({ c with regs := rows.foldl (fun m (r : Nat × Row) => put m r.1 r.2) c.regs },
   { x with pc := lane h 2 &&& ~~~(7 : Word), fetched := [] })

/-- Gives a context its message slot back; none where the bank is full. -/
def putMsg (c : Core) (p : Parked) : Option (Core × Option Nat) :=
  match p.ni, niFree c with
  | none, _ => some (c, none)
  | some n, some i => some ({ c with ni := c.ni ++ [{ n with idx := i }] }, some i)
  | some _, none => none

/-- Restores one context onto its core; none where its place is taken (R294). -/
def restoreOne (s : State) (e : Saved) : Option State :=
  let c := getCore s e.core
  let cl := clIdx e.core
  if e.place = 0 then (bankIn s e.core (freeBank c) e.ctx)
  else if e.place = 1 && (c.owner.active || (!isMem e.core && (getCl s cl).proc != some e.ctx.slot.proc && !mayChange s cl)) then none
  else if e.place = 2 && c.shadow.isSome then none
  else
    let s := if e.place = 1 && !isMem e.core && (getCl s cl).proc != some e.ctx.slot.proc then changeProcess s cl e.ctx.slot.proc else s
    match putMsg (getCore s e.core) e.ctx with
    | none => none
    | some (c, i) =>
      if e.place = 1 then
        let (c, x) := putContext c e
        some (setCore s (c.setOwner { x with msgSlot := i, chains := c.owner.chains, lastProc := some x.proc }))
      else
        -- a pre-empted handler waits in the shadow set with its resume PCs in its header
        let p := e.ctx
        let c := { c with regs := p.rows.foldl (fun m (r : Nat × Row) => put m r.1 r.2) c.regs,
                          shadow := some { slot := { p.slot with msgSlot := i }, l2 := p.l2, l3 := p.l3, l4 := p.l4 } }
        some (setCore s c)

/-- Restores the contexts of a list, all of them or none. -/
def restoreAll : List Saved → State → Option State
  | [], s => some s
  | e :: es, s => match restoreOne s e with
    | some s' => restoreAll es s'
    | none => none

/-- The saved memories of a process go back where the cluster has changed its process since: it must run the process or be
able to change to it, else none (R135, R294). -/
def restoreMems (proc : Nat) : List SavedMem → State → Option State
  | [], s => some s
  | e :: r, s =>
    if e.proc ≠ proc || !e.lost then restoreMems proc r s
    else if (getCl s e.cl).proc == some proc then restoreMems proc r (putMem s e)
    else if mayChange s e.cl then restoreMems proc r (putMem (changeProcess s e.cl proc) e)
    else none

/-- From now on the clusters of a partition themselves hold the memories of a process. -/
def heldMem (proc part : Nat) (s : State) : State :=
  { s with savedMem := s.savedMem.map (fun e =>
      if e.proc = proc ∧ (partOfCl s e.cl).any (fun p => p.id == part) then { e with lost := false } else e) }

/-- What the trigger asks for before the queue returns; none does so during a live update (R294, R372). -/
def mayReturn (s : State) (x : Queue) : Bool :=
  !s.firm.updating && (match x.ladder with
  | some .stop => x.cleared && (x.phase != .saved || x.turned)
  | some .limit => x.turned
  | some .partition => x.cleared
  | some .firmware => x.phase != .saved || x.turned
  | _ => false)

/-- QUEUE_RESTORE: the queue returns to service; saved work goes back onto its cores, messages to their cores,
entries to their DCTs; onto compute cores only while the weight store is closed, and out of the save area through its
capability (R194, R294, R334, R369). -/
def execQueueRestore (q : Nat) (s : State) : Out :=
  match queueById s q with
  | none => .next s
  | some x =>
    if !(x.phase == .drained || x.phase == .saved || x.phase == .reset) || !mayReturn s x || (x.phase == .saved && saveFaults s q .read) then .next s
    else
      let es := s.saved.filter (fun e => ofQueue q e.kern)
      let ds := s.savedDct.filter (fun e => match e.2.2 with
        | .armed _ _ _ _ k _ => ofQueue q k
        | _ => false)
      let taken := ds.any (fun e => (getCl s e.1).dct.any (fun d => d.1 == e.2.1)) || es.any (fun e => storeOpenAt s e.core)
      let first := (restoreMems x.process (s.savedMem.filter (fun e => (partOfCl s e.cl).any (fun p => p.id == x.part))) s).map (heldMem x.process x.part)
      match first.bind (restoreAll (es.filter (fun e => e.place == 2) ++ es.filter (fun e => e.place == 1) ++ es.filter (fun e => e.place == 0))) with
      | none => .next s
      | some s' =>
        if taken then .next s
        else
          let s1 := { s' with saved := s'.saved.filter (fun e => !ofQueue q e.kern), savedDct := s'.savedDct.filter (fun e => !ds.contains e),
                              savedMsgs := s'.savedMsgs.filter (fun m => !ofQueue q m.kern),
                              net := s'.net ++ s'.savedMsgs.filter (fun m => ofQueue q m.kern) }
          let s2 := ds.foldl (fun s e => modCl s e.1 (fun u => { u with dct := put u.dct e.2.1 e.2.2 })) s1
          .next (dropSavedMem (modQueue s2 q (fun y => { y with phase := .serving, ladder := none, cleared := false, turned := false })) x.process)

/-- TLIMIT_EXPIRY: a kernel has run longer than TLIMIT, in µs of 1100 reference cycles, or been charged CAP
(R294, R355). -/
def execTlimitExpiry (q : Nat) (recNo : Word) (s : State) : Out :=
  match s.kerns.find? (fun k => ofQueue q k.ref && k.ref.recNo == recNo) with
  | none => .next s
  | some k =>
    if (k.tlimit != 0 && decide (k.began + 1100 * k.tlimit ≤ s.timer)) || (k.cap != 0 && decide (k.cap ≤ k.charged.toNat)) then
      .next (modQueue s q (startLadder .limit))
    else .next s

/-! ### Queues, processes and partitions -/

/-- A queue descriptor breaks R281. -/
def descBad (l : List Word) : Bool :=
  let c := w32 l 2
  let flen := w32 l 6
  w64 l 0 % 4096 != 0 || decide (2 ^ 52 ≤ w64 l 0) || decide (c % 32 < 5) || decide (20 < c % 32) || c / 32 % 2 ^ 11 != 0 || decide (2 ^ 18 ≤ c) ||
  decide (2 ^ 24 ≤ w32 l 3) || w64 l 4 % 4096 != 0 || decide (2 ^ 52 ≤ w64 l 4) || decide (flen < 64) || decide (32768 < flen) ||
  flen != 2 ^ Nat.log2 flen || w32 l 7 != 0

/-- QUEUE_CREATE: the kiln checks the descriptor and its ranges, derives a capability for each, and creates the queue with
GEN 0; at stage 0 there is no service (R281, R283, R369, R370, R373). -/
def execQueueCreate (q : Nat) (desc : List Word) (s : State) : Out :=
  let proc := w32 desc 3 % 65536
  let part := w32 desc 3 / 65536
  let log := w32 desc 2 % 32
  if s.firm.stage == 0 || 4096 ≤ q || (queueById s q).isSome || descBad desc || (procById s proc).isNone || (partById s part).isNone ||
     !mapped s proc (some .load) (w64 desc 0) (128 * 2 ^ log) || !mapped s proc (some .store) (w64 desc 4) (64 * w32 desc 6) then .next s
  else
    let res := (desc.getD 2 0).getLsbD 16
    let x : Queue := { id := q, ring := w64 desc 0, log2n := log, res := res, dur := (desc.getD 2 0).getLsbD 17, process := proc, part := part,
                       farea := w64 desc 4, flen := w32 desc 6, p := 0, ci := 0, next := 0, fcount := 0, fci := 0, gen := 0, fault := 0,
                       faulted := false, phase := .serving, mapped := res || (partById s part).any (fun p => p.cur == some proc), ladder := none,
                       cleared := false, turned := false, engines := [], retired := [], journal := [], committed := [] }
    let s := modPart s part (fun p => if p.wheel.contains proc then p else { p with wheel := p.wheel ++ [proc] })
    let s := capStore s (ringGranule q) (capFor false true x.ring (128 * 2 ^ log))
    let s := capStore s (areaGranule q) (capFor true false x.farea (64 * x.flen))
    let s := capStore s (saveGranule q) (saveCap q)
    .next { s with queues := s.queues ++ [x] }

/-- PROCESS_KILL: the ladder begins for the process's queues, which are destroyed once their work is off the
device (R294). -/
def execProcessKill (proc : Nat) (s : State) : Out :=
  let off (x : Queue) : Bool := x.process == proc && (x.phase == .drained || x.phase == .saved || x.phase == .reset)
  let gone := (s.queues.filter off).map (fun x => x.id)
  let s := gone.foldl destroyQueue s
  let s := { s with queues := s.queues.map (fun x => if x.process = proc then { startLadder .kill x with ladder := some .kill } else x),
                    parts := s.parts.map (fun p => { p with wheel := p.wheel.filter (fun n => n != proc) }) }
  .next s

/-- The cores that the core-disable mask in force withholds: bit n of its payload is compute core n, bit 2048 + n memory
core n (R1, R374; log 67). -/
def maskedCores (s : State) : List Word :=
  let p := look [] s.firm.inForce 3
  (List.range (min 2112 (8 * p.length))).filterMap (fun n =>
    if (p.getD (n / 8) 0).getLsbD (n % 8) then
      some (if n < 2048 then coreWord (ownPkg s) (n / 8) (n % 8) else coreWord (ownPkg s) (256 + n - 2048) 0)
    else none)

/-- Every core of the package that no partition gets: those a mask withholds, and those that failed at bring-up (R1, R373). -/
def withheldCores (s : State) : List Word := s.firm.withheld ++ maskedCores s

/-- A description of a partition that the kiln can give it: its parts are this package's and no other partition's, its
cores elsewhere are there, the overflow area and the counter ranges fit; one made in reduced service stays on die 0
(R1, R139, R199, R373). -/
def partOk (s : State) (d : PartDesc) : Bool :=
  let die0 := s.firm.stage == 1 || (partById s d.part).any Part.early
  d.clusters.all (fun c => decide (c < if die0 then 64 else 256)) &&
  d.memCores.all (fun m => decide (m < if die0 then 8 else 64)) &&
  s.parts.all (fun p => p.id == d.part || (!d.clusters.any p.clusters.contains && !d.memCores.any p.memCores.contains)) &&
  d.others.all (coreThere s) && decide (d.ovf16 ≤ 16) && d.dct.all (fun r => decide (r.1 ≤ r.2) && decide (r.2 < 1024))

/-- The partition as the description has it. -/
def Part.give (p : Part) (s : State) (d : PartDesc) : Part :=
  { p with clusters := d.clusters, memCores := d.memCores, others := d.others, ovf := 16384 * d.ovf16, dct := d.dct, absent := withheldCores s }

/-- PARTITION_CHANGE: the ladder begins for the partition's queues; once their work is off the device, the partition is
as the description has it, the memory cores it gives up keep no translation of the host's, and its queues may return
(R294, R336). At stage 0 there is no service (R373). -/
def execPartitionChange (part : Nat) (cores : PartCores) (room : PartRoom) (s : State) : Out :=
  let d : PartDesc := { toPartCores := cores, toPartRoom := room, part := part }
  let mineQ (x : Queue) : Bool := x.part == d.part
  if s.firm.stage == 0 || !partOk s d then .next s
  else if (s.queues.filter mineQ).all (fun x => x.phase == .drained || x.phase == .saved || x.phase == .reset) then
    let s := mapCores s (fun c =>
      if isMem c.id && inPart s d.part c.id && !d.memCores.contains (clIdx c.id - 256) then { c with atc := [] } else c)
    let s := if (partById s d.part).isSome then modPart s d.part (fun p => p.give s d)
      else { s with parts := s.parts ++ [{ Part.full with id := d.part, early := s.firm.stage == 1 }.give s d] }
    .next { s with queues := s.queues.map (fun x => if mineQ x && x.ladder == some .partition then { x with cleared := true } else x) }
  else .next { s with queues := s.queues.map (fun x => if mineQ x then startLadder .partition x else x) }

/-- The clusters, and engines of memory cores, that a durable queue's kernels find reset: those that run its process in its
partition, and those on which it has work (R135, R368). -/
def replayEngines (s : State) (x : Queue) : List Nat :=
  ((s.clusters.filter (fun u => u.proc == some x.process && (partOfCl s u.id).any (fun p => p.id == x.part))).map Cluster.id ++ enginesOf s x.id).eraseDups

/-- DURABLE_REPLAY: after a reset that touches a durable queue, committed journals are applied and their records
retire, the others are discarded, its clusters are reset with their arrays, and each unretired record starts again under a new
GEN. Transfers
of other kernels that the reset has interrupted go on by themselves (R366, R368; log 80). -/
def execDurableReplay (q : Nat) (s : State) : Out :=
  match queueById s q with
  | none => .next s
  | some x =>
    if !x.dur then .next s
    else
      let cls := replayEngines s x
      let s := commitAll q s
      let s := (s.kerns.filter (fun k => ofQueue q k.ref)).foldl dropKernel s
      let s := { s with stops := s.stops.filter (fun r => !ofQueue q r.kern), held := s.held.filter (fun h => !ofQueue q h.kern) }
      let s := mapCores s (fun c => if cls.contains (clIdx c.id) then arrayReset (engineReset s c) else c)
      .next (modQueue s q (fun y =>
        advanceCi y.retired.length { y with gen := (y.gen + 1) % 65536, next := y.ci, journal := [], committed := [] }))

end Sys2Proof.Machine
end

