-- ==== Sys2Proof/Machine/Energy.lean ====
section
/-! DEFINITION. Energy accounts (R351-R355) and cluster clocks (R356-R359). -/

namespace Sys2Proof.Machine

/-! ### Metering -/

/-- The number of a class in the calibration; 0 is what no context does: leakage, refresh, idle power (log 23). -/
def AClass.code : AClass → Nat
  | .cell => 1
  | .sram => 2
  | .net => 3
  | .saggar => 4
  | .instr ari op => 16 + (if ari then 256 else 0) + op

/-- The energy of some counts, in 2^-16 cones. -/
def energyOfActs (l : List Act) : Nat := (l.map (fun a => Config.energyOf a.cls.code a.n)).sum

/-- Charges whole cones to a process, its turn and a kernel (R351, R354, R355). -/
def chargeCones (s : State) (proc : Nat) (k : KRef) (cones : Nat) : State :=
  let n : DWord := BitVec.ofNat 64 cones
  let s := modProc s proc (fun p => { p with cone := p.cone + n, turnCharged := p.turnCharged + n })
  { s with kerns := s.kerns.map (fun r => if r.ref = k then { r with charged := r.charged + n } else r) }

/-- Adds energy, in 2^-16 cones, to the package account (R352). -/
def chargePkg (s : State) (e : Nat) : State :=
  { s with pkgEnergy := s.pkgEnergy + BitVec.ofNat 64 ((s.pkgFrac + e) / 65536), pkgFrac := (s.pkgFrac + e) % 65536 }

/-- The kernel is no queue's: the work is the kiln's own (R352). -/
def KRef.kiln (k : KRef) : Bool := decide (4096 ≤ k.queue)

/-- The counts of one context in one kernel become cones of its process; what is left over stays with the context, whichever
kernel it runs next; the kiln's work goes to the package account (R351, R352). -/
def meterOne (cl : Nat) (acts : List Act) (s : State) (o : Nat × Nat × KRef) : State :=
  let mine (a : Act) : Bool := a.ctxid == o.1 && a.proc == o.2.1 && a.kern == o.2.2
  let new := energyOfActs (acts.filter mine)
  if o.2.2.kiln then chargePkg s new
  else
    let u := getCl s cl
    let same (g : Frac) : Bool := g.ctxid == o.1 && g.proc == o.2.1
    let e := ((u.frac.filter same).map Frac.n).sum + new
    let rest := u.frac.filter (fun g => !same g)
    chargeCones (setCl s { u with frac := if e % 65536 = 0 then rest else ⟨o.1, o.2.1, e % 65536⟩ :: rest }) o.2.1 o.2.2 (e / 65536)

/-- METERING_INTERVAL: the cluster turns what its contexts have done into energy and charges their processes; what
is charged to none goes to the package account (R351, R352). -/
def execMeteringInterval (cl : Nat) (s : State) : Out :=
  let here (c : Core) : Bool := clIdx c.id == cl
  let acts := ((allCores s).filter here).flatMap (fun c => c.activity)
  let ctxs := (acts.map (fun a => (a.ctxid, a.proc, a.kern))).eraseDups
  let s := mapCores s (fun c => if here c then { c with activity := [] } else c)
  let s := ctxs.foldl (meterOne cl acts) s
  .next { chargePkg s (Config.energyOf 0 s.meterings) with meterings := s.meterings + 1 }

/-! ### Clocks -/

/-- CLOCK_CHANGE: the planner chooses a setting for the cluster; its barrier domain runs at the lowest of its choices and no
lower than any floor there, as far as the package limit admits it; in reduced service every clock stays (R356-R359, R373). -/
def execClockChange (cl n : Nat) (s : State) : Out :=
  if 12 < n || 256 ≤ cl || s.firm.stage == 1 then .next s
  else
    .next (planDomain (modCl s cl (fun u => { u with choice := n })) cl)

/-- OVERCURRENT_STEP: while the measured current exceeds the limit, every cluster above its floor goes one setting
down, and the planner's choice with it (R356, R358). -/
def execOvercurrentStep (s : State) : Out :=
  let high := Config.overCurrent s.meterings
  let s1 := { s with limited := high, meterings := s.meterings + 1 }
  if high then
    .next ((List.range 256).foldl (fun t c => modCl t c (fun u => if clockFloor s c < u.clock then { u with clock := u.clock - 1, choice := u.clock - 1 } else u)) s1)
  else .next s1

end Sys2Proof.Machine
end

