-- ==== Sys2Proof/Machine/Firmware.lean ====
section
/-! DEFINITION. Image slots and live update (R371, R372), bring-up (R373), signed records (R374), identity and
attestation (R375, R376), signature blocks (R346). -/

namespace Sys2Proof.Machine

/-! ### Signature blocks (R346) -/

/-- n bytes at an offset, as a number. -/
def field (f : List Byte) (at_ n : Nat) : Nat := bytesNat ((f.drop at_).take n)
/-- Bytes of a signature block. -/
def sigSize : Nat := 2460

/-- The block at sigOff ends the file, is well-formed, and verifies over the bytes before it (R346). -/
def sigLayoutOk (f : List Byte) (sigOff : Nat) : Bool :=
  f.length == sigOff + sigSize && field f (sigOff + 32) 4 == 2420 && field f (sigOff + 36) 4 == 0
def sigKey (f : List Byte) (sigOff : Nat) : BitVec 256 := BitVec.ofNat 256 (field f sigOff 32)
def sigVerifies (f : List Byte) (sigOff : Nat) : Bool :=
  Config.mldsaVerify (sigKey f sigOff) (sha3 (f.take sigOff)) ((f.drop (sigOff + 40)).take 2420)

/-! ### Signed records (R374) -/

/-- Prervaec's firmware key, the first KEYID of the configuration in force (R371; log 24). -/
def firmwareKey (m : Firm) : Option (BitVec 256) :=
  let p := look [] m.inForce 1
  if p.length < 32 then none else some (BitVec.ofNat 256 (field p 0 32))
/-- The KEYIDs that the configuration in force lists for a partition: after the first two keys, entries of a partition's
number in 4 bytes and a KEYID in 32 (R346; log 24). -/
def signerKeys (s : State) (part : Nat) : List (BitVec 256) :=
  let p := (look [] s.firm.inForce 1).drop 64
  (List.range (p.length / 36)).filterMap (fun i =>
    if field p (36 * i) 4 = part then some (BitVec.ofNat 256 (field p (36 * i + 4) 32)) else none)
/-- The owner key that the last accepted configuration names. -/
def ownerKey (s : State) : Option (BitVec 256) :=
  let p := look [] s.firm.records 1
  if p.length < 64 then none else some (BitVec.ofNat 256 (field p 32 32))

/-- SIGNED_RECORD: MAGIC, TYPE, SEQ, LEN, payload and signature block; an accepted record takes effect at the next
stage 0, a rejected one changes nothing (R374, R356). -/
def execSignedRecord (f : List Byte) (s : State) : Out :=
  let type := field f 4 4
  let seq := field f 8 4
  let len := field f 12 4
  let payload := (f.drop 16).take len
  let key := sigKey f (16 + len)
  let keyOk := key == Config.provisioningKey || (type == 1 && ownerKey s == some key)
  let fresh := match s.firm.seqs.find? (fun e => e.1 == type) with
    | some e => decide (e.2 ≤ seq)
    | none => true
  if field f 0 4 != 0x01525A44 || type == 0 || 3 < type || !sigLayoutOk f (16 + len) || !keyOk || !sigVerifies f (16 + len) || !fresh ||
     (type == 1 && !limitOk s payload) then .next s
  else .next { s with firm := { s.firm with records := put s.firm.records type payload, seqs := put s.firm.seqs type seq } }

/-! ### Live update (R371, R372) -/

/-- Every queue is off the device. -/
def quiet (s : State) : Bool := s.queues.all (fun x => x.phase == .drained || x.phase == .saved || x.phase == .reset)

/-- The image of the slot that is not active. -/
def spareImage (m : Firm) : Option Image := if m.activeB then m.imgA else m.imgB
def setSpare (m : Firm) (i : Option Image) : Firm := if m.activeB then { m with imgA := i } else { m with imgB := i }

/-- An image of a slot is signed by Prervaec's firmware key (R346, R371). -/
def Image.good (m : Firm) (i : Image) : Bool := firmwareKey m == some i.key && Config.mldsaVerify i.key i.digest i.sig
/-- The image whose code the kiln cores run. -/
def runningImage (m : Firm) : Option Image := if m.runningB then m.imgB else m.imgA

/-- The body of the handover structure: queue descriptors with their GEN, capabilities, those of the save areas among them,
wheel state (R371; log 82). -/
def handoverBody (s : State) : List Byte :=
  let flag (x : Queue) : Nat := x.log2n ||| x.res.toNat <<< 16 ||| x.dur.toNat <<< 17
  s.queues.flatMap (fun x => natBytes x.id 4 ++ natBytes x.ring 8 ++ natBytes (flag x) 4 ++ natBytes (x.process ||| x.part <<< 16) 4 ++
    natBytes x.farea 8 ++ natBytes x.flen 4 ++ natBytes x.gen 4) ++
  s.kiln.flatMap (fun g => natBytes g.1 4 ++ natBytes g.2.tag.toNat 1 ++ natBytes g.2.val.toNat 16) ++
  s.parts.flatMap (fun p => natBytes p.id 4 ++ natBytes (p.cur.elim 0 (fun n => n + 1)) 4 ++ p.wheel.flatMap (fun n => natBytes n 4))

/-- The handover structure as the old image writes it: VERSION is its own, LEN the length of the body (R371). -/
def handoverOf (s : State) : Handover :=
  { version := ((runningImage s.firm).map Image.version).getD 0, len := (handoverBody s).length, digest := sha3 (handoverBody s), body := handoverBody s }
/-- The new image takes a handover structure: any VERSION up to its own, with the length and the digest of its body (R371). -/
def accepts (i : Image) (h : Handover) : Bool := decide (h.version ≤ i.version) && h.len == h.body.length && h.digest == sha3 h.body

/-- A live update has ended without its new image: the old one runs (R371). -/
def oldImage (m : Firm) : Firm := { m with updating := false, pending := none, handover := none }

/-- FIRMWARE_UPDATE: the image goes to the inactive slot and is verified; every queue climbs the ladder; once all
are off the device, the old image writes the handover structure, which may fail, and the new image starts (R371, steps 1 to
5). That it fails is a free value (log 82). -/
def execFirmwareUpdate (image : List Byte) (version sigOff : Nat) (s : State) : Out :=
  let m := s.firm
  if m.updating then
    if quiet s && m.handover.isNone then
      let (r, t) := takeFree s
      .next { t with firm := if r.getLsbD 0 then { m with handover := some (handoverOf s), runningB := !m.activeB } else oldImage m }
    else .next s
  else
    let good := sigLayoutOk image sigOff && firmwareKey m == some (sigKey image sigOff) && sigVerifies image sigOff
    if !good then .next { s with firm := setSpare m none }
    else
      let d := sha3 (image.take sigOff)
      let i : Image := { version := version, digest := d, key := sigKey image sigOff, sig := (image.drop (sigOff + 40)).take 2420 }
      .next { s with firm := { setSpare m (some i) with pending := some d, updating := true, handover := none },
                     queues := s.queues.map (startLadder .firmware) }

/-- FIRMWARE_HEARTBEAT: the new image's first heartbeat, which it writes only where it takes the handover structure: the
active slot changes, its measurement becomes current (R371, steps 5 and 6). -/
def execFirmwareHeartbeat (s : State) : Out :=
  let m := s.firm
  match m.updating, m.handover, spareImage m with
  | true, some h, some i =>
    if accepts i h then
      .next { s with firm := { oldImage m with activeB := !m.activeB, measured := some i } }
    else .next s
  | _, _, _ => .next s

/-- FIRMWARE_HEARTBEAT_MISS: the old image runs again, with the handover structure as it wrote it (R371, step 7). -/
def execFirmwareHeartbeatMiss (s : State) : Out :=
  let m := s.firm
  if m.updating && m.handover.isSome then .next { s with firm := { oldImage m with runningB := m.activeB } }
  else .next s

/-! ### Bring-up (R373) -/

/-- External memory keeps its bytes over a power-on of the package. -/
def externalMem (m : Memory) : Memory := m.filter (fun c => isExternal c.1)

/-- POWER_ON: stage 0: the package is as after reset, with what its flash holds; the records accepted before take effect, and
the active image runs if it verifies, or else the other slot's if that does (R371, R373, R374). The identity key is derived
anew, from the same unclonable function (R375). -/
def execPowerOn (s : State) : Out :=
  let m := { s.firm with stage := 0, inForce := s.firm.records, withheld := [], answers := [] }
  let good (b : Bool) : Bool := ((if b then m.imgB else m.imgA).any (Image.good m))
  let m1 := { oldImage m with runningB := if good m.activeB then m.activeB else !m.activeB }
  let m2 := { m1 with measured := (runningImage m1).filter (Image.good m1) }
  let t := { State.reset with core := Core.reset (coreWord (ownPkg s) 0 0), mem := externalMem s.mem, events := s.events, free := s.free,
                              meterings := s.meterings, firm := m2 }
  .next { t with parts := [{ Part.full with absent := withheldCores t }] }

/-- REDUCED_SERVICE: stage 1: partitions on die 0 alone, its clusters at 550 MHz; memory cores 0 to 7 reach the pool, every range of
which the kiln interleaves over port 0 alone (R328; DEDUCED, log 88); the notify pages have the address that
the host gives them (R283, R373; log 70). -/
def execReducedService (s : State) : Out :=
  if s.firm.stage ≠ 0 then .next s
  else
    let cls := List.range 64
    let s := { s with firm := { s.firm with stage := 1 }, bar := some Config.notifyBar,
                      parts := [{ Part.full with clusters := cls, memCores := List.range 8, early := true, absent := withheldCores s }] }
    .next (cls.foldl (fun s c => modCl s c (fun u => { u with clock := 4, choice := 4 })) s)

/-- FULL_SERVICE: stage 2: the floors of R358 hold from now on; what failed is withheld from the partitions the kiln makes from now on, a link that failed its
training carries nothing, the other packages of the pod have their descriptions; partitions of stage 1 run on unchanged
(R318, R373). -/
def execFullService (d : ServiceDesc) (s : State) : Out :=
  if s.firm.stage ≠ 1 then .next s
  else
    let down (s : State) (n : Nat) : State := setLink s { linkOf s n with retrain := false, down := true }
    let t := d.links.foldl down { s with firm := { s.firm with stage := 2, withheld := d.withheld }, pod := d.pod }
    .next ((t.clusters.map Cluster.id).foldl (fun t c => if c < 256 && decide ((getCl t c).clock < clockFloor t c) then planDomain t c else t) t)

/-! ### Attestation (R375, R376) -/

/-- An answer goes to the DOE mailbox. -/
def answer (s : State) (a : SpdmAns) : Out := .next { s with firm := { s.firm with answers := s.firm.answers ++ [a] } }

def execGetVersion (s : State) : Out := answer s (.version 1 3)
def execGetCapabilities (s : State) : Out := answer s (.capabilities true true true)
def execNegotiateAlgorithms (sha mldsa : Bool) (s : State) : Out := answer s (.algorithms sha mldsa)
def execGetDigests (s : State) : Out := answer s (.digests (sha3 Config.certChain))
def execGetCertificate (s : State) : Out := answer s (.certificate Config.certChain)

/-- The measurements, by index (R376). What stands behind them changes only at a stage 0, or as a new image's measurement
becomes current. -/
def measurements (m : Firm) : List (Nat × BitVec 256) :=
  [(1, Config.romMeasurement), (2, (m.measured.map Image.digest).getD 0), (3, sha3 (look [] m.inForce 1)),
   (4, sha3 (look [] m.inForce 2 ++ look [] m.inForce 3)), (5, BitVec.ofNat 256 ((m.measured.map Image.version).getD 0))]

/-- The digest of every measurement. -/
def measureSummary (m : Firm) : BitVec 256 := sha3 ((measurements m).flatMap (fun e => natBytes e.1 1 ++ natBytes e.2.toNat 32))

/-- CHALLENGE: signed by the identity key, which the seed of the unclonable function gives (R375). -/
def execChallenge (nonce : BitVec 256) (s : State) : Out :=
  let d := measureSummary s.firm
  answer s (.challengeAuth nonce d (Config.mldsaSign Config.pufSeed (sha3 (natBytes nonce.toNat 32 ++ natBytes d.toNat 32))))

/-- GET_MEASUREMENTS: one index, or all for 255. -/
def execGetMeasurements (index : Nat) (s : State) : Out :=
  let l := if index = 255 then measurements s.firm else (measurements s.firm).filter (fun e => e.1 == index)
  answer s (if l.isEmpty then .error else .measurements l)

end Sys2Proof.Machine
end

