-- ==== Sys2Proof/Machine/FloatOps.lean ====
section
/-! DEFINITION. The floating-point instructions of the arithmetic slot (R106-R116). -/

namespace Sys2Proof.Machine

/-- A floating-point instruction: f gives, under the rounding mode, the result of n lanes and the exceptions
of all elements from D, S1 and S2. An enabled exception traps FP and leaves cx.fpm as it was (R75). Beside a `csrw` of cx.fpm
in word0 of its bundle it rounds as before that write, and its flags are ORed onto the value written (R12, R75, R131;
DESIGN CHOICE, log 75). -/
def floating (i : Instr) (n : Nat) (f : RMode → Row → Row → Row → Row × Exc) (s : State) : Out :=
  arith i (fun e old rs s =>
    let r := f (fpmMode (fpmOf s.core e)) old (nth rs 0) (nth rs 1)
    if excEnabled (modeFor s.core e) r.2 then .trap cFP (r.2.bits <<< 9) 0
    else .go (s.modS (fun x => { x with fpm := fpmRaise x.fpm r.2 })) r.1 n) s

/-- Element-wise on the codes of S1, S2 and D. -/
def fElem (i : Instr) (t : ETy) (f : RMode → Nat → Nat → Nat → Nat × Exc) (s : State) : Out :=
  floating i 16 (fun rm old a b => fMap t.width t.count (fun e =>
    f rm (elem a t.width e) (elem b t.width e) (elem old t.width e))) s

/-- Element-wise without exceptions (R116). -/
def fBits (i : Instr) (t : ETy) (f : Nat → Nat → Nat) (s : State) : Out :=
  arith i (fun _ _ rs s => .go s (rowOf t.width t.count (fun e => f (elem (nth rs 0) t.width e) (elem (nth rs 1) t.width e))) 16) s

/-- Between types of different element counts (R111): source element e to destination element e. -/
def fConv (i : Instr) (t src : ETy) (f : RMode → Nat → Nat × Exc) (s : State) : Out :=
  floating i 16 (fun rm _ a _ => fMap t.width (min t.count src.count) (fun e => f rm (elem a src.width e))) s

def execFadd (d x y : Opnd) (t : ETy) (s : State) : Out := fElem (.fadd d x y t) t (fun rm a b _ => fAdd t rm a b) s
def execFsub (d x y : Opnd) (t : ETy) (s : State) : Out := fElem (.fsub d x y t) t (fun rm a b _ => fSub t rm a b) s
def execFmul (d x y : Opnd) (t : ETy) (s : State) : Out := fElem (.fmul d x y t) t (fun rm a b _ => fMul t rm a b) s
def execFma (d x y : Opnd) (t : ETy) (s : State) : Out := fElem (.fma d x y t) t (fun rm a b z => fMac t rm false a b z) s
def execFms (d x y : Opnd) (t : ETy) (s : State) : Out := fElem (.fms d x y t) t (fun rm a b z => fMac t rm true a b z) s
def execFmin (d x y : Opnd) (t : ETy) (s : State) : Out := fElem (.fmin d x y t) t (fun _ a b _ => fMinMax t true a b) s
def execFmax (d x y : Opnd) (t : ETy) (s : State) : Out := fElem (.fmax d x y t) t (fun _ a b _ => fMinMax t false a b) s
def execFdiv (d x y : Opnd) (t : ETy) (s : State) : Out := fElem (.fdiv d x y t) t (fun rm a b _ => fDiv t rm a b) s
def execFsqrt (d x : Opnd) (t : ETy) (s : State) : Out := fElem (.fsqrt d x t) t (fun rm a _ _ => fSqrt t rm a) s
def execFrcp (d x : Opnd) (t : ETy) (s : State) : Out := fElem (.frcp d x t) t (fun rm a _ _ => fApprox t rm .rcp a) s
def execFrsq (d x : Opnd) (t : ETy) (s : State) : Out := fElem (.frsq d x t) t (fun rm a _ _ => fApprox t rm .rsq a) s
def execFexp2 (d x : Opnd) (t : ETy) (s : State) : Out := fElem (.fexp2 d x t) t (fun rm a _ _ => fApprox t rm .exp2 a) s
def execFlog2 (d x : Opnd) (t : ETy) (s : State) : Out := fElem (.flog2 d x t) t (fun rm a _ _ => fApprox t rm .log2 a) s
def execFcmpeq (d x y : Opnd) (t : ETy) (s : State) : Out := fElem (.fcmpeq d x y t) t (fun _ a b _ => fCompare t .eq a b) s
def execFcmplt (d x y : Opnd) (t : ETy) (s : State) : Out := fElem (.fcmplt d x y t) t (fun _ a b _ => fCompare t .lt a b) s
def execFcmple (d x y : Opnd) (t : ETy) (s : State) : Out := fElem (.fcmple d x y t) t (fun _ a b _ => fCompare t .le a b) s
def execFclass (d x : Opnd) (t : ETy) (s : State) : Out := fBits (.fclass d x t) t (fun a _ => fClass t a) s
def execFcvt (d x : Opnd) (t src : ETy) (satBit : Bool) (s : State) : Out :=
  fConv (.fcvt d x t src satBit) t src (fun rm a => fConvert t src rm satBit a) s
def execFcvti (d x : Opnd) (t src : ETy) (s : State) : Out := fConv (.fcvti d x t src) t src (fun rm a => fToInt t src rm a) s
def execIcvtf (d x : Opnd) (t src : ETy) (s : State) : Out := fConv (.icvtf d x t src) t src (fun rm a => intToF t rm (val src a)) s

/-- One operation of `fred` (R114). -/
def fredOp (t : ETy) (rm : RMode) (op : FRedOp) (a b : Nat) : Nat × Exc :=
  match op with
  | .add => fAdd t rm a b
  | .min => fMinMax t true a b
  | .max => fMinMax t false a b
def execFred (op : FRedOp) (d x : Opnd) (t : ETy) (s : State) : Out :=
  floating (.fred op d x t) 1 (fun rm _ a _ =>
    let r := fTree (fredOp t rm op) (Nat.log2 t.count) (elem a t.width) Exc.none
    (laneRow (BitVec.ofNat 32 r.1), r.2)) s

def execFabs (d x : Opnd) (t : ETy) (s : State) : Out := fBits (.fabs d x t) t (fun a _ => fSignOp t a false) s
def execFneg (d x : Opnd) (t : ETy) (s : State) : Out := fBits (.fneg d x t) t (fun a _ => fSignOp t a (!fSign t a)) s
def execFsgnj (d x y : Opnd) (t : ETy) (s : State) : Out := fBits (.fsgnj d x y t) t (fun a b => fSignOp t a (fSign t b)) s

end Sys2Proof.Machine
end

