-- ==== Sys2Proof/Machine/Modules.lean ====
section
/-! DEFINITION. The loader (R338-R350): layout, signature, device hash, placement, tags, relocations, weights,
publication, and unloading. The answer is (status, handle). -/

namespace Sys2Proof.Machine

/-- Statuses of the loader (R347, R350). -/
def stLAYOUT : Nat := 1
def stSIGNATURE : Nat := 2
def stNOPORTABLE : Nat := 3
def stTRANSLATE : Nat := 4
def stNOSPACE : Nat := 5
def stTAGCLASH : Nat := 6
def stRELOC : Nat := 7
def stBUSY : Nat := 8

/-! ### The file (R338-R344) -/

/-- A section-table entry (R340). -/
structure Sect where
  type : Nat
  zero2 : Nat
  align : Nat
  off : Nat
  size : Nat
  addr : Nat
  link : Nat
  zero28 : Nat
  deriving DecidableEq, Repr

def sectAt (f : List Byte) (o : Nat) : Sect :=
  { type := field f o 2, zero2 := field f (o + 2) 2, align := field f (o + 4) 4, off := field f (o + 8) 4, size := field f (o + 12) 4,
    addr := field f (o + 16) 8, link := field f (o + 24) 4, zero28 := field f (o + 28) 4 }
def sections (f : List Byte) : List Sect := (List.range (field f 0x34 2)).map (fun i => sectAt f (field f 0x38 4 + 32 * i))

/-- Section types that the loader maps (R340). -/
def isMapped (t : Nat) : Bool := t == 2 || t == 4 || t == 5

/-- The section of a type, and its bytes. -/
def sectOf (ss : List Sect) (t : Nat) : Option Sect := ss.find? (fun c => c.type == t)
def sectBytes (f : List Byte) (c : Option Sect) : List Byte := match c with
  | some c => (f.drop c.off).take c.size
  | none => []

/-- n bytes from an offset on are zero. -/
def blank (b : List Byte) (at_ n : Nat) : Bool := ((b.drop at_).take n).all (fun v => v == 0)

/-- Some name stands at the offset of the strings section (R340). -/
def nameOk (strs : List Byte) (o : Nat) : Bool := decide (o < strs.length)

/-- A symbol entry is in form (R341). -/
def symOk (strs b : List Byte) (nsect i : Nat) : Bool :=
  let o := 16 * i
  let sect := field b (o + 4) 2
  nameOk strs (field b o 4) && (decide (sect < nsect) || sect == 0xFFFF) && decide (field b (o + 6) 1 ≤ 4) && field b (o + 7) 1 == 0 &&
  ((sect == 0xFFFF) == (field b (o + 6) 1 == 2))

/-- Argument layouts, n of them, fill the rest of a launch section: a head of NAME, SIZE and NFIELD, and fields of NAME,
OFFSET, TYPE and COUNT (R344). -/
def layoutsOk (strs : List Byte) : Nat → List Byte → Bool
  | 0, b => b.isEmpty
  | n + 1, b =>
    let k := field b 8 4
    let typeOk (t : Nat) : Bool := (decide (t ≤ 9) && t != 3 && t != 7) || t == 0x10 || t == 0x11 || t == 0x12
    decide (16 + 16 * k ≤ b.length) && nameOk strs (field b 0 4) && field b 4 4 % 64 == 0 && field b 12 4 == 0 &&
    (List.range k).all (fun i => nameOk strs (field b (16 + 16 * i) 4) && typeOk (field b (24 + 16 * i) 4)) &&
    layoutsOk strs n (b.drop (16 + 16 * k))

/-- A launch section is in form: counts, padding, records with MODULE 0, layouts (R344). -/
def launchOk (strs b : List Byte) : Bool :=
  let n := field b 0 4
  blank b 8 56 && decide (64 + 256 * n ≤ b.length) && (List.range n).all (fun i => field b (66 + 256 * i) 2 == 0) &&
  layoutsOk strs (field b 4 4) (b.drop (64 + 256 * n))

/-! ### The portable section (R345) -/

/-- Head of a portable section: counts of bundles, handlers and relocations; where the parts stand. -/
def pBundles (b : List Byte) : Nat := field b 0 4
def pHands (b : List Byte) : Nat := field b 4 4
def pRels (b : List Byte) : Nat := field b 8 4
def pBundleAt (b : List Byte) (i : Nat) : Nat := 64 + 32 * pHands b + 12 * i
def pRelAt (b : List Byte) (i : Nat) : Nat := pBundleAt b (pBundles b) + 16 * i

/-- The operand fields that a control word uses, as its map lists them: A, B, C (R40). -/
def fieldsC (w : Word) : Bool × Bool × Bool :=
  match (w.extractLsb' 25 6).toNat with
  | 0x01 => (w.extractLsb' 15 3 != 6, false, false)
  | 0x02 | 0x0A | 0x0B | 0x0C | 0x20 | 0x22 | 0x2E | 0x31 | 0x35 | 0x36 | 0x37 | 0x39 | 0x3A | 0x3B | 0x3C => (true, false, false)
  | 0x04 => (!w.getLsbD 31 && w.extractLsb' 15 3 == 0, false, false)
  | 0x34 => (!w.getLsbD 31, false, false)
  | 0x23 => (true, !w.getLsbD 0, false)
  | 0x03 | 0x0D | 0x10 | 0x11 | 0x12 | 0x13 | 0x14 | 0x15 | 0x16 | 0x17 | 0x18 | 0x19 | 0x21 | 0x24 | 0x28 | 0x29 | 0x2D | 0x30 | 0x32 =>
    (true, true, false)
  | 0x1A | 0x1B | 0x1C | 0x1D => (true, true, true)
  | _ => (false, false, false)
/-- The operand fields that an arithmetic word uses: D, S1, S2 (R39, R44). -/
def fieldsA (w : Word) : Bool × Bool × Bool :=
  match (w.extractLsb' 25 7).toNat with
  | 0x00 => (false, false, false)
  | 0x4D => (true, false, false)
  | 0x7C | 0x7D => (false, true, false)
  | 0x18 | 0x19 | 0x1A | 0x1B | 0x1C | 0x1D | 0x1E | 0x1F | 0x20 | 0x21 | 0x22 | 0x23 | 0x24 | 0x3D | 0x44 | 0x46 | 0x48 | 0x49 | 0x4A | 0x4B
  | 0x4C | 0x68 | 0x69 | 0x6A | 0x6B | 0x6C | 0x70 | 0x71 | 0x72 | 0x73 | 0x74 | 0x75 | 0x76 => (true, true, false)
  | _ => (true, true, true)
/-- The used fields at bits 24:18, 17:11 and 10:4 that hold a window specifier. -/
def windowFields (w : Word) (u : Bool × Bool × Bool) : Bool × Bool × Bool :=
  let win (lo : Nat) : Bool := decide ((w.extractLsb' lo 7).toNat < 0x60)
  (u.1 && win 18, u.2.1 && win 11, u.2.2 && win 4)

/-- A relocation of the portable section lands in bytes o to o + n - 1 of it, the section of that index. -/
def pRelIn (b : List Byte) (idx o n : Nat) : Bool :=
  (List.range (pRels b)).any (fun i =>
    let w := field b (pRelAt b i) 4
    w / 2 ^ 24 == idx && decide (o ≤ w % 2 ^ 24) && decide (w % 2 ^ 24 < o + n))

/-- A portable bundle is in form: a native bundle that decodes, and its PX word, whose extensions go with window
specifiers; a tag or a gang mask in it comes through a relocation, and stands as 0 until then, so that the form of an
`mgang` is judged with the mask that it gets (R345). -/
def pBundleOk (b : List Byte) (idx i : Nat) : Bool :=
  let o := pBundleAt b i
  let w0 : Word := BitVec.ofNat 32 (field b o 4)
  let w1 : Word := BitVec.ofNat 32 (field b (o + 4) 4)
  let form : Word := if w0.extractLsb' 25 7 = 0x70 then w1 ||| 0x200 else w1
  let px := field b (o + 8) 4
  let lone := w0.getLsbD 31
  let op := (w0.extractLsb' 25 6).toNat
  let c := windowFields w0 (fieldsC w0)
  let a := if lone then (false, false, false) else windowFields w1 (fieldsA w1)
  ((okInstr (decodeControl false w0 form)).isSome || (okInstr (decodeControl true w0 form)).isSome) && (lone || (okInstr (decodeArith w1)).isSome) &&
  decide (px < 2 ^ 10) && (px % 8 == 0 || c.1 || a.1) && (px / 8 % 8 == 0 || c.2.1 || a.2.1) && (px / 64 % 8 == 0 || c.2.2 || a.2.2) &&
  (op != 0x2C || (pRelIn b idx o 1 && field b o 1 == 0)) && (op != 0x30 || (pRelIn b idx (o + 4) 4 && w1.extractLsb' 9 8 == 0))

/-- A portable handler is in form (R345). -/
def pHandOk (strs b : List Byte) (i : Nat) : Bool :=
  let o := 64 + 32 * i
  field b o 1 == 0 && decide (field b (o + 1) 1 ≤ 2) && field b (o + 2) 1 == 0 && decide (field b (o + 3) 1 < 4) &&
  field b (o + 4) 4 % 8 == 0 && decide (field b (o + 4) 4 < 8 * pBundles b) && decide (field b (o + 8) 2 ≤ 767) &&
  decide (field b (o + 10) 2 ≤ 768) && nameOk strs (field b (o + 16) 4) && decide (1 ≤ field b (o + 22) 2) && decide (field b (o + 22) 2 ≤ 768) &&
  blank b (o + 24) 8

/-- A relocation of the portable section is in the form of R342. -/
def pRelOk (b : List Byte) (nsym i : Nat) : Bool :=
  let o := pRelAt b i
  decide (field b (o + 4) 4 < nsym) && decide (1 ≤ field b (o + 8) 2) && decide (field b (o + 8) 2 ≤ 5) && field b (o + 10) 2 == 0

/-- The portable section, the section of index idx, is in form (R345). -/
def portableOk (strs b : List Byte) (idx nsym text : Nat) : Bool :=
  decide (64 ≤ b.length) && blank b 12 52 && b.length == pRelAt b (pRels b) && (text == 0 || text == 8 * pBundles b) &&
  (List.range (pHands b)).all (pHandOk strs b) && (List.range (pBundles b)).all (pBundleOk b idx) && (List.range (pRels b)).all (pRelOk b nsym)

/-! ### Layout of the file -/

/-- One section is well-formed (R340-R345). -/
def sectOk (f : List Byte) (ss : List Sect) (c : Sect) : Bool :=
  let strs := sectBytes f (sectOf ss 11)
  let b := sectBytes f (some c)
  let al := if c.type == 1 || c.type == 6 || c.type == 5 then c.align == 6 else decide (3 ≤ c.align)
  decide (1 ≤ c.type) && decide (c.type ≤ 11) && c.zero2 == 0 && c.zero28 == 0 && al && decide (c.align < 32) && c.off % 2 ^ c.align == 0 &&
  decide (64 ≤ c.off) && decide (c.off + c.size ≤ field f 0x3C 4) &&
  (if isMapped c.type then decide (0x2000000 ≤ c.addr) && decide (c.addr + c.size ≤ 2 ^ 52) && c.addr % 2 ^ c.align == 0 else c.addr == 0) &&
  (match c.type with
   | 1 => c.size % 8 == 0
   | 3 => c.size % 512 == 0
   | 6 => c.size % 16 == 0 && decide (64 ≤ c.size) && launchOk strs b
   | 7 => portableOk strs b (ss.idxOf c) ((sectBytes f (sectOf ss 8)).length / 16) (sectBytes f (sectOf ss 1)).length
   | 8 => c.size % 16 == 0 && (ss[c.link]?).any (fun d => d.type == 11) && (List.range (c.size / 16)).all (symOk strs b ss.length)
   | 9 => c.size % 16 == 0 && c.link == 0 && (List.range (c.size / 16)).all (fun i => field b (16 * i + 10) 2 == 0)
   | 10 => c.size % 32 == 0
   | 11 => b.getLast?.all (fun v => v == 0)
   | _ => true)
/-- No two sections share a type or a byte (R340). -/
def sectsApart : List Sect → Bool
  | [] => true
  | c :: r => r.all (fun d => d.type != c.type && (decide (c.off + c.size ≤ d.off) || decide (d.off + d.size ≤ c.off) || c.size == 0 || d.size == 0)) &&
    sectsApart r

/-- A handlers entry (R343). -/
structure Hand where
  tag : Nat
  cls : Nat
  rows : Nat
  flags : Nat
  entry : Nat
  crb : Nat
  crn : Nat
  zero11 : Nat
  cpb : Nat
  cpn : Nat
  name : Nat
  zeros : Bool
  deriving DecidableEq, Repr

def hands (f : List Byte) (ss : List Sect) : List Hand :=
  let b := sectBytes f (sectOf ss 10)
  (List.range (b.length / 32)).map (fun i =>
    { tag := field b (32 * i) 1, cls := field b (32 * i + 1) 1, rows := field b (32 * i + 2) 1, flags := field b (32 * i + 3) 1,
      entry := field b (32 * i + 4) 4, crb := field b (32 * i + 8) 2, crn := field b (32 * i + 10) 1, zero11 := field b (32 * i + 11) 1,
      cpb := field b (32 * i + 12) 2, cpn := field b (32 * i + 14) 2, name := field b (32 * i + 16) 4, zeros := blank b (32 * i + 20) 12 })
def handOk (strs : List Byte) (text : Nat) (h : Hand) : Bool :=
  decide (h.cls ≤ 2) && decide (1 ≤ h.rows) && decide (h.rows ≤ 96) && decide (h.flags < 4) && h.entry % 8 == 0 && decide (h.entry < text) &&
  h.zero11 == 0 && h.zeros && nameOk strs h.name

/-- The bytes of a handler's memory-core flag. -/
def Hand.onMem (h : Hand) : Bool := h.flags / 2 == 1

/-- The three words of a device: MODEL, STEPPING, FEATURE (R338). -/
def deviceWords : List Byte := natBytes 0xD09 4 ++ natBytes (Config.deviceWord 0).toNat 4 ++ natBytes (Config.deviceWord 1).toNat 4
/-- DHASH of this device (R339). -/
def deviceHash : BitVec 256 := sha3 deviceWords
/-- DHASH of a file. -/
def fileHash (f : List Byte) : BitVec 256 := BitVec.ofNat 256 (field f 8 32)

/-- Header, table and sections are well-formed (R338, R340-R346). -/
def vofForm (f : List Byte) : Bool :=
  let ss := sections f
  field f 0 4 == 0x01464F56 && field f 4 2 == 1 && decide (field f 6 2 < 4) && decide (1 ≤ field f 0x34 2) && decide (field f 0x34 2 ≤ 64) &&
  field f 0x36 2 == 0 && field f 0x38 4 % 8 == 0 && field f 0x3C 4 % 8 == 0 && sigLayoutOk f (field f 0x3C 4) &&
  decide (field f 0x38 4 + 32 * ss.length ≤ field f 0x3C 4) && ss.all (sectOk f ss) && sectsApart ss &&
  (hands f ss).all (handOk (sectBytes f (sectOf ss 11)) (sectBytes f (sectOf ss 1)).length) &&
  (field f 6 2 / 2 == 1) == (sectOf ss 7).isSome
/-- A well-formed file whose DHASH is the hash of its own device words (R339). -/
def vofOk (f : List Byte) : Bool := vofForm f && fileHash f == sha3 ((f.drop 0x28).take 12)

/-! ### The native image (R339, R346, R349) -/

/-- This package's identity key: the KEYID of its public key (R375). -/
def identityKey : BitVec 256 := sha3 (Config.mldsaPublic Config.pufSeed)

/-- A file is signed by a key the loader accepts for the partition: one that the configuration lists for it, or the
identity key of a package of the pod (R346). -/
def signedBy (f : List Byte) (ok : BitVec 256 → Bool) : Bool := ok (sigKey f (field f 0x3C 4)) && sigVerifies f (field f 0x3C 4)
def signerOk (s : State) (part : Nat) (key : BitVec 256) : Bool :=
  (signerKeys s part).contains key || identityKey == key || s.pod.any (fun k => k.key == some key)

/-- What R298 keeps of a launch section: its records, and of its layouts all but the names. -/
def launchKept (b : List Byte) : List Byte × List (Nat × Nat) :=
  let n := 64 + 256 * field b 0 4
  (b.take n, (List.range ((b.length - n) / 16)).map (fun i => (field b (n + 16 * i + 4) 4, field b (n + 16 * i + 8) 8)))

/-- A translated image is what R349 asks for: well-formed native code for this device, signed by the package's identity
key, with the file's launch records and argument layouts. -/
def imageOk (f g : List Byte) : Bool :=
  vofOk g && field g 6 2 % 2 == 1 && (g.drop 0x28).take 12 == deviceWords && fileHash g == deviceHash &&
  signedBy g (fun k => identityKey == k) &&
  launchKept (sectBytes g (sectOf (sections g) 6)) == launchKept (sectBytes f (sectOf (sections f) 6))

/-- An image that another package has sent is one that this package may map (R349). -/
def sentOk (s : State) (part : Nat) (g : List Byte) : Bool := vofOk g && fileHash g == deviceHash && signedBy g (signerOk s part)

/-- What R196 keeps of a control word: its operation (64 more for an E fence), the orders it makes (1 of an acquire, 2 of a
release, 4 of sc) and its scope; none for a word that a translation may move. Engine work counts where its form does not mark
it as movable. -/
structure KeptOp where
  op : Nat
  order : Nat
  scp : Nat
  deriving DecidableEq, Repr

/-- The orders of an access label, and of a fence kind. -/
def accOrder (o : Nat) : Nat := [0, 1, 2, 7].getD o 0
def fenceOrder (o : Nat) : Nat := [1, 2, 3, 7].getD o 0

/-- The operation of an engine: `strm`, `cpy`, `mgang`, a transfer. -/
def isEngine (op : Nat) : Bool := [0x20, 0x21, 0x30, 0x39, 0x3A, 0x3B, 0x3C].contains op

def keptOp (mov : Bool) (w0 w1 : Word) : Option KeptOp :=
  let op := (w0.extractLsb' 25 6).toNat
  let ord := accOrder (w0.extractLsb' 4 2).toNat
  let scp := (w0.extractLsb' 1 3).toNat
  if 0x10 ≤ op ∧ op ≤ 0x19 then (if ord = 0 then none else some ⟨op, ord, scp⟩)
  else if op = 0x24 then some ⟨op, ord, scp⟩
  else if op = 0x1C ∨ op = 0x1D then
    (if w1.extractLsb' 3 2 = 0 then none else some ⟨op, accOrder (w1.extractLsb' 3 2).toNat, (w1.extractLsb' 0 3).toNat⟩)
  else if op = 0x1E then some ⟨op + 64 * (w0.extractLsb' 5 1).toNat, fenceOrder (w0.extractLsb' 3 2).toNat, (w0.extractLsb' 0 3).toNat⟩
  else if [0x1F, 0x23, 0x28, 0x29, 0x2D, 0x2E, 0x2F].contains op then some ⟨op, 0, 0⟩
  else if isEngine op && !mov then some ⟨op, 0, 0⟩
  else none

/-- An operation of an image stands for one of the form: the same, no weaker, in no narrower scope (R196). -/
def KeptOp.keeps (a b : KeptOp) : Bool := a.op == b.op && a.order &&& b.order == a.order && decide (a.scp ≤ b.scp)

/-- An order that a translation may not move an rlx access of its context over: an acquire, a release or a fence; so the sends, the
counters and the barrier, which release, `cpwait`, which acquires, and `ifence` (R172, R185-R187, R196). -/
def KeptOp.parts (a : KeptOp) : Bool := a.order != 0 || [0x1E, 0x1F, 0x23, 0x28, 0x29, 0x2D, 0x2E, 0x2F].contains (a.op % 64)

/-- A core access: 0 a load, 1 a store, otherwise the operation of the atomic; and the logarithm of its width in bytes, 4 for a row. -/
structure CoreAcc where
  kind : Nat
  width : Nat
  deriving DecidableEq, Repr

/-- The core access that a word makes. -/
def coreAcc (w0 w1 : Word) : Option CoreAcc :=
  let op := (w0.extractLsb' 25 6).toNat
  if 0x10 ≤ op ∧ op ≤ 0x14 then some ⟨0, op - 0x10⟩
  else if 0x15 ≤ op ∧ op ≤ 0x19 then some ⟨1, op - 0x15⟩
  else if op = 0x1A then some ⟨0, (w0.extractLsb' 0 3).toNat⟩
  else if op = 0x1B then some ⟨1, (w0.extractLsb' 0 3).toNat⟩
  else if op = 0x1C ∨ op = 0x1D then some ⟨64 * (w0.extractLsb' 0 4).toNat + op, (w1.extractLsb' 5 1).toNat⟩
  else none

/-- What R196 says of a bundle: the operation that stays in order; the core access; that it is engine work; that its form marks it as
movable. -/
structure CodeOp where
  kept : Option KeptOp
  acc : Option CoreAcc
  engine : Bool
  mov : Bool
  deriving DecidableEq, Repr

def codeOp (mov : Bool) (w0 w1 : Word) : CodeOp :=
  { kept := keptOp mov w0 w1, acc := coreAcc w0 w1, engine := isEngine (w0.extractLsb' 25 6).toNat, mov := mov }

/-- An access of the form stands among those of the image: one of its kind, no narrower, since what is single-copy atomic stays so
(R146, R196). -/
def standsIn (l : List CoreAcc) (a : CoreAcc) : Bool := l.any (fun b => b.kind == a.kind && decide (a.width ≤ b.width))

/-- The image up to the operation that stands for a kept one of the form: the core accesses met on the way, and what follows. -/
def seek (a : KeptOp) : List CodeOp → List CoreAcc → Option (List CodeOp × List CoreAcc)
  | [], _ => none
  | c :: cs, got =>
    let got := got ++ c.acc.toList
    if c.kept.any a.keeps then some (cs, got) else seek a cs got

/-- The image keeps the form: what stays in order does, and between two operations that part the rlx accesses, those of the form that
are not movable stand in the image (R196; log 22). `need` and `got` are the accesses of both since the last such operation. -/
def follows : List CodeOp → List CodeOp → List CoreAcc → List CoreAcc → Bool
  | [], img, need, got => need.all (standsIn (got ++ img.filterMap CodeOp.acc))
  | c :: cs, img, need, got =>
    let need := if c.mov then need else need ++ c.acc.toList
    match c.kept with
    | none => follows cs img need got
    | some a => match seek a img got with
      | none => false
      | some (img, got) => if a.parts then need.all (standsIn got) && follows cs img [] [] else follows cs img need got

/-- A piece of code: from an entry up to the next of a list of entries, or to the end. -/
def pieceOf (code : List CodeOp) (entries : List Nat) (e : Nat) : List CodeOp :=
  let stop := entries.foldl (fun m v => if e < v ∧ v < m then v else m) (8 * code.length)
  (code.take (stop / 8)).drop (e / 8)

/-- A piece of an image is a translation of a piece of the form: it keeps it, and has no engine work but what the form has or lets
become engine work (R196). -/
def pieceKept (form img : List CodeOp) : Bool :=
  follows form img [] [] && decide ((img.filter CodeOp.engine).length ≤ (form.filter (fun c => c.engine || (c.mov && c.acc.isSome))).length)

/-- The code of a portable section, and of the text of an image. -/
def portableCode (p : List Byte) : List CodeOp :=
  (List.range (pBundles p)).map (fun i =>
    let o := pBundleAt p i
    codeOp (field p (o + 8) 4 / 512 % 2 == 1) (BitVec.ofNat 32 (field p o 4)) (BitVec.ofNat 32 (field p (o + 4) 4)))
def imageCode (t : List Byte) : List CodeOp :=
  (List.range (t.length / 8)).map (fun i => codeOp false (BitVec.ofNat 32 (field t (8 * i) 4)) (BitVec.ofNat 32 (field t (8 * i + 4) 4)))

/-- The name that stands at an offset of a strings section. -/
def nameAt (strs : List Byte) (o : Nat) : List Byte := (strs.drop o).takeWhile (fun v => v != 0)

/-- Handlers as name and entry: of the form, and of an image. -/
def portableEntries (f : List Byte) : List (List Byte × Nat) :=
  let p := sectBytes f (sectOf (sections f) 7)
  (List.range (pHands p)).map (fun i => (nameAt (sectBytes f (sectOf (sections f) 11)) (field p (64 + 32 * i + 16) 4), field p (64 + 32 * i + 4) 4))
def imageEntries (g : List Byte) : List (List Byte × Nat) :=
  (hands g (sections g)).map (fun h => (nameAt (sectBytes g (sectOf (sections g) 11)) h.name, h.entry))

/-- The image keeps what R196 asks for, handler by handler, found by its name, in whatever order they stand, and so does the code before
the first of them (R196, R349; log 22). -/
def orderKept (f g : List Byte) : Bool :=
  let form := portableCode (sectBytes f (sectOf (sections f) 7))
  let img := imageCode (sectBytes g (sectOf (sections g) 1))
  let es := portableEntries f
  let gs := imageEntries g
  let first (l : List Nat) : Nat := l.foldl min (l.headD 0)
  pieceKept (form.take (first (es.map Prod.snd) / 8)) (img.take (first (gs.map Prod.snd) / 8)) &&
  es.all (fun e => (gs.find? (fun h => h.1 == e.1)).any (fun h =>
    pieceKept (pieceOf form (es.map Prod.snd) e.2) (pieceOf img (gs.map Prod.snd) h.2)))

/-- The lowest-numbered package that holds a part of the partition: it translates, and sends its image to the others
(R349). -/
def translates (s : State) (part : Nat) : Bool := !(partById s part).any (fun p => p.others.any (fun w => decide (pkgOf w < ownPkg s)))

/-- The native image of a file: the file itself, where another package translates the image that it has sent, or else this
package's own translation; else the status (R196, R339, R347, R349; log 22). -/
def nativeOf (s : State) (d : LoadDesc) : Except Nat (List Byte) :=
  let f := d.file
  let flags := field f 6 2
  if flags % 2 = 1 && fileHash f == deviceHash then .ok f
  else if flags / 2 = 0 then .error stNOPORTABLE
  else
    match if translates s d.part then none else d.sent.filter (sentOk s d.part), Config.translate f with
    | some g, _ => .ok g
    | none, some g => if imageOk f g && orderKept f g then .ok g else .error stTRANSLATE
    | none, none => .error stTRANSLATE

/-- The package that translates multicasts a new image to the other packages of the partition (R349). -/
def multicast (p : Part) (f g : List Byte) (s : State) : State :=
  let dests := ((p.others.map pkgOf).eraseDups).filter (fun n => n != ownPkg s)
  if f == g || !translates s p.id then s else { s with images := s.images ++ dests.map (fun n => (n, g)) }

/-! ### Relocations (R341, R342) -/

/-- A list of bytes with n of them replaced from an offset on. -/
def patch (b : List Byte) (o : Nat) (new : List Byte) : List Byte := b.take o ++ new ++ b.drop (o + new.length)

/-- What relocation needs: the sections' bytes by index, symbols, handlers, the text's PC and the handle. -/
structure Reloc where
  ss : List Sect
  data : List (List Byte)
  hs : List Hand
  syms : List Byte
  pc : Nat
  handle : Nat
  deriving DecidableEq, Repr

/-- The value of a symbol (R342); a constant's is signed, as R55 evaluates it (DEDUCED, log 73). -/
def symVal (k : Reloc) (i : Nat) : Option Int :=
  let o := 16 * i
  let sect := field k.syms (o + 4) 2
  let v := field k.syms (o + 8) 8
  if k.syms.length < o + 16 then none
  else if sect = 0xFFFF then some (BitVec.ofNat 64 v).toInt
  else (k.ss[sect]?).map (fun c => if c.type = 1 then ((k.pc + v : Nat) : Int) else ((c.addr + v : Nat) : Int))

/-- The handler that a symbol names: the entry at its text offset (R342). -/
def handOf (k : Reloc) (i : Nat) : Option Hand :=
  let o := 16 * i
  let text := (k.ss[field k.syms (o + 4) 2]?).any (fun c => c.type == 1)
  if field k.syms (o + 6) 1 = 1 ∧ text then k.hs.find? (fun h => h.entry == field k.syms (o + 8) 8) else none

/-- A relocation of n bytes at an offset of the text lands in bytes 4 to 7 of a lone bundle; one inside a word of a pair
fails (R342; log 73). -/
def textPlaceOk (text : List Byte) (o n : Nat) : Bool :=
  decide (4 ≤ o % 8) && decide (o % 8 + n ≤ 8) && field text (o / 8 * 8) 4 / 2 ^ 31 == 1

/-- An offset of n bytes in a launch section meets word 0 of a record, where MODULE and TAG stand (R342, R344). -/
def atRecordWord (launch : List Byte) (o n : Nat) : Bool :=
  let k := o - 64
  decide (64 < o + n) && decide (k < 256 * field launch 0 4) && (decide (k % 256 < 4) || decide (256 < k % 256 + n) || decide (o < 64))
/-- The offset of word 0 of a launch record. -/
def isRecordWord (launch : List Byte) (o : Nat) : Bool := decide (64 ≤ o) && (o - 64) % 256 == 0 && decide ((o - 64) / 256 < field launch 0 4)

/-- The bytes a relocation writes at its place, none where it fails: MODULE and TAG of a launch record are written by
types 4 and 5 alone (R342). -/
def relocBytes (k : Reloc) (c : Sect) (old : List Byte) (o sym type : Nat) (a : Int) : Option (List Byte) :=
  let lp := field old o 4
  let barred (n : Nat) : Bool := c.type == 6 && atRecordWord old o n
  match type, symVal k sym with
  | 1, some s => if s + a < -(2 ^ 31) ∨ 2 ^ 32 - 1 < s + a ∨ barred 4 then none else some (natBytes ((s + a) % 2 ^ 32).toNat 4)
  | 2, some s => if s + a < 0 ∨ 2 ^ 52 ≤ s + a ∨ barred 8 then none else some (natBytes (s + a).toNat 8)
  | 3, some s => if o % 4 ≠ 0 ∨ 2 ^ 20 ≤ lp ∨ barred 4 then none else some (natBytes ((s + a) / 2 ^ 32 % 2 ^ 20).toNat 4)
  | 4, _ => if c.type = 6 ∧ isRecordWord old o then some (natBytes (lp % 65536 + 65536 * k.handle) 4) else none
  | 5, _ => if barred 1 && !isRecordWord old o then none else (handOf k sym).map (fun h => natBytes h.tag 1)
  | _, _ => none

/-- Applies one relocation (R342). -/
def relocOne (k : Reloc) (rel : List Byte) (i : Nat) : Option Reloc :=
  let r := 16 * i
  let w := field rel r 4
  let idx := w / 2 ^ 24
  let o := w % 2 ^ 24
  let old := k.data.getD idx []
  match k.ss[idx]? with
  | none => none
  | some c =>
    match relocBytes k c old o (field rel (r + 4) 4) (field rel (r + 8) 2) (BitVec.ofNat 32 (field rel (r + 12) 4)).toInt with
    | none => none
    | some bs =>
      if old.length < o + bs.length || (c.type == 1 && !textPlaceOk old o bs.length) then none
      else some { k with data := k.data.set idx (patch old o bs) }

def relocAll (rel : List Byte) : List Nat → Reloc → Option Reloc
  | [], k => some k
  | i :: is, k => match relocOne k rel i with
    | some k' => relocAll rel is k'
    | none => none

/-! ### Placement (R347, R348) -/

/-- A tag entry as the loader writes it: its reserved bits read as 0 (R5, R201, R348). -/
def tagEntry (h : Hand) (pc wb proc : Nat) : BitVec 128 :=
  tagMask.setWidth 128 &&& BitVec.ofNat 128 ((pc + h.entry) ||| wb <<< 32 ||| h.rows <<< 48 ||| h.cls <<< 56 ||| (h.flags % 2) <<< 58 ||| 1 <<< 60 ||| 1 <<< 63 |||
    h.crb <<< 64 ||| h.crn <<< 80 ||| proc <<< 88 ||| h.cpb <<< 96 ||| h.cpn <<< 112)

/-- This package's compute cores of a partition. -/
def ownCores (s : State) (p : Part) : List Word := (partCores s p).filter (fun w => pkgOf w == ownPkg s)

/-- The cores on which a handler gets its tag: the memory cores, or the compute cores, of the partition here. -/
def handCores (s : State) (p : Part) (h : Hand) : List Word :=
  if h.onMem then
    (((List.range 64).filter p.memCores.contains).map (fun m => coreWord (ownPkg s) (256 + m) 0)).filter (fun w => !p.absent.contains w)
  else ownCores s p

/-- The stores that receive the text: those of the clusters, and of the memory cores where a handler is theirs. -/
def textStores (p : Part) (hs : List Hand) : List Nat :=
  p.clusters ++ (if hs.any Hand.onMem then p.memCores.map (fun m => 256 + m) else [])

/-- Every module that holds a place: loaded, or on its way. -/
def allModules (s : State) : List Module := s.modules ++ s.publishing.map Publish.mod

/-- The kiln writes the page-table entries that map the data (R347, step 4). -/
def mapData (maps : List (Nat × DWord)) (s : State) : State := maps.foldl (fun s e => putEntry s e.1 e.2) s

/-- The text finds no place at the PC, a mapped section no pages, or a handler no window (status 5). -/
def noSpace (s : State) (p : Part) (proc : Nat) (ss : List Sect) (hs : List Hand) (text pc : Nat) (windows : List Nat) : Bool :=
  pc % 64 != 0 || decide (0x40000 < pc + text) || (hs.any Hand.onMem && decide (0x1FFF8 < pc + text)) ||
  (allModules s).any (fun m => m.part == p.id && decide (pc < m.pc + m.size) && decide (m.pc < pc + text)) ||
  windows.length != hs.length ||
  (hs.zip windows).any (fun e => (handCores s p e.1).any (fun w =>
    let b := look (0, 2048) (getCore s w).bounds proc
    !windowOk e.2 e.1.rows b.1 b.2)) ||
  ss.any (fun c => isMapped c.type && !mapped s proc none c.addr c.size)

/-- Some tag of the handler table is not free on a core that is to have it (R347, step 5). -/
def tagsTaken (s : State) (p : Part) : List Hand → Bool
  | [] => false
  | h :: r =>
    (handCores s p h).any (fun w => tagV (tagOf (getCore s w) h.tag) ||
      s.publishing.any (fun m => m.tags.any (fun e => e.1 == w && e.2.1 == h.tag))) ||
    r.any (fun k => k.tag == h.tag && k.onMem == h.onMem) || tagsTaken s p r

/-- Writes bytes at addresses of a process, through its tables whatever they permit; f bounds the lines. -/
def putMapped (proc : Nat) : Nat → Nat → List Byte → State → State
  | 0, _, _, s => s
  | f + 1, a, bs, s =>
    if bs.isEmpty then s
    else
      let n := 64 - a % 64
      let s' := match walk s proc a with
        | .leaf e =>
          let t := leafTarget e a
          match pteTgt e with
          | 0 => writePlace s ⟨t, none⟩ (bs.take n)
          | 1 => writePlace s ⟨cxlKey t, if pteE e then some (pteKey e) else none⟩ (bs.take n)
          | _ => writePlace s ⟨hostKey t, none⟩ (bs.take n)
        | _ => s
      putMapped proc f (a + n) (bs.drop n) s'

/-- The weights: run r of 512 bytes goes to core r mod n of the partition, at offset 512 · (r div n) (R340). -/
def putWeights (s : State) (l : List Word) (b : List Byte) : State :=
  (List.range ((b.length + 511) / 512)).foldl (fun s r =>
    let w := l.getD (r % l.length) 0
    { s with mem := memWriteN s.mem (sliceKey w (512 * (r / l.length))) ((b.drop (512 * r)).take 512) }) s

/-- The lowest handle that no module of the process has (R347). -/
def newHandle (s : State) (proc : Nat) : Nat :=
  let l := allModules s
  ((List.range l.length).map (· + 1)).find? (fun h => !l.any (fun m => m.proc == proc && m.handle == h)) |>.getD (l.length + 1)

/-- The weights do not fit the slices of the cores, or the store is not open (R334, R347, step 7). -/
def noStore (s : State) (p : Part) (weights : List Byte) : Bool :=
  !weights.isEmpty && (s.firm.stage == 1 || !p.storeOpen || decide (0xA00000 * (ownCores s p).length < weights.length))

/-- The text stands in the stores, and what is left is the service dispatch of every target core, and the tags
(R348). -/
def publish (s : State) (p : Part) (m : Module) (text : List Byte) (hs : List Hand) (windows : List Nat) : State :=
  let s := (textStores p hs).foldl (fun s c => { s with mem := memWriteN s.mem (storeKey c m.pc) text }) s
  let tags := (hs.zip windows).flatMap (fun e => (handCores s p e.1).map (fun w => (w, e.1.tag, tagEntry e.1 m.pc e.2 m.proc)))
  publishDue { s with publishing := s.publishing ++ [{ mod := m, tags := tags, wait := (tags.map Prod.fst).eraseDups, fenced := [] }] }

/-- The load from step 4 on (R347): the native image is placed, relocated and on its way to its cores, or the status says
why not. -/
def place (s : State) (p : Part) (d : LoadDesc) (f : List Byte) : Except Nat State :=
  let ss := sections f
  let hs := hands f ss
  let pc := d.pc.toNat
  let text := sectBytes f (sectOf ss 1)
  let rel := sectBytes f (sectOf ss 9)
  let handle := newHandle s d.proc
  let s := mapData d.maps s
  if noSpace s p d.proc ss hs text.length pc d.windows then .error stNOSPACE
  else if tagsTaken s p hs then .error stTAGCLASH
  else
    let k : Reloc := { ss := ss, data := ss.map (fun c => sectBytes f (some c)), hs := hs, syms := sectBytes f (sectOf ss 8), pc := pc, handle := handle }
    match relocAll rel (List.range (rel.length / 16)) k with
    | none => .error stRELOC
    | some k =>
      let part (t : Nat) : List Byte := ((ss.zip k.data).find? (fun e => e.1.type == t)).map Prod.snd |>.getD []
      if noStore s p (part 3) then .error stNOSPACE
      else
        let s := (ss.zip k.data).foldl (fun s e => if isMapped e.1.type then putMapped d.proc (e.2.length / 64 + 2) e.1.addr e.2 s else s) s
        let s := putWeights s (ownCores s p) (part 3)
        let m : Module := { handle := handle, proc := d.proc, part := p.id, pc := pc, size := text.length, tags := hs.map Hand.tag, launch := part 6,
                            maps := d.maps.map Prod.fst, data := (ss.filter (fun c => isMapped c.type)).map (fun c => (c.addr, c.size)) }
        .ok (publish s p m (part 1) hs d.windows)

/-- MODULE_LOAD: the steps of R347 in order; the first that fails, here or at another package of the partition, gives the
status and leaves no trace (R347, R349). At stage 0 there is no service (R373). -/
def execModuleLoad (part proc : Nat) (file : List Byte) (pc : Word) (ins : LoadIns) (s : State) : Out :=
  let d : LoadDesc := { toLoadIns := ins, part := part, proc := proc, file := file, pc := pc }
  let f := d.file
  let fail (st : Nat) : Out := .next { s with loader := (st, 0) }
  if s.firm.stage = 0 then .next s
  else match partById s d.part with
  | none => fail stNOSPACE
  | some p =>
    if !vofOk f then fail stLAYOUT
    else if !signedBy f (signerOk s d.part) then fail stSIGNATURE
    else
      match nativeOf s d with
      | .error st => fail st
      | .ok g =>
        match place s p d g, d.peers.find? (fun st => st != 0) with
        | .error st, _ => fail st
        | .ok _, some st => fail st
        | .ok s', none => .next (multicast p f g s')

/-! ### Unloading (R350) -/

/-- A PC lies in the module's text. -/
def inModule (m : Module) (pc : Word) : Bool := decide (m.pc ≤ pc.toNat) && decide (pc.toNat < m.pc + m.size)

/-- A saved context of the module: its resume PCs lie in the text. -/
def savedIn (m : Module) (proc : Nat) (h : Row) : Bool := proc == m.proc && (inModule m (lane h 2) || inModule m (lane h 3))

/-- The records of a queue from v on, n of them, name the module in a launch; the ring and the launch record are read through their
capabilities (R369, R370). -/
def namesModule (s : State) (x : Queue) (m : Module) : Nat → Word → Bool
  | 0, _ => false
  | n + 1, v =>
    let launch (ws : List Word) : Bool :=
      let lrec := w64 ws 6
      recType ws == 2 && !x.retired.any (fun r => r.recNo == v) &&
      (viaRead (derive s x 0 lrec 256) x 0 lrec 256).any (fun bs => lModule (wordsOf 64 bs) == m.handle)
    (!viaFaults s (ringGranule x.id) .read (recAddr x v) 128 && ((kilnRead s x.process 8 (recAddr x v) 128).map (wordsOf 32)).any launch) ||
    namesModule s x m n (v + 1)

/-- The module is in use: by a saved context; by a kernel whose record names it, or sends to a tag of it, or that runs in its text; by
an admitted launch (R350; log 64). -/
def moduleBusy (s : State) (m : Module) : Bool :=
  (allCores s).any (fun c => inPart s m.part c.id &&
    ((match c.shadow with
      | some h => savedIn m h.slot.proc (c.row h.slot.wb)
      | none => false) ||
     c.parked.any (fun p => savedIn m p.slot.proc (look 0 p.rows p.slot.wb)) ||
     [c.slot, c.alt].any (fun x => x.active && x.proc == m.proc && inModule m x.pc))) ||
  s.saved.any (fun e => savedIn m e.ctx.slot.proc (look 0 e.ctx.rows e.ctx.slot.wb)) ||
  s.kerns.any (fun k => k.proc == m.proc && k.part == m.part && k.module == m.handle) ||
  s.queues.any (fun x => x.process == m.proc && x.part == m.part && namesModule s x m (x.p - x.ci).toNat x.ci)

/-- MODULE_UNLOAD: BUSY while the module is in use; otherwise its tags lose V, its range is free, and its data is
unmapped (R350). -/
def execModuleUnload (proc handle : Nat) (s : State) : Out :=
  match s.modules.find? (fun m => m.proc == proc && m.handle == handle) with
  | none => .next s
  | some m =>
    if moduleBusy s m then .next { s with loader := (stBUSY, handle) }
    else
      let off (c : Core) : Core :=
        { c with tags := c.tags.map (fun e => if tagV e.2 && tagProc e.2 == proc && inModule m (tagPC e.2) then (e.1, e.2 &&& ~~~((1 : BitVec 128) <<< 63)) else e) }
      let s := mapCores s (fun c => if inPart s m.part c.id then off c else c)
      let s := m.maps.foldl (fun s k => putEntry s k 0) s
      let s := m.data.foldl (fun s r => if r.2 = 0 then s else invalidate m.part (some proc) r.1 r.2 s) s
      .next { s with modules := s.modules.erase m, loader := (0, handle) }

end Sys2Proof.Machine
end

