-- ==== Sys2Proof/Machine/Vector.lean ====
section
/-! DEFINITION. The vector integer instructions (R95-R105). -/

namespace Sys2Proof.Machine

/-- A vector instruction: a whole row from D, S1 and S2. -/
def vector (i : Instr) (f : Row → Row → Row → Row) (s : State) : Out :=
  arith i (fun _ old rs s => .go s (f old (nth rs 0) (nth rs 1)) 16) s

/-- Element-wise on the values x, y of S1 and S2 and z of D: element results of w bits (R95). -/
def elementwise (i : Instr) (t : ETy) (f : Int → Int → Int → Nat) (s : State) : Out :=
  vector i (fun old a b => rowOf t.width t.count (fun e =>
    f (val t (elem a t.width e)) (val t (elem b t.width e)) (val t (elem old t.width e)))) s

/-- Element-wise on the bits of S1 and S2 and D (R95, R96). -/
def bitwise (i : Instr) (t : ETy) (f : Nat → Nat → Nat → Nat) (s : State) : Out :=
  vector i (fun old a b => rowOf t.width t.count (fun e => f (elem a t.width e) (elem b t.width e) (elem old t.width e))) s

/-- All ones or zero (R96). -/
def mask (t : ETy) (b : Bool) : Nat := if b then 2 ^ t.width - 1 else 0

/-- The shift distance: the low log2(w) bits of the element of S2 (R95). -/
def dist (t : ETy) (y : Nat) : Nat := y % t.width

def execVadd (d x y : Opnd) (t : ETy) (s : State) : Out := elementwise (.vadd d x y t) t (fun a b _ => wrap t.width (a + b)) s
def execVsub (d x y : Opnd) (t : ETy) (s : State) : Out := elementwise (.vsub d x y t) t (fun a b _ => wrap t.width (a - b)) s
def execVmul (d x y : Opnd) (t : ETy) (s : State) : Out := elementwise (.vmul d x y t) t (fun a b _ => wrap t.width (a * b)) s
def execVmulh (d x y : Opnd) (t : ETy) (s : State) : Out :=
  elementwise (.vmulh d x y t) t (fun a b _ => wrap t.width (a * b / 2 ^ t.width)) s
def execVmac (d x y : Opnd) (t : ETy) (s : State) : Out := elementwise (.vmac d x y t) t (fun a b z => wrap t.width (z + a * b)) s
def execVmin (d x y : Opnd) (t : ETy) (s : State) : Out := elementwise (.vmin d x y t) t (fun a b _ => wrap t.width (min a b)) s
def execVmax (d x y : Opnd) (t : ETy) (s : State) : Out := elementwise (.vmax d x y t) t (fun a b _ => wrap t.width (max a b)) s
def execVand (d x y : Opnd) (t : ETy) (s : State) : Out := bitwise (.vand d x y t) t (fun a b _ => a &&& b) s
def execVor (d x y : Opnd) (t : ETy) (s : State) : Out := bitwise (.vor d x y t) t (fun a b _ => a ||| b) s
def execVxor (d x y : Opnd) (t : ETy) (s : State) : Out := bitwise (.vxor d x y t) t (fun a b _ => a ^^^ b) s
def execVshl (d x y : Opnd) (t : ETy) (s : State) : Out := bitwise (.vshl d x y t) t (fun a b _ => a <<< dist t b) s
def execVshr (d x y : Opnd) (t : ETy) (s : State) : Out := bitwise (.vshr d x y t) t (fun a b _ => a >>> dist t b) s
def execVsra (d x y : Opnd) (t : ETy) (s : State) : Out :=
  bitwise (.vsra d x y t) t (fun a b _ => wrap t.width (signedVal t.width a / 2 ^ dist t b)) s
def execVabs (d x : Opnd) (t : ETy) (s : State) : Out := elementwise (.vabs d x t) t (fun a _ _ => wrap t.width (Int.natAbs a)) s
def execVadds (d x y : Opnd) (t : ETy) (s : State) : Out := elementwise (.vadds d x y t) t (fun a b _ => sat t (a + b)) s
def execVsubs (d x y : Opnd) (t : ETy) (s : State) : Out := elementwise (.vsubs d x y t) t (fun a b _ => sat t (a - b)) s

def execVcmpeq (d x y : Opnd) (t : ETy) (s : State) : Out := elementwise (.vcmpeq d x y t) t (fun a b _ => mask t (decide (a = b))) s
def execVcmplt (d x y : Opnd) (t : ETy) (s : State) : Out := elementwise (.vcmplt d x y t) t (fun a b _ => mask t (decide (a < b))) s
def execVcmple (d x y : Opnd) (t : ETy) (s : State) : Out := elementwise (.vcmple d x y t) t (fun a b _ => mask t (decide (a ≤ b))) s
def execVsel (d x y : Opnd) (t : ETy) (s : State) : Out := bitwise (.vsel d x y t) t (fun a b z => if z = 0 then b else a) s

/-! ### Rearranging (R97-R99) -/

def execVbcast (d x : Opnd) (t : ETy) (s : State) : Out :=
  vector (.vbcast d x t) (fun _ a _ => rowOf t.width t.count (fun _ => elem a t.width 0)) s
def execVperm (d x y : Opnd) (t : ETy) (s : State) : Out :=
  vector (.vperm d x y t) (fun _ a b => rowOf t.width t.count (fun e => elem a t.width (elem b t.width e % t.count))) s
def execVrot (d x : Opnd) (k : BitVec 7) (t : ETy) (s : State) : Out :=
  vector (.vrot d x k t) (fun _ a _ => rowOf t.width t.count (fun e => elem a t.width ((e + k.toNat) % t.count))) s
def execVnarrow (d x y : Opnd) (t : ETy) (s : State) : Out :=
  let h := t.count / 2
  let w2 := t.doubled.width
  vector (.vnarrow d x y t) (fun _ a b => rowOf t.width t.count (fun e =>
    sat t (val t.doubled (if e < h then elem a w2 e else elem b w2 (e - h))))) s
def execVwiden (high : Bool) (d x : Opnd) (t : ETy) (s : State) : Out :=
  let h := t.count / 2
  vector (.vwiden high d x t) (fun _ a _ => rowOf (2 * t.width) h (fun e =>
    wrap (2 * t.width) (val t (elem a t.width (e + (if high then h else 0)))))) s

/-! ### Reductions, scans, trits (R100-R105) -/

/-- One operation of `vred` (R100). -/
def redOp (t : ETy) (op : RedOp) (a b : Nat) : Nat :=
  match op with
  | .add => (a + b) % 2 ^ t.width
  | .min => wrap t.width (min (val t a) (val t b))
  | .max => wrap t.width (max (val t a) (val t b))
  | .xor => a ^^^ b
/-- log2 of the number of elements. -/
def treeDepth (t : ETy) : Nat := Nat.log2 t.count
/-- The halving tree of R82. -/
def tree (op : Nat → Nat → Nat) : Nat → (Nat → Nat) → Nat
  | 0, v => v 0
  | k + 1, v =>
    let xs := (List.range (2 ^ k)).map (fun e => op (v e) (v (e + 2 ^ k)))
    tree op k (fun e => xs.getD e 0)
def execVred (op : RedOp) (d x : Opnd) (t : ETy) (s : State) : Out :=
  arith (.vred op d x t) (fun _ _ rs s => .go s (laneRow (ext32 t (tree (redOp t op) (treeDepth t) (elem (nth rs 0) t.width)))) 1) s

/-- The sum of the elements 0 to e, wrapped (R101). -/
def prefixSum (t : ETy) (r : Row) : Nat → Nat
  | 0 => elem r t.width 0
  | e + 1 => (prefixSum t r e + elem r t.width (e + 1)) % 2 ^ t.width
def execVscan (d x : Opnd) (t : ETy) (s : State) : Out :=
  vector (.vscan d x t) (fun _ a _ => rowOf t.width t.count (prefixSum t a)) s

/-- The sign of an element as a trit, 0 beyond the row (R102). -/
def signTrit (t : ETy) (r : Row) (e : Nat) : Int := if e < t.count then Int.sign (val t (elem r t.width e)) else 0
def execVpackt (d x : Opnd) (t : ETy) (s : State) : Out :=
  vector (.vpackt d x t) (fun _ a _ => rowOf 8 (if t == .i8 then 16 else 8) (fun b =>
    tritPack (fun i => signTrit t a (32 * (b / 8) + i)) (b % 8))) s
def execVunpkt (d x : Opnd) (t : ETy) (s : State) : Out :=
  arith (.vunpkt d x t) (fun _ _ rs s =>
    let a := nth rs 0
    let g0 := tritGroup (fun b => elem a 8 b)
    let g1 := tritGroup (fun b => elem a 8 (8 + b))
    let bad := g0.2 || (t == .i8 && g1.2)
    let s := if bad then s.modC (fun c => { c with mstat := c.mstat ||| mstatBADT }) else s
    .go s (rowOf t.width t.count (fun e => wrap t.width (if e < 32 then g0.1 e else g1.1 (e - 32)))) 16) s
def execViota (d : Opnd) (t : ETy) (s : State) : Out :=
  vector (.viota d t) (fun _ _ _ => rowOf t.width t.count (fun e => e)) s
def execVdot4 (d x y : Opnd) (t : ETy) (s : State) : Out :=
  vector (.vdot4 d x y t) (fun _ a b => rowOf 32 16 (fun i =>
    wrap 32 (((List.range 4).map (fun j => val t (elem a 8 (4 * i + j)) * val t (elem b 8 (4 * i + j)))).sum))) s

end Sys2Proof.Machine
end

