-- ==== Sys2Proof/Machine/Windows.lean ====
section
/-! DEFINITION. Window instructions (R259-R261). -/

namespace Sys2Proof.Machine

/-- WIN with a reason (R272). -/
def winTrap (s : State) (reason : Nat) : CRes := .trap s (mkTrap cWIN (reason <<< 19) 0)

/-- Checks and sets the window: it takes effect once the bundle's arithmetic word has completed (R259). -/
def setWindow (wb wl : Nat) (s : State) : CRes :=
  let c := s.core
  let x := c.slot
  if !x.backlog.isEmpty then .wait 1 s
  else if wb ≥ 2 ^ 11 || wl < 1 || 96 < wl || wb < x.pb || x.pb + x.pl < wb + wl then winTrap s 2
  else if c.hvNow && (wb < lendRB c.lend || lendRB c.lend + lendRN c.lend < wb + wl) then winTrap s 2
  else .go (s.modS (fun x => { x with winNext := some (wb, wl) })) 0 none

def execSetwin (a : Opnd) (s : State) : Out :=
  control (.setwin a) { srcs := [a] } (fun rs s => setWindow (lane (nth rs 0) 0).toNat (lane (nth rs 0) 1).toNat s) s
def execSetwinLone (wb : BitVec 11) (wl : BitVec 7) (s : State) : Out :=
  control (.setwinLone wb wl) {} (fun _ s => setWindow wb.toNat wl.toNat s) s

def execGetwin (a : Opnd) (s : State) : Out :=
  control (.getwin a) { dst := some a, lanes := 2 } (fun _ s =>
    .go s (rowOfLanes [BitVec.ofNat 32 s.core.slot.wb, BitVec.ofNat 32 s.core.slot.wl]) none) s

def execSetbnd (a : Opnd) (s : State) : Out :=
  control (.setbnd a) { srcs := [a], bar := privBar s } (fun rs s =>
    let r := nth rs 0
    let pb := (lane r 0).toNat
    let pl := (lane r 1).toNat
    let l2 := lane r 2
    let tbl := l2.getLsbD 31
    let x := s.core.slot
    if pb ≥ 2 ^ 11 || pl ≥ 2 ^ 12 || l2.extractLsb' 8 23 != 0 || pl < 1 || 2048 < pb + pl then winTrap s 3
    else if !tbl && (x.wb < pb || pb + pl < x.wb + x.wl) then winTrap s 3
    else if !s.core.late.isEmpty then .wait outside s
    else if tbl then .go (s.modC (fun c => { c with bounds := put c.bounds (l2.toNat % 256) (pb, pl) })) 0 none
    else .go (s.modS (fun x => { x with pb := pb, pl := pl })) 0 none) s

end Sys2Proof.Machine
end

