-- ==== Sys2Proof/Machine/Dispatch.lean ====
section
/-! DEFINITION. The dispatch of an instruction, or of an event of the machine, to its meaning: one arm per
constructor. -/

namespace Sys2Proof.Machine

/-- The meaning of an instruction. -/
def exec (i : Instr) (s : State) : Host.Outcome State Fault Refusal :=
  match i with
  | .bc cnd a off => Sys2Proof.Machine.execBc cnd a off s
  | .call a off => Sys2Proof.Machine.execCall a off s
  | .jr a b => Sys2Proof.Machine.execJr a b s
  | .loop a off => Sys2Proof.Machine.execLoop a off s
  | .loopi off count => Sys2Proof.Machine.execLoopi off count s
  | .trap n => Sys2Proof.Machine.execTrap n s
  | .brk n => Sys2Proof.Machine.execBrk n s
  | .fsync n => Sys2Proof.Machine.execFsync n s
  | .csrr a r => Sys2Proof.Machine.execCsrr a r s
  | .csrw a r => Sys2Proof.Machine.execCsrw a r s
  | .movi a imm => Sys2Proof.Machine.execMovi a imm s
  | .adda a b k => Sys2Proof.Machine.execAdda a b k s
  | .ldb a b off ord scp => Sys2Proof.Machine.execLdb a b off ord scp s
  | .ldh a b off ord scp => Sys2Proof.Machine.execLdh a b off ord scp s
  | .ldw a b off ord scp => Sys2Proof.Machine.execLdw a b off ord scp s
  | .ldd a b off ord scp => Sys2Proof.Machine.execLdd a b off ord scp s
  | .ldv a b off ord scp => Sys2Proof.Machine.execLdv a b off ord scp s
  | .ldbLone a b ord scp ext => Sys2Proof.Machine.execLdbLone a b ord scp ext s
  | .ldhLone a b ord scp ext => Sys2Proof.Machine.execLdhLone a b ord scp ext s
  | .ldwLone a b ord scp ext => Sys2Proof.Machine.execLdwLone a b ord scp ext s
  | .lddLone a b ord scp ext => Sys2Proof.Machine.execLddLone a b ord scp ext s
  | .ldvLone a b ord scp ext => Sys2Proof.Machine.execLdvLone a b ord scp ext s
  | .stb a b off ord scp => Sys2Proof.Machine.execStb a b off ord scp s
  | .sth a b off ord scp => Sys2Proof.Machine.execSth a b off ord scp s
  | .stw a b off ord scp => Sys2Proof.Machine.execStw a b off ord scp s
  | .std a b off ord scp => Sys2Proof.Machine.execStd a b off ord scp s
  | .stv a b off ord scp => Sys2Proof.Machine.execStv a b off ord scp s
  | .stbLone a b ord scp ext => Sys2Proof.Machine.execStbLone a b ord scp ext s
  | .sthLone a b ord scp ext => Sys2Proof.Machine.execSthLone a b ord scp ext s
  | .stwLone a b ord scp ext => Sys2Proof.Machine.execStwLone a b ord scp ext s
  | .stdLone a b ord scp ext => Sys2Proof.Machine.execStdLone a b ord scp ext s
  | .stvLone a b ord scp ext => Sys2Proof.Machine.execStvLone a b ord scp ext s
  | .ldx a b c size => Sys2Proof.Machine.execLdx a b c size s
  | .stx a b c size => Sys2Proof.Machine.execStx a b c size s
  | .amo op a b c ord scp d64 => Sys2Proof.Machine.execAmo op a b c ord scp d64 s
  | .cas a b c ord scp d64 => Sys2Proof.Machine.execCas a b c ord scp d64 s
  | .fence kind scp e => Sys2Proof.Machine.execFence kind scp e s
  | .strm a => Sys2Proof.Machine.execStrm a s
  | .cpy kind a b => Sys2Proof.Machine.execCpy kind a b s
  | .cpseal a => Sys2Proof.Machine.execCpseal a s
  | .cpwait all a b => Sys2Proof.Machine.execCpwait all a b s
  | .sti a b off ord scp => Sys2Proof.Machine.execSti a b off ord scp s
  | .stiLone a b ord scp ext => Sys2Proof.Machine.execStiLone a b ord scp ext s
  | .send a b => Sys2Proof.Machine.execSend a b s
  | .sendGrp a b => Sys2Proof.Machine.execSendGrp a b s
  | .senda a b => Sys2Proof.Machine.execSenda a b s
  | .tagsetOn t => Sys2Proof.Machine.execTagsetOn t s
  | .tagsetOff t => Sys2Proof.Machine.execTagsetOff t s
  | .dcarm a b => Sys2Proof.Machine.execDcarm a b s
  | .dcdec a => Sys2Proof.Machine.execDcdec a s
  | .gbar k => Sys2Proof.Machine.execGbar k s
  | .mgang a b g => Sys2Proof.Machine.execMgang a b g s
  | .mcode a => Sys2Proof.Machine.execMcode a s
  | .accrd conv a b => Sys2Proof.Machine.execAccrd conv a b s
  | .accz ring first last => Sys2Proof.Machine.execAccz ring first last s
  | .setwin a => Sys2Proof.Machine.execSetwin a s
  | .setwinLone wb wl => Sys2Proof.Machine.execSetwinLone wb wl s
  | .getwin a => Sys2Proof.Machine.execGetwin a s
  | .setbnd a => Sys2Proof.Machine.execSetbnd a s
  | .lend a => Sys2Proof.Machine.execLend a s
  | .xld a => Sys2Proof.Machine.execXld a s
  | .xst a => Sys2Proof.Machine.execXst a s
  | .xpush a => Sys2Proof.Machine.execXpush a s
  | .xws a => Sys2Proof.Machine.execXws a s
  | .add d s1 s2 => Sys2Proof.Machine.execAdd d s1 s2 s
  | .sub d s1 s2 => Sys2Proof.Machine.execSub d s1 s2 s
  | .mul d s1 s2 => Sys2Proof.Machine.execMul d s1 s2 s
  | .mulh d s1 s2 => Sys2Proof.Machine.execMulh d s1 s2 s
  | .mulhn d s1 s2 => Sys2Proof.Machine.execMulhn d s1 s2 s
  | .div d s1 s2 => Sys2Proof.Machine.execDiv d s1 s2 s
  | .divn d s1 s2 => Sys2Proof.Machine.execDivn d s1 s2 s
  | .rem d s1 s2 => Sys2Proof.Machine.execRem d s1 s2 s
  | .remn d s1 s2 => Sys2Proof.Machine.execRemn d s1 s2 s
  | .and d s1 s2 => Sys2Proof.Machine.execAnd d s1 s2 s
  | .or d s1 s2 => Sys2Proof.Machine.execOr d s1 s2 s
  | .xor d s1 s2 => Sys2Proof.Machine.execXor d s1 s2 s
  | .shl d s1 s2 => Sys2Proof.Machine.execShl d s1 s2 s
  | .shr d s1 s2 => Sys2Proof.Machine.execShr d s1 s2 s
  | .sra d s1 s2 => Sys2Proof.Machine.execSra d s1 s2 s
  | .min d s1 s2 => Sys2Proof.Machine.execMin d s1 s2 s
  | .max d s1 s2 => Sys2Proof.Machine.execMax d s1 s2 s
  | .minn d s1 s2 => Sys2Proof.Machine.execMinn d s1 s2 s
  | .maxn d s1 s2 => Sys2Proof.Machine.execMaxn d s1 s2 s
  | .slt d s1 s2 => Sys2Proof.Machine.execSlt d s1 s2 s
  | .sltn d s1 s2 => Sys2Proof.Machine.execSltn d s1 s2 s
  | .seq d s1 s2 => Sys2Proof.Machine.execSeq d s1 s2 s
  | .sel d s1 s2 => Sys2Proof.Machine.execSel d s1 s2 s
  | .clz d s1 => Sys2Proof.Machine.execClz d s1 s
  | .popc d s1 => Sys2Proof.Machine.execPopc d s1 s
  | .addi d s1 imm => Sys2Proof.Machine.execAddi d s1 imm s
  | .andi d s1 imm => Sys2Proof.Machine.execAndi d s1 imm s
  | .ori d s1 imm => Sys2Proof.Machine.execOri d s1 imm s
  | .xori d s1 imm => Sys2Proof.Machine.execXori d s1 imm s
  | .shli d s1 n => Sys2Proof.Machine.execShli d s1 n s
  | .shri d s1 n => Sys2Proof.Machine.execShri d s1 n s
  | .srai d s1 n => Sys2Proof.Machine.execSrai d s1 n s
  | .slti d s1 imm => Sys2Proof.Machine.execSlti d s1 imm s
  | .lane d s1 idx t => Sys2Proof.Machine.execLane d s1 idx t s
  | .mv d s1 => Sys2Proof.Machine.execMv d s1 s
  | .ins d s1 idx t => Sys2Proof.Machine.execIns d s1 idx t s
  | .vadd d s1 s2 t => Sys2Proof.Machine.execVadd d s1 s2 t s
  | .vsub d s1 s2 t => Sys2Proof.Machine.execVsub d s1 s2 t s
  | .vmul d s1 s2 t => Sys2Proof.Machine.execVmul d s1 s2 t s
  | .vmulh d s1 s2 t => Sys2Proof.Machine.execVmulh d s1 s2 t s
  | .vmac d s1 s2 t => Sys2Proof.Machine.execVmac d s1 s2 t s
  | .vmin d s1 s2 t => Sys2Proof.Machine.execVmin d s1 s2 t s
  | .vmax d s1 s2 t => Sys2Proof.Machine.execVmax d s1 s2 t s
  | .vand d s1 s2 t => Sys2Proof.Machine.execVand d s1 s2 t s
  | .vor d s1 s2 t => Sys2Proof.Machine.execVor d s1 s2 t s
  | .vxor d s1 s2 t => Sys2Proof.Machine.execVxor d s1 s2 t s
  | .vshl d s1 s2 t => Sys2Proof.Machine.execVshl d s1 s2 t s
  | .vshr d s1 s2 t => Sys2Proof.Machine.execVshr d s1 s2 t s
  | .vsra d s1 s2 t => Sys2Proof.Machine.execVsra d s1 s2 t s
  | .vabs d s1 t => Sys2Proof.Machine.execVabs d s1 t s
  | .vadds d s1 s2 t => Sys2Proof.Machine.execVadds d s1 s2 t s
  | .vsubs d s1 s2 t => Sys2Proof.Machine.execVsubs d s1 s2 t s
  | .vcmpeq d s1 s2 t => Sys2Proof.Machine.execVcmpeq d s1 s2 t s
  | .vcmplt d s1 s2 t => Sys2Proof.Machine.execVcmplt d s1 s2 t s
  | .vcmple d s1 s2 t => Sys2Proof.Machine.execVcmple d s1 s2 t s
  | .vsel d s1 s2 t => Sys2Proof.Machine.execVsel d s1 s2 t s
  | .vbcast d s1 t => Sys2Proof.Machine.execVbcast d s1 t s
  | .vperm d s1 s2 t => Sys2Proof.Machine.execVperm d s1 s2 t s
  | .vrot d s1 k t => Sys2Proof.Machine.execVrot d s1 k t s
  | .vnarrow d s1 s2 t => Sys2Proof.Machine.execVnarrow d s1 s2 t s
  | .vwiden high d s1 t => Sys2Proof.Machine.execVwiden high d s1 t s
  | .vred op d s1 t => Sys2Proof.Machine.execVred op d s1 t s
  | .vscan d s1 t => Sys2Proof.Machine.execVscan d s1 t s
  | .vpackt d s1 t => Sys2Proof.Machine.execVpackt d s1 t s
  | .vunpkt d s1 t => Sys2Proof.Machine.execVunpkt d s1 t s
  | .viota d t => Sys2Proof.Machine.execViota d t s
  | .vdot4 d s1 s2 t => Sys2Proof.Machine.execVdot4 d s1 s2 t s
  | .fadd d s1 s2 t => Sys2Proof.Machine.execFadd d s1 s2 t s
  | .fsub d s1 s2 t => Sys2Proof.Machine.execFsub d s1 s2 t s
  | .fmul d s1 s2 t => Sys2Proof.Machine.execFmul d s1 s2 t s
  | .fma d s1 s2 t => Sys2Proof.Machine.execFma d s1 s2 t s
  | .fms d s1 s2 t => Sys2Proof.Machine.execFms d s1 s2 t s
  | .fmin d s1 s2 t => Sys2Proof.Machine.execFmin d s1 s2 t s
  | .fmax d s1 s2 t => Sys2Proof.Machine.execFmax d s1 s2 t s
  | .fdiv d s1 s2 t => Sys2Proof.Machine.execFdiv d s1 s2 t s
  | .fsqrt d s1 t => Sys2Proof.Machine.execFsqrt d s1 t s
  | .frcp d s1 t => Sys2Proof.Machine.execFrcp d s1 t s
  | .frsq d s1 t => Sys2Proof.Machine.execFrsq d s1 t s
  | .fexp2 d s1 t => Sys2Proof.Machine.execFexp2 d s1 t s
  | .flog2 d s1 t => Sys2Proof.Machine.execFlog2 d s1 t s
  | .fcmpeq d s1 s2 t => Sys2Proof.Machine.execFcmpeq d s1 s2 t s
  | .fcmplt d s1 s2 t => Sys2Proof.Machine.execFcmplt d s1 s2 t s
  | .fcmple d s1 s2 t => Sys2Proof.Machine.execFcmple d s1 s2 t s
  | .fclass d s1 t => Sys2Proof.Machine.execFclass d s1 t s
  | .fcvt d s1 t src sat => Sys2Proof.Machine.execFcvt d s1 t src sat s
  | .fcvti d s1 t src => Sys2Proof.Machine.execFcvti d s1 t src s
  | .icvtf d s1 t src => Sys2Proof.Machine.execIcvtf d s1 t src s
  | .fred op d s1 t => Sys2Proof.Machine.execFred op d s1 t s
  | .fabs d s1 t => Sys2Proof.Machine.execFabs d s1 t s
  | .fneg d s1 t => Sys2Proof.Machine.execFneg d s1 t s
  | .fsgnj d s1 s2 t => Sys2Proof.Machine.execFsgnj d s1 s2 t s
  | .tokb s1 off => Sys2Proof.Machine.execTokb s1 off s
  | .tokj s1 => Sys2Proof.Machine.execTokj s1 s
  | .lateWriteLanding core ue => Sys2Proof.Machine.execLateWriteLanding core ue s
  | .messageDelivery n => Sys2Proof.Machine.execMessageDelivery n s
  | .sendAnswer core ans => Sys2Proof.Machine.execSendAnswer core ans s
  | .handlerStart core => Sys2Proof.Machine.execHandlerStart core s
  | .preempt core => Sys2Proof.Machine.execPreempt core s
  | .preemptResume core => Sys2Proof.Machine.execPreemptResume core s
  | .serviceDispatch core pc wb wl pb pl proc => Sys2Proof.Machine.execServiceDispatch core pc wb wl pb pl proc s
  | .dctDecrement n => Sys2Proof.Machine.execDctDecrement n s
  | .barrierPhaseComplete grp => Sys2Proof.Machine.execBarrierPhaseComplete grp s
  | .copyJobStart cl j => Sys2Proof.Machine.execCopyJobStart cl j s
  | .copyBeat cl j ue => Sys2Proof.Machine.execCopyBeat cl j ue s
  | .streamBeat core n => Sys2Proof.Machine.execStreamBeat core n s
  | .heldRemoteAccess n => Sys2Proof.Machine.execHeldRemoteAccess n s
  | .imageWrite cl => Sys2Proof.Machine.execImageWrite cl s
  | .gangStart cl => Sys2Proof.Machine.execGangStart cl s
  | .gangto core => Sys2Proof.Machine.execGangto core s
  | .gangStepRetire cl ue => Sys2Proof.Machine.execGangStepRetire cl ue s
  | .refreshWindow core opens => Sys2Proof.Machine.execRefreshWindow core opens s
  | .harvestDispatch core => Sys2Proof.Machine.execHarvestDispatch core s
  | .revocation core => Sys2Proof.Machine.execRevocation core s
  | .revocationComplete core => Sys2Proof.Machine.execRevocationComplete core s
  | .lendingResume core => Sys2Proof.Machine.execLendingResume core s
  | .parkedContextResume core => Sys2Proof.Machine.execParkedContextResume core s
  | .parkedContextMove core bank dest => Sys2Proof.Machine.execParkedContextMove core bank dest s
  | .pageWalk core => Sys2Proof.Machine.execPageWalk core s
  | .tlbInvalidate part proc va len => Sys2Proof.Machine.execTlbInvalidate part proc va len s
  | .translationCompletion core ok page logSize r w => Sys2Proof.Machine.execTranslationCompletion core ok page logSize r w s
  | .pageRequestGroupResponse core code => Sys2Proof.Machine.execPageRequestGroupResponse core code s
  | .invalidateRequest pasid page logSize => Sys2Proof.Machine.execInvalidateRequest pasid page logSize s
  | .transferBeat core j ue => Sys2Proof.Machine.execTransferBeat core j ue s
  | .pushCompletionMessage core j => Sys2Proof.Machine.execPushCompletionMessage core j s
  | .piWrite q v => Sys2Proof.Machine.execPiWrite q v s
  | .clrf q => Sys2Proof.Machine.execClrf q s
  | .stopQueue q => Sys2Proof.Machine.execStopQueue q s
  | .fciWrite q v => Sys2Proof.Machine.execFciWrite q v s
  | .notifyPageOtherWrite q off v => Sys2Proof.Machine.execNotifyPageOtherWrite q off v s
  | .messageRecord q => Sys2Proof.Machine.execMessageRecord q s
  | .launchRecord q => Sys2Proof.Machine.execLaunchRecord q s
  | .signalRecord q => Sys2Proof.Machine.execSignalRecord q s
  | .energyBudgetRecord q => Sys2Proof.Machine.execEnergyBudgetRecord q s
  | .walkerIssue n => Sys2Proof.Machine.execWalkerIssue n s
  | .kernelComplete q recNo => Sys2Proof.Machine.execKernelComplete q recNo s
  | .completionSignal q => Sys2Proof.Machine.execCompletionSignal q s
  | .wheelTurn part => Sys2Proof.Machine.execWheelTurn part s
  | .tlimitExpiry q recNo => Sys2Proof.Machine.execTlimitExpiry q recNo s
  | .ladderDrainComplete q => Sys2Proof.Machine.execLadderDrainComplete q s
  | .ladderT1Expiry q => Sys2Proof.Machine.execLadderT1Expiry q s
  | .ladderSaveComplete q => Sys2Proof.Machine.execLadderSaveComplete q s
  | .ladderT2Expiry q => Sys2Proof.Machine.execLadderT2Expiry q s
  | .ladderReset q => Sys2Proof.Machine.execLadderReset q s
  | .queueRestore q => Sys2Proof.Machine.execQueueRestore q s
  | .processKill proc => Sys2Proof.Machine.execProcessKill proc s
  | .partitionChange part cores room => Sys2Proof.Machine.execPartitionChange part cores room s
  | .queueCreate q desc => Sys2Proof.Machine.execQueueCreate q desc s
  | .processChange cl => Sys2Proof.Machine.execProcessChange cl s
  | .meteringInterval cl => Sys2Proof.Machine.execMeteringInterval cl s
  | .clockChange cl n => Sys2Proof.Machine.execClockChange cl n s
  | .pairRollback core => Sys2Proof.Machine.execPairRollback core s
  | .linkFlit link seq crcOk => Sys2Proof.Machine.execLinkFlit link seq crcOk s
  | .linkRetrain link ok => Sys2Proof.Machine.execLinkRetrain link ok s
  | .durableReplay q => Sys2Proof.Machine.execDurableReplay q s
  | .moduleLoad part proc file pc ins => Sys2Proof.Machine.execModuleLoad part proc file pc ins s
  | .moduleUnload proc handle => Sys2Proof.Machine.execModuleUnload proc handle s
  | .weightStoreOpen part => Sys2Proof.Machine.execWeightStoreOpen part s
  | .weightStoreClose part => Sys2Proof.Machine.execWeightStoreClose part s
  | .keySlotLoad slot keys => Sys2Proof.Machine.execKeySlotLoad slot keys s
  | .coreReset core => Sys2Proof.Machine.execCoreReset core s
  | .firmwareUpdate image version sigOff => Sys2Proof.Machine.execFirmwareUpdate image version sigOff s
  | .reducedService => Sys2Proof.Machine.execReducedService s
  | .fullService d => Sys2Proof.Machine.execFullService d s
  | .signedRecord file => Sys2Proof.Machine.execSignedRecord file s
  | .negotiateAlgorithms sha3 mldsa => Sys2Proof.Machine.execNegotiateAlgorithms sha3 mldsa s
  | .challenge nonce => Sys2Proof.Machine.execChallenge nonce s
  | .getMeasurements index => Sys2Proof.Machine.execGetMeasurements index s
  | .illegalEncoding ari reason word => Sys2Proof.Machine.execIllegalEncoding ari reason word s
  | .writePerformed core => Sys2Proof.Machine.execWritePerformed core s
  | .malformedCommandRecord q => Sys2Proof.Machine.execMalformedCommandRecord q s
  | .completionTimeout core => Sys2Proof.Machine.execCompletionTimeout core s
  | .scrub core line corrected => Sys2Proof.Machine.execScrub core line corrected s
  | .pageTableWrite key entry => Sys2Proof.Machine.execPageTableWrite key entry s
  | .l2HitFill core => Sys2Proof.Machine.execL2HitFill core s
  | .cnop => Sys2Proof.Machine.execCnop s
  | .loopPop => Sys2Proof.Machine.execLoopPop s
  | .jtok => Sys2Proof.Machine.execJtok s
  | .eret => Sys2Proof.Machine.execEret s
  | .ifence => Sys2Proof.Machine.execIfence s
  | .rls => Sys2Proof.Machine.execRls s
  | .done => Sys2Proof.Machine.execDone s
  | .reclaim => Sys2Proof.Machine.execReclaim s
  | .ckpt => Sys2Proof.Machine.execCkpt s
  | .anop => Sys2Proof.Machine.execAnop s
  | .fetch => Sys2Proof.Machine.execFetch s
  | .strdl => Sys2Proof.Machine.execStrdl s
  | .trapEntry => Sys2Proof.Machine.execTrapEntry s
  | .kernelStop => Sys2Proof.Machine.execKernelStop s
  | .tlbInvalidateComplete => Sys2Proof.Machine.execTlbInvalidateComplete s
  | .invalidationCompletion => Sys2Proof.Machine.execInvalidationCompletion s
  | .overcurrentStep => Sys2Proof.Machine.execOvercurrentStep s
  | .firmwareHeartbeat => Sys2Proof.Machine.execFirmwareHeartbeat s
  | .firmwareHeartbeatMiss => Sys2Proof.Machine.execFirmwareHeartbeatMiss s
  | .powerOn => Sys2Proof.Machine.execPowerOn s
  | .getVersion => Sys2Proof.Machine.execGetVersion s
  | .getCapabilities => Sys2Proof.Machine.execGetCapabilities s
  | .getDigests => Sys2Proof.Machine.execGetDigests s
  | .getCertificate => Sys2Proof.Machine.execGetCertificate s
  | .priReenable => Sys2Proof.Machine.execPriReenable s

end Sys2Proof.Machine
end

