-- ==== Sys2Proof/Machine/Sched.lean ====
section
/-! DEFINITION. Which instruction or event a step runs (log 3), and placing an instruction where the next step
fetches it (log 15). The order is one that the manual allows: a slot's streams in bundle order, the
engines' work between them, other slots and cores in turn. -/

namespace Sys2Proof.Machine

/-! ### The current slot -/

/-- The slot can run: a handler is there that does not stand stopped, or has a trap yet to enter (R273, R294). -/
def runnable (x : Slot) : Bool := x.active && (!x.halted || x.trapWait.isSome)

/-- The word at the head of the arithmetic stream (R46). -/
def arithInstr (w : Word) : Instr :=
  match decodeArith w with
  | .ok i => i
  | .error r => .illegalEncoding true r w

/-- The line of the PC is in the slot's fetch buffer. -/
def lineHeld (x : Slot) : Bool := x.fetched.any (fun e => e.1 == x.pc.toNat / 64 * 64)

/-- The control word at the PC, or the fetch it needs first (R9, R46, R275). A word that SKIP passes over runs as `cnop`: the
loop end test applies at its bundle (R125; DESIGN CHOICE, log 76). -/
def controlInstr (s : State) : Instr :=
  let x := s.core.slot
  if pcLimit s.core.id ≤ x.pc.toNat || !lineHeld x then .fetch
  else if x.skipC then .cnop
  else
    match bundleAt s x.pc with
    | none => .fetch
    | some (w0, w1) =>
      match decodeControl (isMem s.core.id) w0 w1 with
      | .ok i => i
      | .error r => .illegalEncoding false r w0

/-- What the current slot does next. -/
inductive Turn where
  /-- it runs this -/
  | run (i : Instr)
  /-- the arithmetic position at the head of the backlog passes without a word (R10, R275) -/
  | pass
  deriving DecidableEq, Repr

/-- The waiting words of a slot are tried again. -/
def wake (x : Slot) : Slot := { x with waitC := none, waitA := none }

/-! ### The engines -/

/-- The list where the condition holds. -/
def only (b : Bool) (l : List Instr) : List Instr := if b then l else []

/-- Steps of one core's units that may be due. -/
def coreSteps (s : State) (c : Core) : List Instr :=
  let w := c.id
  let opens := decide (refreshPhase s w < 256)
  List.flatten
    [only (!isMem w && c.inRefresh != opens) [.refreshWindow w opens],
     only (!c.late.isEmpty) [.lateWriteLanding w false],
     only (s.misses.any (fun m => m.core == w)) [.l2HitFill w, .pageWalk w],
     [.writePerformed w],
     (List.range c.strms.length).map (fun i => Instr.streamBeat w i),
     [.preempt w, .preemptResume w, .revocation w],
     only c.revoking [.revocationComplete w],
     [.handlerStart w, .lendingResume w, .parkedContextResume w, .harvestDispatch w, .gangto w]]

/-- Steps of one cluster's units that may be due. -/
def clusterSteps (u : Cluster) : List Instr :=
  let run (j : Job) : List Instr :=
    if j.kind.isXfer then [.transferBeat j.core j.slot false, .pushCompletionMessage j.core j.slot] else [.copyBeat u.id j.slot false]
  List.flatten
    [u.jobs.map (fun j => Instr.copyJobStart u.id j.slot),
     (u.jobs.filter (fun j => j.st == .running)).flatMap run,
     only (!u.imgs.isEmpty) [.imageWrite u.id],
     only (!u.posts.isEmpty) [.gangStart u.id],
     only (!u.ops.isEmpty) [.gangStepRetire u.id 0],
     [.processChange u.id]]

/-- Steps of the front end for one queue that may be due. -/
def queueSteps (s : State) (x : Queue) : List Instr :=
  let ks := (s.kerns.filter (fun k => k.ref.queue == x.id)).map (fun k => k.ref.recNo)
  List.flatten
    [[.completionSignal x.id],
     ks.map (fun v => Instr.kernelComplete x.id v),
     ks.map (fun v => Instr.tlimitExpiry x.id v),
     [.malformedCommandRecord x.id, .messageRecord x.id, .launchRecord x.id, .signalRecord x.id, .energyBudgetRecord x.id],
     [.ladderDrainComplete x.id, .ladderSaveComplete x.id, .ladderReset x.id, .queueRestore x.id]]

/-- Every step of the engines that may be due, in the order in which they are tried. -/
def engineSteps (s : State) : List Instr :=
  List.flatten
    [only (!s.stops.isEmpty) [.kernelStop],
     (allCores s).flatMap (coreSteps s),
     (List.range s.held.length).map (fun i => Instr.heldRemoteAccess i),
     (s.clusters ++ (allCores s).map (fun c => getCl s (clIdx c.id))).flatMap clusterSteps,
     (List.range s.decs.length).map (fun i => Instr.dctDecrement i),
     (List.range s.net.length).map (fun i => Instr.messageDelivery i),
     s.bars.map (fun b => Instr.barrierPhaseComplete b.grp),
     (List.range s.walkers.length).map (fun i => Instr.walkerIssue i),
     s.queues.flatMap (queueSteps s),
     only (!s.invals.isEmpty) [.tlbInvalidateComplete, .invalidationCompletion]]

/-- The step would change something. -/
def due (s : State) (i : Instr) : Bool :=
  match exec i s with
  | .next t => !withPtrEq t s (fun _ => decide (t = s)) (fun h => decide_eq_true h)
  | _ => true

/-- A list from its n-th entry on, then the entries before. -/
def turnList {α : Type} (n : Nat) (l : List α) : List α := l.drop (n % l.length) ++ l.take (n % l.length)

/-- The engine step that is taken next: the first that is due from the n-th on. -/
def engineStep (n : Nat) (s : State) : Option Instr := (turnList n (engineSteps s)).find? (due s)

/-! ### Other slots and cores -/

/-- The core's two slots change places: the other one is current. -/
def swapSlots (c : Core) : Core := { c with slot := c.alt, alt := c.slot, hvNow := !c.hvNow }
/-- The core with its owner slot current. -/
def ownerFirst (c : Core) : Core := if c.hvNow then swapSlots c else c
/-- The core with a slot current that can run, if it has one. -/
def bestSlot (c : Core) : Core := let d := ownerFirst c; if runnable d.slot then d else swapSlots d

/-- A word of the slot that was tried waits. -/
def stalled (s t : State) : Bool :=
  (t.core.slot.waitC.isSome && s.core.slot.waitC.isNone) || (t.core.slot.waitA.isSome && s.core.slot.waitA.isNone)

/-- The arithmetic stream of the current slot would issue its next word (R25). -/
def ariReady (s : State) : Bool :=
  let x := s.core.slot
  runnable x && x.trapWait.isNone &&
  (match x.backlog with
   | e :: _ => !e.skip && !e.lone && (match exec (arithInstr e.word) s with
     | .next t => !stalled s t
     | _ => true)
   | [] => false)

/-- The control stream of the current slot would issue the word at its PC: it has been fetched (R25). -/
def ctlReady (s : State) : Bool :=
  let x := s.core.slot
  runnable x && x.trapWait.isNone && lineHeld x &&
  (match exec (controlInstr s) s with
   | .next t => !stalled s t
   | _ => true)

/-- The state with the owner slot of the core current, which is tried anew. -/
def ownerTurn (s : State) : State :=
  if s.core.hvNow then { s with core := { swapSlots s.core with slot := wake s.core.alt } } else s.modS wake

/-- The owner slot's word in that stream is ready. -/
def ownerReady (ari : Bool) (s : State) : Bool := if ari then ariReady (ownerTurn s) else ctlReady (ownerTurn s)

/-- The current slot is the harvest slot, and that stream of it may not issue: the owner slot's word in the stream is ready,
or a revocation is in progress. Each stream chooses for itself (R25, R310). -/
def heldBack (ari : Bool) (s : State) : Bool := s.core.hvNow && (s.core.revoking || ownerReady ari s)

/-- The current core rolls back, and waits for the late writes that belong to its checkpoint (R364). -/
def rollsBack (c : Core) : Bool := c.ckpt.any Ckpt.rolling

/-- What the current slot does next; none where it cannot go on; the harvest slot of a core that runs a pair does not (R362). The arithmetic stream goes first; the
control stream runs ahead of it while it waits (R13, R29). -/
def slotTurn (s : State) : Option Turn :=
  let x := s.core.slot
  if !runnable x || (s.core.hvNow && (s.core.revoking || pairCore s s.core.id)) || rollsBack s.core then none
  else
    match x.trapWait with
    | some _ => if s.core.pendingRow x.wb then none else some (.run .trapEntry)
    | none =>
      match x.backlog, x.waitA, heldBack true s with
      | e :: _, none, false => if e.skip || e.lone then some .pass else some (.run (arithInstr e.word))
      | _, _, _ =>
        match x.waitC with
        | none => if heldBack false s then none else some (.run (controlInstr s))
        | some _ => if tableCode x.waitC && tableCode (waitOfA x) then some (.run .strdl) else none

/-- The next slot that can run becomes current; the harvest slot of the core before another core. -/
def rotate (s : State) : State :=
  let c := s.core
  let up (d : Core) : Core := { d with slot := wake d.slot }
  if !c.hvNow && runnable c.alt && !c.revoking then { s with core := { swapSlots c with slot := wake c.alt } }
  else
    match s.peers.find? (fun d => runnable d.slot || runnable d.alt) with
    | some d => { s with core := up (bestSlot d), peers := s.peers.filter (fun e => e.id != d.id) ++ [ownerFirst c] }
    | none => { s with core := up (if runnable c.slot || runnable c.alt then bestSlot c else c) }

/-! ### Time -/

/-- The cycles of a cluster's own clock that end with the current cycle of the reference clock (R132, R356, R357). -/
def ownCycles (s : State) (cl : Nat) : Nat :=
  let f := 4 + (getCl s cl).clock
  (s.timer + 1) * f / 16 - s.timer * f / 16

/-- One step is one cycle of the reference clock: the refresh timer, the cycle counters in their clusters' own clocks, the
scheduler's turn (R132, R138, R357; log 3). -/
def tick (s : State) : State :=
  { mapCls (mapCores s (fun c => { c with cycle := c.cycle + BitVec.ofNat 64 (ownCycles s (clIdx c.id)) }))
      (fun u => { u with lag := u.lag + 1 - BitVec.ofNat 64 (ownCycles s u.id) }) with
    timer := s.timer + 1, turn := (s.turn + 1) % 8 }

/-- The instruction writes lane 0 of its destination and no other (R23, R92, R100, R114). -/
def writesLane0 : Instr → Bool
  | .add .. | .sub .. | .mul .. | .mulh .. | .mulhn .. | .div .. | .divn .. | .rem .. | .remn .. | .and .. | .or .. | .xor ..
  | .shl .. | .shr .. | .sra .. | .min .. | .max .. | .minn .. | .maxn .. | .slt .. | .sltn .. | .seq .. | .sel .. | .clz .. | .popc ..
  | .addi .. | .andi .. | .ori .. | .xori .. | .slti .. | .shli .. | .shri .. | .srai .. | .lane .. | .vred .. | .fred .. => true
  | _ => false

/-- The destination of a control instruction that writes a row, and how many lanes it writes. -/
def controlDst : Instr → Option (Opnd × Nat)
  | .call a _ | .jr a _ | .movi a _ | .adda a _ _ => some (a, 1)
  | .csrr a r => some (a, cregLanes r)
  | .getwin a => some (a, 2)
  | .ldb a .. | .ldh a .. | .ldw a .. | .ldbLone a .. | .ldhLone a .. | .ldwLone a .. => some (a, 1)
  | .ldd a .. | .lddLone a .. => some (a, 2)
  | .ldv a .. | .ldvLone a .. | .accrd _ a _ => some (a, 16)
  | .ldx a _ _ z => some (a, lanesFor (MSize.bytes z))
  | .amo _ a _ _ _ _ d => some (a, lanesFor (if d then 8 else 4))
  | .cas a _ _ _ _ d => some (a, lanesFor (if d then 8 else 4))
  | .cpy _ _ b => some (b, 1)
  | .cpseal a | .cpwait _ a _ => some (a, 1)
  | _ => none

/-- The lanes of a place that an instruction writes: the place, the first lane, their number. -/
def placeWritten (x : Slot) (i : Instr) : Option (Loc × Nat × Nat) :=
  match i with
  | .csrw _ .mode => some (.reg x.wb, 1, 1)
  | .csrw _ .fpm => some (.fpm, 0, 1)
  | .loopPop => some (.reg x.wb, 8, 6)
  | .ins d _ k t => (locOf x d).map (fun l => (l, k.toNat * t.width / 32, 1))
  | _ =>
    match aOps i, controlDst i with
    | some a, _ => (dstLoc x a x.rep).map (fun l => (l, 0, if writesLane0 i then 1 else 16))
    | none, some (o, n) => (locOf x o).map (fun l => (l, 0, n))
    | none, none => none

/-- The lanes of a place count as changed since word0 of a bundle wrote them, whatever value they are given
(log 55). -/
def BEnt.touch (e : BEnt) (l : Loc) (lo n : Nat) : BEnt :=
  { e with old := e.old.map (fun p =>
      if p.1 = l then
        (p.1, rowOfLanes ((List.range 16).map (fun j => if lo ≤ j ∧ j < lo + n then lane p.2.2 j else lane p.2.1 j)), p.2.2)
      else p) }

/-- What a trap handler has written, its trapped bundles read when they run again (R86; log 55). -/
def handlerWrites (x : Slot) (i : Instr) (y : Slot) : Slot :=
  match x.aside, placeWritten x i with
  | some _, some (l, lo, n) => { y with aside := y.aside.map (fun a => { a with backlog := a.backlog.map (fun e => e.touch l lo n) }) }
  | _, _ => y

/-- The word has issued: an arithmetic word at its first repetition, a control word once, be it that it then waits for its
own bundle's arithmetic word (R351; log 52). -/
def issues (i : Instr) (s t : State) : Bool :=
  let x := s.core.slot
  let y := t.core.slot
  if (aOps i).isSome then x.rep == 0 && y.waitA.isNone else !x.skipC && !x.ctlIssued && (y.waitC.isNone || y.ctlIssued)

/-- The classes in which an instruction counts: its stream and opcode, and an access to memory or a message where it makes one
(R351; log 23). -/
def classesOf (i : Instr) : List AClass :=
  match encode i with
  | none => []
  | some (w0, w1) =>
    if (aOps i).isSome then [.instr true (w1.extractLsb' 25 7).toNat]
    else
      let op := (w0.extractLsb' 25 6).toNat
      .instr false op :: (if (0x10 ≤ op && op ≤ 0x1D) || op = 0x24 then [.sram] else if op = 0x28 || op = 0x29 || op = 0x2E then [.net] else [])

/-- The register rows that a word has written: the row of its destination, and those that it has changed (R363). -/
def rowsWritten (i : Instr) (c d : Core) : List Nat :=
  (match placeWritten c.slot i with
   | some (.reg n, _) => [n]
   | _ => []) ++
  (((c.regs ++ d.regs).map Prod.fst).filter (fun n => c.row n != d.row n)).eraseDups

/-- A paired core keeps the rows that a word has written in its undo log, and forms a checkpoint where one is due (R363). -/
def pairLog (i : Instr) (s t : State) : State :=
  match t.core.slot.paired, t.core.ckpt with
  | true, some k =>
    let k := { k with rows := (k.rows ++ rowsWritten i s.core t.core).eraseDups }
    let t := t.modC (fun c => { c with ckpt := some k })
    if ckptDue t.core.slot k then checkpoint t else t
  | _, _ => t

/-- The key that a word's access to memory went to, if it made one. -/
def accessKey (s t : State) : Option Nat :=
  if s.core.slot.pend.length < t.core.slot.pend.length then (t.core.slot.pend.getLast?).map PendW.addr
  else if s.core.nextId < t.core.nextId then (t.core.late.getLast?).map Late.addr
  else none
/-- An access beyond the core's cluster crosses the network (R351; log 23). -/
def netClass (s t : State) : List AClass := if (accessKey s t).any (awayFrom s s.core.id) then [.net] else []

/-- What follows a word that the current slot has tried: what it wrote, if it did not wait, and, if it issued, its place in
the activity of its context (R351, R363). -/
def tally (i : Instr) (s t : State) : State :=
  let x := s.core.slot
  let t := if stalled s t then t else pairLog i s (t.modS (handlerWrites x i))
  if issues i s t then
    t.modC (fun c => { c with activity := (classesOf i ++ netClass s t).foldl (fun l k => bump l k (ctxOf s.core.hdr) x.proc x.kern 1) c.activity })
  else t

/-! ### Errors that a word meets (R360, R361; log 28) -/

/-- The operands that a control word reads. -/
def controlSrcs : Instr → List Opnd
  | .bc _ a _ | .loop a _ | .csrw a _ | .dcarm a _ | .dcdec a | .lend a | .mcode a | .send a _ | .sendGrp a _ | .senda a _
  | .strm a | .cpy _ a _ | .xld a | .xst a | .xpush a | .xws a | .setwin a | .setbnd a => [a]
  | .jr _ b | .adda _ b _ | .accrd _ _ b => [b]
  | .cpwait all _ b => if all then [] else [b]
  | .stx a b c _ => [a, b, c]
  | .ldx _ b c _ => [b, c]
  | .amo _ _ b c _ _ _ => [b, c]
  | .cas _ b c _ _ _ => [b, c]
  | .mgang a b _ => [a, b]
  | .ldb _ b .. | .ldh _ b .. | .ldw _ b .. | .ldd _ b .. | .ldv _ b .. | .ldbLone _ b .. | .ldhLone _ b .. | .ldwLone _ b .. | .lddLone _ b .. | .ldvLone _ b .. => [b]
  | .stb a b .. | .sth a b .. | .stw a b .. | .std a b .. | .stv a b .. | .stbLone a b .. | .sthLone a b .. | .stwLone a b .. | .stdLone a b .. | .stvLone a b ..
  | .sti a b .. | .stiLone a b .. => [a, b]
  | _ => []

/-- The payload operand of a sending word, with its number of rows (R209, R217). -/
def payloadRead (c : Core) : Instr → Option (Opnd × Nat)
  | .send a b | .sendGrp a b | .senda a b => some (b, hdrRows (lane (readC c a 0) 0))
  | .dcarm a b => some (b, hdrRows (lane (readC c a 0) 2))
  | _ => none

/-- The lines that a word reads: of its instruction, of the register rows and operand file rows of its sources, of the
message it reads, of D where an arithmetic word reads it, in the row that its repetition is at; and, of a control word, of its
header row and of its payload (R26, R85, R209). -/
def linesRead (c : Core) (i : Instr) : List Nat :=
  let x := c.slot
  let line : Opnd → List Nat
    | .w n => [regLine (x.wb + n.val)]
    | .o n => [ofileLine c.hvNow n.val]
    | .m n => (x.msgSlot.map (fun k => niLine k n.val)).toList
    | _ => []
  let place : Loc → List Nat
    | .reg n => [regLine n]
    | .ofile n => [ofileLine c.hvNow n]
    | .fpm => []
  let sent : List Nat := match payloadRead c i with
    | some (.m k, n) => (List.range n).flatMap (fun j => (x.msgSlot.map (fun e => niLine e (k.val + j))).toList)
    | some (b, n) => (payloadLocs x b n).flatMap place
    | none => []
  match aOps i with
  | some a => codeLine (epcAOf x).toNat :: (a.srcs.flatMap line ++ (if a.readsD then (dstLoc x a x.rep).toList.flatMap place else []))
  | none => codeLine x.pc.toNat :: regLine x.wb :: ((controlSrcs i).flatMap line ++ sent)

/-- A word meets a line that cannot be corrected: a machine check stops its slot, or, in a register row of a pair, the
pair rolls back and takes the partner's row (R360, R361, R364). -/
def meetBroken (line : Nat) (s : State) : State :=
  let s := s.modC (fun c => c.mend line)
  let x := s.core.slot
  if x.paired && s.core.ckpt.isSome && lineArray line == 0 then rollback s s.core.id
  else
    (mchkStop s x.kern s.core.id s.core.hvNow (ctxOf s.core.hdr) x.proc (lineArray line <<< 17 ||| 1 <<< 9) (lineAddrOf line)).modS
      (fun x => { x with halted := true, waitC := none, waitA := none })

/-- The line that a full row of a word's result replaces is whole again. -/
def mendDst (i : Instr) (x : Slot) (c : Core) : Core :=
  match placeWritten x i with
  | some (.reg n, _, 16) => c.mend (regLine n)
  | some (.ofile n, _, 16) => c.mend (ofileLine c.hvNow n)
  | _ => c

/-- The current slot runs a word; a word that does not wait has read its lines. -/
def runWord (i : Instr) (s : State) : Out :=
  match exec i s with
  | .next t =>
    if stalled s t then .next (tally i s t)
    else
      match (linesRead s.core i).find? s.core.broken.contains with
      | some line => .next (meetBroken line s)
      | none => .next (tally i s (t.modC (mendDst i s.core.slot)))
  | o => o

/-! ### One step -/

/-- The engines have their turn: a due step, after which the current slot tries again. -/
def engineTurn (n : Nat) (s : State) : Option Out :=
  let s := s.modS wake
  (engineStep n s).map (fun i => exec i s)

/-- The current slot has its turn. -/
def slotGo (s : State) : Option Out :=
  (slotTurn s).map (fun t => match t with
    | .run i => runWord i s
    | .pass => .next (s.modS retireA))

/-- The next slot that can run is current, and its turn is next. -/
def rotateTurn (turn : Nat) (s : State) : Out := .next { rotate s with turn := if turn < 4 then 4 else 0 }

/-- Whose turn it is: the current slot at even turns, the engines at turns 1 and 5, the next slot at turns 3 and
7; where the one whose turn it is has nothing to do, another goes. At turn 5 each engine step in turn comes
first, so that none waits for ever behind others. -/
def advance (turn : Nat) (s : State) : Out :=
  match turn with
  | 1 => ((engineTurn 0 s).or (slotGo s)).getD (rotateTurn turn s)
  | 3 => rotateTurn turn s
  | 5 => ((engineTurn (s.timer / 8) s).or (slotGo s)).getD (rotateTurn turn s)
  | 7 => rotateTurn turn s
  | _ => ((slotGo s).or (engineTurn 0 s)).getD (rotateTurn turn s)

/-- An outside event: an instruction word is none. -/
def outsideEvent (i : Instr) (s : State) : Out := if (encode i).isSome then .next s else exec i s

/-! ### Placing an instruction (log 15) -/

/-- The current core is a memory core: the first of the package, where it is none. -/
def onMemCore (s : State) : State :=
  if isMem s.core.id then s
  else
    let w := coreWord (ownPkg s) 256 0
    { s with core := { getCore s w with hvNow := false }, peers := s.peers.filter (fun c => c.id != w) ++ [s.core] }
/-- The current core is a compute core. -/
def onComputeCore (s : State) : State :=
  if !isMem s.core.id then s
  else
    let w := coreWord (ownPkg s) 0 0
    { s with core := { getCore s w with hvNow := false }, peers := s.peers.filter (fun c => c.id != w) ++ [s.core] }

/-- The bundle (w0, w1) stands at the PC of the current core's owner slot, which is about to run it; with `ari`, its
control word counts as issued and its arithmetic word is next. -/
def placeBundle (s : State) (w0 w1 : Word) (ari : Bool) : State :=
  let c := ownerFirst s.core
  let pc0 : Word := c.slot.pc &&& ~~~(7 : Word)
  let pc : Word := if pc0.toNat + 8 < pcLimit c.id then pc0 else 0
  let m := memWriteN s.mem (storeKey (clIdx c.id) pc.toNat) (natBytes w0.toNat 4 ++ natBytes w1.toNat 4)
  let line := pc.toNat / 64 * 64
  let row := rowOfBytes (memReadN m (storeKey (clIdx c.id) line) 64)
  let e : BEnt := { pc := pc, word := w1, lone := false, old := [], skip := false }
  let x := { c.slot with
             active := true, halted := false, pc := if ari then pc + 8 else pc, backlog := if ari then [e] else [], trapWait := none,
             waitC := none, waitA := none, rep := 0, fetched := [(line, row)], skipC := false, skipA := false, winNext := none,
             ctlIssued := false, eretRow := none, sendWait := none, xl := Xlat.none, gang := .idle, revoked := false, retry := false }
  { s with core := { c with slot := x, broken := [], ckpt := none }, mem := m, events := [], turn := 0 }

/-- The instruction that `decodeTableWord` reads from w is the next to run. -/
def placeWord (s : State) (nbits w : Nat) : State :=
  let v : BitVec 64 := BitVec.ofNat 64 (w % 2 ^ nbits)
  let w0 := v.extractLsb' 0 32
  let w1 := v.extractLsb' 32 32
  match okInstr (decodeControl false w0 w1) with
  | some _ => placeBundle (onComputeCore s) w0 w1 false
  | none =>
    match okInstr (decodeControl true w0 w1) with
    | some _ => placeBundle (onMemCore s) w0 w1 false
    | none => placeBundle (onComputeCore s) 0 w0 true

end Sys2Proof.Machine
end

