-- ==== Sys2Proof/Machine/Step.lean ====
section
/-! DEFINITION. One step of the machine, and an instruction placed where the next step fetches it. -/

namespace Sys2Proof.Machine

/-- One step: the next outside event, or what the turn gives (log 3). -/
def step (s : State) : Host.Outcome State Fault Refusal :=
  match s.events with
  | e :: es => outsideEvent e { tick s with events := es }
  | [] => advance s.turn (tick s)

/-- s with the instruction whose bits are w where step fetches next (log 15). -/
def State.withFetchWord (s : State) (nbits w : Nat) : State := placeWord s nbits w

end Sys2Proof.Machine
end

