-- ==== Sys2Proof/Safety.lean ====
section
/-! DEFINITION. What the statements are made of: the invariant of every step, when a word can run, what its
operands are, and what a bundle leaves behind. -/

namespace Sys2Proof.Machine

/-- The kind of core that has the instruction: mem says a memory core (R43). -/
def runsOn (mem : Bool) : Instr → Bool
  | .mgang .. | .mcode .. | .accrd .. | .accz .. => !mem
  | .xld .. | .xst .. | .xpush .. | .xws .. => mem
  | _ => true

/-- The words that the encoder gives an instruction are read as that instruction: an arithmetic one from word1,
a control one from word0 and, where the bundle is lone, word1. -/
def ReadBack (i : Instr) : Prop :=
  ∀ w0 w1, i.wf = true → encode i = some (w0, w1) →
    ((aOps i).isSome = true → decodeArith w1 = .ok i) ∧
    ((aOps i).isSome = false → ∀ m, runsOn m i = true → decodeControl m w0 w1 = .ok i)

/-- The invariant of every step: memory is in its canonical form. -/
def Inv (s : State) : Prop := s.mem.wf = true

/-! ### The arithmetic stream -/

/-- The arithmetic instruction i, with the operands a, can run in the current slot: its bundle e is the head of
the backlog (R13), its window operands lie below WL, in this repetition too (R18, R27), and it waits for
nothing (R15, R20, R26). -/
structure ReadyA (i : Instr) (s : State) (e : BEnt) (a : AOps) : Prop where
  head : s.core.slot.backlog.head? = some e
  ops : aOps i = some a
  inWin : (a.srcs ++ a.dst.toList).any (beyond s.core.slot) = false
  near : farD s.core.slot a = false
  free : aWait s.core i a = 0

/-- The row that source k of the operands a reads in this repetition (R16, R22, R26). -/
def argA (s : State) (e : BEnt) (a : AOps) (k : Nat) : Row := nth (readAll (readA s.core e 0) a.srcs []) k
/-- Lane 0 of that row. -/
def argA0 (s : State) (e : BEnt) (a : AOps) (k : Nat) : Word := lane (argA s e a k) 0
/-- The row D as it stands (R85). -/
def oldD (s : State) (e : BEnt) (a : AOps) : Row := readD s.core e a

/-! ### The control stream -/

/-- A control word with the operands and effects p can issue in the current slot: nothing bars it (R224, R261), its window
operands lie below WL (R18) and it waits for nothing (R11, R13, R15, R20, R259). -/
structure ReadyC (p : CSpec) (s : State) : Prop where
  bar : p.bar = none
  inWin : (p.srcs ++ p.dst.toList).any (beyond s.core.slot) = false
  free : cWait s.core p = 0

/-- What a control word reads and writes, and what bars it (R11, R44, R131, R224, R239, R261, R307, R308). `eret`, `done` and `trap`
have none of their own: they wait as a word without operands does (R127, R128, R210). -/
def controlSpec (s : State) : Instr → Option CSpec
  | .brk _ => some { moves := true }
  | .jtok => some { moves := jumps s }
  | .bc c a _ => some { srcs := [a], moves := takes s c a }
  | .cnop | .fsync _ | .fence .. | .gbar _ | .rls | .ckpt | .tagsetOn _ | .tagsetOff _ | .setwinLone .. => some {}
  | .ifence => some { refetch := true }
  | .loopi .. | .loopPop => some { hdrW := true }
  | .loop a _ => some { srcs := [a], hdrW := true }
  | .dcarm a _ | .dcdec a | .send a _ | .sendGrp a _ | .senda a _ | .strm a | .xld a | .xst a | .xpush a | .xws a
  | .setwin a => some { srcs := [a] }
  | .call a _ => some { dst := some a, moves := true }
  | .cpseal a => some { dst := some a }
  | .jr a b => some { srcs := [b], dst := some a, moves := true }
  | .cpy _ a b => some { srcs := [a], dst := some b }
  | .cpwait all a b => some { srcs := if all then [] else [b], dst := some a }
  | .movi a _ => some { dst := some a, latch := true }
  | .adda a b _ => some { srcs := [b], dst := some a, latch := true }
  | .getwin a => some { dst := some a, lanes := 2 }
  | .csrr a r => some { dst := some a, lanes := cregLanes r, latch := true, fpm := r == .fpm, mstat := r == .mstat,
                        bar := if cregPriv r then privBar s else none }
  | .csrw a r => some { srcs := [a], modeW := r == .mode, fpm := r == .fpm, mstat := r == .mstat,
                        bar := if cregPriv r then privBar s else none }
  | .setbnd a => some { srcs := [a], bar := privBar s }
  | .lend a => some { srcs := [a], bar := ownerBar s }
  | .reclaim => some { bar := ownerBar s }
  | .mgang a b _ => some { srcs := [a, b], bar := matrixBar s }
  | .mcode a => some { srcs := [a], bar := matrixBar s }
  | .accz .. => some { bar := matrixBar s }
  | .accrd _ a b => some { srcs := [b], dst := some a, late := true, lanes := 16, fpm := true, mstat := true, bar := matrixBar s }
  | .ldb a b .. => some { srcs := [b], dst := some a, late := true }
  | .ldbLone a b .. => some { srcs := [b], dst := some a, late := true }
  | .ldh a b .. => some { srcs := [b], dst := some a, late := true }
  | .ldhLone a b .. => some { srcs := [b], dst := some a, late := true }
  | .ldw a b .. => some { srcs := [b], dst := some a, late := true }
  | .ldwLone a b .. => some { srcs := [b], dst := some a, late := true }
  | .ldd a b .. => some { srcs := [b], dst := some a, late := true }
  | .lddLone a b .. => some { srcs := [b], dst := some a, late := true }
  | .ldv a b .. => some { srcs := [b], dst := some a, late := true }
  | .ldvLone a b .. => some { srcs := [b], dst := some a, late := true }
  | .stb a b .. => some { srcs := [a, b] }
  | .stbLone a b .. => some { srcs := [a, b] }
  | .sth a b .. => some { srcs := [a, b] }
  | .sthLone a b .. => some { srcs := [a, b] }
  | .stw a b .. => some { srcs := [a, b] }
  | .stwLone a b .. => some { srcs := [a, b] }
  | .std a b .. => some { srcs := [a, b] }
  | .stdLone a b .. => some { srcs := [a, b] }
  | .stv a b .. => some { srcs := [a, b] }
  | .stvLone a b .. => some { srcs := [a, b] }
  | .sti a b .. => some { srcs := [a, b] }
  | .stiLone a b .. => some { srcs := [a, b] }
  | .ldx a b c _ => some { srcs := [b, c], dst := some a, late := true }
  | .stx a b c _ => some { srcs := [a, b, c] }
  | .amo _ a b c .. => some { srcs := [b, c], dst := some a, late := true }
  | .cas a b c .. => some { srcs := [b, c], dst := some a, late := true }
  | _ => none

/-- The row that source k of a control word reads (R21, R22). -/
def argC (s : State) (p : CSpec) (k : Nat) : Row := nth (readAll (readC s.core) p.srcs []) k
/-- Lane 0 of that row. -/
def argC0 (s : State) (p : CSpec) (k : Nat) : Word := lane (argC s p k) 0

/-- The state after a control word has issued: s1 is s with its effect, v its result, target where it jumps
to (R13, R117, R125, R363). -/
def issued (p : CSpec) (s s1 : State) (v : Row) (target : Option Word) : State := countBundle (issueC s s1 p v target)
/-- The same, where the effect leaves the core (R363). -/
def issuedOut (p : CSpec) (s s1 : State) (v : Row) : State := outbound (issueC s s1 p v none)

/-- The state after a control word has raised a trap, s1 being s with what its checks changed (R266, R273). -/
def trapped (i : Instr) (s1 : State) (t : Trap) : State := takeTrap s1 { t with fword := word0Of i }

/-- A window of wl rows from wb that `setwin` accepts: within the bound, and in a harvest slot within the lent rows
(R259, R305). -/
def FitsWindow (c : Core) (wb wl : Nat) : Prop :=
  wb < 2048 ∧ 1 ≤ wl ∧ wl ≤ 96 ∧ c.slot.pb ≤ wb ∧ wb + wl ≤ c.slot.pb + c.slot.pl ∧
    (c.hvNow = true → lendRB c.lend ≤ wb ∧ wb + wl ≤ lendRB c.lend + lendRN c.lend)

/-! ### What stays, and what an instruction leaves -/

/-- Everything outside the current core is as before. -/
def SameOutside (s t : State) : Prop := t = { s with core := t.core }

/-- The row new is old with its first n lanes those of v (R23). -/
def Merged (n : Nat) (v old new : Row) : Prop := ∀ j, j < 16 → lane new j = if j < n then lane v j else lane old j

/-- The window row that a destination names, i rows on (R18, R26). -/
def dstRow (x : Slot) (i : Nat) : Option Opnd → Option Nat
  | some (.w k) => some (x.wb + k.val + i)
  | _ => none

/-- An operand-file row by its number, 0 beyond the file. -/
def oRow (x : Slot) (k : Nat) : Row := x.ofile[k]?.getD 0
/-- A data queue, and a channel, by its number. -/
def queueOf (x : Slot) (k : Nat) : List QEnt := x.queues[k]?.getD []
def chanOf (c : Core) (k : Nat) : List Beat := c.chans[k]?.getD []

/-- What a completed arithmetic word with operands a leaves: t is s with the first n lanes of v delivered to its
destination and its latch, its queue entries and beats taken, its bundle retired, and nothing else changed (R10,
R15, R16, R21-R23, R26, R259). -/
structure DoneA (s t : State) (a : AOps) (v : Row) (n : Nat) : Prop where
  outside : SameOutside s t
  core : t.core = { s.core with slot := t.core.slot, regs := t.core.regs, chans := t.core.chans }
  slot : t.core.slot = { s.core.slot with
    ofile := t.core.slot.ofile, latA := t.core.slot.latA, queues := t.core.slot.queues, backlog := t.core.slot.backlog,
    wb := t.core.slot.wb, wl := t.core.slot.wl, winNext := t.core.slot.winNext, rep := t.core.slot.rep, waitA := none, waitC := none }
  row : ∀ q, dstRow s.core.slot (dstShift a s.core.slot.rep) a.dst = some q → Merged n v (s.core.row q) (t.core.row q)
  rows : ∀ q, dstRow s.core.slot (dstShift a s.core.slot.rep) a.dst ≠ some q → t.core.row q = s.core.row q
  ofile : ∀ k : Fin 8, a.dst = some (.o k) → Merged n v (oRow s.core.slot k) (oRow t.core.slot k)
  ofiles : ∀ k : Fin 8, a.dst ≠ some (.o k) → oRow t.core.slot k = oRow s.core.slot k
  queue : ∀ k : Fin 4, a.dst = some (.q k) → ∃ r, Merged n v 0 r ∧
    queueOf t.core.slot k = (queueOf s.core.slot k).drop (a.srcs.count (.q k)) ++ [.full r]
  queues : ∀ k : Fin 4, a.dst ≠ some (.q k) → queueOf t.core.slot k = (queueOf s.core.slot k).drop (a.srcs.count (.q k))
  chans : ∀ k : Fin 4, chanOf t.core k = (chanOf s.core k).drop (a.srcs.count (.c k))
  latch : a.dst ≠ none → Merged n v s.core.slot.latA t.core.slot.latA
  noLatch : a.dst = none → t.core.slot.latA = s.core.slot.latA
  retired : (streamed a.srcs = false ∨ endBeat s.core a.srcs = true) → t.core.slot.backlog = dropLone s.core.slot.backlog.tail ∧
    t.core.slot.rep = 0
  repeats : streamed a.srcs = true → endBeat s.core a.srcs = false → t.core.slot.rep = s.core.slot.rep + 1 ∧
    t.core.slot.backlog.map (fun b => (b.pc, b.word, b.lone)) = s.core.slot.backlog.map (fun b => (b.pc, b.word, b.lone)) ∧
    t.core.slot.wb = s.core.slot.wb ∧ t.core.slot.wl = s.core.slot.wl ∧ t.core.slot.winNext = s.core.slot.winNext
  window : s.core.slot.winNext = none → t.core.slot.wb = s.core.slot.wb ∧ t.core.slot.wl = s.core.slot.wl ∧ t.core.slot.winNext = none
  opens : ∀ b l, s.core.slot.winNext = some (b, l) → (streamed a.srcs = false ∨ endBeat s.core a.srcs = true) →
    t.core.slot.backlog = [] → t.core.slot.wb = b ∧ t.core.slot.wl = l ∧ t.core.slot.winNext = none
  keeps : t.core.slot.backlog ≠ [] → t.core.slot.wb = s.core.slot.wb ∧ t.core.slot.wl = s.core.slot.wl ∧
    t.core.slot.winNext = s.core.slot.winNext

/-- A row once the result v of the control word p is in it, before the end test (R21, R23). -/
def deliveredC (p : CSpec) (s : State) (v : Row) (q : Nat) : Row :=
  if !p.late && dstRow s.core.slot 0 p.dst == some q then mergeLanes p.lanes v (s.core.row q) else s.core.row q

/-- The header row and the PC after a control word: the end test of R125, or a transfer of control. -/
def afterC (p : CSpec) (s : State) (v : Row) (target : Option Word) : Row × Word :=
  let h := deliveredC p s v s.core.slot.wb
  match target with
  | some n => (h, n)
  | none => endTest h s.core.slot.pc

/-- What a control word p issued in s leaves: t is s1, the state with its effect, with its result v in its destination
and latch, its queue entries taken, the end test applied or control transferred, its bundle waiting for the
arithmetic stream, and nothing else changed (R13, R15, R21-R23, R117, R125, R160, R259). A paired core may have
formed a checkpoint (R363). -/
structure DoneC (s s1 t : State) (p : CSpec) (v : Row) (target : Option Word) : Prop where
  outside : SameOutside s1 t
  core : t.core = { s1.core with slot := t.core.slot, regs := t.core.regs, chans := t.core.chans, ckpt := t.core.ckpt }
  slot : t.core.slot = { s1.core.slot with
    ofile := t.core.slot.ofile, latC := t.core.slot.latC, queues := t.core.slot.queues, backlog := t.core.slot.backlog,
    wb := t.core.slot.wb, wl := t.core.slot.wl, winNext := t.core.slot.winNext, fetched := t.core.slot.fetched,
    pc := t.core.slot.pc, skipA := t.core.slot.skipA, skipC := false, xl := Xlat.none, revoked := false, retry := false, waitA := none, waitC := none }
  pc : t.core.slot.pc = (afterC p s1 v target).2
  header : t.core.row s1.core.slot.wb = (afterC p s1 v target).1
  row : ∀ q, q ≠ s1.core.slot.wb → p.late = false → dstRow s1.core.slot 0 p.dst = some q → Merged p.lanes v (s1.core.row q) (t.core.row q)
  rows : ∀ q, q ≠ s1.core.slot.wb → (p.late = true ∨ dstRow s1.core.slot 0 p.dst ≠ some q) → t.core.row q = s1.core.row q
  ofile : ∀ k : Fin 8, p.late = false → p.dst = some (.o k) → Merged p.lanes v (oRow s1.core.slot k) (oRow t.core.slot k)
  ofiles : ∀ k : Fin 8, (p.late = true ∨ p.dst ≠ some (.o k)) → oRow t.core.slot k = oRow s1.core.slot k
  queue : ∀ k : Fin 4, p.late = false → p.dst = some (.q k) → ∃ r, Merged p.lanes v 0 r ∧
    queueOf t.core.slot k = (queueOf s1.core.slot k).drop (p.srcs.count (.q k)) ++ [.full r]
  queues : ∀ k : Fin 4, (p.late = true ∨ p.dst ≠ some (.q k)) →
    queueOf t.core.slot k = (queueOf s1.core.slot k).drop (p.srcs.count (.q k))
  latch : (p.latch = true ∨ p.dst = some .lat) → Merged p.lanes v s1.core.slot.latC t.core.slot.latC
  noLatch : p.latch = false → p.dst ≠ some .lat → t.core.slot.latC = s1.core.slot.latC
  chans : ∀ k : Fin 4, p.srcs.count (.c k) = 0 → chanOf t.core k = chanOf s1.core k
  joined : ∀ w0 w1, bundleAt s s1.core.slot.pc = some (w0, w1) → uF w0 = false →
    t.core.slot.backlog.map (fun b => (b.pc, b.word, b.lone, b.skip)) =
      s1.core.slot.backlog.map (fun b => (b.pc, b.word, b.lone, b.skip)) ++ [(s1.core.slot.pc, w1, false, s1.core.slot.skipA)]
  unpaired : s1.core.slot.paired = false → t.core.ckpt = s1.core.ckpt
  window : s1.core.slot.winNext = none → t.core.slot.wb = s1.core.slot.wb ∧ t.core.slot.wl = s1.core.slot.wl ∧ t.core.slot.winNext = none

/-! ### The tables of the arithmetic instructions -/

/-- The table of R88 but for its last two rows: instruction and x, from a and b. -/
def scalarRules (d x y : Opnd) : List (Instr × (Word → Word → Word)) :=
  [(.add d x y, fun a b => BitVec.ofNat 32 (a.toNat + b.toNat)),
   (.sub d x y, fun a b => BitVec.ofInt 32 (a.toInt - b.toInt)),
   (.mul d x y, fun a b => BitVec.ofNat 32 (a.toNat * b.toNat)),
   (.mulh d x y, fun a b => BitVec.ofInt 32 (a.toInt * b.toInt / 2 ^ 32)),
   (.mulhn d x y, fun a b => BitVec.ofNat 32 (a.toNat * b.toNat / 2 ^ 32)),
   (.and d x y, fun a b => a &&& b),
   (.or d x y, fun a b => a ||| b),
   (.xor d x y, fun a b => a ^^^ b),
   (.shl d x y, fun a b => BitVec.ofNat 32 (a.toNat * 2 ^ (b.toNat % 32))),
   (.shr d x y, fun a b => BitVec.ofNat 32 (a.toNat / 2 ^ (b.toNat % 32))),
   (.sra d x y, fun a b => BitVec.ofInt 32 (a.toInt / 2 ^ (b.toNat % 32))),
   (.min d x y, fun a b => BitVec.ofInt 32 (min a.toInt b.toInt)),
   (.max d x y, fun a b => BitVec.ofInt 32 (max a.toInt b.toInt)),
   (.minn d x y, fun a b => BitVec.ofNat 32 (min a.toNat b.toNat)),
   (.maxn d x y, fun a b => BitVec.ofNat 32 (max a.toNat b.toNat)),
   (.slt d x y, fun a b => if a.toInt < b.toInt then 1 else 0),
   (.sltn d x y, fun a b => if a.toNat < b.toNat then 1 else 0),
   (.seq d x y, fun a b => if a = b then 1 else 0)]

/-- The table of R91: instruction and x, from a, the immediate and the shift distance. -/
def immediateRules (d x : Opnd) (k : BitVec 11) (n : BitVec 5) : List (Instr × (Word → Word)) :=
  [(.addi d x k, fun a => BitVec.ofInt 32 (a.toInt + k.toInt)),
   (.andi d x k, fun a => a &&& BitVec.ofInt 32 k.toInt),
   (.ori d x k, fun a => a ||| BitVec.ofInt 32 k.toInt),
   (.xori d x k, fun a => a ^^^ BitVec.ofInt 32 k.toInt),
   (.shli d x n, fun a => BitVec.ofNat 32 (a.toNat * 2 ^ n.toNat)),
   (.shri d x n, fun a => BitVec.ofNat 32 (a.toNat / 2 ^ n.toNat)),
   (.srai d x n, fun a => BitVec.ofInt 32 (a.toInt / 2 ^ n.toNat)),
   (.slti d x k, fun a => if a.toInt < k.toInt then 1 else 0)]

/-- The divisions of R89 where b is not 0: instruction and x, from a and b. -/
def divisionRules (d x y : Opnd) : List (Instr × (Word → Word → Word) × (Word → Word)) :=
  [(.div d x y, fun a b => BitVec.ofInt 32 (Int.tdiv a.toInt b.toInt), fun _ => 0xFFFFFFFF),
   (.divn d x y, fun a b => BitVec.ofNat 32 (a.toNat / b.toNat), fun _ => 0xFFFFFFFF),
   (.rem d x y, fun a b => BitVec.ofInt 32 (Int.tmod a.toInt b.toInt), fun a => a),
   (.remn d x y, fun a b => BitVec.ofNat 32 (a.toNat % b.toNat), fun a => a)]

/-- The tables of R95 and R96: instruction, and the integer whose low w bits are the element result, from x, y and z
and from the bits of the elements of S1, S2 and D. -/
def elementRules (d x y : Opnd) (t : ETy) : List (Instr × (Int → Int → Int → Nat → Nat → Nat → Int)) :=
  [(.vadd d x y t, fun x y _ _ _ _ => x + y),
   (.vsub d x y t, fun x y _ _ _ _ => x - y),
   (.vmul d x y t, fun x y _ _ _ _ => x * y),
   (.vmulh d x y t, fun x y _ _ _ _ => x * y / 2 ^ t.width),
   (.vmac d x y t, fun x y z _ _ _ => z + x * y),
   (.vmin d x y t, fun x y _ _ _ _ => min x y),
   (.vmax d x y t, fun x y _ _ _ _ => max x y),
   (.vand d x y t, fun _ _ _ p q _ => ((p &&& q : Nat) : Int)),
   (.vor d x y t, fun _ _ _ p q _ => ((p ||| q : Nat) : Int)),
   (.vxor d x y t, fun _ _ _ p q _ => ((p ^^^ q : Nat) : Int)),
   (.vshl d x y t, fun x _ _ _ q _ => x * 2 ^ (q % t.width)),
   (.vshr d x y t, fun _ _ _ p q _ => ((p / 2 ^ (q % t.width) : Nat) : Int)),
   (.vsra d x y t, fun _ _ _ p q _ => signedVal t.width p / 2 ^ (q % t.width)),
   (.vadds d x y t, fun x y _ _ _ _ => max (tyMin t) (min (tyMax t) (x + y))),
   (.vsubs d x y t, fun x y _ _ _ _ => max (tyMin t) (min (tyMax t) (x - y))),
   (.vcmpeq d x y t, fun x y _ _ _ _ => if x = y then -1 else 0),
   (.vcmplt d x y t, fun x y _ _ _ _ => if x < y then -1 else 0),
   (.vcmple d x y t, fun x y _ _ _ _ => if x ≤ y then -1 else 0),
   (.vsel d x y t, fun _ _ _ p q r => if r = 0 then (q : Int) else (p : Int))]

/-- Element e of row v as an integer of type t (R84). -/
def valAt (t : ETy) (v : Row) (e : Nat) : Int := val t (elem v t.width e)
/-- Element e of row v holds the low w bits of the integer i (R84). -/
def ElemIs (t : ETy) (v : Row) (e : Nat) (i : Int) : Prop := (elem v t.width e : Int) = i % 2 ^ t.width

/-- The floating-point instructions that raise exceptions, how many lanes they write, and what they compute from the
rounding mode, D, S1 and S2. -/
def fpRules (d x y : Opnd) (t src : ETy) (satBit : Bool) : List (Instr × Nat × (RMode → Row → Row → Row → Row × Exc)) :=
  let each (f : RMode → Nat → Nat → Nat → Nat × Exc) : RMode → Row → Row → Row → Row × Exc := fun rm old p q =>
    fMap t.width t.count (fun e => f rm (elem p t.width e) (elem q t.width e) (elem old t.width e))
  let conv (f : RMode → Nat → Nat × Exc) : RMode → Row → Row → Row → Row × Exc := fun rm _ p _ =>
    fMap t.width (min t.count src.count) (fun e => f rm (elem p src.width e))
  let red (op : FRedOp) : RMode → Row → Row → Row → Row × Exc := fun rm _ p _ =>
    let r := fTree (fredOp t rm op) (Nat.log2 t.count) (elem p t.width) Exc.none
    (laneRow (BitVec.ofNat 32 r.1), r.2)
  [(.fadd d x y t, 16, each fun rm p q _ => fAdd t rm p q), (.fsub d x y t, 16, each fun rm p q _ => fSub t rm p q),
   (.fmul d x y t, 16, each fun rm p q _ => fMul t rm p q), (.fma d x y t, 16, each fun rm p q z => fMac t rm false p q z),
   (.fms d x y t, 16, each fun rm p q z => fMac t rm true p q z), (.fmin d x y t, 16, each fun _ p q _ => fMinMax t true p q),
   (.fmax d x y t, 16, each fun _ p q _ => fMinMax t false p q), (.fdiv d x y t, 16, each fun rm p q _ => fDiv t rm p q),
   (.fsqrt d x t, 16, each fun rm p _ _ => fSqrt t rm p), (.frcp d x t, 16, each fun rm p _ _ => fApprox t rm .rcp p),
   (.frsq d x t, 16, each fun rm p _ _ => fApprox t rm .rsq p), (.fexp2 d x t, 16, each fun rm p _ _ => fApprox t rm .exp2 p),
   (.flog2 d x t, 16, each fun rm p _ _ => fApprox t rm .log2 p), (.fcmpeq d x y t, 16, each fun _ p q _ => fCompare t .eq p q),
   (.fcmplt d x y t, 16, each fun _ p q _ => fCompare t .lt p q), (.fcmple d x y t, 16, each fun _ p q _ => fCompare t .le p q),
   (.fcvt d x t src satBit, 16, conv fun rm p => fConvert t src rm satBit p), (.fcvti d x t src, 16, conv fun rm p => fToInt t src rm p),
   (.icvtf d x t src, 16, conv fun rm p => intToF t rm (val src p)),
   (.fred .add d x t, 1, red .add), (.fred .min d x t, 1, red .min), (.fred .max d x t, 1, red .max)]

/-- The code x is a finite number of the format: its sign bit, and a magnitude up to the greatest (R73, R77, R78). -/
def IsFinite (t : ETy) (x : Nat) : Prop := x < 2 ^ (fmt t).width ∧ fMag t x ≤ (fmt t).maxCode

/-- The number that a finite code stands for, from its sign, exponent and fraction fields; a b16 subnormal counts as zero
(R73, R77, R78). -/
def fpValue (t : ETy) (x : Nat) : ℚ :=
  let f := fmt t
  let ex := fMag t x / 2 ^ f.mb
  let fr := fMag t x % 2 ^ f.mb
  let m : Nat := if ex = 0 then (if f.flush then 0 else fr) else 2 ^ f.mb + fr
  (if fSign t x then -1 else 1) * m * 2 ^ ((max ex 1 : Nat) - (f.bias : Int) - f.mb)

/-- A number that a format can hold once it is rounded: not 0, no greater than its greatest and, in b16, not tiny (R73, R77). -/
def Fits (t : ETy) (v : ℚ) : Prop :=
  v ≠ 0 ∧ |v| ≤ fpValue t (fmt t).maxCode ∧ ((fmt t).flush = true → (2 : ℚ) ^ (1 - ((fmt t).bias : Int)) ≤ |v|)

/-- The code c is the number v rounded once: a number of the format and, of all of them, the nearest one, a tie going to the
even code; or the nearest one toward zero, below, or above (R73, R74). -/
structure Rounded (t : ETy) (rm : RMode) (v : ℚ) (c : Nat) : Prop where
  finite : IsFinite t c
  nearest : rm = .rne → ∀ u, IsFinite t u → |fpValue t c - v| ≤ |fpValue t u - v|
  even : rm = .rne → ∀ u, IsFinite t u → |fpValue t u - v| = |fpValue t c - v| → fpValue t u = fpValue t c ∨ c % 2 = 0
  toZero : rm = .rtz → |fpValue t c| ≤ |v| ∧ 0 ≤ fpValue t c * v ∧ ∀ u, IsFinite t u → |fpValue t u| ≤ |v| → |fpValue t u| ≤ |fpValue t c|
  down : rm = .rdn → fpValue t c ≤ v ∧ ∀ u, IsFinite t u → fpValue t u ≤ v → fpValue t u ≤ fpValue t c
  up : rm = .rup → v ≤ fpValue t c ∧ ∀ u, IsFinite t u → v ≤ fpValue t u → fpValue t c ≤ fpValue t u

/-- The correctly rounded operations on one element, each with its exact result; a quotient by zero is no number of `Fits`
(R106). -/
def exactRules (t : ETy) (rm : RMode) (x y z : Nat) : List ((Nat × Exc) × ℚ) :=
  let v := fpValue t
  [(fAdd t rm x y, v x + v y), (fSub t rm x y, v x - v y), (fMul t rm x y, v x * v y), (fMac t rm false x y z, v z + v x * v y),
   (fMac t rm true x y z, v z - v x * v y), (fDiv t rm x y, v x / v y)]

/-- The code x is an infinity, a NaN, a signalling NaN (R76, R78). -/
def isInf (t : ETy) (x : Nat) : Bool := (fmt t).infSigned && fMag t x == (fmt t).infCode
def IsNan (t : ETy) (x : Nat) : Prop := (fmt t).maxCode < fMag t x ∧ isInf t x = false
def IsSig (t : ETy) (x : Nat) : Prop := IsNan t x ∧ 8 < (fmt t).width ∧ fMag t x % 2 ^ (fmt t).mb < 2 ^ ((fmt t).mb - 1)

/-- The sign bit as a code: the zero of that sign (R73). -/
def signCode (t : ETy) (neg : Bool) : Nat := if neg then 2 ^ ((fmt t).width - 1) else 0
/-- A b16 subnormal reads as the zero of its sign (R77). -/
def readCode (t : ETy) (x : Nat) : Nat := if (fmt t).flush ∧ fMag t x < 2 ^ (fmt t).mb then signCode t (fSign t x) else x

/-- The place of a code that is no NaN in the order of the numbers with -∞ and +∞. -/
def fpPlace (t : ETy) (x : Nat) : WithBot (WithTop ℚ) :=
  if isInf t x then (if fSign t x then ⊥ else ((⊤ : WithTop ℚ) : WithBot (WithTop ℚ))) else ((fpValue t x : WithTop ℚ) : WithBot (WithTop ℚ))

/-- The number v, rounded with the exponent unbounded, lies beyond the greatest number of the format (R79). -/
def Overflows (t : ETy) (rm : RMode) (v : ℚ) : Prop :=
  let top := fpValue t (fmt t).maxCode
  let step := top - fpValue t ((fmt t).maxCode - 1)
  match rm with
  | .rne => top + step / 2 < |v| ∨ ((fmt t).maxCode % 2 = 1 ∧ |v| = top + step / 2)
  | .rtz => top + step ≤ |v|
  | .rdn => if v < 0 then top < |v| else top + step ≤ |v|
  | .rup => if v < 0 then top + step ≤ |v| else top < |v|

/-- The number v, rounded with the exponent unbounded, lies below the least normal number of the format (R73, R77). -/
def Tiny (t : ETy) (rm : RMode) (v : ℚ) : Prop :=
  let least : ℚ := 2 ^ (1 - ((fmt t).bias : Int))
  match rm with
  | .rne => |v| < least - least / 2 ^ ((fmt t).mb + 2)
  | .rtz => |v| < least
  | .rdn => if v < 0 then |v| ≤ least - least / 2 ^ ((fmt t).mb + 1) else |v| < least
  | .rup => if v < 0 then |v| < least else |v| ≤ least - least / 2 ^ ((fmt t).mb + 1)

/-- The element r.1 and the exceptions r.2 (invalid, division by zero, overflow, underflow, inexact) that a number v other than 0
gives (R73, R75, R77, R79): the number rounded once; beyond the format an infinity or, by the mode or SAT, its greatest number; in
b16 a tiny one is flushed. -/
structure RoundsTo (t : ETy) (rm : RMode) (satBit : Bool) (v : ℚ) (r : Nat × Exc) : Prop where
  fits : Fits t v → Rounded t rm v r.1 ∧ (r.2.nx = true ↔ fpValue t r.1 ≠ v) ∧ (r.2.uf = true ↔ r.2.nx = true ∧ Tiny t rm v) ∧
    r.2.nv = false ∧ r.2.dz = false ∧ r.2.of = false
  toInf : Overflows t rm v → satBit = false → (rm = .rne ∨ (rm = .rdn ∧ v < 0) ∨ (rm = .rup ∧ 0 < v)) →
    r = ((if (fmt t).infSigned then signCode t (decide (v < 0)) else 0) + (fmt t).infCode, ⟨false, false, true, false, true⟩)
  toMax : Overflows t rm v → (satBit = true ∨ ¬ (rm = .rne ∨ (rm = .rdn ∧ v < 0) ∨ (rm = .rup ∧ 0 < v))) →
    r = (signCode t (decide (v < 0)) + (fmt t).maxCode, ⟨false, false, true, false, true⟩)
  back : ¬ Overflows t rm v → fpValue t (fmt t).maxCode < |v| → r = (signCode t (decide (v < 0)) + (fmt t).maxCode, ⟨false, false, false, false, true⟩)
  flushed : (fmt t).flush = true → Tiny t rm v → r = (signCode t (decide (v < 0)), ⟨false, false, false, true, true⟩)
  least : (fmt t).flush = true → ¬ Tiny t rm v → |v| < 2 ^ (1 - ((fmt t).bias : Int)) →
    r = (signCode t (decide (v < 0)) + 2 ^ (fmt t).mb, ⟨false, false, false, false, true⟩)

/-- The code c is the square root of the number v rounded once (R73, R106). -/
structure RootOf (t : ETy) (rm : RMode) (v : ℚ) (c : Nat) : Prop where
  finite : IsFinite t c
  nonneg : 0 ≤ fpValue t c
  below : rm = .rtz ∨ rm = .rdn → fpValue t c ^ 2 ≤ v ∧ ∀ u, IsFinite t u → 0 ≤ fpValue t u → fpValue t u ^ 2 ≤ v → fpValue t u ≤ fpValue t c
  above : rm = .rup → v ≤ fpValue t c ^ 2 ∧ ∀ u, IsFinite t u → 0 ≤ fpValue t u → v ≤ fpValue t u ^ 2 → fpValue t c ≤ fpValue t u
  nearest : rm = .rne → ∀ u, IsFinite t u → 0 ≤ fpValue t u →
    (fpValue t c < fpValue t u → 4 * v ≤ (fpValue t u + fpValue t c) ^ 2) ∧ (fpValue t u < fpValue t c → (fpValue t u + fpValue t c) ^ 2 ≤ 4 * v)

/-- An addend: it is infinite, its sign, its number. -/
structure Addend where
  inf : Bool
  neg : Bool
  val : ℚ
def addendOf (t : ETy) (x : Nat) : Addend := ⟨isInf t x, fSign t x, fpValue t x⟩
def productOf (t : ETy) (x y : Nat) : Addend := ⟨isInf t x || isInf t y, fSign t x != fSign t y, fpValue t x * fpValue t y⟩
def Addend.negate (a : Addend) : Addend := ⟨a.inf, !a.neg, -a.val⟩

/-- The sums, each with its addends (R106). -/
def sumRules (t : ETy) (rm : RMode) (x y : Nat) : List ((Nat × Exc) × Addend × Addend) :=
  [(fAdd t rm x y, addendOf t x, addendOf t y), (fSub t rm x y, addendOf t x, (addendOf t y).negate)]
def macRules (t : ETy) (rm : RMode) (x y z : Nat) : List ((Nat × Exc) × Addend × Addend) :=
  [(fMac t rm false x y z, addendOf t z, productOf t x y), (fMac t rm true x y z, addendOf t z, (productOf t x y).negate)]

/-- The integer n is the number v rounded under the mode (R74, R80). -/
def IntRounded (rm : RMode) (v : ℚ) (n : Int) : Prop :=
  match rm with
  | .rne => |(n : ℚ) - v| ≤ 1 / 2 ∧ (|(n : ℚ) - v| = 1 / 2 → n % 2 = 0)
  | .rtz => n = if 0 ≤ v then ⌊v⌋ else ⌈v⌉
  | .rdn => n = ⌊v⌋
  | .rup => n = ⌈v⌉

/-- The sign bit that `fabs`, `fneg` and `fsgnj` give, from those of S1 and S2 (R115). -/
def signRules (d x y : Opnd) (t : ETy) : List (Instr × (Nat → Nat → Nat)) :=
  [(.fabs d x t, fun _ _ => 0), (.fneg d x t, fun p _ => 1 - p), (.fsgnj d x y t, fun _ q => q)]

/-! ### Accesses to memory -/

/-- The state that an access of n bytes at ea goes on with: each ATC entry it used is the most recently used one
(R325). -/
def reached (s : State) (k : AKind) (n ea : Nat) : State :=
  let t := touchAtc (xlOf s (who s)) s (who s) ea
  match planAccess s (who s) k ea n with
  | .ok _ m (some _) => touchAtc (xlOf t (who s)) t (who s) (ea + m)
  | _ => t

/-- An access of n bytes at ea comes to the look-up of its address: no acquire of the slot is held (R151), it has the
privilege (R147), and it is aligned (R146). -/
structure Arrives (s : State) (k : AKind) (ord : Ord) (n ea : Nat) : Prop where
  free : acqHeld s = false
  priv : k = .store → touchesStore s ea n = true → s.core.slot.prv = true
  aligned : ea % n = 0 ∨ (n ≠ 64 ∧ ord = .rlx ∧ k ≠ .rmw ∧ modeAL (modeOf s.core.hdr) = false)

/-- It also translates, to the spots l, with no range lock of the core's own cluster over them (R147). -/
structure Passes (s : State) (k : AKind) (ord : Ord) (n ea : Nat) (l : List Spot) : Prop extends Arrives s k ord n ea where
  plan : ∃ p m q, planAccess s (who s) k ea n = .ok p m q ∧ l = spotsOf p m n q

/-- And it is performed at once: nothing holds it back (R141, R151, R180, R184, R191, R249, R365). -/
structure Reaches (s : State) (k : AKind) (ord : Ord) (scp : Scp) (n ea : Nat) (l : List Spot) : Prop extends Passes s k ord n ea l where
  now : mustHold (reached s k n ea) k ord scp l = false

/-- An access of n bytes must be aligned: it is of 64 bytes, it is ordered, or MODE.AL is set (R146). -/
def MustAlign (s : State) (ord : Ord) (n : Nat) : Prop := n = 64 ∨ ord ≠ .rlx ∨ modeAL (modeOf s.core.hdr) = true

/-- How a control word ends that cannot issue for the plan of its access: it traps (R147, R318), or stalls outside the wait
table, its registers and memory as they were, for the walk of a page (R320) or for the host, which is asked for the page
and whose refusal traps ADDR with PERM (R325, R326). -/
def StopsAs (i : Instr) (s : State) : Plan → Prop
  | .ok .. => True
  | .trap cause info faddr => exec i s = .next (trapped i s (mkTrap cause info faddr))
  | .miss page => ∃ t, exec i s = stallC t 100 ∧ t.core.slot.xl.page = some page ∧ t.mem = s.mem ∧ t.core.regs = s.core.regs ∧
      t.misses = (askPage s ⟨s.core.id, .slot s.core.hvNow, s.core.slot.proc, page⟩).misses
  | .ext r faddr =>
    (refused s.core.slot.xl r = true → exec i s = .next (trapped i s (mkTrap 0x03 infoPERM faddr))) ∧
    (refused s.core.slot.xl r = false → ∃ t, exec i s = stallC t 100 ∧ t.core.slot.xl.page = some r.page ∧ t.mem = s.mem ∧
      t.core.regs = s.core.regs ∧ ∃ q ∈ t.core.ext, q.asker = .slot s.core.hvNow ∧ q.kern = s.core.slot.kern ∧ q.pasid = r.pasid ∧ q.page = r.page)

/-- The word has issued, and its access to the spots is held: memory is as it was (R141). -/
def HeldAt (i : Instr) (s : State) (l : List Spot) : Prop :=
  ∃ t, exec i s = .next t ∧ t.mem = s.mem ∧ ∃ h ∈ t.held, h.core = s.core.id ∧ h.hv = s.core.hvNow ∧ h.spots = l

/-- The state once a load of n bytes to destination a has issued: its late write holds the bytes of the spots (R149). -/
def loaded (s : State) (a : Opnd) (n ea : Nat) (l : List Spot) : State :=
  let s := reached s .load n ea
  s.modC (fun c => issueLate c a (lanesFor n) (some (rowOfBytes (readSpots s s.core.slot.kern l))) (spotKey l))

/-- The state once a load has issued that something holds back: its late write has no data yet (R141). -/
def heldLoad (s : State) (a : Opnd) (ord : Ord) (n ea : Nat) (l : List Spot) : State :=
  let s := reached s .load n ea
  cutStop s l { s with core := issueLate s.core a (lanesFor n) none (spotKey l), held := s.held ++ [blankHeld s l .load ord .core] }

/-- The state once a store of bytes has issued that something holds back (R141, R151). -/
def heldStore (s : State) (bs : List Byte) (ord : Ord) (scp : Scp) (ea : Nat) (l : List Spot) : State :=
  let s := reached s .store bs.length ea
  cutStop s l { (s.modS (fun x => { x with pend := x.pend ++ [pendOf s l scp] })).modC (fun c => { c with nextId := c.nextId + 1 }) with
    held := s.held ++ [{ blankHeld s l .store ord scp with store := some bs }] }

/-- The state once an atomic has issued that something holds back: its late write has no data yet (R141, R155, R156). -/
def heldAtomic (s : State) (a : Opnd) (rmw : Option (AmoOp × DWord)) (cas : Option (DWord × DWord)) (ord : Ord) (scp : Scp) (n ea : Nat)
    (l : List Spot) : State :=
  let s := reached s .rmw n ea
  cutStop s l { (s.modS (fun x => { x with pend := x.pend ++ [pendOf s l scp] })).modC (fun c => issueLate c a (lanesFor n) none (spotKey l)) with
    held := s.held ++ [{ blankHeld s l .rmw ord scp with rmw := rmw, cas := cas }] }

/-- The state once a store of bytes has issued: its bytes are at the spots, and it counts as not yet performed at its
scope (R150, R151; log 6). -/
def stored (s : State) (bs : List Byte) (scp : Scp) (ea : Nat) (l : List Spot) : State :=
  let s := reached s .store bs.length ea
  writeSpots l bs (s.modS (fun x => { x with pend := x.pend ++ [pendOf s l scp] }))

/-- The bytes that a store to a spot may change: the spot's, and its whole line where it is encrypted (R329). -/
def coveredBy (p : Spot) (c : Nat) : Prop :=
  if p.enc.isSome then p.key / 64 * 64 ≤ c ∧ c < p.key / 64 * 64 + 64 else p.key ≤ c ∧ c < p.key + p.n

/-- The loads of R149: instruction, size in bytes, offset. -/
def loadForms (a b : Opnd) (off : BitVec 5) (ord : Ord) (scp : Scp) (ext : Word) : List (Instr × Nat × Word) :=
  [(.ldb a b off ord scp, 1, BitVec.ofNat 32 off.toNat), (.ldh a b off ord scp, 2, BitVec.ofNat 32 (2 * off.toNat)),
   (.ldw a b off ord scp, 4, BitVec.ofNat 32 (4 * off.toNat)), (.ldd a b off ord scp, 8, BitVec.ofNat 32 (8 * off.toNat)),
   (.ldv a b off ord scp, 64, BitVec.ofNat 32 (64 * off.toNat)), (.ldbLone a b ord scp ext, 1, ext), (.ldhLone a b ord scp ext, 2, ext),
   (.ldwLone a b ord scp ext, 4, ext), (.lddLone a b ord scp ext, 8, ext), (.ldvLone a b ord scp ext, 64, ext)]

/-- The stores of R150: instruction, size in bytes, offset. -/
def storeForms (a b : Opnd) (off : BitVec 5) (ord : Ord) (scp : Scp) (ext : Word) : List (Instr × Nat × Word) :=
  [(.stb a b off ord scp, 1, BitVec.ofNat 32 off.toNat), (.sth a b off ord scp, 2, BitVec.ofNat 32 (2 * off.toNat)),
   (.stw a b off ord scp, 4, BitVec.ofNat 32 (4 * off.toNat)), (.std a b off ord scp, 8, BitVec.ofNat 32 (8 * off.toNat)),
   (.stv a b off ord scp, 64, BitVec.ofNat 32 (64 * off.toNat)), (.stbLone a b ord scp ext, 1, ext), (.sthLone a b ord scp ext, 2, ext),
   (.stwLone a b ord scp ext, 4, ext), (.stdLone a b ord scp ext, 8, ext), (.stvLone a b ord scp ext, 64, ext)]

/-! ### Messages -/

/-- The three sends on a descriptor row r: instruction, destinations, kind, data address, whether the destination is
good, and the reason and lane it is reported with where it is not (R209, R219). -/
def sendForms (a b : Opnd) (s : State) (r : Row) : List (Instr × List Word × Nat × Nat × Bool × Nat × Nat) :=
  let addr := (lane r 1).toNat + 2 ^ 32 * (lane r 2).toNat
  let g := groupOf s ((lane r 1).toNat % 256)
  [(.send a b, [lane r 1], 2, 0, destOk s (lane r 1), 2, 1),
   (.sendGrp a b, g, 6, 0, decide ((lane r 1).toNat < 256) && !g.isEmpty, 4, 1),
   (.senda a b, [ownerCore (hashCores s) addr], 3, addr, decide (addr < 2 ^ 52), 8, 2)]

end Sys2Proof.Machine
end

