-- ==== Sys2Proof/Certificates/Slice0/Obligations.lean ====
section
/-! DEFINITION. The statements for the provers, chapter by chapter of the manual: what each instruction and each event
does where it completes, where it traps or waits, what it leaves alone, and what holds of every step. -/

open Sys2Proof Sys2Proof.Machine

/-- R88: each scalar instruction that can run completes, with the table's x in lane 0 of D and of the latch, and nothing else
changed; clz gives the number of leading zero bits, 32 for 0, and popc the number of one bits. -/
def Obligations.ScalarResults : Prop :=
  (∀ (d x y : Opnd) (i : Instr) (f : Word → Word → Word) (s : State) (e : BEnt) (a : AOps),
    (i, f) ∈ scalarRules d x y → ReadyA i s e a →
    ∃ t, exec i s = .next t ∧ DoneA s t a (laneRow (f (argA0 s e a 0) (argA0 s e a 1))) 1) ∧
  (∀ (d x : Opnd) (s : State) (e : BEnt) (a : AOps),
    (ReadyA (.clz d x) s e a → ∃ t n, exec (.clz d x) s = .next t ∧ DoneA s t a (laneRow (BitVec.ofNat 32 n)) 1 ∧
      n ≤ 32 ∧ (∀ i, i < 32 → 32 - n ≤ i → (argA0 s e a 0).getLsbD i = false) ∧ (n < 32 → (argA0 s e a 0).getLsbD (31 - n) = true)) ∧
    (ReadyA (.popc d x) s e a → ∃ t, exec (.popc d x) s = .next t ∧
      DoneA s t a (laneRow (BitVec.ofNat 32 ((List.range 32).map (fun i => ((argA0 s e a 0).getLsbD i).toNat)).sum)) 1))

/-- R91: each immediate form that can run completes with the table's x. -/
def Obligations.ImmediateResults : Prop :=
  ∀ (d x : Opnd) (k : BitVec 11) (n : BitVec 5) (i : Instr) (f : Word → Word) (s : State) (e : BEnt) (a : AOps),
    (i, f) ∈ immediateRules d x k n → ReadyA i s e a →
    ∃ t, exec i s = .next t ∧ DoneA s t a (laneRow (f (argA0 s e a 0))) 1

/-- R89: a division completes with the table's quotient or remainder where b is not 0; where b is 0 and MODE.DZ is
clear, with all ones or with a; where b is 0 and MODE.DZ is set it traps DZ with the repetition index. -/
def Obligations.DivisionResults : Prop :=
  ∀ (d x y : Opnd) (i : Instr) (f : Word → Word → Word) (g : Word → Word) (s : State) (e : BEnt) (a : AOps),
    (i, f, g) ∈ divisionRules d x y → ReadyA i s e a →
    (argA0 s e a 1 ≠ 0 → ∃ t, exec i s = .next t ∧ DoneA s t a (laneRow (f (argA0 s e a 0) (argA0 s e a 1))) 1) ∧
    (argA0 s e a 1 = 0 → modeDZ (modeFor s.core e) = false →
      ∃ t, exec i s = .next t ∧ DoneA s t a (laneRow (g (argA0 s e a 0))) 1) ∧
    (argA0 s e a 1 = 0 → modeDZ (modeFor s.core e) = true →
      exec i s = trapA s (word1Of i) 0x07 (s.core.slot.rep <<< 9) 0)

/-- R90, R92, R93, R94: `sel`, `lane`, `mv` and `ins`; and `anop`, which delivers nothing (R39). -/
def Obligations.LaneAndRowMoves : Prop :=
  (∀ (d x y : Opnd) (s : State) (e : BEnt) (a : AOps), ReadyA (.sel d x y) s e a → ∃ t, exec (.sel d x y) s = .next t ∧
    DoneA s t a (laneRow (if lane (oldD s e a) 0 ≠ 0 then argA0 s e a 0 else argA0 s e a 1)) 1) ∧
  (∀ (d x : Opnd) (k : BitVec 7) (ty : ETy) (s : State) (e : BEnt) (a : AOps), (Instr.lane d x k ty).wf = true →
    ReadyA (.lane d x k ty) s e a → ∃ t r, exec (.lane d x k ty) s = .next t ∧ DoneA s t a (laneRow r) 1 ∧
      (ty.isSigned = true → r.toInt = valAt ty (argA s e a 0) k.toNat) ∧
      (ty.isSigned = false → (r.toNat : Int) = valAt ty (argA s e a 0) k.toNat)) ∧
  (∀ (d x : Opnd) (s : State) (e : BEnt) (a : AOps), ReadyA (.mv d x) s e a → ∃ t, exec (.mv d x) s = .next t ∧
    DoneA s t a (argA s e a 0) 16) ∧
  (∀ (d x : Opnd) (k : BitVec 7) (ty : ETy) (s : State) (e : BEnt) (a : AOps), (Instr.ins d x k ty).wf = true →
    ReadyA (.ins d x k ty) s e a → ∃ t v, exec (.ins d x k ty) s = .next t ∧ DoneA s t a v 16 ∧
      elem v ty.width k.toNat = (argA0 s e a 0).toNat % 2 ^ ty.width ∧
      ∀ j, j < ty.count → j ≠ k.toNat → elem v ty.width j = elem (oldD s e a) ty.width j) ∧
  (∀ (s : State) (e : BEnt) (a : AOps), ReadyA .anop s e a → ∃ t, exec .anop s = .next t ∧ DoneA s t a 0 0)

/-- R95, R96: each element-wise integer instruction that can run completes with the table's value in every element. -/
def Obligations.ElementwiseResults : Prop :=
  ∀ (d x y : Opnd) (ty : ETy) (i : Instr) (f : Int → Int → Int → Nat → Nat → Nat → Int) (s : State) (e : BEnt) (a : AOps),
    ETy.ints.contains ty = true → (i, f) ∈ elementRules d x y ty → ReadyA i s e a →
    ∃ t v, exec i s = .next t ∧ DoneA s t a v 16 ∧ ∀ k, k < ty.count →
      ElemIs ty v k (f (valAt ty (argA s e a 0) k) (valAt ty (argA s e a 1) k) (valAt ty (oldD s e a) k)
        (elem (argA s e a 0) ty.width k) (elem (argA s e a 1) ty.width k) (elem (oldD s e a) ty.width k))

/-- R95 for `vabs`, R97, R104: absolute value, broadcast, permutation, rotation and index rows. -/
def Obligations.RearrangingResults : Prop :=
  (∀ (d x : Opnd) (ty : ETy) (s : State) (e : BEnt) (a : AOps), ETy.signed.contains ty = true → ReadyA (.vabs d x ty) s e a →
    ∃ t v, exec (.vabs d x ty) s = .next t ∧ DoneA s t a v 16 ∧
      ∀ k, k < ty.count → ElemIs ty v k |valAt ty (argA s e a 0) k|) ∧
  (∀ (d x : Opnd) (ty : ETy) (s : State) (e : BEnt) (a : AOps), ETy.ints.contains ty = true → ReadyA (.vbcast d x ty) s e a →
    ∃ t v, exec (.vbcast d x ty) s = .next t ∧ DoneA s t a v 16 ∧
      ∀ k, k < ty.count → elem v ty.width k = elem (argA s e a 0) ty.width 0) ∧
  (∀ (d x y : Opnd) (ty : ETy) (s : State) (e : BEnt) (a : AOps), ETy.ints.contains ty = true → ReadyA (.vperm d x y ty) s e a →
    ∃ t v, exec (.vperm d x y ty) s = .next t ∧ DoneA s t a v 16 ∧
      ∀ k, k < ty.count → elem v ty.width k = elem (argA s e a 0) ty.width (elem (argA s e a 1) ty.width k % ty.count)) ∧
  (∀ (d x : Opnd) (n : BitVec 7) (ty : ETy) (s : State) (e : BEnt) (a : AOps), ETy.ints.contains ty = true →
    ReadyA (.vrot d x n ty) s e a → ∃ t v, exec (.vrot d x n ty) s = .next t ∧ DoneA s t a v 16 ∧
      ∀ k, k < ty.count → elem v ty.width k = elem (argA s e a 0) ty.width ((k + n.toNat) % ty.count)) ∧
  (∀ (d : Opnd) (ty : ETy) (s : State) (e : BEnt) (a : AOps), ETy.ints.contains ty = true → ReadyA (.viota d ty) s e a →
    ∃ t v, exec (.viota d ty) s = .next t ∧ DoneA s t a v 16 ∧ ∀ k, k < ty.count → ElemIs ty v k k)

/-- R98, R99, R101, R105: narrowing, widening, prefix sums and four-term dot products. -/
def Obligations.WidthChangingResults : Prop :=
  (∀ (d x y : Opnd) (ty : ETy) (s : State) (e : BEnt) (a : AOps), ETy.narrow.contains ty = true → ReadyA (.vnarrow d x y ty) s e a →
    ∃ t v, exec (.vnarrow d x y ty) s = .next t ∧ DoneA s t a v 16 ∧ ∀ k, k < ty.count / 2 →
      ElemIs ty v k (max (tyMin ty) (min (tyMax ty) (valAt ty.doubled (argA s e a 0) k))) ∧
      ElemIs ty v (k + ty.count / 2) (max (tyMin ty) (min (tyMax ty) (valAt ty.doubled (argA s e a 1) k)))) ∧
  (∀ (high : Bool) (d x : Opnd) (ty : ETy) (s : State) (e : BEnt) (a : AOps), ETy.narrow.contains ty = true →
    ReadyA (.vwiden high d x ty) s e a → ∃ t v, exec (.vwiden high d x ty) s = .next t ∧ DoneA s t a v 16 ∧
      ∀ k, k < ty.count / 2 → ElemIs ty.doubled v k (valAt ty (argA s e a 0) (k + if high then ty.count / 2 else 0))) ∧
  (∀ (d x : Opnd) (ty : ETy) (s : State) (e : BEnt) (a : AOps), ETy.ints.contains ty = true → ReadyA (.vscan d x ty) s e a →
    ∃ t v, exec (.vscan d x ty) s = .next t ∧ DoneA s t a v 16 ∧
      ∀ k, k < ty.count → ElemIs ty v k ((List.range (k + 1)).map (valAt ty (argA s e a 0))).sum) ∧
  (∀ (d x y : Opnd) (ty : ETy) (s : State) (e : BEnt) (a : AOps), [ETy.i8, .n8].contains ty = true → ReadyA (.vdot4 d x y ty) s e a →
    ∃ t v, exec (.vdot4 d x y ty) s = .next t ∧ DoneA s t a v 16 ∧ ∀ i, i < 16 → (((lane v i).toNat : Nat) : Int) =
      ((List.range 4).map (fun j => valAt ty (argA s e a 0) (4 * i + j) * valAt ty (argA s e a 1) (4 * i + j))).sum % 2 ^ 32)

/-- R100: `vred` gives the plain combination of all elements, extended to 32 bits. -/
def Obligations.ReductionResults : Prop :=
  ∀ (d x : Opnd) (ty : ETy) (op : RedOp) (s : State) (e : BEnt) (a : AOps), ETy.ints.contains ty = true → ReadyA (.vred op d x ty) s e a →
    ∃ t r, exec (.vred op d x ty) s = .next t ∧ DoneA s t a (laneRow (ext32 ty r)) 1 ∧ r < 2 ^ ty.width ∧
      match op with
      | .add => (r : Int) = ((List.range ty.count).map (valAt ty (argA s e a 0))).sum % 2 ^ ty.width
      | .min => (∀ k, k < ty.count → val ty r ≤ valAt ty (argA s e a 0) k) ∧ ∃ k, k < ty.count ∧ val ty r = valAt ty (argA s e a 0) k
      | .max => (∀ k, k < ty.count → valAt ty (argA s e a 0) k ≤ val ty r) ∧ ∃ k, k < ty.count ∧ val ty r = valAt ty (argA s e a 0) k
      | .xor => r = ((List.range ty.count).map (elem (argA s e a 0) ty.width)).foldl (fun p q => p ^^^ q) 0

/-- R102, R103: `vpackt` packs the signs of the elements as trits and `vunpkt` decodes them, setting cx.mstat.BADT for
a bad byte in a decoded group: what the one has packed the other reads as the signs. -/
def Obligations.TritResults : Prop :=
  (∀ (d x : Opnd) (ty : ETy) (s : State) (e : BEnt) (a : AOps), ETy.signed.contains ty = true → ReadyA (.vpackt d x ty) s e a →
    ∃ t v, exec (.vpackt d x ty) s = .next t ∧ DoneA s t a v 16 ∧
      (∀ b, b < 64 → (if ty = .i8 then 16 else 8) ≤ b → elem v 8 b = 0) ∧
      ∀ g, g < (if ty = .i8 then 2 else 1) → (tritGroup (fun b => elem v 8 (8 * g + b))).2 = false ∧
        ∀ i, i < 32 → (tritGroup (fun b => elem v 8 (8 * g + b))).1 i =
          if 32 * g + i < ty.count then Int.sign (valAt ty (argA s e a 0) (32 * g + i)) else 0) ∧
  (∀ (d x : Opnd) (ty : ETy) (s : State) (e : BEnt) (a : AOps), ETy.signed.contains ty = true → ReadyA (.vunpkt d x ty) s e a →
    ∃ t v, exec (.vunpkt d x ty) s = .next t ∧
      DoneA (if (tritGroup (fun b => elem (argA s e a 0) 8 b)).2 || (ty == .i8 && (tritGroup (fun b => elem (argA s e a 0) 8 (8 + b))).2)
        then s.modC (fun c => { c with mstat := c.mstat ||| 1 }) else s) t a v 16 ∧
      ∀ k, k < ty.count → ElemIs ty v k (if k < 32 then (tritGroup (fun b => elem (argA s e a 0) 8 b)).1 k
        else (tritGroup (fun b => elem (argA s e a 0) 8 (8 + b))).1 (k - 32)))

/-- R75, R86: a floating-point instruction that can run raises the exceptions of its elements: where one is enabled in
MODE it traps FP with them in INFO and leaves cx.fpm as it was; otherwise it ORs them into the flags of cx.fpm and
completes. The elements' results are those of the model's tables (fpRules).
R73, R77, R79, R80, R106, R112, R113: on finite elements the sum, difference, product, fused sums, quotient and conversions, where
they are not zero, are the exact result rounded once, an overflow or a b16 flush as R79 and R77 have it, with exactly the
exceptions that apply; a square root is the exact root rounded once.
R76, R80, R106: zero results have the signs of IEEE 754; a finite number divided by zero gives an infinity with division by zero; 0 / 0,
0 × ∞, ∞ − ∞, ∞ / ∞ and the root of a negative number give the canonical NaN with invalid; a NaN operand gives it too, with
invalid for a signalling one; infinities go through.
R107, R108: `fmin` and `fmax` give one of their operands, a b16 subnormal as zero, the lesser or greater number, of two equal zeros the
one with the sign; one NaN gives the other operand, two the canonical one; the compares are all ones or 0 by the order of the
numbers, and false for a NaN.
R79, R80: `fcvti` gives the input rounded to an integer, inexact where it differs, and beyond the range, for an infinity or a NaN the
nearest end or 0 with invalid; `fcvt` keeps a zero's sign, gives a NaN as the canonical one, and an infinity as R79 has it.
R82, R114: `fred` halves the row: at each level element e is combined with the one half the level above it, and the exceptions are those
of all its steps.
R109: the special inputs of the approximations, and, in f32, the bounds of `frcp` and `frsq` (what Config proposes is taken where it lies
within the bound).
Besides the rules it rests on the model's own choices in logs 20, 53, 75. -/
def Obligations.FloatingPointResults : Prop :=
  (∀ (d x y : Opnd) (ty src : ETy) (satBit : Bool) (i : Instr) (n : Nat) (f : RMode → Row → Row → Row → Row × Exc) (s : State) (e : BEnt) (a : AOps),
    (i, n, f) ∈ fpRules d x y ty src satBit → ReadyA i s e a →
    let r := f (fpmMode (fpmOf s.core e)) (oldD s e a) (argA s e a 0) (argA s e a 1)
    (excEnabled (modeFor s.core e) r.2 = false →
      ∃ t, exec i s = .next t ∧ DoneA (s.modS (fun z => { z with fpm := z.fpm ||| BitVec.ofNat 32 (r.2.bits <<< 4) })) t a r.1 n) ∧
    (excEnabled (modeFor s.core e) r.2 = true → exec i s = trapA s (word1Of i) 0x08 (r.2.bits <<< 9) 0)) ∧
  (∀ (t : ETy) (rm : RMode), ETy.floats.contains t = true →
    (∀ (x y z : Nat) (r : Nat × Exc) (v : ℚ), IsFinite t x → IsFinite t y → IsFinite t z → (r, v) ∈ exactRules t rm x y z → v ≠ 0 → RoundsTo t rm false v r) ∧
    (∀ (src : ETy) (satBit : Bool) (x : Nat), ETy.floats.contains src = true → IsFinite src x → fpValue src x ≠ 0 →
      RoundsTo t rm satBit (fpValue src x) (fConvert t src rm satBit x)) ∧
    (∀ i : Int, i ≠ 0 → RoundsTo t rm false i (intToF t rm i)) ∧
    (∀ x : Nat, ETy.fps.contains t = true → IsFinite t x → 0 < fpValue t x →
      let r := fSqrt t rm x
      RootOf t rm (fpValue t x) r.1 ∧ (r.2.nx = true ↔ fpValue t r.1 ^ 2 ≠ fpValue t x) ∧ r.2.nv = false ∧ r.2.dz = false ∧ r.2.of = false ∧ r.2.uf = false)) ∧
  (∀ (t : ETy) (rm : RMode) (x y z : Nat), ETy.fps.contains t = true → x < 2 ^ t.width → y < 2 ^ t.width → z < 2 ^ t.width →
    let v := fpValue t
    let zero (neg : Bool) : Nat × Exc := (signCode t neg, ⟨false, false, false, false, false⟩)
    let inf (neg : Bool) : Nat × Exc := (signCode t neg + (fmt t).infCode, ⟨false, false, false, false, false⟩)
    let nan (inv : Bool) : Nat × Exc := ((fmt t).nan, ⟨inv, false, false, false, false⟩)
    let some_ (l : List Nat) : Prop := ∃ c ∈ l, IsNan t c
    let sig (l : List Nat) : Prop := ∃ c ∈ l, IsSig t c
    let bad : Prop := (isInf t x = true ∧ v y = 0) ∨ (v x = 0 ∧ isInf t y = true)
    let sg := fSign t x != fSign t y
    (∀ r l, (r, l) ∈ [(fAdd t rm x y, [x, y]), (fSub t rm x y, [x, y]), (fMul t rm x y, [x, y]), (fDiv t rm x y, [x, y]), (fSqrt t rm x, [x])] → some_ l →
      (sig l → r = nan true) ∧ (¬ sig l → r = nan false)) ∧
    (∀ r a b, (r, a, b) ∈ macRules t rm x y z → (some_ [x, y, z] ∨ bad) → (sig [x, y, z] ∨ (¬ some_ [x, y] ∧ bad) → r = nan true) ∧
      (¬ (sig [x, y, z] ∨ (¬ some_ [x, y] ∧ bad)) → some_ [x, y, z] → r = nan false)) ∧
    (∀ r a b, ((r, a, b) ∈ sumRules t rm x y ∧ ¬ some_ [x, y]) ∨ ((r, a, b) ∈ macRules t rm x y z ∧ ¬ some_ [x, y, z] ∧ ¬ bad) →
      (a.inf = true → (b.inf = false ∨ b.neg = a.neg) → r = inf a.neg) ∧ (a.inf = false → b.inf = true → r = inf b.neg) ∧
      (a.inf = true → b.inf = true → a.neg ≠ b.neg → r = nan true) ∧
      (a.inf = false → b.inf = false → a.val + b.val = 0 → r = zero (if a.val = 0 ∧ a.neg = b.neg then a.neg else rm == .rdn))) ∧
    (¬ some_ [x, y] → (bad → fMul t rm x y = nan true) ∧ (¬ bad → (isInf t x = true ∨ isInf t y = true) → fMul t rm x y = inf sg) ∧
      (¬ bad → v x * v y = 0 → fMul t rm x y = zero sg) ∧
      (isInf t x = true → fDiv t rm x y = if isInf t y then nan true else inf sg) ∧ (isInf t x = false → isInf t y = true → fDiv t rm x y = zero sg) ∧
      (isInf t x = false → isInf t y = false → v y = 0 → v x = 0 → fDiv t rm x y = nan true) ∧
      (isInf t x = false → v y = 0 → v x ≠ 0 → fDiv t rm x y = ((inf sg).1, ⟨false, true, false, false, false⟩)) ∧
      (isInf t y = false → v y ≠ 0 → v x = 0 → fDiv t rm x y = zero sg)) ∧
    (isInf t x = true → fSqrt t rm x = if fSign t x then nan true else inf false) ∧
    (IsFinite t x → v x < 0 → fSqrt t rm x = nan true) ∧ (v x = 0 → fSqrt t rm x = zero (fSign t x)) ∧ intToF t rm 0 = zero false) ∧
  (∀ (t : ETy) (x y : Nat), ETy.fps.contains t = true → x < 2 ^ t.width → y < 2 ^ t.width →
    let flags (inv : Bool) : Exc := ⟨inv, false, false, false, false⟩
    let sig : Prop := IsSig t x ∨ IsSig t y
    (∀ less : Bool,
      let r := fMinMax t less x y
      (sig → r.2 = flags true) ∧ (¬ sig → r.2 = flags false) ∧ (IsNan t x → IsNan t y → r.1 = (fmt t).nan) ∧
      (IsNan t x → ¬ IsNan t y → r.1 = readCode t y) ∧ (¬ IsNan t x → IsNan t y → r.1 = readCode t x) ∧
      (¬ IsNan t x → ¬ IsNan t y → (r.1 = readCode t x ∨ r.1 = readCode t y) ∧
        fpPlace t r.1 = (if less then min (fpPlace t x) (fpPlace t y) else max (fpPlace t x) (fpPlace t y)) ∧
        (fpPlace t x = fpPlace t y → fSign t r.1 = if less then fSign t x || fSign t y else fSign t x && fSign t y))) ∧
    (∀ (op : FRel) (holds : Prop), (op, holds) ∈ [(FRel.eq, fpPlace t x = fpPlace t y), (.lt, fpPlace t x < fpPlace t y), (.le, fpPlace t x ≤ fpPlace t y)] →
      let r := fCompare t op x y
      (¬ IsNan t x → ¬ IsNan t y → (holds → r = (2 ^ t.width - 1, flags false)) ∧ (¬ holds → r = (0, flags false))) ∧
      (IsNan t x ∨ IsNan t y → r.1 = 0 ∧ (sig ∨ op ≠ .eq → r.2 = flags true) ∧ (¬ sig → op = .eq → r.2 = flags false)))) ∧
  (∀ (t src : ETy) (rm : RMode) (satBit : Bool) (x : Nat), x < 2 ^ src.width →
    let sg (neg : Bool) := signCode t neg
    let none_ : Exc := ⟨false, false, false, false, false⟩
    let invalid : Exc := ⟨true, false, false, false, false⟩
    (ETy.ints.contains t = true → ETy.fps.contains src = true →
      let lo : Int := if ETy.signed.contains t then -2 ^ (t.width - 1) else 0
      let hi : Int := if ETy.signed.contains t then 2 ^ (t.width - 1) - 1 else 2 ^ t.width - 1
      let bits (n : Int) : Nat := (n % 2 ^ t.width).toNat
      let r := fToInt t src rm x
      (IsNan src x → r = (0, invalid)) ∧ (isInf src x = true → r = (bits (if fSign src x then lo else hi), invalid)) ∧
      (∀ n, IsFinite src x → IntRounded rm (fpValue src x) n → (n < lo → r = (bits lo, invalid)) ∧ (hi < n → r = (bits hi, invalid)) ∧
        (lo ≤ n → n ≤ hi → r = (bits n, ⟨false, false, false, false, decide ((n : ℚ) ≠ fpValue src x)⟩)))) ∧
    (ETy.floats.contains t = true → ETy.floats.contains src = true →
      let r := fConvert t src rm satBit x
      (IsFinite src x → fpValue src x = 0 → r = (sg (fSign src x), none_)) ∧
      (IsNan src x → r.1 = (fmt t).nan ∧ (IsSig src x → r.2 = invalid) ∧ (¬ IsSig src x → r.2 = none_)) ∧
      (isInf src x = true →
        (t = .e4m3 → r = if satBit then (sg (fSign src x) + 0x7E, none_) else (0x7F, invalid)) ∧
        (t ≠ .e4m3 → r = (sg (fSign src x) + (if satBit = true ∧ t ≠ .f32 then (fmt t).maxCode else (fmt t).infCode), none_))))) ∧
  (∀ (t : ETy) (rm : RMode) (op : FRedOp) (k : Nat) (v : Nat → Nat → Nat),
    let step (a b : Nat) : Nat × Exc := match op with
      | .add => fAdd t rm a b
      | .min => fMinMax t true a b
      | .max => fMinMax t false a b
    (∀ j, j < k → ∀ e, e < 2 ^ (k - 1 - j) → v (j + 1) e = (step (v j e) (v j (e + 2 ^ (k - 1 - j)))).1) →
    let r := fTree (fredOp t rm op) k (v 0) Exc.none
    r.1 = v k 0 ∧ ∀ flag ∈ [Exc.nv, Exc.dz, Exc.of, Exc.uf, Exc.nx],
      flag r.2 = true ↔ ∃ j, j < k ∧ ∃ e, e < 2 ^ (k - 1 - j) ∧ flag (step (v j e) (v j (e + 2 ^ (k - 1 - j)))).2 = true) ∧
  (∀ (t : ETy) (rm : RMode) (x : Nat), ETy.fps.contains t = true → x < 2 ^ t.width →
    let v := fpValue t x
    let neg := fSign t x
    let pinf (neg : Bool) := signCode t neg + (fmt t).infCode
    let e (nv dz of uf nx : Bool) : Exc := ⟨nv, dz, of, uf, nx⟩
    let ok := e false false false false false
    let f := fApprox t rm
    (∀ op, IsNan t x → (f op x).1 = (fmt t).nan ∧ (IsSig t x → (f op x).2 = e true false false false false) ∧ (¬ IsSig t x → (f op x).2 = ok)) ∧
    (isInf t x = true → f .rcp x = (signCode t neg, ok) ∧ f .exp2 x = (if neg then 0 else pinf false, ok) ∧
      (neg = false → f .rsq x = (0, ok) ∧ f .log2 x = (pinf false, ok))) ∧
    ((isInf t x = true ∨ (IsFinite t x ∧ v ≠ 0)) → neg = true → ∀ op ∈ [Approx.rsq, .log2], f op x = ((fmt t).nan, e true false false false false)) ∧
    (IsFinite t x → v = 0 → f .rcp x = (pinf neg, e false true false false false) ∧ f .rsq x = (pinf neg, e false true false false false) ∧
      f .log2 x = (pinf true, e false true false false false) ∧ (fpValue t (f .exp2 x).1 = 1 ∧ (f .exp2 x).2 = ok)) ∧
    (IsFinite t x → v ≠ 0 → |v| ≤ 2 ^ (-128 : Int) → f .rcp x = (pinf neg, e false false true false true)) ∧
    (IsFinite t x → (128 ≤ v → f .exp2 x = (pinf false, e false false true false true)) ∧ (v < -149 → f .exp2 x = (0, e false false false true true))) ∧
    (∀ k : Int, t = .f32 → IsFinite t x → 2 ^ (-128 : Int) < |v| → (2 : ℚ) ^ k ≤ |v⁻¹| → |v⁻¹| < 2 ^ (k + 1) →
      |fpValue t (f .rcp x).1 - v⁻¹| ≤ 2 ^ (max k (-126) - 23)) ∧
    (∀ k : Int, t = .f32 → IsFinite t x → 0 < v → (4 : ℚ) ^ k ≤ v⁻¹ → v⁻¹ < 4 ^ (k + 1) →
      let w := fpValue t (f .rsq x).1
      (2 : ℚ) ^ (k - 23) ≤ w ∧ (w - 2 ^ (k - 23)) ^ 2 ≤ v⁻¹ ∧ v⁻¹ ≤ (w + 2 ^ (k - 23)) ^ 2))

/-- R110, R115: `fclass`, `fabs`, `fneg` and `fsgnj` act on bits and raise nothing. Away from NaNs, the sign operations
give the magnitude bits of S1 with the sign cleared, inverted, or that of S2; a NaN gives the canonical NaN; and
`fclass` sets the bit of the class: 0 -∞, 1 - normal, 2 - subnormal, 3 -0, 4 +0, 5 + subnormal, 6 + normal, 7 +∞, 8 signalling
NaN, 9 quiet NaN, by the exponent field x / 2^mb and the fraction field x % 2^mb of its magnitude. -/
def Obligations.SignAndClassResults : Prop :=
  ∀ (d x y : Opnd) (ty : ETy) (s : State) (e : BEnt) (a : AOps), ETy.fps.contains ty = true →
    (∀ (i : Instr) (g : Nat → Nat → Nat), (i, g) ∈ signRules d x y ty → ReadyA i s e a → ∃ t v, exec i s = .next t ∧
      DoneA s t a v 16 ∧ ∀ k, k < ty.count →
        ((fDecode ty (elem (argA s e a 0) ty.width k)).isNan = false →
          elem v ty.width k = (elem (argA s e a 0) ty.width k) % 2 ^ (ty.width - 1) +
            2 ^ (ty.width - 1) * g (elem (argA s e a 0) ty.width k / 2 ^ (ty.width - 1)) (elem (argA s e a 1) ty.width k / 2 ^ (ty.width - 1))) ∧
        ((fDecode ty (elem (argA s e a 0) ty.width k)).isNan = true → elem v ty.width k = (fmt ty).nan)) ∧
    (ReadyA (.fclass d x ty) s e a → ∃ t v, exec (.fclass d x ty) s = .next t ∧ DoneA s t a v 16 ∧
      ∀ k, k < ty.count →
        let c := elem (argA s e a 0) ty.width k
        let neg : Bool := decide (2 ^ (ty.width - 1) ≤ c)
        let mag := c % 2 ^ (ty.width - 1)
        let ex := mag / 2 ^ (fmt ty).mb
        let fr := mag % 2 ^ (fmt ty).mb
        (0 < ex → ex < 255 → elem v ty.width k = if neg then 2 ^ 1 else 2 ^ 6) ∧
        (ex = 0 → 0 < fr → elem v ty.width k = if neg then 2 ^ 2 else 2 ^ 5) ∧
        (ex = 0 → fr = 0 → elem v ty.width k = if neg then 2 ^ 3 else 2 ^ 4) ∧
        (ex = 255 → fr = 0 → elem v ty.width k = if neg then 2 ^ 0 else 2 ^ 7) ∧
        (ex = 255 → 0 < fr → fr < 2 ^ ((fmt ty).mb - 1) → elem v ty.width k = 2 ^ 8) ∧
        (ex = 255 → 2 ^ ((fmt ty).mb - 1) ≤ fr → elem v ty.width k = 2 ^ 9))

/-- R126: `tokb` and `tokj` push a token; a full token queue stalls the arithmetic stream, and a misaligned target
of `tokj` traps ADDR with the target as fault address.
Besides the rules it rests on the model's own choices in log 74. -/
def Obligations.TokenResults : Prop :=
  ∀ (x : Opnd) (k : BitVec 11) (s : State) (e : BEnt) (a : AOps),
    (ReadyA (.tokb x k) s e a →
      (s.core.slot.toks.length < 2 → ∃ t, exec (.tokb x k) s = .next t ∧
        DoneA (s.modS (fun z => { z with toks := z.toks ++ [⟨argA0 s e a 0 != 0, e.pc + BitVec.ofInt 32 (8 * k.toInt)⟩] })) t a 0 0) ∧
      (2 ≤ s.core.slot.toks.length → exec (.tokb x k) s = stallA s 4)) ∧
    (ReadyA (.tokj x) s e a →
      ((argA0 s e a 0).toNat % 8 ≠ 0 → exec (.tokj x) s = trapA s (word1Of (.tokj x)) 0x03 0 (argA0 s e a 0).toNat) ∧
      ((argA0 s e a 0).toNat % 8 = 0 → s.core.slot.toks.length < 2 → ∃ t, exec (.tokj x) s = .next t ∧
        DoneA (s.modS (fun z => { z with toks := z.toks ++ [⟨true, argA0 s e a 0⟩] })) t a 0 0) ∧
      ((argA0 s e a 0).toNat % 8 = 0 → 2 ≤ s.core.slot.toks.length → exec (.tokj x) s = stallA s 4))

/-- R15, R18, R20, R26, R27, R28: the arithmetic stream, for every arithmetic instruction and the operands that it has. It
stalls, where the word waits, with the code of the wait: outside the table while a late write is pending to a row that it
reads or writes or a channel that it reads is empty, with code 2 where the queues that it reads are empty, and with code 3 where
the queue it writes is full. A word that waits for nothing traps WIN for a window operand beyond WL. Where row D + i of a streamed
form lies beyond WL, repetition i, the first included, traps WIN with REASON 1 and i before it takes a beat.
Besides the rules it rests on the model's own choices in logs 16, 54. -/
def Obligations.ArithmeticStalls : Prop :=
  ∀ (s : State) (e : BEnt) (i : Instr) (a : AOps), s.core.slot.backlog.head? = some e → aOps i = some a →
    (farD s.core.slot a = false → ∀ n, n ≠ 0 → aWait s.core i a = n → exec i s = stallA s n) ∧
    (farD s.core.slot a = false →
      (∀ k : Fin 96, (.w k ∈ a.srcs ∨ (a.dst = some (.w k) ∧ dstShift a s.core.slot.rep = 0)) →
        s.core.pendingRow (s.core.slot.wb + k.val) = true → exec i s = stallA s 100) ∧
      (s.core.late = [] →
        ((∃ k : Fin 4, .q k ∈ a.srcs) → (∀ k : Fin 4, .q k ∈ a.srcs → queueOf s.core.slot k = []) → (∀ k : Fin 4, .c k ∉ a.srcs) →
          exec i s = stallA s 2) ∧
        ((∃ k : Fin 4, .c k ∈ a.srcs) → (∀ k : Fin 4, .c k ∈ a.srcs → chanOf s.core k = []) → (∀ k : Fin 4, .q k ∉ a.srcs) →
          exec i s = stallA s 100) ∧
        (∀ k : Fin 4, a.dst = some (.q k) → 16 ≤ (queueOf s.core.slot k).length → (∀ q : Fin 4, .q q ∉ a.srcs) → (∀ q : Fin 4, .c q ∉ a.srcs) →
          exec i s = stallA s 3))) ∧
    (farD s.core.slot a = false → aWait s.core i a = 0 → ∀ k : Fin 96, (.w k ∈ a.srcs ∨ a.dst = some (.w k)) → s.core.slot.wl ≤ k.val →
      exec i s = trapA s (word1Of i) 0x02 0 0) ∧
    (∀ k : Fin 96, a.dst = some (.w k) → a.acc = false → (∃ c : Fin 4, .c c ∈ a.srcs) → s.core.slot.wl ≤ k.val + s.core.slot.rep →
      exec i s = trapA s (word1Of i) 0x02 (1 <<< 19 ||| s.core.slot.rep <<< 9) 0)

/-- What an arithmetic instruction does beyond its operands: FP flags (R75), BADT (R103), a token (R126). -/
def Obligations.ArithmeticFrame : Prop :=
  ∀ (i : Instr) (s t : State), (aOps i).isSome = true → exec i s = .next t →
    (∃ n, stallA s n = .next t) ∨ (∃ c info faddr, trapA s (word1Of i) c info faddr = .next t) ∨
    ∃ a s1 v n, aOps i = some a ∧ DoneA s1 t a v n ∧
      s1 = { s with core := { s.core with mstat := s1.core.mstat, slot := { s.core.slot with fpm := s1.core.slot.fpm, toks := s1.core.slot.toks } } } ∧
      (usesFpm i = false → s1.core.slot.fpm = s.core.slot.fpm) ∧ (∃ x : Exc, s1.core.slot.fpm = s.core.slot.fpm ||| BitVec.ofNat 32 (x.bits <<< 4)) ∧
      (usesMstat i = false → s1.core.mstat = s.core.mstat) ∧ (s1.core.mstat = s.core.mstat ∨ s1.core.mstat = s.core.mstat ||| 1) ∧
      ((∀ x k, i ≠ .tokb x k) → (∀ x, i ≠ .tokj x) → s1.core.slot.toks = s.core.slot.toks)

/-- R119, R129, R160: `cnop` does nothing, `fsync` changes timing only, `ifence` discards what the slot has fetched
beyond itself; each that can issue does so. With PRV, `ifence` tells the loader that the core has executed it (R348).
R130: `movi` writes EXT, and `adda` lane 0 of B plus the signed addend, to lane 0 of A and of the control latch. -/
def Obligations.NoEffectAndImmediateControl : Prop :=
  (∀ (n : BitVec 11) (s : State),
    (ReadyC {} s → (∃ t, exec .cnop s = .next t ∧ DoneC s s t {} 0 none) ∧ ∃ t, exec (.fsync n) s = .next t ∧ DoneC s s t {} 0 none) ∧
    (ReadyC { refetch := true } s → ∃ t u, exec .ifence s = .next t ∧ DoneC s u t { refetch := true } 0 none ∧ t.core.slot.fetched = [] ∧
      (s.core.slot.prv = false → u = s) ∧ u = { s with publishing := u.publishing } ∧
      (s.core.slot.prv = true → u.publishing = s.publishing.map (fun p =>
        if s.core.id ∈ p.wait then { p with wait := p.wait.erase s.core.id, fenced := p.fenced ++ [s.core.id] } else p)))) ∧
  (∀ (a b : Opnd) (v : Word) (k : BitVec 11) (s : State),
    (ReadyC { dst := some a, latch := true } s → ∃ t, exec (.movi a v) s = .next t ∧
      DoneC s s t { dst := some a, latch := true } (laneRow v) none) ∧
    (ReadyC { srcs := [b], dst := some a, latch := true } s → ∃ t, exec (.adda a b k) s = .next t ∧
      DoneC s s t { srcs := [b], dst := some a, latch := true }
        (laneRow (BitVec.ofInt 32 ((argC0 s { srcs := [b], dst := some a, latch := true } 0).toInt + k.toInt))) none))

/-- R120: `bc` is taken, to PC + 8 × O15, exactly where its condition holds of lane 0 of A.
R118, R121: `call` and `jr` write PC + 8 to lane 0 of A and transfer; `jr` to a target that is no multiple of 8 traps
ADDR with the target as fault address.
R126: `jtok` pops the head token, and transfers to its PC where it is taken; with no token it stalls with code 4. -/
def Obligations.BranchAndJumpResults : Prop :=
  (∀ (c : Cnd) (a : Opnd) (off : BitVec 15) (s : State),
    let v := (argC0 s { srcs := [a] } 0).toInt
    let taken : Prop := match c with
      | .eq0 => v = 0 | .ne0 => v ≠ 0 | .lt0 => v < 0 | .ge0 => 0 ≤ v | .gt0 => 0 < v | .le0 => v ≤ 0 | .always => True
    (taken → ReadyC { srcs := [a], moves := true } s → ∃ t, exec (.bc c a off) s = .next t ∧
      DoneC s s t { srcs := [a], moves := true } 0 (some (s.core.slot.pc + BitVec.ofInt 32 (8 * off.toInt)))) ∧
    (¬ taken → ReadyC { srcs := [a] } s → ∃ t, exec (.bc c a off) s = .next t ∧ DoneC s s t { srcs := [a] } 0 none)) ∧
  (∀ (a b : Opnd) (off : BitVec 15) (s : State),
    (ReadyC { dst := some a, moves := true } s → ∃ t, exec (.call a off) s = .next t ∧
      DoneC s s t { dst := some a, moves := true } (laneRow (s.core.slot.pc + 8)) (some (s.core.slot.pc + BitVec.ofInt 32 (8 * off.toInt)))) ∧
    (let q : CSpec := { srcs := [b], dst := some a, moves := true }
     ReadyC q s →
      ((argC0 s q 0).toNat % 8 = 0 → ∃ t, exec (.jr a b) s = .next t ∧ DoneC s s t q (laneRow (s.core.slot.pc + 8)) (some (argC0 s q 0))) ∧
      ((argC0 s q 0).toNat % 8 ≠ 0 → exec (.jr a b) s = .next (trapped (.jr a b) s (mkTrap 0x03 0 (argC0 s q 0).toNat))))) ∧
  (∀ (s : State),
    (s.core.slot.toks = [] → ReadyC {} s → exec .jtok s = stallC s 4) ∧
    (∀ k ks, s.core.slot.toks = k :: ks → ReadyC { moves := k.taken } s → ∃ t, exec .jtok s = .next t ∧
      DoneC s (s.modS (fun x => { x with toks := ks })) t { moves := k.taken } 0 (if k.taken then some k.pc else none)))

/-- R123, R124, R274: with a free entry, `loop` and `loopi` push CNT = n - 1, BEG = PC + 8 and END = PC + 8 × O15, or skip
the body where n is 0; with a full stack, or while IT is set, they trap LOOPOV; `loop.pop` clears the innermost entry.
Besides the rules it rests on the model's own choices in log 54. -/
def Obligations.LoopResults : Prop :=
  ∀ (off : BitVec 15) (s : State),
    let h := s.core.hdr
    let d := loopDepth h
    let fin := s.core.slot.pc + BitVec.ofInt 32 (8 * off.toInt)
    let full := modeIT (modeOf h) = true ∨ d = 2
    let pushed (n : Word) : State := s.modC (fun c =>
      c.setHdr (setLane (setLane (setLane h (8 + 3 * d) (n - 1)) (9 + 3 * d) (s.core.slot.pc + 8)) (10 + 3 * d) fin))
    (∀ a, ReadyC { srcs := [a], hdrW := true } s →
      let n := argC0 s { srcs := [a], hdrW := true } 0
      (full → exec (.loop a off) s = .next (trapped (.loop a off) s (mkTrap 0x0B 0 0))) ∧
      (¬ full → n = 0 → ∃ t, exec (.loop a off) s = .next t ∧ DoneC s s t { srcs := [a], hdrW := true } 0 (some (fin + 8))) ∧
      (¬ full → n ≠ 0 → ∃ t, exec (.loop a off) s = .next t ∧ DoneC s (pushed n) t { srcs := [a], hdrW := true } 0 none)) ∧
    (∀ n, ReadyC { hdrW := true } s →
      (full → exec (.loopi off n) s = .next (trapped (.loopi off n) s (mkTrap 0x0B 0 0))) ∧
      (¬ full → n = 0 → ∃ t, exec (.loopi off n) s = .next t ∧ DoneC s s t { hdrW := true } 0 (some (fin + 8))) ∧
      (¬ full → n ≠ 0 → ∃ t, exec (.loopi off n) s = .next t ∧ DoneC s (pushed n) t { hdrW := true } 0 none)) ∧
    (ReadyC { hdrW := true } s → ∃ t u, exec .loopPop s = .next t ∧ DoneC s u t { hdrW := true } 0 none ∧
      (d = 0 → u = s) ∧ (0 < d → u = s.modC (fun c => c.setHdr
        (setLane (setLane (setLane h (8 + 3 * (d - 1)) 0) (9 + 3 * (d - 1)) 0) (10 + 3 * (d - 1)) 0))))

/-- R125, R274: the end test at PC p. While IT is set, with no entry, or where the innermost entry ends elsewhere, it
leaves the header and goes to p + 8; where the innermost entry ends at p it takes one from CNT and goes to BEG, or,
with CNT 0, drops the entry and tests the next one out.
Besides the rules it rests on the model's own choices in logs 56, 76. -/
def Obligations.LoopEndTest : Prop :=
  ∀ (h : Row) (p : Word),
    (modeIT (modeOf h) = true → endTest h p = (h, p + 8)) ∧
    (modeIT (modeOf h) = false →
      (loopDepth h = 0 → endTest h p = (h, p + 8)) ∧
      (∀ d, loopDepth h = d + 1 → lane h (10 + 3 * d) ≠ p → endTest h p = (h, p + 8)) ∧
      (∀ d, loopDepth h = d + 1 → lane h (10 + 3 * d) = p → lane h (8 + 3 * d) ≠ 0 →
        endTest h p = (setLane h (8 + 3 * d) (lane h (8 + 3 * d) - 1), lane h (9 + 3 * d))) ∧
      (∀ d, loopDepth h = d + 1 → lane h (10 + 3 * d) = p → lane h (8 + 3 * d) = 0 →
        endTest h p = endTest (setLane (setLane (setLane h (8 + 3 * d) 0) (9 + 3 * d) 0) (10 + 3 * d) 0) p))

/-- R127: `trap n` issues, so that the control stream's PC is the next bundle, and traps with cause 0x0F and n in INFO;
`brk` traps at its own bundle with cause 0x10 and its code.
Besides the rules it rests on the model's own choices in log 17. -/
def Obligations.TrapInstructions : Prop :=
  ∀ (n : BitVec 11) (s : State), ReadyC { moves := true } s →
    (∃ u, DoneC s s u { moves := true } 0 (some (s.core.slot.pc + 8)) ∧
      exec (.trap n) s = .next (takeTrap u { cause := 0x0F, ari := false, info := n.toNat <<< 9, faddr := 0, fword := word0Of (.trap n) })) ∧
    exec (.brk n) s = .next (takeTrap s { cause := 0x10, ari := false, info := n.toNat <<< 9, faddr := 0, fword := word0Of (.brk n) })

/-- R262, R264, R269, R273: taking a trap with IT clear and a handler in lane 0 writes header lanes 2 to 7 and 14, sets IT
and starts both streams at the handler with an empty backlog; it changes no other lane, row, queue, token, operand-file
row, latch, window or bound, and nothing outside the core. A control word that waits only for its own bundle's arithmetic
word counts as not issued (log 31).
Besides the rules it rests on the model's own choices in logs 54, 76. -/
def Obligations.TrapEntry : Prop :=
  ∀ (s : State) (t : Trap), s.core.pendingRow s.core.slot.wb = false → modeIT (modeOf s.core.hdr) = false → lane s.core.hdr 0 ≠ 0 →
    let u := takeTrap s t
    let x := unissue s.core.slot
    let epcA : Word := match x.backlog with
      | [] => x.pc
      | e :: _ => e.pc
    SameOutside s u ∧ u.core = { s.core with slot := u.core.slot, regs := u.core.regs } ∧
    (∀ q, q ≠ x.wb → u.core.row q = s.core.row q) ∧
    (∀ j, j < 16 → lane (u.core.row x.wb) j =
      if j = 1 then lane s.core.hdr 1 ||| 0x400000
      else if j = 2 then x.pc
      else if j = 3 then epcA
      else if j = 4 then BitVec.ofNat 32 (t.cause ||| (if t.ari then 256 else 0) ||| t.info)
      else if j = 5 then BitVec.ofNat 32 t.faddr
      else if j = 6 then BitVec.ofNat 32 (t.faddr >>> 32)
      else if j = 7 then t.fword
      else if j = 14 then BitVec.ofNat 32 ((queueOf x 0).length ||| (queueOf x 1).length <<< 5 ||| (queueOf x 2).length <<< 10 |||
        (queueOf x 3).length <<< 15 ||| x.toks.length <<< 20)
      else lane s.core.hdr j) ∧
    (∃ d : Aside, u.core.slot = { x with pc := lane s.core.hdr 0 &&& 0xFFFFFFF8, backlog := [], aside := some d, waitC := none, waitA := none, rep := 0, xl := Xlat.none, revoked := false, ctlIssued := false, eretRow := none, winNext := none, trapWait := none, skipC := false, skipA := false, retry := false, gang := .idle, sendWait := none } ∧
      d = ⟨x.backlog, x.wb, x.wl, x.pc, epcA, x.winNext, x.skipC, x.skipA, x.retry, x.gang, x.sendWait⟩)

/-- R276: a trap with IT set, or with no handler, escalates: the header is unchanged, the slot halts and the kiln is asked
to stop the kernel of the context with a fault record's cause, stream and address.
R257, R273: while a late write to the header row is pending, a trap waits, and TRAP_ENTRY takes it once none is. -/
def Obligations.TrapEscalatesOrWaits : Prop :=
  (∀ (s : State) (t : Trap), s.core.pendingRow s.core.slot.wb = false → (modeIT (modeOf s.core.hdr) = true ∨ lane s.core.hdr 0 = 0) →
    ∃ r : StopReq, takeTrap s t = { s with stops := s.stops ++ [r], core := { s.core with slot := { unissue s.core.slot with halted := true, trapWait := none, waitC := none, waitA := none } } } ∧
      r.kern = s.core.slot.kern ∧ r.core = s.core.id ∧ r.faddr = t.faddr ∧ r.fword = t.fword ∧
      r.lane4 = BitVec.ofNat 32 (t.cause ||| (if t.ari then 256 else 0) ||| t.info)) ∧
  (∀ (s : State) (t : Trap),
    (s.core.pendingRow s.core.slot.wb = true →
      takeTrap s t = s.modS (fun x => { x with trapWait := some t, waitC := none, waitA := none })) ∧
    (s.core.slot.trapWait = some t → s.core.pendingRow s.core.slot.wb = false → exec .trapEntry s = .next (takeTrap s t)) ∧
    (s.core.slot.trapWait = none → exec .trapEntry s = .next s))

/-- R11, R128, R173, R204, R225, R275: `eret` with IT clear raises ILL with reason 7; with IT set it reads the header row g and
waits for its own bundle's arithmetic word, where it has one that is not idle, and for every bundle before it. Then it clears IT and
SKIP, and the control stream resumes at the EPC-C it read. With the window and the EPC lanes as trap entry left them, the backlog
set aside is run again; otherwise that of the bundles from EPC-A up to EPC-C, where they are at most 32. SKIP passes over the
first arithmetic word, or the control word. The word whose CPF trap the header records executes again; what an `mgang` or a
`send` had begun at EPC-C in that window goes on, and the range registrations of another `mgang` are freed.
Besides the rules it rests on the model's own choices in logs 31, 55, 76. -/
def Obligations.TrapReturn : Prop :=
  ∀ (s : State),
    let c7 : Word := ~~~7
    let returned (g : Row) (t : State) : Prop :=
      let pc := lane g 2 &&& c7
      let from_ := lane g 3 &&& c7
      let n := (pc - from_).toNat / 8
      let skip := (lane g 14).getLsbD 31
      let ari := (lane g 4).getLsbD 8
      let same (d : Aside) : Prop := d.wb = s.core.slot.wb ∧ d.wl = s.core.slot.wl ∧ d.epcC = lane g 2 ∧ d.epcA = lane g 3
      let begun (d : Aside) : Prop := s.core.slot.aside = some d ∧ d.epcC = pc ∧ d.wb = s.core.slot.wb ∧ d.wl = s.core.slot.wl
      let marked (l : List BEnt) : List BEnt := if skip && ari then (match l with
        | [] => []
        | b :: r => { b with skip := true } :: r) else l
      let fresh := if n ≤ 32 then storeBacklog s from_ n else []
      ((∀ d, begun d → d.gang = .idle) → t = { rltDrop s s.core.slot.gangRegs with core := t.core }) ∧
      (∀ d, begun d → d.gang ≠ .idle → SameOutside s t) ∧
      (∀ d, begun d → t.core.slot.gang = d.gang ∧ t.core.slot.sendWait = d.sendWait) ∧
      ((∀ d, ¬ begun d) → t.core.slot.gang = .idle ∧ t.core.slot.sendWait = none) ∧
      t.core = { s.core with slot := t.core.slot, regs := t.core.regs } ∧
      (∀ q, q ≠ s.core.slot.wb → t.core.row q = s.core.row q) ∧
      (∀ j, j < 16 → lane (t.core.row s.core.slot.wb) j =
        if j = 1 then lane s.core.hdr 1 &&& 0xFFBFFFFF else if j = 14 then lane s.core.hdr 14 &&& 0x7FFFFFFF else lane s.core.hdr j) ∧
      t.core.slot.pc = pc ∧ t.core.slot.aside = none ∧
      (lane g 4 &&& 0x1FF = 0x0E → skip = false → (∃ w1, bundleAt s pc = some (lane g 7, w1)) → t.core.slot.retry = true) ∧
      (∀ d, s.core.slot.aside = some d → same d → t.core.slot.backlog = dropLone (marked d.backlog) ∧
        t.core.slot.skipC = (skip && !ari || d.skipC) ∧ t.core.slot.skipA = (skip && ari && from_ == pc && d.backlog.isEmpty || d.skipA)) ∧
      ((∀ d, s.core.slot.aside = some d → ¬ same d) → t.core.slot.backlog = dropLone (marked fresh) ∧
        t.core.slot.skipC = (skip && !ari) ∧ t.core.slot.skipA = (skip && ari && from_ == pc && fresh.isEmpty) ∧
        t.core.slot.wb = s.core.slot.wb ∧ t.core.slot.wl = s.core.slot.wl ∧ t.core.slot.winNext = none)
    (s.core.slot.ctlIssued = false → cWait s.core { moves := true } ≠ 0 → exec .eret s = stallC s (cWait s.core { moves := true })) ∧
    (s.core.slot.ctlIssued = false → cWait s.core { moves := true } = 0 → modeIT (modeOf s.core.hdr) = false →
      exec .eret s = .next (trapped .eret s (mkTrap 0x01 (7 <<< 9) 0))) ∧
    (s.core.slot.ctlIssued = true → s.core.slot.backlog ≠ [] → exec .eret s = stallC s 1) ∧
    (s.core.slot.ctlIssued = true → s.core.slot.backlog = [] → s.core.pendingRow s.core.slot.wb = true → exec .eret s = stallC s 100) ∧
    (∀ w0 w1, s.core.slot.ctlIssued = false → cWait s.core { moves := true } = 0 → modeIT (modeOf s.core.hdr) = true →
      bundleAt s s.core.slot.pc = some (w0, w1) →
      (uF w0 = false → (w1 ≠ 0 ∨ s.core.slot.backlog ≠ []) → ∃ t, exec .eret s = .next t ∧ SameOutside s t ∧
        t.core.slot.ctlIssued = true ∧ t.core.slot.eretRow = some s.core.hdr ∧ t.core.regs = s.core.regs ∧
        t.core.slot.backlog.map (fun b => (b.pc, b.word)) = s.core.slot.backlog.map (fun b => (b.pc, b.word)) ++ [(s.core.slot.pc, w1)]) ∧
      (uF w0 = false → w1 = 0 → s.core.slot.backlog = [] → ∃ t, exec .eret s = .next t ∧ returned s.core.hdr t)) ∧
    (s.core.slot.ctlIssued = true → s.core.slot.backlog = [] → s.core.pendingRow s.core.slot.wb = false → ∃ t, exec .eret s = .next t ∧
      returned (s.core.slot.eretRow.getD s.core.hdr) t)

/-- R131, R132: `csrr` reads a control register; PB, PL, TAGSEL and TAGENT need PRV, and trap PRIV without it.
R74, R131, R132, R201, R263: `csrw` writes a control register: MODE but for IT and its reserved bits, cx.fpm's bits 1:0
and 8:4, cx.mstat by clearing the bits written as 1, the two scale registers, and, with PRV, TAGSEL and TAGENT, which
trap PRIV without it.
Besides the rules it rests on the model's own choices in logs 13, 14. -/
def Obligations.ControlRegisters : Prop :=
  (∀ (a : Opnd) (r : CReg) (s : State),
    let p : CSpec := { dst := some a, lanes := cregLanes r, latch := true, fpm := r == .fpm, mstat := r == .mstat }
    (cWait s.core p = 0 → s.core.slot.prv = false → r ∈ [CReg.pb, .pl, .tagsel, .tagent] →
      exec (.csrr a r) s = .next (trapped (.csrr a r) s (mkTrap 0x11 0 0))) ∧
    (ReadyC p s → s.core.slot.prv = true ∨ r ∉ [CReg.pb, .pl, .tagsel, .tagent] → ∃ t v, exec (.csrr a r) s = .next t ∧ DoneC s s t p v none ∧
      (r = .core → lane v 0 = s.core.id) ∧ (r = .clus → lane v 0 = BitVec.ofNat 32 (dieOf s.core.id <<< 6 ||| clOf s.core.id)) ∧
      (r = .rfsh → lane v 0 = BitVec.ofNat 32 (rfsh s s.core.id)) ∧
      (r = .cone → ∀ p, procById s s.core.slot.proc = some p → lane v 0 = p.cone.extractLsb' 0 32 ∧ lane v 1 = p.cone.extractLsb' 32 32) ∧
      (r = .mode → lane v 0 = BitVec.ofNat 32 ((lane s.core.hdr 1).toNat / 2 ^ 16 % 2 ^ 7)) ∧
      (r = .cycle → lane v 0 = s.core.cycle.extractLsb' 0 32 ∧ lane v 1 = s.core.cycle.extractLsb' 32 32) ∧
      (r = .fpm → lane v 0 = s.core.slot.fpm) ∧ (r = .mstat → lane v 0 = s.core.mstat) ∧
      (r = .scla → lane v 0 = s.core.scla) ∧ (r = .sclb → lane v 0 = s.core.sclb) ∧ (r = .lend → lane v 0 = s.core.lend) ∧
      (r = .grp0 → lane v 0 = s.core.grp[0]) ∧ (r = .grp1 → lane v 0 = s.core.grp[1]) ∧
      (r = .grp2 → lane v 0 = s.core.grp[2]) ∧ (r = .grp3 → lane v 0 = s.core.grp[3]) ∧
      (r = .wb → lane v 0 = BitVec.ofNat 32 s.core.slot.wb) ∧ (r = .wl → lane v 0 = BitVec.ofNat 32 s.core.slot.wl) ∧
      (r = .pb → lane v 0 = BitVec.ofNat 32 s.core.slot.pb) ∧ (r = .pl → lane v 0 = BitVec.ofNat 32 s.core.slot.pl) ∧
      (r = .tagsel → lane v 0 = BitVec.ofNat 32 s.core.tagsel) ∧
      (r = .tagent → ∀ j, j < 4 → lane v j = (look 0 s.core.tags s.core.tagsel).extractLsb' (32 * j) 32))) ∧
  (∀ (a : Opnd) (r : CReg) (s : State), r.writable = true →
    let p : CSpec := { srcs := [a], modeW := r == .mode, fpm := r == .fpm, mstat := r == .mstat }
    let w := argC0 s p 0
    (cWait s.core p = 0 → s.core.slot.prv = false → (r = .tagsel ∨ r = .tagent) →
      exec (.csrw a r) s = .next (trapped (.csrw a r) s (mkTrap 0x11 0 0))) ∧
    (ReadyC p s → s.core.slot.prv = true ∨ (r ≠ .tagsel ∧ r ≠ .tagent) → ∃ t u, exec (.csrw a r) s = .next t ∧ DoneC s u t p 0 none ∧
      (r = .mode → u = s.modC (fun c => c.setHdr (setLane c.hdr 1 ((lane c.hdr 1 &&& 0xFFC0FFFF) ||| ((w &&& 0x3F) <<< 16))))) ∧
      (r = .fpm → u = s.modS (fun x => { x with fpm := w &&& 0x1F3 })) ∧
      (r = .mstat → u = s.modC (fun c => { c with mstat := c.mstat &&& ~~~w })) ∧
      (r = .scla → u = s.modC (fun c => { c with scla := w })) ∧ (r = .sclb → u = s.modC (fun c => { c with sclb := w })) ∧
      (r = .tagsel → u = s.modC (fun c => { c with tagsel := w.toNat % 256 })) ∧
      (r = .tagent → ∃ e, u = s.modC (fun c => { c with tags := put c.tags c.tagsel e }) ∧ ∀ j, j < 4 → e.extractLsb' (32 * j) 32 =
        lane (argC s p 0) j &&& (if j = 0 then 0x0003FFF8 else if j = 1 then 0xBF7F07FF else if j = 2 then 0xFFFF07FF else 0x01FF01FF))))

/-- R259, R260, R305: with no bundle outstanding, `setwin`, as a pair or lone, completes with a window within the bound, and
within the lent rows in a harvest slot: it takes effect at once where its bundle has no arithmetic word, and once that has
completed where it has one: an arithmetic word, whichever it is, that completes with no bundle after it makes the window that waits
the window. Any other window traps WIN with reason 2. `getwin` completes and reads WB and WL. -/
def Obligations.WindowResults : Prop :=
  (∀ (a : Opnd) (s : State), ReadyC { srcs := [a] } s →
    let wb := (lane (argC s { srcs := [a] } 0) 0).toNat
    let wl := (lane (argC s { srcs := [a] } 0) 1).toNat
    (s.core.slot.backlog = [] → FitsWindow s.core wb wl → ∃ t, exec (.setwin a) s = .next t ∧
      DoneC s (s.modS (fun y => { y with winNext := some (wb, wl) })) t { srcs := [a] } 0 none ∧
      (∀ w0 w1, bundleAt s s.core.slot.pc = some (w0, w1) → uF w0 = false →
        t.core.slot.winNext = some (wb, wl) ∧ t.core.slot.wb = s.core.slot.wb ∧ t.core.slot.wl = s.core.slot.wl)) ∧
    (s.core.slot.backlog = [] → ¬ FitsWindow s.core wb wl → exec (.setwin a) s = .next (trapped (.setwin a) s (mkTrap 0x02 (2 <<< 19) 0))) ∧
    (s.core.slot.backlog ≠ [] → exec (.setwin a) s = stallC s 1)) ∧
  (∀ (b : BitVec 11) (l : BitVec 7) (s : State), ReadyC {} s →
    (s.core.slot.backlog = [] → FitsWindow s.core b.toNat l.toNat → ∃ t, exec (.setwinLone b l) s = .next t ∧
      DoneC s (s.modS (fun y => { y with winNext := some (b.toNat, l.toNat) })) t {} 0 none ∧
      (∀ w0 w1, bundleAt s s.core.slot.pc = some (w0, w1) → uF w0 = true →
        t.core.slot.winNext = none ∧ t.core.slot.wb = b.toNat ∧ t.core.slot.wl = l.toNat)) ∧
    (s.core.slot.backlog = [] → ¬ FitsWindow s.core b.toNat l.toNat →
      exec (.setwinLone b l) s = .next (trapped (.setwinLone b l) s (mkTrap 0x02 (2 <<< 19) 0))) ∧
    (s.core.slot.backlog ≠ [] → exec (.setwinLone b l) s = stallC s 1)) ∧
  (∀ (a : Opnd) (s : State), ReadyC { dst := some a, lanes := 2 } s → ∃ t, exec (.getwin a) s = .next t ∧
    DoneC s s t { dst := some a, lanes := 2 } (rowOfLanes [BitVec.ofNat 32 s.core.slot.wb, BitVec.ofNat 32 s.core.slot.wl]) none) ∧
  (∀ (i : Instr) (s t : State) (e : BEnt) (b l : Nat), (aOps i).isSome = true → s.core.slot.backlog = [e] → s.core.slot.winNext = some (b, l) →
    exec i s = .next t → (∃ n, stallA s n = .next t) ∨ (∃ c info faddr, trapA s (word1Of i) c info faddr = .next t) ∨
      (t.core.slot.rep = s.core.slot.rep + 1 ∧ t.core.slot.winNext = some (b, l) ∧ t.core.slot.wb = s.core.slot.wb) ∨
      (t.core.slot.backlog = [] ∧ t.core.slot.wb = b ∧ t.core.slot.wl = l ∧ t.core.slot.winNext = none)) ∧
  (∀ (s : State) (e : BEnt) (a : AOps) (b l : Nat), ReadyA .anop s e a → s.core.slot.backlog = [e] → s.core.slot.winNext = some (b, l) →
    ∃ t, exec .anop s = .next t ∧ t.core.slot.wb = b ∧ t.core.slot.wl = l ∧ t.core.slot.winNext = none)

/-- R256, R261: `setbnd` with PRV, a bound that fits and holds the current window, and no late write pending completes: it writes the
slot's bound or the bound table's entry. It waits for late writes; with reserved bits set, a bound that does not fit, or one
that leaves the current window out it traps WIN with reason 3. Without PRV it traps PRIV, whatever its operand. -/
def Obligations.BoundResults : Prop :=
  ∀ (a : Opnd) (s : State), cWait s.core { srcs := [a] } = 0 →
    let r := argC s { srcs := [a] } 0
    let pb := (lane r 0).toNat
    let pl := (lane r 1).toNat
    let tbl := (lane r 2).getLsbD 31
    let x := s.core.slot
    let ok := pb < 2 ^ 11 ∧ pl < 2 ^ 12 ∧ (lane r 2).toNat / 256 % 2 ^ 23 = 0 ∧ 1 ≤ pl ∧ pb + pl ≤ 2048 ∧
      (tbl = false → pb ≤ x.wb ∧ x.wb + x.wl ≤ pb + pl)
    (x.prv = true → (∀ k : Fin 96, a = .w k → x.wl ≤ k.val → exec (.setbnd a) s = .next (trapped (.setbnd a) s (mkTrap 0x02 0 0)))) ∧
    (ReadyC { srcs := [a] } s → x.prv = true → ok → s.core.late = [] → ∃ t, exec (.setbnd a) s = .next t ∧
      DoneC s (if tbl then s.modC (fun c => { c with bounds := put c.bounds ((lane r 2).toNat % 256) (pb, pl) })
        else s.modS (fun y => { y with pb := pb, pl := pl })) t { srcs := [a] } 0 none) ∧
    (ReadyC { srcs := [a] } s → x.prv = true → ok → s.core.late ≠ [] → exec (.setbnd a) s = stallC s 100) ∧
    (ReadyC { srcs := [a] } s → x.prv = true → ¬ ok → exec (.setbnd a) s = .next (trapped (.setbnd a) s (mkTrap 0x02 (3 <<< 19) 0))) ∧
    (x.prv = false → exec (.setbnd a) s = .next (trapped (.setbnd a) s (mkTrap 0x11 0 0)))

/-- R144, R149: a load that can issue and passes the checks of R147 issues a late write of the bytes at its effective
address, lane 0 of B plus its offset, zero-extended: one lane for 1, 2 and 4 bytes, two for 8, the row for 64. One that something holds back issues a late write
without data (R141, R180, R184).
Besides the rules it rests on the model's own choices in logs 6, 68, 81. -/
def Obligations.LoadResults : Prop :=
  ∀ (a b : Opnd) (off : BitVec 5) (ord : Ord) (scp : Scp) (ext : Word) (i : Instr) (n : Nat) (d : Word) (s : State) (l : List Spot),
    (i, n, d) ∈ loadForms a b off ord scp ext →
    let p : CSpec := { srcs := [b], dst := some a, late := true }
    let ea := (argC0 s p 0 + d).toNat
    ReadyC p s →
    (Reaches s .load ord .core n ea l → ∃ t, exec i s = .next t ∧ DoneC s (loaded s a n ea l) t p 0 none) ∧
    (Passes s .load ord n ea l → mustHold (reached s .load n ea) .load ord .core l = true →
      ∃ t, exec i s = .next t ∧ DoneC s (heldLoad s a ord n ea l) t p 0 none)

/-- R144, R150: a store that can issue and passes the checks of R147 stores the n low bytes of A at its effective
address; one that something holds back issues, and waits to be performed (R141, R151).
The frame of a store: no byte outside the spots it stores to changes, nor outside their lines where they are
encrypted (R329); a store to one plain spot of a chip memory leaves there the bytes stored, lowest first (R150).
R283, R285: at an address of a notify page a device agent's aligned 32-bit access acts as the page says, and any other
reads zeros and writes nothing (the address is the model's own: log 70).
Besides the rules it rests on the model's own choices in logs 6, 68, 70, 81. -/
def Obligations.StoreResults : Prop :=
  (∀ (a b : Opnd) (off : BitVec 5) (ord : Ord) (scp : Scp) (ext : Word) (i : Instr) (n : Nat) (d : Word) (s : State) (l : List Spot),
    (i, n, d) ∈ storeForms a b off ord scp ext →
    let p : CSpec := { srcs := [a, b] }
    let ea := (argC0 s p 1 + d).toNat
    ReadyC p s →
    (Reaches s .store ord scp n ea l → ∃ t, exec i s = .next t ∧ DoneC s (stored s (rowBytes (argC s p 0) n) scp ea l) t p 0 none) ∧
    (Passes s .store ord n ea l → mustHold (reached s .store n ea) .store ord scp l = true →
      ∃ t, exec i s = .next t ∧ DoneC s (heldStore s (rowBytes (argC s p 0) n) ord scp ea l) t p 0 none)) ∧
  (∀ (s : State) (bs : List Byte) (scp : Scp) (ea : Nat) (l : List Spot), Inv s → (∀ p ∈ l, p.enc.isSome = true → p.key % 64 + p.n ≤ 64) →
    (∀ c, (∀ p ∈ l, ¬ coveredBy p c) → memRead (stored s bs scp ea l).mem c = memRead s.mem c) ∧
    (∀ k, l = [⟨k, none, bs.length⟩] → k < 4503599627370496 → ∀ j, j < bs.length → memRead (stored s bs scp ea l).mem (k + j) = bs.getD j 0)) ∧
  (∀ (s : State) (b q off : Nat) (k : KRef) (bs : List Byte) (n : Nat), s.bar = some b → q < 4096 → off < 4096 →
    let p : Place := ⟨hostKey (b + 4096 * q + off), none⟩
    (journalOf s k = none → kRead s k p n = if off % 4 = 0 ∧ n = 4 then natBytes (notifyWord s q off).toNat 4 else List.replicate n 0) ∧
    plainWrite s p bs = (if off % 4 = 0 ∧ bs.length = 4 then notifyWrite s q off (BitVec.ofNat 32 (bytesNat bs)) else s) ∧
    (∀ x, queueById s q = some x → notifyWord s q 0 = x.p ∧ notifyWord s q 8 = x.ci ∧ notifyWord s q 12 = x.fcount ∧ notifyWord s q 20 = x.fci ∧
      notifyWord s q 4 = statusWord x) ∧
    (queueById s q = none → notifyWord s q off = 0))

/-- R146, R147, R151: a load or store waits while an acquire of its slot is held. A store with a byte in the instruction store
traps PRIV without PRV. An access whose address is no multiple of its size traps AL, with WRO for a store, where it is of 64
bytes, is ordered, or MODE.AL is set.
R141, R147, R318, R320, R325: a load or store that arrives at the look-up of its address traps as its plan says (ADDR, XEXT,
RLK); where a page is not translated it asks for the page and waits, for a walk or for the host. One that passes every check, to
bytes that another cluster's range lock covers, issues and is held.
Besides the rules it rests on the model's own choices in logs 29, 36, 59, 61, 81. -/
def Obligations.AccessTrapsAndWaits : Prop :=
  (∀ (a b : Opnd) (off : BitVec 5) (ord : Ord) (scp : Scp) (ext : Word) (i : Instr) (n : Nat) (d : Word) (s : State),
    ((i, n, d) ∈ loadForms a b off ord scp ext →
      let p : CSpec := { srcs := [b], dst := some a, late := true }
      let ea := (argC0 s p 0 + d).toNat
      ReadyC p s →
      (acqHeld s = true → exec i s = stallC s 100) ∧
      (acqHeld s = false → ea % n ≠ 0 → MustAlign s ord n → exec i s = .next (trapped i s (mkTrap 0x05 0 ea)))) ∧
    ((i, n, d) ∈ storeForms a b off ord scp ext →
      let p : CSpec := { srcs := [a, b] }
      let ea := (argC0 s p 1 + d).toNat
      let inStore := 0x1C00000 < ea + n ∧ ea < (if isMem s.core.id then 0x1C20000 else 0x1C40000)
      ReadyC p s →
      (acqHeld s = true → exec i s = stallC s 100) ∧
      (acqHeld s = false → inStore → s.core.slot.prv = false → exec i s = .next (trapped i s (mkTrap 0x11 0 0))) ∧
      (acqHeld s = false → (inStore → s.core.slot.prv = true) → ea % n ≠ 0 → MustAlign s ord n →
        exec i s = .next (trapped i s (mkTrap 0x05 infoWRO ea))))) ∧
  (∀ (a b : Opnd) (off : BitVec 5) (ord : Ord) (scp : Scp) (ext : Word) (i : Instr) (n : Nat) (d : Word) (s : State) (l : List Spot),
    ((i, n, d) ∈ loadForms a b off ord scp ext →
      let p : CSpec := { srcs := [b], dst := some a, late := true }
      let ea := (argC0 s p 0 + d).toNat
      ReadyC p s →
      (Arrives s .load ord n ea → StopsAs i s (planAccess s (who s) .load ea n)) ∧
      (Passes s .load ord n ea l → lockedThere (reached s .load n ea) .load l = true → HeldAt i s l)) ∧
    ((i, n, d) ∈ storeForms a b off ord scp ext →
      let p : CSpec := { srcs := [a, b] }
      let ea := (argC0 s p 1 + d).toNat
      ReadyC p s →
      (Arrives s .store ord n ea → StopsAs i s (planAccess s (who s) .store ea n)) ∧
      (Passes s .store ord n ea l → lockedThere (reached s .store n ea) .store l = true → HeldAt i s l)))

/-- R145, R154: `ldx` and `stx` access base + index × size, the base from lanes 0 and 1 and the index, signed, from lane 0;
a base of more than 52 bits traps ADDR with lane 1 at fault, an address outside 0 to 2^52 - 1 ADDR with UNMAP, and one that is no
multiple of the size AL where it is of 64 bytes or MODE.AL is set (R146; UNMAP before AL is log 74); a store with a byte in the
instruction store traps PRIV without PRV (R147). One that something holds back issues, and waits to be performed (R141).
Besides the rules it rests on the model's own choices in logs 6, 74, 81. -/
def Obligations.IndexedResults : Prop :=
  ∀ (a b c : Opnd) (size : MSize) (s : State) (l : List Spot),
    (let p : CSpec := { srcs := [b, c], dst := some a, late := true }
     let n := MSize.bytes size
     let lo := argC s p 0
     let ea : Int := (lane lo 0).toNat + 2 ^ 32 * (lane lo 1).toNat + (argC0 s p 1).toInt * n
     ReadyC p s →
     (2 ^ 20 ≤ (lane lo 1).toNat → exec (.ldx a b c size) s = .next (trapped (.ldx a b c size) s (mkTrap 0x03 infoDESC ((lane lo 1).toNat + 2 ^ 32)))) ∧
     ((lane lo 1).toNat < 2 ^ 20 → (ea < 0 ∨ 2 ^ 52 ≤ ea) →
       exec (.ldx a b c size) s = .next (trapped (.ldx a b c size) s (mkTrap 0x03 infoUNMAP (ea % 2 ^ 52).toNat))) ∧
     ((lane lo 1).toNat < 2 ^ 20 → 0 ≤ ea → ea < 2 ^ 52 → Reaches s .load .rlx .core n ea.toNat l →
       ∃ t, exec (.ldx a b c size) s = .next t ∧ DoneC s (loaded s a n ea.toNat l) t p 0 none) ∧
     ((lane lo 1).toNat < 2 ^ 20 → 0 ≤ ea → ea < 2 ^ 52 → Passes s .load .rlx n ea.toNat l → mustHold (reached s .load n ea.toNat) .load .rlx .core l = true →
       ∃ t, exec (.ldx a b c size) s = .next t ∧ DoneC s (heldLoad s a .rlx n ea.toNat l) t p 0 none) ∧
     ((lane lo 1).toNat < 2 ^ 20 → 0 ≤ ea → ea < 2 ^ 52 → acqHeld s = false → ea.toNat % n ≠ 0 → MustAlign s .rlx n →
       exec (.ldx a b c size) s = .next (trapped (.ldx a b c size) s (mkTrap 0x05 0 ea.toNat)))) ∧
    (let p : CSpec := { srcs := [a, b, c] }
     let n := MSize.bytes size
     let lo := argC s p 1
     let ea : Int := (lane lo 0).toNat + 2 ^ 32 * (lane lo 1).toNat + (argC0 s p 2).toInt * n
     ReadyC p s →
     (2 ^ 20 ≤ (lane lo 1).toNat → exec (.stx a b c size) s = .next (trapped (.stx a b c size) s (mkTrap 0x03 infoDESC ((lane lo 1).toNat + 2 ^ 32)))) ∧
     ((lane lo 1).toNat < 2 ^ 20 → (ea < 0 ∨ 2 ^ 52 ≤ ea) →
       exec (.stx a b c size) s = .next (trapped (.stx a b c size) s (mkTrap 0x03 infoUNMAP (ea % 2 ^ 52).toNat))) ∧
     ((lane lo 1).toNat < 2 ^ 20 → 0 ≤ ea → ea < 2 ^ 52 → Reaches s .store .rlx .core n ea.toNat l →
       ∃ t, exec (.stx a b c size) s = .next t ∧ DoneC s (stored s (rowBytes (argC s p 0) n) .core ea.toNat l) t p 0 none) ∧
     ((lane lo 1).toNat < 2 ^ 20 → 0 ≤ ea → ea < 2 ^ 52 → Passes s .store .rlx n ea.toNat l → mustHold (reached s .store n ea.toNat) .store .rlx .core l = true →
       ∃ t, exec (.stx a b c size) s = .next t ∧ DoneC s (heldStore s (rowBytes (argC s p 0) n) .rlx .core ea.toNat l) t p 0 none) ∧
     (let inStore := 0x1C00000 < ea.toNat + n ∧ ea.toNat < (if isMem s.core.id then 0x1C20000 else 0x1C40000)
      (lane lo 1).toNat < 2 ^ 20 → 0 ≤ ea → ea < 2 ^ 52 → acqHeld s = false →
       (inStore → s.core.slot.prv = false → exec (.stx a b c size) s = .next (trapped (.stx a b c size) s (mkTrap 0x11 0 0))) ∧
       ((inStore → s.core.slot.prv = true) → ea.toNat % n ≠ 0 → MustAlign s .rlx n →
         exec (.stx a b c size) s = .next (trapped (.stx a b c size) s (mkTrap 0x05 infoWRO ea.toNat)))))

/-- R155: the new value of an atomic on w bits, from the old value x and the operand y.
R145, R155, R156, R324: an atomic that can issue and passes the checks reads its old value, writes the new one (`cas` only
where the old value is the one expected), and issues a late write of the old value; in host memory it traps ADDR where the
host does not carry its operation, and a base of more than 52 bits traps ADDR with lane 1 at fault. A misaligned one traps AL
with WRO (R146), and one that something holds back issues without data and waits to be performed (R141).
Besides the rules it rests on the model's own choices in logs 6, 33, 81. -/
def Obligations.AtomicResults : Prop :=
  (∀ (w x y : Nat), x < 2 ^ w → y < 2 ^ w → (w = 32 ∨ w = 64) →
    amoNew .add w x y = (x + y) % 2 ^ w ∧ amoNew .and w x y = x &&& y ∧ amoNew .or w x y = x ||| y ∧ amoNew .xor w x y = x ^^^ y ∧
    signedVal w (amoNew .min w x y) = min (signedVal w x) (signedVal w y) ∧
    signedVal w (amoNew .max w x y) = max (signedVal w x) (signedVal w y) ∧
    amoNew .minn w x y = min x y ∧ amoNew .maxn w x y = max x y ∧ amoNew .swap w x y = y) ∧
  (∀ (op : AmoOp) (a b c : Opnd) (ord : Ord) (scp : Scp) (d64 : Bool) (s : State) (l : List Spot),
    let p : CSpec := { srcs := [b, c], dst := some a, late := true }
    let n := if d64 then 8 else 4
    let lo := argC s p 0
    let ea := (lane lo 0).toNat + 2 ^ 32 * (lane lo 1).toNat
    let r := reached s .rmw n ea
    let old := bytesNat (readSpots r r.core.slot.kern l)
    let host := 2 ^ 53 ≤ spotKey l ∧ spotKey l < 3 * 2 ^ 52
    let done (v : Option Nat) : State :=
      (match v with
       | some v => writeSpots l (natBytes v n) (r.modS (fun x => { x with pend := x.pend ++ [pendOf r l scp] }))
       | none => r).modC (fun k => issueLate k a (lanesFor n) (some (BitVec.ofNat 512 old)) (spotKey l))
    let bad (i : Instr) : Host.Outcome State Fault Refusal := .next (trapped i s (mkTrap 0x03 infoDESC ((lane lo 1).toNat + 2 ^ 32)))
    let perm (i : Instr) : Host.Outcome State Fault Refusal := .next (trapped i r (mkTrap 0x03 infoPERM ea))
    ReadyC p s →
    (2 ^ 20 ≤ (lane lo 1).toNat → exec (.amo op a b c ord scp d64) s = bad (.amo op a b c ord scp d64) ∧
      exec (.cas a b c ord scp d64) s = bad (.cas a b c ord scp d64)) ∧
    ((lane lo 1).toNat < 2 ^ 20 → Reaches s .rmw ord scp n ea l →
      ((host → hostAtomic (some op) = true) → ∃ t, exec (.amo op a b c ord scp d64) s = .next t ∧
        DoneC s (done (some (amoNew op (8 * n) old (wide (argC s p 1) 0 d64)))) t p 0 none) ∧
      ((host → hostAtomic none = true) → ∃ t, exec (.cas a b c ord scp d64) s = .next t ∧
        DoneC s (done (if old = wide (argC s p 1) 0 d64 then some (wide (argC s p 1) 2 d64) else none)) t p 0 none)) ∧
    ((lane lo 1).toNat < 2 ^ 20 → acqHeld s = false → ea % n ≠ 0 →
      exec (.amo op a b c ord scp d64) s = .next (trapped (.amo op a b c ord scp d64) s (mkTrap 0x05 infoWRO ea)) ∧
      exec (.cas a b c ord scp d64) s = .next (trapped (.cas a b c ord scp d64) s (mkTrap 0x05 infoWRO ea))) ∧
    ((lane lo 1).toNat < 2 ^ 20 → Passes s .rmw ord n ea l → mustHold r .rmw ord scp l = true →
      ((host → hostAtomic (some op) = true) → ∃ t, exec (.amo op a b c ord scp d64) s = .next t ∧
        DoneC s (heldAtomic s a (some (op, BitVec.ofNat 64 (wide (argC s p 1) 0 d64))) none ord scp n ea l) t p 0 none) ∧
      ((host → hostAtomic none = true) → ∃ t, exec (.cas a b c ord scp d64) s = .next t ∧
        DoneC s (heldAtomic s a none (some (BitVec.ofNat 64 (wide (argC s p 1) 0 d64), BitVec.ofNat 64 (wide (argC s p 1) 2 d64))) ord scp n ea l)
          t p 0 none)) ∧
    ((lane lo 1).toNat < 2 ^ 20 → Passes s .rmw ord n ea l → host →
      (hostAtomic (some op) = false → exec (.amo op a b c ord scp d64) s = perm (.amo op a b c ord scp d64)) ∧
      (hostAtomic none = false → exec (.cas a b c ord scp d64) s = perm (.cas a b c ord scp d64))))

/-- R204, R209, R219: a send with a malformed operand traps ADDR with the lowest reason that holds; one whose operands
are good waits until everything before it has been performed (R151, R185), takes its payload and completes once every
destination has accepted the message, and traps OVF, lane 5 the lowest core word that refuses, where one does. With a destination
in another package it waits for that answer, and asks the cores of this one then (log 64); where no link leads there, its kernel
stops by a machine check (R365).
Besides the rules it rests on the model's own choices in logs 16, 19, 64, 81. -/
def Obligations.SendResults : Prop :=
  ∀ (a b : Opnd) (s : State) (i : Instr) (ds : List Word) (kind addr : Nat) (good : Bool) (reason k : Nat),
    let p : CSpec := { srcs := [a] }
    let r := argC s p 0
    let h := lane r 0
    let n := hdrRows h
    let seen := if a = b then 1 else 0
    let bad (x v w : Nat) : State := trapped i s (mkTrap 0x03 (x <<< 14 ||| infoDESC) (v + 2 ^ 32 * w))
    let m := newMsg s h (payload s.core b n seen) ds kind addr
    let near (m : Msg) : List Word := m.dest.filter (fun w => pkgOf w == ownPkg s)
    let took (u : State) : State := u.modC (fun c => popAll c (List.replicate n b))
    let ovf (u : State) (w : Word) : Host.Outcome State Fault Refusal := .next (trapped i u (mkTrap 0x09 (if kind = 6 then 512 else 0) w.toNat))
    (i, ds, kind, addr, good, reason, k) ∈ sendForms a b s r → ReadyC p s →
    (hdrBad h = true → exec i s = .next (bad 1 h.toNat 0)) ∧
    (hdrBad h = false → good = false → (reason = 2 ∨ payloadOk s.core.slot b n = true) → exec i s = .next (bad reason (lane r k).toNat k)) ∧
    (hdrBad h = false → (good = true ∨ reason ≠ 2) → payloadOk s.core.slot b n = false → exec i s = .next (bad 3 b.code.toNat n)) ∧
    (hdrBad h = false → good = true → payloadOk s.core.slot b n = true →
      (s.core.slot.sendWait = none → payloadWait s.core b n seen = 0 →
        (releaseWaits s (narrowest s.core.id ds) = true → exec i s = stallC s 100) ∧
        (releaseWaits s (narrowest s.core.id ds) = false →
          ((∀ w ∈ ds, pkgOf w = ownPkg s) →
            (∀ u, deliverAll m (near m) s = .ok u → ∃ t, exec i s = .next t ∧ DoneC s (took u) t p 0 none) ∧
            (∀ w, deliverAll m (near m) s = .error w → exec i s = ovf s w)) ∧
          ((∃ w ∈ ds, pkgOf w ≠ ownPkg s) →
            let v : State := { s.modS (fun x => { x with sendWait := some ⟨m, none⟩ }) with outbound := s.outbound ++ [m] }
            ((∀ w ∈ ds, pkgOf w ≠ ownPkg s → linksCut s (linksTo s (pkgOf w)) = false) → exec i s = stallC v 100) ∧
            ((∃ w ∈ ds, pkgOf w ≠ ownPkg s ∧ linksCut s (linksTo s (pkgOf w)) = true) → (∀ q ∈ s.stops, q.kern ≠ s.core.slot.kern) →
              ∃ q, exec i s = stallC { v with stops := s.stops ++ [q] } 100 ∧ q.kern = s.core.slot.kern ∧ q.core = s.core.id ∧ q.status = 2)))) ∧
      (s.core.slot.sendWait = none → payloadWait s.core b n seen ≠ 0 → exec i s = stallC s (payloadWait s.core b n seen)) ∧
      (∀ u, s.core.slot.sendWait = some ⟨u, none⟩ → exec i s = stallC s 100) ∧
      (∀ u w, s.core.slot.sendWait = some ⟨u, some (.refused w)⟩ →
        (∀ v, deliverAll u (near u) s = .ok v → exec i s = ovf (s.modS (fun x => { x with sendWait := none })) w) ∧
        (∀ q, deliverAll u (near u) s = .error q →
          exec i s = ovf (s.modS (fun x => { x with sendWait := none })) (if q.toNat ≤ w.toNat then q else w))) ∧
      (∀ u, s.core.slot.sendWait = some ⟨u, some .accepted⟩ →
        (∀ v, deliverAll u (near u) s = .ok v → ∃ t, exec i s = .next t ∧
          DoneC s ((took { v with remote := v.remote ++ [u] }).modS (fun x => { x with sendWait := none })) t p 0 none) ∧
        (∀ w, deliverAll u (near u) s = .error w → exec i s = ovf (s.modS (fun x => { x with sendWait := none })) w)))

/-- R210, R257: `rls` waits for the arithmetic stream, then frees the message slot and hides the message; `done` waits for its own
bundle's arithmetic word, where it has one that is not idle, for every bundle before it and for a late write to its header row.
Then it ends the handler: loop stack and IT clear, queues, tokens and streams empty, PRV clear, the
message slot freed, or kept for a tag with KEEP; with a FAULTED copy job of the context it escalates CPF instead (R174). A
dispatch of the kiln's own tells the loader (R348). On a core of a pair a checkpoint forms (R363).
R211: `tagset` of a tag of another process, or an invalid one, traps PRIV without PRV and does nothing to an invalid
one with PRV; otherwise it sets or clears EN, clears PEND, and moves the messages of the tag that have not started.
Besides the rules it rests on the model's own choices in logs 31, 35, 77. -/
def Obligations.HandlerResults : Prop :=
  ((∀ (s : State), ReadyC {} s →
    (s.core.slot.backlog ≠ [] → exec .rls s = stallC s 1) ∧
    (s.core.slot.backlog = [] → s.core.slot.msgLive = false → ∃ t, exec .rls s = .next t ∧ DoneC s s t {} 0 none) ∧
    (∀ i, s.core.slot.backlog = [] → s.core.slot.msgLive = true → s.core.slot.msgSlot = some i → (getCl s (clIdx s.core.id)).spill = [] →
      ∃ t, exec .rls s = .next t ∧ DoneC s (s.modC (fun c =>
        { c with slot := { c.slot with msgLive := false, msgSlot := none }, ni := c.ni.filter (fun n => n.idx != i) })) t {} 0 none)) ∧
  (∀ (s : State),
    let ended : Prop := ∃ t k,
      let v := if s.core.slot.prv then serviceDone t s.core.id else t
      exec .done s = .next { v with core := { v.core with ckpt := k } } ∧
      (s.core.slot.paired = false → s.core.ckpt = none → k = v.core.ckpt) ∧
      (s.core.slot.paired = true ∨ s.core.ckpt ≠ none → ∃ q, k = some q ∧ q.regs = v.core.regs ∧ q.slot = v.core.slot ∧ q.shadow = v.core.shadow ∧ q.tries = 0 ∧ q.undo = []) ∧
      t = { rltDrop s s.core.slot.gangRegs with core := t.core } ∧
      t.core = { s.core with slot := t.core.slot, regs := t.core.regs, ni := t.core.ni, ownerDone := t.core.ownerDone } ∧
      t.core.slot = { s.core.slot with active := false, prv := false, backlog := [], queues := Vector.replicate 4 [], toks := [], msgSlot := none, msgLive := false, aside := none, trapWait := none, latch := none, waitC := none, waitA := none, rep := 0, xl := Xlat.none, revoked := false, retry := false, eretRow := none, skipC := false, skipA := false, winNext := none, ctlIssued := false, gang := .idle, paired := false } ∧
      (∀ q, q ≠ s.core.slot.wb → t.core.row q = s.core.row q) ∧
      (∀ j, j < 16 → lane (t.core.row s.core.slot.wb) j =
        if 8 ≤ j ∧ j ≤ 13 then 0 else if j = 1 then lane s.core.hdr 1 &&& 0xFFBFFFFF else lane s.core.hdr j) ∧
      (s.core.slot.msgSlot = none → t.core.ni = s.core.ni) ∧
      (∀ i, s.core.slot.msgSlot = some i → s.core.slot.msgLive = true → (look 0 s.core.tags s.core.slot.tag).getLsbD 59 = true →
        t.core.ni = s.core.ni.map (fun n => if n.idx = i then { n with st := .kept, keep := some s.core.slot.tag } else n)) ∧
      (∀ i, s.core.slot.msgSlot = some i → (s.core.slot.msgLive = false ∨ (look 0 s.core.tags s.core.slot.tag).getLsbD 59 = false) →
        t.core.ni = s.core.ni.filter (fun n => n.idx != i))
    let finishes : Prop :=
      (∀ j k a, faultedJob s = some j → j.st = .faulted k a → ∃ t r, exec .done s = .next t ∧
        t.stops = s.stops ++ [r] ∧ r.kern = s.core.slot.kern ∧ r.lane4 = BitVec.ofNat 32 (0x0E ||| (j.slot <<< 9 ||| k <<< 15)) ∧ r.faddr = a ∧
        t.core.slot.halted = true ∧ t.mem = s.mem ∧ t.core.regs = s.core.regs) ∧
      (faultedJob s = none → queuesPending s.core.slot = true → exec .done s = stallC s 100) ∧
      (faultedJob s = none → queuesPending s.core.slot = false → (getCl s (clIdx s.core.id)).spill = [] → ended)
    (s.core.slot.ctlIssued = true → s.core.slot.backlog ≠ [] → exec .done s = stallC s 1) ∧
    (s.core.slot.ctlIssued = true → s.core.slot.backlog = [] → s.core.pendingRow s.core.slot.wb = true → exec .done s = stallC s 100) ∧
    (s.core.slot.ctlIssued = true → s.core.slot.backlog = [] → s.core.pendingRow s.core.slot.wb = false → finishes) ∧
    (s.core.slot.ctlIssued = false → cWait s.core { moves := true } ≠ 0 → exec .done s = stallC s (cWait s.core { moves := true })) ∧
    (∀ w0 w1, s.core.slot.ctlIssued = false → cWait s.core { moves := true } = 0 → bundleAt s s.core.slot.pc = some (w0, w1) → uF w0 = false →
      (w1 = 0 → s.core.slot.backlog = [] → finishes) ∧
      ((w1 ≠ 0 ∨ s.core.slot.backlog ≠ []) → ∃ t, exec .done s = .next t ∧ SameOutside s t ∧ t.core.slot.ctlIssued = true ∧
        t.core.regs = s.core.regs ∧
        t.core.slot.backlog.map (fun b => (b.pc, b.word)) = s.core.slot.backlog.map (fun b => (b.pc, b.word)) ++ [(s.core.slot.pc, w1)])))) ∧
  (∀ (k : BitVec 8) (on : Bool) (s : State), ReadyC {} s →
    let i := if on then Instr.tagsetOn k else Instr.tagsetOff k
    let e := look 0 s.core.tags k.toNat
    let own := e.getLsbD 63 = true ∧ (e.extractLsb' 88 8).toNat = s.core.slot.proc
    (s.core.slot.prv = false → ¬ own → exec i s = .next (trapped i s (mkTrap 0x11 0 0))) ∧
    (s.core.slot.prv = true → e.getLsbD 63 = false → ∃ t, exec i s = .next t ∧ DoneC s s t {} 0 none) ∧
    (e.getLsbD 63 = true → (s.core.slot.prv = true ∨ own) → ∃ t u, exec i s = .next t ∧ DoneC s u t {} 0 none ∧
      u = s.modC (fun c => { c with tags := u.core.tags, ni := u.core.ni }) ∧
      (∀ j, j ≠ k.toNat → look 0 u.core.tags j = look 0 s.core.tags j) ∧
      (∀ b, b < 128 → (look 0 u.core.tags k.toNat).getLsbD b = if b = 60 then on else if b = 61 then false else e.getLsbD b) ∧
      u.core.ni = s.core.ni.map (fun n =>
        if hdrTag n.msg.hdr = k.toNat ∧ n.st = (if on then .waiting else .ready) then { n with st := if on then .ready else .waiting } else n)))

/-- R214-R219: `dcarm` with good operands arms a free entry, or for a count of 0 releases its message at once, and
otherwise traps ADDR with the lowest reason; `dcdec` sends its decrement; `gbar` arrives once, waits, and completes when
the phase it arrived in is over. Each waits at first until everything before it has been performed (R151, R186, R187).
Besides the rules it rests on the model's own choices in logs 16, 65, 81. -/
def Obligations.GroupResults : Prop :=
  (∀ (a b : Opnd) (s : State), ReadyC { srcs := [a] } s →
    let r := argC s { srcs := [a] } 0
    let ref := lane r 0
    let cnt := (lane r 1).toNat
    let n := hdrRows (lane r 2)
    let seen := if a = b then 1 else 0
    let ctx := ctxOf s.core.hdr
    let u := drainDecs s (dctCl ref) s.core.id s.core.hvNow ctx
    let taken := (getCl u (dctCl ref)).dct.any (fun q => q.1 == ref.toNat % 1024)
    let why : Option (Nat × Nat × Nat) :=
      if hdrBad (lane r 2) then some (1, (lane r 2).toNat, 2) else if !destOk u (lane r 3) then some (2, (lane r 3).toNat, 3)
      else if n = 1 && !payloadOk s.core.slot b 1 then some (3, b.code.toNat, n)
      else if dctBad u ref || pkgOf ref != ownPkg u || dctCl ref != clIdx s.core.id || isMem s.core.id then some (6, ref.toNat, 0)
      else if 65536 ≤ cnt then some (6, cnt, 1) else if taken then some (6, ref.toNat, 0)
      else if 1 < n then some (7, (lane r 2).toNat, 2) else none
    let row := (payload s.core b n seen).head?
    let took := u.modC (fun c => popAll c (List.replicate n b))
    (∀ x v w, why = some (x, v, w) → exec (.dcarm a b) s = .next (trapped (.dcarm a b) u (mkTrap 0x03 (x <<< 14 ||| infoDESC) (v + 2 ^ 32 * w)))) ∧
    (why = none → payloadWait s.core b n seen ≠ 0 → exec (.dcarm a b) s = stallC u (payloadWait s.core b n seen)) ∧
    (why = none → payloadWait s.core b n seen = 0 → releaseWaits u .pod = true → exec (.dcarm a b) s = stallC u 100) ∧
    (why = none → payloadWait s.core b n seen = 0 → releaseWaits u .pod = false → ∃ t, exec (.dcarm a b) s = .next t ∧
      DoneC s (if cnt = 0 then releaseHeld took (dctCl ref) (ref.toNat % 1024) (lane r 2) (lane r 3) row s.core.slot.kern (ctxOf s.core.hdr)
        else setDct took (dctCl ref) (ref.toNat % 1024) (some (.armed cnt (lane r 2) (lane r 3) row s.core.slot.kern (ctxOf s.core.hdr)))) t { srcs := [a] } 0 none)) ∧
  (∀ (a : Opnd) (s : State), ReadyC { srcs := [a] } s →
    let ref := argC0 s { srcs := [a] } 0
    (dctBad s ref = true → exec (.dcdec a) s = .next (trapped (.dcdec a) s (mkTrap 0x03 (6 <<< 14 ||| infoDESC) ref.toNat))) ∧
    (dctBad s ref = false → releaseWaits s .pod = true → exec (.dcdec a) s = stallC s 100) ∧
    (dctBad s ref = false → releaseWaits s .pod = false →
      let v : State := { s with decs := s.decs ++ [{ pkg := pkgOf ref, cl := dctCl ref, entry := ref.toNat % 1024, core := s.core.id, ctxid := ctxOf s.core.hdr, kern := s.core.slot.kern, hv := s.core.hvNow }] }
      (linksCut s (linksTo s (pkgOf ref)) = false → ∃ t, exec (.dcdec a) s = .next t ∧ DoneC s v t { srcs := [a] } 0 none) ∧
      (linksCut s (linksTo s (pkgOf ref)) = true → (∀ q ∈ s.stops, q.kern ≠ s.core.slot.kern) → ∃ t q, exec (.dcdec a) s = .next t ∧
        DoneC s { v with stops := s.stops ++ [q] } t { srcs := [a] } 0 none ∧ q.kern = s.core.slot.kern ∧ q.core = s.core.id ∧ q.status = 2))) ∧
  (∀ (k : BitVec 2) (s : State), ReadyC {} s →
    let g := (s.core.grp[k.toNat]?).getD 0
    let grp := g.toNat % 256
    let b := barOf s (partNow s) grp
    let good := g.getLsbD 31 = true ∧ groupOf s grp ≠ []
    (s.core.hvNow = true → exec (.gbar k) s = .next (trapped (.gbar k) s (mkTrap 0x03 (5 <<< 14 ||| infoDESC) (2 ^ 32 * k.toNat)))) ∧
    (s.core.hvNow = false → ¬ good → exec (.gbar k) s = .next (trapped (.gbar k) s (mkTrap 0x03 (5 <<< 14 ||| infoDESC) (g.toNat + 2 ^ 32 * k.toNat)))) ∧
    (s.core.hvNow = false → good → s.core.barArr.find? (fun e => e.1 == grp) = none → releaseWaits s (narrowest s.core.id (barMembers s b)) = true → exec (.gbar k) s = stallC s 100) ∧
    (s.core.hvNow = false → good → s.core.barArr.find? (fun e => e.1 == grp) = none → releaseWaits s (narrowest s.core.id (barMembers s b)) = false →
      exec (.gbar k) s = stallC (joinDomain (setBar (s.modC (fun c => { c with barArr := c.barArr ++ [(grp, b.phase)] })) { b with arrived := b.arrived ++ [s.core.id] })
        (clIdx s.core.id)) 100) ∧
    (∀ e, s.core.hvNow = false → good → s.core.barArr.find? (fun e => e.1 == grp) = some e →
      (b.phase ≤ e.2 → exec (.gbar k) s = stallC s 100) ∧
      (e.2 < b.phase → ∃ t, exec (.gbar k) s = .next t ∧
        DoneC s (s.modC (fun c => { c with barArr := c.barArr.filter (fun e => e.1 != grp) })) t {} 0 none)))

/-- R224-R226, R235-R239, R362: a matrix instruction that waits for nothing traps GANG with reason 3 in a harvest slot and 4 in a
paired kernel, whatever its operands;
`mcode` loads the code table; `accz` fills its tiles with the identity of its semiring; `accrd` reads half a row of a
tile by a late write (the conversion of an element is the model's accConvert). `mgang` traps GANG where MASK leaves its core out or
names one that is absent, AL for a misaligned operand, ADDR for an operand or scale range outside its memory, the lowest offending
address in FADDR. Otherwise it registers its ranges and posts, at once where fewer than two started operations of its core have
not retired and no post of it is pending; a post that meets another EXT is withdrawn with those it meets, and all of them trap
GANG with the mask of their cores. It waits for the other members, and completes once its gang has started.
Besides the rules it rests on the model's own choices in logs 5, 57, 63. -/
def Obligations.MatrixResults : Prop :=
  (∀ (i : Instr) (a b : Opnd) (g : GangWord) (ring : Ring) (f l : BitVec 4) (conv : Conv) (s : State),
    i ∈ [Instr.mgang a b g, .mcode a, .accz ring f l, .accrd conv a b] → (∃ p, controlSpec s i = some p ∧ cWait s.core p = 0) →
    (s.core.hvNow = true → exec i s = .next (trapped i s (mkTrap 0x0C (3 <<< 9) 0))) ∧
    (s.core.hvNow = false → s.core.slot.paired = true → exec i s = .next (trapped i s (mkTrap 0x0C (4 <<< 9) 0)))) ∧
  (∀ (a : Opnd) (s : State), s.core.hvNow = false → s.core.slot.paired = false → ReadyC { srcs := [a] } s →
    ∃ t u k, exec (.mcode a) s = .next t ∧ DoneC s u t { srcs := [a] } 0 none ∧
      u = s.modC (fun c => { c with codes := u.core.codes, kc := k }) ∧
      (∀ e : Fin 16, u.core.codes[e] = (lane (argC s { srcs := [a] } 0) e.val).extractLsb' 0 8) ∧
      1 ≤ k ∧ (∀ e : Fin 16, 2 * u.core.codes[e].toInt.natAbs + 1 ≤ 3 ^ k) ∧
      (1 < k → ∃ e : Fin 16, 3 ^ (k - 1) < 2 * u.core.codes[e].toInt.natAbs + 1)) ∧
  (∀ (ring : Ring) (f l : BitVec 4) (s : State), s.core.hvNow = false → s.core.slot.paired = false → ReadyC {} s →
    (tilesBusy s f.toNat l.toNat = true → exec (.accz ring f l) s = stallC s 100) ∧
    (f.toNat ≤ l.toNat → tilesBusy s f.toNat l.toNat = false → ∃ t u, exec (.accz ring f l) s = .next t ∧ DoneC s u t {} 0 none ∧
      u = s.modC (fun c => { c with acc := u.core.acc, fresh := u.core.fresh, poison := u.core.poison }) ∧
      (∀ q r c, q < 16 → r < 32 → c < 32 → tileAt u.core q r c = if f.toNat ≤ q ∧ q ≤ l.toNat then
        (match ring with
         | .pt => 0 | .minp => 0x7FFFFFFFFFFF | .maxp => 0x800000000000 | .ora => 0) else tileAt s.core q r c) ∧
      (∀ q, q < 16 → u.core.fresh.getLsbD q = (decide (f.toNat ≤ q ∧ q ≤ l.toNat) || s.core.fresh.getLsbD q) ∧
        u.core.poison.getLsbD q = (!decide (f.toNat ≤ q ∧ q ≤ l.toNat) && s.core.poison.getLsbD q)))) ∧
  (∀ (conv : Conv) (a b : Opnd) (s : State), s.core.hvNow = false → s.core.slot.paired = false →
    let p : CSpec := { srcs := [b], dst := some a, late := true, lanes := 16, fpm := true, mstat := true }
    ReadyC p s →
    let w := (argC0 s p 0).toNat
    let q := w % 16
    let one (j : Nat) := accConvert conv (fpmMode s.core.slot.fpm) (tileAt s.core q (w / 16 % 32) (16 * (w / 512 % 2) + j))
      (look 0x3F800000 s.core.scaleA (32 * q + w / 16 % 32)) (look 0x3F800000 s.core.scaleB (32 * q + (16 * (w / 512 % 2) + j)))
    (tileFed s q = true → exec (.accrd conv a b) s = stallC s 100) ∧
    (tileFed s q = false → s.core.poison.getLsbD q = true → ∃ t fa, exec (.accrd conv a b) s = .next t ∧
      DoneC s ((mchkStop (takeFree s).2 s.core.slot.kern s.core.id false (ctxOf s.core.hdr) s.core.slot.proc (6 <<< 17 ||| 512) fa).modC
        (fun c => issueLate c a 16 (some 0) accKey)) t p 0 none) ∧
    (tileFed s q = false → s.core.poison.getLsbD q = false → ∃ t v fl ms, exec (.accrd conv a b) s = .next t ∧
      DoneC s (s.modC (fun c => issueLate { c with mstat := ms, slot := { c.slot with fpm := fl } } a 16 (some v) accKey)) t p 0 none ∧
      (∀ j, j < 16 → (lane v j).toNat = (one j).1 % 2 ^ 32) ∧
      (∃ x : Exc, fl = s.core.slot.fpm ||| BitVec.ofNat 32 (x.bits <<< 4)) ∧
      ms = if (∃ j, j < 16 ∧ (one j).2.2 = true) then s.core.mstat ||| 4 else s.core.mstat)) ∧
  (∀ (a b : Opnd) (g : GangWord) (s : State), s.core.hvNow = false → s.core.slot.paired = false → ReadyC { srcs := [a, b] } s →
    let p : CSpec := { srcs := [a, b] }
    let x := (argC0 s p 0).toNat
    let y := (argC0 s p 1).toNat
    let idle := s.modS (fun z => { z with gang := .idle })
    let u := getCl s (clIdx s.core.id)
    let me := coreOf s.core.id
    (s.core.slot.gang = .started → ∃ t, exec (.mgang a b g) s = .next t ∧ DoneC s idle t p 0 none) ∧
    (s.core.slot.gang = .posted → exec (.mgang a b g) s = stallC s 100) ∧
    (∀ m, s.core.slot.gang = .clash m → exec (.mgang a b g) s = .next (trapped (.mgang a b g) idle (mkTrap 0x0C (1 <<< 9 ||| m <<< 13) 0))) ∧
    (∀ m, s.core.slot.gang = .late m → exec (.mgang a b g) s = .next (trapped (.mgang a b g) idle (mkTrap 0x0D (m <<< 13) 0))) ∧
    let absent : Prop := g.mask.getLsbD me = false ∨ ∃ c, c < 8 ∧ g.mask.getLsbD c = true ∧ coreHere s (coreWord (ownPkg s) (clIdx s.core.id) c) = false
    let near (v n : Nat) : Option Nat := if v < 0x60000 then (if v + n ≤ 0x60000 then none else some 0x60000) else some v
    let offA : Option Nat := if 0x1000000 ≤ x ∧ x < 0x1A00000 then (if x + g.aSize ≤ 0x1A00000 then none else some 0x1A00000) else near x g.aSize
    let fresh : Prop := ∃ j ∈ g.cores, s.core.fresh.getLsbD (g.base.toNat + j) = true
    let least (p q : Option Nat) (v : Nat) : Prop := (p = some v ∨ q = some v) ∧ ∀ w, p = some w ∨ q = some w → v ≤ w
    let addr (v : Nat) : Prop := exec (.mgang a b g) s = .next (trapped (.mgang a b g) s (mkTrap 0x03 (1 <<< 10) v))
    let post (es : List (Nat × Nat)) : Post := { core := me, ext := g, a := x, b := y, at_ := s.core.cycle.toNat, kern := s.core.slot.kern, ctxid := ctxOf s.core.hdr, proc := s.core.slot.proc, rlt := es }
    let met (q : Post) : Prop := g.mask.getLsbD q.core = true ∨ q.ext.mask.getLsbD me = true
    let free := startedOps u me < 2 ∧ ∀ q ∈ u.posts, q.core ≠ me
    let posts (v : State) (es : List (Nat × Nat)) : Prop :=
      (free → (∀ q ∈ u.posts, met q → q.ext = g) → exec (.mgang a b g) s =
        stallC (setCl (v.modS (fun z => { z with gang := .posted })) { getCl v (clIdx s.core.id) with posts := u.posts ++ [post es] }) 100) ∧
      (free → (∃ q ∈ u.posts, met q ∧ q.ext ≠ g) → ∃ w t m, exec (.mgang a b g) s = .next (trapped (.mgang a b g) w (mkTrap 0x0C (1 <<< 9 ||| m <<< 13) 0)) ∧
        t = getCl w (clIdx s.core.id) ∧ (∀ q, q ∈ t.posts ↔ q ∈ u.posts ∧ ∀ k ∈ u.posts, met k → k.core ≠ q.core) ∧ w.core.slot.gang = .idle ∧ w.mem = s.mem ∧
        (∀ c, m.testBit c = true ↔ c = me ∨ ∃ q ∈ u.posts, met q ∧ q.core = c) ∧
        ∀ q ∈ u.posts, met q → q.core < 8 → (getCore s (coreWord (ownPkg s) (clIdx s.core.id) q.core)).owner.gang = .posted →
          (getCore w (coreWord (ownPkg s) (clIdx s.core.id) q.core)).owner.gang = .clash m) ∧
      (¬ free → exec (.mgang a b g) s = stallC (v.modS (fun z => { z with gang := .regd es })) 100)
    (s.core.slot.gang = .idle →
      (absent → exec (.mgang a b g) s = .next (trapped (.mgang a b g) s (mkTrap 0x0C (2 <<< 9) 0))) ∧
      (¬ absent →
        (x % 64 ≠ 0 → exec (.mgang a b g) s = .next (trapped (.mgang a b g) s (mkTrap 0x05 0 x))) ∧
        (x % 64 = 0 → y % 64 ≠ 0 → exec (.mgang a b g) s = .next (trapped (.mgang a b g) s (mkTrap 0x05 0 y))) ∧
        (x % 64 = 0 → y % 64 = 0 →
          (∀ v, least offA (near y g.bSize) v → addr v) ∧
          (∀ v, offA = none → near y g.bSize = none → fresh →
            least (near (s.core.scla.toNat / 128 * 128) 128) (near (s.core.sclb.toNat / 128 * 128) 1024) v → addr v)))) ∧
    (∀ es, s.core.slot.gang = .regd es → posts s es) ∧
    (s.core.slot.gang = .idle → gangCheck s g x y = none → rltReadLocked s (gangRegs s g x y) = false → rltRoom s (gangRegs s g x y) = true →
      (acqHeld s = true ∨ storeHeld s (gangReads s.core g x y) = true → exec (.mgang a b g) s = stallC s 100) ∧
      (acqHeld s = false → storeHeld s (gangReads s.core g x y) = false → posts (rltAdd (gangRegs s g x y) s).1 (rltAdd (gangRegs s g x y) s).2)))

/-- R147, R161-R164: `strm` on a good descriptor adds a stream from BASE; a descriptor with a reserved bit, a field out of
range or a pattern in more than one region traps ADDR with the lowest lane at fault, a BASE or stride that is no multiple
of 64 traps AL, in this order; it waits for the translation of its page, for the context's own held stores to the pattern,
and for a place and an entry.
Besides the rules it rests on the model's own choices in logs 36, 41, 46, 63, 74. -/
def Obligations.StreamStart : Prop :=
  ∀ (a : Opnd) (s : State), ReadyC { srcs := [a] } s →
    let r := argC s { srcs := [a] } 0
    let w := who s
    let base : Nat := (lane r 0).toNat + 2 ^ 32 * (lane r 1).toNat
    let n0 : Nat := (lane r 4).toNat % 65536
    let n1 : Nat := (lane r 4).toNat / 65536
    let n2 : Nat := (lane r 5).toNat % 65536
    let s0 := (lane r 6).toInt
    let s1 := (lane r 7).toInt
    let s2 := (lane r 8).toInt
    let below (n : Nat) (d : Int) : Int := min 0 ((n - 1 : Nat) * d)
    let above (n : Nat) (d : Int) : Int := max 0 ((n - 1 : Nat) * d)
    let first : Int := base + below n0 s0 + below n1 s1 + below n2 s2
    let n : Nat := (base + above n0 s0 + above n1 s1 + above n2 s2 + 63).toNat + 1 - first.toNat
    let badLane (j : Nat) : Prop := (j = 1 ∧ 2 ^ 20 ≤ (lane r 1).toNat) ∨ (j = 2 ∧ (coreHere s (lane r 2) = false ∨ shadowCore s (lane r 2) = true)) ∨ (j = 3 ∧ 4 ≤ (lane r 3).toNat) ∨
      (j = 4 ∧ (n0 = 0 ∨ n1 = 0)) ∨ (j = 5 ∧ (n2 = 0 ∨ 65536 ≤ (lane r 5).toNat)) ∨ (9 ≤ j ∧ j < 16 ∧ lane r j ≠ 0)
    let odd := base % 64 ≠ 0 ∨ (lane r 6).toNat % 64 ≠ 0 ∨ (lane r 7).toNat % 64 ≠ 0 ∨ (lane r 8).toNat % 64 ≠ 0
    (∀ j, badLane j → (∀ k, k < j → ¬ badLane k) →
      exec (.strm a) s = .next (trapped (.strm a) s (mkTrap 0x03 infoDESC ((lane r j).toNat + 2 ^ 32 * j)))) ∧
    ((∀ j, ¬ badLane j) →
      (first < 0 → exec (.strm a) s = .next (trapped (.strm a) s (mkTrap 0x03 infoDESC (lane r 0).toNat))) ∧
      (∀ page, 0 ≤ first → resolve s w .load first.toNat = .miss page → ∃ t, exec (.strm a) s = stallC t 100 ∧ t.core.slot.xl.page = some page ∧ t.mem = s.mem) ∧
      (∀ q, 0 ≤ first → resolve s w .load first.toNat = .ext q → refused s.core.slot.xl q = false →
        ∃ t, exec (.strm a) s = stallC t 100 ∧ t.core.slot.xl.page = some q.page ∧ t.mem = s.mem) ∧
      (0 ≤ first → streamWait s w first.toNat = none → oneRegion s w first.toNat (first.toNat + n - 1) = false →
        exec (.strm a) s = .next (trapped (.strm a) s (mkTrap 0x03 infoDESC (lane r 0).toNat))) ∧
      (0 ≤ first → streamWait s w first.toNat = none → oneRegion s w first.toNat (first.toNat + n - 1) = true → odd →
        exec (.strm a) s = .next (trapped (.strm a) s (mkTrap 0x05 0 base))) ∧
      (∀ p, 0 ≤ first → ¬ odd → oneRegion s w first.toNat (first.toNat + n - 1) = true → rangeBad s w .load (n / 4096 + 2) first.toNat n = none →
        resolve s w .load first.toNat = .ok p →
        let regs := regsOf s [(p.key, n)] false true
        (acqHeld s = true ∨ storeHeld s [(p.key, n)] = true ∨ 4 ≤ s.core.strms.length ∨ rltReadLocked s regs = true ∨ rltRoom s regs = false →
          exec (.strm a) s = stallC s 100) ∧
        (acqHeld s = false → storeHeld s [(p.key, n)] = false → s.core.strms.length < 4 → rltReadLocked s regs = false → rltRoom s regs = true →
          ∃ t es u, exec (.strm a) s = .next t ∧ (u, es) = rltAdd regs s ∧
            DoneC s ((touchAtc s.core.slot.xl u w first.toNat).modC (fun c => { c with strms := c.strms ++ [{ at_ := s.timer, key := p.key + (base - first.toNat), n0 := n0, n1 := n1, n2 := n2, s0 := s0, s1 := s1, s2 := s2, dest := lane r 2, ch := (lane r 3).toNat % 4, i := 0, lo := p.key, hi := p.key + n - 1, va := first.toNat, log := (leafLog s w first.toNat).getD 12, enc := p.enc, proc := s.core.slot.proc, owner := s.core.id, rlt := es, kern := s.core.slot.kern, ctxid := ctxOf s.core.hdr, hv := s.core.hvNow }] })) t { srcs := [a] } 0 none)))

/-- R143, R165-R173, R377: `cpy` on a good descriptor queues its job and returns its identifier, the number of the open
batch above the job slot; with nothing to copy it queues none; `cpseal` returns the open batch's number and opens the
next of 1 to 65535; `cpwait` reports 2 for the open batch, waits until the jobs of its batches have left their unit or settled,
traps CPF where one is FAULTED, and else reports 0, or 1 where a revocation took one away. Executed again after its CPF trap
it first starts the FAULTED jobs again, and waits (R173).
R158, R159, R173: an acquire fence completes once every load is performed; the others wait for every load and store, and with
E for the context's engine work as well: for its streams, gangs and images, and for every job but a FAULTED one and those that
wait behind one. Then it traps CPF where a job is FAULTED, and completes where none is. Executed again after its CPF trap, it
first starts every FAULTED job of the context again, and waits.
Besides the rules it rests on the model's own choices in logs 6, 36, 41, 59, 63, 74, 77. -/
def Obligations.CopyAndFenceResults : Prop :=
  ((∀ (k : CpyKind) (a b : Opnd) (s : State),
    let p : CSpec := { srcs := [a], dst := some b }
    ReadyC p s →
    let r := argC s p 0
    let u := getCl s (clIdx s.core.id)
    let j := cpyJob s k r (jobFree u.jobs)
    let reads := storeHeld s (cpySrcPieces s k j ++ if isReduce k then cpyDstPieces s k j else [])
    let ident := laneRow (BitVec.ofNat 32 ((chainNow s).opened * 65536 ||| jobFree u.jobs))
    (∀ l, cpyBad s k r j = some l → exec (.cpy k a b) s = .next (trapped (.cpy k a b) s (mkTrap 0x03 infoDESC ((lane r l).toNat + 2 ^ 32 * l)))) ∧
    (cpyBad s k r j = none →
      (j.src % cpyAlign k ≠ 0 → exec (.cpy k a b) s = .next (trapped (.cpy k a b) s (mkTrap 0x05 0 j.src))) ∧
      (j.src % cpyAlign k = 0 → j.dst % cpyAlign k ≠ 0 → exec (.cpy k a b) s = .next (trapped (.cpy k a b) s (mkTrap 0x05 infoWRO j.dst))) ∧
      (j.src % cpyAlign k = 0 → j.dst % cpyAlign k = 0 → acqHeld s = false →
        (jobCap u.id ≤ u.jobs.length → exec (.cpy k a b) s = stallC s 100) ∧
        (u.jobs.length < jobCap u.id → j.len = 0 → ∃ t, exec (.cpy k a b) s = .next t ∧ DoneC s s t p ident none) ∧
        (∀ page, u.jobs.length < jobCap u.id → j.len ≠ 0 → cpyMiss s k j = some page →
          ∃ t, exec (.cpy k a b) s = stallC t 100 ∧ t.core.slot.xl.page = some page ∧ t.mem = s.mem) ∧
        (u.jobs.length < jobCap u.id → j.len ≠ 0 → cpyMiss s k j = none → (reads = true ∨ rltRoom s (cpyRegs s k j) = false) → exec (.cpy k a b) s = stallC s 100) ∧
        (u.jobs.length < jobCap u.id → j.len ≠ 0 → cpyMiss s k j = none → reads = false → rltRoom s (cpyRegs s k j) = true → ∃ t, exec (.cpy k a b) s = .next t ∧
          DoneC s (enqueue s { j with phase := phaseOf s (lane r 12) } (cpyRegs s k j)) t p ident none)))) ∧
  (∀ (a : Opnd) (s : State), ReadyC { dst := some a } s →
    let h := chainNow s
    ∃ t, exec (.cpseal a) s = .next t ∧ DoneC s (s.modS (fun x => { x with chains := x.chains.filter (fun g => !(g.kern == h.kern && g.ctxid == h.ctxid)) ++
      [{ h with opened := h.opened % 65535 + 1, lastSealed := h.opened }] })) t { dst := some a } (laneRow (BitVec.ofNat 32 h.opened)) none) ∧
  (∀ (all : Bool) (a b : Opnd) (s : State),
    let p : CSpec := { srcs := if all then [] else [b], dst := some a }
    ReadyC p s →
    let n := (argC0 s p 0).toNat
    let h := chainNow s
    let word (k st : Nat) : Row := laneRow (BitVec.ofNat 32 (k % 65536 * 65536 ||| st))
    let cov (j : Job) : Bool := mine s j && (if all then j.batch != h.opened else j.batch == n)
    let l := (allJobs s).filter cov
    let rev : Prop := if all then ∃ i ∈ h.revoked, i ≠ h.opened else n ∈ h.revoked
    let again := modJobs (s.modS (fun x => { x with retry := false })) (fun j => cov j && j.isFaulted) (fun j => { j with st := .queued })
    (all = false → n = h.opened → ∃ t, exec (.cpwait all a b) s = .next t ∧ DoneC s s t p (word n 2) none) ∧
    ((all = true ∨ n ≠ h.opened) →
      ((s.core.slot.retry = false ∨ l = []) → (∀ i ∈ l, settled s i = true) → (∀ i ∈ l, i.isFaulted = false) →
        ∃ t u, exec (.cpwait all a b) s = .next t ∧ DoneC s u t p (word (if all then h.lastSealed else n) (if rev then 1 else 0)) none ∧
          (¬ rev → u = s) ∧
          (rev → u = s.modS (fun x => setChain x { h with revoked := h.revoked.filter (fun i => if all then i == h.opened else i != n) }))) ∧
      (s.core.slot.retry = false → (∃ i ∈ l, settled s i = false) → exec (.cpwait all a b) s = stallC s 100) ∧
      (∀ j c f, s.core.slot.retry = false → (∀ i ∈ l, settled s i = true) → lowestSlot (l.filter Job.isFaulted) = some j → j.st = .faulted c f →
        exec (.cpwait all a b) s = .next (trapped (.cpwait all a b) s (mkTrap 0x0E (j.slot <<< 9 ||| c <<< 15) f))) ∧
      (s.core.slot.retry = true → (∃ i ∈ allJobs again, cov i = true ∧ settled again i = false) → exec (.cpwait all a b) s = stallC again 100)))) ∧
  (∀ (kind : FKind) (scp : Scp) (e : Bool) (s : State), ReadyC {} s →
    let own := (allJobs s).filter (mine s)
    let again := modJobs (s.modS (fun x => { x with retry := false })) (fun j => mine s j && j.isFaulted) (fun j => { j with st := .queued })
    let open_ (u : State) : Prop := loadsPending s = true ∨ s.core.slot.pend ≠ [] ∨ enginesBusy u = true ∨
      ∃ j ∈ allJobs u, mine u j = true ∧ j.isFaulted = false ∧ blocked u (mine u) 64 j = false
    (kind = .acq → loadsPending s = true → exec (.fence kind scp e) s = stallC s 100) ∧
    (kind = .acq → loadsPending s = false → ∃ t, exec (.fence kind scp e) s = .next t ∧ DoneC s s t {} 0 none) ∧
    (kind ≠ .acq → e = false →
      (loadsPending s = true ∨ s.core.slot.pend ≠ [] → exec (.fence kind scp e) s = stallC s 100) ∧
      (loadsPending s = false → s.core.slot.pend = [] → ∃ t, exec (.fence kind scp e) s = .next t ∧ DoneC s s t {} 0 none)) ∧
    (kind ≠ .acq → e = true →
      (s.core.slot.retry = false → open_ s → exec (.fence kind scp e) s = stallC s 100) ∧
      (∀ j c f, s.core.slot.retry = false → ¬ open_ s → lowestSlot (own.filter Job.isFaulted) = some j → j.st = .faulted c f →
        exec (.fence kind scp e) s = .next (trapped (.fence kind scp e) s (mkTrap 0x0E (j.slot <<< 9 ||| c <<< 15) f))) ∧
      ((s.core.slot.retry = false ∨ own = []) → ¬ open_ s → (∀ j ∈ own, j.isFaulted = false) →
        ∃ t, exec (.fence kind scp e) s = .next t ∧ DoneC s s t {} 0 none) ∧
      (s.core.slot.retry = true → open_ again → exec (.fence kind scp e) s = stallC again 100)))

/-- R244-R249: `sti` outside the imaged output is a plain 64-byte store; inside it, one that straddles its bounds or leaves
the handler's tile traps ADDR with reason 1 or 2; otherwise the row is stored and its images are queued in the mould, or,
where the store is held, kept with it until it has been performed (R191, R249).
Besides the rules it rests on the model's own choices in logs 6, 35. -/
def Obligations.ImagedStoreResults : Prop :=
  ∀ (a b : Opnd) (off : BitVec 5) (ord : Ord) (scp : Scp) (ext : Word) (i : Instr) (d : Word) (s : State),
    (i, d) ∈ [(Instr.sti a b off ord scp, BitVec.ofNat 32 (64 * off.toNat)), (Instr.stiLone a b ord scp ext, ext)] →
    let p : CSpec := { srcs := [a, b] }
    ReadyC p s →
    let r := argC s p 0
    let ea := (argC0 s p 1 + d).toNat
    let plain := s.core.slot.latch = none ∨ ∃ l, s.core.slot.latch = some l ∧ (ea + 63 < l.out.base ∨ l.out.base + l.out.size ≤ ea)
    (∀ l, plain → Reaches s .store ord scp 64 ea l → ∃ t, exec i s = .next t ∧ DoneC s (stored s (rowBytes r 64) scp ea l) t p 0 none) ∧
    (∀ l, s.core.slot.latch = some l → ¬ plain →
      let o := l.out
      let out := ea < o.base ∨ o.base + o.size ≤ ea + 63
      let first := (ea - o.base) / o.esize
      let strays := ∃ k, k < 64 / o.esize ∧ ((first + k) / (o.x1 * o.x2) / o.t0 ≠ l.i0 ∨ (first + k) / o.x2 % o.x1 / o.t1 ≠ l.i1 ∨ (first + k) % o.x2 / o.t2 ≠ l.i2)
      let ws := imageWrites l ea r
      let trs := (ea, resolve s (who s) .store ea) :: ws.map (fun w => (w.1, resolve s (who s) .store w.1))
      (out → exec i s = .next (trapped i s (mkTrap 0x03 (1 <<< 14 ||| infoDESC) ea))) ∧
      (¬ out → strays → exec i s = .next (trapped i s (mkTrap 0x03 (2 <<< 14 ||| infoDESC) ea))) ∧
      (¬ out → ¬ strays → ea % 64 ≠ 0 → exec i s = .next (trapped i s (mkTrap 0x05 infoWRO ea))) ∧
      (∀ q, ¬ out → ¬ strays → ea % 64 = 0 → checkAll s trs = none →
        (Reaches s .store ord scp 64 ea q → ∃ t, exec i s = .next t ∧ DoneC s (modCl (stored s (rowBytes r 64) scp ea q) (clIdx (stored s (rowBytes r 64) scp ea q).core.id)
          (fun c => { c with imgs := c.imgs ++ dueImages s scp ws })) t p 0 none) ∧
        (Passes s .store ord 64 ea q → mustHold (reached s .store 64 ea) .store ord scp q = true → (∀ z ∈ q, linksCut s (linksOf s z.key) = false) → ∃ t u, exec i s = .next t ∧ DoneC s u t p 0 none ∧
          u = { heldStore s (rowBytes r 64) ord scp ea q with held := s.held ++ [{ blankHeld (reached s .store 64 ea) q .store ord scp with store := some (rowBytes r 64), imgs := dueImages s scp ws }] })))

/-- R301-R308, R362, R364: `lend` of a good footprint zeroes its rows and pages and lends them; `reclaim` ends a lending;
with V set both revoke first, and wait for the revocation; both trap PRIV in a harvest slot; `ckpt` forms the checkpoint of a paired core, and elsewhere does nothing.
Besides the rules it rests on the model's own choices in logs 27, 43. -/
def Obligations.LendingResults : Prop :=
  (∀ (a : Opnd) (s : State), s.core.hvNow = true →
    (cWait s.core { srcs := [a] } = 0 → exec (.lend a) s = .next (trapped (.lend a) s (mkTrap 0x11 0 0))) ∧
    (cWait s.core {} = 0 → exec .reclaim s = .next (trapped .reclaim s (mkTrap 0x11 0 0)))) ∧
  (∀ (a : Opnd) (s : State), ReadyC { srcs := [a] } s →
    let r := argC s { srcs := [a] } 0
    let f : Foot := ⟨(lane r 0).toNat, (lane r 1).toNat, (lane r 2).toNat, (lane r 3).toNat⟩
    let inRows (n : Nat) : Prop := f.rb ≤ n ∧ n < f.rb + f.rn
    (∀ j, s.core.hvNow = false → lendBad s r = some j →
      exec (.lend a) s = .next (trapped (.lend a) s (mkTrap 0x03 infoDESC ((lane r j).toNat + 2 ^ 32 * j)))) ∧
    (s.core.hvNow = false → lendBad s r = none → needsRevoke s.core = true →
      exec (.lend a) s = stallC ((revoke s s.core.id).modS (fun x => { x with revoked := true })) 100) ∧
    (s.core.hvNow = false → lendBad s r = none → needsRevoke s.core = false → s.core.revoking = true → exec (.lend a) s = stallC s 100) ∧
    (s.core.hvNow = false → lendBad s r = none → needsRevoke s.core = false → s.core.revoking = false →
      (∀ e ∈ (getCl s (clIdx s.core.id)).rlt, spansMeet e.spans (pageSpan s.core.id f) = false) →
      (∀ l ∈ s.core.late, ∀ n, l.dest = .row n → ¬ inRows n) →
      ∃ t u, exec (.lend a) s = .next t ∧ DoneC s u t { srcs := [a] } 0 none ∧
        u = { s with mem := u.mem, core := { s.core with regs := u.core.regs, lend := u.core.lend, lendKern := some s.core.slot.kern, ownerDone := false } } ∧
        (∀ n, inRows n → u.core.row n = 0) ∧ (∀ n, ¬ inRows n → u.core.row n = s.core.row n) ∧
        lentFoot u.core = f ∧ lendV u.core.lend = true ∧ lendSusp u.core.lend = s.core.slot.paired ∧
        ∀ k, memRead u.mem k = if scratchKey s.core.id (4096 * f.pb) ≤ k ∧ k < scratchKey s.core.id (4096 * f.pb) + 4096 * f.pn then 0 else memRead s.mem k)) ∧
  (∀ (s : State), ReadyC {} s →
    (s.core.hvNow = false → lendV s.core.lend = false → ∃ t, exec .reclaim s = .next t ∧ DoneC s s t {} 0 none) ∧
    (s.core.hvNow = false → lendV s.core.lend = true → needsRevoke s.core = true →
      exec .reclaim s = stallC ((revoke s s.core.id).modS (fun x => { x with revoked := true })) 100) ∧
    (s.core.hvNow = false → lendV s.core.lend = true → needsRevoke s.core = false → s.core.revoking = true → exec .reclaim s = stallC s 100) ∧
    (s.core.hvNow = false → lendV s.core.lend = true → needsRevoke s.core = false → s.core.revoking = false → ∃ t, exec .reclaim s = .next t ∧
      DoneC s (s.modC (fun c => { c with lend := c.lend &&& 0x3FFFFFFF, lendKern := none })) t {} 0 none)) ∧
  (∀ (s : State), ReadyC {} s →
    let pair := s.core.slot.paired = true ∧ s.core.hvNow = false ∧ isMem s.core.id = false
    (¬ pair → ∃ t, exec .ckpt s = .next t ∧ DoneC s s t {} 0 none) ∧
    (pair → s.core.slot.backlog ≠ [] → exec .ckpt s = stallC s 100) ∧
    (pair → s.core.slot.backlog = [] → ∃ t k, exec .ckpt s = .next t ∧ DoneC s s t {} 0 none ∧ t.core.ckpt = some k ∧
      k.slot = t.core.slot ∧ k.regs = t.core.regs ∧ k.chans = t.core.chans ∧ k.mstat = t.core.mstat ∧ k.tries = 0 ∧ k.undo = []))

/-- R330, R331: a transfer on a good descriptor is queued in its memory core's engine, an empty one is not; `xws` traps
PRIV without PRV; a bad lane traps ADDR, a misaligned address or length AL.
Besides the rules it rests on the model's own choices in logs 41, 63. -/
def Obligations.TransferResults : Prop :=
  ∀ (a : Opnd) (s : State) (i : Instr) (k : JKind),
    (i, k) ∈ [(Instr.xld a, JKind.xld), (.xst a, .xst), (.xpush a, .xpush), (.xws a, .xws)] → ReadyC { srcs := [a] } s →
    let r := argC s { srcs := [a] } 0
    let u := getCl s (clIdx s.core.id)
    let far := if k = .xld ∨ k = .xst then (lane r 2).toNat + 2 ^ 32 * (lane r 3).toNat else (lane r 3).toNat
    let badAt (j : Nat) : Prop := ∃ e ∈ reservedLanes r (xferMasks k) ++ xferNamed s k r, e.1 = j ∧ e.2 = true
    let j : Job := { blankJob s k (jobFree u.jobs) with src := (lane r 0).toNat, len := (lane r 1).toNat, dst := far, dest := lane r 2, hdr := lane r 4, sw := lane r 5 }
    (k = .xws → s.core.slot.prv = false → exec i s = .next (trapped i s (mkTrap 0x11 0 0))) ∧
    ((k = .xws → s.core.slot.prv = true) →
      (∀ n, n < 16 → badAt n → (∀ m, m < n → ¬ badAt m) → exec i s = .next (trapped i s (mkTrap 0x03 infoDESC ((lane r n).toNat + 2 ^ 32 * n)))) ∧
      ((∀ n, n < 16 → ¬ badAt n) →
        (∀ v, [j.src, j.len, j.dst].find? (fun v => v % 64 != 0) = some v → exec i s = .next (trapped i s (mkTrap 0x05 0 v))) ∧
        (j.src % 64 = 0 → j.len % 64 = 0 → j.dst % 64 = 0 → acqHeld s = false →
          (jobCap u.id ≤ u.jobs.length → exec i s = stallC s 100) ∧
          (u.jobs.length < jobCap u.id → j.len = 0 → ∃ t, exec i s = .next t ∧ DoneC s s t { srcs := [a] } 0 none) ∧
          (u.jobs.length < jobCap u.id → j.len ≠ 0 → (storeHeld s (xferReads s k j) = true ∨ rltRoom s (xferRegs k j) = false) → exec i s = stallC s 100) ∧
          (u.jobs.length < jobCap u.id → j.len ≠ 0 → storeHeld s (xferReads s k j) = false → rltRoom s (xferRegs k j) = true → ∃ t, exec i s = .next t ∧
            DoneC s (enqueue s j (xferRegs k j)) t { srcs := [a] } 0 none))))

/-- R8, R9, R13, R18, R28, R29, R46, R47, R259, R266: a fetch brings the line of the PC to a slot that has not got it, and traps
ADDR beyond the store; where both streams stall with codes 1 to 5, STRDL is raised with the two codes; an illegal word raises
ILL with its reason; beyond the run-ahead limit, or behind a window change under way, these wait with code 1. Every control word
that waits stalls with the code of its wait and has no effect, and one that waits for nothing takes the trap that bars it (GANG,
PRIV), or traps WIN for a window operand beyond WL.
R11, R13, R15, R20, R28, R257, R259: what a control word waits for, and with which code. While a late write to the header row is
pending it waits outside the table; with 32 bundles outstanding, or a window change under way, with code 1; while an outstanding
arithmetic word writes a row that it reads or writes, its header row among them, reads a row that it writes, or reads or updates
MODE, cx.fpm or cx.mstat as it does, with code 5; while a late write to such a row is pending, outside the table; for an
empty queue with code 3; for a full one, its destination, with code 2. With none of these it does not wait (the order is log
54's).
Besides the rules it rests on the model's own choices in logs 16, 54. -/
def Obligations.CoreEvents : Prop :=
  (∀ (s : State),
    (s.core.slot.active = false → exec .fetch s = .next s) ∧
    (s.core.slot.active = true → (if isMem s.core.id then 0x20000 else 0x40000) ≤ s.core.slot.pc.toNat →
      (gateC s.core.slot = true → exec .fetch s = stallC s 1) ∧
      (gateC s.core.slot = false → exec .fetch s = .next (takeTrap s (mkTrap 0x03 0 s.core.slot.pc.toNat)))) ∧
    (s.core.slot.active = true → s.core.slot.pc.toNat < (if isMem s.core.id then 0x20000 else 0x40000) → lineHeld s.core.slot = false →
      ∃ t, exec .fetch s = .next t ∧ t = { s with core := t.core, peers := t.peers } ∧
        t.core = { s.core with slot := t.core.slot, alt := { s.core.alt with fetched := t.core.alt.fetched } } ∧
        t.core.slot = { s.core.slot with fetched := [(s.core.slot.pc.toNat / 64 * 64,
          rowOfBytes (memReadN s.mem (storeKey (clIdx s.core.id) (s.core.slot.pc.toNat / 64 * 64)) 64))] }) ∧
    (∀ c a, s.core.slot.active = true → s.core.slot.waitC = some c → 1 ≤ c → c ≤ 5 →
      ((s.core.slot.backlog = [] ∧ a = 1) ∨ (s.core.slot.backlog ≠ [] ∧ s.core.slot.waitA = some a ∧ 1 ≤ a ∧ a ≤ 5)) →
      exec .strdl s = .next (takeTrap s (mkTrap 0x0A (c <<< 9 ||| a <<< 13) 0))) ∧
    (∀ reason w, gateC s.core.slot = true → exec (.illegalEncoding false reason w) s = stallC s 1) ∧
    (∀ ari reason w, (ari = true ∨ gateC s.core.slot = false) → exec (.illegalEncoding ari reason w) s =
      .next (takeTrap (s.modS (fun x => { x with rep := 0 })) { cause := 0x01, ari := ari, info := reason <<< 9, faddr := 0, fword := w })) ∧
    (∀ i p, controlSpec s i = some p →
      (cWait s.core p ≠ 0 → exec i s = stallC s (cWait s.core p)) ∧
      (∀ t, cWait s.core p = 0 → p.bar = some t → exec i s = .next (trapped i s t)) ∧
      (∀ k : Fin 96, cWait s.core p = 0 → p.bar = none → .w k ∈ p.srcs ++ p.dst.toList → s.core.slot.wl ≤ k.val →
        exec i s = .next (trapped i s (mkTrap 0x02 0 0)))) ∧
    (∀ n, cWait s.core { moves := true } ≠ 0 → exec (.trap n) s = stallC s (cWait s.core { moves := true }))) ∧
  (∀ (p : CSpec) (s : State),
    let x := s.core.slot
    let may := s.core.pendingRow x.wb = false ∧ x.backlog.length < 32 ∧ x.winNext = none
    let named := locsOf x (p.srcs ++ p.dst.toList)
    let hdr : Loc := .reg x.wb
    let writes (l : Loc) : Prop := l ∈ locsOf x p.dst.toList ∨
      (l = hdr ∧ (p.hdrW = true ∨ p.modeW = true ∨ (p.moves = false ∧ (endTest s.core.hdr x.pc).1 ≠ s.core.hdr)))
    let clash (f : Footprint) : Prop := (∃ l ∈ f.wr, l = hdr ∨ l ∈ named) ∨ (∃ l ∈ f.rd, writes l) ∨
      (f.mode = true ∧ (p.modeW = true ∨ hdr ∈ locsOf x p.dst.toList)) ∨ (f.fpm = true ∧ p.fpm = true) ∨ (f.mstat = true ∧ p.mstat = true)
    let quiet := may ∧ ∀ e ∈ x.backlog, ¬ clash (entFoot x e)
    let landing := ∃ l ∈ locsOf x (p.srcs ++ (if p.late then [] else p.dst.toList)), pendingLoc s.core l = true
    let there := ∀ (n : Fin 4) (k : Nat), k < p.srcs.count (.q n) → ∃ r, (queueOf x n)[k]? = some (.full r)
    let full := ∃ n : Fin 4, p.dst = some (.q n) ∧ 16 ≤ (queueOf x n).length
    (s.core.pendingRow x.wb = true → cWait s.core p = 100) ∧
    (s.core.pendingRow x.wb = false → (32 ≤ x.backlog.length ∨ x.winNext ≠ none) → cWait s.core p = 1) ∧
    (∀ e i a, e.lone = false → e.skip = false → decodeArith e.word = .ok i → aOps i = some a → streamed a.srcs = false → entFoot x e =
      { rd := locsOf x a.srcs ++ (if a.readsD then locsOf x a.dst.toList else []), wr := locsOf x a.dst.toList, mode := usesMode i, fpm := usesFpm i, mstat := usesMstat i }) ∧
    (may → (∃ e ∈ x.backlog, clash (entFoot x e)) → cWait s.core p = 5) ∧
    (quiet → landing → cWait s.core p = 100) ∧
    (quiet → ¬ landing → (∀ n : Fin 4, ∀ e ∈ queueOf x n, ∃ r, e = .full r) → (∃ n : Fin 4, .q n ∈ p.srcs ∧ queueOf x n = []) →
      cWait s.core p = 3) ∧
    (quiet → ¬ landing → there → full → cWait s.core p = 2) ∧
    (quiet → ¬ landing → there → ¬ full → cWait s.core p = 0))

/-- R15, R20, R153, R257, R361: the oldest late write lands when its data are there: in its row, in the operand file of
its slot, or in its queue entry, on its lanes alone; with an uncorrectable error it lands zeros and the kernel is to be
stopped by a machine check, FADDR the line that it came from (of an accumulator line a free value, log 5).
R141, R151, R158, R180: a store that nothing holds back is performed, the oldest of its slot first; an access that was
held is performed once nothing holds it back: it reads its bytes then, a store's images follow it, and a load's late
write then has its data (a page that the access no longer reaches is read as zero: the model's choice, log 68).
Besides the rules it rests on the model's own choices in logs 5, 6, 9, 28, 68, 81. -/
def Obligations.LateWriteEvents : Prop :=
  (∀ (s : State) (l : Late) (r : List Late) (d : Row),
    s.core.late = l :: r → l.data = some d → refreshHolds s.core l = false → s.core.ckpt = none →
    let rest : Core := { s.core with late := s.core.late.filter (fun m => m.id != l.id) }
    let w := s.core.id
    exec (.lateWriteLanding w false) s = .next { s with core := landIn rest l d } ∧
    (l.addr < 5 * 2 ^ 52 → ∃ q, exec (.lateWriteLanding w true) s = .next { s with core := landIn rest l 0, stops := s.stops ++ [q] } ∧
      q.kern = l.kern ∧ q.lane4 = BitVec.ofNat 32 (0x21 ||| (arrayOf l.addr <<< 17 ||| 512)) ∧ q.faddr = lineAddr l.addr ∧
      (l.addr < 3 * 2 ^ 52 → q.faddr = l.addr / 64 * 64 % 2 ^ 52)) ∧
    (5 * 2 ^ 52 ≤ l.addr → ∃ q, exec (.lateWriteLanding w true) s =
      .next { (takeFree s).2 with core := landIn rest l 0, stops := s.stops ++ [q] } ∧ q.kern = l.kern ∧
      q.lane4 = BitVec.ofNat 32 (0x21 ||| (6 <<< 17 ||| 512))) ∧
    (∀ n, l.dest = .row n → landIn rest l d = { rest with regs := (landIn rest l d).regs } ∧
      Merged l.lanes d (s.core.row n) ((landIn rest l d).row n) ∧ ∀ q, q ≠ n → (landIn rest l d).row q = s.core.row q) ∧
    (∀ n, l.dest = .ofile s.core.slot.sid n → n < 8 →
      (landIn rest l d).slot = { s.core.slot with ofile := (landIn rest l d).slot.ofile } ∧
      Merged l.lanes d (oRow s.core.slot n) (oRow (landIn rest l d).slot n) ∧ ∀ q, q ≠ n → oRow (landIn rest l d).slot q = oRow s.core.slot q) ∧
    (∀ id k, l.dest = .queue id → queueOf (landIn rest l d).slot k = (queueOf s.core.slot k).map (fun e =>
      if e = .rsv id then .full (mergeLanes l.lanes d 0) else e))) ∧
  ((∀ (s : State) (p : PendW) (r : List PendW), s.core.slot.pend = p :: r →
    (∀ h ∈ s.held, h.core = s.core.id → h.hv = s.core.hvNow → h.store = none ∧ h.rmw = none ∧ h.cas = none) →
    linksWait s (linksOf s p.addr) = false →
    exec (.writePerformed s.core.id) s = .next (s.modS (fun x => { x with pend := r }))) ∧
  (∀ (s : State) (i : Nat) (h : Held), s.held[i]? = some h →
    (heldReady s i h = false → exec (.heldRemoteAccess i) s = .next s) ∧
    (heldReady s i h = true →
      let u := { s with held := s.held.eraseIdx i }
      let old := heldRead h u
      let filled (x : State) : State := modCore x h.lateAt (fun c => { c with late := c.late.map (fun l =>
        if l.id = h.lateId ∧ l.data = none then { l with data := some (rowOfBytes old) } else l) })
      let imaged (x : State) : State := h.imgs.foldl (fun x i => modCl x (clIdx i.core) (fun c => { c with imgs := c.imgs ++ [i] })) x
      ((∀ p ∈ h.spots, reaches s ⟨h.core, h.hv, h.proc⟩ p.key = true) → old = readSpots u h.kern h.spots) ∧
      (∀ bs, h.store = some bs → ∃ t, exec (.heldRemoteAccess i) s = .next t ∧ t.mem = (imaged (heldWrite h h.spots bs u)).mem ∧
        t.held = u.held ∧ (∀ c, (getCl t c).imgs = (getCl (imaged (heldWrite h h.spots bs u)) c).imgs) ∧ (getCore t h.core).regs = (getCore s h.core).regs) ∧
      (∀ op y, h.store = none → h.rmw = some (op, y) → exec (.heldRemoteAccess i) s =
        .next (filled (imaged (heldWrite h h.spots (natBytes (amoNew op (8 * old.length) (bytesNat old) y.toNat) old.length) u)))) ∧
      (∀ x y, h.store = none → h.rmw = none → h.cas = some (x, y) → exec (.heldRemoteAccess i) s =
        .next (filled (imaged (if bytesNat old = x.toNat then heldWrite h h.spots (natBytes y.toNat old.length) u else u)))) ∧
      (h.store = none → h.rmw = none → h.cas = none → exec (.heldRemoteAccess i) s = .next (filled (imaged u))))))

/-- R202-R205: delivery to a core. A message of a stopped kernel or an old generation is discarded; one to an invalid tag
is, and its kernel is to be stopped; otherwise it takes the lowest free message slot, ready where its tag is enabled and
waiting where it is not, and then PEND is set; a slot kept for its tag takes it before any other (R210); a full core spills it to
the cluster's overflow area or refuses it.
Besides the rules it rests on the model's own choices in log 34. -/
def Obligations.DeliveryRules : Prop :=
  ∀ (s : State) (m : Msg) (w : Word),
    let c := getCore s w
    let e := look 0 c.tags (hdrTag m.hdr)
    (kernLive s m.kern = false → deliverOne s m w = some s) ∧
    (kernLive s m.kern = true → e.getLsbD 63 = false → ∃ q, deliverOne s m w = some { s with stops := s.stops ++ [q] } ∧ q.kern = m.kern ∧
      q.lane4 = 3) ∧
    (kernLive s m.kern = true → e.getLsbD 63 = true → ∃ tags,
      (e.getLsbD 60 = true → tags = c.tags) ∧
      (e.getLsbD 60 = false → tags = put c.tags (hdrTag m.hdr) (look 0 tags (hdrTag m.hdr)) ∧ (look 0 tags (hdrTag m.hdr)).getLsbD 61 = true) ∧
      let placed (n : NiSlot) (i : Nat) : Prop := n.idx = i ∧ n.msg = { m with stamp := s.timer } ∧
        n.cls = max (hdrClass m.hdr) (e.extractLsb' 56 2).toNat ∧ n.st = if e.getLsbD 60 then .ready else .waiting
      (∀ k, c.ni.find? (fun n => n.st == .kept && n.keep == some (hdrTag m.hdr)) = some k → ∃ n, placed n k.idx ∧ n.keep = k.keep ∧
        deliverOne s m w = some (setCore s { c with ni := c.ni.filter (fun q => q.idx != k.idx) ++ [n], tags := tags })) ∧
      ((∀ n ∈ c.ni, n.st = .kept → n.keep ≠ some (hdrTag m.hdr)) →
        (∀ i, i < 16 → (∀ j, j < i → ∃ n ∈ c.ni, n.idx = j) → (∀ n ∈ c.ni, n.idx ≠ i) → ∃ n, placed n i ∧ n.keep = none ∧
          deliverOne s m w = some (setCore s { c with ni := c.ni ++ [n], tags := tags })) ∧
        ((∀ i, i < 16 → ∃ n ∈ c.ni, n.idx = i) →
          ((getCl s (clIdx w)).spill.length < spillRoom s (getCl s (clIdx w)).id → deliverOne s m w =
            some (setCl (setCore s { c with tags := tags })
              { getCl s (clIdx w) with spill := (getCl s (clIdx w)).spill ++ [(w, { m with stamp := s.timer })] })) ∧
          (spillRoom s (getCl s (clIdx w)).id ≤ (getCl s (clIdx w)).spill.length → deliverOne s m w = none))))

/-- R135, R202-R207, R256, R278: a message that waits at its source is delivered everywhere or not at all; an answer reaches
its `send`, or the source of another message; an idle owner slot starts the first ready message with the state of R206; a
prompt message pre-empts normal and bulk work, and the pre-empted handler resumes where it stood; a tag whose header row holds
zero starts with its starting context (R279; log 62), and where the slot's process changes, what was to land in its operand file
lands nowhere (log 79); a service dispatch
starts with PRV set, on a present core, in a window that R254 admits. A message that would start a record of a queue that starts
none waits at its source (R287), and no handler starts on the shadow of a pair or where the weight store is open (R334, R362).
Besides the rules it rests on the model's own choices in logs 3, 7, 19, 62, 64, 66, 79, 81. -/
def Obligations.DispatchEvents : Prop :=
  (∀ (s : State) (i : Nat) (m : Msg), s.net[i]? = some m →
    let u := { s with net := s.net.eraseIdx i }
    let own := m.dest.filter (fun w => pkgOf w == ownPkg s)
    (startHeld s m = true → exec (.messageDelivery i) s = .next s) ∧
    (∀ t, startHeld s m = false → deliverAll m own u = .ok t → (∀ w ∈ m.dest, pkgOf w = ownPkg s) →
      exec (.messageDelivery i) s = .next (chargeMsg m (if m.kind ≤ 1 then markStarted t m.kern else t))) ∧
    (∀ t, startHeld s m = false → deliverAll m own u = .ok t → (∃ w ∈ m.dest, pkgOf w ≠ ownPkg s) →
      ((∀ w ∈ m.dest, pkgOf w ≠ ownPkg s → linksCut s (linksTo s (pkgOf w)) = false) →
        exec (.messageDelivery i) s = .next (chargeMsg m { u with outbound := s.outbound ++ [m] })) ∧
      ((∃ w ∈ m.dest, pkgOf w ≠ ownPkg s ∧ linksCut s (linksTo s (pkgOf w)) = true) → (∀ q ∈ s.stops, q.kern ≠ m.kern) → ∃ q, q.kern = m.kern ∧ q.status = 2 ∧
        exec (.messageDelivery i) s = .next (chargeMsg m { u with outbound := s.outbound ++ [m], stops := s.stops ++ [q] }))) ∧
    (∀ w, deliverAll m own u = .error w → exec (.messageDelivery i) s = .next s)) ∧
  (∀ (s : State) (m : Msg) (a : SendAns), s.core.slot.sendWait = some ⟨m, none⟩ → (a = .accepted ∨ ∃ v, a = .refused v) →
    (∀ w ∈ m.dest, pkgOf w ≠ ownPkg s → linksWait s (linksTo s (pkgOf w)) = false) →
    ∃ t, exec (.sendAnswer s.core.id a) s = .next t ∧ t = { s with core := t.core, outbound := s.outbound.erase m } ∧
    t.core.slot = { s.core.slot with sendWait := some ⟨m, some a⟩, aside := t.core.slot.aside, waitC := none }) ∧
  (∀ (s : State) (w : Word) (m : Msg) (a : SendAns), (∀ y ∈ (getCore s w).slots, y.sendDue = none) →
    s.outbound.find? (fun q => q.srcw == w) = some m → startHeld s m = false →
    (∀ v ∈ m.dest, pkgOf v ≠ ownPkg s → linksWait s (linksTo s (pkgOf v)) = false) →
    let u := { s with outbound := s.outbound.erase m }
    let own := m.dest.filter (fun w => pkgOf w == ownPkg s)
    (∀ t, a = .accepted → deliverAll m own u = .ok t →
      exec (.sendAnswer w a) s = .next (if m.kind ≤ 1 then markStarted { t with remote := t.remote ++ [m] } m.kern
        else { t with remote := t.remote ++ [m] })) ∧
    ((∃ v, a = .refused v) ∨ (a = .accepted ∧ ∃ v, deliverAll m own u = .error v) →
      exec (.sendAnswer w a) s = .next (if m.kind = 2 ∨ m.kind = 3 ∨ m.kind = 6 then u else { u with net := s.net ++ [m] }))) ∧
  (∀ (s : State) (w : Word) (m : Msg), s.remote.find? (fun q => q.srcw == w) = some m →
    (∀ k ∈ s.remote, ∀ v ∈ k.dest, pkgOf v ≠ ownPkg s → linksWait s (linksTo s (pkgOf v)) = false) →
    exec (.sendAnswer w .finished) s = .next { s with remote := s.remote.erase m }) ∧
  (∀ (s : State) (w : Word) (n : NiSlot),
    let c := getCore s w
    let x := c.owner
    let e := look 0 c.tags (hdrTag n.msg.hdr)
    let proc := (e.extractLsb' 88 8).toNat
    ownerNext s c = some n → x.active = false → claimWaits c n = false → (c.shadow = none ∨ n.cls = 0) →
    shadowCore s w = false → storeOpenAt s w = false → ∃ t, exec (.handlerStart w) s = .next t ∧
      let y := (getCore t w).owner
      (getCore t w).ni = c.ni.map (fun q => if q.idx = n.idx then { q with st := .running } else q) ∧ t.mem = s.mem ∧
      y.active = true ∧ y.halted = false ∧ y.pc = e.extractLsb' 0 32 ∧ y.backlog = [] ∧ y.wb = (e.extractLsb' 32 11).toNat ∧
      y.wl = (e.extractLsb' 48 7).toNat ∧ (y.pb, y.pl) = look (0, 2048) c.bounds proc ∧ y.prv = false ∧ y.queues = Vector.replicate 4 [] ∧
      y.toks = [] ∧ y.msgSlot = some n.idx ∧ y.msgLive = true ∧ y.cls = n.cls ∧ y.proc = proc ∧ y.kern = n.msg.kern ∧ y.latch = n.msg.img ∧
      (x.lastProc = some proc → y.ofile = x.ofile ∧ y.latC = x.latC ∧ y.latA = x.latA ∧ y.fpm = x.fpm) ∧
      (∀ q, x.lastProc = some q → q ≠ proc → y.ofile = Vector.replicate 8 0 ∧ y.latC = 0 ∧ y.latA = 0 ∧ y.fpm = 0) ∧
      (isMem w = false → (getCl t (clIdx w)).proc = some proc) ∧
      (e.getLsbD 63 = true → c.row y.wb = 0 → (getCore t w).row y.wb = startHeader proc (hdrTag n.msg.hdr) ∧ ∀ q, q ≠ y.wb → (getCore t w).row q = c.row q) ∧
      ((e.getLsbD 63 = false ∨ c.row y.wb ≠ 0) → (getCore t w).regs = c.regs) ∧
      (∀ q o, x.lastProc = some q → q ≠ proc → ∀ l ∈ (getCore t w).late, l.dest ≠ .ofile x.sid o)) ∧
  (∀ (s : State) (p : NiSlot),
    let x := unissue s.core.slot
    s.core.hvNow = false → x.active = true → x.halted = false → x.cls ≠ 0 → x.rep = 0 → s.core.shadow = none →
    x.trapWait = none → s.core.pendingRow x.wb = false →
    pickReady (fun q => ownerMay s s.core q && q.cls == 0) s.core.ni = some p → ∃ t h, exec (.preempt s.core.id) s = .next t ∧ SameOutside s t ∧
      t.core.slot.active = false ∧ t.core.slot.ofile = s.core.slot.ofile ∧ t.core.shadow = some h ∧
      h.slot = { x with waitC := none, waitA := none } ∧ h.l2 = lane s.core.hdr 2 ∧ h.l3 = lane s.core.hdr 3 ∧ h.l4 = lane s.core.hdr 4 ∧
      (∀ q, q ≠ x.wb → t.core.row q = s.core.row q) ∧
      ∀ j, j < 16 → lane (t.core.row x.wb) j = if j = 2 then x.pc else if j = 3 then epcAOf x else if j = 4 then 0 else lane s.core.hdr j) ∧
  (∀ (s : State) (h : Shadow), s.core.hvNow = false → s.core.slot.active = false → s.core.shadow = some h → s.core.pendingRow h.slot.wb = false →
    stopped s h.slot.kern = false → pickReady (fun q => ownerMay s s.core q && q.cls == 0) s.core.ni = none →
    ∃ t, exec (.preemptResume s.core.id) s = .next t ∧ SameOutside s t ∧
      t.core.shadow = none ∧ t.core.slot = { h.slot with pc := lane (s.core.row h.slot.wb) 2 &&& 0xFFFFFFF8, ofile := s.core.slot.ofile, fetched := [], chains := s.core.slot.chains, lastProc := s.core.slot.lastProc, pend := h.slot.pend ++ s.core.slot.pend } ∧
      (∀ q, q ≠ h.slot.wb → t.core.row q = s.core.row q) ∧
      ∀ j, j < 16 → lane (t.core.row h.slot.wb) j = if j = 2 then h.l2 else if j = 3 then h.l3 else if j = 4 then h.l4 else lane (s.core.row h.slot.wb) j) ∧
  (∀ (s : State) (pc : Word) (wb wl pb pl proc : Nat), s.core.hvNow = false → s.core.slot.active = false →
    (coreHere s s.core.id = true → shadowCore s s.core.id = false → 1 ≤ wl ∧ wl ≤ 96 ∧ pb ≤ wb ∧ wb + wl ≤ pb + pl ∧ pb + pl ≤ 2048 →
    ∃ t, exec (.serviceDispatch s.core.id pc wb wl pb pl proc) s = .next t ∧ SameOutside s t ∧
      t.core = { s.core with slot := t.core.slot, ownerDone := false, late := t.core.late } ∧
      (s.core.slot.lastProc = some proc ∨ s.core.slot.lastProc = none → t.core.late = s.core.late) ∧
      (∀ q, s.core.slot.lastProc = some q → q ≠ proc → t.core.late = s.core.late.map (fun l =>
        match l.dest with
        | .ofile i _ => if i = s.core.slot.sid then { l with dest := .none } else l
        | _ => l)) ∧
      t.core.slot.active = true ∧ t.core.slot.prv = true ∧ t.core.slot.pc = pc &&& 0xFFFFFFF8 ∧ t.core.slot.wb = wb ∧ t.core.slot.wl = wl ∧
      t.core.slot.pb = pb ∧ t.core.slot.pl = pl ∧ t.core.slot.proc = proc ∧ t.core.slot.lastProc = some proc ∧
      t.core.slot.queues = Vector.replicate 4 [] ∧ t.core.slot.msgSlot = none ∧
      (s.core.slot.lastProc = some proc → t.core.slot.ofile = s.core.slot.ofile ∧ t.core.slot.latC = s.core.slot.latC ∧
        t.core.slot.latA = s.core.slot.latA ∧ t.core.slot.fpm = s.core.slot.fpm) ∧
      (∀ q, s.core.slot.lastProc = some q → q ≠ proc →
        t.core.slot.ofile = Vector.replicate 8 0 ∧ t.core.slot.latC = 0 ∧ t.core.slot.latA = 0 ∧ t.core.slot.fpm = 0)) ∧
    (¬ (1 ≤ wl ∧ wl ≤ 96 ∧ pb ≤ wb ∧ wb + wl ≤ pb + pl ∧ pb + pl ≤ 2048) → exec (.serviceDispatch s.core.id pc wb wl pb pl proc) s = .next s) ∧
    ((coreHere s s.core.id = false ∨ shadowCore s s.core.id = true) → exec (.serviceDispatch s.core.id pc wb wl pb pl proc) s = .next s))

/-- R187, R217, R299: a decrement takes one from its entry's count, or with the last one frees the entry and sends its
message; at a free or faulted entry it stops its kernel with cause DCTF; one of an old generation is discarded, and one for another
package leaves this one (log 64). A member of another package arrives at a barrier as that package tells; a barrier's phase completes when every member
of the group has arrived and every copy counted into it has settled.
Besides the rules it rests on the model's own choices in logs 32, 65, 81. -/
def Obligations.GroupEvents : Prop :=
  (∀ (s : State) (i : Nat) (d : Dec), s.decs[i]? = some d → d.pkg = ownPkg s → genLive s d.kern = true →
    (∀ e ∈ s.decs.take i, ¬ (e.pkg = d.pkg ∧ e.cl = d.cl ∧ e.core = d.core ∧ e.hv = d.hv ∧ e.ctxid = d.ctxid)) →
    let u := { s with decs := s.decs.eraseIdx i }
    let ent := (getCl s d.cl).dct.find? (fun p => p.1 == d.entry)
    (∀ n hdr dest row ctx, ent = some (d.entry, .armed n hdr dest row d.kern ctx) → 1 < n → exec (.dctDecrement i) s =
      .next (modCl u d.cl (fun c => { c with dct := put c.dct d.entry (.armed (n - 1) hdr dest row d.kern ctx) }))) ∧
    (∀ n hdr dest row ctx, ent = some (d.entry, .armed n hdr dest row d.kern ctx) → n ≤ 1 → ∃ m, exec (.dctDecrement i) s =
      .next { modCl u d.cl (fun c => { c with dct := c.dct.filter (fun e => e.1 != d.entry) }) with net := s.net ++ [m] } ∧ m.hdr = hdr ∧
        m.dest = [dest] ∧ m.rows = row.toList ∧ m.kind = 4 ∧ m.dent = d.entry ∧ m.kern = d.kern ∧ m.ctxid = ctx) ∧
    (∀ k, (ent = none ∧ k = d.kern ∨ ent = some (d.entry, .fault k)) → ∃ q, exec (.dctDecrement i) s =
      .next { modCl u d.cl (fun c => { c with dct := put c.dct d.entry (.fault k) }) with stops := s.stops ++ [q] } ∧ q.kern = k ∧ q.lane4 = 0x20)) ∧
  (∀ (s : State) (i : Nat) (d : Dec), s.decs[i]? = some d → (d.pkg ≠ ownPkg s ∨ genLive s d.kern = false) →
    (∀ e ∈ s.decs.take i, ¬ (e.pkg = d.pkg ∧ e.cl = d.cl ∧ e.core = d.core ∧ e.hv = d.hv ∧ e.ctxid = d.ctxid)) →
    linksWait s (linksTo s d.pkg) = false →
    exec (.dctDecrement i) s = .next { s with decs := s.decs.eraseIdx i }) ∧
  (∀ (s : State) (p : Part) (grp : Nat) (w : Word), partById s p.id = some p → pkgOf w ≠ ownPkg s → w ∈ look [] p.groups grp →
    w ∉ (barOf s p.id grp).arrived →
    let b := barOf s p.id grp
    (linksWait s (linksTo s (pkgOf w)) = true → exec (.sendAnswer w (.arrived p.id grp)) s = .next s) ∧
    (linksWait s (linksTo s (pkgOf w)) = false → ∃ t, exec (.sendAnswer w (.arrived p.id grp)) s = .next t ∧
      t = { setBar s { b with arrived := b.arrived ++ [w] } with clusters := t.clusters } ∧ ∀ c, getCl t c = { getCl s c with clock := (getCl t c).clock })) ∧
  (∀ (s : State) (g : Nat), ∃ f t, exec (.barrierPhaseComplete g) s = .next t ∧ t = { s with bars := s.bars.map f, clusters := t.clusters } ∧
    (∀ c, getCl t c = { getCl s c with clock := (getCl t c).clock }) ∧ ∀ b ∈ s.bars,
    let full := b.grp = g ∧ (∃ p, partById s b.part = some p ∧ look [] p.groups g ≠ [] ∧ ∀ w ∈ look [] p.groups g, w ∈ b.arrived) ∧
      ∀ c ∈ s.clusters, (∃ p, partOfCl s c.id = some p ∧ p.id = b.part) → ∀ j ∈ c.jobs, j.phase = some (g, b.phase) → settled s j = true
    (full → f b = { b with phase := b.phase + 1, arrived := [] }) ∧ (¬ full → f b = b))

/-- R138, R142, R163-R170, R366: the first job of a unit that nothing holds back starts, at most eight at once in a copy unit;
the beats of the running jobs go round-robin; a copy's beat goes from source to destination 64 bytes on, and the last one
frees the job and its locks; a reduction's destination discards a beat that it has accepted; an uncorrectable error, and an address that names nothing or is not allowed, stop it FAULTED
before the beat with their kind; a stream's beat carries 64 bytes to its channel, the last one marked END, and zeros where it reads an uncorrectable error, which
stops its kernel (R361; log 28). A beat whose target no link reaches now waits (R365).
Besides the rules it rests on the model's own choices in logs 10, 11, 18, 23, 36, 68, 81. -/
def Obligations.CopyEvents : Prop :=
  (∀ (s : State) (cl : Nat) (k : Job),
    let u := getCl s cl
    u.jobs.find? (startable s) = some k → (256 ≤ cl ∨ (u.jobs.filter (fun j => j.st == .running)).length < 8) →
    exec (.copyJobStart cl k.slot) s = .next (setCl s { u with jobs := u.jobs.map (fun i => if i.slot = k.slot then { i with st := .running } else i) })) ∧
  (∀ (u : Cluster) (j : Job), nextBeat u = some j → j ∈ u.jobs ∧ j.beats = true ∧
    ∀ k ∈ u.jobs, k.beats = true → k.slot ≠ j.slot → (u.rr < j.slot → k.slot < j.slot → k.slot ≤ u.rr) ∧ (j.slot ≤ u.rr → j.slot < k.slot ∧ k.slot ≤ u.rr)) ∧
  (∀ (s : State) (cl : Nat) (j : Job) (k : CpyKind),
    let u := getCl s cl
    let v := setCl s { u with rr := j.slot }
    let n := min 64 (j.len - 64 * j.beat)
    nextBeat u = some j → j.kind = .cpy k → (sliceWaits v j = false ∨ k = .fill) →
    ((∃ l ∈ jobLinks v j, linksWait v l = true) → (∀ l ∈ jobLinks v j, linksCut v l = false) → exec (.copyBeat cl j.slot false) s = .next v) ∧
    ((∀ l ∈ jobLinks v j, linksWait v l = false) →
    (k ≠ .fill → exec (.copyBeat cl j.slot true) s = .next (setJob v cl { j with st := .faulted 5 (beatAddr j k) })) ∧
    (∀ a t kind, cpyBeat v j k = .error (a, t) → faultKind t = some kind → (∀ r, t ≠ .ext r) →
      exec (.copyBeat cl j.slot false) s = .next (setJob v cl { j with st := .faulted kind a, xl := Xlat.none })) ∧
    (∀ src ps, cpySource v j k (64 * j.beat) n = .ok src → jobPlaces v j (if isReduce k then .rmw else .store) (j.dst + 64 * j.beat) n = .ok ps →
      let x := if isReduce k = false then writePlaces j ps src v
        else if j.beat < expected v j then v
        else writePlaces j ps (combine k (readPlaces v j ps) src) (accepted v j)
      let y := chargeN (if k = .fill then 1 else 2) (touchRange j.xl (touchRange j.xl x j.who (beatAddr j k) n) j.who (j.dst + 64 * j.beat) n)
        j.core .sram j.ctxid j.proc j.kern
      let z := if beatLeaves v j then charge y j.core .net j.ctxid j.proc j.kern else y
      (64 * (j.beat + 1) < j.len → exec (.copyBeat cl j.slot false) s = .next (setJob z cl { j with beat := j.beat + 1, xl := Xlat.none })) ∧
      (j.len ≤ 64 * (j.beat + 1) → exec (.copyBeat cl j.slot false) s = .next (dropJob z cl j))))) ∧
  (∀ (s : State) (w : Word) (i : Nat) (t : Strm),
    let d := getCore s t.dest
    let key := ((t.key : Int) + (((t.i % t.n0 : Nat) : Int) * t.s0 + ((t.i / t.n0 % t.n1 : Nat) : Int) * t.s1 + ((t.i / (t.n0 * t.n1) : Nat) : Int) * t.s2)).toNat
    let b : Beat := { row := if reaches s ⟨w, t.hv, t.proc⟩ key then rowOfBytes (kRead s t.kern ⟨key, t.enc⟩ 64) else 0, last := t.i + 1 == t.n0 * t.n1 * t.n2,
                      kern := t.kern, hv := t.hv, src := w, strm := t.at_ }
    (getCore s w).strms[i]? = some t → i < 4 → (chanOf d t.ch).length < 16 → t.ch < 4 → (0 < t.i ∨ channelTaken s w i t = false) → (getCore s w).inRefresh = false →
    linksWait s (linksOf s key) = false →
    (∃ u, exec (.streamBeat w i) s = .next u ∧ chanOf (getCore u t.dest) t.ch = chanOf d t.ch ++ [b] ∧ u.mem = s.mem ∧ u.stops = s.stops ∧
      (b.last = false → (getCore u w).strms = (getCore s w).strms.set i { t with i := t.i + 1 }) ∧
      (b.last = true → (getCore u w).strms = (getCore s w).strms.eraseIdx i)) ∧
    (∃ u q, exec (.streamBeat w (i + 4)) s = .next u ∧ chanOf (getCore u t.dest) t.ch = chanOf d t.ch ++ [{ b with row := 0 }] ∧
      u.stops = s.stops ++ [q] ∧ q.kern = t.kern ∧ q.lane4 = BitVec.ofNat 32 (0x21 ||| (arrayOf key <<< 17 ||| 512)) ∧ q.faddr = lineAddr key))

/-- R190, R248, R332, R333: a transfer's beat moves 64 bytes between the buffer and its far side; an `xst` to host memory
keeps its job until it has read back, and a push that owes a message until the message is sent, which waits for the
memory core's own earlier accesses; a mould performs its oldest image that nothing holds back.
Besides the rules it rests on the model's own choices in logs 10, 19, 23, 36, 64, 81. -/
def Obligations.TransferEvents : Prop :=
  (∀ (s : State) (w : Word) (j : Job),
    let u := getCl s (clIdx w)
    let v := setCl s { u with rr := j.slot }
    let b := 64 * j.beat
    let bytes := memReadN s.mem (localKey j.core (j.src + b)) 64
    nextBeat u = some j → j.kind.isXfer = true →
    (j.msgDue = true → exec (.transferBeat w j.slot false) s = .next (dropJob v (clIdx w) j)) ∧
    (j.msgDue = false → (∀ l ∈ jobLinks v j, linksWait v l = false) →
    let next (x : State) : State := (fun y => if b + 64 < j.len then setJob y (clIdx w) { j with beat := j.beat + 1, xl := Xlat.none }
      else if (j.kind = .xpush ∧ j.hdr ≠ 0) ∨ readsBack v j b = true then setJob y (clIdx w) { j with beat := j.beat + 1, xl := Xlat.none, msgDue := true }
      else dropJob y (clIdx w) j) (charge (charge x j.core .sram j.ctxid j.proc j.kern) j.core .net j.ctxid j.proc j.kern)
    let used (x : State) : State := touchRange j.xl x j.who (j.dst + b) 64
    (∀ p, j.kind = .xld → resolveX j.xl v j.who .load (j.dst + b) = .ok p →
      exec (.transferBeat w j.slot false) s = .next (next (used { v with mem := memWriteN s.mem (localKey j.core (j.src + b)) (kRead v j.kern p 64) }))) ∧
    (∀ p, j.kind = .xst → resolveX j.xl v j.who .store (j.dst + b) = .ok p →
      (readsBack v j b = true ↔ 2 * spaceSize ≤ p.key ∧ p.key < 3 * spaceSize) ∧
      exec (.transferBeat w j.slot false) s = .next (next (used (kWrite v j.kern j.core j.hv j.ctxid j.proc p bytes)))) ∧
    (j.kind = .xws → (getCore s j.dest).inRefresh = false →
      exec (.transferBeat w j.slot false) s = .next (next { v with mem := memWriteN s.mem (sliceKey j.dest (j.dst + b)) bytes })) ∧
    (j.kind = .xpush → j.beat < expected v j → exec (.transferBeat w j.slot false) s = .next (next (shrinkEntries v j b))) ∧
    (j.kind = .xpush → expected v j ≤ j.beat → j.sw = 0xFFFFFFFF →
      exec (.transferBeat w j.slot false) s =
        .next (next (shrinkEntries { accepted v j with mem := memWriteN s.mem (localKey j.dest (j.dst + b)) bytes } j b))) ∧
    (j.kind = .xpush → expected v j ≤ j.beat → j.sw ≠ 0xFFFFFFFF →
      let m := memWriteN s.mem (localKey j.dest (j.dst + b)) bytes
      let k := localKey j.dest j.sw.toNat
      exec (.transferBeat w j.slot false) s =
        .next (next (shrinkEntries { accepted v j with mem := memWriteN m k (natBytes ((memNat m k 4 + 1) % 2 ^ 32) 4) } j b))))) ∧
  (∀ (s : State) (w : Word) (j : Job), (getCl s (clIdx w)).jobs.find? (fun i => i.slot == j.slot && i.kind == .xpush && i.msgDue) = some j →
    (agentBusy s w j.hv (narrowest w [j.dest]) = true → exec (.pushCompletionMessage w j.slot) s = .next s) ∧
    (agentBusy s w j.hv (narrowest w [j.dest]) = false → ∃ m,
    exec (.pushCompletionMessage w j.slot) s = .next { dropJob s (clIdx w) j with net := s.net ++ [m] } ∧ m.hdr = j.hdr ∧ m.dest = [j.dest] ∧
      m.srcw = w ∧ m.kind = 5 ∧ m.kern = j.kern ∧ (hdrRows j.hdr = 0 → m.rows = []) ∧
      (hdrRows j.hdr ≠ 0 → ∃ r, m.rows = [r] ∧ lane r 0 = BitVec.ofNat 32 j.dst ∧ lane r 1 = BitVec.ofNat 32 j.len))) ∧
  (∀ (s : State) (cl : Nat) (i : Img) (r : List Img), (getCl s cl).imgs = i :: r → rltLock s .store i.key = none → (∀ h ∈ s.held, h.core ≠ i.core) →
    linksWait s (linksOf s i.key) = false →
    i.enc = none → reaches s ⟨i.core, i.hv, i.proc⟩ i.key = true → i.key < 2 ^ 52 →
    ∃ t, exec (.imageWrite cl) s = .next t ∧ t.mem = memWriteN s.mem i.key i.bytes ∧ (getCl t cl).imgs = r ∧ t.queues = s.queues)

/-- R221, R225-R232: the first complete gang whose scales nothing locks starts with the posts of all its members; a post that has
waited 2^20 cycles is withdrawn; a step that retires adds its products to the tiles: the sum of a plus-times cell modulo 2^48, the OR
of an or-and cell, the least of a min-plus cell and the sums whose two terms are finite, the greatest of a max-plus cell; an operand read in error stops its member's kernel; after the last step the operation and its locks are gone.
Besides the rules it rests on the model's own choices in log 28. -/
def Obligations.GangEvents : Prop :=
  (∀ (s : State) (cl : Nat) (p : Post),
    let u := getCl s cl
    u.posts.find? (fun q => complete u q && !scalesLocked s cl q.ext) = some p → ∃ t o, exec (.gangStart cl) s = .next t ∧
      (getCl t cl).ops = u.ops ++ [o] ∧ o.ext = p.ext ∧ o.step = 0 ∧ o.members.map (fun m => m.core) = p.ext.cores ∧
      (getCl t cl).posts = u.posts.filter (fun q => !(p.ext.mask.getLsbD q.core && q.ext == p.ext)) ∧ t.mem = s.mem) ∧
  (∀ (s : State) (w : Word) (p : Post), (getCl s (clIdx w)).posts.find? (fun q => q.core == coreOf w) = some p →
    ((getCore s w).cycle.toNat < p.at_ + 1048576 → exec (.gangto w) s = .next s) ∧
    (p.at_ + 1048576 ≤ (getCore s w).cycle.toNat → ∃ t, exec (.gangto w) s = .next t ∧ (getCl t (clIdx w)).posts = (getCl s (clIdx w)).posts.filter (fun q => q.core != coreOf w))) ∧
  (∀ (g : GangWord) (x : BitVec 48) (as bs : List Int),
    (g.ring = .pt → (cell g x as bs).1 = BitVec.ofInt 48 (x.toInt + (List.zipWith (fun a b => a * b) as bs).sum)) ∧
    (g.ring = .ora → (cell g x as bs).1 = if ∃ p ∈ as.zip bs, p.1 ≠ 0 ∧ p.2 ≠ 0 then 1 else x)) ∧
  (∀ (g : GangWord) (x : BitVec 48) (as bs : List Int),
    let wa : Nat := if g.af = .i16 then 15 else 7
    let wb : Nat := if g.bf = true then 15 else 7
    let near := (as.zip bs).filter (fun p => p.1 ≠ 2 ^ wa - 1 && p.2 ≠ 2 ^ wb - 1)
    let far := (as.zip bs).filter (fun p => p.1 ≠ -2 ^ wa && p.2 ≠ -2 ^ wb)
    (g.ring = .minp → ∃ m : Int, (cell g x as bs).1 = BitVec.ofInt 48 m ∧ m ≤ x.toInt ∧ (∀ p ∈ near, m ≤ p.1 + p.2) ∧
      (m = x.toInt ∨ ∃ p ∈ near, m = p.1 + p.2)) ∧
    (g.ring = .maxp → ∃ m : Int, (cell g x as bs).1 = BitVec.ofInt 48 m ∧ x.toInt ≤ m ∧ (∀ p ∈ far, p.1 + p.2 ≤ m) ∧
      (m = x.toInt ∨ ∃ p ∈ far, m = p.1 + p.2))) ∧
  (∀ (s : State) (cl ue : Nat) (o : GangOp) (r : List GangOp), (getCl s cl).ops = o :: r →
    let v := o.members.foldl (memberChecks cl ue) (o.members.foldl (fun s m => memberStep cl o m (o.members.any (fun n => !(badReads ue n).isEmpty)) s) s)
    (o.step + 1 < o.ext.cores.length → exec (.gangStepRetire cl ue) s = .next (modCl v cl (fun u => { u with ops := { o with step := o.step + 1 } :: r }))) ∧
    (o.ext.cores.length ≤ o.step + 1 → exec (.gangStepRetire cl ue) s = .next (planDomain (rltDrop (modCl v cl (fun u => { u with ops := r })) (o.members.flatMap Member.rlt)) cl)))

/-- R138, R301-R312: the refresh window opens and closes with its timer; an owner message whose claim overlaps the lent
footprint revokes it; lending resumes over zeroed rows after the owner's `done`; the free harvest slot of a core that runs no pair takes a parked
context first, and otherwise a message confined to the lent rows.
Besides the rules it rests on the model's own choices in logs 14, 27, 43, 58, 62, 69, 72. -/
def Obligations.HarvestEvents : Prop :=
  (∀ (s : State) (w : Word) (opens : Bool), isMem w = false →
    let phase := (s.timer + 256 * ((8 * clOf w + coreOf w) % 256)) % 65536
    (opens = decide (phase < 256) → exec (.refreshWindow w opens) s = .next (modCore s w (fun c => { c with inRefresh := opens }))) ∧
    (opens ≠ decide (phase < 256) → exec (.refreshWindow w opens) s = .next s)) ∧
  (∀ (s : State) (w : Word), lendActive (getCore s w).lend = true → revocationDue s (getCore s w) = true → exec (.revocation w) s = .next (revoke s w)) ∧
  (∀ (s : State), lendV s.core.lend = true → s.core.revoking = false → s.core.hvNow = false → s.core.alt.active = false →
    (∀ j ∈ allJobs s, j.hv = false) → (∀ c ∈ allCores s, ∀ x ∈ c.strms, x.hv = false) →
    let f := lentFoot s.core
    let t := revoke s s.core.id
    lendV t.core.lend = true ∧ lendSusp t.core.lend = true ∧ t.core.revoking = true ∧ t.core.ownerDone = false ∧ t.core.slot = s.core.slot ∧
    (∀ n, t.core.row n = if f.rb ≤ n ∧ n < f.rb + f.rn then 0 else s.core.row n) ∧
    (∀ l ∈ t.core.late, ∀ n, l.dest = .row n → n < f.rb ∨ f.rb + f.rn ≤ n) ∧
    ∀ k, memRead t.mem k = if scratchKey s.core.id (4096 * f.pb) ≤ k ∧ k < scratchKey s.core.id (4096 * f.pb) + 4096 * f.pn then 0 else memRead s.mem k) ∧
  (∀ (s : State) (w : Word), ((getCore s w).revoking = false → exec (.revocationComplete w) s = .next s) ∧
    ((getCore s w).revoking = true → (getCore s w).harvest.active = false →
      exec (.revocationComplete w) s = .next (planDomain (modCore (modCore s w (fun c => c.zeroLent (lentFoot c))) w (fun c => { c with revoking := false })) (clIdx w)))) ∧
  (∀ (s : State), s.core.hvNow = false → lendV s.core.lend = true → lendSusp s.core.lend = true → s.core.revoking = false → s.core.ownerDone = true →
    pairLend s s.core = false → ownerNext s s.core = none →
    let f := lentFoot s.core
    ∃ t, exec (.lendingResume s.core.id) s = .next t ∧ lendActive t.core.lend = true ∧ t.core.ownerDone = false ∧ t.core.slot = s.core.slot ∧
      (∀ n, t.core.row n = if f.rb ≤ n ∧ n < f.rb + f.rn then 0 else s.core.row n) ∧
      ∀ k, memRead t.mem k = if scratchKey s.core.id (4096 * f.pb) ≤ k ∧ k < scratchKey s.core.id (4096 * f.pb) + 4096 * f.pn then 0 else memRead s.mem k) ∧
  (∀ (s : State) (p : Parked), s.core.hvNow = false → nextParked s s.core = some p → lendActive s.core.lend = true → s.core.revoking = false →
    s.core.alt.active = false → pairCore s s.core.id = false → storeOpenAt s s.core.id = false →
    (∀ l ∈ s.core.late, ∀ n, l.dest ≠ .bank p.bank n) → bankBroken s.core p = none → ∃ t, exec (.parkedContextResume s.core.id) s = .next t ∧
      exec (.harvestDispatch s.core.id) s = .next t ∧ SameOutside s t ∧ t.core.slot = s.core.slot ∧
      t.core.parked = s.core.parked.filter (fun q => q.bank != p.bank) ∧
      t.core.alt = { p.slot with pc := lane (look 0 p.rows p.slot.wb) 2 &&& 0xFFFFFFF8, fetched := [], chains := s.core.alt.chains, pend := p.slot.pend ++ s.core.alt.pend }) ∧
  (∀ (s : State) (n : NiSlot), s.core.hvNow = false → lendActive s.core.lend = true → s.core.revoking = false → s.core.alt.active = false →
    pairCore s s.core.id = false → storeOpenAt s s.core.id = false → nextParked s s.core = none → harvestNext s s.core = some n →
    let e := look 0 s.core.tags (hdrTag n.msg.hdr)
    ∃ t, exec (.harvestDispatch s.core.id) s = .next t ∧ SameOutside (ranOn s s.core.id n.msg.kern) t ∧
      t.core.slot = s.core.slot ∧ t.core.alt.active = true ∧ t.core.alt.prv = false ∧
      t.core.alt.pb = lendRB s.core.lend ∧ t.core.alt.pl = lendRN s.core.lend ∧ t.core.alt.msgSlot = some n.idx ∧
      t.core.alt.pc = e.extractLsb' 0 32 ∧ t.core.alt.kern = n.msg.kern ∧
      (∀ q, q ≠ (e.extractLsb' 32 11).toNat → t.core.row q = s.core.row q) ∧
      (e.getLsbD 63 = true → t.core.row (e.extractLsb' 32 11).toNat = startHeader (e.extractLsb' 88 8).toNat (hdrTag n.msg.hdr))) ∧
  (∀ (s : State) (w : Word) (b : Nat) (p : Parked), b < 4 → (getCore s w).parked.find? (fun q => q.bank == b) = some p →
    (contextSettled (getCore s w) p = false → exec (.parkedContextMove w b none) s = .next s) ∧
    (contextSettled (getCore s w) p = true → p.slot.msgSlot = none → bankFaults (deriveBank s w b) w b .read = false → saveFaults s p.slot.kern.queue .write = false → ∃ t e, exec (.parkedContextMove w b none) s = .next t ∧
      t.saved = s.saved ++ [e] ∧ e.core = w ∧ e.place = 0 ∧ e.kern = p.slot.kern ∧ e.ctx = { p with ni := none } ∧
      (getCore t w).parked = (getCore s w).parked.filter (fun q => q.bank != b)))

/-- R193, R315-R327, R329, R337: the walk of a miss among the 32 that a die's walkers are at, or an L2 entry, answers it, a faulting
walk is reported to the access; an invalidation removes the entries it names and completes once nothing uses them; a
Translation Completion fills the ATC, a page request group response leads to a new request or ends the access, and is
discarded where nobody waits for it; where a completion does not come, one of the external requests that are out ends: a load lands zeros
with a machine check, a store has one, a job's beat is FAULTED with kind 7.
Besides the rules it rests on the model's own choices in logs 5, 8, 28, 29, 36, 85. -/
def Obligations.PagingEvents : Prop :=
  (∀ (s : State) (m : Miss) (t : TlbEnt), s.misses.find? (fun m => m.core == s.core.id && (l2Find s m.core m.proc m.page).isSome) = some m →
    l2Find s s.core.id m.proc m.page = some t → ∃ u, exec (.l2HitFill s.core.id) s = .next u ∧ u.misses = s.misses.erase m ∧ u.mem = s.mem ∧
      u.core.tlb = tlbFill s.core.tlb 256 t ∧
      (m.asker = .slot s.core.hvNow → s.core.slot.xl.page = some m.page →
        u.core.slot = { s.core.slot with waitC := none, xl := { s.core.slot.xl with ents := t :: s.core.slot.xl.ents, page := none } })) ∧
  (∀ (s : State) (m : Miss),
    let w := s.core.id
    s.misses.find? (fun m => m.core == w && (l2Find s m.core m.proc m.page).isNone && (walking s (dieOf w)).contains (m.proc, m.page)) = some m →
    (∀ e, walk s m.proc (m.page * 4096) = .leaf e →
      let t := tlbEntry m.proc (m.page * 4096) e
      ∃ u, exec (.pageWalk w) s = .next u ∧ u.mem = s.mem ∧ (∀ n, n ∈ u.misses ↔ n ∈ s.misses ∧ ¬ (dieOf n.core = dieOf w ∧ n.within t = true)) ∧
        (s.misses = [m] → m.asker = .slot s.core.hvNow → s.core.slot.xl.page = some m.page → m.within t = true → u.core.tlb = tlbFill s.core.tlb 256 t ∧
          (isMem w = false → (getCl u (clIdx w)).l2 = tlbFill (getCl s (clIdx w)).l2 4096 t) ∧
          u.core.slot = { s.core.slot with waitC := none, xl := { s.core.slot.xl with ents := t :: s.core.slot.xl.ents, page := none } })) ∧
    (∀ f, walk s m.proc (m.page * 4096) = f → f = .unmap ∨ f = .fmt →
      ∃ u, exec (.pageWalk w) s = .next u ∧ u.mem = s.mem ∧ u.core.tlb = s.core.tlb ∧
        (∀ n, n ∈ u.misses ↔ n ∈ s.misses ∧ ¬ (dieOf n.core = dieOf w ∧ n.proc = m.proc ∧ n.page = m.page)) ∧
        (s.misses = [m] → m.asker = .slot s.core.hvNow → s.core.slot.xl.page = some m.page →
          u.core.slot = { s.core.slot with waitC := none, xl := { s.core.slot.xl with bad := (m.proc, m.page, if f = .fmt then infoFMT else infoUNMAP) :: s.core.slot.xl.bad, page := none } }))) ∧
  (∀ (s : State) (part va len : Nat) (proc : Option Nat), ∃ t, exec (.tlbInvalidate part proc va len) s = .next t ∧ t.mem = s.mem ∧
    t.invals = s.invals ++ [.tlb part proc va len] ∧
    (inPart s part s.core.id = true → t.core = { s.core with tlb := t.core.tlb, slot := t.core.slot, alt := t.core.alt, shadow := t.core.shadow, parked := t.core.parked } ∧
      t.core.slot = { s.core.slot with xl := { s.core.slot.xl with ents := t.core.slot.xl.ents } } ∧
      ∀ e, (e ∈ t.core.tlb ↔ e ∈ s.core.tlb ∧ ¬ ∀ q, proc = some q → e.proc = q ∧ (len = 0 ∨ (e.va < va + len ∧ va < e.va + 2 ^ e.log))) ∧
        (e ∈ t.core.slot.xl.ents ↔ e ∈ s.core.slot.xl.ents ∧ ¬ ∀ q, proc = some q → e.proc = q ∧ (len = 0 ∨ (e.va < va + len ∧ va < e.va + 2 ^ e.log)))) ∧
    (inPart s part s.core.id = false → t.core = s.core) ∧
    (∀ e ∈ t.saved, inPart s part e.core = true → ∀ x ∈ e.ctx.slot.xl.ents, ¬ ∀ q, proc = some q → x.proc = q ∧ (len = 0 ∨ (x.va < va + len ∧ va < x.va + 2 ^ x.log)))) ∧
  (∀ (s : State) (part va len : Nat) (proc : Option Nat) (r : List Inval), s.invals = .tlb part proc va len :: r →
    (invalWaits s part proc va len = true → exec .tlbInvalidateComplete s = .next s) ∧
    (invalWaits s part proc va len = false → exec .tlbInvalidateComplete s = .next { s with invals := r })) ∧
  (∀ (s : State) (q : ExtReq), s.core.ext.find? (fun q => !q.paged) = some q →
    (∀ page n rd wr, ∃ t, exec (.translationCompletion s.core.id true page n rd wr) s = .next t ∧ t.mem = s.mem ∧ t.core.ext = s.core.ext.erase q ∧
      t.core.atc.head? = some { pasid := q.pasid, page := q.page * 4096, log := 12 + n, hpa := page * 4096, r := rd, w := wr }) ∧
    (∀ page n rd wr, exec (.translationCompletion s.core.id false page n rd wr) s = .next (failExt s s.core.id q))) ∧
  (∀ (s : State) (q : ExtReq), s.core.ext.find? (fun q => q.paged && q.sent) = some q →
    (∀ c, q.asker = .none → exec (.pageRequestGroupResponse s.core.id c) s = .next (s.modC (fun c => { c with ext := s.core.ext.erase q }))) ∧
    (q.asker ≠ .none →
      exec (.pageRequestGroupResponse s.core.id .success) s =
        .next (s.modC (fun c => { c with ext := s.core.ext.map (fun e => if e = q then { e with paged := false } else e) })) ∧
      exec (.pageRequestGroupResponse s.core.id .invalid) s = .next (failExt s s.core.id q) ∧
      exec (.pageRequestGroupResponse s.core.id .failure) s = .next { failExt s s.core.id q with priEnabled := false })) ∧
  (∀ (s : State) (q : ExtReq), q.asker = .slot s.core.hvNow → s.core.slot.xl.page = some q.page →
    let t := failExt s s.core.id q
    t.core.ext = s.core.ext.erase q ∧ t.mem = s.mem ∧
    t.core.slot = { s.core.slot with waitC := none, xl := { s.core.slot.xl with ebad := (q.pasid, q.page, 6) :: s.core.slot.xl.ebad, page := none } }) ∧
  (∀ s : State, exec .priReenable s = .next { s with priEnabled := true, prgAlloc := Config.prgAlloc }) ∧
  (∀ (s : State) (pasid page n : Nat), ∃ t, exec (.invalidateRequest pasid page n) s = .next t ∧ t.invals = s.invals ++ [.host pasid page n] ∧
    t.mem = s.mem ∧ t.core = { s.core with atc := t.core.atc } ∧ ∀ e, e ∈ t.core.atc ↔ e ∈ s.core.atc ∧
      ¬ (e.pasid = pasid ∧ e.page / 2 ^ e.log * 2 ^ e.log < page * 4096 + 2 ^ (12 + n) ∧ page * 4096 < e.page / 2 ^ e.log * 2 ^ e.log + 2 ^ e.log)) ∧
  (∀ (s : State) (pasid page n : Nat) (r : List Inval), s.invals = .host pasid page n :: r → s.held = [] →
    (∀ c ∈ allCores s, c.late = [] ∧ c.strms = [] ∧ ∀ x ∈ c.slots, x.pend = []) → (∀ e ∈ s.saved, e.ctx.slot.pend = []) → (∀ u ∈ s.clusters, u.imgs = [] ∧ ∀ j ∈ u.jobs, j.kind = .xst → j.msgDue = false) →
    exec .invalidationCompletion s = .next { s with invals := r }) ∧
  (∀ (s : State) (u : Cluster) (j : Job), u ∈ s.clusters → j ∈ u.jobs → j.kind = .xst → j.msgDue = true → exec .invalidationCompletion s = .next s) ∧
  (∀ s : State, extOut s s.core.id ≠ [] → ∃ e ∈ extOut s s.core.id,
    let v := (takeFree s).2
    match e with
    | .load l => s.core.ckpt = none → ∃ q, exec (.completionTimeout s.core.id) s =
        .next { v with core := landIn { s.core with late := s.core.late.filter (fun m => m.id != l.id) } l 0, stops := s.stops ++ [q] } ∧
        q.kern = l.kern ∧ q.lane4 = BitVec.ofNat 32 (0x21 ||| (7 <<< 17 ||| 512)) ∧ q.faddr = lineAddr l.addr
    | .store _ p => ∃ t q, exec (.completionTimeout s.core.id) s = .next t ∧ t.stops = s.stops ++ [q] ∧ t.mem = s.mem ∧
        q.kern = p.kern ∧ q.lane4 = BitVec.ofNat 32 (0x21 ||| (7 <<< 17 ||| 512)) ∧ q.faddr = lineAddr p.addr
    | .beat j a => exec (.completionTimeout s.core.id) s = .next (setJob v (clIdx s.core.id) { j with st := .faulted 7 a })) ∧
  (∀ (s : State) (key : Nat) (e : DWord), key % 8 = 0 → (2 ^ 52 ≤ key ∧ key < 2 ^ 53 ∨ key < 2 ^ 52 ∧ keyKind key = 2) →
    exec (.pageTableWrite key e) s = .next { s with mem := memWriteN s.mem key (natBytes e.toNat 8) })

/-- R281-R291, R296, R297: the notify page. A producer index moves forward within the ring, one too far sets fault 4; CLRF
clears the fault; STOP starts the ladder; the consumer index of the fault area moves forward up to FCOUNT; other writes do
nothing. A record that may start takes effect and retires or, malformed, retires with its code and fault 3; one whose slot
its ring's capability does not admit retires with code 11 and faults the queue. A record that starts a kernel has started
once its first message has been accepted.
Besides the rules it rests on the model's own choices in logs 38, 49, 64, 65, 70, 71, 72, 81, 86, 87. -/
def Obligations.QueueEvents : Prop :=
  ∀ (s : State) (q : Nat) (x : Queue), queueById s q = some x →
    let puts (i : Instr) (y : Queue) : Prop := ∃ t, exec i s = .next t ∧ t = { s with queues := t.queues } ∧ queueById t q = some y ∧
      ∀ r, r ≠ q → queueById t r = queueById s r
    (∀ v, (x.faulted = true ∨ v = x.p ∨ 2 ^ 31 ≤ (v - x.p).toNat) → puts (.piWrite q v) x) ∧
    (∀ v, x.faulted = false → v ≠ x.p → (v - x.p).toNat < 2 ^ 31 →
      ((v - x.ci).toNat ≤ 2 ^ x.log2n → puts (.piWrite q v) { x with p := v }) ∧
      (2 ^ x.log2n < (v - x.ci).toNat → puts (.piWrite q v) { x with fault := 4, faulted := true })) ∧
    (∃ t y, exec (.clrf q) s = .next t ∧ queueById t q = some y ∧ y.fault = 0 ∧ y.faulted = false ∧ y.p = x.p ∧ y.phase = x.phase ∧ t.mem = s.mem) ∧
    (∃ t y, exec (.stopQueue q) s = .next t ∧ queueById t q = some y ∧ t.mem = s.mem ∧
      (x.phase = .serving → y.phase = .draining ∧ y.ladder = some .stop) ∧ (x.phase ≠ .serving → y = x)) ∧
    (∀ v, (v - x.fci).toNat < 2 ^ 31 → (v - x.fci).toNat ≤ (x.fcount - x.fci).toNat → puts (.fciWrite q v) { x with fci := v }) ∧
    (∀ v, (2 ^ 31 ≤ (v - x.fci).toNat ∨ (x.fcount - x.fci).toNat < (v - x.fci).toNat) → puts (.fciWrite q v) x) ∧
    (∀ off v, exec (.notifyPageOtherWrite q off v) s = .next s) ∧
    (mayStart s x = true → slotFaults s x = true → ∃ t y r, exec (.malformedCommandRecord q) s = .next t ∧ queueById t q = some y ∧ y.faulted = true ∧
      y.retired = x.retired ++ [r] ∧ r.recNo = x.head ∧ r.status = 1 ∧ r.code = 11) ∧
    (∀ ws, mayStart s x = true → recWords s x = some ws → (recBar ws = true → x.ci = x.head) →
      let done (t : State) (status code fault : Nat) : Prop := ∃ y r, queueById t q = some y ∧ y.next = x.head + 1 ∧
        y.retired = x.retired ++ [r] ∧ y.fault = fault ∧ r.recNo = x.head ∧ r.status = status ∧ r.code = code ∧ r.gen = x.gen
      let good := commonOk ws = true
      let sigOk := recSig ws = true → mapped s x.process none (w64 ws 2) 16 = true
      (recType ws = 0 ∨ 4 < recType ws → sigBad ws = false → ∃ t, exec (.malformedCommandRecord q) s = .next t ∧ done t 1 9 3) ∧
      (recType ws = 3 →
        (good → recSig ws = true → zeros ws 6 32 = true → sigOk → ∃ t, exec (.signalRecord q) s = .next t ∧ done t 0 0 x.fault ∧ t.mem = s.mem) ∧
        (zeros ws 6 32 = false → sigBad ws = false → ∃ t, exec (.signalRecord q) s = .next t ∧ done t 1 9 3)) ∧
      (recType ws = 4 →
        (good → zeros ws 8 32 = true → sigOk → ∃ t, exec (.energyBudgetRecord q) s = .next t ∧ done t 0 0 x.fault ∧
          t.procs = s.procs.map (fun p => if p.id = x.process then { p with budget := w64 ws 6 } else p)) ∧
        (zeros ws 8 32 = false → sigBad ws = false → ∃ t, exec (.energyBudgetRecord q) s = .next t ∧ done t 1 9 3)) ∧
      (recType ws = 1 →
        (messageOk s x ws = false → sigBad ws = false → ∃ t, exec (.messageRecord q) s = .next t ∧ done t 1 9 3) ∧
        (∀ bs m u, messageOk s x ws = true → unmappedField s x (sigRange ws ++ [(w64 ws 11, 64 * hdrRows (ws.getD 6 0))]) = none →
          let d := derive s x 0 (w64 ws 11) (64 * hdrRows (ws.getD 6 0))
          viaRead d x 0 (w64 ws 11) (64 * hdrRows (ws.getD 6 0)) = some bs → storeWaits s x ws = false →
          m = ({ hdr := ws.getD 6 0, rows := (List.range (hdrRows (ws.getD 6 0))).map (fun i => rowOfBytes ((bs.drop (64 * i)).take 64)), dest := messageDest s x ws, srcw := 0x40000000, kind := 0, addr := if w32 ws 7 = 1 then w64 ws 9 else 0, i0 := 0, i1 := 0, i2 := 0, stab := 0, dent := 0, hvSrc := false, kern := ⟨q, x.gen, x.head⟩, ctxid := 0, stamp := 0, img := none } : Msg) →
          let v : State := { d with kerns := s.kerns ++ [{ newKern s x ws with module := (moduleOf s x (messageDest s x ws) (hdrTag (ws.getD 6 0))).getD 0 }] }
          deliverAll m (m.dest.filter (fun w => pkgOf w == ownPkg s)) v = .ok u →
          ((∀ w ∈ m.dest, pkgOf w = ownPkg s) → exec (.messageRecord q) s = .next { u with queues := u.queues.map (fun y => if y.id = q then { y with next := x.head + 1 } else y) }) ∧
          ((∃ w ∈ m.dest, pkgOf w ≠ ownPkg s) → (∀ w ∈ m.dest, pkgOf w ≠ ownPkg s → linksCut s (linksTo s (pkgOf w)) = false) →
            exec (.messageRecord q) s = .next { v with outbound := s.outbound ++ [m] }))) ∧
      (recType ws = 2 →
        (zeros ws 8 32 = false → sigBad ws = false → ∃ t, exec (.launchRecord q) s = .next t ∧ done t 1 9 3) ∧
        (∀ bs args fs p gs, good → w64 ws 6 % 64 = 0 → w64 ws 6 < 2 ^ 52 → zeros ws 8 32 = true → unmappedField s x (sigRange ws ++ [(w64 ws 6, 256)]) = none →
          let d := derive s x 0 (w64 ws 6) 256
          viaRead d x 0 (w64 ws 6) 256 = some bs → partById s x.part = some p →
          let l := wordsOf 64 bs
          let e := derive (derive d x 1 (w64 l 14) (64 * lRows l)) x 2 (w64 l 17) (16 * lNgf l)
          launchCode s x p l = none → unmappedField s x [(w64 l 14, 64 * lRows l), (w64 l 17, 16 * lNgf l), (w64 l 6, if w64 l 6 = 0 then 0 else 1)] = none →
          viaRead e x 1 (w64 l 14) (64 * lRows l) = some args → viaRead e x 2 (w64 l 17) (16 * lNgf l) = some fs →
          groupFill s p (lNgf l) fs = some gs →
          let w := walkerOf ⟨q, x.gen, x.head⟩ x.part l ((List.range (lRows l)).map (fun i => rowOfBytes ((args.drop (64 * i)).take 64)))
          let v := startLaunch e x ws l w.rows gs
          (launchWaits s x p l gs = true → exec (.launchRecord q) s = .next s) ∧
          (launchWaits s x p l gs = false → exec (.launchRecord q) s = .next ((issuePoint v s.walkers.length w).getD s) ∧ v.walkers = s.walkers ++ [w] ∧ v.mem = s.mem ∧
            (∃ k, v.kerns = s.kerns ++ [k] ∧ k.ref = ⟨q, x.gen, x.head⟩ ∧ k.launch = true ∧ k.cap = w64 l 22 ∧ k.tlimit = w32 l 24) ∧
            w.at_ = 0 ∧ w.issued = 0 ∧ w.n0 = w32 l 1 % 65536 + 1))))

/-- R243, R276, R277, R286-R288, R292, R297, R367: the walker passes a point that is not canonical and issues one that is,
whose acceptance starts its record; the kiln stops the kernel of the oldest request with status 2; a kernel with nothing
left completes with status 0, a durable one after its commit; its signal is written to memory; a kernel over its time
limit or its CAP starts the ladder.
Besides the rules it rests on the model's own choices in logs 26, 38, 51, 64, 81, 87. -/
def Obligations.KernelEvents : Prop :=
  (∀ (s : State) (i : Nat) (w : Walker) (p : Part), s.walkers[i]? = some w → inService s w.kern = true →
    walkerHeld s w = false → partById s w.part = some p →
    let past (u : State) (k : Nat) : State := { u with walkers := if w.n0 * w.n1 * w.n2 ≤ w.at_ + 1 then u.walkers.eraseIdx i else u.walkers.set i { w with at_ := w.at_ + 1, issued := k } }
    let m := pointMsg w w.pt (placeOf s w p (s.kerns.any (fun k => k.ref == w.kern && k.pair)) w.pt)
    (canonical w.ext w.elems w.pt = false → exec (.walkerIssue i) s = .next (past s w.issued)) ∧
    (canonical w.ext w.elems w.pt = true →
      let own := m.dest.filter (fun w => pkgOf w == ownPkg s)
      (∀ u, deliverAll m own s = .ok u → (∀ w ∈ m.dest, pkgOf w = ownPkg s) → exec (.walkerIssue i) s = .next (past (markStarted u w.kern) (w.issued + 1))) ∧
      (∀ u, deliverAll m own s = .ok u → (∃ w ∈ m.dest, pkgOf w ≠ ownPkg s) → (∀ w ∈ m.dest, pkgOf w ≠ ownPkg s → linksCut s (linksTo s (pkgOf w)) = false) →
        exec (.walkerIssue i) s = .next (past { s with outbound := s.outbound ++ [m] } (w.issued + 1))) ∧
      (∀ v, deliverAll m own s = .error v → exec (.walkerIssue i) s = .next s))) ∧
  (∀ (s : State) (k : KRef) (x : Queue), queueById s k.queue = some x → x.gen = k.gen → (k.recNo - x.next).toNat < 2 ^ 31 →
    queueById (markStarted s k) k.queue = some { x with next := k.recNo + 1 }) ∧
  (∀ (s : State) (r : StopReq) (rs : List StopReq), s.stops = r :: rs →
    (queueById s r.kern.queue = none → exec .kernelStop s = .next (dropKernel { s with stops := rs } (bareKern r.kern))) ∧
    (∀ x, queueById s r.kern.queue = some x → x.gen ≠ r.kern.gen → exec .kernelStop s = .next { s with stops := rs }) ∧
    (∀ x k, queueById s r.kern.queue = some x → x.gen = r.kern.gen → s.kerns.find? (fun k => k.ref == r.kern) = some k →
      let u := writeFault { s with stops := rs, queues := s.queues.map (fun y => if y.id = x.id then { y with fault := r.faultCode } else y) } x (stopWords r)
      ∃ v, v.status = 2 ∧ v.recNo = r.kern.recNo ∧ v.code = r.lane4.toNat % 256 ∧ exec .kernelStop s = .next (retire (markStarted (dropKernel u k) k.ref) k.ref.queue v))) ∧
  (∀ (s : State) (q : Nat) (n : Word) (x : Queue) (k : Kern), queueById s q = some x → s.kerns.find? (fun k => k.ref.queue == q && k.ref.recNo == n) = some k →
    (kernBusy s k.ref = true → exec (.kernelComplete q n) s = .next s) ∧
    (kernBusy s k.ref = false → x.dur = true → x.ci = n → n ∉ x.committed → exec (.kernelComplete q n) s =
      .next { s with queues := s.queues.map (fun y => if y.id = q then { y with committed := y.committed ++ [n] } else y) }) ∧
    (kernBusy s k.ref = false → x.dur = false → x.journal = [] → x.committed = [] → ∃ t y r, exec (.kernelComplete q n) s = .next t ∧ queueById t q = some y ∧
      y.retired = x.retired ++ [r] ∧ r.recNo = n ∧ r.status = 0 ∧ r.code = 0 ∧ t.kerns = s.kerns.filter (fun j => j.ref != k.ref) ∧ (k.pair = false → t.mem = s.mem))) ∧
  (∀ (s : State) (q : Nat) (x : Queue) (r : Retired), queueById s q = some x → nextSignal x = some r →
    let u : State := { s with queues := s.queues.map (fun y => if y.id = q then { y with retired := y.retired.erase r } else y) }
    (r.sig = false → exec (.completionSignal q) s = .next u) ∧
    (∀ v, r.sig = true → kilnWrite u x.process r.sigAddr (natBytes r.sigVal.toNat 8 ++ natBytes ((r.gen % 65536) <<< 16 ||| r.code <<< 8 ||| r.status) 4 ++ natBytes r.recNo.toNat 4) = some v →
      exec (.completionSignal q) s = .next v)) ∧
  (∀ (s : State) (proc a : Nat) (bs : List Byte) (e : DWord), 0x2000000 ≤ a → a < 2 ^ 52 → walk s proc a = .leaf e → pteW e = true → pteTgt e = 2 →
    ∃ v, kilnWrite s proc a bs = some v ∧ v = writePlace s ⟨hostKey (leafTarget e a), none⟩ bs) ∧
  (∀ (s : State) (q : Nat) (n : Word) (k : Kern), s.kerns.find? (fun k => k.ref.queue == q && k.ref.recNo == n) = some k →
    ((k.tlimit ≠ 0 ∧ k.began + 1100 * k.tlimit ≤ s.timer) ∨ (k.cap ≠ 0 ∧ k.cap ≤ k.charged.toNat) → exec (.tlimitExpiry q n) s = .next { s with queues := s.queues.map (fun y =>
      if y.id = q then (if y.phase = .serving then { y with phase := .draining, ladder := some .limit, cleared := false, turned := false } else y) else y) }) ∧
    (¬ ((k.tlimit ≠ 0 ∧ k.began + 1100 * k.tlimit ≤ s.timer) ∨ (k.cap ≠ 0 ∧ k.cap ≤ k.charged.toNat)) → exec (.tlimitExpiry q n) s = .next s))

/-- R281, R293-R295, R336, R354, R368, R372, R373: the wheel maps the next process's queues beside the resident ones; rung 1 is reached when nothing
of the queue runs, rung 2 stops and saves its handlers, rung 3 discards its work at once and, when what others have there
has settled, resets its clusters and advances GEN; a queue returns to service once its trigger allows and no live update is
in progress; the kiln creates queues from stage 1 on, kills processes and changes partitions; a durable queue replays its records on reset clusters.
R369: a capability holds its permissions, length, base and address in the bits of the table; an access through one
faults without the tag, without the permission, or outside the bounds; a capability store sets the tag, and any other
write of the granule clears it.
Besides the rules it rests on the model's own choices in logs 26, 48, 62, 67, 72, 80, 86. -/
def Obligations.LadderEvents : Prop :=
  ((∀ (s : State) (part n : Nat) (p : Part), partById s part = some p → wheelAfter p.wheel p.cur = some n →
    let u : State := { s with parts := s.parts.map (fun r => if r.id = part then { r with cur := some n } else r) }
    ∃ t, exec (.wheelTurn part) s = .next t ∧ t.mem = s.mem ∧ t.parts = u.parts ∧
    t.procs = s.procs.map (fun c => if c.id = n then { c with left := c.budget, turnCharged := 0, firstLaunch := firstWaiting u part n c.lastFirst } else c) ∧
    t.queues = s.queues.map (fun x => if x.part = part then { x with mapped := x.res || x.process == n, turned := x.turned || (x.process == n && !s.firm.updating) } else x)) ∧
  (∀ (s : State) (part n last i : Nat) (v : Word), (i, v) ∈ firstWaiting s part n last → ∃ x ∈ s.queues, ∃ ws, x.part = part ∧ x.process = n ∧ x.id = i ∧
    x.head = v ∧ v ≠ x.p ∧ x.phase = .serving ∧ x.faulted = false ∧ recWords s x = some ws ∧ recType ws = 2) ∧
  (∀ (s : State) (q : Nat) (x : Queue), queueById s q = some x →
    let upd (u : State) (f : Queue → Queue) : State := { u with queues := u.queues.map (fun y => if y.id = q then f y else y) }
    (x.phase = .draining → queueRuns s q = false → x.ladder ≠ some .kill → exec (.ladderDrainComplete q) s = .next (upd s (fun y => { y with phase := .drained }))) ∧
    (queueRuns s q = true → exec (.ladderDrainComplete q) s = .next s) ∧
    (x.phase = .draining → queueRuns s q = true → ∃ t y, exec (.ladderT1Expiry q) s = .next t ∧ queueById t q = some y ∧ y.phase = .saving ∧ t.mem = s.mem ∧
      ((s.core.slot.active = true ∧ s.core.slot.kern.queue = q) → t.core.slot = { s.core.slot with halted := true }) ∧
      (¬ (s.core.slot.active = true ∧ s.core.slot.kern.queue = q) → t.core.slot = s.core.slot)) ∧
    (x.phase = .saving → saveReady s q = true → saveFaults s q .write = true → exec (.ladderSaveComplete q) s = .next s) ∧
    (x.phase = .saving → saveReady s q = true → saveFaults s q .write = false → x.ladder ≠ some .kill →
      exec (.ladderSaveComplete q) s = .next (upd (saveQueue s q) (fun y => { y with phase := .saved }))) ∧
    (x.phase = .saving → saveReady s q = false → exec (.ladderSaveComplete q) s = .next s) ∧
    (∃ t y, exec (.ladderT2Expiry q) s = .next t ∧ queueById t q = some y ∧ (x.phase = .saving → y = { x with phase := .resetting, engines := enginesOf s q }) ∧
      (x.phase ≠ .saving → y = x) ∧ t.mem = s.mem) ∧
    (∀ y, x.phase = .resetting → queueById (discardQueue x s) q = some y →
      (othersSettled (discardQueue x s) y.engines = false → exec (.ladderReset q) s = .next (discardQueue x s)) ∧
      (othersSettled (discardQueue x s) y.engines = true → exec (.ladderReset q) s = .next (resetEngines y (discardQueue x s)))) ∧
    (x.phase = .resetting → x.ladder ≠ some .kill → x.retired = [] → s.kerns = [] → s.stops = [] → s.held = [] → x.dur = false →
      let cls := (x.engines ++ enginesOf s q).eraseDups
      othersSettled (discardQueue x s) cls = true → ∃ t y, exec (.ladderReset q) s = .next t ∧ queueById t q = some y ∧ y.phase = .reset ∧
        y.gen = (x.gen + 1) % 65536 ∧ y.fault = 7 ∧ t.mem = s.mem ∧ t.core.regs = s.core.regs ∧
        (cls.contains (clIdx s.core.id) = true → s.core.slot.active = false → s.core.slot.halted = false →
          t.core.slot = { Slot.reset with sid := s.core.slot.sid, chains := s.core.slot.chains, lastProc := s.core.slot.lastProc }) ∧
        (cls.contains (clIdx s.core.id) = false → t.core.slot = s.core.slot)) ∧
    ((x.phase = .drained ∨ x.phase = .saved ∨ x.phase = .reset) → mayReturn s x = true → (x.phase = .saved → saveFaults s q .read = false) → s.saved = [] → s.savedMem = [] → s.savedDct = [] → ∃ t y,
      exec (.queueRestore q) s = .next t ∧ queueById t q = some y ∧ y.phase = .serving ∧ y.ladder = none ∧ t.mem = s.mem ∧
      t.net = s.net ++ s.savedMsgs.filter (fun m => m.kern.queue == q)) ∧
    (s.firm.updating = true → exec (.queueRestore q) s = .next s) ∧
    (x.dur = true → x.committed = [] → x.retired = [] → s.kerns = [] → s.stops = [] → s.held = [] → exec (.durableReplay q) s =
      .next (upd (mapCores s (fun c => if (replayEngines s x).contains (clIdx c.id) then arrayReset (engineReset s c) else c)) (fun y => { y with gen := (y.gen + 1) % 65536, next := y.ci, journal := [], committed := [] })) ∧
      ∀ u ∈ s.clusters, u.proc = some x.process → (∃ r, partOfCl s u.id = some r ∧ r.id = x.part) → u.id ∈ replayEngines s x)) ∧
  (∀ (s : State) (proc : Nat), (∀ x ∈ s.queues, x.process = proc → x.phase = .serving) → ∃ t, exec (.processKill proc) s = .next t ∧ t.mem = s.mem ∧
    (∀ p ∈ t.parts, proc ∉ p.wheel) ∧ ∀ y ∈ t.queues, y.process = proc → y.phase = .draining ∧ y.ladder = some .kill) ∧
  (∀ (s : State) (d : PartDesc), partOk s d = true → (∀ r ∈ s.parts, r.id ≠ d.part → (∀ c ∈ d.clusters, c ∉ r.clusters) ∧ ∀ m ∈ d.memCores, m ∉ r.memCores) ∧
    let early : Prop := s.firm.stage = 1 ∨ ∃ p, partById s d.part = some p ∧ p.early = true
    (∀ c ∈ d.clusters, c < 256 ∧ (early → c < 64)) ∧ (∀ m ∈ d.memCores, m < 64 ∧ (early → m < 8)) ∧ d.ovf16 ≤ 16 ∧
    ∀ r ∈ d.dct, r.1 ≤ r.2 ∧ r.2 < 1024) ∧
  (∀ (s : State) (d : PartDesc) (p : Part), partById s d.part = some p →
    ((s.firm.stage = 0 ∨ partOk s d = false) → exec (.partitionChange d.part d.toPartCores d.toPartRoom) s = .next s) ∧
    (s.firm.stage ≠ 0 → partOk s d = true → (∀ x ∈ s.queues, x.part = d.part → x.phase = .drained ∨ x.phase = .saved ∨ x.phase = .reset) →
      ∃ t, exec (.partitionChange d.part d.toPartCores d.toPartRoom) s = .next t ∧ t.mem = s.mem ∧ partById t d.part =
        some { p with clusters := d.clusters, memCores := d.memCores, others := d.others, ovf := 16384 * d.ovf16, dct := d.dct, absent := withheldCores s } ∧
      (isMem s.core.id = true → inPart s d.part s.core.id = true → clIdx s.core.id - 256 ∉ d.memCores → t.core = { s.core with atc := [] })) ∧
    (s.firm.stage ≠ 0 → partOk s d = true → (∃ x ∈ s.queues, x.part = d.part ∧ x.phase = .serving) → exec (.partitionChange d.part d.toPartCores d.toPartRoom) s = .next { s with queues := s.queues.map (fun x =>
      if x.part = d.part then (if x.phase = .serving then { x with phase := .draining, ladder := some .partition, cleared := false, turned := false } else x) else x) })) ∧
  (∀ (s : State) (q : Nat) (d : List Word),
    let proc := w32 d 3 % 65536
    let part := w32 d 3 / 65536
    (s.firm.stage = 0 → exec (.queueCreate q d) s = .next s) ∧
    (s.firm.stage ≠ 0 → q < 4096 → queueById s q = none → descBad d = false → (procById s proc).isSome = true → (partById s part).isSome = true →
    mapped s proc (some .load) (w64 d 0) (128 * 2 ^ (w32 d 2 % 32)) = true → mapped s proc (some .store) (w64 d 4) (64 * w32 d 6) = true → ∃ t x, exec (.queueCreate q d) s = .next t ∧
      t.queues = s.queues ++ [x] ∧ x.id = q ∧ x.ring = w64 d 0 ∧ x.log2n = w32 d 2 % 32 ∧ x.process = proc ∧ x.part = part ∧ x.farea = w64 d 4 ∧
      x.flen = w32 d 6 ∧ x.gen = 0 ∧ x.p = 0 ∧ x.ci = 0 ∧ x.fault = 0 ∧ x.phase = .serving ∧ t.mem = s.mem ∧
      granule t (ringGranule q) = ⟨true, capFor false true (w64 d 0) (128 * 2 ^ (w32 d 2 % 32))⟩ ∧ granule t (areaGranule q) = ⟨true, capFor true false (w64 d 4) (64 * w32 d 6)⟩ ∧
      granule t (saveGranule q) = ⟨true, saveCap q⟩))) ∧
  ((∀ (x w r : Bool) (len base addr : Nat), len < 2 ^ 20 → base < 2 ^ 52 → addr < 2 ^ 52 →
    let c := capWord x w r len base addr
    c.extractLsb' 127 1 = 0 ∧ c.getLsbD 126 = x ∧ c.getLsbD 125 = w ∧ c.getLsbD 124 = r ∧ (c.extractLsb' 104 20).toNat = len ∧
    (c.extractLsb' 52 52).toNat = base ∧ (c.extractLsb' 0 52).toNat = addr) ∧
  (∀ (x w r tag : Bool) (len base addr n : Nat) (k : KAcc), len < 2 ^ 20 → base < 2 ^ 52 → addr < 2 ^ 52 →
    (capFaults ⟨tag, capWord x w r len base addr⟩ k n = false ↔ tag = true ∧
      (match k with | .read => r | .write => w | .fetch => x) = true ∧ base ≤ addr ∧ addr + n ≤ base + 256 * len)) ∧
  (∀ (s : State) (i j : Nat) (c : BitVec 128), granule (capStore s i c) i = ⟨true, c⟩ ∧ granule (kilnPut s i c) i = ⟨false, c⟩ ∧
    (j ≠ i → granule (capStore s i c) j = granule s j ∧ granule (kilnPut s i c) j = granule s j)))

/-- R19, R135, R254, R334, R347-R366: a cluster changes process over zeroed memories; a core's reset leaves it as reset does
but for its register rows, and its jobs begin again; a scrub counts corrected errors, reports a line corrected twice in a second, and marks
a line that cannot be corrected; a pair rolls back to its checkpoint, once the late writes that belong to it have landed; a link
accepts flits in order and goes down, which stops the work it cuts off; energy is charged in whole cones of 64-bit counters; the planner
sets the clocks of a domain within the package limit; the kiln opens and closes the weight store, and loads key slots and modules, each step of a load failing with its status; what it unloads loses
its tags and its mapping.
Besides the rules it rests on the model's own choices in logs 7, 22, 23, 25, 27, 28, 42, 45, 60, 73, 80, 81. -/
def Obligations.PlatformEvents : Prop :=
  (∀ (s : State) (cl p : Nat), waitingProc s cl = some p →
    (mayChange s cl = false → exec (.processChange cl) s = .next s) ∧
    (mayChange s cl = true → ∃ t, exec (.processChange cl) s = .next t ∧ (getCl t cl).proc = some p ∧
      (∀ k, scratchKeyOf (ownPkg s) cl 0 ≤ k → k < scratchKeyOf (ownPkg s) cl 0 + 0x1F0000 → memRead t.mem k = 0) ∧
      ∀ c k, c < 8 → localKey (clCore s cl c) 0 ≤ k → k < localKey (clCore s cl c) 0 + 0x60000 → memRead t.mem k = 0)) ∧
  (∀ (s : State) (w : Word), ∃ t, exec (.coreReset w) s = .next t ∧ t.mem = s.mem ∧ getCore t w = { Core.reset w with regs := (getCore s w).regs, activity := (getCore s w).activity } ∧
    (∀ h ∈ t.held, h.core ≠ w) ∧ t.queues = s.queues ∧ t.ports = s.ports ∧ ∀ j ∈ allJobs t, j.core = w → j.beat = 0 ∧ j.st ≠ .running) ∧
  (∀ (s : State) (line : Nat),
    (line < 65536 → exec (.scrub s.core.id line false) s =
      .next (s.modC (fun c => { c with broken := c.broken.filter (fun l => l != line) ++ [line] }))) ∧
    (65536 ≤ line → ∃ t, exec (.scrub s.core.id line false) s = .next t ∧ t.mem = s.mem ∧ line ∈ t.core.broken ∧
      ∀ c ∈ t.peers, clIdx c.id = clIdx s.core.id → line ∈ c.broken) ∧
    ∃ t, exec (.scrub s.core.id line true) s = .next t ∧ SameOutside s t ∧
    t.core = { s.core with errCount := s.core.errCount + 1, corrected := t.core.corrected, repair := t.core.repair } ∧ (line, s.timer) ∈ t.core.corrected ∧
    ((∃ e ∈ s.core.corrected, e.1 = line ∧ s.timer < e.2 + 1100000000) → line ∈ t.core.repair) ∧
    ((∀ e ∈ s.core.corrected, e.1 = line → e.2 + 1100000000 ≤ s.timer) → t.core.repair = s.core.repair)) ∧
  (∀ (s : State) (k : Ckpt), s.core.hvNow = false → s.core.slot.paired = true → s.core.ckpt = some k →
    ((∃ l ∈ s.core.late, l.id < k.nextId) → exec (.pairRollback s.core.id) s = .next (s.modC (fun c => { c with ckpt := some { k with rolling := true } }))) ∧
    ((∀ l ∈ s.core.late, k.nextId ≤ l.id) → ∃ t,
    exec (.pairRollback s.core.id) s = .next t ∧ t.core.regs = k.regs ∧ t.core.late = [] ∧ t.core.chans = k.chans ∧
      t.core.slot = { k.slot with fetched := [], waitC := none, waitA := none, xl := Xlat.none } ∧ t.core.shadow = k.shadow ∧ t.core.mstat = k.mstat ∧
      (∀ h ∈ t.held, h ∈ s.held ∧ (h.core = s.core.id → h.lateId < k.nextId)) ∧
      t.mem = k.undo.foldl (fun m e => memWrite m e.1 e.2) s.mem ∧ (k.tries < 2 → t.stops = s.stops) ∧
      (2 ≤ k.tries → ∃ q, t.stops = s.stops ++ [q] ∧ q.kern = s.core.slot.kern ∧ q.lane4 = BitVec.ofNat 32 (0x21 ||| (2 <<< 9 ||| 3 <<< 13))))) ∧
  (∀ (s : State) (n seq : Nat) (l : Link), linkOf s n = l → l.down = false →
    (l.retrain = false → exec (.linkFlit n seq false) s = .next (setLink s { l with fails := l.fails + 1, retrain := decide (16 ≤ l.fails + 1) })) ∧
    (l.retrain = false → seq = l.expect → exec (.linkFlit n seq true) s = .next (setLink s { l with expect := l.expect + 1, fails := 0 })) ∧
    (l.retrain = false → seq ≠ l.expect → exec (.linkFlit n seq true) s = .next s) ∧
    (l.retrain = true → exec (.linkRetrain n true) s = .next (setLink s { l with retrain := false, fails := 0 })) ∧
    (l.retrain = true →
      let t := setLink s { l with retrain := false, down := true }
      (cutOff t n = [] → exec (.linkRetrain n false) s = .next t) ∧
      (∀ b r, cutOff t n = b :: r → (∀ e ∈ r, e.kern = b.kern) → ∃ q, exec (.linkRetrain n false) s = .next { t with stops := s.stops ++ [q] } ∧
        q.kern = b.kern ∧ q.core = b.core ∧ q.ctxid = b.ctxid ∧ q.lane4 = BitVec.ofNat 32 (0x21 ||| (7 <<< 17 ||| 3 <<< 9))))) ∧
  (∀ (s : State) (cl : Nat), ∃ t, exec (.meteringInterval cl) s = .next t ∧ t.mem = s.mem ∧ t.core.slot = s.core.slot ∧ t.core.regs = s.core.regs ∧
    t.meterings = s.meterings + 1 ∧ (clIdx s.core.id = cl → t.core.activity = [])) ∧
  (∀ (s : State) (proc : Nat) (r : KRef) (n : Nat), chargeCones s proc r n = { s with
    procs := s.procs.map (fun p => if p.id = proc then { p with cone := p.cone + BitVec.ofNat 64 n, turnCharged := p.turnCharged + BitVec.ofNat 64 n } else p),
    kerns := s.kerns.map (fun k => if k.ref = r then { k with charged := k.charged + BitVec.ofNat 64 n } else k) }) ∧
  (∀ (s : State) (e : Nat), ∃ f, chargePkg s e = { s with pkgEnergy := s.pkgEnergy + BitVec.ofNat 64 ((s.pkgFrac + e) / 65536), pkgFrac := f } ∧ f < 65536 ∧
    65536 * ((s.pkgFrac + e) / 65536) + f = s.pkgFrac + e) ∧
  (∀ (s : State) (cl n : Nat), (s.firm.stage = 1 → exec (.clockChange cl n) s = .next s) ∧ (s.firm.stage ≠ 1 → netBars s = [] → cl < 256 → n ≤ 12 →
    let at_ (k : Nat) : State := modCl s cl (fun u => { u with choice := n, clock := k })
    let old := (getCl s cl).clock
    (deferred s cl = true → exec (.clockChange cl n) s = .next (at_ old)) ∧
    (deferred s cl = false → powerAdmits (at_ old) (at_ (max n (clockFloor s cl))) = true → exec (.clockChange cl n) s = .next (at_ (max n (clockFloor s cl)))) ∧
    (deferred s cl = false → powerAdmits (at_ old) (at_ (max n (clockFloor s cl))) = false → exec (.clockChange cl n) s = .next (at_ (max (min 12 old) (clockFloor s cl)))))) ∧
  (∀ (s : State) (cl : Nat),
    let t := planDomain s cl
    t = { s with clusters := t.clusters } ∧ (∀ c, getCl t c = { getCl s c with clock := (getCl t c).clock }) ∧ (s.firm.stage = 1 → t = s) ∧
    ((∃ c ∈ domain s cl, deferred s c = true) → t = s) ∧ ∀ c, c ∉ domain s cl → (getCl t c).clock = (getCl s c).clock) ∧
  (∀ (s : State) (d : List Nat), (∀ c ∈ d, clockFloor s c ≤ domainSetting s d) ∧
    ((∀ c ∈ d, ∀ b ∈ d, clockFloor s c ≤ (getCl s b).choice) → (∀ c ∈ d, domainSetting s d ≤ (getCl s c).choice))) ∧
  (∀ (s : State), ∃ t, exec .overcurrentStep s = .next t ∧ t.mem = s.mem ∧ t.core = s.core ∧ t.limited = Config.overCurrent s.meterings ∧
    ∀ c, c < 256 → (getCl t c).clock = if Config.overCurrent s.meterings = true ∧ clockFloor s c < (getCl s c).clock then (getCl s c).clock - 1 else (getCl s c).clock) ∧
  (∀ (s : State) (n : Nat) (p : Part), partById s n = some p →
    ((partBusy s p = true ∨ s.firm.stage ≠ 2) → exec (.weightStoreOpen n) s = .next s) ∧
    (partBusy s p = false → s.firm.stage = 2 → exec (.weightStoreOpen n) s = .next (modPart s n (fun p => { p with storeOpen := true }))) ∧
    ((∀ c ∈ s.clusters, ∀ j ∈ c.jobs, j.kind ≠ .xws) → exec (.weightStoreClose n) s = .next (modPart s n (fun p => { p with storeOpen := false })))) ∧
  (∀ (s : State) (k : Nat) (keys : BitVec 256 × BitVec 256), k < 4096 → s.firm.stage ≠ 0 → exec (.keySlotLoad k (some keys)) s = .next { s with keys := put s.keys k keys } ∧
    exec (.keySlotLoad k none) s = .next { s with keys := s.keys.filter (fun e => e.1 != k) }) ∧
  (∀ (s : State) (d : LoadDesc) (p : Part), partById s d.part = some p → s.firm.stage ≠ 0 →
    let f := d.file
    let fails (n : Nat) : Prop := exec (.moduleLoad d.part d.proc d.file d.pc d.toLoadIns) s = .next { s with loader := (n, 0) }
    let signed := signedBy f (signerOk s d.part) = true
    (vofOk f = false → fails 1) ∧ (vofOk f = true → ¬ signed → fails 2) ∧
    (∀ n, vofOk f = true → signed → nativeOf s d = .error n → fails n) ∧
    (∀ g n, vofOk f = true → signed → nativeOf s d = .ok g → place s p d g = .error n → fails n) ∧
    (∀ g u n, vofOk f = true → signed → nativeOf s d = .ok g → place s p d g = .ok u → d.peers.find? (fun st => st != 0) = some n → fails n) ∧
    (∀ g u, vofOk f = true → signed → nativeOf s d = .ok g → place s p d g = .ok u → (∀ st ∈ d.peers, st = 0) → exec (.moduleLoad d.part d.proc d.file d.pc d.toLoadIns) s = .next (multicast p f g u))) ∧
  (∀ (s : State) (q : Publish) (r : List Publish), s.publishing = q :: r → q.wait = [] → q.fenced = [] → (∀ x ∈ r, x.wait ≠ [] ∨ x.fenced ≠ []) →
    let t := publishDue s
    t.publishing = r ∧ t.modules = s.modules ++ [q.mod] ∧ t.loader = (0, q.mod.handle) ∧ t.mem = s.mem) ∧
  (∀ (s : State) (proc h : Nat) (m : Module), s.modules.find? (fun m => m.proc == proc && m.handle == h) = some m →
    (moduleBusy s m = true → exec (.moduleUnload proc h) s = .next { s with loader := (8, h) }) ∧
    (moduleBusy s m = false → ∃ t, exec (.moduleUnload proc h) s = .next t ∧ t.modules = s.modules.erase m ∧ t.loader = (0, h) ∧
      t.mem = (m.maps.foldl (fun u k => putEntry u k 0) s).mem ∧
      t.invals = s.invals ++ (m.data.filter (fun r => r.2 != 0)).map (fun r => .tlb m.part (some proc) r.1 r.2) ∧
      (inPart s m.part s.core.id = true → ∀ e ∈ t.core.tags, e.2.getLsbD 63 = true → ¬ ((e.2.extractLsb' 88 8).toNat = proc ∧ inModule m (e.2.extractLsb' 0 32) = true))))

/-- R371-R376: a verified image goes to the spare slot and the update begins; with every queue off the device the old image writes the
handover structure and the new image starts, or the write fails and the update has ended; the new image's first heartbeat, where it takes
the structure, makes it the active one, a missed one brings the old image back; power-on leaves what reset leaves and what the flash and
external memory hold, and verifies the images; the two service stages; the answers to the attestation requests.
Besides the rules it rests on the model's own choices in logs 5, 21, 24, 44, 67, 70, 82. -/
def Obligations.FirmwareEvents : Prop :=
  (∀ (s : State) (f : List Byte) (v o : Nat), s.firm.updating = false →
    let good := sigLayoutOk f o = true ∧ firmwareKey s.firm = some (sigKey f o) ∧ sigVerifies f o = true
    (good → ∃ t, exec (.firmwareUpdate f v o) s = .next t ∧ t.firm.updating = true ∧ t.firm.pending = some (sha3 (f.take o)) ∧
      t.firm.activeB = s.firm.activeB ∧ (if s.firm.activeB then t.firm.imgA else t.firm.imgB) =
        some { version := v, digest := sha3 (f.take o), key := sigKey f o, sig := (f.drop (o + 40)).take 2420 } ∧
      (if s.firm.activeB then t.firm.imgB else t.firm.imgA) = (if s.firm.activeB then s.firm.imgB else s.firm.imgA) ∧
      ∀ y ∈ t.queues, y.phase ≠ .serving) ∧
    (¬ good → ∃ t, exec (.firmwareUpdate f v o) s = .next t ∧ t = { s with firm := t.firm } ∧ (if s.firm.activeB then t.firm.imgA else t.firm.imgB) = none)) ∧
  (∀ (s : State) (f : List Byte) (v o : Nat), s.firm.updating = true → quiet s = true → s.firm.handover = none →
    let h := handoverOf s
    (exec (.firmwareUpdate f v o) s = .next { s with free := s.free + 1, firm := { s.firm with handover := some h, runningB := !s.firm.activeB } } ∨
      exec (.firmwareUpdate f v o) s = .next { s with free := s.free + 1, firm := { s.firm with updating := false, pending := none, handover := none } }) ∧
    h.digest = sha3 h.body ∧ h.len = h.body.length ∧ ∀ i, (if s.firm.runningB then s.firm.imgB else s.firm.imgA) = some i → h.version = i.version) ∧
  (∀ (s : State) (h : Handover) (i : Image), s.firm.updating = true → s.firm.handover = some h → (if s.firm.activeB then s.firm.imgA else s.firm.imgB) = some i →
    let takes := h.version ≤ i.version ∧ h.len = h.body.length ∧ h.digest = sha3 h.body
    (takes → ∃ t, exec .firmwareHeartbeat s = .next t ∧ t = { s with firm := t.firm } ∧ t.firm.activeB = !s.firm.activeB ∧ t.firm.updating = false ∧
      (2, i.digest) ∈ measurements t.firm ∧ (5, BitVec.ofNat 256 i.version) ∈ measurements t.firm) ∧
    (¬ takes → exec .firmwareHeartbeat s = .next s) ∧
    exec .firmwareHeartbeatMiss s = .next { s with firm := { s.firm with runningB := s.firm.activeB, updating := false, pending := none, handover := none } }) ∧
  (∀ (s : State), ∃ t, exec .powerOn s = .next t ∧ t.core = Core.reset (coreWord (ownPkg s) 0 0) ∧ t.peers = [] ∧ t.queues = [] ∧ t.kerns = [] ∧
    t.mem = s.mem.filter (fun c => decide (2 ^ 52 ≤ c.1) && decide (c.1 < 3 * 2 ^ 52)) ∧ t.firm.stage = 0 ∧ t.firm.inForce = s.firm.records ∧
    t.firm.imgA = s.firm.imgA ∧ t.firm.imgB = s.firm.imgB ∧ t.firm.activeB = s.firm.activeB ∧
    (let slot (b : Bool) : Option Image := if b then s.firm.imgB else s.firm.imgA
     let good (i : Image) : Prop := firmwareKey t.firm = some i.key ∧ Config.mldsaVerify i.key i.digest i.sig = true
     let runs (b : Bool) : Prop := t.firm.runningB = b ∧ t.firm.measured = slot b
     (∀ i, slot s.firm.activeB = some i → good i → runs s.firm.activeB) ∧
     (∀ i, (∀ j, slot s.firm.activeB = some j → ¬ good j) → slot (!s.firm.activeB) = some i → good i → runs (!s.firm.activeB)) ∧
     ((∀ b j, slot b = some j → ¬ good j) → t.firm.measured = none)) ∧
    ∃ p, t.parts = [p] ∧ p.clusters = List.range 256 ∧ p.memCores = List.range 64 ∧ p.absent = maskedCores t) ∧
  (∀ s : State, s.firm.stage = 0 → ∃ t p, exec .reducedService s = .next t ∧ t.bar = some Config.notifyBar ∧ p.absent = withheldCores s ∧ t.firm = { s.firm with stage := 1 } ∧ t.parts = [p] ∧
    p.clusters = List.range 64 ∧ p.memCores = List.range 8 ∧ (∀ c, c < 64 → (getCl t c).clock = 4) ∧ t.mem = s.mem) ∧
  (∀ (s : State) (d : ServiceDesc), s.firm.stage = 1 → ∃ t, exec (.fullService d) s = .next t ∧
    t = { s with firm := { s.firm with stage := 2, withheld := d.withheld }, pod := d.pod, links := t.links, clusters := t.clusters } ∧
    (∀ c, getCl t c = { getCl s c with clock := (getCl t c).clock }) ∧ ∀ n ∈ d.links, (linkOf t n).down = true) ∧
  (∀ (s : State) (w : Word), w ∈ withheldCores s ↔ w ∈ s.firm.withheld ∨ ∃ n, n < 2112 ∧ n < 8 * (look [] s.firm.inForce 3).length ∧
    ((look [] s.firm.inForce 3).getD (n / 8) 0).getLsbD (n % 8) = true ∧
    w = if n < 2048 then coreWord (ownPkg s) (n / 8) (n % 8) else coreWord (ownPkg s) (256 + n - 2048) 0) ∧
  (∀ (s : State) (f : List Byte),
    let type := field f 4 4
    let seq := field f 8 4
    let n := field f 12 4
    let body := (f.drop 16).take n
    let good := field f 0 4 = 0x01525A44 ∧ 1 ≤ type ∧ type ≤ 3 ∧ sigLayoutOk f (16 + n) = true ∧ sigVerifies f (16 + n) = true ∧
      (sigKey f (16 + n) = Config.provisioningKey ∨ (type = 1 ∧ ownerKey s = some (sigKey f (16 + n)))) ∧
      (∀ e, s.firm.seqs.find? (fun e => e.1 == type) = some e → e.2 ≤ seq) ∧ (type = 1 → limitOk s body = true)
    (good → exec (.signedRecord f) s = .next { s with firm := { s.firm with records := put s.firm.records type body, seqs := put s.firm.seqs type seq } }) ∧
    (¬ good → exec (.signedRecord f) s = .next s)) ∧
  (∀ (s : State) (sha mldsa : Bool) (nonce : BitVec 256) (n : Nat),
    let out (a : SpdmAns) : Host.Outcome State Fault Refusal := .next { s with firm := { s.firm with answers := s.firm.answers ++ [a] } }
    exec .getVersion s = out (.version 1 3) ∧ exec .getCapabilities s = out (.capabilities true true true) ∧
    exec (.negotiateAlgorithms sha mldsa) s = out (.algorithms sha mldsa) ∧ exec .getDigests s = out (.digests (sha3 Config.certChain)) ∧
    exec .getCertificate s = out (.certificate Config.certChain) ∧
    exec (.challenge nonce) s = out (.challengeAuth nonce (measureSummary s.firm)
      (Config.mldsaSign Config.pufSeed (sha3 (natBytes nonce.toNat 32 ++ natBytes (measureSummary s.firm).toNat 32)))) ∧
    exec (.getMeasurements 255) s = out (.measurements (measurements s.firm)) ∧
    (∀ d, n ≠ 255 → (n, d) ∈ measurements s.firm → exec (.getMeasurements n) s = out (.measurements [(n, d)])) ∧
    (n ≠ 255 → (∀ d, (n, d) ∉ measurements s.firm) → exec (.getMeasurements n) s = out .error))

/-- The worked encodings of chapter 2: a pair, a lone instruction, and words that are not instructions with the reasons
that R46 gives them. -/
def Obligations.WorkedEncodings : Prop :=
  decodeControl false 0x25A81896 0x60175062 = .ok (.ldw (.q 0) (.w 3) 2 .acq .pkg) ∧
  decodeArith 0x60175062 = .ok (.vadd (.w 5) (.q 0) (.w 6) .i32) ∧
  decodeControl false 0x981C0000 0x00012345 = .ok (.movi (.w 7) 0x00012345) ∧ decodeControl false 0x181C0000 0x00012345 = .error 2 ∧
  decodeControl false 0 0 = .ok .cnop ∧ decodeArith 0 = .ok .anop ∧ decodeControl false 0x7C000000 0 = .error 1 ∧
  decodeArith 0x2E000000 = .ok (.sel (.w 0) (.w 0) (.w 0)) ∧ decodeArith 0x60140068 = .error 4 ∧ decodeArith 0x2F000001 = .error 4 ∧
  decodeControl false 0x2E1C0810 0 = .error 4 ∧ decodeControl false 0xA0000041 0 = .error 6

/-- Decode and encode agree: for every well-formed instruction word, decoding what the encoder gives it gives it back,
with every operand at every value that the encoding admits: an arithmetic word from word1, a control word from word0 and,
where it is lone, EXT, on the kind of core that has it (R30-R44). -/
def Obligations.DecodeEncode : Prop :=
  ∀ (i : Instr) (w0 w1 : Word), i.wf = true → encode i = some (w0, w1) →
    ((aOps i).isSome = true → decodeArith w1 = .ok i) ∧
    ((aOps i).isSome = false → ∀ m, runsOn m i = true → decodeControl m w0 w1 = .ok i)

/-- R41, R42, R45, R46: an unassigned OP value is refused with reason 1, in either form; OP values 0x39 to 0x3C are refused
on compute cores and 0x30 to 0x33 on memory cores; no word of either map is read as an instruction of another kind of core. -/
def Obligations.UnassignedWordsRefused : Prop :=
  (∀ (m : Bool) (w ext : Word), (w.extractLsb' 25 6).toNat ∈ [0x0E, 0x0F, 0x25, 0x26, 0x27, 0x3E, 0x3F] → decodeControl m w ext = .error 1) ∧
  (∀ (w : Word), let op := (w.extractLsb' 25 7).toNat
    ((0x25 ≤ op ∧ op ≤ 0x2F) ∨ (0x4F ≤ op ∧ op ≤ 0x5F) ∨ (0x78 ≤ op ∧ op ≤ 0x7B) ∨ op = 0x7E ∨ op = 0x7F) → decodeArith w = .error 1) ∧
  (∀ (w ext : Word), 0x39 ≤ (w.extractLsb' 25 6).toNat → (w.extractLsb' 25 6).toNat ≤ 0x3C → ∃ n, decodeControl false w ext = .error n) ∧
  (∀ (w ext : Word), 0x30 ≤ (w.extractLsb' 25 6).toNat → (w.extractLsb' 25 6).toNat ≤ 0x33 → ∃ n, decodeControl true w ext = .error n) ∧
  (∀ (m : Bool) (w ext : Word) (i : Instr), decodeControl m w ext = .ok i → runsOn m i = true ∧ aOps i = none) ∧
  (∀ (w : Word) (i : Instr), decodeArith w = .ok i → (aOps i).isSome = true)

/-- R19, R132, R135, R236, R237, R254, R255: what reset leaves of the state that the manual gives a value for; and what rests on
choices of the model: that the backlog and the list of late writes are empty (log 3) and the invariant of every step (log 2).
Besides the rules it rests on the model's own choices in logs 2, 3. -/
def Obligations.ResetState : Prop :=
  let s := State.reset
  Inv s ∧ s.core.slot.backlog = [] ∧ s.core.late = [] ∧ s.core.slot.ofile = Vector.replicate 8 0 ∧ s.core.alt.ofile = Vector.replicate 8 0 ∧
  s.core.slot.wb = 0 ∧ s.core.slot.wl = 1 ∧ s.core.slot.pb = 0 ∧ s.core.slot.pl = 2048 ∧
  s.core.alt.wb = 0 ∧ s.core.alt.wl = 1 ∧ s.core.alt.pb = 0 ∧ s.core.alt.pl = 2048 ∧
  (∀ n, look (0, 2048) s.core.bounds n = (0, 2048)) ∧ (∀ q r c, tileAt s.core q r c = 0) ∧ s.core.fresh = 0 ∧
  (∀ n, look 0x3F800000 s.core.scaleA n = 0x3F800000) ∧ (∀ n, look 0x3F800000 s.core.scaleB n = 0x3F800000) ∧
  s.core.codes = Vector.replicate 16 0 ∧ s.core.kc = 1 ∧
  (∀ r ∈ [CReg.cycle, .fpm, .mstat, .scla, .sclb, .cone, .lend, .grp0, .grp1, .grp2, .grp3, .wb, .pb, .tagsel, .tagent], creg s r = 0) ∧
  creg s .rfsh = laneRow 65535 ∧ creg s .wl = laneRow 1 ∧ creg s .pl = laneRow 2048

/-- A step runs the decoded instruction: where no outside event is due, the current slot has the turn, its core does not roll back, and a
harvest slot is not held back, the step is exec, one cycle of the reference clock on, of the control word at the PC that decodes to i, or,
with the arithmetic stream not waiting, of the arithmetic word at the head of the backlog; a word that does not wait and reads a line that
cannot be corrected meets that error in its place. To a next state it adds only the count of an issued word in its context's activity, a
mark on the saved bundles of a trapped stream whose operands a handler has written, a pair's checkpoint, and that the line of a full row
result holds no error any more. An outside event that is due is run first (R9, R10, R13, R25, R357, R360-R364; the turns are log 3, the
mark is log 55, the errors are log 28).
Besides the rules it rests on the model's own choices in logs 3, 15, 28, 52, 55. -/
def Obligations.StepRuns : Prop :=
  ∀ (s : State) (i : Instr),
    let x := s.core.slot
    let u := tick s
    let runs : Prop := step s = match exec i u with
      | .next t => .next (if stalled u t = true then tally i u t
          else match (linesRead u.core i).find? u.core.broken.contains with
            | some line => meetBroken line u
            | none => tally i u (t.modC (mendDst i x)))
      | o => o
    (s.events = [] → s.turn ∈ [0, 2, 4, 6] → (s.core.hvNow = false ∨ s.core.revoking = false) → rollsBack s.core = false →
      x.active = true → x.halted = false → x.trapWait = none →
      (∀ w0 w1, (x.backlog = [] ∨ x.waitA ≠ none ∨ heldBack true u = true) → heldBack false u = false → x.waitC = none →
        x.pc.toNat < (if isMem s.core.id then 0x20000 else 0x40000) →
        lineHeld x = true → x.skipC = false → bundleAt s x.pc = some (w0, w1) → decodeControl (isMem s.core.id) w0 w1 = .ok i → runs) ∧
      (∀ e r, heldBack true u = false → x.backlog = e :: r → x.waitA = none → e.skip = false → e.lone = false → decodeArith e.word = .ok i → runs)) ∧
    (s.core.hvNow = false → ∀ b, heldBack b u = false) ∧
    (∀ es, s.events = i :: es → encode i = none → step s = exec i { u with events := es }) ∧
    u = { s with core := { s.core with cycle := s.core.cycle + BitVec.ofNat 64 (ownCycles s (clIdx s.core.id)) },
                 peers := s.peers.map (fun c => { c with cycle := c.cycle + BitVec.ofNat 64 (ownCycles s (clIdx c.id)) }),
                 clusters := s.clusters.map (fun c => { c with lag := c.lag + 1 - BitVec.ofNat 64 (ownCycles s c.id) }),
                 timer := s.timer + 1, turn := (s.turn + 1) % 8 } ∧
    (∀ cl, (getCl s cl).clock = 12 → ownCycles s cl = 1) ∧
    (∀ t, tally i u t = { t with core := { t.core with
        activity := (tally i u t).core.activity, ckpt := (tally i u t).core.ckpt, slot := { t.core.slot with aside := (tally i u t).core.slot.aside } } } ∧
      (issues i u t = false → (tally i u t).core.activity = t.core.activity) ∧ (x.aside = none → (tally i u t).core.slot = t.core.slot) ∧
      (t.core.slot.paired = false → (tally i u t).core.ckpt = t.core.ckpt) ∧
      (t.core.slot.aside = none → (tally i u t).core.slot = t.core.slot)) ∧
    (∀ c : Core, mendDst i x c = { c with broken := (mendDst i x c).broken } ∧ ∀ l ∈ (mendDst i x c).broken, l ∈ c.broken)

/-- An invariant that every step keeps: from every state whose memory is in its canonical form (keys strictly rising, no
entry that reads as an unlisted byte), a step that answers a next state answers one whose memory is. The form is the model's choice (log 2).
Besides the rules it rests on the model's own choices in log 2. -/
def Obligations.StepKeepsMemoryForm : Prop :=
  ∀ (s t : State), Inv s → step s = .next t → Inv t
end

