-- ==== Sys2Proof/Laws/Memory.lean ====
section
/-! SUPPORT. Laws of memory and of the tables by number: read after write, the canonical form, lookup. -/

namespace Sys2Proof.Machine

/-! ### Tables -/

@[simp] theorem look_nil {α : Type} (d : α) (n : Nat) : look d [] n = d := rfl

theorem look_put {α : Type} (d : α) (l : List (Nat × α)) (n m : Nat) (x : α) (h : l.Pairwise (fun a b => a.1 < b.1)) :
    look d (put l n x) m = if n = m then x else look d l m := by
  induction l with
  | nil => simp [put, look]
  | cons e r ih =>
    obtain ⟨k, v⟩ := e
    rw [List.pairwise_cons] at h
    simp only [put]
    split
    · simp [look]
    · split
      · next hk => subst hk; simp only [look]; split <;> rfl
      · simp only [look, ih h.2]
        split
        · next hk => subst hk; split <;> first | omega | rfl
        · rfl

theorem look_put_self {α : Type} (d : α) (l : List (Nat × α)) (n : Nat) (x : α) : look d (put l n x) n = x := by
  induction l with
  | nil => simp [put, look]
  | cons e r ih =>
    obtain ⟨k, v⟩ := e
    simp only [put]
    split
    · simp [look]
    · split
      · simp [look]
      · next h => simp [look, h, ih]

theorem look_put_other {α : Type} (d : α) (l : List (Nat × α)) (n m : Nat) (x : α) (h : n ≠ m) : look d (put l n x) m = look d l m := by
  induction l with
  | nil => simp [put, look, h]
  | cons e r ih =>
    obtain ⟨k, v⟩ := e
    simp only [put]
    split
    · simp [look, h]
    · split
      · next hk => subst hk; simp [look, h]
      · simp [look, ih]

/-! ### Reading a byte after a write -/

theorem memRead_eq_look (m : Memory) (a : Nat) : memRead m a = look unlisted m a := by
  induction m with
  | nil => rfl
  | cons e r ih => simp [memRead, look, ih]

theorem wfFrom_mono {lo hi : Nat} {m : Memory} (h : lo ≤ hi) (w : Memory.wfFrom hi m = true) : Memory.wfFrom lo m = true := by
  cases m with
  | nil => rfl
  | cons e r =>
    simp only [Memory.wfFrom, Bool.and_eq_true, decide_eq_true_eq] at *
    exact ⟨⟨by omega, w.1.2⟩, w.2⟩

/-- Every key below the bound of the canonical form reads as an unlisted one. -/
theorem memRead_below {lo a : Nat} {m : Memory} (w : Memory.wfFrom lo m = true) (h : a < lo) : memRead m a = unlisted := by
  induction m generalizing lo with
  | nil => rfl
  | cons e r ih =>
    simp only [Memory.wfFrom, Bool.and_eq_true, decide_eq_true_eq] at w
    have : e.1 ≠ a := by omega
    simp only [memRead, this, if_false]
    exact ih w.2 (by omega)

/-- A write of one byte keeps the canonical form. -/
theorem memWrite_wfFrom {lo a : Nat} {m : Memory} {b : Byte} (w : Memory.wfFrom lo m = true) (h : lo ≤ a) :
    Memory.wfFrom lo (memWrite m a b) = true := by
  induction m generalizing lo with
  | nil =>
    simp only [memWrite]
    split
    · rfl
    · simp [Memory.wfFrom, *]
  | cons e r ih =>
    obtain ⟨k, c⟩ := e
    simp only [Memory.wfFrom, Bool.and_eq_true, decide_eq_true_eq] at w
    simp only [memWrite]
    split
    · next hl =>
      split
      · simp [Memory.wfFrom, w]
      · simp only [Memory.wfFrom, Bool.and_eq_true, decide_eq_true_eq]
        exact ⟨⟨h, by simp [*]⟩, ⟨by omega, w.1.2⟩, w.2⟩
    · split
      · split
        · exact wfFrom_mono (by omega) w.2
        · next hk hb => subst hk; simp only [Memory.wfFrom, Bool.and_eq_true, decide_eq_true_eq]; exact ⟨⟨h, by simp [hb]⟩, w.2⟩
      · simp only [Memory.wfFrom, Bool.and_eq_true, decide_eq_true_eq]
        exact ⟨w.1, ih w.2 (by omega)⟩

/-- Read after write, in a memory in canonical form. -/
theorem memRead_memWrite {lo a c : Nat} {m : Memory} {b : Byte} (w : Memory.wfFrom lo m = true) :
    memRead (memWrite m a b) c = if a = c then b else memRead m c := by
  induction m generalizing lo with
  | nil =>
    simp only [memWrite]
    split
    · next h => subst h; simp [memRead]
    · simp [memRead]
  | cons e r ih =>
    obtain ⟨k, d⟩ := e
    have w0 := w
    simp only [Memory.wfFrom, Bool.and_eq_true, decide_eq_true_eq] at w
    simp only [memWrite]
    split
    · next hl =>
      split
      · next hb =>
        subst hb
        split
        · next hc =>
          subst hc
          have hk : k ≠ a := by omega
          simp only [memRead, hk, if_false]
          exact memRead_below w.2 (by omega)
        · rfl
      · simp only [memRead]
    · split
      · next hk =>
        subst hk
        split
        · next hb =>
          subst hb
          split
          · next hc => subst hc; exact memRead_below w.2 (by omega)
          · next hc => simp [memRead, hc]
        · next hb => simp only [memRead]; split <;> rfl
      · simp only [memRead, ih w.2]
        split
        · split <;> first | omega | rfl
        · rfl

theorem memWrite_wf {m : Memory} (a : Nat) (b : Byte) (w : m.wf = true) : (memWrite m a b).wf = true :=
  memWrite_wfFrom w (Nat.zero_le a)

theorem memWriteN_wf {m : Memory} (a : Nat) (bs : List Byte) (w : m.wf = true) : (memWriteN m a bs).wf = true := by
  induction bs generalizing m a with
  | nil => exact w
  | cons b r ih => exact ih (a + 1) (memWrite_wf a b w)

/-- A list of writes keeps the canonical form. -/
theorem foldl_memWrite_wf (l : List (Nat × Byte)) {m : Memory} (w : m.wf = true) :
    (l.foldl (fun m e => memWrite m e.1 e.2) m).wf = true := by
  induction l generalizing m with
  | nil => exact w
  | cons e r ih => exact ih (memWrite_wf e.1 e.2 w)

theorem filter_wfFrom (p : Nat × Byte → Bool) {lo : Nat} {m : Memory} (w : Memory.wfFrom lo m = true) :
    Memory.wfFrom lo (m.filter p) = true := by
  induction m generalizing lo with
  | nil => rfl
  | cons e r ih =>
    simp only [Memory.wfFrom, Bool.and_eq_true, decide_eq_true_eq] at w
    simp only [List.filter]
    split
    · simp only [Memory.wfFrom, Bool.and_eq_true, decide_eq_true_eq]
      exact ⟨w.1, ih w.2⟩
    · exact wfFrom_mono (by omega) (ih w.2)

theorem memFilter_wf (p : Nat × Byte → Bool) {m : Memory} (w : m.wf = true) : Memory.wf (m.filter p) = true := filter_wfFrom p w

theorem memZero_wf {m : Memory} (lo n : Nat) (w : m.wf = true) : (memZero m lo n).wf = true := filter_wfFrom _ w

/-- A run of bytes lies where it was written, and nowhere else. -/
theorem memRead_memWriteN {m : Memory} (a c : Nat) (bs : List Byte) (w : m.wf = true) :
    memRead (memWriteN m a bs) c = if a ≤ c ∧ c < a + bs.length then bs.getD (c - a) 0 else memRead m c := by
  induction bs generalizing m a with
  | nil => simp [memWriteN]
  | cons b r ih =>
    simp only [memWriteN, ih (a + 1) (memWrite_wf a b w), List.length_cons]
    by_cases h : a = c
    · subst h
      have h1 : ¬(a + 1 ≤ a ∧ a < a + 1 + r.length) := by omega
      have h2 : a ≤ a ∧ a < a + (r.length + 1) := by omega
      rw [if_neg h1, if_pos h2, memRead_memWrite w, if_pos rfl]
      simp
    · by_cases h3 : a + 1 ≤ c ∧ c < a + 1 + r.length
      · have h4 : a ≤ c ∧ c < a + (r.length + 1) := by omega
        rw [if_pos h3, if_pos h4]
        have h5 : c - a = (c - (a + 1)) + 1 := by omega
        rw [h5]; simp
      · have h4 : ¬(a ≤ c ∧ c < a + (r.length + 1)) := by omega
        rw [if_neg h3, if_neg h4, memRead_memWrite w, if_neg h]

/-- Zeroed keys read 0, the others as before. -/
theorem memRead_memZero (m : Memory) (lo n c : Nat) :
    memRead (memZero m lo n) c = if lo ≤ c ∧ c < lo + n then 0 else memRead m c := by
  induction m with
  | nil => simp [memZero, memRead, unlisted]
  | cons e r ih =>
    obtain ⟨k, b⟩ := e
    unfold memZero at ih
    simp only [memZero, List.filter]
    split
    · next h =>
      simp only [Bool.or_eq_true, decide_eq_true_eq] at h
      simp only [memRead, ih]
      by_cases hk : k = c
      · subst hk
        have : ¬(lo ≤ k ∧ k < lo + n) := by omega
        simp [this]
      · simp [hk]
    · next h =>
      simp only [Bool.or_eq_false_iff, decide_eq_false_iff_not] at h
      rw [ih]
      simp only [memRead]
      by_cases hk : k = c
      · subst hk
        have : lo ≤ k ∧ k < lo + n := by omega
        simp [this]
      · simp [hk]

theorem memRead_memSpan (m : Memory) (a n c : Nat) (h : a ≤ c ∧ c < a + n) : memRead (memSpan m a n) c = memRead m c := by
  induction m with
  | nil => rfl
  | cons e r ih =>
    unfold memSpan at ih ⊢
    simp only [List.filter]
    split
    · simp [memRead, ih]
    · next hk =>
      simp only [Bool.and_eq_false_iff, decide_eq_false_iff_not] at hk
      have : e.1 ≠ c := by omega
      simp [memRead, this, ih]

/-- A run of bytes read is the bytes read one by one. -/
theorem memReadN_eq (m : Memory) (a n : Nat) : memReadN m a n = (List.range n).map (fun i => memRead m (a + i)) := by
  unfold memReadN
  apply List.map_congr_left
  intro i hi
  rw [List.mem_range] at hi
  exact memRead_memSpan m a n (a + i) ⟨by omega, by omega⟩

end Sys2Proof.Machine
end

