-- ==== Sys2Proof/Laws/State.lean ====
section
/-! SUPPORT. What each update of the state leaves alone: one lemma per field per update. -/

namespace Sys2Proof.Machine

/-! ### Updates of the current core and slot -/

@[simp] theorem modC_core (s : State) (f : Core → Core) : (s.modC f).core = f s.core := rfl
@[simp] theorem modS_core (s : State) (f : Slot → Slot) : (s.modS f).core = { s.core with slot := f s.core.slot } := rfl
@[simp] theorem modC_peers (s : State) (f : Core → Core) : (s.modC f).peers = s.peers := rfl
@[simp] theorem modC_clusters (s : State) (f : Core → Core) : (s.modC f).clusters = s.clusters := rfl
@[simp] theorem modC_mem (s : State) (f : Core → Core) : (s.modC f).mem = s.mem := rfl
@[simp] theorem modC_parts (s : State) (f : Core → Core) : (s.modC f).parts = s.parts := rfl
@[simp] theorem modC_procs (s : State) (f : Core → Core) : (s.modC f).procs = s.procs := rfl
@[simp] theorem modC_keys (s : State) (f : Core → Core) : (s.modC f).keys = s.keys := rfl
@[simp] theorem modC_queues (s : State) (f : Core → Core) : (s.modC f).queues = s.queues := rfl
@[simp] theorem modC_kerns (s : State) (f : Core → Core) : (s.modC f).kerns = s.kerns := rfl
@[simp] theorem modC_walkers (s : State) (f : Core → Core) : (s.modC f).walkers = s.walkers := rfl
@[simp] theorem modC_stops (s : State) (f : Core → Core) : (s.modC f).stops = s.stops := rfl
@[simp] theorem modC_net (s : State) (f : Core → Core) : (s.modC f).net = s.net := rfl
@[simp] theorem modC_outbound (s : State) (f : Core → Core) : (s.modC f).outbound = s.outbound := rfl
@[simp] theorem modC_decs (s : State) (f : Core → Core) : (s.modC f).decs = s.decs := rfl
@[simp] theorem modC_held (s : State) (f : Core → Core) : (s.modC f).held = s.held := rfl
@[simp] theorem modC_bars (s : State) (f : Core → Core) : (s.modC f).bars = s.bars := rfl
@[simp] theorem modC_modules (s : State) (f : Core → Core) : (s.modC f).modules = s.modules := rfl
@[simp] theorem modC_saved (s : State) (f : Core → Core) : (s.modC f).saved = s.saved := rfl
@[simp] theorem modC_savedMsgs (s : State) (f : Core → Core) : (s.modC f).savedMsgs = s.savedMsgs := rfl
@[simp] theorem modC_savedDct (s : State) (f : Core → Core) : (s.modC f).savedDct = s.savedDct := rfl
@[simp] theorem modC_invals (s : State) (f : Core → Core) : (s.modC f).invals = s.invals := rfl
@[simp] theorem modC_priEnabled (s : State) (f : Core → Core) : (s.modC f).priEnabled = s.priEnabled := rfl
@[simp] theorem modC_pod (s : State) (f : Core → Core) : (s.modC f).pod = s.pod := rfl
@[simp] theorem modC_remote (s : State) (f : Core → Core) : (s.modC f).remote = s.remote := rfl
@[simp] theorem modC_publishing (s : State) (f : Core → Core) : (s.modC f).publishing = s.publishing := rfl
@[simp] theorem modC_savedMem (s : State) (f : Core → Core) : (s.modC f).savedMem = s.savedMem := rfl
@[simp] theorem modC_ports (s : State) (f : Core → Core) : (s.modC f).ports = s.ports := rfl
@[simp] theorem modC_images (s : State) (f : Core → Core) : (s.modC f).images = s.images := rfl
@[simp] theorem modC_misses (s : State) (f : Core → Core) : (s.modC f).misses = s.misses := rfl
@[simp] theorem modC_prgAlloc (s : State) (f : Core → Core) : (s.modC f).prgAlloc = s.prgAlloc := rfl
@[simp] theorem modC_kiln (s : State) (f : Core → Core) : (s.modC f).kiln = s.kiln := rfl
@[simp] theorem modC_bar (s : State) (f : Core → Core) : (s.modC f).bar = s.bar := rfl
@[simp] theorem modC_pkgFrac (s : State) (f : Core → Core) : (s.modC f).pkgFrac = s.pkgFrac := rfl
@[simp] theorem modC_timer (s : State) (f : Core → Core) : (s.modC f).timer = s.timer := rfl
@[simp] theorem modC_links (s : State) (f : Core → Core) : (s.modC f).links = s.links := rfl
@[simp] theorem modC_pkgEnergy (s : State) (f : Core → Core) : (s.modC f).pkgEnergy = s.pkgEnergy := rfl
@[simp] theorem modC_meterings (s : State) (f : Core → Core) : (s.modC f).meterings = s.meterings := rfl
@[simp] theorem modC_limited (s : State) (f : Core → Core) : (s.modC f).limited = s.limited := rfl
@[simp] theorem modC_firm (s : State) (f : Core → Core) : (s.modC f).firm = s.firm := rfl
@[simp] theorem modC_loader (s : State) (f : Core → Core) : (s.modC f).loader = s.loader := rfl
@[simp] theorem modC_events (s : State) (f : Core → Core) : (s.modC f).events = s.events := rfl
@[simp] theorem modC_turn (s : State) (f : Core → Core) : (s.modC f).turn = s.turn := rfl
@[simp] theorem modC_free (s : State) (f : Core → Core) : (s.modC f).free = s.free := rfl
@[simp] theorem modS_peers (s : State) (f : Slot → Slot) : (s.modS f).peers = s.peers := rfl
@[simp] theorem modS_clusters (s : State) (f : Slot → Slot) : (s.modS f).clusters = s.clusters := rfl
@[simp] theorem modS_mem (s : State) (f : Slot → Slot) : (s.modS f).mem = s.mem := rfl
@[simp] theorem modS_parts (s : State) (f : Slot → Slot) : (s.modS f).parts = s.parts := rfl
@[simp] theorem modS_procs (s : State) (f : Slot → Slot) : (s.modS f).procs = s.procs := rfl
@[simp] theorem modS_keys (s : State) (f : Slot → Slot) : (s.modS f).keys = s.keys := rfl
@[simp] theorem modS_queues (s : State) (f : Slot → Slot) : (s.modS f).queues = s.queues := rfl
@[simp] theorem modS_kerns (s : State) (f : Slot → Slot) : (s.modS f).kerns = s.kerns := rfl
@[simp] theorem modS_walkers (s : State) (f : Slot → Slot) : (s.modS f).walkers = s.walkers := rfl
@[simp] theorem modS_stops (s : State) (f : Slot → Slot) : (s.modS f).stops = s.stops := rfl
@[simp] theorem modS_net (s : State) (f : Slot → Slot) : (s.modS f).net = s.net := rfl
@[simp] theorem modS_outbound (s : State) (f : Slot → Slot) : (s.modS f).outbound = s.outbound := rfl
@[simp] theorem modS_decs (s : State) (f : Slot → Slot) : (s.modS f).decs = s.decs := rfl
@[simp] theorem modS_held (s : State) (f : Slot → Slot) : (s.modS f).held = s.held := rfl
@[simp] theorem modS_bars (s : State) (f : Slot → Slot) : (s.modS f).bars = s.bars := rfl
@[simp] theorem modS_modules (s : State) (f : Slot → Slot) : (s.modS f).modules = s.modules := rfl
@[simp] theorem modS_saved (s : State) (f : Slot → Slot) : (s.modS f).saved = s.saved := rfl
@[simp] theorem modS_savedMsgs (s : State) (f : Slot → Slot) : (s.modS f).savedMsgs = s.savedMsgs := rfl
@[simp] theorem modS_savedDct (s : State) (f : Slot → Slot) : (s.modS f).savedDct = s.savedDct := rfl
@[simp] theorem modS_invals (s : State) (f : Slot → Slot) : (s.modS f).invals = s.invals := rfl
@[simp] theorem modS_priEnabled (s : State) (f : Slot → Slot) : (s.modS f).priEnabled = s.priEnabled := rfl
@[simp] theorem modS_pod (s : State) (f : Slot → Slot) : (s.modS f).pod = s.pod := rfl
@[simp] theorem modS_remote (s : State) (f : Slot → Slot) : (s.modS f).remote = s.remote := rfl
@[simp] theorem modS_publishing (s : State) (f : Slot → Slot) : (s.modS f).publishing = s.publishing := rfl
@[simp] theorem modS_savedMem (s : State) (f : Slot → Slot) : (s.modS f).savedMem = s.savedMem := rfl
@[simp] theorem modS_ports (s : State) (f : Slot → Slot) : (s.modS f).ports = s.ports := rfl
@[simp] theorem modS_images (s : State) (f : Slot → Slot) : (s.modS f).images = s.images := rfl
@[simp] theorem modS_misses (s : State) (f : Slot → Slot) : (s.modS f).misses = s.misses := rfl
@[simp] theorem modS_prgAlloc (s : State) (f : Slot → Slot) : (s.modS f).prgAlloc = s.prgAlloc := rfl
@[simp] theorem modS_kiln (s : State) (f : Slot → Slot) : (s.modS f).kiln = s.kiln := rfl
@[simp] theorem modS_bar (s : State) (f : Slot → Slot) : (s.modS f).bar = s.bar := rfl
@[simp] theorem modS_pkgFrac (s : State) (f : Slot → Slot) : (s.modS f).pkgFrac = s.pkgFrac := rfl
@[simp] theorem modS_timer (s : State) (f : Slot → Slot) : (s.modS f).timer = s.timer := rfl
@[simp] theorem modS_links (s : State) (f : Slot → Slot) : (s.modS f).links = s.links := rfl
@[simp] theorem modS_pkgEnergy (s : State) (f : Slot → Slot) : (s.modS f).pkgEnergy = s.pkgEnergy := rfl
@[simp] theorem modS_meterings (s : State) (f : Slot → Slot) : (s.modS f).meterings = s.meterings := rfl
@[simp] theorem modS_limited (s : State) (f : Slot → Slot) : (s.modS f).limited = s.limited := rfl
@[simp] theorem modS_firm (s : State) (f : Slot → Slot) : (s.modS f).firm = s.firm := rfl
@[simp] theorem modS_loader (s : State) (f : Slot → Slot) : (s.modS f).loader = s.loader := rfl
@[simp] theorem modS_events (s : State) (f : Slot → Slot) : (s.modS f).events = s.events := rfl
@[simp] theorem modS_turn (s : State) (f : Slot → Slot) : (s.modS f).turn = s.turn := rfl
@[simp] theorem modS_free (s : State) (f : Slot → Slot) : (s.modS f).free = s.free := rfl

/-! ### Updates of a listed core, cluster, partition, process -/

@[simp] theorem setCore_clusters (s : State) (c : Core) : (setCore s c).clusters = s.clusters := by unfold setCore; split <;> rfl
@[simp] theorem modCore_clusters (s : State) (w : Word) (f : Core → Core) : (modCore s w f).clusters = s.clusters := setCore_clusters _ _
@[simp] theorem setCore_mem (s : State) (c : Core) : (setCore s c).mem = s.mem := by unfold setCore; split <;> rfl
@[simp] theorem modCore_mem (s : State) (w : Word) (f : Core → Core) : (modCore s w f).mem = s.mem := setCore_mem _ _
@[simp] theorem setCore_parts (s : State) (c : Core) : (setCore s c).parts = s.parts := by unfold setCore; split <;> rfl
@[simp] theorem modCore_parts (s : State) (w : Word) (f : Core → Core) : (modCore s w f).parts = s.parts := setCore_parts _ _
@[simp] theorem setCore_procs (s : State) (c : Core) : (setCore s c).procs = s.procs := by unfold setCore; split <;> rfl
@[simp] theorem modCore_procs (s : State) (w : Word) (f : Core → Core) : (modCore s w f).procs = s.procs := setCore_procs _ _
@[simp] theorem setCore_keys (s : State) (c : Core) : (setCore s c).keys = s.keys := by unfold setCore; split <;> rfl
@[simp] theorem modCore_keys (s : State) (w : Word) (f : Core → Core) : (modCore s w f).keys = s.keys := setCore_keys _ _
@[simp] theorem setCore_queues (s : State) (c : Core) : (setCore s c).queues = s.queues := by unfold setCore; split <;> rfl
@[simp] theorem modCore_queues (s : State) (w : Word) (f : Core → Core) : (modCore s w f).queues = s.queues := setCore_queues _ _
@[simp] theorem setCore_kerns (s : State) (c : Core) : (setCore s c).kerns = s.kerns := by unfold setCore; split <;> rfl
@[simp] theorem modCore_kerns (s : State) (w : Word) (f : Core → Core) : (modCore s w f).kerns = s.kerns := setCore_kerns _ _
@[simp] theorem setCore_walkers (s : State) (c : Core) : (setCore s c).walkers = s.walkers := by unfold setCore; split <;> rfl
@[simp] theorem modCore_walkers (s : State) (w : Word) (f : Core → Core) : (modCore s w f).walkers = s.walkers := setCore_walkers _ _
@[simp] theorem setCore_stops (s : State) (c : Core) : (setCore s c).stops = s.stops := by unfold setCore; split <;> rfl
@[simp] theorem modCore_stops (s : State) (w : Word) (f : Core → Core) : (modCore s w f).stops = s.stops := setCore_stops _ _
@[simp] theorem setCore_net (s : State) (c : Core) : (setCore s c).net = s.net := by unfold setCore; split <;> rfl
@[simp] theorem modCore_net (s : State) (w : Word) (f : Core → Core) : (modCore s w f).net = s.net := setCore_net _ _
@[simp] theorem setCore_outbound (s : State) (c : Core) : (setCore s c).outbound = s.outbound := by unfold setCore; split <;> rfl
@[simp] theorem modCore_outbound (s : State) (w : Word) (f : Core → Core) : (modCore s w f).outbound = s.outbound := setCore_outbound _ _
@[simp] theorem setCore_decs (s : State) (c : Core) : (setCore s c).decs = s.decs := by unfold setCore; split <;> rfl
@[simp] theorem modCore_decs (s : State) (w : Word) (f : Core → Core) : (modCore s w f).decs = s.decs := setCore_decs _ _
@[simp] theorem setCore_held (s : State) (c : Core) : (setCore s c).held = s.held := by unfold setCore; split <;> rfl
@[simp] theorem modCore_held (s : State) (w : Word) (f : Core → Core) : (modCore s w f).held = s.held := setCore_held _ _
@[simp] theorem setCore_bars (s : State) (c : Core) : (setCore s c).bars = s.bars := by unfold setCore; split <;> rfl
@[simp] theorem modCore_bars (s : State) (w : Word) (f : Core → Core) : (modCore s w f).bars = s.bars := setCore_bars _ _
@[simp] theorem setCore_modules (s : State) (c : Core) : (setCore s c).modules = s.modules := by unfold setCore; split <;> rfl
@[simp] theorem modCore_modules (s : State) (w : Word) (f : Core → Core) : (modCore s w f).modules = s.modules := setCore_modules _ _
@[simp] theorem setCore_saved (s : State) (c : Core) : (setCore s c).saved = s.saved := by unfold setCore; split <;> rfl
@[simp] theorem modCore_saved (s : State) (w : Word) (f : Core → Core) : (modCore s w f).saved = s.saved := setCore_saved _ _
@[simp] theorem setCore_savedMsgs (s : State) (c : Core) : (setCore s c).savedMsgs = s.savedMsgs := by unfold setCore; split <;> rfl
@[simp] theorem modCore_savedMsgs (s : State) (w : Word) (f : Core → Core) : (modCore s w f).savedMsgs = s.savedMsgs := setCore_savedMsgs _ _
@[simp] theorem setCore_savedDct (s : State) (c : Core) : (setCore s c).savedDct = s.savedDct := by unfold setCore; split <;> rfl
@[simp] theorem modCore_savedDct (s : State) (w : Word) (f : Core → Core) : (modCore s w f).savedDct = s.savedDct := setCore_savedDct _ _
@[simp] theorem setCore_invals (s : State) (c : Core) : (setCore s c).invals = s.invals := by unfold setCore; split <;> rfl
@[simp] theorem modCore_invals (s : State) (w : Word) (f : Core → Core) : (modCore s w f).invals = s.invals := setCore_invals _ _
@[simp] theorem setCore_priEnabled (s : State) (c : Core) : (setCore s c).priEnabled = s.priEnabled := by unfold setCore; split <;> rfl
@[simp] theorem modCore_priEnabled (s : State) (w : Word) (f : Core → Core) : (modCore s w f).priEnabled = s.priEnabled := setCore_priEnabled _ _
@[simp] theorem setCore_pod (s : State) (c : Core) : (setCore s c).pod = s.pod := by unfold setCore; split <;> rfl
@[simp] theorem setCore_remote (s : State) (c : Core) : (setCore s c).remote = s.remote := by unfold setCore; split <;> rfl
@[simp] theorem setCore_publishing (s : State) (c : Core) : (setCore s c).publishing = s.publishing := by unfold setCore; split <;> rfl
@[simp] theorem setCore_savedMem (s : State) (c : Core) : (setCore s c).savedMem = s.savedMem := by unfold setCore; split <;> rfl
@[simp] theorem setCore_ports (s : State) (c : Core) : (setCore s c).ports = s.ports := by unfold setCore; split <;> rfl
@[simp] theorem setCore_images (s : State) (c : Core) : (setCore s c).images = s.images := by unfold setCore; split <;> rfl
@[simp] theorem setCore_misses (s : State) (c : Core) : (setCore s c).misses = s.misses := by unfold setCore; split <;> rfl
@[simp] theorem setCore_prgAlloc (s : State) (c : Core) : (setCore s c).prgAlloc = s.prgAlloc := by unfold setCore; split <;> rfl
@[simp] theorem setCore_kiln (s : State) (c : Core) : (setCore s c).kiln = s.kiln := by unfold setCore; split <;> rfl
@[simp] theorem setCore_bar (s : State) (c : Core) : (setCore s c).bar = s.bar := by unfold setCore; split <;> rfl
@[simp] theorem setCore_pkgFrac (s : State) (c : Core) : (setCore s c).pkgFrac = s.pkgFrac := by unfold setCore; split <;> rfl
@[simp] theorem modCore_pod (s : State) (w : Word) (f : Core → Core) : (modCore s w f).pod = s.pod := setCore_pod _ _
@[simp] theorem modCore_remote (s : State) (w : Word) (f : Core → Core) : (modCore s w f).remote = s.remote := setCore_remote _ _
@[simp] theorem modCore_publishing (s : State) (w : Word) (f : Core → Core) : (modCore s w f).publishing = s.publishing := setCore_publishing _ _
@[simp] theorem modCore_savedMem (s : State) (w : Word) (f : Core → Core) : (modCore s w f).savedMem = s.savedMem := setCore_savedMem _ _
@[simp] theorem modCore_ports (s : State) (w : Word) (f : Core → Core) : (modCore s w f).ports = s.ports := setCore_ports _ _
@[simp] theorem modCore_images (s : State) (w : Word) (f : Core → Core) : (modCore s w f).images = s.images := setCore_images _ _
@[simp] theorem modCore_misses (s : State) (w : Word) (f : Core → Core) : (modCore s w f).misses = s.misses := setCore_misses _ _
@[simp] theorem modCore_prgAlloc (s : State) (w : Word) (f : Core → Core) : (modCore s w f).prgAlloc = s.prgAlloc := setCore_prgAlloc _ _
@[simp] theorem modCore_kiln (s : State) (w : Word) (f : Core → Core) : (modCore s w f).kiln = s.kiln := setCore_kiln _ _
@[simp] theorem modCore_bar (s : State) (w : Word) (f : Core → Core) : (modCore s w f).bar = s.bar := setCore_bar _ _
@[simp] theorem modCore_pkgFrac (s : State) (w : Word) (f : Core → Core) : (modCore s w f).pkgFrac = s.pkgFrac := setCore_pkgFrac _ _
@[simp] theorem setCore_timer (s : State) (c : Core) : (setCore s c).timer = s.timer := by unfold setCore; split <;> rfl
@[simp] theorem modCore_timer (s : State) (w : Word) (f : Core → Core) : (modCore s w f).timer = s.timer := setCore_timer _ _
@[simp] theorem setCore_links (s : State) (c : Core) : (setCore s c).links = s.links := by unfold setCore; split <;> rfl
@[simp] theorem modCore_links (s : State) (w : Word) (f : Core → Core) : (modCore s w f).links = s.links := setCore_links _ _
@[simp] theorem setCore_pkgEnergy (s : State) (c : Core) : (setCore s c).pkgEnergy = s.pkgEnergy := by unfold setCore; split <;> rfl
@[simp] theorem modCore_pkgEnergy (s : State) (w : Word) (f : Core → Core) : (modCore s w f).pkgEnergy = s.pkgEnergy := setCore_pkgEnergy _ _
@[simp] theorem setCore_meterings (s : State) (c : Core) : (setCore s c).meterings = s.meterings := by unfold setCore; split <;> rfl
@[simp] theorem modCore_meterings (s : State) (w : Word) (f : Core → Core) : (modCore s w f).meterings = s.meterings := setCore_meterings _ _
@[simp] theorem setCore_limited (s : State) (c : Core) : (setCore s c).limited = s.limited := by unfold setCore; split <;> rfl
@[simp] theorem modCore_limited (s : State) (w : Word) (f : Core → Core) : (modCore s w f).limited = s.limited := setCore_limited _ _
@[simp] theorem setCore_firm (s : State) (c : Core) : (setCore s c).firm = s.firm := by unfold setCore; split <;> rfl
@[simp] theorem modCore_firm (s : State) (w : Word) (f : Core → Core) : (modCore s w f).firm = s.firm := setCore_firm _ _
@[simp] theorem setCore_loader (s : State) (c : Core) : (setCore s c).loader = s.loader := by unfold setCore; split <;> rfl
@[simp] theorem modCore_loader (s : State) (w : Word) (f : Core → Core) : (modCore s w f).loader = s.loader := setCore_loader _ _
@[simp] theorem setCore_events (s : State) (c : Core) : (setCore s c).events = s.events := by unfold setCore; split <;> rfl
@[simp] theorem modCore_events (s : State) (w : Word) (f : Core → Core) : (modCore s w f).events = s.events := setCore_events _ _
@[simp] theorem setCore_turn (s : State) (c : Core) : (setCore s c).turn = s.turn := by unfold setCore; split <;> rfl
@[simp] theorem modCore_turn (s : State) (w : Word) (f : Core → Core) : (modCore s w f).turn = s.turn := setCore_turn _ _
@[simp] theorem setCore_free (s : State) (c : Core) : (setCore s c).free = s.free := by unfold setCore; split <;> rfl
@[simp] theorem modCore_free (s : State) (w : Word) (f : Core → Core) : (modCore s w f).free = s.free := setCore_free _ _
@[simp] theorem setCl_core (s : State) (c : Cluster) : (setCl s c).core = s.core := rfl
@[simp] theorem setCl_peers (s : State) (c : Cluster) : (setCl s c).peers = s.peers := rfl
@[simp] theorem setCl_mem (s : State) (c : Cluster) : (setCl s c).mem = s.mem := rfl
@[simp] theorem setCl_parts (s : State) (c : Cluster) : (setCl s c).parts = s.parts := rfl
@[simp] theorem setCl_procs (s : State) (c : Cluster) : (setCl s c).procs = s.procs := rfl
@[simp] theorem setCl_keys (s : State) (c : Cluster) : (setCl s c).keys = s.keys := rfl
@[simp] theorem setCl_queues (s : State) (c : Cluster) : (setCl s c).queues = s.queues := rfl
@[simp] theorem setCl_kerns (s : State) (c : Cluster) : (setCl s c).kerns = s.kerns := rfl
@[simp] theorem setCl_walkers (s : State) (c : Cluster) : (setCl s c).walkers = s.walkers := rfl
@[simp] theorem setCl_stops (s : State) (c : Cluster) : (setCl s c).stops = s.stops := rfl
@[simp] theorem setCl_net (s : State) (c : Cluster) : (setCl s c).net = s.net := rfl
@[simp] theorem setCl_outbound (s : State) (c : Cluster) : (setCl s c).outbound = s.outbound := rfl
@[simp] theorem setCl_decs (s : State) (c : Cluster) : (setCl s c).decs = s.decs := rfl
@[simp] theorem setCl_held (s : State) (c : Cluster) : (setCl s c).held = s.held := rfl
@[simp] theorem setCl_bars (s : State) (c : Cluster) : (setCl s c).bars = s.bars := rfl
@[simp] theorem setCl_modules (s : State) (c : Cluster) : (setCl s c).modules = s.modules := rfl
@[simp] theorem setCl_saved (s : State) (c : Cluster) : (setCl s c).saved = s.saved := rfl
@[simp] theorem setCl_savedMsgs (s : State) (c : Cluster) : (setCl s c).savedMsgs = s.savedMsgs := rfl
@[simp] theorem setCl_savedDct (s : State) (c : Cluster) : (setCl s c).savedDct = s.savedDct := rfl
@[simp] theorem setCl_invals (s : State) (c : Cluster) : (setCl s c).invals = s.invals := rfl
@[simp] theorem setCl_priEnabled (s : State) (c : Cluster) : (setCl s c).priEnabled = s.priEnabled := rfl
@[simp] theorem setCl_pod (s : State) (c : Cluster) : (setCl s c).pod = s.pod := rfl
@[simp] theorem setCl_remote (s : State) (c : Cluster) : (setCl s c).remote = s.remote := rfl
@[simp] theorem setCl_publishing (s : State) (c : Cluster) : (setCl s c).publishing = s.publishing := rfl
@[simp] theorem setCl_savedMem (s : State) (c : Cluster) : (setCl s c).savedMem = s.savedMem := rfl
@[simp] theorem setCl_ports (s : State) (c : Cluster) : (setCl s c).ports = s.ports := rfl
@[simp] theorem setCl_images (s : State) (c : Cluster) : (setCl s c).images = s.images := rfl
@[simp] theorem setCl_misses (s : State) (c : Cluster) : (setCl s c).misses = s.misses := rfl
@[simp] theorem setCl_prgAlloc (s : State) (c : Cluster) : (setCl s c).prgAlloc = s.prgAlloc := rfl
@[simp] theorem setCl_kiln (s : State) (c : Cluster) : (setCl s c).kiln = s.kiln := rfl
@[simp] theorem setCl_bar (s : State) (c : Cluster) : (setCl s c).bar = s.bar := rfl
@[simp] theorem setCl_pkgFrac (s : State) (c : Cluster) : (setCl s c).pkgFrac = s.pkgFrac := rfl
@[simp] theorem setCl_timer (s : State) (c : Cluster) : (setCl s c).timer = s.timer := rfl
@[simp] theorem setCl_links (s : State) (c : Cluster) : (setCl s c).links = s.links := rfl
@[simp] theorem setCl_pkgEnergy (s : State) (c : Cluster) : (setCl s c).pkgEnergy = s.pkgEnergy := rfl
@[simp] theorem setCl_meterings (s : State) (c : Cluster) : (setCl s c).meterings = s.meterings := rfl
@[simp] theorem setCl_limited (s : State) (c : Cluster) : (setCl s c).limited = s.limited := rfl
@[simp] theorem setCl_firm (s : State) (c : Cluster) : (setCl s c).firm = s.firm := rfl
@[simp] theorem setCl_loader (s : State) (c : Cluster) : (setCl s c).loader = s.loader := rfl
@[simp] theorem setCl_events (s : State) (c : Cluster) : (setCl s c).events = s.events := rfl
@[simp] theorem setCl_turn (s : State) (c : Cluster) : (setCl s c).turn = s.turn := rfl
@[simp] theorem setCl_free (s : State) (c : Cluster) : (setCl s c).free = s.free := rfl
@[simp] theorem modCl_core (s : State) (n : Nat) (f : Cluster → Cluster) : (modCl s n f).core = s.core := rfl
@[simp] theorem modCl_peers (s : State) (n : Nat) (f : Cluster → Cluster) : (modCl s n f).peers = s.peers := rfl
@[simp] theorem modCl_mem (s : State) (n : Nat) (f : Cluster → Cluster) : (modCl s n f).mem = s.mem := rfl
@[simp] theorem modCl_parts (s : State) (n : Nat) (f : Cluster → Cluster) : (modCl s n f).parts = s.parts := rfl
@[simp] theorem modCl_procs (s : State) (n : Nat) (f : Cluster → Cluster) : (modCl s n f).procs = s.procs := rfl
@[simp] theorem modCl_keys (s : State) (n : Nat) (f : Cluster → Cluster) : (modCl s n f).keys = s.keys := rfl
@[simp] theorem modCl_queues (s : State) (n : Nat) (f : Cluster → Cluster) : (modCl s n f).queues = s.queues := rfl
@[simp] theorem modCl_kerns (s : State) (n : Nat) (f : Cluster → Cluster) : (modCl s n f).kerns = s.kerns := rfl
@[simp] theorem modCl_walkers (s : State) (n : Nat) (f : Cluster → Cluster) : (modCl s n f).walkers = s.walkers := rfl
@[simp] theorem modCl_stops (s : State) (n : Nat) (f : Cluster → Cluster) : (modCl s n f).stops = s.stops := rfl
@[simp] theorem modCl_net (s : State) (n : Nat) (f : Cluster → Cluster) : (modCl s n f).net = s.net := rfl
@[simp] theorem modCl_outbound (s : State) (n : Nat) (f : Cluster → Cluster) : (modCl s n f).outbound = s.outbound := rfl
@[simp] theorem modCl_decs (s : State) (n : Nat) (f : Cluster → Cluster) : (modCl s n f).decs = s.decs := rfl
@[simp] theorem modCl_held (s : State) (n : Nat) (f : Cluster → Cluster) : (modCl s n f).held = s.held := rfl
@[simp] theorem modCl_bars (s : State) (n : Nat) (f : Cluster → Cluster) : (modCl s n f).bars = s.bars := rfl
@[simp] theorem modCl_modules (s : State) (n : Nat) (f : Cluster → Cluster) : (modCl s n f).modules = s.modules := rfl
@[simp] theorem modCl_saved (s : State) (n : Nat) (f : Cluster → Cluster) : (modCl s n f).saved = s.saved := rfl
@[simp] theorem modCl_savedMsgs (s : State) (n : Nat) (f : Cluster → Cluster) : (modCl s n f).savedMsgs = s.savedMsgs := rfl
@[simp] theorem modCl_savedDct (s : State) (n : Nat) (f : Cluster → Cluster) : (modCl s n f).savedDct = s.savedDct := rfl
@[simp] theorem modCl_invals (s : State) (n : Nat) (f : Cluster → Cluster) : (modCl s n f).invals = s.invals := rfl
@[simp] theorem modCl_priEnabled (s : State) (n : Nat) (f : Cluster → Cluster) : (modCl s n f).priEnabled = s.priEnabled := rfl
@[simp] theorem modCl_pod (s : State) (n : Nat) (f : Cluster → Cluster) : (modCl s n f).pod = s.pod := rfl
@[simp] theorem modCl_remote (s : State) (n : Nat) (f : Cluster → Cluster) : (modCl s n f).remote = s.remote := rfl
@[simp] theorem modCl_publishing (s : State) (n : Nat) (f : Cluster → Cluster) : (modCl s n f).publishing = s.publishing := rfl
@[simp] theorem modCl_savedMem (s : State) (n : Nat) (f : Cluster → Cluster) : (modCl s n f).savedMem = s.savedMem := rfl
@[simp] theorem modCl_ports (s : State) (n : Nat) (f : Cluster → Cluster) : (modCl s n f).ports = s.ports := rfl
@[simp] theorem modCl_images (s : State) (n : Nat) (f : Cluster → Cluster) : (modCl s n f).images = s.images := rfl
@[simp] theorem modCl_misses (s : State) (n : Nat) (f : Cluster → Cluster) : (modCl s n f).misses = s.misses := rfl
@[simp] theorem modCl_prgAlloc (s : State) (n : Nat) (f : Cluster → Cluster) : (modCl s n f).prgAlloc = s.prgAlloc := rfl
@[simp] theorem modCl_kiln (s : State) (n : Nat) (f : Cluster → Cluster) : (modCl s n f).kiln = s.kiln := rfl
@[simp] theorem modCl_bar (s : State) (n : Nat) (f : Cluster → Cluster) : (modCl s n f).bar = s.bar := rfl
@[simp] theorem modCl_pkgFrac (s : State) (n : Nat) (f : Cluster → Cluster) : (modCl s n f).pkgFrac = s.pkgFrac := rfl
@[simp] theorem modCl_timer (s : State) (n : Nat) (f : Cluster → Cluster) : (modCl s n f).timer = s.timer := rfl
@[simp] theorem modCl_links (s : State) (n : Nat) (f : Cluster → Cluster) : (modCl s n f).links = s.links := rfl
@[simp] theorem modCl_pkgEnergy (s : State) (n : Nat) (f : Cluster → Cluster) : (modCl s n f).pkgEnergy = s.pkgEnergy := rfl
@[simp] theorem modCl_meterings (s : State) (n : Nat) (f : Cluster → Cluster) : (modCl s n f).meterings = s.meterings := rfl
@[simp] theorem modCl_limited (s : State) (n : Nat) (f : Cluster → Cluster) : (modCl s n f).limited = s.limited := rfl
@[simp] theorem modCl_firm (s : State) (n : Nat) (f : Cluster → Cluster) : (modCl s n f).firm = s.firm := rfl
@[simp] theorem modCl_loader (s : State) (n : Nat) (f : Cluster → Cluster) : (modCl s n f).loader = s.loader := rfl
@[simp] theorem modCl_events (s : State) (n : Nat) (f : Cluster → Cluster) : (modCl s n f).events = s.events := rfl
@[simp] theorem modCl_turn (s : State) (n : Nat) (f : Cluster → Cluster) : (modCl s n f).turn = s.turn := rfl
@[simp] theorem modCl_free (s : State) (n : Nat) (f : Cluster → Cluster) : (modCl s n f).free = s.free := rfl
@[simp] theorem mapCls_core (s : State) (f : Cluster → Cluster) : (mapCls s f).core = s.core := rfl
@[simp] theorem mapCls_peers (s : State) (f : Cluster → Cluster) : (mapCls s f).peers = s.peers := rfl
@[simp] theorem mapCls_mem (s : State) (f : Cluster → Cluster) : (mapCls s f).mem = s.mem := rfl
@[simp] theorem mapCls_parts (s : State) (f : Cluster → Cluster) : (mapCls s f).parts = s.parts := rfl
@[simp] theorem mapCls_procs (s : State) (f : Cluster → Cluster) : (mapCls s f).procs = s.procs := rfl
@[simp] theorem mapCls_keys (s : State) (f : Cluster → Cluster) : (mapCls s f).keys = s.keys := rfl
@[simp] theorem mapCls_queues (s : State) (f : Cluster → Cluster) : (mapCls s f).queues = s.queues := rfl
@[simp] theorem mapCls_kerns (s : State) (f : Cluster → Cluster) : (mapCls s f).kerns = s.kerns := rfl
@[simp] theorem mapCls_walkers (s : State) (f : Cluster → Cluster) : (mapCls s f).walkers = s.walkers := rfl
@[simp] theorem mapCls_stops (s : State) (f : Cluster → Cluster) : (mapCls s f).stops = s.stops := rfl
@[simp] theorem mapCls_net (s : State) (f : Cluster → Cluster) : (mapCls s f).net = s.net := rfl
@[simp] theorem mapCls_outbound (s : State) (f : Cluster → Cluster) : (mapCls s f).outbound = s.outbound := rfl
@[simp] theorem mapCls_decs (s : State) (f : Cluster → Cluster) : (mapCls s f).decs = s.decs := rfl
@[simp] theorem mapCls_held (s : State) (f : Cluster → Cluster) : (mapCls s f).held = s.held := rfl
@[simp] theorem mapCls_bars (s : State) (f : Cluster → Cluster) : (mapCls s f).bars = s.bars := rfl
@[simp] theorem mapCls_modules (s : State) (f : Cluster → Cluster) : (mapCls s f).modules = s.modules := rfl
@[simp] theorem mapCls_saved (s : State) (f : Cluster → Cluster) : (mapCls s f).saved = s.saved := rfl
@[simp] theorem mapCls_savedMsgs (s : State) (f : Cluster → Cluster) : (mapCls s f).savedMsgs = s.savedMsgs := rfl
@[simp] theorem mapCls_savedDct (s : State) (f : Cluster → Cluster) : (mapCls s f).savedDct = s.savedDct := rfl
@[simp] theorem mapCls_invals (s : State) (f : Cluster → Cluster) : (mapCls s f).invals = s.invals := rfl
@[simp] theorem mapCls_priEnabled (s : State) (f : Cluster → Cluster) : (mapCls s f).priEnabled = s.priEnabled := rfl
@[simp] theorem mapCls_pod (s : State) (f : Cluster → Cluster) : (mapCls s f).pod = s.pod := rfl
@[simp] theorem mapCls_remote (s : State) (f : Cluster → Cluster) : (mapCls s f).remote = s.remote := rfl
@[simp] theorem mapCls_publishing (s : State) (f : Cluster → Cluster) : (mapCls s f).publishing = s.publishing := rfl
@[simp] theorem mapCls_savedMem (s : State) (f : Cluster → Cluster) : (mapCls s f).savedMem = s.savedMem := rfl
@[simp] theorem mapCls_ports (s : State) (f : Cluster → Cluster) : (mapCls s f).ports = s.ports := rfl
@[simp] theorem mapCls_images (s : State) (f : Cluster → Cluster) : (mapCls s f).images = s.images := rfl
@[simp] theorem mapCls_misses (s : State) (f : Cluster → Cluster) : (mapCls s f).misses = s.misses := rfl
@[simp] theorem mapCls_prgAlloc (s : State) (f : Cluster → Cluster) : (mapCls s f).prgAlloc = s.prgAlloc := rfl
@[simp] theorem mapCls_kiln (s : State) (f : Cluster → Cluster) : (mapCls s f).kiln = s.kiln := rfl
@[simp] theorem mapCls_bar (s : State) (f : Cluster → Cluster) : (mapCls s f).bar = s.bar := rfl
@[simp] theorem mapCls_pkgFrac (s : State) (f : Cluster → Cluster) : (mapCls s f).pkgFrac = s.pkgFrac := rfl
@[simp] theorem mapCls_timer (s : State) (f : Cluster → Cluster) : (mapCls s f).timer = s.timer := rfl
@[simp] theorem mapCls_links (s : State) (f : Cluster → Cluster) : (mapCls s f).links = s.links := rfl
@[simp] theorem mapCls_pkgEnergy (s : State) (f : Cluster → Cluster) : (mapCls s f).pkgEnergy = s.pkgEnergy := rfl
@[simp] theorem mapCls_meterings (s : State) (f : Cluster → Cluster) : (mapCls s f).meterings = s.meterings := rfl
@[simp] theorem mapCls_limited (s : State) (f : Cluster → Cluster) : (mapCls s f).limited = s.limited := rfl
@[simp] theorem mapCls_firm (s : State) (f : Cluster → Cluster) : (mapCls s f).firm = s.firm := rfl
@[simp] theorem mapCls_loader (s : State) (f : Cluster → Cluster) : (mapCls s f).loader = s.loader := rfl
@[simp] theorem mapCls_events (s : State) (f : Cluster → Cluster) : (mapCls s f).events = s.events := rfl
@[simp] theorem mapCls_turn (s : State) (f : Cluster → Cluster) : (mapCls s f).turn = s.turn := rfl
@[simp] theorem mapCls_free (s : State) (f : Cluster → Cluster) : (mapCls s f).free = s.free := rfl
@[simp] theorem modPart_core (s : State) (n : Nat) (f : Part → Part) : (modPart s n f).core = s.core := rfl
@[simp] theorem modPart_peers (s : State) (n : Nat) (f : Part → Part) : (modPart s n f).peers = s.peers := rfl
@[simp] theorem modPart_clusters (s : State) (n : Nat) (f : Part → Part) : (modPart s n f).clusters = s.clusters := rfl
@[simp] theorem modPart_mem (s : State) (n : Nat) (f : Part → Part) : (modPart s n f).mem = s.mem := rfl
@[simp] theorem modPart_procs (s : State) (n : Nat) (f : Part → Part) : (modPart s n f).procs = s.procs := rfl
@[simp] theorem modPart_keys (s : State) (n : Nat) (f : Part → Part) : (modPart s n f).keys = s.keys := rfl
@[simp] theorem modPart_queues (s : State) (n : Nat) (f : Part → Part) : (modPart s n f).queues = s.queues := rfl
@[simp] theorem modPart_kerns (s : State) (n : Nat) (f : Part → Part) : (modPart s n f).kerns = s.kerns := rfl
@[simp] theorem modPart_walkers (s : State) (n : Nat) (f : Part → Part) : (modPart s n f).walkers = s.walkers := rfl
@[simp] theorem modPart_stops (s : State) (n : Nat) (f : Part → Part) : (modPart s n f).stops = s.stops := rfl
@[simp] theorem modPart_net (s : State) (n : Nat) (f : Part → Part) : (modPart s n f).net = s.net := rfl
@[simp] theorem modPart_outbound (s : State) (n : Nat) (f : Part → Part) : (modPart s n f).outbound = s.outbound := rfl
@[simp] theorem modPart_decs (s : State) (n : Nat) (f : Part → Part) : (modPart s n f).decs = s.decs := rfl
@[simp] theorem modPart_held (s : State) (n : Nat) (f : Part → Part) : (modPart s n f).held = s.held := rfl
@[simp] theorem modPart_bars (s : State) (n : Nat) (f : Part → Part) : (modPart s n f).bars = s.bars := rfl
@[simp] theorem modPart_modules (s : State) (n : Nat) (f : Part → Part) : (modPart s n f).modules = s.modules := rfl
@[simp] theorem modPart_saved (s : State) (n : Nat) (f : Part → Part) : (modPart s n f).saved = s.saved := rfl
@[simp] theorem modPart_savedMsgs (s : State) (n : Nat) (f : Part → Part) : (modPart s n f).savedMsgs = s.savedMsgs := rfl
@[simp] theorem modPart_savedDct (s : State) (n : Nat) (f : Part → Part) : (modPart s n f).savedDct = s.savedDct := rfl
@[simp] theorem modPart_invals (s : State) (n : Nat) (f : Part → Part) : (modPart s n f).invals = s.invals := rfl
@[simp] theorem modPart_priEnabled (s : State) (n : Nat) (f : Part → Part) : (modPart s n f).priEnabled = s.priEnabled := rfl
@[simp] theorem modPart_pod (s : State) (n : Nat) (f : Part → Part) : (modPart s n f).pod = s.pod := rfl
@[simp] theorem modPart_remote (s : State) (n : Nat) (f : Part → Part) : (modPart s n f).remote = s.remote := rfl
@[simp] theorem modPart_publishing (s : State) (n : Nat) (f : Part → Part) : (modPart s n f).publishing = s.publishing := rfl
@[simp] theorem modPart_savedMem (s : State) (n : Nat) (f : Part → Part) : (modPart s n f).savedMem = s.savedMem := rfl
@[simp] theorem modPart_ports (s : State) (n : Nat) (f : Part → Part) : (modPart s n f).ports = s.ports := rfl
@[simp] theorem modPart_images (s : State) (n : Nat) (f : Part → Part) : (modPart s n f).images = s.images := rfl
@[simp] theorem modPart_misses (s : State) (n : Nat) (f : Part → Part) : (modPart s n f).misses = s.misses := rfl
@[simp] theorem modPart_prgAlloc (s : State) (n : Nat) (f : Part → Part) : (modPart s n f).prgAlloc = s.prgAlloc := rfl
@[simp] theorem modPart_kiln (s : State) (n : Nat) (f : Part → Part) : (modPart s n f).kiln = s.kiln := rfl
@[simp] theorem modPart_bar (s : State) (n : Nat) (f : Part → Part) : (modPart s n f).bar = s.bar := rfl
@[simp] theorem modPart_pkgFrac (s : State) (n : Nat) (f : Part → Part) : (modPart s n f).pkgFrac = s.pkgFrac := rfl
@[simp] theorem modPart_timer (s : State) (n : Nat) (f : Part → Part) : (modPart s n f).timer = s.timer := rfl
@[simp] theorem modPart_links (s : State) (n : Nat) (f : Part → Part) : (modPart s n f).links = s.links := rfl
@[simp] theorem modPart_pkgEnergy (s : State) (n : Nat) (f : Part → Part) : (modPart s n f).pkgEnergy = s.pkgEnergy := rfl
@[simp] theorem modPart_meterings (s : State) (n : Nat) (f : Part → Part) : (modPart s n f).meterings = s.meterings := rfl
@[simp] theorem modPart_limited (s : State) (n : Nat) (f : Part → Part) : (modPart s n f).limited = s.limited := rfl
@[simp] theorem modPart_firm (s : State) (n : Nat) (f : Part → Part) : (modPart s n f).firm = s.firm := rfl
@[simp] theorem modPart_loader (s : State) (n : Nat) (f : Part → Part) : (modPart s n f).loader = s.loader := rfl
@[simp] theorem modPart_events (s : State) (n : Nat) (f : Part → Part) : (modPart s n f).events = s.events := rfl
@[simp] theorem modPart_turn (s : State) (n : Nat) (f : Part → Part) : (modPart s n f).turn = s.turn := rfl
@[simp] theorem modPart_free (s : State) (n : Nat) (f : Part → Part) : (modPart s n f).free = s.free := rfl
@[simp] theorem modProc_core (s : State) (n : Nat) (f : Proc → Proc) : (modProc s n f).core = s.core := rfl
@[simp] theorem modProc_peers (s : State) (n : Nat) (f : Proc → Proc) : (modProc s n f).peers = s.peers := rfl
@[simp] theorem modProc_clusters (s : State) (n : Nat) (f : Proc → Proc) : (modProc s n f).clusters = s.clusters := rfl
@[simp] theorem modProc_mem (s : State) (n : Nat) (f : Proc → Proc) : (modProc s n f).mem = s.mem := rfl
@[simp] theorem modProc_parts (s : State) (n : Nat) (f : Proc → Proc) : (modProc s n f).parts = s.parts := rfl
@[simp] theorem modProc_keys (s : State) (n : Nat) (f : Proc → Proc) : (modProc s n f).keys = s.keys := rfl
@[simp] theorem modProc_queues (s : State) (n : Nat) (f : Proc → Proc) : (modProc s n f).queues = s.queues := rfl
@[simp] theorem modProc_kerns (s : State) (n : Nat) (f : Proc → Proc) : (modProc s n f).kerns = s.kerns := rfl
@[simp] theorem modProc_walkers (s : State) (n : Nat) (f : Proc → Proc) : (modProc s n f).walkers = s.walkers := rfl
@[simp] theorem modProc_stops (s : State) (n : Nat) (f : Proc → Proc) : (modProc s n f).stops = s.stops := rfl
@[simp] theorem modProc_net (s : State) (n : Nat) (f : Proc → Proc) : (modProc s n f).net = s.net := rfl
@[simp] theorem modProc_outbound (s : State) (n : Nat) (f : Proc → Proc) : (modProc s n f).outbound = s.outbound := rfl
@[simp] theorem modProc_decs (s : State) (n : Nat) (f : Proc → Proc) : (modProc s n f).decs = s.decs := rfl
@[simp] theorem modProc_held (s : State) (n : Nat) (f : Proc → Proc) : (modProc s n f).held = s.held := rfl
@[simp] theorem modProc_bars (s : State) (n : Nat) (f : Proc → Proc) : (modProc s n f).bars = s.bars := rfl
@[simp] theorem modProc_modules (s : State) (n : Nat) (f : Proc → Proc) : (modProc s n f).modules = s.modules := rfl
@[simp] theorem modProc_saved (s : State) (n : Nat) (f : Proc → Proc) : (modProc s n f).saved = s.saved := rfl
@[simp] theorem modProc_savedMsgs (s : State) (n : Nat) (f : Proc → Proc) : (modProc s n f).savedMsgs = s.savedMsgs := rfl
@[simp] theorem modProc_savedDct (s : State) (n : Nat) (f : Proc → Proc) : (modProc s n f).savedDct = s.savedDct := rfl
@[simp] theorem modProc_invals (s : State) (n : Nat) (f : Proc → Proc) : (modProc s n f).invals = s.invals := rfl
@[simp] theorem modProc_priEnabled (s : State) (n : Nat) (f : Proc → Proc) : (modProc s n f).priEnabled = s.priEnabled := rfl
@[simp] theorem modProc_pod (s : State) (n : Nat) (f : Proc → Proc) : (modProc s n f).pod = s.pod := rfl
@[simp] theorem modProc_remote (s : State) (n : Nat) (f : Proc → Proc) : (modProc s n f).remote = s.remote := rfl
@[simp] theorem modProc_publishing (s : State) (n : Nat) (f : Proc → Proc) : (modProc s n f).publishing = s.publishing := rfl
@[simp] theorem modProc_savedMem (s : State) (n : Nat) (f : Proc → Proc) : (modProc s n f).savedMem = s.savedMem := rfl
@[simp] theorem modProc_ports (s : State) (n : Nat) (f : Proc → Proc) : (modProc s n f).ports = s.ports := rfl
@[simp] theorem modProc_images (s : State) (n : Nat) (f : Proc → Proc) : (modProc s n f).images = s.images := rfl
@[simp] theorem modProc_misses (s : State) (n : Nat) (f : Proc → Proc) : (modProc s n f).misses = s.misses := rfl
@[simp] theorem modProc_prgAlloc (s : State) (n : Nat) (f : Proc → Proc) : (modProc s n f).prgAlloc = s.prgAlloc := rfl
@[simp] theorem modProc_kiln (s : State) (n : Nat) (f : Proc → Proc) : (modProc s n f).kiln = s.kiln := rfl
@[simp] theorem modProc_bar (s : State) (n : Nat) (f : Proc → Proc) : (modProc s n f).bar = s.bar := rfl
@[simp] theorem modProc_pkgFrac (s : State) (n : Nat) (f : Proc → Proc) : (modProc s n f).pkgFrac = s.pkgFrac := rfl
@[simp] theorem modProc_timer (s : State) (n : Nat) (f : Proc → Proc) : (modProc s n f).timer = s.timer := rfl
@[simp] theorem modProc_links (s : State) (n : Nat) (f : Proc → Proc) : (modProc s n f).links = s.links := rfl
@[simp] theorem modProc_pkgEnergy (s : State) (n : Nat) (f : Proc → Proc) : (modProc s n f).pkgEnergy = s.pkgEnergy := rfl
@[simp] theorem modProc_meterings (s : State) (n : Nat) (f : Proc → Proc) : (modProc s n f).meterings = s.meterings := rfl
@[simp] theorem modProc_limited (s : State) (n : Nat) (f : Proc → Proc) : (modProc s n f).limited = s.limited := rfl
@[simp] theorem modProc_firm (s : State) (n : Nat) (f : Proc → Proc) : (modProc s n f).firm = s.firm := rfl
@[simp] theorem modProc_loader (s : State) (n : Nat) (f : Proc → Proc) : (modProc s n f).loader = s.loader := rfl
@[simp] theorem modProc_events (s : State) (n : Nat) (f : Proc → Proc) : (modProc s n f).events = s.events := rfl
@[simp] theorem modProc_turn (s : State) (n : Nat) (f : Proc → Proc) : (modProc s n f).turn = s.turn := rfl
@[simp] theorem modProc_free (s : State) (n : Nat) (f : Proc → Proc) : (modProc s n f).free = s.free := rfl
@[simp] theorem mapCores_clusters (s : State) (f : Core → Core) : (mapCores s f).clusters = s.clusters := rfl
@[simp] theorem mapCores_mem (s : State) (f : Core → Core) : (mapCores s f).mem = s.mem := rfl
@[simp] theorem mapCores_parts (s : State) (f : Core → Core) : (mapCores s f).parts = s.parts := rfl
@[simp] theorem mapCores_procs (s : State) (f : Core → Core) : (mapCores s f).procs = s.procs := rfl
@[simp] theorem mapCores_keys (s : State) (f : Core → Core) : (mapCores s f).keys = s.keys := rfl
@[simp] theorem mapCores_queues (s : State) (f : Core → Core) : (mapCores s f).queues = s.queues := rfl
@[simp] theorem mapCores_kerns (s : State) (f : Core → Core) : (mapCores s f).kerns = s.kerns := rfl
@[simp] theorem mapCores_walkers (s : State) (f : Core → Core) : (mapCores s f).walkers = s.walkers := rfl
@[simp] theorem mapCores_stops (s : State) (f : Core → Core) : (mapCores s f).stops = s.stops := rfl
@[simp] theorem mapCores_net (s : State) (f : Core → Core) : (mapCores s f).net = s.net := rfl
@[simp] theorem mapCores_outbound (s : State) (f : Core → Core) : (mapCores s f).outbound = s.outbound := rfl
@[simp] theorem mapCores_decs (s : State) (f : Core → Core) : (mapCores s f).decs = s.decs := rfl
@[simp] theorem mapCores_held (s : State) (f : Core → Core) : (mapCores s f).held = s.held := rfl
@[simp] theorem mapCores_bars (s : State) (f : Core → Core) : (mapCores s f).bars = s.bars := rfl
@[simp] theorem mapCores_modules (s : State) (f : Core → Core) : (mapCores s f).modules = s.modules := rfl
@[simp] theorem mapCores_saved (s : State) (f : Core → Core) : (mapCores s f).saved = s.saved := rfl
@[simp] theorem mapCores_savedMsgs (s : State) (f : Core → Core) : (mapCores s f).savedMsgs = s.savedMsgs := rfl
@[simp] theorem mapCores_savedDct (s : State) (f : Core → Core) : (mapCores s f).savedDct = s.savedDct := rfl
@[simp] theorem mapCores_invals (s : State) (f : Core → Core) : (mapCores s f).invals = s.invals := rfl
@[simp] theorem mapCores_priEnabled (s : State) (f : Core → Core) : (mapCores s f).priEnabled = s.priEnabled := rfl
@[simp] theorem mapCores_pod (s : State) (f : Core → Core) : (mapCores s f).pod = s.pod := rfl
@[simp] theorem mapCores_remote (s : State) (f : Core → Core) : (mapCores s f).remote = s.remote := rfl
@[simp] theorem mapCores_publishing (s : State) (f : Core → Core) : (mapCores s f).publishing = s.publishing := rfl
@[simp] theorem mapCores_savedMem (s : State) (f : Core → Core) : (mapCores s f).savedMem = s.savedMem := rfl
@[simp] theorem mapCores_ports (s : State) (f : Core → Core) : (mapCores s f).ports = s.ports := rfl
@[simp] theorem mapCores_images (s : State) (f : Core → Core) : (mapCores s f).images = s.images := rfl
@[simp] theorem mapCores_misses (s : State) (f : Core → Core) : (mapCores s f).misses = s.misses := rfl
@[simp] theorem mapCores_prgAlloc (s : State) (f : Core → Core) : (mapCores s f).prgAlloc = s.prgAlloc := rfl
@[simp] theorem mapCores_kiln (s : State) (f : Core → Core) : (mapCores s f).kiln = s.kiln := rfl
@[simp] theorem mapCores_bar (s : State) (f : Core → Core) : (mapCores s f).bar = s.bar := rfl
@[simp] theorem mapCores_pkgFrac (s : State) (f : Core → Core) : (mapCores s f).pkgFrac = s.pkgFrac := rfl
@[simp] theorem mapCores_timer (s : State) (f : Core → Core) : (mapCores s f).timer = s.timer := rfl
@[simp] theorem mapCores_links (s : State) (f : Core → Core) : (mapCores s f).links = s.links := rfl
@[simp] theorem mapCores_pkgEnergy (s : State) (f : Core → Core) : (mapCores s f).pkgEnergy = s.pkgEnergy := rfl
@[simp] theorem mapCores_meterings (s : State) (f : Core → Core) : (mapCores s f).meterings = s.meterings := rfl
@[simp] theorem mapCores_limited (s : State) (f : Core → Core) : (mapCores s f).limited = s.limited := rfl
@[simp] theorem mapCores_firm (s : State) (f : Core → Core) : (mapCores s f).firm = s.firm := rfl
@[simp] theorem mapCores_loader (s : State) (f : Core → Core) : (mapCores s f).loader = s.loader := rfl
@[simp] theorem mapCores_events (s : State) (f : Core → Core) : (mapCores s f).events = s.events := rfl
@[simp] theorem mapCores_turn (s : State) (f : Core → Core) : (mapCores s f).turn = s.turn := rfl
@[simp] theorem mapCores_free (s : State) (f : Core → Core) : (mapCores s f).free = s.free := rfl

/-! ### Rows of a core -/

@[simp] theorem setRow_id (c : Core) (n : Nat) (r : Row) : (c.setRow n r).id = c.id := rfl
@[simp] theorem setRow_slot (c : Core) (n : Nat) (r : Row) : (c.setRow n r).slot = c.slot := rfl
@[simp] theorem setRow_alt (c : Core) (n : Nat) (r : Row) : (c.setRow n r).alt = c.alt := rfl
@[simp] theorem setRow_hvNow (c : Core) (n : Nat) (r : Row) : (c.setRow n r).hvNow = c.hvNow := rfl
@[simp] theorem setRow_late (c : Core) (n : Nat) (r : Row) : (c.setRow n r).late = c.late := rfl
@[simp] theorem setRow_nextId (c : Core) (n : Nat) (r : Row) : (c.setRow n r).nextId = c.nextId := rfl
@[simp] theorem setRow_acc (c : Core) (n : Nat) (r : Row) : (c.setRow n r).acc = c.acc := rfl
@[simp] theorem setRow_fresh (c : Core) (n : Nat) (r : Row) : (c.setRow n r).fresh = c.fresh := rfl
@[simp] theorem setRow_poison (c : Core) (n : Nat) (r : Row) : (c.setRow n r).poison = c.poison := rfl
@[simp] theorem setRow_scaleA (c : Core) (n : Nat) (r : Row) : (c.setRow n r).scaleA = c.scaleA := rfl
@[simp] theorem setRow_scaleB (c : Core) (n : Nat) (r : Row) : (c.setRow n r).scaleB = c.scaleB := rfl
@[simp] theorem setRow_codes (c : Core) (n : Nat) (r : Row) : (c.setRow n r).codes = c.codes := rfl
@[simp] theorem setRow_kc (c : Core) (n : Nat) (r : Row) : (c.setRow n r).kc = c.kc := rfl
@[simp] theorem setRow_mstat (c : Core) (n : Nat) (r : Row) : (c.setRow n r).mstat = c.mstat := rfl
@[simp] theorem setRow_scla (c : Core) (n : Nat) (r : Row) : (c.setRow n r).scla = c.scla := rfl
@[simp] theorem setRow_sclb (c : Core) (n : Nat) (r : Row) : (c.setRow n r).sclb = c.sclb := rfl
@[simp] theorem setRow_cycle (c : Core) (n : Nat) (r : Row) : (c.setRow n r).cycle = c.cycle := rfl
@[simp] theorem setRow_lend (c : Core) (n : Nat) (r : Row) : (c.setRow n r).lend = c.lend := rfl
@[simp] theorem setRow_lendKern (c : Core) (n : Nat) (r : Row) : (c.setRow n r).lendKern = c.lendKern := rfl
@[simp] theorem setRow_grp (c : Core) (n : Nat) (r : Row) : (c.setRow n r).grp = c.grp := rfl
@[simp] theorem setRow_tagsel (c : Core) (n : Nat) (r : Row) : (c.setRow n r).tagsel = c.tagsel := rfl
@[simp] theorem setRow_tags (c : Core) (n : Nat) (r : Row) : (c.setRow n r).tags = c.tags := rfl
@[simp] theorem setRow_bounds (c : Core) (n : Nat) (r : Row) : (c.setRow n r).bounds = c.bounds := rfl
@[simp] theorem setRow_ni (c : Core) (n : Nat) (r : Row) : (c.setRow n r).ni = c.ni := rfl
@[simp] theorem setRow_chans (c : Core) (n : Nat) (r : Row) : (c.setRow n r).chans = c.chans := rfl
@[simp] theorem setRow_strms (c : Core) (n : Nat) (r : Row) : (c.setRow n r).strms = c.strms := rfl
@[simp] theorem setRow_shadow (c : Core) (n : Nat) (r : Row) : (c.setRow n r).shadow = c.shadow := rfl
@[simp] theorem setRow_parked (c : Core) (n : Nat) (r : Row) : (c.setRow n r).parked = c.parked := rfl
@[simp] theorem setRow_revoking (c : Core) (n : Nat) (r : Row) : (c.setRow n r).revoking = c.revoking := rfl
@[simp] theorem setRow_ownerDone (c : Core) (n : Nat) (r : Row) : (c.setRow n r).ownerDone = c.ownerDone := rfl
@[simp] theorem setRow_tlb (c : Core) (n : Nat) (r : Row) : (c.setRow n r).tlb = c.tlb := rfl
@[simp] theorem setRow_atc (c : Core) (n : Nat) (r : Row) : (c.setRow n r).atc = c.atc := rfl
@[simp] theorem setRow_ext (c : Core) (n : Nat) (r : Row) : (c.setRow n r).ext = c.ext := rfl
@[simp] theorem setRow_inRefresh (c : Core) (n : Nat) (r : Row) : (c.setRow n r).inRefresh = c.inRefresh := rfl
@[simp] theorem setRow_barArr (c : Core) (n : Nat) (r : Row) : (c.setRow n r).barArr = c.barArr := rfl
@[simp] theorem setRow_ckpt (c : Core) (n : Nat) (r : Row) : (c.setRow n r).ckpt = c.ckpt := rfl
@[simp] theorem setRow_activity (c : Core) (n : Nat) (r : Row) : (c.setRow n r).activity = c.activity := rfl
@[simp] theorem setRow_errCount (c : Core) (n : Nat) (r : Row) : (c.setRow n r).errCount = c.errCount := rfl
@[simp] theorem setRow_corrected (c : Core) (n : Nat) (r : Row) : (c.setRow n r).corrected = c.corrected := rfl
@[simp] theorem setRow_broken (c : Core) (n : Nat) (r : Row) : (c.setRow n r).broken = c.broken := rfl
@[simp] theorem setRow_repair (c : Core) (n : Nat) (r : Row) : (c.setRow n r).repair = c.repair := rfl

@[simp] theorem row_setRow_self (c : Core) (n : Nat) (r : Row) : (c.setRow n r).row n = r := look_put_self _ _ _ _
theorem row_setRow_other (c : Core) (n m : Nat) (r : Row) (h : n ≠ m) : (c.setRow n r).row m = c.row m := look_put_other _ _ _ _ _ h
@[simp] theorem row_with_slot (c : Core) (x : Slot) (n : Nat) : Core.row { c with slot := x } n = c.row n := rfl

/-! ### Finding a core again -/

theorem putPeer_find (l : List Core) (c : Core) : (putPeer l c).find? (fun d => d.id == c.id) = some c := by
  induction l with
  | nil => simp [putPeer]
  | cons d r ih =>
    simp only [putPeer]
    split
    · simp
    · next h => simp [h, ih]

/-- The core that was stored is the one found under its address word. -/
@[simp] theorem getCore_setCore (s : State) (c : Core) : getCore (setCore s c) c.id = c := by
  unfold setCore
  split
  · simp [getCore]
  · next h => simp [getCore, h, putPeer_find]

theorem putCluster_find (l : List Cluster) (c : Cluster) : (putCluster l c).find? (fun d => d.id == c.id) = some c := by
  induction l with
  | nil => simp [putCluster]
  | cons d r ih =>
    simp only [putCluster]
    split
    · simp
    · next h => simp [h, ih]

/-- The cluster that was stored is the one found under its number. -/
@[simp] theorem getCl_setCl (s : State) (c : Cluster) : getCl (setCl s c) c.id = c := by simp [getCl, setCl, putCluster_find]

/-! ### Cores and clusters, read after write -/

/-- The core of an address word has that word. -/
@[simp] theorem getCore_id (s : State) (w : Word) : (getCore s w).id = w := by
  unfold getCore
  split
  · assumption
  · split
    · rename_i h; simpa using List.find?_some h
    · rfl

theorem find_putPeer (l : List Core) (c : Core) (w : Word) :
    (putPeer l c).find? (fun d => d.id == w) = if c.id = w then some c else l.find? (fun d => d.id == w) := by
  induction l with
  | nil => by_cases h : c.id = w <;> simp [putPeer, h]
  | cons d r ih =>
    unfold putPeer
    by_cases hd : d.id = c.id
    · by_cases h : c.id = w <;> simp [hd, h]
    · by_cases h : c.id = w
      · have : ¬ d.id = w := fun e => hd (e.trans h.symm)
        simp [this, ih, h]
      · simp [hd, List.find?_cons, ih, h]

/-- A core that has been stored is read back; every other core is as before. -/
theorem getCore_setCore_at (s : State) (c : Core) (w : Word) : getCore (setCore s c) w = if c.id = w then c else getCore s w := by
  by_cases hs : s.core.id = c.id
  · rw [setCore, if_pos hs]
    simp only [getCore, hs]
    by_cases h : c.id = w
    · rw [if_pos h, if_pos h]
    · rw [if_neg h, if_neg h, if_neg h]
      rfl
  · rw [setCore, if_neg hs]
    simp only [getCore, find_putPeer]
    by_cases h : s.core.id = w
    · have hc : ¬ c.id = w := fun e => hs (h.trans e.symm)
      rw [if_pos h, if_neg hc, if_pos h]
    · by_cases hc : c.id = w
      · rw [if_neg h, if_pos hc, if_pos hc]
      · rw [if_neg h, if_neg hc, if_neg hc, if_neg h]
        rfl
theorem getCore_modCore (s : State) (w v : Word) (f : Core → Core) (h : (f (getCore s w)).id = w) :
    getCore (modCore s w f) v = if w = v then f (getCore s w) else getCore s v := by rw [modCore, getCore_setCore_at, h]

/-- The cluster of a number has that number. -/
@[simp] theorem getCl_id (s : State) (n : Nat) : (getCl s n).id = n := by
  unfold getCl
  split
  · rename_i h; simpa using List.find?_some h
  · rfl

theorem find_putCluster (l : List Cluster) (c : Cluster) (n : Nat) :
    (putCluster l c).find? (fun d => d.id == n) = if c.id = n then some c else l.find? (fun d => d.id == n) := by
  induction l with
  | nil => by_cases h : c.id = n <;> simp [putCluster, h]
  | cons d r ih =>
    unfold putCluster
    by_cases hd : d.id = c.id
    · by_cases h : c.id = n <;> simp [hd, h]
    · by_cases h : c.id = n
      · have : ¬ d.id = n := fun e => hd (e.trans h.symm)
        simp [this, ih, h]
      · simp [hd, List.find?_cons, ih, h]

/-- A cluster that has been stored is read back; every other cluster is as before. -/
theorem getCl_setCl_at (s : State) (c : Cluster) (n : Nat) : getCl (setCl s c) n = if c.id = n then c else getCl s n := by
  simp only [getCl, setCl, find_putCluster]
  by_cases h : c.id = n <;> simp [h]
theorem getCl_modCl (s : State) (n m : Nat) (f : Cluster → Cluster) (h : (f (getCl s n)).id = n) :
    getCl (modCl s n f) m = if n = m then f (getCl s n) else getCl s m := by rw [modCl, getCl_setCl_at, h]

/-- Cores and clusters are stored apart. -/
@[simp] theorem getCl_setCore (s : State) (c : Core) (n : Nat) : getCl (setCore s c) n = getCl s n := by unfold getCl; rw [setCore_clusters]
@[simp] theorem getCl_modCore (s : State) (w : Word) (f : Core → Core) (n : Nat) : getCl (modCore s w f) n = getCl s n := getCl_setCore _ _ _
/-- Storing a cluster leaves every core as it was: one that is listed, and one that has only its cycles to show, if the
cluster's clock is no further behind (R357). -/
theorem getCore_setCl (s : State) (c : Cluster) (w : Word) (h : c.lag = (getCl s c.id).lag) : getCore (setCl s c) w = getCore s w := by
  unfold getCore idleCore
  rw [getCl_setCl_at, setCl_core, setCl_peers, setCl_timer]
  split
  · rfl
  · split
    · rfl
    · by_cases e : c.id = clIdx w
      · rw [if_pos e, ← e, h]
      · rw [if_neg e]

end Sys2Proof.Machine
end

