-- ==== Sys2Proof/Laws/Ops.lean ====
section
/-! SUPPORT. What the shared operations of the two streams can do, each said once. -/

namespace Sys2Proof.Machine

/-! ### Arithmetic words -/

/-- An arithmetic word that can run and whose effect is g: it completes. -/
theorem arith_go {i : Instr} {f : BEnt → Row → List Row → State → ARes} {s : State} {e : BEnt} {a : AOps} {s1 : State} {v : Row} {n : Nat}
    (h : ReadyA i s e a) (g : f e (oldD s e a) (readAll (readA s.core e 0) a.srcs []) s = .go s1 v n) :
    arith i f s = .next (commitA s1 a v n) := by
  obtain ⟨h1, h2, h3, h4, h5⟩ := h
  unfold arith
  cases hb : s.core.slot.backlog with
  | nil => simp [hb] at h1
  | cons e' r =>
    obtain rfl : e' = e := by simpa [hb] using h1
    unfold oldD at g
    dsimp only
    rw [hb, h2]
    simp only [h3, h4, h5, g, Bool.false_eq_true, if_false]

/-- An arithmetic word that can run and whose effect is a trap: it traps in its bundle. -/
theorem arith_trap {i : Instr} {f : BEnt → Row → List Row → State → ARes} {s : State} {e : BEnt} {a : AOps} {cause info faddr : Nat}
    (h : ReadyA i s e a) (g : f e (oldD s e a) (readAll (readA s.core e 0) a.srcs []) s = .trap cause info faddr) :
    arith i f s = trapA s (word1Of i) cause info faddr := by
  obtain ⟨h1, h2, h3, h4, h5⟩ := h
  unfold arith
  cases hb : s.core.slot.backlog with
  | nil => simp [hb] at h1
  | cons e' r =>
    obtain rfl : e' = e := by simpa [hb] using h1
    unfold oldD at g
    dsimp only
    rw [hb, h2]
    simp only [h3, h4, h5, g, Bool.false_eq_true, if_false]

/-- All that an arithmetic word can do: it stalls, it traps, or it has its effect and completes. -/
theorem arith_cases {i : Instr} {f : BEnt → Row → List Row → State → ARes} {s t : State} (h : arith i f s = .next t) :
    (∃ n, stallA s n = .next t) ∨ (∃ c info faddr, trapA s (word1Of i) c info faddr = .next t) ∨
    (∃ e r a s1 v n, s.core.slot.backlog = e :: r ∧ aOps i = some a ∧
      f e (readD s.core e a) (readAll (readA s.core e 0) a.srcs []) s = .go s1 v n ∧ t = commitA s1 a v n) := by
  unfold arith at h
  dsimp only at h
  split at h
  · next e r a hb ha =>
    split at h
    · exact .inr (.inl ⟨_, _, _, h⟩)
    · split at h
      · split at h
        · exact .inr (.inl ⟨_, _, _, h⟩)
        · split at h
          · exact .inl ⟨_, h⟩
          · exact .inr (.inl ⟨_, _, _, h⟩)
          · next s1 v n hg =>
            injection h with h
            exact .inr (.inr ⟨e, r, a, s1, v, n, hb, ha, hg, h.symm⟩)
      · exact .inl ⟨_, h⟩
  · exact .inl ⟨_, h⟩

/-- An arithmetic word that must wait stalls with the code of its wait. -/
theorem arith_wait {i : Instr} {f : BEnt → Row → List Row → State → ARes} {s : State} {e : BEnt} {a : AOps} {n : Nat}
    (h : s.core.slot.backlog.head? = some e) (ha : aOps i = some a)
    (h2 : farD s.core.slot a = false) (h3 : aWait s.core i a = n + 1) : arith i f s = stallA s (n + 1) := by
  unfold arith
  cases hb : s.core.slot.backlog with
  | nil => simp [hb] at h
  | cons e' r =>
    dsimp only
    rw [hb, ha]
    simp only [h2, h3, Bool.false_eq_true, if_false]

/-- An arithmetic word that waits for nothing, with a window operand beyond WL, traps WIN. -/
theorem arith_win {i : Instr} {f : BEnt → Row → List Row → State → ARes} {s : State} {e : BEnt} {a : AOps}
    (h : s.core.slot.backlog.head? = some e) (ha : aOps i = some a) (h2 : farD s.core.slot a = false) (h3 : aWait s.core i a = 0)
    (h1 : (a.srcs ++ a.dst.toList).any (beyond s.core.slot) = true) : arith i f s = trapA s (word1Of i) cWIN 0 0 := by
  unfold arith
  cases hb : s.core.slot.backlog with
  | nil => simp [hb] at h
  | cons e' r =>
    dsimp only
    rw [hb, ha]
    simp only [h1, h2, h3, Bool.false_eq_true, if_false, if_true]

/-- Where an arithmetic word can run and its effect is a wait, it stalls with that code. -/
theorem arith_stall {i : Instr} {f : BEnt → Row → List Row → State → ARes} {s : State} {e : BEnt} {a : AOps} {n : Nat}
    (h : ReadyA i s e a) (g : f e (oldD s e a) (readAll (readA s.core e 0) a.srcs []) s = .wait n) : arith i f s = stallA s n := by
  obtain ⟨h1, h2, h3, h4, h5⟩ := h
  unfold arith
  cases hb : s.core.slot.backlog with
  | nil => simp [hb] at h1
  | cons e' r =>
    obtain rfl : e' = e := by simpa [hb] using h1
    unfold oldD at g
    dsimp only
    rw [hb, h2]
    simp only [h3, h4, h5, g, Bool.false_eq_true, if_false]

/-! ### Control words -/

theorem ready_meets {p : CSpec} {s : State} (h : ReadyC p s) : meetsAt s.core.slot p = none := by
  simp [meetsAt, h.bar, h.inWin]

/-- What a control word meets at its trap point: its bar, or else WIN of an operand beyond WL (R18, R224, R261). -/
theorem meets_cases {x : Slot} {p : CSpec} {t : Trap} (h : meetsAt x p = some t) :
    p.bar = some t ∨ (p.bar = none ∧ (p.srcs ++ p.dst.toList).any (beyond x) = true ∧ t = mkTrap cWIN 0 0) := by
  unfold meetsAt at h
  split at h
  · next u hu => exact .inl (hu.trans h)
  · next hu =>
    split at h
    · next hb => exact .inr ⟨hu, hb, (Option.some.inj h).symm⟩
    · cases h

/-- A control word that must wait stalls with the code of its wait. -/
theorem control_stall {i : Instr} {p : CSpec} {f : List Row → State → CRes} {s : State} (h : cWait s.core p ≠ 0) :
    control i p f s = stallC s (cWait s.core p) := by
  unfold control
  split
  · next e => exact absurd e h
  · rfl

/-- A control word that waits for nothing takes the trap that it meets, and has no other effect. -/
theorem control_meets {i : Instr} {p : CSpec} {f : List Row → State → CRes} {s : State} {t : Trap} (h : cWait s.core p = 0)
    (m : meetsAt s.core.slot p = some t) : control i p f s = .next (trapped i s t) := by
  unfold control trapped
  simp only [h, m]

theorem control_go {i : Instr} {p : CSpec} {f : List Row → State → CRes} {s s1 : State} {v : Row} {target : Option Word}
    (h : ReadyC p s) (g : f (readAll (readC s.core) p.srcs []) s = .go s1 v target) :
    control i p f s = .next (issued p s s1 v target) := by
  unfold control issued
  simp [ready_meets h, h.free, g]

theorem control_out {i : Instr} {p : CSpec} {f : List Row → State → CRes} {s s1 : State} {v : Row}
    (h : ReadyC p s) (g : f (readAll (readC s.core) p.srcs []) s = .out s1 v) :
    control i p f s = .next (issuedOut p s s1 v) := by
  unfold control issuedOut
  simp [ready_meets h, h.free, g]

theorem control_trap {i : Instr} {p : CSpec} {f : List Row → State → CRes} {s s1 : State} {t : Trap}
    (h : ReadyC p s) (g : f (readAll (readC s.core) p.srcs []) s = .trap s1 t) :
    control i p f s = .next (trapped i s1 t) := by
  unfold control trapped
  simp [ready_meets h, h.free, g]

theorem control_wait {i : Instr} {p : CSpec} {f : List Row → State → CRes} {s s1 : State} {n : Nat}
    (h : ReadyC p s) (g : f (readAll (readC s.core) p.srcs []) s = .wait n s1) :
    control i p f s = stallC s1 n := by
  unfold control
  simp [ready_meets h, h.free, g]

/-- All that a control word can do: it traps at its trap point, stalls, traps, or has its effect and issues. -/
theorem control_cases {i : Instr} {p : CSpec} {f : List Row → State → CRes} {s t : State} (h : control i p f s = .next t) :
    (∃ u, meetsAt s.core.slot p = some u ∧ t = trapped i s u) ∨ (∃ n, stallC s n = .next t) ∨
    (∃ n s1, f (readAll (readC s.core) p.srcs []) s = .wait n s1 ∧ stallC s1 n = .next t) ∨
    (∃ s1 u, f (readAll (readC s.core) p.srcs []) s = .trap s1 u ∧ t = trapped i s1 u) ∨
    (∃ s1 v target, f (readAll (readC s.core) p.srcs []) s = .go s1 v target ∧ t = issued p s s1 v target) ∨
    (∃ s1 v, f (readAll (readC s.core) p.srcs []) s = .out s1 v ∧ t = issuedOut p s s1 v) := by
  unfold control at h
  split at h
  · split at h
    · next u hu => injection h with h; exact .inl ⟨u, hu, h.symm⟩
    · split at h
      · next n s1 hg => exact .inr (.inr (.inl ⟨n, s1, hg, h⟩))
      · next s1 u hg => injection h with h; exact .inr (.inr (.inr (.inl ⟨s1, u, hg, h.symm⟩)))
      · next s1 v tg hg => injection h with h; exact .inr (.inr (.inr (.inr (.inl ⟨s1, v, tg, hg, h.symm⟩))))
      · next s1 v hg => injection h with h; exact .inr (.inr (.inr (.inr (.inr ⟨s1, v, hg, h.symm⟩))))
  · exact .inr (.inl ⟨_, h⟩)

end Sys2Proof.Machine
end

