-- ==== Sys2Proof/Laws/Rows.lean ====
section
/-! SUPPORT. Laws of rows: lanes, elements, and the rows that merging and packing give. -/

namespace Sys2Proof.Machine

theorem getLsbD_lane (r : Row) (j i : Nat) : (lane r j).getLsbD i = (decide (i < 32) && r.getLsbD (32 * j + i)) := by
  simp [-BitVec.getLsbD_eq_getElem, lane, BitVec.getLsbD_extractLsb']

theorem mergeLanes_bit (n : Nat) (a b : Row) (k : Nat) (h : k < 512) :
    (mergeLanes n a b).getLsbD k = if k < 32 * n then a.getLsbD k else b.getLsbD k := by
  have hm : (BitVec.ofNat 512 (2 ^ (32 * n) - 1)).getLsbD k = decide (k < 32 * n) := by
    rw [BitVec.getLsbD_ofNat, Nat.testBit_two_pow_sub_one]; simp [-BitVec.getLsbD_eq_getElem, h]
  unfold mergeLanes
  dsimp only
  rw [BitVec.getLsbD_or, BitVec.getLsbD_and, BitVec.getLsbD_and, BitVec.getLsbD_not, hm]
  by_cases hk : k < 32 * n <;> simp [-BitVec.getLsbD_eq_getElem, hk, h]

/-- Merging takes the first n lanes of a and the others of b. -/
theorem lane_mergeLanes (n : Nat) (a b : Row) (j : Nat) (h : j < 16) :
    lane (mergeLanes n a b) j = if j < n then lane a j else lane b j := by
  apply BitVec.eq_of_getLsbD_eq
  intro i hi
  rw [getLsbD_lane, mergeLanes_bit _ _ _ _ (by omega)]
  by_cases hj : j < n
  · simp [-BitVec.getLsbD_eq_getElem, hj, getLsbD_lane, hi, show 32 * j + i < 32 * n by omega]
  · simp [-BitVec.getLsbD_eq_getElem, hj, getLsbD_lane, hi, show ¬ 32 * j + i < 32 * n by omega]

theorem merged_mergeLanes (n : Nat) (v old : Row) : Merged n v old (mergeLanes n v old) := fun j h => lane_mergeLanes n v old j h

/-- Lane 0 of a row that holds one word, and its other lanes. -/
@[simp] theorem lane_laneRow_zero (x : Word) : lane (laneRow x) 0 = x := by
  apply BitVec.eq_of_getLsbD_eq
  intro i hi
  simp [-BitVec.getLsbD_eq_getElem, getLsbD_lane, laneRow, hi, show i < 512 by omega]

theorem lane_laneRow (x : Word) (j : Nat) : lane (laneRow x) j = if j = 0 then x else 0 := by
  split
  · next h => subst h; simp
  · next h =>
    apply BitVec.eq_of_getLsbD_eq
    intro i hi
    simp only [getLsbD_lane, laneRow, hi, decide_true, Bool.true_and]
    have h1 : ¬ 32 * j + i < 32 := by omega
    simp [-BitVec.getLsbD_eq_getElem, BitVec.getLsbD_of_ge, show 32 ≤ 32 * j + i by omega]

theorem setLane_bit (r : Row) (i : Nat) (x : Word) (k : Nat) (h : k < 512) :
    (setLane r i x).getLsbD k = if 32 * i ≤ k ∧ k < 32 * i + 32 then x.getLsbD (k - 32 * i) else r.getLsbD k := by
  unfold setLane
  rw [BitVec.getLsbD_or, BitVec.getLsbD_and, BitVec.getLsbD_not]
  simp only [BitVec.getLsbD_shiftLeft, BitVec.getLsbD_setWidth, BitVec.getLsbD_allOnes, h, decide_true, Bool.true_and]
  by_cases h1 : k < 32 * i
  · simp [-BitVec.getLsbD_eq_getElem, h1, show ¬ 32 * i ≤ k by omega]
  · have h3 : k - 32 * i < 512 := by omega
    by_cases h2 : k < 32 * i + 32
    · simp [-BitVec.getLsbD_eq_getElem, h1, h2, h3, show k - 32 * i < 32 by omega, show 32 * i ≤ k by omega]
    · simp [-BitVec.getLsbD_eq_getElem, BitVec.getLsbD_of_ge, h1, h2, h3, show ¬ k - 32 * i < 32 by omega, show 32 ≤ k - 32 * i by omega]

/-- Replacing a lane replaces that lane only. -/
theorem lane_setLane (r : Row) (i j : Nat) (x : Word) (h : j < 16) : lane (setLane r i x) j = if i = j then x else lane r j := by
  apply BitVec.eq_of_getLsbD_eq
  intro k hk
  rw [getLsbD_lane, setLane_bit _ _ _ _ (by omega)]
  by_cases hij : i = j
  · subst hij; simp [-BitVec.getLsbD_eq_getElem, hk]
  · have : ¬ (32 * i ≤ 32 * j + k ∧ 32 * j + k < 32 * i + 32) := by omega
    simp [-BitVec.getLsbD_eq_getElem, this, hij, getLsbD_lane, hk]

/-! ### Elements -/

theorem packN_lt (w : Nat) (f : Nat → Nat) (n : Nat) : packN w f n < 2 ^ (w * n) := by
  induction n with
  | zero => simp [packN]
  | succ n ih =>
    have h1 : f n % 2 ^ w < 2 ^ w := Nat.mod_lt _ (by positivity)
    have h2 : 2 ^ (w * (n + 1)) = 2 ^ (w * n) * 2 ^ w := by rw [← Nat.pow_add]; ring_nf
    rw [packN, Nat.shiftLeft_eq, h2]
    nlinarith [Nat.mul_le_mul_left (2 ^ (w * n)) h1]

theorem packN_elem (w : Nat) (f : Nat → Nat) (n e : Nat) (h : e < n) : (packN w f n >>> (w * e)) % 2 ^ w = f e % 2 ^ w := by
  induction n with
  | zero => omega
  | succ n ih =>
    rw [packN, Nat.shiftLeft_eq, Nat.shiftRight_eq_div_pow]
    by_cases he : e = n
    · subst he
      rw [Nat.add_mul_div_right _ _ (by positivity), Nat.div_eq_of_lt (packN_lt w f e), Nat.zero_add, Nat.mod_mod]
    · have hlt : e < n := by omega
      obtain ⟨d, rfl⟩ : ∃ d, n = e + 1 + d := ⟨n - e - 1, by omega⟩
      have h2 : (f (e + 1 + d) % 2 ^ w) * 2 ^ (w * (e + 1 + d)) = ((f (e + 1 + d) % 2 ^ w) * 2 ^ (w * d) * 2 ^ w) * 2 ^ (w * e) := by
        rw [show w * (e + 1 + d) = w * d + w + w * e by ring, Nat.pow_add, Nat.pow_add]; ring
      rw [h2, Nat.add_mul_div_right _ _ (by positivity), Nat.add_mul_mod_self_right, ← Nat.shiftRight_eq_div_pow]
      exact ih hlt

/-- Element e of a row built from its elements (R65, R84). -/
theorem elem_rowOf (w n : Nat) (f : Nat → Nat) (e : Nat) (h : e < n) (hw : w * n ≤ 512) : elem (rowOf w n f) w e = f e % 2 ^ w := by
  unfold elem bitsAt rowOf
  rw [BitVec.toNat_ofNat, Nat.mod_eq_of_lt (lt_of_lt_of_le (packN_lt w f n) (Nat.pow_le_pow_right (by decide) hw))]
  exact packN_elem w f n e h

end Sys2Proof.Machine
end

