-- ==== Sys2Proof/Laws/Done.lean ====
section
/-! SUPPORT. What a completed arithmetic word and an issued control word leave, each said once. -/

namespace Sys2Proof.Machine

/-! ### Taking queue entries and beats -/

theorem popOne_core (c : Core) (o : Opnd) :
    popOne c o = { c with slot := { c.slot with queues := (popOne c o).slot.queues }, chans := (popOne c o).chans } := by
  cases o <;> rfl

theorem popAll_core (c : Core) (os : List Opnd) :
    popAll c os = { c with slot := { c.slot with queues := (popAll c os).slot.queues }, chans := (popAll c os).chans } := by
  induction os generalizing c with
  | nil => rfl
  | cons o os ih =>
    have h : popAll c (o :: os) = popAll (popOne c o) os := rfl
    rw [h, ih (popOne c o), popOne_core c o]

theorem queueOf_popOne (c : Core) (o : Opnd) (k : Fin 4) :
    queueOf (popOne c o).slot k = if o = .q k then (queueOf c.slot k).tail else queueOf c.slot k := by
  cases o with
  | q n =>
    by_cases h : n = k
    · subst h; simp [queueOf, popOne]
    · have h' : ¬ n.val = k.val := fun e => h (Fin.ext e)
      simp [queueOf, popOne, h, h']
  | _ => simp [queueOf, popOne]

theorem chanOf_popOne (c : Core) (o : Opnd) (k : Fin 4) :
    chanOf (popOne c o) k = if o = .c k then (chanOf c k).tail else chanOf c k := by
  cases o with
  | c n =>
    by_cases h : n = k
    · subst h; simp [chanOf, popOne]
    · have h' : ¬ n.val = k.val := fun e => h (Fin.ext e)
      simp [chanOf, popOne, h, h']
  | _ => simp [chanOf, popOne]

theorem queueOf_popAll (c : Core) (os : List Opnd) (k : Fin 4) :
    queueOf (popAll c os).slot k = (queueOf c.slot k).drop (os.count (.q k)) := by
  induction os generalizing c with
  | nil => simp [popAll]
  | cons o os ih =>
    have h : popAll c (o :: os) = popAll (popOne c o) os := rfl
    rw [h, ih, queueOf_popOne, List.count_cons]
    by_cases e : o = .q k
    · subst e; simp [List.drop_tail]
    · simp [e]

theorem chanOf_popAll (c : Core) (os : List Opnd) (k : Fin 4) : chanOf (popAll c os) k = (chanOf c k).drop (os.count (.c k)) := by
  induction os generalizing c with
  | nil => simp [popAll]
  | cons o os ih =>
    have h : popAll c (o :: os) = popAll (popOne c o) os := rfl
    rw [h, ih, chanOf_popOne, List.count_cons]
    by_cases e : o = .c k
    · subst e; simp [List.drop_tail]
    · simp [e]

/-! ### Delivering a result -/

theorem row_setRow (c : Core) (p q : Nat) (r : Row) : (c.setRow p r).row q = if p = q then r else c.row q := by
  split
  · next h => subst h; exact row_setRow_self c p r
  · next h => exact row_setRow_other c p q r h

/-- What writeDst may change. -/
theorem writeDst_core (c : Core) (o : Opnd) (i n : Nat) (r : Row) :
    writeDst c o i n r = { c with
      slot := { c.slot with ofile := (writeDst c o i n r).slot.ofile, queues := (writeDst c o i n r).slot.queues },
      regs := (writeDst c o i n r).regs } := by
  cases o <;> rfl

theorem row_writeDst (c : Core) (o : Opnd) (i n : Nat) (r : Row) (q : Nat) :
    (writeDst c o i n r).row q = if dstRow c.slot i (some o) = some q then mergeLanes n r (c.row q) else c.row q := by
  cases o with
  | w k =>
    simp only [writeDst, dstRow, row_setRow, Option.some.injEq]
    split
    · next h => rw [h]
    · rfl
  | _ => simp [writeDst, dstRow, pushQ, Core.row]

theorem oRow_writeDst (c : Core) (o : Opnd) (i n : Nat) (r : Row) (k : Fin 8) :
    oRow (writeDst c o i n r).slot k = if o = .o k then mergeLanes n r (oRow c.slot k) else oRow c.slot k := by
  cases o with
  | o m =>
    by_cases h : m = k
    · subst h; simp [writeDst, oRow]
    · have h' : ¬ m.val = k.val := fun e => h (Fin.ext e)
      simp [writeDst, oRow, h, h']
  | _ => simp [writeDst, oRow, pushQ, Core.setRow]

theorem queueOf_writeDst (c : Core) (o : Opnd) (i n : Nat) (r : Row) (k : Fin 4) :
    queueOf (writeDst c o i n r).slot k =
      if o = .q k then queueOf c.slot k ++ [.full (mergeLanes n r 0)] else queueOf c.slot k := by
  cases o with
  | q m =>
    by_cases h : m = k
    · subst h; simp [writeDst, queueOf, pushQ]
    · have h' : ¬ m.val = k.val := fun e => h (Fin.ext e)
      simp [writeDst, queueOf, pushQ, h, h']
  | _ => simp [writeDst, queueOf, Core.setRow]

/-! ### Retiring a bundle -/

theorem applyWin_eq (x : Slot) :
    applyWin x = { x with wb := (applyWin x).wb, wl := (applyWin x).wl, winNext := (applyWin x).winNext } := by
  unfold applyWin
  split <;> rfl

theorem applyWin_none (x : Slot) (h : x.winNext = none) : applyWin x = x := by
  unfold applyWin
  split
  · next h2 => rw [h] at h2; cases h2
  · rfl

theorem retireA_eq (x : Slot) :
    retireA x = { x with backlog := dropLone x.backlog.tail, rep := 0, waitA := none, waitC := none, wb := (retireA x).wb,
                         wl := (retireA x).wl, winNext := (retireA x).winNext } := by
  unfold retireA
  dsimp only
  rw [applyWin_eq]

/-- Once the last bundle has completed, the window that waited is the window (R259). -/
theorem retireA_opens {x : Slot} {b l : Nat} (h : x.winNext = some (b, l)) (e : (retireA x).backlog = []) :
    (retireA x).wb = b ∧ (retireA x).wl = l ∧ (retireA x).winNext = none := by
  rw [retireA_eq] at e
  simp [retireA, applyWin, h, show dropLone x.backlog.tail = [] from e]
/-- While a bundle is outstanding the window stays (R259). -/
theorem retireA_keeps {x : Slot} (e : (retireA x).backlog ≠ []) :
    (retireA x).wb = x.wb ∧ (retireA x).wl = x.wl ∧ (retireA x).winNext = x.winNext := by
  rw [retireA_eq] at e
  unfold retireA applyWin
  dsimp only
  split
  · next h _ => exact absurd h e
  · exact ⟨rfl, rfl, rfl⟩

theorem forgetOld_eq (x : Slot) (l : Option Loc) : forgetOld x l = { x with backlog := (forgetOld x l).backlog } := by
  unfold forgetOld
  split <;> rfl

theorem forgetOld_backlog (x : Slot) (l : Option Loc) :
    (forgetOld x l).backlog.map (fun b => (b.pc, b.word, b.lone)) = x.backlog.map (fun b => (b.pc, b.word, b.lone)) := by
  unfold forgetOld
  split
  · next e r l h => simp [h]
  · rfl

/-- The core once the sources of an arithmetic word are taken and its result is in its destination. -/
def coreA (c : Core) (a : AOps) (v : Row) (n : Nat) : Core :=
  match a.dst with
  | some o => writeDst (popAll c a.srcs) o (dstShift a c.slot.rep) n v
  | none => popAll c a.srcs

theorem coreA_eq (c : Core) (a : AOps) (v : Row) (n : Nat) :
    coreA c a v n = { c with slot := { c.slot with ofile := (coreA c a v n).slot.ofile, queues := (coreA c a v n).slot.queues },
                             regs := (coreA c a v n).regs, chans := (coreA c a v n).chans } := by
  unfold coreA
  split
  · rw [writeDst_core, popAll_core]
  · rw [popAll_core]

theorem coreA_row (c : Core) (a : AOps) (v : Row) (n q : Nat) : (coreA c a v n).row q =
    if dstRow c.slot (dstShift a c.slot.rep) a.dst = some q then mergeLanes n v (c.row q) else c.row q := by
  have h : (popAll c a.srcs).row q = c.row q := by rw [popAll_core]; rfl
  unfold coreA
  split
  · next o ho => rw [row_writeDst, ho, h, popAll_core]; rfl
  · next ho => simp [ho, h, dstRow]

theorem coreA_oRow (c : Core) (a : AOps) (v : Row) (n : Nat) (k : Fin 8) : oRow (coreA c a v n).slot k =
    if a.dst = some (.o k) then mergeLanes n v (oRow c.slot k) else oRow c.slot k := by
  have h : oRow (popAll c a.srcs).slot k = oRow c.slot k := by rw [popAll_core]; rfl
  unfold coreA
  split
  · next o ho => rw [oRow_writeDst, ho, h]; simp
  · next ho => simp [ho, h]

theorem coreA_queue (c : Core) (a : AOps) (v : Row) (n : Nat) (k : Fin 4) : queueOf (coreA c a v n).slot k =
    (queueOf c.slot k).drop (a.srcs.count (.q k)) ++ (if a.dst = some (.q k) then [.full (mergeLanes n v 0)] else []) := by
  unfold coreA
  split
  · next o ho =>
    rw [queueOf_writeDst, ho, queueOf_popAll]
    simp only [Option.some.injEq]
    split <;> simp
  · next ho => simp [ho, queueOf_popAll]

theorem coreA_chan (c : Core) (a : AOps) (v : Row) (n : Nat) (k : Fin 4) :
    chanOf (coreA c a v n) k = (chanOf c k).drop (a.srcs.count (.c k)) := by
  unfold coreA
  split
  · rw [writeDst_core]; exact chanOf_popAll c a.srcs k
  · exact chanOf_popAll c a.srcs k

/-- The slot once the result is in the latch, and once the repetition, or the bundle, is over. -/
def slotA (c : Core) (a : AOps) (v : Row) (n : Nat) : Slot :=
  match a.dst with
  | some _ => { (coreA c a v n).slot with latA := mergeLanes n v (coreA c a v n).slot.latA }
  | none => (coreA c a v n).slot
def endA (c : Core) (a : AOps) (v : Row) (n : Nat) : Slot :=
  if !streamed a.srcs || endBeat c a.srcs then retireA (slotA c a v n)
  else { forgetOld (slotA c a v n) (dstLoc c.slot a c.slot.rep) with rep := (slotA c a v n).rep + 1, waitA := none, waitC := none }

theorem commitA_eq (s : State) (a : AOps) (v : Row) (n : Nat) :
    commitA s a v n = { s with core := { coreA s.core a v n with slot := endA s.core a v n } } := by
  unfold commitA endA slotA coreA
  cases h : a.dst <;> rfl

theorem slotA_eq (c : Core) (a : AOps) (v : Row) (n : Nat) : slotA c a v n =
    { c.slot with ofile := (coreA c a v n).slot.ofile, queues := (coreA c a v n).slot.queues, latA := (slotA c a v n).latA } := by
  unfold slotA
  split <;> rw [coreA_eq]

/-- A completed arithmetic word leaves what DoneA says. -/
theorem commitA_done (s : State) (a : AOps) (v : Row) (n : Nat) : DoneA s (commitA s a v n) a v n := by
  rw [commitA_eq]
  have hs := slotA_eq s.core a v n
  have hlat : (slotA s.core a v n).latA = if a.dst = none then s.core.slot.latA else mergeLanes n v s.core.slot.latA := by
    unfold slotA
    split <;> next h => simp [h]; rw [coreA_eq]
  have hq : ∀ k, queueOf (endA s.core a v n) k = queueOf (coreA s.core a v n).slot k := by
    intro k; unfold endA; split
    · rw [retireA_eq, hs]; rfl
    · rw [forgetOld_eq, hs]; rfl
  have ho : ∀ k, oRow (endA s.core a v n) k = oRow (coreA s.core a v n).slot k := by
    intro k; unfold endA; split
    · rw [retireA_eq, hs]; rfl
    · rw [forgetOld_eq, hs]; rfl
  have hl : (endA s.core a v n).latA = (slotA s.core a v n).latA := by
    unfold endA; split
    · rw [retireA_eq]
    · rw [forgetOld_eq]
  refine ⟨rfl, ?_, ?_, ?_, ?_, ?_, ?_, ?_, ?_, ?_, ?_, ?_, ?_, ?_, ?_, ?_, ?_⟩
  · dsimp only; rw [coreA_eq]
  · dsimp only
    unfold endA; split
    · rw [retireA_eq, hs]
    · rw [forgetOld_eq, hs]
  · intro q h
    have := coreA_row s.core a v n q
    rw [if_pos h] at this
    show Merged n v _ ((coreA s.core a v n).row q)
    rw [this]; exact merged_mergeLanes _ _ _
  · intro q h
    have := coreA_row s.core a v n q
    rw [if_neg h] at this; exact this
  · intro k h
    dsimp only
    rw [ho, coreA_oRow, if_pos h]; exact merged_mergeLanes _ _ _
  · intro k h
    dsimp only
    rw [ho, coreA_oRow, if_neg h]
  · intro k h
    refine ⟨mergeLanes n v 0, merged_mergeLanes _ _ _, ?_⟩
    dsimp only
    rw [hq, coreA_queue, if_pos h]
  · intro k h
    dsimp only
    rw [hq, coreA_queue, if_neg h, List.append_nil]
  · intro k
    exact coreA_chan s.core a v n k
  · intro h
    dsimp only
    rw [hl, hlat, if_neg h]; exact merged_mergeLanes _ _ _
  · intro h
    dsimp only
    rw [hl, hlat, if_pos h]
  · intro h
    have hd : (!streamed a.srcs || endBeat s.core a.srcs) = true := by rcases h with h | h <;> simp [h]
    dsimp only
    unfold endA
    rw [if_pos hd, retireA_eq, hs]
    exact ⟨rfl, rfl⟩
  · intro h1 h2
    dsimp only
    unfold endA
    rw [if_neg (by simp [h1, h2])]
    refine ⟨by rw [hs], ?_, ?_, ?_, ?_⟩
    · rw [forgetOld_backlog, hs]
    · rw [forgetOld_eq, hs]
    · rw [forgetOld_eq, hs]
    · rw [forgetOld_eq, hs]
  · intro h
    dsimp only
    unfold endA; split
    · unfold retireA
      dsimp only
      rw [applyWin_none _ (by rw [hs]; exact h), hs]
      exact ⟨rfl, rfl, h⟩
    · rw [forgetOld_eq, hs]; exact ⟨rfl, rfl, h⟩
  · intro b l h1 h2
    have hd : (!streamed a.srcs || endBeat s.core a.srcs) = true := by rcases h2 with h | h <;> simp [h]
    dsimp only
    unfold endA
    rw [if_pos hd]
    exact retireA_opens (by rw [hs]; exact h1)
  · dsimp only
    unfold endA; split
    · intro hb
      have := retireA_keeps hb
      rw [hs] at this ⊢
      exact this
    · intro _
      rw [forgetOld_eq, hs]; exact ⟨rfl, rfl, rfl⟩

/-- An arithmetic word that can run and whose effect is g completes, and leaves what DoneA says. -/
theorem arith_done {i : Instr} {f : BEnt → Row → List Row → State → ARes} {s : State} {e : BEnt} {a : AOps} {s1 : State} {v : Row} {n : Nat}
    (h : ReadyA i s e a) (g : f e (oldD s e a) (readAll (readA s.core e 0) a.srcs []) s = .go s1 v n) :
    ∃ t, arith i f s = .next t ∧ DoneA s1 t a v n := ⟨_, arith_go h g, commitA_done s1 a v n⟩

/-! ### Issuing a control word -/

/-- The core once the sources of a control word are taken and its result is delivered. -/
def coreC (c : Core) (p : CSpec) (v : Row) : Core := deliverC (popAll c p.srcs) p v

/-- The destination that receives a result at issue. -/
def nowDst (p : CSpec) : Option Opnd := if p.late then none else p.dst

theorem deliverC_eq (c : Core) (p : CSpec) (v : Row) :
    deliverC c p v =
      let d := match nowDst p with
        | some o => writeDst c o 0 p.lanes v
        | none => c
      if p.latch || p.dst == some .lat then { d with slot := { d.slot with latC := mergeLanes p.lanes v d.slot.latC } } else d := by
  unfold deliverC nowDst
  cases hd : p.dst with
  | none => cases p.late <;> rfl
  | some o => cases p.late <;> rfl

theorem coreC_core (c : Core) (p : CSpec) (v : Row) :
    coreC c p v = { c with slot := { c.slot with ofile := (coreC c p v).slot.ofile, queues := (coreC c p v).slot.queues,
                                                 latC := (coreC c p v).slot.latC },
                           regs := (coreC c p v).regs, chans := (coreC c p v).chans } := by
  unfold coreC
  rw [deliverC_eq]
  cases h : nowDst p with
  | none => dsimp only; split <;> rw [popAll_core]
  | some o => dsimp only; split <;> rw [writeDst_core, popAll_core]

theorem coreC_row (c : Core) (p : CSpec) (v : Row) (q : Nat) : (coreC c p v).row q =
    if dstRow c.slot 0 (nowDst p) = some q then mergeLanes p.lanes v (c.row q) else c.row q := by
  have h : (popAll c p.srcs).row q = c.row q := by rw [popAll_core]; rfl
  have hs : dstRow (popAll c p.srcs).slot 0 = dstRow c.slot 0 := by rw [popAll_core]; rfl
  unfold coreC
  rw [deliverC_eq]
  cases ho : nowDst p with
  | none => dsimp only; split <;> simp [Core.row, dstRow] <;> exact h
  | some o =>
    have := row_writeDst (popAll c p.srcs) o 0 p.lanes v q
    rw [h, hs] at this
    dsimp only
    split <;> exact this

theorem coreC_oRow (c : Core) (p : CSpec) (v : Row) (k : Fin 8) : oRow (coreC c p v).slot k =
    if nowDst p = some (.o k) then mergeLanes p.lanes v (oRow c.slot k) else oRow c.slot k := by
  have h : oRow (popAll c p.srcs).slot k = oRow c.slot k := by rw [popAll_core]; rfl
  unfold coreC
  rw [deliverC_eq]
  cases ho : nowDst p with
  | none => dsimp only; split <;> simp <;> exact h
  | some o =>
    have := oRow_writeDst (popAll c p.srcs) o 0 p.lanes v k
    rw [h] at this
    dsimp only
    simp only [Option.some.injEq]
    split <;> exact this

theorem coreC_queue (c : Core) (p : CSpec) (v : Row) (k : Fin 4) : queueOf (coreC c p v).slot k =
    (queueOf c.slot k).drop (p.srcs.count (.q k)) ++ (if nowDst p = some (.q k) then [.full (mergeLanes p.lanes v 0)] else []) := by
  have h := queueOf_popAll c p.srcs k
  unfold coreC
  rw [deliverC_eq]
  cases ho : nowDst p with
  | none => dsimp only; split <;> simp <;> exact h
  | some o =>
    have := queueOf_writeDst (popAll c p.srcs) o 0 p.lanes v k
    rw [h] at this
    dsimp only
    simp only [Option.some.injEq]
    have h2 : (if o = .q k then (queueOf c.slot k).drop (p.srcs.count (.q k)) ++ [QEnt.full (mergeLanes p.lanes v 0)]
        else (queueOf c.slot k).drop (p.srcs.count (.q k))) =
      (queueOf c.slot k).drop (p.srcs.count (.q k)) ++ (if o = .q k then [.full (mergeLanes p.lanes v 0)] else []) := by
      split <;> simp
    rw [← h2]
    split <;> exact this

theorem coreC_chan (c : Core) (p : CSpec) (v : Row) (k : Fin 4) : chanOf (coreC c p v) k = (chanOf c k).drop (p.srcs.count (.c k)) := by
  have h := chanOf_popAll c p.srcs k
  unfold coreC
  rw [deliverC_eq]
  cases ho : nowDst p with
  | none => dsimp only; split <;> exact h
  | some o => dsimp only; split <;> (show chanOf (writeDst _ _ _ _ _) k = _; rw [writeDst_core]; exact h)

theorem coreC_latC (c : Core) (p : CSpec) (v : Row) : (coreC c p v).slot.latC =
    if p.latch || p.dst == some .lat then mergeLanes p.lanes v c.slot.latC else c.slot.latC := by
  unfold coreC
  rw [deliverC_eq]
  cases ho : nowDst p with
  | none => dsimp only; split <;> rw [popAll_core]
  | some o => dsimp only; split <;> rw [writeDst_core, popAll_core]

theorem nowDst_late {p : CSpec} (h : p.late = true) : nowDst p = none := by simp [nowDst, h]
theorem nowDst_now {p : CSpec} (h : p.late = false) : nowDst p = p.dst := by simp [nowDst, h]

theorem pushBundle_eq (s : State) (x : Slot) (old : List (Loc × Row × Row)) :
    pushBundle s x old = { x with backlog := (pushBundle s x old).backlog, skipA := (pushBundle s x old).skipA } := by
  unfold pushBundle
  split
  · split <;> rfl
  · rfl

theorem pushBundle_joined (s : State) (x : Slot) (old : List (Loc × Row × Row)) {w0 w1 : Word} (h : bundleAt s x.pc = some (w0, w1))
    (hu : uF w0 = false) : (pushBundle s x old).backlog.map (fun b => (b.pc, b.word, b.lone, b.skip)) =
      x.backlog.map (fun b => (b.pc, b.word, b.lone, b.skip)) ++ [(x.pc, w1, false, x.skipA)] := by
  unfold pushBundle
  rw [h]
  simp [hu]

theorem hdr_coreC (s1 : State) (p : CSpec) (v : Row) : (coreC s1.core p v).hdr = deliveredC p s1 v s1.core.slot.wb := by
  have hw : (coreC s1.core p v).slot.wb = s1.core.slot.wb := by rw [coreC_core]
  have h : (coreC s1.core p v).hdr = (coreC s1.core p v).row s1.core.slot.wb := by unfold Core.hdr; rw [hw]
  rw [h, coreC_row]
  unfold deliveredC nowDst
  cases p.late <;> simp [dstRow]

/-- The slot of an issued control word before a window change, and the core around it. -/
def slotC (s s1 : State) (p : CSpec) (v : Row) (target : Option Word) : Slot :=
  let c := coreC s1.core p v
  let c := match target with
    | some _ => c
    | none => c.setHdr (afterC p s1 v target).1
  let x := pushBundle s { c.slot with waitC := none, waitA := none, skipC := false, xl := Xlat.none, revoked := false, retry := false } (oldRows s.core c p)
  let x := if p.refetch then { x with fetched := [] } else keepLine s x
  { x with pc := (afterC p s1 v target).2 }

theorem afterC_none (s1 : State) (p : CSpec) (v : Row) :
    afterC p s1 v none = endTest (coreC s1.core p v).hdr (coreC s1.core p v).slot.pc := by
  have hpc : (coreC s1.core p v).slot.pc = s1.core.slot.pc := by rw [coreC_core]
  rw [hdr_coreC, hpc]
  rfl

theorem issueC_eq (s s1 : State) (p : CSpec) (v : Row) (target : Option Word) :
    issueC s s1 p v target = { s1 with core :=
      { (match target with
          | some _ => coreC s1.core p v
          | none => (coreC s1.core p v).setHdr (afterC p s1 v target).1) with slot := applyWin (slotC s s1 p v target) } } := by
  cases target with
  | some n =>
    unfold issueC slotC
    rfl
  | none =>
    unfold slotC
    dsimp only
    rw [afterC_none]
    rfl

/-- The core of an issued control word before the slot is written back. -/
def backC (s1 : State) (p : CSpec) (v : Row) (target : Option Word) : Core :=
  match target with
  | some _ => coreC s1.core p v
  | none => (coreC s1.core p v).setHdr (afterC p s1 v target).1

theorem backC_eq (s1 : State) (p : CSpec) (v : Row) (target : Option Word) :
    backC s1 p v target = { coreC s1.core p v with regs := (backC s1 p v target).regs } := by
  unfold backC; split <;> rfl

theorem backC_row (s1 : State) (p : CSpec) (v : Row) (target : Option Word) (q : Nat) : (backC s1 p v target).row q =
    if q = s1.core.slot.wb then (afterC p s1 v target).1 else (coreC s1.core p v).row q := by
  have hw : (coreC s1.core p v).slot.wb = s1.core.slot.wb := by rw [coreC_core]
  unfold backC
  split
  · split
    · next n hq =>
      subst hq
      have := hdr_coreC s1 p v
      unfold Core.hdr at this
      rw [hw] at this
      rw [this]; rfl
    · rfl
  · rw [show (coreC s1.core p v).setHdr (afterC p s1 v none).1 = (coreC s1.core p v).setRow s1.core.slot.wb (afterC p s1 v none).1 by
      unfold Core.setHdr; rw [hw], row_setRow]
    by_cases h : q = s1.core.slot.wb
    · simp [h]
    · simp [h, Ne.symm h]

theorem slotC_eq (s s1 : State) (p : CSpec) (v : Row) (target : Option Word) : slotC s s1 p v target =
    { s1.core.slot with ofile := (coreC s1.core p v).slot.ofile, queues := (coreC s1.core p v).slot.queues,
                        latC := (coreC s1.core p v).slot.latC, waitC := none, waitA := none, skipC := false, xl := Xlat.none, revoked := false, retry := false,
                        backlog := (slotC s s1 p v target).backlog, skipA := (slotC s s1 p v target).skipA,
                        fetched := (slotC s s1 p v target).fetched, pc := (afterC p s1 v target).2 } := by
  have hb : (backC s1 p v target).slot = (coreC s1.core p v).slot := by rw [backC_eq]
  have e : slotC s s1 p v target =
      (let x := pushBundle s { (backC s1 p v target).slot with waitC := none, waitA := none, skipC := false, xl := Xlat.none, revoked := false, retry := false }
        (oldRows s.core (backC s1 p v target) p)
      let x := if p.refetch then { x with fetched := [] } else keepLine s x
      { x with pc := (afterC p s1 v target).2 }) := rfl
  rw [e, hb]
  dsimp only
  rw [coreC_core, pushBundle_eq]
  split <;> rfl

theorem slotC_joined (s s1 : State) (p : CSpec) (v : Row) (target : Option Word) {w0 w1 : Word}
    (h : bundleAt s s1.core.slot.pc = some (w0, w1)) (hu : uF w0 = false) :
    (slotC s s1 p v target).backlog.map (fun b => (b.pc, b.word, b.lone, b.skip)) =
      s1.core.slot.backlog.map (fun b => (b.pc, b.word, b.lone, b.skip)) ++ [(s1.core.slot.pc, w1, false, s1.core.slot.skipA)] := by
  have hb : (backC s1 p v target).slot = (coreC s1.core p v).slot := by rw [backC_eq]
  have e : (slotC s s1 p v target).backlog =
      (pushBundle s { (backC s1 p v target).slot with waitC := none, waitA := none, skipC := false, xl := Xlat.none, revoked := false, retry := false }
        (oldRows s.core (backC s1 p v target) p)).backlog := by
    unfold slotC backC
    dsimp only
    split <;> rfl
  rw [e, hb]
  have hj := pushBundle_joined s { (coreC s1.core p v).slot with waitC := none, waitA := none, skipC := false, xl := Xlat.none, revoked := false, retry := false }
    (oldRows s.core (backC s1 p v target) p) (w0 := w0) (w1 := w1) (by rw [coreC_core]; exact h) hu
  rw [hj]
  rw [coreC_core]

theorem issueC_back (s s1 : State) (p : CSpec) (v : Row) (target : Option Word) :
    issueC s s1 p v target = { s1 with core := { backC s1 p v target with slot := applyWin (slotC s s1 p v target) } } :=
  issueC_eq s s1 p v target

/-- An issued control word leaves what DoneC says. -/
theorem issueC_done (s s1 : State) (p : CSpec) (v : Row) (target : Option Word) : DoneC s s1 (issueC s s1 p v target) p v target := by
  rw [issueC_back]
  have hs := slotC_eq s s1 p v target
  have hx := applyWin_eq (slotC s s1 p v target)
  have hq : ∀ k, queueOf (applyWin (slotC s s1 p v target)) k = queueOf (coreC s1.core p v).slot k := by
    intro k; rw [hx, hs]; rfl
  have ho : ∀ k, oRow (applyWin (slotC s s1 p v target)) k = oRow (coreC s1.core p v).slot k := by
    intro k; rw [hx, hs]; rfl
  have hl : (applyWin (slotC s s1 p v target)).latC = (coreC s1.core p v).slot.latC := by rw [hx, hs]
  have hr : ∀ q, q ≠ s1.core.slot.wb → (backC s1 p v target).row q = (coreC s1.core p v).row q := by
    intro q h; rw [backC_row, if_neg h]
  refine ⟨rfl, ?_, ?_, ?_, ?_, ?_, ?_, ?_, ?_, ?_, ?_, ?_, ?_, ?_, ?_, ?_, ?_⟩
  · dsimp only; rw [backC_eq, coreC_core]
  · dsimp only; rw [hx, hs]
  · dsimp only; rw [hx, hs]
  · have := backC_row s1 p v target s1.core.slot.wb
    rw [if_pos rfl] at this; exact this
  · intro q hq' h1 h2
    have := coreC_row s1.core p v q
    rw [nowDst_now h1, if_pos h2, ← hr q hq'] at this
    show Merged _ _ _ ((backC s1 p v target).row q)
    rw [this]; exact merged_mergeLanes _ _ _
  · intro q hq' h
    have := coreC_row s1.core p v q
    rw [← hr q hq'] at this
    have hn : ¬ dstRow s1.core.slot 0 (nowDst p) = some q := by
      rcases h with h | h
      · rw [nowDst_late h]; simp [dstRow]
      · unfold nowDst; split
        · simp [dstRow]
        · exact h
    rw [if_neg hn] at this; exact this
  · intro k h1 h2
    dsimp only
    rw [ho, coreC_oRow, nowDst_now h1, if_pos h2]; exact merged_mergeLanes _ _ _
  · intro k h
    have hn : ¬ nowDst p = some (.o k) := by
      rcases h with h | h
      · rw [nowDst_late h]; simp
      · unfold nowDst; split
        · simp
        · exact h
    dsimp only
    rw [ho, coreC_oRow, if_neg hn]
  · intro k h1 h2
    refine ⟨mergeLanes p.lanes v 0, merged_mergeLanes _ _ _, ?_⟩
    dsimp only
    rw [hq, coreC_queue, nowDst_now h1, if_pos h2]
  · intro k h
    have hn : ¬ nowDst p = some (.q k) := by
      rcases h with h | h
      · rw [nowDst_late h]; simp
      · unfold nowDst; split
        · simp
        · exact h
    dsimp only
    rw [hq, coreC_queue, if_neg hn, List.append_nil]
  · intro h
    dsimp only
    rw [hl, coreC_latC, if_pos (by rcases h with h | h <;> simp [h])]; exact merged_mergeLanes _ _ _
  · intro h1 h2
    dsimp only
    rw [hl, coreC_latC, if_neg (by simp [h1, h2])]
  · intro k h
    have := coreC_chan s1.core p v k
    rw [h, List.drop_zero] at this
    show chanOf (backC s1 p v target) k = _
    rw [backC_eq]; exact this
  · intro w0 w1 h1 h2
    dsimp only
    rw [hx]
    exact slotC_joined s s1 p v target h1 h2
  · intro _
    dsimp only; rw [backC_eq, coreC_core]
  · intro h
    dsimp only
    rw [applyWin_none _ (by rw [hs]; exact h), hs]
    exact ⟨rfl, rfl, h⟩

/-! ### The checkpoint of a paired core -/

theorem countBundle_eq (s : State) : countBundle s = { s with core := { s.core with ckpt := (countBundle s).core.ckpt } } := by
  unfold countBundle
  split
  · split <;> rfl
  · rfl
theorem outbound_eq (s : State) : outbound s = { s with core := { s.core with ckpt := (outbound s).core.ckpt } } := by
  unfold outbound
  split <;> rfl
theorem countBundle_single (s : State) (h : s.core.slot.paired = false) : countBundle s = s := by simp [countBundle, h]
theorem outbound_single (s : State) (h : s.core.slot.paired = false) : outbound s = s := by simp [outbound, h]

theorem done_ckpt {s s1 t : State} {p : CSpec} {v : Row} {target : Option Word} (h : DoneC s s1 t p v target) (k : Option Ckpt)
    (hk : s1.core.slot.paired = false → k = t.core.ckpt) : DoneC s s1 { t with core := { t.core with ckpt := k } } p v target := by
  obtain ⟨h1, h2, h3, h4, h5, h6, h7, h8, h9, h10, h11, h12, h13, h14, h15, h16, h17⟩ := h
  refine ⟨?_, ?_, h3, h4, h5, h6, h7, h8, h9, h10, h11, h12, h13, h14, h15, ?_, h17⟩
  · unfold SameOutside at *; rw [h1]
  · dsimp only; rw [h2]
  · intro hp; exact (hk hp).trans (h16 hp)

theorem issued_paired (s s1 : State) (p : CSpec) (v : Row) (target : Option Word) :
    (issueC s s1 p v target).core.slot.paired = s1.core.slot.paired := by rw [(issueC_done s s1 p v target).slot]

/-- An issued control word, whether or not its effect leaves the core. -/
theorem issued_done (s s1 : State) (p : CSpec) (v : Row) (target : Option Word) : DoneC s s1 (issued p s s1 v target) p v target := by
  unfold issued
  rw [countBundle_eq]
  refine done_ckpt (issueC_done s s1 p v target) _ fun hp => ?_
  rw [countBundle_single _ (by rw [issued_paired]; exact hp)]
theorem issuedOut_done (s s1 : State) (p : CSpec) (v : Row) : DoneC s s1 (issuedOut p s s1 v) p v none := by
  unfold issuedOut
  rw [outbound_eq]
  refine done_ckpt (issueC_done s s1 p v none) _ fun hp => ?_
  rw [outbound_single _ (by rw [issued_paired]; exact hp)]

/-- A control word that can issue and whose effect is g issues, and leaves what DoneC says. -/
theorem control_done {i : Instr} {p : CSpec} {f : List Row → State → CRes} {s s1 : State} {v : Row} {target : Option Word}
    (h : ReadyC p s) (g : f (readAll (readC s.core) p.srcs []) s = .go s1 v target) :
    ∃ t, control i p f s = .next t ∧ DoneC s s1 t p v target := ⟨_, control_go h g, issued_done s s1 p v target⟩
/-- The same where the effect leaves the core. -/
theorem control_sent {i : Instr} {p : CSpec} {f : List Row → State → CRes} {s s1 : State} {v : Row}
    (h : ReadyC p s) (g : f (readAll (readC s.core) p.srcs []) s = .out s1 v) :
    ∃ t, control i p f s = .next t ∧ DoneC s s1 t p v none := ⟨_, control_out h g, issuedOut_done s s1 p v⟩

end Sys2Proof.Machine
end

