-- ==== Sys2Proof/Laws/Access.lean ====
section
/-! SUPPORT. What an access to memory does: the checks it passes, and the bytes that a store changes. -/

namespace Sys2Proof.Machine

/-- An access that arrives at the look-up of its address ends as the plan of it says. -/
theorem access_arrives {s : State} {k : AKind} {ord : Ord} {n ea : Nat} {go : State → List Spot → CRes} (h : Arrives s k ord n ea) :
    access s k ord n ea go = match planAccess s (who s) k ea n with
      | .trap cause info faddr => .trap s (mkTrap cause info faddr)
      | .miss page => waitPage s page
      | .ext r a => waitExt s r a
      | .ok p m q => go (reached s k n ea) (spotsOf p m n q) := by
  obtain ⟨h1, h2, h3⟩ := h
  have a1 : (k == .store && touchesStore s ea n && !s.core.slot.prv) = false := by
    cases hk : (k == AKind.store) with
    | false => rfl
    | true =>
      cases ht : touchesStore s ea n with
      | false => rfl
      | true => simp [h2 (by simpa using hk) ht]
  have a2 : misaligned s (ord == .rlx && k != .rmw) n ea = false := by
    unfold misaligned
    rcases h3 with h3 | ⟨b1, b2, b3, b4⟩
    · simp [h3]
    · simp [b1, b2, b3, b4]
  unfold access reached
  dsimp only
  rw [h1, a1, a2]
  simp only [Bool.false_eq_true, if_false]
  cases planAccess s (who s) k ea n with
  | ok p m q => cases q <;> rfl
  | _ => rfl

/-- An access that passes every check goes on with its spots. -/
theorem access_passes {s : State} {k : AKind} {ord : Ord} {n ea : Nat} {l : List Spot} {go : State → List Spot → CRes}
    (h : Passes s k ord n ea l) : access s k ord n ea go = go (reached s k n ea) l := by
  obtain ⟨p, m, q, h4, h5⟩ := h.plan
  rw [access_arrives h.toArrives, h4, h5]

/-- A misaligned access traps AL. -/
theorem access_misaligned {s : State} {k : AKind} {ord : Ord} {n ea : Nat} {go : State → List Spot → CRes} (h1 : acqHeld s = false)
    (h2 : k = .store → touchesStore s ea n = true → s.core.slot.prv = true) (h3 : ea % n ≠ 0)
    (h4 : n = 64 ∨ ord ≠ .rlx ∨ k = .rmw ∨ modeAL (modeOf s.core.hdr) = true) :
    access s k ord n ea go = .trap s (mkTrap cAL (if k.writes then infoWRO else 0) ea) := by
  have a1 : (k == .store && touchesStore s ea n && !s.core.slot.prv) = false := by
    cases hk : (k == AKind.store) with
    | false => rfl
    | true =>
      cases ht : touchesStore s ea n with
      | false => rfl
      | true => simp [h2 (by simpa using hk) ht]
  have a2 : misaligned s (ord == .rlx && k != .rmw) n ea = true := by
    unfold misaligned
    rcases h4 with h | h | h | h
    · simp [h]
      rw [← h]; exact h3
    · cases ord <;> simp [h3] at *
    · simp [h3, h]
    · simp [h3, h]
  unfold access
  dsimp only
  rw [h1, a1, a2]
  rfl

/-- A load that passes every check issues its late write with the bytes. -/
theorem loadAt_reaches {s : State} {a : Opnd} {ord : Ord} {n ea : Nat} {l : List Spot} (h : Reaches s .load ord .core n ea l) :
    loadAt a ord n ea s = .go (loaded s a n ea l) 0 none ∨ loadAt a ord n ea s = .out (loaded s a n ea l) 0 := by
  unfold loadAt
  rw [access_passes h.toPasses, if_neg (by rw [h.now]; simp)]
  unfold leaves loaded
  split
  · exact .inl rfl
  · exact .inr rfl

/-- A store that passes every check has its bytes at the spots. -/
theorem storeAt_reaches {s : State} {bs : List Byte} {ord : Ord} {scp : Scp} {ea : Nat} {l : List Spot}
    (h : Reaches s .store ord scp bs.length ea l) :
    storeAt bs ord scp ea s = .go (stored s bs scp ea l) 0 none ∨ storeAt bs ord scp ea s = .out (stored s bs scp ea l) 0 := by
  unfold storeAt
  rw [access_passes h.toPasses, if_neg (by rw [h.now]; simp)]
  unfold leaves stored
  split
  · exact .inl rfl
  · exact .inr rfl

/-- Whether or not an access leaves its core, its effect is the given state. -/
theorem leaves_either (s : State) (l : List Spot) (s' : State) (v : Row) : leaves s l s' v = .go s' v none ∨ leaves s l s' v = .out s' v := by
  unfold leaves
  split
  · exact .inl rfl
  · exact .inr rfl

/-- A load or a store that something holds back issues, and waits for it. -/
theorem loadAt_held {s : State} {a : Opnd} {ord : Ord} {n ea : Nat} {l : List Spot} (h : Passes s .load ord n ea l)
    (hm : mustHold (reached s .load n ea) .load ord .core l = true) :
    loadAt a ord n ea s = .go (heldLoad s a ord n ea l) 0 none ∨ loadAt a ord n ea s = .out (heldLoad s a ord n ea l) 0 := by
  unfold loadAt
  rw [access_passes h, if_pos hm]
  exact leaves_either ..
theorem storeAt_held {s : State} {bs : List Byte} {ord : Ord} {scp : Scp} {ea : Nat} {l : List Spot} (h : Passes s .store ord bs.length ea l)
    (hm : mustHold (reached s .store bs.length ea) .store ord scp l = true) :
    storeAt bs ord scp ea s = .go (heldStore s bs ord scp ea l) 0 none ∨ storeAt bs ord scp ea s = .out (heldStore s bs ord scp ea l) 0 := by
  unfold storeAt
  rw [access_passes h, if_pos hm]
  exact leaves_either ..

/-- The stop of a kernel whose access no link carries changes no memory and no register, and holds what was held. -/
@[simp] theorem cutStop_mem (s : State) (l : List Spot) (s' : State) : (cutStop s l s').mem = s'.mem := by
  unfold cutStop linkStop mchkStop; split <;> rfl
@[simp] theorem cutStop_core (s : State) (l : List Spot) (s' : State) : (cutStop s l s').core = s'.core := by
  unfold cutStop linkStop mchkStop; split <;> rfl
@[simp] theorem cutStop_held (s : State) (l : List Spot) (s' : State) : (cutStop s l s').held = s'.held := by
  unfold cutStop linkStop mchkStop; split <;> rfl

/-- A control word whose effect is s1, whether or not it leaves the core. -/
theorem control_either {i : Instr} {p : CSpec} {f : List Row → State → CRes} {s s1 : State} {v : Row} (h : ReadyC p s)
    (g : f (readAll (readC s.core) p.srcs []) s = .go s1 v none ∨ f (readAll (readC s.core) p.srcs []) s = .out s1 v) :
    ∃ t, control i p f s = .next t ∧ DoneC s s1 t p v none := by
  rcases g with g | g
  · exact control_done h g
  · exact control_sent h g

theorem rowBytes_length (r : Row) (n : Nat) : (rowBytes r n).length = n := by simp [rowBytes]
theorem natBytes_length (v n : Nat) : (natBytes v n).length = n := by
  induction n generalizing v with
  | zero => rfl
  | succ n ih => simp [natBytes, ih]

end Sys2Proof.Machine
end

