-- ==== Sys2Proof/Laws/Encoding.lean ====
section
/-! SUPPORT. The fields of a word that the encoder has built, and the field codes, read back. -/

set_option linter.unusedSimpArgs false

namespace Sys2Proof

/-- Reading n bits from bit i of a concatenation, all of them in the lower part. -/
theorem extract_low {m k : Nat} (x : BitVec m) (y : BitVec k) (i n : Nat) (h : i + n ≤ k) :
    (x ++ y).extractLsb' i n = y.extractLsb' i n := by
  apply BitVec.eq_of_getLsbD_eq
  intro j hj
  have : i + j < k := by omega
  simp [BitVec.getLsbD_append, hj, this]

/-- Reading n bits from bit i of a concatenation, all of them in the upper part. -/
theorem extract_high {m k : Nat} (x : BitVec m) (y : BitVec k) (i n : Nat) (h : k ≤ i) :
    (x ++ y).extractLsb' i n = x.extractLsb' (i - k) n := by
  apply BitVec.eq_of_getLsbD_eq
  intro j hj
  have h1 : ¬ i + j < k := by omega
  have h2 : i + j - k = i - k + j := by omega
  simp [BitVec.getLsbD_append, hj, h1, h2]

@[simp] theorem extract_all {m : Nat} (x : BitVec m) : x.extractLsb' 0 m = x := by
  apply BitVec.eq_of_getLsbD_eq
  intro j hj
  simp [hj]

theorem get_low {m k : Nat} (x : BitVec m) (y : BitVec k) (i : Nat) (h : i < k) : (x ++ y).getLsbD i = y.getLsbD i := by
  simp [BitVec.getLsbD_append, h]
theorem get_high {m k : Nat} (x : BitVec m) (y : BitVec k) (i : Nat) (h : k ≤ i) : (x ++ y).getLsbD i = x.getLsbD (i - k) := by
  have : ¬ i < k := by omega
  simp [BitVec.getLsbD_append, this]

/-! ### The fields of each format -/

@[simp] theorem cr_opC (u : BitVec 1) (op : BitVec 6) (a b c : BitVec 7) (f : BitVec 4) : opC (cr u op a b c f) = op := by
  simp (disch := decide) only [opC, cr, extract_high, extract_low, extract_all, Nat.reduceSub]
@[simp] theorem cr_aF (u : BitVec 1) (op : BitVec 6) (a b c : BitVec 7) (f : BitVec 4) : aF (cr u op a b c f) = a := by
  simp (disch := decide) only [aF, cr, extract_high, extract_low, extract_all, Nat.reduceSub]
@[simp] theorem cr_bF (u : BitVec 1) (op : BitVec 6) (a b c : BitVec 7) (f : BitVec 4) : bF (cr u op a b c f) = b := by
  simp (disch := decide) only [bF, cr, extract_high, extract_low, extract_all, Nat.reduceSub]
@[simp] theorem cr_cF (u : BitVec 1) (op : BitVec 6) (a b c : BitVec 7) (f : BitVec 4) : cF (cr u op a b c f) = c := by
  simp (disch := decide) only [cF, cr, extract_high, extract_low, extract_all, Nat.reduceSub]
@[simp] theorem cr_fF (u : BitVec 1) (op : BitVec 6) (a b c : BitVec 7) (f : BitVec 4) : fF (cr u op a b c f) = f := by
  simp (disch := decide) only [fF, cr, extract_high, extract_low, extract_all, Nat.reduceSub]
@[simp] theorem cr_uF (u : BitVec 1) (op : BitVec 6) (a b c : BitVec 7) (f : BitVec 4) : uF (cr u op a b c f) = u.getLsbD 0 := by
  simp (disch := decide) only [uF, cr, get_high, get_low, Nat.reduceSub]
@[simp] theorem ci_opC (u : BitVec 1) (op : BitVec 6) (a b : BitVec 7) (i : BitVec 11) : opC (ci u op a b i) = op := by
  simp (disch := decide) only [opC, ci, extract_high, extract_low, extract_all, Nat.reduceSub]
@[simp] theorem ci_aF (u : BitVec 1) (op : BitVec 6) (a b : BitVec 7) (i : BitVec 11) : aF (ci u op a b i) = a := by
  simp (disch := decide) only [aF, ci, extract_high, extract_low, extract_all, Nat.reduceSub]
@[simp] theorem ci_bF (u : BitVec 1) (op : BitVec 6) (a b : BitVec 7) (i : BitVec 11) : bF (ci u op a b i) = b := by
  simp (disch := decide) only [bF, ci, extract_high, extract_low, extract_all, Nat.reduceSub]
@[simp] theorem ci_i11F (u : BitVec 1) (op : BitVec 6) (a b : BitVec 7) (i : BitVec 11) : i11F (ci u op a b i) = i := by
  simp (disch := decide) only [i11F, ci, extract_high, extract_low, extract_all, Nat.reduceSub]
@[simp] theorem ci_uF (u : BitVec 1) (op : BitVec 6) (a b : BitVec 7) (i : BitVec 11) : uF (ci u op a b i) = u.getLsbD 0 := by
  simp (disch := decide) only [uF, ci, get_high, get_low, Nat.reduceSub]
@[simp] theorem cb_opC (u : BitVec 1) (op : BitVec 6) (a : BitVec 7) (c : BitVec 3) (o : BitVec 15) : opC (cb u op a c o) = op := by
  simp (disch := decide) only [opC, cb, extract_high, extract_low, extract_all, Nat.reduceSub]
@[simp] theorem cb_aF (u : BitVec 1) (op : BitVec 6) (a : BitVec 7) (c : BitVec 3) (o : BitVec 15) : aF (cb u op a c o) = a := by
  simp (disch := decide) only [aF, cb, extract_high, extract_low, extract_all, Nat.reduceSub]
@[simp] theorem cb_cndF (u : BitVec 1) (op : BitVec 6) (a : BitVec 7) (c : BitVec 3) (o : BitVec 15) : cndF (cb u op a c o) = c := by
  simp (disch := decide) only [cndF, cb, extract_high, extract_low, extract_all, Nat.reduceSub]
@[simp] theorem cb_o15F (u : BitVec 1) (op : BitVec 6) (a : BitVec 7) (c : BitVec 3) (o : BitVec 15) : o15F (cb u op a c o) = o := by
  simp (disch := decide) only [o15F, cb, extract_high, extract_low, extract_all, Nat.reduceSub]
@[simp] theorem cb_uF (u : BitVec 1) (op : BitVec 6) (a : BitVec 7) (c : BitVec 3) (o : BitVec 15) : uF (cb u op a c o) = u.getLsbD 0 := by
  simp (disch := decide) only [uF, cb, get_high, get_low, Nat.reduceSub]
@[simp] theorem cm_opC (u : BitVec 1) (op : BitVec 6) (a b : BitVec 7) (off : BitVec 5) (o : BitVec 2) (s : BitVec 3) : opC (cm u op a b off o s) = op := by
  simp (disch := decide) only [opC, cm, extract_high, extract_low, extract_all, Nat.reduceSub]
@[simp] theorem cm_aF (u : BitVec 1) (op : BitVec 6) (a b : BitVec 7) (off : BitVec 5) (o : BitVec 2) (s : BitVec 3) : aF (cm u op a b off o s) = a := by
  simp (disch := decide) only [aF, cm, extract_high, extract_low, extract_all, Nat.reduceSub]
@[simp] theorem cm_bF (u : BitVec 1) (op : BitVec 6) (a b : BitVec 7) (off : BitVec 5) (o : BitVec 2) (s : BitVec 3) : bF (cm u op a b off o s) = b := by
  simp (disch := decide) only [bF, cm, extract_high, extract_low, extract_all, Nat.reduceSub]
@[simp] theorem cm_off5F (u : BitVec 1) (op : BitVec 6) (a b : BitVec 7) (off : BitVec 5) (o : BitVec 2) (s : BitVec 3) : off5F (cm u op a b off o s) = off := by
  simp (disch := decide) only [off5F, cm, extract_high, extract_low, extract_all, Nat.reduceSub]
@[simp] theorem cm_scpB (u : BitVec 1) (op : BitVec 6) (a b : BitVec 7) (off : BitVec 5) (o : BitVec 2) (s : BitVec 3) : scpB (cm u op a b off o s) = s := by
  simp (disch := decide) only [scpB, cm, extract_high, extract_low, extract_all, Nat.reduceSub]
@[simp] theorem cm_uF (u : BitVec 1) (op : BitVec 6) (a b : BitVec 7) (off : BitVec 5) (o : BitVec 2) (s : BitVec 3) : uF (cm u op a b off o s) = u.getLsbD 0 := by
  simp (disch := decide) only [uF, cm, get_high, get_low, Nat.reduceSub]
@[simp] theorem ar_opA (op d x y : BitVec 7) (t : BitVec 4) : opA (ar op d x y t) = op := by
  simp (disch := decide) only [opA, ar, extract_high, extract_low, extract_all, Nat.reduceSub]
@[simp] theorem ar_aF (op d x y : BitVec 7) (t : BitVec 4) : aF (ar op d x y t) = d := by
  simp (disch := decide) only [aF, ar, extract_high, extract_low, extract_all, Nat.reduceSub]
@[simp] theorem ar_bF (op d x y : BitVec 7) (t : BitVec 4) : bF (ar op d x y t) = x := by
  simp (disch := decide) only [bF, ar, extract_high, extract_low, extract_all, Nat.reduceSub]
@[simp] theorem ar_cF (op d x y : BitVec 7) (t : BitVec 4) : cF (ar op d x y t) = y := by
  simp (disch := decide) only [cF, ar, extract_high, extract_low, extract_all, Nat.reduceSub]
@[simp] theorem ar_fF (op d x y : BitVec 7) (t : BitVec 4) : fF (ar op d x y t) = t := by
  simp (disch := decide) only [fF, ar, extract_high, extract_low, extract_all, Nat.reduceSub]
@[simp] theorem ai_opA (op d x : BitVec 7) (i : BitVec 11) : opA (ai op d x i) = op := by
  simp (disch := decide) only [opA, ai, extract_high, extract_low, extract_all, Nat.reduceSub]
@[simp] theorem ai_aF (op d x : BitVec 7) (i : BitVec 11) : aF (ai op d x i) = d := by
  simp (disch := decide) only [aF, ai, extract_high, extract_low, extract_all, Nat.reduceSub]
@[simp] theorem ai_bF (op d x : BitVec 7) (i : BitVec 11) : bF (ai op d x i) = x := by
  simp (disch := decide) only [bF, ai, extract_high, extract_low, extract_all, Nat.reduceSub]
@[simp] theorem ai_i11F (op d x : BitVec 7) (i : BitVec 11) : i11F (ai op d x i) = i := by
  simp (disch := decide) only [i11F, ai, extract_high, extract_low, extract_all, Nat.reduceSub]

/-! ### Operands -/

theorem opnd_code (o : Opnd) : opnd? o.code = some o := by
  cases o with
  | w n => revert n; decide
  | o n => revert n; decide
  | q n => revert n; decide
  | c n => revert n; decide
  | m n => revert n; decide
  | lat => decide
  | z => decide

theorem opF_code (p : Opnd → Bool) (o : Opnd) (h : p o = true) : opF p o.code = ⟨o, []⟩ := by simp [opF, opnd_code, h]

/-! ### The other field codes -/

@[simp] theorem ord_code (o : Ord) : ordOf o.code = o := by cases o <;> rfl
@[simp] theorem scp_code (s : Scp) : scpF s.code = ⟨s, []⟩ := by cases s <;> rfl
@[simp] theorem cnd_code (c : Cnd) : cnd? c.code = some c := by cases c <;> rfl
@[simp] theorem ty_code (t : ETy) (ok : List ETy) (h : t ∈ ok) : tyC t.code ok = ⟨t, []⟩ := by
  have : ety? t.code = some t := by cases t <;> rfl
  simp [tyC, this, rng, h]
@[simp] theorem fkind_code (k : FKind) : fkindOf k.code = k := by cases k <;> rfl
@[simp] theorem cpy_code (k : CpyKind) : cpy? k.code = some k := by cases k <;> rfl
@[simp] theorem amo_code (k : AmoOp) : amo? k.code = some k := by cases k <;> rfl
@[simp] theorem conv_code (k : Conv) : conv? k.code = some k := by cases k <;> rfl
@[simp] theorem ring_code (k : Ring) : ringOf k.code = k := by cases k <;> rfl
@[simp] theorem afmt_code (k : AFmt) : afmtOf k.code = k := by cases k <;> rfl
@[simp] theorem red_code (k : RedOp) : redOf k.code = k := by cases k <;> rfl
@[simp] theorem fred_code (k : FRedOp) : fredF k.code = ⟨k, []⟩ := by cases k <;> rfl
@[simp] theorem creg_code (r : CReg) : creg? r.num = some r := by cases r <;> rfl
theorem size_code (z : MSize) : msize? (z.code.extractLsb' 0 3) = some z := by cases z <;> rfl
theorem size_top (z : MSize) : (z.code.extractLsb' 3 1).toNat = 0 := by cases z <;> rfl

/-- An instruction with no reason against it is the one decoded. -/
@[simp] theorem fin_nil (i : Instr) : fin i [] = .ok i := rfl

@[simp] theorem srcC_code (o : Opnd) (h : o.srcC = true) : srcC o.code = ⟨o, []⟩ := opF_code _ o h
@[simp] theorem dstC_code (o : Opnd) (h : o.dstC = true) : dstC o.code = ⟨o, []⟩ := opF_code _ o h
@[simp] theorem dstL_code (o : Opnd) (h : o.dstLate = true) : dstL o.code = ⟨o, []⟩ := opF_code _ o h
@[simp] theorem srcA_code (o : Opnd) (h : o.srcA = true) : srcA o.code = ⟨o, []⟩ := opF_code _ o h
@[simp] theorem dstA_code (o : Opnd) (h : o.dstA = true) : dstA o.code = ⟨o, []⟩ := opF_code _ o h
@[simp] theorem dstR_code (o : Opnd) (h : o.dstRead = true) : dstR o.code = ⟨o, []⟩ := opF_code _ o h

/-! ### Bits of the low fields -/

@[simp] theorem cr_low (u : BitVec 1) (op : BitVec 6) (a b c : BitVec 7) (f : BitVec 4) (i n : Nat) (h : i + n ≤ 4) :
    (cr u op a b c f).extractLsb' i n = f.extractLsb' i n := extract_low _ f i n h
@[simp] theorem ci_low (u : BitVec 1) (op : BitVec 6) (a b : BitVec 7) (k : BitVec 11) (i n : Nat) (h : i + n ≤ 11) :
    (ci u op a b k).extractLsb' i n = k.extractLsb' i n := extract_low _ k i n h
@[simp] theorem ci_bit (u : BitVec 1) (op : BitVec 6) (a b : BitVec 7) (k : BitVec 11) (i : Nat) (h : i < 11) :
    (ci u op a b k).getLsbD i = k.getLsbD i := get_low _ k i h
@[simp] theorem ai_low (op d x : BitVec 7) (k : BitVec 11) (i n : Nat) (h : i + n ≤ 11) :
    (ai op d x k).extractLsb' i n = k.extractLsb' i n := extract_low _ k i n h
@[simp] theorem ar_low (op d x y : BitVec 7) (t : BitVec 4) (i n : Nat) (h : 4 ≤ i ∧ i + n ≤ 11) :
    (ar op d x y t).extractLsb' i n = y.extractLsb' (i - 4) n := by
  rw [ar, extract_high _ _ _ _ h.1, extract_low _ _ _ _ (by omega)]
@[simp] theorem ar_bit (op d x y : BitVec 7) (t : BitVec 4) (i : Nat) (h : 4 ≤ i ∧ i < 11) :
    (ar op d x y t).getLsbD i = y.getLsbD (i - 4) := by
  rw [ar, get_high _ _ _ h.1, get_low _ _ _ (by omega)]
@[simp] theorem cr_bit (u : BitVec 1) (op : BitVec 6) (a b c : BitVec 7) (f : BitVec 4) (i : Nat) (h : i < 4) :
    (cr u op a b c f).getLsbD i = f.getLsbD i := get_low _ f i h
@[simp] theorem cb_low (u : BitVec 1) (op : BitVec 6) (a : BitVec 7) (c : BitVec 3) (o : BitVec 15) (i n : Nat) (h : i + n ≤ 15) :
    (cb u op a c o).extractLsb' i n = o.extractLsb' i n := extract_low _ o i n h
@[simp] theorem cm_ord (u : BitVec 1) (op : BitVec 6) (a b : BitVec 7) (off : BitVec 5) (o : BitVec 2) (s : BitVec 3) :
    (cm u op a b off o s).extractLsb' 4 2 = o := by
  simp (disch := decide) only [cm, extract_high, extract_low, extract_all, Nat.reduceSub]
@[simp] theorem cm_low (u : BitVec 1) (op : BitVec 6) (a b : BitVec 7) (off : BitVec 5) (o : BitVec 2) (s : BitVec 3) :
    (cm u op a b off o s).extractLsb' 0 1 = 0 := by
  simp (disch := decide) only [cm, extract_high, extract_low, extract_all, Nat.reduceSub]
@[simp] theorem load_ord (o : Ord) (h : o.load = true) : o = .rlx ∨ o = .acq ∨ o = .sc := by cases o <;> simp_all [Ord.load]
@[simp] theorem store_ord (o : Ord) (h : o.store = true) : o = .rlx ∨ o = .rel ∨ o = .sc := by cases o <;> simp_all [Ord.store]
@[simp] theorem ty_field (op d x y : BitVec 7) (t : ETy) (ok : List ETy) (h : t ∈ ok) :
    tyF (ar op d x y t.code) ok = ⟨t, []⟩ := by rw [tyF, ar_fF, ty_code t ok h]
@[simp] theorem size_field (u : BitVec 1) (op : BitVec 6) (a b c : BitVec 7) (z : MSize) : sizeF (cr u op a b c z.code) = ⟨z, []⟩ := by
  rw [sizeF, cr_low _ _ _ _ _ _ _ _ (by decide), size_code]; rfl
@[simp] theorem size_zero (u : BitVec 1) (op : BitVec 6) (a b c : BitVec 7) (z : MSize) : f3 (cr u op a b c z.code) = [] := by
  rw [f3, cr_low _ _ _ _ _ _ _ _ (by decide), size_top]; rfl
@[simp] theorem amo_field (u : BitVec 1) (op : BitVec 6) (a b c : BitVec 7) (k : AmoOp) : amoF (cr u op a b c k.code) = ⟨k, []⟩ := by
  rw [amoF, cr_fF, amo_code]; rfl
@[simp] theorem cpy_field (u : BitVec 1) (op : BitVec 6) (a b c : BitVec 7) (k : CpyKind) : cpyF (cr u op a b c k.code) = ⟨k, []⟩ := by
  rw [cpyF, cr_fF, cpy_code]; rfl
@[simp] theorem conv_field (u : BitVec 1) (op : BitVec 6) (a b c : BitVec 7) (k : Conv) : convF (cr u op a b c k.code) = ⟨k, []⟩ := by
  rw [convF, cr_fF, conv_code]; rfl

theorem gang_code (g : GangWord) (h : g.ok = true) : gangF g.word = ⟨g, []⟩ := by
  simp (disch := decide) only [gangF, GangWord.word, extract_high, extract_low, extract_all, get_high, get_low, Nat.reduceSub,
    afmt_code, ring_code]
  simp [rng, h, mz]

end Sys2Proof
end

