-- ==== Sys2Proof/Laws/Exec.lean ====
section
/-! SUPPORT. Which meaning each instruction and event has: exec, arm by arm. -/

set_option Elab.async false

namespace Sys2Proof.Machine

theorem exec_bc (cnd : Cnd) (a : Opnd) (off : BitVec 15) (s : State) : exec (.bc cnd a off) s = execBc cnd a off s := rfl
theorem exec_call (a : Opnd) (off : BitVec 15) (s : State) : exec (.call a off) s = execCall a off s := rfl
theorem exec_jr (a : Opnd) (b : Opnd) (s : State) : exec (.jr a b) s = execJr a b s := rfl
theorem exec_loop (a : Opnd) (off : BitVec 15) (s : State) : exec (.loop a off) s = execLoop a off s := rfl
theorem exec_loopi (off : BitVec 15) (count : Word) (s : State) : exec (.loopi off count) s = execLoopi off count s := rfl
theorem exec_trap (n : BitVec 11) (s : State) : exec (.trap n) s = execTrap n s := rfl
theorem exec_brk (n : BitVec 11) (s : State) : exec (.brk n) s = execBrk n s := rfl
theorem exec_fsync (n : BitVec 11) (s : State) : exec (.fsync n) s = execFsync n s := rfl
theorem exec_csrr (a : Opnd) (r : CReg) (s : State) : exec (.csrr a r) s = execCsrr a r s := rfl
theorem exec_csrw (a : Opnd) (r : CReg) (s : State) : exec (.csrw a r) s = execCsrw a r s := rfl
theorem exec_movi (a : Opnd) (imm : Word) (s : State) : exec (.movi a imm) s = execMovi a imm s := rfl
theorem exec_adda (a : Opnd) (b : Opnd) (k : BitVec 11) (s : State) : exec (.adda a b k) s = execAdda a b k s := rfl
theorem exec_ldb (a : Opnd) (b : Opnd) (off : BitVec 5) (ord : Ord) (scp : Scp) (s : State) : exec (.ldb a b off ord scp) s = execLdb a b off ord scp s := rfl
theorem exec_ldh (a : Opnd) (b : Opnd) (off : BitVec 5) (ord : Ord) (scp : Scp) (s : State) : exec (.ldh a b off ord scp) s = execLdh a b off ord scp s := rfl
theorem exec_ldw (a : Opnd) (b : Opnd) (off : BitVec 5) (ord : Ord) (scp : Scp) (s : State) : exec (.ldw a b off ord scp) s = execLdw a b off ord scp s := rfl
theorem exec_ldd (a : Opnd) (b : Opnd) (off : BitVec 5) (ord : Ord) (scp : Scp) (s : State) : exec (.ldd a b off ord scp) s = execLdd a b off ord scp s := rfl
theorem exec_ldv (a : Opnd) (b : Opnd) (off : BitVec 5) (ord : Ord) (scp : Scp) (s : State) : exec (.ldv a b off ord scp) s = execLdv a b off ord scp s := rfl
theorem exec_ldbLone (a : Opnd) (b : Opnd) (ord : Ord) (scp : Scp) (ext : Word) (s : State) : exec (.ldbLone a b ord scp ext) s = execLdbLone a b ord scp ext s := rfl
theorem exec_ldhLone (a : Opnd) (b : Opnd) (ord : Ord) (scp : Scp) (ext : Word) (s : State) : exec (.ldhLone a b ord scp ext) s = execLdhLone a b ord scp ext s := rfl
theorem exec_ldwLone (a : Opnd) (b : Opnd) (ord : Ord) (scp : Scp) (ext : Word) (s : State) : exec (.ldwLone a b ord scp ext) s = execLdwLone a b ord scp ext s := rfl
theorem exec_lddLone (a : Opnd) (b : Opnd) (ord : Ord) (scp : Scp) (ext : Word) (s : State) : exec (.lddLone a b ord scp ext) s = execLddLone a b ord scp ext s := rfl
theorem exec_ldvLone (a : Opnd) (b : Opnd) (ord : Ord) (scp : Scp) (ext : Word) (s : State) : exec (.ldvLone a b ord scp ext) s = execLdvLone a b ord scp ext s := rfl
theorem exec_stb (a : Opnd) (b : Opnd) (off : BitVec 5) (ord : Ord) (scp : Scp) (s : State) : exec (.stb a b off ord scp) s = execStb a b off ord scp s := rfl
theorem exec_sth (a : Opnd) (b : Opnd) (off : BitVec 5) (ord : Ord) (scp : Scp) (s : State) : exec (.sth a b off ord scp) s = execSth a b off ord scp s := rfl
theorem exec_stw (a : Opnd) (b : Opnd) (off : BitVec 5) (ord : Ord) (scp : Scp) (s : State) : exec (.stw a b off ord scp) s = execStw a b off ord scp s := rfl
theorem exec_std (a : Opnd) (b : Opnd) (off : BitVec 5) (ord : Ord) (scp : Scp) (s : State) : exec (.std a b off ord scp) s = execStd a b off ord scp s := rfl
theorem exec_stv (a : Opnd) (b : Opnd) (off : BitVec 5) (ord : Ord) (scp : Scp) (s : State) : exec (.stv a b off ord scp) s = execStv a b off ord scp s := rfl
theorem exec_stbLone (a : Opnd) (b : Opnd) (ord : Ord) (scp : Scp) (ext : Word) (s : State) : exec (.stbLone a b ord scp ext) s = execStbLone a b ord scp ext s := rfl
theorem exec_sthLone (a : Opnd) (b : Opnd) (ord : Ord) (scp : Scp) (ext : Word) (s : State) : exec (.sthLone a b ord scp ext) s = execSthLone a b ord scp ext s := rfl
theorem exec_stwLone (a : Opnd) (b : Opnd) (ord : Ord) (scp : Scp) (ext : Word) (s : State) : exec (.stwLone a b ord scp ext) s = execStwLone a b ord scp ext s := rfl
theorem exec_stdLone (a : Opnd) (b : Opnd) (ord : Ord) (scp : Scp) (ext : Word) (s : State) : exec (.stdLone a b ord scp ext) s = execStdLone a b ord scp ext s := rfl
theorem exec_stvLone (a : Opnd) (b : Opnd) (ord : Ord) (scp : Scp) (ext : Word) (s : State) : exec (.stvLone a b ord scp ext) s = execStvLone a b ord scp ext s := rfl
theorem exec_ldx (a : Opnd) (b : Opnd) (c : Opnd) (size : MSize) (s : State) : exec (.ldx a b c size) s = execLdx a b c size s := rfl
theorem exec_stx (a : Opnd) (b : Opnd) (c : Opnd) (size : MSize) (s : State) : exec (.stx a b c size) s = execStx a b c size s := rfl
theorem exec_amo (op : AmoOp) (a : Opnd) (b : Opnd) (c : Opnd) (ord : Ord) (scp : Scp) (d64 : Bool) (s : State) : exec (.amo op a b c ord scp d64) s = execAmo op a b c ord scp d64 s := rfl
theorem exec_cas (a : Opnd) (b : Opnd) (c : Opnd) (ord : Ord) (scp : Scp) (d64 : Bool) (s : State) : exec (.cas a b c ord scp d64) s = execCas a b c ord scp d64 s := rfl
theorem exec_fence (kind : FKind) (scp : Scp) (e : Bool) (s : State) : exec (.fence kind scp e) s = execFence kind scp e s := rfl
theorem exec_strm (a : Opnd) (s : State) : exec (.strm a) s = execStrm a s := rfl
theorem exec_cpy (kind : CpyKind) (a : Opnd) (b : Opnd) (s : State) : exec (.cpy kind a b) s = execCpy kind a b s := rfl
theorem exec_cpseal (a : Opnd) (s : State) : exec (.cpseal a) s = execCpseal a s := rfl
theorem exec_cpwait (all : Bool) (a : Opnd) (b : Opnd) (s : State) : exec (.cpwait all a b) s = execCpwait all a b s := rfl
theorem exec_sti (a : Opnd) (b : Opnd) (off : BitVec 5) (ord : Ord) (scp : Scp) (s : State) : exec (.sti a b off ord scp) s = execSti a b off ord scp s := rfl
theorem exec_stiLone (a : Opnd) (b : Opnd) (ord : Ord) (scp : Scp) (ext : Word) (s : State) : exec (.stiLone a b ord scp ext) s = execStiLone a b ord scp ext s := rfl
theorem exec_send (a : Opnd) (b : Opnd) (s : State) : exec (.send a b) s = execSend a b s := rfl
theorem exec_sendGrp (a : Opnd) (b : Opnd) (s : State) : exec (.sendGrp a b) s = execSendGrp a b s := rfl
theorem exec_senda (a : Opnd) (b : Opnd) (s : State) : exec (.senda a b) s = execSenda a b s := rfl
theorem exec_tagsetOn (t : BitVec 8) (s : State) : exec (.tagsetOn t) s = execTagsetOn t s := rfl
theorem exec_tagsetOff (t : BitVec 8) (s : State) : exec (.tagsetOff t) s = execTagsetOff t s := rfl
theorem exec_dcarm (a : Opnd) (b : Opnd) (s : State) : exec (.dcarm a b) s = execDcarm a b s := rfl
theorem exec_dcdec (a : Opnd) (s : State) : exec (.dcdec a) s = execDcdec a s := rfl
theorem exec_gbar (k : BitVec 2) (s : State) : exec (.gbar k) s = execGbar k s := rfl
theorem exec_mgang (a : Opnd) (b : Opnd) (g : GangWord) (s : State) : exec (.mgang a b g) s = execMgang a b g s := rfl
theorem exec_mcode (a : Opnd) (s : State) : exec (.mcode a) s = execMcode a s := rfl
theorem exec_accrd (conv : Conv) (a : Opnd) (b : Opnd) (s : State) : exec (.accrd conv a b) s = execAccrd conv a b s := rfl
theorem exec_accz (ring : Ring) (first : BitVec 4) (last : BitVec 4) (s : State) : exec (.accz ring first last) s = execAccz ring first last s := rfl
theorem exec_setwin (a : Opnd) (s : State) : exec (.setwin a) s = execSetwin a s := rfl
theorem exec_setwinLone (wb : BitVec 11) (wl : BitVec 7) (s : State) : exec (.setwinLone wb wl) s = execSetwinLone wb wl s := rfl
theorem exec_getwin (a : Opnd) (s : State) : exec (.getwin a) s = execGetwin a s := rfl
theorem exec_setbnd (a : Opnd) (s : State) : exec (.setbnd a) s = execSetbnd a s := rfl
theorem exec_lend (a : Opnd) (s : State) : exec (.lend a) s = execLend a s := rfl
theorem exec_xld (a : Opnd) (s : State) : exec (.xld a) s = execXld a s := rfl
theorem exec_xst (a : Opnd) (s : State) : exec (.xst a) s = execXst a s := rfl
theorem exec_xpush (a : Opnd) (s : State) : exec (.xpush a) s = execXpush a s := rfl
theorem exec_xws (a : Opnd) (s : State) : exec (.xws a) s = execXws a s := rfl
theorem exec_add (d : Opnd) (s1 : Opnd) (s2 : Opnd) (s : State) : exec (.add d s1 s2) s = execAdd d s1 s2 s := rfl
theorem exec_sub (d : Opnd) (s1 : Opnd) (s2 : Opnd) (s : State) : exec (.sub d s1 s2) s = execSub d s1 s2 s := rfl
theorem exec_mul (d : Opnd) (s1 : Opnd) (s2 : Opnd) (s : State) : exec (.mul d s1 s2) s = execMul d s1 s2 s := rfl
theorem exec_mulh (d : Opnd) (s1 : Opnd) (s2 : Opnd) (s : State) : exec (.mulh d s1 s2) s = execMulh d s1 s2 s := rfl
theorem exec_mulhn (d : Opnd) (s1 : Opnd) (s2 : Opnd) (s : State) : exec (.mulhn d s1 s2) s = execMulhn d s1 s2 s := rfl
theorem exec_div (d : Opnd) (s1 : Opnd) (s2 : Opnd) (s : State) : exec (.div d s1 s2) s = execDiv d s1 s2 s := rfl
theorem exec_divn (d : Opnd) (s1 : Opnd) (s2 : Opnd) (s : State) : exec (.divn d s1 s2) s = execDivn d s1 s2 s := rfl
theorem exec_rem (d : Opnd) (s1 : Opnd) (s2 : Opnd) (s : State) : exec (.rem d s1 s2) s = execRem d s1 s2 s := rfl
theorem exec_remn (d : Opnd) (s1 : Opnd) (s2 : Opnd) (s : State) : exec (.remn d s1 s2) s = execRemn d s1 s2 s := rfl
theorem exec_and (d : Opnd) (s1 : Opnd) (s2 : Opnd) (s : State) : exec (.and d s1 s2) s = execAnd d s1 s2 s := rfl
theorem exec_or (d : Opnd) (s1 : Opnd) (s2 : Opnd) (s : State) : exec (.or d s1 s2) s = execOr d s1 s2 s := rfl
theorem exec_xor (d : Opnd) (s1 : Opnd) (s2 : Opnd) (s : State) : exec (.xor d s1 s2) s = execXor d s1 s2 s := rfl
theorem exec_shl (d : Opnd) (s1 : Opnd) (s2 : Opnd) (s : State) : exec (.shl d s1 s2) s = execShl d s1 s2 s := rfl
theorem exec_shr (d : Opnd) (s1 : Opnd) (s2 : Opnd) (s : State) : exec (.shr d s1 s2) s = execShr d s1 s2 s := rfl
theorem exec_sra (d : Opnd) (s1 : Opnd) (s2 : Opnd) (s : State) : exec (.sra d s1 s2) s = execSra d s1 s2 s := rfl
theorem exec_min (d : Opnd) (s1 : Opnd) (s2 : Opnd) (s : State) : exec (.min d s1 s2) s = execMin d s1 s2 s := rfl
theorem exec_max (d : Opnd) (s1 : Opnd) (s2 : Opnd) (s : State) : exec (.max d s1 s2) s = execMax d s1 s2 s := rfl
theorem exec_minn (d : Opnd) (s1 : Opnd) (s2 : Opnd) (s : State) : exec (.minn d s1 s2) s = execMinn d s1 s2 s := rfl
theorem exec_maxn (d : Opnd) (s1 : Opnd) (s2 : Opnd) (s : State) : exec (.maxn d s1 s2) s = execMaxn d s1 s2 s := rfl
theorem exec_slt (d : Opnd) (s1 : Opnd) (s2 : Opnd) (s : State) : exec (.slt d s1 s2) s = execSlt d s1 s2 s := rfl
theorem exec_sltn (d : Opnd) (s1 : Opnd) (s2 : Opnd) (s : State) : exec (.sltn d s1 s2) s = execSltn d s1 s2 s := rfl
theorem exec_seq (d : Opnd) (s1 : Opnd) (s2 : Opnd) (s : State) : exec (.seq d s1 s2) s = execSeq d s1 s2 s := rfl
theorem exec_sel (d : Opnd) (s1 : Opnd) (s2 : Opnd) (s : State) : exec (.sel d s1 s2) s = execSel d s1 s2 s := rfl
theorem exec_clz (d : Opnd) (s1 : Opnd) (s : State) : exec (.clz d s1) s = execClz d s1 s := rfl
theorem exec_popc (d : Opnd) (s1 : Opnd) (s : State) : exec (.popc d s1) s = execPopc d s1 s := rfl
theorem exec_addi (d : Opnd) (s1 : Opnd) (imm : BitVec 11) (s : State) : exec (.addi d s1 imm) s = execAddi d s1 imm s := rfl
theorem exec_andi (d : Opnd) (s1 : Opnd) (imm : BitVec 11) (s : State) : exec (.andi d s1 imm) s = execAndi d s1 imm s := rfl
theorem exec_ori (d : Opnd) (s1 : Opnd) (imm : BitVec 11) (s : State) : exec (.ori d s1 imm) s = execOri d s1 imm s := rfl
theorem exec_xori (d : Opnd) (s1 : Opnd) (imm : BitVec 11) (s : State) : exec (.xori d s1 imm) s = execXori d s1 imm s := rfl
theorem exec_shli (d : Opnd) (s1 : Opnd) (n : BitVec 5) (s : State) : exec (.shli d s1 n) s = execShli d s1 n s := rfl
theorem exec_shri (d : Opnd) (s1 : Opnd) (n : BitVec 5) (s : State) : exec (.shri d s1 n) s = execShri d s1 n s := rfl
theorem exec_srai (d : Opnd) (s1 : Opnd) (n : BitVec 5) (s : State) : exec (.srai d s1 n) s = execSrai d s1 n s := rfl
theorem exec_slti (d : Opnd) (s1 : Opnd) (imm : BitVec 11) (s : State) : exec (.slti d s1 imm) s = execSlti d s1 imm s := rfl
theorem exec_lane (d : Opnd) (s1 : Opnd) (idx : BitVec 7) (t : ETy) (s : State) : exec (.lane d s1 idx t) s = execLane d s1 idx t s := rfl
theorem exec_mv (d : Opnd) (s1 : Opnd) (s : State) : exec (.mv d s1) s = execMv d s1 s := rfl
theorem exec_ins (d : Opnd) (s1 : Opnd) (idx : BitVec 7) (t : ETy) (s : State) : exec (.ins d s1 idx t) s = execIns d s1 idx t s := rfl
theorem exec_vadd (d : Opnd) (s1 : Opnd) (s2 : Opnd) (t : ETy) (s : State) : exec (.vadd d s1 s2 t) s = execVadd d s1 s2 t s := rfl
theorem exec_vsub (d : Opnd) (s1 : Opnd) (s2 : Opnd) (t : ETy) (s : State) : exec (.vsub d s1 s2 t) s = execVsub d s1 s2 t s := rfl
theorem exec_vmul (d : Opnd) (s1 : Opnd) (s2 : Opnd) (t : ETy) (s : State) : exec (.vmul d s1 s2 t) s = execVmul d s1 s2 t s := rfl
theorem exec_vmulh (d : Opnd) (s1 : Opnd) (s2 : Opnd) (t : ETy) (s : State) : exec (.vmulh d s1 s2 t) s = execVmulh d s1 s2 t s := rfl
theorem exec_vmac (d : Opnd) (s1 : Opnd) (s2 : Opnd) (t : ETy) (s : State) : exec (.vmac d s1 s2 t) s = execVmac d s1 s2 t s := rfl
theorem exec_vmin (d : Opnd) (s1 : Opnd) (s2 : Opnd) (t : ETy) (s : State) : exec (.vmin d s1 s2 t) s = execVmin d s1 s2 t s := rfl
theorem exec_vmax (d : Opnd) (s1 : Opnd) (s2 : Opnd) (t : ETy) (s : State) : exec (.vmax d s1 s2 t) s = execVmax d s1 s2 t s := rfl
theorem exec_vand (d : Opnd) (s1 : Opnd) (s2 : Opnd) (t : ETy) (s : State) : exec (.vand d s1 s2 t) s = execVand d s1 s2 t s := rfl
theorem exec_vor (d : Opnd) (s1 : Opnd) (s2 : Opnd) (t : ETy) (s : State) : exec (.vor d s1 s2 t) s = execVor d s1 s2 t s := rfl
theorem exec_vxor (d : Opnd) (s1 : Opnd) (s2 : Opnd) (t : ETy) (s : State) : exec (.vxor d s1 s2 t) s = execVxor d s1 s2 t s := rfl
theorem exec_vshl (d : Opnd) (s1 : Opnd) (s2 : Opnd) (t : ETy) (s : State) : exec (.vshl d s1 s2 t) s = execVshl d s1 s2 t s := rfl
theorem exec_vshr (d : Opnd) (s1 : Opnd) (s2 : Opnd) (t : ETy) (s : State) : exec (.vshr d s1 s2 t) s = execVshr d s1 s2 t s := rfl
theorem exec_vsra (d : Opnd) (s1 : Opnd) (s2 : Opnd) (t : ETy) (s : State) : exec (.vsra d s1 s2 t) s = execVsra d s1 s2 t s := rfl
theorem exec_vabs (d : Opnd) (s1 : Opnd) (t : ETy) (s : State) : exec (.vabs d s1 t) s = execVabs d s1 t s := rfl
theorem exec_vadds (d : Opnd) (s1 : Opnd) (s2 : Opnd) (t : ETy) (s : State) : exec (.vadds d s1 s2 t) s = execVadds d s1 s2 t s := rfl
theorem exec_vsubs (d : Opnd) (s1 : Opnd) (s2 : Opnd) (t : ETy) (s : State) : exec (.vsubs d s1 s2 t) s = execVsubs d s1 s2 t s := rfl
theorem exec_vcmpeq (d : Opnd) (s1 : Opnd) (s2 : Opnd) (t : ETy) (s : State) : exec (.vcmpeq d s1 s2 t) s = execVcmpeq d s1 s2 t s := rfl
theorem exec_vcmplt (d : Opnd) (s1 : Opnd) (s2 : Opnd) (t : ETy) (s : State) : exec (.vcmplt d s1 s2 t) s = execVcmplt d s1 s2 t s := rfl
theorem exec_vcmple (d : Opnd) (s1 : Opnd) (s2 : Opnd) (t : ETy) (s : State) : exec (.vcmple d s1 s2 t) s = execVcmple d s1 s2 t s := rfl
theorem exec_vsel (d : Opnd) (s1 : Opnd) (s2 : Opnd) (t : ETy) (s : State) : exec (.vsel d s1 s2 t) s = execVsel d s1 s2 t s := rfl
theorem exec_vbcast (d : Opnd) (s1 : Opnd) (t : ETy) (s : State) : exec (.vbcast d s1 t) s = execVbcast d s1 t s := rfl
theorem exec_vperm (d : Opnd) (s1 : Opnd) (s2 : Opnd) (t : ETy) (s : State) : exec (.vperm d s1 s2 t) s = execVperm d s1 s2 t s := rfl
theorem exec_vrot (d : Opnd) (s1 : Opnd) (k : BitVec 7) (t : ETy) (s : State) : exec (.vrot d s1 k t) s = execVrot d s1 k t s := rfl
theorem exec_vnarrow (d : Opnd) (s1 : Opnd) (s2 : Opnd) (t : ETy) (s : State) : exec (.vnarrow d s1 s2 t) s = execVnarrow d s1 s2 t s := rfl
theorem exec_vwiden (high : Bool) (d : Opnd) (s1 : Opnd) (t : ETy) (s : State) : exec (.vwiden high d s1 t) s = execVwiden high d s1 t s := rfl
theorem exec_vred (op : RedOp) (d : Opnd) (s1 : Opnd) (t : ETy) (s : State) : exec (.vred op d s1 t) s = execVred op d s1 t s := rfl
theorem exec_vscan (d : Opnd) (s1 : Opnd) (t : ETy) (s : State) : exec (.vscan d s1 t) s = execVscan d s1 t s := rfl
theorem exec_vpackt (d : Opnd) (s1 : Opnd) (t : ETy) (s : State) : exec (.vpackt d s1 t) s = execVpackt d s1 t s := rfl
theorem exec_vunpkt (d : Opnd) (s1 : Opnd) (t : ETy) (s : State) : exec (.vunpkt d s1 t) s = execVunpkt d s1 t s := rfl
theorem exec_viota (d : Opnd) (t : ETy) (s : State) : exec (.viota d t) s = execViota d t s := rfl
theorem exec_vdot4 (d : Opnd) (s1 : Opnd) (s2 : Opnd) (t : ETy) (s : State) : exec (.vdot4 d s1 s2 t) s = execVdot4 d s1 s2 t s := rfl
theorem exec_fadd (d : Opnd) (s1 : Opnd) (s2 : Opnd) (t : ETy) (s : State) : exec (.fadd d s1 s2 t) s = execFadd d s1 s2 t s := rfl
theorem exec_fsub (d : Opnd) (s1 : Opnd) (s2 : Opnd) (t : ETy) (s : State) : exec (.fsub d s1 s2 t) s = execFsub d s1 s2 t s := rfl
theorem exec_fmul (d : Opnd) (s1 : Opnd) (s2 : Opnd) (t : ETy) (s : State) : exec (.fmul d s1 s2 t) s = execFmul d s1 s2 t s := rfl
theorem exec_fma (d : Opnd) (s1 : Opnd) (s2 : Opnd) (t : ETy) (s : State) : exec (.fma d s1 s2 t) s = execFma d s1 s2 t s := rfl
theorem exec_fms (d : Opnd) (s1 : Opnd) (s2 : Opnd) (t : ETy) (s : State) : exec (.fms d s1 s2 t) s = execFms d s1 s2 t s := rfl
theorem exec_fmin (d : Opnd) (s1 : Opnd) (s2 : Opnd) (t : ETy) (s : State) : exec (.fmin d s1 s2 t) s = execFmin d s1 s2 t s := rfl
theorem exec_fmax (d : Opnd) (s1 : Opnd) (s2 : Opnd) (t : ETy) (s : State) : exec (.fmax d s1 s2 t) s = execFmax d s1 s2 t s := rfl
theorem exec_fdiv (d : Opnd) (s1 : Opnd) (s2 : Opnd) (t : ETy) (s : State) : exec (.fdiv d s1 s2 t) s = execFdiv d s1 s2 t s := rfl
theorem exec_fsqrt (d : Opnd) (s1 : Opnd) (t : ETy) (s : State) : exec (.fsqrt d s1 t) s = execFsqrt d s1 t s := rfl
theorem exec_frcp (d : Opnd) (s1 : Opnd) (t : ETy) (s : State) : exec (.frcp d s1 t) s = execFrcp d s1 t s := rfl
theorem exec_frsq (d : Opnd) (s1 : Opnd) (t : ETy) (s : State) : exec (.frsq d s1 t) s = execFrsq d s1 t s := rfl
theorem exec_fexp2 (d : Opnd) (s1 : Opnd) (t : ETy) (s : State) : exec (.fexp2 d s1 t) s = execFexp2 d s1 t s := rfl
theorem exec_flog2 (d : Opnd) (s1 : Opnd) (t : ETy) (s : State) : exec (.flog2 d s1 t) s = execFlog2 d s1 t s := rfl
theorem exec_fcmpeq (d : Opnd) (s1 : Opnd) (s2 : Opnd) (t : ETy) (s : State) : exec (.fcmpeq d s1 s2 t) s = execFcmpeq d s1 s2 t s := rfl
theorem exec_fcmplt (d : Opnd) (s1 : Opnd) (s2 : Opnd) (t : ETy) (s : State) : exec (.fcmplt d s1 s2 t) s = execFcmplt d s1 s2 t s := rfl
theorem exec_fcmple (d : Opnd) (s1 : Opnd) (s2 : Opnd) (t : ETy) (s : State) : exec (.fcmple d s1 s2 t) s = execFcmple d s1 s2 t s := rfl
theorem exec_fclass (d : Opnd) (s1 : Opnd) (t : ETy) (s : State) : exec (.fclass d s1 t) s = execFclass d s1 t s := rfl
theorem exec_fcvt (d : Opnd) (s1 : Opnd) (t : ETy) (src : ETy) (sat : Bool) (s : State) : exec (.fcvt d s1 t src sat) s = execFcvt d s1 t src sat s := rfl
theorem exec_fcvti (d : Opnd) (s1 : Opnd) (t : ETy) (src : ETy) (s : State) : exec (.fcvti d s1 t src) s = execFcvti d s1 t src s := rfl
theorem exec_icvtf (d : Opnd) (s1 : Opnd) (t : ETy) (src : ETy) (s : State) : exec (.icvtf d s1 t src) s = execIcvtf d s1 t src s := rfl
theorem exec_fred (op : FRedOp) (d : Opnd) (s1 : Opnd) (t : ETy) (s : State) : exec (.fred op d s1 t) s = execFred op d s1 t s := rfl
theorem exec_fabs (d : Opnd) (s1 : Opnd) (t : ETy) (s : State) : exec (.fabs d s1 t) s = execFabs d s1 t s := rfl
theorem exec_fneg (d : Opnd) (s1 : Opnd) (t : ETy) (s : State) : exec (.fneg d s1 t) s = execFneg d s1 t s := rfl
theorem exec_fsgnj (d : Opnd) (s1 : Opnd) (s2 : Opnd) (t : ETy) (s : State) : exec (.fsgnj d s1 s2 t) s = execFsgnj d s1 s2 t s := rfl
theorem exec_tokb (s1 : Opnd) (off : BitVec 11) (s : State) : exec (.tokb s1 off) s = execTokb s1 off s := rfl
theorem exec_tokj (s1 : Opnd) (s : State) : exec (.tokj s1) s = execTokj s1 s := rfl
theorem exec_lateWriteLanding (core : Word) (ue : Bool) (s : State) : exec (.lateWriteLanding core ue) s = execLateWriteLanding core ue s := rfl
theorem exec_messageDelivery (n : Nat) (s : State) : exec (.messageDelivery n) s = execMessageDelivery n s := rfl
theorem exec_sendAnswer (core : Word) (ans : SendAns) (s : State) : exec (.sendAnswer core ans) s = execSendAnswer core ans s := rfl
theorem exec_handlerStart (core : Word) (s : State) : exec (.handlerStart core) s = execHandlerStart core s := rfl
theorem exec_preempt (core : Word) (s : State) : exec (.preempt core) s = execPreempt core s := rfl
theorem exec_preemptResume (core : Word) (s : State) : exec (.preemptResume core) s = execPreemptResume core s := rfl
theorem exec_serviceDispatch (core : Word) (pc : Word) (wb : Nat) (wl : Nat) (pb : Nat) (pl : Nat) (proc : Nat) (s : State) : exec (.serviceDispatch core pc wb wl pb pl proc) s = execServiceDispatch core pc wb wl pb pl proc s := rfl
theorem exec_dctDecrement (n : Nat) (s : State) : exec (.dctDecrement n) s = execDctDecrement n s := rfl
theorem exec_barrierPhaseComplete (grp : Nat) (s : State) : exec (.barrierPhaseComplete grp) s = execBarrierPhaseComplete grp s := rfl
theorem exec_copyJobStart (cl : Nat) (j : Nat) (s : State) : exec (.copyJobStart cl j) s = execCopyJobStart cl j s := rfl
theorem exec_copyBeat (cl : Nat) (j : Nat) (ue : Bool) (s : State) : exec (.copyBeat cl j ue) s = execCopyBeat cl j ue s := rfl
theorem exec_streamBeat (core : Word) (n : Nat) (s : State) : exec (.streamBeat core n) s = execStreamBeat core n s := rfl
theorem exec_heldRemoteAccess (n : Nat) (s : State) : exec (.heldRemoteAccess n) s = execHeldRemoteAccess n s := rfl
theorem exec_imageWrite (cl : Nat) (s : State) : exec (.imageWrite cl) s = execImageWrite cl s := rfl
theorem exec_gangStart (cl : Nat) (s : State) : exec (.gangStart cl) s = execGangStart cl s := rfl
theorem exec_gangto (core : Word) (s : State) : exec (.gangto core) s = execGangto core s := rfl
theorem exec_gangStepRetire (cl : Nat) (ue : Nat) (s : State) : exec (.gangStepRetire cl ue) s = execGangStepRetire cl ue s := rfl
theorem exec_refreshWindow (core : Word) (opens : Bool) (s : State) : exec (.refreshWindow core opens) s = execRefreshWindow core opens s := rfl
theorem exec_harvestDispatch (core : Word) (s : State) : exec (.harvestDispatch core) s = execHarvestDispatch core s := rfl
theorem exec_revocation (core : Word) (s : State) : exec (.revocation core) s = execRevocation core s := rfl
theorem exec_revocationComplete (core : Word) (s : State) : exec (.revocationComplete core) s = execRevocationComplete core s := rfl
theorem exec_lendingResume (core : Word) (s : State) : exec (.lendingResume core) s = execLendingResume core s := rfl
theorem exec_parkedContextResume (core : Word) (s : State) : exec (.parkedContextResume core) s = execParkedContextResume core s := rfl
theorem exec_parkedContextMove (core : Word) (bank : Nat) (dest : Option (Word × Nat)) (s : State) : exec (.parkedContextMove core bank dest) s = execParkedContextMove core bank dest s := rfl
theorem exec_pageWalk (core : Word) (s : State) : exec (.pageWalk core) s = execPageWalk core s := rfl
theorem exec_tlbInvalidate (part : Nat) (proc : Option Nat) (va : Nat) (len : Nat) (s : State) : exec (.tlbInvalidate part proc va len) s = execTlbInvalidate part proc va len s := rfl
theorem exec_translationCompletion (core : Word) (ok : Bool) (page : Nat) (logSize : Nat) (r : Bool) (w : Bool) (s : State) : exec (.translationCompletion core ok page logSize r w) s = execTranslationCompletion core ok page logSize r w s := rfl
theorem exec_pageRequestGroupResponse (core : Word) (code : PrgCode) (s : State) : exec (.pageRequestGroupResponse core code) s = execPageRequestGroupResponse core code s := rfl
theorem exec_invalidateRequest (pasid : Nat) (page : Nat) (logSize : Nat) (s : State) : exec (.invalidateRequest pasid page logSize) s = execInvalidateRequest pasid page logSize s := rfl
theorem exec_transferBeat (core : Word) (j : Nat) (ue : Bool) (s : State) : exec (.transferBeat core j ue) s = execTransferBeat core j ue s := rfl
theorem exec_pushCompletionMessage (core : Word) (j : Nat) (s : State) : exec (.pushCompletionMessage core j) s = execPushCompletionMessage core j s := rfl
theorem exec_piWrite (q : Nat) (v : Word) (s : State) : exec (.piWrite q v) s = execPiWrite q v s := rfl
theorem exec_clrf (q : Nat) (s : State) : exec (.clrf q) s = execClrf q s := rfl
theorem exec_stopQueue (q : Nat) (s : State) : exec (.stopQueue q) s = execStopQueue q s := rfl
theorem exec_fciWrite (q : Nat) (v : Word) (s : State) : exec (.fciWrite q v) s = execFciWrite q v s := rfl
theorem exec_notifyPageOtherWrite (q : Nat) (off : Nat) (v : Word) (s : State) : exec (.notifyPageOtherWrite q off v) s = execNotifyPageOtherWrite q off v s := rfl
theorem exec_messageRecord (q : Nat) (s : State) : exec (.messageRecord q) s = execMessageRecord q s := rfl
theorem exec_launchRecord (q : Nat) (s : State) : exec (.launchRecord q) s = execLaunchRecord q s := rfl
theorem exec_signalRecord (q : Nat) (s : State) : exec (.signalRecord q) s = execSignalRecord q s := rfl
theorem exec_energyBudgetRecord (q : Nat) (s : State) : exec (.energyBudgetRecord q) s = execEnergyBudgetRecord q s := rfl
theorem exec_walkerIssue (n : Nat) (s : State) : exec (.walkerIssue n) s = execWalkerIssue n s := rfl
theorem exec_kernelComplete (q : Nat) (recNo : Word) (s : State) : exec (.kernelComplete q recNo) s = execKernelComplete q recNo s := rfl
theorem exec_completionSignal (q : Nat) (s : State) : exec (.completionSignal q) s = execCompletionSignal q s := rfl
theorem exec_wheelTurn (part : Nat) (s : State) : exec (.wheelTurn part) s = execWheelTurn part s := rfl
theorem exec_tlimitExpiry (q : Nat) (recNo : Word) (s : State) : exec (.tlimitExpiry q recNo) s = execTlimitExpiry q recNo s := rfl
theorem exec_ladderDrainComplete (q : Nat) (s : State) : exec (.ladderDrainComplete q) s = execLadderDrainComplete q s := rfl
theorem exec_ladderT1Expiry (q : Nat) (s : State) : exec (.ladderT1Expiry q) s = execLadderT1Expiry q s := rfl
theorem exec_ladderSaveComplete (q : Nat) (s : State) : exec (.ladderSaveComplete q) s = execLadderSaveComplete q s := rfl
theorem exec_ladderT2Expiry (q : Nat) (s : State) : exec (.ladderT2Expiry q) s = execLadderT2Expiry q s := rfl
theorem exec_ladderReset (q : Nat) (s : State) : exec (.ladderReset q) s = execLadderReset q s := rfl
theorem exec_queueRestore (q : Nat) (s : State) : exec (.queueRestore q) s = execQueueRestore q s := rfl
theorem exec_processKill (proc : Nat) (s : State) : exec (.processKill proc) s = execProcessKill proc s := rfl
theorem exec_partitionChange (part : Nat) (cores : PartCores) (room : PartRoom) (s : State) : exec (.partitionChange part cores room) s = execPartitionChange part cores room s := rfl
theorem exec_queueCreate (q : Nat) (desc : List Word) (s : State) : exec (.queueCreate q desc) s = execQueueCreate q desc s := rfl
theorem exec_processChange (cl : Nat) (s : State) : exec (.processChange cl) s = execProcessChange cl s := rfl
theorem exec_meteringInterval (cl : Nat) (s : State) : exec (.meteringInterval cl) s = execMeteringInterval cl s := rfl
theorem exec_clockChange (cl : Nat) (n : Nat) (s : State) : exec (.clockChange cl n) s = execClockChange cl n s := rfl
theorem exec_pairRollback (core : Word) (s : State) : exec (.pairRollback core) s = execPairRollback core s := rfl
theorem exec_linkFlit (link : Nat) (seq : Nat) (crcOk : Bool) (s : State) : exec (.linkFlit link seq crcOk) s = execLinkFlit link seq crcOk s := rfl
theorem exec_linkRetrain (link : Nat) (ok : Bool) (s : State) : exec (.linkRetrain link ok) s = execLinkRetrain link ok s := rfl
theorem exec_durableReplay (q : Nat) (s : State) : exec (.durableReplay q) s = execDurableReplay q s := rfl
theorem exec_moduleLoad (part proc : Nat) (file : List Byte) (pc : Word) (ins : LoadIns) (s : State) : exec (.moduleLoad part proc file pc ins) s = execModuleLoad part proc file pc ins s := rfl
theorem exec_moduleUnload (proc : Nat) (handle : Nat) (s : State) : exec (.moduleUnload proc handle) s = execModuleUnload proc handle s := rfl
theorem exec_weightStoreOpen (part : Nat) (s : State) : exec (.weightStoreOpen part) s = execWeightStoreOpen part s := rfl
theorem exec_weightStoreClose (part : Nat) (s : State) : exec (.weightStoreClose part) s = execWeightStoreClose part s := rfl
theorem exec_keySlotLoad (slot : Nat) (keys : Option (BitVec 256 × BitVec 256)) (s : State) : exec (.keySlotLoad slot keys) s = execKeySlotLoad slot keys s := rfl
theorem exec_coreReset (core : Word) (s : State) : exec (.coreReset core) s = execCoreReset core s := rfl
theorem exec_firmwareUpdate (image : List Byte) (version : Nat) (sigOff : Nat) (s : State) : exec (.firmwareUpdate image version sigOff) s = execFirmwareUpdate image version sigOff s := rfl
theorem exec_reducedService (s : State) : exec .reducedService s = execReducedService s := rfl
theorem exec_fullService (d : ServiceDesc) (s : State) : exec (.fullService d) s = execFullService d s := rfl
theorem exec_signedRecord (file : List Byte) (s : State) : exec (.signedRecord file) s = execSignedRecord file s := rfl
theorem exec_negotiateAlgorithms (sha3 : Bool) (mldsa : Bool) (s : State) : exec (.negotiateAlgorithms sha3 mldsa) s = execNegotiateAlgorithms sha3 mldsa s := rfl
theorem exec_challenge (nonce : BitVec 256) (s : State) : exec (.challenge nonce) s = execChallenge nonce s := rfl
theorem exec_getMeasurements (index : Nat) (s : State) : exec (.getMeasurements index) s = execGetMeasurements index s := rfl
theorem exec_illegalEncoding (ari : Bool) (reason : Nat) (word : Word) (s : State) : exec (.illegalEncoding ari reason word) s = execIllegalEncoding ari reason word s := rfl
theorem exec_writePerformed (core : Word) (s : State) : exec (.writePerformed core) s = execWritePerformed core s := rfl
theorem exec_malformedCommandRecord (q : Nat) (s : State) : exec (.malformedCommandRecord q) s = execMalformedCommandRecord q s := rfl
theorem exec_completionTimeout (core : Word) (s : State) : exec (.completionTimeout core) s = execCompletionTimeout core s := rfl
theorem exec_scrub (core : Word) (line : Nat) (corrected : Bool) (s : State) : exec (.scrub core line corrected) s = execScrub core line corrected s := rfl
theorem exec_pageTableWrite (key : Nat) (entry : DWord) (s : State) : exec (.pageTableWrite key entry) s = execPageTableWrite key entry s := rfl
theorem exec_l2HitFill (core : Word) (s : State) : exec (.l2HitFill core) s = execL2HitFill core s := rfl
theorem exec_cnop (s : State) : exec (.cnop) s = execCnop s := rfl
theorem exec_loopPop (s : State) : exec (.loopPop) s = execLoopPop s := rfl
theorem exec_jtok (s : State) : exec (.jtok) s = execJtok s := rfl
theorem exec_eret (s : State) : exec (.eret) s = execEret s := rfl
theorem exec_ifence (s : State) : exec (.ifence) s = execIfence s := rfl
theorem exec_rls (s : State) : exec (.rls) s = execRls s := rfl
theorem exec_done (s : State) : exec (.done) s = execDone s := rfl
theorem exec_reclaim (s : State) : exec (.reclaim) s = execReclaim s := rfl
theorem exec_ckpt (s : State) : exec (.ckpt) s = execCkpt s := rfl
theorem exec_anop (s : State) : exec (.anop) s = execAnop s := rfl
theorem exec_fetch (s : State) : exec (.fetch) s = execFetch s := rfl
theorem exec_strdl (s : State) : exec (.strdl) s = execStrdl s := rfl
theorem exec_trapEntry (s : State) : exec (.trapEntry) s = execTrapEntry s := rfl
theorem exec_kernelStop (s : State) : exec (.kernelStop) s = execKernelStop s := rfl
theorem exec_tlbInvalidateComplete (s : State) : exec (.tlbInvalidateComplete) s = execTlbInvalidateComplete s := rfl
theorem exec_invalidationCompletion (s : State) : exec (.invalidationCompletion) s = execInvalidationCompletion s := rfl
theorem exec_overcurrentStep (s : State) : exec (.overcurrentStep) s = execOvercurrentStep s := rfl
theorem exec_firmwareHeartbeat (s : State) : exec (.firmwareHeartbeat) s = execFirmwareHeartbeat s := rfl
theorem exec_firmwareHeartbeatMiss (s : State) : exec (.firmwareHeartbeatMiss) s = execFirmwareHeartbeatMiss s := rfl
theorem exec_powerOn (s : State) : exec (.powerOn) s = execPowerOn s := rfl
theorem exec_getVersion (s : State) : exec (.getVersion) s = execGetVersion s := rfl
theorem exec_getCapabilities (s : State) : exec (.getCapabilities) s = execGetCapabilities s := rfl
theorem exec_getDigests (s : State) : exec (.getDigests) s = execGetDigests s := rfl
theorem exec_getCertificate (s : State) : exec (.getCertificate) s = execGetCertificate s := rfl
theorem exec_priReenable (s : State) : exec .priReenable s = execPriReenable s := rfl

/-- The effect of an arithmetic word, beside its result, leaves the backlog, the repetition, the window and the one
that waits (R13, R26, R259). -/
def Narrow (f : BEnt → Row → List Row → State → ARes) : Prop :=
  ∀ e old rs s s1 v n, f e old rs s = .go s1 v n →
    s1.core.slot.backlog = s.core.slot.backlog ∧ s1.core.slot.rep = s.core.slot.rep ∧ s1.core.slot.winNext = s.core.slot.winNext ∧
    s1.core.slot.wb = s.core.slot.wb ∧ s1.core.slot.wl = s.core.slot.wl

/-- Every arithmetic instruction takes the common course of `arith`, with an effect of its own (R13, R18, R20, R26, R27). -/
theorem arith_exec (i : Instr) (a : AOps) (h : aOps i = some a) : ∃ f, (∀ s, exec i s = arith i f s) ∧ Narrow f := by
  cases i with
  | anop => exact ⟨_, fun s => by rw [exec_anop]; unfold execAnop; rfl, by intro _ _ _ _ _ _ _ g; cases g; exact ⟨rfl, rfl, rfl, rfl, rfl⟩⟩
  | add => exact ⟨_, fun s => by rw [exec_add]; unfold execAdd; rfl, by intro _ _ _ _ _ _ _ g; cases g; exact ⟨rfl, rfl, rfl, rfl, rfl⟩⟩
  | sub => exact ⟨_, fun s => by rw [exec_sub]; unfold execSub; rfl, by intro _ _ _ _ _ _ _ g; cases g; exact ⟨rfl, rfl, rfl, rfl, rfl⟩⟩
  | mul => exact ⟨_, fun s => by rw [exec_mul]; unfold execMul; rfl, by intro _ _ _ _ _ _ _ g; cases g; exact ⟨rfl, rfl, rfl, rfl, rfl⟩⟩
  | mulh => exact ⟨_, fun s => by rw [exec_mulh]; unfold execMulh; rfl, by intro _ _ _ _ _ _ _ g; cases g; exact ⟨rfl, rfl, rfl, rfl, rfl⟩⟩
  | mulhn => exact ⟨_, fun s => by rw [exec_mulhn]; unfold execMulhn; rfl, by intro _ _ _ _ _ _ _ g; cases g; exact ⟨rfl, rfl, rfl, rfl, rfl⟩⟩
  | div => exact ⟨_, fun s => by rw [exec_div]; unfold execDiv; rfl, by intro _ _ _ _ _ _ _ g; dsimp only at g; split at g <;> cases g; exact ⟨rfl, rfl, rfl, rfl, rfl⟩⟩
  | divn => exact ⟨_, fun s => by rw [exec_divn]; unfold execDivn; rfl, by intro _ _ _ _ _ _ _ g; dsimp only at g; split at g <;> cases g; exact ⟨rfl, rfl, rfl, rfl, rfl⟩⟩
  | rem => exact ⟨_, fun s => by rw [exec_rem]; unfold execRem; rfl, by intro _ _ _ _ _ _ _ g; dsimp only at g; split at g <;> cases g; exact ⟨rfl, rfl, rfl, rfl, rfl⟩⟩
  | remn => exact ⟨_, fun s => by rw [exec_remn]; unfold execRemn; rfl, by intro _ _ _ _ _ _ _ g; dsimp only at g; split at g <;> cases g; exact ⟨rfl, rfl, rfl, rfl, rfl⟩⟩
  | and => exact ⟨_, fun s => by rw [exec_and]; unfold execAnd; rfl, by intro _ _ _ _ _ _ _ g; cases g; exact ⟨rfl, rfl, rfl, rfl, rfl⟩⟩
  | or => exact ⟨_, fun s => by rw [exec_or]; unfold execOr; rfl, by intro _ _ _ _ _ _ _ g; cases g; exact ⟨rfl, rfl, rfl, rfl, rfl⟩⟩
  | xor => exact ⟨_, fun s => by rw [exec_xor]; unfold execXor; rfl, by intro _ _ _ _ _ _ _ g; cases g; exact ⟨rfl, rfl, rfl, rfl, rfl⟩⟩
  | shl => exact ⟨_, fun s => by rw [exec_shl]; unfold execShl; rfl, by intro _ _ _ _ _ _ _ g; cases g; exact ⟨rfl, rfl, rfl, rfl, rfl⟩⟩
  | shr => exact ⟨_, fun s => by rw [exec_shr]; unfold execShr; rfl, by intro _ _ _ _ _ _ _ g; cases g; exact ⟨rfl, rfl, rfl, rfl, rfl⟩⟩
  | sra => exact ⟨_, fun s => by rw [exec_sra]; unfold execSra; rfl, by intro _ _ _ _ _ _ _ g; cases g; exact ⟨rfl, rfl, rfl, rfl, rfl⟩⟩
  | min => exact ⟨_, fun s => by rw [exec_min]; unfold execMin; rfl, by intro _ _ _ _ _ _ _ g; dsimp only [pushToken] at g; (repeat' split at g) <;> cases g <;> exact ⟨rfl, rfl, rfl, rfl, rfl⟩⟩
  | max => exact ⟨_, fun s => by rw [exec_max]; unfold execMax; rfl, by intro _ _ _ _ _ _ _ g; dsimp only [pushToken] at g; (repeat' split at g) <;> cases g <;> exact ⟨rfl, rfl, rfl, rfl, rfl⟩⟩
  | minn => exact ⟨_, fun s => by rw [exec_minn]; unfold execMinn; rfl, by intro _ _ _ _ _ _ _ g; dsimp only [pushToken] at g; (repeat' split at g) <;> cases g <;> exact ⟨rfl, rfl, rfl, rfl, rfl⟩⟩
  | maxn => exact ⟨_, fun s => by rw [exec_maxn]; unfold execMaxn; rfl, by intro _ _ _ _ _ _ _ g; dsimp only [pushToken] at g; (repeat' split at g) <;> cases g <;> exact ⟨rfl, rfl, rfl, rfl, rfl⟩⟩
  | slt => exact ⟨_, fun s => by rw [exec_slt]; unfold execSlt; rfl, by intro _ _ _ _ _ _ _ g; cases g; exact ⟨rfl, rfl, rfl, rfl, rfl⟩⟩
  | sltn => exact ⟨_, fun s => by rw [exec_sltn]; unfold execSltn; rfl, by intro _ _ _ _ _ _ _ g; cases g; exact ⟨rfl, rfl, rfl, rfl, rfl⟩⟩
  | seq => exact ⟨_, fun s => by rw [exec_seq]; unfold execSeq; rfl, by intro _ _ _ _ _ _ _ g; cases g; exact ⟨rfl, rfl, rfl, rfl, rfl⟩⟩
  | sel => exact ⟨_, fun s => by rw [exec_sel]; unfold execSel; rfl, by intro _ _ _ _ _ _ _ g; dsimp only [pushToken] at g; (repeat' split at g) <;> cases g <;> exact ⟨rfl, rfl, rfl, rfl, rfl⟩⟩
  | clz => exact ⟨_, fun s => by rw [exec_clz]; unfold execClz; rfl, by intro _ _ _ _ _ _ _ g; cases g; exact ⟨rfl, rfl, rfl, rfl, rfl⟩⟩
  | popc => exact ⟨_, fun s => by rw [exec_popc]; unfold execPopc; rfl, by intro _ _ _ _ _ _ _ g; cases g; exact ⟨rfl, rfl, rfl, rfl, rfl⟩⟩
  | mv => exact ⟨_, fun s => by rw [exec_mv]; unfold execMv; rfl, by intro _ _ _ _ _ _ _ g; cases g; exact ⟨rfl, rfl, rfl, rfl, rfl⟩⟩
  | addi => exact ⟨_, fun s => by rw [exec_addi]; unfold execAddi; rfl, by intro _ _ _ _ _ _ _ g; cases g; exact ⟨rfl, rfl, rfl, rfl, rfl⟩⟩
  | andi => exact ⟨_, fun s => by rw [exec_andi]; unfold execAndi; rfl, by intro _ _ _ _ _ _ _ g; cases g; exact ⟨rfl, rfl, rfl, rfl, rfl⟩⟩
  | ori => exact ⟨_, fun s => by rw [exec_ori]; unfold execOri; rfl, by intro _ _ _ _ _ _ _ g; cases g; exact ⟨rfl, rfl, rfl, rfl, rfl⟩⟩
  | xori => exact ⟨_, fun s => by rw [exec_xori]; unfold execXori; rfl, by intro _ _ _ _ _ _ _ g; cases g; exact ⟨rfl, rfl, rfl, rfl, rfl⟩⟩
  | slti => exact ⟨_, fun s => by rw [exec_slti]; unfold execSlti; rfl, by intro _ _ _ _ _ _ _ g; cases g; exact ⟨rfl, rfl, rfl, rfl, rfl⟩⟩
  | shli => exact ⟨_, fun s => by rw [exec_shli]; unfold execShli; rfl, by intro _ _ _ _ _ _ _ g; cases g; exact ⟨rfl, rfl, rfl, rfl, rfl⟩⟩
  | shri => exact ⟨_, fun s => by rw [exec_shri]; unfold execShri; rfl, by intro _ _ _ _ _ _ _ g; cases g; exact ⟨rfl, rfl, rfl, rfl, rfl⟩⟩
  | srai => exact ⟨_, fun s => by rw [exec_srai]; unfold execSrai; rfl, by intro _ _ _ _ _ _ _ g; cases g; exact ⟨rfl, rfl, rfl, rfl, rfl⟩⟩
  | lane => exact ⟨_, fun s => by rw [exec_lane]; unfold execLane; rfl, by intro _ _ _ _ _ _ _ g; cases g; exact ⟨rfl, rfl, rfl, rfl, rfl⟩⟩
  | ins => exact ⟨_, fun s => by rw [exec_ins]; unfold execIns; rfl, by intro _ _ _ _ _ _ _ g; cases g; exact ⟨rfl, rfl, rfl, rfl, rfl⟩⟩
  | vadd => exact ⟨_, fun s => by rw [exec_vadd]; unfold execVadd elementwise vector; rfl, by intro _ _ _ _ _ _ _ g; cases g; exact ⟨rfl, rfl, rfl, rfl, rfl⟩⟩
  | vsub => exact ⟨_, fun s => by rw [exec_vsub]; unfold execVsub elementwise vector; rfl, by intro _ _ _ _ _ _ _ g; cases g; exact ⟨rfl, rfl, rfl, rfl, rfl⟩⟩
  | vmul => exact ⟨_, fun s => by rw [exec_vmul]; unfold execVmul elementwise vector; rfl, by intro _ _ _ _ _ _ _ g; cases g; exact ⟨rfl, rfl, rfl, rfl, rfl⟩⟩
  | vmulh => exact ⟨_, fun s => by rw [exec_vmulh]; unfold execVmulh elementwise vector; rfl, by intro _ _ _ _ _ _ _ g; cases g; exact ⟨rfl, rfl, rfl, rfl, rfl⟩⟩
  | vmin => exact ⟨_, fun s => by rw [exec_vmin]; unfold execVmin elementwise vector; rfl, by intro _ _ _ _ _ _ _ g; cases g; exact ⟨rfl, rfl, rfl, rfl, rfl⟩⟩
  | vmax => exact ⟨_, fun s => by rw [exec_vmax]; unfold execVmax elementwise vector; rfl, by intro _ _ _ _ _ _ _ g; cases g; exact ⟨rfl, rfl, rfl, rfl, rfl⟩⟩
  | vand => exact ⟨_, fun s => by rw [exec_vand]; unfold execVand bitwise vector; rfl, by intro _ _ _ _ _ _ _ g; cases g; exact ⟨rfl, rfl, rfl, rfl, rfl⟩⟩
  | vor => exact ⟨_, fun s => by rw [exec_vor]; unfold execVor bitwise vector; rfl, by intro _ _ _ _ _ _ _ g; cases g; exact ⟨rfl, rfl, rfl, rfl, rfl⟩⟩
  | vxor => exact ⟨_, fun s => by rw [exec_vxor]; unfold execVxor bitwise vector; rfl, by intro _ _ _ _ _ _ _ g; cases g; exact ⟨rfl, rfl, rfl, rfl, rfl⟩⟩
  | vshl => exact ⟨_, fun s => by rw [exec_vshl]; unfold execVshl bitwise vector; rfl, by intro _ _ _ _ _ _ _ g; cases g; exact ⟨rfl, rfl, rfl, rfl, rfl⟩⟩
  | vshr => exact ⟨_, fun s => by rw [exec_vshr]; unfold execVshr bitwise vector; rfl, by intro _ _ _ _ _ _ _ g; cases g; exact ⟨rfl, rfl, rfl, rfl, rfl⟩⟩
  | vsra => exact ⟨_, fun s => by rw [exec_vsra]; unfold execVsra bitwise vector; rfl, by intro _ _ _ _ _ _ _ g; cases g; exact ⟨rfl, rfl, rfl, rfl, rfl⟩⟩
  | vadds => exact ⟨_, fun s => by rw [exec_vadds]; unfold execVadds elementwise vector; rfl, by intro _ _ _ _ _ _ _ g; cases g; exact ⟨rfl, rfl, rfl, rfl, rfl⟩⟩
  | vsubs => exact ⟨_, fun s => by rw [exec_vsubs]; unfold execVsubs elementwise vector; rfl, by intro _ _ _ _ _ _ _ g; cases g; exact ⟨rfl, rfl, rfl, rfl, rfl⟩⟩
  | vcmpeq => exact ⟨_, fun s => by rw [exec_vcmpeq]; unfold execVcmpeq elementwise vector; rfl, by intro _ _ _ _ _ _ _ g; cases g; exact ⟨rfl, rfl, rfl, rfl, rfl⟩⟩
  | vcmplt => exact ⟨_, fun s => by rw [exec_vcmplt]; unfold execVcmplt elementwise vector; rfl, by intro _ _ _ _ _ _ _ g; cases g; exact ⟨rfl, rfl, rfl, rfl, rfl⟩⟩
  | vcmple => exact ⟨_, fun s => by rw [exec_vcmple]; unfold execVcmple elementwise vector; rfl, by intro _ _ _ _ _ _ _ g; cases g; exact ⟨rfl, rfl, rfl, rfl, rfl⟩⟩
  | vperm => exact ⟨_, fun s => by rw [exec_vperm]; unfold execVperm vector; rfl, by intro _ _ _ _ _ _ _ g; cases g; exact ⟨rfl, rfl, rfl, rfl, rfl⟩⟩
  | vnarrow => exact ⟨_, fun s => by rw [exec_vnarrow]; unfold execVnarrow; rfl, by intro _ _ _ _ _ _ _ g; cases g; exact ⟨rfl, rfl, rfl, rfl, rfl⟩⟩
  | vdot4 => exact ⟨_, fun s => by rw [exec_vdot4]; unfold execVdot4 vector; rfl, by intro _ _ _ _ _ _ _ g; cases g; exact ⟨rfl, rfl, rfl, rfl, rfl⟩⟩
  | fadd => exact ⟨_, fun s => by rw [exec_fadd]; unfold execFadd fElem floating; rfl, by intro _ _ _ _ _ _ _ g; dsimp only at g; split at g <;> cases g; exact ⟨rfl, rfl, rfl, rfl, rfl⟩⟩
  | fsub => exact ⟨_, fun s => by rw [exec_fsub]; unfold execFsub fElem floating; rfl, by intro _ _ _ _ _ _ _ g; dsimp only at g; split at g <;> cases g; exact ⟨rfl, rfl, rfl, rfl, rfl⟩⟩
  | fmul => exact ⟨_, fun s => by rw [exec_fmul]; unfold execFmul fElem floating; rfl, by intro _ _ _ _ _ _ _ g; dsimp only at g; split at g <;> cases g; exact ⟨rfl, rfl, rfl, rfl, rfl⟩⟩
  | fmin => exact ⟨_, fun s => by rw [exec_fmin]; unfold execFmin fElem floating; rfl, by intro _ _ _ _ _ _ _ g; dsimp only at g; split at g <;> cases g; exact ⟨rfl, rfl, rfl, rfl, rfl⟩⟩
  | fmax => exact ⟨_, fun s => by rw [exec_fmax]; unfold execFmax fElem floating; rfl, by intro _ _ _ _ _ _ _ g; dsimp only at g; split at g <;> cases g; exact ⟨rfl, rfl, rfl, rfl, rfl⟩⟩
  | fdiv => exact ⟨_, fun s => by rw [exec_fdiv]; unfold execFdiv fElem floating; rfl, by intro _ _ _ _ _ _ _ g; dsimp only at g; split at g <;> cases g; exact ⟨rfl, rfl, rfl, rfl, rfl⟩⟩
  | fcmpeq => exact ⟨_, fun s => by rw [exec_fcmpeq]; unfold execFcmpeq fElem floating; rfl, by intro _ _ _ _ _ _ _ g; dsimp only at g; split at g <;> cases g; exact ⟨rfl, rfl, rfl, rfl, rfl⟩⟩
  | fcmplt => exact ⟨_, fun s => by rw [exec_fcmplt]; unfold execFcmplt fElem floating; rfl, by intro _ _ _ _ _ _ _ g; dsimp only at g; split at g <;> cases g; exact ⟨rfl, rfl, rfl, rfl, rfl⟩⟩
  | fcmple => exact ⟨_, fun s => by rw [exec_fcmple]; unfold execFcmple fElem floating; rfl, by intro _ _ _ _ _ _ _ g; dsimp only at g; split at g <;> cases g; exact ⟨rfl, rfl, rfl, rfl, rfl⟩⟩
  | fsgnj => exact ⟨_, fun s => by rw [exec_fsgnj]; unfold execFsgnj; rfl, by intro _ _ _ _ _ _ _ g; cases g; exact ⟨rfl, rfl, rfl, rfl, rfl⟩⟩
  | vsel => exact ⟨_, fun s => by rw [exec_vsel]; unfold execVsel bitwise vector; rfl, by intro _ _ _ _ _ _ _ g; cases g; exact ⟨rfl, rfl, rfl, rfl, rfl⟩⟩
  | vmac => exact ⟨_, fun s => by rw [exec_vmac]; unfold execVmac elementwise vector; rfl, by intro _ _ _ _ _ _ _ g; cases g; exact ⟨rfl, rfl, rfl, rfl, rfl⟩⟩
  | fma => exact ⟨_, fun s => by rw [exec_fma]; unfold execFma fElem floating; rfl, by intro _ _ _ _ _ _ _ g; dsimp only at g; split at g <;> cases g; exact ⟨rfl, rfl, rfl, rfl, rfl⟩⟩
  | fms => exact ⟨_, fun s => by rw [exec_fms]; unfold execFms fElem floating; rfl, by intro _ _ _ _ _ _ _ g; dsimp only at g; split at g <;> cases g; exact ⟨rfl, rfl, rfl, rfl, rfl⟩⟩
  | vabs => exact ⟨_, fun s => by rw [exec_vabs]; unfold execVabs elementwise vector; rfl, by intro _ _ _ _ _ _ _ g; cases g; exact ⟨rfl, rfl, rfl, rfl, rfl⟩⟩
  | vbcast => exact ⟨_, fun s => by rw [exec_vbcast]; unfold execVbcast vector; rfl, by intro _ _ _ _ _ _ _ g; cases g; exact ⟨rfl, rfl, rfl, rfl, rfl⟩⟩
  | vscan => exact ⟨_, fun s => by rw [exec_vscan]; unfold execVscan vector; rfl, by intro _ _ _ _ _ _ _ g; cases g; exact ⟨rfl, rfl, rfl, rfl, rfl⟩⟩
  | vpackt => exact ⟨_, fun s => by rw [exec_vpackt]; unfold execVpackt vector; rfl, by intro _ _ _ _ _ _ _ g; dsimp only [pushToken] at g; (repeat' split at g) <;> cases g <;> exact ⟨rfl, rfl, rfl, rfl, rfl⟩⟩
  | vunpkt => exact ⟨_, fun s => by rw [exec_vunpkt]; unfold execVunpkt; rfl, by intro _ _ _ _ _ _ _ g; dsimp only [pushToken] at g; (repeat' split at g) <;> cases g <;> exact ⟨rfl, rfl, rfl, rfl, rfl⟩⟩
  | fsqrt => exact ⟨_, fun s => by rw [exec_fsqrt]; unfold execFsqrt fElem floating; rfl, by intro _ _ _ _ _ _ _ g; dsimp only at g; split at g <;> cases g; exact ⟨rfl, rfl, rfl, rfl, rfl⟩⟩
  | frcp => exact ⟨_, fun s => by rw [exec_frcp]; unfold execFrcp fElem floating; rfl, by intro _ _ _ _ _ _ _ g; dsimp only at g; split at g <;> cases g; exact ⟨rfl, rfl, rfl, rfl, rfl⟩⟩
  | frsq => exact ⟨_, fun s => by rw [exec_frsq]; unfold execFrsq fElem floating; rfl, by intro _ _ _ _ _ _ _ g; dsimp only at g; split at g <;> cases g; exact ⟨rfl, rfl, rfl, rfl, rfl⟩⟩
  | fexp2 => exact ⟨_, fun s => by rw [exec_fexp2]; unfold execFexp2 fElem floating; rfl, by intro _ _ _ _ _ _ _ g; dsimp only at g; split at g <;> cases g; exact ⟨rfl, rfl, rfl, rfl, rfl⟩⟩
  | flog2 => exact ⟨_, fun s => by rw [exec_flog2]; unfold execFlog2 fElem floating; rfl, by intro _ _ _ _ _ _ _ g; dsimp only at g; split at g <;> cases g; exact ⟨rfl, rfl, rfl, rfl, rfl⟩⟩
  | fclass => exact ⟨_, fun s => by rw [exec_fclass]; unfold execFclass; rfl, by intro _ _ _ _ _ _ _ g; cases g; exact ⟨rfl, rfl, rfl, rfl, rfl⟩⟩
  | fabs => exact ⟨_, fun s => by rw [exec_fabs]; unfold execFabs; rfl, by intro _ _ _ _ _ _ _ g; cases g; exact ⟨rfl, rfl, rfl, rfl, rfl⟩⟩
  | fneg => exact ⟨_, fun s => by rw [exec_fneg]; unfold execFneg; rfl, by intro _ _ _ _ _ _ _ g; cases g; exact ⟨rfl, rfl, rfl, rfl, rfl⟩⟩
  | vrot => exact ⟨_, fun s => by rw [exec_vrot]; unfold execVrot vector; rfl, by intro _ _ _ _ _ _ _ g; cases g; exact ⟨rfl, rfl, rfl, rfl, rfl⟩⟩
  | vwiden => exact ⟨_, fun s => by rw [exec_vwiden]; unfold execVwiden; rfl, by intro _ _ _ _ _ _ _ g; dsimp only [pushToken] at g; (repeat' split at g) <;> cases g <;> exact ⟨rfl, rfl, rfl, rfl, rfl⟩⟩
  | vred => exact ⟨_, fun s => by rw [exec_vred]; unfold execVred; rfl, by intro _ _ _ _ _ _ _ g; cases g; exact ⟨rfl, rfl, rfl, rfl, rfl⟩⟩
  | fred => exact ⟨_, fun s => by rw [exec_fred]; unfold execFred floating; rfl, by intro _ _ _ _ _ _ _ g; dsimp only at g; split at g <;> cases g; exact ⟨rfl, rfl, rfl, rfl, rfl⟩⟩
  | viota => exact ⟨_, fun s => by rw [exec_viota]; unfold execViota vector; rfl, by intro _ _ _ _ _ _ _ g; cases g; exact ⟨rfl, rfl, rfl, rfl, rfl⟩⟩
  | fcvt => exact ⟨_, fun s => by rw [exec_fcvt]; unfold execFcvt fConv floating; rfl, by intro _ _ _ _ _ _ _ g; dsimp only at g; split at g <;> cases g; exact ⟨rfl, rfl, rfl, rfl, rfl⟩⟩
  | fcvti => exact ⟨_, fun s => by rw [exec_fcvti]; unfold execFcvti fConv floating; rfl, by intro _ _ _ _ _ _ _ g; dsimp only at g; split at g <;> cases g; exact ⟨rfl, rfl, rfl, rfl, rfl⟩⟩
  | icvtf => exact ⟨_, fun s => by rw [exec_icvtf]; unfold execIcvtf fConv floating; rfl, by intro _ _ _ _ _ _ _ g; dsimp only at g; split at g <;> cases g; exact ⟨rfl, rfl, rfl, rfl, rfl⟩⟩
  | tokb => exact ⟨_, fun s => by rw [exec_tokb]; unfold execTokb; rfl, by intro _ _ _ _ _ _ _ g; dsimp only [pushToken] at g; split at g <;> cases g; exact ⟨rfl, rfl, rfl, rfl, rfl⟩⟩
  | tokj => exact ⟨_, fun s => by rw [exec_tokj]; unfold execTokj; rfl, by intro _ _ _ _ _ _ _ g; dsimp only [pushToken] at g; (repeat' split at g) <;> cases g; exact ⟨rfl, rfl, rfl, rfl, rfl⟩⟩
  | _ => simp [aOps] at h

/-- Every control word with operands of its own takes the common course of `control`, with an effect of its own (R13, R18,
R266). -/
theorem control_exec (i : Instr) (s : State) (p : CSpec) (h : controlSpec s i = some p) : ∃ f, exec i s = control i p f s := by
  cases i with
  | cnop => obtain rfl := Option.some.inj h; exact ⟨_, by rw [exec_cnop]; unfold execCnop; rfl⟩
  | fsync => obtain rfl := Option.some.inj h; exact ⟨_, by rw [exec_fsync]; unfold execFsync; rfl⟩
  | brk => obtain rfl := Option.some.inj h; exact ⟨_, by rw [exec_brk]; unfold execBrk; rfl⟩
  | jtok => obtain rfl := Option.some.inj h; exact ⟨_, by rw [exec_jtok]; unfold execJtok; rfl⟩
  | fence => obtain rfl := Option.some.inj h; exact ⟨_, by rw [exec_fence]; unfold execFence; rfl⟩
  | gbar => obtain rfl := Option.some.inj h; exact ⟨_, by rw [exec_gbar]; unfold execGbar; rfl⟩
  | rls => obtain rfl := Option.some.inj h; exact ⟨_, by rw [exec_rls]; unfold execRls; rfl⟩
  | ckpt => obtain rfl := Option.some.inj h; exact ⟨_, by rw [exec_ckpt]; unfold execCkpt; rfl⟩
  | tagsetOn => obtain rfl := Option.some.inj h; exact ⟨_, by rw [exec_tagsetOn]; unfold execTagsetOn tagset; rfl⟩
  | tagsetOff => obtain rfl := Option.some.inj h; exact ⟨_, by rw [exec_tagsetOff]; unfold execTagsetOff tagset; rfl⟩
  | setwinLone => obtain rfl := Option.some.inj h; exact ⟨_, by rw [exec_setwinLone]; unfold execSetwinLone; rfl⟩
  | ifence => obtain rfl := Option.some.inj h; exact ⟨_, by rw [exec_ifence]; unfold execIfence; rfl⟩
  | loopi => obtain rfl := Option.some.inj h; exact ⟨_, by rw [exec_loopi]; unfold execLoopi; rfl⟩
  | loopPop => obtain rfl := Option.some.inj h; exact ⟨_, by rw [exec_loopPop]; unfold execLoopPop; rfl⟩
  | loop => obtain rfl := Option.some.inj h; exact ⟨_, by rw [exec_loop]; unfold execLoop; rfl⟩
  | bc => obtain rfl := Option.some.inj h; exact ⟨_, by rw [exec_bc]; unfold execBc; rfl⟩
  | dcarm => obtain rfl := Option.some.inj h; exact ⟨_, by rw [exec_dcarm]; unfold execDcarm; rfl⟩
  | dcdec => obtain rfl := Option.some.inj h; exact ⟨_, by rw [exec_dcdec]; unfold execDcdec; rfl⟩
  | send => obtain rfl := Option.some.inj h; exact ⟨_, by rw [exec_send]; unfold execSend; rfl⟩
  | sendGrp => obtain rfl := Option.some.inj h; exact ⟨_, by rw [exec_sendGrp]; unfold execSendGrp; rfl⟩
  | senda => obtain rfl := Option.some.inj h; exact ⟨_, by rw [exec_senda]; unfold execSenda; rfl⟩
  | strm => obtain rfl := Option.some.inj h; exact ⟨_, by rw [exec_strm]; unfold execStrm; rfl⟩
  | xld => obtain rfl := Option.some.inj h; exact ⟨_, by rw [exec_xld]; unfold execXld; rfl⟩
  | xst => obtain rfl := Option.some.inj h; exact ⟨_, by rw [exec_xst]; unfold execXst; rfl⟩
  | xpush => obtain rfl := Option.some.inj h; exact ⟨_, by rw [exec_xpush]; unfold execXpush; rfl⟩
  | xws => obtain rfl := Option.some.inj h; exact ⟨_, by rw [exec_xws]; unfold execXws; rfl⟩
  | setwin => obtain rfl := Option.some.inj h; exact ⟨_, by rw [exec_setwin]; unfold execSetwin; rfl⟩
  | call => obtain rfl := Option.some.inj h; exact ⟨_, by rw [exec_call]; unfold execCall; rfl⟩
  | cpseal => obtain rfl := Option.some.inj h; exact ⟨_, by rw [exec_cpseal]; unfold execCpseal; rfl⟩
  | jr => obtain rfl := Option.some.inj h; exact ⟨_, by rw [exec_jr]; unfold execJr; rfl⟩
  | cpy => obtain rfl := Option.some.inj h; exact ⟨_, by rw [exec_cpy]; unfold execCpy; rfl⟩
  | cpwait => obtain rfl := Option.some.inj h; exact ⟨_, by rw [exec_cpwait]; unfold execCpwait; rfl⟩
  | movi => obtain rfl := Option.some.inj h; exact ⟨_, by rw [exec_movi]; unfold execMovi; rfl⟩
  | adda => obtain rfl := Option.some.inj h; exact ⟨_, by rw [exec_adda]; unfold execAdda; rfl⟩
  | getwin => obtain rfl := Option.some.inj h; exact ⟨_, by rw [exec_getwin]; unfold execGetwin; rfl⟩
  | csrr => obtain rfl := Option.some.inj h; exact ⟨_, by rw [exec_csrr]; unfold execCsrr; rfl⟩
  | csrw => obtain rfl := Option.some.inj h; exact ⟨_, by rw [exec_csrw]; unfold execCsrw; rfl⟩
  | setbnd => obtain rfl := Option.some.inj h; exact ⟨_, by rw [exec_setbnd]; unfold execSetbnd; rfl⟩
  | lend => obtain rfl := Option.some.inj h; exact ⟨_, by rw [exec_lend]; unfold execLend; rfl⟩
  | reclaim => obtain rfl := Option.some.inj h; exact ⟨_, by rw [exec_reclaim]; unfold execReclaim; rfl⟩
  | mgang => obtain rfl := Option.some.inj h; exact ⟨_, by rw [exec_mgang]; unfold execMgang; rfl⟩
  | mcode => obtain rfl := Option.some.inj h; exact ⟨_, by rw [exec_mcode]; unfold execMcode; rfl⟩
  | accz => obtain rfl := Option.some.inj h; exact ⟨_, by rw [exec_accz]; unfold execAccz; rfl⟩
  | accrd => obtain rfl := Option.some.inj h; exact ⟨_, by rw [exec_accrd]; unfold execAccrd; rfl⟩
  | ldb => obtain rfl := Option.some.inj h; exact ⟨_, by rw [exec_ldb]; unfold execLdb load; rfl⟩
  | ldbLone => obtain rfl := Option.some.inj h; exact ⟨_, by rw [exec_ldbLone]; unfold execLdbLone load; rfl⟩
  | ldh => obtain rfl := Option.some.inj h; exact ⟨_, by rw [exec_ldh]; unfold execLdh load; rfl⟩
  | ldhLone => obtain rfl := Option.some.inj h; exact ⟨_, by rw [exec_ldhLone]; unfold execLdhLone load; rfl⟩
  | ldw => obtain rfl := Option.some.inj h; exact ⟨_, by rw [exec_ldw]; unfold execLdw load; rfl⟩
  | ldwLone => obtain rfl := Option.some.inj h; exact ⟨_, by rw [exec_ldwLone]; unfold execLdwLone load; rfl⟩
  | ldd => obtain rfl := Option.some.inj h; exact ⟨_, by rw [exec_ldd]; unfold execLdd load; rfl⟩
  | lddLone => obtain rfl := Option.some.inj h; exact ⟨_, by rw [exec_lddLone]; unfold execLddLone load; rfl⟩
  | ldv => obtain rfl := Option.some.inj h; exact ⟨_, by rw [exec_ldv]; unfold execLdv load; rfl⟩
  | ldvLone => obtain rfl := Option.some.inj h; exact ⟨_, by rw [exec_ldvLone]; unfold execLdvLone load; rfl⟩
  | stb => obtain rfl := Option.some.inj h; exact ⟨_, by rw [exec_stb]; unfold execStb store; rfl⟩
  | stbLone => obtain rfl := Option.some.inj h; exact ⟨_, by rw [exec_stbLone]; unfold execStbLone store; rfl⟩
  | sth => obtain rfl := Option.some.inj h; exact ⟨_, by rw [exec_sth]; unfold execSth store; rfl⟩
  | sthLone => obtain rfl := Option.some.inj h; exact ⟨_, by rw [exec_sthLone]; unfold execSthLone store; rfl⟩
  | stw => obtain rfl := Option.some.inj h; exact ⟨_, by rw [exec_stw]; unfold execStw store; rfl⟩
  | stwLone => obtain rfl := Option.some.inj h; exact ⟨_, by rw [exec_stwLone]; unfold execStwLone store; rfl⟩
  | std => obtain rfl := Option.some.inj h; exact ⟨_, by rw [exec_std]; unfold execStd store; rfl⟩
  | stdLone => obtain rfl := Option.some.inj h; exact ⟨_, by rw [exec_stdLone]; unfold execStdLone store; rfl⟩
  | stv => obtain rfl := Option.some.inj h; exact ⟨_, by rw [exec_stv]; unfold execStv store; rfl⟩
  | stvLone => obtain rfl := Option.some.inj h; exact ⟨_, by rw [exec_stvLone]; unfold execStvLone store; rfl⟩
  | sti => obtain rfl := Option.some.inj h; exact ⟨_, by rw [exec_sti]; unfold execSti; rfl⟩
  | stiLone => obtain rfl := Option.some.inj h; exact ⟨_, by rw [exec_stiLone]; unfold execStiLone; rfl⟩
  | ldx => obtain rfl := Option.some.inj h; exact ⟨_, by rw [exec_ldx]; unfold execLdx; rfl⟩
  | stx => obtain rfl := Option.some.inj h; exact ⟨_, by rw [exec_stx]; unfold execStx; rfl⟩
  | amo => obtain rfl := Option.some.inj h; exact ⟨_, by rw [exec_amo]; unfold execAmo; rfl⟩
  | cas => obtain rfl := Option.some.inj h; exact ⟨_, by rw [exec_cas]; unfold execCas; rfl⟩
  | _ => cases h

end Sys2Proof.Machine
end

