-- ==== Sys2Proof/Laws/Float.lean ====
section
/-! SUPPORT. Rounding once: what `roundTo` gives is the number of the format that R73 asks for. -/

namespace Sys2Proof.Machine

/-- What a format must have for rounding to be right. -/
theorem fmt_facts (t : ETy) :
    2 ≤ (fmt t).mb ∧ 2 ^ (fmt t).mb ≤ (fmt t).maxCode ∧ (fmt t).maxCode < 2 ^ ((fmt t).width - 1) ∧ 8 ≤ (fmt t).width := by
  cases t <;> decide

/-! ### Codes as numbers -/

/-- The number that magnitude bits stand for, nothing flushed. -/
def magValue (f : Fmt) (mag : Nat) : ℚ :=
  ((if mag / 2 ^ f.mb = 0 then mag % 2 ^ f.mb else 2 ^ f.mb + mag % 2 ^ f.mb : Nat) : ℚ) *
    2 ^ ((max (mag / 2 ^ f.mb) 1 : Nat) - (f.bias : Int) - f.mb)

theorem magValue_nonneg (f : Fmt) (mag : Nat) : 0 ≤ magValue f mag := by unfold magValue; positivity

theorem magValue_succ (f : Fmt) (mag : Nat) : magValue f mag < magValue f (mag + 1) := by
  unfold magValue
  set B := 2 ^ f.mb with hB
  have hB0 : 0 < B := by positivity
  have hBq : (B : ℚ) = 2 ^ f.mb := by simp [hB]
  rcases Nat.lt_or_ge (mag % B + 1) B with h | h
  · have h1 : (mag + 1) / B = mag / B := by
      conv_lhs => rw [← Nat.div_add_mod mag B]
      rw [Nat.add_assoc, Nat.mul_add_div hB0, Nat.div_eq_of_lt h, Nat.add_zero]
    have h2 : (mag + 1) % B = mag % B + 1 := by
      conv_lhs => rw [← Nat.div_add_mod mag B]
      rw [Nat.add_assoc, Nat.mul_add_mod, Nat.mod_eq_of_lt h]
    rw [h1, h2]
    apply mul_lt_mul_of_pos_right _ (by positivity)
    split <;> exact_mod_cast (by omega)
  · have hm : mag % B = B - 1 := by have := Nat.mod_lt mag hB0; omega
    have hs : mag + 1 = B * (mag / B + 1) := by
      have := Nat.div_add_mod mag B
      rw [Nat.mul_add, Nat.mul_one]; omega
    have h1 : (mag + 1) / B = mag / B + 1 := by rw [hs, Nat.mul_div_cancel_left _ hB0]
    have h2 : (mag + 1) % B = 0 := by rw [hs, Nat.mul_mod_right]
    rw [h1, h2, hm, if_neg (Nat.succ_ne_zero (mag / B))]
    by_cases h0 : mag / B = 0
    · rw [if_pos h0, h0]
      have h5 : ((B - 1 : Nat) : ℚ) < ((B + 0 : Nat) : ℚ) := Nat.cast_lt.mpr (by omega)
      exact mul_lt_mul_of_pos_right h5 (by positivity)
    · generalize mag / B = k at *
      rw [if_neg h0, show max (k + 1) 1 = k + 1 by omega, show max k 1 = k by omega]
      rw [show (((k + 1 : Nat) : Int) - f.bias - f.mb) = (k : Int) - f.bias - f.mb + 1 by push_cast; ring]
      rw [zpow_add_one₀ (by norm_num)]
      have hp : (0 : ℚ) < 2 ^ ((k : Int) - f.bias - f.mb) := by positivity
      have : ((B + (B - 1) : Nat) : ℚ) < (B + 0 : Nat) * 2 := by
        rw [← Nat.cast_two, ← Nat.cast_mul]
        exact Nat.cast_lt.mpr (by omega)
      nlinarith

theorem magValue_lt (f : Fmt) {a b : Nat} (h : a < b) : magValue f a < magValue f b :=
  strictMono_nat_of_lt_succ (magValue_succ f) h

theorem magValue_le (f : Fmt) {a b : Nat} : magValue f a ≤ magValue f b ↔ a ≤ b :=
  (strictMono_nat_of_lt_succ (magValue_succ f)).le_iff_le

/-- Magnitude bits made of an exponent above the least and a significand. -/
theorem magValue_make (f : Fmt) (d r : Nat) (h : r ≤ 2 * 2 ^ f.mb) (h2 : d = 0 ∨ 2 ^ f.mb ≤ r) :
    magValue f (d * 2 ^ f.mb + r) = r * 2 ^ ((d : Int) + (1 - f.bias - f.mb)) := by
  unfold magValue
  set B := 2 ^ f.mb with hB
  have hB0 : 0 < B := by positivity
  have hdiv : ∀ k s, s < B → (k * B + s) / B = k ∧ (k * B + s) % B = s := by
    intro k s hs
    rw [Nat.mul_comm, Nat.mul_add_div hB0, Nat.div_eq_of_lt hs, Nat.mul_add_mod, Nat.mod_eq_of_lt hs]
    exact ⟨rfl, rfl⟩
  rcases Nat.lt_or_ge r B with h3 | h3
  · obtain rfl : d = 0 := by omega
    obtain ⟨e1, e2⟩ := hdiv 0 r h3
    rw [e1, e2]
    simp
  · rcases Nat.lt_or_ge r (2 * B) with h4 | h4
    · obtain ⟨e1, e2⟩ := hdiv (d + 1) (r - B) (by omega)
      have e : d * B + r = (d + 1) * B + (r - B) := by rw [Nat.add_mul]; omega
      rw [e, e1, e2, if_neg (by omega), show max (d + 1) 1 = d + 1 by omega, show B + (r - B) = r by omega]
      congr 2; push_cast; ring
    · obtain rfl : r = 2 * B := by omega
      obtain ⟨e1, e2⟩ := hdiv (d + 2) 0 hB0
      have e : d * B + 2 * B = (d + 2) * B + 0 := by ring
      rw [e, e1, e2, if_neg (by omega), show max (d + 2) 1 = d + 2 by omega]
      rw [show (((d + 2 : Nat) : Int) - f.bias - f.mb) = (d : Int) + (1 - f.bias - f.mb) + 1 by push_cast; ring, zpow_add_one₀ (by norm_num)]
      push_cast; ring

/-- Every magnitude is a significand below 2^(mb + 1) at an exponent no less than the least, and a full significand above it. -/
theorem magValue_form (f : Fmt) (mag : Nat) : ∃ (k : Nat) (j : Int), magValue f mag = k * 2 ^ j ∧ k < 2 * 2 ^ f.mb ∧ 1 - (f.bias : Int) - f.mb ≤ j ∧
    (j = 1 - (f.bias : Int) - f.mb ∨ 2 ^ f.mb ≤ k) := by
  have hm := Nat.mod_lt mag (show 0 < 2 ^ f.mb by positivity)
  refine ⟨_, _, rfl, ?_, ?_, ?_⟩
  · split <;> omega
  · have : 1 ≤ max (mag / 2 ^ f.mb) 1 := by omega
    omega
  · by_cases h : mag / 2 ^ f.mb = 0
    · left; rw [h]; simp
    · right; rw [if_neg h]; omega


/-! ### Rounding to an integer -/

/-- r is the number α rounded to an integer: under RNE the nearest, a tie to even; else the floor or the ceiling. -/
def IntRounds (rm : RMode) (neg : Bool) (α : ℚ) (r : Nat) : Prop :=
  match rm with
  | .rne => |(r : ℚ) - α| ≤ 1 / 2 ∧ (|(r : ℚ) - α| = 1 / 2 → r % 2 = 0)
  | .rtz => (r : ℚ) ≤ α ∧ α < r + 1
  | .rdn => if neg then (r : ℚ) - 1 < α ∧ α ≤ r else (r : ℚ) ≤ α ∧ α < r + 1
  | .rup => if neg then (r : ℚ) ≤ α ∧ α < r + 1 else (r : ℚ) - 1 < α ∧ α ≤ r

/-- The exact number that m and its sticky bit stand for, in units: m, or one strictly between m and m + 1. -/
def Carried (m : Nat) (sticky : Bool) (β : ℚ) : Prop := if sticky then (m : ℚ) < β ∧ β < m + 1 else β = m

theorem roundShift_rounds (rm : RMode) (neg : Bool) (m n : Nat) (sticky : Bool) (β : ℚ) (hn : 0 < n) (h : Carried m sticky β) :
    IntRounds rm neg (β / 2 ^ n) (roundShift rm neg m n sticky).1 ∧
      ((roundShift rm neg m n sticky).2 = true ↔ (((roundShift rm neg m n sticky).1 : ℚ) ≠ β / 2 ^ n)) := by
  obtain ⟨k, rfl⟩ : ∃ k, n = k + 1 := ⟨n - 1, by omega⟩
  set H := 2 ^ k with hH
  have hH0 : 0 < H := by positivity
  have hP : 2 ^ (k + 1) = 2 * H := by rw [hH]; ring
  have hPq : (2 : ℚ) ^ (k + 1) = 2 * (H : ℚ) := by rw [hH]; push_cast; ring
  have hHq : (0 : ℚ) < H := by exact_mod_cast hH0
  set q := m / (2 * H) with hq
  set r := m % (2 * H) with hr
  have hm : m = 2 * H * q + r := (Nat.div_add_mod m (2 * H)).symm
  have hr2 : r < 2 * H := Nat.mod_lt _ (by omega)
  have hmq : (m : ℚ) = 2 * H * q + r := by exact_mod_cast hm
  have hq0 : (0 : ℚ) ≤ q := by positivity
  have hr0 : (0 : ℚ) ≤ r := by positivity
  have hrq : (r : ℚ) + 1 ≤ 2 * H := by exact_mod_cast hr2
  have e1 : m >>> (k + 1) = q := by rw [Nat.shiftRight_eq_div_pow, hP]
  have e2 : m % 2 ^ (k + 1) = r := by rw [hP]
  rw [hPq]
  -- where the number stands between q and q + 1
  obtain ⟨δ, hδ, hα⟩ : ∃ δ : ℚ, δ = β - 2 * H * q ∧ β / (2 * H) = q + δ / (2 * H) :=
    ⟨_, rfl, by field_simp; ring⟩
  have hδb : (r : ℚ) ≤ δ ∧ δ < r + 1 ∧ (sticky = false → δ = r) ∧ (sticky = true → (r : ℚ) < δ) := by
    unfold Carried at h
    cases sticky with
    | false => rw [if_neg (by simp)] at h; rw [hδ, h, hmq]; refine ⟨by linarith, by linarith, fun _ => by ring, fun h => (by cases h)⟩
    | true =>
      rw [if_pos rfl] at h
      obtain ⟨h1, h2⟩ := h
      rw [hmq] at h1 h2
      refine ⟨by linarith, by linarith, fun h => (by cases h), fun _ => by linarith⟩
  obtain ⟨d1, d2, d3, d4⟩ := hδb
  have hfr0 : 0 ≤ δ / (2 * H) := div_nonneg (by linarith) (by linarith)
  have hfr1 : δ / (2 * H) < 1 := by rw [div_lt_one (by linarith)]; linarith
  -- inexact
  have hin : (r != 0 || sticky) = true ↔ δ ≠ 0 := by
    clear h
    cases sticky with
    | false => rw [d3 rfl]; simp
    | true =>
      have := d4 rfl
      simp only [Bool.or_true, true_iff]
      exact ne_of_gt (lt_of_le_of_lt hr0 this)
  have hin' : (r != 0 || sticky) = false → δ = 0 := by
    intro h; by_contra hc; rw [hin.mpr hc] at h; cases h
  have hδ0 : 0 ≤ δ := le_trans hr0 d1
  have hpos : δ ≠ 0 → 0 < δ / (2 * H) := fun h => div_pos (lt_of_le_of_ne hδ0 (Ne.symm h)) (by linarith)
  unfold roundShift
  simp only [e1, e2, Nat.add_sub_cancel, ← hH]
  rw [hα]
  have exact_of : δ = 0 → (q : ℚ) = q + δ / (2 * H) := by intro h; rw [h]; simp
  have hne_q : δ ≠ 0 → (q : ℚ) ≠ q + δ / (2 * H) := by intro h h2; have := hpos h; linarith
  have hne_q1 : ((q + 1 : Nat) : ℚ) ≠ q + δ / (2 * H) := by intro h2; push_cast at h2; linarith
  cases rm with
  | rtz =>
    simp only [Bool.false_eq_true, if_false, IntRounds]
    refine ⟨⟨by linarith, by linarith⟩, ?_⟩
    rw [hin]
    exact ⟨hne_q, fun h h2 => h (exact_of h2)⟩
  | rdn =>
    cases neg with
    | false =>
      simp only [Bool.false_and, Bool.false_eq_true, if_false, IntRounds]
      refine ⟨⟨by linarith, by linarith⟩, ?_⟩
      rw [hin]
      exact ⟨hne_q, fun h h2 => h (exact_of h2)⟩
    | true =>
      simp only [Bool.true_and, IntRounds, if_true]
      by_cases hx : (r != 0 || sticky) = true
      · have hp := hpos (hin.mp hx)
        rw [hx]; simp only [if_true, true_iff]
        push_cast
        exact ⟨⟨by linarith, by linarith⟩, by push_cast at hne_q1; exact hne_q1⟩
      · have hx' : (r != 0 || sticky) = false := by simpa using hx
        have h0 := hin' hx'
        rw [hx', h0]; simp
  | rup =>
    cases neg with
    | true =>
      simp only [Bool.not_true, Bool.false_and, Bool.false_eq_true, if_false, IntRounds, if_true]
      refine ⟨⟨by linarith, by linarith⟩, ?_⟩
      rw [hin]
      exact ⟨hne_q, fun h h2 => h (exact_of h2)⟩
    | false =>
      simp only [Bool.not_false, Bool.true_and, IntRounds, Bool.false_eq_true, if_false]
      by_cases hx : (r != 0 || sticky) = true
      · have hp := hpos (hin.mp hx)
        rw [hx]; simp only [if_true, true_iff]
        push_cast
        exact ⟨⟨by linarith, by linarith⟩, by push_cast at hne_q1; exact hne_q1⟩
      · have hx' : (r != 0 || sticky) = false := by simpa using hx
        have h0 := hin' hx'
        rw [hx', h0]; simp
  | rne =>
    simp only [IntRounds]
    have hhalf : ∀ x : ℚ, (x < H → x / (2 * H) < 1 / 2) ∧ (H < x → 1 / 2 < x / (2 * H)) ∧ (x = H → x / (2 * H) = 1 / 2) := by
      intro x
      refine ⟨fun h => ?_, fun h => ?_, fun h => ?_⟩
      · rw [div_lt_div_iff₀ (by linarith) (by norm_num)]; linarith
      · rw [div_lt_div_iff₀ (by norm_num) (by linarith)]; linarith
      · rw [h]; field_simp
    obtain ⟨hl, hg, he⟩ := hhalf δ
    have absd : ∀ f : ℚ, 0 ≤ f → |(q : ℚ) - (q + f)| = f := by intro f hf; rw [show (q : ℚ) - (q + f) = -f by ring, abs_neg, abs_of_nonneg hf]
    have absu : ∀ f : ℚ, f < 1 → |((q : ℚ) + 1) - (q + f)| = 1 - f := by
      intro f hf; rw [show (q : ℚ) + 1 - (q + f) = 1 - f by ring, abs_of_nonneg (by linarith)]
    have low (hc : δ / (2 * H) < 1 / 2 ∨ (δ / (2 * H) = 1 / 2 ∧ q % 2 = 0)) :
        (|(q : ℚ) - (q + δ / (2 * H))| ≤ 1 / 2 ∧ (|(q : ℚ) - (q + δ / (2 * H))| = 1 / 2 → q % 2 = 0)) ∧
          ((r != 0 || sticky) = true ↔ ((q : ℚ) ≠ q + δ / (2 * H))) := by
      rw [absd _ hfr0, hin]
      refine ⟨⟨?_, ?_⟩, hne_q, fun h h2 => h (exact_of h2)⟩
      · rcases hc with h | h; exact le_of_lt h; exact le_of_eq h.1
      · intro h; rcases hc with h2 | h2; linarith; exact h2.2
    have high (hc : 1 / 2 < δ / (2 * H) ∨ (δ / (2 * H) = 1 / 2 ∧ q % 2 = 1)) :
        (|((q + 1 : Nat) : ℚ) - (q + δ / (2 * H))| ≤ 1 / 2 ∧ (|((q + 1 : Nat) : ℚ) - (q + δ / (2 * H))| = 1 / 2 → (q + 1) % 2 = 0)) ∧
          ((r != 0 || sticky) = true ↔ (((q + 1 : Nat) : ℚ) ≠ q + δ / (2 * H))) := by
      have hd0 : δ ≠ 0 := by intro h; rw [h] at hc; norm_num at hc
      rw [hin]
      refine ⟨?_, ⟨fun _ => hne_q1, fun _ => hd0⟩⟩
      push_cast
      rw [absu _ hfr1]
      refine ⟨?_, ?_⟩
      · rcases hc with h | h <;> linarith [h]
      · intro h; rcases hc with h2 | h2; linarith; omega
    have hne : ((k + 1 != 0) = true) := by simp
    rw [hne]
    simp only [Bool.true_and]
    by_cases c1 : r > H
    · have : decide (r > H) = true := by simpa using c1
      rw [this]; simp only [Bool.true_or, if_true]
      exact high (.inl (hg (lt_of_lt_of_le (by exact_mod_cast c1) d1)))
    · have c1' : decide (r > H) = false := by simpa using c1
      rw [c1']; simp only [Bool.false_or]
      by_cases c2 : r = H
      · have : (r == H) = true := by simpa using c2
        rw [this]; simp only [Bool.true_and]
        cases sticky with
        | true =>
          simp only [Bool.true_or, if_true]
          have := d4 rfl
          rw [c2] at this
          simpa using high (.inl (hg this))
        | false =>
          have hd := d3 rfl
          rw [c2] at hd
          by_cases c3 : q % 2 = 1
          · have : (q % 2 == 1) = true := by simpa using c3
            rw [this]; simp only [Bool.or_true, if_true]
            simpa using high (.inr ⟨he hd, c3⟩)
          · have : (q % 2 == 1) = false := by simpa using c3
            rw [this]; simp only [Bool.or_false, Bool.false_eq_true, if_false]
            simpa using low (.inr ⟨he hd, by omega⟩)
      · have : (r == H) = false := by simpa using c2
        rw [this]; simp only [Bool.false_and, Bool.false_eq_true, if_false]
        have hlt : r + 1 ≤ H := by omega
        have : (r : ℚ) + 1 ≤ H := by exact_mod_cast hlt
        exact low (.inl (hl (by linarith)))

theorem roundQ_rounds (rm : RMode) (neg : Bool) (m : Nat) (e q : Int) (sticky : Bool) (a : ℚ) (h : Carried m sticky (a / 2 ^ e))
    (hs : sticky = true → e < q) :
    IntRounds rm neg (a / 2 ^ q) (roundQ rm neg m e q sticky).1 ∧
      ((roundQ rm neg m e q sticky).2 = true ↔ (((roundQ rm neg m e q sticky).1 : ℚ) ≠ a / 2 ^ q)) := by
  unfold roundQ
  split
  · next hlt =>
    have hd : a / 2 ^ q = (a / 2 ^ e) / 2 ^ (q - e).toNat := by
      rw [div_div]
      congr 1
      rw [← zpow_natCast, ← zpow_add₀ (by norm_num)]
      congr 1; omega
    rw [hd]
    exact roundShift_rounds rm neg m _ sticky _ (by omega) h
  · next hge =>
    obtain rfl : sticky = false := by
      cases sticky with
      | false => rfl
      | true => exact absurd (hs rfl) hge
    unfold Carried at h
    rw [if_neg (by simp)] at h
    have hx : ((m <<< (e - q).toNat : Nat) : ℚ) = a / 2 ^ q := by
      rw [Nat.shiftLeft_eq]
      push_cast
      rw [← h, div_mul_eq_mul_div, div_eq_div_iff (by positivity) (by positivity), mul_assoc]
      congr 1
      rw [← zpow_natCast, ← zpow_add₀ (by norm_num)]
      congr 1; omega
    simp only [hx]
    refine ⟨?_, by simp⟩
    unfold IntRounds
    cases rm <;> cases neg <;> simp [hx]

theorem IntRounds.le {rm : RMode} {neg : Bool} {α : ℚ} {r n : Nat} (h : IntRounds rm neg α r) (hn : α ≤ n) : r ≤ n := by
  have key : (r : ℚ) - 1 < n → r ≤ n := by
    intro h2
    have : (r : ℚ) < (n + 1 : Nat) := by push_cast; linarith
    have := Nat.cast_lt.mp this
    omega
  apply key
  unfold IntRounds at h
  cases rm <;> cases neg <;> simp only [Bool.false_eq_true, if_false, if_true] at h
  case rne.false | rne.true => have := abs_le.mp h.1; linarith [this.2]
  all_goals linarith [h.1, h.2]

theorem IntRounds.ge {rm : RMode} {neg : Bool} {α : ℚ} {r n : Nat} (h : IntRounds rm neg α r) (hn : (n : ℚ) ≤ α) : n ≤ r := by
  have key : (n : ℚ) - 1 < r → n ≤ r := by
    intro h2
    have : (n : ℚ) < (r + 1 : Nat) := by push_cast; linarith
    have := Nat.cast_lt.mp this
    omega
  apply key
  unfold IntRounds at h
  cases rm <;> cases neg <;> simp only [Bool.false_eq_true, if_false, if_true] at h
  case rne.false | rne.true => have := abs_le.mp h.1; linarith [this.1]
  all_goals linarith [h.1, h.2]

/-! ### Rounding among the numbers of a format -/

/-- The numbers of a format, in units of 2^q: integers, and, where q is above the least exponent, others below a full significand B. -/
def OnGrid (B : Nat) (full : Bool) (x : ℚ) : Prop := (∃ i : Int, x = i) ∨ (full = true ∧ |x| < B)

theorem near_of_grid {neg : Bool} {α x : ℚ} {r B : Nat} {full : Bool} (h : IntRounds .rne neg α r) (hB : full = true → (B : ℚ) ≤ α)
    (hx : OnGrid B full x) : |(r : ℚ) - α| ≤ |x - α| ∧ (|x - α| = |(r : ℚ) - α| → x = r ∨ r % 2 = 0) := by
  obtain ⟨h1, h2⟩ := h
  rcases hx with ⟨i, rfl⟩ | ⟨hf, hx⟩
  · by_cases e : i = (r : Int)
    · subst e; simp
    · have hd : (1 : ℚ) ≤ |(i : ℚ) - r| := by
        have : (1 : Int) ≤ |i - r| := Int.one_le_abs (by omega)
        have h3 : ((1 : Int) : ℚ) ≤ ((|i - (r : Int)| : Int) : ℚ) := Int.cast_le.mpr this
        rw [Int.cast_abs] at h3
        simpa using h3
      have tri : |(i : ℚ) - r| ≤ |(i : ℚ) - α| + |(r : ℚ) - α| := by
        rw [abs_sub_comm (r : ℚ) α]; exact abs_sub_le _ _ _
      refine ⟨by linarith, fun he => .inr (h2 ?_)⟩
      linarith
  · have hb := hB hf
    have hxB := abs_lt.mp hx
    have h3 : |x - α| = α - x := by rw [abs_sub_comm, abs_of_nonneg (by linarith)]
    have hr := IntRounds.ge (rm := .rne) (neg := neg) ⟨h1, h2⟩ hb
    have hrB : (B : ℚ) ≤ r := by exact_mod_cast hr
    have h4 : |(r : ℚ) - α| < α - x := by
      rw [abs_lt]
      refine ⟨by linarith, ?_⟩
      by_contra hc
      have hc' : α - x ≤ r - α := not_lt.mp hc
      have h5 := (abs_le.mp h1).2
      -- then r is above α, and B, an integer, is no further
      by_cases e : r = B
      · rw [e] at hc'; linarith
      · have : (B : ℚ) + 1 ≤ r := by exact_mod_cast (by omega : B + 1 ≤ r)
        linarith
    rw [h3]
    exact ⟨h4.le, fun he => absurd he (ne_of_gt h4)⟩

theorem floor_of_grid {α x : ℚ} {r B : Nat} {full : Bool} (h2 : α < r + 1) (hr : full = true → B ≤ r)
    (hx : OnGrid B full x) (h : x ≤ α) : x ≤ r := by
  rcases hx with ⟨i, rfl⟩ | ⟨hf, hx⟩
  · have : (i : ℚ) < ((r + 1 : Nat) : Int) := by push_cast; linarith
    have := Int.cast_lt.mp this
    have h3 : i ≤ (r : Int) := by omega
    exact_mod_cast h3
  · have := (abs_lt.mp hx).2
    have h3 : (B : ℚ) ≤ r := by exact_mod_cast hr hf
    linarith

theorem ceil_of_grid {α x : ℚ} {r B : Nat} {full : Bool} (h1 : (r : ℚ) - 1 < α) (hB : full = true → (B : ℚ) ≤ α)
    (hx : OnGrid B full x) (h : α ≤ x) : (r : ℚ) ≤ x := by
  rcases hx with ⟨i, rfl⟩ | ⟨hf, hx⟩
  · have : (((r : Int) - 1 : Int) : ℚ) < i := by push_cast; linarith
    have := Int.cast_lt.mp this
    have h3 : (r : Int) ≤ i := by omega
    exact_mod_cast h3
  · have := (abs_lt.mp hx).2
    have := hB hf
    linarith

/-! ### Codes with a sign -/

theorem fCode_parts (t : ETy) (neg : Bool) (mag : Nat) (h : mag < 2 ^ ((fmt t).width - 1)) :
    fSign t (fCode t neg mag) = neg ∧ fMag t (fCode t neg mag) = mag ∧ fCode t neg mag < 2 ^ (fmt t).width := by
  have hw : 2 ^ (fmt t).width = 2 * 2 ^ ((fmt t).width - 1) := by
    have := (fmt_facts t).2.2.2
    rw [← Nat.pow_succ']; congr 1; omega
  set W := 2 ^ ((fmt t).width - 1) with hW
  have hW0 : 0 < W := by positivity
  unfold fSign fMag fCode
  rw [Nat.shiftRight_eq_div_pow, ← hW, hw]
  cases neg with
  | false => simp [Nat.div_eq_of_lt h, Nat.mod_eq_of_lt h]; omega
  | true => simp [Nat.add_div_left _ hW0, Nat.div_eq_of_lt h, Nat.add_mod_left, Nat.mod_eq_of_lt h]; omega

theorem fCode_even (t : ETy) (neg : Bool) (mag : Nat) (h : mag % 2 = 0) : fCode t neg mag % 2 = 0 := by
  have hw : 2 ^ ((fmt t).width - 1) % 2 = 0 := by
    have := (fmt_facts t).2.2.2
    obtain ⟨k, hk⟩ : ∃ k, (fmt t).width - 1 = k + 1 := ⟨(fmt t).width - 2, by omega⟩
    rw [hk, Nat.pow_succ]; simp
  unfold fCode
  split <;> omega

/-- The sign of a code as a number. -/
def sgn (neg : Bool) : ℚ := if neg then -1 else 1

/-- What a code's magnitude counts as. -/
def magCount (t : ETy) (mag : Nat) : ℚ := if (fmt t).flush && mag / 2 ^ (fmt t).mb == 0 then 0 else magValue (fmt t) mag

theorem fpValue_eq (t : ETy) (x : Nat) : fpValue t x = sgn (fSign t x) * magCount t (fMag t x) := by
  unfold fpValue magCount magValue sgn
  by_cases h : fMag t x / 2 ^ (fmt t).mb = 0
  · cases hf : (fmt t).flush <;> cases fSign t x <;> simp [h, hf]
  · cases fSign t x
    · simp [h]
    · simp [h]; ring

theorem magCount_full (t : ETy) (mag : Nat) (h : 2 ^ (fmt t).mb ≤ mag) : magCount t mag = magValue (fmt t) mag := by
  unfold magCount
  have : 0 < mag / 2 ^ (fmt t).mb := Nat.div_pos h (by positivity)
  rw [beq_false_of_ne (Nat.pos_iff_ne_zero.mp this)]
  simp

theorem fpValue_max (t : ETy) : fpValue t (fmt t).maxCode = magValue (fmt t) (fmt t).maxCode := by
  obtain ⟨_, h2, h3, _⟩ := fmt_facts t
  have hp := fCode_parts t false (fmt t).maxCode h3
  rw [show fCode t false (fmt t).maxCode = (fmt t).maxCode from rfl] at hp
  rw [fpValue_eq, hp.1, hp.2.1, magCount_full t _ h2]
  simp [sgn]

/-- In units of 2^q, q no less than the least exponent, every magnitude is an integer, or lies below a full significand. -/
theorem magCount_grid (t : ETy) (mag : Nat) (q : Int) (hq : 1 - ((fmt t).bias : Int) - (fmt t).mb ≤ q) :
    OnGrid (2 ^ (fmt t).mb) (decide (1 - ((fmt t).bias : Int) - (fmt t).mb < q)) (magCount t mag / 2 ^ q) := by
  unfold magCount
  split
  · left; exact ⟨0, by simp⟩
  · obtain ⟨k, j, e, hk, hj, _⟩ := magValue_form (fmt t) mag
    rw [e]
    rcases le_or_gt q j with h | h
    · left
      refine ⟨(k * 2 ^ (j - q).toNat : Nat), ?_⟩
      push_cast
      rw [div_eq_iff (by positivity), mul_assoc]
      congr 1
      rw [← zpow_natCast, ← zpow_add₀ (by norm_num)]
      congr 1; omega
    · right
      refine ⟨by simp; omega, ?_⟩
      rw [abs_of_nonneg (by positivity), div_lt_iff₀ (by positivity)]
      have h1 : (k : ℚ) * 2 ^ j < (2 * 2 ^ (fmt t).mb : Nat) * 2 ^ j :=
        mul_lt_mul_of_pos_right (Nat.cast_lt.mpr hk) (by positivity)
      have h2 : (2 : ℚ) ^ j * 2 ≤ 2 ^ q := by
        rw [← zpow_add_one₀ (by norm_num)]
        exact zpow_le_zpow_right₀ (by norm_num) (by omega)
      have h3 : (0 : ℚ) ≤ ((2 ^ (fmt t).mb : Nat) : ℚ) := by positivity
      push_cast at h1 h3 ⊢
      nlinarith

theorem onGrid_neg {B : Nat} {full : Bool} {x : ℚ} (h : OnGrid B full x) : OnGrid B full (-x) := by
  rcases h with ⟨i, rfl⟩ | ⟨hf, hx⟩
  · left; exact ⟨-i, by simp⟩
  · right; rw [abs_neg]; exact ⟨hf, hx⟩

theorem fpValue_grid (t : ETy) (neg : Bool) (u : Nat) (q : Int) (hq : 1 - ((fmt t).bias : Int) - (fmt t).mb ≤ q) :
    OnGrid (2 ^ (fmt t).mb) (decide (1 - ((fmt t).bias : Int) - (fmt t).mb < q)) (sgn neg * fpValue t u / 2 ^ q) := by
  have h := magCount_grid t (fMag t u) q hq
  rw [fpValue_eq]
  unfold sgn
  cases neg <;> cases fSign t u <;> simp [neg_div] <;> first | exact h | exact onGrid_neg h

/-- A rounded integer of units of 2^q, as a code, is the number rounded once. -/
theorem rounded_of_int (t : ETy) (rm : RMode) (neg : Bool) (v : ℚ) (q : Int) (r d : Nat) (hv : v = sgn neg * |v|)
    (hq : q = d + (1 - ((fmt t).bias : Int) - (fmt t).mb)) (hr : IntRounds rm neg (|v| / 2 ^ q) r)
    (hB : d ≠ 0 → ((2 ^ (fmt t).mb : Nat) : ℚ) ≤ |v| / 2 ^ q) (h2 : r ≤ 2 * 2 ^ (fmt t).mb)
    (hmax : d * 2 ^ (fmt t).mb + r ≤ (fmt t).maxCode) (hfl : (fmt t).flush = true → 2 ^ (fmt t).mb ≤ d * 2 ^ (fmt t).mb + r) :
    Rounded t rm v (fCode t neg (d * 2 ^ (fmt t).mb + r)) ∧
      fpValue t (fCode t neg (d * 2 ^ (fmt t).mb + r)) = sgn neg * (r * 2 ^ q) := by
  obtain ⟨f1, _, f3, _⟩ := fmt_facts t
  set mag := d * 2 ^ (fmt t).mb + r with hmag
  obtain ⟨c1, c2, c3⟩ := fCode_parts t neg mag (lt_of_le_of_lt hmax f3)
  have hBr : d ≠ 0 → 2 ^ (fmt t).mb ≤ r := fun h => hr.ge (hB h)
  have hval : magValue (fmt t) mag = r * 2 ^ q := by
    rw [hq]
    exact magValue_make (fmt t) d r h2 (by by_cases h : d = 0; exact .inl h; exact .inr (hBr h))
  have hcnt : magCount t mag = r * 2 ^ q := by
    unfold magCount
    cases hf : (fmt t).flush with
    | false => simpa using hval
    | true =>
      have : 0 < mag / 2 ^ (fmt t).mb := Nat.div_pos (hfl hf) (by positivity)
      rw [beq_false_of_ne (Nat.pos_iff_ne_zero.mp this)]
      simpa using hval
  have hc : fpValue t (fCode t neg mag) = sgn neg * (r * 2 ^ q) := by rw [fpValue_eq, c1, c2, hcnt]
  have hP : (0 : ℚ) < 2 ^ q := by positivity
  set α := |v| / 2 ^ q with hα
  have hva : |v| = α * 2 ^ q := by rw [hα]; field_simp
  have hα0 : 0 ≤ α := div_nonneg (abs_nonneg v) hP.le
  have hr0 : (0 : ℚ) ≤ r := by positivity
  have full : decide (1 - ((fmt t).bias : Int) - (fmt t).mb < q) = true → d ≠ 0 := by
    intro h h0; rw [h0] at hq; simp at h; omega
  have grid := fun u => fpValue_grid t neg u q (by omega)
  -- every number of the format in units of 2^q, the sign taken off
  have hξ : ∀ u, fpValue t u = sgn neg * ((sgn neg * fpValue t u / 2 ^ q) * 2 ^ q) := by
    intro u
    rw [div_mul_cancel₀ _ hP.ne']
    unfold sgn; cases neg <;> simp
  have hsub : ∀ x y : ℚ, |sgn neg * (x * 2 ^ q) - sgn neg * (y * 2 ^ q)| = |x - y| * 2 ^ q := by
    intro x y
    rw [← mul_sub, ← sub_mul, abs_mul, abs_mul, abs_of_pos hP]
    unfold sgn; cases neg <;> simp
  have hv' : v = sgn neg * (α * 2 ^ q) := by rw [← hva]; exact hv
  refine ⟨⟨⟨c3, by rw [c2]; exact hmax⟩, ?_, ?_, ?_, ?_, ?_⟩, hc⟩
  · rintro rfl u _
    have := (near_of_grid hr (fun h => hB (full h)) (grid u)).1
    rw [hc, hv', hξ u, hsub, hsub]
    exact mul_le_mul_of_nonneg_right this hP.le
  · rintro rfl u _ he
    have h3 := (near_of_grid hr (fun h => hB (full h)) (grid u)).2
    rw [hc, hv', hξ u, hsub, hsub] at he
    rcases h3 (mul_right_cancel₀ hP.ne' he) with h | h
    · left; rw [hc, hξ u, h]
    · right
      apply fCode_even
      rw [hmag, Nat.add_mod, Nat.mul_mod]
      have : 2 ^ (fmt t).mb % 2 = 0 := by
        obtain ⟨k, hk⟩ : ∃ k, (fmt t).mb = k + 1 := ⟨(fmt t).mb - 1, by omega⟩
        rw [hk, Nat.pow_succ]; simp
      rw [this, h]; simp
  · rintro rfl
    obtain ⟨g1, g2⟩ : (r : ℚ) ≤ α ∧ α < r + 1 := hr
    have hcabs : |fpValue t (fCode t neg mag)| = r * 2 ^ q := by
      rw [hc, abs_mul, abs_of_nonneg (show (0 : ℚ) ≤ r * 2 ^ q by positivity)]
      unfold sgn; cases neg <;> simp
    refine ⟨?_, ?_, ?_⟩
    · rw [hcabs, hva]; exact mul_le_mul_of_nonneg_right g1 hP.le
    · rw [hc, hv', show sgn neg * ((r : ℚ) * 2 ^ q) * (sgn neg * (α * 2 ^ q)) = (sgn neg * sgn neg) * ((r * 2 ^ q) * (α * 2 ^ q)) by ring]
      have : sgn neg * sgn neg = 1 := by unfold sgn; cases neg <;> norm_num
      rw [this]; positivity
    · intro u _ hu
      rw [hcabs]
      have hg : OnGrid (2 ^ (fmt t).mb) (decide (1 - ((fmt t).bias : Int) - (fmt t).mb < q)) (|fpValue t u| / 2 ^ q) := by
        have h3 := fpValue_grid t false u q (by omega)
        have h4 := fpValue_grid t true u q (by omega)
        simp only [sgn, Bool.false_eq_true, if_false, if_true, one_mul, neg_mul] at h3 h4
        rcases abs_choice (fpValue t u) with h | h <;> rw [h]
        · exact h3
        · exact h4
      have h5 : |fpValue t u| / 2 ^ q ≤ α := by rw [div_le_iff₀ hP, ← hva]; exact hu
      have h6 := floor_of_grid g2 (fun h => hBr (full h)) hg h5
      rw [div_le_iff₀ hP] at h6; exact h6
  · rintro rfl
    cases neg with
    | false =>
      obtain ⟨g1, g2⟩ : (r : ℚ) ≤ α ∧ α < r + 1 := by simpa [IntRounds] using hr
      simp only [sgn, Bool.false_eq_true, if_false, one_mul] at hc hv' grid
      rw [hc, hv']
      refine ⟨mul_le_mul_of_nonneg_right g1 hP.le, fun u _ hu => ?_⟩
      have h6 := floor_of_grid g2 (fun h => hBr (full h)) (grid u) (by rw [div_le_iff₀ hP]; exact hu)
      rw [div_le_iff₀ hP] at h6; exact h6
    | true =>
      obtain ⟨g1, g2⟩ : (r : ℚ) - 1 < α ∧ α ≤ r := by simpa [IntRounds] using hr
      simp only [sgn, if_true, neg_mul, one_mul] at hc hv' grid
      rw [hc, hv']
      refine ⟨neg_le_neg (mul_le_mul_of_nonneg_right g2 hP.le), fun u _ hu => ?_⟩
      have h6 := ceil_of_grid g1 (fun h => hB (full h)) (grid u) (by rw [le_div_iff₀ hP]; linarith)
      rw [le_div_iff₀ hP] at h6; linarith
  · rintro rfl
    cases neg with
    | true =>
      obtain ⟨g1, g2⟩ : (r : ℚ) ≤ α ∧ α < r + 1 := by simpa [IntRounds] using hr
      simp only [sgn, if_true, neg_mul, one_mul] at hc hv' grid
      rw [hc, hv']
      refine ⟨neg_le_neg (mul_le_mul_of_nonneg_right g1 hP.le), fun u _ hu => ?_⟩
      have h6 := floor_of_grid g2 (fun h => hBr (full h)) (grid u) (by rw [div_le_iff₀ hP]; linarith)
      rw [div_le_iff₀ hP] at h6; linarith
    | false =>
      obtain ⟨g1, g2⟩ : (r : ℚ) - 1 < α ∧ α ≤ r := by simpa [IntRounds] using hr
      simp only [sgn, Bool.false_eq_true, if_false, one_mul] at hc hv' grid
      rw [hc, hv']
      refine ⟨mul_le_mul_of_nonneg_right g2 hP.le, fun u _ hu => ?_⟩
      have h6 := ceil_of_grid g1 (fun h => hB (full h)) (grid u) (by rw [le_div_iff₀ hP]; exact hu)
      rw [le_div_iff₀ hP] at h6; exact h6

/-! ### The rounding of an exact number -/

theorem log2_bounds {m : Nat} (h : 0 < m) : 2 ^ Nat.log2 m ≤ m ∧ m < 2 ^ (Nat.log2 m + 1) :=
  ⟨Nat.log2_self_le (by omega), Nat.lt_log2_self⟩

/-- `roundTo` rounds once: of every number that the format can hold, given as m and a sticky bit in units of 2^e, it gives the
number of the format that the mode asks for, and says inexact where that is another number (R73, R74, R77). -/
theorem roundTo_rounded (t : ETy) (rm : RMode) (sat neg : Bool) (m : Nat) (e : Int) (sticky : Bool) (v : ℚ) (hm : 0 < m)
    (hc : Carried m sticky (|v| / 2 ^ e)) (hs : sticky = true → 2 ^ ((fmt t).mb + 2) ≤ m) (hv : v = sgn neg * |v|) (hf : Fits t v) :
    Rounded t rm v (roundTo t rm sat neg m e sticky).1 ∧
      ((roundTo t rm sat neg m e sticky).2.nx = true ↔ fpValue t (roundTo t rm sat neg m e sticky).1 ≠ v) := by
  obtain ⟨hv0, hmaxv, hfl⟩ := hf
  obtain ⟨f1, f2, f3, _⟩ := fmt_facts t
  set mb := (fmt t).mb with hmb
  set emin : Int := 1 - ((fmt t).bias : Int) - mb with hemin
  set top : Int := Nat.log2 m + e with htop
  set qu : Int := top - mb with hqu
  set q : Int := max qu emin with hq
  obtain ⟨l1, l2⟩ := log2_bounds hm
  have hE : (0 : ℚ) < 2 ^ e := by positivity
  have ha : |v| = (|v| / 2 ^ e) * 2 ^ e := by field_simp
  have hcb : (m : ℚ) ≤ |v| / 2 ^ e ∧ |v| / 2 ^ e < m + 1 := by
    unfold Carried at hc
    cases sticky with
    | true => rw [if_pos rfl] at hc; exact ⟨hc.1.le, hc.2⟩
    | false => rw [if_neg (by simp)] at hc; rw [hc]; exact ⟨le_refl _, by linarith⟩
  have htopn : (2 : ℚ) ^ top = 2 ^ Nat.log2 m * 2 ^ e := by rw [htop, zpow_add₀ (by norm_num), zpow_natCast]
  have hlow : (2 : ℚ) ^ top ≤ |v| := by
    rw [ha, htopn]
    exact mul_le_mul_of_nonneg_right (le_trans (by exact_mod_cast l1) hcb.1) hE.le
  have hhigh : |v| < 2 * 2 ^ top := by
    rw [ha, htopn, ← mul_assoc]
    apply mul_lt_mul_of_pos_right _ hE
    have : ((m + 1 : Nat) : ℚ) ≤ 2 * 2 ^ Nat.log2 m := by
      rw [show (2 : ℚ) * 2 ^ Nat.log2 m = ((2 ^ (Nat.log2 m + 1) : Nat) : ℚ) by push_cast; ring]
      exact_mod_cast l2
    push_cast at this; linarith [hcb.2]
  have hsq : sticky = true → e < qu := by
    intro h
    have h2 := hs h
    have : mb + 2 ≤ Nat.log2 m := by
      by_contra hlt
      have : 2 ^ (Nat.log2 m + 1) ≤ 2 ^ (mb + 2) := Nat.pow_le_pow_right (by norm_num) (by omega)
      omega
    omega
  have hB : ((2 ^ mb : Nat) : ℚ) = 2 ^ (mb : Int) := by push_cast; rw [zpow_natCast]
  -- below two full significands; no less than one where q is above the least exponent
  have scale : ∀ p : Int, qu ≤ p → |v| / 2 ^ p < 2 * (2 ^ mb : Nat) := by
    intro p hp
    rw [div_lt_iff₀ (by positivity), hB, mul_assoc, ← zpow_add₀ (by norm_num)]
    refine lt_of_lt_of_le hhigh ?_
    exact mul_le_mul_of_nonneg_left (zpow_le_zpow_right₀ (by norm_num) (by omega)) (by norm_num)
  have full : ((2 ^ mb : Nat) : ℚ) ≤ |v| / 2 ^ qu := by
    rw [le_div_iff₀ (by positivity), hB, ← zpow_add₀ (by norm_num)]
    refine le_trans (le_of_eq ?_) hlow
    congr 1; omega
  obtain ⟨hr, hnx⟩ := roundQ_rounds rm neg m e q sticky |v| hc (fun h => lt_of_lt_of_le (hsq h) (le_max_left _ _))
  obtain ⟨hru, _⟩ := roundQ_rounds rm neg m e qu sticky |v| hc hsq
  set R := roundQ rm neg m e q sticky with hR
  set d := (q - emin).toNat with hd
  have hdq : q = d + (1 - ((fmt t).bias : Int) - mb) := by omega
  have hfull : d ≠ 0 → ((2 ^ mb : Nat) : ℚ) ≤ |v| / 2 ^ q := by
    intro h
    have : q = qu := by omega
    rw [this]; exact full
  have h2 : R.1 ≤ 2 * 2 ^ mb := hr.le (by push_cast; have := scale q (le_max_left _ _); push_cast at this; exact this.le)
  -- it does not overflow
  have hmax : d * 2 ^ mb + R.1 ≤ (fmt t).maxCode := by
    have hval := magValue_make (fmt t) d R.1 h2 (by by_cases h : d = 0; exact .inl h; exact .inr (hr.ge (hfull h)))
    rw [fpValue_max] at hmaxv
    have hg := magCount_grid t (fmt t).maxCode q (by omega)
    rw [magCount_full t _ f2] at hg
    have hle : |v| / 2 ^ q ≤ magValue (fmt t) (fmt t).maxCode / 2 ^ q := div_le_div_of_nonneg_right hmaxv (by positivity)
    rw [← magValue_le (fmt t), hval, ← hdq, ← le_div_iff₀ (by positivity)]
    rcases hg with ⟨i, hi⟩ | ⟨h3, h4⟩
    · rw [hi] at hle ⊢
      have hi0 : 0 ≤ i := by
        have : (0 : ℚ) ≤ i := le_trans (div_nonneg (abs_nonneg v) (by positivity)) hle
        exact_mod_cast this
      obtain ⟨n, rfl⟩ := Int.eq_ofNat_of_zero_le hi0
      have := hr.le (n := n) (by exact_mod_cast hle)
      exact_mod_cast this
    · have h5 : d ≠ 0 := by intro h; simp at h3; omega
      have h6 := hfull h5
      have := (abs_lt.mp h4).2
      linarith
  -- and is not tiny in b16
  have hbig : (fmt t).flush = true → 1 - ((fmt t).bias : Int) ≤ top := by
    intro h
    have h3 := lt_of_le_of_lt (hfl h) hhigh
    rw [mul_comm, ← zpow_add_one₀ (by norm_num)] at h3
    have := (zpow_lt_zpow_iff_right₀ (by norm_num : (1 : ℚ) < 2)).mp h3
    omega
  have hnt : (fmt t).flush = true →
      (decide ((roundQ rm neg m e qu sticky).1 = 0) || decide ((Nat.log2 (roundQ rm neg m e qu sticky).1 : Int) + qu < 1 - (fmt t).bias)) = false := by
    intro h
    have h3 := hru.ge full
    have h4 := hbig h
    have h5 : 0 < 2 ^ mb := by positivity
    have h6 : mb ≤ Nat.log2 (roundQ rm neg m e qu sticky).1 := (Nat.le_log2 (by omega)).mpr h3
    simp only [Bool.or_eq_false_iff, decide_eq_false_iff_not]
    omega
  have hflB : (fmt t).flush = true → 2 ^ mb ≤ d * 2 ^ mb + R.1 := by
    intro h
    have h4 := hbig h
    have : q = qu := by omega
    have h3 : 2 ^ mb ≤ R.1 := by rw [hR, this]; exact hru.ge full
    omega
  have hout : roundTo t rm sat neg m e sticky =
      (fCode t neg (d * 2 ^ mb + R.1),
        { Exc.none with nx := R.2, uf := (decide ((roundQ rm neg m e qu sticky).1 = 0) ||
            decide ((Nat.log2 (roundQ rm neg m e qu sticky).1 : Int) + qu < 1 - (fmt t).bias)) && R.2 }) := by
    unfold roundTo
    simp only [← hmb, ← hemin, ← htop, ← hqu, ← hq, ← hR, ← hd, Nat.shiftLeft_eq]
    rw [if_neg (by omega), if_neg]
    intro h
    simp only [Bool.and_eq_true] at h
    rw [hnt h.1] at h
    exact absurd h.2 (by simp)
  obtain ⟨g1, g2⟩ := rounded_of_int t rm neg v q R.1 d hv hdq hr hfull h2 hmax hflB
  rw [hout]
  refine ⟨g1, ?_⟩
  rw [g2]
  show R.2 = true ↔ _
  rw [hnx]
  have hP : (0 : ℚ) < 2 ^ q := by positivity
  have hv' : v = sgn neg * ((|v| / 2 ^ q) * 2 ^ q) := by rw [div_mul_cancel₀ _ hP.ne']; exact hv
  constructor
  · intro h h3
    apply h
    rw [hv'] at h3
    have h4 : sgn neg ≠ 0 := by unfold sgn; cases neg <;> norm_num
    exact mul_right_cancel₀ hP.ne' (mul_left_cancel₀ h4 h3)
  · intro h h3
    apply h
    conv_rhs => rw [hv']
    rw [h3]

/-! ### The operations of R106 -/

/-- A finite code decodes to the number that it stands for. -/
theorem fDecode_finite (t : ETy) (x : Nat) (h : IsFinite t x) : ∃ (n : Bool) (m : Nat) (e : Int),
    fDecode t x = .fin n m e ∧ fpValue t x = sgn n * (m * 2 ^ e) ∧ m < 2 * 2 ^ (fmt t).mb := by
  have hm : ¬ fMag t x > (fmt t).maxCode := not_lt.mpr h.2
  have hlt := Nat.mod_lt (fMag t x) (show 0 < 2 ^ (fmt t).mb by positivity)
  have hval := fpValue_eq t x
  unfold magCount magValue at hval
  unfold fDecode
  simp only [hm, if_false, Nat.shiftRight_eq_div_pow]
  by_cases h0 : fMag t x / 2 ^ (fmt t).mb = 0
  · simp only [h0, if_true]
    cases hf : (fmt t).flush with
    | true =>
      refine ⟨_, _, _, rfl, ?_, by positivity⟩
      rw [hval, hf, h0]; simp
    | false =>
      refine ⟨_, _, _, rfl, ?_, by omega⟩
      rw [hval, hf, h0]; simp
  · simp only [h0, if_false]
    refine ⟨_, _, _, rfl, ?_, by omega⟩
    rw [hval]
    have h1 : max (fMag t x / 2 ^ (fmt t).mb) 1 = fMag t x / 2 ^ (fmt t).mb := by
      have := Nat.pos_of_ne_zero h0
      exact max_eq_left this
    rw [h1]
    simp [h0]

theorem sgn_mul (a b : Bool) : sgn a * sgn b = sgn (a != b) := by cases a <;> cases b <;> simp [sgn]
theorem abs_sgn (a : Bool) (x : ℚ) : |sgn a * x| = |x| := by cases a <;> simp [sgn]

/-- A number rounded by `roundTo` without a sticky bit. -/
theorem roundTo_exact (t : ETy) (rm : RMode) (sat neg : Bool) (m : Nat) (e : Int) (v : ℚ) (hv : v = sgn neg * (m * 2 ^ e)) (hf : Fits t v) :
    m ≠ 0 ∧ Rounded t rm v (roundTo t rm sat neg m e false).1 ∧
      ((roundTo t rm sat neg m e false).2.nx = true ↔ fpValue t (roundTo t rm sat neg m e false).1 ≠ v) := by
  have hm : m ≠ 0 := by
    rintro rfl
    exact hf.1 (by rw [hv]; simp)
  have ha : |v| = m * 2 ^ e := by rw [hv, abs_sgn, abs_of_nonneg (by positivity)]
  refine ⟨hm, roundTo_rounded t rm sat neg m e false v (by omega) ?_ (by simp) (by rw [ha]; exact hv) hf⟩
  unfold Carried
  rw [if_neg (by simp), ha]
  field_simp

/-- So is the datum that `fRound` is given. -/
theorem fRound_exact (t : ETy) (rm : RMode) (sat neg : Bool) (m : Nat) (e : Int) (v : ℚ) (hv : v = sgn neg * (m * 2 ^ e)) (hf : Fits t v) :
    Rounded t rm v (fRound t rm sat (.fin neg m e)).1 ∧
      ((fRound t rm sat (.fin neg m e)).2.nx = true ↔ fpValue t (fRound t rm sat (.fin neg m e)).1 ≠ v) := by
  obtain ⟨hm, h⟩ := roundTo_exact t rm sat neg m e v hv hf
  simp only [fRound, if_neg hm]
  exact h

/-- A sum of two data is rounded once. -/
theorem addRound_exact (t : ETy) (rm : RMode) (a b : Bool) (m n : Nat) (e k : Int) (inv : Bool) (v : ℚ)
    (hv : v = sgn a * (m * 2 ^ e) + sgn b * (n * 2 ^ k)) (hf : Fits t v) :
    Rounded t rm v (addRound t rm (.fin a m e) (.fin b n k) inv).1 ∧
      ((addRound t rm (.fin a m e) (.fin b n k) inv).2.nx = true ↔ fpValue t (addRound t rm (.fin a m e) (.fin b n k) inv).1 ≠ v) := by
  set lo := min e k with hlo
  set u : Int := ((m <<< (e - lo).toNat : Nat) : Int) with hu
  set w : Int := ((n <<< (k - lo).toNat : Nat) : Int) with hw
  set s : Int := (if a then -u else u) + (if b then -w else w) with hs
  have shift : ∀ (c : Nat) (p : Int), lo ≤ p → (c : ℚ) * 2 ^ p = ((c <<< (p - lo).toNat : Nat) : ℚ) * 2 ^ lo := by
    intro c p hp
    rw [Nat.shiftLeft_eq]
    push_cast
    rw [mul_assoc]
    congr 1
    rw [← zpow_natCast, ← zpow_add₀ (by norm_num)]
    congr 1; omega
  have hvs : v = (s : ℚ) * 2 ^ lo := by
    have hu' : (u : ℚ) = ((m <<< (e - lo).toNat : Nat) : ℚ) := Int.cast_natCast _
    have hw' : (w : ℚ) = ((n <<< (k - lo).toNat : Nat) : ℚ) := Int.cast_natCast _
    rw [hv, shift m e (min_le_left _ _), shift n k (min_le_right _ _), ← hu', ← hw', hs]
    clear hu' hw' hu hw
    cases a <;> cases b <;> simp [sgn] <;> ring
  have hs0 : s ≠ 0 := by
    intro h
    rw [h] at hvs
    exact hf.1 (by rw [hvs]; simp)
  have hv2 : v = sgn (decide (s < 0)) * ((s.natAbs : Nat) * 2 ^ lo) := by
    rw [hvs, ← mul_assoc]
    congr 1
    rcases lt_or_ge s 0 with h | h
    · simp only [h, decide_true, sgn, if_true]
      have : ((s.natAbs : Int) : ℚ) = ((-s : Int) : ℚ) := by congr 1; omega
      rw [Int.cast_natCast] at this
      rw [this]; push_cast; ring
    · have h' : ¬ s < 0 := not_lt.mpr h
      simp only [h', decide_false, sgn, Bool.false_eq_true, if_false, one_mul]
      have : ((s.natAbs : Int) : ℚ) = (s : ℚ) := by congr 1; omega
      rw [Int.cast_natCast] at this
      rw [this]
  have hr := (roundTo_exact t rm false (decide (s < 0)) s.natAbs lo v hv2 hf).2
  have ho : addRound t rm (.fin a m e) (.fin b n k) inv = roundTo t rm false (decide (s < 0)) s.natAbs lo false := by
    simp only [addRound, ← hlo, ← hu, ← hw, ← hs, if_neg hs0]
  rw [ho]
  exact hr

theorem negate_fin (n : Bool) (m : Nat) (e : Int) : (FNum.fin n m e).negate = .fin (!n) m e := rfl
theorem sgn_not (n : Bool) : sgn (!n) = -sgn n := by cases n <;> simp [sgn]

/-- The sticky quotient of R106 carries the exact one. -/
theorem quotient_carried (m n : Nat) (hn : 0 < n) : Carried (m * 2 ^ 64 / n) (m * 2 ^ 64 % n != 0) ((m : ℚ) * 2 ^ 64 / n) := by
  have hq : (0 : ℚ) < n := by exact_mod_cast hn
  have hdm := Nat.div_add_mod (m * 2 ^ 64) n
  have hml := Nat.mod_lt (m * 2 ^ 64) hn
  have hc : (m : ℚ) * 2 ^ 64 = n * ((m * 2 ^ 64 / n : Nat) : ℚ) + ((m * 2 ^ 64 % n : Nat) : ℚ) := by exact_mod_cast hdm.symm
  generalize m * 2 ^ 64 / n = Q at *
  generalize m * 2 ^ 64 % n = S at *
  unfold Carried
  split
  · next h =>
    have h0 : 0 < S := Nat.pos_of_ne_zero (by simpa using h)
    have h1 : (0 : ℚ) < S := by exact_mod_cast h0
    have h2 : (S : ℚ) < n := by exact_mod_cast hml
    rw [lt_div_iff₀ hq, div_lt_iff₀ hq, hc]
    constructor <;> linarith
  · next h =>
    have h0 : S = 0 := by simpa using h
    rw [h0] at hc
    rw [div_eq_iff hq.ne', hc]; push_cast; ring

/-- A quotient is rounded once. -/
theorem fDiv_exact (t : ETy) (rm : RMode) (x y : Nat) (hx : IsFinite t x) (hy : IsFinite t y) (v : ℚ) (hv : v = fpValue t x / fpValue t y)
    (hf : Fits t v) : Rounded t rm v (fDiv t rm x y).1 ∧ ((fDiv t rm x y).2.nx = true ↔ fpValue t (fDiv t rm x y).1 ≠ v) := by
  obtain ⟨a, m, e, hxd, hxv, _⟩ := fDecode_finite t x hx
  obtain ⟨b, n, k, hyd, hyv, hnb⟩ := fDecode_finite t y hy
  have hn : n ≠ 0 := by rintro rfl; exact hf.1 (by rw [hv, hyv]; simp)
  have hm : m ≠ 0 := by rintro rfl; exact hf.1 (by rw [hv, hxv]; simp)
  have hn0 : 0 < n := Nat.pos_of_ne_zero hn
  have hnq : (0 : ℚ) < n := by exact_mod_cast hn0
  have hva : v = sgn (a != b) * ((m : ℚ) * 2 ^ e / (n * 2 ^ k)) := by
    rw [hv, hxv, hyv, ← sgn_mul, mul_div_mul_comm]
    congr 1
    cases a <;> cases b <;> simp [sgn]
  have habs : |v| = (m : ℚ) * 2 ^ e / (n * 2 ^ k) := by rw [hva, abs_sgn, abs_of_nonneg (by positivity)]
  have hcar : Carried (m * 2 ^ 64 / n) (m * 2 ^ 64 % n != 0) (|v| / 2 ^ (e - 64 - k)) := by
    have hex : |v| / 2 ^ (e - 64 - k) = (m : ℚ) * 2 ^ 64 / n := by
      rw [habs, div_div, div_eq_div_iff (by positivity) (by positivity)]
      have : (2 : ℚ) ^ e = 2 ^ 64 * (2 ^ k * 2 ^ (e - 64 - k)) := by
        rw [← zpow_natCast, ← zpow_add₀ (by norm_num), ← zpow_add₀ (by norm_num)]
        congr 1; push_cast; ring
      rw [this]; ring
    rw [hex]; exact quotient_carried m n hn0
  have hbig : 2 ^ ((fmt t).mb + 2) ≤ m * 2 ^ 64 / n := by
    rw [Nat.le_div_iff_mul_le hn0]
    have h1 : (fmt t).mb ≤ 23 := by cases t <;> decide
    have h2 : 2 ^ (fmt t).mb ≤ 2 ^ 23 := Nat.pow_le_pow_right (by norm_num) h1
    have h3 : 2 ^ ((fmt t).mb + 2) * n ≤ 2 ^ 25 * 2 ^ 24 := by
      apply Nat.mul_le_mul
      · rw [Nat.pow_add]; omega
      · omega
    have : 1 * 2 ^ 64 ≤ m * 2 ^ 64 := Nat.mul_le_mul_right _ (Nat.pos_of_ne_zero hm)
    exact le_trans h3 (le_trans (by norm_num) this)
  have hpos : 0 < m * 2 ^ 64 / n := lt_of_lt_of_le (by positivity) hbig
  have hr := roundTo_rounded t rm false (a != b) (m * 2 ^ 64 / n) (e - 64 - k) (m * 2 ^ 64 % n != 0) v hpos hcar (fun _ => hbig)
    (by rw [habs]; exact hva) hf
  have ho : fDiv t rm x y = roundTo t rm false (a != b) (m * 2 ^ 64 / n) (e - 64 - k) (m * 2 ^ 64 % n != 0) := by
    simp only [fDiv, hxd, hyd, if_neg hn, if_neg hm, Nat.shiftLeft_eq]
  rw [ho]
  exact hr

end Sys2Proof.Machine
end

