-- ==== Sys2Proof/Laws/PerInstr.lean ====
section
/-! SUPPORT. The encoding of every instruction read back, one lemma per constructor. -/

set_option linter.unusedSimpArgs false
set_option Elab.async false

namespace Sys2Proof.Laws.Encoding

open Machine

/-- What the encoder writes, the decoder reads as the same instruction. -/
def Statement (i : Instr) : Prop := ReadBack i

/-- An arithmetic instruction is read back where its word1 is. -/
theorem arith_read {i : Instr} {w : Word} (he : encode i = some (0, w)) (ha : (aOps i).isSome = true)
    (hd : i.wf = true → decodeArith w = .ok i) : Statement i := by
  intro w0 w1 hw h
  rw [he] at h
  simp only [Option.some.injEq, Prod.mk.injEq] at h
  exact ⟨fun _ => h.2 ▸ hd hw, fun n => by simp [ha] at n⟩

/-- A control instruction is read back where its bundle is. -/
theorem ctl_read {i : Instr} {w0 w1 : Word} (he : encode i = some (w0, w1)) (ha : (aOps i).isSome = false)
    (hd : i.wf = true → ∀ m, runsOn m i = true → decodeControl m w0 w1 = .ok i) : Statement i := by
  intro v0 v1 hw h
  rw [he] at h
  simp only [Option.some.injEq, Prod.mk.injEq] at h
  exact ⟨fun n => by simp [ha] at n, fun _ m hm => h.1 ▸ h.2 ▸ hd hw m hm⟩

theorem bc (cnd : Cnd) (a : Opnd) (off : BitVec 15) : Statement (.bc cnd a off) := ctl_read rfl rfl fun hw m hm => by
  simp only [Instr.wf, Bool.and_eq_true, decide_eq_true_eq, List.contains_iff_mem] at hw
  have h : (opC (cb 0 0x01 (if cnd = .always then 0 else a.code) cnd.code off)).toNat = 1 := by rw [cb_opC]; rfl
  unfold decodeControl
  dsimp only
  rw [h]
  refine Eq.trans (b := guardForm _ _ _) rfl ?_
  cases cnd <;> simp_all [Cnd.code, cnd?, guardForm, ordF, az, mz]
theorem call (a : Opnd) (off : BitVec 15) : Statement (.call a off) := ctl_read rfl rfl fun hw m hm => by
  simp only [Instr.wf, Bool.and_eq_true, decide_eq_true_eq, List.contains_iff_mem] at hw
  have h : (opC (cb 0 0x02 a.code 0 off)).toNat = 2 := by rw [cb_opC]; rfl
  unfold decodeControl
  dsimp only
  rw [h]
  refine Eq.trans (b := guardForm _ _ _) rfl ?_
  simp [guardForm, ordF, az, bz, cz, fz, f3, b0, mz, rng, hw]
theorem jr (a b : Opnd) : Statement (.jr a b) := ctl_read rfl rfl fun hw m hm => by
  simp only [Instr.wf, Bool.and_eq_true, decide_eq_true_eq, List.contains_iff_mem] at hw
  have h : (opC (cr 0 0x03 a.code b.code 0 0)).toNat = 3 := by rw [cr_opC]; rfl
  unfold decodeControl
  dsimp only
  rw [h]
  refine Eq.trans (b := guardForm _ _ _) rfl ?_
  simp [guardForm, ordF, az, bz, cz, fz, f3, b0, mz, rng, hw]
theorem loop (a : Opnd) (off : BitVec 15) : Statement (.loop a off) := ctl_read rfl rfl fun hw m hm => by
  simp only [Instr.wf, Bool.and_eq_true, decide_eq_true_eq, List.contains_iff_mem] at hw
  have h : (opC (cb 0 0x04 a.code 0 off)).toNat = 4 := by rw [cb_opC]; rfl
  unfold decodeControl
  dsimp only
  rw [h]
  refine Eq.trans (b := guardForm _ _ _) rfl ?_
  simp [guardForm, ordF, az, bz, cz, fz, f3, b0, mz, rng, hw]
theorem loopi (off : BitVec 15) (count : Word) : Statement (.loopi off count) := ctl_read rfl rfl fun hw m hm => by
  simp only [Instr.wf, Bool.and_eq_true, decide_eq_true_eq, List.contains_iff_mem] at hw
  have h : (opC (cb 1 0x04 0 0 off)).toNat = 4 := by rw [cb_opC]; rfl
  unfold decodeControl
  dsimp only
  rw [h]
  refine Eq.trans (b := guardForm _ _ _) rfl ?_
  simp [guardForm, ordF, az, bz, cz, fz, f3, b0, mz, rng, hw]
theorem trap (n : BitVec 11) : Statement (.trap n) := ctl_read rfl rfl fun hw m hm => by
  simp only [Instr.wf, Bool.and_eq_true, decide_eq_true_eq, List.contains_iff_mem] at hw
  have h : (opC (ci 0 0x06 0 0 n)).toNat = 6 := by rw [ci_opC]; rfl
  unfold decodeControl
  dsimp only
  rw [h]
  refine Eq.trans (b := guardForm _ _ _) rfl ?_
  simp [guardForm, ordF, az, bz, cz, fz, f3, b0, mz, rng, hw]
theorem brk (n : BitVec 11) : Statement (.brk n) := ctl_read rfl rfl fun hw m hm => by
  simp only [Instr.wf, Bool.and_eq_true, decide_eq_true_eq, List.contains_iff_mem] at hw
  have h : (opC (ci 0 0x08 0 0 n)).toNat = 8 := by rw [ci_opC]; rfl
  unfold decodeControl
  dsimp only
  rw [h]
  refine Eq.trans (b := guardForm _ _ _) rfl ?_
  simp [guardForm, ordF, az, bz, cz, fz, f3, b0, mz, rng, hw]
theorem fsync (n : BitVec 11) : Statement (.fsync n) := ctl_read rfl rfl fun hw m hm => by
  simp only [Instr.wf, Bool.and_eq_true, decide_eq_true_eq, List.contains_iff_mem] at hw
  have h : (opC (ci 0 0x09 0 0 n)).toNat = 9 := by rw [ci_opC]; rfl
  unfold decodeControl
  dsimp only
  rw [h]
  refine Eq.trans (b := guardForm _ _ _) rfl ?_
  simp [guardForm, ordF, az, bz, cz, fz, f3, b0, mz, rng, hw]
theorem csrr (a : Opnd) (r : CReg) : Statement (.csrr a r) := ctl_read rfl rfl fun hw m hm => by
  simp only [Instr.wf, Bool.and_eq_true, decide_eq_true_eq, List.contains_iff_mem] at hw
  have h : (opC (ci 0 0x0a a.code 0 r.num)).toNat = 10 := by rw [ci_opC]; rfl
  unfold decodeControl
  dsimp only
  rw [h]
  refine Eq.trans (b := guardForm _ _ _) rfl ?_
  simp [guardForm, ordF, az, bz, cz, fz, f3, b0, mz, rng, hw]
theorem csrw (a : Opnd) (r : CReg) : Statement (.csrw a r) := ctl_read rfl rfl fun hw m hm => by
  simp only [Instr.wf, Bool.and_eq_true, decide_eq_true_eq, List.contains_iff_mem] at hw
  have h : (opC (ci 0 0x0b a.code 0 r.num)).toNat = 11 := by rw [ci_opC]; rfl
  unfold decodeControl
  dsimp only
  rw [h]
  refine Eq.trans (b := guardForm _ _ _) rfl ?_
  simp [guardForm, ordF, az, bz, cz, fz, f3, b0, mz, rng, hw]
theorem movi (a : Opnd) (imm : Word) : Statement (.movi a imm) := ctl_read rfl rfl fun hw m hm => by
  simp only [Instr.wf, Bool.and_eq_true, decide_eq_true_eq, List.contains_iff_mem] at hw
  have h : (opC (cr 1 0x0c a.code 0 0 0)).toNat = 12 := by rw [cr_opC]; rfl
  unfold decodeControl
  dsimp only
  rw [h]
  refine Eq.trans (b := guardForm _ _ _) rfl ?_
  simp [guardForm, ordF, az, bz, cz, fz, f3, b0, mz, rng, hw]
theorem adda (a b : Opnd) (k : BitVec 11) : Statement (.adda a b k) := ctl_read rfl rfl fun hw m hm => by
  simp only [Instr.wf, Bool.and_eq_true, decide_eq_true_eq, List.contains_iff_mem] at hw
  have h : (opC (ci 0 0x0d a.code b.code k)).toNat = 13 := by rw [ci_opC]; rfl
  unfold decodeControl
  dsimp only
  rw [h]
  refine Eq.trans (b := guardForm _ _ _) rfl ?_
  simp [guardForm, ordF, az, bz, cz, fz, f3, b0, mz, rng, hw]
theorem ldb (a b : Opnd) (off : BitVec 5) (ord : Ord) (scp : Scp) : Statement (.ldb a b off ord scp) := ctl_read rfl rfl fun hw m hm => by
  simp only [Instr.wf, Bool.and_eq_true, decide_eq_true_eq, List.contains_iff_mem] at hw
  have h : (opC (cm 0 0x10 a.code b.code off ord.code scp.code)).toNat = 16 := by rw [cm_opC]; rfl
  unfold decodeControl
  dsimp only
  rw [h]
  refine Eq.trans (b := guardForm _ _ _) rfl ?_
  simp [guardForm, ordF, az, bz, cz, fz, f3, b0, mz, rng, hw]
theorem ldh (a b : Opnd) (off : BitVec 5) (ord : Ord) (scp : Scp) : Statement (.ldh a b off ord scp) := ctl_read rfl rfl fun hw m hm => by
  simp only [Instr.wf, Bool.and_eq_true, decide_eq_true_eq, List.contains_iff_mem] at hw
  have h : (opC (cm 0 0x11 a.code b.code off ord.code scp.code)).toNat = 17 := by rw [cm_opC]; rfl
  unfold decodeControl
  dsimp only
  rw [h]
  refine Eq.trans (b := guardForm _ _ _) rfl ?_
  simp [guardForm, ordF, az, bz, cz, fz, f3, b0, mz, rng, hw]
theorem ldw (a b : Opnd) (off : BitVec 5) (ord : Ord) (scp : Scp) : Statement (.ldw a b off ord scp) := ctl_read rfl rfl fun hw m hm => by
  simp only [Instr.wf, Bool.and_eq_true, decide_eq_true_eq, List.contains_iff_mem] at hw
  have h : (opC (cm 0 0x12 a.code b.code off ord.code scp.code)).toNat = 18 := by rw [cm_opC]; rfl
  unfold decodeControl
  dsimp only
  rw [h]
  refine Eq.trans (b := guardForm _ _ _) rfl ?_
  simp [guardForm, ordF, az, bz, cz, fz, f3, b0, mz, rng, hw]
theorem ldd (a b : Opnd) (off : BitVec 5) (ord : Ord) (scp : Scp) : Statement (.ldd a b off ord scp) := ctl_read rfl rfl fun hw m hm => by
  simp only [Instr.wf, Bool.and_eq_true, decide_eq_true_eq, List.contains_iff_mem] at hw
  have h : (opC (cm 0 0x13 a.code b.code off ord.code scp.code)).toNat = 19 := by rw [cm_opC]; rfl
  unfold decodeControl
  dsimp only
  rw [h]
  refine Eq.trans (b := guardForm _ _ _) rfl ?_
  simp [guardForm, ordF, az, bz, cz, fz, f3, b0, mz, rng, hw]
theorem ldv (a b : Opnd) (off : BitVec 5) (ord : Ord) (scp : Scp) : Statement (.ldv a b off ord scp) := ctl_read rfl rfl fun hw m hm => by
  simp only [Instr.wf, Bool.and_eq_true, decide_eq_true_eq, List.contains_iff_mem] at hw
  have h : (opC (cm 0 0x14 a.code b.code off ord.code scp.code)).toNat = 20 := by rw [cm_opC]; rfl
  unfold decodeControl
  dsimp only
  rw [h]
  refine Eq.trans (b := guardForm _ _ _) rfl ?_
  simp [guardForm, ordF, az, bz, cz, fz, f3, b0, mz, rng, hw]
theorem ldbLone (a b : Opnd) (ord : Ord) (scp : Scp) (ext : Word) : Statement (.ldbLone a b ord scp ext) := ctl_read rfl rfl fun hw m hm => by
  simp only [Instr.wf, Bool.and_eq_true, decide_eq_true_eq, List.contains_iff_mem] at hw
  have h : (opC (cm 1 0x10 a.code b.code 0 ord.code scp.code)).toNat = 16 := by rw [cm_opC]; rfl
  unfold decodeControl
  dsimp only
  rw [h]
  refine Eq.trans (b := guardForm _ _ _) rfl ?_
  simp [guardForm, ordF, az, bz, cz, fz, f3, b0, mz, rng, hw]
theorem ldhLone (a b : Opnd) (ord : Ord) (scp : Scp) (ext : Word) : Statement (.ldhLone a b ord scp ext) := ctl_read rfl rfl fun hw m hm => by
  simp only [Instr.wf, Bool.and_eq_true, decide_eq_true_eq, List.contains_iff_mem] at hw
  have h : (opC (cm 1 0x11 a.code b.code 0 ord.code scp.code)).toNat = 17 := by rw [cm_opC]; rfl
  unfold decodeControl
  dsimp only
  rw [h]
  refine Eq.trans (b := guardForm _ _ _) rfl ?_
  simp [guardForm, ordF, az, bz, cz, fz, f3, b0, mz, rng, hw]
theorem ldwLone (a b : Opnd) (ord : Ord) (scp : Scp) (ext : Word) : Statement (.ldwLone a b ord scp ext) := ctl_read rfl rfl fun hw m hm => by
  simp only [Instr.wf, Bool.and_eq_true, decide_eq_true_eq, List.contains_iff_mem] at hw
  have h : (opC (cm 1 0x12 a.code b.code 0 ord.code scp.code)).toNat = 18 := by rw [cm_opC]; rfl
  unfold decodeControl
  dsimp only
  rw [h]
  refine Eq.trans (b := guardForm _ _ _) rfl ?_
  simp [guardForm, ordF, az, bz, cz, fz, f3, b0, mz, rng, hw]
theorem lddLone (a b : Opnd) (ord : Ord) (scp : Scp) (ext : Word) : Statement (.lddLone a b ord scp ext) := ctl_read rfl rfl fun hw m hm => by
  simp only [Instr.wf, Bool.and_eq_true, decide_eq_true_eq, List.contains_iff_mem] at hw
  have h : (opC (cm 1 0x13 a.code b.code 0 ord.code scp.code)).toNat = 19 := by rw [cm_opC]; rfl
  unfold decodeControl
  dsimp only
  rw [h]
  refine Eq.trans (b := guardForm _ _ _) rfl ?_
  simp [guardForm, ordF, az, bz, cz, fz, f3, b0, mz, rng, hw]
theorem ldvLone (a b : Opnd) (ord : Ord) (scp : Scp) (ext : Word) : Statement (.ldvLone a b ord scp ext) := ctl_read rfl rfl fun hw m hm => by
  simp only [Instr.wf, Bool.and_eq_true, decide_eq_true_eq, List.contains_iff_mem] at hw
  have h : (opC (cm 1 0x14 a.code b.code 0 ord.code scp.code)).toNat = 20 := by rw [cm_opC]; rfl
  unfold decodeControl
  dsimp only
  rw [h]
  refine Eq.trans (b := guardForm _ _ _) rfl ?_
  simp [guardForm, ordF, az, bz, cz, fz, f3, b0, mz, rng, hw]
theorem stb (a b : Opnd) (off : BitVec 5) (ord : Ord) (scp : Scp) : Statement (.stb a b off ord scp) := ctl_read rfl rfl fun hw m hm => by
  simp only [Instr.wf, Bool.and_eq_true, decide_eq_true_eq, List.contains_iff_mem] at hw
  have h : (opC (cm 0 0x15 a.code b.code off ord.code scp.code)).toNat = 21 := by rw [cm_opC]; rfl
  unfold decodeControl
  dsimp only
  rw [h]
  refine Eq.trans (b := guardForm _ _ _) rfl ?_
  simp [guardForm, ordF, az, bz, cz, fz, f3, b0, mz, rng, hw]
theorem sth (a b : Opnd) (off : BitVec 5) (ord : Ord) (scp : Scp) : Statement (.sth a b off ord scp) := ctl_read rfl rfl fun hw m hm => by
  simp only [Instr.wf, Bool.and_eq_true, decide_eq_true_eq, List.contains_iff_mem] at hw
  have h : (opC (cm 0 0x16 a.code b.code off ord.code scp.code)).toNat = 22 := by rw [cm_opC]; rfl
  unfold decodeControl
  dsimp only
  rw [h]
  refine Eq.trans (b := guardForm _ _ _) rfl ?_
  simp [guardForm, ordF, az, bz, cz, fz, f3, b0, mz, rng, hw]
theorem stw (a b : Opnd) (off : BitVec 5) (ord : Ord) (scp : Scp) : Statement (.stw a b off ord scp) := ctl_read rfl rfl fun hw m hm => by
  simp only [Instr.wf, Bool.and_eq_true, decide_eq_true_eq, List.contains_iff_mem] at hw
  have h : (opC (cm 0 0x17 a.code b.code off ord.code scp.code)).toNat = 23 := by rw [cm_opC]; rfl
  unfold decodeControl
  dsimp only
  rw [h]
  refine Eq.trans (b := guardForm _ _ _) rfl ?_
  simp [guardForm, ordF, az, bz, cz, fz, f3, b0, mz, rng, hw]
theorem std (a b : Opnd) (off : BitVec 5) (ord : Ord) (scp : Scp) : Statement (.std a b off ord scp) := ctl_read rfl rfl fun hw m hm => by
  simp only [Instr.wf, Bool.and_eq_true, decide_eq_true_eq, List.contains_iff_mem] at hw
  have h : (opC (cm 0 0x18 a.code b.code off ord.code scp.code)).toNat = 24 := by rw [cm_opC]; rfl
  unfold decodeControl
  dsimp only
  rw [h]
  refine Eq.trans (b := guardForm _ _ _) rfl ?_
  simp [guardForm, ordF, az, bz, cz, fz, f3, b0, mz, rng, hw]
theorem stv (a b : Opnd) (off : BitVec 5) (ord : Ord) (scp : Scp) : Statement (.stv a b off ord scp) := ctl_read rfl rfl fun hw m hm => by
  simp only [Instr.wf, Bool.and_eq_true, decide_eq_true_eq, List.contains_iff_mem] at hw
  have h : (opC (cm 0 0x19 a.code b.code off ord.code scp.code)).toNat = 25 := by rw [cm_opC]; rfl
  unfold decodeControl
  dsimp only
  rw [h]
  refine Eq.trans (b := guardForm _ _ _) rfl ?_
  simp [guardForm, ordF, az, bz, cz, fz, f3, b0, mz, rng, hw]
theorem stbLone (a b : Opnd) (ord : Ord) (scp : Scp) (ext : Word) : Statement (.stbLone a b ord scp ext) := ctl_read rfl rfl fun hw m hm => by
  simp only [Instr.wf, Bool.and_eq_true, decide_eq_true_eq, List.contains_iff_mem] at hw
  have h : (opC (cm 1 0x15 a.code b.code 0 ord.code scp.code)).toNat = 21 := by rw [cm_opC]; rfl
  unfold decodeControl
  dsimp only
  rw [h]
  refine Eq.trans (b := guardForm _ _ _) rfl ?_
  simp [guardForm, ordF, az, bz, cz, fz, f3, b0, mz, rng, hw]
theorem sthLone (a b : Opnd) (ord : Ord) (scp : Scp) (ext : Word) : Statement (.sthLone a b ord scp ext) := ctl_read rfl rfl fun hw m hm => by
  simp only [Instr.wf, Bool.and_eq_true, decide_eq_true_eq, List.contains_iff_mem] at hw
  have h : (opC (cm 1 0x16 a.code b.code 0 ord.code scp.code)).toNat = 22 := by rw [cm_opC]; rfl
  unfold decodeControl
  dsimp only
  rw [h]
  refine Eq.trans (b := guardForm _ _ _) rfl ?_
  simp [guardForm, ordF, az, bz, cz, fz, f3, b0, mz, rng, hw]
theorem stwLone (a b : Opnd) (ord : Ord) (scp : Scp) (ext : Word) : Statement (.stwLone a b ord scp ext) := ctl_read rfl rfl fun hw m hm => by
  simp only [Instr.wf, Bool.and_eq_true, decide_eq_true_eq, List.contains_iff_mem] at hw
  have h : (opC (cm 1 0x17 a.code b.code 0 ord.code scp.code)).toNat = 23 := by rw [cm_opC]; rfl
  unfold decodeControl
  dsimp only
  rw [h]
  refine Eq.trans (b := guardForm _ _ _) rfl ?_
  simp [guardForm, ordF, az, bz, cz, fz, f3, b0, mz, rng, hw]
theorem stdLone (a b : Opnd) (ord : Ord) (scp : Scp) (ext : Word) : Statement (.stdLone a b ord scp ext) := ctl_read rfl rfl fun hw m hm => by
  simp only [Instr.wf, Bool.and_eq_true, decide_eq_true_eq, List.contains_iff_mem] at hw
  have h : (opC (cm 1 0x18 a.code b.code 0 ord.code scp.code)).toNat = 24 := by rw [cm_opC]; rfl
  unfold decodeControl
  dsimp only
  rw [h]
  refine Eq.trans (b := guardForm _ _ _) rfl ?_
  simp [guardForm, ordF, az, bz, cz, fz, f3, b0, mz, rng, hw]
theorem stvLone (a b : Opnd) (ord : Ord) (scp : Scp) (ext : Word) : Statement (.stvLone a b ord scp ext) := ctl_read rfl rfl fun hw m hm => by
  simp only [Instr.wf, Bool.and_eq_true, decide_eq_true_eq, List.contains_iff_mem] at hw
  have h : (opC (cm 1 0x19 a.code b.code 0 ord.code scp.code)).toNat = 25 := by rw [cm_opC]; rfl
  unfold decodeControl
  dsimp only
  rw [h]
  refine Eq.trans (b := guardForm _ _ _) rfl ?_
  simp [guardForm, ordF, az, bz, cz, fz, f3, b0, mz, rng, hw]
theorem ldx (a b c : Opnd) (size : MSize) : Statement (.ldx a b c size) := ctl_read rfl rfl fun hw m hm => by
  simp only [Instr.wf, Bool.and_eq_true, decide_eq_true_eq, List.contains_iff_mem] at hw
  have h : (opC (cr 0 0x1a a.code b.code c.code size.code)).toNat = 26 := by rw [cr_opC]; rfl
  unfold decodeControl
  dsimp only
  rw [h]
  refine Eq.trans (b := guardForm _ _ _) rfl ?_
  simp (disch := decide) only [cr_low, cr_bit, ci_low, ci_bit, ar_low, ar_bit, ai_low, atomExt, f3, size_top, extract_all, extract_low, extract_high, get_low, get_high, Nat.reduceSub]
  simp [guardForm, ordF, az, bz, cz, fz, f3, b0, mz, rng, hw]
theorem stx (a b c : Opnd) (size : MSize) : Statement (.stx a b c size) := ctl_read rfl rfl fun hw m hm => by
  simp only [Instr.wf, Bool.and_eq_true, decide_eq_true_eq, List.contains_iff_mem] at hw
  have h : (opC (cr 0 0x1b a.code b.code c.code size.code)).toNat = 27 := by rw [cr_opC]; rfl
  unfold decodeControl
  dsimp only
  rw [h]
  refine Eq.trans (b := guardForm _ _ _) rfl ?_
  simp (disch := decide) only [cr_low, cr_bit, ci_low, ci_bit, ar_low, ar_bit, ai_low, atomExt, f3, size_top, extract_all, extract_low, extract_high, get_low, get_high, Nat.reduceSub]
  simp [guardForm, ordF, az, bz, cz, fz, f3, b0, mz, rng, hw]
theorem amo (op : AmoOp) (a b c : Opnd) (ord : Ord) (scp : Scp) (d64 : Bool) : Statement (.amo op a b c ord scp d64) := ctl_read rfl rfl fun hw m hm => by
  simp only [Instr.wf, Bool.and_eq_true, decide_eq_true_eq, List.contains_iff_mem] at hw
  have h : (opC (cr 1 0x1c a.code b.code c.code op.code)).toNat = 28 := by rw [cr_opC]; rfl
  unfold decodeControl
  dsimp only
  rw [h]
  refine Eq.trans (b := guardForm _ _ _) rfl ?_
  simp (disch := decide) only [cr_low, cr_bit, ci_low, ci_bit, ar_low, ar_bit, ai_low, atomExt, f3, size_top, extract_all, extract_low, extract_high, get_low, get_high, Nat.reduceSub]
  simp [guardForm, ordF, az, bz, cz, fz, f3, b0, mz, rng, hw]
theorem cas (a b c : Opnd) (ord : Ord) (scp : Scp) (d64 : Bool) : Statement (.cas a b c ord scp d64) := ctl_read rfl rfl fun hw m hm => by
  simp only [Instr.wf, Bool.and_eq_true, decide_eq_true_eq, List.contains_iff_mem] at hw
  have h : (opC (cr 1 0x1d a.code b.code c.code 0)).toNat = 29 := by rw [cr_opC]; rfl
  unfold decodeControl
  dsimp only
  rw [h]
  refine Eq.trans (b := guardForm _ _ _) rfl ?_
  simp (disch := decide) only [cr_low, cr_bit, ci_low, ci_bit, ar_low, ar_bit, ai_low, atomExt, f3, size_top, extract_all, extract_low, extract_high, get_low, get_high, Nat.reduceSub]
  simp [guardForm, ordF, az, bz, cz, fz, f3, b0, mz, rng, hw]
theorem fence (kind : FKind) (scp : Scp) (e : Bool) : Statement (.fence kind scp e) := ctl_read rfl rfl fun hw m hm => by
  simp only [Instr.wf, Bool.and_eq_true, decide_eq_true_eq, List.contains_iff_mem] at hw
  have h : (opC (ci 0 0x1e 0 0 ((0 : BitVec 5) ++ BitVec.ofBool e ++ kind.code ++ scp.code))).toNat = 30 := by rw [ci_opC]; rfl
  unfold decodeControl
  dsimp only
  rw [h]
  refine Eq.trans (b := guardForm _ _ _) rfl ?_
  simp (disch := decide) only [cr_low, cr_bit, ci_low, ci_bit, ar_low, ar_bit, ai_low, atomExt, f3, size_top, extract_all, extract_low, extract_high, get_low, get_high, Nat.reduceSub]
  simp [guardForm, ordF, az, bz, cz, fz, f3, b0, mz, rng, hw]
theorem strm (a : Opnd) : Statement (.strm a) := ctl_read rfl rfl fun hw m hm => by
  simp only [Instr.wf, Bool.and_eq_true, decide_eq_true_eq, List.contains_iff_mem] at hw
  have h : (opC (cr 0 0x20 a.code 0 0 0)).toNat = 32 := by rw [cr_opC]; rfl
  unfold decodeControl
  dsimp only
  rw [h]
  refine Eq.trans (b := guardForm _ _ _) rfl ?_
  simp [guardForm, ordF, az, bz, cz, fz, f3, b0, mz, rng, hw]
theorem cpy (kind : CpyKind) (a b : Opnd) : Statement (.cpy kind a b) := ctl_read rfl rfl fun hw m hm => by
  simp only [Instr.wf, Bool.and_eq_true, decide_eq_true_eq, List.contains_iff_mem] at hw
  have h : (opC (cr 0 0x21 a.code b.code 0 kind.code)).toNat = 33 := by rw [cr_opC]; rfl
  unfold decodeControl
  dsimp only
  rw [h]
  refine Eq.trans (b := guardForm _ _ _) rfl ?_
  simp [guardForm, ordF, az, bz, cz, fz, f3, b0, mz, rng, hw]
theorem cpseal (a : Opnd) : Statement (.cpseal a) := ctl_read rfl rfl fun hw m hm => by
  simp only [Instr.wf, Bool.and_eq_true, decide_eq_true_eq, List.contains_iff_mem] at hw
  have h : (opC (cr 0 0x22 a.code 0 0 0)).toNat = 34 := by rw [cr_opC]; rfl
  unfold decodeControl
  dsimp only
  rw [h]
  refine Eq.trans (b := guardForm _ _ _) rfl ?_
  simp [guardForm, ordF, az, bz, cz, fz, f3, b0, mz, rng, hw]
theorem cpwait (all : Bool) (a b : Opnd) : Statement (.cpwait all a b) := ctl_read rfl rfl fun hw m hm => by
  simp only [Instr.wf, Bool.and_eq_true, decide_eq_true_eq, List.contains_iff_mem] at hw
  have h : (opC (ci 0 0x23 a.code (if all then 0 else b.code) ((0 : BitVec 10) ++ BitVec.ofBool all))).toNat = 35 := by rw [ci_opC]; rfl
  unfold decodeControl
  dsimp only
  rw [h]
  refine Eq.trans (b := guardForm _ _ _) rfl ?_
  simp (disch := decide) only [cr_low, cr_bit, ci_low, ci_bit, ar_low, ar_bit, ai_low, atomExt, f3, size_top, extract_all, extract_low, extract_high, get_low, get_high, Nat.reduceSub]
  cases all
  · have hb : b.srcC = true := by simpa using hw.2
    simp [guardForm, bz, mz, hw, hb]
  · have hb : b = .z := by simpa using hw.2
    simp [guardForm, bz, mz, hw, hb]
theorem sti (a b : Opnd) (off : BitVec 5) (ord : Ord) (scp : Scp) : Statement (.sti a b off ord scp) := ctl_read rfl rfl fun hw m hm => by
  simp only [Instr.wf, Bool.and_eq_true, decide_eq_true_eq, List.contains_iff_mem] at hw
  have h : (opC (cm 0 0x24 a.code b.code off ord.code scp.code)).toNat = 36 := by rw [cm_opC]; rfl
  unfold decodeControl
  dsimp only
  rw [h]
  refine Eq.trans (b := guardForm _ _ _) rfl ?_
  simp [guardForm, ordF, az, bz, cz, fz, f3, b0, mz, rng, hw]
theorem stiLone (a b : Opnd) (ord : Ord) (scp : Scp) (ext : Word) : Statement (.stiLone a b ord scp ext) := ctl_read rfl rfl fun hw m hm => by
  simp only [Instr.wf, Bool.and_eq_true, decide_eq_true_eq, List.contains_iff_mem] at hw
  have h : (opC (cm 1 0x24 a.code b.code 0 ord.code scp.code)).toNat = 36 := by rw [cm_opC]; rfl
  unfold decodeControl
  dsimp only
  rw [h]
  refine Eq.trans (b := guardForm _ _ _) rfl ?_
  simp [guardForm, ordF, az, bz, cz, fz, f3, b0, mz, rng, hw]
theorem send (a b : Opnd) : Statement (.send a b) := ctl_read rfl rfl fun hw m hm => by
  simp only [Instr.wf, Bool.and_eq_true, decide_eq_true_eq, List.contains_iff_mem] at hw
  have h : (opC (cr 0 0x28 a.code b.code 0 0)).toNat = 40 := by rw [cr_opC]; rfl
  unfold decodeControl
  dsimp only
  rw [h]
  refine Eq.trans (b := guardForm _ _ _) rfl ?_
  simp (disch := decide) only [cr_low, cr_bit, ci_low, ci_bit, ar_low, ar_bit, ai_low, atomExt, f3, size_top, extract_all, extract_low, extract_high, get_low, get_high, Nat.reduceSub]
  simp [guardForm, ordF, az, bz, cz, fz, f3, b0, mz, rng, hw]
theorem sendGrp (a b : Opnd) : Statement (.sendGrp a b) := ctl_read rfl rfl fun hw m hm => by
  simp only [Instr.wf, Bool.and_eq_true, decide_eq_true_eq, List.contains_iff_mem] at hw
  have h : (opC (cr 0 0x28 a.code b.code 0 8)).toNat = 40 := by rw [cr_opC]; rfl
  unfold decodeControl
  dsimp only
  rw [h]
  refine Eq.trans (b := guardForm _ _ _) rfl ?_
  simp (disch := decide) only [cr_low, cr_bit, ci_low, ci_bit, ar_low, ar_bit, ai_low, atomExt, f3, size_top, extract_all, extract_low, extract_high, get_low, get_high, Nat.reduceSub]
  simp [guardForm, ordF, az, bz, cz, fz, f3, b0, mz, rng, hw]
theorem senda (a b : Opnd) : Statement (.senda a b) := ctl_read rfl rfl fun hw m hm => by
  simp only [Instr.wf, Bool.and_eq_true, decide_eq_true_eq, List.contains_iff_mem] at hw
  have h : (opC (cr 0 0x29 a.code b.code 0 0)).toNat = 41 := by rw [cr_opC]; rfl
  unfold decodeControl
  dsimp only
  rw [h]
  refine Eq.trans (b := guardForm _ _ _) rfl ?_
  simp [guardForm, ordF, az, bz, cz, fz, f3, b0, mz, rng, hw]
theorem tagsetOn (t : BitVec 8) : Statement (.tagsetOn t) := ctl_read rfl rfl fun hw m hm => by
  simp only [Instr.wf, Bool.and_eq_true, decide_eq_true_eq, List.contains_iff_mem] at hw
  have h : (opC (ci 0 0x2c 0 0 ((1 : BitVec 3) ++ t))).toNat = 44 := by rw [ci_opC]; rfl
  unfold decodeControl
  dsimp only
  rw [h]
  refine Eq.trans (b := guardForm _ _ _) rfl ?_
  simp (disch := decide) only [cr_low, cr_bit, ci_low, ci_bit, ar_low, ar_bit, ai_low, atomExt, f3, size_top, extract_all, extract_low, extract_high, get_low, get_high, Nat.reduceSub]
  simp [guardForm, ordF, az, bz, cz, fz, f3, b0, mz, rng, hw]
theorem tagsetOff (t : BitVec 8) : Statement (.tagsetOff t) := ctl_read rfl rfl fun hw m hm => by
  simp only [Instr.wf, Bool.and_eq_true, decide_eq_true_eq, List.contains_iff_mem] at hw
  have h : (opC (ci 0 0x2c 0 0 ((0 : BitVec 3) ++ t))).toNat = 44 := by rw [ci_opC]; rfl
  unfold decodeControl
  dsimp only
  rw [h]
  refine Eq.trans (b := guardForm _ _ _) rfl ?_
  simp (disch := decide) only [cr_low, cr_bit, ci_low, ci_bit, ar_low, ar_bit, ai_low, atomExt, f3, size_top, extract_all, extract_low, extract_high, get_low, get_high, Nat.reduceSub]
  simp [guardForm, ordF, az, bz, cz, fz, f3, b0, mz, rng, hw]
theorem dcarm (a b : Opnd) : Statement (.dcarm a b) := ctl_read rfl rfl fun hw m hm => by
  simp only [Instr.wf, Bool.and_eq_true, decide_eq_true_eq, List.contains_iff_mem] at hw
  have h : (opC (cr 0 0x2d a.code b.code 0 0)).toNat = 45 := by rw [cr_opC]; rfl
  unfold decodeControl
  dsimp only
  rw [h]
  refine Eq.trans (b := guardForm _ _ _) rfl ?_
  simp [guardForm, ordF, az, bz, cz, fz, f3, b0, mz, rng, hw]
theorem dcdec (a : Opnd) : Statement (.dcdec a) := ctl_read rfl rfl fun hw m hm => by
  simp only [Instr.wf, Bool.and_eq_true, decide_eq_true_eq, List.contains_iff_mem] at hw
  have h : (opC (cr 0 0x2e a.code 0 0 0)).toNat = 46 := by rw [cr_opC]; rfl
  unfold decodeControl
  dsimp only
  rw [h]
  refine Eq.trans (b := guardForm _ _ _) rfl ?_
  simp [guardForm, ordF, az, bz, cz, fz, f3, b0, mz, rng, hw]
theorem gbar (k : BitVec 2) : Statement (.gbar k) := ctl_read rfl rfl fun hw m hm => by
  simp only [Instr.wf, Bool.and_eq_true, decide_eq_true_eq, List.contains_iff_mem] at hw
  have h : (opC (ci 0 0x2f 0 0 ((0 : BitVec 9) ++ k))).toNat = 47 := by rw [ci_opC]; rfl
  unfold decodeControl
  dsimp only
  rw [h]
  refine Eq.trans (b := guardForm _ _ _) rfl ?_
  simp (disch := decide) only [cr_low, cr_bit, ci_low, ci_bit, ar_low, ar_bit, ai_low, atomExt, f3, size_top, extract_all, extract_low, extract_high, get_low, get_high, Nat.reduceSub]
  simp [guardForm, ordF, az, bz, cz, fz, f3, b0, mz, rng, hw]
theorem mgang (a b : Opnd) (g : GangWord) : Statement (.mgang a b g) := ctl_read rfl rfl fun hw m hm => by
  simp only [Instr.wf, Bool.and_eq_true, decide_eq_true_eq, List.contains_iff_mem] at hw
  have h : (opC (cr 1 0x30 a.code b.code 0 0)).toNat = 48 := by rw [cr_opC]; rfl
  obtain rfl : m = false := by simpa [runsOn] using hm
  unfold decodeControl
  dsimp only
  rw [h]
  refine Eq.trans (b := guardForm _ _ _) rfl ?_
  rw [gang_code g hw.2]
  simp [guardForm, ordF, az, bz, cz, fz, f3, b0, mz, rng, hw]
theorem mcode (a : Opnd) : Statement (.mcode a) := ctl_read rfl rfl fun hw m hm => by
  simp only [Instr.wf, Bool.and_eq_true, decide_eq_true_eq, List.contains_iff_mem] at hw
  have h : (opC (cr 0 0x31 a.code 0 0 0)).toNat = 49 := by rw [cr_opC]; rfl
  obtain rfl : m = false := by simpa [runsOn] using hm
  unfold decodeControl
  dsimp only
  rw [h]
  refine Eq.trans (b := guardForm _ _ _) rfl ?_
  simp [guardForm, ordF, az, bz, cz, fz, f3, b0, mz, rng, hw]
theorem accrd (conv : Conv) (a b : Opnd) : Statement (.accrd conv a b) := ctl_read rfl rfl fun hw m hm => by
  simp only [Instr.wf, Bool.and_eq_true, decide_eq_true_eq, List.contains_iff_mem] at hw
  have h : (opC (cr 0 0x32 a.code b.code 0 conv.code)).toNat = 50 := by rw [cr_opC]; rfl
  obtain rfl : m = false := by simpa [runsOn] using hm
  unfold decodeControl
  dsimp only
  rw [h]
  refine Eq.trans (b := guardForm _ _ _) rfl ?_
  simp [guardForm, ordF, az, bz, cz, fz, f3, b0, mz, rng, hw]
theorem accz (ring : Ring) (first last : BitVec 4) : Statement (.accz ring first last) := ctl_read rfl rfl fun hw m hm => by
  simp only [Instr.wf, Bool.and_eq_true, decide_eq_true_eq, List.contains_iff_mem] at hw
  have h : (opC (ci 0 0x33 0 0 ((0 : BitVec 1) ++ ring.code ++ last ++ first))).toNat = 51 := by rw [ci_opC]; rfl
  obtain rfl : m = false := by simpa [runsOn] using hm
  unfold decodeControl
  dsimp only
  rw [h]
  refine Eq.trans (b := guardForm _ _ _) rfl ?_
  simp (disch := decide) only [cr_low, cr_bit, ci_low, ci_bit, ar_low, ar_bit, ai_low, atomExt, f3, size_top, extract_all, extract_low, extract_high, get_low, get_high, Nat.reduceSub]
  simp [guardForm, ordF, az, bz, cz, fz, f3, b0, mz, rng, hw]
theorem setwin (a : Opnd) : Statement (.setwin a) := ctl_read rfl rfl fun hw m hm => by
  simp only [Instr.wf, Bool.and_eq_true, decide_eq_true_eq, List.contains_iff_mem] at hw
  have h : (opC (cr 0 0x34 a.code 0 0 0)).toNat = 52 := by rw [cr_opC]; rfl
  unfold decodeControl
  dsimp only
  rw [h]
  refine Eq.trans (b := guardForm _ _ _) rfl ?_
  simp [guardForm, ordF, az, bz, cz, fz, f3, b0, mz, rng, hw]
theorem setwinLone (wb : BitVec 11) (wl : BitVec 7) : Statement (.setwinLone wb wl) := ctl_read rfl rfl fun hw m hm => by
  simp only [Instr.wf, Bool.and_eq_true, decide_eq_true_eq, List.contains_iff_mem] at hw
  have h : (opC (cr 1 0x34 0 0 0 0)).toNat = 52 := by rw [cr_opC]; rfl
  unfold decodeControl
  dsimp only
  rw [h]
  refine Eq.trans (b := guardForm _ _ _) rfl ?_
  simp (disch := decide) only [cr_low, cr_bit, ci_low, ci_bit, ar_low, ar_bit, ai_low, atomExt, f3, size_top, extract_all, extract_low, extract_high, get_low, get_high, Nat.reduceSub]
  simp [guardForm, ordF, az, bz, cz, fz, f3, b0, mz, rng, hw]
theorem getwin (a : Opnd) : Statement (.getwin a) := ctl_read rfl rfl fun hw m hm => by
  simp only [Instr.wf, Bool.and_eq_true, decide_eq_true_eq, List.contains_iff_mem] at hw
  have h : (opC (cr 0 0x35 a.code 0 0 0)).toNat = 53 := by rw [cr_opC]; rfl
  unfold decodeControl
  dsimp only
  rw [h]
  refine Eq.trans (b := guardForm _ _ _) rfl ?_
  simp [guardForm, ordF, az, bz, cz, fz, f3, b0, mz, rng, hw]
theorem setbnd (a : Opnd) : Statement (.setbnd a) := ctl_read rfl rfl fun hw m hm => by
  simp only [Instr.wf, Bool.and_eq_true, decide_eq_true_eq, List.contains_iff_mem] at hw
  have h : (opC (cr 0 0x36 a.code 0 0 0)).toNat = 54 := by rw [cr_opC]; rfl
  unfold decodeControl
  dsimp only
  rw [h]
  refine Eq.trans (b := guardForm _ _ _) rfl ?_
  simp [guardForm, ordF, az, bz, cz, fz, f3, b0, mz, rng, hw]
theorem lend (a : Opnd) : Statement (.lend a) := ctl_read rfl rfl fun hw m hm => by
  simp only [Instr.wf, Bool.and_eq_true, decide_eq_true_eq, List.contains_iff_mem] at hw
  have h : (opC (cr 0 0x37 a.code 0 0 0)).toNat = 55 := by rw [cr_opC]; rfl
  unfold decodeControl
  dsimp only
  rw [h]
  refine Eq.trans (b := guardForm _ _ _) rfl ?_
  simp [guardForm, ordF, az, bz, cz, fz, f3, b0, mz, rng, hw]
theorem xld (a : Opnd) : Statement (.xld a) := ctl_read rfl rfl fun hw m hm => by
  simp only [Instr.wf, Bool.and_eq_true, decide_eq_true_eq, List.contains_iff_mem] at hw
  have h : (opC (cr 0 0x39 a.code 0 0 0)).toNat = 57 := by rw [cr_opC]; rfl
  obtain rfl : m = true := by simpa [runsOn] using hm
  unfold decodeControl
  dsimp only
  rw [h]
  refine Eq.trans (b := guardForm _ _ _) rfl ?_
  simp [guardForm, ordF, az, bz, cz, fz, f3, b0, mz, rng, hw]
theorem xst (a : Opnd) : Statement (.xst a) := ctl_read rfl rfl fun hw m hm => by
  simp only [Instr.wf, Bool.and_eq_true, decide_eq_true_eq, List.contains_iff_mem] at hw
  have h : (opC (cr 0 0x3a a.code 0 0 0)).toNat = 58 := by rw [cr_opC]; rfl
  obtain rfl : m = true := by simpa [runsOn] using hm
  unfold decodeControl
  dsimp only
  rw [h]
  refine Eq.trans (b := guardForm _ _ _) rfl ?_
  simp [guardForm, ordF, az, bz, cz, fz, f3, b0, mz, rng, hw]
theorem xpush (a : Opnd) : Statement (.xpush a) := ctl_read rfl rfl fun hw m hm => by
  simp only [Instr.wf, Bool.and_eq_true, decide_eq_true_eq, List.contains_iff_mem] at hw
  have h : (opC (cr 0 0x3b a.code 0 0 0)).toNat = 59 := by rw [cr_opC]; rfl
  obtain rfl : m = true := by simpa [runsOn] using hm
  unfold decodeControl
  dsimp only
  rw [h]
  refine Eq.trans (b := guardForm _ _ _) rfl ?_
  simp [guardForm, ordF, az, bz, cz, fz, f3, b0, mz, rng, hw]
theorem xws (a : Opnd) : Statement (.xws a) := ctl_read rfl rfl fun hw m hm => by
  simp only [Instr.wf, Bool.and_eq_true, decide_eq_true_eq, List.contains_iff_mem] at hw
  have h : (opC (cr 0 0x3c a.code 0 0 0)).toNat = 60 := by rw [cr_opC]; rfl
  obtain rfl : m = true := by simpa [runsOn] using hm
  unfold decodeControl
  dsimp only
  rw [h]
  refine Eq.trans (b := guardForm _ _ _) rfl ?_
  simp [guardForm, ordF, az, bz, cz, fz, f3, b0, mz, rng, hw]
theorem add (d s1 s2 : Opnd) : Statement (.add d s1 s2) := arith_read rfl rfl fun hw => by
  simp only [Instr.wf, Bool.and_eq_true, decide_eq_true_eq, List.contains_iff_mem] at hw
  have h : (opA (ar 0x01 d.code s1.code s2.code 0)).toNat = 1 := by rw [ar_opA]; rfl
  unfold decodeArith
  rw [h]
  refine Eq.trans (b := fin _ _) rfl ?_
  simp [az, bz, cz, fz, t0, mz, rng, hw]
theorem sub (d s1 s2 : Opnd) : Statement (.sub d s1 s2) := arith_read rfl rfl fun hw => by
  simp only [Instr.wf, Bool.and_eq_true, decide_eq_true_eq, List.contains_iff_mem] at hw
  have h : (opA (ar 0x02 d.code s1.code s2.code 0)).toNat = 2 := by rw [ar_opA]; rfl
  unfold decodeArith
  rw [h]
  refine Eq.trans (b := fin _ _) rfl ?_
  simp [az, bz, cz, fz, t0, mz, rng, hw]
theorem mul (d s1 s2 : Opnd) : Statement (.mul d s1 s2) := arith_read rfl rfl fun hw => by
  simp only [Instr.wf, Bool.and_eq_true, decide_eq_true_eq, List.contains_iff_mem] at hw
  have h : (opA (ar 0x03 d.code s1.code s2.code 0)).toNat = 3 := by rw [ar_opA]; rfl
  unfold decodeArith
  rw [h]
  refine Eq.trans (b := fin _ _) rfl ?_
  simp [az, bz, cz, fz, t0, mz, rng, hw]
theorem mulh (d s1 s2 : Opnd) : Statement (.mulh d s1 s2) := arith_read rfl rfl fun hw => by
  simp only [Instr.wf, Bool.and_eq_true, decide_eq_true_eq, List.contains_iff_mem] at hw
  have h : (opA (ar 0x04 d.code s1.code s2.code 0)).toNat = 4 := by rw [ar_opA]; rfl
  unfold decodeArith
  rw [h]
  refine Eq.trans (b := fin _ _) rfl ?_
  simp [az, bz, cz, fz, t0, mz, rng, hw]
theorem mulhn (d s1 s2 : Opnd) : Statement (.mulhn d s1 s2) := arith_read rfl rfl fun hw => by
  simp only [Instr.wf, Bool.and_eq_true, decide_eq_true_eq, List.contains_iff_mem] at hw
  have h : (opA (ar 0x05 d.code s1.code s2.code 0)).toNat = 5 := by rw [ar_opA]; rfl
  unfold decodeArith
  rw [h]
  refine Eq.trans (b := fin _ _) rfl ?_
  simp [az, bz, cz, fz, t0, mz, rng, hw]
theorem div (d s1 s2 : Opnd) : Statement (.div d s1 s2) := arith_read rfl rfl fun hw => by
  simp only [Instr.wf, Bool.and_eq_true, decide_eq_true_eq, List.contains_iff_mem] at hw
  have h : (opA (ar 0x06 d.code s1.code s2.code 0)).toNat = 6 := by rw [ar_opA]; rfl
  unfold decodeArith
  rw [h]
  refine Eq.trans (b := fin _ _) rfl ?_
  simp [az, bz, cz, fz, t0, mz, rng, hw]
theorem divn (d s1 s2 : Opnd) : Statement (.divn d s1 s2) := arith_read rfl rfl fun hw => by
  simp only [Instr.wf, Bool.and_eq_true, decide_eq_true_eq, List.contains_iff_mem] at hw
  have h : (opA (ar 0x07 d.code s1.code s2.code 0)).toNat = 7 := by rw [ar_opA]; rfl
  unfold decodeArith
  rw [h]
  refine Eq.trans (b := fin _ _) rfl ?_
  simp [az, bz, cz, fz, t0, mz, rng, hw]
theorem rem (d s1 s2 : Opnd) : Statement (.rem d s1 s2) := arith_read rfl rfl fun hw => by
  simp only [Instr.wf, Bool.and_eq_true, decide_eq_true_eq, List.contains_iff_mem] at hw
  have h : (opA (ar 0x08 d.code s1.code s2.code 0)).toNat = 8 := by rw [ar_opA]; rfl
  unfold decodeArith
  rw [h]
  refine Eq.trans (b := fin _ _) rfl ?_
  simp [az, bz, cz, fz, t0, mz, rng, hw]
theorem remn (d s1 s2 : Opnd) : Statement (.remn d s1 s2) := arith_read rfl rfl fun hw => by
  simp only [Instr.wf, Bool.and_eq_true, decide_eq_true_eq, List.contains_iff_mem] at hw
  have h : (opA (ar 0x09 d.code s1.code s2.code 0)).toNat = 9 := by rw [ar_opA]; rfl
  unfold decodeArith
  rw [h]
  refine Eq.trans (b := fin _ _) rfl ?_
  simp [az, bz, cz, fz, t0, mz, rng, hw]
theorem and (d s1 s2 : Opnd) : Statement (.and d s1 s2) := arith_read rfl rfl fun hw => by
  simp only [Instr.wf, Bool.and_eq_true, decide_eq_true_eq, List.contains_iff_mem] at hw
  have h : (opA (ar 0x0a d.code s1.code s2.code 0)).toNat = 10 := by rw [ar_opA]; rfl
  unfold decodeArith
  rw [h]
  refine Eq.trans (b := fin _ _) rfl ?_
  simp [az, bz, cz, fz, t0, mz, rng, hw]
theorem or (d s1 s2 : Opnd) : Statement (.or d s1 s2) := arith_read rfl rfl fun hw => by
  simp only [Instr.wf, Bool.and_eq_true, decide_eq_true_eq, List.contains_iff_mem] at hw
  have h : (opA (ar 0x0b d.code s1.code s2.code 0)).toNat = 11 := by rw [ar_opA]; rfl
  unfold decodeArith
  rw [h]
  refine Eq.trans (b := fin _ _) rfl ?_
  simp [az, bz, cz, fz, t0, mz, rng, hw]
theorem xor (d s1 s2 : Opnd) : Statement (.xor d s1 s2) := arith_read rfl rfl fun hw => by
  simp only [Instr.wf, Bool.and_eq_true, decide_eq_true_eq, List.contains_iff_mem] at hw
  have h : (opA (ar 0x0c d.code s1.code s2.code 0)).toNat = 12 := by rw [ar_opA]; rfl
  unfold decodeArith
  rw [h]
  refine Eq.trans (b := fin _ _) rfl ?_
  simp [az, bz, cz, fz, t0, mz, rng, hw]
theorem shl (d s1 s2 : Opnd) : Statement (.shl d s1 s2) := arith_read rfl rfl fun hw => by
  simp only [Instr.wf, Bool.and_eq_true, decide_eq_true_eq, List.contains_iff_mem] at hw
  have h : (opA (ar 0x0d d.code s1.code s2.code 0)).toNat = 13 := by rw [ar_opA]; rfl
  unfold decodeArith
  rw [h]
  refine Eq.trans (b := fin _ _) rfl ?_
  simp [az, bz, cz, fz, t0, mz, rng, hw]
theorem shr (d s1 s2 : Opnd) : Statement (.shr d s1 s2) := arith_read rfl rfl fun hw => by
  simp only [Instr.wf, Bool.and_eq_true, decide_eq_true_eq, List.contains_iff_mem] at hw
  have h : (opA (ar 0x0e d.code s1.code s2.code 0)).toNat = 14 := by rw [ar_opA]; rfl
  unfold decodeArith
  rw [h]
  refine Eq.trans (b := fin _ _) rfl ?_
  simp [az, bz, cz, fz, t0, mz, rng, hw]
theorem sra (d s1 s2 : Opnd) : Statement (.sra d s1 s2) := arith_read rfl rfl fun hw => by
  simp only [Instr.wf, Bool.and_eq_true, decide_eq_true_eq, List.contains_iff_mem] at hw
  have h : (opA (ar 0x0f d.code s1.code s2.code 0)).toNat = 15 := by rw [ar_opA]; rfl
  unfold decodeArith
  rw [h]
  refine Eq.trans (b := fin _ _) rfl ?_
  simp [az, bz, cz, fz, t0, mz, rng, hw]
theorem min (d s1 s2 : Opnd) : Statement (.min d s1 s2) := arith_read rfl rfl fun hw => by
  simp only [Instr.wf, Bool.and_eq_true, decide_eq_true_eq, List.contains_iff_mem] at hw
  have h : (opA (ar 0x10 d.code s1.code s2.code 0)).toNat = 16 := by rw [ar_opA]; rfl
  unfold decodeArith
  rw [h]
  refine Eq.trans (b := fin _ _) rfl ?_
  simp [az, bz, cz, fz, t0, mz, rng, hw]
theorem max (d s1 s2 : Opnd) : Statement (.max d s1 s2) := arith_read rfl rfl fun hw => by
  simp only [Instr.wf, Bool.and_eq_true, decide_eq_true_eq, List.contains_iff_mem] at hw
  have h : (opA (ar 0x11 d.code s1.code s2.code 0)).toNat = 17 := by rw [ar_opA]; rfl
  unfold decodeArith
  rw [h]
  refine Eq.trans (b := fin _ _) rfl ?_
  simp [az, bz, cz, fz, t0, mz, rng, hw]
theorem minn (d s1 s2 : Opnd) : Statement (.minn d s1 s2) := arith_read rfl rfl fun hw => by
  simp only [Instr.wf, Bool.and_eq_true, decide_eq_true_eq, List.contains_iff_mem] at hw
  have h : (opA (ar 0x12 d.code s1.code s2.code 0)).toNat = 18 := by rw [ar_opA]; rfl
  unfold decodeArith
  rw [h]
  refine Eq.trans (b := fin _ _) rfl ?_
  simp [az, bz, cz, fz, t0, mz, rng, hw]
theorem maxn (d s1 s2 : Opnd) : Statement (.maxn d s1 s2) := arith_read rfl rfl fun hw => by
  simp only [Instr.wf, Bool.and_eq_true, decide_eq_true_eq, List.contains_iff_mem] at hw
  have h : (opA (ar 0x13 d.code s1.code s2.code 0)).toNat = 19 := by rw [ar_opA]; rfl
  unfold decodeArith
  rw [h]
  refine Eq.trans (b := fin _ _) rfl ?_
  simp [az, bz, cz, fz, t0, mz, rng, hw]
theorem slt (d s1 s2 : Opnd) : Statement (.slt d s1 s2) := arith_read rfl rfl fun hw => by
  simp only [Instr.wf, Bool.and_eq_true, decide_eq_true_eq, List.contains_iff_mem] at hw
  have h : (opA (ar 0x14 d.code s1.code s2.code 0)).toNat = 20 := by rw [ar_opA]; rfl
  unfold decodeArith
  rw [h]
  refine Eq.trans (b := fin _ _) rfl ?_
  simp [az, bz, cz, fz, t0, mz, rng, hw]
theorem sltn (d s1 s2 : Opnd) : Statement (.sltn d s1 s2) := arith_read rfl rfl fun hw => by
  simp only [Instr.wf, Bool.and_eq_true, decide_eq_true_eq, List.contains_iff_mem] at hw
  have h : (opA (ar 0x15 d.code s1.code s2.code 0)).toNat = 21 := by rw [ar_opA]; rfl
  unfold decodeArith
  rw [h]
  refine Eq.trans (b := fin _ _) rfl ?_
  simp [az, bz, cz, fz, t0, mz, rng, hw]
theorem seq (d s1 s2 : Opnd) : Statement (.seq d s1 s2) := arith_read rfl rfl fun hw => by
  simp only [Instr.wf, Bool.and_eq_true, decide_eq_true_eq, List.contains_iff_mem] at hw
  have h : (opA (ar 0x16 d.code s1.code s2.code 0)).toNat = 22 := by rw [ar_opA]; rfl
  unfold decodeArith
  rw [h]
  refine Eq.trans (b := fin _ _) rfl ?_
  simp [az, bz, cz, fz, t0, mz, rng, hw]
theorem sel (d s1 s2 : Opnd) : Statement (.sel d s1 s2) := arith_read rfl rfl fun hw => by
  simp only [Instr.wf, Bool.and_eq_true, decide_eq_true_eq, List.contains_iff_mem] at hw
  have h : (opA (ar 0x17 d.code s1.code s2.code 0)).toNat = 23 := by rw [ar_opA]; rfl
  unfold decodeArith
  rw [h]
  refine Eq.trans (b := fin _ _) rfl ?_
  simp [az, bz, cz, fz, t0, mz, rng, hw]
theorem clz (d s1 : Opnd) : Statement (.clz d s1) := arith_read rfl rfl fun hw => by
  simp only [Instr.wf, Bool.and_eq_true, decide_eq_true_eq, List.contains_iff_mem] at hw
  have h : (opA (ar 0x18 d.code s1.code 0 0)).toNat = 24 := by rw [ar_opA]; rfl
  unfold decodeArith
  rw [h]
  refine Eq.trans (b := fin _ _) rfl ?_
  simp [az, bz, cz, fz, t0, mz, rng, hw]
theorem popc (d s1 : Opnd) : Statement (.popc d s1) := arith_read rfl rfl fun hw => by
  simp only [Instr.wf, Bool.and_eq_true, decide_eq_true_eq, List.contains_iff_mem] at hw
  have h : (opA (ar 0x19 d.code s1.code 0 0)).toNat = 25 := by rw [ar_opA]; rfl
  unfold decodeArith
  rw [h]
  refine Eq.trans (b := fin _ _) rfl ?_
  simp [az, bz, cz, fz, t0, mz, rng, hw]
theorem addi (d s1 : Opnd) (imm : BitVec 11) : Statement (.addi d s1 imm) := arith_read rfl rfl fun hw => by
  simp only [Instr.wf, Bool.and_eq_true, decide_eq_true_eq, List.contains_iff_mem] at hw
  have h : (opA (ai 0x1a d.code s1.code imm)).toNat = 26 := by rw [ai_opA]; rfl
  unfold decodeArith
  rw [h]
  refine Eq.trans (b := fin _ _) rfl ?_
  simp [az, bz, cz, fz, t0, mz, rng, hw]
theorem andi (d s1 : Opnd) (imm : BitVec 11) : Statement (.andi d s1 imm) := arith_read rfl rfl fun hw => by
  simp only [Instr.wf, Bool.and_eq_true, decide_eq_true_eq, List.contains_iff_mem] at hw
  have h : (opA (ai 0x1b d.code s1.code imm)).toNat = 27 := by rw [ai_opA]; rfl
  unfold decodeArith
  rw [h]
  refine Eq.trans (b := fin _ _) rfl ?_
  simp [az, bz, cz, fz, t0, mz, rng, hw]
theorem ori (d s1 : Opnd) (imm : BitVec 11) : Statement (.ori d s1 imm) := arith_read rfl rfl fun hw => by
  simp only [Instr.wf, Bool.and_eq_true, decide_eq_true_eq, List.contains_iff_mem] at hw
  have h : (opA (ai 0x1c d.code s1.code imm)).toNat = 28 := by rw [ai_opA]; rfl
  unfold decodeArith
  rw [h]
  refine Eq.trans (b := fin _ _) rfl ?_
  simp [az, bz, cz, fz, t0, mz, rng, hw]
theorem xori (d s1 : Opnd) (imm : BitVec 11) : Statement (.xori d s1 imm) := arith_read rfl rfl fun hw => by
  simp only [Instr.wf, Bool.and_eq_true, decide_eq_true_eq, List.contains_iff_mem] at hw
  have h : (opA (ai 0x1d d.code s1.code imm)).toNat = 29 := by rw [ai_opA]; rfl
  unfold decodeArith
  rw [h]
  refine Eq.trans (b := fin _ _) rfl ?_
  simp [az, bz, cz, fz, t0, mz, rng, hw]
theorem shli (d s1 : Opnd) (n : BitVec 5) : Statement (.shli d s1 n) := arith_read rfl rfl fun hw => by
  simp only [Instr.wf, Bool.and_eq_true, decide_eq_true_eq, List.contains_iff_mem] at hw
  have h : (opA (ai 0x1e d.code s1.code ((0 : BitVec 6) ++ n))).toNat = 30 := by rw [ai_opA]; rfl
  unfold decodeArith
  rw [h]
  refine Eq.trans (b := fin _ _) rfl ?_
  simp (disch := decide) only [cr_low, cr_bit, ci_low, ci_bit, ar_low, ar_bit, ai_low, atomExt, f3, size_top, extract_all, extract_low, extract_high, get_low, get_high, Nat.reduceSub]
  simp [az, bz, cz, fz, t0, mz, rng, hw]
theorem shri (d s1 : Opnd) (n : BitVec 5) : Statement (.shri d s1 n) := arith_read rfl rfl fun hw => by
  simp only [Instr.wf, Bool.and_eq_true, decide_eq_true_eq, List.contains_iff_mem] at hw
  have h : (opA (ai 0x1f d.code s1.code ((0 : BitVec 6) ++ n))).toNat = 31 := by rw [ai_opA]; rfl
  unfold decodeArith
  rw [h]
  refine Eq.trans (b := fin _ _) rfl ?_
  simp (disch := decide) only [cr_low, cr_bit, ci_low, ci_bit, ar_low, ar_bit, ai_low, atomExt, f3, size_top, extract_all, extract_low, extract_high, get_low, get_high, Nat.reduceSub]
  simp [az, bz, cz, fz, t0, mz, rng, hw]
theorem srai (d s1 : Opnd) (n : BitVec 5) : Statement (.srai d s1 n) := arith_read rfl rfl fun hw => by
  simp only [Instr.wf, Bool.and_eq_true, decide_eq_true_eq, List.contains_iff_mem] at hw
  have h : (opA (ai 0x20 d.code s1.code ((0 : BitVec 6) ++ n))).toNat = 32 := by rw [ai_opA]; rfl
  unfold decodeArith
  rw [h]
  refine Eq.trans (b := fin _ _) rfl ?_
  simp (disch := decide) only [cr_low, cr_bit, ci_low, ci_bit, ar_low, ar_bit, ai_low, atomExt, f3, size_top, extract_all, extract_low, extract_high, get_low, get_high, Nat.reduceSub]
  simp [az, bz, cz, fz, t0, mz, rng, hw]
theorem slti (d s1 : Opnd) (imm : BitVec 11) : Statement (.slti d s1 imm) := arith_read rfl rfl fun hw => by
  simp only [Instr.wf, Bool.and_eq_true, decide_eq_true_eq, List.contains_iff_mem] at hw
  have h : (opA (ai 0x21 d.code s1.code imm)).toNat = 33 := by rw [ai_opA]; rfl
  unfold decodeArith
  rw [h]
  refine Eq.trans (b := fin _ _) rfl ?_
  simp [az, bz, cz, fz, t0, mz, rng, hw]
theorem lane (d s1 : Opnd) (idx : BitVec 7) (t : ETy) : Statement (.lane d s1 idx t) := arith_read rfl rfl fun hw => by
  simp only [Instr.wf, Bool.and_eq_true, decide_eq_true_eq, List.contains_iff_mem] at hw
  have h : (opA (ar 0x22 d.code s1.code idx t.code)).toNat = 34 := by rw [ar_opA]; rfl
  unfold decodeArith
  rw [h]
  refine Eq.trans (b := fin _ _) rfl ?_
  simp [az, bz, cz, fz, t0, mz, rng, hw]
theorem mv (d s1 : Opnd) : Statement (.mv d s1) := arith_read rfl rfl fun hw => by
  simp only [Instr.wf, Bool.and_eq_true, decide_eq_true_eq, List.contains_iff_mem] at hw
  have h : (opA (ar 0x23 d.code s1.code 0 0)).toNat = 35 := by rw [ar_opA]; rfl
  unfold decodeArith
  rw [h]
  refine Eq.trans (b := fin _ _) rfl ?_
  simp [az, bz, cz, fz, t0, mz, rng, hw]
theorem ins (d s1 : Opnd) (idx : BitVec 7) (t : ETy) : Statement (.ins d s1 idx t) := arith_read rfl rfl fun hw => by
  simp only [Instr.wf, Bool.and_eq_true, decide_eq_true_eq, List.contains_iff_mem] at hw
  have h : (opA (ar 0x24 d.code s1.code idx t.code)).toNat = 36 := by rw [ar_opA]; rfl
  unfold decodeArith
  rw [h]
  refine Eq.trans (b := fin _ _) rfl ?_
  simp [az, bz, cz, fz, t0, mz, rng, hw]
theorem vadd (d s1 s2 : Opnd) (t : ETy) : Statement (.vadd d s1 s2 t) := arith_read rfl rfl fun hw => by
  simp only [Instr.wf, Bool.and_eq_true, decide_eq_true_eq, List.contains_iff_mem] at hw
  have h : (opA (ar 0x30 d.code s1.code s2.code t.code)).toNat = 48 := by rw [ar_opA]; rfl
  unfold decodeArith
  rw [h]
  refine Eq.trans (b := fin _ _) rfl ?_
  simp [az, bz, cz, fz, t0, mz, rng, hw]
theorem vsub (d s1 s2 : Opnd) (t : ETy) : Statement (.vsub d s1 s2 t) := arith_read rfl rfl fun hw => by
  simp only [Instr.wf, Bool.and_eq_true, decide_eq_true_eq, List.contains_iff_mem] at hw
  have h : (opA (ar 0x31 d.code s1.code s2.code t.code)).toNat = 49 := by rw [ar_opA]; rfl
  unfold decodeArith
  rw [h]
  refine Eq.trans (b := fin _ _) rfl ?_
  simp [az, bz, cz, fz, t0, mz, rng, hw]
theorem vmul (d s1 s2 : Opnd) (t : ETy) : Statement (.vmul d s1 s2 t) := arith_read rfl rfl fun hw => by
  simp only [Instr.wf, Bool.and_eq_true, decide_eq_true_eq, List.contains_iff_mem] at hw
  have h : (opA (ar 0x32 d.code s1.code s2.code t.code)).toNat = 50 := by rw [ar_opA]; rfl
  unfold decodeArith
  rw [h]
  refine Eq.trans (b := fin _ _) rfl ?_
  simp [az, bz, cz, fz, t0, mz, rng, hw]
theorem vmulh (d s1 s2 : Opnd) (t : ETy) : Statement (.vmulh d s1 s2 t) := arith_read rfl rfl fun hw => by
  simp only [Instr.wf, Bool.and_eq_true, decide_eq_true_eq, List.contains_iff_mem] at hw
  have h : (opA (ar 0x33 d.code s1.code s2.code t.code)).toNat = 51 := by rw [ar_opA]; rfl
  unfold decodeArith
  rw [h]
  refine Eq.trans (b := fin _ _) rfl ?_
  simp [az, bz, cz, fz, t0, mz, rng, hw]
theorem vmac (d s1 s2 : Opnd) (t : ETy) : Statement (.vmac d s1 s2 t) := arith_read rfl rfl fun hw => by
  simp only [Instr.wf, Bool.and_eq_true, decide_eq_true_eq, List.contains_iff_mem] at hw
  have h : (opA (ar 0x34 d.code s1.code s2.code t.code)).toNat = 52 := by rw [ar_opA]; rfl
  unfold decodeArith
  rw [h]
  refine Eq.trans (b := fin _ _) rfl ?_
  simp [az, bz, cz, fz, t0, mz, rng, hw]
theorem vmin (d s1 s2 : Opnd) (t : ETy) : Statement (.vmin d s1 s2 t) := arith_read rfl rfl fun hw => by
  simp only [Instr.wf, Bool.and_eq_true, decide_eq_true_eq, List.contains_iff_mem] at hw
  have h : (opA (ar 0x35 d.code s1.code s2.code t.code)).toNat = 53 := by rw [ar_opA]; rfl
  unfold decodeArith
  rw [h]
  refine Eq.trans (b := fin _ _) rfl ?_
  simp [az, bz, cz, fz, t0, mz, rng, hw]
theorem vmax (d s1 s2 : Opnd) (t : ETy) : Statement (.vmax d s1 s2 t) := arith_read rfl rfl fun hw => by
  simp only [Instr.wf, Bool.and_eq_true, decide_eq_true_eq, List.contains_iff_mem] at hw
  have h : (opA (ar 0x36 d.code s1.code s2.code t.code)).toNat = 54 := by rw [ar_opA]; rfl
  unfold decodeArith
  rw [h]
  refine Eq.trans (b := fin _ _) rfl ?_
  simp [az, bz, cz, fz, t0, mz, rng, hw]
theorem vand (d s1 s2 : Opnd) (t : ETy) : Statement (.vand d s1 s2 t) := arith_read rfl rfl fun hw => by
  simp only [Instr.wf, Bool.and_eq_true, decide_eq_true_eq, List.contains_iff_mem] at hw
  have h : (opA (ar 0x37 d.code s1.code s2.code t.code)).toNat = 55 := by rw [ar_opA]; rfl
  unfold decodeArith
  rw [h]
  refine Eq.trans (b := fin _ _) rfl ?_
  simp [az, bz, cz, fz, t0, mz, rng, hw]
theorem vor (d s1 s2 : Opnd) (t : ETy) : Statement (.vor d s1 s2 t) := arith_read rfl rfl fun hw => by
  simp only [Instr.wf, Bool.and_eq_true, decide_eq_true_eq, List.contains_iff_mem] at hw
  have h : (opA (ar 0x38 d.code s1.code s2.code t.code)).toNat = 56 := by rw [ar_opA]; rfl
  unfold decodeArith
  rw [h]
  refine Eq.trans (b := fin _ _) rfl ?_
  simp [az, bz, cz, fz, t0, mz, rng, hw]
theorem vxor (d s1 s2 : Opnd) (t : ETy) : Statement (.vxor d s1 s2 t) := arith_read rfl rfl fun hw => by
  simp only [Instr.wf, Bool.and_eq_true, decide_eq_true_eq, List.contains_iff_mem] at hw
  have h : (opA (ar 0x39 d.code s1.code s2.code t.code)).toNat = 57 := by rw [ar_opA]; rfl
  unfold decodeArith
  rw [h]
  refine Eq.trans (b := fin _ _) rfl ?_
  simp [az, bz, cz, fz, t0, mz, rng, hw]
theorem vshl (d s1 s2 : Opnd) (t : ETy) : Statement (.vshl d s1 s2 t) := arith_read rfl rfl fun hw => by
  simp only [Instr.wf, Bool.and_eq_true, decide_eq_true_eq, List.contains_iff_mem] at hw
  have h : (opA (ar 0x3a d.code s1.code s2.code t.code)).toNat = 58 := by rw [ar_opA]; rfl
  unfold decodeArith
  rw [h]
  refine Eq.trans (b := fin _ _) rfl ?_
  simp [az, bz, cz, fz, t0, mz, rng, hw]
theorem vshr (d s1 s2 : Opnd) (t : ETy) : Statement (.vshr d s1 s2 t) := arith_read rfl rfl fun hw => by
  simp only [Instr.wf, Bool.and_eq_true, decide_eq_true_eq, List.contains_iff_mem] at hw
  have h : (opA (ar 0x3b d.code s1.code s2.code t.code)).toNat = 59 := by rw [ar_opA]; rfl
  unfold decodeArith
  rw [h]
  refine Eq.trans (b := fin _ _) rfl ?_
  simp [az, bz, cz, fz, t0, mz, rng, hw]
theorem vsra (d s1 s2 : Opnd) (t : ETy) : Statement (.vsra d s1 s2 t) := arith_read rfl rfl fun hw => by
  simp only [Instr.wf, Bool.and_eq_true, decide_eq_true_eq, List.contains_iff_mem] at hw
  have h : (opA (ar 0x3c d.code s1.code s2.code t.code)).toNat = 60 := by rw [ar_opA]; rfl
  unfold decodeArith
  rw [h]
  refine Eq.trans (b := fin _ _) rfl ?_
  simp [az, bz, cz, fz, t0, mz, rng, hw]
theorem vabs (d s1 : Opnd) (t : ETy) : Statement (.vabs d s1 t) := arith_read rfl rfl fun hw => by
  simp only [Instr.wf, Bool.and_eq_true, decide_eq_true_eq, List.contains_iff_mem] at hw
  have h : (opA (ar 0x3d d.code s1.code 0 t.code)).toNat = 61 := by rw [ar_opA]; rfl
  unfold decodeArith
  rw [h]
  refine Eq.trans (b := fin _ _) rfl ?_
  simp [az, bz, cz, fz, t0, mz, rng, hw]
theorem vadds (d s1 s2 : Opnd) (t : ETy) : Statement (.vadds d s1 s2 t) := arith_read rfl rfl fun hw => by
  simp only [Instr.wf, Bool.and_eq_true, decide_eq_true_eq, List.contains_iff_mem] at hw
  have h : (opA (ar 0x3e d.code s1.code s2.code t.code)).toNat = 62 := by rw [ar_opA]; rfl
  unfold decodeArith
  rw [h]
  refine Eq.trans (b := fin _ _) rfl ?_
  simp [az, bz, cz, fz, t0, mz, rng, hw]
theorem vsubs (d s1 s2 : Opnd) (t : ETy) : Statement (.vsubs d s1 s2 t) := arith_read rfl rfl fun hw => by
  simp only [Instr.wf, Bool.and_eq_true, decide_eq_true_eq, List.contains_iff_mem] at hw
  have h : (opA (ar 0x3f d.code s1.code s2.code t.code)).toNat = 63 := by rw [ar_opA]; rfl
  unfold decodeArith
  rw [h]
  refine Eq.trans (b := fin _ _) rfl ?_
  simp [az, bz, cz, fz, t0, mz, rng, hw]
theorem vcmpeq (d s1 s2 : Opnd) (t : ETy) : Statement (.vcmpeq d s1 s2 t) := arith_read rfl rfl fun hw => by
  simp only [Instr.wf, Bool.and_eq_true, decide_eq_true_eq, List.contains_iff_mem] at hw
  have h : (opA (ar 0x40 d.code s1.code s2.code t.code)).toNat = 64 := by rw [ar_opA]; rfl
  unfold decodeArith
  rw [h]
  refine Eq.trans (b := fin _ _) rfl ?_
  simp [az, bz, cz, fz, t0, mz, rng, hw]
theorem vcmplt (d s1 s2 : Opnd) (t : ETy) : Statement (.vcmplt d s1 s2 t) := arith_read rfl rfl fun hw => by
  simp only [Instr.wf, Bool.and_eq_true, decide_eq_true_eq, List.contains_iff_mem] at hw
  have h : (opA (ar 0x41 d.code s1.code s2.code t.code)).toNat = 65 := by rw [ar_opA]; rfl
  unfold decodeArith
  rw [h]
  refine Eq.trans (b := fin _ _) rfl ?_
  simp [az, bz, cz, fz, t0, mz, rng, hw]
theorem vcmple (d s1 s2 : Opnd) (t : ETy) : Statement (.vcmple d s1 s2 t) := arith_read rfl rfl fun hw => by
  simp only [Instr.wf, Bool.and_eq_true, decide_eq_true_eq, List.contains_iff_mem] at hw
  have h : (opA (ar 0x42 d.code s1.code s2.code t.code)).toNat = 66 := by rw [ar_opA]; rfl
  unfold decodeArith
  rw [h]
  refine Eq.trans (b := fin _ _) rfl ?_
  simp [az, bz, cz, fz, t0, mz, rng, hw]
theorem vsel (d s1 s2 : Opnd) (t : ETy) : Statement (.vsel d s1 s2 t) := arith_read rfl rfl fun hw => by
  simp only [Instr.wf, Bool.and_eq_true, decide_eq_true_eq, List.contains_iff_mem] at hw
  have h : (opA (ar 0x43 d.code s1.code s2.code t.code)).toNat = 67 := by rw [ar_opA]; rfl
  unfold decodeArith
  rw [h]
  refine Eq.trans (b := fin _ _) rfl ?_
  simp [az, bz, cz, fz, t0, mz, rng, hw]
theorem vbcast (d s1 : Opnd) (t : ETy) : Statement (.vbcast d s1 t) := arith_read rfl rfl fun hw => by
  simp only [Instr.wf, Bool.and_eq_true, decide_eq_true_eq, List.contains_iff_mem] at hw
  have h : (opA (ar 0x44 d.code s1.code 0 t.code)).toNat = 68 := by rw [ar_opA]; rfl
  unfold decodeArith
  rw [h]
  refine Eq.trans (b := fin _ _) rfl ?_
  simp [az, bz, cz, fz, t0, mz, rng, hw]
theorem vperm (d s1 s2 : Opnd) (t : ETy) : Statement (.vperm d s1 s2 t) := arith_read rfl rfl fun hw => by
  simp only [Instr.wf, Bool.and_eq_true, decide_eq_true_eq, List.contains_iff_mem] at hw
  have h : (opA (ar 0x45 d.code s1.code s2.code t.code)).toNat = 69 := by rw [ar_opA]; rfl
  unfold decodeArith
  rw [h]
  refine Eq.trans (b := fin _ _) rfl ?_
  simp [az, bz, cz, fz, t0, mz, rng, hw]
theorem vrot (d s1 : Opnd) (k : BitVec 7) (t : ETy) : Statement (.vrot d s1 k t) := arith_read rfl rfl fun hw => by
  simp only [Instr.wf, Bool.and_eq_true, decide_eq_true_eq, List.contains_iff_mem] at hw
  have h : (opA (ar 0x46 d.code s1.code k t.code)).toNat = 70 := by rw [ar_opA]; rfl
  unfold decodeArith
  rw [h]
  refine Eq.trans (b := fin _ _) rfl ?_
  simp [az, bz, cz, fz, t0, mz, rng, hw]
theorem vnarrow (d s1 s2 : Opnd) (t : ETy) : Statement (.vnarrow d s1 s2 t) := arith_read rfl rfl fun hw => by
  simp only [Instr.wf, Bool.and_eq_true, decide_eq_true_eq, List.contains_iff_mem] at hw
  have h : (opA (ar 0x47 d.code s1.code s2.code t.code)).toNat = 71 := by rw [ar_opA]; rfl
  unfold decodeArith
  rw [h]
  refine Eq.trans (b := fin _ _) rfl ?_
  simp [az, bz, cz, fz, t0, mz, rng, hw]
theorem vwiden (high : Bool) (d s1 : Opnd) (t : ETy) : Statement (.vwiden high d s1 t) := arith_read rfl rfl fun hw => by
  simp only [Instr.wf, Bool.and_eq_true, decide_eq_true_eq, List.contains_iff_mem] at hw
  have h : (opA (ar 0x48 d.code s1.code ((0 : BitVec 6) ++ BitVec.ofBool high) t.code)).toNat = 72 := by rw [ar_opA]; rfl
  unfold decodeArith
  rw [h]
  refine Eq.trans (b := fin _ _) rfl ?_
  simp (disch := decide) only [cr_low, cr_bit, ci_low, ci_bit, ar_low, ar_bit, ai_low, atomExt, f3, size_top, extract_all, extract_low, extract_high, get_low, get_high, Nat.reduceSub]
  simp [az, bz, cz, fz, t0, mz, rng, hw]
theorem vred (op : RedOp) (d s1 : Opnd) (t : ETy) : Statement (.vred op d s1 t) := arith_read rfl rfl fun hw => by
  simp only [Instr.wf, Bool.and_eq_true, decide_eq_true_eq, List.contains_iff_mem] at hw
  have h : (opA (ar 0x49 d.code s1.code ((0 : BitVec 5) ++ op.code) t.code)).toNat = 73 := by rw [ar_opA]; rfl
  unfold decodeArith
  rw [h]
  refine Eq.trans (b := fin _ _) rfl ?_
  simp (disch := decide) only [cr_low, cr_bit, ci_low, ci_bit, ar_low, ar_bit, ai_low, atomExt, f3, size_top, extract_all, extract_low, extract_high, get_low, get_high, Nat.reduceSub]
  simp [az, bz, cz, fz, t0, mz, rng, hw]
theorem vscan (d s1 : Opnd) (t : ETy) : Statement (.vscan d s1 t) := arith_read rfl rfl fun hw => by
  simp only [Instr.wf, Bool.and_eq_true, decide_eq_true_eq, List.contains_iff_mem] at hw
  have h : (opA (ar 0x4a d.code s1.code 0 t.code)).toNat = 74 := by rw [ar_opA]; rfl
  unfold decodeArith
  rw [h]
  refine Eq.trans (b := fin _ _) rfl ?_
  simp [az, bz, cz, fz, t0, mz, rng, hw]
theorem vpackt (d s1 : Opnd) (t : ETy) : Statement (.vpackt d s1 t) := arith_read rfl rfl fun hw => by
  simp only [Instr.wf, Bool.and_eq_true, decide_eq_true_eq, List.contains_iff_mem] at hw
  have h : (opA (ar 0x4b d.code s1.code 0 t.code)).toNat = 75 := by rw [ar_opA]; rfl
  unfold decodeArith
  rw [h]
  refine Eq.trans (b := fin _ _) rfl ?_
  simp [az, bz, cz, fz, t0, mz, rng, hw]
theorem vunpkt (d s1 : Opnd) (t : ETy) : Statement (.vunpkt d s1 t) := arith_read rfl rfl fun hw => by
  simp only [Instr.wf, Bool.and_eq_true, decide_eq_true_eq, List.contains_iff_mem] at hw
  have h : (opA (ar 0x4c d.code s1.code 0 t.code)).toNat = 76 := by rw [ar_opA]; rfl
  unfold decodeArith
  rw [h]
  refine Eq.trans (b := fin _ _) rfl ?_
  simp [az, bz, cz, fz, t0, mz, rng, hw]
theorem viota (d : Opnd) (t : ETy) : Statement (.viota d t) := arith_read rfl rfl fun hw => by
  simp only [Instr.wf, Bool.and_eq_true, decide_eq_true_eq, List.contains_iff_mem] at hw
  have h : (opA (ar 0x4d d.code 0 0 t.code)).toNat = 77 := by rw [ar_opA]; rfl
  unfold decodeArith
  rw [h]
  refine Eq.trans (b := fin _ _) rfl ?_
  simp [az, bz, cz, fz, t0, mz, rng, hw]
theorem vdot4 (d s1 s2 : Opnd) (t : ETy) : Statement (.vdot4 d s1 s2 t) := arith_read rfl rfl fun hw => by
  simp only [Instr.wf, Bool.and_eq_true, decide_eq_true_eq, List.contains_iff_mem] at hw
  have h : (opA (ar 0x4e d.code s1.code s2.code t.code)).toNat = 78 := by rw [ar_opA]; rfl
  unfold decodeArith
  rw [h]
  refine Eq.trans (b := fin _ _) rfl ?_
  simp [az, bz, cz, fz, t0, mz, rng, hw]
theorem fadd (d s1 s2 : Opnd) (t : ETy) : Statement (.fadd d s1 s2 t) := arith_read rfl rfl fun hw => by
  simp only [Instr.wf, Bool.and_eq_true, decide_eq_true_eq, List.contains_iff_mem] at hw
  have h : (opA (ar 0x60 d.code s1.code s2.code t.code)).toNat = 96 := by rw [ar_opA]; rfl
  unfold decodeArith
  rw [h]
  refine Eq.trans (b := fin _ _) rfl ?_
  simp [az, bz, cz, fz, t0, mz, rng, hw]
theorem fsub (d s1 s2 : Opnd) (t : ETy) : Statement (.fsub d s1 s2 t) := arith_read rfl rfl fun hw => by
  simp only [Instr.wf, Bool.and_eq_true, decide_eq_true_eq, List.contains_iff_mem] at hw
  have h : (opA (ar 0x61 d.code s1.code s2.code t.code)).toNat = 97 := by rw [ar_opA]; rfl
  unfold decodeArith
  rw [h]
  refine Eq.trans (b := fin _ _) rfl ?_
  simp [az, bz, cz, fz, t0, mz, rng, hw]
theorem fmul (d s1 s2 : Opnd) (t : ETy) : Statement (.fmul d s1 s2 t) := arith_read rfl rfl fun hw => by
  simp only [Instr.wf, Bool.and_eq_true, decide_eq_true_eq, List.contains_iff_mem] at hw
  have h : (opA (ar 0x62 d.code s1.code s2.code t.code)).toNat = 98 := by rw [ar_opA]; rfl
  unfold decodeArith
  rw [h]
  refine Eq.trans (b := fin _ _) rfl ?_
  simp [az, bz, cz, fz, t0, mz, rng, hw]
theorem fma (d s1 s2 : Opnd) (t : ETy) : Statement (.fma d s1 s2 t) := arith_read rfl rfl fun hw => by
  simp only [Instr.wf, Bool.and_eq_true, decide_eq_true_eq, List.contains_iff_mem] at hw
  have h : (opA (ar 0x63 d.code s1.code s2.code t.code)).toNat = 99 := by rw [ar_opA]; rfl
  unfold decodeArith
  rw [h]
  refine Eq.trans (b := fin _ _) rfl ?_
  simp [az, bz, cz, fz, t0, mz, rng, hw]
theorem fms (d s1 s2 : Opnd) (t : ETy) : Statement (.fms d s1 s2 t) := arith_read rfl rfl fun hw => by
  simp only [Instr.wf, Bool.and_eq_true, decide_eq_true_eq, List.contains_iff_mem] at hw
  have h : (opA (ar 0x64 d.code s1.code s2.code t.code)).toNat = 100 := by rw [ar_opA]; rfl
  unfold decodeArith
  rw [h]
  refine Eq.trans (b := fin _ _) rfl ?_
  simp [az, bz, cz, fz, t0, mz, rng, hw]
theorem fmin (d s1 s2 : Opnd) (t : ETy) : Statement (.fmin d s1 s2 t) := arith_read rfl rfl fun hw => by
  simp only [Instr.wf, Bool.and_eq_true, decide_eq_true_eq, List.contains_iff_mem] at hw
  have h : (opA (ar 0x65 d.code s1.code s2.code t.code)).toNat = 101 := by rw [ar_opA]; rfl
  unfold decodeArith
  rw [h]
  refine Eq.trans (b := fin _ _) rfl ?_
  simp [az, bz, cz, fz, t0, mz, rng, hw]
theorem fmax (d s1 s2 : Opnd) (t : ETy) : Statement (.fmax d s1 s2 t) := arith_read rfl rfl fun hw => by
  simp only [Instr.wf, Bool.and_eq_true, decide_eq_true_eq, List.contains_iff_mem] at hw
  have h : (opA (ar 0x66 d.code s1.code s2.code t.code)).toNat = 102 := by rw [ar_opA]; rfl
  unfold decodeArith
  rw [h]
  refine Eq.trans (b := fin _ _) rfl ?_
  simp [az, bz, cz, fz, t0, mz, rng, hw]
theorem fdiv (d s1 s2 : Opnd) (t : ETy) : Statement (.fdiv d s1 s2 t) := arith_read rfl rfl fun hw => by
  simp only [Instr.wf, Bool.and_eq_true, decide_eq_true_eq, List.contains_iff_mem] at hw
  have h : (opA (ar 0x67 d.code s1.code s2.code t.code)).toNat = 103 := by rw [ar_opA]; rfl
  unfold decodeArith
  rw [h]
  refine Eq.trans (b := fin _ _) rfl ?_
  simp [az, bz, cz, fz, t0, mz, rng, hw]
theorem fsqrt (d s1 : Opnd) (t : ETy) : Statement (.fsqrt d s1 t) := arith_read rfl rfl fun hw => by
  simp only [Instr.wf, Bool.and_eq_true, decide_eq_true_eq, List.contains_iff_mem] at hw
  have h : (opA (ar 0x68 d.code s1.code 0 t.code)).toNat = 104 := by rw [ar_opA]; rfl
  unfold decodeArith
  rw [h]
  refine Eq.trans (b := fin _ _) rfl ?_
  simp [az, bz, cz, fz, t0, mz, rng, hw]
theorem frcp (d s1 : Opnd) (t : ETy) : Statement (.frcp d s1 t) := arith_read rfl rfl fun hw => by
  simp only [Instr.wf, Bool.and_eq_true, decide_eq_true_eq, List.contains_iff_mem] at hw
  have h : (opA (ar 0x69 d.code s1.code 0 t.code)).toNat = 105 := by rw [ar_opA]; rfl
  unfold decodeArith
  rw [h]
  refine Eq.trans (b := fin _ _) rfl ?_
  simp [az, bz, cz, fz, t0, mz, rng, hw]
theorem frsq (d s1 : Opnd) (t : ETy) : Statement (.frsq d s1 t) := arith_read rfl rfl fun hw => by
  simp only [Instr.wf, Bool.and_eq_true, decide_eq_true_eq, List.contains_iff_mem] at hw
  have h : (opA (ar 0x6a d.code s1.code 0 t.code)).toNat = 106 := by rw [ar_opA]; rfl
  unfold decodeArith
  rw [h]
  refine Eq.trans (b := fin _ _) rfl ?_
  simp [az, bz, cz, fz, t0, mz, rng, hw]
theorem fexp2 (d s1 : Opnd) (t : ETy) : Statement (.fexp2 d s1 t) := arith_read rfl rfl fun hw => by
  simp only [Instr.wf, Bool.and_eq_true, decide_eq_true_eq, List.contains_iff_mem] at hw
  have h : (opA (ar 0x6b d.code s1.code 0 t.code)).toNat = 107 := by rw [ar_opA]; rfl
  unfold decodeArith
  rw [h]
  refine Eq.trans (b := fin _ _) rfl ?_
  simp [az, bz, cz, fz, t0, mz, rng, hw]
theorem flog2 (d s1 : Opnd) (t : ETy) : Statement (.flog2 d s1 t) := arith_read rfl rfl fun hw => by
  simp only [Instr.wf, Bool.and_eq_true, decide_eq_true_eq, List.contains_iff_mem] at hw
  have h : (opA (ar 0x6c d.code s1.code 0 t.code)).toNat = 108 := by rw [ar_opA]; rfl
  unfold decodeArith
  rw [h]
  refine Eq.trans (b := fin _ _) rfl ?_
  simp [az, bz, cz, fz, t0, mz, rng, hw]
theorem fcmpeq (d s1 s2 : Opnd) (t : ETy) : Statement (.fcmpeq d s1 s2 t) := arith_read rfl rfl fun hw => by
  simp only [Instr.wf, Bool.and_eq_true, decide_eq_true_eq, List.contains_iff_mem] at hw
  have h : (opA (ar 0x6d d.code s1.code s2.code t.code)).toNat = 109 := by rw [ar_opA]; rfl
  unfold decodeArith
  rw [h]
  refine Eq.trans (b := fin _ _) rfl ?_
  simp [az, bz, cz, fz, t0, mz, rng, hw]
theorem fcmplt (d s1 s2 : Opnd) (t : ETy) : Statement (.fcmplt d s1 s2 t) := arith_read rfl rfl fun hw => by
  simp only [Instr.wf, Bool.and_eq_true, decide_eq_true_eq, List.contains_iff_mem] at hw
  have h : (opA (ar 0x6e d.code s1.code s2.code t.code)).toNat = 110 := by rw [ar_opA]; rfl
  unfold decodeArith
  rw [h]
  refine Eq.trans (b := fin _ _) rfl ?_
  simp [az, bz, cz, fz, t0, mz, rng, hw]
theorem fcmple (d s1 s2 : Opnd) (t : ETy) : Statement (.fcmple d s1 s2 t) := arith_read rfl rfl fun hw => by
  simp only [Instr.wf, Bool.and_eq_true, decide_eq_true_eq, List.contains_iff_mem] at hw
  have h : (opA (ar 0x6f d.code s1.code s2.code t.code)).toNat = 111 := by rw [ar_opA]; rfl
  unfold decodeArith
  rw [h]
  refine Eq.trans (b := fin _ _) rfl ?_
  simp [az, bz, cz, fz, t0, mz, rng, hw]
theorem fclass (d s1 : Opnd) (t : ETy) : Statement (.fclass d s1 t) := arith_read rfl rfl fun hw => by
  simp only [Instr.wf, Bool.and_eq_true, decide_eq_true_eq, List.contains_iff_mem] at hw
  have h : (opA (ar 0x70 d.code s1.code 0 t.code)).toNat = 112 := by rw [ar_opA]; rfl
  unfold decodeArith
  rw [h]
  refine Eq.trans (b := fin _ _) rfl ?_
  simp [az, bz, cz, fz, t0, mz, rng, hw]
theorem fcvt (d s1 : Opnd) (t src : ETy) (sat : Bool) : Statement (.fcvt d s1 t src sat) := arith_read rfl rfl fun hw => by
  simp only [Instr.wf, Bool.and_eq_true, decide_eq_true_eq, List.contains_iff_mem] at hw
  have h : (opA (ar 0x71 d.code s1.code ((0 : BitVec 2) ++ BitVec.ofBool sat ++ src.code) t.code)).toNat = 113 := by rw [ar_opA]; rfl
  unfold decodeArith
  rw [h]
  refine Eq.trans (b := fin _ _) rfl ?_
  simp (disch := decide) only [cr_low, cr_bit, ci_low, ci_bit, ar_low, ar_bit, ai_low, atomExt, f3, size_top, extract_all, extract_low, extract_high, get_low, get_high, Nat.reduceSub]
  have ht : ¬ t = src := by simpa using hw.2
  simp [az, bz, cz, fz, t0, mz, rng, hw, ht]
theorem fcvti (d s1 : Opnd) (t src : ETy) : Statement (.fcvti d s1 t src) := arith_read rfl rfl fun hw => by
  simp only [Instr.wf, Bool.and_eq_true, decide_eq_true_eq, List.contains_iff_mem] at hw
  have h : (opA (ar 0x72 d.code s1.code ((0 : BitVec 3) ++ src.code) t.code)).toNat = 114 := by rw [ar_opA]; rfl
  unfold decodeArith
  rw [h]
  refine Eq.trans (b := fin _ _) rfl ?_
  simp (disch := decide) only [cr_low, cr_bit, ci_low, ci_bit, ar_low, ar_bit, ai_low, atomExt, f3, size_top, extract_all, extract_low, extract_high, get_low, get_high, Nat.reduceSub]
  simp [az, bz, cz, fz, t0, mz, rng, hw]
theorem icvtf (d s1 : Opnd) (t src : ETy) : Statement (.icvtf d s1 t src) := arith_read rfl rfl fun hw => by
  simp only [Instr.wf, Bool.and_eq_true, decide_eq_true_eq, List.contains_iff_mem] at hw
  have h : (opA (ar 0x73 d.code s1.code ((0 : BitVec 3) ++ src.code) t.code)).toNat = 115 := by rw [ar_opA]; rfl
  unfold decodeArith
  rw [h]
  refine Eq.trans (b := fin _ _) rfl ?_
  simp (disch := decide) only [cr_low, cr_bit, ci_low, ci_bit, ar_low, ar_bit, ai_low, atomExt, f3, size_top, extract_all, extract_low, extract_high, get_low, get_high, Nat.reduceSub]
  simp [az, bz, cz, fz, t0, mz, rng, hw]
theorem fred (op : FRedOp) (d s1 : Opnd) (t : ETy) : Statement (.fred op d s1 t) := arith_read rfl rfl fun hw => by
  simp only [Instr.wf, Bool.and_eq_true, decide_eq_true_eq, List.contains_iff_mem] at hw
  have h : (opA (ar 0x74 d.code s1.code ((0 : BitVec 5) ++ op.code) t.code)).toNat = 116 := by rw [ar_opA]; rfl
  unfold decodeArith
  rw [h]
  refine Eq.trans (b := fin _ _) rfl ?_
  simp (disch := decide) only [cr_low, cr_bit, ci_low, ci_bit, ar_low, ar_bit, ai_low, atomExt, f3, size_top, extract_all, extract_low, extract_high, get_low, get_high, Nat.reduceSub]
  simp [az, bz, cz, fz, t0, mz, rng, hw]
theorem fabs (d s1 : Opnd) (t : ETy) : Statement (.fabs d s1 t) := arith_read rfl rfl fun hw => by
  simp only [Instr.wf, Bool.and_eq_true, decide_eq_true_eq, List.contains_iff_mem] at hw
  have h : (opA (ar 0x75 d.code s1.code 0 t.code)).toNat = 117 := by rw [ar_opA]; rfl
  unfold decodeArith
  rw [h]
  refine Eq.trans (b := fin _ _) rfl ?_
  simp [az, bz, cz, fz, t0, mz, rng, hw]
theorem fneg (d s1 : Opnd) (t : ETy) : Statement (.fneg d s1 t) := arith_read rfl rfl fun hw => by
  simp only [Instr.wf, Bool.and_eq_true, decide_eq_true_eq, List.contains_iff_mem] at hw
  have h : (opA (ar 0x76 d.code s1.code 0 t.code)).toNat = 118 := by rw [ar_opA]; rfl
  unfold decodeArith
  rw [h]
  refine Eq.trans (b := fin _ _) rfl ?_
  simp [az, bz, cz, fz, t0, mz, rng, hw]
theorem fsgnj (d s1 s2 : Opnd) (t : ETy) : Statement (.fsgnj d s1 s2 t) := arith_read rfl rfl fun hw => by
  simp only [Instr.wf, Bool.and_eq_true, decide_eq_true_eq, List.contains_iff_mem] at hw
  have h : (opA (ar 0x77 d.code s1.code s2.code t.code)).toNat = 119 := by rw [ar_opA]; rfl
  unfold decodeArith
  rw [h]
  refine Eq.trans (b := fin _ _) rfl ?_
  simp [az, bz, cz, fz, t0, mz, rng, hw]
theorem tokb (s1 : Opnd) (off : BitVec 11) : Statement (.tokb s1 off) := arith_read rfl rfl fun hw => by
  simp only [Instr.wf, Bool.and_eq_true, decide_eq_true_eq, List.contains_iff_mem] at hw
  have h : (opA (ai 0x7c 0 s1.code off)).toNat = 124 := by rw [ai_opA]; rfl
  unfold decodeArith
  rw [h]
  refine Eq.trans (b := fin _ _) rfl ?_
  simp [az, bz, cz, fz, t0, mz, rng, hw]
theorem tokj (s1 : Opnd) : Statement (.tokj s1) := arith_read rfl rfl fun hw => by
  simp only [Instr.wf, Bool.and_eq_true, decide_eq_true_eq, List.contains_iff_mem] at hw
  have h : (opA (ar 0x7d 0 s1.code 0 0)).toNat = 125 := by rw [ar_opA]; rfl
  unfold decodeArith
  rw [h]
  refine Eq.trans (b := fin _ _) rfl ?_
  simp [az, bz, cz, fz, t0, mz, rng, hw]
theorem lateWriteLanding (core : Word) (ue : Bool) : Statement (.lateWriteLanding core ue) := fun _ _ _ h => by simp [encode] at h
theorem messageDelivery (i : Nat) : Statement (.messageDelivery i) := fun _ _ _ h => by simp [encode] at h
theorem sendAnswer (core : Word) (ans : SendAns) : Statement (.sendAnswer core ans) := fun _ _ _ h => by simp [encode] at h
theorem handlerStart (core : Word) : Statement (.handlerStart core) := fun _ _ _ h => by simp [encode] at h
theorem preempt (core : Word) : Statement (.preempt core) := fun _ _ _ h => by simp [encode] at h
theorem preemptResume (core : Word) : Statement (.preemptResume core) := fun _ _ _ h => by simp [encode] at h
theorem serviceDispatch (core : Word) (pc : Word) (wb wl pb pl proc : Nat) : Statement (.serviceDispatch core pc wb wl pb pl proc) := fun _ _ _ h => by simp [encode] at h
theorem dctDecrement (i : Nat) : Statement (.dctDecrement i) := fun _ _ _ h => by simp [encode] at h
theorem barrierPhaseComplete (grp : Nat) : Statement (.barrierPhaseComplete grp) := fun _ _ _ h => by simp [encode] at h
theorem copyJobStart (cl : Nat) (j : Nat) : Statement (.copyJobStart cl j) := fun _ _ _ h => by simp [encode] at h
theorem copyBeat (cl : Nat) (j : Nat) (ue : Bool) : Statement (.copyBeat cl j ue) := fun _ _ _ h => by simp [encode] at h
theorem streamBeat (core : Word) (n : Nat) : Statement (.streamBeat core n) := fun _ _ _ h => by simp [encode] at h
theorem heldRemoteAccess (i : Nat) : Statement (.heldRemoteAccess i) := fun _ _ _ h => by simp [encode] at h
theorem imageWrite (cl : Nat) : Statement (.imageWrite cl) := fun _ _ _ h => by simp [encode] at h
theorem gangStart (cl : Nat) : Statement (.gangStart cl) := fun _ _ _ h => by simp [encode] at h
theorem gangto (core : Word) : Statement (.gangto core) := fun _ _ _ h => by simp [encode] at h
theorem gangStepRetire (cl : Nat) (ue : Nat) : Statement (.gangStepRetire cl ue) := fun _ _ _ h => by simp [encode] at h
theorem refreshWindow (core : Word) (opens : Bool) : Statement (.refreshWindow core opens) := fun _ _ _ h => by simp [encode] at h
theorem harvestDispatch (core : Word) : Statement (.harvestDispatch core) := fun _ _ _ h => by simp [encode] at h
theorem revocation (core : Word) : Statement (.revocation core) := fun _ _ _ h => by simp [encode] at h
theorem revocationComplete (core : Word) : Statement (.revocationComplete core) := fun _ _ _ h => by simp [encode] at h
theorem lendingResume (core : Word) : Statement (.lendingResume core) := fun _ _ _ h => by simp [encode] at h
theorem parkedContextResume (core : Word) : Statement (.parkedContextResume core) := fun _ _ _ h => by simp [encode] at h
theorem parkedContextMove (core : Word) (bank : Nat) (dest : Option (Word × Nat)) : Statement (.parkedContextMove core bank dest) := fun _ _ _ h => by simp [encode] at h
theorem pageWalk (core : Word) : Statement (.pageWalk core) := fun _ _ _ h => by simp [encode] at h
theorem tlbInvalidate (part : Nat) (proc : Option Nat) (va len : Nat) : Statement (.tlbInvalidate part proc va len) := fun _ _ _ h => by simp [encode] at h
theorem translationCompletion (core : Word) (ok : Bool) (page logSize : Nat) (r w : Bool) : Statement (.translationCompletion core ok page logSize r w) := fun _ _ _ h => by simp [encode] at h
theorem pageRequestGroupResponse (core : Word) (code : PrgCode) : Statement (.pageRequestGroupResponse core code) := fun _ _ _ h => by simp [encode] at h
theorem invalidateRequest (pasid page logSize : Nat) : Statement (.invalidateRequest pasid page logSize) := fun _ _ _ h => by simp [encode] at h
theorem transferBeat (core : Word) (j : Nat) (ue : Bool) : Statement (.transferBeat core j ue) := fun _ _ _ h => by simp [encode] at h
theorem pushCompletionMessage (core : Word) (j : Nat) : Statement (.pushCompletionMessage core j) := fun _ _ _ h => by simp [encode] at h
theorem piWrite (q : Nat) (v : Word) : Statement (.piWrite q v) := fun _ _ _ h => by simp [encode] at h
theorem clrf (q : Nat) : Statement (.clrf q) := fun _ _ _ h => by simp [encode] at h
theorem stopQueue (q : Nat) : Statement (.stopQueue q) := fun _ _ _ h => by simp [encode] at h
theorem fciWrite (q : Nat) (v : Word) : Statement (.fciWrite q v) := fun _ _ _ h => by simp [encode] at h
theorem notifyPageOtherWrite (q : Nat) (off : Nat) (v : Word) : Statement (.notifyPageOtherWrite q off v) := fun _ _ _ h => by simp [encode] at h
theorem messageRecord (q : Nat) : Statement (.messageRecord q) := fun _ _ _ h => by simp [encode] at h
theorem launchRecord (q : Nat) : Statement (.launchRecord q) := fun _ _ _ h => by simp [encode] at h
theorem signalRecord (q : Nat) : Statement (.signalRecord q) := fun _ _ _ h => by simp [encode] at h
theorem energyBudgetRecord (q : Nat) : Statement (.energyBudgetRecord q) := fun _ _ _ h => by simp [encode] at h
theorem walkerIssue (i : Nat) : Statement (.walkerIssue i) := fun _ _ _ h => by simp [encode] at h
theorem kernelComplete (q : Nat) (rec : Word) : Statement (.kernelComplete q rec) := fun _ _ _ h => by simp [encode] at h
theorem completionSignal (q : Nat) : Statement (.completionSignal q) := fun _ _ _ h => by simp [encode] at h
theorem wheelTurn (part : Nat) : Statement (.wheelTurn part) := fun _ _ _ h => by simp [encode] at h
theorem tlimitExpiry (q : Nat) (rec : Word) : Statement (.tlimitExpiry q rec) := fun _ _ _ h => by simp [encode] at h
theorem ladderDrainComplete (q : Nat) : Statement (.ladderDrainComplete q) := fun _ _ _ h => by simp [encode] at h
theorem ladderT1Expiry (q : Nat) : Statement (.ladderT1Expiry q) := fun _ _ _ h => by simp [encode] at h
theorem ladderSaveComplete (q : Nat) : Statement (.ladderSaveComplete q) := fun _ _ _ h => by simp [encode] at h
theorem ladderT2Expiry (q : Nat) : Statement (.ladderT2Expiry q) := fun _ _ _ h => by simp [encode] at h
theorem ladderReset (q : Nat) : Statement (.ladderReset q) := fun _ _ _ h => by simp [encode] at h
theorem queueRestore (q : Nat) : Statement (.queueRestore q) := fun _ _ _ h => by simp [encode] at h
theorem processKill (proc : Nat) : Statement (.processKill proc) := fun _ _ _ h => by simp [encode] at h
theorem partitionChange (part : Nat) (cores : PartCores) (room : PartRoom) : Statement (.partitionChange part cores room) := fun _ _ _ h => by simp [encode] at h
theorem queueCreate (q : Nat) (desc : List Word) : Statement (.queueCreate q desc) := fun _ _ _ h => by simp [encode] at h
theorem processChange (cl : Nat) : Statement (.processChange cl) := fun _ _ _ h => by simp [encode] at h
theorem meteringInterval (cl : Nat) : Statement (.meteringInterval cl) := fun _ _ _ h => by simp [encode] at h
theorem clockChange (cl : Nat) (n : Nat) : Statement (.clockChange cl n) := fun _ _ _ h => by simp [encode] at h
theorem pairRollback (core : Word) : Statement (.pairRollback core) := fun _ _ _ h => by simp [encode] at h
theorem linkFlit (link : Nat) (seq : Nat) (crcOk : Bool) : Statement (.linkFlit link seq crcOk) := fun _ _ _ h => by simp [encode] at h
theorem linkRetrain (link : Nat) (ok : Bool) : Statement (.linkRetrain link ok) := fun _ _ _ h => by simp [encode] at h
theorem durableReplay (q : Nat) : Statement (.durableReplay q) := fun _ _ _ h => by simp [encode] at h
theorem moduleLoad (part proc : Nat) (file : List Byte) (pc : Word) (ins : LoadIns) : Statement (.moduleLoad part proc file pc ins) := fun _ _ _ h => by simp [encode] at h
theorem moduleUnload (proc : Nat) (handle : Nat) : Statement (.moduleUnload proc handle) := fun _ _ _ h => by simp [encode] at h
theorem weightStoreOpen (part : Nat) : Statement (.weightStoreOpen part) := fun _ _ _ h => by simp [encode] at h
theorem weightStoreClose (part : Nat) : Statement (.weightStoreClose part) := fun _ _ _ h => by simp [encode] at h
theorem keySlotLoad (slot : Nat) (keys : Option (BitVec 256 × BitVec 256)) : Statement (.keySlotLoad slot keys) := fun _ _ _ h => by simp [encode] at h
theorem coreReset (core : Word) : Statement (.coreReset core) := fun _ _ _ h => by simp [encode] at h
theorem firmwareUpdate (image : List Byte) (version : Nat) (sigOff : Nat) : Statement (.firmwareUpdate image version sigOff) := fun _ _ _ h => by simp [encode] at h
theorem reducedService : Statement .reducedService := fun _ _ _ h => by simp [encode] at h
theorem fullService (d : ServiceDesc) : Statement (.fullService d) := fun _ _ _ h => by simp [encode] at h
theorem signedRecord (file : List Byte) : Statement (.signedRecord file) := fun _ _ _ h => by simp [encode] at h
theorem negotiateAlgorithms (sha3 mldsa : Bool) : Statement (.negotiateAlgorithms sha3 mldsa) := fun _ _ _ h => by simp [encode] at h
theorem challenge (nonce : BitVec 256) : Statement (.challenge nonce) := fun _ _ _ h => by simp [encode] at h
theorem getMeasurements (index : Nat) : Statement (.getMeasurements index) := fun _ _ _ h => by simp [encode] at h
theorem illegalEncoding (ari : Bool) (reason : Nat) (word : Word) : Statement (.illegalEncoding ari reason word) := fun _ _ _ h => by simp [encode] at h
theorem writePerformed (core : Word) : Statement (.writePerformed core) := fun _ _ _ h => by simp [encode] at h
theorem malformedCommandRecord (q : Nat) : Statement (.malformedCommandRecord q) := fun _ _ _ h => by simp [encode] at h
theorem completionTimeout (core : Word) : Statement (.completionTimeout core) := fun _ _ _ h => by simp [encode] at h
theorem scrub (core : Word) (line : Nat) (corrected : Bool) : Statement (.scrub core line corrected) := fun _ _ _ h => by simp [encode] at h
theorem pageTableWrite (key : Nat) (entry : DWord) : Statement (.pageTableWrite key entry) := fun _ _ _ h => by simp [encode] at h
theorem l2HitFill (core : Word) : Statement (.l2HitFill core) := fun _ _ _ h => by simp [encode] at h
theorem cnop : Statement (.cnop) := ctl_read rfl rfl fun hw m hm => by
  simp only [Instr.wf, Bool.and_eq_true, decide_eq_true_eq, List.contains_iff_mem] at hw
  have h : (opC (cr 0 0x00 0 0 0 0)).toNat = 0 := by rw [cr_opC]; rfl
  unfold decodeControl
  dsimp only
  rw [h]
  refine Eq.trans (b := guardForm _ _ _) rfl ?_
  simp [guardForm, ordF, az, bz, cz, fz, f3, b0, mz, rng, hw]
theorem loopPop : Statement (.loopPop) := ctl_read rfl rfl fun hw m hm => by
  simp only [Instr.wf, Bool.and_eq_true, decide_eq_true_eq, List.contains_iff_mem] at hw
  have h : (opC (cb 0 0x04 0 7 0)).toNat = 4 := by rw [cb_opC]; rfl
  unfold decodeControl
  dsimp only
  rw [h]
  refine Eq.trans (b := guardForm _ _ _) rfl ?_
  simp [guardForm, ordF, az, bz, cz, fz, f3, b0, mz, rng, hw]
theorem jtok : Statement (.jtok) := ctl_read rfl rfl fun hw m hm => by
  simp only [Instr.wf, Bool.and_eq_true, decide_eq_true_eq, List.contains_iff_mem] at hw
  have h : (opC (cr 0 0x05 0 0 0 0)).toNat = 5 := by rw [cr_opC]; rfl
  unfold decodeControl
  dsimp only
  rw [h]
  refine Eq.trans (b := guardForm _ _ _) rfl ?_
  simp [guardForm, ordF, az, bz, cz, fz, f3, b0, mz, rng, hw]
theorem eret : Statement (.eret) := ctl_read rfl rfl fun hw m hm => by
  simp only [Instr.wf, Bool.and_eq_true, decide_eq_true_eq, List.contains_iff_mem] at hw
  have h : (opC (cr 0 0x07 0 0 0 0)).toNat = 7 := by rw [cr_opC]; rfl
  unfold decodeControl
  dsimp only
  rw [h]
  refine Eq.trans (b := guardForm _ _ _) rfl ?_
  simp [guardForm, ordF, az, bz, cz, fz, f3, b0, mz, rng, hw]
theorem ifence : Statement (.ifence) := ctl_read rfl rfl fun hw m hm => by
  simp only [Instr.wf, Bool.and_eq_true, decide_eq_true_eq, List.contains_iff_mem] at hw
  have h : (opC (cr 0 0x1f 0 0 0 0)).toNat = 31 := by rw [cr_opC]; rfl
  unfold decodeControl
  dsimp only
  rw [h]
  refine Eq.trans (b := guardForm _ _ _) rfl ?_
  simp [guardForm, ordF, az, bz, cz, fz, f3, b0, mz, rng, hw]
theorem rls : Statement (.rls) := ctl_read rfl rfl fun hw m hm => by
  simp only [Instr.wf, Bool.and_eq_true, decide_eq_true_eq, List.contains_iff_mem] at hw
  have h : (opC (cr 0 0x2a 0 0 0 0)).toNat = 42 := by rw [cr_opC]; rfl
  unfold decodeControl
  dsimp only
  rw [h]
  refine Eq.trans (b := guardForm _ _ _) rfl ?_
  simp [guardForm, ordF, az, bz, cz, fz, f3, b0, mz, rng, hw]
theorem done : Statement (.done) := ctl_read rfl rfl fun hw m hm => by
  simp only [Instr.wf, Bool.and_eq_true, decide_eq_true_eq, List.contains_iff_mem] at hw
  have h : (opC (cr 0 0x2b 0 0 0 0)).toNat = 43 := by rw [cr_opC]; rfl
  unfold decodeControl
  dsimp only
  rw [h]
  refine Eq.trans (b := guardForm _ _ _) rfl ?_
  simp [guardForm, ordF, az, bz, cz, fz, f3, b0, mz, rng, hw]
theorem reclaim : Statement (.reclaim) := ctl_read rfl rfl fun hw m hm => by
  simp only [Instr.wf, Bool.and_eq_true, decide_eq_true_eq, List.contains_iff_mem] at hw
  have h : (opC (cr 0 0x38 0 0 0 0)).toNat = 56 := by rw [cr_opC]; rfl
  unfold decodeControl
  dsimp only
  rw [h]
  refine Eq.trans (b := guardForm _ _ _) rfl ?_
  simp [guardForm, ordF, az, bz, cz, fz, f3, b0, mz, rng, hw]
theorem ckpt : Statement (.ckpt) := ctl_read rfl rfl fun hw m hm => by
  simp only [Instr.wf, Bool.and_eq_true, decide_eq_true_eq, List.contains_iff_mem] at hw
  have h : (opC (cr 0 0x3d 0 0 0 0)).toNat = 61 := by rw [cr_opC]; rfl
  unfold decodeControl
  dsimp only
  rw [h]
  refine Eq.trans (b := guardForm _ _ _) rfl ?_
  simp [guardForm, ordF, az, bz, cz, fz, f3, b0, mz, rng, hw]
theorem anop : Statement (.anop) := arith_read rfl rfl fun _ => by decide
theorem fetch : Statement (.fetch) := fun _ _ _ h => by simp [encode] at h
theorem strdl : Statement (.strdl) := fun _ _ _ h => by simp [encode] at h
theorem trapEntry : Statement (.trapEntry) := fun _ _ _ h => by simp [encode] at h
theorem kernelStop : Statement (.kernelStop) := fun _ _ _ h => by simp [encode] at h
theorem tlbInvalidateComplete : Statement (.tlbInvalidateComplete) := fun _ _ _ h => by simp [encode] at h
theorem invalidationCompletion : Statement (.invalidationCompletion) := fun _ _ _ h => by simp [encode] at h
theorem overcurrentStep : Statement (.overcurrentStep) := fun _ _ _ h => by simp [encode] at h
theorem firmwareHeartbeat : Statement (.firmwareHeartbeat) := fun _ _ _ h => by simp [encode] at h
theorem firmwareHeartbeatMiss : Statement (.firmwareHeartbeatMiss) := fun _ _ _ h => by simp [encode] at h
theorem powerOn : Statement (.powerOn) := fun _ _ _ h => by simp [encode] at h
theorem getVersion : Statement (.getVersion) := fun _ _ _ h => by simp [encode] at h
theorem getCapabilities : Statement (.getCapabilities) := fun _ _ _ h => by simp [encode] at h
theorem getDigests : Statement (.getDigests) := fun _ _ _ h => by simp [encode] at h
theorem getCertificate : Statement (.getCertificate) := fun _ _ _ h => by simp [encode] at h
theorem priReenable : Statement .priReenable := fun _ _ _ h => by simp [encode] at h

end Sys2Proof.Laws.Encoding
end

