-- ==== Sys2Proof/Tests/Slice0.lean ====
section
/-! SUPPORT. The model's own tests: words written out from the encoding tables of chapter 2 and what they decode to,
terms that each check of WellFormed refuses, results worked out in the manual or by hand from its tables, and states
that meet the hypotheses of the statements. -/

namespace Sys2Proof.Tests

set_option Elab.async false

open Sys2Proof Sys2Proof.Machine

/-! ### Words, field by field (R32, R34) -/

/-- A word from its fields, each with its width, the highest first. -/
def word (l : List (Nat × Nat)) : Word := BitVec.ofNat 32 (l.foldl (fun w f => w * 2 ^ f.1 + f.2 % 2 ^ f.1) 0)
def cr (u op a b c f : Nat) : Word := word [(1, u), (6, op), (7, a), (7, b), (7, c), (4, f)]
def ci (op a b i : Nat) : Word := word [(1, 0), (6, op), (7, a), (7, b), (11, i)]
def cb (u op a cnd o : Nat) : Word := word [(1, u), (6, op), (7, a), (3, cnd), (15, o)]
def cm (u op a b off ord scp : Nat) : Word := word [(1, u), (6, op), (7, a), (7, b), (5, off), (2, ord), (3, scp), (1, 0)]
def ar (op d s1 s2 t : Nat) : Word := word [(7, op), (7, d), (7, s1), (7, s2), (4, t)]
def ai (op d s1 imm : Nat) : Word := word [(7, op), (7, d), (7, s1), (11, imm)]

/-- Each pair of words decodes, on a compute or a memory core, to its instruction. -/
def controlWords (m : Bool) (l : List (Word × Word × Instr)) : Bool := l.all (fun p => okInstr (decodeControl m p.1 p.2.1) == some p.2.2)
def arithWords (l : List (Word × Instr)) : Bool := l.all (fun p => okInstr (decodeArith p.1) == some p.2)

/-! ### Decoding, every instruction (R38, R40, R44) -/

theorem test_decode_flow : controlWords false [(cr 0 0x00 0 0 0 0, 0, .cnop), (cb 0 0x01 0x05 2 0x7FFE, 0, .bc .lt0 (.w 5) (-2)),
    (cb 0 0x01 0 6 3, 0, .bc .always .z 3), (cb 0 0x02 0x69 0 0x4000, 0, .call .z (-16384)), (cr 0 0x03 0x5F 0x60 0 0, 0, .jr (.w 95) (.o 0)),
    (cb 0 0x04 0x67 0 9, 0, .loop (.o 7) 9), (cb 0 0x04 0 7 0, 0, .loopPop), (cb 1 0x04 0 0 5, 0x80000001, .loopi 5 0x80000001),
    (cr 0 0x05 0 0 0 0, 0, .jtok), (ci 0x06 0 0 2047, 0, .trap 2047), (cr 0 0x07 0 0 0 0, 0, .eret), (ci 0x08 0 0 1, 0, .brk 1),
    (ci 0x09 0 0 600, 0, .fsync 600), (ci 0x0A 0x03 0 0x043, 0, .csrr (.w 3) .tagent), (ci 0x0B 0x03 0 0x004, 0, .csrw (.w 3) .fpm),
    (cr 1 0x0C 0x6A 0 0 0, 0xFFFFFFFF, .movi (.q 0) 0xFFFFFFFF), (ci 0x0D 0x68 0x6C 0x400, 0, .adda .lat (.q 2) (-1024))] = true := by decide

theorem test_decode_memory : controlWords false [(cm 0 0x10 1 2 31 0 0, 0, .ldb (.w 1) (.w 2) 31 .rlx .core), (cm 0 0x11 1 2 1 1 1, 0, .ldh (.w 1) (.w 2) 1 .acq .clus),
    (cm 0 0x12 1 2 2 3 2, 0, .ldw (.w 1) (.w 2) 2 .sc .die), (cm 0 0x13 1 2 3 0 3, 0, .ldd (.w 1) (.w 2) 3 .rlx .pkg), (cm 0 0x14 1 2 4 0 4, 0, .ldv (.w 1) (.w 2) 4 .rlx .pod),
    (cm 1 0x10 1 2 0 0 0, 7, .ldbLone (.w 1) (.w 2) .rlx .core 7), (cm 1 0x11 1 2 0 0 0, 7, .ldhLone (.w 1) (.w 2) .rlx .core 7),
    (cm 1 0x12 1 2 0 1 0, 7, .ldwLone (.w 1) (.w 2) .acq .core 7), (cm 1 0x13 1 2 0 0 1, 7, .lddLone (.w 1) (.w 2) .rlx .clus 7),
    (cm 1 0x14 1 2 0 0 0, 0xFFFFFFC0, .ldvLone (.w 1) (.w 2) .rlx .core 0xFFFFFFC0),
    (cm 0 0x15 1 2 31 0 0, 0, .stb (.w 1) (.w 2) 31 .rlx .core), (cm 0 0x16 1 2 1 2 1, 0, .sth (.w 1) (.w 2) 1 .rel .clus),
    (cm 0 0x17 1 2 2 3 2, 0, .stw (.w 1) (.w 2) 2 .sc .die), (cm 0 0x18 1 2 3 0 3, 0, .std (.w 1) (.w 2) 3 .rlx .pkg), (cm 0 0x19 0x72 2 4 0 4, 0, .stv (.m 0) (.w 2) 4 .rlx .pod),
    (cm 1 0x15 1 2 0 0 0, 7, .stbLone (.w 1) (.w 2) .rlx .core 7), (cm 1 0x16 1 2 0 0 0, 7, .sthLone (.w 1) (.w 2) .rlx .core 7),
    (cm 1 0x17 1 2 0 2 0, 7, .stwLone (.w 1) (.w 2) .rel .core 7), (cm 1 0x18 1 2 0 0 1, 7, .stdLone (.w 1) (.w 2) .rlx .clus 7),
    (cm 1 0x19 1 2 0 0 0, 64, .stvLone (.w 1) (.w 2) .rlx .core 64)] = true := by decide

theorem test_decode_access : controlWords false [(cr 0 0x1A 1 2 3 4, 0, .ldx (.w 1) (.w 2) (.w 3) .v), (cr 0 0x1B 1 2 3 0, 0, .stx (.w 1) (.w 2) (.w 3) .b),
    (cr 1 0x1C 1 2 3 8, word [(26, 0), (1, 1), (2, 3), (3, 4)], .amo .swap (.w 1) (.w 2) (.w 3) .sc .pod true),
    (cr 1 0x1D 1 2 3 0, word [(26, 0), (1, 0), (2, 2), (3, 1)], .cas (.w 1) (.w 2) (.w 3) .rel .clus false),
    (ci 0x1E 0 0 (32 + 8 * 2 + 3), 0, .fence .ar .pkg true), (cr 0 0x1F 0 0 0 0, 0, .ifence), (cr 0 0x20 5 0 0 0, 0, .strm (.w 5)),
    (cr 0 0x21 5 6 0 4, 0, .cpy .slide (.w 5) (.w 6)), (cr 0 0x22 5 0 0 0, 0, .cpseal (.w 5)), (ci 0x23 5 6 0, 0, .cpwait false (.w 5) (.w 6)),
    (ci 0x23 5 0 1, 0, .cpwait true (.w 5) .z), (cm 0 0x24 1 2 3 0 0, 0, .sti (.w 1) (.w 2) 3 .rlx .core), (cm 1 0x24 1 2 0 2 0, 64, .stiLone (.w 1) (.w 2) .rel .core 64)]
    = true := by decide

theorem test_decode_message : controlWords false [(cr 0 0x28 1 2 0 0, 0, .send (.w 1) (.w 2)), (cr 0 0x28 1 2 0 8, 0, .sendGrp (.w 1) (.w 2)),
    (cr 0 0x29 1 2 0 0, 0, .senda (.w 1) (.w 2)), (cr 0 0x2A 0 0 0 0, 0, .rls), (cr 0 0x2B 0 0 0 0, 0, .done), (ci 0x2C 0 0 0x105, 0, .tagsetOn 5),
    (ci 0x2C 0 0 0x0FF, 0, .tagsetOff 255), (cr 0 0x2D 1 2 0 0, 0, .dcarm (.w 1) (.w 2)), (cr 0 0x2E 1 0 0 0, 0, .dcdec (.w 1)), (ci 0x2F 0 0 3, 0, .gbar 3)] = true := by decide

theorem test_decode_matrix : controlWords false [(cr 1 0x30 1 2 0 0, word [(8, 0), (7, 127), (8, 0x81), (1, 1), (2, 2), (2, 1), (4, 8)],
      .mgang (.w 1) (.w 2) ⟨127, 0x81, true, .i8, .minp, 8⟩), (cr 0 0x31 1 0 0 0, 0, .mcode (.w 1)), (cr 0 0x32 1 2 0 5, 0, .accrd .hi (.w 1) (.w 2)),
    (ci 0x33 0 0 (3 * 256 + 15 * 16 + 14), 0, .accz .ora 14 15), (cr 0 0x34 1 0 0 0, 0, .setwin (.w 1)),
    (cr 1 0x34 0 0 0 0, word [(9, 0), (7, 96), (5, 0), (11, 2047)], .setwinLone 2047 96), (cr 0 0x35 1 0 0 0, 0, .getwin (.w 1)),
    (cr 0 0x36 1 0 0 0, 0, .setbnd (.w 1)), (cr 0 0x37 1 0 0 0, 0, .lend (.w 1)), (cr 0 0x38 0 0 0 0, 0, .reclaim), (cr 0 0x3D 0 0 0 0, 0, .ckpt)] = true := by decide

theorem test_decode_transfer : controlWords true [(cr 0 0x39 1 0 0 0, 0, .xld (.w 1)), (cr 0 0x3A 1 0 0 0, 0, .xst (.w 1)), (cr 0 0x3B 1 0 0 0, 0, .xpush (.w 1)),
    (cr 0 0x3C 1 0 0 0, 0, .xws (.w 1))] = true := by decide

theorem test_decode_scalar : arithWords [(ar 0 0 0 0 0, .anop), (ar 0x01 1 2 3 0, .add (.w 1) (.w 2) (.w 3)), (ar 0x02 1 2 3 0, .sub (.w 1) (.w 2) (.w 3)),
    (ar 0x03 1 2 3 0, .mul (.w 1) (.w 2) (.w 3)), (ar 0x04 1 2 3 0, .mulh (.w 1) (.w 2) (.w 3)), (ar 0x05 1 2 3 0, .mulhn (.w 1) (.w 2) (.w 3)),
    (ar 0x06 1 2 3 0, .div (.w 1) (.w 2) (.w 3)), (ar 0x07 1 2 3 0, .divn (.w 1) (.w 2) (.w 3)), (ar 0x08 1 2 3 0, .rem (.w 1) (.w 2) (.w 3)),
    (ar 0x09 1 2 3 0, .remn (.w 1) (.w 2) (.w 3)), (ar 0x0A 1 2 3 0, .and (.w 1) (.w 2) (.w 3)), (ar 0x0B 1 2 3 0, .or (.w 1) (.w 2) (.w 3)),
    (ar 0x0C 1 2 3 0, .xor (.w 1) (.w 2) (.w 3)), (ar 0x0D 1 2 3 0, .shl (.w 1) (.w 2) (.w 3)), (ar 0x0E 1 2 3 0, .shr (.w 1) (.w 2) (.w 3)),
    (ar 0x0F 1 2 3 0, .sra (.w 1) (.w 2) (.w 3)), (ar 0x10 1 2 3 0, .min (.w 1) (.w 2) (.w 3)), (ar 0x11 1 2 3 0, .max (.w 1) (.w 2) (.w 3)),
    (ar 0x12 1 2 3 0, .minn (.w 1) (.w 2) (.w 3)), (ar 0x13 1 2 3 0, .maxn (.w 1) (.w 2) (.w 3)), (ar 0x14 1 2 3 0, .slt (.w 1) (.w 2) (.w 3)),
    (ar 0x15 1 2 3 0, .sltn (.w 1) (.w 2) (.w 3)), (ar 0x16 1 2 3 0, .seq (.w 1) (.w 2) (.w 3)), (ar 0x17 0x68 0x6A 0x71 0, .sel .lat (.q 0) (.c 3)),
    (ar 0x18 0x6C 0x79 0 0, .clz (.q 2) (.m 7)), (ar 0x19 0x6D 0x6B 0 0, .popc (.q 3) (.q 1))] = true := by decide

theorem test_decode_immediate : arithWords [(ai 0x1A 1 2 0x7FF, .addi (.w 1) (.w 2) (-1)), (ai 0x1B 1 2 0x400, .andi (.w 1) (.w 2) (-1024)), (ai 0x1C 1 2 1, .ori (.w 1) (.w 2) 1),
    (ai 0x1D 1 2 2, .xori (.w 1) (.w 2) 2), (ai 0x1E 1 2 31, .shli (.w 1) (.w 2) 31), (ai 0x1F 1 2 1, .shri (.w 1) (.w 2) 1), (ai 0x20 1 2 4, .srai (.w 1) (.w 2) 4),
    (ai 0x21 1 2 0x3FF, .slti (.w 1) (.w 2) 1023), (ar 0x22 1 2 63 4, .lane (.w 1) (.w 2) 63 .n8), (ar 0x23 1 2 0 0, .mv (.w 1) (.w 2)), (ar 0x24 1 2 15 2, .ins (.w 1) (.w 2) 15 .i32),
    (ai 0x7C 0 2 0x7FE, .tokb (.w 2) (-2)), (ar 0x7D 0 2 0 0, .tokj (.w 2))] = true := by decide

theorem test_decode_vector : arithWords [(ar 0x30 1 2 3 0, .vadd (.w 1) (.w 2) (.w 3) .i8), (ar 0x31 1 2 3 1, .vsub (.w 1) (.w 2) (.w 3) .i16), (ar 0x32 1 2 3 2, .vmul (.w 1) (.w 2) (.w 3) .i32),
    (ar 0x33 1 2 3 4, .vmulh (.w 1) (.w 2) (.w 3) .n8), (ar 0x34 1 2 3 5, .vmac (.w 1) (.w 2) (.w 3) .n16), (ar 0x35 1 2 3 6, .vmin (.w 1) (.w 2) (.w 3) .n32),
    (ar 0x36 1 2 3 0, .vmax (.w 1) (.w 2) (.w 3) .i8), (ar 0x37 1 2 3 0, .vand (.w 1) (.w 2) (.w 3) .i8), (ar 0x38 1 2 3 0, .vor (.w 1) (.w 2) (.w 3) .i8),
    (ar 0x39 1 2 3 0, .vxor (.w 1) (.w 2) (.w 3) .i8), (ar 0x3A 1 2 3 0, .vshl (.w 1) (.w 2) (.w 3) .i8), (ar 0x3B 1 2 3 0, .vshr (.w 1) (.w 2) (.w 3) .i8),
    (ar 0x3C 1 2 3 0, .vsra (.w 1) (.w 2) (.w 3) .i8), (ar 0x3D 1 2 0 1, .vabs (.w 1) (.w 2) .i16), (ar 0x3E 1 2 3 0, .vadds (.w 1) (.w 2) (.w 3) .i8),
    (ar 0x3F 1 2 3 0, .vsubs (.w 1) (.w 2) (.w 3) .i8), (ar 0x40 1 2 3 0, .vcmpeq (.w 1) (.w 2) (.w 3) .i8), (ar 0x41 1 2 3 0, .vcmplt (.w 1) (.w 2) (.w 3) .i8),
    (ar 0x42 1 2 3 0, .vcmple (.w 1) (.w 2) (.w 3) .i8), (ar 0x43 1 2 3 0, .vsel (.w 1) (.w 2) (.w 3) .i8), (ar 0x44 1 2 0 0, .vbcast (.w 1) (.w 2) .i8),
    (ar 0x45 1 2 3 0, .vperm (.w 1) (.w 2) (.w 3) .i8), (ar 0x46 1 2 31 1, .vrot (.w 1) (.w 2) 31 .i16), (ar 0x47 1 2 3 1, .vnarrow (.w 1) (.w 2) (.w 3) .i16),
    (ar 0x48 1 2 1 0, .vwiden true (.w 1) (.w 2) .i8), (ar 0x49 1 2 3 2, .vred .xor (.w 1) (.w 2) .i32), (ar 0x4A 1 2 0 2, .vscan (.w 1) (.w 2) .i32),
    (ar 0x4B 1 2 0 0, .vpackt (.w 1) (.w 2) .i8), (ar 0x4C 1 2 0 1, .vunpkt (.w 1) (.w 2) .i16), (ar 0x4D 1 0 0 2, .viota (.w 1) .i32), (ar 0x4E 1 2 3 4, .vdot4 (.w 1) (.w 2) (.w 3) .n8)]
    = true := by decide

theorem test_decode_float : arithWords [(ar 0x60 1 2 3 8, .fadd (.w 1) (.w 2) (.w 3) .f32), (ar 0x61 1 2 3 9, .fsub (.w 1) (.w 2) (.w 3) .b16), (ar 0x62 1 2 3 8, .fmul (.w 1) (.w 2) (.w 3) .f32),
    (ar 0x63 1 2 3 8, .fma (.w 1) (.w 2) (.w 3) .f32), (ar 0x64 1 2 3 8, .fms (.w 1) (.w 2) (.w 3) .f32), (ar 0x65 1 2 3 8, .fmin (.w 1) (.w 2) (.w 3) .f32),
    (ar 0x66 1 2 3 8, .fmax (.w 1) (.w 2) (.w 3) .f32), (ar 0x67 1 2 3 8, .fdiv (.w 1) (.w 2) (.w 3) .f32), (ar 0x68 1 2 0 8, .fsqrt (.w 1) (.w 2) .f32), (ar 0x69 1 2 0 8, .frcp (.w 1) (.w 2) .f32),
    (ar 0x6A 1 2 0 8, .frsq (.w 1) (.w 2) .f32), (ar 0x6B 1 2 0 8, .fexp2 (.w 1) (.w 2) .f32), (ar 0x6C 1 2 0 8, .flog2 (.w 1) (.w 2) .f32), (ar 0x6D 1 2 3 8, .fcmpeq (.w 1) (.w 2) (.w 3) .f32),
    (ar 0x6E 1 2 3 8, .fcmplt (.w 1) (.w 2) (.w 3) .f32), (ar 0x6F 1 2 3 8, .fcmple (.w 1) (.w 2) (.w 3) .f32), (ar 0x70 1 2 0 9, .fclass (.w 1) (.w 2) .b16),
    (ar 0x71 1 2 (16 + 8) 10, .fcvt (.w 1) (.w 2) .e4m3 .f32 true), (ar 0x72 1 2 9 0, .fcvti (.w 1) (.w 2) .i8 .b16), (ar 0x73 1 2 6 8, .icvtf (.w 1) (.w 2) .f32 .n32),
    (ar 0x74 1 2 2 9, .fred .max (.w 1) (.w 2) .b16), (ar 0x75 1 2 0 8, .fabs (.w 1) (.w 2) .f32), (ar 0x76 1 2 0 8, .fneg (.w 1) (.w 2) .f32), (ar 0x77 1 2 3 8, .fsgnj (.w 1) (.w 2) (.w 3) .f32)]
    = true := by decide

/-- The worked words of the manual. -/
theorem test_decode_manual : decodeArith 0x34040FFF = .ok (.addi (.w 1) (.w 1) (-1)) ∧ decodeArith 0x9C079F40 = .ok (.vdot4 (.w 1) (.m 1) (.m 2) .i8) ∧
    decodeControl false 0x2E0C1000 0 = .ok (.stw (.w 3) (.w 2) 0 .rlx .core) ∧ decodeControl false 0x56000000 0 = .ok .done ∧
    decodeControl false 0x58000105 0 = .ok (.tagsetOn 5) ∧ decodeControl false 0x40140000 0 = .ok (.strm (.w 5)) := by decide

/-! ### What WellFormed refuses -/

/-- R14, R22, R26: sources and destinations. -/
theorem test_illformed_operands : [Instr.jr (.m 0) (.w 0), .jr (.q 2) (.w 0), .jr (.w 0) (.q 0), .jr (.w 0) (.c 0), .ldw .lat (.w 0) 0 .rlx .core, .add (.c 0) (.w 0) (.w 0), .add (.q 0) (.w 0) (.w 0),
    .add (.w 0) (.q 2) (.w 0), .add (.w 0) (.w 0) (.q 3), .sel (.q 2) (.w 0) (.w 0), .tokb (.q 2) 0, .csrr (.m 0) .wb, .cpwait true (.w 0) (.w 1), .bc .always (.w 0) 0].all (fun i => !i.wf) = true := by
  decide

/-- R33, R36, R37, R40, R43, R123, R222, R223: types, orders and values. -/
theorem test_illformed_fields : [Instr.ldb (.w 0) (.w 0) 0 .rel .core, .stb (.w 0) (.w 0) 0 .acq .core, .sti (.w 0) (.w 0) 0 .acq .core, .vabs (.w 0) (.w 0) .n8, .vnarrow (.w 0) (.w 0) (.w 0) .i32,
    .vadd (.w 0) (.w 0) (.w 0) .f32, .vdot4 (.w 0) (.w 0) (.w 0) .i16, .fadd (.w 0) (.w 0) (.w 0) .e4m3, .fcvt (.w 0) (.w 0) .f32 .f32 false, .fcvti (.w 0) (.w 0) .f32 .f32,
    .icvtf (.w 0) (.w 0) .i8 .i8, .lane (.w 0) (.w 0) 16 .i32, .ins (.w 0) (.w 0) 64 .i8, .vrot (.w 0) (.w 0) 32 .n16, .loop (.w 0) 0, .loopi (-1) 4, .accz .pt 3 2, .csrw (.w 0) .core,
    .mgang (.w 0) (.w 0) ⟨1, 1, false, .i8, .pt, 9⟩, .mgang (.w 0) (.w 0) ⟨0, 1, false, .i8, .pt, 0⟩, .mgang (.w 0) (.w 0) ⟨1, 0, false, .i8, .pt, 0⟩,
    .mgang (.w 0) (.w 0) ⟨1, 1, false, .i16, .pt, 0⟩, .mgang (.w 0) (.w 0) ⟨1, 1, false, .c4, .minp, 0⟩].all (fun i => !i.wf) = true := by decide


/-! ### Small states -/

/-- The bundle of an arithmetic word at PC 0. -/
def ent (i : Instr) : BEnt := { pc := 0, word := word1Of i, lone := false, old := [], skip := false }
/-- A running slot with a window of 16 rows. -/
def slot0 : Slot := { Slot.reset with active := true, wl := 16, pc := 8 }
/-- The reset core's owner slot at x, with register rows. -/
def at0 (x : Slot) (rows : List (Nat × Row)) : State := { State.reset with core := { Core.reset 0 with slot := x, regs := rows } }
/-- An arithmetic word about to run. -/
def stA (i : Instr) (rows : List (Nat × Row)) : State := at0 { slot0 with backlog := [ent i] } rows
/-- A control word about to issue. -/
def stC (rows : List (Nat × Row)) : State := at0 slot0 rows
/-- A row from its lanes. -/
def row (l : List Word) : Row := rowOfLanes l
/-- What a next state has at f. -/
def after {α : Type} (o : Out) (f : State → α) : Option α :=
  match o with
  | .next t => some (f t)
  | _ => none
/-- Lane 0 of row w1 once i has run on a in w2 and b in w3. -/
def lane0 (i : Instr) (a b : Word) : Option Word := after (exec i (stA i [(2, row [a]), (3, row [b])])) (fun t => lane (t.core.row 1) 0)
/-- Row w1 once i has run on the rows p in w2 and q in w3. -/
def row1 (i : Instr) (p q : Row) : Option Row := after (exec i (stA i [(2, p), (3, q)])) (fun t => t.core.row 1)

/-! ### Results, by hand from the tables of R88 to R114 -/

theorem test_add_wraps : lane0 (.add (.w 1) (.w 2) (.w 3)) 0xFFFFFFFF 2 = some 1 := by decide +kernel
theorem test_mulh_signed : lane0 (.mulh (.w 1) (.w 2) (.w 3)) 0xFFFFFFFF 2 = some 0xFFFFFFFF ∧ lane0 (.mulhn (.w 1) (.w 2) (.w 3)) 0xFFFFFFFF 2 = some 1 := by decide +kernel
theorem test_div_toward_zero : lane0 (.div (.w 1) (.w 2) (.w 3)) (-7) 2 = some (-3) ∧ lane0 (.rem (.w 1) (.w 2) (.w 3)) (-7) 2 = some (-1) := by decide +kernel
theorem test_div_zero : lane0 (.divn (.w 1) (.w 2) (.w 3)) 5 0 = some 0xFFFFFFFF ∧ lane0 (.remn (.w 1) (.w 2) (.w 3)) 5 0 = some 5 := by decide +kernel
theorem test_sra_distance : lane0 (.sra (.w 1) (.w 2) (.w 3)) 0x80000000 33 = some 0xC0000000 := by decide +kernel
theorem test_clz_popc : lane0 (.clz (.w 1) (.w 2)) 0 7 = some 32 ∧ lane0 (.clz (.w 1) (.w 2)) 0x00010000 7 = some 15 ∧ lane0 (.popc (.w 1) (.w 2)) 0xF0F00001 0 = some 9 := by decide +kernel
theorem test_slti_signed : lane0 (.slti (.w 1) (.w 2) 0) 0xFFFFFFFF 0 = some 1 ∧ lane0 (.sltn (.w 1) (.w 2) (.w 3)) 0xFFFFFFFF 0 = some 0 := by decide +kernel
theorem test_lane_signed : lane0 (.lane (.w 1) (.w 2) 1 .i8) 0x00008000 0 = some 0xFFFFFF80 ∧ lane0 (.lane (.w 1) (.w 2) 1 .n8) 0x00008000 0 = some 0x80 := by decide +kernel
theorem test_scalar_keeps_lanes : row1 (.add (.w 1) (.w 1) (.w 2)) (row [5, 6]) 0 = some (row [5]) := by decide +kernel
theorem test_vadds_saturates : row1 (.vadds (.w 1) (.w 2) (.w 3) .i8) (row [0x64C80000]) (row [0x64C80000]) = some (row [0x7F900000]) := by decide +kernel
theorem test_vnarrow : row1 (.vnarrow (.w 1) (.w 2) (.w 3) .i16) (row [70000, 5]) (row [-70000]) = some (row [0x00057FFF, 0, 0, 0, 0, 0, 0, 0, 0x8000]) := by decide +kernel
theorem test_vscan : row1 (.vscan (.w 1) (.w 2) .i32) (row [1, 2, 3]) 0 = some (row [1, 3, 6, 6, 6, 6, 6, 6, 6, 6, 6, 6, 6, 6, 6, 6]) := by decide +kernel
theorem test_vdot4_signed : row1 (.vdot4 (.w 1) (.w 2) (.w 3) .i8) (row [0x01FF0203]) (row [0x01010204]) = some (row [16]) := by decide +kernel
theorem test_vred_xor : lane0 (.vred .xor (.w 1) (.w 2) .i8) 0xFF8000FE 0 = some 0xFFFFFF81 := by decide +kernel
theorem test_vrot_count : row1 (.vrot (.w 1) (.w 2) 15 .i32) (row [7, 8]) 0 = some (row [0, 7, 8]) := by decide +kernel
theorem test_vpackt_unpacks : (row1 (.vpackt (.w 1) (.w 2) .i32) (row [5, -5, 0, 9]) 0).bind (fun r => row1 (.vunpkt (.w 1) (.w 2) .i32) r 0) = some (row [1, -1, 0, 1]) := by decide +kernel
theorem test_fadd_rounds : lane0 (.fadd (.w 1) (.w 2) (.w 3) .f32) 0x3F800000 0x33800000 = some 0x3F800000 ∧ lane0 (.fadd (.w 1) (.w 2) (.w 3) .f32) 0x3F800001 0x33800000 = some 0x3F800002 := by decide +kernel
theorem test_fdiv_third : lane0 (.fdiv (.w 1) (.w 2) (.w 3) .f32) 0x3F800000 0x40400000 = some 0x3EAAAAAB := by decide +kernel
theorem test_fsqrt_two : lane0 (.fsqrt (.w 1) (.w 2) .f32) 0x40000000 0 = some 0x3FB504F3 := by decide +kernel
/-- The examples of R113, under RNE, with inexact (bit 8 of cx.fpm) and invalid (bit 4). -/
theorem test_fcvti_manual : lane0 (.fcvti (.w 1) (.w 2) .i8 .f32) 0xC0200000 0 = some 0xFE ∧ lane0 (.fcvti (.w 1) (.w 2) .i8 .f32) 0x43480000 0 = some 0x7F ∧
    after (exec (.fcvti (.w 1) (.w 2) .i8 .f32) (stA (.fcvti (.w 1) (.w 2) .i8 .f32) [(2, row [0xC0200000])])) (fun t => t.core.slot.fpm) = some 0x100 ∧
    after (exec (.fcvti (.w 1) (.w 2) .i8 .f32) (stA (.fcvti (.w 1) (.w 2) .i8 .f32) [(2, row [0x43480000])])) (fun t => t.core.slot.fpm) = some 0x10 := by decide +kernel
theorem test_fcvt_sat : lane0 (.fcvt (.w 1) (.w 2) .e4m3 .f32 false) 0x44000000 0 = some 0x7F ∧ lane0 (.fcvt (.w 1) (.w 2) .e4m3 .f32 true) 0x44000000 0 = some 0x7E := by decide +kernel
theorem test_fclass_zero : (lane0 (.fclass (.w 1) (.w 2) .f32) 0x80000000 0) = some 8 := by decide +kernel

/-! ### Control words -/

theorem test_movi_lane : after (exec (.movi (.w 1) 9) (stC [(1, row [1, 2])])) (fun t => t.core.row 1) = some (row [9, 2]) := by decide +kernel
theorem test_bc_taken : after (exec (.bc .lt0 (.w 1) (-1)) (stC [(1, row [-5])])) (fun t => t.core.slot.pc) = some 0 ∧
    after (exec (.bc .lt0 (.w 1) (-1)) (stC [])) (fun t => t.core.slot.pc) = some 16 := by decide +kernel
/-- R123, R125: the loop of two bundles at 16 goes back to its start once. -/
theorem test_loop_end : endTest (row [0, 0, 0, 0, 0, 0, 0, 0, 1, 16, 24]) 24 = (row [0, 0, 0, 0, 0, 0, 0, 0, 0, 16, 24], 16) ∧ endTest (row [0, 0, 0, 0, 0, 0, 0, 0, 0, 16, 24]) 24 = (0, 32) := by decide +kernel
/-- R127, R273: `trap 3` with a handler at 0x200. -/
theorem test_trap_entry : after (exec (.trap 3) (stC [(0, row [0x200])])) (fun t => (t.core.slot.pc, lane t.core.hdr 2, lane t.core.hdr 4, modeIT (modeOf t.core.hdr))) =
    some (0x200, 16, 0x60F, true) := by decide +kernel
/-- R276: without a handler the kernel is to be stopped. -/
theorem test_trap_escalates : after (exec (.brk 1) (stC [])) (fun t => (t.core.slot.halted, t.stops.length)) = some (true, 1) := by decide +kernel
/-- R150, R65: a store puts its bytes lowest first. -/
theorem test_stw_bytes : after (exec (.stw (.w 1) (.w 2) 1 .rlx .core) (stC [(1, row [0x04030201]), (2, row [0x100])])) (fun t => memReadN t.mem (localKey 0 0x104) 4) = some [1, 2, 3, 4] := by decide +kernel
/-- R146: a misaligned 64-byte access traps AL, cause 5. -/
theorem test_ldv_misaligned : after (exec (.ldv (.w 1) (.w 2) 0 .rlx .core) (stC [(0, row [0x200]), (2, row [8])])) (fun t => (lane t.core.hdr 4, lane t.core.hdr 5)) = some (5, 8) := by decide +kernel
theorem test_setwin_limit : after (exec (.setwinLone 8 96) (stC [])) (fun t => t.core.slot.winNext) = some (some (8, 96)) := by decide +kernel


/-! ### States that meet the hypotheses of the statements: the two streams -/

/-- ReadyA and ReadyC as checks. -/
def okA (i : Instr) (s : State) (e : BEnt) (a : AOps) : Bool :=
  decide (s.core.slot.backlog.head? = some e) && !(a.srcs ++ a.dst.toList).any (beyond s.core.slot) && !farD s.core.slot a && decide (aWait s.core i a = 0)
def okC (p : CSpec) (s : State) : Bool := p.bar.isNone && !(p.srcs ++ p.dst.toList).any (beyond s.core.slot) && decide (cWait s.core p = 0)

theorem readyA_of {i : Instr} {s : State} {e : BEnt} {a : AOps} (h : aOps i = some a) (g : okA i s e a = true) : ReadyA i s e a := by
  simp only [okA, Bool.and_eq_true, decide_eq_true_eq, Bool.not_eq_true'] at g
  exact ⟨g.1.1.1, h, g.1.1.2, g.1.2, g.2⟩

theorem readyC_of {p : CSpec} {s : State} (g : okC p s = true) : ReadyC p s := by
  simp only [okC, Bool.and_eq_true, decide_eq_true_eq, Bool.not_eq_true', Option.isNone_iff_eq_none] at g
  exact ⟨g.1.1, g.1.2, g.2⟩

/-- The word i can run on rows w2 and w3. -/
def CanRun (i : Instr) (rows : List (Nat × Row)) : Prop := ∃ a, ReadyA i (stA i rows) (ent i) a

theorem wit_scalar : (∃ f, (Instr.add (.w 1) (.w 2) (.w 3), f) ∈ scalarRules (.w 1) (.w 2) (.w 3)) ∧ CanRun (.add (.w 1) (.w 2) (.w 3)) [] ∧ CanRun (.clz (.w 1) (.w 2)) [] ∧
    CanRun (.popc (.w 1) (.w 2)) [] := ⟨⟨_, List.mem_cons_self⟩, ⟨_, readyA_of rfl (by decide +kernel)⟩, ⟨_, readyA_of rfl (by decide +kernel)⟩, ⟨_, readyA_of rfl (by decide +kernel)⟩⟩
theorem wit_immediate : (∃ f, (Instr.addi (.w 1) (.w 2) (-1024), f) ∈ immediateRules (.w 1) (.w 2) (-1024) 31) ∧ CanRun (.addi (.w 1) (.w 2) (-1024)) [] :=
  ⟨⟨_, List.mem_cons_self⟩, ⟨_, readyA_of rfl (by decide +kernel)⟩⟩
/-- Lane 1 of the header holds MODE: 0x10000 sets DZ. -/
def dzHeader : Nat × Row := (0, row [0x200, 0x10000])
theorem wit_division : (∃ f g, (Instr.div (.w 1) (.w 2) (.w 3), f, g) ∈ divisionRules (.w 1) (.w 2) (.w 3)) ∧ CanRun (.div (.w 1) (.w 2) (.w 3)) [dzHeader] ∧
    lane ((stA (.div (.w 1) (.w 2) (.w 3)) [(3, row [5])]).core.row 3) 0 ≠ 0 ∧ modeDZ (modeFor (stA (.div (.w 1) (.w 2) (.w 3)) []).core (ent (.div (.w 1) (.w 2) (.w 3)))) = false ∧
    modeDZ (modeFor (stA (.div (.w 1) (.w 2) (.w 3)) [dzHeader]).core (ent (.div (.w 1) (.w 2) (.w 3)))) = true :=
  ⟨⟨_, _, List.mem_cons_self⟩, ⟨_, readyA_of rfl (by decide +kernel)⟩, by decide +kernel, by decide +kernel, by decide +kernel⟩
theorem wit_moves : CanRun (.sel (.w 1) (.w 2) (.w 3)) [] ∧ ((Instr.lane (.w 1) (.w 2) 63 .i8).wf = true ∧ CanRun (.lane (.w 1) (.w 2) 63 .i8) []) ∧ CanRun (.mv (.w 1) (.w 2)) [] ∧
    ((Instr.ins (.w 1) (.w 2) 15 .i32).wf = true ∧ CanRun (.ins (.w 1) (.w 2) 15 .i32) []) ∧ CanRun .anop [] :=
  ⟨⟨_, readyA_of rfl (by decide +kernel)⟩, ⟨by decide, _, readyA_of rfl (by decide +kernel)⟩, ⟨_, readyA_of rfl (by decide +kernel)⟩, ⟨by decide, _, readyA_of rfl (by decide +kernel)⟩,
    ⟨_, readyA_of rfl (by decide +kernel)⟩⟩
theorem wit_elementwise : (∃ f, (Instr.vadd (.w 1) (.w 2) (.w 3) .n32, f) ∈ elementRules (.w 1) (.w 2) (.w 3) .n32) ∧ CanRun (.vadd (.w 1) (.w 2) (.w 3) .n32) [] :=
  ⟨⟨_, List.mem_cons_self⟩, ⟨_, readyA_of rfl (by decide +kernel)⟩⟩
theorem wit_rearranging : CanRun (.vabs (.w 1) (.w 2) .i8) [] ∧ CanRun (.vbcast (.w 1) (.w 2) .n16) [] ∧ CanRun (.vperm (.w 1) (.w 2) (.w 3) .i8) [] ∧ CanRun (.vrot (.w 1) (.w 2) 63 .i8) [] ∧
    CanRun (.viota (.w 15) .i8) [] :=
  ⟨⟨_, readyA_of rfl (by decide +kernel)⟩, ⟨_, readyA_of rfl (by decide +kernel)⟩, ⟨_, readyA_of rfl (by decide +kernel)⟩, ⟨_, readyA_of rfl (by decide +kernel)⟩, ⟨_, readyA_of rfl (by decide +kernel)⟩⟩
theorem wit_width : CanRun (.vnarrow (.w 1) (.w 2) (.w 3) .i8) [] ∧ CanRun (.vwiden true (.w 1) (.w 2) .n16) [] ∧ CanRun (.vscan (.w 1) (.w 2) .n32) [] ∧ CanRun (.vdot4 (.w 1) (.w 2) (.w 3) .n8) [] :=
  ⟨⟨_, readyA_of rfl (by decide +kernel)⟩, ⟨_, readyA_of rfl (by decide +kernel)⟩, ⟨_, readyA_of rfl (by decide +kernel)⟩, ⟨_, readyA_of rfl (by decide +kernel)⟩⟩
theorem wit_reduction_trits : CanRun (.vred .min (.w 1) (.w 2) .i8) [] ∧ CanRun (.vpackt (.w 1) (.w 2) .i8) [] ∧ CanRun (.vunpkt (.w 1) (.w 2) .i32) [] :=
  ⟨⟨_, readyA_of rfl (by decide +kernel)⟩, ⟨_, readyA_of rfl (by decide +kernel)⟩, ⟨_, readyA_of rfl (by decide +kernel)⟩⟩
/-- Without MODE bits nothing is enabled; with FX set, 1 + 2^-25 is inexact and traps. -/
theorem wit_floating : (∃ n f, (Instr.fadd (.w 1) (.w 2) (.w 3) .f32, n, f) ∈ fpRules (.w 1) (.w 2) (.w 3) .f32 .b16 false) ∧ CanRun (.fadd (.w 1) (.w 2) (.w 3) .f32) [] ∧
    excEnabled (modeFor (stA (.fadd (.w 1) (.w 2) (.w 3) .f32) []).core (ent (.fadd (.w 1) (.w 2) (.w 3) .f32))) (fAdd .f32 .rne 0x3F800000 0x33000000).2 = false ∧
    excEnabled (modeFor (stA (.fadd (.w 1) (.w 2) (.w 3) .f32) [(0, row [0, 0x100000])]).core (ent (.fadd (.w 1) (.w 2) (.w 3) .f32))) (fAdd .f32 .rne 0x3F800000 0x33000000).2 = true :=
  ⟨⟨_, _, List.mem_cons_self⟩, ⟨_, readyA_of rfl (by decide +kernel)⟩, by decide +kernel, by decide +kernel⟩
theorem wit_signs : (∃ g, (Instr.fabs (.w 1) (.w 2) .b16, g) ∈ signRules (.w 1) (.w 2) (.w 3) .b16) ∧ CanRun (.fabs (.w 1) (.w 2) .b16) [] ∧ CanRun (.fclass (.w 1) (.w 2) .f32) [] ∧
    (fDecode .b16 0x3F80).isNan = false ∧ (fDecode .b16 0x7FFF).isNan = true :=
  ⟨⟨_, List.mem_cons_self⟩, ⟨_, readyA_of rfl (by decide +kernel)⟩, ⟨_, readyA_of rfl (by decide +kernel)⟩, by decide +kernel, by decide +kernel⟩
/-- 1 and 3 in single precision: their sum, 4, fits, and is one of the exact rules; b16's -2 is finite; 1/3 is not held exactly. -/
theorem wit_floating_values : IsFinite .f32 0x3F800000 ∧ IsFinite .f32 0x40400000 ∧ IsFinite .b16 0xC000 ∧
    ((fAdd .f32 .rne 0x3F800000 0x40400000, fpValue .f32 0x3F800000 + fpValue .f32 0x40400000) ∈ exactRules .f32 .rne 0x3F800000 0x40400000 0) ∧
    (fmt .f32).flush = false ∧ (fAdd .f32 .rne 0x3F800000 0x40400000).1 = 0x40800000 ∧ (fAdd .f32 .rne 0x3F800000 0x40400000).2.nx = false ∧
    (fDiv .f32 .rne 0x3F800000 0x40400000).2.nx = true := by
  refine ⟨⟨by decide, by decide⟩, ⟨by decide, by decide⟩, ⟨by decide, by decide⟩, List.mem_cons_self, by decide, by decide +kernel, by decide +kernel, by decide +kernel⟩
theorem wit_fits : Fits .f32 (fpValue .f32 0x40800000) ∧ Fits .f32 ((4 : ℤ) : ℚ) := by
  have h : fpValue .f32 0x40800000 = 4 := by decide +kernel
  have m : (4 : ℚ) ≤ fpValue .f32 (fmt .f32).maxCode := by decide +kernel
  rw [h]
  exact ⟨⟨by norm_num, by rw [abs_of_nonneg (by norm_num)]; exact m, fun g => by simp [fmt] at g⟩,
    ⟨by norm_num, by push_cast; rw [abs_of_nonneg (by norm_num)]; exact m, fun g => by simp [fmt] at g⟩⟩
/-- The largest single-precision number beyond which 2^128 lies; b16's least normal number and half of it; what the modes do with them. -/
theorem wit_rounding : Overflows .f32 .rne (2 ^ 128) ∧ ¬ Overflows .f32 .rtz (2 ^ 128 - 1) ∧ fpValue .f32 (fmt .f32).maxCode < |(2 : ℚ) ^ 128 - 1| ∧
    Tiny .b16 .rne (2 ^ (-127 : Int)) ∧ (fmt .b16).flush = true ∧ ¬ Tiny .b16 .rne ((2 : ℚ) ^ (-126 : Int) - 2 ^ (-136 : Int)) ∧
    |(2 : ℚ) ^ (-126 : Int) - 2 ^ (-136 : Int)| < 2 ^ (1 - ((fmt .b16).bias : Int)) := by
  have m : fpValue .f32 2139095039 = 340282346638528859811704183484516925440 := by decide +kernel
  have n : fpValue .f32 2139095038 = 340282326356119256160033759537265639424 := by decide +kernel
  unfold Overflows Tiny
  norm_num [fmt, m, n]
/-- Codes of single precision by kind: +∞, -∞, a quiet and a signalling NaN, the zeros; 4 and its root; a negative number. -/
theorem wit_specials : isInf .f32 0x7F800000 = true ∧ isInf .f32 0xFF800000 = true ∧ IsNan .f32 0x7FC00000 ∧ ¬ IsSig .f32 0x7FC00000 ∧ IsSig .f32 0x7F800001 ∧
    fpValue .f32 0 = 0 ∧ fpValue .f32 0x80000000 = 0 ∧ fSign .f32 0x80000000 = true ∧ IsFinite .f32 0x40800000 ∧ 0 < fpValue .f32 0x40800000 ∧ fpValue .f32 0xC0800000 < 0 ∧
    fpValue .f32 (fSqrt .f32 .rne 0x40800000).1 = 2 ∧ 0x7F800001 < 2 ^ ETy.f32.width ∧ ETy.fps.contains .f32 = true ∧ ETy.floats.contains .e4m3 = true ∧
    fpPlace .f32 0xFF800000 < fpPlace .f32 0xC0800000 ∧ fpPlace .f32 0x40800000 < fpPlace .f32 0x7F800000 ∧ fpPlace .f32 0 = fpPlace .f32 0x80000000 := by
  refine ⟨by decide +kernel, by decide +kernel, ⟨by decide +kernel, by decide +kernel⟩, fun h => absurd h.2.2 (by decide +kernel), ⟨⟨by decide +kernel, by decide +kernel⟩, by decide +kernel, by decide +kernel⟩,
    by decide +kernel, by decide +kernel, by decide +kernel, ⟨by decide, by decide⟩, by decide +kernel, by decide +kernel, by decide +kernel, by decide +kernel, by decide, by decide, ?_, ?_, ?_⟩
  · simp [fpPlace, show isInf .f32 0xFF800000 = true by decide +kernel, show isInf .f32 0xC0800000 = false by decide +kernel, show fSign .f32 0xFF800000 = true by decide +kernel]
  · simp only [fpPlace, show isInf .f32 0x7F800000 = true by decide +kernel, show isInf .f32 0x40800000 = false by decide +kernel, show fSign .f32 0x7F800000 = false by decide +kernel]
    exact WithBot.coe_lt_coe.mpr (WithTop.coe_lt_top _)
  · simp only [fpPlace, show isInf .f32 0 = false by decide +kernel, show isInf .f32 0x80000000 = false by decide +kernel, show fpValue .f32 0 = 0 by decide +kernel, show fpValue .f32 0x80000000 = 0 by decide +kernel, Bool.false_eq_true, if_false]
/-- 2.5 to an integer, under two of the modes; a reduction tree of one level; the ranges that bound the approximations. -/
theorem wit_conversions : IntRounded .rne (5 / 2) 2 ∧ IntRounded .rup (5 / 2) 3 ∧ ETy.ints.contains .i8 = true ∧ isInf .b16 0x7F80 = true ∧ IsNan .e4m3 0x7F ∧
    (let v (j e : Nat) : Nat := if j = 0 then 0x3F800000 * (e + 1) % 2 ^ 32 else (fAdd .f32 .rne 0x3F800000 0x7F000000).1
     ∀ j, j < 1 → ∀ e, e < 2 ^ (1 - 1 - j) → v (j + 1) e = (fAdd .f32 .rne (v j e) (v j (e + 2 ^ (1 - 1 - j)))).1) ∧
    (2 : ℚ) ^ (-128 : Int) < |fpValue .f32 0x40800000| ∧ (2 : ℚ) ^ (-2 : Int) ≤ |(fpValue .f32 0x40800000)⁻¹| ∧ |(fpValue .f32 0x40800000)⁻¹| < 2 ^ (-2 + 1 : Int) ∧
    (4 : ℚ) ^ (-1 : Int) ≤ (fpValue .f32 0x40800000)⁻¹ ∧ (fpValue .f32 0x40800000)⁻¹ < 4 ^ (-1 + 1 : Int) ∧ 128 ≤ fpValue .f32 0x43000000 ∧ fpValue .f32 0xC3160000 < -149 ∧
    fpValue .f32 1 ≠ 0 ∧ |fpValue .f32 1| ≤ 2 ^ (-128 : Int) := by
  have h : fpValue .f32 0x40800000 = 4 := by decide +kernel
  have one : fpValue .f32 1 = 1 / 2 ^ 149 := by decide +kernel
  refine ⟨⟨by norm_num [abs_of_neg], fun _ => by decide⟩, ?_, by decide, by decide +kernel, ⟨by decide +kernel, by decide +kernel⟩, ?_, by rw [h]; norm_num [abs_of_nonneg], by rw [h]; norm_num [abs_of_nonneg],
    by rw [h]; norm_num [abs_of_nonneg], by rw [h]; norm_num, by rw [h]; norm_num, by decide +kernel, by decide +kernel, by rw [one]; norm_num, by rw [one]; norm_num [abs_of_nonneg]⟩
  · show (3 : Int) = ⌈(5 / 2 : ℚ)⌉
    norm_num [Int.ceil_eq_iff, eq_comm]
  · intro v j hj e he
    obtain rfl : j = 0 := by omega
    obtain rfl : e = 0 := by simpa using he
    decide +kernel
/-- A code of each class, in single precision. -/
theorem wit_classes : [0xFF800000, 0xBF800000, 0x80000001, 0x80000000, 0, 1, 0x3F800000, 0x7F800000, 0x7F800001, 0x7FC00000].map (fClass .f32) = [1, 2, 4, 8, 16, 32, 64, 128, 256, 512] := by decide +kernel
/-- Room for a token, a full token queue, a good and a bad target. -/
theorem wit_tokens : CanRun (.tokb (.w 2) (-1024)) [] ∧ CanRun (.tokj (.w 2)) [] ∧ (stA .anop []).core.slot.toks.length < 2 ∧
    2 ≤ (at0 { slot0 with toks := [⟨true, 0⟩, ⟨false, 0⟩] } []).core.slot.toks.length ∧ (8 : Word).toNat % 8 = 0 ∧ (12 : Word).toNat % 8 ≠ 0 :=
  ⟨⟨_, readyA_of rfl (by decide +kernel)⟩, ⟨_, readyA_of rfl (by decide +kernel)⟩, by decide, by decide, by decide, by decide⟩
/-- A word that reads an empty q1, one that reads an empty channel, one that writes a full q3, one whose row waits for a late write, operands at
the window limit; and its operands. -/
theorem wit_stalls : (let s := stA (.mv (.o 0) (.q 1)) []
     s.core.slot.backlog.head? = some (ent (.mv (.o 0) (.q 1))) ∧ aOps (.mv (.o 0) (.q 1)) = some ⟨some (.o 0), [.q 1], false, false⟩ ∧ queueOf s.core.slot 1 = [] ∧ s.core.late = [] ∧
       farD s.core.slot ⟨some (.o 0), [.q 1], false, false⟩ = false ∧ aWait s.core (.mv (.o 0) (.q 1)) ⟨some (.o 0), [.q 1], false, false⟩ ≠ 0) ∧
    (aOps (.mv (.o 0) (.c 1)) = some ⟨some (.o 0), [.c 1], false, false⟩ ∧ chanOf (stA (.mv (.o 0) (.c 1)) []).core 1 = []) ∧
    16 ≤ (queueOf { slot0 with queues := #v[[], [], [], List.replicate 16 (.full 0)] } 3).length ∧
    (aOps (.mv (.w 15) (.w 15)) = some ⟨some (.w 15), [.w 15], false, false⟩ ∧
      ({ Core.reset 0 with slot := slot0, late := [⟨2, .row 15, 1, none, ⟨0, 0, 0⟩, 0, 0, 0, false, false⟩] } : Core).pendingRow (slot0.wb + 15) = true) ∧
    (aOps (.mv (.w 16) (.w 16)) = some ⟨some (.w 16), [.w 16], false, false⟩ ∧ farD slot0 ⟨some (.w 16), [.w 16], false, false⟩ = false ∧
      aWait (stA (.mv (.w 16) (.w 16)) []).core (.mv (.w 16) (.w 16)) ⟨some (.w 16), [.w 16], false, false⟩ = 0 ∧ slot0.wl ≤ (16 : Fin 96).val) := by decide +kernel
theorem wit_streamed_limit : (at0 { slot0 with backlog := [ent (.mv (.w 15) (.c 0))], rep := 1 } []).core.slot.backlog.head? = some (ent (.mv (.w 15) (.c 0))) ∧
    aOps (.mv (.w 15) (.c 0)) = some ⟨some (.w 15), [.c 0], false, false⟩ ∧ slot0.wl ≤ 15 + 1 := by decide +kernel
/-- Control words that wait, with each code, or are barred, or name a row beyond the window: 32 bundles outstanding; an outstanding word that
writes w1; a late write to w1, and to the header row; an empty queue and a full one; `setbnd` without PRV; `mgang` in a harvest slot. -/
theorem wit_control_waits : (let late (n : Nat) : Core := { Core.reset 0 with slot := slot0, late := [⟨2, .row n, 1, none, ⟨0, 0, 0⟩, 0, 0, 0, false, false⟩] }
     let p : CSpec := { srcs := [.w 1] }
     (late 0).pendingRow 0 = true ∧ cWait (late 1) p = 100 ∧ pendingLoc (late 1) (.reg 1) = true ∧ (late 1).pendingRow 0 = false ∧ arithBusy slot0 (cFoot slot0 0 p) = false) ∧
    gateC { slot0 with winNext := some (16, 16) } = true ∧ 32 ≤ ({ slot0 with backlog := List.replicate 32 (ent .anop) } : Slot).backlog.length ∧
    (let c : Core := { Core.reset 0 with slot := { slot0 with backlog := [ent (.mv (.w 1) (.w 2))] } }
     .reg 1 ∈ (entFoot c.slot (ent (.mv (.w 1) (.w 2)))).wr ∧ .reg 1 ∈ locsOf c.slot [.w 1] ∧ cWait c { srcs := [.w 1] } = 5) ∧
    (queueOf slot0 2 = [] ∧ cWait (Core.reset 0) { srcs := [.q 2] } = 3 ∧
      16 ≤ (queueOf { slot0 with queues := #v[List.replicate 16 (.full 0), [], [], []] } 0).length) ∧
    (controlSpec (stC []) (.setbnd (.w 1)) = some { srcs := [.w 1], bar := some (mkTrap 0x11 0 0) } ∧ cWait (stC []).core { srcs := [.w 1], bar := some (mkTrap 0x11 0 0) } = 0) ∧
    (controlSpec (stC []) (.ldw (.w 1) (.w 16) 0 .rlx .core) = some { srcs := [.w 16], dst := some (.w 1), late := true } ∧
      cWait (stC []).core { srcs := [.w 16], dst := some (.w 1), late := true } = 0 ∧ slot0.wl ≤ (16 : Fin 96).val) := by decide +kernel
/-- What clashes with an outstanding arithmetic word (R11): a row that the control word writes and it reads; the header row, by a `loopi`, a write of
MODE, an end test; MODE, cx.fpm and cx.mstat, which it uses. A branch that transfers has no end test. -/
theorem wit_clashes : (let c (i : Instr) (rows : List (Nat × Row)) : Core := { Core.reset 0 with regs := rows, slot := { slot0 with pc := 8, backlog := [ent i] } }
     let loop8 : Nat × Row := (0, row [0, 0, 0, 0, 0, 0, 0, 0, 1, 16, 8])
     cWait (c (.mv (.w 1) (.w 2)) []) { dst := some (.w 2) } = 5 ∧ .reg 2 ∈ (entFoot (c (.mv (.w 1) (.w 2)) []).slot (ent (.mv (.w 1) (.w 2)))).rd ∧
     cWait (c (.mv (.w 1) (.w 0)) []) { hdrW := true } = 5 ∧ cWait (c (.mv (.w 1) (.w 0)) []) {} = 0 ∧
     (endTest (c (.mv (.w 1) (.w 0)) [loop8]).hdr 8).1 ≠ (c (.mv (.w 1) (.w 0)) [loop8]).hdr ∧ cWait (c (.mv (.w 1) (.w 0)) [loop8]) {} = 5 ∧
     cWait (c (.mv (.w 1) (.w 0)) [loop8]) { moves := true } = 0 ∧
     (entFoot slot0 (ent (.div (.w 1) (.w 2) (.w 3)))).mode = true ∧ cWait (c (.div (.w 1) (.w 2) (.w 3)) []) { srcs := [.w 5], modeW := true } = 5 ∧
     cWait (c (.div (.w 1) (.w 2) (.w 3)) []) { dst := some (.w 0) } = 5 ∧
     (entFoot slot0 (ent (.fadd (.w 1) (.w 2) (.w 3) .f32))).fpm = true ∧ cWait (c (.fadd (.w 1) (.w 2) (.w 3) .f32) []) { fpm := true } = 5 ∧
     (entFoot slot0 (ent (.vunpkt (.w 1) (.w 2) .i8))).mstat = true ∧ cWait (c (.vunpkt (.w 1) (.w 2) .i8) []) { mstat := true } = 5 ∧
     (ent (.mv (.w 1) (.w 2))).lone = false ∧ (ent (.mv (.w 1) (.w 2))).skip = false ∧ aOps (.mv (.w 1) (.w 2)) = some ⟨some (.w 1), [.w 2], false, false⟩) ∧
    streamed [Opnd.w 2] = false := by decide +kernel
theorem wit_arith_frame : (aOps .anop).isSome = true ∧ ∃ t, exec .anop (stA .anop []) = .next t := ⟨by decide, _, rfl⟩

theorem wit_no_effect : ReadyC {} (stC []) ∧ ReadyC { refetch := true } (stC []) ∧ ReadyC { dst := some (.w 15), latch := true } (stC []) ∧
    ReadyC { srcs := [.w 2], dst := some .lat, latch := true } (stC []) :=
  ⟨readyC_of (by decide +kernel), readyC_of (by decide +kernel), readyC_of (by decide +kernel), readyC_of (by decide +kernel)⟩
/-- A branch that is taken and one that is not, a target that is aligned and one that is not, a token and none. -/
theorem wit_branches : ReadyC { srcs := [.w 1], moves := takes (stC []) .eq0 (.w 1) } (stC []) ∧ takes (stC []) .eq0 (.w 1) = true ∧
    ReadyC { srcs := [.w 1], moves := takes (stC []) .ne0 (.w 1) } (stC []) ∧ takes (stC []) .ne0 (.w 1) = false ∧ argC0 (stC [(1, row [0x80000000])]) { srcs := [.w 1] } 0 = 0x80000000 ∧ ReadyC { dst := some (.w 1), moves := true } (stC []) ∧
    ReadyC { srcs := [.w 2], dst := some (.w 1), moves := true } (stC []) ∧ argC0 (stC [(2, row [12])]) { srcs := [.w 2], dst := some (.w 1) } 0 = 12 ∧ (stC []).core.slot.toks = [] ∧
    ReadyC { moves := jumps (stC []) } (stC []) ∧ ReadyC { moves := jumps (at0 { slot0 with toks := [⟨true, 64⟩] } []) } (at0 { slot0 with toks := [⟨true, 64⟩] } []) :=
  ⟨readyC_of (by decide +kernel), by decide +kernel, readyC_of (by decide +kernel), by decide +kernel, by decide +kernel, readyC_of (by decide +kernel), readyC_of (by decide +kernel), by decide +kernel, by decide, readyC_of (by decide +kernel), readyC_of (by decide +kernel)⟩
/-- An empty and a full loop stack, IT set, a count of 0 and of 1. -/
theorem wit_loops : ReadyC { srcs := [.w 1], hdrW := true } (stC []) ∧ ReadyC { hdrW := true } (stC []) ∧ loopDepth (stC []).core.hdr = 0 ∧
    loopDepth (stC [(0, row [0, 0, 0, 0, 0, 0, 0, 0, 0, 16, 24, 0, 16, 24])]).core.hdr = 2 ∧ modeIT (modeOf (stC [(0, row [0, 0x400000])]).core.hdr) = true ∧
    argC0 (stC [(1, row [1])]) { srcs := [.w 1], hdrW := true } 0 = 1 :=
  ⟨readyC_of (by decide +kernel), readyC_of (by decide +kernel), by decide +kernel, by decide +kernel, by decide +kernel, by decide +kernel⟩
/-- The end test's five cases. -/
theorem wit_end_test : modeIT (modeOf (row [0, 0x400000])) = true ∧ loopDepth 0 = 0 ∧ loopDepth (row [0, 0, 0, 0, 0, 0, 0, 0, 1, 16, 24]) = 1 ∧ lane (row [0, 0, 0, 0, 0, 0, 0, 0, 1, 16, 24]) 10 = 24 ∧
    lane (row [0, 0, 0, 0, 0, 0, 0, 0, 1, 16, 24]) 8 ≠ 0 ∧ loopDepth (row [0, 0, 0, 0, 0, 0, 0, 0, 1, 16, 24, 0, 16, 24]) = 2 ∧ lane (row [0, 0, 0, 0, 0, 0, 0, 0, 1, 16, 24, 0, 16, 24]) 11 = 0 := by decide +kernel
/-- A handler at 0x200 with IT clear; IT set; no handler; a late write to the header row; a waiting trap. -/
theorem wit_traps : (stC [(0, row [0x200])]).core.pendingRow 0 = false ∧ (stC []).core.slot.ctlIssued = false ∧ modeIT (modeOf (stC [(0, row [0x200])]).core.hdr) = false ∧
    lane (stC [(0, row [0x200])]).core.hdr 0 ≠ 0 ∧ modeIT (modeOf (stC [(0, row [0x200, 0x400000])]).core.hdr) = true ∧ lane (stC []).core.hdr 0 = 0 ∧
    ({ Core.reset 0 with slot := slot0, late := [⟨2, .row 0, 1, none, ⟨0, 0, 0⟩, 0, 0, 0, false, false⟩] } : Core).pendingRow 0 = true ∧
    (at0 { slot0 with trapWait := some (mkTrap 0x10 0 0) } []).core.slot.trapWait = some (mkTrap 0x10 0 0) := by decide +kernel
/-- What a trap at PC 0 set aside, its EPC-C as given. -/
def aside0 (epcC : Word) (g : GangSt) : Aside := ⟨[ent .anop], 0, 16, epcC, 0, none, false, false, false, g, none⟩
/-- A slot of the handler with EPC-C 8 and EPC-A 0, and what is set aside. -/
def stRet (d : Option Aside) (l14 : Word) : State :=
  at0 { slot0 with ctlIssued := true, aside := d } [(0, row [0x200, 0x400000, 8, 0, 0x0E, 0, 0, 0x56000000, 0, 0, 0, 0, 0, 0, l14])]
/-- `eret` with IT clear, and with IT set beside an idle arithmetic word; once its bundle has completed; while one is outstanding,
and while a late write to the header row is pending. -/
theorem wit_eret : (stC []).core.slot.ctlIssued = false ∧ cWait (stC []).core { moves := true } = 0 ∧ modeIT (modeOf (stC []).core.hdr) = false ∧ (stRet none 0).core.slot.backlog = [] ∧
    (stRet none 0).core.pendingRow 0 = false ∧ (at0 { slot0 with ctlIssued := true, backlog := [ent .anop] } []).core.slot.backlog ≠ [] ∧
    ({ (stRet none 0).core with late := [⟨2, .row 0, 1, none, ⟨0, 0, 0⟩, 0, 0, 0, false, false⟩] } : Core).pendingRow 0 = true ∧
    (let s := at0 { slot0 with fetched := [(0, row [0, 0, 0x0E000000, 0])] } [(0, row [0x200, 0x400000, 8, 0])]
     s.core.slot.ctlIssued = false ∧ cWait s.core { moves := true } = 0 ∧ modeIT (modeOf s.core.hdr) = true ∧ bundleAt s s.core.slot.pc = some (0x0E000000, 0) ∧ uF 0x0E000000 = false ∧ s.core.slot.backlog = []) ∧
    (let s := at0 { slot0 with fetched := [(0, row [0, 0, 0x0E000000, 0x46000000])] } [(0, row [0x200, 0x400000, 8, 0])]
     cWait s.core { moves := true } = 0 ∧ modeIT (modeOf s.core.hdr) = true ∧ bundleAt s s.core.slot.pc = some (0x0E000000, 0x46000000)) := by decide +kernel
/-- What is set aside as trap entry left it; with another EPC-C; a gang under way at EPC-C and none; a CPF trap's word; SKIP of each stream. -/
theorem wit_eret_cases :
    (let s := stRet (some (aside0 8 .posted)) 0; let d := aside0 8 .posted
     s.core.slot.aside = some d ∧ d.wb = s.core.slot.wb ∧ d.wl = s.core.slot.wl ∧ d.epcC = lane s.core.hdr 2 ∧ d.epcA = lane s.core.hdr 3 ∧ d.epcC = lane s.core.hdr 2 &&& ~~~7 ∧ d.gang ≠ .idle) ∧
    (let s := stRet (some (aside0 16 .idle)) 0; s.core.slot.aside = some (aside0 16 .idle) ∧ (aside0 16 .idle).epcC ≠ lane s.core.hdr 2) ∧
    ((aside0 8 .idle).gang = .idle ∧ (stRet none 0).core.slot.aside = none) ∧
    (let s := { stRet none 0 with core := { (stRet none 0).core with slot := { (stRet none 0).core.slot with fetched := [(0, row [0, 0, 0x56000000, 0])] } } }
     lane s.core.hdr 4 &&& 0x1FF = 0x0E ∧ (lane s.core.hdr 14).getLsbD 31 = false ∧ bundleAt s 8 = some (lane s.core.hdr 7, 0)) ∧
    (lane (stRet none 0x80000000).core.hdr 14).getLsbD 31 = true ∧ (lane (stRet none 0).core.hdr 4).getLsbD 8 = false := by decide +kernel
/-- Every control register is read; a privileged one with PRV and without. -/
theorem wit_control_registers : ReadyC { dst := some (.w 1), lanes := cregLanes .tagent, latch := true } (stC []) ∧ CReg.tagent ∈ [CReg.pb, .pl, .tagsel, .tagent] ∧ (stC []).core.slot.prv = false ∧
    (at0 { slot0 with prv := true } []).core.slot.prv = true ∧ ReadyC { srcs := [.w 1], modeW := true } (stC []) ∧ ReadyC { srcs := [.w 1] } (stC []) ∧ CReg.mode.writable = true ∧
    cWait (stC []).core { dst := some (.w 1), lanes := cregLanes .tagent, latch := true } = 0 :=
  ⟨readyC_of (by decide +kernel), by decide, rfl, rfl, readyC_of (by decide +kernel), readyC_of (by decide +kernel), rfl, by decide +kernel⟩
/-- A control word of a pair, and a lone one, at PC 8. -/
def stB (w0 : Word) (x : Slot) (rows : List (Nat × Row)) : State := at0 { x with fetched := [(0, row [0, 0, w0, 0])] } rows
/-- A window within the bound up to its end, and one a row beyond, from a row and from EXT; one in a harvest slot's lent
footprint and one outside it; a pair and a lone word; a backlog. -/
theorem wit_window : ReadyC { srcs := [.w 1] } (stC [(1, row [1952, 96])]) ∧ lane (argC (stC [(1, row [1952, 96])]) { srcs := [.w 1] } 0) 0 = 1952 ∧ FitsWindow (stC []).core 1952 96 ∧
    ¬ FitsWindow (stC []).core 1953 96 ∧ ¬ FitsWindow (stC []).core 0 0 ∧ ReadyC {} (stC []) ∧ (2047 : BitVec 11).toNat = 2047 ∧ FitsWindow (stC []).core 2047 1 ∧
    (let c : Core := { Core.reset 0 with slot := slot0, hvNow := true, lend := 0x84100801 }; FitsWindow c 32 16 ∧ ¬ FitsWindow c 31 16) ∧
    (bundleAt (stB 0x02000000 slot0 []) 8 = some (0x02000000, 0) ∧ uF 0x02000000 = false) ∧ (bundleAt (stB 0x82000000 slot0 []) 8 = some (0x82000000, 0) ∧ uF 0x82000000 = true) ∧
    (let s := at0 { slot0 with backlog := [ent .anop], winNext := some (32, 16) } []
     s.core.slot.backlog = [ent .anop] ∧ s.core.slot.winNext = some (32, 16) ∧ okA .anop s (ent .anop) ⟨none, [], false, false⟩ = true ∧ aOps .anop = some ⟨none, [], false, false⟩ ∧
       (after (exec .anop s) (fun t => t.core.slot.wb)) = some 32) ∧
    (stC []).core.slot.backlog = [] ∧ (at0 { slot0 with backlog := [ent .anop] } []).core.slot.backlog ≠ [] ∧ ReadyC { dst := some (.w 1), lanes := 2 } (stC []) :=
  ⟨readyC_of (by decide +kernel), by decide +kernel, by unfold FitsWindow; decide, by unfold FitsWindow; decide, by unfold FitsWindow; decide, readyC_of (by decide +kernel), by decide, by unfold FitsWindow; decide,
    by unfold FitsWindow; decide +kernel, by decide +kernel, by decide +kernel, by decide +kernel, by decide, by decide, readyC_of (by decide +kernel)⟩
/-- `setbnd` with PRV: a bound that ends with the window, one of a row less, the table's entry 255; a late write pending; without PRV. -/
def stBd (r : List Word) : State := at0 { slot0 with prv := true } [(1, row r)]
theorem wit_bound : ReadyC { srcs := [.w 1] } (stBd [0, 16, 0]) ∧ (stBd [0, 16, 0]).core.slot.prv = true ∧ (stBd [0, 16, 0]).core.late = [] ∧
    (let r := argC (stBd [0, 16, 0]) { srcs := [.w 1] } 0; (lane r 0).toNat = 0 ∧ (lane r 1).toNat = 16 ∧ (lane r 2).getLsbD 31 = false ∧ (lane r 2).toNat / 256 % 2 ^ 23 = 0) ∧
    (stBd []).core.slot.wb + (stBd []).core.slot.wl = 16 ∧ (lane (argC (stBd [0, 15, 0]) { srcs := [.w 1] } 0) 1).toNat = 15 ∧
    (let r := argC (stBd [2047, 1, 0x800000FF]) { srcs := [.w 1] } 0; (lane r 0).toNat + (lane r 1).toNat = 2048 ∧ (lane r 2).getLsbD 31 = true ∧ (lane r 2).toNat / 256 % 2 ^ 23 = 0 ∧ (lane r 2).toNat % 256 = 255) ∧
    ({ (stBd []).core with late := [⟨2, .row 15, 1, none, ⟨0, 0, 0⟩, 0, 0, 0, false, false⟩] } : Core).late ≠ [] ∧ (stC []).core.slot.prv = false ∧ cWait (stBd []).core { srcs := [.w 16] } = 0 ∧ (stBd []).core.slot.wl ≤ (16 : Fin 96).val :=
  ⟨readyC_of (by decide +kernel), by decide, by decide, by decide +kernel, by decide, by decide +kernel, by decide +kernel, by decide, by decide, by decide +kernel, by decide⟩


/-! ### States that meet the hypotheses: memory, messages, the matrix array, engines -/

theorem ok_of {ε α : Type} {x : Except ε α} (h : x.toBool = true) : ∃ u, x = .ok u := by
  cases x with
  | ok u => exact ⟨u, rfl⟩
  | error e => cases h
/-- A plan that goes on, with the spots it leads to. -/
def planned (s : State) (k : AKind) (ea n : Nat) : Option (List Spot) :=
  match planAccess s (who s) k ea n with
  | .ok p m q => some (spotsOf p m n q)
  | _ => none
theorem plan_of {s : State} {k : AKind} {ea n : Nat} {l : List Spot} (h : planned s k ea n = some l) : ∃ p m q, planAccess s (who s) k ea n = .ok p m q ∧ l = spotsOf p m n q := by
  unfold planned at h
  split at h
  · rename_i p m q e; exact ⟨p, m, q, e, (Option.some.inj h).symm⟩
  · cases h
/-- An access that arrives at its look-up. -/
def arrives (s : State) (n ea : Nat) : Bool :=
  !acqHeld s && !touchesStore s ea n && decide (ea % n = 0)
theorem arrives_of {s : State} {k : AKind} {ord : Ord} {n ea : Nat} (g : arrives s n ea = true) : Arrives s k ord n ea := by
  simp only [arrives, Bool.and_eq_true, decide_eq_true_eq, Bool.not_eq_true'] at g
  exact ⟨g.1.1, fun _ t => (by rw [g.1.2] at t; cases t), .inl g.2⟩
theorem passes_of {s : State} {k : AKind} {ord : Ord} {n ea : Nat} {l : List Spot} (h : planned s k ea n = some l) (g : arrives s n ea = true) : Passes s k ord n ea l :=
  { toArrives := arrives_of g, plan := plan_of h }
theorem reaches_of {s : State} {k : AKind} {ord : Ord} {scp : Scp} {n ea : Nat} {l : List Spot} (h : planned s k ea n = some l)
    (g : (arrives s n ea && !mustHold (reached s k n ea) k ord scp l) = true) : Reaches s k ord scp n ea l := by
  simp only [Bool.and_eq_true, Bool.not_eq_true'] at g
  exact { toPasses := passes_of h g.1, now := g.2 }

/-- An address row in w2: base in lanes 0 and 1; an index in w3. -/
def stM (lo hi ix : Word) : State := stC [(0, row [0x200]), (2, row [lo, hi]), (3, row [ix])]
theorem wit_load : ReadyC { srcs := [.w 2], dst := some (.q 0), late := true } (stM 0x100 0 0) ∧ Reaches (stM 0x100 0 0) .load .acq .core 4 0x100 [⟨localKey 0 0x100, none, 4⟩] :=
  ⟨readyC_of (by decide +kernel), reaches_of (by decide +kernel) (by decide +kernel)⟩
/-- The same with an earlier access of the core to that place held. -/
def heldBy (k : Nat) (s : State) : State :=
  { s with held := [{ core := 0, lateAt := 0, spots := [⟨k, none, 4⟩], store := some [1, 2, 3, 4], rmw := none, cas := none, acq := false, rel := false, sc := false, scp := .core, imgs := [], at_ := 0, lateId := 9, kern := ⟨4096, 0, 0⟩,
                      ctxid := 0, proc := 0, hv := false }] }
theorem wit_held_access : (let s := heldBy (localKey 0 0x100) (stM 0x100 0 0)
     ReadyC { srcs := [.w 2], dst := some (.q 0), late := true } s ∧ Passes s .load .acq 4 0x100 [⟨localKey 0 0x100, none, 4⟩] ∧
     mustHold (reached s .load 4 0x100) .load .acq .core [⟨localKey 0 0x100, none, 4⟩] = true ∧
     ReadyC { srcs := [.w 3, .w 2] } s ∧ Passes s .store .rel 4 0x100 [⟨localKey 0 0x100, none, 4⟩] ∧ mustHold (reached s .store 4 0x100) .store .rel .core [⟨localKey 0 0x100, none, 4⟩] = true) :=
  ⟨readyC_of (by decide +kernel), passes_of (by decide +kernel) (by decide +kernel), by decide +kernel, readyC_of (by decide +kernel), passes_of (by decide +kernel) (by decide +kernel), by decide +kernel⟩
/-- The look-up of an address that no table maps, with the walk still to come and with its fault reported. -/
def stMiss (bad : List (Nat × Nat × Nat)) : State := { stM 0x2000000 0 0 with core := { (stM 0x2000000 0 0).core with slot := { slot0 with xl := { Xlat.none with bad := bad } } } }
theorem wit_lookup : Arrives (stMiss []) .load .rlx 4 0x2000000 ∧ Arrives (stMiss []) .store .rlx 4 0x2000000 ∧ (∀ k ∈ [AKind.load, .store], planAccess (stMiss []) (who (stMiss [])) k 0x2000000 4 = .miss 0x2000 ∧
    (match planAccess (stMiss [(0, 0x2000, infoUNMAP)]) (who (stMiss [])) k 0x2000000 4 with | .trap 3 _ a => a == 0x2000000 | _ => false) = true) ∧ ReadyC { srcs := [.w 2], dst := some (.w 1), late := true } (stMiss []) ∧
    ReadyC { srcs := [.w 3, .w 2] } (stMiss []) :=
  ⟨arrives_of (by decide +kernel), arrives_of (by decide +kernel), by decide +kernel, readyC_of (by decide +kernel), readyC_of (by decide +kernel)⟩
/-- A page of host memory, on a memory core, asked for and refused; a page of another cluster's memory, under that cluster's lock. -/
def leafAt (w : Word) (e : DWord) (bad : List (Nat × Nat × Nat)) : State :=
  { State.reset with core := { Core.reset w with slot := { slot0 with xl := { Xlat.none with ents := [tlbEntry 0 0x2000000 e], ebad := bad } }, regs := [(0, row [0x200]), (2, row [0x2000000]), (3, row [7])] } }
theorem wit_host_page : Arrives (leafAt 0x80000000 0x261 []) .load .rlx 4 0x2000000 ∧ ReadyC { srcs := [.w 2], dst := some (.w 1), late := true } (leafAt 0x80000000 0x261 []) ∧
    (match planAccess (leafAt 0x80000000 0x261 []) (who (leafAt 0x80000000 0x261 [])) .load 0x2000000 4 with
     | .ext r a => a == 0x2000000 && !refused (leafAt 0x80000000 0x261 []).core.slot.xl r && refused (leafAt 0x80000000 0x261 [(r.pasid, r.page, 6)]).core.slot.xl r
     | _ => false) = true := ⟨arrives_of (by decide +kernel), readyC_of (by decide +kernel), by decide +kernel⟩
theorem wit_locked : (let s : State := { leafAt 0 0x1000000061 [] with clusters := [{ Cluster.reset 1 with rlt := [⟨0, [(0x40000000, 0x40000000)], true, true, 0⟩] }] }
     Passes s .load .rlx 4 0x2000000 [⟨0x1000000000, none, 4⟩] ∧ lockedThere (reached s .load 4 0x2000000) .load [⟨0x1000000000, none, 4⟩] = true ∧
     ReadyC { srcs := [.w 2], dst := some (.w 1), late := true } s ∧ ReadyC { srcs := [.w 3, .w 2] } s ∧ Passes s .store .rlx 4 0x2000000 [⟨0x1000000000, none, 4⟩] ∧
     lockedThere (reached s .store 4 0x2000000) .store [⟨0x1000000000, none, 4⟩] = true) :=
  ⟨passes_of (by decide +kernel) (by decide +kernel), by decide +kernel, readyC_of (by decide +kernel), readyC_of (by decide +kernel), passes_of (by decide +kernel) (by decide +kernel), by decide +kernel⟩
/-- The last 64 bytes of the local memory. -/
theorem wit_store : ReadyC { srcs := [.w 3, .w 2] } (stM 0x100 0 0) ∧ Reaches (stM 0x5FFC0 0 0) .store .rel .core 64 0x5FFC0 [⟨localKey 0 0x5FFC0, none, 64⟩] ∧ Machine.Inv (stM 0 0 0) ∧
    localKey 0 0x5FFC0 < 4503599627370496 := ⟨readyC_of (by decide +kernel), reaches_of (by decide +kernel) (by decide +kernel), by unfold Machine.Inv; decide, by decide +kernel⟩
theorem wit_alignment : acqHeld (stM 0x101 0 0) = false ∧ ReadyC { srcs := [.w 2], dst := some (.w 1), late := true } (stM 0x101 0 0) ∧ 0x101 % 4 ≠ 0 ∧ Ord.acq ≠ .rlx ∧
    modeAL (modeOf (stC [(0, row [0x200, 0x200000])]).core.hdr) = true ∧ touchesStore (stM 0x101 0 0) 0x101 4 = false := by
  refine ⟨by decide +kernel, readyC_of (by decide +kernel), by decide, by decide, by decide +kernel, by decide +kernel⟩
/-- A base of 53 bits; an index that leads below 0, one to 2^52, one to the local memory. -/
theorem wit_indexed : ReadyC { srcs := [.w 2, .w 3], dst := some (.w 1), late := true } (stM 0x100 0 (-1)) ∧ 2 ^ 20 ≤ (0x100000 : Word).toNat ∧
    ((0 : Int) + (-1 : Word).toInt * 4 < 0) ∧ (2 ^ 52 ≤ ((0xFFFFFFFC : Word).toNat : Int) + 2 ^ 32 * (0xFFFFF : Word).toNat + (1 : Word).toInt * 4) ∧
    Reaches (stM 0x100 0 4) .load .rlx .core 4 0x110 [⟨localKey 0 0x110, none, 4⟩] ∧ ReadyC { srcs := [.w 1, .w 2, .w 3] } (stM 0x100 0 4) ∧
    Reaches (stM 0x100 0 4) .store .rlx .core 4 0x110 [⟨localKey 0 0x110, none, 4⟩] ∧
    (MustAlign (stM 0x101 0 0) .rlx 64 ∧ 0x101 % 64 ≠ 0 ∧ acqHeld (stM 0x101 0 0) = false ∧ (0x1C00000 < 0x1C00000 + 4 ∧ 0x1C00000 < 0x1C40000) ∧ (stM 0x1C00000 0 0).core.slot.prv = false) ∧
    (let s := heldBy (localKey 0 0x110) (stM 0x100 0 4)
     Passes s .load .rlx 4 0x110 [⟨localKey 0 0x110, none, 4⟩] ∧ mustHold (reached s .load 4 0x110) .load .rlx .core [⟨localKey 0 0x110, none, 4⟩] = true) :=
  ⟨readyC_of (by decide +kernel), by decide, by decide, by decide, reaches_of (by decide +kernel) (by decide +kernel), readyC_of (by decide +kernel), reaches_of (by decide +kernel) (by decide +kernel),
    ⟨.inl rfl, by decide, by decide +kernel, by decide, rfl⟩, passes_of (by decide +kernel) (by decide +kernel), by decide +kernel⟩
theorem wit_atomic : (0xFFFFFFFF < 2 ^ 32 ∧ 0 < 2 ^ 32) ∧ ReadyC { srcs := [.w 2, .w 3], dst := some (.w 1), late := true } (stM 0x108 0 1) ∧
    Reaches (stM 0x108 0 1) .rmw .sc .core 8 0x108 [⟨localKey 0 0x108, none, 8⟩] ∧ spotKey [⟨localKey 0 0x108, none, 8⟩] < 2 ^ 53 ∧
    (acqHeld (stM 0x10C 0 1) = false ∧ 0x10C % 8 ≠ 0) ∧
    (let s := heldBy (localKey 0 0x108) (stM 0x108 0 1)
     Passes s .rmw .sc 8 0x108 [⟨localKey 0 0x108, none, 8⟩] ∧ mustHold (reached s .rmw 8 0x108) .rmw .sc .core [⟨localKey 0 0x108, none, 8⟩] = true) :=
  ⟨by decide, readyC_of (by decide +kernel), reaches_of (by decide +kernel) (by decide +kernel), by decide +kernel, by decide +kernel, passes_of (by decide +kernel) (by decide +kernel), by decide +kernel⟩

/-- A valid, enabled tag: entry PC 0x100, a window of 16 rows, class normal; the same with KEEP; disabled. -/
def tagE : BitVec 128 := 0x9110000000000100
def tagK : BitVec 128 := 0x9910000000000100
def tagOff : BitVec 128 := 0x8110000000000100
/-- A header word of that class for tag 5 with one payload row. -/
def hdr5 : Word := 0x41480000
def k0 : KRef := ⟨4096, 0, 0⟩
def msg5 : Msg := { hdr := hdr5, rows := [row [7]], dest := [0x2000], srcw := 0, kind := 2, addr := 0, i0 := 0, i1 := 0, i2 := 0, stab := 0, dent := 0, hvSrc := false, kern := k0, ctxid := 0,
                    stamp := 0, img := none }
def ni5 (i : Nat) (st : NiSt) : NiSlot := { idx := i, msg := msg5, cls := 1, st := st, keep := none }
/-- Core 1 of cluster 0 (its word is 0x2000) with a tag 5, and n of its message slots taken. -/
def core1 (e : BitVec 128) (n : Nat) : Core := { Core.reset 0x2000 with tags := [(5, e)], ni := (List.range n).map (fun i => ni5 i .ready) }
/-- Core 0 about to send row w2 = header, destination 1, and row w3 as payload. -/
def stS (n : Nat) (h d : Word) : State := { stC [(0, row [0x200]), (2, row [h, d]), (3, row [7])] with peers := [core1 tagE n] }

theorem wit_send_forms : (Instr.send (.w 2) (.w 3), [(0x2000 : Word)], 2, 0, true, 2, 1) ∈ sendForms (.w 2) (.w 3) (stS 0 hdr5 0x2000) (row [hdr5, 0x2000]) ∧ ReadyC { srcs := [.w 2] } (stS 0 hdr5 0x2000) ∧ hdrBad hdr5 = false ∧
    hdrBad 0x41480001 = true ∧ destOk (stS 0 hdr5 0x2000) 0x2001 = false ∧ payloadOk slot0 (.w 15) 1 = true ∧ payloadOk slot0 (.w 15) 2 = false ∧ payloadWait (stS 0 hdr5 0x2000).core (.w 3) 1 0 = 0 ∧
    (stS 0 hdr5 0x2000).core.slot.pend = [] ∧ (stS 0 hdr5 0x2000).core.slot.sendWait = none ∧ pkgOf 0x2000 = ownPkg (stS 0 hdr5 0x2000) :=
  ⟨by decide +kernel, readyC_of (by decide +kernel), by decide +kernel, by decide +kernel, by decide +kernel, by decide, by decide, by decide +kernel, by decide, by decide, by decide +kernel⟩
/-- The message is accepted, and refused by a core whose sixteen slots are taken. -/
theorem wit_send_answers : (∃ u, deliverAll msg5 [0x2000] (stS 15 hdr5 0x2000) = .ok u) ∧ (match deliverAll msg5 [0x2000] (stS 16 hdr5 0x2000) with | .error w => w == 0x2000 | _ => false) = true ∧
    (∃ u, (at0 { slot0 with sendWait := some ⟨msg5, some (.refused 0x2000)⟩ } []).core.slot.sendWait = some ⟨u, some (.refused 0x2000)⟩) ∧
    (at0 { slot0 with sendWait := some ⟨msg5, some .accepted⟩ } []).core.slot.sendWait = some ⟨msg5, some .accepted⟩ ∧ releaseWaits (stS 0 hdr5 0x2000) .pod = false ∧
    releaseWaits { stS 0 hdr5 0x2000 with core := { (stS 0 hdr5 0x2000).core with slot := { slot0 with pend := [⟨0, .core, 0, k0, 0⟩] } } } .core = true :=
  ⟨ok_of (by decide +kernel), by decide +kernel, ⟨_, rfl⟩, rfl, by decide +kernel, by decide +kernel⟩
/-- A handler on message slot 2, at its `rls`; at its `done`; a tag of its own, one of another process. -/
def stH (e : BitVec 128) : State :=
  { at0 { slot0 with msgSlot := some 2, msgLive := true, tag := 5, ctlIssued := true } [(0, row [0x200])] with
    core := { Core.reset 0 with tags := [(5, e)], ni := [ni5 2 .running], slot := { slot0 with msgSlot := some 2, msgLive := true, tag := 5, ctlIssued := true } } }
theorem wit_handler_end : ReadyC {} (stH tagE) ∧ (stH tagE).core.slot.backlog = [] ∧ (stH tagE).core.slot.msgSlot = some 2 ∧ (getCl (stH tagE) (clIdx (stH tagE).core.id)).spill = [] ∧
    (faultedJob (stH tagE)).isNone = true ∧ queuesPending (stH tagE).core.slot = false ∧ queuesPending { slot0 with queues := #v[[.rsv 2], [], [], []] } = true ∧
    (look 0 (stH tagK).core.tags 5).getLsbD 59 = true ∧ (look 0 (stH tagE).core.tags 5).getLsbD 59 = false ∧ (stC []).core.slot.msgLive = false ∧ (stH tagE).core.slot.ctlIssued = true :=
  ⟨readyC_of (by decide +kernel), by decide, by decide, by decide +kernel, by decide +kernel, by decide, by decide, by decide +kernel, by decide +kernel, by decide, by decide⟩
/-- `done` beside an idle arithmetic word with nothing outstanding; beside another. -/
theorem wit_done_at_once : (let s := at0 { slot0 with fetched := [(0, row [0, 0, 0x56000000, 0])] } []
     s.core.slot.ctlIssued = false ∧ cWait s.core { moves := true } = 0 ∧ bundleAt s s.core.slot.pc = some (0x56000000, 0) ∧ uF 0x56000000 = false ∧ s.core.slot.backlog = [] ∧ (faultedJob s).isNone = true ∧
     queuesPending s.core.slot = false) ∧
    bundleAt (at0 { slot0 with fetched := [(0, row [0, 0, 0x56000000, 0x46000000])] } []) 8 = some (0x56000000, 0x46000000) := by decide +kernel
theorem wit_tagset : (look 0 (stH tagE).core.tags 5).getLsbD 63 = true ∧ ((look 0 (stH tagE).core.tags 5).extractLsb' 88 8).toNat = (stH tagE).core.slot.proc ∧
    (look 0 (stH tagE).core.tags 6).getLsbD 63 = false ∧ ((look 0 (stH (tagE ||| 0x10000000000000000000000)).core.tags 5).extractLsb' 88 8).toNat ≠ (stH tagE).core.slot.proc := by decide +kernel
/-- A good arming of DCT entry 0 of cluster 0 for core 1, a decrement, and group 3 with the core itself in it. -/
def stG : State :=
  { stC [(0, row [0x200]), (2, row [0, 4, hdr5, 0x2000]), (3, row [7])] with
    core := { Core.reset 0 with slot := slot0, regs := [(0, row [0x200]), (2, row [0, 4, hdr5, 0x2000]), (3, row [7])], grp := #v[0x80000003, 0, 0, 0] },
    parts := [{ Part.full with groups := [(3, [0, 0x2000])] }] }
theorem wit_groups : ReadyC { srcs := [.w 2] } stG ∧ hdrBad hdr5 = false ∧ destOk stG 0x2000 = true ∧ payloadOk stG.core.slot (.w 3) 1 = true ∧ dctBad stG 0 = false ∧ dctBad stG 1023 = false ∧ dctBad stG 0x40000000 = true ∧
    (getCl stG 0).dct.any (fun q => q.1 == 0) = false ∧ payloadWait stG.core (.w 3) 1 0 = 0 ∧ ReadyC {} stG ∧ stG.core.hvNow = false ∧ groupOf stG 3 ≠ [] ∧ (stG.core.grp[0]).getLsbD 31 = true ∧
    (stG.core.grp[3]).getLsbD 31 = false ∧ stG.core.barArr.find? (fun e => e.1 == 3) = none ∧ releaseWaits stG .pod = false ∧ releaseWaits stG (narrowest stG.core.id (barMembers stG (barOf stG (partNow stG) 3))) = false :=
  ⟨readyC_of (by decide +kernel), by decide +kernel, by decide +kernel, by decide, by decide +kernel, by decide +kernel, by decide +kernel, by decide +kernel, by decide +kernel, readyC_of (by decide +kernel),
    by decide, by decide +kernel, by decide, by decide, by decide, by decide +kernel, by decide +kernel⟩
/-- A barrier that the core has arrived at, in its phase and in the next. -/
theorem wit_barrier : (let s := { stG with core := { stG.core with barArr := [(3, 0)] } }; s.core.barArr.find? (fun e => e.1 == 3) = some (3, 0) ∧ (barOf s (partNow s) 3).phase ≤ 0) ∧
    0 < (barOf { stG with bars := [⟨0, 3, 1, []⟩] } 0 3).phase := by decide +kernel
def mem0 (c : Nat) : Member := { core := c, a := 0, b := 64, scales := none, codes := Vector.replicate 16 0, rlt := [], kern := k0, ctxid := 0, proc := 0 }
def gang0 : GangWord := ⟨1, 3, false, .i8, .pt, 0⟩
/-- A matrix word that may issue, in a harvest slot and in a pair. -/
theorem wit_matrix_barred : (let s : State := { State.reset with core := { Core.reset 0 with slot := slot0, hvNow := true } }
     (controlSpec s (.accz .pt 0 15)).any (fun p => cWait s.core p == 0) = true ∧ s.core.hvNow = true) ∧
    (let s := at0 { slot0 with paired := true } []
     (controlSpec s (.mcode (.w 2))).any (fun p => cWait s.core p == 0) = true ∧ s.core.hvNow = false ∧ s.core.slot.paired = true) ∧
    (gangCheck (stM 64 0 128) gang0 64 128 = none ∧ rltReadLocked (stM 64 0 128) (gangRegs (stM 64 0 128) gang0 64 128) = false ∧ rltRoom (stM 64 0 128) (gangRegs (stM 64 0 128) gang0 64 128) = true ∧
      acqHeld (stM 64 0 128) = false ∧ storeHeld (stM 64 0 128) (gangReads (stM 64 0 128).core gang0 64 128) = false) ∧
    2 ≤ startedOps { Cluster.reset 0 with ops := [⟨gang0, [mem0 0], 0, 6⟩, ⟨gang0, [mem0 0], 0, 6⟩] } 0 := by decide +kernel
theorem wit_matrix : Instr.accz .pt 0 15 ∈ [Instr.mgang (.w 2) (.w 3) gang0, .mcode (.w 2), .accz .pt 0 15, .accrd .f32 (.w 2) (.w 3)] ∧ (stM 64 0 128).core.hvNow = false ∧ (stM 64 0 128).core.slot.paired = false ∧
    ReadyC { srcs := [.w 2] } (stM 64 0 128) ∧ ReadyC {} (stM 64 0 128) ∧ tilesBusy (stM 64 0 128) 0 15 = false ∧
    ReadyC { srcs := [.w 3], dst := some (.w 2), late := true, lanes := 16, fpm := true, mstat := true } (stM 64 0 128) ∧ tileFed (stM 64 0 128) 0 = false ∧ (1 : BitVec 16).getLsbD 0 = true ∧
    ReadyC { srcs := [.w 2, .w 3] } (stM 64 0 128) ∧ gang0.mask.getLsbD (coreOf (stM 64 0 128).core.id) = true ∧ (⟨1, 2, false, .i8, .pt, 0⟩ : GangWord).mask.getLsbD 0 = false ∧
    (∀ c, c < 8 → gang0.mask.getLsbD c = true → coreHere (stM 64 0 128) (coreWord (ownPkg (stM 64 0 128)) 0 c) = true) ∧ startedOps (getCl (stM 64 0 128) 0) 0 < 2 ∧ (getCl (stM 64 0 128) 0).posts = [] :=
  ⟨by decide, by decide, by decide, readyC_of (by decide +kernel), readyC_of (by decide +kernel), by decide +kernel, readyC_of (by decide +kernel), by decide +kernel, by decide, readyC_of (by decide +kernel),
    by decide +kernel, by decide, by decide +kernel, by decide +kernel, by decide +kernel⟩
/-- `mgang` at an operand beyond the memory, at scales beyond it with a fresh tile; registered, with no post in its cluster, with a post of core 1 of another
EXT, and with two operations under way; a named core that is absent. -/
def postOf1 : Post := { core := 1, ext := ⟨1, 3, false, .i8, .pt, 1⟩, a := 0, b := 64, at_ := 0, kern := k0, ctxid := 0, proc := 0, rlt := [] }
theorem wit_matrix_posts : (0x60000 % 64 = 0 ∧ gangCheck (stM 0x60000 0 128) gang0 0x60000 128 ≠ none) ∧
    (let s := stM 64 0 128; let f := { s with core := { s.core with fresh := 0xFFFF, scla := 0x60000 } }
     (∃ j ∈ gang0.cores, f.core.fresh.getLsbD (gang0.base.toNat + j) = true) ∧ f.core.scla.toNat / 128 * 128 = 0x60000 ∧ gangCheck f gang0 64 128 ≠ none) ∧
    ((stM 64 0 128).modS (fun z => { z with gang := .regd [] })).core.slot.gang = .regd [] ∧ (stM 64 0 128).core.slot.gang = .idle ∧
    (∃ q ∈ ({ Cluster.reset 0 with posts := [postOf1] } : Cluster).posts, gang0.mask.getLsbD q.core = true ∧ q.ext ≠ gang0) ∧
    2 ≤ startedOps { Cluster.reset 0 with ops := [⟨gang0, [mem0 0], 0, 6⟩, ⟨gang0, [mem0 0], 0, 6⟩] } 0 ∧
    (let s := { stM 64 0 128 with parts := [] }; coreHere s (coreWord (ownPkg s) (clIdx s.core.id) 1) = false) := by decide +kernel
/-- A pattern of two beats of local memory to channel 3 of core 0; a descriptor without one; a BASE off by 4. -/
def stP (base n : Word) : State := stC [(0, row [0x200]), (2, row [base, 0, 0, 3, n, 1, 64])]
theorem wit_stream : ReadyC { srcs := [.w 2] } (stP 0x100 0x10002) ∧ coreHere (stP 0x100 0x10002) 0 = true ∧ (2 : Word).toNat % 65536 ≠ 0 ∧ (0x20002 : Word).toNat / 65536 ≠ 0 ∧ (2 : Word).toNat / 65536 = 0 ∧
    0x104 % 64 ≠ 0 ∧ oneRegion (stP 0x100 0x10002) (who (stP 0x100 0x10002)) 0x100 (0x100 + 127) = true ∧ (rangeBad (stP 0x100 0x10002) (who (stP 0x100 0x10002)) .load 2 0x100 128).isNone = true ∧
    (match resolve (stP 0x100 0x10002) (who (stP 0x100 0x10002)) .load 0x100 with | .ok p => p.key == localKey 0 0x100 | _ => false) = true ∧
    streamWait (stP 0x100 0x10002) (who (stP 0x100 0x10002)) 0x100 = none ∧ storeHeld (stP 0x100 0x10002) [(localKey 0 0x100, 128)] = false ∧
    (match resolve (stMiss []) (who (stMiss [])) .load 0x2000000 with | .miss 0x2000 => true | _ => false) = true ∧ acqHeld (stP 0x100 0x10002) = false ∧
    (stP 0x100 0x10002).core.strms.length < 4 ∧ rltReadLocked (stP 0x100 0x10002) (regsOf (stP 0x100 0x10002) [(localKey 0 0x100, 128)] false true) = false ∧
    rltRoom (stP 0x100 0x10002) (regsOf (stP 0x100 0x10002) [(localKey 0 0x100, 128)] false true) = true :=
  ⟨readyC_of (by decide +kernel), by decide +kernel, by decide, by decide, by decide, by decide, by decide +kernel, by decide +kernel, by decide +kernel, by decide +kernel, by decide +kernel, by decide +kernel, by decide +kernel, by decide, by decide +kernel, by decide +kernel⟩
/-- A copy of 64 bytes; one with a reserved bit; with a misaligned source; of nothing. -/
def stCp (src len e : Word) : State := stC [(0, row [0x200]), (2, row [src, 0, 0x200, 0, len, 0, 0, 0, 0, 0, 0, e])]
theorem wit_copy : ReadyC { srcs := [.w 2], dst := some (.w 3) } (stCp 0x100 64 0) ∧
    (let s := stCp 0x100 64 0; let r := argC s { srcs := [.w 2], dst := some (.w 3) } 0; let j := cpyJob s .copy r (jobFree (getCl s 0).jobs)
     cpyBad s .copy r j = none ∧ j.src % cpyAlign .copy = 0 ∧ j.dst % cpyAlign .copy = 0 ∧ j.len ≠ 0 ∧ acqHeld s = false ∧ (getCl s 0).jobs.length < jobCap (getCl s 0).id ∧ cpyMiss s .copy j = none ∧ storeHeld s (cpySrcPieces s .copy j) = false ∧ rltRoom s (cpyRegs s .copy j) = true) ∧
    (let s := stCp 0x100 64 1; let r := argC s { srcs := [.w 2], dst := some (.w 3) } 0; cpyBad s .copy r (cpyJob s .copy r 0) = some 11) ∧
    (let s := stCp 0x101 64 0; (cpyJob s .redi32 (argC s { srcs := [.w 2], dst := some (.w 3) } 0) 0).src % cpyAlign .redi32 ≠ 0) ∧ (chainNow (stCp 0 0 0)).opened = 1 ∧
    ReadyC { dst := some (.w 3) } (stCp 0 0 0) ∧ (∀ u ∈ (stCp 0 0 0).clusters, ∀ j ∈ u.jobs, mine (stCp 0 0 0) j = false) :=
  ⟨readyC_of (by decide +kernel), by decide +kernel, by decide +kernel, by decide +kernel, by decide +kernel, readyC_of (by decide +kernel), by decide⟩
/-- A batch with a job running, with one FAULTED, executed again after its trap; one that a revocation has emptied. -/
def stWt (st : Option JSt) (retry : Bool) : State :=
  { stCp 0 0 0 with core := { (stCp 0 0 0).core with slot := { slot0 with retry := retry } },
                    clusters := [{ Cluster.reset 0 with jobs := match st with
                      | some st => [{ blankJob (stCp 0 0 0) (.cpy .copy) 0 with st := st, src := 0x100, dst := 0x200, len := 64, batch := 7 }]
                      | none => [] }] }
theorem wit_wait_cases : (chainNow (stWt none false)).opened ≠ 7 ∧ (∃ i ∈ allJobs (stWt (some .running) false), mine (stWt (some .running) false) i = true ∧ i.batch = 7 ∧ settled (stWt (some .running) false) i = false) ∧
    (∀ i ∈ allJobs (stWt (some (.faulted 2 9)) false), settled (stWt (some (.faulted 2 9)) false) i = true ∧ i.isFaulted = true) ∧
    (lowestSlot (allJobs (stWt (some (.faulted 2 9)) false))).any (fun j => j.st == .faulted 2 9) = true ∧
    (let s := stWt (some (.faulted 2 9)) true
     let again := modJobs (s.modS (fun x => { x with retry := false })) (fun j => mine s j && j.isFaulted) (fun j => { j with st := .queued })
     s.core.slot.retry = true ∧ (∃ i ∈ allJobs again, mine again i = true ∧ i.isFaulted = false ∧ settled again i = false ∧ blocked again (mine again) 64 i = false)) ∧
    (let s := (stWt none false).modS (fun x => setChain x { chainNow (stWt none false) with revoked := [7] }); 7 ∈ (chainNow s).revoked) ∧
    ReadyC { srcs := [.w 2], dst := some (.w 3) } (stWt none true) ∧ (allJobs (stWt none true)).filter (mine (stWt none true)) = [] ∧ enginesBusy (stWt (some (.faulted 2 9)) false) = false ∧
    loadsPending (stWt (some (.faulted 2 9)) false) = false :=
  ⟨by decide +kernel, by decide +kernel, by decide +kernel, by decide +kernel, by decide +kernel, by decide +kernel, readyC_of (by decide +kernel), by decide +kernel, by decide +kernel, by decide +kernel⟩
theorem wit_fence : ReadyC {} (stC []) ∧ loadsPending (stC []) = false ∧ enginesBusy (stC []) = false ∧
    loadsPending { stC [] with held := [{ core := 0, lateAt := 0, spots := [], store := none, rmw := none, cas := none, acq := false, rel := false, sc := false, scp := .core, imgs := [], at_ := 0, lateId := 2, kern := k0, ctxid := 0, proc := 0, hv := false }] } = true :=
  ⟨readyC_of (by decide +kernel), by decide +kernel, by decide +kernel, by decide +kernel⟩
/-- An imaged output of 8 rows of 16 words at 0x1000, tiles of one row, no element but the identity; the handler of tile (0, 0, 0). -/
def latch0 : ImgLatch := { i0 := 0, i1 := 0, i2 := 0, n0 := 8, n1 := 1, n2 := 1, set := [], out := { base := 0x1000, x0 := 8, x1 := 16, x2 := 1, t0 := 1, t1 := 16, t2 := 1, ety := .i32, v := true } }
def stI (ea : Word) : State := at0 { slot0 with latch := some latch0 } [(0, row [0x200]), (2, row [ea]), (3, row [7])]
theorem wit_imaged : ReadyC { srcs := [.w 3, .w 2] } (stI 0x1000) ∧ (stI 0x1000).core.slot.latch = some latch0 ∧ (0x2000 + 63 < latch0.out.base ∨ latch0.out.base + latch0.out.size ≤ 0x2000) ∧
    (0x0FE0 < latch0.out.base ∧ latch0.out.base ≤ 0x0FE0 + 63) ∧ latch0.out.size = 512 ∧ checkAll (stI 0x1000) ((0x1000, resolve (stI 0x1000) (who (stI 0x1000)) .store 0x1000) :: []) = none ∧
    imageWrites latch0 0x1000 (row [7]) = [] ∧ Reaches (stI 0x1000) .store .rlx .core 64 0x1000 [⟨localKey 0 0x1000, none, 64⟩] ∧ (0x1040 - 0x1000) / 4 / (16 * 1) / 1 ≠ latch0.i0 :=
  ⟨readyC_of (by decide +kernel), by decide, by decide, by decide, by decide, by decide +kernel, by decide +kernel, reaches_of (by decide +kernel) (by decide +kernel), by decide⟩
/-- A footprint of 16 rows from row 64 and one page from page 1. -/
def stL (hv : Bool) : State := { stC [(2, row [64, 16, 1, 1])] with core := { Core.reset 0 with slot := slot0, regs := [(2, row [64, 16, 1, 1])], hvNow := hv } }
theorem wit_lending : ReadyC { srcs := [.w 2] } (stL false) ∧ lendBad (stL false) (argC (stL false) { srcs := [.w 2] } 0) = none ∧ lendBad (stL false) (row [64, 8, 1, 1]) = some 1 ∧ (stL true).core.hvNow = true ∧
    lendActive (stL false).core.lend = false ∧ (stL false).core.revoking = false ∧ (getCl (stL false) 0).rlt = [] ∧ (stL false).core.late = [] ∧ lendV (stL false).core.lend = false ∧ lendActive (0x88400201 : Word) = true ∧
    lendV (0xC8400201 : Word) = true ∧ lendActive (0xC8400201 : Word) = false ∧ ReadyC {} (at0 { slot0 with paired := true } []) :=
  ⟨readyC_of (by decide +kernel), by decide +kernel, by decide +kernel, rfl, by decide +kernel, rfl, by decide +kernel, rfl, by decide +kernel, by decide +kernel, by decide +kernel, by decide +kernel, readyC_of (by decide +kernel)⟩
/-- On memory core 0 of die 0: an `xld` of 64 bytes, one of none, one with a reserved bit, one off by 32. -/
def stX (off len e : Word) : State :=
  { State.reset with core := { Core.reset (coreWord 0 256 0) with slot := slot0, regs := [(0, row [0x200]), (2, row [off, len, 0x40000000, 0, 0, e])] } }
theorem wit_transfer : ReadyC { srcs := [.w 2] } (stX 0 64 0) ∧ (∀ e ∈ reservedLanes (row [0, 64, 0x40000000]) (xferMasks .xld) ++ xferNamed (stX 0 64 0) .xld (row [0, 64, 0x40000000]), e.2 = false) ∧
    (∃ e ∈ reservedLanes (row [0, 64, 0x40000000, 0, 0, 1]) (xferMasks .xld), e.1 = 5 ∧ e.2 = true) ∧ acqHeld (stX 0 64 0) = false ∧ (getCl (stX 0 64 0) 256).jobs.length < jobCap (getCl (stX 0 64 0) 256).id ∧
    rltRoom (stX 0 64 0) (xferRegs .xld { blankJob (stX 0 64 0) .xld 0 with len := 64, dst := 0x40000000 }) = true ∧ [32, 64, 0].find? (fun v => v % 64 != 0) = some 32 ∧ (stX 0 64 0).core.slot.prv = false :=
  ⟨readyC_of (by decide +kernel), by decide +kernel, by decide +kernel, by decide +kernel, by decide +kernel, by decide +kernel, by decide, rfl⟩


/-! ### States that meet the hypotheses: events -/

/-- A late write of core 0 to row 5, to o3, to a queue entry. -/
def late0 (d : LDest) (r : Option Row) : Late := { id := 2, dest := d, lanes := 1, data := r, kern := k0, ctxid := 0, proc := 0, addr := 0, hv := false, poison := false }
def stLate (d : LDest) (r : Option Row) : State := { stC [] with core := { Core.reset 0 with slot := slot0, late := [late0 d r] } }
theorem wit_core_events : (at0 Slot.reset []).core.slot.active = false ∧ (stC []).core.slot.active = true ∧ 0x40000 ≤ ({ slot0 with pc := 0x40000 } : Slot).pc.toNat ∧ (stC []).core.slot.pc.toNat < 0x40000 ∧
    lineHeld (stC []).core.slot = false ∧ gateC slot0 = false ∧ gateC { slot0 with winNext := some (16, 16) } = true ∧ gateC { slot0 with backlog := List.replicate 32 (ent .anop) } = true ∧
    gateC { slot0 with backlog := List.replicate 31 (ent .anop) } = false ∧ ({ slot0 with waitC := some 1, waitA := some 5, backlog := [ent .anop] } : Slot).waitC = some 1 ∧ isMem (Core.reset 0).id = false := by decide +kernel
theorem wit_late : (stLate (.row 5) (some 7)).core.late = [late0 (.row 5) (some 7)] ∧ (late0 (.row 5) (some 7)).data = some 7 ∧ refreshHolds (stLate (.row 5) (some 7)).core (late0 (.row 5) (some 7)) = false ∧
    (stLate (.row 5) (some 7)).core.ckpt = none ∧ (late0 (.ofile 0 7) none).dest = .ofile slot0.sid 7 ∧ (late0 (.queue 2) none).dest = .queue 2 := by decide +kernel
/-- A plain store, an atomic, a `cas` and a load that are held, and one that is held still by a range lock. -/
def held0 (st : Option (List Byte)) (r : Option (AmoOp × DWord)) (c : Option (DWord × DWord)) : Held :=
  { core := 0, lateAt := 0, spots := [⟨0, none, 4⟩], store := st, rmw := r, cas := c, acq := false, rel := false, sc := false, scp := .core, imgs := [], at_ := 0, lateId := 2, kern := k0, ctxid := 0, proc := 0, hv := false }
theorem wit_held : ({ slot0 with pend := [⟨0, .core, 0, k0, 0⟩] } : Slot).pend = [⟨0, .core, 0, k0, 0⟩] ∧ (stC []).held = [] ∧
    (∀ h ∈ [held0 (some [1, 2, 3, 4]) none none, held0 none (some (.add, 1)) none, held0 none none (some (0, 1)), held0 none none none], (∀ p ∈ h.spots, reaches { stC [] with held := [h] } ⟨h.core, h.hv, h.proc⟩ p.key = true) ∧ heldReady { stC [] with held := [h] } 0 h = true) ∧
    heldReady { stC [] with held := [held0 none none none], clusters := [{ Cluster.reset 0 with rlt := [⟨0, [(0, 0)], true, true, 0⟩] }] } 0 (held0 none none none) = false := by decide +kernel
/-- Work of a stopped queue; a valid and an invalid tag; a free slot and none; an overflow area with room and without. -/
def q0 : Queue := { id := 3, ring := 0x3000000, log2n := 4, res := true, dur := false, process := 1, part := 0, farea := 0x3001000, flen := 64, p := 1, ci := 0, next := 0, fcount := 2, fci := 1, gen := 0, fault := 0,
                    faulted := false, phase := .serving, mapped := true, ladder := none, cleared := false, turned := false, engines := [], retired := [], journal := [], committed := [] }
theorem wit_delivery : kernLive { stC [] with queues := [q0] } ⟨3, 1, 0⟩ = false ∧ kernLive (stC []) k0 = true ∧ (look 0 (getCore (stS 0 hdr5 0x2000) 0x2000).tags 5).getLsbD 63 = true ∧
    (look 0 (getCore (stS 0 hdr5 0x2000) 0x2000).tags 6).getLsbD 63 = false ∧ (∀ n ∈ (getCore (stS 15 hdr5 0x2000) 0x2000).ni, n.st ≠ .kept) ∧ (∀ j, j < 15 → ∃ n ∈ (getCore (stS 15 hdr5 0x2000) 0x2000).ni, n.idx = j) ∧
    (∀ n ∈ (getCore (stS 15 hdr5 0x2000) 0x2000).ni, n.idx ≠ 15) ∧ (∀ i, i < 16 → ∃ n ∈ (getCore (stS 16 hdr5 0x2000) 0x2000).ni, n.idx = i) ∧ (look 0 [(5, tagE)] 5).getLsbD 60 = true ∧ (look 0 [(5, tagOff)] 5).getLsbD 60 = false ∧
    (getCl (stS 16 hdr5 0x2000) 0).spill.length < spillRoom { stS 16 hdr5 0x2000 with parts := [{ Part.full with ovf := 4096 }] } 0 ∧ spillRoom (stS 16 hdr5 0x2000) 0 ≤ (getCl (stS 16 hdr5 0x2000) 0).spill.length := by decide +kernel
/-- A ready message for the idle core 1; a prompt one beside a running normal handler; a pre-empted handler. -/
def prompt5 : NiSlot := { ni5 1 .ready with cls := 0 }
def stPre : State := { stC [] with core := { Core.reset 0 with tags := [(5, tagE)], ni := [ni5 0 .running, prompt5], slot := { slot0 with msgSlot := some 0, cls := 1 } } }
theorem wit_dispatch : (stS 1 hdr5 0x2000).peers = [core1 tagE 1] ∧ ownerNext (stS 1 hdr5 0x2000) (core1 tagE 1) = some (ni5 0 .ready) ∧ (core1 tagE 1).owner.active = false ∧ claimWaits (core1 tagE 1) (ni5 0 .ready) = false ∧
    (core1 tagE 1).shadow = none ∧ shadowCore (stS 1 hdr5 0x2000) 0x2000 = false ∧ storeOpenAt (stS 1 hdr5 0x2000) 0x2000 = false ∧ stopped (at0 Slot.reset []) k0 = false ∧
    coreHere (at0 Slot.reset []) 0 = true ∧ coreHere (at0 Slot.reset []) 1 = false ∧ stPre.core.hvNow = false ∧ stPre.core.slot.active = true ∧ stPre.core.slot.halted = false ∧ stPre.core.slot.cls ≠ 0 ∧ stPre.core.slot.rep = 0 ∧
    stPre.core.slot.ctlIssued = false ∧ stPre.core.shadow = none ∧ stPre.core.slot.trapWait = none ∧ stPre.core.pendingRow stPre.core.slot.wb = false ∧
    stopped stPre k0 = false ∧ pickReady (fun q => ownerMay stPre stPre.core q && q.cls == 0) stPre.core.ni = some prompt5 ∧
    pickReady (fun q => ownerMay (stC []) (stC []).core q && q.cls == 0) (stC []).core.ni = none ∧ (at0 Slot.reset []).core.slot.active = false ∧
    (at0 { slot0 with sendWait := some ⟨msg5, none⟩ } []).core.slot.sendWait = some ⟨msg5, none⟩ ∧ ({ stC [] with net := [msg5] } : State).net[0]? = some msg5 := by decide +kernel
/-- A message for this package, one for another; one of a source that waits for its answer, and one whose work goes on there; no `send` waiting. -/
def msgF : Msg := { msg5 with kind := 0, dest := [0x01000000] }
theorem wit_packages : msg5.dest = [0x2000] ∧ pkgOf 0x2000 = ownPkg stPre ∧ msgF.dest = [0x01000000] ∧ pkgOf 0x01000000 ≠ ownPkg stPre := by decide +kernel
theorem wit_sources : ({ stC [] with outbound := [msgF] } : State).outbound.find? (fun q => q.srcw == 0 && !(q.kind == 2 || q.kind == 3 || q.kind == 6)) = some msgF ∧
    ({ stC [] with remote := [msgF] } : State).remote.find? (fun q => q.srcw == 0) = some msgF := ⟨rfl, rfl⟩
theorem wit_no_send : (∀ y ∈ (getCore (stC []) 0).slots, y.sendDue = none) ∧ startHeld (stC []) msgF = false := by decide +kernel
theorem wit_dispatch_delivery : (∃ t, deliverAll msg5 msg5.dest (stS 15 hdr5 0x2000) = .ok t) ∧ startHeld (stS 15 hdr5 0x2000) msg5 = false ∧
    startHeld { stC [] with queues := [{ q0 with phase := .draining }] } { msg5 with kind := 0, kern := ⟨3, 0, 0⟩ } = true ∧ (match deliverAll msg5 msg5.dest (stS 16 hdr5 0x2000) with | .error w => w == 0x2000 | _ => false) = true ∧
    (∃ h : Shadow, ({ Core.reset 0 with shadow := some ⟨slot0, 0, 0, 0⟩ } : Core).shadow = some h ∧ ({ Core.reset 0 with shadow := some ⟨slot0, 0, 0, 0⟩ } : Core).pendingRow h.slot.wb = false) :=
  ⟨ok_of (by decide +kernel), by decide +kernel, by decide +kernel, by decide +kernel, ⟨_, rfl, by decide +kernel⟩⟩
/-- A tag whose header row holds zero, and one whose row does not; a late write to the operand file of the slot whose process changes. -/
theorem wit_start_context : (core1 tagE 1).row ((tagE.extractLsb' 32 11).toNat) = 0 ∧ (look 0 (core1 tagE 1).tags 5).getLsbD 63 = true ∧
    ({ core1 tagE 1 with regs := [(0, row [1])] } : Core).row ((tagE.extractLsb' 32 11).toNat) ≠ 0 ∧ (look 0 (core1 0 1).tags 5).getLsbD 63 = false ∧
    (late0 (.ofile 0 7) none).dest = .ofile slot0.sid 7 ∧ shadowCore (stC []) (stC []).core.id = false ∧ ({ slot0 with lastProc := some 1 } : Slot).lastProc = some 1 := by decide +kernel
/-- Decrements at an armed entry of count 2, of count 1, at a free and at a faulted one; a barrier that both members have reached. -/
def dec0 : Dec := { pkg := 0, cl := 0, entry := 4, core := 0, ctxid := 0, kern := k0, hv := false }
def stD (e : List (Nat × DctEnt)) : State := { stC [] with decs := [dec0], clusters := [{ Cluster.reset 0 with dct := e }] }
theorem wit_group_events : (∀ e ∈ [[(4, DctEnt.armed 2 hdr5 0x2000 none k0 0)], [(4, .armed 1 hdr5 0x2000 none k0 0)], [], [(4, .fault k0)]], (stD e).decs[0]? = some dec0 ∧ dec0.pkg = ownPkg (stD e) ∧ genLive (stD e) dec0.kern = true ∧
      (∀ f ∈ (stD e).decs.take 0, ¬ (f.pkg = dec0.pkg ∧ f.cl = dec0.cl ∧ f.core = dec0.core ∧ f.hv = dec0.hv ∧ f.ctxid = dec0.ctxid)) ∧ (getCl (stD e) dec0.cl).dct = e) ∧
    (let s : State := { stG with bars := [⟨0, 3, 0, [0, 0x2000]⟩, ⟨0, 4, 0, []⟩] }
     (partById s 0).all (fun p => look [] p.groups 3 != [] && (look [] p.groups 3).all (fun w => [0, 0x2000].contains w) && look [] p.groups 4 == []) = true ∧ (partById s 0).isSome = true) ∧
    ({ dec0 with pkg := 1 } : Dec).pkg ≠ ownPkg (stD []) ∧
    (let s : State := { stG with parts := [{ Part.full with groups := [(3, [0, 0x01000000])] }] }
     (partById s 0).any (fun p => (look [] p.groups 3).contains 0x01000000) = true ∧ pkgOf 0x01000000 ≠ ownPkg s ∧ 0x01000000 ∉ (barOf s 0 3).arrived) := by
  decide +kernel
/-- A queued and a running copy of 64 bytes and of 65, a slide that leads to nothing mapped, a stream at its first and its last beat. -/
def job0 (st : JSt) (len : Nat) : Job := { blankJob (stC []) (.cpy .copy) 0 with st := st, src := 0x100, dst := 0x200, len := len }
def stJ (j : Job) : State := { stC [] with clusters := [{ Cluster.reset 0 with jobs := [j] }] }
def strm0 (i : Nat) : Strm := { at_ := 0, key := 0x100, n0 := 2, n1 := 1, n2 := 1, s0 := 64, s1 := 0, s2 := 0, dest := 0, ch := 3, i := i, lo := 0x100, hi := 0x17F, va := 0x100, log := 12, enc := none, proc := 0, owner := 0, rlt := [], kern := k0, ctxid := 0, hv := false }
def stStrm (i : Nat) : State := { stC [] with core := { Core.reset 0 with slot := slot0, strms := [strm0 i] } }
theorem wit_copy_events : (getCl (stJ (job0 .queued 64)) 0).jobs.find? (startable (stJ (job0 .queued 64))) = some (job0 .queued 64) ∧ ((getCl (stJ (job0 .queued 64)) 0).jobs.filter (fun j => j.st == .running)).length < 8 ∧
    nextBeat (getCl (stJ (job0 .running 65)) 0) = some (job0 .running 65) ∧ sliceWaits (stJ (job0 .running 65)) (job0 .running 65) = false ∧
    (cpySource (stJ (job0 .running 64)) (job0 .running 64) .copy 0 64).toBool = true ∧ (jobPlaces (stJ (job0 .running 64)) (job0 .running 64) .store 0x200 64).toBool = true ∧ 64 * (0 + 1) < (job0 .running 65).len ∧
    (let j := { job0 .running 64 with dst := 0x1A00000 }; match cpyBeat (stJ j) j .copy with | .error (_, t) => (faultKind t).isSome | .ok _ => false) = true ∧
    (job0 .running 64).len ≤ 64 * (0 + 1) ∧ (∀ i, i < 2 → (getCore (stStrm i) 0).strms[0]? = some (strm0 i) ∧ (chanOf (getCore (stStrm i) 0) 3).length < 16 ∧ channelTaken (stStrm i) 0 0 (strm0 i) = false ∧
      (getCore (stStrm i) 0).inRefresh = false) ∧ ((strm0 0).i + 1 == 2) = false ∧ ((strm0 1).i + 1 == 2) = true := by decide +kernel
/-- Package 1 lies beyond link 5, which is up, retraining, or down. -/
def stLk (rt dn : Bool) : State := { stC [] with pod := [⟨1, [], [5], none⟩], links := [⟨5, 0, 0, rt, dn⟩] }
theorem wit_links : linksTo (stLk false true) 1 = [5] ∧ linksCut (stLk false true) [5] = true ∧ linksWait (stLk true false) [5] = true ∧ linksCut (stLk true false) [5] = false ∧
    linksWait (stLk false false) [5] = false ∧ linksTo (stLk false true) 0 = [] ∧ linksWait (stLk false true) [] = false ∧ (∀ q ∈ (stLk false true).stops, q.kern ≠ k0) ∧
    (let j := { job0 .running 64 with src := 0x2000000, xl := { Xlat.none with ents := [tlbEntry 0 0x2000000 0x400000000061] } }
     let v := { stLk true false with clusters := [{ Cluster.reset 0 with jobs := [j] }] }
     nextBeat (getCl v 0) = some j ∧ (sliceWaits v j = false) ∧ (∃ l ∈ jobLinks v j, linksWait v l = true) ∧ (∀ l ∈ jobLinks v j, linksCut v l = false) ∧ beatLeaves v j = true) := by decide +kernel
/-- Transfers of memory core 0 under way: into the pool and from it, pushes with and without a word to count, a weight store; a push that owes its message; an image. -/
def wm : Word := coreWord 0 256 0
def job1 (k : JKind) (dst : Nat) (sw : Word) (due : Bool) : Job := { blankJob (stX 0 64 0) k 0 with st := .running, len := 64, dst := dst, dest := 0x2000, hdr := hdr5, sw := sw, msgDue := due }
def stT (j : Job) : State := { stX 0 64 0 with clusters := [{ Cluster.reset 256 with jobs := [j] }] }
theorem wit_transfer_events : (∀ j ∈ [job1 .xld 0x100 0 false, job1 .xst 0x100 0 false, job1 .xst 0x100 0 true, job1 .xws 0x100 0 false, job1 .xpush 0x100 0xFFFFFFFF false, job1 .xpush 0x100 0x40 false],
      nextBeat (getCl (stT j) (clIdx wm)) = some j ∧ j.kind.isXfer = true ∧ (getCore (stT j) j.dest).inRefresh = false) ∧
    (let j := job1 .xld 0x100 0 false; match resolveX j.xl (stT j) j.who .load 0x100 with | .ok _ => true | _ => false) = true ∧
    (let j := job1 .xst 0x100 0 false; match resolveX j.xl (stT j) j.who .store 0x100 with | .ok _ => true | _ => false) = true ∧
    (getCl (stT (job1 .xpush 0x100 0 true)) (clIdx wm)).jobs.find? (fun i => i.slot == 0 && i.kind == .xpush && i.msgDue) = some (job1 .xpush 0x100 0 true) ∧
    agentBusy (stT (job1 .xpush 0x100 0 true)) wm false (narrowest wm [0x2000]) = false ∧
    agentBusy { stT (job1 .xpush 0x100 0 true) with core := { (stX 0 64 0).core with slot := { slot0 with pend := [⟨0, .core, 0, k0, 0⟩] } } } wm false .core = true ∧
    (∀ l ∈ jobLinks (stT (job1 .xld 0x100 0 false)) (job1 .xld 0x100 0 false), linksWait (stT (job1 .xld 0x100 0 false)) l = false) ∧
    (let i : Img := { key := 0x100, enc := none, bytes := [1], scp := .core, core := 0, hv := false, proc := 0, kern := k0, ctxid := 0, at_ := 0 }
     let s : State := { stC [] with clusters := [{ Cluster.reset 0 with imgs := [i] }] }
     (getCl s 0).imgs = [i] ∧ rltLock s .store 0x100 = none ∧ s.held = [] ∧ linksWait s (linksOf s 0x100) = false ∧ reaches s ⟨0, false, 0⟩ 0x100 = true) := by decide +kernel
/-- A beat that its destination has accepted, of a reduction and of a push; an `xst` to host memory. -/
theorem wit_accepted : (let j : Job := { job0 .running 64 with kind := .cpy .redi32, order := 5 }
     let s : State := { stJ j with ports := [⟨0, 5, 1⟩] }
     nextBeat (getCl s 0) = some j ∧ j.beat < expected s j ∧ expected (stJ j) j ≤ j.beat ∧ (cpySource s j .redi32 0 64).toBool = true ∧ (jobPlaces s j .rmw 0x200 64).toBool = true) ∧
    (let j : Job := { job1 .xpush 0x100 0xFFFFFFFF false with order := 5 }; j.beat < expected { stT j with ports := [⟨256, 5, 1⟩] } j) ∧
    (let j : Job := { job1 .xst 0x2000000 0 false with xl := { Xlat.none with ents := [tlbEntry 0 0x2000000 0x261] } }
     let s : State := { stT j with core := { (stT j).core with atc := [{ pasid := 0, page := 0, log := 12, hpa := 0, r := true, w := true }] } }
     readsBack s j 0 = true ∧ (match resolveX j.xl s j.who .store 0x2000000 with | .ok p => p.key == hostKey 0 | _ => false) = true) := by decide +kernel
/-- A gang of cores 0 and 1, both posted; a post in its last cycle and one that has waited 2^20; an operation at its first and its last step. -/
def post0 (c : Nat) : Post := { core := c, ext := gang0, a := 0, b := 64, at_ := 0, kern := k0, ctxid := 0, proc := 0, rlt := [] }
def stGang (t : Nat) : State := { stC [] with peers := [{ Core.reset 0x2000 with cycle := BitVec.ofNat 64 t }], clusters := [{ Cluster.reset 0 with posts := [post0 0, post0 1], ops := [⟨gang0, [mem0 0, mem0 1], 0, 6⟩] }] }
theorem wit_gang_events : (getCl (stGang 0) 0).posts.find? (fun q => complete (getCl (stGang 0) 0) q && !scalesLocked (stGang 0) 0 q.ext) = some (post0 0) ∧
    (getCl (stGang 0) (clIdx 0x2000)).posts.find? (fun q => q.core == coreOf 0x2000) = some (post0 1) ∧ (getCore (stGang 1048575) 0x2000).cycle.toNat < (post0 1).at_ + 1048576 ∧
    (post0 1).at_ + 1048576 ≤ (getCore (stGang 1048576) 0x2000).cycle.toNat ∧ gang0.ring = .pt ∧
    (getCl (stGang 0) 0).ops = [⟨gang0, [mem0 0, mem0 1], 0, 6⟩] ∧ 0 + 1 < gang0.cores.length ∧ gang0.cores.length ≤ 1 + 1 := by decide +kernel


/-! ### States that meet the hypotheses: harvesting, paging, queues, kernels, the platform -/

/-- Core 0 lends rows 32 to 47 and page 4; the same suspended. -/
def lend0 : Word := 0x84100801
def stLd (l : Word) (tags : List (Nat × BitVec 128)) (ni : List NiSlot) (pk : List Parked) : State :=
  { State.reset with core := { Core.reset 0 with lend := l, tags := tags, ni := ni, parked := pk } }
/-- Tags: one that claims rows 32 to 47; a harvest tag over the lent rows. -/
def tagClaim : BitVec 128 := 0x1000209110000000000100
def tagHv : BitVec 128 := 0x9610002000000100
def parked0 (i : Option Nat) : Parked :=
  { bank := 1, rows := [], slot := { slot0 with wb := 32, msgSlot := i }, l2 := 0, l3 := 0, l4 := 0, ni := none, foot := ⟨32, 16, 4, 1⟩, order := 0 }
theorem wit_harvest_events : isMem 0 = false ∧ lendActive (stLd lend0 [(5, tagClaim)] [ni5 0 .ready] []).core.lend = true ∧
    revocationDue (stLd lend0 [(5, tagClaim)] [ni5 0 .ready] []) (getCore (stLd lend0 [(5, tagClaim)] [ni5 0 .ready] []) 0) = true ∧
    (let s := stLd lend0 [] [] []; lendV s.core.lend = true ∧ s.core.revoking = false ∧ s.core.hvNow = false ∧ s.core.alt.active = false ∧ allJobs s = [] ∧ (∀ c ∈ allCores s, c.strms = [])) ∧
    (let s : State := { stLd 0xC4100801 [] [] [] with core := { (stLd 0xC4100801 [] [] []).core with ownerDone := true } }
     lendV s.core.lend = true ∧ lendSusp s.core.lend = true ∧ s.core.revoking = false ∧ s.core.ownerDone = true ∧ pairLend s s.core = false ∧ ownerNext s s.core = none) := by decide +kernel
theorem wit_harvest_dispatch : nextParked (stLd lend0 [] [] [parked0 none]) (stLd lend0 [] [] [parked0 none]).core = some (parked0 none) ∧ (stLd lend0 [] [] [parked0 none]).core.late = [] ∧ nextParked (stLd lend0 [] [] []) (stLd lend0 [] [] []).core = none ∧ pairCore (stLd lend0 [] [] []) 0 = false ∧ bankBroken (stLd lend0 [] [] []).core (parked0 none) = none ∧
    saveFaults { stLd lend0 [] [] [] with kiln := [(saveGranule 4096, ⟨true, saveCap 4096⟩)] } 4096 .write = false ∧
    harvestNext (stLd lend0 [(5, tagHv)] [{ ni5 0 .ready with cls := 2 }] []) (stLd lend0 [(5, tagHv)] [{ ni5 0 .ready with cls := 2 }] []).core = some { ni5 0 .ready with cls := 2 } ∧
    contextSettled (stLd lend0 [] [] [parked0 none]).core (parked0 none) = true ∧ (parked0 none).slot.msgSlot = none ∧
    contextSettled { (stLd lend0 [] [] [parked0 none]).core with late := [late0 (.ofile slot0.sid 7) none] } (parked0 none) = false := by decide +kernel

/-- External memory of process 1: a table of two levels whose leaf maps the first GiB to 0x40000000, and bytes at a place. -/
def memQ (l : List (Nat × List Byte)) : Memory :=
  l.foldl (fun m e => memWriteN m (cxlKey (0x40000000 + e.1)) e.2) (memWriteN (memWriteN [] (cxlKey 0x1000) (natBytes 0x2103 8)) (cxlKey 0x2000) (natBytes 0x40000179 8))
def proc1 : Proc := { id := 1, root := cxlKey 0x1000, pasid := 0, part := 0, cone := 0, budget := 0, left := 0, turnCharged := 0, firstLaunch := [], lastFirst := 0 }
def words (l : List Word) : List Byte := l.flatMap (fun w => natBytes w.toNat 4)
def stQ (x : Queue) (l : List (Nat × List Byte)) : State :=
  { State.reset with firm := { State.reset.firm with stage := 2 }, kiln := [(6, ⟨true, capFor false true 0x3000000 2048⟩), (7, ⟨true, capFor true false 0x3001000 4096⟩)],
                      mem := memQ l, procs := [proc1], queues := [x], core := { Core.reset 0 with tags := [(5, tagE)] }, peers := [core1 tagE 0],
                     modules := [{ handle := 1, proc := 1, part := 0, pc := 0x100, size := 0x100, tags := [5], launch := [], maps := [], data := [] }],
                     parts := [{ Part.full with clusters := [0], memCores := [] }] }
theorem wit_walks : walk (stQ q0 []) 1 0x3000000 = .leaf 0x40000179 ∧ walk (stQ q0 []) 1 0x8000000000 = .unmap ∧ walk (stQ q0 []) 9 0x3000000 = .unmap ∧
    (match walk { stQ q0 [] with mem := memWriteN [] (cxlKey 0x1000) (natBytes 0x2503 8) } 1 0x3000000 with | .fmt => true | _ => false) = true ∧
    (let m : Miss := { core := 0, asker := .slot false, proc := 1, page := 0x3000 }
     let s : State := { stQ q0 [] with misses := [m], core := { Core.reset 0 with slot := { slot0 with xl := { Xlat.none with page := some 0x3000 } } } }
     let t := tlbEntry 1 (0x3000 * 4096) 0x40000179
     s.misses.find? (fun m => m.core == s.core.id && (l2Find s m.core m.proc m.page).isNone && (walking s (dieOf s.core.id)).contains (m.proc, m.page)) = some m ∧ m.asker = .slot s.core.hvNow ∧
       s.core.slot.xl.page = some m.page ∧ m.within t = true ∧ l2Find { s with clusters := [{ Cluster.reset 0 with l2 := [t] }] } 0 1 0x3000 = some t) := by decide +kernel
/-- A Translation Request, a Page Request that has been sent, and one that nobody waits for. -/
def ext0 (paged : Bool) (who : Asker) : ExtReq := { asker := who, pasid := 0, page := 7, r := true, w := false, paged := paged, sent := paged, kern := k0 }
theorem wit_requests : [ext0 false (.slot false)].find? (fun q => !q.paged) = some (ext0 false (.slot false)) ∧ [ext0 true (.slot false)].find? (fun q => q.paged && q.sent) = some (ext0 true (.slot false)) ∧
    [ext0 true .none].find? (fun q => q.paged && q.sent) = some (ext0 true .none) ∧ (ext0 true .none).asker = .none ∧ (ext0 true (.slot false)).asker ≠ .none := by decide +kernel
theorem wit_paging_events : (tlbFind [tlbEntry 1 0x3000000 0x40000179] 1 (0x3000 * 4096)).isSome = true ∧ inPart (stQ q0 []) 0 0 = true ∧ inPart (stQ q0 []) 1 0 = false ∧
    invalWaits { stQ q0 [] with core := { Core.reset 0 with slot := { slot0 with pend := [⟨0, .core, 0, k0, 0⟩] } } } 0 none 0 0 = true ∧ invalWaits (stQ q0 []) 0 none 0 0 = false ∧
    extOut (stLate (.row 5) (some 7)) 0 = [] ∧
    (let l : Late := { late0 (.row 5) (some 7) with addr := cxlKey 0 }; extOut { stC [] with core := { Core.reset 0 with slot := slot0, late := [l] } } 0 = [.load l]) ∧
    (let p : PendW := ⟨hostKey 0, .core, 0, k0, 0⟩; extOut (at0 { slot0 with pend := [p] } []) 0 = [.store false p]) ∧
    (let j : Job := { job1 .xst 0x2000000 0 false with xl := { Xlat.none with ents := [tlbEntry 0 0x2000000 0x261] } }
     let s : State := { stT j with core := { (stT j).core with atc := [{ pasid := 0, page := 0, log := 12, hpa := 0, r := true, w := true }] } }
     extOut s wm = [.beat j 0x2000000]) ∧
    (job1 .xst 0x100 0 true).msgDue = true ∧ (stQ q0 []).saved = [] ∧
    (cxlKey 8 % 8 = 0 ∧ 2 ^ 52 ≤ cxlKey 8 ∧ cxlKey 8 < 2 ^ 53) ∧ (2 ^ 43 + 0x100 < 2 ^ 52 ∧ keyKind (2 ^ 43 + 0x100) = 2 ∧ (2 ^ 43 + 0x100) % 8 = 0) := by decide +kernel

/-- The notify page's boundaries: P 1, ci 0, 16 records; FCOUNT 2, FCI 1. -/
theorem wit_notify : queueById (stQ q0 []) 3 = some q0 ∧ ((16 : Word) - q0.ci).toNat ≤ 2 ^ q0.log2n ∧ 2 ^ q0.log2n < ((17 : Word) - q0.ci).toNat ∧ (16 : Word) ≠ q0.p ∧ ((17 : Word) - q0.p).toNat < 2 ^ 31 ∧
    2 ^ 31 ≤ ((0 : Word) - q0.p).toNat ∧ ((2 : Word) - q0.fci).toNat ≤ (q0.fcount - q0.fci).toNat ∧ (q0.fcount - q0.fci).toNat < ((3 : Word) - q0.fci).toNat ∧ q0.phase = .serving := by decide
/-- What holds of a record whose first words are ws. -/
def recAt (ws : List Word) (p : State → Queue → List Word → Bool) : Bool :=
  let s := stQ q0 [(0x3000000, words ws)]
  mayStart s q0 && (match recWords s q0 with
    | some r => p s q0 r
    | none => false)
/-- A ring's slot that its capability does not admit. -/
theorem wit_slot_fault : (let s : State := { stQ q0 [] with kiln := [] }; mayStart s q0 && slotFaults s q0) = true ∧ slotFaults (stQ q0 []) q0 = false := by decide +kernel
theorem wit_signal_record : recAt [0x13, 0, 0x3002000, 0, 1, 0] (fun s x r => recType r == 3 && commonOk r && recSig r && !recBar r && zeros r 6 32 && mapped s x.process none (w64 r 2) 16) = true ∧
    recAt [0x23, 0, 0, 0, 0, 0, 1] (fun _ x r => recType r == 3 && recBar r && x.ci == x.head && !zeros r 6 32 && !sigBad r) = true := by decide +kernel
theorem wit_budget_record : recAt [4, 0, 0, 0, 0, 0, 5] (fun _ _ r => recType r == 4 && commonOk r && zeros r 8 32 && !recSig r) = true ∧
    recAt [4, 0, 0, 0, 0, 0, 5, 0, 1] (fun _ _ r => recType r == 4 && !zeros r 8 32 && !sigBad r) = true ∧
    recAt [] (fun _ _ r => recType r == 0 && !sigBad r) = true ∧ recAt [5] (fun _ _ r => recType r == 5 && !sigBad r) = true := by decide +kernel
theorem wit_message_record : recAt [1, 0, 0, 0, 0, 0, hdr5, 0, 0x2000, 0, 0, 0x3003000] (fun s x r => recType r == 1 && messageOk s x r &&
      (unmappedField s x (sigRange r ++ [(w64 r 11, 64 * hdrRows (r.getD 6 0))])).isNone && (let d := derive s x 0 (w64 r 11) (64 * hdrRows (r.getD 6 0)); (viaRead d x 0 (w64 r 11) (64 * hdrRows (r.getD 6 0))).isSome && !storeWaits s x r &&
      (deliverAll { msg5 with kern := ⟨3, 0, 0⟩ } ((messageDest s x r).filter (fun w => pkgOf w == ownPkg s)) { d with kerns := s.kerns ++ [newKern s x r] }).toBool)) = true ∧
    recAt [1, 0, 0, 0, 0, 0, hdr5, 3] (fun s x r => recType r == 1 && !messageOk s x r && !sigBad r) = true := by decide +kernel
/-- A launch of one point on tag 5 of module 1. -/
theorem wit_launch_record :
    (let s := stQ q0 [(0x3000000, words [2, 0, 0, 0, 0, 0, 0x3004000]), (0x3004000, words [0x14105])]
     let d := derive s q0 0 0x3004000 256
     mayStart s q0 && (match recWords s q0, viaRead d q0 0 0x3004000 256, partById s 0 with
       | some r, some bs, some p =>
         let l := wordsOf 64 bs
         let e := derive (derive d q0 1 (w64 l 14) (64 * lRows l)) q0 2 (w64 l 17) (16 * lNgf l)
         recType r == 2 && commonOk r && w64 r 6 == 0x3004000 && zeros r 8 32 && (unmappedField s q0 (sigRange r ++ [(0x3004000, 256)])).isNone && (launchCode s q0 p l).isNone &&
           (unmappedField s q0 [(w64 l 14, 64 * lRows l), (w64 l 17, 16 * lNgf l), (w64 l 6, if w64 l 6 = 0 then 0 else 1)]).isNone && (viaRead e q0 1 (w64 l 14) (64 * lRows l)).isSome &&
           (viaRead e q0 2 (w64 l 17) (16 * lNgf l)).isSome && groupFill s p (lNgf l) [] == some [] && !launchWaits s q0 p l [] &&
           launchWaits s q0 { p with storeOpen := true } l []
       | _, _, _ => false)) = true ∧
    recAt [2, 0, 0, 0, 0, 0, 0, 0, 1] (fun _ _ r => recType r == 2 && !zeros r 8 32 && !sigBad r) = true := by decide +kernel

/-- A kernel of queue 3, its walker over two points that R1-reflection joins, its stop and its signal. -/
def kern0 (busy : Bool) : Kern := { ref := ⟨3, 0, 0⟩, proc := 1, part := 0, launch := true, compute := true, pair := false, module := 1, groups := [], dctLo := 0, dctHi := 1023, cap := 10, charged := if busy then 9 else 10, tlimit := 2, began := 0, sig := true, sigAddr := 0, sigVal := 0 }
def refl0 : GElem := { p0 := 0, p1 := 1, p2 := 2, s0 := true, s1 := false, s2 := false, o0 := 1, o1 := 0, o2 := 0, neg := false }
def walker0 (a : Nat) : Walker := { kern := ⟨3, 0, 0⟩, part := 0, hdr := hdr5, rows := [], n0 := 2, n1 := 1, n2 := 1, elems := [refl0], out := ⟨0, 1, 1, 1, 1, 1, 1, .i8, false⟩, place := 0, at_ := a, issued := 0 }
def ret0 (sig : Bool) : Retired := { recNo := 0, sig := sig, sigAddr := 0x3002000, sigVal := 1, status := 0, code := 0, gen := 0 }
theorem wit_walker : (∀ a ∈ [0, 1], ({ stQ q0 [] with walkers := [walker0 a] } : State).walkers[0]? = some (walker0 a)) ∧ inService (stQ q0 []) ⟨3, 0, 0⟩ = true ∧ (partById (stQ q0 []) 0).isSome = true ∧
    canonical (walker0 0).ext [refl0] (walker0 0).pt != canonical (walker0 1).ext [refl0] (walker0 1).pt ∧ (deliverAll msg5 [0x2000] (stQ q0 [])).toBool = true ∧ walkerHeld { stQ q0 [] with walkers := [walker0 0] } (walker0 0) = false := by decide +kernel
theorem wit_kernel_events : queueById (stQ q0 []) 5 = none ∧ (queueById (stQ q0 []) 3).map Queue.gen = some 0 ∧
    ({ stQ q0 [] with kerns := [kern0 true] } : State).kerns.find? (fun k => k.ref == ⟨3, 0, 0⟩) = some (kern0 true) ∧ (kern0 true).ref.gen ≠ 1 ∧
    ([kern0 true].find? (fun k => k.ref.queue == 3 && k.ref.recNo == 0)) = some (kern0 true) ∧ kernBusy { stQ q0 [] with walkers := [walker0 0] } ⟨3, 0, 0⟩ = true ∧
    kernBusy (stQ q0 []) ⟨3, 0, 0⟩ = false ∧ q0.dur = false ∧ q0.journal = [] ∧ q0.committed = [] ∧
    (∀ b ∈ [true, false], nextSignal { q0 with ci := 1, retired := [ret0 b] } = some (ret0 b)) ∧ (kilnWrite (stQ q0 []) 1 0x3002000 [1]).isSome = true ∧ ((0 : Word) - q0.next).toNat < 2 ^ 31 ∧ ({ q0 with dur := true } : Queue).ci = 0 ∧
    ((kern0 false).cap ≠ 0 ∧ (kern0 false).cap ≤ (kern0 false).charged.toNat) ∧ (kern0 true).began + 1100 * (kern0 true).tlimit ≤ 2200 ∧
    ¬ ((kern0 true).began + 1100 * (kern0 true).tlimit ≤ 2199 ∨ (kern0 true).cap ≤ (kern0 true).charged.toNat) := by decide +kernel

/-- The rungs of the ladder: a queue that drains, saves, is reset, may return; what is left on the device or not. -/
def qPhase (p : QPhase) (t : Trig) : Queue := { q0 with phase := p, ladder := some t, cleared := true, turned := true }
theorem wit_ladder : queueRuns (stQ (qPhase .draining .stop) []) 3 = false ∧ queueRuns { stQ { q0 with next := 1 } [] with kerns := [kern0 true] } 3 = true ∧ saveReady (stQ (qPhase .saving .stop) []) 3 = true ∧
    saveReady { stQ q0 [] with decs := [{ dec0 with kern := ⟨3, 0, 0⟩ }] } 3 = false ∧ (qPhase .resetting .stop).retired = [] ∧ (let s := stQ (qPhase .resetting .stop) []; enginesOf s 3 = [] ∧ othersSettled (discardQueue (qPhase .resetting .stop) s) [] = true ∧ (queueById (discardQueue (qPhase .resetting .stop) s) 3).isSome = true) ∧
    (let s : State := { stQ q0 [] with held := [held0 none none none] }; othersSettled s [0] = false) ∧ enginesOf { stQ q0 [] with core := { Core.reset 0 with slot := { slot0 with kern := ⟨3, 0, 0⟩ } } } 3 = [0] ∧
    (∀ p ∈ [QPhase.drained, .saved, .reset], mayReturn (stQ q0 []) (qPhase p .stop) = true) ∧ ({ q0 with dur := true } : Queue).committed = [] ∧ (stQ q0 []).kerns = [] ∧
    mayReturn { stQ q0 [] with firm := { State.reset.firm with updating := true } } (qPhase .saved .stop) = false ∧ (stQ q0 []).stops = [] ∧ (stQ q0 []).held = [] ∧ (stQ q0 []).saved = [] ∧ (stQ q0 []).savedMem = [] ∧ (stQ q0 []).savedDct = [] ∧ firstWaiting (stQ q0 [(0x3000000, words [2])]) 0 1 0 = [(3, 0)] ∧ saveFaults (stQ q0 []) 3 .write = true ∧ (∀ k ∈ [KAcc.read, .write], saveFaults { stQ q0 [] with kiln := [(saveGranule 3, ⟨true, saveCap 3⟩)] } 3 k = false) ∧ wheelAfter [1, 2] (some 2) = some 1 ∧ wheelAfter [1, 2] none = some 1 ∧
    (qPhase .draining .stop).ladder ≠ some .kill := by decide +kernel
def part0 (c o : Nat) : PartDesc := { part := 0, clusters := [c], memCores := [63], others := [], ovf16 := o, dct := [(16, 47), (48, 1023)] }
theorem wit_kiln : (∀ x ∈ (stQ q0 []).queues, x.process = 1 → x.phase = .serving) ∧ partOk (stQ q0 []) (part0 255 16) = true ∧ partOk (stQ q0 []) (part0 256 16) = false ∧ partOk (stQ q0 []) (part0 255 17) = false ∧
    (partById (stQ q0 []) 0).isSome = true ∧ (isMem (coreWord 0 256 0) = true ∧ inPart State.reset 0 (coreWord 0 256 0) = true ∧ clIdx (coreWord 0 256 0) - 256 = 0) ∧
    (∀ x ∈ (stQ (qPhase .reset .partition) []).queues, x.part = 0 → x.phase = .drained ∨ x.phase = .saved ∨ x.phase = .reset) ∧ (∃ x ∈ (stQ q0 []).queues, x.part = 0 ∧ x.phase = .serving) ∧
    (let d : List Word := [0x3000000, 0, 5, 1, 0x3001000, 0, 64, 0]
     descBad d = false ∧ w32 d 3 % 65536 = 1 ∧ w32 d 3 / 65536 = 0 ∧ queueById (stQ q0 []) 4095 = none ∧ (stQ q0 []).firm.stage ≠ 0 ∧ State.reset.firm.stage = 0 ∧ (procById (stQ q0 []) 1).isSome = true ∧
       mapped (stQ q0 []) 1 (some .load) (w64 d 0) (128 * 2 ^ (w32 d 2 % 32)) = true ∧ mapped (stQ q0 []) 1 (some .store) (w64 d 4) (64 * w32 d 6) = true) := by decide +kernel

/-- Cluster 0 of process 2 with a message of process 0 ready on core 1; a pair's checkpoint; a link that has failed 15 times. -/
def stPr (act : Bool) : State := { State.reset with peers := [core1 tagE 1], clusters := [{ Cluster.reset 0 with proc := some 2 }], core := { Core.reset 0 with slot := { Slot.reset with active := act } } }
def ckpt0 (n : Nat) : Ckpt := { regs := [], slot := slot0, shadow := none, mstat := 0, scla := 0, sclb := 0, chans := #v[[], [], [], []], nextId := 0, tries := n, bundles := 0, undo := [(localKey 0 0, 7)], rows := [], rolling := false }
theorem wit_process_change : waitingProc (stPr true) 0 = some 0 ∧ mayChange (stPr true) 0 = false ∧ waitingProc (stPr false) 0 = some 0 ∧ mayChange (stPr false) 0 = true := by decide +kernel
theorem wit_platform : (let s : State := { stC [] with core := { Core.reset 0 with slot := { slot0 with paired := true }, ckpt := some (ckpt0 1), late := [late0 (.row 5) (some 7)] } }
      s.core.hvNow = false ∧ s.core.slot.paired = true ∧ s.core.ckpt = some (ckpt0 1) ∧ (∀ l ∈ s.core.late, (ckpt0 1).nextId ≤ l.id) ∧ (ckpt0 1).tries < 2 ∧ 2 ≤ (ckpt0 2).tries ∧
      (∃ l ∈ s.core.late, l.id < ({ ckpt0 1 with nextId := 9 } : Ckpt).nextId)) ∧
    (let s : State := { State.reset with core := { Core.reset 0 with corrected := [(4, 0)] }, timer := 1099999999 };
      (∃ e ∈ s.core.corrected, e.1 = 4 ∧ s.timer < e.2 + 1100000000) ∧ ¬ (1100000000 : Nat) < 0 + 1100000000) ∧
    (linkOf { State.reset with links := [⟨1, 5, 15, false, false⟩] } 1 = ⟨1, 5, 15, false, false⟩ ∧ 16 ≤ 15 + 1) ∧ cutOff State.reset 1 = [] ∧ (5 < 65536 ∧ 65536 ≤ 65536) ∧ netBars State.reset = [] ∧ deferred State.reset 255 = false ∧
    (clockFloor State.reset 0 = 0 ∧ clockFloor { State.reset with core := { Core.reset 0 with tags := [(5, 0x9010000000000100)] } } 0 = 8) ∧
    partBusy State.reset Part.full = false ∧ partBusy { State.reset with core := { Core.reset 0 with slot := slot0 } } Part.full = true ∧ State.reset.firm.stage ≠ 1 := by decide +kernel
/-- A cluster whose gang defers a clock change; a change to no faster a clock (what Config.powerStays answers for a faster one cannot be shown); a domain
of two clusters with a slow member, under its floors; a queue's process on a cluster of its partition. -/
theorem wit_clocks : deferred { State.reset with clusters := [{ Cluster.reset 0 with ops := [⟨gang0, [mem0 0], 0, 6⟩] }] } 0 = true ∧ powerAdmits State.reset State.reset = true ∧
    (let s : State := { State.reset with clusters := [{ Cluster.reset 1 with choice := 5 }] }
     (∀ c ∈ [0, 1], ∀ b ∈ [0, 1], clockFloor s c ≤ (getCl s b).choice) ∧ domainSetting s [0, 1] = 5) ∧
    (let s : State := { stQ { q0 with dur := true } [] with clusters := [{ Cluster.reset 0 with proc := some 1 }] }
     (∃ u ∈ s.clusters, u.proc = some 1 ∧ (partOfCl s u.id).any (fun r => r.id == 0) = true) ∧ replayEngines s { q0 with dur := true } = [0]) := by decide +kernel
/-- The shortest file that passes the loader's layout: a header, one section, a signature block. -/
def vof0 : List Byte :=
  words [0x01464F56, 1, 0, 0, 0, 0, 0, 0, 0, 0, 0, 0, 0, 1, 64, 104] ++ words [11, 3, 96, 8, 0, 0, 0, 0] ++ words [0, 0] ++ words [0, 0, 0, 0, 0, 0, 0, 0, 2420, 0] ++ List.replicate 2420 0
def load0 (f : List Byte) : LoadDesc := { part := 0, proc := 1, file := f, pc := 0, windows := [], maps := [], sent := none, peers := [0, 7] }
theorem wit_modules : vofOk [] = false ∧ vofForm vof0 = true ∧ signerKeys State.reset 0 = [] ∧ (load0 vof0).peers.find? (fun st => st != 0) = some 7 ∧ (partById State.reset 0).isSome = true ∧
    (let m : Module := { handle := 1, proc := 1, part := 0, pc := 0x100, size := 0x100, tags := [5], launch := [], maps := [], data := [] }
     (stQ q0 []).modules.find? (fun m => m.proc == 1 && m.handle == 1) = some m ∧ moduleBusy { stQ q0 [] with kerns := [kern0 true], queues := [] } m = true ∧
       moduleBusy { stQ q0 [] with queues := [] } m = false ∧ inPart (stQ q0 []) 0 0 = true) := by decide +kernel
/-- A file too short to be signed; quiet states; the firmware's stages. A file that Config.mldsaVerify accepts cannot be
shown: the function is free. -/
theorem wit_firmware : sigLayoutOk [] 0 = false ∧ sigLayoutOk vof0 104 = true ∧ quiet (stQ (qPhase .reset .firmware) []) = true ∧ State.reset.firm.updating = false ∧ State.reset.firm.stage = 0 ∧
    (let i : Image := { version := 3, digest := 9, key := 1, sig := [] }
     let h : Handover := { version := 2, len := 1, digest := sha3 [7], body := [7] }
     let m : Firm := { State.reset.firm with updating := true, handover := some h, pending := some 9, imgB := some i }
     m.handover = some h ∧ (if m.activeB then m.imgA else m.imgB) = some i ∧ h.version ≤ i.version ∧ h.len = h.body.length ∧ h.digest = sha3 h.body ∧ ¬ ({ h with version := 4 } : Handover).version ≤ i.version ∧
     (2, (9 : BitVec 256)) ∈ measurements { m with measured := some i } ∧ (∀ e ∈ measurements m, e.1 ≠ 6) ∧ m.runningB = false) ∧
    ({ State.reset.firm with stage := 1 } : Firm).stage = 1 := by decide +kernel

/-! ### Words and steps -/

theorem wit_decode_encode : (Instr.vadd (.w 5) (.q 0) (.w 6) .i32).wf = true ∧ encode (.vadd (.w 5) (.q 0) (.w 6) .i32) = some (0, 0x60175062) ∧ (aOps (.vadd (.w 5) (.q 0) (.w 6) .i32)).isSome = true ∧
    (Instr.movi (.w 7) 0x00012345).wf = true ∧ encode (.movi (.w 7) 0x00012345) = some (0x981C0000, 0x00012345) ∧ (aOps (.movi (.w 7) 0x00012345)).isSome = false ∧ runsOn false (.movi (.w 7) 0x00012345) = true := by decide +kernel
theorem wit_unassigned : ((0x1C000000 : Word).extractLsb' 25 6).toNat = 0x0E ∧ ((0x4A000000 : Word).extractLsb' 25 7).toNat = 0x25 ∧ ((0x72000000 : Word).extractLsb' 25 6).toNat = 0x39 ∧
    ((0x78000000 : Word).extractLsb' 25 6).toNat = 0x3C := by decide
theorem next_of {o : Out} (h : (after o (fun _ => true)).isSome = true) : ∃ t, o = .next t := by
  cases o with
  | next t => exact ⟨t, rfl⟩
  | _ => cases h
theorem wit_invariant : Machine.Inv State.reset ∧ ∃ t, step State.reset = .next t := ⟨by unfold Machine.Inv; decide, next_of (by decide +kernel)⟩
/-- A running slot before a control word, before the arithmetic word of its bundle, and an event that is due. -/
theorem wit_step : (let s := stC []; s.events = [] ∧ s.turn ∈ [0, 2, 4, 6] ∧ s.core.hvNow = false ∧ rollsBack s.core = false ∧ heldBack false s = false ∧ heldBack true s = false ∧ s.core.slot.active = true ∧ s.core.slot.halted = false ∧ s.core.slot.trapWait = none ∧ s.core.slot.backlog = [] ∧ s.core.slot.waitC = none ∧
      s.core.slot.pc.toNat < 0x40000 ∧ s.core.slot.skipC = false) ∧
    (let s : State := { stC [] with core := { Core.reset 0 with slot := { slot0 with fetched := [(0, row [])] } } }
     lineHeld s.core.slot = true ∧ bundleAt s s.core.slot.pc = some (0, 0) ∧ decodeControl (isMem s.core.id) 0 0 = .ok .cnop) ∧
    (let s := stA (.vadd (.w 5) (.q 0) (.w 6) .i32) []; s.core.slot.backlog = [ent (.vadd (.w 5) (.q 0) (.w 6) .i32)] ∧ s.core.slot.waitA = none ∧
      decodeArith (ent (.vadd (.w 5) (.q 0) (.w 6) .i32)).word = .ok (.vadd (.w 5) (.q 0) (.w 6) .i32)) ∧
    encode (.revocation 0) = none := by decide +kernel

end Sys2Proof.Tests
end

section
/-! PROOFS. What reset leaves (O58). -/

namespace Sys2Proof.Machine

/-- A narrower 0 fills a row with zeros. -/
theorem setWidth_zero_row (n : Nat) : (0 : BitVec n).setWidth 512 = (0 : Row) := by simp

/-- Each of these control registers reads as the row 0 after reset (R132). -/
theorem creg_reset_zero (r : CReg)
    (h : r ∈ [CReg.cycle, .fpm, .mstat, .scla, .sclb, .cone, .lend, .grp0, .grp1, .grp2, .grp3, .wb, .pb, .tagsel, .tagent]) :
    creg State.reset r = 0 := by
  cases r with
  | cycle => exact setWidth_zero_row 64
  | cone => rfl
  | tagent => exact setWidth_zero_row 128
  | fpm | mstat | scla | sclb | lend | grp0 | grp1 | grp2 | grp3 | wb | pb | tagsel => exact setWidth_zero_row 32
  | _ => simp at h

/-- Settles O58: the registers that read 0 by `creg_reset_zero`, every other field and table by its value in `State.reset`. -/
theorem resetState : Obligations.ResetState := by
  unfold Obligations.ResetState
  exact ⟨rfl, rfl, rfl, rfl, rfl, rfl, rfl, rfl, rfl, rfl, rfl, rfl, rfl, fun _ => rfl, fun _ _ _ => rfl, rfl, fun _ => rfl, fun _ => rfl,
    rfl, rfl, creg_reset_zero, rfl, rfl, rfl⟩

end Sys2Proof.Machine
end

section
/-! PROOFS. The harvest slot of a core that runs a pair has no turn (R362), which the statement about a step does not
exclude (O59). -/

namespace Sys2Proof.Machine

/-- A kernel that runs on pairs of cores of partition 0 (R362). -/
def pairedKernel : Kern :=
  { ref := ⟨0, 0, 0⟩, proc := 0, part := 0, launch := true, compute := true, pair := true, module := 0, groups := [], dctLo := 0, dctHi := 0,
    cap := 0, charged := 0, tlimit := 0, began := 0, sig := false, sigAddr := 0, sigVal := 0 }

/-- The harvest slot of a core of a pair is current and active, before a fetched `cnop` at PC 0. -/
def harvestOfPair : State :=
  { State.reset with
    core := { Core.reset 0 with hvNow := true, slot := { Slot.reset with active := true, fetched := [(0, 0)] } }
    kerns := [pairedKernel] }

/-- The PC of the current slot in a next state. -/
def pcNext : Out → Option Word
  | .next t => some t.core.slot.pc
  | _ => none

/-- The slot is passed over: its PC stays (R362). -/
theorem harvestOfPair_stays : pcNext (step harvestOfPair) = some 0 := by decide +kernel

/-- Refutes O59: in `harvestOfPair` every premise holds (no event, a turn of the slots, no revocation, no rollback, neither
stream held back, a fetched word that decodes to `cnop`), but the core runs a pair, so that its harvest slot has no turn
(R362): the step leaves its PC at 0, where exec of `cnop` moves it to 8. -/
theorem not_stepRuns : ¬ Obligations.StepRuns := by
  unfold Obligations.StepRuns
  intro h
  have runs := ((h harvestOfPair .cnop).1 rfl (by decide) (.inr rfl) rfl rfl rfl rfl).1 0 0 (.inl rfl) (by decide +kernel) rfl (by decide)
    (by decide) rfl (by decide +kernel) (by decide +kernel)
  have moved := (congrArg pcNext runs).symm.trans harvestOfPair_stays
  revert moved
  decide +kernel

end Sys2Proof.Machine
end

section
/-! PROOFS. Where the arithmetic stream waits, and where it traps WIN (O13). -/

namespace Sys2Proof.Machine

/-! ### The first wait of a list -/

@[simp] theorem firstWait_nil : firstWait [] = 0 := rfl
@[simp] theorem firstWait_zero_cons (l : List Nat) : firstWait (0 :: l) = firstWait l := rfl
theorem firstWait_cons_pos {n : Nat} (l : List Nat) (h : n ≠ 0) : firstWait (n :: l) = n := by
  cases n with
  | zero => exact absurd rfl h
  | succ n => rfl

/-- A list of waits that holds only 0 waits for nothing. -/
theorem firstWait_eq_zero {l : List Nat} (h : ∀ n ∈ l, n = 0) : firstWait l = 0 := by
  induction l with
  | nil => rfl
  | cons n l ih =>
    obtain rfl := h n (by simp)
    exact ih fun m hm => h m (by simp [hm])

/-- A list of waits that holds a wait w, and beside it only 0, waits with w. -/
theorem firstWait_eq {l : List Nat} {w : Nat} (hw : w ∈ l) (h : ∀ n ∈ l, n = 0 ∨ n = w) : firstWait l = w := by
  induction l with
  | nil => simp at hw
  | cons n l ih =>
    by_cases hn : n = 0
    · subst hn
      by_cases hl : w ∈ l
      · exact ih hl fun m hm => h m (by simp [hm])
      · obtain rfl : w = 0 := by simpa [hl] using hw
        exact firstWait_eq_zero fun m hm => (h m (by simp [hm])).elim id id
    · rw [firstWait_cons_pos l hn]
      exact (h n (by simp)).resolve_left hn

/-! ### Reading every source -/

/-- What is read of a list of sources is read of one of them, as the k-th of its kind (R16). -/
theorem mem_readAll {α : Type} {rd : Opnd → Nat → α} {os seen : List Opnd} {x : α} (h : x ∈ readAll rd os seen) :
    ∃ o ∈ os, ∃ k, k < seen.count o + os.count o ∧ x = rd o k := by
  induction os generalizing seen with
  | nil => simp [readAll] at h
  | cons o os ih =>
    rw [readAll, List.mem_cons] at h
    rcases h with h | h
    · exact ⟨o, by simp, seen.count o, by simp, h⟩
    · obtain ⟨p, hp, k, hk, hx⟩ := ih h
      refine ⟨p, by simp [hp], k, ?_, hx⟩
      rw [List.count_cons] at hk ⊢
      omega

/-- Every source is read. -/
theorem readAll_mem {α : Type} (rd : Opnd → Nat → α) {os : List Opnd} (seen : List Opnd) {o : Opnd} (h : o ∈ os) :
    ∃ k, rd o k ∈ readAll rd os seen := by
  induction os generalizing seen with
  | nil => simp at h
  | cons p os ih =>
    rw [List.mem_cons] at h
    rcases h with rfl | h
    · exact ⟨_, by rw [readAll]; exact List.mem_cons_self ..⟩
    · obtain ⟨k, hk⟩ := ih (p :: seen) h
      exact ⟨k, by rw [readAll]; exact List.mem_cons_of_mem _ hk⟩

/-! ### The waits of an arithmetic word -/

/-- An arithmetic source is there already, unless it is a queue or a channel (R15, R26). -/
theorem waitSrcA_other {c : Core} {o : Opnd} {k : Nat} (hq : ∀ n, o ≠ .q n) (hc : ∀ n, o ≠ .c n) : waitSrcA c o k = 0 := by
  cases o with
  | q n => exact absurd rfl (hq n)
  | c n => exact absurd rfl (hc n)
  | _ => rfl

/-- An empty queue that an arithmetic word reads gives code 2, an empty channel the wait outside the table (R15, R26, R28). -/
theorem waitSrcA_emptyQueue {c : Core} {n : Fin 4} {k : Nat} (h : queueOf c.slot n = []) : waitSrcA c (.q n) k = 2 := by
  have h' : qEnt c.slot n.val k = none := by
    unfold qEnt
    rw [show c.slot.queues[n.val]?.getD [] = [] from h]
    rfl
  simp only [waitSrcA, h']
theorem waitSrcA_emptyChan {c : Core} {n : Fin 4} {k : Nat} (h : chanOf c n = []) : waitSrcA c (.c n) k = 100 := by
  have h' : c.chans[n.val] = [] := by simpa [chanOf] using h
  simp [waitSrcA, h']

/-- With no late write in flight nothing waits for one (R20). -/
theorem pendingRow_landed {c : Core} (h : c.late = []) (n : Nat) : c.pendingRow n = false := by simp [Core.pendingRow, h]
theorem pendingLoc_landed {c : Core} (h : c.late = []) (l : Loc) : pendingLoc c l = false := by
  cases l <;> simp [pendingLoc, Core.pendingRow, Core.pendingO, h]

/-- With no late write in flight an arithmetic word waits for its sources, then for its destination (R15, R26, R28). -/
theorem aWait_landed {c : Core} (i : Instr) (a : AOps) (h : c.late = []) :
    aWait c i a = if firstWait (readAll (waitSrcA c) a.srcs []) = 0 then (if fullQ c.slot a.dst then 3 else 0)
      else firstWait (readAll (waitSrcA c) a.srcs []) := by
  have hl : (locsOf c.slot a.srcs ++ (dstLoc c.slot a c.slot.rep).toList).any (pendingLoc c) = false :=
    List.any_eq_false.2 fun l _ => by simp [pendingLoc_landed h]
  unfold aWait
  dsimp only
  rw [hl, pendingRow_landed h]
  simp only [Bool.and_false, Bool.or_false, Bool.false_eq_true, if_false]
  split
  · next h0 => rw [if_pos h0]
  · next h0 => rw [if_neg h0]

/-- A late write is pending to a window row that the word reads, or writes in this repetition (R20). -/
theorem aWait_pending {c : Core} (i : Instr) (a : AOps) {k : Fin 96} (h : .w k ∈ a.srcs ∨ (a.dst = some (.w k) ∧ dstShift a c.slot.rep = 0))
    (hp : c.pendingRow (c.slot.wb + k.val) = true) : aWait c i a = 100 := by
  have hl : Loc.reg (c.slot.wb + k.val) ∈ locsOf c.slot a.srcs ++ (dstLoc c.slot a c.slot.rep).toList := by
    rw [List.mem_append]
    rcases h with h | ⟨h, h0⟩
    · exact .inl (List.mem_filterMap.2 ⟨_, h, rfl⟩)
    · exact .inr (by simp [dstLoc, h, h0])
  have ha : (locsOf c.slot a.srcs ++ (dstLoc c.slot a c.slot.rep).toList).any (pendingLoc c) = true :=
    List.any_eq_true.2 ⟨_, hl, hp⟩
  unfold aWait
  dsimp only
  rw [ha]
  rfl

/-- The queues that the word reads are empty, and it reads no channel (R15, R28). -/
theorem aWait_emptyQueues {c : Core} (i : Instr) (a : AOps) (h : c.late = []) (he : ∃ k : Fin 4, .q k ∈ a.srcs)
    (hq : ∀ k : Fin 4, .q k ∈ a.srcs → queueOf c.slot k = []) (hc : ∀ k : Fin 4, .c k ∉ a.srcs) : aWait c i a = 2 := by
  obtain ⟨n, hn⟩ := he
  obtain ⟨k, hk⟩ := readAll_mem (waitSrcA c) [] hn
  rw [waitSrcA_emptyQueue (hq n hn)] at hk
  have first : firstWait (readAll (waitSrcA c) a.srcs []) = 2 := by
    refine firstWait_eq hk fun x hx => ?_
    obtain ⟨o, ho, j, -, rfl⟩ := mem_readAll hx
    by_cases hqo : ∃ m, o = .q m
    · obtain ⟨m, rfl⟩ := hqo
      exact .inr (waitSrcA_emptyQueue (hq m ho))
    · exact .inl (waitSrcA_other (fun m e => hqo ⟨m, e⟩) (fun m e => hc m (e ▸ ho)))
  rw [aWait_landed i a h, first]
  rfl

/-- The channels that the word reads are empty, and it reads no queue (R26, R28). -/
theorem aWait_emptyChans {c : Core} (i : Instr) (a : AOps) (h : c.late = []) (he : ∃ k : Fin 4, .c k ∈ a.srcs)
    (hc : ∀ k : Fin 4, .c k ∈ a.srcs → chanOf c k = []) (hq : ∀ k : Fin 4, .q k ∉ a.srcs) : aWait c i a = 100 := by
  obtain ⟨n, hn⟩ := he
  obtain ⟨k, hk⟩ := readAll_mem (waitSrcA c) [] hn
  rw [waitSrcA_emptyChan (hc n hn)] at hk
  have first : firstWait (readAll (waitSrcA c) a.srcs []) = 100 := by
    refine firstWait_eq hk fun x hx => ?_
    obtain ⟨o, ho, j, -, rfl⟩ := mem_readAll hx
    by_cases hco : ∃ m, o = .c m
    · obtain ⟨m, rfl⟩ := hco
      exact .inr (waitSrcA_emptyChan (hc m ho))
    · exact .inl (waitSrcA_other (fun m e => hq m (e ▸ ho)) (fun m e => hco ⟨m, e⟩))
  rw [aWait_landed i a h, first]
  rfl

theorem fullQ_of_length {x : Slot} {k : Fin 4} (h : 16 ≤ (queueOf x k).length) : fullQ x (some (.q k)) = true := by
  simpa [fullQ, queueOf] using h

/-- The queue that the word writes is full, and it reads neither queue nor channel (R15, R28). -/
theorem aWait_fullQueue {c : Core} (i : Instr) (a : AOps) (h : c.late = []) {k : Fin 4} (hd : a.dst = some (.q k))
    (hf : 16 ≤ (queueOf c.slot k).length) (hq : ∀ n : Fin 4, .q n ∉ a.srcs) (hc : ∀ n : Fin 4, .c n ∉ a.srcs) : aWait c i a = 3 := by
  have h0 : firstWait (readAll (waitSrcA c) a.srcs []) = 0 := firstWait_eq_zero fun x hx => by
    obtain ⟨o, ho, j, -, rfl⟩ := mem_readAll hx
    exact waitSrcA_other (fun m e => hq m (e ▸ ho)) (fun m e => hc m (e ▸ ho))
  rw [aWait_landed i a h, h0, hd]
  simp [fullQ_of_length hf]

/-! ### WIN -/

/-- An arithmetic word with a window operand, and a source or the destination of it beyond WL (R18). -/
theorem any_beyond {x : Slot} {os : List Opnd} {k : Fin 96} (h : .w k ∈ os) (hb : x.wl ≤ k.val) : os.any (beyond x) = true :=
  List.any_eq_true.2 ⟨_, h, by simpa [beyond] using hb⟩

/-- A word with a channel among its sources is a streamed form (R26). -/
theorem streamed_of_mem {os : List Opnd} {c : Fin 4} (h : .c c ∈ os) : streamed os = true := List.any_eq_true.2 ⟨_, h, rfl⟩

/-- Where the row D of this repetition lies beyond WL, a streamed form traps WIN with REASON 1 and the repetition, whatever it
would wait for (R27). -/
theorem arith_far {i : Instr} {f : BEnt → Row → List Row → State → ARes} {s : State} {e : BEnt} {a : AOps}
    (h : s.core.slot.backlog.head? = some e) (ha : aOps i = some a) (hf : farD s.core.slot a = true) :
    arith i f s = trapA s (word1Of i) cWIN (1 <<< 19 ||| s.core.slot.rep <<< 9) 0 := by
  unfold arith
  cases hb : s.core.slot.backlog with
  | nil => simp [hb] at h
  | cons e' r =>
    dsimp only
    rw [hb, ha]
    simp only [hf, if_true]

/-- Settles O13: every arithmetic word takes the course of `arith`, which stalls it with the code of `aWait`; what `aWait` is
in each case is one of the lemmas above. -/
theorem arithmeticStalls : Obligations.ArithmeticStalls := by
  unfold Obligations.ArithmeticStalls
  intro s e i a he ha
  obtain ⟨f, hf, -⟩ := arith_exec i a ha
  have waits : farD s.core.slot a = false → ∀ n, n ≠ 0 → aWait s.core i a = n → exec i s = stallA s n := by
    intro hd n hn hw
    obtain ⟨m, rfl⟩ := Nat.exists_eq_succ_of_ne_zero hn
    rw [hf, arith_wait he ha hd hw]
  refine ⟨waits, fun hd => ⟨fun k hk hp => ?_, fun hl => ⟨fun hq hn hc => ?_, fun hc hn hq => ?_, fun k hk hn hq hc => ?_⟩⟩,
    fun hd hw k hk hb => ?_, fun k hk hacc hc hb => ?_⟩
  · exact waits hd 100 (by decide) (aWait_pending i a hk hp)
  · exact waits hd 2 (by decide) (aWait_emptyQueues i a hl hq hn hc)
  · exact waits hd 100 (by decide) (aWait_emptyChans i a hl hc hn hq)
  · exact waits hd 3 (by decide) (aWait_fullQueue i a hl hk hn hq hc)
  · rw [hf]
    refine arith_win he ha hd hw (any_beyond (k := k) ?_ hb)
    rcases hk with hk | hk <;> simp [hk]
  · obtain ⟨c, hc⟩ := hc
    rw [hf]
    exact arith_far he ha (by simpa [farD, hk, streamed_of_mem hc, hacc] using hb)

end Sys2Proof.Machine
end

section
/-! PROOFS. `eret`: its wait, its trap, and what its return leaves (O22). -/

namespace Sys2Proof.Machine

/-! ### The pieces of a return -/

/-- The header row that an `eret` goes by: the one it has read, else the one that stands (R11, R128). -/
def rowRead (s : State) : Row := s.core.slot.eretRow.getD s.core.hdr

/-- The header row with IT and SKIP clear (R275). -/
def clearedHdr (h : Row) : Row := setIT (setLane h 14 (lane h 14 &&& 0x7FFFFFFF)) false

/-- The resume PCs of the two streams in a header row. -/
def resumeC (g : Row) : Word := lane g 2 &&& ~~~(7 : Word)
def resumeA (g : Row) : Word := lane g 3 &&& ~~~(7 : Word)

/-- SKIP, and the stream whose trap the row records (R264, R273). -/
def skipOf (g : Row) : Bool := (lane g 14).getLsbD 31
def ariOf (g : Row) : Bool := (lane g 4).getLsbD 8

/-- The bundles that run again: those set aside, or else those from EPC-A up to EPC-C, at most 32 (R275). -/
def runsOnceMore (s : State) (g : Row) : List BEnt :=
  match keepOf s.core.slot g with
  | some a => a.backlog
  | none => if (resumeC g - resumeA g).toNat / 8 ≤ 32 then storeBacklog s (resumeA g) ((resumeC g - resumeA g).toNat / 8) else []

/-- The slot after the return, before a window change takes effect (R275). -/
def resumedSlot (s : State) (g : Row) : Slot :=
  let x := s.core.slot
  let keep := keepOf x g
  let old := runsOnceMore s g
  { x.goto (resumeC g) with
    backlog := dropLone (if skipOf g && ariOf g then skipFirst old else old), winNext := keep.bind (fun a => a.winNext), aside := none,
    skipC := (skipOf g && !ariOf g) || keep.any (fun a => a.skipC),
    skipA := (skipOf g && ariOf g && (resumeA g == resumeC g && old.isEmpty)) || keep.any (fun a => a.skipA),
    retry := runsAgain s g (resumeC g) || keep.any (fun a => a.retry),
    gang := (begunAt x (resumeC g)).1, sendWait := (begunAt x (resumeC g)).2 }

/-- The range registrations that the return frees. -/
def leftRegs (s : State) (g : Row) : List (Nat × Nat) :=
  if (begunAt s.core.slot (resumeC g)).1 = .idle then s.core.slot.gangRegs else []

theorem returnTrap_eq (s : State) : returnTrap s =
    { rltDrop s (leftRegs s (rowRead s)) with
      core := { (s.core.setHdr (clearedHdr s.core.hdr)) with slot := applyWin (resumedSlot s (rowRead s)) } } := rfl

/-! ### What was set aside -/

theorem begunAt_some {x : Slot} {pc : Word} {d : Aside} (h : x.aside = some d) (h1 : d.epcC = pc ∧ d.wb = x.wb ∧ d.wl = x.wl) :
    begunAt x pc = (d.gang, d.sendWait) := by simp only [begunAt, h, if_pos h1]

theorem begunAt_none {x : Slot} {pc : Word} (h : ∀ d, ¬ (x.aside = some d ∧ d.epcC = pc ∧ d.wb = x.wb ∧ d.wl = x.wl)) :
    begunAt x pc = (.idle, none) := by
  unfold begunAt
  split
  · next d hd => exact if_neg fun h1 => h d ⟨hd, h1⟩
  · rfl

theorem keepOf_some {x : Slot} {g : Row} {d : Aside} (h : x.aside = some d)
    (h1 : d.wb = x.wb ∧ d.wl = x.wl ∧ d.epcC = lane g 2 ∧ d.epcA = lane g 3) : keepOf x g = some d := by
  simp only [keepOf, h, if_pos h1]

theorem keepOf_none {x : Slot} {g : Row}
    (h : ∀ d, x.aside = some d → ¬ (d.wb = x.wb ∧ d.wl = x.wl ∧ d.epcC = lane g 2 ∧ d.epcA = lane g 3)) : keepOf x g = none := by
  unfold keepOf
  split
  · next d hd => exact if_neg (h d hd)
  · rfl

/-! ### What the return leaves -/

theorem lane_setIT_false (h : Row) (j : Nat) (hj : j < 16) :
    lane (setIT h false) j = if j = 1 then lane h 1 &&& 0xFFBFFFFF else lane h j := by
  unfold setIT
  dsimp only
  rw [lane_setLane _ _ _ _ hj]
  by_cases h1 : j = 1
  · rw [if_pos h1.symm, if_pos h1]; rfl
  · rw [if_neg (Ne.symm h1), if_neg h1]

theorem lane_clearedHdr (h : Row) (j : Nat) (hj : j < 16) : lane (clearedHdr h) j =
    if j = 1 then lane h 1 &&& 0xFFBFFFFF else if j = 14 then lane h 14 &&& 0x7FFFFFFF else lane h j := by
  unfold clearedHdr
  rw [lane_setIT_false _ _ hj, lane_setLane _ _ _ _ hj, lane_setLane _ _ _ _ (by decide)]
  by_cases h14 : j = 14
  · subst h14; rfl
  · rw [if_neg h14, if_neg (Ne.symm h14)]; rfl

/-- Range registrations are freed in the clusters, whatever the current core is. -/
theorem rltDrop_with_core (s : State) (c : Core) (es : List (Nat × Nat)) :
    rltDrop { s with core := c } es = { rltDrop s es with core := c } := by
  induction es generalizing s with
  | nil => rfl
  | cons e es ih => exact ih (modCl s e.1 (fun c => { c with rlt := c.rlt.filter (fun t => t.idx != e.2) }))

theorem storeBacklog_congr {s t : State} (h : bundleAt s = bundleAt t) (pc : Word) (n : Nat) : storeBacklog s pc n = storeBacklog t pc n := by
  induction n generalizing pc with
  | zero => rfl
  | succ n ih => simp only [storeBacklog, h, ih]

section
variable (s : State)

theorem returnTrap_row_hdr : (returnTrap s).core.row s.core.slot.wb = clearedHdr s.core.hdr := row_setRow_self _ _ _

theorem returnTrap_row_other {q : Nat} (h : q ≠ s.core.slot.wb) : (returnTrap s).core.row q = s.core.row q :=
  row_setRow_other _ _ _ _ (Ne.symm h)

theorem returnTrap_core : (returnTrap s).core = { s.core with slot := (returnTrap s).core.slot, regs := (returnTrap s).core.regs } := rfl

theorem returnTrap_slot : (returnTrap s).core.slot = { resumedSlot s (rowRead s) with
    wb := (returnTrap s).core.slot.wb, wl := (returnTrap s).core.slot.wl, winNext := (returnTrap s).core.slot.winNext } :=
  applyWin_eq _

theorem returnTrap_begun {d : Aside} (h : s.core.slot.aside = some d)
    (h1 : d.epcC = resumeC (rowRead s) ∧ d.wb = s.core.slot.wb ∧ d.wl = s.core.slot.wl) :
    (returnTrap s).core.slot.gang = d.gang ∧ (returnTrap s).core.slot.sendWait = d.sendWait := by
  rw [returnTrap_slot]
  simp only [resumedSlot, begunAt_some h h1, and_self]

theorem returnTrap_not_begun
    (h : ∀ d, ¬ (s.core.slot.aside = some d ∧ d.epcC = resumeC (rowRead s) ∧ d.wb = s.core.slot.wb ∧ d.wl = s.core.slot.wl)) :
    (returnTrap s).core.slot.gang = .idle ∧ (returnTrap s).core.slot.sendWait = none := by
  rw [returnTrap_slot]
  simp only [resumedSlot, begunAt_none h, and_self]

/-- Where no `mgang` stands begun at the resume PC, the registrations of one are freed (R225). -/
theorem returnTrap_frees
    (h : ∀ d, (s.core.slot.aside = some d ∧ d.epcC = resumeC (rowRead s) ∧ d.wb = s.core.slot.wb ∧ d.wl = s.core.slot.wl) → d.gang = .idle) :
    returnTrap s = { rltDrop s s.core.slot.gangRegs with core := (returnTrap s).core } := by
  have idle : (begunAt s.core.slot (resumeC (rowRead s))).1 = .idle := by
    by_cases hb : ∃ d, s.core.slot.aside = some d ∧ d.epcC = resumeC (rowRead s) ∧ d.wb = s.core.slot.wb ∧ d.wl = s.core.slot.wl
    · obtain ⟨d, hd, h1⟩ := hb
      rw [begunAt_some hd h1]
      exact h d ⟨hd, h1⟩
    · rw [begunAt_none fun d hd => hb ⟨d, hd⟩]
  rw [returnTrap_eq]
  simp only [leftRegs, idle, if_true]

/-- Where one does, it goes on, and nothing outside the core changes (R225). -/
theorem returnTrap_goes_on {d : Aside} (h : s.core.slot.aside = some d)
    (h1 : d.epcC = resumeC (rowRead s) ∧ d.wb = s.core.slot.wb ∧ d.wl = s.core.slot.wl) (hg : d.gang ≠ .idle) :
    SameOutside s (returnTrap s) := by
  unfold SameOutside
  rw [returnTrap_eq]
  simp only [leftRegs, begunAt_some h h1, if_neg hg]
  rfl

theorem returnTrap_retry (hc : lane (rowRead s) 4 &&& 0x1FF = 0x0E) (hs : skipOf (rowRead s) = false)
    (hb : ∃ w1, bundleAt s (resumeC (rowRead s)) = some (lane (rowRead s) 7, w1)) : (returnTrap s).core.slot.retry = true := by
  obtain ⟨w1, hb⟩ := hb
  have again : runsAgain s (rowRead s) (resumeC (rowRead s)) = true := by
    unfold skipOf at hs
    unfold runsAgain
    rw [hc, hs, hb]
    simp [cCPF]
  rw [returnTrap_slot]
  simp [resumedSlot, again]

theorem returnTrap_kept {d : Aside} (h : s.core.slot.aside = some d)
    (h1 : d.wb = s.core.slot.wb ∧ d.wl = s.core.slot.wl ∧ d.epcC = lane (rowRead s) 2 ∧ d.epcA = lane (rowRead s) 3) :
    let g := rowRead s
    (returnTrap s).core.slot.backlog = dropLone (if skipOf g && ariOf g then skipFirst d.backlog else d.backlog) ∧
    (returnTrap s).core.slot.skipC = (skipOf g && !ariOf g || d.skipC) ∧
    (returnTrap s).core.slot.skipA = (skipOf g && ariOf g && resumeA g == resumeC g && d.backlog.isEmpty || d.skipA) := by
  dsimp only
  rw [returnTrap_slot]
  simp [resumedSlot, runsOnceMore, keepOf_some h h1, Bool.and_assoc]

theorem returnTrap_afresh
    (h : ∀ d, s.core.slot.aside = some d →
      ¬ (d.wb = s.core.slot.wb ∧ d.wl = s.core.slot.wl ∧ d.epcC = lane (rowRead s) 2 ∧ d.epcA = lane (rowRead s) 3)) :
    let g := rowRead s
    let n := (resumeC g - resumeA g).toNat / 8
    let fresh := if n ≤ 32 then storeBacklog s (resumeA g) n else []
    (returnTrap s).core.slot.backlog = dropLone (if skipOf g && ariOf g then skipFirst fresh else fresh) ∧
    (returnTrap s).core.slot.skipC = (skipOf g && !ariOf g) ∧
    (returnTrap s).core.slot.skipA = (skipOf g && ariOf g && resumeA g == resumeC g && fresh.isEmpty) ∧
    (returnTrap s).core.slot.wb = s.core.slot.wb ∧ (returnTrap s).core.slot.wl = s.core.slot.wl ∧ (returnTrap s).core.slot.winNext = none := by
  have hk := keepOf_none h
  have same : (returnTrap s).core.slot = resumedSlot s (rowRead s) :=
    applyWin_none _ (show (keepOf s.core.slot (rowRead s)).bind (fun a => a.winNext) = none by rw [hk]; rfl)
  dsimp only
  rw [same]
  simp [resumedSlot, runsOnceMore, hk, Bool.and_assoc, Slot.goto]

end

/-! ### The wait of `eret` -/

/-- The state in which an `eret` has read the row o. -/
def withRead (s : State) (o : Option Row) : State := s.modS (fun x => { x with eretRow := o })

/-- The effect of `eret` once its bundle has completed. -/
def finishEret (s : State) : Out := .next (returnTrap s)

/-- Where the trap of IT clear does not apply, `eret` waits as a word does that ends its bundle (R128). -/
theorem execEret_waits {s : State} (h : s.core.slot.ctlIssued = true ∨ cWait s.core { moves := true } ≠ 0) :
    exec .eret s = afterBundle { moves := true } finishEret s := by
  rw [exec_eret]
  unfold execEret readEret
  rcases h with h | h
  · simp only [h, Bool.not_true, Bool.false_and, Bool.false_eq_true, if_false]
    rfl
  · have hb : (cWait s.core { moves := true } == 0) = false := by simpa using h
    simp only [hb, Bool.and_false, Bool.false_and, Bool.false_eq_true, if_false]; rfl

/-- With IT set and no wait, `eret` reads the header row first (R11). -/
theorem execEret_reads {s : State} (h1 : s.core.slot.ctlIssued = false) (h2 : cWait s.core { moves := true } = 0)
    (h3 : modeIT (modeOf s.core.hdr) = true) :
    exec .eret s = afterBundle { moves := true } finishEret (withRead s (some s.core.hdr)) := by
  rw [exec_eret]
  unfold execEret readEret
  simp only [h1, h2, h3, Bool.not_false, Bool.not_true, Bool.true_and, Bool.and_false, Bool.false_eq_true, if_false, beq_self_eq_true, if_true]
  rfl

theorem afterBundle_waits {p : CSpec} {fin : State → Out} {s : State} (h : s.core.slot.ctlIssued = false) (hw : cWait s.core p ≠ 0) :
    afterBundle p fin s = stallC s (cWait s.core p) := by
  unfold afterBundle
  dsimp only
  rw [if_neg (by simp [h])]
  split
  · next e => exact absurd e hw
  · rfl

/-- Issued, it waits for the bundles before it, then for late writes to the header row, and then acts (R128, R257). -/
theorem afterBundle_issued {p : CSpec} {fin : State → Out} {s : State} (h : s.core.slot.ctlIssued = true) :
    afterBundle p fin s = if s.core.slot.backlog = [] then (if s.core.pendingRow s.core.slot.wb = true then stallC s 100 else fin s)
      else stallC s 1 := by
  unfold afterBundle
  simp only [h, if_true]
  cases s.core.slot.backlog <;> simp [outside]

/-- The slot once the bundle at the PC has joined the backlog, for a control word that waits for it (R128). -/
def joinedSlot (s : State) : Slot := keepLine s (pushBundle s { s.core.slot with waitA := none } [])

theorem joinedSlot_eq {s : State} {w0 w1 : Word} (hb : bundleAt s s.core.slot.pc = some (w0, w1)) (hu : uF w0 = false) :
    joinedSlot s = { keepLine s s.core.slot with
      waitA := none, skipA := false,
      backlog := s.core.slot.backlog ++ [{ pc := s.core.slot.pc, word := w1, lone := false, old := [], skip := s.core.slot.skipA }] } := by
  unfold joinedSlot pushBundle
  simp only [hb, hu, Bool.false_and, Bool.false_eq_true, if_false]
  rfl

/-- A control word that waits for its own bundle acts at once where that is an idle one and the first outstanding (R128). -/
def joinThen (fin : State → Out) (s : State) (y : Slot) : Out :=
  match y.backlog with
  | [] => fin s
  | e :: r => if r.isEmpty && e.word == 0 && !e.lone then fin s else .next (s.modS (fun _ => { y with ctlIssued := true, waitC := some 1 }))

theorem afterBundle_free {p : CSpec} {fin : State → Out} {s : State} (h : s.core.slot.ctlIssued = false) (hw : cWait s.core p = 0) :
    afterBundle p fin s = joinThen fin s (joinedSlot s) := by
  unfold afterBundle
  dsimp only
  rw [if_neg (by simp [h]), hw]
  rfl

/-- A bundle that is neither idle nor the first is issued before its control word acts (R128). -/
theorem afterBundle_joins {p : CSpec} {fin : State → Out} {s : State} {w0 w1 : Word} (h : s.core.slot.ctlIssued = false) (hw : cWait s.core p = 0)
    (hb : bundleAt s s.core.slot.pc = some (w0, w1)) (hu : uF w0 = false) (hn : w1 ≠ 0 ∨ s.core.slot.backlog ≠ []) :
    afterBundle p fin s = .next (s.modS (fun _ => { joinedSlot s with ctlIssued := true, waitC := some 1 })) := by
  rw [afterBundle_free h hw, joinedSlot_eq hb hu]
  unfold joinThen
  cases hbl : s.core.slot.backlog with
  | nil =>
    have h1 : w1 ≠ 0 := by simpa [hbl] using hn
    exact if_neg (by simpa using h1)
  | cons e r => simp

/-- An idle bundle, the first outstanding, is none to wait for (R128). -/
theorem afterBundle_idle {p : CSpec} {fin : State → Out} {s : State} {w0 : Word} (h : s.core.slot.ctlIssued = false) (hw : cWait s.core p = 0)
    (hb : bundleAt s s.core.slot.pc = some (w0, 0)) (hu : uF w0 = false) (hn : s.core.slot.backlog = []) : afterBundle p fin s = fin s := by
  rw [afterBundle_free h hw, joinedSlot_eq hb hu, hn]
  rfl

/-- Settles O22: `execEret_waits` and `execEret_reads` say which course `eret` takes, the lemmas about `afterBundle` where it
ends, and those about `returnTrap` what a return leaves; the row that it goes by is read into the slot first, which nothing
else looks at. -/
theorem trapReturn : Obligations.TrapReturn := by
  unfold Obligations.TrapReturn
  intro s c7 returned
  have back : ∀ o, returned (o.getD s.core.hdr) (returnTrap (withRead s o)) := by
    intro o
    have stored : ∀ pc n, storeBacklog (withRead s o) pc n = storeBacklog s pc n := storeBacklog_congr rfl
    refine ⟨fun h => ?_, fun d h hg => ?_, fun d h => ?_, fun h => ?_, returnTrap_core _, fun q hq => returnTrap_row_other _ hq,
      fun j hj => ?_, ?_, ?_, fun hc hs hb => ?_, fun d hd h => ?_, fun h => ?_⟩
    · exact (returnTrap_frees (withRead s o) h).trans (by rw [← rltDrop_with_core, ← rltDrop_with_core]; rfl)
    · exact returnTrap_goes_on (withRead s o) h.1 h.2 hg
    · exact returnTrap_begun (withRead s o) h.1 h.2
    · exact returnTrap_not_begun (withRead s o) h
    · rw [show (returnTrap (withRead s o)).core.row s.core.slot.wb = clearedHdr s.core.hdr from returnTrap_row_hdr (withRead s o)]
      exact lane_clearedHdr _ _ hj
    · rw [returnTrap_slot]; rfl
    · rw [returnTrap_slot]; rfl
    · exact returnTrap_retry (withRead s o) hc hs hb
    · exact returnTrap_kept (withRead s o) hd h
    · have := returnTrap_afresh (withRead s o) h
      simp only [stored] at this
      exact this
  refine ⟨fun h1 h2 => ?_, fun h1 h2 h3 => ?_, fun h1 h2 => ?_, fun h1 h2 h3 => ?_, fun w0 w1 h1 h2 h3 hb => ⟨fun hu hn => ?_, fun hu hw hn => ?_⟩,
    fun h1 h2 h3 => ⟨_, ?_, back s.core.slot.eretRow⟩⟩
  · rw [execEret_waits (.inr h2), afterBundle_waits h1 h2]
  · rw [exec_eret]
    simp only [execEret, h1, h2, h3, Bool.not_false, Bool.true_and, beq_self_eq_true, if_true]
    rfl
  · rw [execEret_waits (.inl h1), afterBundle_issued h1, if_neg h2]
  · rw [execEret_waits (.inl h1), afterBundle_issued h1, if_pos h2, if_pos h3]
  · have joins := afterBundle_joins (p := { moves := true }) (fin := finishEret) (s := withRead s (some s.core.hdr)) h1 h2 hb hu hn
    rw [joinedSlot_eq (s := withRead s (some s.core.hdr)) hb hu] at joins
    exact ⟨_, (execEret_reads h1 h2 h3).trans joins, rfl, rfl, rfl, rfl, List.map_append ..⟩
  · subst hw
    exact ⟨_, (execEret_reads h1 h2 h3).trans (afterBundle_idle (s := withRead s (some s.core.hdr)) h1 h2 hb hu hn), back (some s.core.hdr)⟩
  · rw [execEret_waits (.inl h1), afterBundle_issued h1, if_pos h2, if_neg (by simp [h3])]
    rfl

end Sys2Proof.Machine
end

section
/-! PROOFS. Fetch, stream deadlock and illegal words, and the wait of any control word (O40). -/

namespace Sys2Proof.Machine

/-! ### Steps of the core -/

/-- A slot once the line l, with the bytes r, is there for it: it takes the line if it runs at it and has not got it (R8). -/
def withLine (l : Nat) (r : Row) (y : Slot) : Slot :=
  if y.active && y.pc.toNat / 64 * 64 == l && !y.fetched.any (fun e => e.1 == l) then { y with fetched := [(l, r)] } else y

theorem withLine_eq (l : Nat) (r : Row) (y : Slot) : withLine l r y = { y with fetched := (withLine l r y).fetched } := by
  unfold withLine
  split <;> rfl

/-- A fetch takes the line of the PC from the instruction store into the slots of the cluster that ask for it (R8, R9). -/
theorem execFetch_line {s : State} (ha : s.core.slot.active = true) (hpc : s.core.slot.pc.toNat < pcLimit s.core.id)
    (hl : lineHeld s.core.slot = false) : ∃ t, exec .fetch s = .next t ∧ t = { s with core := t.core, peers := t.peers } ∧
      t.core = { s.core with slot := t.core.slot, alt := { s.core.alt with fetched := t.core.alt.fetched } } ∧
      t.core.slot = { s.core.slot with fetched := [(s.core.slot.pc.toNat / 64 * 64, storeLine s (s.core.slot.pc.toNat / 64 * 64))] } := by
  let l := s.core.slot.pc.toNat / 64 * 64
  let take := withLine l (storeLine s l)
  have hx : take s.core.slot = { s.core.slot with fetched := [(l, storeLine s l)] } := by
    unfold lineHeld at hl
    exact if_pos (by simp only [ha, l, hl, beq_self_eq_true, Bool.not_false, Bool.and_self])
  have ht : exec .fetch s =
      .next (mapCores s (fun c => if clIdx c.id = clIdx s.core.id then { c with slot := take c.slot, alt := take c.alt } else c)) := by
    rw [exec_fetch]
    unfold execFetch
    dsimp only
    rw [if_neg (by simp [ha]), if_neg (by omega)]
    rfl
  refine ⟨_, ht, rfl, ?_, ?_⟩
  · simp only [mapCores, if_true, take]
    rw [← withLine_eq]
  · simp only [mapCores, if_true, hx]
    rfl

theorem execFetch_beyond {s : State} (ha : s.core.slot.active = true) (hpc : pcLimit s.core.id ≤ s.core.slot.pc.toNat) :
    exec .fetch s = if gateC s.core.slot then stallC s 1 else .next (takeTrap s (mkTrap cADDR 0 s.core.slot.pc.toNat)) := by
  rw [exec_fetch]
  unfold execFetch
  dsimp only
  rw [if_neg (by simp [ha]), if_pos hpc]

/-- The code with which the arithmetic stream stalls: 1 where it has no bundle (R28). -/
theorem waitOfA_eq {x : Slot} {a : Nat} (h : (x.backlog = [] ∧ a = 1) ∨ (x.backlog ≠ [] ∧ x.waitA = some a)) : waitOfA x = some a := by
  unfold waitOfA
  rcases h with ⟨h, rfl⟩ | ⟨h, ha⟩
  · simp [h]
  · simp [h, ha]

theorem tableCode_some {n : Nat} (h1 : 1 ≤ n) (h2 : n ≤ 5) : tableCode (some n) = true := by simp [tableCode, h1, h2]

/-- Both streams of the slot stall with codes of the table: STRDL (R28, R29). -/
theorem execStrdl_raises {s : State} {c a : Nat} (h : s.core.slot.active = true) (hc : s.core.slot.waitC = some c)
    (ha : waitOfA s.core.slot = some a) (tc : tableCode (some c) = true) (ta : tableCode (some a) = true) :
    exec .strdl s = .next (takeTrap s (mkTrap cSTRDL (c <<< 9 ||| a <<< 13) 0)) := by
  rw [exec_strdl]
  unfold execStrdl
  dsimp only
  rw [hc, ha, h, tc, ta]
  rfl

/-! ### What a control word reads and writes -/

theorem mem_locsOf_append {x : Slot} {a b : List Opnd} {l : Loc} : l ∈ locsOf x (a ++ b) ↔ l ∈ locsOf x a ∨ l ∈ locsOf x b := by
  simp [locsOf, List.filterMap_append]

/-- The places that a control word writes are those of its destination, and the header row (R11, R122). -/
theorem cFoot_wr (x : Slot) (h : Row) (p : CSpec) : (cFoot x h p).wr = locsOf x p.dst.toList ++
    (if (!p.moves && (endTest h x.pc).1 != h) || p.hdrW || p.modeW then [.reg x.wb] else []) := by
  unfold cFoot
  cases p.dst <;> rfl

theorem cFoot_wrMode (x : Slot) (h : Row) (p : CSpec) :
    (cFoot x h p).wrMode = locsOf x p.dst.toList ++ (if p.modeW then [.reg x.wb] else []) := by
  unfold cFoot
  cases p.dst <;> rfl

/-- The end test, or the word itself, writes the header row (R11, R122). -/
def WritesHdr (c : Core) (p : CSpec) : Prop :=
  p.hdrW = true ∨ p.modeW = true ∨ (p.moves = false ∧ (endTest c.hdr c.slot.pc).1 ≠ c.hdr)

theorem mem_cFoot_rd {c : Core} {p : CSpec} {l : Loc} : l ∈ (cFoot c.slot c.hdr p).rd ↔ l = .reg c.slot.wb ∨ l ∈ locsOf c.slot p.srcs := by
  simp [cFoot]

theorem mem_cFoot_wr {c : Core} {p : CSpec} {l : Loc} :
    l ∈ (cFoot c.slot c.hdr p).wr ↔ l ∈ locsOf c.slot p.dst.toList ∨ (l = .reg c.slot.wb ∧ WritesHdr c p) := by
  unfold WritesHdr
  rw [cFoot_wr, List.mem_append]
  refine or_congr_right ?_
  by_cases hm : p.moves = true
  · cases p.hdrW <;> cases p.modeW <;> simp [hm]
  · by_cases he : (endTest c.hdr c.slot.pc).1 = c.hdr
    · cases p.hdrW <;> cases p.modeW <;> simp [hm, he]
    · cases p.hdrW <;> cases p.modeW <;> simp [hm, he]

theorem mem_cFoot_wrMode {c : Core} {p : CSpec} :
    .reg c.slot.wb ∈ (cFoot c.slot c.hdr p).wrMode ↔ p.modeW = true ∨ .reg c.slot.wb ∈ locsOf c.slot p.dst.toList := by
  rw [cFoot_wrMode, List.mem_append, or_comm]
  cases p.modeW <;> simp

/-- The word meets what a pending arithmetic word with the footprint f reads and writes (R11). -/
def Clashes (c : Core) (p : CSpec) (f : Footprint) : Prop :=
  (∃ l ∈ f.wr, l = .reg c.slot.wb ∨ l ∈ locsOf c.slot (p.srcs ++ p.dst.toList)) ∨
  (∃ l ∈ f.rd, l ∈ locsOf c.slot p.dst.toList ∨ (l = .reg c.slot.wb ∧ WritesHdr c p)) ∨
  (f.mode = true ∧ (p.modeW = true ∨ .reg c.slot.wb ∈ locsOf c.slot p.dst.toList)) ∨ (f.fpm = true ∧ p.fpm = true) ∨
  (f.mstat = true ∧ p.mstat = true)

theorem meets_iff {a b : List Loc} : meets a b = true ↔ ∃ l ∈ a, l ∈ b := by simp [meets]

/-- `conflicts` is that meeting (R11). -/
theorem conflicts_iff {c : Core} {p : CSpec} {f : Footprint} :
    conflicts (.reg c.slot.wb) f (cFoot c.slot c.hdr p) = true ↔ Clashes c p f := by
  have wr : (∃ l ∈ f.wr, l = .reg c.slot.wb ∨ l ∈ locsOf c.slot (p.srcs ++ p.dst.toList)) ↔
      (∃ l ∈ f.wr, l ∈ (cFoot c.slot c.hdr p).rd) ∨ (∃ l ∈ f.wr, l ∈ (cFoot c.slot c.hdr p).wr) := by
    rw [← exists_or]
    refine exists_congr fun l => ?_
    rw [← and_or_left]
    refine and_congr_right fun _ => ?_
    rw [mem_cFoot_rd, mem_cFoot_wr, mem_locsOf_append]
    tauto
  unfold conflicts Clashes
  rw [wr]
  simp only [Bool.or_eq_true, Bool.and_eq_true, meets_iff, List.contains_iff_mem, mem_cFoot_wrMode, mem_cFoot_wr]
  simp only [or_assoc]
  rfl

theorem arithBusy_iff {c : Core} {p : CSpec} :
    arithBusy c.slot (cFoot c.slot c.hdr p) = true ↔ ∃ e ∈ c.slot.backlog, Clashes c p (entFoot c.slot e) := by
  simp [arithBusy, conflicts_iff]

/-- The footprint of a pending word that is no streamed form (R11). -/
theorem entFoot_plain {x : Slot} {e : BEnt} {i : Instr} {a : AOps} (hl : e.lone = false) (hs : e.skip = false) (hd : decodeArith e.word = .ok i)
    (ha : aOps i = some a) (hst : streamed a.srcs = false) : entFoot x e =
      { rd := locsOf x a.srcs ++ (if a.readsD then locsOf x a.dst.toList else []), wr := locsOf x a.dst.toList, mode := usesMode i,
        fpm := usesFpm i, mstat := usesMstat i } := by
  have hw : dstLocs x a = locsOf x a.dst.toList := by
    unfold dstLocs
    split
    · next n h => simp [h, hst, locsOf, locOf]
    · next o h => simp [h]
    · next h => simp [h, locsOf]
  unfold entFoot
  simp only [hl, hs, Bool.or_self, Bool.false_eq_true, if_false, hd, footOf, ha, hw]

/-! ### Its wait -/

theorem gateC_eq_false {x : Slot} : gateC x = false ↔ x.backlog.length < 32 ∧ x.winNext = none := by simp [gateC]
theorem gateC_eq_true {x : Slot} : gateC x = true ↔ 32 ≤ x.backlog.length ∨ x.winNext ≠ none := by
  simp [gateC, Option.isSome_iff_ne_none]

/-- Nothing bars the word from its bundle: no late write to the header row, no run-ahead limit, no window change (R13, R257,
R259). -/
def MayBegin (c : Core) : Prop := c.pendingRow c.slot.wb = false ∧ c.slot.backlog.length < 32 ∧ c.slot.winNext = none

/-- A late write is pending to a place that it reads or writes (R20). -/
def Landing (c : Core) (p : CSpec) : Prop :=
  ∃ l ∈ locsOf c.slot (p.srcs ++ (if p.late then [] else p.dst.toList)), pendingLoc c l = true

/-- Every queue entry that it reads is there (R15). -/
def EntriesThere (c : Core) (p : CSpec) : Prop :=
  ∀ (n : Fin 4) (k : Nat), k < p.srcs.count (.q n) → ∃ r, (queueOf c.slot n)[k]? = some (.full r)

section
variable {c : Core} {p : CSpec}

theorem cWait_header (h : c.pendingRow c.slot.wb = true) : cWait c p = 100 := by
  unfold cWait
  dsimp only
  rw [if_pos h]
  rfl

theorem cWait_gate (h : c.pendingRow c.slot.wb = false) (hg : gateC c.slot = true) : cWait c p = 1 := by
  unfold cWait
  dsimp only
  rw [if_neg (by simp [h]), if_pos hg]

theorem cWait_busy (h : MayBegin c) (hb : ∃ e ∈ c.slot.backlog, Clashes c p (entFoot c.slot e)) : cWait c p = 5 := by
  obtain ⟨h1, h2⟩ := h
  unfold cWait
  dsimp only
  rw [if_neg (by simp [h1]), if_neg (by simp [gateC_eq_false.2 h2]), if_pos (arithBusy_iff.2 hb)]

/-- Where the header row has landed, a late write pending to a place of the word is one to a named place. -/
theorem landing_iff (h : c.pendingRow c.slot.wb = false) :
    ((cFoot c.slot c.hdr p).rd ++ (if p.late then [] else (cFoot c.slot c.hdr p).wr)).any (pendingLoc c) = true ↔ Landing c p := by
  have hdr : ∀ l, l = .reg c.slot.wb → pendingLoc c l = true → False := by
    rintro _ rfl hp
    exact absurd hp (by simp [pendingLoc, h])
  rw [List.any_eq_true]
  refine exists_congr fun l => and_congr_left fun hp => ?_
  rw [List.mem_append, mem_cFoot_rd, mem_locsOf_append]
  cases hl : p.late with
  | true =>
    simp only [if_true, List.not_mem_nil, or_false, locsOf, List.filterMap_nil]
    exact ⟨fun h => h.resolve_left fun e => hdr l e hp, .inr⟩
  | false =>
    simp only [Bool.false_eq_true, if_false, mem_cFoot_wr]
    exact ⟨fun h => h.elim (fun h => .inl (h.resolve_left fun e => hdr l e hp)) (fun h => .inr (h.resolve_right fun e => hdr l e.1 hp)),
      fun h => h.elim (fun h => .inl (.inr h)) (fun h => .inr (.inl h))⟩

theorem cWait_landing (h : MayBegin c) (hq : ∀ e ∈ c.slot.backlog, ¬ Clashes c p (entFoot c.slot e)) (hl : Landing c p) : cWait c p = 100 := by
  obtain ⟨h1, h2⟩ := h
  have hb : ¬ arithBusy c.slot (cFoot c.slot c.hdr p) = true := fun hb => by
    obtain ⟨e, he, hc⟩ := arithBusy_iff.1 hb
    exact hq e he hc
  unfold cWait
  dsimp only
  rw [if_neg (by simp [h1]), if_neg (by simp [gateC_eq_false.2 h2]), if_neg hb, if_pos ((landing_iff h1).2 hl)]
  rfl

/-- With none of these, it waits for its sources, then for its destination (R15). -/
theorem cWait_quiet (h : MayBegin c) (hq : ∀ e ∈ c.slot.backlog, ¬ Clashes c p (entFoot c.slot e)) (hl : ¬ Landing c p) :
    cWait c p = if firstWait (readAll (waitSrcC c) p.srcs []) = 0 then (if fullQ c.slot p.dst then 2 else 0)
      else firstWait (readAll (waitSrcC c) p.srcs []) := by
  obtain ⟨h1, h2⟩ := h
  have hb : ¬ arithBusy c.slot (cFoot c.slot c.hdr p) = true := fun hb => by
    obtain ⟨e, he, hc⟩ := arithBusy_iff.1 hb
    exact hq e he hc
  unfold cWait
  dsimp only
  rw [if_neg (by simp [h1]), if_neg (by simp [gateC_eq_false.2 h2]), if_neg hb, if_neg (fun hp => hl ((landing_iff h1).1 hp))]
  split
  · next h0 => rw [if_pos h0]
  · next h0 => rw [if_neg h0]

end

/-! ### The waits of its sources -/

theorem waitSrcC_there {c : Core} {p : CSpec} (h : EntriesThere c p) {o : Opnd} {k : Nat} (hk : k < p.srcs.count o) : waitSrcC c o k = 0 := by
  cases o with
  | q n =>
    obtain ⟨r, hr⟩ := h n k hk
    have hq : qEnt c.slot n.val k = some (.full r) := hr
    simp only [waitSrcC, hq]
  | _ => rfl

theorem firstWait_there {c : Core} {p : CSpec} (h : EntriesThere c p) : firstWait (readAll (waitSrcC c) p.srcs []) = 0 :=
  firstWait_eq_zero fun x hx => by
    obtain ⟨o, -, k, hk, rfl⟩ := mem_readAll hx
    exact waitSrcC_there h (by simpa using hk)

/-- Where no entry is reserved, a source that is not there is missing from an empty queue: code 3 (R15, R28). -/
theorem waitSrcC_full {c : Core} (h : ∀ n : Fin 4, ∀ e ∈ queueOf c.slot n, ∃ r, e = .full r) (o : Opnd) (k : Nat) :
    waitSrcC c o k = 0 ∨ waitSrcC c o k = 3 := by
  cases o with
  | q n =>
    cases he : qEnt c.slot n.val k with
    | none => exact .inr (by simp only [waitSrcC, he])
    | some e =>
      obtain ⟨r, rfl⟩ := h n e (List.mem_of_getElem? he)
      exact .inl (by simp only [waitSrcC, he])
  | _ => exact .inl rfl

theorem firstWait_empty {c : Core} {p : CSpec} (h : ∀ n : Fin 4, ∀ e ∈ queueOf c.slot n, ∃ r, e = .full r) {n : Fin 4} (hn : .q n ∈ p.srcs)
    (he : queueOf c.slot n = []) : firstWait (readAll (waitSrcC c) p.srcs []) = 3 := by
  obtain ⟨k, hk⟩ := readAll_mem (waitSrcC c) [] hn
  have hq : qEnt c.slot n.val k = none := by
    unfold qEnt
    rw [show c.slot.queues[n.val]?.getD [] = [] from he]
    rfl
  simp only [waitSrcC, hq] at hk
  refine firstWait_eq hk fun x hx => ?_
  obtain ⟨o, -, j, -, rfl⟩ := mem_readAll hx
  exact waitSrcC_full h o j

theorem fullQ_iff {x : Slot} {d : Option Opnd} : fullQ x d = true ↔ ∃ n : Fin 4, d = some (.q n) ∧ 16 ≤ (queueOf x n).length := by
  constructor
  · intro h
    match d with
    | some (.q n) => exact ⟨n, rfl, by simpa [fullQ, queueOf] using h⟩
  · rintro ⟨n, rfl, h⟩
    exact fullQ_of_length h

/-! ### O40 -/

/-- The steps of the core and the common course of a control word. -/
theorem coreEvents_steps (s : State) :
    (s.core.slot.active = false → exec .fetch s = .next s) ∧
    (∀ reason w, gateC s.core.slot = true → exec (.illegalEncoding false reason w) s = stallC s 1) ∧
    (∀ ari reason w, (ari = true ∨ gateC s.core.slot = false) → exec (.illegalEncoding ari reason w) s =
      .next (takeTrap (s.modS (fun x => { x with rep := 0 })) { cause := 0x01, ari := ari, info := reason <<< 9, faddr := 0, fword := w })) := by
  refine ⟨fun h => ?_, fun reason w h => ?_, fun ari reason w h => ?_⟩
  · rw [exec_fetch]
    simp [execFetch, h]
  · rw [exec_illegalEncoding]
    simp [execIllegalEncoding, h]
  · rw [exec_illegalEncoding]
    unfold execIllegalEncoding
    rw [if_neg (by rcases h with h | h <;> simp [h])]
    rfl

/-- A control word that can issue but for a window operand beyond WL traps WIN (R18). -/
theorem meetsAt_win {x : Slot} {p : CSpec} {k : Fin 96} (hb : p.bar = none) (h : .w k ∈ p.srcs ++ p.dst.toList) (hk : x.wl ≤ k.val) :
    meetsAt x p = some (mkTrap cWIN 0 0) := by
  unfold meetsAt
  rw [hb]
  exact if_pos (any_beyond h hk)

theorem meetsAt_bar {x : Slot} {p : CSpec} {t : Trap} (hb : p.bar = some t) : meetsAt x p = some t := by
  unfold meetsAt
  rw [hb]

/-- Settles O40: the steps of the core by the lemmas about their arms; a control word takes the course of `control`; and
`cWait`, taken in the order of its tests. -/
theorem coreEvents : Obligations.CoreEvents := by
  unfold Obligations.CoreEvents
  refine ⟨fun s => ?_, fun p s => ?_⟩
  · obtain ⟨idle, gated, illegal⟩ := coreEvents_steps s
    refine ⟨idle, fun ha hpc => ⟨fun hg => ?_, fun hg => ?_⟩, fun ha hpc hl => execFetch_line ha hpc hl, fun c a ha hc h1 h5 h => ?_,
      gated, illegal, fun i p hp => ?_, fun n hw => ?_⟩
    · rw [execFetch_beyond ha hpc, if_pos hg]
    · rw [execFetch_beyond ha hpc, if_neg (by simp [hg])]
      rfl
    · have hwa : waitOfA s.core.slot = some a ∧ 1 ≤ a ∧ a ≤ 5 := by
        rcases h with ⟨hb, rfl⟩ | ⟨hb, hwa, ha1, ha5⟩
        · exact ⟨waitOfA_eq (.inl ⟨hb, rfl⟩), by omega⟩
        · exact ⟨waitOfA_eq (.inr ⟨hb, hwa⟩), ha1, ha5⟩
      exact execStrdl_raises ha hc hwa.1 (tableCode_some h1 h5) (tableCode_some hwa.2.1 hwa.2.2)
    · obtain ⟨f, hf⟩ := control_exec i s p hp
      refine ⟨fun hw => ?_, fun t hw hb => ?_, fun k hw hb hk hl => ?_⟩
      · rw [hf, control_stall hw]
      · rw [hf, control_meets hw (meetsAt_bar hb)]
      · rw [hf, control_meets hw (meetsAt_win hb hk hl)]
        rfl
    · rw [exec_trap]
      unfold execTrap
      split
      · next h => exact absurd h hw
      · rfl
  · refine ⟨cWait_header, fun h hg => cWait_gate h (gateC_eq_true.2 hg), fun e i a => entFoot_plain, cWait_busy,
      fun h => cWait_landing h.1 h.2, fun h hl hf he => ?_, fun h hl ht hf => ?_, fun h hl ht hf => ?_⟩
    · obtain ⟨n, hn, he⟩ := he
      rw [cWait_quiet h.1 h.2 hl, firstWait_empty hf hn he]
      rfl
    · rw [cWait_quiet h.1 h.2 hl, firstWait_there ht, if_pos rfl, if_pos (fullQ_iff.2 hf)]
    · rw [cWait_quiet h.1 h.2 hl, firstWait_there ht, if_pos rfl, if_neg (fun hq => hf (fullQ_iff.1 hq))]

end Sys2Proof.Machine
end

section
/-! PROOFS. Late writes land; stores and held accesses are performed (O41). -/

namespace Sys2Proof.Machine

/-! ### Landing -/

theorem getCore_own (s : State) : getCore s s.core.id = s.core := if_pos rfl
theorem setCore_own {s : State} {c : Core} (h : c.id = s.core.id) : setCore s c = { s with core := c } := if_pos h.symm

/-- What a landing leaves of its core: it writes a register row, an operand file, a queue or a bank, and nothing else. -/
theorem landIn_id (c : Core) (l : Late) (r : Row) : (landIn c l r).id = c.id := by
  unfold landIn
  split <;> rfl
theorem landIn_ckpt (c : Core) (l : Late) (r : Row) : (landIn c l r).ckpt = c.ckpt := by
  unfold landIn
  split <;> rfl

theorem landIn_row {c : Core} {l : Late} {n : Nat} (h : l.dest = .row n) (r : Row) : landIn c l r = c.setRow n (mergeLanes l.lanes r (c.row n)) := by
  unfold landIn
  rw [h]

/-- The slot of a core after a landing in the operand file of that slot, or in a queue. -/
theorem landIn_ofile_slot {c : Core} {l : Late} {n : Nat} (h : l.dest = .ofile c.slot.sid n) (r : Row) :
    (landIn c l r).slot = { c.slot with ofile := c.slot.ofile.set! n (mergeLanes l.lanes r (oRow c.slot n)) } := by
  unfold landIn
  rw [h]
  exact if_pos rfl

theorem landIn_queue_slot {c : Core} {l : Late} {id : Nat} (h : l.dest = .queue id) (r : Row) :
    (landIn c l r).slot = c.slot.land id (mergeLanes l.lanes r 0) := by
  unfold landIn
  rw [h]
  rfl

theorem oRow_setOfile (x : Slot) {n : Nat} (h : n < 8) (r : Row) (q : Nat) :
    oRow { x with ofile := x.ofile.set! n r } q = if n = q then r else oRow x q := by
  unfold oRow
  rw [Vector.set!_eq_setIfInBounds, Vector.getElem?_setIfInBounds]
  by_cases e : n = q
  · subst e; simp [h]
  · simp [e]

theorem queueOf_land (x : Slot) (id : Nat) (r : Row) (k : Nat) :
    queueOf (x.land id r) k = (queueOf x k).map (fun e => if e = .rsv id then .full r else e) := by
  have each : landQ id r = List.map (fun e => if e = .rsv id then .full r else e) := by
    funext q
    refine List.map_congr_left fun e _ => ?_
    cases e with
    | full x => rfl
    | rsv j => by_cases h : j = id <;> simp [h]
  unfold queueOf Slot.land
  rw [each]
  dsimp only
  rw [Vector.getElem?_map]
  cases x.queues[k]? <;> rfl

/-- The oldest late write lands next, where its data are there (R257). -/
theorem nextLanding_head {c : Core} {l : Late} {r : List Late} {d : Row} (hd : l.data = some d) (hr : refreshHolds c l = false) :
    nextLanding c (l :: r) [] = some l := by
  unfold nextLanding
  exact if_pos (by simp [hd, hr])

theorem landCkpt_none {c : Core} (h : c.ckpt = none) (l : Late) (r : Row) : landCkpt c l r = c := by
  unfold landCkpt
  rw [h]

theorem rollOn_none {s : State} {w : Word} (h : (getCore s w).ckpt = none) : rollOn s w = s := by
  unfold rollOn
  rw [h]

/-- The current core without a late write. -/
def withoutLate (s : State) (l : Late) : Core := { s.core with late := s.core.late.filter (fun m => m.id != l.id) }

/-- What follows a landing: with an uncorrectable error, a machine check is due (R153, R361). -/
def afterLanding (w : Word) (l : Late) (ue : Bool) (t : State) : State :=
  if ue then mchkStop (lateAddr l.addr t).2 l.kern w l.hv l.ctxid l.proc (arrayOf l.addr <<< 17 ||| 1 <<< 9) (lateAddr l.addr t).1 else t

/-- The oldest late write of a core without a checkpoint lands; with an error, zeros do (R153, R257). -/
theorem exec_lateWriteLanding_head {s : State} {l : Late} {r : List Late} {d : Row} (hl : s.core.late = l :: r) (hd : l.data = some d)
    (hr : refreshHolds s.core l = false) (hk : s.core.ckpt = none) (ue : Bool) :
    exec (.lateWriteLanding s.core.id ue) s =
      .next (afterLanding s.core.id l ue { s with core := landIn (withoutLate s l) l (if ue then 0 else d) }) := by
  have pair : pairErr s.core l = false := by simp [pairErr, hk]
  have lands : ∀ row, rollOn (setCore s (landCkpt (landIn (withoutLate s l) l row) l row)) s.core.id =
      { s with core := landIn (withoutLate s l) l row } := by
    intro row
    have hc : (landIn (withoutLate s l) l row).ckpt = none := (landIn_ckpt _ _ _).trans hk
    have hi : (landIn (withoutLate s l) l row).id = s.core.id := landIn_id _ _ _
    rw [landCkpt_none hc, setCore_own hi, rollOn_none]
    rw [getCore, if_pos hi]
    exact hc
  have hn : nextLanding s.core s.core.late [] = some l := by rw [hl]; exact nextLanding_head hd hr
  rw [exec_lateWriteLanding]
  unfold execLateWriteLanding
  dsimp only
  rw [getCore_own, hn]
  dsimp only
  rw [pair, hd]
  cases ue with
  | false => exact congrArg (fun t => Host.Outcome.next (afterLanding s.core.id l false t)) (lands d)
  | true => exact congrArg (fun t => Host.Outcome.next (afterLanding s.core.id l true t)) (lands 0)

/-- The machine check of a late write from a line that has an address, and from an accumulator line, which has none (R361). -/
theorem afterLanding_line {w : Word} {l : Late} {t : State} (h : l.addr < 5 * 2 ^ 52) : ∃ q, afterLanding w l true t = { t with stops := t.stops ++ [q] } ∧
    q.kern = l.kern ∧ q.lane4 = BitVec.ofNat 32 (0x21 ||| (arrayOf l.addr <<< 17 ||| 512)) ∧ q.faddr = lineAddr l.addr := by
  have ha : lateAddr l.addr t = (lineAddr l.addr, t) := if_neg (by unfold spaceSize; omega)
  unfold afterLanding
  rw [ha]
  exact ⟨_, rfl, rfl, rfl, rfl⟩

theorem afterLanding_acc {w : Word} {l : Late} {t : State} (h : 5 * 2 ^ 52 ≤ l.addr) :
    ∃ q, afterLanding w l true t = { (takeFree t).2 with stops := t.stops ++ [q] } ∧ q.kern = l.kern ∧
      q.lane4 = BitVec.ofNat 32 (0x21 ||| (6 <<< 17 ||| 512)) := by
  have ha : (lateAddr l.addr t).2 = (takeFree t).2 := congrArg Prod.snd (if_pos h)
  have h6 : arrayOf l.addr = 6 := by
    unfold arrayOf spaceSize
    rw [if_neg (by omega), if_neg (by simp; omega), if_pos h]
  unfold afterLanding
  rw [ha, h6]
  exact ⟨_, rfl, rfl, rfl⟩

/-- A line of memory on the chip, of the pool or of the host is named by its target address (R361). -/
theorem lineAddr_target {k : Nat} (h : k < 3 * 2 ^ 52) : lineAddr k = k / 64 * 64 % 2 ^ 52 := by
  unfold lineAddr spaceSize
  dsimp only
  rw [if_neg (by omega), if_neg (by omega)]

/-! ### Stores performed -/

theorem writeHeld_none {s : State} {w : Word} {hv : Bool}
    (h : ∀ g ∈ s.held, g.core = w → g.hv = hv → g.store = none ∧ g.rmw = none ∧ g.cas = none) : writeHeld s w hv = false := by
  unfold writeHeld
  rw [List.any_eq_false]
  intro g hg
  by_cases hw : g.core = w ∧ g.hv = hv
  · obtain ⟨h1, h2, h3⟩ := h g hg hw.1 hw.2
    simp [h1, h2, h3]
  · simp only [Bool.and_eq_true, beq_iff_eq]
    exact fun hc => hw hc.1

/-- The oldest store of the current slot is performed, where none of its writes is held and a link leads there (R151, R365). -/
theorem exec_writePerformed_current {s : State} {p : PendW} {r : List PendW} (hp : s.core.slot.pend = p :: r)
    (hh : writeHeld s s.core.id s.core.hvNow = false) (hl : linksWait s (linksOf s p.addr) = false) :
    exec (.writePerformed s.core.id) s = .next (s.modS (fun x => { x with pend := r })) := by
  have may : mayPerform s (writeHeld s s.core.id s.core.hvNow) s.core.slot = true := by simp [mayPerform, hh, hp, hl]
  have one : performOne s s.core = some { s.core with slot := { s.core.slot with pend := r } } := by
    unfold performOne
    dsimp only
    rw [if_pos may, hp]
    rfl
  rw [exec_writePerformed]
  unfold execWritePerformed
  rw [getCore_own, one]
  exact congrArg Host.Outcome.next (setCore_own rfl)

/-! ### Held accesses performed -/

/-- A write of bytes changes memory, a queue's journal or notify page, or asks for the kernel's stop (R283, R367). -/
theorem writePlace_mem (s : State) (p : Place) (bs : List Byte) : ∃ m, writePlace s p bs = { s with mem := m } := by
  unfold writePlace
  split
  · exact ⟨_, rfl⟩
  · dsimp only
    split <;> exact ⟨_, rfl⟩

theorem writePlace_frame (s : State) (p : Place) (bs : List Byte) : writePlace s p bs = { s with mem := (writePlace s p bs).mem } := by
  obtain ⟨m, h⟩ := writePlace_mem s p bs
  rw [h]

theorem notifyPut_frame (s : State) (q off : Nat) (bs : List Byte) :
    notifyPut s q off bs = { s with queues := (notifyPut s q off bs).queues } := by
  unfold notifyPut
  split
  · unfold notifyWrite
    split <;> rfl
  · rfl

theorem plainWrite_frame (s : State) (p : Place) (bs : List Byte) :
    plainWrite s p bs = { s with mem := (plainWrite s p bs).mem, queues := (plainWrite s p bs).queues } := by
  unfold plainWrite
  split
  · rw [notifyPut_frame]
  · rw [writePlace_frame]

theorem kWrite_frame (s : State) (k : KRef) (w : Word) (hv : Bool) (ctxid proc : Nat) (p : Place) (bs : List Byte) :
    let t := kWrite s k w hv ctxid proc p bs
    t = { s with mem := t.mem, queues := t.queues, stops := t.stops } := by
  dsimp only
  unfold kWrite
  split
  · split
    · split <;> rfl
    · rw [plainWrite_frame]
  · rw [writePlace_frame]

/-- An update of a core that keeps its word and its rows keeps the rows of every core. -/
theorem regs_modCore {s : State} {w : Word} {f : Core → Core} (hi : ∀ c, (f c).id = c.id) (hr : ∀ c, (f c).regs = c.regs) (v : Word) :
    (getCore (modCore s w f) v).regs = (getCore s v).regs := by
  rw [getCore_modCore s w v f ((hi _).trans (getCore_id s w))]
  split
  · next h => rw [hr, h]
  · rfl

/-- A paired core's journal of its local memory is no part of its rows (R363). -/
theorem logUndo_keeps (s : State) (w : Word) (p : Place) (n : Nat) (v : Word) :
    (logUndo s w p n).held = s.held ∧ (getCore (logUndo s w p n) v).regs = (getCore s v).regs := by
  unfold logUndo
  split
  · next k _ =>
    split
    · let f : Core → Core := fun c =>
        { c with ckpt := some { k with undo := (List.range n).map (fun i => (p.key + i, memRead s.mem (p.key + i))) ++ k.undo } }
      exact ⟨modCore_held s w f, regs_modCore (f := f) (fun _ => rfl) (fun _ => rfl) v⟩
    · exact ⟨rfl, rfl⟩
  · exact ⟨rfl, rfl⟩

theorem heldUndo_keeps (h : Held) (p : Spot) (s : State) (w : Word) :
    (heldUndo h p s).held = s.held ∧ (getCore (heldUndo h p s) w).regs = (getCore s w).regs := by
  unfold heldUndo
  split
  · exact logUndo_keeps _ _ _ _ _
  · exact ⟨rfl, rfl⟩

/-- The write of a held access leaves the other held accesses and every register row (R180). -/
theorem heldWrite_keeps (h : Held) (ps : List Spot) (bs : List Byte) (s : State) (w : Word) :
    (heldWrite h ps bs s).held = s.held ∧ (getCore (heldWrite h ps bs s) w).regs = (getCore s w).regs := by
  induction ps generalizing bs s with
  | nil => exact ⟨rfl, rfl⟩
  | cons p ps ih =>
    obtain ⟨hheld, hregs⟩ := ih (bs.drop p.n) (if reaches s ⟨h.core, h.hv, h.proc⟩ p.key then
      kWrite (heldUndo h p s) h.kern h.core h.hv h.ctxid h.proc ⟨p.key, p.enc⟩ (bs.take p.n) else s)
    refine ⟨hheld.trans ?_, hregs.trans ?_⟩
    · split
      · rw [kWrite_frame]
        exact (heldUndo_keeps h p s w).1
      · rfl
    · split
      · rw [kWrite_frame]
        exact (heldUndo_keeps h p s w).2
      · rfl

/-- The images of the store follow it: each is due in its core's cluster (R191). -/
def withImages (h : Held) (x : State) : State := h.imgs.foldl (fun x i => modCl x (clIdx i.core) (fun c => { c with imgs := c.imgs ++ [i] })) x

theorem withImages_keeps (h : Held) (s : State) (w : Word) :
    (withImages h s).held = s.held ∧ (getCore (withImages h s) w).regs = (getCore s w).regs := by
  unfold withImages
  induction h.imgs generalizing s with
  | nil => exact ⟨rfl, rfl⟩
  | cons i l ih =>
    obtain ⟨hheld, hregs⟩ := ih (modCl s (clIdx i.core) (fun c => { c with imgs := c.imgs ++ [i] }))
    refine ⟨hheld, hregs.trans (congrArg Core.regs (getCore_setCl s _ w ?_))⟩
    dsimp only
    rw [getCl_id]

/-- The bytes that the access reads are there for its late write; a store has none (R141). -/
def withBytes (h : Held) (old : List Byte) (x : State) : State := modCore x h.lateAt (fun c => { c with late := c.late.map (fun l =>
  if l.id = h.lateId && l.data.isNone && h.store.isNone then { l with data := some (rowOfBytes old) } else l) })

/-- The state with held access `i` taken off the list. -/
def withoutHeld (s : State) (i : Nat) : State := { s with held := s.held.eraseIdx i }

/-- The write of the access: a store's bytes, an `amo`'s result, or the new value of a `cas` that matches (R155, R156). -/
def withNew (h : Held) (u : State) : State :=
  match h.new (heldRead h u) with
  | some bs => heldWrite h h.spots bs u
  | none => u

theorem withNew_some {h : Held} {u : State} {bs : List Byte} (e : h.new (heldRead h u) = some bs) :
    withNew h u = heldWrite h h.spots bs u := by
  unfold withNew
  rw [e]

theorem withNew_none {h : Held} {u : State} (e : h.new (heldRead h u) = none) : withNew h u = u := by
  unfold withNew
  rw [e]

theorem new_of_rmw {h : Held} {op : AmoOp} {y : DWord} (hs : h.store = none) (hr : h.rmw = some (op, y)) (old : List Byte) :
    h.new old = some (natBytes (amoNew op (8 * old.length) (bytesNat old) y.toNat) old.length) := by
  unfold Held.new
  rw [hs, hr]

theorem new_of_cas {h : Held} {x y : DWord} (hs : h.store = none) (hr : h.rmw = none) (hc : h.cas = some (x, y)) (old : List Byte) :
    h.new old = if bytesNat old = x.toNat then some (natBytes y.toNat old.length) else none := by
  unfold Held.new
  rw [hs, hr, hc]

/-- What an access that nothing holds back does (R141, R151, R180). -/
theorem exec_heldRemoteAccess_ready {s : State} {i : Nat} {h : Held} (hi : s.held[i]? = some h) (hr : heldReady s i h = true) :
    exec (.heldRemoteAccess i) s =
      .next (withBytes h (heldRead h (withoutHeld s i)) (withImages h (withNew h (withoutHeld s i)))) := by
  rw [exec_heldRemoteAccess]
  unfold execHeldRemoteAccess
  rw [hi]
  dsimp only
  rw [hr]
  rfl

theorem exec_heldRemoteAccess_waits {s : State} {i : Nat} {h : Held} (hi : s.held[i]? = some h) (hr : heldReady s i h = false) :
    exec (.heldRemoteAccess i) s = .next s := by
  rw [exec_heldRemoteAccess]
  unfold execHeldRemoteAccess
  rw [hi]
  dsimp only
  rw [hr]
  rfl

theorem withBytes_regs (h : Held) (old : List Byte) (x : State) (v : Word) :
    (getCore (withBytes h old x) v).regs = (getCore x v).regs := by
  unfold withBytes
  rw [regs_modCore]
  · intro _
    rfl
  · intro _
    rfl

/-- The late write that waits for the bytes `old` of the access has them. -/
def fillLate (h : Held) (old : List Byte) (x : State) : State := modCore x h.lateAt (fun c => { c with late := c.late.map (fun l =>
  if l.id = h.lateId ∧ l.data = none then { l with data := some (rowOfBytes old) } else l) })

/-- An access that is no store fills its late write. -/
theorem withBytes_read {h : Held} (hs : h.store = none) (old : List Byte) (x : State) : withBytes h old x = fillLate h old x := by
  have each : ∀ l : Late, (if (l.id = h.lateId && l.data.isNone && h.store.isNone) = true then { l with data := some (rowOfBytes old) } else l) =
      if l.id = h.lateId ∧ l.data = none then { l with data := some (rowOfBytes old) } else l := by
    intro l
    simp [hs]
  unfold withBytes fillLate
  simp only [each]

theorem exec_heldRemoteAccess_read {s : State} {i : Nat} {h : Held} (hi : s.held[i]? = some h) (hr : heldReady s i h = true)
    (hs : h.store = none) :
    exec (.heldRemoteAccess i) s =
      .next (fillLate h (heldRead h (withoutHeld s i)) (withImages h (withNew h (withoutHeld s i)))) := by
  rw [exec_heldRemoteAccess_ready hi hr, withBytes_read hs]

/-- Its old bytes are those of its spots, as far as it reaches them (R180; log 68). -/
theorem heldRead_reached {h : Held} {s : State} (hr : ∀ p ∈ h.spots, reaches s ⟨h.core, h.hv, h.proc⟩ p.key = true) :
    heldRead h s = readSpots s h.kern h.spots := by
  unfold heldRead readSpots
  exact List.flatMap_congr fun p hp => if_pos (hr p hp)

/-- Settles O41: the landing by `exec_lateWriteLanding_head` and the lemmas about `landIn`, the stores by
`exec_writePerformed_current`, the held accesses by `exec_heldRemoteAccess_ready`, their new bytes being those of `Held.new`. -/
theorem lateWriteEvents : Obligations.LateWriteEvents := by
  unfold Obligations.LateWriteEvents
  refine ⟨fun s l r d hl hd hr hk => ?_, fun s p r hp hh hlw => ?_, fun s i h hi => ?_⟩
  · have lands := exec_lateWriteLanding_head hl hd hr hk
    refine ⟨lands false, fun ha => ?_, fun ha => ?_, fun n hn => ⟨?_, ?_, fun q hq => ?_⟩, fun n hn h8 => ?_, fun id k hn => ?_⟩
    · obtain ⟨q, hq, hkern, hlane, hf⟩ := afterLanding_line (w := s.core.id) (t := { s with core := landIn (withoutLate s l) l 0 }) ha
      exact ⟨q, (lands true).trans (congrArg Host.Outcome.next hq), hkern, hlane, hf, fun h3 => hf.trans (lineAddr_target h3)⟩
    · obtain ⟨q, hq, hkern, hlane⟩ := afterLanding_acc (w := s.core.id) (t := { s with core := landIn (withoutLate s l) l 0 }) ha
      exact ⟨q, (lands true).trans (congrArg Host.Outcome.next hq), hkern, hlane⟩
    · rw [landIn_row hn]
      rfl
    · rw [landIn_row hn, row_setRow_self]
      exact merged_mergeLanes _ _ _
    · rw [landIn_row hn]
      exact row_setRow_other _ _ _ _ (Ne.symm hq)
    · have hs := landIn_ofile_slot (c := withoutLate s l) hn d
      have ho := oRow_setOfile s.core.slot h8 (mergeLanes l.lanes d (oRow s.core.slot n))
      refine ⟨?_, ?_, fun q hq => ?_⟩
      · exact hs.trans (congrArg (fun o => { s.core.slot with ofile := o }) (congrArg Slot.ofile hs).symm)
      · have own := (congrArg (oRow · n) hs).trans ((ho n).trans (if_pos rfl))
        exact own ▸ merged_mergeLanes _ _ _
      · exact (congrArg (oRow · q) hs).trans ((ho q).trans (if_neg (Ne.symm hq)))
    · exact (congrArg (queueOf · k) (landIn_queue_slot (c := withoutLate s l) hn d)).trans (queueOf_land _ _ _ _)
  · exact exec_writePerformed_current hp (writeHeld_none hh) hlw
  · refine ⟨exec_heldRemoteAccess_waits hi, fun hready => ?_⟩
    refine ⟨fun hr => heldRead_reached hr, fun bs hb => ?_, fun op y hs hrmw => ?_, fun x y hs hrmw hcas => ?_, fun hs hrmw hcas => ?_⟩
    · have ready := exec_heldRemoteAccess_ready hi hready
      rw [withNew_some (bs := bs) (by simp [Held.new, hb])] at ready
      obtain ⟨wheld, wregs⟩ := heldWrite_keeps h h.spots bs (withoutHeld s i) h.core
      obtain ⟨iheld, iregs⟩ := withImages_keeps h (heldWrite h h.spots bs (withoutHeld s i)) h.core
      refine ⟨_, ready, modCore_mem _ _ _, (modCore_held _ _ _).trans (iheld.trans wheld), fun c => ?_, ?_⟩
      · exact congrArg Cluster.imgs (getCl_modCore _ _ _ _)
      · exact (withBytes_regs _ _ _ _).trans (iregs.trans wregs)
    all_goals have ready := exec_heldRemoteAccess_read hi hready hs
    · rw [withNew_some (new_of_rmw hs hrmw _)] at ready
      exact ready
    · rw [ready]
      dsimp only
      split
      · next e => exact congrArg (fun t => Host.Outcome.next (fillLate h (heldRead h (withoutHeld s i)) (withImages h t))) (withNew_some ((new_of_cas hs hrmw hcas _).trans (if_pos e)))
      · next e => exact congrArg (fun t => Host.Outcome.next (fillLate h (heldRead h (withoutHeld s i)) (withImages h t))) (withNew_none ((new_of_cas hs hrmw hcas _).trans (if_neg e)))
    · rw [withNew_none (by simp only [Held.new, hs, hrmw, hcas])] at ready
      exact ready

end Sys2Proof.Machine
end

section
/-! PROOFS. Changes of process, core resets, scrubs and rollbacks of a pair (O53). -/

namespace Sys2Proof.Machine

/-! ### Changes of process (R135) -/

theorem cleanCore_id (p : Nat) (c : Core) : (cleanCore p c).id = c.id := by
  unfold cleanCore Core.setOwner
  dsimp only
  split <;> rfl

theorem createContext_id (t : Nat) (c : Core) : (createContext t c).id = c.id := by
  unfold createContext
  dsimp only
  split <;> rfl

theorem createContexts_id (p : Nat) (c : Core) : (createContexts p c).id = c.id := by
  unfold createContexts
  generalize c.tags.filter _ = l
  induction l generalizing c with
  | nil => rfl
  | cons e l ih => exact (ih _).trans (createContext_id _ _)

/-- A change of process is of a cluster's cores: each keeps its word, and the package its number. -/
theorem ownPkg_mapCores {s : State} {f : Core → Core} (h : ∀ c, (f c).id = c.id) : ownPkg (mapCores s f) = ownPkg s :=
  congrArg pkgOf (h s.core)

/-- What a zeroing leaves zero stays zero under any zeroing. -/
theorem memRead_memZero_zero {m : Memory} {k : Nat} (h : memRead m k = 0) (lo n : Nat) : memRead (memZero m lo n) k = 0 := by
  rw [memRead_memZero]
  split
  · rfl
  · exact h

/-- Spans that are zeroed one after another. -/
def zeroSpans (m : Memory) (n : Nat) (lo : Nat → Nat) (l : List Nat) : Memory := l.foldl (fun m i => memZero m (lo i) n) m

theorem zeroSpans_zero {k n : Nat} {lo : Nat → Nat} (l : List Nat) {m : Memory}
    (h : memRead m k = 0 ∨ ∃ i ∈ l, lo i ≤ k ∧ k < lo i + n) : memRead (zeroSpans m n lo l) k = 0 := by
  induction l generalizing m with
  | nil => simpa [zeroSpans] using h
  | cons i l ih =>
    refine ih (m := memZero m (lo i) n) ?_
    rcases h with h | ⟨j, hj, hk⟩
    · exact .inl (memRead_memZero_zero h _ _)
    · rcases List.mem_cons.mp hj with rfl | hj
      · exact .inl (by rw [memRead_memZero, if_pos hk])
      · exact .inr ⟨j, hj, hk⟩

/-- What a change of process leaves in the memories: its process is there, and its memories are zeroed. -/
theorem changeProcess_zeroes (s : State) (cl p : Nat) :
    (getCl (changeProcess s cl p) cl).proc = some p ∧
    (changeProcess s cl p).mem = zeroSpans (memZero s.mem (scratchKeyOf (ownPkg s) cl 0) 0x1F0000) 0x60000
      (fun i => localKey (clCore s cl i) 0) (List.range 8) := by
  have keeps : ownPkg (mapCores (leaveMem s cl) (fun c => if clIdx c.id == cl then createContexts p (cleanCore p c) else c)) = ownPkg s := by
    refine ownPkg_mapCores fun c => ?_
    split
    · exact (createContexts_id _ _).trans (cleanCore_id _ _)
    · rfl
  constructor
  · unfold changeProcess
    rw [getCl_modCl _ _ _ _ (getCl_id _ _), if_pos rfl]
  · unfold changeProcess zeroSpans clCore
    dsimp only
    rw [keeps]
    rfl

/-- R135: the cluster changes where it can, and waits where it cannot. -/
theorem exec_processChange_cases {s : State} {cl p : Nat} (h : waitingProc s cl = some p) :
    exec (.processChange cl) s = .next (if mayChange s cl = true then changeProcess s cl p else s) := by
  rw [exec_processChange]
  unfold execProcessChange
  rw [h]
  dsimp only
  split <;> rfl

theorem processChange_rule (s : State) (cl p : Nat) (h : waitingProc s cl = some p) :
    (mayChange s cl = false → exec (.processChange cl) s = .next s) ∧
    (mayChange s cl = true → ∃ t, exec (.processChange cl) s = .next t ∧ (getCl t cl).proc = some p ∧
      (∀ k, scratchKeyOf (ownPkg s) cl 0 ≤ k → k < scratchKeyOf (ownPkg s) cl 0 + 0x1F0000 → memRead t.mem k = 0) ∧
      ∀ c k, c < 8 → localKey (clCore s cl c) 0 ≤ k → k < localKey (clCore s cl c) 0 + 0x60000 → memRead t.mem k = 0) := by
  have run := exec_processChange_cases h
  refine ⟨fun hm => run.trans (by rw [if_neg (by simp [hm])]), fun hm => ?_⟩
  obtain ⟨hproc, hmem⟩ := changeProcess_zeroes s cl p
  refine ⟨_, run.trans (by rw [if_pos hm]), hproc, fun k h1 h2 => ?_, fun c k hc h1 h2 => ?_⟩
  · rw [hmem]
    exact zeroSpans_zero _ (.inl (by rw [memRead_memZero, if_pos ⟨h1, h2⟩]))
  · rw [hmem]
    exact zeroSpans_zero _ (.inr ⟨c, List.mem_range.mpr hc, h1, h2⟩)

/-! ### Core reset -/

theorem mem_putCluster {l : List Cluster} {c x : Cluster} (h : x ∈ putCluster l c) : x = c ∨ x ∈ l := by
  induction l with
  | nil => exact .inl (List.mem_singleton.mp h)
  | cons d r ih =>
    unfold putCluster at h
    split at h
    · exact (List.mem_cons.mp h).imp id (List.mem_cons_of_mem d)
    · rcases List.mem_cons.mp h with h | h
      · exact .inr (h ▸ List.mem_cons_self)
      · exact (ih h).imp id (List.mem_cons_of_mem d)

/-- The jobs of a cluster are among all jobs. -/
theorem jobs_getCl {s : State} {n : Nat} {j : Job} (h : j ∈ (getCl s n).jobs) : j ∈ allJobs s := by
  unfold getCl at h
  split at h
  · next c hc => exact List.mem_flatMap.mpr ⟨c, List.mem_of_find?_eq_some hc, h⟩
  · cases h

/-- The jobs after a cluster is stored: those of before, and its own. -/
theorem mem_jobs_setCl {s : State} {c : Cluster} {j : Job} (h : j ∈ allJobs (setCl s c)) : j ∈ c.jobs ∨ j ∈ allJobs s := by
  obtain ⟨d, hd, hj⟩ := List.mem_flatMap.mp h
  rcases mem_putCluster hd with rfl | hd
  · exact .inl hj
  · exact .inr (List.mem_flatMap.mpr ⟨d, hd, hj⟩)

theorem mem_jobs_rltDrop {s : State} {es : List (Nat × Nat)} {j : Job} (h : j ∈ allJobs (rltDrop s es)) : j ∈ allJobs s := by
  induction es generalizing s with
  | nil => exact h
  | cons e es ih => exact (mem_jobs_setCl (ih h)).elim (jobs_getCl (n := e.1)) id

/-- Freeing entries of the range-lock table changes the clusters alone. -/
theorem rltDrop_frame (s : State) (es : List (Nat × Nat)) : rltDrop s es = { s with clusters := (rltDrop s es).clusters } := by
  induction es generalizing s with
  | nil => rfl
  | cons e es ih => exact ih (modCl s e.1 _)

/-- A job of the core that is reset begins again (R254, R366). -/
def resetJobs (s : State) (w : Word) : State :=
  modJobs s (fun j => j.core == w) (fun j => { j with beat := 0, xl := Xlat.none, msgDue := false, st := if j.st == .running then .queued else j.st })

theorem resetJobs_begin {s : State} {w : Word} {j : Job} (h : j ∈ allJobs (resetJobs s w)) (hw : j.core = w) : j.beat = 0 ∧ j.st ≠ .running := by
  obtain ⟨c, hc, hj⟩ := List.mem_flatMap.mp h
  obtain ⟨d, -, rfl⟩ := List.mem_map.mp hc
  obtain ⟨i, -, rfl⟩ := List.mem_map.mp hj
  by_cases hi : (i.core == w) = true
  · rw [if_pos hi]
    refine ⟨rfl, ?_⟩
    dsimp only
    split
    · exact nofun
    · next hr => simpa using hr
  · rw [if_neg hi] at hw
    exact absurd (beq_iff_eq.mpr hw) hi

/-- The core's posts and group operations are withdrawn from its cluster (R231). -/
def resetPosts (s : State) (w : Word) : State :=
  let u := getCl s (clIdx w)
  let gone := u.posts.filter (fun p => !isMem w && p.core == coreOf w)
  let mineOp (o : GangOp) : Bool := !isMem w && o.members.any (fun m => m.core == coreOf w)
  if gone.isEmpty && !u.ops.any mineOp then s
  else setCl s { u with posts := u.posts.filter (fun p => !gone.contains p), ops := u.ops.filter (fun o => !mineOp o) }

theorem mem_jobs_resetPosts {s : State} {w : Word} {j : Job} (h : j ∈ allJobs (resetPosts s w)) : j ∈ allJobs s := by
  unfold resetPosts at h
  dsimp only at h
  split at h
  · exact h
  · exact (mem_jobs_setCl h).elim (jobs_getCl (n := clIdx w)) id

theorem resetPosts_frame (s : State) (w : Word) : resetPosts s w = { s with clusters := (resetPosts s w).clusters } := by
  unfold resetPosts
  dsimp only
  split <;> rfl

/-- What a core reset does: the core's jobs begin again, its registrations, posts and held accesses go, and it is as reset. -/
theorem exec_coreReset_eq (s : State) (w : Word) : ∃ es es', exec (.coreReset w) s = .next (
    let v := rltDrop (resetPosts (rltDrop (resetJobs s w) es) w) es'
    setCore { v with held := v.held.filter (fun h => h.core != w), misses := v.misses.filter (fun m => m.core != w) }
      { Core.reset w with regs := (getCore s w).regs, activity := (getCore s w).activity }) := by
  rw [exec_coreReset]
  exact ⟨_, _, rfl⟩

theorem coreReset_rule (s : State) (w : Word) : ∃ t, exec (.coreReset w) s = .next t ∧ t.mem = s.mem ∧
    getCore t w = { Core.reset w with regs := (getCore s w).regs, activity := (getCore s w).activity } ∧
    (∀ h ∈ t.held, h.core ≠ w) ∧ t.queues = s.queues ∧ t.ports = s.ports ∧ ∀ j ∈ allJobs t, j.core = w → j.beat = 0 ∧ j.st ≠ .running := by
  obtain ⟨es, es', run⟩ := exec_coreReset_eq s w
  have frame : rltDrop (resetPosts (rltDrop (resetJobs s w) es) w) es' =
      { resetJobs s w with clusters := (rltDrop (resetPosts (rltDrop (resetJobs s w) es) w) es').clusters } := by
    rw [rltDrop_frame, resetPosts_frame, rltDrop_frame]
  have mem := congrArg State.mem frame
  have queues := congrArg State.queues frame
  have ports := congrArg State.ports frame
  refine ⟨_, run, (setCore_mem _ _).trans mem, getCore_setCore _ _, ?_, (setCore_queues _ _).trans queues, (setCore_ports _ _).trans ports, ?_⟩
  · intro h hh
    dsimp only at hh
    rw [setCore_held] at hh
    simpa using (List.mem_filter.mp hh).2
  · intro j hj
    unfold allJobs at hj
    dsimp only at hj
    rw [setCore_clusters] at hj
    exact resetJobs_begin (mem_jobs_rltDrop (mem_jobs_resetPosts (mem_jobs_rltDrop hj)))

/-! ### Scrubs (R360) -/

/-- The core with a line that cannot be corrected. -/
def markBroken (line : Nat) (c : Core) : Core := { c with broken := c.broken.filter (fun l => l != line) ++ [line] }

/-- The core after a corrected error at a time: the count, the line's last correction and, the second time within a second, the report. -/
def noteCorrected (line now : Nat) (c : Core) : Core :=
  { c with errCount := c.errCount + 1, corrected := (line, now) :: c.corrected.filter (fun e => e.1 != line),
           repair := if c.corrected.any (fun e => e.1 == line && decide (now < e.2 + 1100000000)) && !c.repair.contains line then c.repair ++ [line] else c.repair }

theorem exec_scrub_broken (s : State) (line : Nat) : exec (.scrub s.core.id line false) s =
    .next (if 65536 ≤ line then mapCores s (fun d => if clIdx d.id == clIdx s.core.id then markBroken line d else d) else s.modC (markBroken line)) := by
  have put : setCore s (markBroken line s.core) = s.modC (markBroken line) := setCore_own rfl
  rw [exec_scrub, ← put]
  unfold execScrub
  dsimp only
  rw [getCore_own]
  rfl

theorem exec_scrub_corrected (s : State) (line : Nat) : exec (.scrub s.core.id line true) s = .next (s.modC (noteCorrected line s.timer)) := by
  rw [exec_scrub]
  unfold execScrub
  dsimp only
  rw [getCore_own]
  exact congrArg Host.Outcome.next (setCore_own rfl)

theorem noteCorrected_again {line now : Nat} {c : Core} (h : ∃ e ∈ c.corrected, e.1 = line ∧ now < e.2 + 1100000000) :
    line ∈ (noteCorrected line now c).repair := by
  have ha : c.corrected.any (fun e => e.1 == line && decide (now < e.2 + 1100000000)) = true := by simpa using h
  unfold noteCorrected
  dsimp only
  rw [ha]
  by_cases hr : line ∈ c.repair <;> simp [hr]

theorem noteCorrected_first {line now : Nat} {c : Core} (h : ∀ e ∈ c.corrected, e.1 = line → e.2 + 1100000000 ≤ now) :
    (noteCorrected line now c).repair = c.repair := by
  have ha : c.corrected.any (fun e => e.1 == line && decide (now < e.2 + 1100000000)) = false := by
    rw [List.any_eq_false]
    intro e he
    have := h e he
    simp only [Bool.and_eq_true, beq_iff_eq, decide_eq_true_eq]
    omega
  unfold noteCorrected
  dsimp only
  rw [ha]
  rfl

theorem scrub_rule (s : State) (line : Nat) :
    (line < 65536 → exec (.scrub s.core.id line false) s =
      .next (s.modC (fun c => { c with broken := c.broken.filter (fun l => l != line) ++ [line] }))) ∧
    (65536 ≤ line → ∃ t, exec (.scrub s.core.id line false) s = .next t ∧ t.mem = s.mem ∧ line ∈ t.core.broken ∧
      ∀ c ∈ t.peers, clIdx c.id = clIdx s.core.id → line ∈ c.broken) ∧
    ∃ t, exec (.scrub s.core.id line true) s = .next t ∧ SameOutside s t ∧
    t.core = { s.core with errCount := s.core.errCount + 1, corrected := t.core.corrected, repair := t.core.repair } ∧ (line, s.timer) ∈ t.core.corrected ∧
    ((∃ e ∈ s.core.corrected, e.1 = line ∧ s.timer < e.2 + 1100000000) → line ∈ t.core.repair) ∧
    ((∀ e ∈ s.core.corrected, e.1 = line → e.2 + 1100000000 ≤ s.timer) → t.core.repair = s.core.repair) := by
  have marks : ∀ d : Core, clIdx d.id = clIdx s.core.id → line ∈ (if clIdx d.id == clIdx s.core.id then markBroken line d else d).broken := by
    intro d hd
    rw [if_pos (beq_iff_eq.mpr hd)]
    exact List.mem_append_right _ (List.mem_singleton.mpr rfl)
  refine ⟨fun h => ?_, fun h => ⟨_, (exec_scrub_broken s line).trans (congrArg _ (if_pos h)), rfl, ?_, fun c hc hcl => ?_⟩,
    _, exec_scrub_corrected s line, rfl, rfl, List.mem_cons_self, noteCorrected_again, noteCorrected_first⟩
  · exact (exec_scrub_broken s line).trans (congrArg _ (if_neg (by omega)))
  · exact marks s.core rfl
  · obtain ⟨d, -, rfl⟩ := List.mem_map.mp hc
    refine marks d (Eq.trans ?_ hcl)
    split <;> rfl

/-! ### Rollback of a pair (R364) -/

/-- The core after a rollback: the rows, channels and owner's contexts of its checkpoint. -/
def rolledCore (c : Core) (k : Ckpt) : Core :=
  { (c.setOwner { k.slot with fetched := [], waitC := none, waitA := none, xl := Xlat.none }) with
    regs := k.regs, shadow := k.shadow, mstat := k.mstat, scla := k.scla, sclb := k.sclb, chans := k.chans, late := [],
    ckpt := some { k with tries := k.tries + 1, undo := [], rows := [], bundles := 0, rolling := false } }

theorem rolledCore_id (c : Core) (k : Ckpt) : (rolledCore c k).id = c.id := by
  unfold rolledCore Core.setOwner
  split <;> rfl

/-- The state after a rollback of the current core that does not stop its kernel. -/
def rolledState (s : State) (k : Ckpt) : State :=
  { s with core := rolledCore s.core k, mem := k.undo.foldl (fun m e => memWrite m e.1 e.2) s.mem,
           held := s.held.filter (fun h => !(h.core == s.core.id && decide (k.nextId ≤ h.lateId))) }

theorem exec_pairRollback_paired {s : State} (hp : s.core.slot.paired = true) (hv : s.core.hvNow = false) :
    exec (.pairRollback s.core.id) s = .next (rollback s s.core.id) := by
  have ho : (getCore s s.core.id).owner.paired = true := by
    rw [getCore_own]
    unfold Core.owner
    rw [hv]
    exact hp
  rw [exec_pairRollback]
  exact if_pos ho

/-- Until what belongs to the checkpoint has landed, the pair stands still (R364). -/
theorem rollback_waits {s : State} {k : Ckpt} (hk : s.core.ckpt = some k) (h : ∃ l ∈ s.core.late, l.id < k.nextId) :
    rollback s s.core.id = s.modC (fun c => { c with ckpt := some { k with rolling := true } }) := by
  have hl : s.core.late.any (fun l => decide (l.id < k.nextId)) = true := by simpa using h
  unfold rollback
  rw [getCore_own]
  dsimp only
  rw [hk]
  dsimp only
  rw [hl]
  exact setCore_own rfl

/-- A rollback, and the machine check of the third in a row (R364). -/
theorem rollback_rolls {s : State} {k : Ckpt} (hk : s.core.ckpt = some k) (h : ∀ l ∈ s.core.late, k.nextId ≤ l.id) :
    rollback s s.core.id = if k.tries < 2 then rolledState s k else
      mchkStop (rolledState s k) s.core.owner.kern s.core.id false (ctxOf (s.core.row s.core.owner.wb)) s.core.owner.proc (2 <<< 9 ||| 3 <<< 13) 0 := by
  have hl : s.core.late.any (fun l => decide (l.id < k.nextId)) = false := by simpa using h
  have put : setCore { s with mem := k.undo.foldl (fun m e => memWrite m e.1 e.2) s.mem,
                              held := s.held.filter (fun h => !(h.core == s.core.id && decide (k.nextId ≤ h.lateId))) }
      (rolledCore s.core k) = rolledState s k := setCore_own (rolledCore_id _ _)
  unfold rollback
  rw [getCore_own]
  dsimp only
  rw [hk]
  dsimp only
  rw [hl, ← put]
  rfl

theorem rolledState_held (s : State) (k : Ckpt) : ∀ h ∈ (rolledState s k).held, h ∈ s.held ∧ (h.core = s.core.id → h.lateId < k.nextId) := by
  intro h hh
  obtain ⟨hm, hc⟩ := List.mem_filter.mp hh
  refine ⟨hm, fun he => ?_⟩
  simpa [he] using hc

theorem pairRollback_rule (s : State) (k : Ckpt) (hv : s.core.hvNow = false) (hp : s.core.slot.paired = true) (hk : s.core.ckpt = some k) :
    ((∃ l ∈ s.core.late, l.id < k.nextId) → exec (.pairRollback s.core.id) s = .next (s.modC (fun c => { c with ckpt := some { k with rolling := true } }))) ∧
    ((∀ l ∈ s.core.late, k.nextId ≤ l.id) → ∃ t,
    exec (.pairRollback s.core.id) s = .next t ∧ t.core.regs = k.regs ∧ t.core.late = [] ∧ t.core.chans = k.chans ∧
      t.core.slot = { k.slot with fetched := [], waitC := none, waitA := none, xl := Xlat.none } ∧ t.core.shadow = k.shadow ∧ t.core.mstat = k.mstat ∧
      (∀ h ∈ t.held, h ∈ s.held ∧ (h.core = s.core.id → h.lateId < k.nextId)) ∧
      t.mem = k.undo.foldl (fun m e => memWrite m e.1 e.2) s.mem ∧ (k.tries < 2 → t.stops = s.stops) ∧
      (2 ≤ k.tries → ∃ q, t.stops = s.stops ++ [q] ∧ q.kern = s.core.slot.kern ∧ q.lane4 = BitVec.ofNat 32 (0x21 ||| (2 <<< 9 ||| 3 <<< 13)))) := by
  have run := exec_pairRollback_paired hp hv
  refine ⟨fun h => run.trans (congrArg _ (rollback_waits hk h)), fun h => ?_⟩
  have slot : (rolledState s k).core.slot = { k.slot with fetched := [], waitC := none, waitA := none, xl := Xlat.none } := by
    unfold rolledState rolledCore Core.setOwner
    simp only [hv]
    rfl
  have kern : s.core.owner.kern = s.core.slot.kern := by
    unfold Core.owner
    rw [hv]
    rfl
  rw [rollback_rolls hk h] at run
  split at run
  · next ht =>
    exact ⟨_, run, rfl, rfl, rfl, slot, rfl, rfl, rolledState_held s k, rfl, fun _ => rfl, fun hn => by omega⟩
  · next ht =>
    exact ⟨_, run, rfl, rfl, rfl, slot, rfl, rfl, rolledState_held s k, rfl, fun hn => by omega, fun _ => ⟨_, rfl, kern, rfl⟩⟩

end Sys2Proof.Machine
end

section
/-! PROOFS. Links, energy accounts and cluster clocks (O53). -/

namespace Sys2Proof.Machine

/-! ### Links (R365) -/

theorem exec_linkFlit_up {s : State} {n seq : Nat} {l : Link} (hl : linkOf s n = l) (hd : l.down = false) (hr : l.retrain = false) (ok : Bool) :
    exec (.linkFlit n seq ok) s = .next (
      if !ok then setLink s { l with fails := l.fails + 1, retrain := decide (16 ≤ l.fails + 1) }
      else if seq = l.expect then setLink s { l with expect := l.expect + 1, fails := 0 } else s) := by
  rw [exec_linkFlit]
  unfold execLinkFlit
  rw [hl]
  dsimp only
  rw [hd, hr]
  cases ok with
  | false => rfl
  | true =>
    by_cases he : seq = l.expect
    · rw [if_pos he, if_pos he]
      rfl
    · rw [if_neg he, if_neg he]
      rfl

theorem exec_linkRetrain_retraining {s : State} {n : Nat} {l : Link} (hl : linkOf s n = l) (hr : l.retrain = true) (ok : Bool) :
    exec (.linkRetrain n ok) s = .next (
      if ok then setLink s { l with retrain := false, fails := 0 }
      else
        let t := setLink s { l with retrain := false, down := true }
        (perKernel (cutOff t n)).foldl (fun s b => mchkStop s b.kern b.core b.hv b.ctxid b.proc (7 <<< 17 ||| 3 <<< 9) 0) t) := by
  rw [exec_linkRetrain]
  unfold execLinkRetrain
  rw [hl]
  dsimp only
  rw [hr]
  cases ok <;> rfl

theorem mem_perKernel {l : List Beyond} {b : Beyond} (h : b ∈ perKernel l) : b ∈ l := by
  induction l with
  | nil => exact h
  | cons c r ih =>
    rcases List.mem_cons.mp h with rfl | h
    · exact List.mem_cons_self
    · exact List.mem_cons_of_mem _ (ih (List.mem_filter.mp h).1)

/-- Where one kernel alone has work that is cut off, it stops once (R365). -/
theorem perKernel_one {b : Beyond} {r : List Beyond} (h : ∀ e ∈ r, e.kern = b.kern) : perKernel (b :: r) = [b] := by
  refine congrArg (List.cons b) (List.filter_eq_nil_iff.mpr fun d hd => ?_)
  simp [h d (mem_perKernel hd)]

theorem link_rule (s : State) (n seq : Nat) (l : Link) (hl : linkOf s n = l) (hd : l.down = false) :
    (l.retrain = false → exec (.linkFlit n seq false) s = .next (setLink s { l with fails := l.fails + 1, retrain := decide (16 ≤ l.fails + 1) })) ∧
    (l.retrain = false → seq = l.expect → exec (.linkFlit n seq true) s = .next (setLink s { l with expect := l.expect + 1, fails := 0 })) ∧
    (l.retrain = false → seq ≠ l.expect → exec (.linkFlit n seq true) s = .next s) ∧
    (l.retrain = true → exec (.linkRetrain n true) s = .next (setLink s { l with retrain := false, fails := 0 })) ∧
    (l.retrain = true →
      let t := setLink s { l with retrain := false, down := true }
      (cutOff t n = [] → exec (.linkRetrain n false) s = .next t) ∧
      (∀ b r, cutOff t n = b :: r → (∀ e ∈ r, e.kern = b.kern) → ∃ q, exec (.linkRetrain n false) s = .next { t with stops := s.stops ++ [q] } ∧
        q.kern = b.kern ∧ q.core = b.core ∧ q.ctxid = b.ctxid ∧ q.lane4 = BitVec.ofNat 32 (0x21 ||| (7 <<< 17 ||| 3 <<< 9)))) := by
  refine ⟨fun hr => exec_linkFlit_up hl hd hr false, fun hr he => ?_, fun hr he => ?_, fun hr => exec_linkRetrain_retraining hl hr true,
    fun hr => ⟨fun hc => ?_, fun b r hc hk => ?_⟩⟩
  · exact (exec_linkFlit_up hl hd hr true).trans (congrArg _ (if_pos he))
  · exact (exec_linkFlit_up hl hd hr true).trans (congrArg _ (if_neg he))
  · have run := exec_linkRetrain_retraining hl hr false
    dsimp only at run
    rw [hc] at run
    exact run
  · have run := exec_linkRetrain_retraining hl hr false
    dsimp only at run
    rw [hc, perKernel_one hk] at run
    exact ⟨_, run, rfl, rfl, rfl, rfl⟩

/-! ### Energy accounts (R351-R355) -/

theorem chargePkg_rule (s : State) (e : Nat) : ∃ f, chargePkg s e =
    { s with pkgEnergy := s.pkgEnergy + BitVec.ofNat 64 ((s.pkgFrac + e) / 65536), pkgFrac := f } ∧ f < 65536 ∧
    65536 * ((s.pkgFrac + e) / 65536) + f = s.pkgFrac + e :=
  ⟨_, rfl, Nat.mod_lt _ (by decide), Nat.div_add_mod _ _⟩

theorem meterOne_keeps (cl : Nat) (acts : List Act) (s : State) (o : Nat × Nat × KRef) :
    (meterOne cl acts s o).core = s.core ∧ (meterOne cl acts s o).mem = s.mem ∧ (meterOne cl acts s o).meterings = s.meterings := by
  unfold meterOne
  dsimp only
  split <;> exact ⟨rfl, rfl, rfl⟩

/-- Metering charges accounts and leaves the cores, the memories and the count of meterings. -/
theorem foldl_meterOne_keeps (cl : Nat) (acts : List Act) (l : List (Nat × Nat × KRef)) (s : State) :
    (l.foldl (meterOne cl acts) s).core = s.core ∧ (l.foldl (meterOne cl acts) s).mem = s.mem ∧
    (l.foldl (meterOne cl acts) s).meterings = s.meterings := by
  induction l generalizing s with
  | nil => exact ⟨rfl, rfl, rfl⟩
  | cons o l ih =>
    obtain ⟨core, mem, meterings⟩ := ih (meterOne cl acts s o)
    obtain ⟨core', mem', meterings'⟩ := meterOne_keeps cl acts s o
    exact ⟨core.trans core', mem.trans mem', meterings.trans meterings'⟩

/-- The activity of a cluster's cores is taken off them (R351). -/
def takeActivity (s : State) (cl : Nat) : State := mapCores s (fun c => if clIdx c.id == cl then { c with activity := [] } else c)

theorem takeActivity_core (s : State) (cl : Nat) : (takeActivity s cl).core.slot = s.core.slot ∧ (takeActivity s cl).core.regs = s.core.regs ∧
    (clIdx s.core.id = cl → (takeActivity s cl).core.activity = []) := by
  unfold takeActivity mapCores
  dsimp only
  split
  · exact ⟨rfl, rfl, fun _ => rfl⟩
  · next h => exact ⟨rfl, rfl, fun e => absurd (beq_iff_eq.mpr e) h⟩

theorem meteringInterval_rule (s : State) (cl : Nat) : ∃ t, exec (.meteringInterval cl) s = .next t ∧ t.mem = s.mem ∧
    t.core.slot = s.core.slot ∧ t.core.regs = s.core.regs ∧ t.meterings = s.meterings + 1 ∧ (clIdx s.core.id = cl → t.core.activity = []) := by
  have run : ∃ acts ctxs, exec (.meteringInterval cl) s = .next (
      let u := List.foldl (meterOne cl acts) (takeActivity s cl) ctxs
      { chargePkg u (Config.energyOf 0 u.meterings) with meterings := u.meterings + 1 }) := by
    rw [exec_meteringInterval]
    exact ⟨_, _, rfl⟩
  obtain ⟨acts, ctxs, run⟩ := run
  obtain ⟨core, mem, meterings⟩ := foldl_meterOne_keeps cl acts ctxs (takeActivity s cl)
  obtain ⟨slot, regs, activity⟩ := takeActivity_core s cl
  refine ⟨_, run, mem, (congrArg Core.slot core).trans slot, (congrArg Core.regs core).trans regs,
    congrArg (· + 1) meterings, fun h => (congrArg Core.activity core).trans (activity h)⟩

/-! ### Cluster clocks (R356-R359) -/

theorem putCluster_putCluster (l : List Cluster) {c d : Cluster} (h : c.id = d.id) : putCluster (putCluster l c) d = putCluster l d := by
  induction l with
  | nil => exact if_pos h
  | cons e r ih =>
    by_cases he : e.id = c.id
    · rw [putCluster, if_pos he, putCluster, if_pos h, putCluster, if_pos (he.trans h)]
    · rw [putCluster, if_neg he, putCluster, if_neg (h ▸ he), putCluster, if_neg (h ▸ he), ih]

/-- A cluster that is updated twice is updated once, by both. -/
theorem modCl_modCl (s : State) (n : Nat) (f g : Cluster → Cluster) (hf : ∀ c, (f c).id = c.id) (hg : ∀ c, (g c).id = c.id) :
    modCl (modCl s n f) n g = modCl s n (fun c => g (f c)) := by
  have own : getCl (modCl s n f) n = f (getCl s n) := by
    rw [getCl_modCl _ _ _ _ ((hf _).trans (getCl_id _ _)), if_pos rfl]
  unfold modCl at own ⊢
  rw [own]
  exact congrArg (fun l => { s with clusters := l }) (putCluster_putCluster _ (hg _).symm)

/-- A cluster at a clock. -/
def atClock (n : Nat) (u : Cluster) : Cluster := { u with clock := n }

theorem setClocks_frame (s : State) (d : List Nat) (n : Nat) : setClocks s d n = { s with clusters := (setClocks s d n).clusters } := by
  unfold setClocks
  induction d generalizing s with
  | nil => rfl
  | cons c d ih => exact ih (modCl s c (atClock n))

theorem getCl_setClocks (s : State) (d : List Nat) (n c : Nat) :
    getCl (setClocks s d n) c = if c ∈ d then atClock n (getCl s c) else getCl s c := by
  unfold setClocks
  induction d generalizing s with
  | nil => rfl
  | cons b d ih =>
    refine (ih (modCl s b (atClock n))).trans ?_
    rw [getCl_modCl s b c (atClock n) (getCl_id s b)]
    by_cases hb : b = c
    · subst hb
      by_cases hd : b ∈ d <;> simp [hd, atClock]
    · simp [hb, Ne.symm hb]

theorem planDomain_cases (s : State) (cl : Nat) : planDomain s cl = s ∨ (∃ n, planDomain s cl = setClocks s (domain s cl) n) ∧
    s.firm.stage ≠ 1 ∧ ∀ c ∈ domain s cl, deferred s c = false := by
  unfold planDomain
  dsimp only
  split
  · exact .inl rfl
  · next h =>
    simp only [Bool.or_eq_true, not_or, List.any_eq_true, not_exists, not_and, beq_iff_eq, Bool.not_eq_true] at h
    obtain ⟨⟨-, hdef⟩, hstage⟩ := h
    split
    · exact .inr ⟨⟨_, rfl⟩, hstage, hdef⟩
    · exact .inr ⟨⟨_, rfl⟩, hstage, hdef⟩

theorem planDomain_rule (s : State) (cl : Nat) :
    let t := planDomain s cl
    t = { s with clusters := t.clusters } ∧ (∀ c, getCl t c = { getCl s c with clock := (getCl t c).clock }) ∧ (s.firm.stage = 1 → t = s) ∧
    ((∃ c ∈ domain s cl, deferred s c = true) → t = s) ∧ ∀ c, c ∉ domain s cl → (getCl t c).clock = (getCl s c).clock := by
  dsimp only
  rcases planDomain_cases s cl with h | ⟨⟨n, h⟩, hstage, hdef⟩
  · rw [h]
    exact ⟨rfl, fun _ => rfl, fun _ => rfl, fun _ => rfl, fun _ _ => rfl⟩
  · refine ⟨?_, fun c => ?_, fun h1 => absurd h1 hstage, fun ⟨c, hc, hd⟩ => ?_, fun c hc => ?_⟩
    · rw [h]
      exact setClocks_frame _ _ _
    · rw [h, getCl_setClocks]
      split <;> rfl
    · exact absurd hd (by simp [hdef c hc])
    · rw [h, getCl_setClocks, if_neg hc]

theorem foldl_max_ge (f : Nat → Nat) (d : List Nat) (m : Nat) : m ≤ d.foldl (fun m c => max m (f c)) m ∧
    ∀ c ∈ d, f c ≤ d.foldl (fun m c => max m (f c)) m := by
  induction d generalizing m with
  | nil => exact ⟨Nat.le_refl _, nofun⟩
  | cons b d ih =>
    obtain ⟨h1, h2⟩ := ih (max m (f b))
    refine ⟨(Nat.le_max_left _ _).trans h1, fun c hc => ?_⟩
    rcases List.mem_cons.mp hc with rfl | hc
    · exact (Nat.le_max_right _ _).trans h1
    · exact h2 c hc

theorem foldl_max_le (f : Nat → Nat) (d : List Nat) {m n : Nat} (hm : m ≤ n) (h : ∀ c ∈ d, f c ≤ n) :
    d.foldl (fun m c => max m (f c)) m ≤ n := by
  induction d generalizing m with
  | nil => exact hm
  | cons b d ih => exact ih (Nat.max_le.mpr ⟨hm, h b List.mem_cons_self⟩) fun c hc => h c (List.mem_cons_of_mem _ hc)

theorem foldl_min_le (f : Nat → Nat) (d : List Nat) (m : Nat) : d.foldl (fun m c => min m (f c)) m ≤ m ∧
    ∀ c ∈ d, d.foldl (fun m c => min m (f c)) m ≤ f c := by
  induction d generalizing m with
  | nil => exact ⟨Nat.le_refl _, nofun⟩
  | cons b d ih =>
    obtain ⟨h1, h2⟩ := ih (min m (f b))
    refine ⟨h1.trans (Nat.min_le_left _ _), fun c hc => ?_⟩
    rcases List.mem_cons.mp hc with rfl | hc
    · exact h1.trans (Nat.min_le_right _ _)
    · exact h2 c hc

theorem domainSetting_rule (s : State) (d : List Nat) : (∀ c ∈ d, clockFloor s c ≤ domainSetting s d) ∧
    ((∀ c ∈ d, ∀ b ∈ d, clockFloor s c ≤ (getCl s b).choice) → (∀ c ∈ d, domainSetting s d ≤ (getCl s c).choice)) :=
  ⟨(foldl_max_ge (clockFloor s) d _).2, fun h c hc =>
    foldl_max_le (clockFloor s) d ((foldl_min_le (fun c => (getCl s c).choice) d 12).2 c hc) fun b hb => h b hb c hc⟩

/-- The planner's choice and the clock of a cluster. -/
def chosen (s : State) (cl n k : Nat) : State := modCl s cl (fun u => { u with choice := n, clock := k })

theorem chosen_now (s : State) (cl n : Nat) : modCl s cl (fun u => { u with choice := n }) = chosen s cl n (getCl s cl).clock := rfl

theorem chosen_setClocks (s : State) (cl n k m : Nat) : setClocks (chosen s cl n k) [cl] m = chosen s cl n m :=
  modCl_modCl s cl (fun u => { u with choice := n, clock := k }) (atClock m) (fun _ => rfl) (fun _ => rfl)

theorem getCl_chosen (s : State) (cl n k : Nat) : getCl (chosen s cl n k) cl = { getCl s cl with choice := n, clock := k } :=
  (getCl_modCl s cl cl (fun u => { u with choice := n, clock := k }) (getCl_id s cl)).trans (if_pos rfl)

theorem deferred_chosen (s : State) (cl n k : Nat) : deferred (chosen s cl n k) cl = deferred s cl := by
  unfold deferred
  rw [getCl_chosen]
  rfl

/-- With no network barrier in progress, a cluster is a domain of its own (R359). -/
theorem domain_alone {s : State} (h : netBars s = []) (cl : Nat) : domain s cl = [cl] := by
  unfold domain
  rw [h]
  rfl

/-- A change that makes no cluster faster is admitted (R356). -/
theorem powerAdmits_self (s : State) : powerAdmits s s = true := by
  unfold powerAdmits
  simp

theorem planDomain_alone {s : State} {cl n k : Nat} (hn : n ≤ 12) (hs : s.firm.stage ≠ 1) (hb : netBars s = []) :
    planDomain (chosen s cl n k) cl = if k = max n (clockFloor s cl) ∨ deferred s cl = true then chosen s cl n k
      else if powerAdmits (chosen s cl n k) (chosen s cl n (max n (clockFloor s cl))) = true then chosen s cl n (max n (clockFloor s cl))
      else chosen s cl n (max (min 12 k) (clockFloor s cl)) := by
  have dom : domain (chosen s cl n k) cl = [cl] := domain_alone (s := chosen s cl n k) hb cl
  have setting : domainSetting (chosen s cl n k) [cl] = max n (clockFloor s cl) := by
    change max (min 12 (getCl (chosen s cl n k) cl).choice) (clockFloor s cl) = _
    rw [getCl_chosen]
    exact congrArg (max · _) (Nat.min_eq_right hn)
  have slow : slowest (chosen s cl n k) [cl] = max (min 12 k) (clockFloor s cl) := by
    change max (min 12 (getCl (chosen s cl n k) cl).clock) (clockFloor s cl) = _
    rw [getCl_chosen]
  have stays : ([cl].all (fun c => (getCl (chosen s cl n k) c).clock == max n (clockFloor s cl)) || [cl].any (deferred (chosen s cl n k)) ||
      (chosen s cl n k).firm.stage == 1) = true ↔ k = max n (clockFloor s cl) ∨ deferred s cl = true := by
    have hf : (chosen s cl n k).firm.stage ≠ 1 := hs
    simp [getCl_chosen, deferred_chosen, hf]
  unfold planDomain
  rw [dom]
  dsimp only
  rw [setting, slow, chosen_setClocks, chosen_setClocks]
  exact if_congr stays rfl rfl

theorem clockChange_rule (s : State) (cl n : Nat) : (s.firm.stage = 1 → exec (.clockChange cl n) s = .next s) ∧
    (s.firm.stage ≠ 1 → netBars s = [] → cl < 256 → n ≤ 12 →
    let old := (getCl s cl).clock
    (deferred s cl = true → exec (.clockChange cl n) s = .next (chosen s cl n old)) ∧
    (deferred s cl = false → powerAdmits (chosen s cl n old) (chosen s cl n (max n (clockFloor s cl))) = true →
      exec (.clockChange cl n) s = .next (chosen s cl n (max n (clockFloor s cl)))) ∧
    (deferred s cl = false → powerAdmits (chosen s cl n old) (chosen s cl n (max n (clockFloor s cl))) = false →
      exec (.clockChange cl n) s = .next (chosen s cl n (max (min 12 old) (clockFloor s cl))))) := by
  refine ⟨fun h1 => ?_, fun hs hb hc hn => ?_⟩
  · rw [exec_clockChange]
    exact if_pos (by simp [h1])
  · have run : exec (.clockChange cl n) s = .next (planDomain (chosen s cl n (getCl s cl).clock) cl) := by
      rw [exec_clockChange, ← chosen_now]
      exact if_neg (by simp [hs, hn, hc])
    rw [planDomain_alone hn hs hb] at run
    refine ⟨fun hd => ?_, fun hd hp => ?_, fun hd hp => ?_⟩
    · rw [run, if_pos (.inr hd)]
    · rw [run, if_pos hp]
      split
      · next h =>
        rcases h with h | h
        · rw [← h]
        · simp [hd] at h
      · rfl
    · have hk : ¬ ((getCl s cl).clock = max n (clockFloor s cl) ∨ deferred s cl = true) := by
        rintro (h | h)
        · rw [← h, powerAdmits_self] at hp
          cases hp
        · simp [hd] at h
      rw [run, if_neg hk, if_neg (by simp [hp])]

/-- A cluster above its floor goes one setting down, the planner's choice with it (R356, R358). -/
def stepDown (floor : Nat) (u : Cluster) : Cluster := if floor < u.clock then { u with clock := u.clock - 1, choice := u.clock - 1 } else u

theorem stepDown_id (floor : Nat) (u : Cluster) : (stepDown floor u).id = u.id := by
  unfold stepDown
  split <;> rfl

/-- The clusters of a list step down one after another. -/
def stepsDown (fl : Nat → Nat) (l : List Nat) (s : State) : State := l.foldl (fun t c => modCl t c (stepDown (fl c))) s

theorem getCl_stepsDown (fl : Nat → Nat) {l : List Nat} (hl : l.Nodup) (s : State) (c : Nat) :
    getCl (stepsDown fl l s) c = if c ∈ l then stepDown (fl c) (getCl s c) else getCl s c := by
  unfold stepsDown
  induction l generalizing s with
  | nil => rfl
  | cons b l ih =>
    obtain ⟨hb, hl⟩ := List.nodup_cons.mp hl
    refine (ih hl (modCl s b (stepDown (fl b)))).trans ?_
    rw [getCl_modCl s b c _ ((stepDown_id _ _).trans (getCl_id s b))]
    by_cases h : b = c
    · subst h
      simp [hb]
    · simp [h, Ne.symm h]

theorem stepsDown_frame (fl : Nat → Nat) (l : List Nat) (s : State) :
    stepsDown fl l s = { s with clusters := (stepsDown fl l s).clusters } := by
  unfold stepsDown
  induction l generalizing s with
  | nil => rfl
  | cons b l ih => exact ih (modCl s b (stepDown (fl b)))

/-- The measurement is noted. -/
def measured (s : State) : State := { s with limited := Config.overCurrent s.meterings, meterings := s.meterings + 1 }

theorem exec_overcurrentStep_eq (s : State) : exec .overcurrentStep s = .next (
    if Config.overCurrent s.meterings = true then stepsDown (clockFloor s) (List.range 256) (measured s) else measured s) := by
  rw [exec_overcurrentStep]
  unfold execOvercurrentStep stepsDown
  dsimp only
  split <;> rfl

theorem overcurrentStep_rule (s : State) : ∃ t, exec .overcurrentStep s = .next t ∧ t.mem = s.mem ∧ t.core = s.core ∧
    t.limited = Config.overCurrent s.meterings ∧
    ∀ c, c < 256 → (getCl t c).clock = if Config.overCurrent s.meterings = true ∧ clockFloor s c < (getCl s c).clock then (getCl s c).clock - 1 else (getCl s c).clock := by
  have frame := stepsDown_frame (clockFloor s) (List.range 256) (measured s)
  have steps := getCl_stepsDown (clockFloor s) (List.nodup_range (n := 256)) (measured s)
  have run := exec_overcurrentStep_eq s
  generalize stepsDown (clockFloor s) (List.range 256) (measured s) = t at frame steps run
  by_cases hh : Config.overCurrent s.meterings = true
  · rw [if_pos hh] at run
    have mem := congrArg State.mem frame
    have core := congrArg State.core frame
    have limited := congrArg State.limited frame
    refine ⟨t, run, mem, core, limited, fun c hc => ?_⟩
    rw [steps, if_pos (List.mem_range.mpr hc)]
    change (stepDown (clockFloor s c) (getCl s c)).clock = _
    unfold stepDown
    by_cases hf : clockFloor s c < (getCl s c).clock <;> simp [hf, hh]
  · rw [if_neg hh] at run
    exact ⟨_, run, rfl, rfl, rfl, fun c _ => (if_neg fun h => hh h.1).symm⟩

end Sys2Proof.Machine
end

section
/-! PROOFS. The weight store, key slots, modules and the platform's events as a whole (O53). -/

namespace Sys2Proof.Machine

/-! ### The weight store and key slots (R329, R334) -/

theorem exec_weightStoreOpen_of {s : State} {n : Nat} {p : Part} (h : partById s n = some p) : exec (.weightStoreOpen n) s =
    .next (if partBusy s p || s.firm.stage != 2 then s else modPart s n (fun p => { p with storeOpen := true })) := by
  rw [exec_weightStoreOpen]
  unfold execWeightStoreOpen
  rw [h]
  dsimp only
  split <;> rfl

theorem weightStore_rule (s : State) (n : Nat) (p : Part) (h : partById s n = some p) :
    ((partBusy s p = true ∨ s.firm.stage ≠ 2) → exec (.weightStoreOpen n) s = .next s) ∧
    (partBusy s p = false → s.firm.stage = 2 → exec (.weightStoreOpen n) s = .next (modPart s n (fun p => { p with storeOpen := true }))) ∧
    ((∀ c ∈ s.clusters, ∀ j ∈ c.jobs, j.kind ≠ .xws) → exec (.weightStoreClose n) s = .next (modPart s n (fun p => { p with storeOpen := false }))) := by
  refine ⟨fun hb => ?_, fun hb hs => ?_, fun hx => ?_⟩
  · rw [exec_weightStoreOpen_of h, if_pos (by simpa using hb)]
  · rw [exec_weightStoreOpen_of h, if_neg (by simp [hb, hs])]
  · have none : s.clusters.any (fun c => decide (256 ≤ c.id) && p.memCores.contains (c.id - 256) && c.jobs.any (fun j => j.kind == .xws)) = false := by
      rw [List.any_eq_false]
      intro c hc
      have hj : c.jobs.any (fun j => j.kind == .xws) = false := by
        rw [List.any_eq_false]
        intro j hj
        simpa using hx c hc j hj
      simp [hj]
    rw [exec_weightStoreClose]
    unfold execWeightStoreClose
    rw [h]
    dsimp only
    rw [none]
    rfl

theorem keySlotLoad_rule (s : State) (k : Nat) (keys : BitVec 256 × BitVec 256) (hk : k < 4096) (hs : s.firm.stage ≠ 0) :
    exec (.keySlotLoad k (some keys)) s = .next { s with keys := put s.keys k keys } ∧
    exec (.keySlotLoad k none) s = .next { s with keys := s.keys.filter (fun e => e.1 != k) } := by
  have serves : ¬ (4096 ≤ k || s.firm.stage == 0) = true := by simp [hk, hs]
  rw [exec_keySlotLoad, exec_keySlotLoad]
  exact ⟨if_neg serves, if_neg serves⟩

/-! ### Loading a module (R347) -/

/-- What a load ends with, its steps in order (R347). -/
def loadOutcome (s : State) (d : LoadDesc) (p : Part) : State :=
  let fail (st : Nat) : State := { s with loader := (st, 0) }
  if !vofOk d.file then fail stLAYOUT
  else if !signedBy d.file (signerOk s d.part) then fail stSIGNATURE
  else
    match nativeOf s d with
    | .error st => fail st
    | .ok g =>
      match place s p d g, d.peers.find? (fun st => st != 0) with
      | .error st, _ => fail st
      | .ok _, some st => fail st
      | .ok u, none => multicast p d.file g u

theorem exec_moduleLoad_of {s : State} {d : LoadDesc} {p : Part} (hp : partById s d.part = some p) (hs : s.firm.stage ≠ 0) :
    exec (.moduleLoad d.part d.proc d.file d.pc d.toLoadIns) s = .next (loadOutcome s d p) := by
  obtain ⟨ins, part, proc, file, pc⟩ := d
  rw [exec_moduleLoad]
  unfold execModuleLoad loadOutcome
  dsimp only at hp ⊢
  rw [if_neg hs, hp]
  dsimp only
  cases vofOk file with
  | false => rfl
  | true =>
    cases signedBy file (signerOk s part) with
    | false => rfl
    | true =>
      cases nativeOf s ⟨ins, part, proc, file, pc⟩ with
      | error st => rfl
      | ok g =>
        dsimp only
        cases place s p ⟨ins, part, proc, file, pc⟩ g with
        | error st => rfl
        | ok u => cases ins.peers.find? (fun st => st != 0) <;> rfl

theorem loadOutcome_layout {s : State} {d : LoadDesc} {p : Part} (hv : vofOk d.file = false) : loadOutcome s d p = { s with loader := (stLAYOUT, 0) } :=
  if_pos (by simp [hv])

theorem loadOutcome_signature {s : State} {d : LoadDesc} {p : Part} (hv : vofOk d.file = true) (hg : signedBy d.file (signerOk s d.part) = false) :
    loadOutcome s d p = { s with loader := (stSIGNATURE, 0) } :=
  (if_neg (by simp [hv])).trans (if_pos (by simp [hg]))

/-- A file in form and signed: its native image decides. -/
theorem loadOutcome_signed {s : State} {d : LoadDesc} {p : Part} (hv : vofOk d.file = true) (hg : signedBy d.file (signerOk s d.part) = true) :
    loadOutcome s d p = match nativeOf s d with
      | .error st => { s with loader := (st, 0) }
      | .ok g =>
        match place s p d g, d.peers.find? (fun st => st != 0) with
        | .error st, _ => { s with loader := (st, 0) }
        | .ok _, some st => { s with loader := (st, 0) }
        | .ok u, none => multicast p d.file g u := by
  unfold loadOutcome
  dsimp only
  rw [if_neg (by simp [hv]), if_neg (by simp [hg])]

theorem moduleLoad_rule (s : State) (d : LoadDesc) (p : Part) (hp : partById s d.part = some p) (hs : s.firm.stage ≠ 0) :
    let f := d.file
    let fails (n : Nat) : Prop := exec (.moduleLoad d.part d.proc d.file d.pc d.toLoadIns) s = .next { s with loader := (n, 0) }
    let signed := signedBy f (signerOk s d.part) = true
    (vofOk f = false → fails 1) ∧ (vofOk f = true → ¬ signed → fails 2) ∧
    (∀ n, vofOk f = true → signed → nativeOf s d = .error n → fails n) ∧
    (∀ g n, vofOk f = true → signed → nativeOf s d = .ok g → place s p d g = .error n → fails n) ∧
    (∀ g u n, vofOk f = true → signed → nativeOf s d = .ok g → place s p d g = .ok u → d.peers.find? (fun st => st != 0) = some n → fails n) ∧
    (∀ g u, vofOk f = true → signed → nativeOf s d = .ok g → place s p d g = .ok u → (∀ st ∈ d.peers, st = 0) →
      exec (.moduleLoad d.part d.proc d.file d.pc d.toLoadIns) s = .next (multicast p f g u)) := by
  dsimp only
  rw [exec_moduleLoad_of hp hs]
  refine ⟨fun hv => congrArg _ (loadOutcome_layout hv), fun hv hg => congrArg _ (loadOutcome_signature hv (by simpa using hg)),
    fun n hv hg hn => ?_, fun g n hv hg hn hl => ?_, fun g u n hv hg hn hl hq => ?_, fun g u hv hg hn hl hq => ?_⟩
  · rw [loadOutcome_signed hv hg, hn]
  · rw [loadOutcome_signed hv hg, hn]
    dsimp only
    rw [hl]
  · rw [loadOutcome_signed hv hg, hn]
    dsimp only
    rw [hl, hq]
  · have hq' : d.peers.find? (fun st => st != 0) = none := List.find?_eq_none.mpr fun st h => by simp [hq st h]
    rw [loadOutcome_signed hv hg, hn]
    dsimp only
    rw [hl, hq']

/-! ### Publishing a module (R348) -/

/-- A tag entry of a module is written on a core, with its starting context where no other process runs (R279, R348). -/
def publishTag (proc : Nat) (s : State) (e : Word × Nat × BitVec 128) : State :=
  modCore s e.1 (fun c =>
    let c := { c with tags := put c.tags e.2.1 e.2.2 }
    if (getCl s (clIdx e.1)).proc.all (fun q => q == proc) then createContext e.2.1 c else c)

theorem publishTags_keep (proc : Nat) (l : List (Word × Nat × BitVec 128)) (s : State) :
    (l.foldl (publishTag proc) s).publishing = s.publishing ∧ (l.foldl (publishTag proc) s).mem = s.mem := by
  induction l generalizing s with
  | nil => exact ⟨rfl, rfl⟩
  | cons e l ih =>
    obtain ⟨publishing, mem⟩ := ih (publishTag proc s e)
    exact ⟨publishing.trans (modCore_publishing _ _ _), mem.trans (modCore_mem _ _ _)⟩

/-- The one module that no core has to fence for is published, and the others stay. -/
theorem publishDue_one {s : State} {q : Publish} {r : List Publish} (hs : s.publishing = q :: r) (hw : q.wait = []) (hf : q.fenced = [])
    (hr : ∀ x ∈ r, x.wait ≠ [] ∨ x.fenced ≠ []) : publishDue s = completePublish { s with publishing := r } q := by
  have due : ∀ x ∈ r, (x.wait.isEmpty && x.fenced.isEmpty) = false := fun x hx => by
    rcases hr x hx with h | h <;> simp [h]
  have one : s.publishing.filter (fun p => p.wait.isEmpty && p.fenced.isEmpty) = [q] := by
    rw [hs, List.filter_cons, if_pos (by simp [hw, hf]), List.filter_eq_nil_iff.mpr fun x hx => by simp only [due x hx]; decide]
  have rest : s.publishing.filter (fun p => !(p.wait.isEmpty && p.fenced.isEmpty)) = r := by
    rw [hs, List.filter_cons, if_neg (by simp [hw, hf]), List.filter_eq_self.mpr fun x hx => by rw [due x hx]; rfl]
  unfold publishDue
  dsimp only
  rw [one, rest]
  rfl

theorem publishDue_rule (s : State) (q : Publish) (r : List Publish) (hs : s.publishing = q :: r) (hw : q.wait = []) (hf : q.fenced = [])
    (hr : ∀ x ∈ r, x.wait ≠ [] ∨ x.fenced ≠ []) :
    let t := publishDue s
    t.publishing = r ∧ t.modules = s.modules ++ [q.mod] ∧ t.loader = (0, q.mod.handle) ∧ t.mem = s.mem := by
  dsimp only
  obtain ⟨publishing, mem⟩ := publishTags_keep q.mod.proc q.tags { s with publishing := r }
  rw [publishDue_one hs hw hf hr]
  exact ⟨publishing, rfl, rfl, mem⟩

/-! ### Unloading a module (R350) -/

/-- The core's tags of a module have lost V. -/
def dropTags (proc : Nat) (m : Module) (c : Core) : Core :=
  { c with tags := c.tags.map (fun e => if tagV e.2 && tagProc e.2 == proc && inModule m (tagPC e.2) then (e.1, e.2 &&& ~~~((1 : BitVec 128) <<< 63)) else e) }

/-- No tag with V leads into the module. -/
theorem dropTags_none (proc : Nat) (m : Module) (c : Core) : ∀ e ∈ (dropTags proc m c).tags, e.2.getLsbD 63 = true →
    ¬ ((e.2.extractLsb' 88 8).toNat = proc ∧ inModule m (e.2.extractLsb' 0 32) = true) := by
  intro e he hv
  obtain ⟨e', -, rfl⟩ := List.mem_map.mp he
  split at hv
  · have hbit : (e'.2 &&& ~~~((1 : BitVec 128) <<< 63)).getLsbD 63 = false := by
      rw [BitVec.getLsbD_and]
      exact Bool.and_false _
    rw [hbit] at hv
    cases hv
  · next hn =>
    rw [if_neg hn]
    rintro ⟨hp, hm⟩
    exact hn (by simp only [tagV, tagProc, tagPC, hv, hp, hm, beq_self_eq_true, Bool.and_self])

/-- The entries of a module's mapping are cleared. -/
def clearMaps (l : List Nat) (s : State) : State := l.foldl (fun s k => putEntry s k 0) s

theorem putEntry_frame (s : State) (k : Nat) (e : DWord) : ∃ m, putEntry s k e = { s with mem := m } := by
  unfold putEntry
  dsimp only
  split <;> exact ⟨_, rfl⟩

/-- What becomes of memory is decided by memory. -/
theorem putEntry_mem {s t : State} (h : t.mem = s.mem) (k : Nat) (e : DWord) : (putEntry t k e).mem = (putEntry s k e).mem := by
  unfold putEntry
  dsimp only
  split
  · exact congrArg (fun m => memWriteN m k (natBytes e.toNat 8)) h
  · exact h

theorem clearMaps_mem {s t : State} (h : t.mem = s.mem) (l : List Nat) : (clearMaps l t).mem = (clearMaps l s).mem := by
  unfold clearMaps
  induction l generalizing s t with
  | nil => exact h
  | cons k l ih => exact ih (putEntry_mem h k 0)

theorem clearMaps_frame (l : List Nat) (s : State) : ∃ m, clearMaps l s = { s with mem := m } := by
  unfold clearMaps
  induction l generalizing s with
  | nil => exact ⟨_, rfl⟩
  | cons k l ih =>
    obtain ⟨m, h⟩ := putEntry_frame s k 0
    rw [List.foldl_cons, h]
    exact ih { s with mem := m }

/-- The translations of a module's data go. -/
def dropData (part proc : Nat) (l : List (Nat × Nat)) (s : State) : State :=
  l.foldl (fun s r => if r.2 = 0 then s else invalidate part (some proc) r.1 r.2 s) s

theorem invalidate_tags (part : Nat) (proc : Option Nat) (va len : Nat) (s : State) : (invalidate part proc va len s).core.tags = s.core.tags := by
  unfold invalidate mapCores
  dsimp only [mapCls_core]
  split <;> rfl

/-- An invalidation leaves memory and the tags, and is due for completion (R322). -/
theorem dropData_keeps (part proc : Nat) (l : List (Nat × Nat)) (s : State) :
    (dropData part proc l s).mem = s.mem ∧ (dropData part proc l s).core.tags = s.core.tags ∧ (dropData part proc l s).modules = s.modules ∧
    (dropData part proc l s).invals = s.invals ++ (l.filter (fun r => r.2 != 0)).map (fun r => .tlb part (some proc) r.1 r.2) := by
  unfold dropData
  induction l generalizing s with
  | nil => exact ⟨rfl, rfl, rfl, (List.append_nil _).symm⟩
  | cons r l ih =>
    by_cases hr : r.2 = 0
    · rw [List.foldl_cons, if_pos hr, List.filter_cons, if_neg (by simp [hr])]
      exact ih s
    · obtain ⟨mem, tags, modules, invals⟩ := ih (invalidate part (some proc) r.1 r.2 s)
      rw [List.foldl_cons, if_neg hr, List.filter_cons, if_pos (by simpa using hr)]
      refine ⟨mem, tags.trans (invalidate_tags _ _ _ _ _), modules, invals.trans ?_⟩
      exact List.append_assoc _ _ _

/-- The tags of a module lose V on the cores of its partition. -/
def untagged (proc : Nat) (m : Module) (s : State) : State := mapCores s (fun c => if inPart s m.part c.id then dropTags proc m c else c)

theorem exec_moduleUnload_idle {s : State} {proc h : Nat} {m : Module} (hm : s.modules.find? (fun m => m.proc == proc && m.handle == h) = some m)
    (hb : moduleBusy s m = false) : exec (.moduleUnload proc h) s = .next (
      let u := dropData m.part proc m.data (clearMaps m.maps (untagged proc m s))
      { u with modules := u.modules.erase m, loader := (0, h) }) := by
  rw [exec_moduleUnload]
  unfold execModuleUnload
  rw [hm]
  dsimp only
  rw [hb]
  rfl

theorem exec_moduleUnload_busy {s : State} {proc h : Nat} {m : Module} (hm : s.modules.find? (fun m => m.proc == proc && m.handle == h) = some m)
    (hb : moduleBusy s m = true) : exec (.moduleUnload proc h) s = .next { s with loader := (stBUSY, h) } := by
  rw [exec_moduleUnload]
  unfold execModuleUnload
  rw [hm]
  exact if_pos hb

theorem moduleUnload_rule (s : State) (proc h : Nat) (m : Module) (hm : s.modules.find? (fun m => m.proc == proc && m.handle == h) = some m) :
    (moduleBusy s m = true → exec (.moduleUnload proc h) s = .next { s with loader := (8, h) }) ∧
    (moduleBusy s m = false → ∃ t, exec (.moduleUnload proc h) s = .next t ∧ t.modules = s.modules.erase m ∧ t.loader = (0, h) ∧
      t.mem = (m.maps.foldl (fun u k => putEntry u k 0) s).mem ∧
      t.invals = s.invals ++ (m.data.filter (fun r => r.2 != 0)).map (fun r => .tlb m.part (some proc) r.1 r.2) ∧
      (inPart s m.part s.core.id = true → ∀ e ∈ t.core.tags, e.2.getLsbD 63 = true → ¬ ((e.2.extractLsb' 88 8).toNat = proc ∧ inModule m (e.2.extractLsb' 0 32) = true))) := by
  refine ⟨exec_moduleUnload_busy hm, fun hb => ?_⟩
  obtain ⟨cleared, frame⟩ := clearMaps_frame m.maps (untagged proc m s)
  have fcore := congrArg State.core frame
  have finvals := congrArg State.invals frame
  have fmodules := congrArg State.modules frame
  obtain ⟨mem, tags, modules, invals⟩ := dropData_keeps m.part proc m.data (clearMaps m.maps (untagged proc m s))
  refine ⟨_, exec_moduleUnload_idle hm hb, ?_, rfl, mem.trans (clearMaps_mem (mapCores_mem s _) m.maps), ?_, fun hp => ?_⟩
  · exact congrArg (List.erase · m) (modules.trans fmodules)
  · exact invals.trans (congrArg (· ++ _) finvals)
  · have own : (clearMaps m.maps (untagged proc m s)).core = dropTags proc m s.core := fcore.trans (if_pos hp)
    rw [own] at tags
    exact tags ▸ dropTags_none proc m s.core

/-- Settles O53, an event at a time: the lemma of each (`processChange_rule`, `coreReset_rule` and so on) says what it does. -/
theorem platformEvents : Obligations.PlatformEvents := by
  unfold Obligations.PlatformEvents
  exact ⟨processChange_rule, coreReset_rule, scrub_rule, pairRollback_rule, link_rule, meteringInterval_rule, fun _ _ _ _ => rfl,
    chargePkg_rule, clockChange_rule, planDomain_rule, domainSetting_rule, overcurrentStep_rule, weightStore_rule, keySlotLoad_rule,
    moduleLoad_rule, publishDue_rule, moduleUnload_rule⟩

end Sys2Proof.Machine
end

section
/-! PROOFS. Decode of encode, and the worked encodings (O56, O55). -/

namespace Sys2Proof.Machine

open Laws

/-- An event has no words to read back. -/
theorem readBack_of_no_words {i : Instr} (h : encode i = none) : ReadBack i := fun _ _ _ hw => by rw [h] at hw; cases hw

/-- Every instruction is read back: by its lemma in `Laws.Encoding`, or as an event. -/
theorem readBack (i : Instr) : ReadBack i := by
  cases i with
  | cnop => exact Encoding.cnop | jtok => exact Encoding.jtok
  | eret => exact Encoding.eret | ifence => exact Encoding.ifence | rls => exact Encoding.rls | done => exact Encoding.done
  | reclaim => exact Encoding.reclaim | ckpt => exact Encoding.ckpt | bc => exact Encoding.bc _ _ _ | call => exact Encoding.call _ _
  | jr => exact Encoding.jr _ _ | loop => exact Encoding.loop _ _ | loopPop => exact Encoding.loopPop | loopi => exact Encoding.loopi _ _
  | trap => exact Encoding.trap _ | brk => exact Encoding.brk _ | fsync => exact Encoding.fsync _ | csrr => exact Encoding.csrr _ _
  | csrw => exact Encoding.csrw _ _ | movi => exact Encoding.movi _ _ | adda => exact Encoding.adda _ _ _
  | ldb => exact Encoding.ldb _ _ _ _ _ | ldbLone => exact Encoding.ldbLone _ _ _ _ _ | ldh => exact Encoding.ldh _ _ _ _ _
  | ldhLone => exact Encoding.ldhLone _ _ _ _ _ | ldw => exact Encoding.ldw _ _ _ _ _ | ldwLone => exact Encoding.ldwLone _ _ _ _ _
  | ldd => exact Encoding.ldd _ _ _ _ _ | lddLone => exact Encoding.lddLone _ _ _ _ _ | ldv => exact Encoding.ldv _ _ _ _ _
  | ldvLone => exact Encoding.ldvLone _ _ _ _ _ | stb => exact Encoding.stb _ _ _ _ _ | stbLone => exact Encoding.stbLone _ _ _ _ _
  | sth => exact Encoding.sth _ _ _ _ _ | sthLone => exact Encoding.sthLone _ _ _ _ _ | stw => exact Encoding.stw _ _ _ _ _
  | stwLone => exact Encoding.stwLone _ _ _ _ _ | std => exact Encoding.std _ _ _ _ _ | stdLone => exact Encoding.stdLone _ _ _ _ _
  | stv => exact Encoding.stv _ _ _ _ _ | stvLone => exact Encoding.stvLone _ _ _ _ _ | sti => exact Encoding.sti _ _ _ _ _
  | stiLone => exact Encoding.stiLone _ _ _ _ _ | ldx => exact Encoding.ldx _ _ _ _ | stx => exact Encoding.stx _ _ _ _
  | amo => exact Encoding.amo _ _ _ _ _ _ _ | cas => exact Encoding.cas _ _ _ _ _ _ | fence => exact Encoding.fence _ _ _
  | strm => exact Encoding.strm _ | cpseal => exact Encoding.cpseal _ | dcdec => exact Encoding.dcdec _ | mcode => exact Encoding.mcode _
  | setwin => exact Encoding.setwin _ | getwin => exact Encoding.getwin _ | setbnd => exact Encoding.setbnd _
  | lend => exact Encoding.lend _ | xld => exact Encoding.xld _ | xst => exact Encoding.xst _ | xpush => exact Encoding.xpush _
  | xws => exact Encoding.xws _ | cpy => exact Encoding.cpy _ _ _ | cpwait => exact Encoding.cpwait _ _ _
  | send => exact Encoding.send _ _ | sendGrp => exact Encoding.sendGrp _ _ | senda => exact Encoding.senda _ _
  | dcarm => exact Encoding.dcarm _ _ | tagsetOn => exact Encoding.tagsetOn _ | tagsetOff => exact Encoding.tagsetOff _
  | gbar => exact Encoding.gbar _ | mgang => exact Encoding.mgang _ _ _ | accrd => exact Encoding.accrd _ _ _
  | accz => exact Encoding.accz _ _ _ | setwinLone => exact Encoding.setwinLone _ _ | anop => exact Encoding.anop
  | add => exact Encoding.add _ _ _ | sub => exact Encoding.sub _ _ _ | mul => exact Encoding.mul _ _ _
  | mulh => exact Encoding.mulh _ _ _ | mulhn => exact Encoding.mulhn _ _ _ | div => exact Encoding.div _ _ _
  | divn => exact Encoding.divn _ _ _ | rem => exact Encoding.rem _ _ _ | remn => exact Encoding.remn _ _ _
  | and => exact Encoding.and _ _ _ | or => exact Encoding.or _ _ _ | xor => exact Encoding.xor _ _ _ | shl => exact Encoding.shl _ _ _
  | shr => exact Encoding.shr _ _ _ | sra => exact Encoding.sra _ _ _ | min => exact Encoding.min _ _ _ | max => exact Encoding.max _ _ _
  | minn => exact Encoding.minn _ _ _ | maxn => exact Encoding.maxn _ _ _ | slt => exact Encoding.slt _ _ _
  | sltn => exact Encoding.sltn _ _ _ | seq => exact Encoding.seq _ _ _ | sel => exact Encoding.sel _ _ _ | clz => exact Encoding.clz _ _
  | popc => exact Encoding.popc _ _ | mv => exact Encoding.mv _ _ | addi => exact Encoding.addi _ _ _ | andi => exact Encoding.andi _ _ _
  | ori => exact Encoding.ori _ _ _ | xori => exact Encoding.xori _ _ _ | slti => exact Encoding.slti _ _ _
  | shli => exact Encoding.shli _ _ _ | shri => exact Encoding.shri _ _ _ | srai => exact Encoding.srai _ _ _
  | lane => exact Encoding.lane _ _ _ _ | ins => exact Encoding.ins _ _ _ _ | vrot => exact Encoding.vrot _ _ _ _
  | vadd => exact Encoding.vadd _ _ _ _ | vsub => exact Encoding.vsub _ _ _ _ | vmul => exact Encoding.vmul _ _ _ _
  | vmulh => exact Encoding.vmulh _ _ _ _ | vmac => exact Encoding.vmac _ _ _ _ | vmin => exact Encoding.vmin _ _ _ _
  | vmax => exact Encoding.vmax _ _ _ _ | vand => exact Encoding.vand _ _ _ _ | vor => exact Encoding.vor _ _ _ _
  | vxor => exact Encoding.vxor _ _ _ _ | vshl => exact Encoding.vshl _ _ _ _ | vshr => exact Encoding.vshr _ _ _ _
  | vsra => exact Encoding.vsra _ _ _ _ | vadds => exact Encoding.vadds _ _ _ _ | vsubs => exact Encoding.vsubs _ _ _ _
  | vcmpeq => exact Encoding.vcmpeq _ _ _ _ | vcmplt => exact Encoding.vcmplt _ _ _ _ | vcmple => exact Encoding.vcmple _ _ _ _
  | vsel => exact Encoding.vsel _ _ _ _ | vperm => exact Encoding.vperm _ _ _ _ | vnarrow => exact Encoding.vnarrow _ _ _ _
  | vdot4 => exact Encoding.vdot4 _ _ _ _ | fadd => exact Encoding.fadd _ _ _ _ | fsub => exact Encoding.fsub _ _ _ _
  | fmul => exact Encoding.fmul _ _ _ _ | fma => exact Encoding.fma _ _ _ _ | fms => exact Encoding.fms _ _ _ _
  | fmin => exact Encoding.fmin _ _ _ _ | fmax => exact Encoding.fmax _ _ _ _ | fdiv => exact Encoding.fdiv _ _ _ _
  | fcmpeq => exact Encoding.fcmpeq _ _ _ _ | fcmplt => exact Encoding.fcmplt _ _ _ _ | fcmple => exact Encoding.fcmple _ _ _ _
  | fsgnj => exact Encoding.fsgnj _ _ _ _ | vabs => exact Encoding.vabs _ _ _ | vbcast => exact Encoding.vbcast _ _ _
  | vscan => exact Encoding.vscan _ _ _ | vpackt => exact Encoding.vpackt _ _ _ | vunpkt => exact Encoding.vunpkt _ _ _
  | fsqrt => exact Encoding.fsqrt _ _ _ | frcp => exact Encoding.frcp _ _ _ | frsq => exact Encoding.frsq _ _ _
  | fexp2 => exact Encoding.fexp2 _ _ _ | flog2 => exact Encoding.flog2 _ _ _ | fclass => exact Encoding.fclass _ _ _
  | fabs => exact Encoding.fabs _ _ _ | fneg => exact Encoding.fneg _ _ _ | vwiden => exact Encoding.vwiden _ _ _ _
  | vred => exact Encoding.vred _ _ _ _ | fred => exact Encoding.fred _ _ _ _ | viota => exact Encoding.viota _ _
  | fcvt => exact Encoding.fcvt _ _ _ _ _ | fcvti => exact Encoding.fcvti _ _ _ _ | icvtf => exact Encoding.icvtf _ _ _ _
  | tokb => exact Encoding.tokb _ _ | tokj => exact Encoding.tokj _
  | _ => exact readBack_of_no_words rfl

/-- Settles O56, which is `ReadBack` of every instruction. -/
theorem decodeEncode : Obligations.DecodeEncode := by
  unfold Obligations.DecodeEncode
  exact readBack

/-- Settles O55: the words are given in full, so that both maps evaluate on them. -/
theorem workedEncodings : Obligations.WorkedEncodings := by
  unfold Obligations.WorkedEncodings
  decide

end Sys2Proof.Machine
end

section
/-! PROOFS. Words that are no instructions, and the map that each instruction belongs to (O57). -/

namespace Sys2Proof.Machine

/-! ### What a decoding can answer -/

/-- Every instruction that the decoding r answers has the property P. -/
def Yields (P : Instr → Prop) (r : Except Nat Instr) : Prop := ∀ i, r = .ok i → P i

section
variable {P : Instr → Prop}

theorem yields_error (n : Nat) : Yields P (.error n) := fun _ h => nomatch h

theorem yields_fin {i : Instr} {bad : List Nat} (h : P i) : Yields P (fin i bad) := by
  intro j hj
  unfold fin at hj
  split at hj
  · cases hj; exact h
  · cases hj

/-- The guard lets an instruction through only on a core of its kind. -/
theorem yields_guardForm {form kind : Bool} {r : Except Nat Instr} (h : kind = false → Yields P r) : Yields P (guardForm form kind r) := by
  cases form with
  | true => exact yields_error 2
  | false =>
    cases kind with
    | true => exact yields_error 3
    | false => exact h rfl

theorem yields_ite {c : Prop} [Decidable c] {r q : Except Nat Instr} (hr : Yields P r) (hq : Yields P q) : Yields P (if c then r else q) := by
  split
  · exact hr
  · exact hq

end

/-- A control instruction that a memory core (m), or a compute core, has (R40-R43). -/
def ControlOn (m : Bool) (i : Instr) : Prop := runsOn m i = true ∧ aOps i = none

/-- The control map answers control instructions of the core's kind only. -/
theorem decodeControl_yields (m : Bool) (w ext : Word) : Yields (ControlOn m) (decodeControl m w ext) := by
  unfold decodeControl
  dsimp only
  split
  case h_58 => exact yields_error 1
  all_goals refine yields_guardForm fun kind => ?_
  -- `bc`, `csrr`, `csrw`: the condition or the register may be none
  case h_2 | h_11 | h_12 => split <;> exact yields_fin ⟨rfl, rfl⟩
  -- the three forms of `loop`
  case h_5 => exact yields_ite (yields_fin ⟨rfl, rfl⟩) (yields_ite (yields_fin ⟨rfl, rfl⟩) (yields_fin ⟨rfl, rfl⟩))
  -- the two forms of each load and store, of `send`, `tagset` and `setwin`
  case h_15 | h_16 | h_17 | h_18 | h_19 | h_20 | h_21 | h_22 | h_23 | h_24 | h_35 | h_36 | h_40 | h_48 =>
    exact yields_ite (yields_fin ⟨rfl, rfl⟩) (yields_fin ⟨rfl, rfl⟩)
  -- `mgang`, `mcode`, `accrd`, `accz`: compute cores
  case h_44 | h_45 | h_46 | h_47 => exact yields_fin ⟨congrArg not kind, rfl⟩
  -- `xld`, `xst`, `xpush`, `xws`: memory cores
  case h_53 | h_54 | h_55 | h_56 => exact yields_fin ⟨Bool.not_eq_eq_eq_not.mp kind, rfl⟩
  all_goals exact yields_fin ⟨rfl, rfl⟩

/-- The arithmetic map answers arithmetic instructions only. -/
theorem decodeArith_yields (w : Word) : Yields (fun i => (aOps i).isSome = true) (decodeArith w) := by
  unfold decodeArith
  dsimp only
  split
  case h_95 => exact yields_error 1
  all_goals exact yields_fin rfl

/-! ### Words that are refused -/

theorem decodeControl_unassigned (m : Bool) {w : Word} (ext : Word) (h : (opC w).toNat ∈ [0x0E, 0x0F, 0x25, 0x26, 0x27, 0x3E, 0x3F]) :
    decodeControl m w ext = .error 1 := by
  unfold decodeControl
  dsimp only
  generalize (opC w).toNat = op at h
  fin_cases h <;> rfl

theorem decodeArith_unassigned {w : Word} (h : (0x25 ≤ (opA w).toNat ∧ (opA w).toNat ≤ 0x2F) ∨ (0x4F ≤ (opA w).toNat ∧ (opA w).toNat ≤ 0x5F) ∨
    (0x78 ≤ (opA w).toNat ∧ (opA w).toNat ≤ 0x7B) ∨ (opA w).toNat = 0x7E ∨ (opA w).toNat = 0x7F) : decodeArith w = .error 1 := by
  unfold decodeArith
  generalize (opA w).toNat = op at h
  rcases h with ⟨lo, hi⟩ | ⟨lo, hi⟩ | ⟨lo, hi⟩ | rfl | rfl
  · interval_cases op <;> rfl
  · interval_cases op <;> rfl
  · interval_cases op <;> rfl
  · rfl
  · rfl

/-- The guard refuses every word of a row that the core's kind has not. -/
theorem guardForm_otherKind (form : Bool) (r : Except Nat Instr) : ∃ n, guardForm form true r = .error n := by
  cases form with
  | true => exact ⟨2, rfl⟩
  | false => exact ⟨3, rfl⟩

/-- Compute cores have no transfers with external memory (R43). -/
theorem decodeControl_onCompute {w : Word} (ext : Word) (lo : 0x39 ≤ (opC w).toNat) (hi : (opC w).toNat ≤ 0x3C) :
    ∃ n, decodeControl false w ext = .error n := by
  unfold decodeControl
  dsimp only
  generalize (opC w).toNat = op at lo hi
  interval_cases op <;> exact guardForm_otherKind _ _

/-- Memory cores have no matrix array (R43). -/
theorem decodeControl_onMemory {w : Word} (ext : Word) (lo : 0x30 ≤ (opC w).toNat) (hi : (opC w).toNat ≤ 0x33) :
    ∃ n, decodeControl true w ext = .error n := by
  unfold decodeControl
  dsimp only
  generalize (opC w).toNat = op at lo hi
  interval_cases op <;> exact guardForm_otherKind _ _

/-- Settles O57: the unassigned codes fall through both maps, the guard of a row refuses the other kind of core, and what is
answered belongs to the map. -/
theorem unassignedWordsRefused : Obligations.UnassignedWordsRefused := by
  unfold Obligations.UnassignedWordsRefused
  exact ⟨fun m _ ext => decodeControl_unassigned m ext, fun _ => decodeArith_unassigned,
    fun _ ext => decodeControl_onCompute ext, fun _ ext => decodeControl_onMemory ext, decodeControl_yields, decodeArith_yields⟩

end Sys2Proof.Machine
end

section
/-! PROOFS. Laws of elements: one of them replaced, one of them widened (R84). -/

namespace Sys2Proof.Machine

/-! ### One element of a row replaced (R84) -/

theorem testBit_elem (r : Row) (w e i : Nat) : (elem r w e).testBit i = (decide (i < w) && r.getLsbD (w * e + i)) := by
  rw [elem, bitsAt, Nat.testBit_mod_two_pow, Nat.testBit_shiftRight, ← BitVec.testBit_toNat]

theorem setElem_bit (r : Row) (w e x k : Nat) (h : k < 512) :
    (setElem r w e x).getLsbD k = if w * e ≤ k ∧ k < w * e + w then x.testBit (k - w * e) else r.getLsbD k := by
  unfold setElem
  rw [BitVec.getLsbD_or, BitVec.getLsbD_and, BitVec.getLsbD_not]
  simp only [BitVec.getLsbD_shiftLeft, BitVec.getLsbD_ofNat, Nat.testBit_two_pow_sub_one, Nat.testBit_mod_two_pow, h, decide_true, Bool.true_and]
  by_cases low : k < w * e
  · simp [-BitVec.getLsbD_eq_getElem, low, show ¬ w * e ≤ k by omega]
  · have inRow : k - w * e < 512 := by omega
    by_cases high : k < w * e + w
    · simp [-BitVec.getLsbD_eq_getElem, low, high, inRow, show w * e ≤ k by omega, show k - w * e < w by omega]
    · simp [-BitVec.getLsbD_eq_getElem, low, high, inRow, show ¬ k - w * e < w by omega]

/-- Bit i of element j lies outside every other element. -/
theorem bit_outside {w e j i : Nat} (hj : j ≠ e) (hi : i < w) : ¬ (w * e ≤ w * j + i ∧ w * j + i < w * e + w) := by
  rcases Nat.lt_or_gt_of_ne hj with h | h <;>
  · have apart := Nat.mul_le_mul_left w (Nat.succ_le_of_lt h)
    rw [Nat.mul_succ] at apart
    omega

/-- Replacing an element replaces that element only. -/
theorem elem_setElem (r : Row) (w e x j : Nat) (h : w * j + w ≤ 512) :
    elem (setElem r w e x) w j = if j = e then x % 2 ^ w else elem r w j := by
  apply Nat.eq_of_testBit_eq
  intro i
  rw [testBit_elem]
  by_cases hi : i < w
  · rw [setElem_bit _ _ _ _ _ (by omega)]
    by_cases hj : j = e
    · subst hj
      simp [hi]
    · simp only [bit_outside hj hi, hj, hi, if_false, testBit_elem]
  · by_cases hj : j = e
    · simp [hi, hj]
    · simp [hi, hj, testBit_elem]

theorem width_mul_count (t : ETy) : t.width * t.count = 512 := by cases t <;> rfl

/-- Element j < count of a type lies in the row. -/
theorem elem_inRow {t : ETy} {j : Nat} (h : j < t.count) : t.width * j + t.width ≤ 512 := by
  rw [← width_mul_count t, ← Nat.mul_succ]
  exact Nat.mul_le_mul_left _ h

/-! ### Widening to 32 bits (R84) -/

theorem ext32_eq_ofInt (t : ETy) (x : Nat) : ext32 t x = BitVec.ofInt 32 (val t x) := by
  apply BitVec.eq_of_toNat_eq
  rw [ext32, wrap, BitVec.toNat_ofNat, BitVec.toNat_ofInt]
  omega

theorem val_signed_bounds {t : ETy} (x : Nat) (h : t.isSigned = true) : -2 ^ 31 ≤ val t x ∧ val t x < 2 ^ 31 := by
  rw [val, if_pos h, signedVal]
  cases t with
  | i8 | i16 | i32 => simp only [ETy.width]; omega
  | _ => cases h

theorem val_unsigned_bounds {t : ETy} (x : Nat) (h : t.isSigned = false) : 0 ≤ val t x ∧ val t x < 2 ^ 32 := by
  rw [val, if_neg (by simp [h])]
  cases t <;> simp only [ETy.width] <;> omega

theorem toInt_ext32 {t : ETy} (x : Nat) (h : t.isSigned = true) : (ext32 t x).toInt = val t x := by
  obtain ⟨lo, hi⟩ := val_signed_bounds x h
  rw [ext32_eq_ofInt, BitVec.toInt_ofInt]
  exact Int.bmod_eq_of_le (by omega) (by omega)

theorem toNat_ext32 {t : ETy} (x : Nat) (h : t.isSigned = false) : ((ext32 t x).toNat : Int) = val t x := by
  obtain ⟨lo, hi⟩ := val_unsigned_bounds x h
  rw [ext32_eq_ofInt, BitVec.toNat_ofInt]
  omega

end Sys2Proof.Machine
end

section
/-! PROOFS. `sel`, `lane`, `mv`, `ins` and `anop` (O4). -/

namespace Sys2Proof.Machine

/-- `sel` (R90). -/
theorem sel_rule {d x y : Opnd} {s : State} {e : BEnt} {a : AOps} (h : ReadyA (.sel d x y) s e a) : ∃ t, exec (.sel d x y) s = .next t ∧
    DoneA s t a (laneRow (if lane (oldD s e a) 0 ≠ 0 then argA0 s e a 0 else argA0 s e a 1)) 1 := by
  rw [exec_sel, execSel, ite_not]
  exact arith_done h rfl

/-- `lane` (R92): the element keeps its value when widened, by `toInt_ext32` and `toNat_ext32`. -/
theorem lane_rule {d x : Opnd} {k : BitVec 7} {ty : ETy} {s : State} {e : BEnt} {a : AOps} (h : ReadyA (.lane d x k ty) s e a) :
    ∃ t r, exec (.lane d x k ty) s = .next t ∧ DoneA s t a (laneRow r) 1 ∧
      (ty.isSigned = true → r.toInt = valAt ty (argA s e a 0) k.toNat) ∧
      (ty.isSigned = false → (r.toNat : Int) = valAt ty (argA s e a 0) k.toNat) := by
  rw [exec_lane, execLane]
  exact ⟨_, _, arith_go h rfl, commitA_done _ _ _ _, toInt_ext32 _, toNat_ext32 _⟩

/-- `mv` (R93). -/
theorem mv_rule {d x : Opnd} {s : State} {e : BEnt} {a : AOps} (h : ReadyA (.mv d x) s e a) : ∃ t, exec (.mv d x) s = .next t ∧
    DoneA s t a (argA s e a 0) 16 := by
  rw [exec_mv, execMv]
  exact arith_done h rfl

/-- `anop` (R39). -/
theorem anop_rule {s : State} {e : BEnt} {a : AOps} (h : ReadyA .anop s e a) : ∃ t, exec .anop s = .next t ∧ DoneA s t a 0 0 := by
  rw [exec_anop, execAnop]
  exact arith_done h rfl

/-- `ins` (R94): by `elem_setElem`. -/
theorem ins_rule {d x : Opnd} {k : BitVec 7} {ty : ETy} {s : State} {e : BEnt} {a : AOps} (hk : k.toNat < ty.count)
    (h : ReadyA (.ins d x k ty) s e a) : ∃ t v, exec (.ins d x k ty) s = .next t ∧ DoneA s t a v 16 ∧
      elem v ty.width k.toNat = (argA0 s e a 0).toNat % 2 ^ ty.width ∧
      ∀ j, j < ty.count → j ≠ k.toNat → elem v ty.width j = elem (oldD s e a) ty.width j := by
  rw [exec_ins, execIns]
  refine ⟨_, _, arith_go h rfl, commitA_done _ _ _ _, ?_, fun j hj hne => ?_⟩
  · rw [elem_setElem _ _ _ _ _ (elem_inRow hk), if_pos rfl]; rfl
  · rw [elem_setElem _ _ _ _ _ (elem_inRow hj), if_neg hne]

/-- A well-formed `ins` names an element of the row. -/
theorem ins_index {d x : Opnd} {k : BitVec 7} {ty : ETy} (h : (Instr.ins d x k ty).wf = true) : k.toNat < ty.count := by
  simp only [Instr.wf, Bool.and_eq_true, decide_eq_true_eq] at h
  exact h.2

/-- Settles O4, an instruction at a time. -/
theorem laneAndRowMoves : Obligations.LaneAndRowMoves := by
  unfold Obligations.LaneAndRowMoves
  exact ⟨fun _ _ _ _ _ _ => sel_rule, fun _ _ _ _ _ _ _ _ => lane_rule, fun _ _ _ _ _ => mv_rule,
    fun _ _ _ _ _ _ _ hw => ins_rule (ins_index hw), fun _ _ _ => anop_rule⟩

end Sys2Proof.Machine
end

section
/-! PROOFS. What an arithmetic instruction leaves unchanged (O14). -/

namespace Sys2Proof.Machine

/-- What an arithmetic word changes beyond its operands: flags of cx.fpm (R75), BADT of cx.mstat (R103), the token queue (R126). -/
def ArithExtra (i : Instr) (s s1 : State) : Prop :=
  s1 = { s with core := { s.core with mstat := s1.core.mstat, slot := { s.core.slot with fpm := s1.core.slot.fpm, toks := s1.core.slot.toks } } } ∧
  (usesFpm i = false → s1.core.slot.fpm = s.core.slot.fpm) ∧ (∃ x : Exc, s1.core.slot.fpm = s.core.slot.fpm ||| BitVec.ofNat 32 (x.bits <<< 4)) ∧
  (usesMstat i = false → s1.core.mstat = s.core.mstat) ∧ (s1.core.mstat = s.core.mstat ∨ s1.core.mstat = s.core.mstat ||| 1) ∧
  ((∀ x k, i ≠ .tokb x k) → (∀ x, i ≠ .tokj x) → s1.core.slot.toks = s.core.slot.toks)

/-- A word without such an effect. -/
theorem arithExtra_refl (i : Instr) (s : State) : ArithExtra i s s :=
  ⟨rfl, fun _ => rfl, ⟨Exc.none, by simp [Exc.none, Exc.bits]⟩, fun _ => rfl, .inl rfl, fun _ _ => rfl⟩

/-- A floating-point word raises exceptions. -/
theorem arithExtra_raise {i : Instr} (h : usesFpm i = true) (s : State) (x : Exc) :
    ArithExtra i s (s.modS (fun z => { z with fpm := fpmRaise z.fpm x })) :=
  ⟨rfl, fun h' => by simp [h] at h', ⟨x, rfl⟩, fun _ => rfl, .inl rfl, fun _ _ => rfl⟩

/-- `vunpkt` sets BADT. -/
theorem arithExtra_badt {i : Instr} (h : usesMstat i = true) (s : State) :
    ArithExtra i s (s.modC (fun c => { c with mstat := c.mstat ||| mstatBADT })) :=
  ⟨rfl, fun _ => rfl, ⟨Exc.none, by simp [Exc.none, Exc.bits]⟩, fun h' => by simp [h] at h', .inr rfl, fun _ _ => rfl⟩

/-- `tokb` and `tokj` push a token. -/
theorem arithExtra_push {i : Instr} (h : (∃ x k, i = .tokb x k) ∨ ∃ x, i = .tokj x) {s s1 : State} {t : Token} {v : Row} {n : Nat}
    (g : pushToken t s = .go s1 v n) : ArithExtra i s s1 := by
  unfold pushToken at g
  split at g <;> cases g
  refine ⟨rfl, fun _ => rfl, ⟨Exc.none, by simp [Exc.none, Exc.bits]⟩, fun _ => rfl, .inl rfl, fun h1 h2 => ?_⟩
  obtain ⟨x, k, e⟩ | ⟨x, e⟩ := h
  · exact absurd e (h1 x k)
  · exact absurd e (h2 x)

/-- The meaning m of the arithmetic word i takes the common course of `arith`, and its effect changes no more than `ArithExtra`
allows. -/
def TakesArith (i : Instr) (m : State → Out) : Prop :=
  ∃ f : BEnt → Row → List Row → State → ARes, (∀ s, m s = arith i f s) ∧
    ∀ e old rs s s1 v n, f e old rs s = .go s1 v n → ArithExtra i s s1

theorem arith_takes {i : Instr} {f : BEnt → Row → List Row → State → ARes}
    (h : ∀ e old rs s s1 v n, f e old rs s = .go s1 v n → ArithExtra i s s1) : TakesArith i (fun s => arith i f s) := ⟨f, fun _ => rfl, h⟩

/-- An effect that only computes a result of n lanes. -/
theorem pure_takes {i : Instr} {v : BEnt → Row → List Row → State → Row} {n : Nat} :
    TakesArith i (fun s => arith i (fun e old rs s => .go s (v e old rs s) n) s) := by
  refine arith_takes fun e old rs s s1 w m g => ?_
  cases g
  exact arithExtra_refl i s
theorem scalar_takes (i : Instr) (f : Word → Word → Word) : TakesArith i (fun s => scalar i f s) := pure_takes
theorem vector_takes (i : Instr) (f : Row → Row → Row → Row) : TakesArith i (fun s => vector i f s) := pure_takes
theorem elementwise_takes (i : Instr) (t : ETy) (f : Int → Int → Int → Nat) : TakesArith i (fun s => elementwise i t f s) :=
  vector_takes i _
theorem bitwise_takes (i : Instr) (t : ETy) (f : Nat → Nat → Nat → Nat) : TakesArith i (fun s => bitwise i t f s) :=
  vector_takes i _
theorem fBits_takes (i : Instr) (t : ETy) (f : Nat → Nat → Nat) : TakesArith i (fun s => fBits i t f s) := pure_takes
theorem divide_takes (i : Instr) (f : Word → Word → Word) : TakesArith i (fun s => divide i f s) := by
  refine arith_takes fun e old rs s s1 w m g => ?_
  dsimp only at g
  split at g <;> cases g
  exact arithExtra_refl i s
theorem floating_takes {i : Instr} (h : usesFpm i = true) (n : Nat) (f : RMode → Row → Row → Row → Row × Exc) :
    TakesArith i (fun s => floating i n f s) := by
  refine arith_takes fun e old rs s s1 w m g => ?_
  dsimp only at g
  split at g <;> cases g
  exact arithExtra_raise h s _

theorem fElem_takes {i : Instr} (h : usesFpm i = true) (t : ETy) (f : RMode → Nat → Nat → Nat → Nat × Exc) :
    TakesArith i (fun s => fElem i t f s) := floating_takes h _ _
theorem fConv_takes {i : Instr} (h : usesFpm i = true) (t src : ETy) (f : RMode → Nat → Nat × Exc) :
    TakesArith i (fun s => fConv i t src f s) := floating_takes h _ _

/-- Every arithmetic instruction takes the common course. -/
theorem exec_takes (i : Instr) (h : (aOps i).isSome = true) : TakesArith i (fun s => exec i s) := by
  cases i with
  | add | sub | mul | mulh | mulhn | and | or | xor | shl | shr | sra | min | max | minn | maxn | slt | sltn | seq | clz |
  popc | addi | andi | ori | xori | shli | shri | srai | slti =>
    simp only [exec_add, exec_sub, exec_mul, exec_mulh, exec_mulhn, exec_and, exec_or, exec_xor, exec_shl, exec_shr, exec_sra,
      exec_min, exec_max, exec_minn, exec_maxn, exec_slt, exec_sltn, exec_seq, exec_clz, exec_popc, exec_addi, exec_andi,
      exec_ori, exec_xori, exec_shli, exec_shri, exec_srai, exec_slti, execAdd, execSub, execMul, execMulh, execMulhn,
      execAnd, execOr, execXor, execShl, execShr, execSra, execMin, execMax, execMinn, execMaxn, execSlt, execSltn, execSeq,
      execClz, execPopc, execAddi, execAndi, execOri, execXori, execShli, execShri, execSrai, execSlti]
    exact scalar_takes _ _
  | div | divn | rem | remn =>
    simp only [exec_div, exec_divn, exec_rem, exec_remn, execDiv, execDivn, execRem, execRemn]
    exact divide_takes _ _
  | anop | sel | mv | lane | ins | vred =>
    simp only [exec_anop, exec_sel, exec_mv, exec_lane, exec_ins, exec_vred, execAnop, execSel, execMv, execLane, execIns,
      execVred]
    exact pure_takes
  | vadd | vsub | vmul | vmulh | vmac | vmin | vmax | vabs | vadds | vsubs | vcmpeq | vcmplt | vcmple =>
    simp only [exec_vadd, exec_vsub, exec_vmul, exec_vmulh, exec_vmac, exec_vmin, exec_vmax, exec_vabs, exec_vadds,
      exec_vsubs, exec_vcmpeq, exec_vcmplt, exec_vcmple, execVadd, execVsub, execVmul, execVmulh, execVmac, execVmin,
      execVmax, execVabs, execVadds, execVsubs, execVcmpeq, execVcmplt, execVcmple]
    exact elementwise_takes _ _ _
  | vand | vor | vxor | vshl | vshr | vsra | vsel =>
    simp only [exec_vand, exec_vor, exec_vxor, exec_vshl, exec_vshr, exec_vsra, exec_vsel, execVand, execVor, execVxor,
      execVshl, execVshr, execVsra, execVsel]
    exact bitwise_takes _ _ _
  | vbcast | vperm | vrot | vnarrow | vwiden | vscan | vpackt | viota | vdot4 =>
    simp only [exec_vbcast, exec_vperm, exec_vrot, exec_vnarrow, exec_vwiden, exec_vscan, exec_vpackt, exec_viota, exec_vdot4,
      execVbcast, execVperm, execVrot, execVnarrow, execVwiden, execVscan, execVpackt, execViota, execVdot4]
    exact vector_takes _ _
  | fclass | fabs | fneg | fsgnj =>
    simp only [exec_fclass, exec_fabs, exec_fneg, exec_fsgnj, execFclass, execFabs, execFneg, execFsgnj]
    exact fBits_takes _ _ _
  | fadd | fsub | fmul | fma | fms | fmin | fmax | fdiv | fsqrt | frcp | frsq | fexp2 | flog2 | fcmpeq | fcmplt | fcmple =>
    simp only [exec_fadd, exec_fsub, exec_fmul, exec_fma, exec_fms, exec_fmin, exec_fmax, exec_fdiv, exec_fsqrt, exec_frcp,
      exec_frsq, exec_fexp2, exec_flog2, exec_fcmpeq, exec_fcmplt, exec_fcmple, execFadd, execFsub, execFmul, execFma,
      execFms, execFmin, execFmax, execFdiv, execFsqrt, execFrcp, execFrsq, execFexp2, execFlog2, execFcmpeq, execFcmplt,
      execFcmple]
    exact fElem_takes rfl _ _
  | fcvt | fcvti | icvtf =>
    simp only [exec_fcvt, exec_fcvti, exec_icvtf, execFcvt, execFcvti, execIcvtf]
    exact fConv_takes rfl _ _ _
  | fred =>
    simp only [exec_fred, execFred]
    exact floating_takes rfl _ _
  | vunpkt =>
    simp only [exec_vunpkt, execVunpkt]
    refine arith_takes fun e old rs s s1 v n g => ?_
    split at g <;> cases g
    · exact arithExtra_badt rfl s
    · exact arithExtra_refl _ s
  | tokb =>
    simp only [exec_tokb, execTokb]
    exact arith_takes fun e old rs s s1 v n g => arithExtra_push (.inl ⟨_, _, rfl⟩) g
  | tokj =>
    simp only [exec_tokj, execTokj]
    refine arith_takes fun e old rs s s1 v n g => ?_
    split at g
    · cases g
    · exact arithExtra_push (.inr ⟨_, rfl⟩) g
  | _ => cases h

/-- Settles O14: an arithmetic word stalls, traps, or completes with what `ArithExtra` allows (`exec_takes`, `arith_cases`). -/
theorem arithmeticFrame : Obligations.ArithmeticFrame := by
  unfold Obligations.ArithmeticFrame
  intro i s t h ht
  obtain ⟨f, hf, hx⟩ := exec_takes i h
  obtain hs | ht | ⟨e, r, a, s1, v, n, -, ha, g, rfl⟩ := arith_cases ((hf s).symm.trans ht)
  · exact .inl hs
  · exact .inr (.inl ht)
  · exact .inr (.inr ⟨a, s1, v, n, ha, commitA_done .., hx _ _ _ _ _ _ _ g⟩)

end Sys2Proof.Machine
end

section
/-! PROOFS. The operations that leave memory alone, for the form of memory (O60): their next state has the memory of the state before. -/

namespace Sys2Proof.Machine

/-- The fold of steps that leave memory alone leaves it alone. -/
theorem foldl_mem {α : Type} {f : State → α → State} (hf : ∀ s a, (f s a).mem = s.mem) (l : List α) (s : State) :
    (l.foldl f s).mem = s.mem := by
  induction l generalizing s with
  | nil => rfl
  | cons a r ih => exact (ih (f s a)).trans (hf s a)

@[simp] theorem rltAdd_mem (l : List Reg) (s : State) : (rltAdd l s).1.mem = s.mem := by
  induction l generalizing s with
  | nil => rfl
  | cons r rs ih => simp [rltAdd, ih]
@[simp] theorem newOrder_mem (s : State) (cl : Nat) : (newOrder s cl).2.mem = s.mem := rfl
@[simp] theorem takeFree_mem (s : State) : (takeFree s).2.mem = s.mem := rfl
@[simp] theorem lateAddr_mem (k : Nat) (s : State) : (lateAddr k s).2.mem = s.mem := by
  unfold lateAddr; split <;> rfl
@[simp] theorem issueC_mem (s0 s1 : State) (p : CSpec) (v : Row) (target : Option Word) :
    (issueC s0 s1 p v target).mem = s1.mem := rfl
@[simp] theorem queueImages_mem (imgs : List Img) (s0 s : State) : (queueImages imgs s0 s).mem = s.mem := by
  unfold queueImages; split <;> rfl
@[simp] theorem enqueue_mem (s : State) (j : Job) (regs : List Reg) : (enqueue s j regs).mem = s.mem := by
  simp [enqueue]
@[simp] theorem setClocks_mem (s : State) (d : List Nat) (n : Nat) : (setClocks s d n).mem = s.mem :=
  foldl_mem (fun _ _ => modCl_mem _ _ _) _ _
@[simp] theorem rltDrop_mem (s : State) (es : List (Nat × Nat)) : (rltDrop s es).mem = s.mem :=
  foldl_mem (fun _ _ => modCl_mem _ _ _) _ _
@[simp] theorem shrinkEntries_mem (s : State) (j : Job) (b : Nat) : (shrinkEntries s j b).mem = s.mem :=
  foldl_mem (fun _ _ => modCl_mem _ _ _) _ _
@[simp] theorem dropLentWrites_mem (s : State) (w : Word) (f : Foot) : (dropLentWrites s w f).mem = s.mem := by
  exact foldl_mem (fun _ _ => modCl_mem _ _ _) _ _
@[simp] theorem escalate_mem (s : State) (t : Trap) : (escalate s t).mem = s.mem := rfl
@[simp] theorem enterTrap_mem (s : State) (t : Trap) : (enterTrap s t).mem = s.mem := by
  unfold enterTrap; dsimp only
  (repeat' split) <;> simp
@[simp] theorem takeTrap_mem (s : State) (t : Trap) : (takeTrap s t).mem = s.mem := by
  unfold takeTrap; split <;> simp
@[simp] theorem checkpoint_mem (s : State) : (checkpoint s).mem = s.mem := rfl
@[simp] theorem countBundle_mem (s : State) : (countBundle s).mem = s.mem := by
  unfold countBundle
  (repeat' split) <;> simp
@[simp] theorem outbound_mem (s : State) : (outbound s).mem = s.mem := by
  unfold outbound; split <;> rfl
@[simp] theorem cregWrite_mem (s : State) (r : CReg) (v : Row) : (cregWrite s r v).mem = s.mem := by
  unfold cregWrite; split <;> rfl
@[simp] theorem askPage_mem (s : State) (m : Miss) : (askPage s m).mem = s.mem := by
  unfold askPage; dsimp only
  (repeat' split) <;> simp
@[simp] theorem askExt_mem (s : State) (w : Word) (r : ExtReq) : (askExt s w r).mem = s.mem := by
  unfold askExt; dsimp only
  (repeat' split) <;> simp
@[simp] theorem touchAtc_mem (x : Xlat) (s : State) (w : Who) (a : Nat) : (touchAtc x s w a).mem = s.mem := by
  unfold touchAtc; dsimp only
  (repeat' split) <;> simp
@[simp] theorem mchkStop_mem (s : State) (k : KRef) (w : Word) (hv : Bool) (ctxid : Nat) (proc : Nat) (info : Nat) (faddr : Nat) :
    (mchkStop s k w hv ctxid proc info faddr).mem = s.mem := rfl
@[simp] theorem linkStop_mem (s : State) (ls : List (List Nat)) (k : KRef) (w : Word) (hv : Bool) (ctxid : Nat) (proc : Nat) :
    (linkStop s ls k w hv ctxid proc).mem = s.mem := by
  unfold linkStop; split <;> rfl
@[simp] theorem setJournal_mem (s : State) (k : KRef) (j : List JWrite) : (setJournal s k j).mem = s.mem := rfl
@[simp] theorem modQueue_mem (s : State) (q : Nat) (f : Queue → Queue) : (modQueue s q f).mem = s.mem := rfl
@[simp] theorem notifyWrite_mem (s : State) (q : Nat) (off : Nat) (v : Word) : (notifyWrite s q off v).mem = s.mem := by
  unfold notifyWrite; split <;> rfl
@[simp] theorem notifyPut_mem (s : State) (q : Nat) (off : Nat) (bs : List Byte) : (notifyPut s q off bs).mem = s.mem := by
  unfold notifyPut; split <;> simp
@[simp] theorem logUndo_mem (s : State) (w : Word) (p : Place) (n : Nat) : (logUndo s w p n).mem = s.mem := by
  unfold logUndo
  (repeat' split) <;> simp
@[simp] theorem modJobs_mem (s : State) (p : Job → Bool) (f : Job → Job) : (modJobs s p f).mem = s.mem := rfl
@[simp] theorem restart_mem (s : State) (p : Job → Bool) : (restart s p).mem = s.mem := by
  unfold restart; split <;> rfl
@[simp] theorem kilnStop_mem (s : State) (k : KRef) (w : Word) (hv : Bool) (ctxid : Nat) (proc : Nat) (cause : Nat) (info : Nat)
    (faddr : Nat) : (kilnStop s k w hv ctxid proc cause info faddr).mem = s.mem := rfl
@[simp] theorem goFar_mem (m : Msg) (s : State) : (goFar m s).mem = s.mem := by
  unfold goFar; simp
@[simp] theorem setDct_mem (s : State) (cl : Nat) (e : Nat) (v : Option DctEnt) : (setDct s cl e v).mem = s.mem := rfl
@[simp] theorem releaseHeld_mem (s : State) (cl : Nat) (e : Nat) (hdr : Word) (dest : Word) (row : Option Row) (k : KRef)
    (ctx : Nat) : (releaseHeld s cl e hdr dest row k ctx).mem = s.mem := rfl
@[simp] theorem decrement_mem (s : State) (d : Dec) : (decrement s d).mem = s.mem := by
  unfold decrement; dsimp only
  (repeat' split) <;> simp
@[simp] theorem drainDecs_mem (s : State) (cl : Nat) (w : Word) (hv : Bool) (ctx : Nat) :
    (drainDecs s cl w hv ctx).mem = s.mem := by
  unfold drainDecs
  simp [foldl_mem]
@[simp] theorem planDomain_mem (s : State) (cl : Nat) : (planDomain s cl).mem = s.mem := by
  unfold planDomain; dsimp only
  (repeat' split) <;> simp
@[simp] theorem joinDomain_mem (s : State) (cl : Nat) : (joinDomain s cl).mem = s.mem := by
  unfold joinDomain; split <;> simp
@[simp] theorem setBar_mem (s : State) (b : Bar) : (setBar s b).mem = s.mem := rfl
@[simp] theorem withdraw_mem (s : State) (cl : Nat) (l : List Nat) (g : GangSt) : (withdraw s cl l g).mem = s.mem := by
  unfold withdraw
  simp [foldl_mem]
@[simp] theorem dropJob_mem (s : State) (cl : Nat) (j : Job) : (dropJob s cl j).mem = s.mem := by
  unfold dropJob; simp
@[simp] theorem abortHarvest_mem (s : State) (w : Word) (f : Foot) : (abortHarvest s w f).mem = s.mem := by
  unfold abortHarvest
  simp [foldl_mem]
@[simp] theorem unspill_mem (s : State) (w : Word) : (unspill s w).mem = s.mem := by
  unfold unspill; dsimp only
  (repeat' split) <;> simp
@[simp] theorem niDrop_mem (s : State) (w : Word) (i : Nat) : (niDrop s w i).mem = s.mem := by
  unfold niDrop; simp
@[simp] theorem chargeN_mem (n : Nat) (s : State) (w : Word) (cls : AClass) (ctxid : Nat) (proc : Nat) (k : KRef) :
    (chargeN n s w cls ctxid proc k).mem = s.mem := by
  unfold chargeN; simp
@[simp] theorem charge_mem (s : State) (w : Word) (cls : AClass) (ctxid : Nat) (proc : Nat) (k : KRef) :
    (charge s w cls ctxid proc k).mem = s.mem := by
  unfold charge; simp
@[simp] theorem chargeSaggar_mem (s : State) (w : Word) (p : Parked) : (chargeSaggar s w p).mem = s.mem := by
  unfold chargeSaggar; simp
@[simp] theorem unbank_mem (s : State) (w : Word) (p : Parked) : (unbank s w p).1.mem = s.mem := by
  unfold unbank; dsimp only
  split <;> simp
@[simp] theorem saveOldest_mem (s : State) (w : Word) : (saveOldest s w).mem = s.mem := by
  unfold saveOldest; dsimp only
  (repeat' split) <;> simp

@[simp] theorem park_mem (s : State) (w : Word) (f : Foot) : (park s w f).mem = s.mem := by
  unfold park; simp
@[simp] theorem commitA_mem (s : State) (a : AOps) (v : Row) (n : Nat) : (commitA s a v n).mem = s.mem := rfl
@[simp] theorem chargeMsg_mem (m : Msg) (s : State) : (chargeMsg m s).mem = s.mem := by
  unfold chargeMsg; split <;> simp
@[simp] theorem markStarted_mem (s : State) (k : KRef) : (markStarted s k).mem = s.mem := rfl
@[simp] theorem arriveAt_mem (part : Nat) (grp : Nat) (w : Word) (s : State) : (arriveAt part grp w s).mem = s.mem := by
  unfold arriveAt; dsimp only
  (repeat' split) <;> simp [foldl_mem]
@[simp] theorem answerSend_mem (c : Core) (sid : Nat) (d : SendWait) (a : SendAns) (s : State) :
    (answerSend c sid d a s).mem = s.mem := by
  unfold answerSend; simp
@[simp] theorem ranOn_mem (s : State) (w : Word) (k : KRef) : (ranOn s w k).mem = s.mem := by
  unfold ranOn; split <;> rfl
@[simp] theorem jobHeld_mem (s : State) (j : Job) : (jobHeld s j).mem = s.mem := by
  unfold jobHeld; simp
@[simp] theorem setJob_mem (s : State) (cl : Nat) (j : Job) : (setJob s cl j).mem = s.mem := rfl
@[simp] theorem accepted_mem (s : State) (j : Job) : (accepted s j).mem = s.mem := rfl
@[simp] theorem beatFault_mem (s : State) (cl : Nat) (j : Job) (e : Nat × Tr) : (beatFault s cl j e).mem = s.mem := by
  unfold beatFault
  (repeat' split) <;> simp
@[simp] theorem touchRange_mem (x : Xlat) (s : State) (w : Who) (a : Nat) (n : Nat) : (touchRange x s w a n).mem = s.mem := by
  unfold touchRange; simp
@[simp] theorem heldUndo_mem (h : Held) (p : Spot) (s : State) : (heldUndo h p s).mem = s.mem := by
  unfold heldUndo; split <;> simp
@[simp] theorem chargeScales_mem (cl : Nat) (g : GangWord) (s : State) (m : Member) : (chargeScales cl g s m).mem = s.mem := by
  unfold chargeScales; simp
@[simp] theorem memberStep_mem (cl : Nat) (o : GangOp) (m : Member) (bad : Bool) (s : State) :
    (memberStep cl o m bad s).mem = s.mem := by
  unfold memberStep; simp
@[simp] theorem memberChecks_mem (cl : Nat) (ue : Nat) (s : State) (m : Member) : (memberChecks cl ue s m).mem = s.mem := by
  exact foldl_mem (fun _ _ => mchkStop_mem _ _ _ _ _ _ _ _) _ _
@[simp] theorem tryUnpark_mem (s : State) (w : Word) : (tryUnpark s w).mem = s.mem := by
  unfold tryUnpark; dsimp only
  (repeat' split) <;> simp
@[simp] theorem capStore_mem (s : State) (i : Nat) (c : BitVec 128) : (capStore s i c).mem = s.mem := rfl
@[simp] theorem deriveBank_mem (s : State) (w : Word) (b : Nat) : (deriveBank s w b).mem = s.mem := rfl
@[simp] theorem moveChain_mem (s : State) (a : Word) (b : Word) (k : KRef) (ctx : Nat) : (moveChain s a b k ctx).mem = s.mem := by
  unfold moveChain; simp
@[simp] theorem tellAsker_mem (f : Xlat → Xlat) (s : State) (w : Word) (who : Asker) (page : Nat) :
    (tellAsker f s w who page).mem = s.mem := by
  unfold tellAsker; split <;> simp
@[simp] theorem fillL1_mem (t : TlbEnt) (s : State) (m : Miss) : (fillL1 t s m).mem = s.mem := by
  unfold fillL1; simp
@[simp] theorem invalidate_mem (part : Nat) (proc : Option Nat) (va : Nat) (len : Nat) (s : State) :
    (invalidate part proc va len s).mem = s.mem := rfl
@[simp] theorem dropExt_mem (s : State) (w : Word) (q : ExtReq) : (dropExt s w q).mem = s.mem := by
  unfold dropExt; simp
@[simp] theorem failExt_mem (s : State) (w : Word) (q : ExtReq) : (failExt s w q).mem = s.mem := by
  unfold failExt; simp
@[simp] theorem started_mem (s : State) (x : Queue) : (started s x).mem = s.mem := rfl
@[simp] theorem retire_mem (s : State) (q : Nat) (r : Retired) : (retire s q r).mem = s.mem := rfl
@[simp] theorem derive_mem (s : State) (x : Queue) (i : Nat) (a : Nat) (n : Nat) : (derive s x i a n).mem = s.mem := rfl
@[simp] theorem startLaunch_mem (s : State) (x : Queue) (ws : List Word) (l : List Word) (rows : List Row)
    (gs : List (Nat × List Word)) : (startLaunch s x ws l rows gs).mem = s.mem := by
  unfold startLaunch
  simp [foldl_mem]
@[simp] theorem walkerNext_mem (s : State) (i : Nat) (w : Walker) (issued : Nat) : (walkerNext s i w issued).mem = s.mem := by
  unfold walkerNext; split <;> rfl
@[simp] theorem dropGroups_mem (s : State) (k : Kern) : (dropGroups s k).mem = s.mem := rfl
@[simp] theorem dropGangs_mem (s : State) (k : KRef) : (dropGangs s k).mem = s.mem := by
  unfold dropGangs; simp
@[simp] theorem dropStreams_mem (s : State) (k : KRef) : (dropStreams s k).mem = s.mem := by
  unfold dropStreams; simp
@[simp] theorem dropJobs_mem (s : State) (k : KRef) : (dropJobs s k).mem = s.mem := by
  unfold dropJobs
  simp [foldl_mem]
@[simp] theorem abandonExt_mem (p : KRef → Bool) (s : State) : (abandonExt p s).mem = s.mem := rfl
@[simp] theorem dropContexts_mem (s : State) (k : KRef) : (dropContexts s k).mem = s.mem := rfl
@[simp] theorem dropMsgs_mem (s : State) (k : KRef) : (dropMsgs s k).mem = s.mem := by
  unfold dropMsgs
  simp [foldl_mem]
@[simp] theorem dropEntries_mem (s : State) (k : KRef) : (dropEntries s k).mem = s.mem := rfl
@[simp] theorem dropHeld_mem (s : State) (k : KRef) : (dropHeld s k).mem = s.mem := by
  unfold dropHeld
  simp [foldl_mem]
@[simp] theorem kilnPut_mem (s : State) (i : Nat) (v : BitVec 128) : (kilnPut s i v).mem = s.mem := rfl
@[simp] theorem leavePart_mem (s : State) (part : Nat) (proc : Nat) : (leavePart s part proc).mem = s.mem := by
  unfold leavePart
  split
  · rfl
  · split <;> simp
@[simp] theorem dropSavedMem_mem (s : State) (proc : Nat) : (dropSavedMem s proc).mem = s.mem := by
  unfold dropSavedMem; split <;> rfl
@[simp] theorem withdrawPosts_mem (q : Nat) (s : State) : (withdrawPosts q s).mem = s.mem := by
  unfold withdrawPosts; simp
@[simp] theorem freeMsg_mem (s : State) (w : Word) (x : Slot) : (freeMsg s w x).mem = s.mem := by
  unfold freeMsg; split <;> simp
@[simp] theorem saveShadow_mem (q : Nat) (s : State) (w : Word) : (saveShadow q s w).mem = s.mem := by
  unfold saveShadow; dsimp only
  (repeat' split) <;> simp
@[simp] theorem saveOwner_mem (q : Nat) (s : State) (w : Word) : (saveOwner q s w).mem = s.mem := by
  unfold saveOwner; dsimp only
  (repeat' split) <;> simp
@[simp] theorem saveMems_mem (q : Nat) (s : State) : (saveMems q s).mem = s.mem := by
  unfold saveMems; split <;> rfl
@[simp] theorem saveDct_mem (q : Nat) (s : State) : (saveDct q s).mem = s.mem := rfl
@[simp] theorem saveMsgs_mem (q : Nat) (s : State) : (saveMsgs q s).mem = s.mem := by
  unfold saveMsgs
  simp [foldl_mem]
@[simp] theorem abandon_mem (q : Nat) (s : State) : (abandon q s).mem = s.mem := rfl
@[simp] theorem heldMem_mem (proc : Nat) (part : Nat) (s : State) : (heldMem proc part s).mem = s.mem := rfl
@[simp] theorem leaveMem_mem (s : State) (cl : Nat) : (leaveMem s cl).mem = s.mem := rfl
@[simp] theorem chargePkg_mem (s : State) (e : Nat) : (chargePkg s e).mem = s.mem := rfl
@[simp] theorem chargeCones_mem (s : State) (proc : Nat) (k : KRef) (cones : Nat) : (chargeCones s proc k cones).mem = s.mem := rfl
@[simp] theorem meterOne_mem (cl : Nat) (acts : List Act) (s : State) (o : Nat × Nat × KRef) :
    (meterOne cl acts s o).mem = s.mem := by
  unfold meterOne; split <;> rfl
@[simp] theorem setLink_mem (s : State) (l : Link) : (setLink s l).mem = s.mem := rfl
@[simp] theorem completePublish_mem (s : State) (p : Publish) : (completePublish s p).mem = s.mem := by
  unfold completePublish
  simp [foldl_mem]
@[simp] theorem publishDue_mem (s : State) : (publishDue s).mem = s.mem := by
  unfold publishDue
  simp [foldl_mem]
@[simp] theorem multicast_mem (p : Part) (f : List Byte) (g : List Byte) (s : State) : (multicast p f g s).mem = s.mem := by
  unfold multicast; split <;> rfl
@[simp] theorem returnTrap_mem (s : State) : (returnTrap s).mem = s.mem := by
  unfold returnTrap; simp
@[simp] theorem readEret_mem (s : State) : (readEret s).mem = s.mem := by
  unfold readEret; split <;> rfl
@[simp] theorem serviceFence_mem (s : State) : (serviceFence s).mem = s.mem := by
  unfold serviceFence; split <;> rfl
@[simp] theorem serviceDone_mem (s : State) (w : Word) : (serviceDone s w).mem = s.mem := by
  unfold serviceDone; split <;> simp
@[simp] theorem tick_mem (s : State) : (tick s).mem = s.mem := rfl
@[simp] theorem ownerTurn_mem (s : State) : (ownerTurn s).mem = s.mem := by
  unfold ownerTurn; split <;> rfl
@[simp] theorem rotate_mem (s : State) : (rotate s).mem = s.mem := by
  unfold rotate; dsimp only
  (repeat' split) <;> simp
theorem deliverOne_mem {s t : State} {m : Msg} {w : Word} (h : deliverOne s m w = some t) : t.mem = s.mem := by
  unfold deliverOne at h; dsimp only at h
  (repeat' split at h) <;> cases h <;> simp
theorem deliverAll_mem {m : Msg} {l : List Word} {s t : State} (h : deliverAll m l s = .ok t) : t.mem = s.mem := by
  induction l generalizing s with
  | nil => cases h; rfl
  | cons w ws ih =>
    unfold deliverAll at h
    split at h
    · next u hu => exact (ih h).trans (deliverOne_mem hu)
    · cases h

@[simp] theorem answerSource_mem (m : Msg) (a : SendAns) (s : State) : (answerSource m a s).mem = s.mem := by
  unfold answerSource; dsimp only
  split
  · next h => split <;> simp [deliverAll_mem h]
  · split <;> rfl
@[simp] theorem saveParked_mem (q : Nat) (s : State) (w : Word) : (saveParked q s w).mem = s.mem := by
  unfold saveParked; dsimp only
  rw [foldl_mem (fun s p => by simp)]
  split <;> simp

@[simp] theorem pairLog_mem (i : Instr) (s t : State) : (pairLog i s t).mem = t.mem := by
  unfold pairLog
  split
  · dsimp only; split <;> rfl
  · rfl
@[simp] theorem tally_mem (i : Instr) (s t : State) : (tally i s t).mem = t.mem := by
  unfold tally; dsimp only
  (repeat' split) <;> simp


/-- The state that a control effect ends with. -/
def CRes.state : CRes → State
  | .wait _ s | .trap s _ | .go s _ _ | .out s _ => s

@[simp] theorem CRes.state_wait (n : Nat) (s : State) : (CRes.wait n s).state = s := rfl
@[simp] theorem CRes.state_trap (s : State) (t : Trap) : (CRes.trap s t).state = s := rfl
@[simp] theorem CRes.state_go (s : State) (v : Row) (target : Option Word) : (CRes.go s v target).state = s := rfl
@[simp] theorem CRes.state_out (s : State) (v : Row) : (CRes.out s v).state = s := rfl

/-- The next state that an outcome answers, s where it answers none. -/
def nextOr (s : State) : Out → State
  | .next t => t
  | _ => s

@[simp] theorem nextOr_next (s t : State) : nextOr s (.next t) = t := rfl
@[simp] theorem stallC_mem (s t : State) (n : Nat) : (nextOr s (stallC t n)).mem = t.mem := rfl
@[simp] theorem stallA_mem (s t : State) (n : Nat) : (nextOr s (stallA t n)).mem = t.mem := rfl

end Sys2Proof.Machine
end

section
/-! PROOFS. The effects of control words that leave memory alone (O60). -/

namespace Sys2Proof.Machine

@[simp] theorem loopPush_mem (n : Word) (off : BitVec 15) (s : State) : (loopPush n off s).state.mem = s.mem := by
  unfold loopPush; dsimp only
  (repeat' split) <;> simp
@[simp] theorem waitPage_mem (s : State) (page : Nat) : (waitPage s page).state.mem = s.mem := by
  unfold waitPage; simp
@[simp] theorem waitExt_mem (s : State) (r : ExtReq) (ea : Nat) : (waitExt s r ea).state.mem = s.mem := by
  unfold waitExt; split <;> simp
@[simp] theorem leaves_mem (s : State) (l : List Spot) (s' : State) (v : Row) : (leaves s l s' v).state.mem = s'.mem := by
  unfold leaves; split <;> rfl
@[simp] theorem hold_mem (s : State) (l : List Spot) (s' : State) : (hold s l s').state.mem = s'.mem := by
  unfold hold; simp
@[simp] theorem malformed_mem (s : State) (r : Row) (i : Nat) : (malformed s r i).state.mem = s.mem := rfl
@[simp] theorem cpfTrap_mem (s : State) (l : List Job) : (cpfTrap s l).state.mem = s.mem := by
  unfold cpfTrap; split <;> rfl
@[simp] theorem waitFence_mem (kind : FKind) (e : Bool) (s : State) : (waitFence kind e s).state.mem = s.mem := by
  unfold waitFence; dsimp only
  (repeat' split) <;> simp
@[simp] theorem rangeTrap_mem (s : State) (a : Nat) (t : Tr) : (rangeTrap s a t).state.mem = s.mem := by
  unfold rangeTrap; split <;> simp
@[simp] theorem startCopy_mem (k : CpyKind) (r : Row) (s : State) : (startCopy k r s).state.mem = s.mem := by
  unfold startCopy; dsimp only
  (repeat' split) <;> simp
@[simp] theorem waitBatch_mem (all : Bool) (b : Nat) (s : State) : (waitBatch all b s).state.mem = s.mem := by
  unfold waitBatch; dsimp only
  (repeat' split) <;> simp
@[simp] theorem imageTrap_mem (s : State) (reason : Nat) (ea : Nat) : (imageTrap s reason ea).state.mem = s.mem := rfl
@[simp] theorem msgTrap_mem (s : State) (reason : Nat) (l5 : Nat) (l6 : Nat) : (msgTrap s reason l5 l6).state.mem = s.mem := rfl
@[simp] theorem laneTrap_mem (s : State) (reason : Nat) (a : Row) (i : Nat) : (laneTrap s reason a i).state.mem = s.mem := rfl
@[simp] theorem ovfTrap_mem (s : State) (w : Word) (group : Bool) : (ovfTrap s w group).state.mem = s.mem := rfl
@[simp] theorem sendDone_mem (b : Opnd) (n : Nat) (s : State) : (sendDone b n s).state.mem = s.mem := rfl
@[simp] theorem armEntry_mem (b : Opnd) (a : Opnd) (r : Row) (s : State) : (armEntry b a r s).state.mem = s.mem := by
  unfold armEntry; dsimp only
  (repeat' split) <;> simp
@[simp] theorem waitBarrier_mem (grp : Nat) (s : State) : (waitBarrier grp s).state.mem = s.mem := by
  unfold waitBarrier; dsimp only
  (repeat' split) <;> simp
@[simp] theorem postGang_mem (g : GangWord) (a : Nat) (b : Nat) (es : List (Nat × Nat)) (s : State) :
    (postGang g a b es s).state.mem = s.mem := by
  unfold postGang; dsimp only
  (repeat' split) <;> simp
@[simp] theorem gangStep_mem (g : GangWord) (a : Nat) (b : Nat) (s : State) : (gangStep g a b s).state.mem = s.mem := by
  unfold gangStep; dsimp only
  (repeat' split) <;> simp
@[simp] theorem readTile_mem (conv : Conv) (a : Opnd) (sel : Word) (s : State) : (readTile conv a sel s).state.mem = s.mem := by
  unfold readTile; dsimp only
  (repeat' split) <;> simp
@[simp] theorem winTrap_mem (s : State) (reason : Nat) : (winTrap s reason).state.mem = s.mem := rfl
@[simp] theorem setWindow_mem (wb : Nat) (wl : Nat) (s : State) : (setWindow wb wl s).state.mem = s.mem := by
  unfold setWindow; dsimp only
  (repeat' split) <;> simp
@[simp] theorem startTransfer_mem (k : JKind) (r : Row) (s : State) : (startTransfer k r s).state.mem = s.mem := by
  unfold startTransfer; dsimp only
  (repeat' split) <;> simp
theorem streamWait_mem {s : State} {w : Who} {lo : Nat} {r : CRes} (h : streamWait s w lo = some r) : r.state.mem = s.mem := by
  unfold streamWait at h
  (repeat' split at h) <;> cases h <;> simp
theorem checkAll_mem {s : State} {l : List (Nat × Tr)} {r : CRes} (h : checkAll s l = some r) : r.state.mem = s.mem := by
  unfold checkAll at h; dsimp only at h
  (repeat' split at h) <;> cases h <;> simp
@[simp] theorem startStream_mem (r : Row) (s : State) : (startStream r s).state.mem = s.mem := by
  unfold startStream; dsimp only
  split
  · simp
  · split
    · simp
    · split
      · next h => exact streamWait_mem h
      · (repeat' split) <;> simp
@[simp] theorem sendMsg_mem (hdr : Word) (b : Opnd) (seen : Nat) (dest : List Word) (kind addr : Nat) (s : State) :
    (sendMsg hdr b seen dest kind addr s).state.mem = s.mem := by
  unfold sendMsg; dsimp only
  split
  · split
    · rfl
    · rfl
    · split
      · next h => simp [deliverAll_mem h]
      · rfl
  · split
    · split
      · rfl
      · split
        · simp
        · split
          · rfl
          · next h => simp [deliverAll_mem h]
    · rfl

end Sys2Proof.Machine
end

section
/-! PROOFS. The operations that write memory keep its canonical form (O60). -/

namespace Sys2Proof.Machine

theorem Inv.of_mem {s t : State} (h : Inv s) (e : t.mem = s.mem) : Inv t := by
  unfold Inv; rw [e]; exact h

theorem inv_setMem (s : State) {m : Memory} (h : m.wf = true) : Inv { s with mem := m } := h

/-- A fold of steps that keep the canonical form keeps it. -/
theorem foldl_inv {α : Type} {f : State → α → State} (hf : ∀ s a, Inv s → Inv (f s a)) (l : List α) {s : State} (h : Inv s) :
    Inv (l.foldl f s) := by
  induction l generalizing s with
  | nil => exact h
  | cons a r ih => exact ih (hf s a h)

theorem writePlace_inv {s : State} (h : Inv s) (p : Place) (bs : List Byte) : Inv (writePlace s p bs) := by
  unfold writePlace; dsimp only
  split
  · exact inv_setMem _ (memWriteN_wf _ _ h)
  · split <;> exact inv_setMem _ (memWriteN_wf _ _ h)
theorem plainWrite_inv {s : State} (h : Inv s) (p : Place) (bs : List Byte) : Inv (plainWrite s p bs) := by
  unfold plainWrite
  split
  · exact h.of_mem (notifyPut_mem _ _ _ _)
  · exact writePlace_inv h _ _
theorem kWrite_inv {s : State} (h : Inv s) (k : KRef) (w : Word) (hv : Bool) (ctxid proc : Nat) (p : Place) (bs : List Byte) :
    Inv (kWrite s k w hv ctxid proc p bs) := by
  unfold kWrite
  split
  · split
    · split
      · exact h.of_mem (mchkStop_mem ..)
      · exact h.of_mem (setJournal_mem ..)
    · exact plainWrite_inv h _ _
  · exact writePlace_inv h _ _
theorem coreWrite_inv {s : State} (h : Inv s) (p : Place) (bs : List Byte) : Inv (coreWrite s p bs) := by
  refine kWrite_inv ?_ ..
  split
  · exact h.of_mem (logUndo_mem ..)
  · exact h
theorem writeSpots_inv {s : State} (h : Inv s) (l : List Spot) (bs : List Byte) : Inv (writeSpots l bs s) := by
  induction l generalizing s bs with
  | nil => exact h
  | cons p ps ih => exact ih (coreWrite_inv h _ _) _
theorem writePlaces_inv {s : State} (h : Inv s) (j : Job) (l : List (Place × Nat)) (bs : List Byte) :
    Inv (writePlaces j l bs s) := by
  induction l generalizing s bs with
  | nil => exact h
  | cons p ps ih => exact ih (kWrite_inv h ..) _
theorem heldWrite_inv {s : State} (h : Inv s) (e : Held) (l : List Spot) (bs : List Byte) : Inv (heldWrite e l bs s) := by
  induction l generalizing s bs with
  | nil => exact h
  | cons p ps ih =>
    refine ih ?_ _
    split
    · exact kWrite_inv (h.of_mem (heldUndo_mem ..)) ..
    · exact h
theorem applyWrites_inv {s : State} (h : Inv s) (j : List JWrite) : Inv (applyWrites j s) :=
  foldl_inv (fun _ _ h => plainWrite_inv h _ _) j h
theorem scrubPages_inv {s : State} (h : Inv s) (w : Word) (f : Foot) : Inv (scrubPages s w f) := memZero_wf _ _ h
theorem putEntry_inv {s : State} (h : Inv s) (key : Nat) (e : DWord) : Inv (putEntry s key e) := by
  unfold putEntry; dsimp only
  split
  · exact inv_setMem _ (memWriteN_wf _ _ h)
  · exact h
theorem mapData_inv {s : State} (h : Inv s) (maps : List (Nat × DWord)) : Inv (mapData maps s) :=
  foldl_inv (fun _ _ h => putEntry_inv h _ _) maps h
theorem putMapped_inv {s : State} (h : Inv s) (proc n a : Nat) (bs : List Byte) : Inv (putMapped proc n a bs s) := by
  induction n generalizing s a bs with
  | zero => exact h
  | succ n ih =>
    unfold putMapped; dsimp only
    split
    · exact h
    · refine ih ?_ _ _
      split
      · split <;> exact writePlace_inv h _ _
      · exact h
theorem putWeights_inv {s : State} (h : Inv s) (l : List Word) (b : List Byte) : Inv (putWeights s l b) :=
  foldl_inv (fun s _ h => inv_setMem s (memWriteN_wf _ _ h)) _ h
theorem publish_inv {s : State} (h : Inv s) (p : Part) (m : Module) (text : List Byte) (hs : List Hand) (windows : List Nat) :
    Inv (publish s p m text hs windows) :=
  (foldl_inv (fun s _ h => inv_setMem s (memWriteN_wf _ _ h)) (textStores p hs) h).of_mem (by rw [publish, publishDue_mem])
theorem place_inv {s t : State} {p : Part} {d : LoadDesc} {f : List Byte} (h : Inv s) (e : place s p d f = .ok t) : Inv t := by
  unfold place at e; dsimp only at e
  (repeat' split at e) <;> cases e
  refine publish_inv (putWeights_inv (foldl_inv (fun s e h => ?_) _ (mapData_inv h _)) _ _) ..
  split
  · exact putMapped_inv h ..
  · exact h

theorem foldl_wf {α : Type} {f : Memory → α → Memory} (hf : ∀ m a, m.wf = true → (f m a).wf = true)
    (l : List α) {m : Memory} (h : m.wf = true) :
    (l.foldl f m).wf = true := by
  induction l generalizing m with
  | nil => exact h
  | cons a r ih => exact ih (hf m a h)

/-! Processes, pairs and saved memories. -/

theorem splitPairs_inv {s : State} (h : Inv s) (part : Nat) : Inv (splitPairs s part) := by
  unfold splitPairs; dsimp only
  split
  · exact h
  · unfold Inv
    rw [mapCores_mem, foldl_mem (fun _ _ => modCore_mem _ _ _)]
    exact foldl_wf (fun _ _ h => memWrite_wf _ _ h) _ (memFilter_wf _ h)
theorem putMem_inv {s : State} (h : Inv s) (e : SavedMem) : Inv (putMem s e) := by
  unfold Inv putMem; dsimp only
  rw [foldl_mem (fun _ _ => modCore_mem _ _ _), foldl_mem (fun _ _ => modCore_mem _ _ _)]
  exact foldl_memWrite_wf _ (memFilter_wf _ h)
theorem changeProcess_inv {s : State} (h : Inv s) (cl p : Nat) : Inv (changeProcess s cl p) := by
  unfold Inv changeProcess; dsimp only
  rw [modCl_mem]
  exact foldl_wf (fun _ _ h => memZero_wf _ _ h) _ (memZero_wf _ _ h)
theorem rollback_inv {s : State} (h : Inv s) (w : Word) : Inv (rollback s w) := by
  unfold rollback; dsimp only
  split
  · exact h
  · next k _ =>
    have hm : Memory.wf (k.undo.foldl (fun m e => memWrite m e.1 e.2) s.mem) = true := foldl_memWrite_wf _ h
    unfold Inv
    split
    · rw [setCore_mem]; exact h
    · split
      · rw [setCore_mem]; exact hm
      · rw [mchkStop_mem, setCore_mem]; exact hm
theorem rollOn_inv {s : State} (h : Inv s) (w : Word) : Inv (rollOn s w) := by
  unfold rollOn
  split
  · split
    · exact rollback_inv h w
    · exact h
  · exact h
theorem meetBroken_inv {s : State} (h : Inv s) (line : Nat) : Inv (meetBroken line s) := by
  unfold meetBroken; dsimp only
  split
  · exact rollback_inv (s := s.modC _) h _
  · exact h
theorem restoreMems_inv {s t : State} (h : Inv s) {proc : Nat} {l : List SavedMem} (e : restoreMems proc l s = some t) : Inv t := by
  induction l generalizing s with
  | nil => cases e; exact h
  | cons m r ih =>
    unfold restoreMems at e
    split at e
    · exact ih h e
    · split at e
      · exact ih (putMem_inv h m) e
      · split at e
        · exact ih (putMem_inv (changeProcess_inv h _ _) m) e
        · cases e
theorem bankIn_mem {s t : State} {w : Word} {b : Nat} {p : Parked} (e : bankIn s w b p = some t) : t.mem = s.mem := by
  unfold bankIn at e; dsimp only at e
  (repeat' split at e) <;> cases e <;> simp
theorem restoreOne_inv {s t : State} (h : Inv s) {r : Saved} (e : restoreOne s r = some t) : Inv t := by
  unfold restoreOne at e; dsimp only at e
  split at e
  · exact h.of_mem (bankIn_mem e)
  · split at e
    · cases e
    · split at e
      · cases e
      · by_cases hc : (decide (r.place = 1) && !isMem r.core && (getCl s (clIdx r.core)).proc != some r.ctx.slot.proc) = true
        · rw [if_pos hc] at e
          (repeat' split at e) <;> cases e <;> exact (changeProcess_inv h _ _).of_mem (setCore_mem _ _)
        · rw [if_neg hc] at e
          (repeat' split at e) <;> cases e <;> exact h.of_mem (setCore_mem _ _)
theorem restoreAll_inv {s t : State} (h : Inv s) {l : List Saved} (e : restoreAll l s = some t) : Inv t := by
  induction l generalizing s with
  | nil => cases e; exact h
  | cons r rs ih =>
    unfold restoreAll at e
    split at e
    · next u hu => exact ih (restoreOne_inv h hu) e
    · cases e

/-! The kiln's writes and the ends of a kernel and a queue. -/

theorem kilnWrite_inv {s t : State} (h : Inv s) {proc a : Nat} {bs : List Byte} (e : kilnWrite s proc a bs = some t) : Inv t := by
  unfold kilnWrite at e
  obtain ⟨p, -, rfl⟩ := Option.map_eq_some_iff.1 e
  exact writePlace_inv h p bs
theorem writeFault_inv {s : State} (h : Inv s) (x : Queue) (words : List Word) : Inv (writeFault s x words) := by
  unfold writeFault; dsimp only
  split
  · exact h
  · refine Inv.of_mem ?_ (modQueue_mem _ _ _)
    split
    · exact h
    · cases hk : kilnWrite s x.process _ _ with
      | none => exact h
      | some t => exact kilnWrite_inv h hk
theorem kilnFault_inv {s : State} (h : Inv s) (x : Queue) (recNo : Word) (info faddr : Nat) :
    Inv (kilnFault s x recNo info faddr) :=
  writeFault_inv h _ _
theorem reject_inv {s : State} (h : Inv s) (x : Queue) (ws : List Word) (code : Nat) : Inv (reject s x ws code) := by
  unfold reject; dsimp only
  split
  · exact (kilnFault_inv (h.of_mem (by simp)) ..).of_mem (retire_mem ..)
  · exact h.of_mem (by simp)
theorem capReject_inv {s : State} (h : Inv s) (x : Queue) (ws : List Word) (field : Nat) : Inv (capReject s x ws field) :=
  (kilnFault_inv (h.of_mem (by simp)) ..).of_mem (retire_mem ..)
theorem applyJournal_inv {s : State} (h : Inv s) (q : Nat) (recNo : Word) : Inv (applyJournal s q recNo) := by
  unfold applyJournal
  split
  · exact h
  · exact (applyWrites_inv h _).of_mem (modQueue_mem ..)
theorem finishKernel_inv {s : State} (h : Inv s) (k : Kern) : Inv (finishKernel s k) := by
  unfold finishKernel; dsimp only
  refine Inv.of_mem ?_ (retire_mem ..)
  split
  · exact splitPairs_inv (h.of_mem (by simp)) _
  · exact h.of_mem (by simp)
theorem dropKernel_inv {s : State} (h : Inv s) (k : Kern) : Inv (dropKernel s k) := by
  unfold dropKernel; dsimp only
  split
  · exact splitPairs_inv (h.of_mem (by simp)) _
  · exact h.of_mem (by simp)
theorem endKernel_inv {s : State} (h : Inv s) (k : Kern) (status code : Nat) : Inv (endKernel s k status code) :=
  (dropKernel_inv h k).of_mem (by rw [endKernel, retire_mem, markStarted_mem])
theorem destroyQueue_inv {s : State} (h : Inv s) (q : Nat) : Inv (destroyQueue s q) := by
  have hd := foldl_inv (fun s k h => dropKernel_inv h k) (s.kerns.filter (fun k => ofQueue q k.ref)) h
  unfold destroyQueue; dsimp only
  split
  · exact hd.of_mem (by simp)
  · exact hd.of_mem (by simp)
theorem reach_inv {s : State} (h : Inv s) (x : Queue) (ph : QPhase) : Inv (reach s x ph) := by
  unfold reach
  split
  · exact destroyQueue_inv h _
  · exact h
theorem commitAll_inv {s : State} (h : Inv s) (q : Nat) : Inv (commitAll q s) := by
  unfold commitAll
  split
  · exact h
  · refine foldl_inv (fun s v h => ?_) _ h
    split
    · exact endKernel_inv (applyJournal_inv h _ _) _ _ _
    · exact applyJournal_inv h _ _
theorem discardQueue_inv {s : State} (h : Inv s) (x : Queue) : Inv (discardQueue x s) := by
  unfold discardQueue; dsimp only
  refine Inv.of_mem (foldl_inv (fun s k h => ?_) _ (Inv.of_mem (?_ : Inv (if x.dur then commitAll x.id s else s)) (abandon_mem ..))) rfl
  · split
    · exact dropKernel_inv h k
    · exact endKernel_inv h k _ _
  · split
    · exact commitAll_inv h _
    · exact h

end Sys2Proof.Machine
end

section
/-! PROOFS. The common course of a control word keeps the form of memory when its effect does (O60). -/

namespace Sys2Proof.Machine

/-- The memory that a control word leaves is what it was, or what its effect leaves. -/
theorem control_mem_cases (i : Instr) (p : CSpec) (f : List Row → State → CRes) (s : State) :
    (nextOr s (control i p f s)).mem = s.mem ∨ (nextOr s (control i p f s)).mem = (f (readAll (readC s.core) p.srcs []) s).state.mem := by
  cases hc : control i p f s with
  | next t =>
    obtain ⟨u, -, rfl⟩ | ⟨n, hn⟩ | ⟨n, s1, g, hn⟩ | ⟨s1, u, g, rfl⟩ | ⟨s1, v, target, g, rfl⟩ | ⟨s1, v, g, rfl⟩ := control_cases hc
    · exact .inl (takeTrap_mem ..)
    · cases hn; exact .inl rfl
    · cases hn; exact .inr (by rw [g]; rfl)
    · exact .inr (by rw [g]; exact takeTrap_mem ..)
    · exact .inr (by rw [g]; exact (countBundle_mem _).trans (issueC_mem ..))
    · exact .inr (by rw [g]; exact (outbound_mem _).trans (issueC_mem ..))
  | fault r => exact .inl rfl
  | refused r => exact .inl rfl
theorem control_mem {i : Instr} {p : CSpec} {f : List Row → State → CRes} {s : State} (hf : ∀ rs, (f rs s).state.mem = s.mem) :
    (nextOr s (control i p f s)).mem = s.mem :=
  (control_mem_cases i p f s).elim id (fun e => e.trans (hf _))
theorem control_inv {i : Instr} {p : CSpec} {f : List Row → State → CRes} {s : State} (h : Inv s) (hf : ∀ rs, Inv (f rs s).state) :
    Inv (nextOr s (control i p f s)) :=
  (control_mem_cases i p f s).elim h.of_mem (hf _).of_mem

end Sys2Proof.Machine
end

section
/-! PROOFS. The instructions and events that write memory keep its form (O60). -/

namespace Sys2Proof.Machine

/-! Accesses. -/

theorem access_inv {s : State} (h : Inv s) {k : AKind} {ord : Ord} {n ea : Nat} {go : State → List Spot → CRes}
    (hg : ∀ t l, Inv t → Inv (go t l).state) : Inv (access s k ord n ea go).state := by
  unfold access; dsimp only
  split
  · exact h
  · split
    · exact h
    · split
      · exact h
      · split
        · exact h
        · exact h.of_mem (waitPage_mem ..)
        · exact h.of_mem (waitExt_mem ..)
        · refine hg _ _ (h.of_mem ?_)
          split <;> simp
theorem loadAt_inv {s : State} (h : Inv s) (a : Opnd) (ord : Ord) (n ea : Nat) : Inv (loadAt a ord n ea s).state := by
  refine access_inv h fun t l ht => ?_
  split
  · exact ht.of_mem (hold_mem ..)
  · exact ht.of_mem (leaves_mem ..)
theorem storeAt_inv {s : State} (h : Inv s) (bs : List Byte) (ord : Ord) (scp : Scp) (ea : Nat) :
    Inv (storeAt bs ord scp ea s).state := by
  refine access_inv h fun t l ht => ?_
  dsimp only
  split
  · exact ht.of_mem (hold_mem ..)
  · exact (writeSpots_inv (s := t.modS _) ht l bs).of_mem (leaves_mem ..)
theorem atomicAt_inv {s : State} (h : Inv s) (a : Opnd) (op : Option AmoOp) (n : Nat) (ord : Ord) (scp : Scp) (f : Nat → Option Nat)
    (rmw : Option (AmoOp × DWord)) (cas : Option (DWord × DWord)) (ea : Nat) : Inv (atomicAt a op n ord scp f rmw cas ea s).state := by
  refine access_inv h fun t l ht => ?_
  dsimp only
  split
  · exact ht
  · split
    · exact ht.of_mem (hold_mem ..)
    · refine Inv.of_mem ?_ (leaves_mem ..)
      split
      · exact writeSpots_inv (s := t.modS _) ht l _
      · exact ht
theorem imagedStore_inv {s : State} (h : Inv s) (r : Row) (ord : Ord) (scp : Scp) (ea : Nat) :
    Inv (imagedStore r ord scp ea s).state := by
  have hs := storeAt_inv h (rowBytes r 64) ord scp ea
  unfold imagedStore; dsimp only
  split
  · exact hs
  · split
    · exact hs
    · split
      · exact h
      · split
        · exact h
        · split
          · exact h
          · split
            · next hc => exact h.of_mem (checkAll_mem hc)
            · split
              · next hst => rw [hst] at hs; exact Inv.of_mem hs (queueImages_mem ..)
              · next hst => rw [hst] at hs; exact Inv.of_mem hs (queueImages_mem ..)
              · exact hs
theorem indexed_inv {s : State} (h : Inv s) (b c : Row) (n : Nat) {go : Nat → State → CRes} (hg : ∀ ea, Inv (go ea s).state) :
    Inv (indexed b c n go s).state := by
  unfold indexed; dsimp only
  split
  · exact h
  · split
    · exact h
    · exact hg _
theorem load_inv {s : State} (h : Inv s) (i : Instr) (a b : Opnd) (n : Nat) (off : Word) (ord : Ord) :
    Inv (nextOr s (load i a b n off ord s)) := control_inv h fun _ => loadAt_inv h ..
theorem store_inv {s : State} (h : Inv s) (i : Instr) (a b : Opnd) (n : Nat) (off : Word) (ord : Ord) (scp : Scp) :
    Inv (nextOr s (store i a b n off ord scp s)) := control_inv h fun _ => storeAt_inv h ..
theorem execAmo_inv {s : State} (h : Inv s) (op : AmoOp) (a b c : Opnd) (ord : Ord) (scp : Scp) (d64 : Bool) :
    Inv (nextOr s (execAmo op a b c ord scp d64 s)) := by
  refine control_inv h fun rs => ?_
  dsimp only
  split
  · exact h
  · exact atomicAt_inv h ..
theorem execCas_inv {s : State} (h : Inv s) (a b c : Opnd) (ord : Ord) (scp : Scp) (d64 : Bool) :
    Inv (nextOr s (execCas a b c ord scp d64 s)) := by
  refine control_inv h fun rs => ?_
  dsimp only
  split
  · exact h
  · exact atomicAt_inv h ..
theorem revoke_inv {s : State} (h : Inv s) (w : Word) : Inv (revoke s w) := by
  unfold revoke; dsimp only
  have hs := fun c f => scrubPages_inv (s := dropLentWrites (abortHarvest (setCore s c) w f) w f) (h.of_mem (by simp)) w f
  split
  · exact h
  · split
    · exact (hs _ _).of_mem (modCore_mem ..)
    · split
      · exact (hs _ _).of_mem (park_mem ..)
      · exact hs _ _
theorem startLend_inv {s : State} (h : Inv s) (r : Row) : Inv (startLend r s).state := by
  unfold startLend; dsimp only
  split
  · exact h
  · split
    · exact revoke_inv h _
    · split
      · exact h
      · split
        · exact h
        · split
          · exact h
          · exact scrubPages_inv (s := s.modC _) h _ _
theorem execReclaim_inv {s : State} (h : Inv s) : Inv (nextOr s (execReclaim s)) := by
  refine control_inv h fun _ => ?_
  dsimp only
  split
  · exact h
  · split
    · exact revoke_inv h _
    · split <;> exact h

/-! Events. -/

theorem execLateWriteLanding_inv {s : State} (h : Inv s) (w : Word) (ue : Bool) : Inv (nextOr s (execLateWriteLanding w ue s)) := by
  unfold execLateWriteLanding; dsimp only
  split
  · exact h
  · have hr := fun c => rollOn_inv (h.of_mem (setCore_mem s c)) w
    rw [nextOr_next]
    split
    · exact rollback_inv (hr _) w
    · split
      · exact (hr _).of_mem (by rw [mchkStop_mem, lateAddr_mem])
      · exact hr _
theorem cpyBeat_inv {s t : State} (h : Inv s) {j : Job} {k : CpyKind} (e : cpyBeat s j k = .ok t) : Inv t := by
  unfold cpyBeat at e; dsimp only at e
  split at e
  · cases e
  · split at e
    · cases e
    · split at e
      · cases e; exact writePlaces_inv h ..
      · split at e
        · cases e; exact h
        · cases e; exact writePlaces_inv (h.of_mem (accepted_mem ..)) ..
theorem xferBeat_inv {s t : State} (h : Inv s) {j : Job} {b : Nat} (e : xferBeat s j b = .ok t) : Inv t := by
  unfold xferBeat at e; dsimp only at e
  split at e
  · split at e <;> cases e
    exact inv_setMem _ (memWriteN_wf _ _ h)
  · split at e <;> cases e
    exact kWrite_inv h ..
  · cases e; exact inv_setMem _ (memWriteN_wf _ _ h)
  · split at e
    · cases e; exact h.of_mem (shrinkEntries_mem ..)
    · cases e
      refine Inv.of_mem (inv_setMem (accepted s j) ?_) (shrinkEntries_mem ..)
      split
      · exact memWriteN_wf _ _ h
      · exact memWriteN_wf _ _ (memWriteN_wf _ _ h)
theorem execCopyBeat_inv {s : State} (h : Inv s) (cl i : Nat) (ue : Bool) : Inv (nextOr s (execCopyBeat cl i ue s)) := by
  unfold execCopyBeat; dsimp only
  split
  · exact h
  · split
    · split
      · exact h
      · split
        · exact h
        · split
          · exact h.of_mem (jobHeld_mem ..)
          · split
            · exact h
            · split
              · exact h.of_mem (beatFault_mem ..)
              · next hb =>
                have ht := cpyBeat_inv (s := setCl s _) h hb
                split <;> rw [nextOr_next] <;> refine ht.of_mem ?_ <;> simp only [dropJob_mem, setJob_mem] <;> split <;> simp
    · exact h
theorem execTransferBeat_inv {s : State} (h : Inv s) (w : Word) (i : Nat) (ue : Bool) :
    Inv (nextOr s (execTransferBeat w i ue s)) := by
  unfold execTransferBeat; dsimp only
  split
  · exact h
  · split
    · exact h
    · split
      · rw [nextOr_next]; refine h.of_mem ?_
        split <;> simp
      · split
        · exact h
        · split
          · exact h.of_mem (jobHeld_mem ..)
          · split
            · exact h
            · split
              · exact h.of_mem (beatFault_mem ..)
              · next hb =>
                have ht := xferBeat_inv (s := setCl s _) h hb
                split
                · rw [nextOr_next]; refine ht.of_mem ?_
                  simp only [setJob_mem, charge_mem]; split <;> simp
                · split <;> rw [nextOr_next] <;> refine ht.of_mem ?_ <;> simp only [dropJob_mem, setJob_mem, charge_mem] <;> split <;> simp
theorem execHeldRemoteAccess_inv {s : State} (h : Inv s) (i : Nat) : Inv (nextOr s (execHeldRemoteAccess i s)) := by
  unfold execHeldRemoteAccess; dsimp only
  split
  · exact h
  · next e _ =>
    split
    · exact h
    · rw [nextOr_next]
      refine Inv.of_mem ?_ ((modCore_mem ..).trans (foldl_mem (fun _ _ => modCl_mem ..) _ _))
      split
      · exact heldWrite_inv (s := { s with held := s.held.eraseIdx i }) h e _ _
      · exact h
theorem execImageWrite_inv {s : State} (h : Inv s) (cl : Nat) : Inv (nextOr s (execImageWrite cl s)) := by
  unfold execImageWrite; dsimp only
  split
  · exact h
  · rw [nextOr_next]
    split
    · refine kWrite_inv (h.of_mem ?_) ..
      split <;> simp
    · refine h.of_mem ?_
      split <;> simp
theorem execGangStart_inv {s : State} (h : Inv s) (cl : Nat) : Inv (nextOr s (execGangStart cl s)) := by
  unfold execGangStart; dsimp only
  split
  · exact h
  · refine h.of_mem ?_
    rw [nextOr_next, foldl_mem (fun _ _ => modCore_mem ..), setCl_mem, foldl_mem (fun _ _ => chargeScales_mem ..)]
theorem execGangStepRetire_inv {s : State} (h : Inv s) (cl ue : Nat) : Inv (nextOr s (execGangStepRetire cl ue s)) := by
  unfold execGangStepRetire; dsimp only
  split
  · exact h
  · next o _ _ =>
    have hm := fun b => (foldl_mem (fun s m => memberChecks_mem cl ue s m) o.members _).trans
      (foldl_mem (fun s m => memberStep_mem cl o m b s) o.members s)
    split
    · exact h.of_mem (hm _)
    · exact h.of_mem (by rw [nextOr_next, planDomain_mem, rltDrop_mem, modCl_mem]; exact hm _)
theorem execRevocation_inv {s : State} (h : Inv s) (w : Word) : Inv (nextOr s (execRevocation w s)) := by
  unfold execRevocation; dsimp only
  split
  · exact revoke_inv h w
  · exact h
theorem execRevocationComplete_inv {s : State} (h : Inv s) (w : Word) : Inv (nextOr s (execRevocationComplete w s)) := by
  refine h.of_mem ?_
  unfold execRevocationComplete; dsimp only
  (repeat' split) <;> simp
theorem execLendingResume_inv {s : State} (h : Inv s) (w : Word) : Inv (nextOr s (execLendingResume w s)) := by
  unfold execLendingResume; dsimp only
  split
  · exact h
  · exact scrubPages_inv (h.of_mem (setCore_mem ..)) _ _
theorem execParkedContextMove_inv {s : State} (h : Inv s) (w : Word) (b : Nat) (dest : Option (Word × Nat)) :
    Inv (nextOr s (execParkedContextMove w b dest s)) := by
  refine h.of_mem ?_
  unfold execParkedContextMove; dsimp only
  split
  · split
    · rfl
    · split
      · rfl
      · split
        · split <;> simp
        · split
          · rfl
          · split
            · next hb => simp [bankIn_mem hb]
            · rfl
  · split
    · split
      · rfl
      · split
        · next hb => simp [bankIn_mem hb]
        · rfl
    · rfl
theorem execMessageRecord_inv {s : State} (h : Inv s) (q : Nat) : Inv (nextOr s (execMessageRecord q s)) := by
  unfold execMessageRecord; dsimp only
  split
  · exact h
  · split
    · exact reject_inv h ..
    · split
      · exact capReject_inv h ..
      · split
        · exact reject_inv (h.of_mem (derive_mem ..)) ..
        · split
          · exact h
          · split
            · exact h
            · next hd =>
              refine h.of_mem ?_
              (repeat' split) <;> simp [deliverAll_mem hd]
theorem issuePoint_mem {s t : State} {i : Nat} {w : Walker} (e : issuePoint s i w = some t) : t.mem = s.mem := by
  obtain ⟨pt, -, e⟩ := Option.bind_eq_some_iff.1 e
  dsimp only at e
  split at e
  · cases e
  · next hd =>
    cases e
    split
    · simp
    · simp [deliverAll_mem hd]
theorem execLaunchRecord_inv {s : State} (h : Inv s) (q : Nat) : Inv (nextOr s (execLaunchRecord q s)) := by
  unfold execLaunchRecord; dsimp only
  split
  · exact h
  · split
    · exact reject_inv h ..
    · split
      · exact capReject_inv (h.of_mem (derive_mem ..)) ..
      · exact reject_inv (h.of_mem (derive_mem ..)) ..
      · exact reject_inv (h.of_mem (derive_mem ..)) ..
      · split
        · exact reject_inv (h.of_mem (derive_mem ..)) ..
        · split
          · exact capReject_inv (h.of_mem (by simp)) ..
          · exact reject_inv (h.of_mem (by simp)) ..
          · exact reject_inv (h.of_mem (by simp)) ..
          · split
            · exact reject_inv (h.of_mem (by simp)) ..
            · split
              · exact h
              · rw [nextOr_next]
                refine h.of_mem ?_
                cases hb : Option.bind _ _ with
                | none => rfl
                | some t =>
                  obtain ⟨w, -, e⟩ := Option.bind_eq_some_iff.1 hb
                  simp [issuePoint_mem e]
theorem execSignalRecord_inv {s : State} (h : Inv s) (q : Nat) : Inv (nextOr s (execSignalRecord q s)) := by
  unfold execSignalRecord
  split
  · exact h
  · split
    · exact reject_inv h ..
    · split
      · exact capReject_inv h ..
      · exact h.of_mem (by simp)
theorem execEnergyBudgetRecord_inv {s : State} (h : Inv s) (q : Nat) : Inv (nextOr s (execEnergyBudgetRecord q s)) := by
  unfold execEnergyBudgetRecord
  split
  · exact h
  · split
    · exact reject_inv h ..
    · split
      · exact capReject_inv h ..
      · exact h.of_mem (by simp)
theorem execMalformedCommandRecord_inv {s : State} (h : Inv s) (q : Nat) : Inv (nextOr s (execMalformedCommandRecord q s)) := by
  unfold execMalformedCommandRecord
  split
  · exact h
  · split
    · exact h
    · split
      · exact capReject_inv h ..
      · split
        · exact (kilnFault_inv (h.of_mem (by simp)) ..).of_mem (retire_mem ..)
        · split
          · exact h
          · split
            · exact h
            · exact reject_inv h ..
theorem execKernelComplete_inv {s : State} (h : Inv s) (q : Nat) (recNo : Word) :
    Inv (nextOr s (execKernelComplete q recNo s)) := by
  unfold execKernelComplete
  split
  · split
    · exact h
    · split
      · exact h
      · exact finishKernel_inv (applyJournal_inv h ..) _
  · exact h
theorem execCompletionSignal_inv {s : State} (h : Inv s) (q : Nat) : Inv (nextOr s (execCompletionSignal q s)) := by
  unfold execCompletionSignal
  split
  · exact h
  · split
    · exact h
    · dsimp only
      split
      · exact h
      · split
        · next hk => exact kilnWrite_inv (s := modQueue s q _) h hk
        · exact kilnFault_inv (h.of_mem (by simp)) ..
theorem drainSignals_inv {s : State} (h : Inv s) (q n : Nat) : Inv (drainSignals q n s) := by
  induction n generalizing s with
  | zero => exact h
  | succ n ih =>
    unfold drainSignals
    have hs := execCompletionSignal_inv h q
    split
    · next e => rw [e] at hs; exact ih hs
    · exact h
theorem resetEngines_inv {s : State} (h : Inv s) (x : Queue) : Inv (resetEngines x s) := by
  unfold resetEngines; dsimp only
  exact reach_inv (drainSignals_inv (h.of_mem (by simp)) ..) ..
theorem saveQueue_mem (s : State) (q : Nat) : (saveQueue s q).mem = s.mem := by
  unfold saveQueue; dsimp only
  rw [saveMems_mem, saveDct_mem, saveMsgs_mem, foldl_mem (fun _ _ => by simp), withdrawPosts_mem]
theorem execLadderDrainComplete_inv {s : State} (h : Inv s) (q : Nat) : Inv (nextOr s (execLadderDrainComplete q s)) := by
  unfold execLadderDrainComplete
  split
  · exact h
  · split
    · exact h
    · exact reach_inv h ..
theorem execLadderSaveComplete_inv {s : State} (h : Inv s) (q : Nat) : Inv (nextOr s (execLadderSaveComplete q s)) := by
  unfold execLadderSaveComplete
  split
  · exact h
  · split
    · exact h
    · exact reach_inv (h.of_mem (saveQueue_mem ..)) ..
theorem execLadderReset_inv {s : State} (h : Inv s) (q : Nat) : Inv (nextOr s (execLadderReset q s)) := by
  unfold execLadderReset
  split
  · exact h
  · split
    · exact h
    · dsimp only
      split
      · exact discardQueue_inv h _
      · rw [nextOr_next]
        split
        · exact resetEngines_inv (discardQueue_inv h _) _
        · exact discardQueue_inv h _
theorem execQueueRestore_inv {s : State} (h : Inv s) (q : Nat) : Inv (nextOr s (execQueueRestore q s)) := by
  unfold execQueueRestore
  split
  · exact h
  · split
    · exact h
    · dsimp only
      split
      · exact h
      · next hb =>
        split
        · exact h
        · obtain ⟨u, hu, hr⟩ := Option.bind_eq_some_iff.1 hb
          obtain ⟨v, hv, rfl⟩ := Option.map_eq_some_iff.1 hu
          refine (restoreAll_inv ((restoreMems_inv h hv).of_mem (heldMem_mem ..)) hr).of_mem ?_
          rw [nextOr_next, dropSavedMem_mem, modQueue_mem, foldl_mem (fun _ _ => modCl_mem ..)]
theorem execProcessKill_inv {s : State} (h : Inv s) (proc : Nat) : Inv (nextOr s (execProcessKill proc s)) :=
  foldl_inv (fun _ q h => destroyQueue_inv h q) _ h
theorem execProcessChange_inv {s : State} (h : Inv s) (cl : Nat) : Inv (nextOr s (execProcessChange cl s)) := by
  unfold execProcessChange
  split
  · exact h
  · split
    · exact changeProcess_inv h ..
    · exact h
theorem execPairRollback_inv {s : State} (h : Inv s) (w : Word) : Inv (nextOr s (execPairRollback w s)) := by
  unfold execPairRollback
  split
  · exact rollback_inv h w
  · exact h
theorem execDurableReplay_inv {s : State} (h : Inv s) (q : Nat) : Inv (nextOr s (execDurableReplay q s)) := by
  unfold execDurableReplay
  split
  · exact h
  · split
    · exact h
    · exact foldl_inv (fun _ k h => dropKernel_inv h k) _ (commitAll_inv h q)
theorem execModuleLoad_inv {s : State} (h : Inv s) (part proc : Nat) (file : List Byte) (pc : Word) (ins : LoadIns) :
    Inv (nextOr s (execModuleLoad part proc file pc ins s)) := by
  unfold execModuleLoad; dsimp only
  split
  · exact h
  · split
    · exact h
    · split
      · exact h
      · split
        · exact h
        · split
          · exact h
          · split
            · exact h
            · exact h
            · next hp _ => exact (place_inv h hp).of_mem (multicast_mem ..)
theorem execModuleUnload_inv {s : State} (h : Inv s) (proc handle : Nat) : Inv (nextOr s (execModuleUnload proc handle s)) := by
  unfold execModuleUnload
  split
  · exact h
  · split
    · exact h
    · dsimp only
      refine Inv.of_mem (foldl_inv (fun s k h => putEntry_inv h k 0) _ (h.of_mem (mapCores_mem ..))) (foldl_mem (fun s r => ?_) _ _)
      split <;> simp
theorem execKernelStop_inv {s : State} (h : Inv s) : Inv (nextOr s (execKernelStop s)) := by
  unfold execKernelStop
  split
  · exact h
  · dsimp only
    split
    · rw [nextOr_next]
      apply dropKernel_inv
      exact h
    · split
      · exact h
      · split
        · rw [nextOr_next]
          apply endKernel_inv
          apply writeFault_inv
          exact h
        · rw [nextOr_next]
          apply writeFault_inv
          exact h
theorem execPowerOn_inv {s : State} (h : Inv s) : Inv (nextOr s (execPowerOn s)) := memFilter_wf _ h

end Sys2Proof.Machine
end

section
/-! PROOFS. The instructions and events that leave memory alone (O60). -/

namespace Sys2Proof.Machine

@[simp] theorem execTrap_mem (n : BitVec 11) (s : State) : (nextOr s (execTrap n s)).mem = s.mem := by
  unfold execTrap; split <;> simp
@[simp] theorem execSendAnswer_mem (w : Word) (a : SendAns) (s : State) : (nextOr s (execSendAnswer w a s)).mem = s.mem := by
  unfold execSendAnswer; dsimp only
  (repeat' split) <;> simp
@[simp] theorem execHandlerStart_mem (w : Word) (s : State) : (nextOr s (execHandlerStart w s)).mem = s.mem := by
  unfold execHandlerStart; dsimp only
  (repeat' split) <;> simp
@[simp] theorem execPreempt_mem (w : Word) (s : State) : (nextOr s (execPreempt w s)).mem = s.mem := by
  unfold execPreempt; dsimp only
  (repeat' split) <;> simp
@[simp] theorem execPreemptResume_mem (w : Word) (s : State) : (nextOr s (execPreemptResume w s)).mem = s.mem := by
  unfold execPreemptResume; dsimp only
  (repeat' split) <;> simp
@[simp] theorem execServiceDispatch_mem (w : Word) (pc : Word) (wb : Nat) (wl : Nat) (pb : Nat) (pl : Nat) (proc : Nat) (s : State) :
    (nextOr s (execServiceDispatch w pc wb wl pb pl proc s)).mem = s.mem := by
  unfold execServiceDispatch; dsimp only
  (repeat' split) <;> simp
@[simp] theorem execDctDecrement_mem (i : Nat) (s : State) : (nextOr s (execDctDecrement i s)).mem = s.mem := by
  unfold execDctDecrement
  (repeat' split) <;> simp
@[simp] theorem execBarrierPhaseComplete_mem (grp : Nat) (s : State) : (nextOr s (execBarrierPhaseComplete grp s)).mem = s.mem := by
  unfold execBarrierPhaseComplete; dsimp only
  simp [foldl_mem]
@[simp] theorem execCopyJobStart_mem (cl : Nat) (j : Nat) (s : State) : (nextOr s (execCopyJobStart cl j s)).mem = s.mem := by
  unfold execCopyJobStart; dsimp only
  (repeat' split) <;> simp
@[simp] theorem execStreamBeat_mem (w : Word) (n : Nat) (s : State) : (nextOr s (execStreamBeat w n s)).mem = s.mem := by
  unfold execStreamBeat; dsimp only
  (repeat' split) <;> simp
@[simp] theorem execGangto_mem (w : Word) (s : State) : (nextOr s (execGangto w s)).mem = s.mem := by
  unfold execGangto; dsimp only
  (repeat' split) <;> simp
@[simp] theorem execRefreshWindow_mem (w : Word) (opens : Bool) (s : State) :
    (nextOr s (execRefreshWindow w opens s)).mem = s.mem := by
  unfold execRefreshWindow; split <;> simp
@[simp] theorem execHarvestDispatch_mem (w : Word) (s : State) : (nextOr s (execHarvestDispatch w s)).mem = s.mem := by
  unfold execHarvestDispatch; dsimp only
  (repeat' split) <;> simp
@[simp] theorem execParkedContextResume_mem (w : Word) (s : State) : (nextOr s (execParkedContextResume w s)).mem = s.mem := by
  unfold execParkedContextResume; split <;> simp
@[simp] theorem execTlbInvalidate_mem (part : Nat) (proc : Option Nat) (va : Nat) (len : Nat) (s : State) :
    (nextOr s (execTlbInvalidate part proc va len s)).mem = s.mem := rfl
@[simp] theorem execTranslationCompletion_mem (w : Word) (ok : Bool) (page : Nat) (logSize : Nat) (r : Bool) (wr : Bool) (s : State) :
    (nextOr s (execTranslationCompletion w ok page logSize r wr s)).mem = s.mem := by
  unfold execTranslationCompletion
  (repeat' split) <;> simp
@[simp] theorem execPageRequestGroupResponse_mem (w : Word) (code : PrgCode) (s : State) :
    (nextOr s (execPageRequestGroupResponse w code s)).mem = s.mem := by
  unfold execPageRequestGroupResponse
  (repeat' split) <;> simp
@[simp] theorem execInvalidateRequest_mem (pasid : Nat) (page : Nat) (logSize : Nat) (s : State) :
    (nextOr s (execInvalidateRequest pasid page logSize s)).mem = s.mem := rfl
@[simp] theorem execPushCompletionMessage_mem (w : Word) (i : Nat) (s : State) :
    (nextOr s (execPushCompletionMessage w i s)).mem = s.mem := by
  unfold execPushCompletionMessage; dsimp only
  (repeat' split) <;> simp
@[simp] theorem execPiWrite_mem (q : Nat) (v : Word) (s : State) : (nextOr s (execPiWrite q v s)).mem = s.mem := rfl
@[simp] theorem execClrf_mem (q : Nat) (s : State) : (nextOr s (execClrf q s)).mem = s.mem := rfl
@[simp] theorem execStopQueue_mem (q : Nat) (s : State) : (nextOr s (execStopQueue q s)).mem = s.mem := rfl
@[simp] theorem execFciWrite_mem (q : Nat) (v : Word) (s : State) : (nextOr s (execFciWrite q v s)).mem = s.mem := rfl
@[simp] theorem execNotifyPageOtherWrite_mem (_q : Nat) (_off : Nat) (_v : Word) (s : State) :
    (nextOr s (execNotifyPageOtherWrite _q _off _v s)).mem = s.mem := rfl
@[simp] theorem execWheelTurn_mem (part : Nat) (s : State) : (nextOr s (execWheelTurn part s)).mem = s.mem := by
  unfold execWheelTurn
  (repeat' split) <;> simp
@[simp] theorem execTlimitExpiry_mem (q : Nat) (recNo : Word) (s : State) :
    (nextOr s (execTlimitExpiry q recNo s)).mem = s.mem := by
  unfold execTlimitExpiry
  (repeat' split) <;> simp
@[simp] theorem execLadderT1Expiry_mem (q : Nat) (s : State) : (nextOr s (execLadderT1Expiry q s)).mem = s.mem := by
  unfold execLadderT1Expiry
  (repeat' split) <;> simp
@[simp] theorem execLadderT2Expiry_mem (q : Nat) (s : State) : (nextOr s (execLadderT2Expiry q s)).mem = s.mem := rfl
@[simp] theorem execPartitionChange_mem (part : Nat) (cores : PartCores) (room : PartRoom) (s : State) :
    (nextOr s (execPartitionChange part cores room s)).mem = s.mem := by
  unfold execPartitionChange; dsimp only
  (repeat' split) <;> simp
@[simp] theorem execQueueCreate_mem (q : Nat) (desc : List Word) (s : State) :
    (nextOr s (execQueueCreate q desc s)).mem = s.mem := by
  unfold execQueueCreate; dsimp only
  (repeat' split) <;> simp
@[simp] theorem execMeteringInterval_mem (cl : Nat) (s : State) : (nextOr s (execMeteringInterval cl s)).mem = s.mem := by
  unfold execMeteringInterval; dsimp only
  simp [foldl_mem]
@[simp] theorem execClockChange_mem (cl : Nat) (n : Nat) (s : State) : (nextOr s (execClockChange cl n s)).mem = s.mem := by
  unfold execClockChange; split <;> simp
@[simp] theorem execLinkFlit_mem (n : Nat) (seq : Nat) (crcOk : Bool) (s : State) :
    (nextOr s (execLinkFlit n seq crcOk s)).mem = s.mem := by
  unfold execLinkFlit; dsimp only
  (repeat' split) <;> simp
@[simp] theorem execWeightStoreOpen_mem (part : Nat) (s : State) : (nextOr s (execWeightStoreOpen part s)).mem = s.mem := by
  unfold execWeightStoreOpen
  (repeat' split) <;> simp
@[simp] theorem execWeightStoreClose_mem (part : Nat) (s : State) : (nextOr s (execWeightStoreClose part s)).mem = s.mem := by
  unfold execWeightStoreClose
  (repeat' split) <;> simp
@[simp] theorem execKeySlotLoad_mem (slot : Nat) (keys : Option (BitVec 256 × BitVec 256)) (s : State) :
    (nextOr s (execKeySlotLoad slot keys s)).mem = s.mem := by
  unfold execKeySlotLoad; split <;> rfl
@[simp] theorem execCoreReset_mem (w : Word) (s : State) : (nextOr s (execCoreReset w s)).mem = s.mem := by
  unfold execCoreReset; dsimp only
  (repeat' split) <;> simp
@[simp] theorem execFirmwareUpdate_mem (image : List Byte) (version : Nat) (sigOff : Nat) (s : State) :
    (nextOr s (execFirmwareUpdate image version sigOff s)).mem = s.mem := by
  unfold execFirmwareUpdate; dsimp only
  (repeat' split) <;> simp
@[simp] theorem execSignedRecord_mem (f : List Byte) (s : State) : (nextOr s (execSignedRecord f s)).mem = s.mem := by
  unfold execSignedRecord; dsimp only
  (repeat' split) <;> simp
@[simp] theorem execNegotiateAlgorithms_mem (sha : Bool) (mldsa : Bool) (s : State) :
    (nextOr s (execNegotiateAlgorithms sha mldsa s)).mem = s.mem := rfl
@[simp] theorem execChallenge_mem (nonce : BitVec 256) (s : State) : (nextOr s (execChallenge nonce s)).mem = s.mem := rfl
@[simp] theorem execGetMeasurements_mem (index : Nat) (s : State) : (nextOr s (execGetMeasurements index s)).mem = s.mem := rfl
@[simp] theorem execIllegalEncoding_mem (ari : Bool) (reason : Nat) (w : Word) (s : State) :
    (nextOr s (execIllegalEncoding ari reason w s)).mem = s.mem := by
  unfold execIllegalEncoding; split <;> simp
@[simp] theorem execWritePerformed_mem (w : Word) (s : State) : (nextOr s (execWritePerformed w s)).mem = s.mem := by
  unfold execWritePerformed
  (repeat' split) <;> simp
@[simp] theorem execCompletionTimeout_mem (w : Word) (s0 : State) : (nextOr s0 (execCompletionTimeout w s0)).mem = s0.mem := by
  unfold execCompletionTimeout; dsimp only
  (repeat' split) <;> simp
@[simp] theorem execScrub_mem (w : Word) (line : Nat) (corrected : Bool) (s : State) :
    (nextOr s (execScrub w line corrected s)).mem = s.mem := by
  unfold execScrub
  (repeat' split) <;> simp
@[simp] theorem execL2HitFill_mem (w : Word) (s : State) : (nextOr s (execL2HitFill w s)).mem = s.mem := by
  unfold execL2HitFill
  (repeat' split) <;> simp
@[simp] theorem execFetch_mem (s : State) : (nextOr s (execFetch s)).mem = s.mem := by
  unfold execFetch; dsimp only
  (repeat' split) <;> simp
@[simp] theorem execStrdl_mem (s : State) : (nextOr s (execStrdl s)).mem = s.mem := by
  unfold execStrdl; dsimp only
  (repeat' split) <;> simp
@[simp] theorem execTrapEntry_mem (s : State) : (nextOr s (execTrapEntry s)).mem = s.mem := by
  unfold execTrapEntry
  (repeat' split) <;> simp
@[simp] theorem execTlbInvalidateComplete_mem (s : State) : (nextOr s (execTlbInvalidateComplete s)).mem = s.mem := by
  unfold execTlbInvalidateComplete; dsimp only
  (repeat' split) <;> simp
@[simp] theorem execInvalidationCompletion_mem (s : State) : (nextOr s (execInvalidationCompletion s)).mem = s.mem := by
  unfold execInvalidationCompletion; dsimp only
  (repeat' split) <;> simp
@[simp] theorem execFirmwareHeartbeat_mem (s : State) : (nextOr s (execFirmwareHeartbeat s)).mem = s.mem := by
  unfold execFirmwareHeartbeat; dsimp only
  (repeat' split) <;> simp
@[simp] theorem execFirmwareHeartbeatMiss_mem (s : State) : (nextOr s (execFirmwareHeartbeatMiss s)).mem = s.mem := by
  unfold execFirmwareHeartbeatMiss; dsimp only
  (repeat' split) <;> simp
@[simp] theorem execGetVersion_mem (s : State) : (nextOr s (execGetVersion s)).mem = s.mem := rfl
@[simp] theorem execGetCapabilities_mem (s : State) : (nextOr s (execGetCapabilities s)).mem = s.mem := rfl
@[simp] theorem execGetDigests_mem (s : State) : (nextOr s (execGetDigests s)).mem = s.mem := rfl
@[simp] theorem execGetCertificate_mem (s : State) : (nextOr s (execGetCertificate s)).mem = s.mem := rfl
@[simp] theorem execPriReenable_mem (s : State) : (nextOr s (execPriReenable s)).mem = s.mem := rfl
@[simp] theorem execBc_mem (c : Cnd) (a : Opnd) (off : BitVec 15) (s : State) :
    (nextOr s (execBc c a off s)).mem = s.mem := control_mem fun _ => rfl
@[simp] theorem execCall_mem (a : Opnd) (off : BitVec 15) (s : State) :
    (nextOr s (execCall a off s)).mem = s.mem := control_mem fun _ => rfl
@[simp] theorem execJr_mem (a : Opnd) (b : Opnd) (s : State) : (nextOr s (execJr a b s)).mem = s.mem := control_mem fun _ => by
  dsimp only; (repeat' split) <;> simp
@[simp] theorem execLoop_mem (a : Opnd) (off : BitVec 15) (s : State) :
    (nextOr s (execLoop a off s)).mem = s.mem := control_mem fun _ => by simp
@[simp] theorem execLoopi_mem (off : BitVec 15) (n : Word) (s : State) :
    (nextOr s (execLoopi off n s)).mem = s.mem := control_mem fun _ => by simp
@[simp] theorem execBrk_mem (n : BitVec 11) (s : State) : (nextOr s (execBrk n s)).mem = s.mem := control_mem fun _ => rfl
@[simp] theorem execFsync_mem (n : BitVec 11) (s : State) : (nextOr s (execFsync n s)).mem = s.mem := control_mem fun _ => rfl
@[simp] theorem execCsrr_mem (a : Opnd) (r : CReg) (s : State) : (nextOr s (execCsrr a r s)).mem = s.mem := control_mem fun _ => rfl
@[simp] theorem execCsrw_mem (a : Opnd) (r : CReg) (s : State) :
    (nextOr s (execCsrw a r s)).mem = s.mem := control_mem fun _ => by simp
@[simp] theorem execMovi_mem (a : Opnd) (v : Word) (s : State) : (nextOr s (execMovi a v s)).mem = s.mem := control_mem fun _ => rfl
@[simp] theorem execAdda_mem (a : Opnd) (b : Opnd) (k : BitVec 11) (s : State) :
    (nextOr s (execAdda a b k s)).mem = s.mem := control_mem fun _ => rfl
@[simp] theorem execFence_mem (kind : FKind) (scp : Scp) (e : Bool) (s : State) :
    (nextOr s (execFence kind scp e s)).mem = s.mem := control_mem fun _ => by simp
@[simp] theorem execStrm_mem (a : Opnd) (s : State) : (nextOr s (execStrm a s)).mem = s.mem := control_mem fun _ => by simp
@[simp] theorem execCpy_mem (k : CpyKind) (a : Opnd) (b : Opnd) (s : State) :
    (nextOr s (execCpy k a b s)).mem = s.mem := control_mem fun _ => by simp
@[simp] theorem execCpseal_mem (a : Opnd) (s : State) : (nextOr s (execCpseal a s)).mem = s.mem := control_mem fun _ => rfl
@[simp] theorem execCpwait_mem (all : Bool) (a : Opnd) (b : Opnd) (s : State) :
    (nextOr s (execCpwait all a b s)).mem = s.mem := control_mem fun _ => by simp
@[simp] theorem execSend_mem (a : Opnd) (b : Opnd) (s : State) : (nextOr s (execSend a b s)).mem = s.mem := control_mem fun _ => by
  dsimp only; (repeat' split) <;> simp
@[simp] theorem execSendGrp_mem (a : Opnd) (b : Opnd) (s : State) :
    (nextOr s (execSendGrp a b s)).mem = s.mem := control_mem fun _ => by
  dsimp only; (repeat' split) <;> simp
@[simp] theorem execSenda_mem (a : Opnd) (b : Opnd) (s : State) :
    (nextOr s (execSenda a b s)).mem = s.mem := control_mem fun _ => by
  dsimp only; (repeat' split) <;> simp
@[simp] theorem execDcarm_mem (a : Opnd) (b : Opnd) (s : State) :
    (nextOr s (execDcarm a b s)).mem = s.mem := control_mem fun _ => by simp
@[simp] theorem execDcdec_mem (a : Opnd) (s : State) : (nextOr s (execDcdec a s)).mem = s.mem := control_mem fun _ => by
  dsimp only; (repeat' split) <;> simp
@[simp] theorem execGbar_mem (k : BitVec 2) (s : State) : (nextOr s (execGbar k s)).mem = s.mem := control_mem fun _ => by
  dsimp only; (repeat' split) <;> simp
@[simp] theorem execMgang_mem (a : Opnd) (b : Opnd) (g : GangWord) (s : State) :
    (nextOr s (execMgang a b g s)).mem = s.mem := control_mem fun _ => by simp
@[simp] theorem execMcode_mem (a : Opnd) (s : State) : (nextOr s (execMcode a s)).mem = s.mem := control_mem fun _ => rfl
@[simp] theorem execAccrd_mem (conv : Conv) (a : Opnd) (b : Opnd) (s : State) :
    (nextOr s (execAccrd conv a b s)).mem = s.mem := control_mem fun _ => by simp
@[simp] theorem execAccz_mem (ring : Ring) (first : BitVec 4) (last : BitVec 4) (s : State) :
    (nextOr s (execAccz ring first last s)).mem = s.mem := control_mem fun _ => by
  dsimp only; (repeat' split) <;> simp
@[simp] theorem execSetwin_mem (a : Opnd) (s : State) : (nextOr s (execSetwin a s)).mem = s.mem := control_mem fun _ => by simp
@[simp] theorem execSetwinLone_mem (wb : BitVec 11) (wl : BitVec 7) (s : State) :
    (nextOr s (execSetwinLone wb wl s)).mem = s.mem := control_mem fun _ => by simp
@[simp] theorem execGetwin_mem (a : Opnd) (s : State) : (nextOr s (execGetwin a s)).mem = s.mem := control_mem fun _ => rfl
@[simp] theorem execSetbnd_mem (a : Opnd) (s : State) : (nextOr s (execSetbnd a s)).mem = s.mem := control_mem fun _ => by
  dsimp only; (repeat' split) <;> simp
@[simp] theorem execXld_mem (a : Opnd) (s : State) : (nextOr s (execXld a s)).mem = s.mem := control_mem fun _ => by simp
@[simp] theorem execXst_mem (a : Opnd) (s : State) : (nextOr s (execXst a s)).mem = s.mem := control_mem fun _ => by simp
@[simp] theorem execXpush_mem (a : Opnd) (s : State) : (nextOr s (execXpush a s)).mem = s.mem := control_mem fun _ => by simp
@[simp] theorem execXws_mem (a : Opnd) (s : State) : (nextOr s (execXws a s)).mem = s.mem := control_mem fun _ => by simp
@[simp] theorem execCnop_mem (s : State) : (nextOr s (execCnop s)).mem = s.mem := control_mem fun _ => rfl
@[simp] theorem execLoopPop_mem (s : State) : (nextOr s (execLoopPop s)).mem = s.mem := control_mem fun _ => rfl
@[simp] theorem execJtok_mem (s : State) : (nextOr s (execJtok s)).mem = s.mem := control_mem fun _ => by
  split <;> rfl
@[simp] theorem execIfence_mem (s : State) : (nextOr s (execIfence s)).mem = s.mem := control_mem fun _ => by simp
@[simp] theorem execRls_mem (s : State) : (nextOr s (execRls s)).mem = s.mem := control_mem fun _ => by
  dsimp only; (repeat' split) <;> simp
@[simp] theorem execCkpt_mem (s : State) : (nextOr s (execCkpt s)).mem = s.mem := control_mem fun _ => by
  dsimp only; (repeat' split) <;> simp

/-- The word that ends a bundle leaves memory alone when its last step does. -/
theorem afterBundle_mem (p : CSpec) {fin : State → Out} {s : State} (hf : (nextOr s (fin s)).mem = s.mem) :
    (nextOr s (afterBundle p fin s)).mem = s.mem := by
  unfold afterBundle; dsimp only
  split
  · split
    · exact stallC_mem ..
    · split
      · exact stallC_mem ..
      · exact hf
  · split
    · split
      · exact hf
      · split
        · exact hf
        · rfl
    · exact stallC_mem ..
/-- Where nothing comes next, only the memory of the state kept matters. -/
theorem nextOr_mem_eq {s t : State} (o : Out) (h : s.mem = t.mem) : (nextOr s o).mem = (nextOr t o).mem := by
  cases o with
  | next _ => rfl
  | fault _ => exact h
  | refused _ => exact h
@[simp] theorem execEret_mem (s : State) : (nextOr s (execEret s)).mem = s.mem := by
  unfold execEret
  split
  · exact takeTrap_mem ..
  · rw [nextOr_mem_eq _ (readEret_mem s).symm, ← readEret_mem s]
    exact afterBundle_mem _ (returnTrap_mem _)
@[simp] theorem finishHandler_mem (s : State) : (nextOr s (finishHandler s)).mem = s.mem := by
  unfold finishHandler; dsimp only
  split
  · rfl
  · split
    · exact stallC_mem ..
    · rw [nextOr_next]
      (repeat' split) <;> simp
@[simp] theorem execDone_mem (s : State) : (nextOr s (execDone s)).mem = s.mem := afterBundle_mem _ (finishHandler_mem s)
@[simp] theorem execMessageDelivery_mem (i : Nat) (s : State) : (nextOr s (execMessageDelivery i s)).mem = s.mem := by
  unfold execMessageDelivery
  split
  · rfl
  · split
    · rfl
    · split
      · next hd =>
        have := deliverAll_mem hd
        split
        · simp
        · split <;> simpa using this
      · rfl
@[simp] theorem execPageWalk_mem (w : Word) (s : State) : (nextOr s (execPageWalk w s)).mem = s.mem := by
  unfold execPageWalk; dsimp only
  split
  · rfl
  · split
    · exact (foldl_mem (fun _ _ => fillL1_mem ..) _ _).trans (foldl_mem (fun _ _ => modCl_mem ..) _ _)
    · exact foldl_mem (fun _ _ => tellAsker_mem ..) _ _
@[simp] theorem execWalkerIssue_mem (i : Nat) (s : State) : (nextOr s (execWalkerIssue i s)).mem = s.mem := by
  unfold execWalkerIssue
  split
  · rfl
  · split
    · rfl
    · split
      · simp
      · cases hp : issuePoint s i _ with
        | none => rfl
        | some t => exact issuePoint_mem hp
@[simp] theorem execLinkRetrain_mem (n : Nat) (ok : Bool) (s : State) : (nextOr s (execLinkRetrain n ok s)).mem = s.mem := by
  unfold execLinkRetrain; dsimp only
  split
  · rfl
  · split
    · rfl
    · exact foldl_mem (fun _ _ => mchkStop_mem ..) _ _
@[simp] theorem execReducedService_mem (s : State) : (nextOr s (execReducedService s)).mem = s.mem := by
  unfold execReducedService; dsimp only
  split
  · rfl
  · rw [nextOr_next, foldl_mem (fun t c => modCl_mem ..)]
@[simp] theorem execFullService_mem (d : ServiceDesc) (s : State) : (nextOr s (execFullService d s)).mem = s.mem := by
  unfold execFullService; dsimp only
  split
  · rfl
  · refine (foldl_mem (fun t c => ?_) _ _).trans ((foldl_mem (fun t c => ?_) _ _).trans rfl)
    · split <;> simp
    · simp
@[simp] theorem execOvercurrentStep_mem (s : State) : (nextOr s (execOvercurrentStep s)).mem = s.mem := by
  unfold execOvercurrentStep; dsimp only
  split
  · rw [nextOr_next, foldl_mem (fun t c => modCl_mem ..)]
  · rfl
theorem execPageTableWrite_inv {s : State} (h : Inv s) (key : Nat) (entry : DWord) :
    Inv (nextOr s (execPageTableWrite key entry s)) :=
  putEntry_inv h _ _
theorem execLend_inv {s : State} (h : Inv s) (a : Opnd) : Inv (nextOr s (execLend a s)) := control_inv h fun _ => startLend_inv h _
theorem execLdx_inv {s : State} (h : Inv s) (a b c : Opnd) (size : MSize) : Inv (nextOr s (execLdx a b c size s)) :=
  control_inv h fun _ => indexed_inv h _ _ _ fun _ => loadAt_inv h ..
theorem execStx_inv {s : State} (h : Inv s) (a b c : Opnd) (size : MSize) : Inv (nextOr s (execStx a b c size s)) :=
  control_inv h fun _ => indexed_inv h _ _ _ fun _ => storeAt_inv h ..
theorem execSti_inv {s : State} (h : Inv s) (a b : Opnd) (off : BitVec 5) (ord : Ord) (scp : Scp) :
    Inv (nextOr s (execSti a b off ord scp s)) := control_inv h fun _ => imagedStore_inv h ..
theorem execStiLone_inv {s : State} (h : Inv s) (a b : Opnd) (ord : Ord) (scp : Scp) (ext : Word) :
    Inv (nextOr s (execStiLone a b ord scp ext s)) := control_inv h fun _ => imagedStore_inv h ..
theorem tagset_mem (i : Instr) (t : BitVec 8) (on : Bool) (s : State) : (nextOr s (tagset i t on s)).mem = s.mem :=
  control_mem fun _ => by dsimp only; (repeat' split) <;> simp

end Sys2Proof.Machine
end

section
/-! PROOFS. Every step keeps the form of memory (O60). -/

namespace Sys2Proof.Machine

@[simp] theorem execTagsetOn_mem (t : BitVec 8) (s : State) : (nextOr s (execTagsetOn t s)).mem = s.mem := tagset_mem ..
@[simp] theorem execTagsetOff_mem (t : BitVec 8) (s : State) : (nextOr s (execTagsetOff t s)).mem = s.mem := tagset_mem ..
/-- The arithmetic words: they change nothing outside the core (O14). -/
theorem arithWord_mem {i : Instr} (h : (aOps i).isSome = true) (s : State) : (nextOr s (exec i s)).mem = s.mem := by
  cases ht : exec i s with
  | next t =>
    obtain ⟨f, hf, hx⟩ := exec_takes i h
    obtain ⟨n, hn⟩ | ⟨c, info, a, hc⟩ | ⟨e, r, a, s1, v, n, -, ha, g, rfl⟩ := arith_cases ((hf s).symm.trans ht)
    · cases hn; rfl
    · cases hc; exact takeTrap_mem ..
    · obtain ⟨h1, -⟩ := hx _ _ _ _ _ _ _ g
      rw [nextOr_next, commitA_mem, h1]
  | fault _ => rfl
  | refused _ => rfl

/-- Every instruction and event keeps the form of memory. -/
theorem exec_inv (i : Instr) {s : State} (h : Inv s) : Inv (nextOr s (exec i s)) := by
  by_cases ha : (aOps i).isSome = true
  · exact h.of_mem (arithWord_mem ha s)
  cases i with
  | ldb | ldh | ldw | ldd | ldv | ldbLone | ldhLone | ldwLone | lddLone | ldvLone =>
    simp only [exec_ldb, execLdb, exec_ldh, execLdh, exec_ldw, execLdw, exec_ldd, execLdd, exec_ldv, execLdv, exec_ldbLone,
      execLdbLone, exec_ldhLone, execLdhLone, exec_ldwLone, execLdwLone, exec_lddLone, execLddLone, exec_ldvLone, execLdvLone]
    exact load_inv h ..
  | stb | sth | stw | std | stv | stbLone | sthLone | stwLone | stdLone | stvLone =>
    simp only [exec_stb, execStb, exec_sth, execSth, exec_stw, execStw, exec_std, execStd, exec_stv, execStv, exec_stbLone,
      execStbLone, exec_sthLone, execSthLone, exec_stwLone, execStwLone, exec_stdLone, execStdLone, exec_stvLone, execStvLone]
    exact store_inv h ..
  | bc => exact h.of_mem (execBc_mem ..)
  | call => exact h.of_mem (execCall_mem ..)
  | jr => exact h.of_mem (execJr_mem ..)
  | loop => exact h.of_mem (execLoop_mem ..)
  | loopi => exact h.of_mem (execLoopi_mem ..)
  | trap => exact h.of_mem (execTrap_mem ..)
  | brk => exact h.of_mem (execBrk_mem ..)
  | fsync => exact h.of_mem (execFsync_mem ..)
  | csrr => exact h.of_mem (execCsrr_mem ..)
  | csrw => exact h.of_mem (execCsrw_mem ..)
  | movi => exact h.of_mem (execMovi_mem ..)
  | adda => exact h.of_mem (execAdda_mem ..)
  | fence => exact h.of_mem (execFence_mem ..)
  | strm => exact h.of_mem (execStrm_mem ..)
  | cpy => exact h.of_mem (execCpy_mem ..)
  | cpseal => exact h.of_mem (execCpseal_mem ..)
  | cpwait => exact h.of_mem (execCpwait_mem ..)
  | send => exact h.of_mem (execSend_mem ..)
  | sendGrp => exact h.of_mem (execSendGrp_mem ..)
  | senda => exact h.of_mem (execSenda_mem ..)
  | dcarm => exact h.of_mem (execDcarm_mem ..)
  | dcdec => exact h.of_mem (execDcdec_mem ..)
  | gbar => exact h.of_mem (execGbar_mem ..)
  | mgang => exact h.of_mem (execMgang_mem ..)
  | mcode => exact h.of_mem (execMcode_mem ..)
  | accrd => exact h.of_mem (execAccrd_mem ..)
  | accz => exact h.of_mem (execAccz_mem ..)
  | setwin => exact h.of_mem (execSetwin_mem ..)
  | setwinLone => exact h.of_mem (execSetwinLone_mem ..)
  | getwin => exact h.of_mem (execGetwin_mem ..)
  | setbnd => exact h.of_mem (execSetbnd_mem ..)
  | xld => exact h.of_mem (execXld_mem ..)
  | xst => exact h.of_mem (execXst_mem ..)
  | xpush => exact h.of_mem (execXpush_mem ..)
  | xws => exact h.of_mem (execXws_mem ..)
  | messageDelivery => exact h.of_mem (execMessageDelivery_mem ..)
  | sendAnswer => exact h.of_mem (execSendAnswer_mem ..)
  | handlerStart => exact h.of_mem (execHandlerStart_mem ..)
  | preempt => exact h.of_mem (execPreempt_mem ..)
  | preemptResume => exact h.of_mem (execPreemptResume_mem ..)
  | serviceDispatch => exact h.of_mem (execServiceDispatch_mem ..)
  | dctDecrement => exact h.of_mem (execDctDecrement_mem ..)
  | barrierPhaseComplete => exact h.of_mem (execBarrierPhaseComplete_mem ..)
  | copyJobStart => exact h.of_mem (execCopyJobStart_mem ..)
  | streamBeat => exact h.of_mem (execStreamBeat_mem ..)
  | gangto => exact h.of_mem (execGangto_mem ..)
  | refreshWindow => exact h.of_mem (execRefreshWindow_mem ..)
  | harvestDispatch => exact h.of_mem (execHarvestDispatch_mem ..)
  | parkedContextResume => exact h.of_mem (execParkedContextResume_mem ..)
  | pageWalk => exact h.of_mem (execPageWalk_mem ..)
  | tlbInvalidate => exact h.of_mem (execTlbInvalidate_mem ..)
  | translationCompletion => exact h.of_mem (execTranslationCompletion_mem ..)
  | pageRequestGroupResponse => exact h.of_mem (execPageRequestGroupResponse_mem ..)
  | invalidateRequest => exact h.of_mem (execInvalidateRequest_mem ..)
  | pushCompletionMessage => exact h.of_mem (execPushCompletionMessage_mem ..)
  | piWrite => exact h.of_mem (execPiWrite_mem ..)
  | clrf => exact h.of_mem (execClrf_mem ..)
  | stopQueue => exact h.of_mem (execStopQueue_mem ..)
  | fciWrite => exact h.of_mem (execFciWrite_mem ..)
  | notifyPageOtherWrite q off v => exact h.of_mem (execNotifyPageOtherWrite_mem q off v s)
  | walkerIssue => exact h.of_mem (execWalkerIssue_mem ..)
  | wheelTurn => exact h.of_mem (execWheelTurn_mem ..)
  | tlimitExpiry => exact h.of_mem (execTlimitExpiry_mem ..)
  | ladderT1Expiry => exact h.of_mem (execLadderT1Expiry_mem ..)
  | ladderT2Expiry => exact h.of_mem (execLadderT2Expiry_mem ..)
  | partitionChange => exact h.of_mem (execPartitionChange_mem ..)
  | queueCreate => exact h.of_mem (execQueueCreate_mem ..)
  | meteringInterval => exact h.of_mem (execMeteringInterval_mem ..)
  | clockChange => exact h.of_mem (execClockChange_mem ..)
  | linkFlit => exact h.of_mem (execLinkFlit_mem ..)
  | linkRetrain => exact h.of_mem (execLinkRetrain_mem ..)
  | weightStoreOpen => exact h.of_mem (execWeightStoreOpen_mem ..)
  | weightStoreClose => exact h.of_mem (execWeightStoreClose_mem ..)
  | keySlotLoad => exact h.of_mem (execKeySlotLoad_mem ..)
  | coreReset => exact h.of_mem (execCoreReset_mem ..)
  | firmwareUpdate => exact h.of_mem (execFirmwareUpdate_mem ..)
  | reducedService => exact h.of_mem (execReducedService_mem ..)
  | fullService => exact h.of_mem (execFullService_mem ..)
  | signedRecord => exact h.of_mem (execSignedRecord_mem ..)
  | negotiateAlgorithms => exact h.of_mem (execNegotiateAlgorithms_mem ..)
  | challenge => exact h.of_mem (execChallenge_mem ..)
  | getMeasurements => exact h.of_mem (execGetMeasurements_mem ..)
  | illegalEncoding => exact h.of_mem (execIllegalEncoding_mem ..)
  | writePerformed => exact h.of_mem (execWritePerformed_mem ..)
  | completionTimeout => exact h.of_mem (execCompletionTimeout_mem ..)
  | scrub => exact h.of_mem (execScrub_mem ..)
  | l2HitFill => exact h.of_mem (execL2HitFill_mem ..)
  | cnop => exact h.of_mem (execCnop_mem ..)
  | loopPop => exact h.of_mem (execLoopPop_mem ..)
  | jtok => exact h.of_mem (execJtok_mem ..)
  | eret => exact h.of_mem (execEret_mem ..)
  | ifence => exact h.of_mem (execIfence_mem ..)
  | rls => exact h.of_mem (execRls_mem ..)
  | done => exact h.of_mem (execDone_mem ..)
  | ckpt => exact h.of_mem (execCkpt_mem ..)
  | fetch => exact h.of_mem (execFetch_mem ..)
  | strdl => exact h.of_mem (execStrdl_mem ..)
  | trapEntry => exact h.of_mem (execTrapEntry_mem ..)
  | tlbInvalidateComplete => exact h.of_mem (execTlbInvalidateComplete_mem ..)
  | invalidationCompletion => exact h.of_mem (execInvalidationCompletion_mem ..)
  | overcurrentStep => exact h.of_mem (execOvercurrentStep_mem ..)
  | firmwareHeartbeat => exact h.of_mem (execFirmwareHeartbeat_mem ..)
  | firmwareHeartbeatMiss => exact h.of_mem (execFirmwareHeartbeatMiss_mem ..)
  | getVersion => exact h.of_mem (execGetVersion_mem ..)
  | getCapabilities => exact h.of_mem (execGetCapabilities_mem ..)
  | getDigests => exact h.of_mem (execGetDigests_mem ..)
  | getCertificate => exact h.of_mem (execGetCertificate_mem ..)
  | priReenable => exact h.of_mem (execPriReenable_mem ..)
  | tagsetOn => exact h.of_mem (execTagsetOn_mem ..)
  | tagsetOff => exact h.of_mem (execTagsetOff_mem ..)
  | ldx => exact execLdx_inv h ..
  | stx => exact execStx_inv h ..
  | amo => exact execAmo_inv h ..
  | cas => exact execCas_inv h ..
  | sti => exact execSti_inv h ..
  | stiLone => exact execStiLone_inv h ..
  | lend => exact execLend_inv h ..
  | lateWriteLanding => exact execLateWriteLanding_inv h ..
  | copyBeat => exact execCopyBeat_inv h ..
  | heldRemoteAccess => exact execHeldRemoteAccess_inv h ..
  | imageWrite => exact execImageWrite_inv h ..
  | gangStart => exact execGangStart_inv h ..
  | gangStepRetire => exact execGangStepRetire_inv h ..
  | revocation => exact execRevocation_inv h ..
  | revocationComplete => exact execRevocationComplete_inv h ..
  | lendingResume => exact execLendingResume_inv h ..
  | parkedContextMove => exact execParkedContextMove_inv h ..
  | transferBeat => exact execTransferBeat_inv h ..
  | messageRecord => exact execMessageRecord_inv h ..
  | launchRecord => exact execLaunchRecord_inv h ..
  | signalRecord => exact execSignalRecord_inv h ..
  | energyBudgetRecord => exact execEnergyBudgetRecord_inv h ..
  | kernelComplete => exact execKernelComplete_inv h ..
  | completionSignal => exact execCompletionSignal_inv h ..
  | ladderDrainComplete => exact execLadderDrainComplete_inv h ..
  | ladderSaveComplete => exact execLadderSaveComplete_inv h ..
  | ladderReset => exact execLadderReset_inv h ..
  | queueRestore => exact execQueueRestore_inv h ..
  | processKill => exact execProcessKill_inv h ..
  | processChange => exact execProcessChange_inv h ..
  | pairRollback => exact execPairRollback_inv h ..
  | durableReplay => exact execDurableReplay_inv h ..
  | moduleLoad => exact execModuleLoad_inv h ..
  | moduleUnload => exact execModuleUnload_inv h ..
  | malformedCommandRecord => exact execMalformedCommandRecord_inv h ..
  | pageTableWrite => exact execPageTableWrite_inv h ..
  | reclaim => exact execReclaim_inv h ..
  | kernelStop => exact execKernelStop_inv h ..
  | powerOn => exact execPowerOn_inv h ..
  | _ => exact absurd rfl ha

/-- The outcome may be taken from a state with bookkeeping done. -/
theorem inv_next {s t : State} {o : Out} (h : Inv t) (hn : Inv (nextOr s o)) : Inv (nextOr t o) := by
  cases o with
  | next _ => exact hn
  | fault _ => exact h
  | refused _ => exact h
theorem runWord_inv {s : State} (h : Inv s) (i : Instr) : Inv (nextOr s (runWord i s)) := by
  have he := exec_inv i h
  unfold runWord
  split
  · next t ht =>
    rw [ht, nextOr_next] at he
    split
    · exact he.of_mem (tally_mem ..)
    · split
      · exact meetBroken_inv h _
      · exact he.of_mem ((tally_mem ..).trans (modC_mem ..))
  · exact he
theorem slotGo_inv {s : State} (h : Inv s) {o : Out} (ho : slotGo s = some o) : Inv (nextOr s o) := by
  obtain ⟨t, -, rfl⟩ := Option.map_eq_some_iff.mp ho
  cases t with
  | run i => exact runWord_inv h i
  | pass => exact h
theorem engineTurn_inv {n : Nat} {s : State} (h : Inv s) {o : Out} (ho : engineTurn n s = some o) : Inv (nextOr s o) := by
  obtain ⟨i, -, rfl⟩ := Option.map_eq_some_iff.mp ho
  exact inv_next h (exec_inv (s := s.modS wake) i h)
theorem rotateTurn_inv {s : State} (h : Inv s) (turn : Nat) : Inv (nextOr s (rotateTurn turn s)) :=
  h.of_mem (rotate_mem s)
/-- A turn takes the first of two offers, or turns to another core. -/
theorem offers_inv {s : State} (h : Inv s) {a b : Option Out} (ha : ∀ o, a = some o → Inv (nextOr s o))
    (hb : ∀ o, b = some o → Inv (nextOr s o)) (turn : Nat) : Inv (nextOr s ((a.or b).getD (rotateTurn turn s))) := by
  cases a with
  | some o => exact ha o rfl
  | none =>
    cases b with
    | some o => exact hb o rfl
    | none => exact rotateTurn_inv h turn
theorem advance_inv {s : State} (h : Inv s) (turn : Nat) : Inv (nextOr s (advance turn s)) := by
  have hs := fun o => slotGo_inv h (o := o)
  have he := fun n o => engineTurn_inv (n := n) h (o := o)
  unfold advance
  split
  · exact offers_inv h (he _) hs _
  · exact rotateTurn_inv h _
  · exact offers_inv h (he _) hs _
  · exact rotateTurn_inv h _
  · exact offers_inv h hs (he _) _
theorem outsideEvent_inv {s : State} (h : Inv s) (i : Instr) : Inv (nextOr s (outsideEvent i s)) := by
  unfold outsideEvent
  split
  · exact h
  · exact exec_inv i h

/-- Settles O60: a step runs one instruction or event at most, whichever stream or engine offers it, and that keeps the form
(`exec_inv`). -/
theorem stepKeepsMemoryForm : Obligations.StepKeepsMemoryForm := by
  unfold Obligations.StepKeepsMemoryForm
  intro s t h ht
  have ht' : Inv (tick s) := h
  suffices hn : Inv (nextOr s (step s)) by rwa [ht] at hn
  unfold step
  split
  · exact inv_next h (outsideEvent_inv (s := { tick s with events := _ }) h _)
  · exact inv_next h (advance_inv ht' _)

end Sys2Proof.Machine
end

section
/-! PROOFS. csrr and csrw of the control registers (O23). -/

namespace Sys2Proof.Machine

/-! The bar of the registers that need PRV (R132). -/

theorem cregPriv_iff (r : CReg) : cregPriv r = true ↔ r ∈ [CReg.pb, .pl, .tagsel, .tagent] := by cases r <;> decide

/-- Without PRV such a register is barred. -/
theorem cregBar_some {s : State} {r : CReg} (hp : s.core.slot.prv = false) (hr : r ∈ [CReg.pb, .pl, .tagsel, .tagent]) :
    (if cregPriv r then privBar s else none) = some (mkTrap 0x11 0 0) := by
  simp [(cregPriv_iff r).2 hr, privBar, hp, cPRIV]

/-- With PRV none is, and without it none of the others. -/
theorem cregBar_none {s : State} {r : CReg} (h : s.core.slot.prv = true ∨ r ∉ [CReg.pb, .pl, .tagsel, .tagent]) :
    (if cregPriv r then privBar s else none) = none := by
  rw [← cregPriv_iff] at h
  obtain h | h := h <;> simp [privBar, h]

/-- Of the registers that can be written, TAGSEL and TAGENT alone need PRV. -/
theorem writable_open {r : CReg} (hw : r.writable = true) (h : r ≠ .tagsel ∧ r ≠ .tagent) :
    r ∉ [CReg.pb, .pl, .tagsel, .tagent] := by
  obtain ⟨hs, he⟩ := h
  simp only [List.mem_cons, List.not_mem_nil, or_false, not_or]
  exact ⟨fun e => (by rw [e] at hw; cases hw), fun e => (by rw [e] at hw; cases hw), hs, he⟩

/-- The trap at the bar. -/
theorem control_barred {i : Instr} {p : CSpec} {f : List Row → State → CRes} {s : State} {t : Trap} (hw : cWait s.core p = 0)
    (hb : p.bar = some t) : control i p f s = .next (trapped i s t) := control_meets hw (meetsAt_bar hb)

/-! What a read gives. -/

theorem lane_creg_cycle (s : State) : lane (creg s .cycle) 0 = s.core.cycle.extractLsb' 0 32 ∧
    lane (creg s .cycle) 1 = s.core.cycle.extractLsb' 32 32 := by
  constructor <;> simp [creg, lane, BitVec.extractLsb'_setWidth_of_le]

theorem lane_creg_cone {s : State} {p : Proc} (h : procById s s.core.slot.proc = some p) :
    lane (creg s .cone) 0 = p.cone.extractLsb' 0 32 ∧ lane (creg s .cone) 1 = p.cone.extractLsb' 32 32 := by
  unfold creg
  simp only [h]
  constructor <;> simp [lane, BitVec.extractLsb'_setWidth_of_le]

theorem lane_tagRow (t : BitVec 128) {j : Nat} (h : j < 4) : lane (tagRow t) j = t.extractLsb' (32 * j) 32 :=
  BitVec.extractLsb'_setWidth_of_le (by omega)

theorem lane_creg_mode (s : State) : lane (creg s .mode) 0 = BitVec.ofNat 32 ((lane s.core.hdr 1).toNat / 2 ^ 16 % 2 ^ 7) := by
  refine (lane_laneRow_zero _).trans (BitVec.eq_of_toNat_eq ?_)
  simp only [modeOf, BitVec.toNat_and, BitVec.toNat_setWidth, BitVec.extractLsb'_toNat, BitVec.toNat_ofNat, Nat.shiftRight_eq_div_pow]
  rw [show (127 : Word).toNat = 2 ^ 7 - 1 by rfl, Nat.and_two_pow_sub_one_eq_mod]
  omega

/-! What a write leaves. -/

theorem tagWrite_lane (v : Row) {j : Nat} (h : j < 4) : ((v &&& tagMask).setWidth 128).extractLsb' (32 * j) 32 =
    lane v j &&& (if j = 0 then 0x0003FFF8 else if j = 1 then 0xBF7F07FF else if j = 2 then 0xFFFF07FF else 0x01FF01FF) := by
  have hm : lane tagMask j = (if j = 0 then 0x0003FFF8 else if j = 1 then 0xBF7F07FF else if j = 2 then 0xFFFF07FF else 0x01FF01FF) := by
    interval_cases j <;> decide +kernel
  rw [← hm, BitVec.extractLsb'_setWidth_of_le (by omega)]
  exact BitVec.extractLsb'_and ..

/-- Settles O23: a read and a write take the course of `control`, barred where PRV is missing; the values by `lane_creg_…`,
the masks of TAGENT by `tagWrite_lane`. -/
theorem controlRegisters : Obligations.ControlRegisters := by
  unfold Obligations.ControlRegisters
  refine ⟨fun a r s => ⟨fun hw hp hr => ?_, fun h hr => ?_⟩, fun a r s hw' => ⟨fun hw hp hr => ?_, fun h hr => ?_⟩⟩
  · rw [exec_csrr, execCsrr]
    exact control_barred hw (cregBar_some hp hr)
  · rw [exec_csrr, execCsrr, cregBar_none hr]
    obtain ⟨t, ht, hd⟩ := control_done (i := .csrr a r) (f := fun _ s => .go s (creg s r) none) h rfl
    refine ⟨t, _, ht, hd, ?_⟩
    refine ⟨?_, ?_, ?_, ?_, ?_, ?_, ?_, ?_, ?_, ?_, ?_, ?_, ?_, ?_, ?_, ?_, ?_, ?_, ?_, ?_, ?_⟩ <;> rintro rfl
    case refine_4 => exact fun p => lane_creg_cone
    case refine_5 => exact lane_creg_mode s
    case refine_6 => exact lane_creg_cycle s
    case refine_21 => exact fun j => lane_tagRow _
    all_goals exact lane_laneRow_zero _
  · rw [exec_csrw, execCsrw]
    exact control_barred hw (cregBar_some hp (by obtain rfl | rfl := hr <;> decide))
  · rw [exec_csrw, execCsrw, cregBar_none (hr.imp_right (writable_open hw'))]
    obtain ⟨t, ht, hd⟩ := control_done (i := .csrw a r) (f := fun rs s => .go (cregWrite s r (nth rs 0)) 0 none) h rfl
    refine ⟨t, _, ht, hd, ?_⟩
    refine ⟨?_, ?_, ?_, ?_, ?_, ?_, ?_⟩ <;> rintro rfl
    case refine_7 => exact ⟨_, rfl, fun j => tagWrite_lane _⟩
    all_goals rfl

end Sys2Proof.Machine
end

section
/-! PROOFS. Rounding past an integer, and what rounding to a format gives (O10). -/

namespace Sys2Proof.Machine

/-! ### Rounding past an integer -/

/-- The number α, rounded to an integer, lies past n. -/
def RoundsPast (rm : RMode) (neg : Bool) (α : ℚ) (n : Nat) : Prop :=
  match rm with
  | .rne => (n : ℚ) + 1 / 2 < α ∨ (n % 2 = 1 ∧ α = n + 1 / 2)
  | .rtz => (n : ℚ) + 1 ≤ α
  | .rdn => if neg then (n : ℚ) < α else (n : ℚ) + 1 ≤ α
  | .rup => if neg then (n : ℚ) + 1 ≤ α else (n : ℚ) < α

theorem roundsPast_of_le {rm : RMode} {neg : Bool} {α : ℚ} {n : Nat} (h : (n : ℚ) + 1 ≤ α) : RoundsPast rm neg α n := by
  have h1 : (n : ℚ) < α := by linarith
  have h2 : (n : ℚ) + 1 / 2 < α := by linarith
  unfold RoundsPast
  cases rm with
  | rne => exact .inl h2
  | rtz => exact h
  | rdn | rup => dsimp only; split <;> assumption

theorem not_roundsPast_of_le {rm : RMode} {neg : Bool} {α : ℚ} {n : Nat} (h : α ≤ n) : ¬ RoundsPast rm neg α n := by
  unfold RoundsPast
  cases rm with
  | rne =>
    rintro (h1 | ⟨-, h1⟩) <;> linarith
  | rtz => intro h1; linarith
  | rdn | rup =>
    dsimp only
    split <;> intro h1 <;> linarith

/-- An integer no further above the number than one, and one no further below. -/
theorem lt_iff_of_floor {α : ℚ} {r n : Nat} (h : (r : ℚ) ≤ α ∧ α < r + 1) : n < r ↔ (n : ℚ) + 1 ≤ α := by
  obtain ⟨h1, h2⟩ := h
  constructor
  · intro hlt
    have : (n : ℚ) + 1 ≤ r := by exact_mod_cast hlt
    linarith
  · intro hle
    have : (n : ℚ) < r := by linarith
    exact_mod_cast this
theorem lt_iff_of_ceil {α : ℚ} {r n : Nat} (h : (r : ℚ) - 1 < α ∧ α ≤ r) : n < r ↔ (n : ℚ) < α := by
  obtain ⟨h1, h2⟩ := h
  constructor
  · intro hlt
    have : (n : ℚ) + 1 ≤ r := by exact_mod_cast hlt
    linarith
  · intro hle
    have : (n : ℚ) < r := by linarith
    exact_mod_cast this
theorem lt_iff_of_near {α : ℚ} {r n : Nat} (h : |(r : ℚ) - α| ≤ 1 / 2 ∧ (|(r : ℚ) - α| = 1 / 2 → r % 2 = 0)) :
    n < r ↔ ((n : ℚ) + 1 / 2 < α ∨ (n % 2 = 1 ∧ α = n + 1 / 2)) := by
  obtain ⟨h1, h2⟩ := h
  obtain ⟨h3, h4⟩ := abs_le.mp h1
  constructor
  · intro hlt
    have hq : (n : ℚ) + 1 ≤ r := by exact_mod_cast hlt
    rcases lt_or_eq_of_le (show (n : ℚ) + 1 / 2 ≤ α by linarith) with h5 | h5
    · exact .inl h5
    · have hr : (r : ℚ) = n + 1 := by linarith
      have hr' : r = n + 1 := by exact_mod_cast hr
      have := h2 (by rw [hr, ← h5]; norm_num)
      exact .inr ⟨by omega, h5.symm⟩
  · rintro (h5 | ⟨ho, h5⟩)
    · have : (n : ℚ) < r := by linarith
      exact_mod_cast this
    · by_contra hge
      have hq : (r : ℚ) ≤ n := Nat.cast_le.mpr (by omega)
      have hr : (r : ℚ) = n := by linarith
      have hr' : r = n := by exact_mod_cast hr
      have := h2 (by rw [hr, h5]; norm_num)
      omega

/-- A rounded integer is above n exactly where the number rounds past n. -/
theorem IntRounds.lt_iff {rm : RMode} {neg : Bool} {α : ℚ} {r n : Nat} (h : IntRounds rm neg α r) :
    n < r ↔ RoundsPast rm neg α n := by
  unfold IntRounds at h
  unfold RoundsPast
  cases rm with
  | rne => exact lt_iff_of_near h
  | rtz => exact lt_iff_of_floor h
  | rdn =>
    cases neg with
    | false => exact lt_iff_of_floor h
    | true => exact lt_iff_of_ceil h
  | rup =>
    cases neg with
    | false => exact lt_iff_of_ceil h
    | true => exact lt_iff_of_floor h

/-! ### The greatest and the least normal number of a format -/

/-- The least exponent of a format, and the unit of its greatest number's binade: that number is K units, K no power of two. -/
def minExp (t : ETy) : Int := 1 - ((fmt t).bias : Int) - (fmt t).mb
theorem fmt_top (t : ETy) : ∃ D K, (fmt t).maxCode = D * 2 ^ (fmt t).mb + K ∧ 2 ^ (fmt t).mb < K ∧ K + 1 ≤ 2 * 2 ^ (fmt t).mb ∧
    K % 2 = (fmt t).maxCode % 2 := by
  refine ⟨(fmt t).maxCode / 2 ^ (fmt t).mb - 1, (fmt t).maxCode % 2 ^ (fmt t).mb + 2 ^ (fmt t).mb, ?_⟩
  cases t <;> decide

theorem fpValue_mag (t : ETy) (mag : Nat) (h1 : 2 ^ (fmt t).mb ≤ mag) (h2 : mag ≤ (fmt t).maxCode) :
    fpValue t mag = magValue (fmt t) mag := by
  obtain ⟨-, -, h3, -⟩ := fmt_facts t
  obtain ⟨c1, c2, -⟩ := fCode_parts t false mag (lt_of_le_of_lt h2 h3)
  rw [show fCode t false mag = mag from rfl] at c1 c2
  rw [fpValue_eq, c1, c2, magCount_full t _ h1]
  simp [sgn]

/-- The greatest number and the one below it, in units of its binade. -/
theorem top_values {t : ETy} {D K : Nat} (e : (fmt t).maxCode = D * 2 ^ (fmt t).mb + K) (h1 : 2 ^ (fmt t).mb < K)
    (h2 : K + 1 ≤ 2 * 2 ^ (fmt t).mb) :
    fpValue t (fmt t).maxCode = K * 2 ^ (D + minExp t) ∧ fpValue t ((fmt t).maxCode - 1) = (K - 1) * 2 ^ (D + minExp t) := by
  have hp := Nat.zero_le (D * 2 ^ (fmt t).mb)
  constructor
  · rw [fpValue_mag t _ (by omega) le_rfl, e, magValue_make _ _ _ (by omega) (.inr h1.le)]; rfl
  · rw [fpValue_mag t _ (by omega) (by omega), show (fmt t).maxCode - 1 = D * 2 ^ (fmt t).mb + (K - 1) by omega,
      magValue_make _ _ _ (by omega) (.inr (by omega)), Nat.cast_sub (by omega)]
    simp [minExp]

/-- R79 in units of the greatest number's binade. -/
theorem overflows_iff {t : ETy} {rm : RMode} {v : ℚ} {D K : Nat} (e : (fmt t).maxCode = D * 2 ^ (fmt t).mb + K)
    (h1 : 2 ^ (fmt t).mb < K)
    (h2 : K + 1 ≤ 2 * 2 ^ (fmt t).mb) (h3 : K % 2 = (fmt t).maxCode % 2) :
    Overflows t rm v ↔ RoundsPast rm (decide (v < 0)) (|v| / 2 ^ (D + minExp t)) K := by
  obtain ⟨e1, e2⟩ := top_values e h1 h2
  have hU : (0 : ℚ) < 2 ^ (D + minExp t) := by positivity
  have hs : fpValue t (fmt t).maxCode - fpValue t ((fmt t).maxCode - 1) = 2 ^ (D + minExp t) := by rw [e1, e2]; ring
  unfold Overflows RoundsPast
  simp only [hs]
  rw [e1, ← h3]
  generalize (2 : ℚ) ^ (D + minExp t) = U at hU ⊢
  have a1 : (K : ℚ) * U + U ≤ |v| ↔ (K : ℚ) + 1 ≤ |v| / U := by rw [le_div_iff₀ hU, add_mul, one_mul]
  have a2 : (K : ℚ) * U < |v| ↔ (K : ℚ) < |v| / U := by rw [lt_div_iff₀ hU]
  have a3 : (K : ℚ) * U + U / 2 < |v| ↔ (K : ℚ) + 1 / 2 < |v| / U := by rw [lt_div_iff₀ hU, add_mul, one_div_mul_eq_div]
  have a4 : |v| = (K : ℚ) * U + U / 2 ↔ |v| / U = (K : ℚ) + 1 / 2 := by rw [div_eq_iff hU.ne', add_mul, one_div_mul_eq_div]
  cases rm <;> simp only [a1, a2, a3, a4, decide_eq_true_eq]

/-- R73, R77: the least normal number is 2^(mb+1) units of the binade below. -/
theorem tiny_iff {t : ETy} {rm : RMode} {v : ℚ} :
    Tiny t rm v ↔ ¬ RoundsPast rm (decide (v < 0)) (|v| / 2 ^ (minExp t - 1)) (2 * 2 ^ (fmt t).mb - 1) := by
  have hU : (0 : ℚ) < 2 ^ (minExp t - 1) := by positivity
  have hl : (2 : ℚ) ^ (1 - ((fmt t).bias : Int)) = 2 * 2 ^ (fmt t).mb * 2 ^ (minExp t - 1) := by
    rw [← zpow_natCast, mul_assoc, ← zpow_add₀ (by norm_num), ← zpow_one_add₀ (by norm_num), minExp]
    congr 1; ring
  have hB : 0 < 2 ^ (fmt t).mb := by positivity
  have hn : ((2 * 2 ^ (fmt t).mb - 1 : Nat) : ℚ) = 2 * 2 ^ (fmt t).mb - 1 := by rw [Nat.cast_sub (by omega)]; push_cast; ring
  have ho : (2 * 2 ^ (fmt t).mb - 1) % 2 = 1 := by omega
  have h1 : (2 : ℚ) ^ (1 - ((fmt t).bias : Int)) / 2 ^ ((fmt t).mb + 2) = 2 ^ (minExp t - 1) / 2 := by rw [hl, pow_add]; field_simp
  have h2 : (2 : ℚ) ^ (1 - ((fmt t).bias : Int)) / 2 ^ ((fmt t).mb + 1) = 2 ^ (minExp t - 1) := by rw [hl, pow_add]; field_simp
  unfold Tiny RoundsPast
  simp only [h1, h2, ho, hn, true_and]
  rw [hl]
  generalize (2 : ℚ) ^ (minExp t - 1) = U at hU ⊢
  generalize (2 : ℚ) * 2 ^ (fmt t).mb = B
  have a1 : |v| < B * U ↔ ¬ B - 1 + 1 ≤ |v| / U := by rw [not_le, div_lt_iff₀ hU, sub_add_cancel]
  have a2 : |v| ≤ B * U - U ↔ ¬ B - 1 < |v| / U := by rw [not_lt, div_le_iff₀ hU, sub_mul, one_mul]
  have a3 : |v| < B * U - U / 2 ↔ ¬ (B - 1 + 1 / 2 < |v| / U ∨ |v| / U = B - 1 + 1 / 2) := by
    rw [@eq_comm _ (|v| / U), ← le_iff_lt_or_eq, not_le, div_lt_iff₀ hU]; ring_nf
  cases rm <;> simp only [a1, a2, a3, decide_eq_true_eq] <;> split <;> simp_all

/-! ### What rounding to a format gives -/

theorem sgn_sign {neg : Bool} {v : ℚ} (h0 : v ≠ 0) (hv : v = sgn neg * |v|) : decide (v < 0) = neg := by
  have hp := abs_pos.mpr h0
  cases neg with
  | false =>
    simp only [sgn, Bool.false_eq_true, if_false, one_mul] at hv
    simpa using hv.symm ▸ abs_nonneg v
  | true =>
    simp [sgn] at hv
    simp only [decide_eq_true_eq]
    linarith

theorem sgn_sign_self (v : ℚ) : v = sgn (decide (v < 0)) * |v| := by
  rcases lt_or_ge v 0 with h | h
  · simp [sgn, h, abs_of_neg]
  · simp [sgn, not_lt.mpr h, abs_of_nonneg h]

/-- The binade of a carried number. -/
theorem Carried.binade {m : Nat} {sticky : Bool} {a : ℚ} {e : Int} (hm : 0 < m) (hc : Carried m sticky (a / 2 ^ e)) :
    (2 : ℚ) ^ ((Nat.log2 m : Int) + e) ≤ a ∧ a < 2 * 2 ^ ((Nat.log2 m : Int) + e) := by
  obtain ⟨l1, l2⟩ := log2_bounds hm
  have hE : (0 : ℚ) < 2 ^ e := by positivity
  have ha : a = (a / 2 ^ e) * 2 ^ e := by field_simp
  have hcb : (m : ℚ) ≤ a / 2 ^ e ∧ a / 2 ^ e < m + 1 := by
    unfold Carried at hc
    split at hc
    · exact ⟨hc.1.le, hc.2⟩
    · rw [hc]; exact ⟨le_refl _, by linarith⟩
  have h1 : ((2 : ℚ) ^ Nat.log2 m) ≤ m := by exact_mod_cast l1
  have h2 : (m : ℚ) + 1 ≤ 2 * 2 ^ Nat.log2 m := by
    rw [← pow_succ']
    exact_mod_cast l2
  rw [zpow_add₀ (by norm_num), zpow_natCast]
  constructor
  · rw [ha]
    exact mul_le_mul_of_nonneg_right (h1.trans hcb.1) hE.le
  · rw [ha, ← mul_assoc]
    exact mul_lt_mul_of_pos_right (hcb.2.trans_le h2) hE

/-- In units of a full significand's binade a number lies between one full significand and two. -/
theorem scaled_bounds {a : ℚ} {top : Int} (mb : Nat) (h1 : (2 : ℚ) ^ top ≤ a) (h2 : a < 2 * 2 ^ top) :
    ((2 ^ mb : Nat) : ℚ) ≤ a / 2 ^ (top - mb) ∧ ∀ p, top - mb ≤ p → a / 2 ^ p < ((2 * 2 ^ mb : Nat) : ℚ) := by
  have hB : ((2 ^ mb : Nat) : ℚ) = 2 ^ (mb : Int) := by push_cast; rw [zpow_natCast]
  constructor
  · rw [le_div_iff₀ (by positivity), hB, ← zpow_add₀ (by norm_num)]
    exact (le_of_eq (by congr 1; omega)).trans h1
  · intro p hp
    rw [div_lt_iff₀ (by positivity), Nat.cast_mul, hB, mul_assoc, ← zpow_add₀ (by norm_num)]
    refine h2.trans_le ?_
    exact mul_le_mul_of_nonneg_left (zpow_le_zpow_right₀ (by norm_num) (by omega)) (by norm_num)

/-- `roundTo`'s test for tininess, on the number rounded with the exponent unbounded (R73, R77). -/
theorem tiny_test {t : ETy} {rm : RMode} {v : ℚ} {neg : Bool} {top : Int} {F : Nat} (hn : decide (v < 0) = neg)
    (h1 : (2 : ℚ) ^ top ≤ |v|) (h2 : |v| < 2 * 2 ^ top) (hF : IntRounds rm neg (|v| / 2 ^ (top - (fmt t).mb)) F) :
    (decide (F = 0) || decide ((Nat.log2 F : Int) + (top - (fmt t).mb) < 1 - (fmt t).bias)) = true ↔ Tiny t rm v := by
  obtain ⟨b1, b2⟩ := scaled_bounds (fmt t).mb h1 h2
  have hB : 0 < 2 ^ (fmt t).mb := by positivity
  have f1 : 2 ^ (fmt t).mb ≤ F := hF.ge b1
  have f2 : F ≤ 2 * 2 ^ (fmt t).mb := hF.le (b2 _ le_rfl).le
  have l1 : (fmt t).mb ≤ Nat.log2 F := (Nat.le_log2 (by omega)).mpr f1
  have l2 : 2 * 2 ^ (fmt t).mb ≤ F ↔ (fmt t).mb + 1 ≤ Nat.log2 F := by rw [Nat.le_log2 (by omega), Nat.pow_succ']
  have l3 : Nat.log2 F ≤ (fmt t).mb + 1 := by
    rw [← Nat.lt_succ_iff, Nat.succ_eq_add_one, Nat.log2_lt (by omega), Nat.pow_succ, Nat.pow_succ]
    omega
  rw [tiny_iff, hn, Bool.or_eq_true, decide_eq_true_eq, decide_eq_true_eq]
  have hz : ¬ F = 0 := by omega
  simp only [hz, false_or]
  rcases lt_trichotomy top (minExp t - 1 + (fmt t).mb) with h | h | h
  · -- two binades down or more: tiny whatever the rounding
    have hle : |v| / 2 ^ (minExp t - 1) ≤ ((2 * 2 ^ (fmt t).mb - 1 : Nat) : ℚ) := by
      rw [div_le_iff₀ (by positivity)]
      have h3 : (2 : ℚ) * 2 ^ top ≤ 2 ^ (fmt t).mb * 2 ^ (minExp t - 1) := by
        rw [← zpow_one_add₀ (by norm_num), ← zpow_natCast, ← zpow_add₀ (by norm_num)]
        exact zpow_le_zpow_right₀ (by norm_num) (by omega)
      have h4 : ((2 : ℚ) ^ (fmt t).mb) ≤ ((2 * 2 ^ (fmt t).mb - 1 : Nat) : ℚ) := by exact_mod_cast (by omega : 2 ^ (fmt t).mb ≤ 2 * 2 ^ (fmt t).mb - 1)
      exact (h2.le.trans h3).trans (mul_le_mul_of_nonneg_right h4 (by positivity))
    have h5 : (Nat.log2 F : Int) + (top - (fmt t).mb) < 1 - (fmt t).bias := by unfold minExp at h; omega
    simp only [h5, true_iff]
    exact not_roundsPast_of_le hle
  · -- the binade below the least normal number
    have hq : top - (fmt t).mb = minExp t - 1 := by omega
    rw [hq] at hF
    rw [← hF.lt_iff, not_lt]
    unfold minExp at *
    omega
  · have hge : ((2 * 2 ^ (fmt t).mb - 1 : Nat) : ℚ) + 1 ≤ |v| / 2 ^ (minExp t - 1) := by
      rw [le_div_iff₀ (by positivity), Nat.cast_sub (by omega)]
      push_cast
      rw [sub_add_cancel, ← zpow_natCast, mul_assoc, ← zpow_add₀ (by norm_num), ← zpow_one_add₀ (by norm_num)]
      exact (zpow_le_zpow_right₀ (by norm_num) (by omega)).trans h1
    have h5 : ¬ (Nat.log2 F : Int) + (top - (fmt t).mb) < 1 - (fmt t).bias := by unfold minExp at h; omega
    simp only [h5, false_iff, not_not]
    exact roundsPast_of_le hge

/-- The magnitude that a number rounds to, d binades above the least and R units there, whether it is another number, and whether the
number is tiny. -/
structure RoundedAs (t : ETy) (rm : RMode) (neg : Bool) (v : ℚ) (d R : Nat) (nx tiny : Bool) : Prop where
  rounds : IntRounds rm neg (|v| / 2 ^ (d + minExp t)) R
  inexact : nx = true ↔ (R : ℚ) ≠ |v| / 2 ^ (d + minExp t)
  below : |v| / 2 ^ (d + minExp t) < ((2 * 2 ^ (fmt t).mb : Nat) : ℚ)
  full : d ≠ 0 → ((2 ^ (fmt t).mb : Nat) : ℚ) ≤ |v| / 2 ^ (d + minExp t)
  tiny : tiny = true ↔ Tiny t rm v

/-- The code and the exceptions for such a magnitude. -/
def roundedCode (t : ETy) (rm : RMode) (sat neg : Bool) (d R : Nat) (nx tiny : Bool) : Nat × Exc :=
  if (fmt t).maxCode < d * 2 ^ (fmt t).mb + R then (overflowCode t rm neg sat, Exc.overflow)
  else if ((fmt t).flush && tiny) = true then (fCode t neg 0, Exc.underflow)
  else (fCode t neg (d * 2 ^ (fmt t).mb + R), { Exc.none with nx := nx, uf := tiny && nx })

theorem carried_ne_zero {m : Nat} {sticky : Bool} {v : ℚ} {e : Int} (hm : 0 < m) (hc : Carried m sticky (|v| / 2 ^ e)) : v ≠ 0 := by
  rintro rfl
  have h := hc.binade hm
  have : (0 : ℚ) < 2 ^ ((Nat.log2 m : Int) + e) := by positivity
  simp only [abs_zero] at h
  linarith

theorem roundTo_code (t : ETy) (rm : RMode) (sat neg : Bool) (m : Nat) (e : Int) (sticky : Bool) (v : ℚ) (hm : 0 < m)
    (hc : Carried m sticky (|v| / 2 ^ e)) (hs : sticky = true → 2 ^ ((fmt t).mb + 2) ≤ m) (hv : v = sgn neg * |v|) :
    ∃ d R nx tiny, RoundedAs t rm neg v d R nx tiny ∧ roundTo t rm sat neg m e sticky = roundedCode t rm sat neg d R nx tiny := by
  have hn : decide (v < 0) = neg := sgn_sign (carried_ne_zero hm hc) hv
  obtain ⟨b1, b2⟩ := hc.binade hm
  obtain ⟨s1, s2⟩ := scaled_bounds (fmt t).mb b1 b2
  set top : Int := (Nat.log2 m : Int) + e with htop
  set qu : Int := top - (fmt t).mb with hqu
  set q : Int := max qu (minExp t) with hq
  have hsq : sticky = true → e < qu := by
    intro h
    have : (fmt t).mb + 2 ≤ Nat.log2 m := (Nat.le_log2 (by omega)).mpr (hs h)
    omega
  have hd : ((q - minExp t).toNat : Int) + minExp t = q := by omega
  obtain ⟨r1, r2⟩ := roundQ_rounds rm neg m e q sticky |v| hc (fun h => lt_of_lt_of_le (hsq h) (le_max_left _ _))
  obtain ⟨u1, -⟩ := roundQ_rounds rm neg m e qu sticky |v| hc hsq
  refine ⟨(q - minExp t).toNat, (roundQ rm neg m e q sticky).1, (roundQ rm neg m e q sticky).2, _, ⟨?_, ?_, ?_, ?_, tiny_test hn b1 b2 u1⟩, ?_⟩
  · rw [hd]; exact r1
  · rw [hd]; exact r2
  · rw [hd]; exact s2 q (le_max_left _ _)
  · intro h
    rw [hd, show q = qu by omega]; exact s1
  · unfold roundTo roundedCode
    simp only [Nat.shiftLeft_eq]
    rfl

theorem fCode_eq (t : ETy) (neg : Bool) (mag : Nat) : fCode t neg mag = signCode t neg + mag := by
  cases neg <;> simp [fCode, signCode]

/-- The least normal number in units of the least exponent. -/
theorem least_eq (t : ETy) : (2 : ℚ) ^ (1 - ((fmt t).bias : Int)) = ((2 ^ (fmt t).mb : Nat) : ℚ) * 2 ^ minExp t := by
  push_cast
  rw [← zpow_natCast, ← zpow_add₀ (by norm_num), minExp]
  congr 1; ring

theorem least_le_top (t : ETy) : (2 : ℚ) ^ (1 - ((fmt t).bias : Int)) ≤ fpValue t (fmt t).maxCode := by
  obtain ⟨D, K, e, h1, h2, -⟩ := fmt_top t
  rw [(top_values e h1 h2).1, least_eq]
  exact mul_le_mul (by exact_mod_cast h1.le) (zpow_le_zpow_right₀ (by norm_num) (by omega)) (by positivity) (by positivity)

theorem not_tiny_of_le {t : ETy} {rm : RMode} {v : ℚ} (h : (2 : ℚ) ^ (1 - ((fmt t).bias : Int)) ≤ |v|) : ¬ Tiny t rm v := by
  rw [tiny_iff, not_not]
  refine roundsPast_of_le ?_
  have hB : 0 < 2 ^ (fmt t).mb := by positivity
  rw [le_div_iff₀ (by positivity), Nat.cast_sub (by omega), Nat.cast_one, sub_add_cancel]
  refine le_of_eq_of_le ?_ h
  rw [least_eq, show minExp t = (minExp t - 1) + 1 by ring, zpow_add_one₀ (by norm_num)]
  push_cast; ring_nf

theorem not_overflows_of_le {t : ETy} {rm : RMode} {v : ℚ} (h : |v| ≤ fpValue t (fmt t).maxCode) : ¬ Overflows t rm v := by
  obtain ⟨D, K, e, h1, h2, h3⟩ := fmt_top t
  rw [overflows_iff e h1 h2 h3]
  refine not_roundsPast_of_le ?_
  rw [div_le_iff₀ (by positivity), ← (top_values e h1 h2).1]
  exact h

theorem not_tiny_of_overflows {t : ETy} {rm : RMode} {v : ℚ} (h : Overflows t rm v) : ¬ Tiny t rm v := by
  refine not_tiny_of_le ?_
  by_contra hlt
  exact not_overflows_of_le ((not_le.mp hlt).le.trans (least_le_top t)) h

section
variable {t : ETy} {rm : RMode} {neg : Bool} {v : ℚ} {d R : Nat} {nx tiny : Bool}

theorem RoundedAs.le_twice (h : RoundedAs t rm neg v d R nx tiny) : R ≤ 2 * 2 ^ (fmt t).mb := h.rounds.le h.below.le
theorem RoundedAs.full_le (h : RoundedAs t rm neg v d R nx tiny) (hd : d ≠ 0) : 2 ^ (fmt t).mb ≤ R := h.rounds.ge (h.full hd)

/-- A magnitude in a binade below the top one is below the greatest number, as is the number. -/
theorem RoundedAs.low (h : RoundedAs t rm neg v d R nx tiny) {D : Nat} (hd : d < D) :
    d * 2 ^ (fmt t).mb + R ≤ D * 2 ^ (fmt t).mb + 2 ^ (fmt t).mb ∧ |v| ≤ ((2 ^ (fmt t).mb : Nat) : ℚ) * 2 ^ (D + minExp t) := by
  have h1 := h.le_twice
  have h2 : (d + 1) * 2 ^ (fmt t).mb ≤ D * 2 ^ (fmt t).mb := Nat.mul_le_mul_right _ hd
  constructor
  · rw [Nat.add_mul] at h2; omega
  · refine ((div_lt_iff₀ (by positivity)).mp h.below).le.trans ?_
    rw [Nat.cast_mul, mul_comm ((2 : Nat) : ℚ), mul_assoc, Nat.cast_two, ← zpow_one_add₀ (by norm_num)]
    exact mul_le_mul_of_nonneg_left (zpow_le_zpow_right₀ (by norm_num) (by omega)) (by positivity)

/-- A magnitude in a binade above it is beyond the greatest number, as is the number. -/
theorem RoundedAs.high (h : RoundedAs t rm neg v d R nx tiny) {D : Nat} (hd : D < d) :
    D * 2 ^ (fmt t).mb + 2 * 2 ^ (fmt t).mb ≤ d * 2 ^ (fmt t).mb + R ∧ ((2 * 2 ^ (fmt t).mb : Nat) : ℚ) * 2 ^ (D + minExp t) ≤ |v| := by
  have h1 := h.full_le (by omega)
  have h2 : (D + 1) * 2 ^ (fmt t).mb ≤ d * 2 ^ (fmt t).mb := Nat.mul_le_mul_right _ hd
  constructor
  · rw [Nat.add_mul] at h2; omega
  · refine le_trans ?_ ((le_div_iff₀ (by positivity)).mp (h.full (by omega)))
    rw [Nat.cast_mul, mul_comm ((2 : Nat) : ℚ), mul_assoc, Nat.cast_two, ← zpow_one_add₀ (by norm_num)]
    exact mul_le_mul_of_nonneg_left (zpow_le_zpow_right₀ (by norm_num) (by omega)) (by positivity)

theorem RoundedAs.overflow_iff (h : RoundedAs t rm neg v d R nx tiny) (hn : decide (v < 0) = neg) :
    (fmt t).maxCode < d * 2 ^ (fmt t).mb + R ↔ Overflows t rm v := by
  obtain ⟨D, K, e, h1, h2, h3⟩ := fmt_top t
  rw [overflows_iff e h1 h2 h3, hn]
  rcases lt_trichotomy d D with hd | rfl | hd
  · obtain ⟨a1, a2⟩ := h.low hd
    simp only [show ¬ (fmt t).maxCode < d * 2 ^ (fmt t).mb + R by omega, false_iff]
    refine not_roundsPast_of_le ((div_le_iff₀ (by positivity)).mpr (a2.trans ?_))
    exact mul_le_mul_of_nonneg_right (by exact_mod_cast h1.le) (by positivity)
  · rw [← h.rounds.lt_iff]; omega
  · obtain ⟨a1, a2⟩ := h.high hd
    simp only [show (fmt t).maxCode < d * 2 ^ (fmt t).mb + R by omega, true_iff]
    refine roundsPast_of_le ((le_div_iff₀ (by positivity)).mpr (le_trans ?_ a2))
    exact mul_le_mul_of_nonneg_right (by exact_mod_cast h2) (by positivity)

/-- Beyond the greatest number without overflow: rounded back to it. -/
theorem RoundedAs.back (h : RoundedAs t rm neg v d R nx tiny) (hn : decide (v < 0) = neg) (ho : ¬ Overflows t rm v)
    (hv : fpValue t (fmt t).maxCode < |v|) : d * 2 ^ (fmt t).mb + R = (fmt t).maxCode ∧ nx = true := by
  rw [← h.overflow_iff hn] at ho
  obtain ⟨D, K, e, h1, h2, -⟩ := fmt_top t
  rw [(top_values e h1 h2).1] at hv
  have hd : d = D := by
    rcases lt_trichotomy d D with hd | hd | hd
    · obtain ⟨-, a2⟩ := h.low hd
      have : ((2 ^ (fmt t).mb : Nat) : ℚ) * 2 ^ (D + minExp t) ≤ K * 2 ^ (D + minExp t) :=
        mul_le_mul_of_nonneg_right (by exact_mod_cast h1.le) (by positivity)
      linarith
    · exact hd
    · obtain ⟨a1, -⟩ := h.high hd
      omega
  subst hd
  have hK : (K : ℚ) < |v| / 2 ^ (d + minExp t) := (lt_div_iff₀ (by positivity)).mpr hv
  have hR : R = K := le_antisymm (by omega) (h.rounds.ge hK.le)
  exact ⟨by omega, h.inexact.mpr (by rw [hR]; exact hK.ne)⟩

/-- Below the least normal number and not tiny: rounded up to it. -/
theorem RoundedAs.least (h : RoundedAs t rm neg v d R nx tiny) (hn : decide (v < 0) = neg) (ht : ¬ Tiny t rm v)
    (hv : |v| < 2 ^ (1 - ((fmt t).bias : Int))) : d = 0 ∧ R = 2 ^ (fmt t).mb ∧ nx = true := by
  have hB : 0 < 2 ^ (fmt t).mb := by positivity
  rw [least_eq] at hv
  obtain rfl : d = 0 := by
    by_contra hd
    have h1 := (le_div_iff₀ (by positivity)).mp (h.full hd)
    have h2 : ((2 ^ (fmt t).mb : Nat) : ℚ) * 2 ^ minExp t ≤ ((2 ^ (fmt t).mb : Nat) : ℚ) * 2 ^ (d + minExp t) :=
      mul_le_mul_of_nonneg_left (zpow_le_zpow_right₀ (by norm_num) (by omega)) (by positivity)
    linarith
  have hr := h.rounds
  have hx := h.inexact
  rw [Nat.cast_zero, zero_add] at hr hx
  have hlt : |v| / 2 ^ minExp t < ((2 ^ (fmt t).mb : Nat) : ℚ) := (div_lt_iff₀ (by positivity)).mpr hv
  have hge : 2 ^ (fmt t).mb - 1 < R := by
    rw [hr.lt_iff]
    rw [tiny_iff, not_not, hn] at ht
    have e2 : |v| / 2 ^ (minExp t - 1) = 2 * (|v| / 2 ^ minExp t) := by
      rw [zpow_sub_one₀ (by norm_num)]; field_simp
    rw [e2] at ht
    have c1 : ((2 * 2 ^ (fmt t).mb - 1 : Nat) : ℚ) = 2 * ((2 ^ (fmt t).mb : Nat) : ℚ) - 1 := by rw [Nat.cast_sub (by omega)]; push_cast; ring
    have c2 : ((2 ^ (fmt t).mb - 1 : Nat) : ℚ) = ((2 ^ (fmt t).mb : Nat) : ℚ) - 1 := by rw [Nat.cast_sub (by omega)]; push_cast; ring
    unfold RoundsPast at ht ⊢
    rw [c1] at ht
    rw [c2]
    cases rm with
    | rne =>
      left
      rcases ht with ht | ⟨-, ht⟩ <;> linarith
    | rtz => dsimp only at ht ⊢; linarith
    | rdn | rup => cases neg <;> simp only [Bool.false_eq_true, if_false, if_true] at ht ⊢ <;> linarith
  have hR : R = 2 ^ (fmt t).mb := le_antisymm (hr.le hlt.le) (by omega)
  exact ⟨rfl, hR, hx.mpr (by rw [hR]; exact hlt.ne')⟩
end

/-- Whether an overflow goes to an infinity (R79). -/
def ToInf (rm : RMode) (neg : Bool) : Prop := rm = .rne ∨ (rm = .rdn ∧ neg = true) ∨ (rm = .rup ∧ neg = false)

theorem overflowCode_inf {t : ETy} {rm : RMode} {neg : Bool} (h : ToInf rm neg) :
    overflowCode t rm neg false = (if (fmt t).infSigned then signCode t neg else 0) + (fmt t).infCode := by
  unfold overflowCode
  obtain rfl | ⟨rfl, rfl⟩ | ⟨rfl, rfl⟩ := h <;> simp [fCode_eq] <;> split <;> simp
theorem overflowCode_max {t : ETy} {rm : RMode} {sat neg : Bool} (h : sat = true ∨ ¬ ToInf rm neg) :
    overflowCode t rm neg sat = signCode t neg + (fmt t).maxCode := by
  unfold overflowCode
  obtain rfl | h := h
  · simp [fCode_eq]
  · cases rm <;> cases neg <;> simp [ToInf] at h <;> simp [fCode_eq]

theorem toInf_iff {rm : RMode} {v : ℚ} (h0 : v ≠ 0) :
    ToInf rm (decide (v < 0)) ↔ (rm = .rne ∨ (rm = .rdn ∧ v < 0) ∨ (rm = .rup ∧ 0 < v)) := by
  simp only [ToInf, decide_eq_true_eq, decide_eq_false_iff_not, not_lt, h0.symm.le_iff_lt]

section
variable {t : ETy} {rm : RMode} {neg : Bool} {v : ℚ} {d R : Nat} {nx tiny : Bool}

/-- The code where the number neither overflows nor is flushed. -/
theorem RoundedAs.code_plain (h : RoundedAs t rm neg v d R nx tiny) (hn : decide (v < 0) = neg) (sat : Bool)
    (ho : ¬ Overflows t rm v)
    (hf : (fmt t).flush = true → ¬ Tiny t rm v) :
    roundedCode t rm sat neg d R nx tiny = (signCode t neg + (d * 2 ^ (fmt t).mb + R), { Exc.none with nx := nx, uf := tiny && nx }) := by
  unfold roundedCode
  rw [if_neg ((h.overflow_iff hn).not.mpr ho), if_neg, fCode_eq]
  rw [Bool.and_eq_true, h.tiny]
  exact fun ⟨h1, h2⟩ => hf h1 h2

theorem RoundedAs.fits (h : RoundedAs t rm neg v d R nx tiny) (hn : decide (v < 0) = neg) (sat : Bool) (hf : Fits t v) :
    let r := roundedCode t rm sat neg d R nx tiny
    Rounded t rm v r.1 ∧ (r.2.nx = true ↔ fpValue t r.1 ≠ v) ∧ (r.2.uf = true ↔ r.2.nx = true ∧ Tiny t rm v) ∧
      r.2.nv = false ∧ r.2.dz = false ∧ r.2.of = false := by
  obtain ⟨h0, hmax, hfl⟩ := hf
  have hv : v = sgn neg * |v| := hn ▸ sgn_sign_self v
  have ho := not_overflows_of_le (rm := rm) hmax
  have hle : d * 2 ^ (fmt t).mb + R ≤ (fmt t).maxCode := not_lt.mp ((h.overflow_iff hn).not.mpr ho)
  have hB : (fmt t).flush = true → 2 ^ (fmt t).mb ≤ d * 2 ^ (fmt t).mb + R := by
    intro hf
    by_cases hd : d = 0
    · subst hd
      have hr := h.rounds
      have hl := hfl hf
      rw [least_eq] at hl
      rw [Nat.cast_zero, zero_add] at hr
      have := hr.ge ((le_div_iff₀ (by positivity)).mpr hl)
      omega
    · have := h.full_le hd
      omega
  obtain ⟨g1, g2⟩ := rounded_of_int t rm neg v (d + minExp t) R d hv rfl h.rounds h.full h.le_twice hle hB
  rw [fCode_eq] at g1 g2
  rw [h.code_plain hn sat ho (fun hf => not_tiny_of_le (hfl hf))]
  refine ⟨g1, ?_, ?_, rfl, rfl, rfl⟩
  · have hP : (0 : ℚ) < 2 ^ (d + minExp t) := by positivity
    have hs : sgn neg ≠ 0 := by unfold sgn; cases neg <;> norm_num
    rw [g2]
    conv_rhs => rw [hv]
    rw [Ne, mul_right_inj' hs, ← eq_div_iff hP.ne']
    exact h.inexact
  · rw [← h.tiny]
    simp [and_comm]

/-- A rounded magnitude is what R73, R77 and R79 ask for. -/
theorem RoundedAs.roundsTo (h : RoundedAs t rm neg v d R nx tiny) (h0 : v ≠ 0) (hn : decide (v < 0) = neg) (sat : Bool) :
    RoundsTo t rm sat v (roundedCode t rm sat neg d R nx tiny) := by
  have past : Overflows t rm v → roundedCode t rm sat neg d R nx tiny = (overflowCode t rm neg sat, Exc.overflow) := fun ho =>
    if_pos ((h.overflow_iff hn).mpr ho)
  have plain := h.code_plain hn sat
  constructor
  · exact h.fits hn sat
  · rintro ho rfl hi
    rw [past ho, overflowCode_inf (hn ▸ (toInf_iff h0).mpr hi), hn]
    rfl
  · intro ho hs
    rw [← toInf_iff h0, hn] at hs
    rw [past ho, overflowCode_max hs, hn]
    rfl
  · intro ho hv
    have ht : ¬ Tiny t rm v := not_tiny_of_le ((least_le_top t).trans hv.le)
    obtain ⟨hm, hx⟩ := h.back hn ho hv
    have htiny : tiny = false := by rw [← h.tiny] at ht; simpa using ht
    rw [plain ho (fun _ => ht), hm, hn, hx, htiny]
    rfl
  · intro hf ht
    have ho : ¬ Overflows t rm v := fun ho => not_tiny_of_overflows ho ht
    have htiny := h.tiny.mpr ht
    unfold roundedCode
    rw [if_neg ((h.overflow_iff hn).not.mpr ho), if_pos (by rw [hf, htiny]; rfl), fCode_eq, hn]
    rfl
  · intro hf ht hv
    obtain ⟨rfl, rfl, hx⟩ := h.least hn ht hv
    have ho : ¬ Overflows t rm v := not_overflows_of_le (hv.le.trans (least_le_top t))
    have htiny : tiny = false := by rw [← h.tiny] at ht; simpa using ht
    rw [plain ho (fun _ => ht), hn, hx, htiny, Nat.zero_mul, Nat.zero_add]
    rfl
end

/-- `roundTo` rounds once, with the exceptions and the overflow and flush of R73, R75, R77 and R79. -/
theorem roundTo_roundsTo {t : ETy} {rm : RMode} {sat neg : Bool} {m : Nat} {e : Int} {sticky : Bool} {v : ℚ} (hm : 0 < m)
    (hc : Carried m sticky (|v| / 2 ^ e)) (hs : sticky = true → 2 ^ ((fmt t).mb + 2) ≤ m) (hv : v = sgn neg * |v|) :
    RoundsTo t rm sat v (roundTo t rm sat neg m e sticky) := by
  obtain ⟨d, R, nx, tiny, h, e⟩ := roundTo_code t rm sat neg m e sticky v hm hc hs hv
  have h0 := carried_ne_zero hm hc
  exact e ▸ h.roundsTo h0 (sgn_sign h0 hv) sat

/-- The same where nothing is lost. -/
theorem roundTo_roundsTo_exact {t : ETy} {rm : RMode} {sat neg : Bool} {m : Nat} {e : Int} {v : ℚ} (h0 : v ≠ 0)
    (hv : v = sgn neg * (m * 2 ^ e)) : m ≠ 0 ∧ RoundsTo t rm sat v (roundTo t rm sat neg m e false) := by
  have hm : m ≠ 0 := by
    rintro rfl
    exact h0 (by rw [hv]; simp)
  have ha : |v| = m * 2 ^ e := by rw [hv, abs_sgn, abs_of_nonneg (by positivity)]
  refine ⟨hm, roundTo_roundsTo (Nat.pos_of_ne_zero hm) ?_ (by simp) (by rw [ha]; exact hv)⟩
  unfold Carried
  rw [if_neg (by simp), ha]
  field_simp

theorem fRound_roundsTo {t : ETy} {rm : RMode} {sat neg : Bool} {m : Nat} {e : Int} {v : ℚ} (h0 : v ≠ 0)
    (hv : v = sgn neg * (m * 2 ^ e)) :
    RoundsTo t rm sat v (fRound t rm sat (.fin neg m e)) := by
  obtain ⟨hm, h⟩ := roundTo_roundsTo_exact (t := t) (rm := rm) (sat := sat) h0 hv
  simp only [fRound, if_neg hm]
  exact h

end Sys2Proof.Machine
end

section
/-! PROOFS. The correctly rounded operations (O10). -/

namespace Sys2Proof.Machine

/-! ### Two data in common units -/

theorem scale_to {e lo : Int} (h : lo ≤ e) (m : Nat) : (m : ℚ) * 2 ^ e = ((m <<< (e - lo).toNat : Nat) : ℚ) * 2 ^ lo := by
  rw [Nat.shiftLeft_eq]
  push_cast
  rw [mul_assoc, ← zpow_natCast, ← zpow_add₀ (by norm_num)]
  congr 2; omega

/-- A datum as an integer of units of 2^lo, as `addRound` and `fCmp` write it. -/
def unitsOf (neg : Bool) (m : Nat) (e lo : Int) : Int := if neg then -((m <<< (e - lo).toNat : Nat) : Int) else ((m <<< (e - lo).toNat : Nat) : Int)

theorem unitsOf_eq {e lo : Int} (h : lo ≤ e) (neg : Bool) (m : Nat) :
    sgn neg * (m * 2 ^ e) = (unitsOf neg m e lo : ℚ) * 2 ^ lo := by
  rw [scale_to h, unitsOf, sgn, ← mul_assoc]
  cases neg <;> simp only [Bool.false_eq_true, if_false, if_true, one_mul, neg_mul, Int.cast_neg, Int.cast_natCast]

/-- A number that is an integer of units, by its sign and magnitude. -/
theorem sgn_natAbs (s : Int) (U : ℚ) : (s : ℚ) * U = sgn (decide (s < 0)) * ((s.natAbs : Nat) * U) := by
  have hs : (s : ℚ) = sgn (decide (s < 0)) * (s.natAbs : Nat) := by
    rw [Nat.cast_natAbs, Int.cast_abs]
    have h := sgn_sign_self (s : ℚ)
    simpa using h
  rw [hs]
  simp [mul_assoc]

/-- A sum of two finite data: 0 with the sign of R106, or rounded once. -/
theorem addRound_fin (t : ETy) (rm : RMode) (a b : Bool) (m n : Nat) (e k : Int) (inv : Bool) {v : ℚ}
    (hv : v = sgn a * (m * 2 ^ e) + sgn b * (n * 2 ^ k)) :
    (v ≠ 0 → RoundsTo t rm false v (addRound t rm (.fin a m e) (.fin b n k) inv)) ∧
    (v = 0 → addRound t rm (.fin a m e) (.fin b n k) inv = (fCode t (if m = 0 ∧ n = 0 ∧ a = b then a else rm == .rdn) 0, Exc.none)) := by
  set lo := min e k with hlo
  set s : Int := unitsOf a m e lo + unitsOf b n k lo with hs
  have hvs : v = (s : ℚ) * 2 ^ lo := by
    rw [hv, unitsOf_eq (min_le_left e k), unitsOf_eq (min_le_right e k), ← hlo, ← add_mul, hs]
    push_cast; rfl
  have hU : (2 : ℚ) ^ lo ≠ 0 := by positivity
  constructor
  · intro h0
    have hs0 : s ≠ 0 := by
      intro h; rw [h] at hvs; exact h0 (by rw [hvs]; simp)
    have ho : addRound t rm (.fin a m e) (.fin b n k) inv = roundTo t rm false (decide (s < 0)) s.natAbs lo false := by
      unfold addRound
      exact if_neg hs0
    rw [ho]
    exact (roundTo_roundsTo_exact h0 (hvs.trans (sgn_natAbs s _))).2
  · intro h0
    have hs0 : s = 0 := by
      rw [hvs] at h0
      exact_mod_cast (mul_eq_zero.mp h0).resolve_right hU
    have ho : addRound t rm (.fin a m e) (.fin b n k) inv = (fCode t (if m = 0 && n = 0 && a == b then a else rm == .rdn) 0, Exc.none) := by
      unfold addRound
      exact if_pos hs0
    rw [ho]
    simp [and_assoc]

/-- A quotient of two finite data other than 0: rounded once. -/
theorem fDiv_roundsTo {t : ETy} {rm : RMode} {x y : Nat} {a b : Bool} {m n : Nat} {e k : Int} (hx : fDecode t x = .fin a m e)
    (hy : fDecode t y = .fin b n k) (hnb : n < 2 * 2 ^ (fmt t).mb) {v : ℚ} (hv : v = sgn a * (m * 2 ^ e) / (sgn b * (n * 2 ^ k))) (h0 : v ≠ 0) :
    RoundsTo t rm false v (fDiv t rm x y) := by
  have hn : n ≠ 0 := by rintro rfl; exact h0 (by rw [hv]; simp)
  have hm : m ≠ 0 := by rintro rfl; exact h0 (by rw [hv]; simp)
  have hn0 : 0 < n := Nat.pos_of_ne_zero hn
  have hnq : (0 : ℚ) < n := by exact_mod_cast hn0
  have hva : v = sgn (a != b) * ((m : ℚ) * 2 ^ e / (n * 2 ^ k)) := by
    rw [hv, ← sgn_mul, mul_div_mul_comm]
    congr 1
    cases a <;> cases b <;> simp [sgn]
  have habs : |v| = (m : ℚ) * 2 ^ e / (n * 2 ^ k) := by rw [hva, abs_sgn, abs_of_nonneg (by positivity)]
  have hcar : Carried (m * 2 ^ 64 / n) (m * 2 ^ 64 % n != 0) (|v| / 2 ^ (e - 64 - k)) := by
    have hex : |v| / 2 ^ (e - 64 - k) = (m : ℚ) * 2 ^ 64 / n := by
      rw [habs, div_div, div_eq_div_iff (by positivity) (by positivity)]
      have : (2 : ℚ) ^ e = 2 ^ 64 * (2 ^ k * 2 ^ (e - 64 - k)) := by
        rw [← zpow_natCast, ← zpow_add₀ (by norm_num), ← zpow_add₀ (by norm_num)]
        congr 1; push_cast; ring
      rw [this]; ring
    rw [hex]; exact quotient_carried m n hn0
  have hbig : 2 ^ ((fmt t).mb + 2) ≤ m * 2 ^ 64 / n := by
    rw [Nat.le_div_iff_mul_le hn0]
    have h1 : 2 ^ (fmt t).mb ≤ 2 ^ 23 := Nat.pow_le_pow_right (by norm_num) (by cases t <;> decide)
    have h3 : 2 ^ ((fmt t).mb + 2) * n ≤ 2 ^ 25 * 2 ^ 24 := Nat.mul_le_mul (by rw [Nat.pow_add]; omega) (by omega)
    have : 1 * 2 ^ 64 ≤ m * 2 ^ 64 := Nat.mul_le_mul_right _ (Nat.pos_of_ne_zero hm)
    exact h3.trans (le_trans (by norm_num) this)
  have ho : fDiv t rm x y = roundTo t rm false (a != b) (m * 2 ^ 64 / n) (e - 64 - k) (m * 2 ^ 64 % n != 0) := by
    simp only [fDiv, hx, hy, if_neg hn, if_neg hm, Nat.shiftLeft_eq]
  rw [ho]
  exact roundTo_roundsTo (lt_of_lt_of_le (by positivity) hbig) hcar (fun _ => hbig) (by rw [habs]; exact hva)

theorem mulExact_fin (a b : Bool) (m n : Nat) (e k : Int) :
    mulExact (.fin a m e) (.fin b n k) = .fin (a != b) (m * n) (e + k) := rfl

theorem sgn_product (a b : Bool) (m n : Nat) (e k : Int) :
    sgn (a != b) * ((m * n : Nat) * 2 ^ (e + k)) = sgn a * (m * 2 ^ e) * (sgn b * (n * 2 ^ k)) := by
  rw [← sgn_mul, zpow_add₀ (by norm_num)]; push_cast; ring

/-- The correctly rounded operations (R106). -/
theorem exactRules_roundsTo {t : ETy} {rm : RMode} {x y z : Nat} {r : Nat × Exc} {v : ℚ} (hx : IsFinite t x) (hy : IsFinite t y)
    (hz : IsFinite t z)
    (h : (r, v) ∈ exactRules t rm x y z) (h0 : v ≠ 0) : RoundsTo t rm false v r := by
  obtain ⟨a, m, e, hxd, hxv, -⟩ := fDecode_finite t x hx
  obtain ⟨b, n, k, hyd, hyv, hnb⟩ := fDecode_finite t y hy
  obtain ⟨c, l, j, hzd, hzv, -⟩ := fDecode_finite t z hz
  simp only [exactRules, List.mem_cons, Prod.mk.injEq, List.not_mem_nil, or_false] at h
  obtain ⟨rfl, rfl⟩ | ⟨rfl, rfl⟩ | ⟨rfl, rfl⟩ | ⟨rfl, rfl⟩ | ⟨rfl, rfl⟩ | ⟨rfl, rfl⟩ := h
  · simp only [fAdd, hxd, hyd]
    exact (addRound_fin t rm a b m n e k _ (by rw [hxv, hyv])).1 h0
  · simp only [fSub, hxd, hyd, negate_fin]
    exact (addRound_fin t rm a (!b) m n e k _ (by rw [hxv, hyv, sgn_not]; ring)).1 h0
  · simp only [fMul, hxd, hyd, mulExact_fin]
    exact fRound_roundsTo h0 (by rw [hxv, hyv, sgn_product])
  · simp only [fMac, hxd, hyd, hzd, mulExact_fin, Bool.false_eq_true, if_false]
    exact (addRound_fin t rm c (a != b) l (m * n) j (e + k) _ (by rw [hxv, hyv, hzv, sgn_product])).1 h0
  · simp only [fMac, hxd, hyd, hzd, mulExact_fin, if_true, negate_fin]
    exact (addRound_fin t rm c (!(a != b)) l (m * n) j (e + k) _ (by rw [hxv, hyv, hzv, sgn_not, neg_mul, sgn_product]; ring)).1 h0
  · exact fDiv_roundsTo hxd hyd hnb (by rw [hxv, hyv]) h0

/-- `fcvt` of a number (R79, R112). -/
theorem fConvert_roundsTo {t src : ETy} {rm : RMode} {sat : Bool} {x : Nat} (hx : IsFinite src x) (h0 : fpValue src x ≠ 0) :
    RoundsTo t rm sat (fpValue src x) (fConvert t src rm sat x) := by
  obtain ⟨a, m, e, hxd, hxv, -⟩ := fDecode_finite src x hx
  rw [fConvert, hxd]
  exact fRound_roundsTo h0 hxv

/-- `icvtf` (R80, R113). -/
theorem intToF_roundsTo {t : ETy} {rm : RMode} {i : Int} (h0 : i ≠ 0) : RoundsTo t rm false i (intToF t rm i) := by
  refine fRound_roundsTo (by exact_mod_cast h0) ?_
  have h := sgn_natAbs i 1
  simpa using h

end Sys2Proof.Machine
end

section
/-! PROOFS. The square root (O10). -/

namespace Sys2Proof.Machine

/-! ### The integer square root -/

theorem isqrtFrom_spec (n k r : Nat) (h1 : r * r ≤ n) (h2 : n < (r + 2 ^ (k + 1)) * (r + 2 ^ (k + 1))) :
    isqrtFrom n k r * isqrtFrom n k r ≤ n ∧ n < (isqrtFrom n k r + 1) * (isqrtFrom n k r + 1) := by
  induction k generalizing r with
  | zero =>
    unfold isqrtFrom
    split
    · next h => exact ⟨h, h2⟩
    · next h => exact ⟨h1, not_le.mp h⟩
  | succ k ih =>
    unfold isqrtFrom
    split
    · next h => exact ih _ h (by rwa [Nat.add_assoc, ← Nat.two_mul, ← Nat.pow_succ'])
    · next h => exact ih _ h1 (not_le.mp h)

theorem isqrt_eq (n : Nat) : isqrt n = Nat.sqrt n := by
  obtain ⟨h1, h2⟩ := isqrtFrom_spec n (Nat.log2 n / 2 + 1) 0 (by omega) (by
    rw [Nat.zero_add, ← Nat.pow_add]
    exact lt_of_lt_of_le Nat.lt_log2_self (Nat.pow_le_pow_right (by norm_num) (by omega)))
  exact Nat.eq_sqrt.mpr ⟨h1, h2⟩

/-- A rational number in the place of √u among the multiples of 2^-N, carried by the integer square root and its remainder. -/
theorem sqrt_place (u N : Nat) : ∃ w : ℚ, Carried (Nat.sqrt u) (Nat.sqrt u * Nat.sqrt u != u) w ∧
    ∀ z : Nat, ((z : ℚ) / 2 ^ N ≤ w ↔ ((z : ℚ) / 2 ^ N) ^ 2 ≤ u) ∧ (w ≤ (z : ℚ) / 2 ^ N ↔ (u : ℚ) ≤ ((z : ℚ) / 2 ^ N) ^ 2) := by
  have hN : (0 : ℚ) < 2 ^ N := by positivity
  by_cases hu : Nat.sqrt u * Nat.sqrt u = u
  · refine ⟨Nat.sqrt u, by simp [Carried, hu], fun z => ?_⟩
    have hz : (0 : ℚ) ≤ (z : ℚ) / 2 ^ N := by positivity
    have huq : (u : ℚ) = (Nat.sqrt u : ℚ) ^ 2 := by rw [sq]; exact_mod_cast hu.symm
    rw [huq]
    exact ⟨(pow_le_pow_iff_left₀ hz (by positivity) (by norm_num)).symm, (pow_le_pow_iff_left₀ (by positivity) hz (by norm_num)).symm⟩
  · set W := Nat.sqrt (u * (2 ^ N * 2 ^ N)) with hW
    have w1 : W * W ≤ u * (2 ^ N * 2 ^ N) := Nat.sqrt_le _
    have w2 : u * (2 ^ N * 2 ^ N) < (W + 1) * (W + 1) := Nat.lt_succ_sqrt _
    have r1 : Nat.sqrt u * 2 ^ N ≤ W := by
      rw [hW, Nat.le_sqrt, Nat.mul_mul_mul_comm]
      exact Nat.mul_le_mul_right _ (Nat.sqrt_le u)
    have r2 : W < (Nat.sqrt u + 1) * 2 ^ N := by
      rw [hW, Nat.sqrt_lt, Nat.mul_mul_mul_comm]
      exact Nat.mul_lt_mul_of_pos_right (Nat.lt_succ_sqrt u) (by positivity)
    have r1q : (Nat.sqrt u : ℚ) * 2 ^ N ≤ W := by exact_mod_cast r1
    have r2q : (W : ℚ) + 1 ≤ (Nat.sqrt u + 1) * 2 ^ N := by exact_mod_cast r2
    refine ⟨(W + 1 / 2) / 2 ^ N, ?_, fun z => ?_⟩
    · rw [Carried, if_pos (by simpa using hu), lt_div_iff₀ hN, div_lt_iff₀ hN]
      constructor <;> linarith
    · have hle : z ≤ W ↔ z * z ≤ u * (2 ^ N * 2 ^ N) := by rw [hW]; exact Nat.le_sqrt
      have hne : z * z ≠ u * (2 ^ N * 2 ^ N) := by
        intro h
        have hd : 2 ^ N ∣ z := by
          rw [← Nat.pow_dvd_pow_iff (n := 2) (by norm_num), sq, sq]
          exact ⟨u, by rw [h, Nat.mul_comm]⟩
        obtain ⟨y, rfl⟩ := hd
        rw [Nat.mul_mul_mul_comm, Nat.mul_comm u] at h
        have hy := Nat.eq_of_mul_eq_mul_left (by positivity) h
        exact hu (by rw [← hy, Nat.sqrt_eq])
      have e1 : (z : ℚ) / 2 ^ N ≤ (W + 1 / 2) / 2 ^ N ↔ z ≤ W := by
        rw [div_le_div_iff_of_pos_right hN]
        constructor
        · intro h
          by_contra hc
          have : (W : ℚ) + 1 ≤ z := by exact_mod_cast not_le.mp hc
          linarith
        · intro h
          have : (z : ℚ) ≤ W := by exact_mod_cast h
          linarith
      have e2 : (W + 1 / 2 : ℚ) / 2 ^ N ≤ (z : ℚ) / 2 ^ N ↔ ¬ z ≤ W := by
        rw [← e1, not_le, div_lt_div_iff_of_pos_right hN, div_le_div_iff_of_pos_right hN]
        constructor
        · intro h
          refine lt_of_le_of_ne h fun he => ?_
          have h2 : ((2 * W + 1 : Nat) : ℚ) = ((2 * z : Nat) : ℚ) := by push_cast; linarith
          have := Nat.cast_injective h2
          omega
        · exact le_of_lt
      have e3 : ((z : ℚ) / 2 ^ N) ^ 2 ≤ u ↔ z * z ≤ u * (2 ^ N * 2 ^ N) := by
        rw [sq, div_mul_div_comm, div_le_iff₀ (by positivity)]
        exact_mod_cast Iff.rfl
      have e4 : (u : ℚ) ≤ ((z : ℚ) / 2 ^ N) ^ 2 ↔ u * (2 ^ N * 2 ^ N) ≤ z * z := by
        rw [sq, div_mul_div_comm, le_div_iff₀ (by positivity)]
        exact_mod_cast Iff.rfl
      rw [e1, e2, e3, e4, hle]
      exact ⟨Iff.rfl, by omega⟩

/-! ### The square root -/

theorem sgn_cases (neg : Bool) : sgn neg = 1 ∨ sgn neg = -1 := by cases neg <;> simp [sgn]

/-- Every number of a format is an integer of units of the least exponent. -/
theorem fpValue_units (t : ETy) (x : Nat) : ∃ i : Int, fpValue t x = i * 2 ^ minExp t := by
  obtain ⟨i, hi⟩ | ⟨h, -⟩ := fpValue_grid t false x (minExp t) le_rfl
  · refine ⟨i, ?_⟩
    rw [← hi, div_mul_cancel₀ _ (by positivity)]
    simp [sgn]
  · simp [minExp] at h

/-- A number above 0 is no less than the least unit, and no number of the format is beyond the greatest. -/
theorem fpValue_pos_bounds {t : ETy} {x : Nat} (hx : IsFinite t x) (h0 : 0 < fpValue t x) :
    (2 : ℚ) ^ minExp t ≤ fpValue t x ∧ fpValue t x ≤ fpValue t (fmt t).maxCode := by
  constructor
  · obtain ⟨i, hi⟩ := fpValue_units t x
    rw [hi] at h0 ⊢
    have hU : (0 : ℚ) < 2 ^ minExp t := by positivity
    have hi0 : 0 < i := by exact_mod_cast (pos_iff_pos_of_mul_pos h0).mpr hU
    have : (1 : ℚ) ≤ i := by exact_mod_cast hi0
    exact le_mul_of_one_le_left hU.le this
  · rw [fpValue_eq, fpValue_max]
    have hle : magCount t (fMag t x) ≤ magValue (fmt t) (fmt t).maxCode := by
      unfold magCount
      split
      · exact magValue_nonneg _ _
      · exact (magValue_le _).mpr hx.2
    have h0' : 0 ≤ magCount t (fMag t x) := by
      unfold magCount
      split
      · exact le_rfl
      · exact magValue_nonneg _ _
    obtain h | h := sgn_cases (fSign t x) <;> rw [h] <;> linarith

theorem finite_zero (t : ETy) : IsFinite t 0 ∧ fpValue t 0 = 0 := by
  have h : fMag t 0 = 0 := by simp [fMag]
  refine ⟨⟨by positivity, by rw [h]; exact Nat.zero_le _⟩, ?_⟩
  rw [fpValue_eq, h, magCount, magValue]
  simp

theorem Rounded.nonneg {t : ETy} {rm : RMode} {v : ℚ} {c : Nat} (h : Rounded t rm v c) (hv : 0 < v) : 0 ≤ fpValue t c := by
  obtain ⟨z1, z2⟩ := finite_zero t
  cases rm with
  | rne =>
    have := h.nearest rfl 0 z1
    rw [z2, zero_sub, abs_neg, abs_of_pos hv] at this
    have := (abs_le.mp this).1
    linarith
  | rtz => exact nonneg_of_mul_nonneg_left (h.toZero rfl).2.1 hv
  | rdn => exact z2 ▸ (h.down rfl).2 0 z1 (by rw [z2]; exact hv.le)
  | rup => exact hv.le.trans (h.up rfl).1

/-- A number V that stands among the numbers of a format and their midpoints as √v does. -/
structure StandsFor (t : ETy) (v V : ℚ) : Prop where
  pos : 0 < V
  le : ∀ s : ℚ, 0 ≤ s → (∃ i : Int, s = i * 2 ^ (minExp t - 1)) → (s ≤ V ↔ s ^ 2 ≤ v)
  ge : ∀ s : ℚ, 0 ≤ s → (∃ i : Int, s = i * 2 ^ (minExp t - 1)) → (V ≤ s ↔ v ≤ s ^ 2)

theorem half_units {t : ETy} (i : Int) : (i : ℚ) * 2 ^ minExp t = ((2 * i : Int) : ℚ) * 2 ^ (minExp t - 1) := by
  rw [zpow_sub_one₀ (by norm_num)]; push_cast; ring

theorem StandsFor.code {t : ETy} {v V : ℚ} (h : StandsFor t v V) {u : Nat} (hu : 0 ≤ fpValue t u) :
    (fpValue t u ≤ V ↔ fpValue t u ^ 2 ≤ v) ∧ (V ≤ fpValue t u ↔ v ≤ fpValue t u ^ 2) := by
  obtain ⟨i, hi⟩ := fpValue_units t u
  have hs : ∃ i : Int, fpValue t u = i * 2 ^ (minExp t - 1) := ⟨2 * i, by rw [hi, half_units]⟩
  exact ⟨h.le _ hu hs, h.ge _ hu hs⟩

/-- Such a number rounded once is the root rounded once. -/
theorem StandsFor.rootOf {t : ETy} {rm : RMode} {v V : ℚ} {c : Nat} (h : StandsFor t v V) (hr : Rounded t rm V c) :
    RootOf t rm v c := by
  have hc := hr.nonneg h.pos
  refine ⟨hr.finite, hc, ?_, ?_, ?_⟩
  · rintro (rfl | rfl)
    · obtain ⟨h1, -, h2⟩ := hr.toZero rfl
      rw [abs_of_nonneg hc, abs_of_pos h.pos] at h1
      refine ⟨(h.code hc).1.mp h1, fun u hu hu0 huv => ?_⟩
      have := h2 u hu (by rw [abs_of_nonneg hu0, abs_of_pos h.pos]; exact (h.code hu0).1.mpr huv)
      rwa [abs_of_nonneg hu0, abs_of_nonneg hc] at this
    · obtain ⟨h1, h2⟩ := hr.down rfl
      exact ⟨(h.code hc).1.mp h1, fun u hu hu0 huv => h2 u hu ((h.code hu0).1.mpr huv)⟩
  · rintro rfl
    obtain ⟨h1, h2⟩ := hr.up rfl
    exact ⟨(h.code hc).2.mp h1, fun u hu hu0 huv => h2 u hu ((h.code hu0).2.mpr huv)⟩
  · rintro rfl u hu hu0
    have hn := sq_le_sq.mpr (hr.nearest rfl u hu)
    obtain ⟨i, hi⟩ := fpValue_units t c
    obtain ⟨j, hj⟩ := fpValue_units t u
    have hs : ∃ i : Int, (fpValue t u + fpValue t c) / 2 = i * 2 ^ (minExp t - 1) :=
      ⟨i + j, by rw [hi, hj, zpow_sub_one₀ (by norm_num)]; push_cast; ring⟩
    have h1 := h.le _ (by linarith) hs
    have h2 := h.ge _ (by linarith) hs
    rw [div_pow, show (2 : ℚ) ^ 2 = 4 by norm_num] at h1 h2
    constructor
    · intro hlt
      have : V ≤ (fpValue t u + fpValue t c) / 2 := by
        by_contra hc
        nlinarith
      have := h2.mp this
      linarith
    · intro hlt
      have : (fpValue t u + fpValue t c) / 2 ≤ V := by
        by_contra hc
        nlinarith
      have := h1.mp this
      linarith

/-- The carried root of u · 4^j stands for it. -/
theorem standsFor_root (t : ETy) {u : Nat} (hu : 0 < u) (j : Int) :
    ∃ w : ℚ, Carried (Nat.sqrt u) (Nat.sqrt u * Nat.sqrt u != u) w ∧ StandsFor t (u * (2 ^ j) ^ 2) (w * 2 ^ j) := by
  set N := (j - (minExp t - 1)).toNat with hN
  obtain ⟨w, hw, hz⟩ := sqrt_place u N
  have hU : (0 : ℚ) < 2 ^ j := by positivity
  have hw0 : 0 < w := by
    have h1 : (0 : ℚ) < Nat.sqrt u := by exact_mod_cast Nat.sqrt_pos.mpr hu
    unfold Carried at hw
    split at hw
    · exact h1.trans hw.1
    · rw [hw]; exact h1
  -- a half unit of the least exponent is a multiple of 2^-N units of 2^j
  have key : ∀ s : ℚ, 0 ≤ s → (∃ i : Int, s = i * 2 ^ (minExp t - 1)) → ∃ z : Nat, s = (z : ℚ) / 2 ^ N * 2 ^ j := by
    rintro s hs ⟨i, rfl⟩
    have hi : 0 ≤ i := by
      by_contra hc
      have : (i : ℚ) < 0 := by exact_mod_cast not_le.mp hc
      have : (i : ℚ) * 2 ^ (minExp t - 1) < 0 := mul_neg_of_neg_of_pos this (by positivity)
      linarith
    obtain ⟨n, rfl⟩ := Int.eq_ofNat_of_zero_le hi
    refine ⟨n * 2 ^ ((minExp t - 1) - j + N).toNat, ?_⟩
    push_cast
    rw [div_mul_eq_mul_div, eq_div_iff (by positivity), mul_assoc, mul_assoc]
    congr 1
    rw [← zpow_natCast, ← zpow_natCast, ← zpow_add₀ (by norm_num), ← zpow_add₀ (by norm_num)]
    congr 1; omega
  refine ⟨w, hw, mul_pos hw0 hU, fun s hs hi => ?_, fun s hs hi => ?_⟩
  · obtain ⟨z, rfl⟩ := key s hs hi
    rw [mul_le_mul_iff_left₀ hU, mul_pow, mul_le_mul_iff_left₀ (by positivity)]
    exact (hz z).1
  · obtain ⟨z, rfl⟩ := key s hs hi
    rw [mul_le_mul_iff_left₀ hU, mul_pow, mul_le_mul_iff_left₀ (by positivity)]
    exact (hz z).2

theorem fps_cases {t : ETy} (ht : ETy.fps.contains t = true) : t = .f32 ∨ t = .b16 := by
  cases t <;> simp_all [ETy.fps]

/-- The range of the types of FP arithmetic. -/
theorem fps_range {t : ETy} (ht : ETy.fps.contains t = true) :
    (fmt t).bias = 127 ∧ -149 ≤ minExp t ∧ (2 : ℚ) ^ 65 ≤ fpValue t (fmt t).maxCode ∧ fpValue t (fmt t).maxCode ≤ 2 ^ 128 := by
  rw [fpValue_max]
  obtain rfl | rfl := fps_cases ht
  · refine ⟨rfl, by decide, ?_, ?_⟩ <;> norm_num [magValue, fmt]
  · refine ⟨rfl, by decide, ?_, ?_⟩ <;> norm_num [magValue, fmt]

/-- A carried root lies within a factor of two of the root. -/
theorem carried_root_bounds {u : Nat} (hu : 0 < u) {w : ℚ} (hw : Carried (Nat.sqrt u) (Nat.sqrt u * Nat.sqrt u != u) w) :
    w ^ 2 ≤ 4 * u ∧ (u : ℚ) ≤ 4 * w ^ 2 := by
  have h1 : (1 : ℚ) ≤ Nat.sqrt u := by exact_mod_cast Nat.sqrt_pos.mpr hu
  have h2 : (Nat.sqrt u : ℚ) * Nat.sqrt u ≤ u := by exact_mod_cast Nat.sqrt_le u
  have h3 : (u : ℚ) ≤ (Nat.sqrt u + 1) * (Nat.sqrt u + 1) := by exact_mod_cast (Nat.lt_succ_sqrt u).le
  have hb : (Nat.sqrt u : ℚ) ≤ w ∧ w ≤ Nat.sqrt u + 1 := by
    unfold Carried at hw
    split at hw
    · exact ⟨hw.1.le, hw.2.le⟩
    · rw [hw]; exact ⟨le_rfl, by linarith⟩
  obtain ⟨b1, b2⟩ := hb
  constructor <;> nlinarith

/-- The root of a number of the format fits it. -/
theorem root_fits {t : ETy} (ht : ETy.fps.contains t = true) {v V : ℚ} (hV : 0 < V) (h1 : V ^ 2 ≤ 4 * v) (h2 : v ≤ 4 * V ^ 2)
    (h3 : (2 : ℚ) ^ minExp t ≤ v) (h4 : v ≤ fpValue t (fmt t).maxCode) : |V| ≤ fpValue t (fmt t).maxCode ∧ (2 : ℚ) ^ (1 - ((fmt t).bias : Int)) ≤ |V| := by
  obtain ⟨f1, f2, f3, f4⟩ := fps_range ht
  rw [abs_of_pos hV, f1]
  constructor
  · refine le_trans ?_ f3
    have : V ^ 2 ≤ (2 ^ 65 : ℚ) ^ 2 := by linarith
    exact (pow_le_pow_iff_left₀ hV.le (by positivity) (by norm_num)).mp this
  · have h5 : (2 : ℚ) ^ (-149 : Int) ≤ v := (zpow_le_zpow_right₀ (by norm_num) f2).trans h3
    have h6 : 4 * ((2 : ℚ) ^ (-126 : Int)) ^ 2 ≤ 2 ^ (-149 : Int) := by norm_num
    have := le_of_mul_le_mul_left (h6.trans (h5.trans h2)) (by norm_num)
    exact (pow_le_pow_iff_left₀ (by positivity) hV.le (by norm_num)).mp this

/-- A number as a significand made long and even in its exponent, as `fSqrt` takes it. -/
theorem even_scale (m : Nat) (e : Int) : (m : ℚ) * (2 : ℚ) ^ e =
    (((if e % 2 != 0 then 2 * m else m) <<< 64 : Nat) : ℚ) * ((2 : ℚ) ^ (((if e % 2 != 0 then e - 1 else e) - 64) / 2)) ^ 2 := by
  have key : ∀ (n : Nat) (k : Int), k % 2 = 0 → ((n <<< 64 : Nat) : ℚ) * ((2 : ℚ) ^ ((k - 64) / 2)) ^ 2 = n * 2 ^ k := by
    intro n k hk
    rw [Nat.shiftLeft_eq, Nat.cast_mul, Nat.cast_pow, Nat.cast_two, mul_assoc, ← zpow_natCast, ← zpow_natCast, ← zpow_mul,
      ← zpow_add₀ (by norm_num)]
    congr 2; push_cast; omega
  by_cases h : e % 2 = 0
  · rw [if_neg (by simpa using h), if_neg (by simpa using h), key m e h]
  · rw [if_pos (by simpa using h), if_pos (by simpa using h), key (2 * m) (e - 1) (by omega), zpow_sub_one₀ (by norm_num)]
    push_cast; ring

theorem mb_le (t : ETy) : (fmt t).mb + 2 ≤ 32 := by cases t <;> decide

/-- The root that `fSqrt` carries, rounded. -/
theorem root_roundTo (t : ETy) (rm : RMode) {u : Nat} (hu : 2 ^ 64 ≤ u) (j : Int) : ∃ V, StandsFor t (u * (2 ^ j) ^ 2) V ∧
    V ^ 2 ≤ 4 * (u * (2 ^ j) ^ 2) ∧ u * (2 ^ j) ^ 2 ≤ 4 * V ^ 2 ∧
    RoundsTo t rm false V (roundTo t rm false false (Nat.sqrt u) j (Nat.sqrt u * Nat.sqrt u != u)) := by
  have hu0 : 0 < u := lt_of_lt_of_le (by positivity) hu
  obtain ⟨w, hw, hs⟩ := standsFor_root t hu0 j
  obtain ⟨w1, w2⟩ := carried_root_bounds hu0 hw
  have hP : (0 : ℚ) < 2 ^ j := by positivity
  have hlong : 2 ^ ((fmt t).mb + 2) ≤ Nat.sqrt u := by
    rw [Nat.le_sqrt, ← Nat.pow_add]
    exact (Nat.pow_le_pow_right (by norm_num) (by have := mb_le t; omega)).trans hu
  refine ⟨w * 2 ^ j, hs, ?_, ?_, roundTo_roundsTo (Nat.sqrt_pos.mpr hu0) ?_ (fun _ => hlong) ?_⟩
  · rw [mul_pow, ← mul_assoc]; exact mul_le_mul_of_nonneg_right w1 (by positivity)
  · rw [mul_pow, ← mul_assoc]; exact mul_le_mul_of_nonneg_right w2 (by positivity)
  · rw [abs_of_pos hs.pos, mul_div_cancel_right₀ _ hP.ne']; exact hw
  · rw [abs_of_pos hs.pos]; simp [sgn]

theorem fSqrt_fin (t : ETy) (rm : RMode) {x m : Nat} {e : Int} (hx : fDecode t x = .fin false m e) (hm : m ≠ 0) :
    ∃ V, StandsFor t (m * 2 ^ e) V ∧
    V ^ 2 ≤ 4 * (m * 2 ^ e) ∧ m * 2 ^ e ≤ 4 * V ^ 2 ∧ RoundsTo t rm false V (fSqrt t rm x) := by
  have hu : 2 ^ 64 ≤ (if e % 2 != 0 then 2 * m else m) <<< 64 := by
    rw [Nat.shiftLeft_eq]
    refine Nat.le_mul_of_pos_left _ ?_
    split <;> omega
  have h := root_roundTo t rm hu (((if e % 2 != 0 then e - 1 else e) - 64) / 2)
  rw [← even_scale] at h
  unfold fSqrt
  rw [hx]
  simp only [if_neg hm, Bool.false_eq_true, if_false, isqrt_eq]
  exact h

/-- A number above 0 has no sign and no empty significand. -/
theorem pos_fin {a : Bool} {m : Nat} {e : Int} (h : (0 : ℚ) < sgn a * (m * 2 ^ e)) : a = false ∧ m ≠ 0 := by
  have hm : (0 : ℚ) ≤ m * 2 ^ e := by positivity
  constructor
  · cases a with
    | false => rfl
    | true => simp only [sgn, if_true] at h; linarith
  · rintro rfl
    simp at h

/-- `fsqrt` of a number above 0 (R106). -/
theorem fSqrt_root {t : ETy} {rm : RMode} {x : Nat} (ht : ETy.fps.contains t = true) (hx : IsFinite t x) (h0 : 0 < fpValue t x) :
    RootOf t rm (fpValue t x) (fSqrt t rm x).1 ∧ ((fSqrt t rm x).2.nx = true ↔ fpValue t (fSqrt t rm x).1 ^ 2 ≠ fpValue t x) ∧
      (fSqrt t rm x).2.nv = false ∧ (fSqrt t rm x).2.dz = false ∧ (fSqrt t rm x).2.of = false ∧ (fSqrt t rm x).2.uf = false := by
  obtain ⟨a, m, e, hxd, hxv, -⟩ := fDecode_finite t x hx
  obtain ⟨b1, b2⟩ := fpValue_pos_bounds hx h0
  obtain ⟨rfl, hm⟩ := pos_fin (hxv ▸ h0)
  obtain ⟨V, hs, v1, v2, hrt⟩ := fSqrt_fin t rm hxd hm
  rw [show (m : ℚ) * 2 ^ e = fpValue t x by rw [hxv]; simp [sgn]] at hs v1 v2
  obtain ⟨hmax, hleast⟩ := root_fits ht hs.pos v1 v2 b1 b2
  obtain ⟨hr, hnx, huf, hnv, hdz, hof⟩ := hrt.fits ⟨hs.pos.ne', hmax, fun _ => hleast⟩
  have hroot := hs.rootOf hr
  refine ⟨hroot, ?_, hnv, hdz, hof, ?_⟩
  · obtain ⟨c1, c2⟩ := hs.code hroot.nonneg
    rw [hnx, Ne, Ne, not_iff_not]
    exact ⟨fun h => le_antisymm (c1.mp h.le) (c2.mp h.ge), fun h => le_antisymm (c1.mpr h.le) (c2.mpr h.ge)⟩
  · rw [← Bool.not_eq_true, huf]
    exact fun h => not_tiny_of_le hleast h.2

end Sys2Proof.Machine
end

section
/-! PROOFS. Special operands (O10). -/

namespace Sys2Proof.Machine

/-! ### What a code is -/

/-- What a code is, and what it decodes to. -/
inductive CodeView (t : ETy) (x : Nat) : FNum → Prop where
  | nan (s : Bool) (isNan : IsNan t x) (notInf : isInf t x = false) (sig : IsSig t x ↔ s = true) : CodeView t x (.nan s)
  | inf (notNan : ¬ IsNan t x) (isInf : isInf t x = true) (value : fpValue t x ≠ 0) : CodeView t x (.inf (fSign t x))
  | fin (m : Nat) (e : Int) (notNan : ¬ IsNan t x) (notInf : isInf t x = false) (finite : IsFinite t x)
      (value : fpValue t x = sgn (fSign t x) * (m * 2 ^ e)) : CodeView t x (.fin (fSign t x) m e)

theorem infCode_above (t : ETy) : (fmt t).maxCode < (fmt t).infCode := by cases t <;> decide

theorem value_of_full {t : ETy} {x : Nat} (h : 2 ^ (fmt t).mb ≤ fMag t x) : fpValue t x ≠ 0 := by
  rw [fpValue_eq, magCount_full t _ h]
  have h1 : 0 ≤ magValue (fmt t) (fMag t x - 1) := magValue_nonneg _ _
  have h2 : 0 < 2 ^ (fmt t).mb := by positivity
  have h3 := magValue_lt (fmt t) (show fMag t x - 1 < fMag t x by omega)
  obtain hs | hs := sgn_cases (fSign t x) <;> rw [hs]
  · linarith
  · linarith

theorem codeView {t : ETy} {x : Nat} (h : x < 2 ^ (fmt t).width) : CodeView t x (fDecode t x) := by
  rcases Nat.lt_or_ge (fmt t).maxCode (fMag t x) with hm | hm
  · cases hi : isInf t x with
    | true =>
      have hd : fDecode t x = .inf (fSign t x) := by
        unfold fDecode; unfold isInf at hi
        simp only [gt_iff_lt, hm, hi, if_true]
      rw [hd]
      exact .inf (fun hn => by rw [hn.2] at hi; cases hi) hi (value_of_full ((fmt_facts t).2.1.trans hm.le))
    | false =>
      have hd : fDecode t x = .nan ((fmt t).width > 8 && fMag t x % 2 ^ (fmt t).mb < 2 ^ ((fmt t).mb - 1)) := by
        unfold fDecode; unfold isInf at hi
        simp only [gt_iff_lt, hm, hi, if_true, Bool.false_eq_true, if_false]
      rw [hd]
      refine .nan _ ⟨hm, hi⟩ hi ?_
      unfold IsSig IsNan
      simp [hm, hi]
  · have hi : isInf t x = false := by
      have := infCode_above t
      have hne : fMag t x ≠ (fmt t).infCode := by omega
      simp [isInf, hne]
    obtain ⟨n, m, e, hd, hv, -⟩ := fDecode_finite t x ⟨h, hm⟩
    obtain rfl : n = fSign t x := by
      unfold fDecode at hd
      simp only [gt_iff_lt, not_lt.mpr hm, if_false] at hd
      split at hd
      · split at hd <;> cases hd <;> rfl
      · cases hd; rfl
    rw [hd]
    exact .fin m e (fun hn => absurd hn.1 (not_lt.mpr hm)) hi ⟨h, hm⟩ hv

theorem sgn_ne_zero (n : Bool) : sgn n ≠ 0 := by cases n <;> norm_num [sgn]

theorem fin_eq_zero (n : Bool) (m : Nat) (e : Int) : sgn n * (m * 2 ^ e) = 0 ↔ m = 0 := by
  have h : (2 : ℚ) ^ e ≠ 0 := by positivity
  simp [sgn_ne_zero, h]

/-! ### NaN operands (R76) -/

theorem isNan_iff {t : ETy} {x : Nat} {X : FNum} (h : CodeView t x X) : IsNan t x ↔ X.isNan = true := by
  cases h with
  | nan s hn _ _ => simp [FNum.isNan, hn]
  | inf hn _ _ => simp [FNum.isNan, hn]
  | fin m e hn _ _ _ => simp [FNum.isNan, hn]
theorem isSig_iff {t : ETy} {x : Nat} {X : FNum} (h : CodeView t x X) : IsSig t x ↔ X.snan = true := by
  cases h with
  | nan s _ _ hs => simp [FNum.snan, hs]
  | inf hn _ _ => simp [FNum.snan, IsSig, hn]
  | fin m e hn _ _ _ => simp [FNum.snan, IsSig, hn]

/-- A NaN result. -/
def nanExc (t : ETy) (inv : Bool) : Nat × Exc := ((fmt t).nan, ⟨inv, false, false, false, false⟩)
theorem nanOut_eq (t : ETy) (inv : Bool) : nanOut t inv = nanExc t inv := by cases inv <;> rfl
theorem fRound_nan (t : ETy) (rm : RMode) (sat s : Bool) : fRound t rm sat (.nan s) = nanExc t s := by cases s <;> rfl

theorem addRound_nan {X Y : FNum} (h : X.isNan = true ∨ Y.isNan = true) (t : ETy) (rm : RMode) (inv : Bool) :
    addRound t rm X Y inv = nanExc t inv := by
  rw [← nanOut_eq]
  cases X <;> cases Y <;> simp [FNum.isNan] at h <;> rfl

theorem mulExact_nan {X Y : FNum} (h : X.isNan = true ∨ Y.isNan = true) : mulExact X Y = .nan (X.snan || Y.snan) := by
  cases X <;> cases Y <;> simp [FNum.isNan] at h <;> simp [mulExact, FNum.snan]

theorem negate_isNan (X : FNum) : X.negate.isNan = X.isNan := by cases X <;> rfl

theorem fAdd_nan {t : ETy} {x y : Nat} (rm : RMode) (h : (fDecode t x).isNan = true ∨ (fDecode t y).isNan = true) :
    fAdd t rm x y = nanExc t ((fDecode t x).snan || (fDecode t y).snan) := addRound_nan h ..
theorem fSub_nan {t : ETy} {x y : Nat} (rm : RMode) (h : (fDecode t x).isNan = true ∨ (fDecode t y).isNan = true) :
    fSub t rm x y = nanExc t ((fDecode t x).snan || (fDecode t y).snan) := addRound_nan (by rwa [negate_isNan]) ..
theorem fMul_nan {t : ETy} {x y : Nat} (rm : RMode) (h : (fDecode t x).isNan = true ∨ (fDecode t y).isNan = true) :
    fMul t rm x y = nanExc t ((fDecode t x).snan || (fDecode t y).snan) := by
  rw [fMul, mulExact_nan h, fRound_nan]
theorem fDiv_nan {t : ETy} {x y : Nat} (rm : RMode) (h : (fDecode t x).isNan = true ∨ (fDecode t y).isNan = true) :
    fDiv t rm x y = nanExc t ((fDecode t x).snan || (fDecode t y).snan) := by
  unfold fDiv
  generalize fDecode t x = X at h ⊢
  generalize fDecode t y = Y at h ⊢
  cases X <;> cases Y <;> simp [FNum.isNan] at h <;> simp [FNum.snan, nanOut_eq]
theorem fSqrt_nan {t : ETy} {x : Nat} (rm : RMode) (h : (fDecode t x).isNan = true) :
    fSqrt t rm x = nanExc t (fDecode t x).snan := by
  unfold fSqrt
  generalize fDecode t x = X at h ⊢
  cases X with
  | nan s => exact nanOut_eq t s
  | inf n => cases h
  | fin n m e => cases h

/-! ### Infinities and zeros (R76, R106) -/

/-- The zero and the infinity of a sign, without exceptions. -/
def zeroExc (t : ETy) (neg : Bool) : Nat × Exc := (signCode t neg, ⟨false, false, false, false, false⟩)
def infExc (t : ETy) (neg : Bool) : Nat × Exc := (signCode t neg + (fmt t).infCode, ⟨false, false, false, false, false⟩)

theorem fCode_zero (t : ETy) (neg : Bool) : (fCode t neg 0, Exc.none) = zeroExc t neg := by rw [fCode_eq]; rfl
theorem fRound_inf {t : ETy} (ht : ETy.fps.contains t = true) (rm : RMode) (neg : Bool) :
    fRound t rm false (.inf neg) = infExc t neg := by
  obtain rfl | rfl := fps_cases ht <;> simp [fRound, fCode_eq, infExc, Exc.none]
theorem fRound_zero (t : ETy) (rm : RMode) (sat neg : Bool) (e : Int) :
    fRound t rm sat (.fin neg 0 e) = zeroExc t neg := fCode_zero t neg

/-- The datum of an addend. -/
inductive DatumOf : FNum → Addend → Prop where
  | inf (n : Bool) (v : ℚ) : DatumOf (.inf n) ⟨true, n, v⟩
  | fin (n : Bool) (m : Nat) (e : Int) : DatumOf (.fin n m e) ⟨false, n, sgn n * (m * 2 ^ e)⟩

theorem DatumOf.code {t : ETy} {x : Nat} {X : FNum} (h : CodeView t x X) (hn : ¬ IsNan t x) : DatumOf X (addendOf t x) := by
  unfold addendOf
  cases h with
  | nan s h' _ _ => exact absurd h' hn
  | inf _ hi _ => rw [hi]; exact .inf _ _
  | fin m e _ hi _ hv => rw [hi, hv]; exact .fin _ _ _

theorem DatumOf.negate {X : FNum} {a : Addend} (h : DatumOf X a) : DatumOf X.negate a.negate := by
  cases h with
  | inf n v => exact .inf _ _
  | fin n m e =>
    have := DatumOf.fin (!n) m e
    rwa [sgn_not, neg_mul] at this

/-- 0 × ∞ (R106). -/
def InfTimesZero (t : ETy) (x y : Nat) : Prop := (isInf t x = true ∧ fpValue t y = 0) ∨ (fpValue t x = 0 ∧ isInf t y = true)

/-- A product that is a number or an infinity. -/
theorem DatumOf.product {t : ETy} {x y : Nat} {X Y : FNum} (hx : CodeView t x X) (hy : CodeView t y Y) (nx : ¬ IsNan t x)
    (ny : ¬ IsNan t y)
    (hb : ¬ InfTimesZero t x y) : DatumOf (mulExact X Y) (productOf t x y) := by
  unfold productOf
  cases hx with
  | nan s h' _ _ => exact absurd h' nx
  | inf _ hi hv =>
    cases hy with
    | nan s h' _ _ => exact absurd h' ny
    | inf _ hj hw => rw [hi]; exact .inf _ _
    | fin n k _ hj _ hw =>
      have hn : n ≠ 0 := fun h => hb (.inl ⟨hi, by rw [hw, h]; simp⟩)
      rw [hi]
      simp only [mulExact, if_neg hn]
      exact .inf _ _
  | fin m e _ hi _ hv =>
    cases hy with
    | nan s h' _ _ => exact absurd h' ny
    | inf _ hj hw =>
      have hm : m ≠ 0 := fun h => hb (.inr ⟨by rw [hv, h]; simp, hj⟩)
      rw [hj, Bool.or_true]
      simp only [mulExact, if_neg hm]
      exact .inf _ _
    | fin n k _ hj _ hw =>
      rw [hi, hj, hv, hw, ← sgn_product]
      exact .fin _ _ _

theorem mulExact_bad {t : ETy} {x y : Nat} {X Y : FNum} (hx : CodeView t x X) (hy : CodeView t y Y) (nx : ¬ IsNan t x)
    (ny : ¬ IsNan t y)
    (hb : InfTimesZero t x y) : mulExact X Y = .nan true := by
  cases hx with
  | nan s h' _ _ => exact absurd h' nx
  | inf _ hi hv =>
    obtain ⟨-, h0⟩ | ⟨h0, -⟩ := hb
    · cases hy with
      | nan s h' _ _ => exact absurd h' ny
      | inf _ hj hw => exact absurd h0 hw
      | fin n k _ hj _ hw =>
        rw [hw, fin_eq_zero] at h0
        simp [mulExact, h0]
    · exact absurd h0 hv
  | fin m e _ hi _ hv =>
    obtain ⟨h1, -⟩ | ⟨h0, h1⟩ := hb
    · rw [hi] at h1; cases h1
    · cases hy with
      | nan s h' _ _ => exact absurd h' ny
      | inf _ hj hw =>
        rw [hv, fin_eq_zero] at h0
        simp [mulExact, h0]
      | fin n k _ hj _ hw => rw [hj] at h1; cases h1

theorem DatumOf.snan {X : FNum} {a : Addend} (h : DatumOf X a) : X.snan = false := by cases h <;> rfl

/-- Without a NaN the product is invalid exactly for 0 × ∞. -/
theorem product_snan {t : ETy} {x y : Nat} {X Y : FNum} (hx : CodeView t x X) (hy : CodeView t y Y) (nx : ¬ IsNan t x)
    (ny : ¬ IsNan t y) :
    (mulExact X Y).snan = true ↔ InfTimesZero t x y := by
  by_cases hb : InfTimesZero t x y
  · simp [mulExact_bad hx hy nx ny hb, hb, FNum.snan]
  · simp [(DatumOf.product hx hy nx ny hb).snan, hb]

/-- A sum of two addends, where it is not rounded. -/
theorem addRound_special {t : ETy} (ht : ETy.fps.contains t = true) (rm : RMode) {X Y : FNum} {a b : Addend} (hx : DatumOf X a)
    (hy : DatumOf Y b)
    (inv : Bool) :
    let r := addRound t rm X Y inv
    (a.inf = true → (b.inf = false ∨ b.neg = a.neg) → r = infExc t a.neg) ∧ (a.inf = false → b.inf = true → r = infExc t b.neg) ∧
    (a.inf = true → b.inf = true → a.neg ≠ b.neg → r = nanExc t true) ∧
    (a.inf = false → b.inf = false → a.val + b.val = 0 → r = zeroExc t (if a.val = 0 ∧ a.neg = b.neg then a.neg else rm == .rdn)) := by
  intro r
  cases hx with
  | inf n v =>
    cases hy with
    | inf k w =>
      refine ⟨fun _ h => ?_, fun h => Bool.noConfusion h, fun _ _ h => ?_, fun h => Bool.noConfusion h⟩
      · obtain rfl : k = n := h.resolve_left (by simp)
        simp [r, addRound, fRound_inf ht]
      · have h : n ≠ k := h
        simp [r, addRound, h, nanOut_eq]
    | fin k l f => exact ⟨fun _ _ => fRound_inf ht rm _, fun h => Bool.noConfusion h, fun _ h => Bool.noConfusion h, fun h => Bool.noConfusion h⟩
  | fin n m e =>
    cases hy with
    | inf k w => exact ⟨fun h => Bool.noConfusion h, fun _ _ => fRound_inf ht rm _, fun h => Bool.noConfusion h, fun _ h => Bool.noConfusion h⟩
    | fin k l f =>
      refine ⟨fun h => Bool.noConfusion h, fun _ h => Bool.noConfusion h, fun h => Bool.noConfusion h, fun _ _ h0 => ?_⟩
      have h0 : sgn n * (m * 2 ^ e) + sgn k * (l * 2 ^ f) = 0 := h0
      have hiff : (m = 0 ∧ l = 0 ∧ n = k) ↔ (sgn n * (m * 2 ^ e) = 0 ∧ n = k) := by
        rw [fin_eq_zero]
        refine ⟨fun ⟨h1, _, h3⟩ => ⟨h1, h3⟩, fun ⟨h1, h3⟩ => ⟨h1, ?_, h3⟩⟩
        rw [h1] at h0
        exact (fin_eq_zero k l f).mp (by simpa using h0)
      rw [show r = _ from (addRound_fin t rm n k m l e f inv rfl).2 h0, fCode_zero]
      simp only [hiff]

/-- A NaN, and a signalling NaN, among codes. -/
def SomeNan (t : ETy) (l : List Nat) : Prop := ∃ c ∈ l, IsNan t c
def SomeSig (t : ETy) (l : List Nat) : Prop := ∃ c ∈ l, IsSig t c

theorem fpsWidth {t : ETy} (ht : ETy.fps.contains t = true) : (fmt t).width = t.width := by
  obtain rfl | rfl := fps_cases ht <;> rfl

/-- A result that is a NaN exactly with invalid for a signalling operand. -/
theorem nan_of_sig {t : ETy} {r : Nat × Exc} {s : Bool} {P : Prop} (h : r = nanExc t s) (hs : P ↔ s = true) :
    (P → r = nanExc t true) ∧ (¬ P → r = nanExc t false) := by
  subst h
  refine ⟨fun hp => by rw [hs.mp hp], fun hp => ?_⟩
  rw [hs, Bool.not_eq_true] at hp
  rw [hp]

theorem nanResults {t : ETy} {rm : RMode} {x y : Nat} (hx : x < 2 ^ (fmt t).width)
    (hy : y < 2 ^ (fmt t).width) {r : Nat × Exc} {l : List Nat}
    (h : (r, l) ∈ [(fAdd t rm x y, [x, y]), (fSub t rm x y, [x, y]), (fMul t rm x y, [x, y]), (fDiv t rm x y, [x, y]), (fSqrt t rm x, [x])])
    (hn : SomeNan t l) : (SomeSig t l → r = nanExc t true) ∧ (¬ SomeSig t l → r = nanExc t false) := by
  have ex := codeView hx
  have ey := codeView hy
  simp only [List.mem_cons, Prod.mk.injEq, List.not_mem_nil, or_false] at h
  have two : ∀ {r}, r = nanExc t ((fDecode t x).snan || (fDecode t y).snan) →
      (SomeSig t [x, y] → r = nanExc t true) ∧ (¬ SomeSig t [x, y] → r = nanExc t false) := by
    intro r hr
    exact nan_of_sig hr (by simp [SomeSig, isSig_iff ex, isSig_iff ey])
  have pair : SomeNan t [x, y] → (fDecode t x).isNan = true ∨ (fDecode t y).isNan = true := by
    simp [SomeNan, isNan_iff ex, isNan_iff ey]
  obtain ⟨rfl, rfl⟩ | ⟨rfl, rfl⟩ | ⟨rfl, rfl⟩ | ⟨rfl, rfl⟩ | ⟨rfl, rfl⟩ := h
  · exact two (fAdd_nan rm (pair hn))
  · exact two (fSub_nan rm (pair hn))
  · exact two (fMul_nan rm (pair hn))
  · exact two (fDiv_nan rm (pair hn))
  · refine nan_of_sig (fSqrt_nan rm ?_) (by simp [SomeSig, isSig_iff ex])
    simpa [SomeNan, isNan_iff ex] using hn

theorem fMac_eq (t : ETy) (rm : RMode) (sub : Bool) (x y z : Nat) : fMac t rm sub x y z =
    addRound t rm (fDecode t z) (if sub then (mulExact (fDecode t x) (fDecode t y)).negate else mulExact (fDecode t x) (fDecode t y))
      ((mulExact (fDecode t x) (fDecode t y)).snan || (fDecode t z).snan) := rfl

/-- A fused sum with a NaN or an invalid product (R76, R106). -/
theorem fMac_nan {t : ETy} {rm : RMode} {x y z : Nat} (sub : Bool) (hx : x < 2 ^ (fmt t).width) (hy : y < 2 ^ (fmt t).width)
    (hz : z < 2 ^ (fmt t).width) (h : SomeNan t [x, y, z] ∨ InfTimesZero t x y) :
    (SomeSig t [x, y, z] ∨ (¬ SomeNan t [x, y] ∧ InfTimesZero t x y) → fMac t rm sub x y z = nanExc t true) ∧
    (¬ (SomeSig t [x, y, z] ∨ (¬ SomeNan t [x, y] ∧ InfTimesZero t x y)) → SomeNan t [x, y, z] → fMac t rm sub x y z = nanExc t false) := by
  have ex := codeView hx
  have ey := codeView hy
  have ez := codeView hz
  have hneg : ∀ Y : FNum, (if sub then Y.negate else Y).isNan = Y.isNan := by
    intro Y; cases sub
    · rfl
    · exact negate_isNan Y
  have eq : fMac t rm sub x y z = nanExc t ((mulExact (fDecode t x) (fDecode t y)).snan || (fDecode t z).snan) := by
    rw [fMac_eq]
    refine addRound_nan ?_ ..
    rw [hneg]
    by_cases hxy : IsNan t x ∨ IsNan t y
    · rw [isNan_iff ex, isNan_iff ey] at hxy
      rw [mulExact_nan hxy]; exact .inr rfl
    · push Not at hxy
      obtain hn | hb := h
      · simp only [SomeNan, List.mem_cons, List.not_mem_nil, or_false, exists_eq_or_imp, exists_eq_left, hxy, false_or] at hn
        exact .inl ((isNan_iff ez).mp hn)
      · rw [mulExact_bad ex ey hxy.1 hxy.2 hb]; exact .inr rfl
  have key : SomeSig t [x, y, z] ∨ (¬ SomeNan t [x, y] ∧ InfTimesZero t x y) ↔
      ((mulExact (fDecode t x) (fDecode t y)).snan || (fDecode t z).snan) = true := by
    have hS : SomeSig t [x, y, z] ↔ (IsSig t x ∨ IsSig t y) ∨ IsSig t z := by simp [SomeSig, or_assoc]
    have hN : SomeNan t [x, y] ↔ IsNan t x ∨ IsNan t y := by simp [SomeNan]
    rw [hS, hN, Bool.or_eq_true, ← isSig_iff ez]
    by_cases hxy : IsNan t x ∨ IsNan t y
    · have hm := hxy
      rw [isNan_iff ex, isNan_iff ey] at hm
      rw [mulExact_nan hm]
      simp [hxy, FNum.snan, isSig_iff ex, isSig_iff ey]
    · have hs : ¬ (IsSig t x ∨ IsSig t y) := fun h => hxy (h.imp And.left And.left)
      simp only [hs, false_or, hxy, not_false_eq_true, true_and]
      push Not at hxy
      rw [product_snan ex ey hxy.1 hxy.2, or_comm]
  obtain ⟨h1, h2⟩ := nan_of_sig eq key
  exact ⟨h1, fun h3 _ => h2 h3⟩

theorem not_someNan_two {t : ETy} {x y : Nat} (h : ¬ SomeNan t [x, y]) : ¬ IsNan t x ∧ ¬ IsNan t y := by
  simpa [SomeNan, not_or] using h
theorem not_someNan_three {t : ETy} {x y z : Nat} (h : ¬ SomeNan t [x, y, z]) : ¬ IsNan t x ∧ ¬ IsNan t y ∧ ¬ IsNan t z := by
  simpa [SomeNan, not_or] using h

/-- What the sums and the fused sums of addends give where they are not rounded (R76, R106). -/
theorem sumResults {t : ETy} {rm : RMode} {x y z : Nat} (ht : ETy.fps.contains t = true) (hx : x < 2 ^ (fmt t).width)
    (hy : y < 2 ^ (fmt t).width)
    (hz : z < 2 ^ (fmt t).width) {r : Nat × Exc} {a b : Addend}
    (h : ((r, a, b) ∈ sumRules t rm x y ∧ ¬ SomeNan t [x, y]) ∨ ((r, a, b) ∈ macRules t rm x y z ∧ ¬ SomeNan t [x, y, z] ∧ ¬ InfTimesZero t x y)) :
    (a.inf = true → (b.inf = false ∨ b.neg = a.neg) → r = infExc t a.neg) ∧ (a.inf = false → b.inf = true → r = infExc t b.neg) ∧
    (a.inf = true → b.inf = true → a.neg ≠ b.neg → r = nanExc t true) ∧
    (a.inf = false → b.inf = false → a.val + b.val = 0 → r = zeroExc t (if a.val = 0 ∧ a.neg = b.neg then a.neg else rm == .rdn)) := by
  have ex := codeView hx
  have ey := codeView hy
  have ez := codeView hz
  simp only [sumRules, macRules, List.mem_cons, Prod.mk.injEq, List.not_mem_nil, or_false] at h
  obtain ⟨h, hn⟩ | ⟨h, hn, hb⟩ := h
  · obtain ⟨nx, ny⟩ := not_someNan_two hn
    obtain ⟨rfl, rfl, rfl⟩ | ⟨rfl, rfl, rfl⟩ := h
    · exact addRound_special ht rm (.code ex nx) (.code ey ny) _
    · exact addRound_special ht rm (.code ex nx) (DatumOf.code ey ny).negate _
  · obtain ⟨nx, ny, nz⟩ := not_someNan_three hn
    have hp := DatumOf.product ex ey nx ny hb
    obtain ⟨rfl, rfl, rfl⟩ | ⟨rfl, rfl, rfl⟩ := h
    · exact addRound_special ht rm (.code ez nz) hp _
    · exact addRound_special ht rm (.code ez nz) hp.negate _

theorem inf_value {t : ETy} {x : Nat} (h : isInf t x = true) : fpValue t x ≠ 0 := by
  have h1 : fMag t x = (fmt t).infCode := by simp [isInf] at h; exact h.2
  have := infCode_above t
  have := (fmt_facts t).2.1
  exact value_of_full (by omega)

/-- What a product gives where it is not rounded (R76, R106). -/
theorem mulResults {t : ETy} {rm : RMode} {x y : Nat} (ht : ETy.fps.contains t = true) (hx : x < 2 ^ (fmt t).width)
    (hy : y < 2 ^ (fmt t).width)
    (hn : ¬ SomeNan t [x, y]) :
    (InfTimesZero t x y → fMul t rm x y = nanExc t true) ∧
    (¬ InfTimesZero t x y → (isInf t x = true ∨ isInf t y = true) → fMul t rm x y = infExc t (fSign t x != fSign t y)) ∧
    (¬ InfTimesZero t x y → fpValue t x * fpValue t y = 0 → fMul t rm x y = zeroExc t (fSign t x != fSign t y)) := by
  have ex := codeView hx
  have ey := codeView hy
  obtain ⟨nx, ny⟩ := not_someNan_two hn
  refine ⟨fun hb => ?_, fun hb hi => ?_, fun hb h0 => ?_⟩
  · rw [fMul, mulExact_bad ex ey nx ny hb, fRound_nan]
  all_goals
    have hp := DatumOf.product ex ey nx ny hb
    unfold fMul
    generalize mulExact (fDecode t x) (fDecode t y) = P at hp ⊢
    unfold productOf at hp
  · have hi : (isInf t x || isInf t y) = true := by simpa using hi
    rw [hi] at hp
    generalize fpValue t x * fpValue t y = v at hp
    cases hp
    exact fRound_inf ht ..
  · have hi : (isInf t x || isInf t y) = false := by
      rw [Bool.or_eq_false_iff, ← Bool.not_eq_true, ← Bool.not_eq_true]
      exact ⟨fun h => hb (.inl ⟨h, (mul_eq_zero.mp h0).resolve_left (inf_value h)⟩),
        fun h => hb (.inr ⟨(mul_eq_zero.mp h0).resolve_right (inf_value h), h⟩)⟩
    rw [hi, h0] at hp
    generalize hz : (0 : ℚ) = v at hp
    cases hp with
    | fin n m e =>
      obtain rfl := (fin_eq_zero _ _ _).mp hz.symm
      exact fRound_zero ..

/-- What a quotient gives where it is not rounded (R76, R106). -/
theorem divResults {t : ETy} {rm : RMode} {x y : Nat} (ht : ETy.fps.contains t = true) (hx : x < 2 ^ (fmt t).width)
    (hy : y < 2 ^ (fmt t).width)
    (hn : ¬ SomeNan t [x, y]) :
    (isInf t x = true → fDiv t rm x y = if isInf t y then nanExc t true else infExc t (fSign t x != fSign t y)) ∧
    (isInf t x = false → isInf t y = true → fDiv t rm x y = zeroExc t (fSign t x != fSign t y)) ∧
    (isInf t x = false → isInf t y = false → fpValue t y = 0 → fpValue t x = 0 → fDiv t rm x y = nanExc t true) ∧
    (isInf t x = false → fpValue t y = 0 → fpValue t x ≠ 0 → fDiv t rm x y = ((infExc t (fSign t x != fSign t y)).1, ⟨false, true, false, false, false⟩)) ∧
    (isInf t y = false → fpValue t y ≠ 0 → fpValue t x = 0 → fDiv t rm x y = zeroExc t (fSign t x != fSign t y)) := by
  have ex := codeView hx
  have ey := codeView hy
  obtain ⟨nx, ny⟩ := not_someNan_two hn
  unfold fDiv
  generalize fDecode t x = X at ex ⊢
  generalize fDecode t y = Y at ey ⊢
  cases ex with
  | nan s h' _ _ => exact absurd h' nx
  | inf _ hi hv =>
    cases ey with
    | nan s h' _ _ => exact absurd h' ny
    | inf _ hj hw => simp [hi, hj, hv, hw, nanOut_eq]
    | fin n k _ hj _ hw => simp [hi, hj, hv, fRound_inf ht]
  | fin m e _ hi _ hv =>
    cases ey with
    | nan s h' _ _ => exact absurd h' ny
    | inf _ hj hw => simp [hi, hj, hw, fCode_zero]
    | fin n k _ hj _ hw =>
      have zm : fpValue t x = 0 ↔ m = 0 := by rw [hv, fin_eq_zero]
      have zn : fpValue t y = 0 ↔ n = 0 := by rw [hw, fin_eq_zero]
      simp only [hi, hj, Ne, zm, zn]
      refine ⟨fun h => Bool.noConfusion h, fun _ h => Bool.noConfusion h, fun _ _ h1 h2 => ?_, fun _ h1 h2 => ?_, fun _ h1 h2 => ?_⟩
      · simp [h1, h2, nanOut_eq]
      · simp [h1, h2, infExc, fCode_eq, Exc.divZero, Exc.none]
      · simp [h1, h2, fCode_zero]

/-- What a root gives where it is not rounded (R76, R106). -/
theorem sqrtResults {t : ETy} {rm : RMode} {x : Nat} (ht : ETy.fps.contains t = true) (hx : x < 2 ^ (fmt t).width) :
    (isInf t x = true → fSqrt t rm x = if fSign t x then nanExc t true else infExc t false) ∧
    (IsFinite t x → fpValue t x < 0 → fSqrt t rm x = nanExc t true) ∧ (fpValue t x = 0 → fSqrt t rm x = zeroExc t (fSign t x)) := by
  have ex := codeView hx
  unfold fSqrt
  generalize fDecode t x = X at ex ⊢
  cases ex with
  | nan s h' hi _ =>
    refine ⟨fun h => (by rw [hi] at h; cases h), fun h => absurd h'.1 (not_lt.mpr h.2), fun h => ?_⟩
    exact absurd h (value_of_full ((fmt_facts t).2.1.trans h'.1.le))
  | inf _ hi hv =>
    refine ⟨fun _ => ?_, fun hf => ?_, fun h => absurd h hv⟩
    · simp [nanOut_eq, fRound_inf ht]
    · have h1 : fMag t x = (fmt t).infCode := by simp [isInf] at hi; exact hi.2
      have := infCode_above t
      have := hf.2
      omega
  | fin m e _ hi _ hv =>
    refine ⟨fun h => (by rw [hi] at h; cases h), fun _ h => ?_, fun h => ?_⟩
    · have hm : m ≠ 0 := by rintro rfl; rw [hv] at h; simp at h
      have hs : fSign t x = true := by
        by_contra hs
        rw [Bool.not_eq_true] at hs
        rw [hv, hs] at h
        have : (0 : ℚ) ≤ m * 2 ^ e := by positivity
        simp only [sgn, Bool.false_eq_true, if_false] at h
        linarith
      simp [hm, hs, nanOut_eq]
    · rw [hv, fin_eq_zero] at h
      simp [h, fCode_zero]

theorem intToF_zero (t : ETy) (rm : RMode) : intToF t rm 0 = zeroExc t false := fCode_zero t false

end Sys2Proof.Machine
end

section
/-! PROOFS. The order of the numbers and the compares (O10). -/

namespace Sys2Proof.Machine

/-! ### The order of the numbers (R107, R108) -/

/-- The place of a datum that is no NaN. -/
def numPlace : FNum → WithBot (WithTop ℚ)
  | .inf true => ⊥
  | .inf false => ((⊤ : WithTop ℚ) : WithBot (WithTop ℚ))
  | .fin n m e => ((sgn n * (m * 2 ^ e) : ℚ) : WithTop ℚ)
  | .nan _ => ⊥

theorem fpPlace_eq {t : ETy} {x : Nat} {X : FNum} (h : CodeView t x X) (hn : ¬ IsNan t x) : fpPlace t x = numPlace X := by
  unfold fpPlace
  cases h with
  | nan s h' _ _ => exact absurd h' hn
  | inf _ hi _ => rw [if_pos hi]; cases fSign t x <;> rfl
  | fin m e _ hi _ hv => rw [hi, hv]; rfl

theorem fCmp_place {X Y : FNum} (hX : X.isNan = false) (hY : Y.isNan = false) :
    (fCmp X Y < 0 ↔ numPlace X < numPlace Y) ∧ (fCmp X Y = 0 ↔ numPlace X = numPlace Y) := by
  have coe_lt : ∀ q r : ℚ, ((q : WithTop ℚ) : WithBot (WithTop ℚ)) < ((r : WithTop ℚ) : WithBot (WithTop ℚ)) ↔ q < r := by
    intro q r; rw [WithBot.coe_lt_coe, WithTop.coe_lt_coe]
  have coe_eq : ∀ q r : ℚ, ((q : WithTop ℚ) : WithBot (WithTop ℚ)) = ((r : WithTop ℚ) : WithBot (WithTop ℚ)) ↔ q = r := by
    intro q r; rw [WithBot.coe_inj, WithTop.coe_inj]
  cases X with
  | nan s => cases hX
  | inf a =>
    cases Y with
    | nan s => cases hY
    | inf b => cases a <;> cases b <;> simp [fCmp, numPlace]
    | fin b n k =>
      simp only [numPlace]
      generalize sgn b * (n * 2 ^ k) = q
      cases a <;> simp [fCmp]
  | fin a m e =>
    cases Y with
    | nan s => cases hY
    | inf b =>
      simp only [numPlace]
      generalize sgn a * (m * 2 ^ e) = q
      cases b <;> simp [fCmp, lt_top_iff_ne_top]
    | fin b n k =>
      set lo := min e k with hlo
      have hU : (0 : ℚ) < 2 ^ lo := by positivity
      have ho : fCmp (.fin a m e) (.fin b n k) = if unitsOf a m e lo < unitsOf b n k lo then -1
          else if unitsOf a m e lo = unitsOf b n k lo then 0 else 1 := rfl
      unfold numPlace
      rw [coe_lt, coe_eq, unitsOf_eq (min_le_left e k), unitsOf_eq (min_le_right e k), ← hlo, mul_lt_mul_iff_left₀ hU, mul_left_inj' hU.ne',
        Int.cast_lt, Int.cast_inj, ho]
      split
      · next h => simp [h, h.ne]
      · next h =>
        split
        · next h2 => simp [h2]
        · next h2 => simp [h, h2]

theorem fCmp_code {t : ETy} {x y : Nat} (hx : x < 2 ^ (fmt t).width) (hy : y < 2 ^ (fmt t).width) (nx : ¬ IsNan t x)
    (ny : ¬ IsNan t y) :
    (fCmp (fDecode t x) (fDecode t y) < 0 ↔ fpPlace t x < fpPlace t y) ∧ (fCmp (fDecode t x) (fDecode t y) = 0 ↔ fpPlace t x = fpPlace t y) := by
  have ex := codeView hx
  have ey := codeView hy
  rw [fpPlace_eq ex nx, fpPlace_eq ey ny]
  rw [isNan_iff ex, Bool.not_eq_true] at nx
  rw [isNan_iff ey, Bool.not_eq_true] at ny
  exact fCmp_place nx ny

/-! ### Codes as they are read (R77) -/

theorem fFlush_eq (t : ETy) (x : Nat) : fFlush t x = readCode t x := by
  unfold fFlush readCode
  simp [fCode_eq]

theorem readCode_sign (t : ETy) (x : Nat) : fSign t (readCode t x) = fSign t x := by
  unfold readCode
  split
  · have h := (fCode_parts t (fSign t x) 0 (by positivity)).1
    rwa [fCode_eq, Nat.add_zero] at h
  · rfl

theorem readCode_place (t : ETy) (x : Nat) : fpPlace t (readCode t x) = fpPlace t x := by
  have hinf := infCode_above t
  have hmax := (fmt_facts t).2.1
  have hB : 0 < 2 ^ (fmt t).mb := by positivity
  unfold readCode
  split
  · next h =>
    obtain ⟨hf, hm⟩ := h
    have hz : ∀ y, fMag t y < 2 ^ (fmt t).mb → fpPlace t y = (((0 : ℚ) : WithTop ℚ) : WithBot (WithTop ℚ)) := by
      intro y hy
      have h1 : isInf t y = false := by
        have : fMag t y ≠ (fmt t).infCode := by omega
        simp [isInf, this]
      have h2 : fpValue t y = 0 := by
        rw [fpValue_eq, magCount, hf, Nat.div_eq_of_lt hy]
        simp
      unfold fpPlace
      rw [h1, h2]; rfl
    have hs := (fCode_parts t (fSign t x) 0 (by positivity)).2.1
    rw [fCode_eq, Nat.add_zero] at hs
    rw [hz _ (by rw [hs]; exact hB), hz x hm]
  · rfl

/-! ### `fmin`, `fmax` and the compares -/

/-- The flags of the minima and the compares. -/
def nvExc (inv : Bool) : Exc := ⟨inv, false, false, false, false⟩

theorem invalid_if (b : Bool) : (if b then Exc.invalid else Exc.none) = nvExc b := by cases b <;> rfl

theorem fMinMax_nan {t : ETy} {x y : Nat} (hx : x < 2 ^ (fmt t).width) (hy : y < 2 ^ (fmt t).width) (less : Bool) :
    let r := fMinMax t less x y
    (IsNan t x → IsNan t y → r.1 = (fmt t).nan) ∧ (IsNan t x → ¬ IsNan t y → r.1 = readCode t y) ∧
      (¬ IsNan t x → IsNan t y → r.1 = readCode t x) ∧ (IsSig t x ∨ IsSig t y → r.2 = nvExc true) ∧ (¬ (IsSig t x ∨ IsSig t y) → r.2 = nvExc false) := by
  intro r
  have ex := codeView hx
  have ey := codeView hy
  have hr2 : r.2 = nvExc ((fDecode t x).snan || (fDecode t y).snan) := by
    rw [← invalid_if]
    simp only [r, fMinMax]
    split <;> rfl
  rw [isNan_iff ex, isNan_iff ey, isSig_iff ex, isSig_iff ey, hr2]
  refine ⟨fun h1 h2 => ?_, fun h1 h2 => ?_, fun h1 h2 => ?_, fun h => ?_, fun h => ?_⟩
  · simp only [r, fMinMax, h1, h2]
  · rw [Bool.not_eq_true] at h2
    simp only [r, fMinMax, h1, h2, fFlush_eq]
  · rw [Bool.not_eq_true] at h1
    simp only [r, fMinMax, h1, h2, fFlush_eq]
  · rw [Bool.or_eq_true _ _ |>.mpr h]
  · rw [← Bool.or_eq_true, Bool.not_eq_true] at h
    rw [h]

theorem fMinMax_num {t : ETy} {x y : Nat} (hx : x < 2 ^ (fmt t).width) (hy : y < 2 ^ (fmt t).width) (nx : ¬ IsNan t x)
    (ny : ¬ IsNan t y) (less : Bool) :
    let r := fMinMax t less x y
    (r.1 = readCode t x ∨ r.1 = readCode t y) ∧
      fpPlace t r.1 = (if less then min (fpPlace t x) (fpPlace t y) else max (fpPlace t x) (fpPlace t y)) ∧
      (fpPlace t x = fpPlace t y → fSign t r.1 = if less then fSign t x || fSign t y else fSign t x && fSign t y) := by
  obtain ⟨hlt, heq⟩ := fCmp_code hx hy nx ny
  have h1 := nx
  have h2 := ny
  rw [isNan_iff (codeView hx), Bool.not_eq_true] at h1
  rw [isNan_iff (codeView hy), Bool.not_eq_true] at h2
  have hr : (fMinMax t less x y).1 = if ((if fpPlace t x = fpPlace t y then fSign t x else decide (fpPlace t x < fpPlace t y)) == less) = true
      then readCode t x else readCode t y := by
    simp only [fMinMax, h1, h2, fFlush_eq, heq, hlt]
  intro r
  rw [show r.1 = _ from hr]
  refine ⟨ite_eq_or_eq _ _ _, ?_, fun he => ?_⟩
  · by_cases he : fpPlace t x = fpPlace t y
    · rw [apply_ite (fpPlace t), readCode_place, readCode_place, he]
      simp
    · rw [if_neg he, apply_ite (fpPlace t), readCode_place, readCode_place]
      rcases lt_or_gt_of_ne he with h | h
      · cases less <;> simp [h, h.le]
      · cases less <;> simp [not_lt.mpr h.le, h.le]
  · rw [if_pos he, apply_ite (fSign t), readCode_sign, readCode_sign]
    cases less <;> cases fSign t x <;> simp

/-- A compare (R108). -/
theorem fCompare_num {t : ETy} {x y : Nat} (hx : x < 2 ^ (fmt t).width) (hy : y < 2 ^ (fmt t).width) {op : FRel} {holds : Prop}
    (hop : (op, holds) ∈ [(FRel.eq, fpPlace t x = fpPlace t y), (.lt, fpPlace t x < fpPlace t y), (.le, fpPlace t x ≤ fpPlace t y)]) :
    let r := fCompare t op x y
    (¬ IsNan t x → ¬ IsNan t y → (holds → r = (2 ^ t.width - 1, nvExc false)) ∧ (¬ holds → r = (0, nvExc false))) ∧
    (IsNan t x ∨ IsNan t y → r.1 = 0 ∧ ((IsSig t x ∨ IsSig t y) ∨ op ≠ .eq → r.2 = nvExc true) ∧
      (¬ (IsSig t x ∨ IsSig t y) → op = .eq → r.2 = nvExc false)) := by
  intro r
  have ex := codeView hx
  have ey := codeView hy
  constructor
  · intro nx ny
    obtain ⟨hlt, heq⟩ := fCmp_code hx hy nx ny
    have h1 := nx
    have h2 := ny
    rw [isNan_iff ex, Bool.not_eq_true] at h1
    rw [isNan_iff ey, Bool.not_eq_true] at h2
    have hle : fCmp (fDecode t x) (fDecode t y) ≤ 0 ↔ fpPlace t x ≤ fpPlace t y := by
      rw [le_iff_lt_or_eq, hlt, heq, le_iff_lt_or_eq]
    simp only [List.mem_cons, Prod.mk.injEq, List.not_mem_nil, or_false] at hop
    obtain ⟨rfl, rfl⟩ | ⟨rfl, rfl⟩ | ⟨rfl, rfl⟩ := hop
    · simp +contextual [r, fCompare, h1, h2, heq, nvExc, Exc.none]
    · simp +contextual [r, fCompare, h1, h2, hlt, nvExc, Exc.none]
    · simp +contextual [r, fCompare, h1, h2, hle, nvExc, Exc.none]
  · intro hn
    rw [isNan_iff ex, isNan_iff ey, ← Bool.or_eq_true] at hn
    rw [isSig_iff ex, isSig_iff ey]
    have hr : r = (0, nvExc ((fDecode t x).snan || (fDecode t y).snan || op != .eq)) := by
      simp only [r, fCompare, hn, if_true, invalid_if]
    rw [hr]
    refine ⟨rfl, fun h => ?_, fun h ho => ?_⟩
    · have : ((fDecode t x).snan || (fDecode t y).snan || op != .eq) = true := by simpa [or_assoc] using h
      rw [this]
    · have : ((fDecode t x).snan || (fDecode t y).snan || op != .eq) = false := by simpa [ho] using h
      rw [this]

end Sys2Proof.Machine
end

section
/-! PROOFS. Conversions and fred (O10). -/

namespace Sys2Proof.Machine

/-! ### Conversions (R79, R80, R111-R113) -/

/-- A rounded magnitude with its sign is the number rounded to an integer. -/
theorem intRounded_signed {rm : RMode} {neg : Bool} {v : ℚ} {R : Nat} (hv : v = sgn neg * |v|) (h : IntRounds rm neg |v| R) :
    IntRounded rm v (if neg then -(R : Int) else R) := by
  have ha := abs_nonneg v
  generalize |v| = a at hv h ha
  subst hv
  unfold IntRounds at h
  unfold IntRounded
  cases neg with
  | false =>
    simp only [sgn, Bool.false_eq_true, if_false, one_mul, Int.cast_natCast] at h ⊢
    have fl : (R : ℚ) ≤ a ∧ a < R + 1 → (R : Int) = ⌊a⌋ := fun ⟨h1, h2⟩ => (Int.floor_eq_iff.mpr (by push_cast; exact ⟨h1, h2⟩)).symm
    cases rm with
    | rne => exact ⟨h.1, fun he => by have := h.2 he; omega⟩
    | rtz => dsimp only at h ⊢; rw [if_pos ha]; exact fl h
    | rdn => exact fl h
    | rup => exact (Int.ceil_eq_iff.mpr (by push_cast; exact h)).symm
  | true =>
    simp only [sgn, if_true, neg_mul, one_mul, Int.cast_neg, Int.cast_natCast] at h ⊢
    have ce : (R : ℚ) ≤ a ∧ a < R + 1 → -(R : Int) = ⌈-a⌉ := by
      rintro ⟨h1, h2⟩
      exact (Int.ceil_eq_iff.mpr (by push_cast; constructor <;> linarith)).symm
    have hd : |-(R : ℚ) - -a| = |(R : ℚ) - a| := by rw [← abs_neg]; congr 1; ring
    cases rm with
    | rne =>
      dsimp only
      rw [hd]
      exact ⟨h.1, fun he => by have := h.2 he; omega⟩
    | rtz =>
      dsimp only at h ⊢
      split
      · next h0 =>
        obtain rfl : a = 0 := by linarith
        have : R = 0 := by exact_mod_cast le_antisymm h.1 (by positivity)
        simp [this]
      · exact ce h
    | rdn =>
      obtain ⟨h1, h2⟩ := h
      exact (Int.floor_eq_iff.mpr (by push_cast; constructor <;> linarith)).symm
    | rup => exact ce h

/-- A number rounds to one integer. -/
theorem intRounded_unique {rm : RMode} {v : ℚ} {n k : Int} (hn : IntRounded rm v n) (hk : IntRounded rm v k) : n = k := by
  unfold IntRounded at hn hk
  cases rm with
  | rne =>
    obtain ⟨n1, n2⟩ := hn
    obtain ⟨k1, k2⟩ := hk
    by_contra hne
    have hd : (1 : ℚ) ≤ |(n : ℚ) - k| := by
      have h1 : (1 : Int) ≤ |n - k| := Int.one_le_abs (sub_ne_zero.mpr hne)
      exact_mod_cast h1
    have tri : |(n : ℚ) - k| ≤ |(n : ℚ) - v| + |(k : ℚ) - v| := by
      rw [abs_sub_comm (k : ℚ) v]; exact abs_sub_le _ _ _
    have e1 := n2 (by linarith)
    have e2 := k2 (by linarith)
    have h3 : |(n : ℚ) - k| = 1 := by linarith
    have h4 : |n - k| = 1 := by exact_mod_cast h3
    rcases eq_or_eq_neg_of_abs_eq h4 with h5 | h5 <;> omega
  | rtz | rdn | rup => exact hn.trans hk.symm

theorem fToInt_num {t src : ETy} {rm : RMode} {x : Nat} {n : Int} (hx : IsFinite src x) (hn : IntRounded rm (fpValue src x) n) :
    fToInt t src rm x = if n < tyMin t then (wrap t.width (tyMin t), nvExc true) else if tyMax t < n then (wrap t.width (tyMax t), nvExc true)
      else (wrap t.width n, ⟨false, false, false, false, decide ((n : ℚ) ≠ fpValue src x)⟩) := by
  obtain ⟨a, m, e, hd, hv, -⟩ := fDecode_finite src x hx
  have ha : |fpValue src x| = m * 2 ^ e := by rw [hv, abs_sgn, abs_of_nonneg (by positivity)]
  have hs : fpValue src x = sgn a * |fpValue src x| := by rw [ha]; exact hv
  obtain ⟨r1, r2⟩ := roundQ_rounds rm a m e 0 false |fpValue src x| (by rw [Carried, if_neg (by simp), ha]; field_simp) (by simp)
  rw [zpow_zero, div_one] at r1 r2
  have he : (if a then -((roundQ rm a m e 0 false).1 : Int) else (roundQ rm a m e 0 false).1) = n :=
    intRounded_unique (intRounded_signed hs r1) hn
  have hx2 : (roundQ rm a m e 0 false).2 = decide ((n : ℚ) ≠ fpValue src x) := by
    rw [Bool.eq_iff_iff, r2, decide_eq_true_eq, hs, ← he]
    cases a <;> simp [sgn]
  unfold fToInt
  rw [hd]
  simp only [he, hx2, gt_iff_lt]
  congr 2
  cases decide ((n : ℚ) ≠ fpValue src x) <;> rfl

theorem int_range (t : ETy) :
    tyMin t = (if ETy.signed.contains t then -2 ^ (t.width - 1) else 0) ∧
    tyMax t = (if ETy.signed.contains t then 2 ^ (t.width - 1) - 1 else 2 ^ t.width - 1) := by
  cases t <;> exact ⟨rfl, rfl⟩

/-- `fcvti` (R80). -/
theorem fToInt_results {t src : ETy} {rm : RMode} {x : Nat} (hx : x < 2 ^ (fmt src).width) :
    (IsNan src x → fToInt t src rm x = (0, nvExc true)) ∧
    (isInf src x = true → fToInt t src rm x = (wrap t.width (if fSign src x then tyMin t else tyMax t), nvExc true)) ∧
    (∀ n, IsFinite src x → IntRounded rm (fpValue src x) n → (n < tyMin t → fToInt t src rm x = (wrap t.width (tyMin t), nvExc true)) ∧
      (tyMax t < n → fToInt t src rm x = (wrap t.width (tyMax t), nvExc true)) ∧
      (tyMin t ≤ n → n ≤ tyMax t → fToInt t src rm x = (wrap t.width n, ⟨false, false, false, false, decide ((n : ℚ) ≠ fpValue src x)⟩))) := by
  refine ⟨fun h => ?_, fun h => ?_, fun n hf hn => ?_⟩
  · have ex := codeView hx
    unfold fToInt
    generalize fDecode src x = X at ex ⊢
    cases ex with
    | nan s _ _ _ => rfl
    | inf h' _ _ => exact absurd h h'
    | fin m e h' _ _ _ => exact absurd h h'
  · have ex := codeView hx
    unfold fToInt
    generalize fDecode src x = X at ex ⊢
    cases ex with
    | nan s _ h' _ => rw [h'] at h; cases h
    | inf _ _ _ => rfl
    | fin m e _ h' _ _ => rw [h'] at h; cases h
  · rw [fToInt_num hf hn]
    have hle : tyMin t ≤ tyMax t := by cases t <;> decide
    refine ⟨fun h => if_pos h, fun h => ?_, fun h1 h2 => ?_⟩
    · rw [if_neg (by omega), if_pos h]
    · rw [if_neg (by omega), if_neg (by omega)]

theorem floatsWidth {t : ETy} (ht : ETy.floats.contains t = true) : (fmt t).width = t.width := by
  revert ht; cases t <;> decide

/-- `fcvt` where it does not round (R79). -/
theorem fConvert_results {t src : ETy} {rm : RMode} {sat : Bool} {x : Nat} (ht : ETy.floats.contains t = true)
    (hx : x < 2 ^ (fmt src).width) :
    let r := fConvert t src rm sat x
    (IsFinite src x → fpValue src x = 0 → r = zeroExc t (fSign src x)) ∧
    (IsNan src x → r.1 = (fmt t).nan ∧ (IsSig src x → r.2 = nvExc true) ∧ (¬ IsSig src x → r.2 = nvExc false)) ∧
    (isInf src x = true →
      (t = .e4m3 → r = if sat then (signCode t (fSign src x) + 0x7E, nvExc false) else (0x7F, nvExc true)) ∧
      (t ≠ .e4m3 → r = (signCode t (fSign src x) + (if sat = true ∧ t ≠ .f32 then (fmt t).maxCode else (fmt t).infCode), nvExc false))) := by
  intro r
  have ex := codeView hx
  have hr : r = fRound t rm sat (fDecode src x) := rfl
  clear_value r
  subst hr
  refine ⟨fun hf h0 => ?_, fun h => ?_, fun h => ?_⟩
  all_goals
    generalize fDecode src x = X at ex ⊢
    cases ex
  case refine_1.nan s h' _ _ => exact absurd h'.1 (not_lt.mpr hf.2)
  case refine_1.inf h' hv => exact absurd h0 hv
  case refine_1.fin m e _ _ _ hv =>
    rw [hv, fin_eq_zero] at h0
    simp only [h0, fRound_zero]
  case refine_2.nan s _ _ hs =>
    simp only [fRound_nan, hs]
    exact ⟨rfl, fun h => by rw [h]; rfl, fun h => by rw [Bool.not_eq_true] at h; rw [h]; rfl⟩
  case refine_2.inf h' _ _ => exact absurd h h'
  case refine_2.fin m e h' _ _ _ => exact absurd h h'
  case refine_3.nan s _ h' _ => rw [h'] at h; cases h
  case refine_3.inf =>
    constructor
    · rintro rfl
      simp only [fRound, fCode_eq]
      rfl
    · intro h4
      cases t <;> simp_all [ETy.floats, fRound, fCode_eq]
      all_goals cases sat <;> rfl
  case refine_3.fin m e _ h' _ _ => rw [h'] at h; cases h

/-! ### `fred` (R82, R114) -/

/-- One level of the tree ORs in the flags of its steps. -/
theorem foldl_flag {flag : Exc → Bool} (hor : ∀ a b, flag (a.or b) = (flag a || flag b)) (l : List (Nat × Exc)) (ex : Exc) :
    flag (l.foldl (fun a r => a.or r.2) ex) = true ↔ flag ex = true ∨ ∃ r ∈ l, flag r.2 = true := by
  induction l generalizing ex with
  | nil => simp
  | cons r l ih => simp [ih, hor, or_assoc]

theorem fTree_results (op : Nat → Nat → Nat × Exc) {flag : Exc → Bool} (hor : ∀ a b, flag (a.or b) = (flag a || flag b)) (k : Nat)
    (v : Nat → Nat → Nat) (w : Nat → Nat) (ex : Exc) (hw : ∀ e, e < 2 ^ k → w e = v 0 e)
    (hv : ∀ j, j < k → ∀ e, e < 2 ^ (k - 1 - j) → v (j + 1) e = (op (v j e) (v j (e + 2 ^ (k - 1 - j)))).1) :
    (fTree op k w ex).1 = v k 0 ∧ (flag (fTree op k w ex).2 = true ↔ flag ex = true ∨
      ∃ j, j < k ∧ ∃ e, e < 2 ^ (k - 1 - j) ∧ flag (op (v j e) (v j (e + 2 ^ (k - 1 - j)))).2 = true) := by
  induction k generalizing v w ex with
  | zero => simp [fTree, hw 0 (by norm_num)]
  | succ k ih =>
    have step : ∀ e, e < 2 ^ k → op (w e) (w (e + 2 ^ k)) = op (v 0 e) (v 0 (e + 2 ^ k)) := by
      intro e he
      rw [hw e (by rw [Nat.pow_succ]; omega), hw (e + 2 ^ k) (by rw [Nat.pow_succ]; omega)]
    have hsub : ∀ j, k + 1 - 1 - (j + 1) = k - 1 - j := by omega
    obtain ⟨i1, i2⟩ := ih (fun j => v (j + 1))
      (fun e => (((List.range (2 ^ k)).map (fun e => op (w e) (w (e + 2 ^ k)))).getD e (0, Exc.none)).1)
      (((List.range (2 ^ k)).map (fun e => op (w e) (w (e + 2 ^ k)))).foldl (fun a r => a.or r.2) ex)
      (fun e he => by
        rw [List.getD_eq_getElem _ _ (by simpa using he), List.getElem_map, List.getElem_range, step e he]
        exact (hv 0 (by omega) e he).symm)
      (fun j hj e he => by
        have := hv (j + 1) (by omega) e (by rwa [hsub])
        rwa [hsub] at this)
    refine ⟨i1, ?_⟩
    unfold fTree
    rw [i2, foldl_flag hor, or_assoc]
    refine or_congr_right ⟨?_, ?_⟩
    · rintro (⟨r, hr, hf⟩ | ⟨j, hj, e, he, hf⟩)
      · obtain ⟨e, he, rfl⟩ := List.mem_map.mp hr
        have he := List.mem_range.mp he
        rw [step e he] at hf
        exact ⟨0, by omega, e, he, hf⟩
      · exact ⟨j + 1, by omega, e, by rwa [hsub], by rwa [hsub]⟩
    · rintro ⟨j, hj, e, he, hf⟩
      cases j with
      | zero =>
        have he : e < 2 ^ k := he
        exact .inl ⟨_, List.mem_map.mpr ⟨e, List.mem_range.mpr he, rfl⟩, by rw [step e he]; exact hf⟩
      | succ j =>
        rw [hsub] at he hf
        exact .inr ⟨j, by omega, e, he, hf⟩

end Sys2Proof.Machine
end

section
/-! PROOFS. The approximations (O10). -/

namespace Sys2Proof.Machine

/-! ### Approximations: special inputs (R109) -/

theorem fDecode_fin {t : ETy} {x : Nat} (hx : IsFinite t x) : ∃ m e, fDecode t x = .fin (fSign t x) m e ∧
    fpValue t x = sgn (fSign t x) * (m * 2 ^ e) ∧ m < 2 * 2 ^ (fmt t).mb := by
  obtain ⟨n, m, e, hd, hv, hm⟩ := fDecode_finite t x hx
  have h := codeView hx.1
  rw [hd] at h
  cases h
  exact ⟨m, e, hd, hv, hm⟩

/-- The compares with a constant. -/
theorem fCmp_fin (a b : Bool) (m n : Nat) (e k : Int) :
    (fCmp (.fin a m e) (.fin b n k) < 0 ↔ sgn a * (m * 2 ^ e) < sgn b * (n * 2 ^ k)) ∧
    (fCmp (.fin a m e) (.fin b n k) ≤ 0 ↔ sgn a * (m * 2 ^ e) ≤ sgn b * (n * 2 ^ k)) := by
  obtain ⟨h1, h2⟩ := fCmp_place (X := .fin a m e) (Y := .fin b n k) rfl rfl
  unfold numPlace at h1 h2
  rw [WithBot.coe_lt_coe, WithTop.coe_lt_coe] at h1
  rw [WithBot.coe_inj, WithTop.coe_inj] at h2
  exact ⟨h1, by rw [le_iff_lt_or_eq, le_iff_lt_or_eq, h1, h2]⟩

/-- An approximation at a number other than 0. -/
theorem fApprox_fin {t : ETy} {rm : RMode} {op : Approx} {x m : Nat} {e : Int} {neg : Bool} (hd : fDecode t x = .fin neg m e)
    (hm : m ≠ 0)
    {v : ℚ} (hv : v = sgn neg * (m * 2 ^ e)) :
    (op = .rcp → |v| ≤ 2 ^ (-128 : Int) → fApprox t rm op x = (fCode t neg (fmt t).infCode, Exc.overflow)) ∧
    (op ∈ [Approx.rsq, .log2] → neg = true → fApprox t rm op x = nanOut t true) ∧
    (op = .exp2 → 128 ≤ v → fApprox t rm op x = (fCode t false (fmt t).infCode, Exc.overflow)) ∧
    (op = .exp2 → v < -149 → fApprox t rm op x = (0, Exc.underflow)) ∧
    (t = .f32 → (op = .rcp ∧ 2 ^ (-128 : Int) < |v|) ∨ (op = .rsq ∧ neg = false) →
      (fApprox t rm op x).1 = (approxF32 op (fRound .f32 .rne false (.fin neg m e)).1 neg m e).1) := by
  have ha : |v| = m * 2 ^ e := by rw [hv, abs_sgn, abs_of_nonneg (by positivity)]
  have hover : fCmp (.fin false m e) (.fin false 1 (-128)) ≤ 0 ↔ |v| ≤ 2 ^ (-128 : Int) := by
    rw [(fCmp_fin ..).2, ha]; simp [sgn]
  have hbig : fCmp (.fin neg m e) (.fin false 128 0) ≥ 0 ↔ 128 ≤ v := by
    rw [ge_iff_le, ← not_lt, (fCmp_fin ..).1, ← hv]; simp [sgn]
  have hsmall : fCmp (.fin neg m e) (.fin true 149 0) < 0 ↔ v < -149 := by
    rw [(fCmp_fin ..).1, ← hv]; simp [sgn]
  unfold fApprox
  simp only [hd, if_neg hm, hover, hbig, hsmall]
  generalize (2 : ℚ) ^ (-128 : Int) = least
  refine ⟨?_, ?_, ?_, ?_, ?_⟩
  · rintro rfl h
    simp [h]
  · intro h hn
    simp only [List.mem_cons, List.not_mem_nil, or_false] at h
    obtain rfl | rfl := h <;> simp [hn]
  · rintro rfl h
    simp [h]
  · rintro rfl h
    have h' : ¬ 128 ≤ v := by linarith
    simp [h, h']
  · rintro rfl (⟨rfl, h⟩ | ⟨rfl, h⟩)
    · have h' : ¬ |v| ≤ least := not_le.mpr h
      simp [h']
      split <;> rfl
    · simp [h]
      split <;> rfl

/-- The overflow of a reciprocal, and the two ends of `exp2`. -/
theorem approx_ends {t : ETy} {rm : RMode} {x : Nat} (hx : IsFinite t x) :
    (fpValue t x ≠ 0 → |fpValue t x| ≤ 2 ^ (-128 : Int) →
      fApprox t rm .rcp x = (signCode t (fSign t x) + (fmt t).infCode, Exc.overflow)) ∧
    (128 ≤ fpValue t x → fApprox t rm .exp2 x = (signCode t false + (fmt t).infCode, Exc.overflow)) ∧
    (fpValue t x < -149 → fApprox t rm .exp2 x = (0, Exc.underflow)) := by
  obtain ⟨m, e, hd, hv, -⟩ := fDecode_fin hx
  have hm : fpValue t x ≠ 0 → m ≠ 0 := by rw [hv, Ne, fin_eq_zero]; exact id
  have ends (h : fpValue t x ≠ 0) (op : Approx) := fApprox_fin (rm := rm) (op := op) hd (hm h) hv
  simp only [← fCode_eq]
  refine ⟨fun h0 h => (ends h0 .rcp).1 rfl h, fun h => ?_, fun h => ?_⟩
  · have h0 : fpValue t x ≠ 0 := by linarith
    obtain ⟨-, -, big, -⟩ := ends h0 .exp2
    exact big rfl h
  · have h0 : fpValue t x ≠ 0 := by linarith
    obtain ⟨-, -, -, small, -⟩ := ends h0 .exp2
    exact small rfl h

theorem one_code {t : ETy} (ht : ETy.fps.contains t = true) : fpValue t (fCode t false ((fmt t).bias <<< (fmt t).mb)) = 1 := by
  obtain rfl | rfl := fps_cases ht <;> norm_num [fpValue, fCode, fSign, fMag, fmt, Nat.shiftLeft_eq, Nat.shiftRight_eq_div_pow]

/-- The special inputs. -/
theorem approx_special {t : ETy} {rm : RMode} {x : Nat} (ht : ETy.fps.contains t = true) (hx : x < 2 ^ (fmt t).width) :
    (∀ op, IsNan t x → (fApprox t rm op x).1 = (fmt t).nan ∧ (IsSig t x → (fApprox t rm op x).2 = nvExc true) ∧
      (¬ IsSig t x → (fApprox t rm op x).2 = nvExc false)) ∧
    (isInf t x = true → fApprox t rm .rcp x = zeroExc t (fSign t x) ∧
      fApprox t rm .exp2 x = (if fSign t x then 0 else signCode t false + (fmt t).infCode, nvExc false) ∧
      (fSign t x = false → fApprox t rm .rsq x = (0, nvExc false) ∧ fApprox t rm .log2 x = infExc t false)) ∧
    ((isInf t x = true ∨ (IsFinite t x ∧ fpValue t x ≠ 0)) → fSign t x = true → ∀ op ∈ [Approx.rsq, .log2], fApprox t rm op x = nanExc t true) ∧
    (IsFinite t x → fpValue t x = 0 →
      fApprox t rm .rcp x = (signCode t (fSign t x) + (fmt t).infCode, ⟨false, true, false, false, false⟩) ∧
      fApprox t rm .rsq x = (signCode t (fSign t x) + (fmt t).infCode, ⟨false, true, false, false, false⟩) ∧
      fApprox t rm .log2 x = (signCode t true + (fmt t).infCode, ⟨false, true, false, false, false⟩) ∧
      (fpValue t (fApprox t rm .exp2 x).1 = 1 ∧ (fApprox t rm .exp2 x).2 = nvExc false)) := by
  have ex := codeView hx
  refine ⟨fun op h => ?_, fun h => ?_, fun h hs op hop => ?_, fun hf h0 => ?_⟩
  all_goals
    generalize hX : fDecode t x = X at ex
    cases ex
  case refine_1.nan s _ _ hs =>
    have e : fApprox t rm op x = nanExc t s := by rw [← nanOut_eq]; simp [fApprox, hX]
    rw [e, hs]
    exact ⟨rfl, fun h => (by rw [h]; rfl), fun h => (by rw [Bool.not_eq_true] at h; rw [h]; rfl)⟩
  case refine_1.inf h' _ _ => exact absurd h h'
  case refine_1.fin m e h' _ _ _ => exact absurd h h'
  case refine_2.nan s _ h' _ => rw [h'] at h; cases h
  case refine_2.inf =>
    simp only [fApprox, hX, fCode_eq]
    refine ⟨rfl, ?_, fun h => ?_⟩
    · cases fSign t x <;> rfl
    · rw [h]; exact ⟨rfl, rfl⟩
  case refine_2.fin m e _ h' _ _ => rw [h'] at h; cases h
  case refine_3.nan s h1 h2 _ =>
    obtain h | h := h
    · rw [h2] at h; cases h
    · exact absurd h1.1 (not_lt.mpr h.1.2)
  case refine_3.inf =>
    simp only [List.mem_cons, List.not_mem_nil, or_false] at hop
    obtain rfl | rfl := hop <;> simp [fApprox, hX, hs, nanOut_eq]
  case refine_3.fin m e _ h' _ hv =>
    have h0 := (h.resolve_left (by rw [h']; simp)).2
    rw [hv, Ne, fin_eq_zero] at h0
    rw [(fApprox_fin hX h0 rfl).2.1 hop hs, nanOut_eq]
  case refine_4.nan s h1 _ _ => exact absurd h1.1 (not_lt.mpr hf.2)
  case refine_4.inf _ _ hv => exact absurd h0 hv
  case refine_4.fin m e _ _ _ hv =>
    rw [hv, fin_eq_zero] at h0
    simp only [fApprox, hX, h0, if_true, one_code ht]
    simp only [fCode_eq]
    exact ⟨rfl, rfl, rfl, trivial, rfl⟩

/-! ### Approximations: their bounds (R109) -/

/-- The unit in the last place of an f32 in the binade K. -/
def ulpOf (K : Int) : Int := max K (-126) - 23

/-- `roundTo` to nearest is at most half a unit off. -/
theorem roundTo_near {neg : Bool} {a : Nat} {b K : Int} (ha : a ≠ 0) (h1 : (2 : ℚ) ^ K ≤ a * 2 ^ b)
    (h2 : (a : ℚ) * 2 ^ b < 2 ^ (K + 1))
    (hmax : (a : ℚ) * 2 ^ b ≤ fpValue .f32 (fmt .f32).maxCode) :
    |fpValue .f32 (roundTo .f32 .rne false neg a b false).1 - sgn neg * (a * 2 ^ b)| ≤ 2 ^ (ulpOf K - 1) := by
  set v := sgn neg * ((a : ℚ) * 2 ^ b) with hv
  have hav : |v| = a * 2 ^ b := by rw [hv, abs_sgn, abs_of_nonneg (by positivity)]
  have hvs : v = sgn neg * |v| := by rw [hav]
  obtain ⟨d, R, nx, tiny, h, e⟩ := roundTo_code .f32 .rne false neg a b false v (Nat.pos_of_ne_zero ha)
    (by rw [Carried, if_neg (by simp), hav]; field_simp) (by simp) hvs
  have h0 : v ≠ 0 := by
    rw [← abs_pos, hav]
    exact lt_of_lt_of_le (by positivity) h1
  have hn := sgn_sign h0 hvs
  have ho : ¬ Overflows .f32 .rne v := not_overflows_of_le (by rw [hav]; exact hmax)
  have hle : d * 2 ^ (fmt .f32).mb + R ≤ (fmt .f32).maxCode := not_lt.mp ((h.overflow_iff hn).not.mpr ho)
  obtain ⟨-, g⟩ := rounded_of_int .f32 .rne neg v (d + minExp .f32) R d hvs rfl h.rounds h.full h.le_twice hle (fun h => by cases h)
  rw [e, h.code_plain hn false ho (fun h => by cases h), ← fCode_eq, g, hvs, ← mul_sub, abs_sgn]
  have hP : (0 : ℚ) < 2 ^ (d + minExp .f32) := by positivity
  have hd : |(R : ℚ) * 2 ^ (d + minExp .f32) - abs v| = |(R : ℚ) - abs v / 2 ^ (d + minExp .f32)| * 2 ^ (d + minExp .f32) := by
    conv_rhs => rw [← abs_of_pos hP, ← abs_mul, abs_of_pos hP, sub_mul, div_mul_cancel₀ _ hP.ne']
  have hq : d + minExp .f32 ≤ ulpOf K := by
    by_cases h0 : d = 0
    · subst h0
      have : minExp .f32 = -149 := by decide
      unfold ulpOf; omega
    · have hf := (le_div_iff₀ hP).mp (h.full h0)
      rw [hav, Nat.cast_pow, Nat.cast_two, ← zpow_natCast, ← zpow_add₀ (by norm_num)] at hf
      have := (zpow_lt_zpow_iff_right₀ (by norm_num : (1 : ℚ) < 2)).mp (hf.trans_lt h2)
      have : (fmt .f32).mb = 23 := rfl
      unfold ulpOf; omega
  have hr : |(R : ℚ) - |v| / 2 ^ (d + minExp .f32)| ≤ 1 / 2 := h.rounds.1
  rw [hd]
  calc _ ≤ 1 / 2 * (2 : ℚ) ^ (d + minExp .f32) := mul_le_mul_of_nonneg_right hr hP.le
    _ ≤ 1 / 2 * (2 : ℚ) ^ ulpOf K := mul_le_mul_of_nonneg_left (zpow_le_zpow_right₀ (by norm_num) hq) (by norm_num)
    _ = 2 ^ (ulpOf K - 1) := by rw [zpow_sub_one₀ (by norm_num)]; ring

/-- What `within` says. -/
theorem within_near {neg xneg : Bool} {m a k : Nat} {e b u : Int} (h : within neg m e xneg a b k u = true) {ξ : ℚ}
    (h1 : (a : ℚ) * 2 ^ b ≤ ξ) (h2 : ξ ≤ (a + 2) * 2 ^ b) : |sgn neg * (m * 2 ^ e) - sgn xneg * ξ| ≤ k * 2 ^ u := by
  set lo := min (min e b) u with hlo
  have hU : (0 : ℚ) < 2 ^ lo := by positivity
  have l1 : lo ≤ e := (min_le_left _ _).trans (min_le_left _ _)
  have l2 : lo ≤ b := (min_le_left _ _).trans (min_le_right _ _)
  have l3 : lo ≤ u := min_le_right _ _
  rw [scale_to l2 a] at h1
  rw [show (a : ℚ) + 2 = ((a + 2 : Nat) : ℚ) by push_cast; rfl, scale_to l2] at h2
  rw [scale_to l3, unitsOf_eq l1]
  have hw : (if xneg then -((a <<< (b - lo).toNat : Nat) : Int) else (((a + 2) <<< (b - lo).toNat : Nat) : Int)) - ((k <<< (u - lo).toNat : Nat) : Int) ≤
      unitsOf neg m e lo ∧ unitsOf neg m e lo ≤
      (if xneg then -(((a + 2) <<< (b - lo).toNat : Nat) : Int) else ((a <<< (b - lo).toNat : Nat) : Int)) + ((k <<< (u - lo).toNat : Nat) : Int) := by
    have h' := h
    unfold within at h'
    rw [Bool.and_eq_true, decide_eq_true_eq, decide_eq_true_eq] at h'
    exact h'
  generalize unitsOf neg m e lo = c at hw ⊢
  generalize a <<< (b - lo).toNat = x at h1 hw
  generalize (a + 2) <<< (b - lo).toNat = y at h2 hw
  generalize k <<< (u - lo).toNat = d at hw ⊢
  obtain ⟨w1, w2⟩ := hw
  have c1 : (if xneg then -(x : ℚ) else y) - d ≤ c := by cases xneg <;> exact_mod_cast w1
  have c2 : (c : ℚ) ≤ (if xneg then -(y : ℚ) else x) + d := by cases xneg <;> exact_mod_cast w2
  rw [abs_le]
  cases xneg with
  | false =>
    simp only [sgn, Bool.false_eq_true, if_false, one_mul] at c1 c2 ⊢
    constructor <;> nlinarith
  | true =>
    simp only [sgn, if_true, neg_mul, one_mul] at c1 c2 ⊢
    constructor <;> nlinarith

/-- A result that `approxF32` takes for a number between ± a · 2^b and ± (a+1) · 2^b: a proposal within a unit, or that number rounded. -/
def TakenFor (r : Nat) (neg : Bool) (a : Nat) (b : Int) : Prop :=
  (∃ cn cm ce, r < 2 ^ 32 ∧ fDecode .f32 r = .fin cn cm ce ∧ within cn cm ce neg a b 1 (ulpExp a b) = true) ∨
    r = (roundTo .f32 .rne false neg a b false).1

theorem log2_of_binade {a : Nat} {b K : Int} (h1 : (2 : ℚ) ^ K ≤ a * 2 ^ b) (h2 : (a : ℚ) * 2 ^ b < 2 ^ (K + 1)) (ha : a ≠ 0) :
    (Nat.log2 a : Int) + b = K := by
  obtain ⟨l1, l2⟩ := log2_bounds (Nat.pos_of_ne_zero ha)
  have l1q : (2 : ℚ) ^ (Nat.log2 a : Int) ≤ a := by rw [zpow_natCast]; exact_mod_cast l1
  have l2q : (a : ℚ) < 2 ^ ((Nat.log2 a : Int) + 1) := by
    rw [← Nat.cast_succ, zpow_natCast]; exact_mod_cast l2
  have hb : (0 : ℚ) < 2 ^ b := by positivity
  have lt := fun {p q : Int} => (zpow_lt_zpow_iff_right₀ (by norm_num : (1 : ℚ) < 2) (m := p) (n := q)).mp
  have c1 : (Nat.log2 a : Int) + b < K + 1 := lt (by rw [zpow_add₀ (by norm_num)]; exact (mul_le_mul_of_nonneg_right l1q hb.le).trans_lt h2)
  have c2 : K < (Nat.log2 a : Int) + 1 + b := lt (by rw [zpow_add₀ (by norm_num) _ b]; exact h1.trans_lt (mul_lt_mul_of_pos_right l2q hb))
  omega

theorem TakenFor.near {r : Nat} {neg : Bool} {a : Nat} {b K : Int} (h : TakenFor r neg a b) (ha : a ≠ 0)
    (h1 : (2 : ℚ) ^ K ≤ a * 2 ^ b)
    (h2 : (a : ℚ) * 2 ^ b < 2 ^ (K + 1)) (hb : b ≤ ulpOf K - 1) (hmax : (a : ℚ) * 2 ^ b ≤ fpValue .f32 (fmt .f32).maxCode) {ξ : ℚ}
    (x1 : (a : ℚ) * 2 ^ b ≤ ξ) (x2 : ξ ≤ (a + 1) * 2 ^ b) : |fpValue .f32 r - sgn neg * ξ| ≤ 2 ^ ulpOf K := by
  have hB : (0 : ℚ) < 2 ^ b := by positivity
  obtain ⟨cn, cm, ce, hr, hd, hw⟩ | rfl := h
  · have hv : fpValue .f32 r = sgn cn * (cm * 2 ^ ce) := by
      have hc := codeView (t := .f32) (x := r) hr
      rw [hd] at hc
      cases hc
      assumption
    have hu : ulpExp a b = ulpOf K := by unfold ulpExp ulpOf; rw [log2_of_binade h1 h2 ha]
    rw [hu] at hw
    have := within_near hw x1 (x2.trans (mul_le_mul_of_nonneg_right (by linarith) hB.le))
    rw [hv]
    simpa using this
  · have hn := roundTo_near (neg := neg) ha h1 h2 hmax
    have hx : |sgn neg * (a * 2 ^ b) - sgn neg * ξ| ≤ 2 ^ (ulpOf K - 1) := by
      rw [← mul_sub, abs_sgn, abs_sub_comm, abs_of_nonneg (by linarith)]
      have : (2 : ℚ) ^ b ≤ 2 ^ (ulpOf K - 1) := zpow_le_zpow_right₀ (by norm_num) hb
      linarith
    calc _ ≤ |fpValue .f32 (roundTo .f32 .rne false neg a b false).1 - sgn neg * (a * 2 ^ b)| + |sgn neg * (a * 2 ^ b) - sgn neg * ξ| :=
          abs_sub_le _ _ _
      _ ≤ 2 ^ (ulpOf K - 1) + 2 ^ (ulpOf K - 1) := add_le_add hn hx
      _ = 2 ^ ulpOf K := by rw [zpow_sub_one₀ (by norm_num)]; ring

theorem approxF32_rcp {bits m : Nat} {neg : Bool} {e : Int} (ha : 2 ^ 128 / m ≠ 0) :
    let r := (approxF32 .rcp bits neg m e).1
    (m = 2 ^ Nat.log2 m ∧ r = (roundTo .f32 .rne false neg 1 (-((Nat.log2 m : Int) + e)) false).1) ∨ TakenFor r neg (2 ^ 128 / m) (-e - 128) := by
  unfold approxF32
  simp only [approxExact, ha, if_false]
  split
  · next h =>
    rw [Bool.and_eq_true, beq_iff_eq] at h
    exact .inl ⟨h.1, rfl⟩
  · right
    split
    · next cn cm ce hd =>
      split
      · next h =>
        rw [Bool.and_eq_true] at h
        exact .inl ⟨cn, cm, ce, BitVec.isLt _, hd, h.1⟩
      · exact .inr rfl
    · exact .inr rfl

theorem approxF32_rsq {bits m : Nat} {e : Int} (ha : isqrt (2 ^ 256 / (if e % 2 != 0 then 2 * m else m)) ≠ 0) :
    let r := (approxF32 .rsq bits false m e).1
    (m = 2 ^ Nat.log2 m ∧ ((Nat.log2 m : Int) + e) % 2 = 0 ∧ r = (roundTo .f32 .rne false false 1 (-(((Nat.log2 m : Int) + e) / 2)) false).1) ∨
      TakenFor r false (isqrt (2 ^ 256 / (if e % 2 != 0 then 2 * m else m))) (-128 - (if e % 2 != 0 then e - 1 else e) / 2) := by
  unfold approxF32
  simp only [approxExact, ha, if_false]
  generalize isqrt (2 ^ 256 / if (e % 2 != 0) = true then 2 * m else m) = a
  generalize -128 - (if (e % 2 != 0) = true then e - 1 else e) / 2 = b
  split
  · next h =>
    rw [Bool.and_eq_true, beq_iff_eq, beq_iff_eq] at h
    exact .inl ⟨h.1, h.2, rfl⟩
  · right
    split
    · next cn cm ce hd =>
      split
      · next h =>
        rw [Bool.and_eq_true] at h
        exact .inl ⟨cn, cm, ce, BitVec.isLt _, hd, h.1⟩
      · exact .inr rfl
    · exact .inr rfl

/-- A long integer part lies in the binade of its number, and its unit is far below the unit in the last place there. -/
theorem floor_binade {a : Nat} {b K : Int} (h1 : (2 : ℚ) ^ K < (a + 1) * 2 ^ b) (h2 : (a : ℚ) * 2 ^ b < 2 ^ (K + 1))
    (ha : 2 ^ 104 ≤ a) :
    (2 : ℚ) ^ K ≤ a * 2 ^ b ∧ b ≤ ulpOf K - 1 := by
  have hB : (0 : ℚ) < 2 ^ b := by positivity
  have haq : (2 : ℚ) ^ (104 : Int) ≤ a := by exact_mod_cast ha
  have hj : 104 + b < K + 1 := (zpow_lt_zpow_iff_right₀ (by norm_num : (1 : ℚ) < 2)).mp (by
    rw [zpow_add₀ (by norm_num)]
    exact (mul_le_mul_of_nonneg_right haq hB.le).trans_lt h2)
  obtain ⟨j, hK⟩ : ∃ j : Nat, K = j + b := ⟨(K - b).toNat, by omega⟩
  subst hK
  rw [zpow_add₀ (by norm_num), zpow_natCast] at h1 ⊢
  have h3 : (2 : ℚ) ^ j < ((a + 1 : Nat) : ℚ) := by push_cast; exact lt_of_mul_lt_mul_right h1 hB.le
  have h4 : 2 ^ j < a + 1 := by exact_mod_cast h3
  have h5 : (2 : ℚ) ^ j ≤ a := by exact_mod_cast Nat.lt_succ_iff.mp h4
  exact ⟨mul_le_mul_of_nonneg_right h5 hB.le, by unfold ulpOf; omega⟩

theorem f32_max : fpValue .f32 (fmt .f32).maxCode = (2 ^ 24 - 1) * 2 ^ 104 := by
  rw [fpValue_max]
  norm_num [magValue, fmt]

/-- An f32 above 2^-128 has its reciprocal in the range. -/
theorem inv_le_max {x : Nat} (h : (2 : ℚ) ^ (-128 : Int) < |fpValue .f32 x|) :
    |fpValue .f32 x|⁻¹ ≤ fpValue .f32 (fmt .f32).maxCode := by
  obtain ⟨i, hi⟩ := fpValue_units .f32 x
  have hm : minExp .f32 = -149 := by decide
  rw [hm] at hi
  have hP : (0 : ℚ) < 2 ^ (-149 : Int) := by positivity
  rw [hi, abs_mul, abs_of_pos hP] at h ⊢
  have h21 : (2 : ℚ) ^ (-128 : Int) = 2 ^ 21 * 2 ^ (-149 : Int) := by norm_num
  rw [h21] at h
  have h1 : ((2 ^ 21 : Int) : ℚ) < ((|i| : Int) : ℚ) := by push_cast; exact lt_of_mul_lt_mul_right h hP.le
  have h2 : (2 : ℚ) ^ 21 + 1 ≤ |(i : ℚ)| := by exact_mod_cast Int.cast_lt.mp h1
  have h3 : (2 ^ 21 + 1) * (2 : ℚ) ^ (-149 : Int) ≤ |(i : ℚ)| * 2 ^ (-149 : Int) := mul_le_mul_of_nonneg_right h2 hP.le
  refine (inv_anti₀ (by positivity) h3).trans ?_
  rw [f32_max]
  norm_num

theorem frcp_bound {rm : RMode} {x : Nat} {K : Int} (hx : IsFinite .f32 x) (h128 : (2 : ℚ) ^ (-128 : Int) < |fpValue .f32 x|)
    (h1 : (2 : ℚ) ^ K ≤ |(fpValue .f32 x)⁻¹|) (h2 : |(fpValue .f32 x)⁻¹| < 2 ^ (K + 1)) :
    |fpValue .f32 (fApprox .f32 rm .rcp x).1 - (fpValue .f32 x)⁻¹| ≤ 2 ^ ulpOf K := by
  obtain ⟨m, e, hd, hv, hlt⟩ := fDecode_fin hx
  have hm : m ≠ 0 := by
    rintro rfl
    rw [hv] at h128
    have : (0 : ℚ) < 2 ^ (-128 : Int) := by positivity
    simp at h128
    linarith
  have hmq : (0 : ℚ) < m := by exact_mod_cast Nat.pos_of_ne_zero hm
  have hmax := inv_le_max h128
  rw [(fApprox_fin hd hm hv).2.2.2.2 rfl (.inl ⟨rfl, h128⟩)]
  set T : ℚ := (m * 2 ^ e)⁻¹ with hT
  have hT0 : 0 < T := by positivity
  have hinv : (fpValue .f32 x)⁻¹ = sgn (fSign .f32 x) * T := by
    rw [hv, mul_inv]
    congr 1
    cases fSign .f32 x <;> simp [sgn]
  have hTa : |(fpValue .f32 x)⁻¹| = T := by rw [hinv, abs_sgn, abs_of_pos hT0]
  rw [← abs_inv, hTa] at hmax
  rw [hTa] at h1 h2
  rw [hinv]
  have hlong : 2 ^ 104 ≤ 2 ^ 128 / m := by
    rw [Nat.le_div_iff_mul_le (Nat.pos_of_ne_zero hm)]
    have : m ≤ 2 ^ 24 := hlt.le
    calc 2 ^ 104 * m ≤ 2 ^ 104 * 2 ^ 24 := Nat.mul_le_mul_left _ this
      _ = 2 ^ 128 := by norm_num
  have ha : 2 ^ 128 / m ≠ 0 := (lt_of_lt_of_le (by positivity) hlong).ne'
  obtain ⟨hp, hr⟩ | hr := approxF32_rcp (bits := (fRound .f32 .rne false (.fin (fSign .f32 x) m e)).1) (neg := fSign .f32 x) (e := e) ha
  · have hT1 : T = (1 : Nat) * 2 ^ (-((Nat.log2 m : Int) + e)) := by
      rw [hT, zpow_neg, zpow_add₀ (by norm_num), zpow_natCast, Nat.cast_one, one_mul]
      congr 2
      exact_mod_cast hp
    rw [hr, hT1]
    rw [hT1] at h1 h2 hmax
    refine (roundTo_near one_ne_zero h1 h2 hmax).trans ?_
    exact zpow_le_zpow_right₀ (by norm_num) (by omega)
  · have hT2 : T = (2 ^ 128 : ℚ) / m * 2 ^ (-e - 128) := by
      rw [hT, zpow_sub₀ (by norm_num), zpow_neg, mul_inv]
      field_simp
    have t1 : ((2 ^ 128 / m : Nat) : ℚ) * 2 ^ (-e - 128) ≤ T := by
      rw [hT2]
      refine mul_le_mul_of_nonneg_right ?_ (by positivity)
      rw [le_div_iff₀ hmq]
      exact_mod_cast Nat.div_mul_le_self _ _
    have t2 : T < ((2 ^ 128 / m : Nat) + 1) * (2 : ℚ) ^ (-e - 128) := by
      rw [hT2]
      refine mul_lt_mul_of_pos_right ?_ (by positivity)
      rw [div_lt_iff₀ hmq]
      exact_mod_cast (Nat.div_lt_iff_lt_mul (Nat.pos_of_ne_zero hm)).mp (Nat.lt_succ_self _)
    obtain ⟨b1, b2⟩ := floor_binade (h1.trans_lt t2) (t1.trans_lt h2) hlong
    exact hr.near ha b1 (t1.trans_lt h2) b2 (t1.trans hmax) t1 t2.le

/-- A result near both bounds of a root, by squares. -/
theorem root_bounds {k : Int} {w A B r : ℚ} (hB : (2 : ℚ) ^ k ≤ B) (h1 : A ^ 2 ≤ r) (h2 : r ≤ B ^ 2) (wA : |w - A| ≤ 2 ^ (k - 23))
    (wB : |w - B| ≤ 2 ^ (k - 23)) : (2 : ℚ) ^ (k - 23) ≤ w ∧ (w - 2 ^ (k - 23)) ^ 2 ≤ r ∧ r ≤ (w + 2 ^ (k - 23)) ^ 2 := by
  have hU : (0 : ℚ) < 2 ^ (k - 23) := by positivity
  have h2U : 2 * (2 : ℚ) ^ (k - 23) ≤ 2 ^ k := by
    rw [← zpow_one_add₀ (by norm_num)]
    exact zpow_le_zpow_right₀ (by norm_num) (by omega)
  obtain ⟨a1, a2⟩ := abs_le.mp wA
  obtain ⟨b1, b2⟩ := abs_le.mp wB
  have hw : (2 : ℚ) ^ (k - 23) ≤ w := by linarith
  exact ⟨hw, (pow_le_pow_left₀ (by linarith) (by linarith) 2).trans h1, h2.trans (pow_le_pow_left₀ (by linarith) (by linarith) 2)⟩

/-- The integer root of a long quotient bounds the reciprocal root. -/
theorem isqrt_bounds {n : Nat} (hn : 0 < n) (κ : Int) (hκ : κ % 2 = 0) :
    (((isqrt (2 ^ 256 / n) : Nat) : ℚ) * 2 ^ (-128 - κ / 2)) ^ 2 ≤ ((n : ℚ) * 2 ^ κ)⁻¹ ∧
    ((n : ℚ) * 2 ^ κ)⁻¹ < ((((isqrt (2 ^ 256 / n) : Nat) : ℚ) + 1) * 2 ^ (-128 - κ / 2)) ^ 2 := by
  have hnq : (0 : ℚ) < n := by exact_mod_cast hn
  have hv : ((n : ℚ) * 2 ^ κ)⁻¹ = (2 ^ 256 : ℚ) / n * (2 ^ (-128 - κ / 2)) ^ 2 := by
    rw [← zpow_natCast _ 2, ← zpow_mul, mul_inv, ← zpow_neg, div_mul_eq_mul_div, ← zpow_natCast _ 256, ← zpow_add₀ (by norm_num), mul_comm,
      ← div_eq_mul_inv]
    congr 2
    push_cast; omega
  have h1 := Nat.sqrt_le (2 ^ 256 / n)
  have h2 := Nat.lt_succ_sqrt (2 ^ 256 / n)
  rw [hv, isqrt_eq, mul_pow, mul_pow]
  generalize Nat.sqrt (2 ^ 256 / n) = a at h1 h2 ⊢
  have hP : (0 : ℚ) < (2 ^ (-128 - κ / 2)) ^ 2 := by positivity
  constructor
  · refine mul_le_mul_of_nonneg_right ?_ hP.le
    rw [le_div_iff₀ hnq]
    have : a ^ 2 * n ≤ 2 ^ 256 := by rw [sq]; exact (Nat.le_div_iff_mul_le hn).mp h1
    exact_mod_cast this
  · refine mul_lt_mul_of_pos_right ?_ hP
    rw [div_lt_iff₀ hnq]
    have : 2 ^ 256 < (a + 1) ^ 2 * n := by rw [sq]; exact (Nat.div_lt_iff_lt_mul hn).mp h2
    exact_mod_cast this

theorem four_zpow (k : Int) : (4 : ℚ) ^ k = (2 ^ k) ^ 2 := by
  rw [show (4 : ℚ) = 2 ^ 2 by norm_num, ← zpow_natCast, ← zpow_natCast, ← zpow_mul, ← zpow_mul, mul_comm]

theorem parity_scale (m : Nat) (e : Int) :
    (m : ℚ) * 2 ^ e = ((if e % 2 != 0 then 2 * m else m : Nat) : ℚ) * (2 : ℚ) ^ (if e % 2 != 0 then e - 1 else e) := by
  split
  · rw [zpow_sub_one₀ (by norm_num)]; push_cast; ring
  · rfl

theorem sq_zpow (k : Int) : ((2 : ℚ) ^ k) ^ 2 = 2 ^ (2 * k) := by
  rw [← zpow_natCast, ← zpow_mul, mul_comm]; rfl

/-- The binade of a reciprocal root. -/
theorem root_binade {v : ℚ} {k : Int} (v0 : 0 < v) (v1 : (2 : ℚ) ^ (-149 : Int) ≤ v) (v2 : v ≤ fpValue .f32 (fmt .f32).maxCode)
    (h1 : ((2 : ℚ) ^ k) ^ 2 ≤ v⁻¹) (h2 : v⁻¹ < ((2 : ℚ) ^ (k + 1)) ^ 2) : ulpOf k = k - 23 ∧ (2 : ℚ) ^ (k + 1) ≤ fpValue .f32 (fmt .f32).maxCode := by
  rw [sq_zpow] at h1 h2
  rw [f32_max] at v2 ⊢
  have lo : (2 : ℚ) ^ (-128 : Int) ≤ v⁻¹ := by
    rw [le_inv_comm₀ (by positivity) v0]
    exact v2.trans (by norm_num)
  have hi : v⁻¹ ≤ (2 : ℚ) ^ (149 : Int) := by
    rw [inv_le_comm₀ v0 (by positivity)]
    exact le_trans (by norm_num) v1
  have i1 := (zpow_lt_zpow_iff_right₀ (by norm_num : (1 : ℚ) < 2)).mp (lo.trans_lt h2)
  have i2 := (zpow_le_zpow_iff_right₀ (by norm_num : (1 : ℚ) < 2)).mp (h1.trans hi)
  refine ⟨by unfold ulpOf; omega, (zpow_le_zpow_right₀ (by norm_num) (show k + 1 ≤ 75 by omega)).trans ?_⟩
  norm_num

/-- A result taken for the reciprocal root of n · 2^κ. -/
theorem TakenFor.root {r n : Nat} {κ k : Int} (hn : 0 < n) (hlt : n ≤ 2 ^ 25) (hκ : κ % 2 = 0)
    (hr : TakenFor r false (isqrt (2 ^ 256 / n)) (-128 - κ / 2))
    (h1 : ((2 : ℚ) ^ k) ^ 2 ≤ ((n : ℚ) * 2 ^ κ)⁻¹) (h2 : ((n : ℚ) * 2 ^ κ)⁻¹ < ((2 : ℚ) ^ (k + 1)) ^ 2) (hk : ulpOf k = k - 23)
    (hmax : (2 : ℚ) ^ (k + 1) ≤ fpValue .f32 (fmt .f32).maxCode) :
    (2 : ℚ) ^ (k - 23) ≤ fpValue .f32 r ∧ (fpValue .f32 r - 2 ^ (k - 23)) ^ 2 ≤ ((n : ℚ) * 2 ^ κ)⁻¹ ∧
      ((n : ℚ) * 2 ^ κ)⁻¹ ≤ (fpValue .f32 r + 2 ^ (k - 23)) ^ 2 := by
  obtain ⟨r1, r2⟩ := isqrt_bounds hn κ hκ
  have hlong : 2 ^ 104 ≤ isqrt (2 ^ 256 / n) := by
    rw [isqrt_eq, Nat.le_sqrt, Nat.le_div_iff_mul_le hn]
    calc 2 ^ 104 * 2 ^ 104 * n ≤ 2 ^ 104 * 2 ^ 104 * 2 ^ 25 := Nat.mul_le_mul_left _ hlt
      _ ≤ 2 ^ 256 := by norm_num
  generalize isqrt (2 ^ 256 / n) = a at hr r1 r2 hlong
  have ha : a ≠ 0 := (lt_of_lt_of_le (by positivity) hlong).ne'
  generalize -128 - κ / 2 = b at hr r1 r2
  have hB : (0 : ℚ) < 2 ^ b := by positivity
  have c1 : (2 : ℚ) ^ k < (a + 1) * 2 ^ b := lt_of_pow_lt_pow_left₀ 2 (by positivity) (h1.trans_lt r2)
  have c2 : (a : ℚ) * 2 ^ b < 2 ^ (k + 1) := lt_of_pow_lt_pow_left₀ 2 (by positivity) (r1.trans_lt h2)
  obtain ⟨b1, b2⟩ := floor_binade c1 c2 hlong
  have near := fun {ξ} => hr.near (ξ := ξ) ha b1 c2 b2 (c2.le.trans hmax)
  have hab : (a : ℚ) * 2 ^ b ≤ (a + 1) * 2 ^ b := mul_le_mul_of_nonneg_right (by linarith) hB.le
  have n1 := near le_rfl hab
  have n2 := near hab le_rfl
  rw [hk] at n1 n2
  simp only [sgn, Bool.false_eq_true, if_false, one_mul] at n1 n2
  exact root_bounds c1.le r1 r2.le n1 n2

/-- An exact reciprocal root, rounded. -/
theorem exact_root {p k : Int} (hp : p % 2 = 0) (h1 : ((2 : ℚ) ^ k) ^ 2 ≤ (2 ^ p)⁻¹)
    (h2 : ((2 : ℚ) ^ p)⁻¹ < ((2 : ℚ) ^ (k + 1)) ^ 2)
    (hk : ulpOf k = k - 23) (hmax : (2 : ℚ) ^ (k + 1) ≤ fpValue .f32 (fmt .f32).maxCode) :
    let w := fpValue .f32 (roundTo .f32 .rne false false 1 (-(p / 2)) false).1
    (2 : ℚ) ^ (k - 23) ≤ w ∧ (w - 2 ^ (k - 23)) ^ 2 ≤ (2 ^ p)⁻¹ ∧ ((2 : ℚ) ^ p)⁻¹ ≤ (w + 2 ^ (k - 23)) ^ 2 := by
  intro w
  have hA : ((2 : ℚ) ^ p)⁻¹ = (((1 : Nat) : ℚ) * 2 ^ (-(p / 2))) ^ 2 := by
    rw [Nat.cast_one, one_mul, sq_zpow, ← zpow_neg]
    congr 1; omega
  rw [hA] at h1 h2 ⊢
  have c1 := le_of_sq_le_sq h1 (by positivity)
  have c2 := lt_of_pow_lt_pow_left₀ 2 (by positivity) h2
  have hn := roundTo_near (neg := false) one_ne_zero c1 c2 (c2.le.trans hmax)
  rw [hk] at hn
  have hn : |w - ((1 : Nat) : ℚ) * 2 ^ (-(p / 2))| ≤ 2 ^ (k - 23) := by
    refine le_trans ?_ (hn.trans (zpow_le_zpow_right₀ (by norm_num) (by omega)))
    simp [w, sgn]
  exact root_bounds c1 le_rfl le_rfl hn hn

theorem frsq_bound {rm : RMode} {x : Nat} {k : Int} (hx : IsFinite .f32 x) (h0 : 0 < fpValue .f32 x)
    (h1 : (4 : ℚ) ^ k ≤ (fpValue .f32 x)⁻¹) (h2 : (fpValue .f32 x)⁻¹ < 4 ^ (k + 1)) :
    (2 : ℚ) ^ (k - 23) ≤ fpValue .f32 (fApprox .f32 rm .rsq x).1 ∧
      (fpValue .f32 (fApprox .f32 rm .rsq x).1 - 2 ^ (k - 23)) ^ 2 ≤ (fpValue .f32 x)⁻¹ ∧
      (fpValue .f32 x)⁻¹ ≤ (fpValue .f32 (fApprox .f32 rm .rsq x).1 + 2 ^ (k - 23)) ^ 2 := by
  obtain ⟨m, e, hd, hv, hlt⟩ := fDecode_fin hx
  obtain ⟨hs, hm⟩ := pos_fin (hv ▸ h0)
  obtain ⟨v1, v2⟩ := fpValue_pos_bounds hx h0
  rw [hs] at hd hv
  rw [(fApprox_fin hd hm hv).2.2.2.2 rfl (.inr ⟨rfl, rfl⟩)]
  rw [four_zpow] at h1 h2
  obtain ⟨hk, hmax⟩ := root_binade h0 v1 v2 h1 h2
  have hv1 : fpValue .f32 x = m * 2 ^ e := by rw [hv]; simp [sgn]
  have hn : 0 < (if e % 2 != 0 then 2 * m else m) := by split <;> omega
  have hn25 : (if e % 2 != 0 then 2 * m else m) ≤ 2 ^ 25 := by
    have : m < 2 ^ 24 := hlt
    split <;> omega
  have hκ : (if e % 2 != 0 then e - 1 else e) % 2 = 0 := by
    split
    · next h => simp only [bne_iff_ne] at h; omega
    · next h => simpa using h
  have hlong : isqrt (2 ^ 256 / (if e % 2 != 0 then 2 * m else m)) ≠ 0 := by
    rw [isqrt_eq, Ne, Nat.sqrt_eq_zero, ← Ne, ← Nat.pos_iff_ne_zero]
    exact Nat.div_pos (hn25.trans (Nat.pow_le_pow_right (by norm_num) (by norm_num))) hn
  obtain ⟨hp, he, hr⟩ | hr := approxF32_rsq (bits := (fRound .f32 .rne false (.fin false m e)).1) hlong
  · have hvp : fpValue .f32 x = 2 ^ ((Nat.log2 m : Int) + e) := by
      rw [hv1, zpow_add₀ (by norm_num), zpow_natCast]
      congr 1
      exact_mod_cast hp
    rw [hr]
    rw [hvp] at h1 h2 ⊢
    exact exact_root he h1 h2 hk hmax
  · rw [hv1, parity_scale] at h1 h2 ⊢
    exact hr.root hn hn25 hκ h1 h2 hk hmax

end Sys2Proof.Machine
end

section
/-! PROOFS. The floating-point instructions (O10). -/

namespace Sys2Proof.Machine

/-! ### The floating-point instructions (R75, R86) -/

/-- Each takes the course of `floating` with the results of its rule. -/
theorem fpRules_exec {d x y : Opnd} {ty src : ETy} {satBit : Bool} {i : Instr} {n : Nat} {f : RMode → Row → Row → Row → Row × Exc}
    (h : (i, n, f) ∈ fpRules d x y ty src satBit) (s : State) : exec i s = floating i n f s := by
  simp only [fpRules, List.mem_cons, Prod.mk.injEq, List.not_mem_nil, or_false] at h
  rcases h with ⟨rfl, rfl, rfl⟩ | ⟨rfl, rfl, rfl⟩ | ⟨rfl, rfl, rfl⟩ | ⟨rfl, rfl, rfl⟩ | ⟨rfl, rfl, rfl⟩ | ⟨rfl, rfl, rfl⟩ | ⟨rfl, rfl, rfl⟩ |
    ⟨rfl, rfl, rfl⟩ | ⟨rfl, rfl, rfl⟩ | ⟨rfl, rfl, rfl⟩ | ⟨rfl, rfl, rfl⟩ | ⟨rfl, rfl, rfl⟩ | ⟨rfl, rfl, rfl⟩ | ⟨rfl, rfl, rfl⟩ |
    ⟨rfl, rfl, rfl⟩ | ⟨rfl, rfl, rfl⟩ | ⟨rfl, rfl, rfl⟩ | ⟨rfl, rfl, rfl⟩ | ⟨rfl, rfl, rfl⟩ | ⟨rfl, rfl, rfl⟩ | ⟨rfl, rfl, rfl⟩ |
    ⟨rfl, rfl, rfl⟩ <;> rfl

/-- What `floating` does with the results: flags and completion, or the trap. -/
theorem floating_results {i : Instr} {n : Nat} {f : RMode → Row → Row → Row → Row × Exc} {s : State} {e : BEnt} {a : AOps} (h : ReadyA i s e a) :
    let r := f (fpmMode (fpmOf s.core e)) (oldD s e a) (argA s e a 0) (argA s e a 1)
    (excEnabled (modeFor s.core e) r.2 = false →
      ∃ t, floating i n f s = .next t ∧ DoneA (s.modS (fun z => { z with fpm := z.fpm ||| BitVec.ofNat 32 (r.2.bits <<< 4) })) t a r.1 n) ∧
    (excEnabled (modeFor s.core e) r.2 = true → floating i n f s = trapA s (word1Of i) 0x08 (r.2.bits <<< 9) 0) := by
  intro r
  constructor
  · intro hr
    exact ⟨_, arith_go h (if_neg (Bool.not_eq_true _ ▸ hr)), commitA_done _ _ _ _⟩
  · intro hr
    exact arith_trap h (if_pos hr)

/-! ### The obligation, a clause at a time -/

theorem excFlag_or {flag : Exc → Bool} (h : flag ∈ [Exc.nv, Exc.dz, Exc.of, Exc.uf, Exc.nx]) (a b : Exc) :
    flag (a.or b) = (flag a || flag b) := by
  simp only [List.mem_cons, List.not_mem_nil, or_false] at h
  obtain rfl | rfl | rfl | rfl | rfl := h <;> rfl

theorem excFlag_none {flag : Exc → Bool} (h : flag ∈ [Exc.nv, Exc.dz, Exc.of, Exc.uf, Exc.nx]) : flag Exc.none = false := by
  simp only [List.mem_cons, List.not_mem_nil, or_false] at h
  obtain rfl | rfl | rfl | rfl | rfl := h <;> rfl

/-- Settles O10: a clause at a time. Rounding by `roundTo_roundsTo` (its magnitude `RoundedAs`, its limits `RoundsPast`), roots by
`StandsFor`, special operands by `CodeView`, the order by `fCmp_place`, the approximations by `TakenFor`. -/
theorem floatingPointResults : Obligations.FloatingPointResults := by
  unfold Obligations.FloatingPointResults
  refine ⟨?_, ?_, ?_, ?_, ?_, ?_, ?_⟩
  · intro d x y ty src satBit i n f s e a hi h
    rw [fpRules_exec hi]
    exact floating_results h
  · intro t rm ht
    exact ⟨fun x y z r v hx hy hz => exactRules_roundsTo hx hy hz, fun src satBit x _ hx => fConvert_roundsTo hx, fun i => intToF_roundsTo,
      fun x ht' hx => fSqrt_root ht' hx⟩
  · intro t rm x y z ht hx hy hz
    rw [← fpsWidth ht] at hx hy hz
    refine ⟨fun r l => nanResults hx hy, ?_, fun r a b => sumResults ht hx hy hz, ?_, ?_⟩
    · intro r a b h hn
      simp only [macRules, List.mem_cons, Prod.mk.injEq, List.not_mem_nil, or_false] at h
      obtain ⟨rfl, -, -⟩ | ⟨rfl, -, -⟩ := h
      · exact fMac_nan false hx hy hz hn
      · exact fMac_nan true hx hy hz hn
    · intro hn
      obtain ⟨m1, m2, m3⟩ := mulResults (rm := rm) ht hx hy hn
      exact ⟨m1, m2, m3, divResults ht hx hy hn⟩
    · obtain ⟨s1, s2, s3⟩ := sqrtResults (rm := rm) ht hx
      exact ⟨s1, s2, s3, intToF_zero t rm⟩
  · intro t x y ht hx hy
    rw [← fpsWidth ht] at hx hy
    refine ⟨fun less => ?_, fun op holds => fCompare_num hx hy⟩
    obtain ⟨n1, n2, n3, n4, n5⟩ := fMinMax_nan hx hy less
    exact ⟨n4, n5, n1, n2, n3, fun nx ny => fMinMax_num hx hy nx ny less⟩
  · intro t src rm satBit x hx
    refine ⟨fun ht hs => ?_, fun ht hs => ?_⟩
    · rw [← fpsWidth hs] at hx
      have h := fToInt_results (t := t) (rm := rm) hx
      rw [(int_range t).1, (int_range t).2] at h
      exact h
    · rw [← floatsWidth hs] at hx
      exact fConvert_results ht hx
  · intro t rm op k v step hv r
    have hs : step = fredOp t rm op := by cases op <;> rfl
    rw [hs] at hv ⊢
    have tree {flag : Exc → Bool} (hf : flag ∈ [Exc.nv, Exc.dz, Exc.of, Exc.uf, Exc.nx]) :=
      fTree_results (fredOp t rm op) (excFlag_or hf) k v (v 0) Exc.none (fun _ _ => rfl) hv
    refine ⟨(tree (List.mem_cons_self ..)).1, fun flag hf => ?_⟩
    simpa [excFlag_none hf] using (tree hf).2
  · intro t rm x ht hx
    rw [← fpsWidth ht] at hx
    obtain ⟨nan, inf, negative, zero⟩ := approx_special (rm := rm) ht hx
    refine ⟨nan, inf, negative, zero, fun hf => (approx_ends hf).1, fun hf => (approx_ends hf).2, ?_, ?_⟩
    · rintro k rfl hf h128 h1 h2
      exact frcp_bound hf h128 h1 h2
    · rintro k rfl hf h0 h1 h2
      exact frsq_bound hf h0 h1 h2

end Sys2Proof.Machine
end

section
/-! PROOFS. Words as numbers: sums, shifts, comparisons and bit counts (R88, R91). -/

namespace Sys2Proof.Machine

/-! ### The word of an integer -/

theorem word_mul (a b : Word) : a * b = BitVec.ofNat 32 (a.toNat * b.toNat) := by
  rw [BitVec.ofNat_mul, BitVec.ofNat_toNat, BitVec.ofNat_toNat, BitVec.setWidth_eq, BitVec.setWidth_eq]

theorem word_sub (a b : Word) : a - b = BitVec.ofInt 32 (a.toInt - b.toInt) := by
  rw [Int.sub_eq_add_neg, BitVec.ofInt_add, BitVec.ofInt_neg, BitVec.ofInt_toInt, BitVec.ofInt_toInt, BitVec.sub_eq_add_neg]

theorem word_addi (a : Word) (k : BitVec 11) : a + k.signExtend 32 = BitVec.ofInt 32 (a.toInt + k.toInt) := by
  rw [BitVec.ofInt_add, BitVec.ofInt_toInt, BitVec.signExtend]

theorem word_shl (a : Word) (n : Nat) : a <<< n = BitVec.ofNat 32 (a.toNat * 2 ^ n) := by
  apply BitVec.eq_of_toNat_eq
  rw [BitVec.toNat_shiftLeft, BitVec.toNat_ofNat, Nat.shiftLeft_eq]

theorem word_shr (a : Word) (n : Nat) : a >>> n = BitVec.ofNat 32 (a.toNat / 2 ^ n) := by
  rw [← Nat.shiftRight_eq_div_pow, ← BitVec.toNat_ushiftRight, BitVec.ofNat_toNat, BitVec.setWidth_eq]

theorem word_sra (a : Word) (n : Nat) : a.sshiftRight n = BitVec.ofInt 32 (a.toInt / 2 ^ n) := by
  rw [BitVec.sshiftRight_eq, Int.shiftRight_eq_div_pow]
  norm_cast

theorem word_min (a b : Word) : (if a.toInt < b.toInt then a else b) = BitVec.ofInt 32 (min a.toInt b.toInt) := by
  split
  · next h => rw [min_eq_left h.le, BitVec.ofInt_toInt]
  · next h => rw [min_eq_right (not_lt.mp h), BitVec.ofInt_toInt]

theorem word_max (a b : Word) : (if a.toInt < b.toInt then b else a) = BitVec.ofInt 32 (max a.toInt b.toInt) := by
  split
  · next h => rw [max_eq_right h.le, BitVec.ofInt_toInt]
  · next h => rw [max_eq_left (not_lt.mp h), BitVec.ofInt_toInt]

theorem word_minn (a b : Word) : (if a.toNat < b.toNat then a else b) = BitVec.ofNat 32 (min a.toNat b.toNat) := by
  split
  · next h => rw [min_eq_left h.le, BitVec.ofNat_toNat, BitVec.setWidth_eq]
  · next h => rw [min_eq_right (not_lt.mp h), BitVec.ofNat_toNat, BitVec.setWidth_eq]

theorem word_maxn (a b : Word) : (if a.toNat < b.toNat then b else a) = BitVec.ofNat 32 (max a.toNat b.toNat) := by
  split
  · next h => rw [max_eq_right h.le, BitVec.ofNat_toNat, BitVec.setWidth_eq]
  · next h => rw [max_eq_left (not_lt.mp h), BitVec.ofNat_toNat, BitVec.setWidth_eq]

/-- A flag is the word 1 or 0 (R88). -/
theorem flag_decide (p : Prop) [Decidable p] : flag (decide p) = if p then 1 else 0 := by simp [flag]

theorem flag_beq (a b : Word) : flag (a == b) = if a = b then 1 else 0 := by simp [flag]

/-- Extending the immediate to a word keeps its value (R91). -/
theorem flag_slti (a : Word) (k : BitVec 11) : flag (decide (a.toInt < (k.signExtend 32).toInt)) = if a.toInt < k.toInt then 1 else 0 := by
  rw [flag_decide, BitVec.toInt_signExtend_of_le (by decide)]

/-! ### Bit counts (R88) -/

theorem length_filter_eq_sum (p : Nat → Bool) (l : List Nat) : (l.filter p).length = (l.map (fun i => (p i).toNat)).sum := by
  induction l with
  | nil => rfl
  | cons i l ih =>
    rw [List.filter_cons, List.map_cons, List.sum_cons, ← ih]
    cases p i with
    | false => simp
    | true => simp [Nat.add_comm]

theorem leadingZeros_le (x : Word) : leadingZeros x ≤ 32 := by
  unfold leadingZeros
  split <;> omega

theorem log2_word_lt {x : Word} (h : x ≠ 0) : Nat.log2 x.toNat < 32 :=
  (Nat.log2_lt (by simpa [BitVec.toNat_eq] using h)).mpr x.isLt

/-- The bits that `clz` counts are zero. -/
theorem leadingZeros_zeros (x : Word) {i : Nat} (h : 32 - leadingZeros x ≤ i) : x.getLsbD i = false := by
  unfold leadingZeros at h
  split at h
  · next h0 => rw [h0, BitVec.ofNat_eq_ofNat, BitVec.getLsbD_zero]
  · next h0 =>
    have hlog := log2_word_lt h0
    have top : x.toNat < 2 ^ i := lt_of_lt_of_le Nat.lt_log2_self (Nat.pow_le_pow_right (by decide) (by omega))
    rw [← BitVec.testBit_toNat]
    exact Nat.testBit_lt_two_pow top

/-- And below them stands a one bit. -/
theorem leadingZeros_one (x : Word) (h : leadingZeros x < 32) : x.getLsbD (31 - leadingZeros x) = true := by
  unfold leadingZeros at h ⊢
  split at h
  · omega
  · next h0 =>
    have hlog := log2_word_lt h0
    have hx : x.toNat ≠ 0 := by simpa [BitVec.toNat_eq] using h0
    rw [if_neg h0, show 31 - (31 - Nat.log2 x.toNat) = Nat.log2 x.toNat by omega, ← BitVec.testBit_toNat]
    exact Nat.testBit_log2 hx

end Sys2Proof.Machine
end

section
/-! PROOFS. The scalar instructions, the immediate forms and the divisions (O1, O2, O3). -/

namespace Sys2Proof.Machine

/-- The instruction i is a scalar one with the function f (R23, R88). -/
def ScalarOf (i : Instr) (f : Word → Word → Word) : Prop := ∃ g, (∀ p q, g p q = f p q) ∧ ∀ s, exec i s = scalar i g s

/-- Such an instruction completes with f's word. -/
theorem scalarOf_results {i : Instr} {f : Word → Word → Word} (hm : ScalarOf i f) {s : State} {e : BEnt} {a : AOps}
    (h : ReadyA i s e a) : ∃ t, exec i s = .next t ∧ DoneA s t a (laneRow (f (argA0 s e a 0) (argA0 s e a 1))) 1 := by
  obtain ⟨g, hg, hs⟩ := hm
  rw [hs, ← hg]
  exact arith_done h rfl

/-- The table of R88, line by line. -/
theorem scalarRules_exec {d x y : Opnd} {i : Instr} {f : Word → Word → Word} (hi : (i, f) ∈ scalarRules d x y) : ScalarOf i f := by
  simp only [scalarRules, List.mem_cons, Prod.mk.injEq, List.not_mem_nil, or_false] at hi
  rcases hi with ⟨rfl, rfl⟩ | ⟨rfl, rfl⟩ | ⟨rfl, rfl⟩ | ⟨rfl, rfl⟩ | ⟨rfl, rfl⟩ | ⟨rfl, rfl⟩ | ⟨rfl, rfl⟩ | ⟨rfl, rfl⟩ | ⟨rfl, rfl⟩ |
    ⟨rfl, rfl⟩ | ⟨rfl, rfl⟩ | ⟨rfl, rfl⟩ | ⟨rfl, rfl⟩ | ⟨rfl, rfl⟩ | ⟨rfl, rfl⟩ | ⟨rfl, rfl⟩ | ⟨rfl, rfl⟩ | ⟨rfl, rfl⟩
  · exact ⟨_, BitVec.add_def, exec_add d x y⟩
  · exact ⟨_, word_sub, exec_sub d x y⟩
  · exact ⟨_, word_mul, exec_mul d x y⟩
  · exact ⟨_, fun _ _ => rfl, exec_mulh d x y⟩
  · exact ⟨_, fun _ _ => rfl, exec_mulhn d x y⟩
  · exact ⟨_, fun _ _ => rfl, exec_and d x y⟩
  · exact ⟨_, fun _ _ => rfl, exec_or d x y⟩
  · exact ⟨_, fun _ _ => rfl, exec_xor d x y⟩
  · exact ⟨_, fun p q => word_shl p (q.toNat % 32), exec_shl d x y⟩
  · exact ⟨_, fun p q => word_shr p (q.toNat % 32), exec_shr d x y⟩
  · exact ⟨_, fun p q => word_sra p (q.toNat % 32), exec_sra d x y⟩
  · exact ⟨_, word_min, exec_min d x y⟩
  · exact ⟨_, word_max, exec_max d x y⟩
  · exact ⟨_, word_minn, exec_minn d x y⟩
  · exact ⟨_, word_maxn, exec_maxn d x y⟩
  · exact ⟨_, fun p q => flag_decide (p.toInt < q.toInt), exec_slt d x y⟩
  · exact ⟨_, fun p q => flag_decide (p.toNat < q.toNat), exec_sltn d x y⟩
  · exact ⟨_, flag_beq, exec_seq d x y⟩

/-- Settles O1: the table by `scalarRules_exec`, the two bit counts by the lemmas about `leadingZeros` and `length_filter_eq_sum`. -/
theorem scalarResults : Obligations.ScalarResults := by
  unfold Obligations.ScalarResults
  refine ⟨fun d x y i f s e a hi => scalarOf_results (scalarRules_exec hi), fun d x s e a => ⟨fun h => ?_, fun h => ?_⟩⟩
  · obtain ⟨t, ht, hd⟩ := scalarOf_results ⟨_, fun _ _ => rfl, exec_clz d x⟩ h
    exact ⟨t, leadingZeros (argA0 s e a 0), ht, hd, leadingZeros_le _, fun i _ => leadingZeros_zeros _, leadingZeros_one _⟩
  · rw [← length_filter_eq_sum]
    exact scalarOf_results ⟨_, fun _ _ => rfl, exec_popc d x⟩ h

/-- The table of R91: each line is a scalar instruction that reads S1 only. -/
theorem immediateRules_exec {d x : Opnd} {k : BitVec 11} {n : BitVec 5} {i : Instr} {f : Word → Word} (hi : (i, f) ∈ immediateRules d x k n) :
    ScalarOf i (fun p _ => f p) := by
  simp only [immediateRules, List.mem_cons, Prod.mk.injEq, List.not_mem_nil, or_false] at hi
  rcases hi with ⟨rfl, rfl⟩ | ⟨rfl, rfl⟩ | ⟨rfl, rfl⟩ | ⟨rfl, rfl⟩ | ⟨rfl, rfl⟩ | ⟨rfl, rfl⟩ | ⟨rfl, rfl⟩ | ⟨rfl, rfl⟩
  · exact ⟨_, fun p _ => word_addi p k, exec_addi d x k⟩
  · exact ⟨_, fun _ _ => rfl, exec_andi d x k⟩
  · exact ⟨_, fun _ _ => rfl, exec_ori d x k⟩
  · exact ⟨_, fun _ _ => rfl, exec_xori d x k⟩
  · exact ⟨_, fun p _ => word_shl p n.toNat, exec_shli d x n⟩
  · exact ⟨_, fun p _ => word_shr p n.toNat, exec_shri d x n⟩
  · exact ⟨_, fun p _ => word_sra p n.toNat, exec_srai d x n⟩
  · exact ⟨_, fun p _ => flag_slti p k, exec_slti d x k⟩

/-- Settles O2, by `immediateRules_exec`. -/
theorem immediateResults : Obligations.ImmediateResults := by
  unfold Obligations.ImmediateResults
  intro d x k n i f s e a hi
  exact scalarOf_results (immediateRules_exec hi)

/-! ### Divisions (R89) -/

theorem divS_ne {a b : Word} (h : b ≠ 0) : divS a b = BitVec.ofInt 32 (Int.tdiv a.toInt b.toInt) := if_neg h
theorem divU_ne {a b : Word} (h : b ≠ 0) : divU a b = BitVec.ofNat 32 (a.toNat / b.toNat) := if_neg h
theorem remS_ne {a b : Word} (h : b ≠ 0) : remS a b = BitVec.ofInt 32 (Int.tmod a.toInt b.toInt) := by
  rw [remS, if_neg h, Int.tmod_def, Int.mul_comm]
theorem remU_ne {a b : Word} (h : b ≠ 0) : remU a b = BitVec.ofNat 32 (a.toNat % b.toNat) := if_neg h

/-- A division by the function q, which is f where b is not 0 and g where it is. -/
theorem divide_rule {i : Instr} {q f : Word → Word → Word} {g : Word → Word} {s : State} {e : BEnt} {a : AOps} (h : ReadyA i s e a)
    (hf : ∀ a b, b ≠ 0 → q a b = f a b) (hg : ∀ a, q a 0 = g a) :
    (argA0 s e a 1 ≠ 0 → ∃ t, divide i q s = .next t ∧ DoneA s t a (laneRow (f (argA0 s e a 0) (argA0 s e a 1))) 1) ∧
    (argA0 s e a 1 = 0 → modeDZ (modeFor s.core e) = false → ∃ t, divide i q s = .next t ∧ DoneA s t a (laneRow (g (argA0 s e a 0))) 1) ∧
    (argA0 s e a 1 = 0 → modeDZ (modeFor s.core e) = true → divide i q s = trapA s (word1Of i) 0x07 (s.core.slot.rep <<< 9) 0) := by
  have go (hb : (argA0 s e a 1 == 0 && modeDZ (modeFor s.core e)) = false) :
      ∃ t, divide i q s = .next t ∧ DoneA s t a (laneRow (q (argA0 s e a 0) (argA0 s e a 1))) 1 := arith_done h (if_neg (Bool.not_eq_true _ ▸ hb))
  refine ⟨fun hb => ?_, fun hb hm => ?_, fun hb hm => ?_⟩
  · rw [← hf _ _ hb]
    exact go (by rw [beq_false_of_ne hb, Bool.false_and])
  · rw [← hg, ← hb]
    exact go (by rw [hm, Bool.and_false])
  · have hz : (argA0 s e a 1 == 0 && modeDZ (modeFor s.core e)) = true := by rw [hb, hm]; rfl
    exact arith_trap h (if_pos hz)

/-- The four divisions (R89). -/
theorem divisionRules_exec {d x y : Opnd} {i : Instr} {f : Word → Word → Word} {g : Word → Word} (hi : (i, f, g) ∈ divisionRules d x y) :
    ∃ q : Word → Word → Word, (∀ a b, b ≠ 0 → q a b = f a b) ∧ (∀ a, q a 0 = g a) ∧ ∀ s, exec i s = divide i q s := by
  simp only [divisionRules, List.mem_cons, Prod.mk.injEq, List.not_mem_nil, or_false] at hi
  rcases hi with ⟨rfl, rfl, rfl⟩ | ⟨rfl, rfl, rfl⟩ | ⟨rfl, rfl, rfl⟩ | ⟨rfl, rfl, rfl⟩
  · exact ⟨divS, fun _ _ => divS_ne, fun _ => rfl, exec_div d x y⟩
  · exact ⟨divU, fun _ _ => divU_ne, fun _ => rfl, exec_divn d x y⟩
  · exact ⟨remS, fun _ _ => remS_ne, fun _ => rfl, exec_rem d x y⟩
  · exact ⟨remU, fun _ _ => remU_ne, fun _ => rfl, exec_remn d x y⟩

/-- Settles O3: each of the four divisions by `divide_rule`. -/
theorem divisionResults : Obligations.DivisionResults := by
  unfold Obligations.DivisionResults
  intro d x y i f g s e a hi h
  obtain ⟨q, hf, hg, hq⟩ := divisionRules_exec hi
  rw [hq]
  exact divide_rule h hf hg

end Sys2Proof.Machine
end

section
/-! PROOFS. Elements as numbers: their range, their value modulo 2^w, and the rows built from them (R65, R84). -/

namespace Sys2Proof.Machine

/-! ### Rows and their elements -/

theorem elem_lt (r : Row) (w e : Nat) : elem r w e < 2 ^ w := Nat.mod_lt _ (by positivity)

/-- Element k of a row built from the elements of a type. -/
theorem elem_typed {t : ETy} (f : Nat → Nat) {k : Nat} (h : k < t.count) : elem (rowOf t.width t.count f) t.width k = f k % 2 ^ t.width :=
  elem_rowOf _ _ _ _ h (width_mul_count t).le

/-- Where the elements given are elements of rows already, they stay. -/
theorem elem_typed_of_lt {t : ETy} {f : Nat → Nat} {k : Nat} (h : k < t.count) (hf : f k < 2 ^ t.width) :
    elem (rowOf t.width t.count f) t.width k = f k := by
  rw [elem_typed f h, Nat.mod_eq_of_lt hf]

/-- Beyond the elements given, a row is zero. -/
theorem elem_rowOf_beyond {w n e : Nat} (f : Nat → Nat) (h : n ≤ e) (hw : w * n ≤ 512) : elem (rowOf w n f) w e = 0 := by
  have small : packN w f n < 2 ^ (w * e) := (packN_lt w f n).trans_le (Nat.pow_le_pow_right (by decide) (Nat.mul_le_mul_left w h))
  unfold elem bitsAt rowOf
  rw [BitVec.toNat_ofNat, Nat.mod_eq_of_lt ((packN_lt w f n).trans_le (Nat.pow_le_pow_right (by decide) hw)),
    Nat.shiftRight_eq_div_pow, Nat.div_eq_of_lt small, Nat.zero_mod]

/-- A lane is an element of 32 bits. -/
theorem toNat_lane (r : Row) (i : Nat) : (lane r i).toNat = elem r 32 i := by
  rw [lane, BitVec.extractLsb'_toNat]; rfl

/-! ### Values modulo 2^w (R84) -/

theorem natCast_wrap (w : Nat) (i : Int) : (wrap w i : Int) = i % 2 ^ w :=
  Int.toNat_of_nonneg (Int.emod_nonneg _ (by positivity))

theorem wrap_lt (w : Nat) (i : Int) : wrap w i < 2 ^ w := by
  have h : (wrap w i : Int) < 2 ^ w := by
    rw [natCast_wrap]
    exact Int.emod_lt_of_pos _ (by positivity)
  exact_mod_cast h

/-- The element holds the low w bits of the integer i where the number it is built from does. -/
theorem elemIs_typed {t : ETy} {f : Nat → Nat} {k : Nat} {i : Int} (h : k < t.count) (hf : (f k : Int) ≡ i [ZMOD 2 ^ t.width]) :
    ElemIs t (rowOf t.width t.count f) k i := by
  unfold ElemIs
  rw [elem_typed f h]
  push_cast
  exact hf

theorem wrap_modEq (w : Nat) (i : Int) : (wrap w i : Int) ≡ i [ZMOD 2 ^ w] := by
  rw [natCast_wrap]
  exact Int.mod_modEq _ _

theorem signedVal_modEq (w x : Nat) : signedVal w x ≡ x [ZMOD 2 ^ w] := by
  have h : ((x % 2 ^ w : Nat) : Int) ≡ x [ZMOD 2 ^ w] := by
    push_cast
    exact Int.mod_modEq _ _
  unfold signedVal
  split
  · exact h
  · exact Int.sub_modulus_modEq_iff.mpr h

/-- The value of an element agrees with its bits modulo 2^w. -/
theorem val_modEq (t : ETy) (x : Nat) : val t x ≡ x [ZMOD 2 ^ t.width] := by
  unfold val
  split
  · exact signedVal_modEq _ _
  · push_cast
    exact Int.mod_modEq _ _

/-- All ones are -1 (R96). -/
theorem mask_modEq (t : ETy) (b : Bool) : (mask t b : Int) ≡ (if b then -1 else 0) [ZMOD 2 ^ t.width] := by
  cases b with
  | false => rfl
  | true =>
    have h : ((2 ^ t.width - 1 : Nat) : Int) = 2 ^ t.width - 1 := by
      rw [Nat.cast_sub Nat.one_le_two_pow]
      push_cast
      rfl
    rw [mask, if_pos rfl, h, if_pos rfl]
    exact Int.modEq_iff_dvd.mpr ⟨-1, by ring⟩

/-- Only the bits of x count for its value. -/
theorem val_congr {t : ETy} {x y : Nat} (h : x % 2 ^ t.width = y % 2 ^ t.width) : val t x = val t y := by
  unfold val signedVal
  rw [h]

/-- A value written and read back. -/
theorem val_wrap_val (t : ETy) (x : Nat) : val t (wrap t.width (val t x)) = val t x := by
  apply val_congr
  have h : (wrap t.width (val t x) : Int) ≡ x [ZMOD 2 ^ t.width] := (wrap_modEq _ _).trans (val_modEq t x)
  exact_mod_cast h

end Sys2Proof.Machine
end

section
/-! PROOFS. The element-wise integer instructions (O5). -/

namespace Sys2Proof.Machine

/-- A vector instruction completes with its row. -/
theorem vector_done {i : Instr} {f : Row → Row → Row → Row} (hi : ∀ s, exec i s = vector i f s) {s : State} {e : BEnt} {a : AOps}
    (h : ReadyA i s e a) : ∃ t, exec i s = .next t ∧ DoneA s t a (f (oldD s e a) (argA s e a 0) (argA s e a 1)) 16 := by
  rw [hi]
  exact arith_done h rfl

/-- The vector instruction i computes each element from those of S1, S2 and D: the low w bits of the integer that f gives from
their values and their bits (R95, R96). -/
def ElementsOf (i : Instr) (t : ETy) (f : Int → Int → Int → Nat → Nat → Nat → Int) : Prop :=
  ∃ g : Nat → Nat → Nat → Nat, (∀ p q r, (g p q r : Int) ≡ f (val t p) (val t q) (val t r) p q r [ZMOD 2 ^ t.width]) ∧
    ∀ s, exec i s = vector i (fun old a b => rowOf t.width t.count (fun k => g (elem a t.width k) (elem b t.width k) (elem old t.width k))) s

theorem elementsOf_results {i : Instr} {ty : ETy} {f : Int → Int → Int → Nat → Nat → Nat → Int} (hi : ElementsOf i ty f) {s : State} {e : BEnt}
    {a : AOps} (h : ReadyA i s e a) : ∃ t v, exec i s = .next t ∧ DoneA s t a v 16 ∧ ∀ k, k < ty.count →
      ElemIs ty v k (f (valAt ty (argA s e a 0) k) (valAt ty (argA s e a 1) k) (valAt ty (oldD s e a) k)
        (elem (argA s e a 0) ty.width k) (elem (argA s e a 1) ty.width k) (elem (oldD s e a) ty.width k)) := by
  obtain ⟨g, hg, hs⟩ := hi
  obtain ⟨t, ht, hd⟩ := vector_done hs h
  exact ⟨t, _, ht, hd, fun k hk => elemIs_typed hk (hg _ _ _)⟩

/-- Where the instruction is `elementwise` with a wrapped integer. -/
theorem elementsOf_wrap {i : Instr} {t : ETy} {f : Int → Int → Int → Int}
    (h : ∀ s, exec i s = elementwise i t (fun x y z => wrap t.width (f x y z)) s) : ElementsOf i t (fun x y z _ _ _ => f x y z) :=
  ⟨fun p q r => wrap t.width (f (val t p) (val t q) (val t r)), fun _ _ _ => wrap_modEq _ _, h⟩

/-- Where it is a comparison. -/
theorem elementsOf_mask {i : Instr} {t : ETy} {P : Int → Int → Prop} [∀ x y, Decidable (P x y)]
    (h : ∀ s, exec i s = elementwise i t (fun x y _ => mask t (decide (P x y))) s) :
    ElementsOf i t (fun x y _ _ _ _ => if P x y then -1 else 0) :=
  ⟨fun p q _ => mask t (decide (P (val t p) (val t q))), fun p q _ => by simpa using mask_modEq t (decide (P (val t p) (val t q))), h⟩

/-- Where it works on the bits. -/
theorem elementsOf_bits {i : Instr} {t : ETy} {g : Nat → Nat → Nat → Nat} {f : Int → Int → Int → Nat → Nat → Nat → Int}
    (h : ∀ s, exec i s = bitwise i t g s) (hg : ∀ p q r, (g p q r : Int) ≡ f (val t p) (val t q) (val t r) p q r [ZMOD 2 ^ t.width]) :
    ElementsOf i t f := ⟨g, hg, h⟩

/-- A left shift multiplies the value (R95). -/
theorem shl_modEq (t : ETy) (p d : Nat) : ((p <<< d : Nat) : Int) ≡ val t p * 2 ^ d [ZMOD 2 ^ t.width] := by
  rw [Nat.shiftLeft_eq]
  push_cast
  exact (val_modEq t p).symm.mul_right _

/-- The tables of R95 and R96, line by line. -/
theorem elementRules_exec {d x y : Opnd} {t : ETy} {i : Instr} {f : Int → Int → Int → Nat → Nat → Nat → Int}
    (hi : (i, f) ∈ elementRules d x y t) : ElementsOf i t f := by
  simp only [elementRules, List.mem_cons, Prod.mk.injEq, List.not_mem_nil, or_false] at hi
  rcases hi with ⟨rfl, rfl⟩ | ⟨rfl, rfl⟩ | ⟨rfl, rfl⟩ | ⟨rfl, rfl⟩ | ⟨rfl, rfl⟩ | ⟨rfl, rfl⟩ | ⟨rfl, rfl⟩ | ⟨rfl, rfl⟩ | ⟨rfl, rfl⟩ |
    ⟨rfl, rfl⟩ | ⟨rfl, rfl⟩ | ⟨rfl, rfl⟩ | ⟨rfl, rfl⟩ | ⟨rfl, rfl⟩ | ⟨rfl, rfl⟩ | ⟨rfl, rfl⟩ | ⟨rfl, rfl⟩ | ⟨rfl, rfl⟩ | ⟨rfl, rfl⟩
  · exact elementsOf_wrap (exec_vadd d x y t)
  · exact elementsOf_wrap (exec_vsub d x y t)
  · exact elementsOf_wrap (exec_vmul d x y t)
  · exact elementsOf_wrap (exec_vmulh d x y t)
  · exact elementsOf_wrap (exec_vmac d x y t)
  · exact elementsOf_wrap (exec_vmin d x y t)
  · exact elementsOf_wrap (exec_vmax d x y t)
  · exact elementsOf_bits (exec_vand d x y t) fun _ _ _ => rfl
  · exact elementsOf_bits (exec_vor d x y t) fun _ _ _ => rfl
  · exact elementsOf_bits (exec_vxor d x y t) fun _ _ _ => rfl
  · exact elementsOf_bits (exec_vshl d x y t) fun p q _ => shl_modEq t p (dist t q)
  · exact elementsOf_bits (exec_vshr d x y t) fun p q _ => by rw [Nat.shiftRight_eq_div_pow]; rfl
  · exact elementsOf_bits (exec_vsra d x y t) fun p q _ => wrap_modEq _ _
  · exact elementsOf_wrap (exec_vadds d x y t)
  · exact elementsOf_wrap (exec_vsubs d x y t)
  · exact elementsOf_mask (exec_vcmpeq d x y t)
  · exact elementsOf_mask (exec_vcmplt d x y t)
  · exact elementsOf_mask (exec_vcmple d x y t)
  · exact elementsOf_bits (exec_vsel d x y t) fun p q r => by split <;> rfl

/-- Settles O5, by `elementRules_exec`. -/
theorem elementwiseResults : Obligations.ElementwiseResults := by
  unfold Obligations.ElementwiseResults
  intro d x y ty i f s e a _ hi
  exact elementsOf_results (elementRules_exec hi)

end Sys2Proof.Machine
end

section
/-! PROOFS. Rearranging, changing width, running sums and dot products (O6, O7). -/

namespace Sys2Proof.Machine

/-! ### Rearranging (R95, R97, R104) -/

/-- A vector instruction whose row takes each element k from element p k of S1. -/
theorem pick_rule {i : Instr} {ty : ETy} {p : Row → Nat → Nat} {s : State} {e : BEnt} {a : AOps} (h : ReadyA i s e a)
    (hi : ∀ s, exec i s = vector i (fun _ a b => rowOf ty.width ty.count (fun k => elem a ty.width (p b k))) s) :
    ∃ t v, exec i s = .next t ∧ DoneA s t a v 16 ∧
      ∀ k, k < ty.count → elem v ty.width k = elem (argA s e a 0) ty.width (p (argA s e a 1) k) := by
  obtain ⟨t, ht, hd⟩ := vector_done hi h
  exact ⟨t, _, ht, hd, fun k hk => elem_typed_of_lt hk (elem_lt _ _ _)⟩

/-- `viota` (R104): element k is k. -/
theorem viota_rule {d : Opnd} {ty : ETy} {s : State} {e : BEnt} {a : AOps} (h : ReadyA (.viota d ty) s e a) :
    ∃ t v, exec (.viota d ty) s = .next t ∧ DoneA s t a v 16 ∧ ∀ k, k < ty.count → ElemIs ty v k k := by
  obtain ⟨t, ht, hd⟩ := vector_done (exec_viota d ty) h
  exact ⟨t, _, ht, hd, fun k hk => elemIs_typed hk rfl⟩

/-- `vabs` (R95) is element-wise. -/
theorem vabs_elements (d x : Opnd) (ty : ETy) : ElementsOf (.vabs d x ty) ty (fun x _ _ _ _ _ => |x|) := by
  have h : ElementsOf (.vabs d x ty) ty (fun x _ _ _ _ _ => x.natAbs) := elementsOf_wrap (exec_vabs d x ty)
  simpa only [Int.natCast_natAbs] using h

/-- Settles O6: `pick_rule` for the three that only move elements. -/
theorem rearrangingResults : Obligations.RearrangingResults := by
  unfold Obligations.RearrangingResults
  refine ⟨fun d x ty s e a _ h => elementsOf_results (vabs_elements d x ty) h, fun d x ty s e a _ h => ?_, fun d x y ty s e a _ h => ?_,
    fun d x n ty s e a _ h => ?_, fun d ty s e a _ h => viota_rule h⟩
  · exact pick_rule (p := fun _ _ => 0) h (exec_vbcast d x ty)
  · exact pick_rule (p := fun b k => elem b ty.width k % ty.count) h (exec_vperm d x y ty)
  · exact pick_rule (p := fun _ k => (k + n.toNat) % ty.count) h (exec_vrot d x n ty)

/-! ### Changing width (R98, R99) -/

theorem narrow_doubled {t : ETy} (h : ETy.narrow.contains t = true) : t.doubled.width = 2 * t.width := by
  cases t with
  | i8 | i16 | n8 | n16 => rfl
  | _ => cases h

theorem half_count (t : ETy) : 2 * (t.count / 2) = t.count := by cases t <;> rfl

theorem sat_modEq (t : ETy) (i : Int) : (sat t i : Int) ≡ max (tyMin t) (min (tyMax t) i) [ZMOD 2 ^ t.width] := wrap_modEq _ _

theorem exec_vnarrow_vector (d x y : Opnd) (t : ETy) (s : State) : exec (.vnarrow d x y t) s =
    vector (.vnarrow d x y t) (fun _ a b => rowOf t.width t.count (fun k => sat t (val t.doubled
      (if k < t.count / 2 then elem a t.doubled.width k else elem b t.doubled.width (k - t.count / 2))))) s := rfl

theorem exec_vwiden_vector (high : Bool) (d x : Opnd) (t : ETy) (s : State) : exec (.vwiden high d x t) s =
    vector (.vwiden high d x t) (fun _ a _ => rowOf (2 * t.width) (t.count / 2) (fun k =>
      wrap (2 * t.width) (val t (elem a t.width (k + if high then t.count / 2 else 0))))) s := rfl

/-- `vnarrow` (R98): the lower half from S1, the upper one from S2. -/
theorem vnarrow_rule {d x y : Opnd} {ty : ETy} {s : State} {e : BEnt} {a : AOps} (h : ReadyA (.vnarrow d x y ty) s e a) :
    ∃ t v, exec (.vnarrow d x y ty) s = .next t ∧ DoneA s t a v 16 ∧ ∀ k, k < ty.count / 2 →
      ElemIs ty v k (max (tyMin ty) (min (tyMax ty) (valAt ty.doubled (argA s e a 0) k))) ∧
      ElemIs ty v (k + ty.count / 2) (max (tyMin ty) (min (tyMax ty) (valAt ty.doubled (argA s e a 1) k))) := by
  obtain ⟨t, ht, hd⟩ := vector_done (exec_vnarrow_vector d x y ty) h
  have half := half_count ty
  refine ⟨t, _, ht, hd, fun k hk => ⟨elemIs_typed (by omega) ?_, elemIs_typed (by omega) ?_⟩⟩
  · rw [if_pos hk]
    exact sat_modEq _ _
  · rw [if_neg (by omega), Nat.add_sub_cancel]
    exact sat_modEq _ _

/-- `vwiden` (R99): each element of a half, at twice the width. -/
theorem vwiden_rule {high : Bool} {d x : Opnd} {ty : ETy} {s : State} {e : BEnt} {a : AOps} (hn : ETy.narrow.contains ty = true)
    (h : ReadyA (.vwiden high d x ty) s e a) : ∃ t v, exec (.vwiden high d x ty) s = .next t ∧ DoneA s t a v 16 ∧
      ∀ k, k < ty.count / 2 → ElemIs ty.doubled v k (valAt ty (argA s e a 0) (k + if high then ty.count / 2 else 0)) := by
  obtain ⟨t, ht, hd⟩ := vector_done (exec_vwiden_vector high d x ty) h
  have fits : 2 * ty.width * (ty.count / 2) ≤ 512 := by
    rw [Nat.mul_comm 2, Nat.mul_assoc, half_count, width_mul_count]
  refine ⟨t, _, ht, hd, fun k hk => ?_⟩
  unfold ElemIs
  rw [narrow_doubled hn, elem_rowOf _ _ _ _ hk fits, Nat.mod_eq_of_lt (wrap_lt _ _), natCast_wrap]
  rfl

/-! ### Running sums and dot products (R101, R105) -/

theorem prefixSum_modEq (t : ETy) (r : Row) (k : Nat) : (prefixSum t r k : Int) ≡ ((List.range (k + 1)).map (valAt t r)).sum [ZMOD 2 ^ t.width] := by
  induction k with
  | zero => simpa [prefixSum, valAt] using (val_modEq t (elem r t.width 0)).symm
  | succ k ih =>
    rw [List.range_succ, List.map_append, List.sum_append, List.map_singleton, List.sum_singleton, prefixSum]
    push_cast
    exact (Int.mod_modEq _ _).trans (ih.add (val_modEq t (elem r t.width (k + 1))).symm)

/-- `vscan` (R101). -/
theorem vscan_rule {d x : Opnd} {ty : ETy} {s : State} {e : BEnt} {a : AOps} (h : ReadyA (.vscan d x ty) s e a) :
    ∃ t v, exec (.vscan d x ty) s = .next t ∧ DoneA s t a v 16 ∧
      ∀ k, k < ty.count → ElemIs ty v k ((List.range (k + 1)).map (valAt ty (argA s e a 0))).sum := by
  obtain ⟨t, ht, hd⟩ := vector_done (exec_vscan d x ty) h
  exact ⟨t, _, ht, hd, fun k hk => elemIs_typed hk (prefixSum_modEq _ _ _)⟩

/-- `vdot4` (R105): lane i holds four products, of bytes. -/
theorem vdot4_rule {d x y : Opnd} {ty : ETy} {s : State} {e : BEnt} {a : AOps} (hb : ty.width = 8) (h : ReadyA (.vdot4 d x y ty) s e a) :
    ∃ t v, exec (.vdot4 d x y ty) s = .next t ∧ DoneA s t a v 16 ∧ ∀ i, i < 16 → (((lane v i).toNat : Nat) : Int) =
      ((List.range 4).map (fun j => valAt ty (argA s e a 0) (4 * i + j) * valAt ty (argA s e a 1) (4 * i + j))).sum % 2 ^ 32 := by
  obtain ⟨t, ht, hd⟩ := vector_done (exec_vdot4 d x y ty) h
  refine ⟨t, _, ht, hd, fun i hi => ?_⟩
  unfold valAt
  rw [toNat_lane, elem_rowOf _ _ _ _ hi (by decide), Nat.mod_eq_of_lt (wrap_lt _ _), natCast_wrap, hb]

theorem bytes_width {t : ETy} (h : [ETy.i8, .n8].contains t = true) : t.width = 8 := by
  cases t with
  | i8 | n8 => rfl
  | _ => cases h

/-- Settles O7, an instruction at a time. -/
theorem widthChangingResults : Obligations.WidthChangingResults := by
  unfold Obligations.WidthChangingResults
  exact ⟨fun _ _ _ _ _ _ _ _ => vnarrow_rule, fun _ _ _ _ _ _ _ => vwiden_rule, fun _ _ _ _ _ _ _ => vscan_rule,
    fun _ _ _ _ _ _ _ hb => vdot4_rule (bytes_width hb)⟩

end Sys2Proof.Machine
end

section
/-! PROOFS. `vred`: what the halving tree combines (O8). -/

namespace Sys2Proof.Machine

/-! ### The halving tree (R82) -/

/-- The induction of a tree, once: let Combines r l say that the number r combines the numbers l. Where that holds of each leaf and
op keeps it, the tree combines all the leaves. -/
theorem tree_combines {op : Nat → Nat → Nat} {Combines : Nat → Multiset Nat → Prop}
    (step : ∀ {p q l m}, Combines p l → Combines q m → Combines (op p q) (l + m)) (k : Nat) {v : Nat → Nat} {l : Nat → Multiset Nat}
    (leaf : ∀ i, i < 2 ^ k → Combines (v i) (l i)) : Combines (tree op k v) (∑ i ∈ Finset.range (2 ^ k), l i) := by
  induction k generalizing v l with
  | zero => simpa [tree] using leaf 0
  | succ k ih =>
    have double : 2 ^ (k + 1) = 2 ^ k + 2 ^ k := by ring
    rw [double, Finset.sum_range_add, ← Finset.sum_add_distrib]
    refine ih fun i hi => ?_
    simp only [List.getD_eq_getElem?_getD, List.getElem?_map, List.getElem?_range hi, Option.map_some, Option.getD_some]
    rw [Nat.add_comm (2 ^ k) i]
    exact step (leaf i (by omega)) (leaf (i + 2 ^ k) (by omega))

/-- The elements of a row. -/
def elems (t : ETy) (r : Row) : Multiset Nat := (Multiset.range t.count).map (elem r t.width)

theorem two_pow_treeDepth (t : ETy) : 2 ^ treeDepth t = t.count := by cases t <;> decide

/-- The tree of `vred` combines the elements of the row. -/
theorem vred_combines {t : ETy} {op : RedOp} {Combines : Nat → Multiset Nat → Prop}
    (leaf : ∀ x, x < 2 ^ t.width → Combines x {x}) (step : ∀ {p q l m}, Combines p l → Combines q m → Combines (redOp t op p q) (l + m))
    (r : Row) : Combines (tree (redOp t op) (treeDepth t) (elem r t.width)) (elems t r) := by
  have h := tree_combines step (treeDepth t) fun i _ => leaf (elem r t.width i) (elem_lt _ _ _)
  have all : ∑ i ∈ Finset.range (2 ^ treeDepth t), {elem r t.width i} = elems t r := by
    rw [two_pow_treeDepth, elems, Finset.sum, ← Multiset.sum_map_singleton ((Multiset.range t.count).map _), Multiset.map_map]
    rfl
  rwa [all] at h

/-! ### The four operations (R100) -/

theorem redOp_lt {t : ETy} (op : RedOp) {p q : Nat} (hp : p < 2 ^ t.width) (hq : q < 2 ^ t.width) : redOp t op p q < 2 ^ t.width := by
  cases op with
  | add => exact Nat.mod_lt _ (by positivity)
  | min => exact wrap_lt _ _
  | max => exact wrap_lt _ _
  | xor => exact Nat.xor_lt_two_pow hp hq

theorem vred_lt (t : ETy) (op : RedOp) (r : Row) : tree (redOp t op) (treeDepth t) (elem r t.width) < 2 ^ t.width :=
  vred_combines (Combines := fun x _ => x < 2 ^ t.width) (fun _ h => h) (redOp_lt op) r

theorem vred_add (t : ETy) (r : Row) :
    (tree (redOp t .add) (treeDepth t) (elem r t.width) : Int) = ((List.range t.count).map (valAt t r)).sum % 2 ^ t.width := by
  have h : (tree (redOp t .add) (treeDepth t) (elem r t.width) : Int) ≡ ((elems t r).map (val t)).sum [ZMOD 2 ^ t.width] := by
    refine vred_combines (Combines := fun x l => (x : Int) ≡ (l.map (val t)).sum [ZMOD 2 ^ t.width]) (fun x _ => ?_) (fun hp hq => ?_) r
    · simpa using (val_modEq t x).symm
    · rw [Multiset.map_add, Multiset.sum_add, redOp]
      push_cast
      exact (Int.mod_modEq _ _).trans (hp.add hq)
  have sums : ((elems t r).map (val t)).sum = ((List.range t.count).map (valAt t r)).sum := by
    rw [elems, Multiset.map_map]; rfl
  rw [← sums, ← h.eq, Int.emod_eq_of_lt (Int.natCast_nonneg _) (by exact_mod_cast vred_lt t .add r)]

theorem val_redOp_min (t : ETy) (p q : Nat) : val t (redOp t .min p q) = min (val t p) (val t q) := by
  unfold redOp
  rcases min_choice (val t p) (val t q) with h | h <;> rw [h, val_wrap_val]

theorem val_redOp_max (t : ETy) (p q : Nat) : val t (redOp t .max p q) = max (val t p) (val t q) := by
  unfold redOp
  rcases max_choice (val t p) (val t q) with h | h <;> rw [h, val_wrap_val]

/-- The values of some numbers. -/
def values (t : ETy) (l : Multiset Nat) : Set Int := val t '' {x | x ∈ l}

theorem values_singleton (t : ETy) (x : Nat) : values t {x} = {val t x} := by simp [values]

theorem values_add (t : ETy) (l m : Multiset Nat) : values t (l + m) = values t l ∪ values t m := by
  rw [values, values, values, ← Set.image_union]
  congr 1
  ext x
  exact Multiset.mem_add

theorem mem_values_elems {t : ETy} {r : Row} {i : Int} : i ∈ values t (elems t r) ↔ ∃ k, k < t.count ∧ i = valAt t r k := by
  simp [values, elems, valAt, eq_comm]

theorem vred_min (t : ETy) (r : Row) : IsLeast (values t (elems t r)) (val t (tree (redOp t .min) (treeDepth t) (elem r t.width))) := by
  refine vred_combines (Combines := fun x l => IsLeast (values t l) (val t x)) (fun x _ => ?_) (fun hp hq => ?_) r
  · rw [values_singleton]
    exact isLeast_singleton
  · rw [values_add, val_redOp_min]
    exact hp.union hq

theorem vred_max (t : ETy) (r : Row) : IsGreatest (values t (elems t r)) (val t (tree (redOp t .max) (treeDepth t) (elem r t.width))) := by
  refine vred_combines (Combines := fun x l => IsGreatest (values t l) (val t x)) (fun x _ => ?_) (fun hp hq => ?_) r
  · rw [values_singleton]
    exact isGreatest_singleton
  · rw [values_add, val_redOp_max]
    exact hp.union hq

theorem vred_xor (t : ETy) (r : Row) : tree (redOp t .xor) (treeDepth t) (elem r t.width) =
    ((List.range t.count).map (elem r t.width)).foldl (fun p q => p ^^^ q) 0 := by
  have : Std.Commutative (fun p q : Nat => p ^^^ q) := ⟨Nat.xor_comm⟩
  have : Std.Associative (fun p q : Nat => p ^^^ q) := ⟨Nat.xor_assoc⟩
  have h : tree (redOp t .xor) (treeDepth t) (elem r t.width) = (elems t r).fold (fun p q => p ^^^ q) 0 := by
    refine vred_combines (Combines := fun x l => x = l.fold (fun p q => p ^^^ q) 0) (fun x _ => ?_) (fun hp hq => ?_) r
    · rw [Multiset.fold_singleton, Nat.xor_zero]
    · rw [hp, hq]
      exact (Multiset.fold_add (fun p q : Nat => p ^^^ q) 0 0 _ _).symm
  rw [h]
  exact Multiset.coe_fold_l _ _ _

/-- Settles O8: what the tree of `vred` combines (`vred_combines`), an operation at a time. -/
theorem reductionResults : Obligations.ReductionResults := by
  unfold Obligations.ReductionResults
  intro d x ty op s e a _ h
  rw [exec_vred, execVred]
  refine ⟨_, _, arith_go h rfl, commitA_done _ _ _ _, vred_lt ty op _, ?_⟩
  cases op with
  | add => exact vred_add ty _
  | min =>
    obtain ⟨mem, lower⟩ := vred_min ty (argA s e a 0)
    exact ⟨fun k hk => lower (mem_values_elems.mpr ⟨k, hk, rfl⟩), mem_values_elems.mp mem⟩
  | max =>
    obtain ⟨mem, upper⟩ := vred_max ty (argA s e a 0)
    exact ⟨fun k hk => upper (mem_values_elems.mpr ⟨k, hk, rfl⟩), mem_values_elems.mp mem⟩
  | xor => exact vred_xor ty _

end Sys2Proof.Machine
end

section
/-! PROOFS. Trits: what `vpackt` has packed, `vunpkt` reads (O9). -/

namespace Sys2Proof.Machine

/-! ### A packed group read back (R58, R66) -/

/-- The digit of a trit (R58). -/
def tritDigit (i : Int) : Nat := (i + 1).toNat

/-- Five digits to a byte. -/
def tritByte (d : Nat → Nat) : Nat := d 0 + 3 * d 1 + 9 * d 2 + 27 * d 3 + 81 * d 4

theorem tritByte_le {d : Nat → Nat} (h : ∀ j, d j ≤ 2) : tritByte d ≤ 242 := by
  have h0 := h 0
  have h1 := h 1
  have h2 := h 2
  have h3 := h 3
  have h4 := h 4
  unfold tritByte
  omega

/-- Digit j of a byte, read by dividing by 3^j. -/
theorem tritByte_digit {d : Nat → Nat} (h : ∀ j, d j ≤ 2) {j : Nat} (hj : j < 5) : tritByte d / 3 ^ j % 3 = d j := by
  have h0 := h 0
  have h1 := h 1
  have h2 := h 2
  have h3 := h 3
  have h4 := h 4
  unfold tritByte
  interval_cases j <;> omega

theorem tritOf_tritByte {d : Nat → Nat} (h : ∀ j, d j ≤ 2) {j : Nat} (hj : j < 5) : tritOf (tritByte d) j = d j - 1 := by
  rw [tritOf, if_neg (not_lt.mpr (tritByte_le h)), tritByte_digit h hj]

section
variable {bs : Nat → Nat} {T : Nat → Int} (trits : ∀ i, -1 ≤ T i ∧ T i ≤ 1) (packed : ∀ b, b < 8 → bs b = tritPack T b)

include trits in
theorem tritDigit_le (i : Nat) : tritDigit (T i) ≤ 2 := by
  have := trits i
  unfold tritDigit
  omega

include trits in
theorem tritDigit_sub_one (i : Nat) : (tritDigit (T i) : Int) - 1 = T i := by
  have := trits i
  unfold tritDigit
  omega

theorem tritPack_low (T : Nat → Int) {g : Nat} (h : g < 6) : tritPack T g = tritByte (fun j => tritDigit (T (5 * g + j))) := if_pos h
theorem tritPack_six (T : Nat → Int) : tritPack T 6 = tritDigit (T 30) + 3 * tritDigit (T 31) := rfl

include trits in
theorem tritPack_lt (b : Nat) : tritPack T b < 2 ^ 8 := by
  rcases lt_trichotomy b 6 with h | rfl | h
  · rw [tritPack_low T h]
    exact (tritByte_le fun _ => tritDigit_le trits _).trans_lt (by decide)
  · have h0 := tritDigit_le trits 30
    have h1 := tritDigit_le trits 31
    rw [tritPack_six]
    omega
  · rw [tritPack, if_neg (by omega), if_neg (by omega)]
    decide

include packed in
theorem tritGroup_packed : tritGroup bs = (fun i => if i < 30 then tritOf (bs (i / 5)) (i % 5) else if bs 6 > 8 then 0
    else if i = 30 then ((bs 6 % 3 : Nat) : Int) - 1 else ((bs 6 / 3 : Nat) : Int) - 1,
    (List.range 6).any (fun g => decide (bs g > 242)) || decide (bs 6 > 8)) := by
  have last : bs 7 = 0 := packed 7 (by decide)
  unfold tritGroup
  simp only [last, bne_self_eq_false, Bool.false_eq_true, if_false]

include trits packed in
/-- Byte 6 holds the last two trits. -/
theorem tritGroup_six : bs 6 ≤ 8 ∧ bs 6 % 3 = tritDigit (T 30) ∧ bs 6 / 3 = tritDigit (T 31) := by
  have h0 := tritDigit_le trits 30
  have h1 := tritDigit_le trits 31
  rw [packed 6 (by decide), tritPack_six]
  omega

include trits packed in
/-- A packed group has no bad byte. -/
theorem tritGroup_good : (tritGroup bs).2 = false := by
  rw [tritGroup_packed packed]
  simp only [Bool.or_eq_false_iff, List.any_eq_false, List.mem_range, decide_eq_true_eq, decide_eq_false_iff_not, not_lt]
  refine ⟨fun g hg => ?_, (tritGroup_six trits packed).1⟩
  rw [packed g (by omega), tritPack_low T hg]
  exact tritByte_le fun _ => tritDigit_le trits _

include trits packed in
/-- And its trits are those packed. -/
theorem tritGroup_trit {i : Nat} (hi : i < 32) : (tritGroup bs).1 i = T i := by
  obtain ⟨small, low, high⟩ := tritGroup_six trits packed
  rw [tritGroup_packed packed]
  dsimp only
  by_cases h : i < 30
  · rw [if_pos h, packed (i / 5) (by omega), tritPack_low T (by omega),
      tritOf_tritByte (fun _ => tritDigit_le trits _) (Nat.mod_lt _ (by decide)), tritDigit_sub_one trits, Nat.div_add_mod]
  · rw [if_neg h, if_neg (not_lt.mpr small), low, high, tritDigit_sub_one trits, tritDigit_sub_one trits]
    split
    · next h30 => rw [h30]
    · next h30 => rw [show i = 31 by omega]

end

/-! ### The two instructions (R102, R103) -/

theorem signTrit_bounds (t : ETy) (r : Row) (i : Nat) : -1 ≤ signTrit t r i ∧ signTrit t r i ≤ 1 := by
  unfold signTrit
  split
  · rcases Int.sign_trichotomy (val t (elem r t.width i)) with h | h | h <;> rw [h] <;> decide
  · decide

/-- Bytes of the row of `vpackt`: two groups of a row of i8, one of the others. -/
def packBytes (t : ETy) : Nat := if t = .i8 then 16 else 8

/-- The row of `vpackt`. -/
def packRow (t : ETy) (r : Row) : Row := rowOf 8 (packBytes t) (fun b => tritPack (fun i => signTrit t r (32 * (b / 8) + i)) (b % 8))

theorem packBytes_fits (t : ETy) : 8 * packBytes t ≤ 512 := by cases t <;> decide

theorem packRow_group {t : ETy} {r : Row} {g b : Nat} (hb : b < 8) (hg : 8 * g + b < packBytes t) :
    elem (packRow t r) 8 (8 * g + b) = tritPack (fun i => signTrit t r (32 * g + i)) b := by
  rw [packRow, elem_rowOf _ _ _ _ hg (packBytes_fits t), Nat.mul_add_div (by decide), Nat.div_eq_of_lt hb, Nat.add_zero,
    Nat.mul_add_mod, Nat.mod_eq_of_lt hb, Nat.mod_eq_of_lt (tritPack_lt (fun _ => signTrit_bounds _ _ _) b)]

theorem exec_vpackt_vector (d x : Opnd) (t : ETy) (s : State) :
    exec (.vpackt d x t) s = vector (.vpackt d x t) (fun _ a _ => packRow t a) s := by
  rw [exec_vpackt, execVpackt]
  simp only [packRow, packBytes, beq_iff_eq]

/-- `vpackt` (R102). -/
theorem vpackt_rule {d x : Opnd} {ty : ETy} {s : State} {e : BEnt} {a : AOps} (h : ReadyA (.vpackt d x ty) s e a) :
    ∃ t v, exec (.vpackt d x ty) s = .next t ∧ DoneA s t a v 16 ∧
      (∀ b, b < 64 → (if ty = .i8 then 16 else 8) ≤ b → elem v 8 b = 0) ∧
      ∀ g, g < (if ty = .i8 then 2 else 1) → (tritGroup (fun b => elem v 8 (8 * g + b))).2 = false ∧
        ∀ i, i < 32 → (tritGroup (fun b => elem v 8 (8 * g + b))).1 i =
          if 32 * g + i < ty.count then Int.sign (valAt ty (argA s e a 0) (32 * g + i)) else 0 := by
  obtain ⟨t, ht, hd⟩ := vector_done (exec_vpackt_vector d x ty) h
  refine ⟨t, _, ht, hd, fun b _ hb => elem_rowOf_beyond _ hb (packBytes_fits ty), fun g hg => ?_⟩
  have trits := fun i => signTrit_bounds ty (argA s e a 0) (32 * g + i)
  have packed : ∀ b, b < 8 → elem (packRow ty (argA s e a 0)) 8 (8 * g + b) = tritPack (fun i => signTrit ty (argA s e a 0) (32 * g + i)) b := by
    refine fun b hb => packRow_group hb ?_
    unfold packBytes
    split at hg <;> next h8 => simp only [h8, if_true, if_false]; omega
  exact ⟨tritGroup_good trits packed, fun i => tritGroup_trit trits packed⟩

/-- `vunpkt` (R103). -/
theorem vunpkt_rule {d x : Opnd} {ty : ETy} {s : State} {e : BEnt} {a : AOps} (h : ReadyA (.vunpkt d x ty) s e a) :
    ∃ t v, exec (.vunpkt d x ty) s = .next t ∧
      DoneA (if (tritGroup (fun b => elem (argA s e a 0) 8 b)).2 || (ty == .i8 && (tritGroup (fun b => elem (argA s e a 0) 8 (8 + b))).2)
        then s.modC (fun c => { c with mstat := c.mstat ||| 1 }) else s) t a v 16 ∧
      ∀ k, k < ty.count → ElemIs ty v k (if k < 32 then (tritGroup (fun b => elem (argA s e a 0) 8 b)).1 k
        else (tritGroup (fun b => elem (argA s e a 0) 8 (8 + b))).1 (k - 32)) := by
  rw [exec_vunpkt, execVunpkt]
  exact ⟨_, _, arith_go h rfl, commitA_done _ _ _ _, fun k hk => elemIs_typed hk (wrap_modEq _ _)⟩

/-- Settles O9: the groups that `vpackt` packs read back by `tritGroup_good` and `tritGroup_trit`. -/
theorem tritResults : Obligations.TritResults := by
  unfold Obligations.TritResults
  exact ⟨fun _ _ _ _ _ _ _ => vpackt_rule, fun _ _ _ _ _ _ _ => vunpkt_rule⟩

end Sys2Proof.Machine
end

section
/-! PROOFS. The sign operations and `fclass` (O11). -/

namespace Sys2Proof.Machine

/-! ### The parts of a code (R73) -/

theorem fpsInfCode {t : ETy} (ht : ETy.fps.contains t = true) : (fmt t).infCode = 255 * 2 ^ (fmt t).mb := by
  obtain rfl | rfl := fps_cases ht <;> rfl

/-- In the types of FP arithmetic the NaNs lie above the infinity (R76). -/
theorem fpsIsNan {t : ETy} (ht : ETy.fps.contains t = true) {x : Nat} (hx : x < 2 ^ t.width) :
    (fDecode t x).isNan = true ↔ (fmt t).infCode < fMag t x := by
  have next : (fmt t).infSigned = true ∧ (fmt t).infCode = (fmt t).maxCode + 1 := by
    obtain rfl | rfl := fps_cases ht <;> exact ⟨rfl, rfl⟩
  rw [← isNan_iff (codeView ((fpsWidth ht).symm ▸ hx)), IsNan, isInf, next.1, Bool.true_and, beq_eq_false_iff_ne, next.2]
  omega

theorem fpsMag {t : ETy} (ht : ETy.fps.contains t = true) (x : Nat) : fMag t x = x % 2 ^ (t.width - 1) := by
  rw [fMag, fpsWidth ht]

theorem two_mul_half (t : ETy) : 2 * 2 ^ (t.width - 1) = 2 ^ t.width := by cases t <;> rfl

theorem signBit_lt {t : ETy} {x : Nat} (hx : x < 2 ^ t.width) : x / 2 ^ (t.width - 1) < 2 :=
  Nat.div_lt_of_lt_mul (by rw [Nat.mul_comm, two_mul_half]; exact hx)

/-- The sign bit of a code is its quotient by the weight of that bit. -/
theorem fSign_toNat {t : ETy} (ht : ETy.fps.contains t = true) {x : Nat} (hx : x < 2 ^ t.width) :
    (fSign t x).toNat = x / 2 ^ (t.width - 1) := by
  have bit := signBit_lt hx
  rw [fSign, fpsWidth ht, Nat.shiftRight_eq_div_pow, Nat.mod_eq_of_lt bit]
  generalize x / 2 ^ (t.width - 1) = p at bit
  interval_cases p <;> rfl

theorem not_fSign_toNat {t : ETy} (ht : ETy.fps.contains t = true) {x : Nat} (hx : x < 2 ^ t.width) :
    (!fSign t x).toNat = 1 - x / 2 ^ (t.width - 1) := by
  rw [← fSign_toNat ht hx]
  cases fSign t x <;> rfl

theorem fSign_eq_decide {t : ETy} (ht : ETy.fps.contains t = true) {x : Nat} (hx : x < 2 ^ t.width) :
    fSign t x = decide (2 ^ (t.width - 1) ≤ x) := by
  have cut : 0 < x / 2 ^ (t.width - 1) ↔ 2 ^ (t.width - 1) ≤ x := Nat.div_pos_iff.trans (and_iff_right (by positivity))
  rw [Bool.eq_iff_iff, decide_eq_true_iff, ← cut, ← fSign_toNat ht hx]
  cases fSign t x <;> decide

/-! ### Sign operations (R115) -/

theorem fSignOp_nan {t : ETy} (ht : ETy.fps.contains t = true) {x : Nat} (hx : x < 2 ^ t.width) (neg : Bool)
    (h : (fDecode t x).isNan = true) : fSignOp t x neg = (fmt t).nan := if_pos ((fpsIsNan ht hx).mp h)

/-- Away from NaNs: the magnitude with the sign given. -/
theorem fSignOp_number {t : ETy} (ht : ETy.fps.contains t = true) {x : Nat} (hx : x < 2 ^ t.width) (neg : Bool)
    (h : (fDecode t x).isNan = false) : fSignOp t x neg = x % 2 ^ (t.width - 1) + 2 ^ (t.width - 1) * neg.toNat := by
  have below : ¬ (fmt t).infCode < fMag t x := by
    rw [← fpsIsNan ht hx, h]
    exact Bool.false_ne_true
  rw [fSignOp, if_neg below, fCode, fpsWidth ht, fpsMag ht]
  cases neg with
  | false => simp
  | true => simp [Nat.add_comm]

theorem fSignOp_lt {t : ETy} (ht : ETy.fps.contains t = true) {x : Nat} (hx : x < 2 ^ t.width) (neg : Bool) :
    fSignOp t x neg < 2 ^ t.width := by
  cases h : (fDecode t x).isNan with
  | true =>
    rw [fSignOp_nan ht hx neg h]
    obtain rfl | rfl := fps_cases ht <;> decide
  | false =>
    have mag : x % 2 ^ (t.width - 1) < 2 ^ (t.width - 1) := Nat.mod_lt _ (by positivity)
    have top := two_mul_half t
    rw [fSignOp_number ht hx neg h]
    cases neg <;> simp only [Bool.toNat_false, Bool.toNat_true] <;> omega

/-- An instruction that acts on the bits of each element, with results in the range of the type. -/
theorem fBits_rule {i : Instr} {ty : ETy} {f : Nat → Nat → Nat} (hi : ∀ s, exec i s = fBits i ty f s)
    (hf : ∀ p q, p < 2 ^ ty.width → f p q < 2 ^ ty.width) {s : State} {e : BEnt} {a : AOps} (h : ReadyA i s e a) :
    ∃ t v, exec i s = .next t ∧ DoneA s t a v 16 ∧
      ∀ k, k < ty.count → elem v ty.width k = f (elem (argA s e a 0) ty.width k) (elem (argA s e a 1) ty.width k) := by
  rw [hi]
  exact ⟨_, _, arith_go h rfl, commitA_done _ _ _ _, fun k hk => elem_typed_of_lt hk (hf _ _ (elem_lt _ _ _))⟩

/-- The three sign operations, each with the sign bit it gives. -/
theorem signRules_exec {d x y : Opnd} {t : ETy} (ht : ETy.fps.contains t = true) {i : Instr} {g : Nat → Nat → Nat} (hi : (i, g) ∈ signRules d x y t) :
    ∃ f : Nat → Nat → Bool, (∀ p q, p < 2 ^ t.width → q < 2 ^ t.width → (f p q).toNat = g (p / 2 ^ (t.width - 1)) (q / 2 ^ (t.width - 1))) ∧
      ∀ s, exec i s = fBits i t (fun p q => fSignOp t p (f p q)) s := by
  simp only [signRules, List.mem_cons, Prod.mk.injEq, List.not_mem_nil, or_false] at hi
  rcases hi with ⟨rfl, rfl⟩ | ⟨rfl, rfl⟩ | ⟨rfl, rfl⟩
  · exact ⟨fun _ _ => false, fun _ _ _ _ => rfl, exec_fabs d x t⟩
  · exact ⟨fun p _ => !fSign t p, fun _ _ hp _ => not_fSign_toNat ht hp, exec_fneg d x t⟩
  · exact ⟨fun _ q => fSign t q, fun _ _ _ hq => fSign_toNat ht hq, exec_fsgnj d x y t⟩

/-! ### Classes (R110) -/

section
variable {t : ETy} {x : Nat}

theorem fClass_inf (h : fMag t x = (fmt t).infCode) : fClass t x = if fSign t x then 1 else 128 := if_pos h

theorem fClass_nan (h : (fmt t).infCode < fMag t x) :
    fClass t x = if fMag t x % 2 ^ (fmt t).mb < 2 ^ ((fmt t).mb - 1) then 256 else 512 := by
  unfold fClass
  dsimp only
  rw [if_neg h.ne', if_pos h]

theorem fClass_zero (h : fMag t x = 0) (hi : 0 < (fmt t).infCode) : fClass t x = if fSign t x then 8 else 16 := by
  unfold fClass
  dsimp only
  rw [if_neg (by omega), if_neg (by omega), if_pos h]

theorem fClass_subnormal (h0 : 0 < fMag t x) (h : fMag t x < 2 ^ (fmt t).mb) (hi : fMag t x < (fmt t).infCode) :
    fClass t x = if fSign t x then 4 else 32 := by
  unfold fClass
  dsimp only
  rw [if_neg hi.ne, if_neg hi.not_gt, if_neg h0.ne', if_pos h]

theorem fClass_normal (h : 2 ^ (fmt t).mb ≤ fMag t x) (hi : fMag t x < (fmt t).infCode) : fClass t x = if fSign t x then 2 else 64 := by
  have h0 : 0 < fMag t x := (Nat.two_pow_pos _).trans_le h
  unfold fClass
  dsimp only
  rw [if_neg hi.ne, if_neg hi.not_gt, if_neg h0.ne', if_neg h.not_gt]

end

theorem fClass_le (t : ETy) (x : Nat) : fClass t x ≤ 512 := by
  unfold fClass
  dsimp only
  split_ifs <;> decide

/-- The class by the exponent and fraction fields of the magnitude. -/
theorem fClass_fields {t : ETy} (ht : ETy.fps.contains t = true) {x ex fr : Nat} (hex : fMag t x / 2 ^ (fmt t).mb = ex)
    (hfr : fMag t x % 2 ^ (fmt t).mb = fr) :
    (0 < ex → ex < 255 → fClass t x = if fSign t x then 2 ^ 1 else 2 ^ 6) ∧
    (ex = 0 → 0 < fr → fClass t x = if fSign t x then 2 ^ 2 else 2 ^ 5) ∧
    (ex = 0 → fr = 0 → fClass t x = if fSign t x then 2 ^ 3 else 2 ^ 4) ∧
    (ex = 255 → fr = 0 → fClass t x = if fSign t x then 2 ^ 0 else 2 ^ 7) ∧
    (ex = 255 → 0 < fr → fr < 2 ^ ((fmt t).mb - 1) → fClass t x = 2 ^ 8) ∧
    (ex = 255 → 2 ^ ((fmt t).mb - 1) ≤ fr → fClass t x = 2 ^ 9) := by
  have mag : 2 ^ (fmt t).mb * ex + fr = fMag t x := by rw [← hex, ← hfr, Nat.div_add_mod]
  have frLt : fr < 2 ^ (fmt t).mb := by rw [← hfr]; exact Nat.mod_lt _ (by positivity)
  have inf := fpsInfCode ht
  have half : 0 < 2 ^ ((fmt t).mb - 1) := by positivity
  refine ⟨fun h0 h1 => ?_, ?_, ?_, ?_, ?_, ?_⟩
  · have low := Nat.mul_le_mul_left (2 ^ (fmt t).mb) h0
    have high := Nat.mul_le_mul_left (2 ^ (fmt t).mb) (Nat.le_of_lt_succ h1)
    exact fClass_normal (by omega) (by omega)
  · rintro rfl h
    exact fClass_subnormal (by omega) (by omega) (by omega)
  · rintro rfl rfl
    exact fClass_zero (by omega) (by omega)
  · rintro rfl rfl
    exact fClass_inf (by omega)
  · rintro rfl h hq
    exact (fClass_nan (by omega)).trans (if_pos (hfr ▸ hq))
  · rintro rfl hq
    exact (fClass_nan (by omega)).trans (if_neg (not_lt.mpr (hfr ▸ hq)))

/-- Settles O11: the sign operations by `fSignOp_number` and `fSignOp_nan`, the classes by `fClass_fields`. -/
theorem signAndClassResults : Obligations.SignAndClassResults := by
  unfold Obligations.SignAndClassResults
  refine fun d x y ty s e a ht => ⟨fun i g hi h => ?_, fun h => ?_⟩
  · obtain ⟨f, hf, hs⟩ := signRules_exec ht hi
    obtain ⟨t, v, hx, hd, hv⟩ := fBits_rule hs (fun p q hp => fSignOp_lt ht hp _) h
    refine ⟨t, v, hx, hd, fun k hk => ⟨fun hn => ?_, fun hn => ?_⟩⟩
    · rw [hv k hk, fSignOp_number ht (elem_lt _ _ _) _ hn, hf _ _ (elem_lt _ _ _) (elem_lt _ _ _)]
    · rw [hv k hk, fSignOp_nan ht (elem_lt _ _ _) _ hn]
  · have fits : 512 < 2 ^ ty.width := by obtain rfl | rfl := fps_cases ht <;> decide
    obtain ⟨t, v, hx, hd, hv⟩ := fBits_rule (exec_fclass d x ty) (fun p _ _ => (fClass_le ty p).trans_lt fits) h
    refine ⟨t, v, hx, hd, fun k hk => ?_⟩
    dsimp only
    rw [hv k hk, ← fSign_eq_decide ht (elem_lt _ _ _), ← fpsMag ht]
    exact fClass_fields ht rfl rfl

end Sys2Proof.Machine
end

section
/-! PROOFS. Control words without a loop: `cnop`, `fsync`, `ifence`, `movi` and `adda` (O15), branches and jumps (O16), the
pushing of tokens (O12), `trap` and `brk` (O19). -/

namespace Sys2Proof.Machine

/-- The distance of a branch in bytes, as a word (R120, R126). -/
theorem word_offset {w : Nat} (k : BitVec w) : k.signExtend 32 <<< 3 = BitVec.ofInt 32 (8 * k.toInt) := by
  rw [BitVec.shiftLeft_eq_mul_twoPow, BitVec.mul_comm, BitVec.ofInt_mul]
  rfl

/-! ### No effect, `ifence`, immediates (R119, R129, R130, R160) -/

/-- `cnop` (R119). -/
theorem cnop_rule {s : State} (h : ReadyC {} s) : ∃ t, exec .cnop s = .next t ∧ DoneC s s t {} 0 none := by
  rw [exec_cnop, execCnop]
  exact control_done h rfl

/-- `fsync` (R129). -/
theorem fsync_rule {n : BitVec 11} {s : State} (h : ReadyC {} s) : ∃ t, exec (.fsync n) s = .next t ∧ DoneC s s t {} 0 none := by
  rw [exec_fsync, execFsync]
  exact control_done h rfl

/-- A word that has the slot fetch afresh leaves it nothing fetched (R160). -/
theorem issued_refetches {p : CSpec} (hp : p.refetch = true) (s s1 : State) (v : Row) (target : Option Word) :
    (issued p s s1 v target).core.slot.fetched = [] := by
  have slot : (slotC s s1 p v target).fetched = [] := by simp [slotC, hp]
  rw [issued, countBundle_eq, issueC_back, applyWin_eq]
  exact slot

theorem serviceFence_noPrv {s : State} (h : s.core.slot.prv = false) : serviceFence s = s := by simp [serviceFence, h]

theorem serviceFence_eq (s : State) : serviceFence s = { s with publishing := (serviceFence s).publishing } := by
  unfold serviceFence
  split <;> rfl

/-- With PRV, the loader hears of the fence for each module that waits for the core (R348). -/
theorem serviceFence_publishing {s : State} (h : s.core.slot.prv = true) : (serviceFence s).publishing = s.publishing.map (fun p =>
    if s.core.id ∈ p.wait then { p with wait := p.wait.erase s.core.id, fenced := p.fenced ++ [s.core.id] } else p) := by
  simp [serviceFence, h]

/-- `ifence` (R160). -/
theorem ifence_rule {s : State} (h : ReadyC { refetch := true } s) : ∃ t, exec .ifence s = .next t ∧
    DoneC s (serviceFence s) t { refetch := true } 0 none ∧ t.core.slot.fetched = [] := by
  rw [exec_ifence, execIfence]
  exact ⟨_, control_go h rfl, issued_done .., issued_refetches rfl ..⟩

/-- `movi` (R130). -/
theorem movi_rule {a : Opnd} {v : Word} {s : State} (h : ReadyC { dst := some a, latch := true } s) : ∃ t, exec (.movi a v) s = .next t ∧
    DoneC s s t { dst := some a, latch := true } (laneRow v) none := by
  rw [exec_movi, execMovi]
  exact control_done h rfl

/-- `adda` (R130). -/
theorem adda_rule {a b : Opnd} {k : BitVec 11} {s : State} {p : CSpec} (hp : p = { srcs := [b], dst := some a, latch := true })
    (h : ReadyC p s) : ∃ t, exec (.adda a b k) s = .next t ∧
      DoneC s s t p (laneRow (BitVec.ofInt 32 ((argC0 s p 0).toInt + k.toInt))) none := by
  subst hp
  rw [exec_adda, execAdda, ← word_addi]
  exact control_done h rfl

/-- Settles O15, an instruction at a time; what `ifence` tells the loader by the lemmas about `serviceFence`. -/
theorem noEffectAndImmediateControl : Obligations.NoEffectAndImmediateControl := by
  unfold Obligations.NoEffectAndImmediateControl
  refine ⟨fun n s => ⟨fun h => ⟨cnop_rule h, fsync_rule h⟩, fun h => ?_⟩, fun a b v k s => ⟨movi_rule, adda_rule rfl⟩⟩
  obtain ⟨t, ht, hd, hf⟩ := ifence_rule h
  exact ⟨t, _, ht, hd, hf, serviceFence_noPrv, serviceFence_eq s, serviceFence_publishing⟩

/-! ### Branches and jumps (R118, R120, R121, R126) -/

/-- `bc`, where its condition holds. -/
theorem bc_taken {c : Cnd} {a : Opnd} {off : BitVec 15} {s : State} (hc : cndHolds c (argC0 s { srcs := [a] } 0).toInt = true)
    (h : ReadyC { srcs := [a], moves := true } s) : ∃ t, exec (.bc c a off) s = .next t ∧
      DoneC s s t { srcs := [a], moves := true } 0 (some (s.core.slot.pc + BitVec.ofInt 32 (8 * off.toInt))) := by
  have moves : takes s c a = true := hc
  rw [exec_bc, execBc, moves, ← word_offset]
  exact control_done h (congrArg (CRes.go s 0) (if_pos hc))

/-- `bc`, where it does not. -/
theorem bc_falls {c : Cnd} {a : Opnd} {off : BitVec 15} {s : State} (hc : ¬ cndHolds c (argC0 s { srcs := [a] } 0).toInt = true)
    (h : ReadyC { srcs := [a] } s) : ∃ t, exec (.bc c a off) s = .next t ∧ DoneC s s t { srcs := [a] } 0 none := by
  have stays : takes s c a = false := Bool.eq_false_iff.2 hc
  rw [exec_bc, execBc, stays]
  exact control_done h (congrArg (CRes.go s 0) (if_neg hc))

/-- `call` (R121). -/
theorem call_rule {a : Opnd} {off : BitVec 15} {s : State} (h : ReadyC { dst := some a, moves := true } s) :
    ∃ t, exec (.call a off) s = .next t ∧ DoneC s s t { dst := some a, moves := true } (laneRow (s.core.slot.pc + 8))
      (some (s.core.slot.pc + BitVec.ofInt 32 (8 * off.toInt))) := by
  rw [exec_call, execCall, ← word_offset]
  exact control_done h rfl

/-- `jr` (R118, R121). -/
theorem jr_rule {a b : Opnd} {s : State} {p : CSpec} (hp : p = { srcs := [b], dst := some a, moves := true }) (h : ReadyC p s) :
    ((argC0 s p 0).toNat % 8 = 0 → ∃ t, exec (.jr a b) s = .next t ∧
      DoneC s s t p (laneRow (s.core.slot.pc + 8)) (some (argC0 s p 0))) ∧
    ((argC0 s p 0).toNat % 8 ≠ 0 → exec (.jr a b) s = .next (trapped (.jr a b) s (mkTrap 0x03 0 (argC0 s p 0).toNat))) := by
  subst hp
  rw [exec_jr, execJr]
  exact ⟨fun aligned => control_done h (if_neg (not_not_intro aligned)), fun misaligned => control_trap h (if_pos misaligned)⟩

/-- `jtok` with no token (R126). -/
theorem jtok_empty {s : State} (hk : s.core.slot.toks = []) (h : ReadyC {} s) : exec .jtok s = stallC s 4 := by
  have stays : jumps s = false := by rw [jumps, hk]; rfl
  rw [exec_jtok, execJtok, stays]
  exact control_wait h (by rw [hk])

/-- `jtok` with the token k at the head (R126). -/
theorem jtok_head {s : State} {k : Token} {ks : List Token} (hk : s.core.slot.toks = k :: ks) (h : ReadyC { moves := k.taken } s) :
    ∃ t, exec .jtok s = .next t ∧
      DoneC s (s.modS (fun x => { x with toks := ks })) t { moves := k.taken } 0 (if k.taken then some k.pc else none) := by
  have moves : jumps s = k.taken := by rw [jumps, hk]; rfl
  rw [exec_jtok, execJtok, moves]
  exact control_done h (by rw [hk])

/-- Settles O16, an instruction at a time; the conditions of `bc` one by one. -/
theorem branchAndJumpResults : Obligations.BranchAndJumpResults := by
  unfold Obligations.BranchAndJumpResults
  refine ⟨fun c a off s => ?_, fun a b off s => ⟨call_rule, jr_rule rfl⟩, fun s => ⟨jtok_empty, fun k ks => jtok_head⟩⟩
  intro v taken
  have holds : cndHolds c v = true ↔ taken := by
    cases c with
    | always => exact iff_of_true rfl trivial
    | _ => exact decide_eq_true_iff
  exact ⟨fun ht => bc_taken (holds.2 ht), fun ht => bc_falls (mt holds.1 ht)⟩

/-! ### Pushing tokens (R126) -/

theorem pushToken_room {k : Token} {s : State} (h : s.core.slot.toks.length < 2) :
    pushToken k s = .go (s.modS (fun z => { z with toks := z.toks ++ [k] })) 0 0 := if_neg (by omega)

theorem pushToken_full {k : Token} {s : State} (h : 2 ≤ s.core.slot.toks.length) : pushToken k s = .wait 4 := if_pos h

/-- `tokb`. -/
theorem tokb_rule {x : Opnd} {k : BitVec 11} {s : State} {e : BEnt} {a : AOps} (h : ReadyA (.tokb x k) s e a) :
    (s.core.slot.toks.length < 2 → ∃ t, exec (.tokb x k) s = .next t ∧
      DoneA (s.modS (fun z => { z with toks := z.toks ++ [⟨argA0 s e a 0 != 0, e.pc + BitVec.ofInt 32 (8 * k.toInt)⟩] })) t a 0 0) ∧
    (2 ≤ s.core.slot.toks.length → exec (.tokb x k) s = stallA s 4) := by
  rw [exec_tokb, execTokb, ← word_offset]
  exact ⟨fun room => arith_done h (pushToken_room room), fun full => arith_stall h (pushToken_full full)⟩

/-- `tokj`, whose target is looked at before the queue (R118, R126). -/
theorem tokj_rule {x : Opnd} {s : State} {e : BEnt} {a : AOps} (h : ReadyA (.tokj x) s e a) :
    ((argA0 s e a 0).toNat % 8 ≠ 0 → exec (.tokj x) s = trapA s (word1Of (.tokj x)) 0x03 0 (argA0 s e a 0).toNat) ∧
    ((argA0 s e a 0).toNat % 8 = 0 → s.core.slot.toks.length < 2 → ∃ t, exec (.tokj x) s = .next t ∧
      DoneA (s.modS (fun z => { z with toks := z.toks ++ [⟨true, argA0 s e a 0⟩] })) t a 0 0) ∧
    ((argA0 s e a 0).toNat % 8 = 0 → 2 ≤ s.core.slot.toks.length → exec (.tokj x) s = stallA s 4) := by
  rw [exec_tokj, execTokj]
  refine ⟨fun misaligned => arith_trap h (if_pos misaligned), fun aligned room => ?_, fun aligned full => ?_⟩
  · exact arith_done h ((if_neg (not_not_intro aligned)).trans (pushToken_room room))
  · exact arith_stall h ((if_neg (not_not_intro aligned)).trans (pushToken_full full))

/-- Settles O12, by `tokb_rule` and `tokj_rule`. -/
theorem tokenResults : Obligations.TokenResults := by
  unfold Obligations.TokenResults
  exact fun x k s e a => ⟨tokb_rule, tokj_rule⟩

/-! ### `trap` and `brk` (R127) -/

/-- `trap` issues, moves on to the next bundle, and then traps. -/
theorem trap_rule {n : BitVec 11} {s : State} (h : ReadyC { moves := true } s) :
    ∃ u, DoneC s s u { moves := true } 0 (some (s.core.slot.pc + 8)) ∧
      exec (.trap n) s = .next (trapped (.trap n) u (mkTrap 0x0F (n.toNat <<< 9) 0)) := by
  refine ⟨_, issueC_done .., ?_⟩
  rw [exec_trap, execTrap, h.free]
  rfl

/-- `brk` traps as its effect. -/
theorem brk_rule {n : BitVec 11} {s : State} (h : ReadyC { moves := true } s) :
    exec (.brk n) s = .next (trapped (.brk n) s (mkTrap 0x10 (n.toNat <<< 9) 0)) := by
  rw [exec_brk, execBrk]
  exact control_trap h rfl

/-- Settles O19, by `trap_rule` and `brk_rule`. -/
theorem trapInstructions : Obligations.TrapInstructions := by
  unfold Obligations.TrapInstructions
  exact fun n s h => ⟨trap_rule h, brk_rule h⟩

end Sys2Proof.Machine
end

section
/-! PROOFS. Hardware loops: the push, `loop.pop` and the end test (O17, O18). -/

namespace Sys2Proof.Machine

/-! ### The loop stack (R122) -/

/-- Writing an entry of the loop stack leaves the lanes below it as they are. -/
theorem lane_loopSet_below (h : Row) (i : Nat) (cnt beg fin : Word) {j : Nat} (hj : j < 8 + 3 * i) (h16 : j < 16) :
    lane (loopSet h i cnt beg fin) j = lane h j := by
  rw [loopSet, lane_setLane _ _ _ _ h16, if_neg (by omega), lane_setLane _ _ _ _ h16, if_neg (by omega),
    lane_setLane _ _ _ _ h16, if_neg (by omega)]

/-- The END lane of the entry. -/
theorem lane_loopSet_end (h : Row) {i : Nat} (cnt beg fin : Word) (hi : i < 2) : lane (loopSet h i cnt beg fin) (10 + 3 * i) = fin := by
  rw [loopSet, lane_setLane _ _ _ _ (by omega), if_pos rfl]

/-- MODE lies below the loop stack. -/
theorem modeOf_loopSet (h : Row) (i : Nat) (cnt beg fin : Word) : modeOf (loopSet h i cnt beg fin) = modeOf h := by
  rw [modeOf, lane_loopSet_below _ _ _ _ _ (by omega) (by omega)]
  rfl

/-- A stack that is not empty has its outer entry, and the inner one where its depth is 2 (R122). -/
theorem loopDepth_succ {h : Row} {d : Nat} (hd : loopDepth h = d + 1) : d = 0 ∨ (d = 1 ∧ lane h 10 ≠ 0) := by
  unfold loopDepth at hd
  split_ifs at hd with outer inner
  · exact .inl (by omega)
  · exact .inr ⟨by omega, outer⟩

/-- Without its innermost entry the stack is one entry shorter (R125). -/
theorem loopDepth_drop {h : Row} {d : Nat} (hd : loopDepth h = d + 1) : loopDepth (loopSet h d 0 0 0) = d := by
  obtain rfl | ⟨rfl, outer⟩ := loopDepth_succ hd
  · exact if_pos (lane_loopSet_end h 0 0 0 (by decide))
  · have kept : lane (loopSet h 1 0 0 0) 10 ≠ 0 := by rwa [lane_loopSet_below _ _ _ _ _ (by decide) (by decide)]
    exact (if_neg kept).trans (if_pos (lane_loopSet_end h 0 0 0 (by decide)))

/-! ### The end test (R125, R274) -/

theorem endTest_inTrap {h : Row} (hm : modeIT (modeOf h) = true) (p : Word) : endTest h p = (h, p + 8) := if_pos hm

theorem endTest_looks {h : Row} (hm : modeIT (modeOf h) = false) (p : Word) : endTest h p = endTestN p (loopDepth h) h :=
  if_neg (Bool.eq_false_iff.1 hm)

/-- The end test of a stack that is not empty, by its innermost entry. -/
theorem endTest_succ {h : Row} {d : Nat} (hm : modeIT (modeOf h) = false) (hd : loopDepth h = d + 1) (p : Word) : endTest h p =
    if lane h (10 + 3 * d) = p then
      if lane h (8 + 3 * d) = 0 then endTest (loopSet h d 0 0 0) p
      else (setLane h (8 + 3 * d) (lane h (8 + 3 * d) - 1), lane h (9 + 3 * d))
    else (h, p + 8) := by
  have dropped : endTest (loopSet h d 0 0 0) p = endTestN p d (loopSet h d 0 0 0) := by
    rw [endTest_looks (by rwa [modeOf_loopSet]), loopDepth_drop hd]
  rw [endTest_looks hm, hd, dropped]
  rfl

/-- Settles O18: `endTest_succ`, a case at a time. -/
theorem loopEndTest : Obligations.LoopEndTest := by
  unfold Obligations.LoopEndTest
  refine fun h p => ⟨fun hm => endTest_inTrap hm p, fun hm => ⟨fun empty => ?_, fun d hd elsewhere => ?_, fun d hd here more => ?_,
    fun d hd here last => ?_⟩⟩
  · rw [endTest_looks hm, empty]
    rfl
  · rw [endTest_succ hm hd, if_neg elsewhere]
  · rw [endTest_succ hm hd, if_pos here, if_neg more]
  · rw [endTest_succ hm hd, if_pos here, if_pos last]
    rfl

/-! ### The push (R123, R274) -/

/-- The loop stack takes no entry: it is full, or IT is set. -/
def LoopFull (h : Row) : Prop := modeIT (modeOf h) = true ∨ loopDepth h = 2

/-- The state with an entry pushed for n runs of the body that ends at fin. -/
def loopPushed (s : State) (n fin : Word) : State :=
  s.modC (fun c => c.setHdr (loopSet s.core.hdr (loopDepth s.core.hdr) (n - 1) (s.core.slot.pc + 8) fin))

theorem loopFull_iff (h : Row) : (modeIT (modeOf h) || loopDepth h == 2) = true ↔ LoopFull h := by simp [LoopFull]

/-- A word whose effect is the push of n runs: it traps LOOPOV, skips the body, or pushes. -/
theorem loopPush_rule {i : Instr} {p : CSpec} {f : List Row → State → CRes} {n fin : Word} {off : BitVec 15} {s : State} (h : ReadyC p s)
    (hf : f (readAll (readC s.core) p.srcs []) s = loopPush n off s) (hfin : branchTo s.core.slot.pc off = fin) :
    (LoopFull s.core.hdr → control i p f s = .next (trapped i s (mkTrap 0x0B 0 0))) ∧
    (¬ LoopFull s.core.hdr → n = 0 → ∃ t, control i p f s = .next t ∧ DoneC s s t p 0 (some (fin + 8))) ∧
    (¬ LoopFull s.core.hdr → n ≠ 0 → ∃ t, control i p f s = .next t ∧ DoneC s (loopPushed s n fin) t p 0 none) := by
  subst hfin
  refine ⟨fun full => control_trap h (hf.trans (if_pos ((loopFull_iff _).2 full))), fun room zero => ?_, fun room more => ?_⟩
  · exact control_done h (hf.trans ((if_neg (mt (loopFull_iff _).1 room)).trans (if_pos zero)))
  · exact control_done h (hf.trans ((if_neg (mt (loopFull_iff _).1 room)).trans (if_neg more)))

/-! ### `loop.pop` (R124) -/

/-- A header row written back as it stands changes no row. -/
theorem row_setHdr_hdr (c : Core) (q : Nat) : (c.setHdr c.hdr).row q = c.row q := by
  rw [Core.setHdr, row_setRow]
  split
  · next own => rw [← own]; rfl
  · rfl

/-- So a word whose effect that is leaves what a word without effect does. -/
theorem done_of_setHdr_hdr {s s1 t : State} {p : CSpec} {v : Row} {target : Option Word}
    (h : DoneC s (s1.modC (fun c => c.setHdr s1.core.hdr)) t p v target) : DoneC s s1 t p v target := by
  have rows : ∀ q, (s1.modC (fun c => c.setHdr s1.core.hdr)).core.row q = s1.core.row q := row_setHdr_hdr s1.core
  have after : afterC p (s1.modC (fun c => c.setHdr s1.core.hdr)) v target = afterC p s1 v target := by
    simp only [afterC, deliveredC, rows]
    rfl
  exact {
    outside := h.outside, core := h.core, slot := h.slot
    pc := h.pc.trans (congrArg Prod.snd after)
    header := h.header.trans (congrArg Prod.fst after)
    row := fun q hq late hd => rows q ▸ h.row q hq late hd
    rows := fun q hq hd => (h.rows q hq hd).trans (rows q)
    ofile := h.ofile, ofiles := h.ofiles, queue := h.queue, queues := h.queues, latch := h.latch, noLatch := h.noLatch
    chans := h.chans, joined := h.joined, unpaired := h.unpaired, window := h.window }

/-- `loop.pop` writes the header row back without its innermost entry. -/
theorem loopPop_rule {s : State} (h : ReadyC { hdrW := true } s) : ∃ t, exec .loopPop s = .next t ∧
    DoneC s (s.modC (fun c => c.setHdr (loopPopTop s.core.hdr))) t { hdrW := true } 0 none := by
  rw [exec_loopPop, execLoopPop]
  refine control_done h ?_
  simp only [State.modC]

theorem loopPopTop_zero {h : Row} (hd : loopDepth h = 0) : loopPopTop h = h := by rw [loopPopTop, hd]

theorem loopPopTop_succ {h : Row} {d : Nat} (hd : loopDepth h = d + 1) : loopPopTop h = loopSet h d 0 0 0 := by rw [loopPopTop, hd]

/-- Settles O17: `loop` and `loopi` by `loopPush_rule`, `loop.pop` with an entry and without. -/
theorem loopResults : Obligations.LoopResults := by
  unfold Obligations.LoopResults
  refine fun off s => ⟨fun a h => ?_, fun n h => ?_, fun h => ?_⟩
  · rw [exec_loop, execLoop]
    exact loopPush_rule h rfl (congrArg _ (word_offset off))
  · rw [exec_loopi, execLoopi]
    exact loopPush_rule h rfl (congrArg _ (word_offset off))
  · obtain ⟨t, ht, hdone⟩ := loopPop_rule h
    cases hd : loopDepth s.core.hdr with
    | zero =>
      rw [loopPopTop_zero hd] at hdone
      exact ⟨t, s, ht, done_of_setHdr_hdr hdone, fun _ => rfl, fun entry => absurd entry (Nat.lt_irrefl 0)⟩
    | succ d =>
      rw [loopPopTop_succ hd] at hdone
      exact ⟨t, _, ht, hdone, fun empty => absurd empty (Nat.succ_ne_zero d), fun _ => rfl⟩

end Sys2Proof.Machine
end

section
/-! PROOFS. What an access leaves alone before it is performed, and how it stops: the waits, PRIV, AL, and what the plan of its
address says (O28). -/

namespace Sys2Proof.Machine

/-! ### Requests for a translation (R320, R325) -/

/-- A walk is asked for in the list of misses, and nowhere else. -/
theorem askPage_eq (s : State) (m : Miss) : askPage s m = { s with misses := (askPage s m).misses } := by
  simp only [askPage]
  split
  · rfl
  · split <;> rfl

@[simp] theorem askPage_core (s : State) (m : Miss) : (askPage s m).core = s.core := by rw [askPage_eq]

/-- The list of external requests of the current core once it has asked for r (R325, R326). -/
def extAsked (s : State) (r : ExtReq) : List ExtReq :=
  let same (q : ExtReq) : Bool := q.asker == r.asker && q.kern == r.kern && q.pasid == r.pasid && q.page == r.page
  let new := { r with sent := !r.paged || mayPageReq s }
  match s.core.ext.find? same with
  | some q => if q.sent then s.core.ext else s.core.ext.map (fun e => if e = q then new else e)
  | none => s.core.ext ++ [new]

/-- The current core asks the host in its own list of requests, and nowhere else. -/
theorem askExt_own (s : State) (r : ExtReq) : askExt s s.core.id r = { s with core := { s.core with ext := extAsked s r } } := by
  unfold askExt extAsked
  rw [getCore_own]
  dsimp only
  generalize s.core.ext.find? _ = found
  cases found with
  | none => exact setCore_own rfl
  | some q =>
    by_cases sent : q.sent = true
    · simp only [if_pos sent]
    · simp only [if_neg sent]
      exact setCore_own rfl

/-- A request of the asker for the page is then out, or waits for a place. -/
theorem mem_extAsked (s : State) (r : ExtReq) :
    ∃ q ∈ extAsked s r, q.asker = r.asker ∧ q.kern = r.kern ∧ q.pasid = r.pasid ∧ q.page = r.page := by
  unfold extAsked
  dsimp only
  split
  · next q found =>
    have listed : q ∈ s.core.ext := List.mem_of_find?_eq_some found
    split
    · have same := List.find?_some found
      simp only [Bool.and_eq_true, beq_iff_eq] at same
      obtain ⟨⟨⟨ha, hk⟩, hp⟩, hg⟩ := same
      exact ⟨q, listed, ha, hk, hp, hg⟩
    · exact ⟨_, List.mem_map.2 ⟨q, listed, if_pos rfl⟩, rfl, rfl, rfl, rfl⟩
  · exact ⟨_, List.mem_append_right _ (List.mem_singleton.2 rfl), rfl, rfl, rfl, rfl⟩

/-! ### The entries of the ATC that an access uses (R325) -/

theorem modCore_own {s : State} {f : Core → Core} (h : (f s.core).id = s.core.id) : modCore s s.core.id f = { s with core := f s.core } := by
  rw [modCore, getCore_own, setCore_own h]

/-- An access renews an entry of its core's ATC, and changes nothing else. -/
theorem touchAtc_own (x : Xlat) (s : State) (v : Who) (a : Nat) (hv : v.core = s.core.id) :
    ∃ l, touchAtc x s v a = { s with core := { s.core with atc := l } } := by
  have same : ∃ l, s = { s with core := { s.core with atc := l } } := ⟨s.core.atc, rfl⟩
  unfold touchAtc
  split
  · dsimp only
    split
    · split
      · split
        · rw [hv, modCore_own rfl]
          exact ⟨_, rfl⟩
        · exact same
      · exact same
    · exact same
  · exact same

/-- So what an access goes on with is the state that it met, with other entries in the core's ATC. -/
theorem reached_own (s : State) (k : AKind) (n ea : Nat) : ∃ l, reached s k n ea = { s with core := { s.core with atc := l } } := by
  obtain ⟨l, first⟩ := touchAtc_own (xlOf s (who s)) s (who s) ea rfl
  unfold reached
  dsimp only
  rw [first]
  split
  · obtain ⟨m, second⟩ := touchAtc_own (xlOf { s with core := { s.core with atc := l } } (who s)) { s with core := { s.core with atc := l } } (who s) (ea + _) rfl
    rw [second]
    exact ⟨m, rfl⟩
  · exact ⟨l, rfl⟩

@[simp] theorem reached_mem (s : State) (k : AKind) (n ea : Nat) : (reached s k n ea).mem = s.mem := by
  obtain ⟨l, h⟩ := reached_own s k n ea
  rw [h]
@[simp] theorem reached_core_id (s : State) (k : AKind) (n ea : Nat) : (reached s k n ea).core.id = s.core.id := by
  obtain ⟨l, h⟩ := reached_own s k n ea
  rw [h]
@[simp] theorem reached_core_hvNow (s : State) (k : AKind) (n ea : Nat) : (reached s k n ea).core.hvNow = s.core.hvNow := by
  obtain ⟨l, h⟩ := reached_own s k n ea
  rw [h]

/-! ### The checks before the look-up (R146, R147, R151) -/

section
variable {s : State} {k : AKind} {ord : Ord} {n ea : Nat} {go : State → List Spot → CRes}

/-- An access waits while an acquire of its slot is held (R151). -/
theorem access_acquireHeld (h : acqHeld s = true) : access s k ord n ea go = .wait 100 s := if_pos h

/-- A store to the instruction store needs PRV (R147). -/
theorem access_priv (free : acqHeld s = false) (inStore : touchesStore s ea n = true) (prv : s.core.slot.prv = false) :
    access s .store ord n ea go = .trap s (mkTrap 0x11 0 0) := by
  rw [access, free, inStore, prv]
  rfl

theorem touchesStore_iff : touchesStore s ea n = true ↔ 0x1C00000 < ea + n ∧ ea < (if isMem s.core.id then 0x1C20000 else 0x1C40000) := by
  simp only [touchesStore, Bool.and_eq_true, decide_eq_true_eq]

/-- A load or store that R146 wants aligned and that is not traps AL. -/
theorem access_al (free : acqHeld s = false) (priv : k = .store → touchesStore s ea n = true → s.core.slot.prv = true) (hea : ea % n ≠ 0)
    (must : MustAlign s ord n) : access s k ord n ea go = .trap s (mkTrap 0x05 (if k.writes then infoWRO else 0) ea) :=
  access_misaligned free priv hea (must.imp_right (Or.imp_right .inr))

/-- How a control word stops whose effect is an access that arrives at its look-up. -/
theorem access_stopsAs {i : Instr} {p : CSpec} {f : List Row → State → CRes} (h : ReadyC p s)
    (word : exec i s = control i p f s) (effect : f (readAll (readC s.core) p.srcs []) s = access s k ord n ea go)
    (arrives : Arrives s k ord n ea) : StopsAs i s (planAccess s (who s) k ea n) := by
  rw [access_arrives arrives] at effect
  cases plan : planAccess s (who s) k ea n with
  | ok p m q => trivial
  | trap cause info faddr =>
    rw [plan] at effect
    exact word.trans (control_trap h effect)
  | miss page =>
    rw [plan] at effect
    refine ⟨_, word.trans (control_wait h effect), rfl, ?_, ?_, rfl⟩
    · rw [modS_mem, askPage_mem]
    · rw [modS_core, askPage_core]
  | ext r faddr =>
    rw [plan] at effect
    refine ⟨fun bad => ?_, fun good => ?_⟩
    · exact word.trans (control_trap h (effect.trans (if_pos bad)))
    · have asked := word.trans (control_wait h (effect.trans (if_neg (Bool.eq_false_iff.1 good))))
      rw [askExt_own] at asked
      exact ⟨_, asked, rfl, rfl, rfl, mem_extAsked s _⟩

end

/-! ### Accesses that a lock holds (R141) -/

/-- A lock of another cluster holds an access. -/
theorem mustHold_locked {s : State} {k : AKind} {ord : Ord} {scp : Scp} {l : List Spot} (h : lockedThere s k l = true) :
    mustHold s k ord scp l = true := by
  simp [mustHold, h]

/-- What a word leaves whose effect has held an access. -/
theorem heldAt_of_done {i : Instr} {p : CSpec} {s s1 t : State} {l : List Spot} (word : exec i s = .next t) (done : DoneC s s1 t p 0 none)
    (mem : s1.mem = s.mem) (held : ∃ h ∈ s1.held, h.core = s.core.id ∧ h.hv = s.core.hvNow ∧ h.spots = l) : HeldAt i s l := by
  refine ⟨t, word, ?_, ?_⟩
  · rw [done.outside]
    exact mem
  · rw [done.outside]
    exact held

theorem heldLoad_mem (s : State) (a : Opnd) (ord : Ord) (n ea : Nat) (l : List Spot) : (heldLoad s a ord n ea l).mem = s.mem := by simp [heldLoad]
theorem heldLoad_held (s : State) (a : Opnd) (ord : Ord) (n ea : Nat) (l : List Spot) :
    ∃ h ∈ (heldLoad s a ord n ea l).held, h.core = s.core.id ∧ h.hv = s.core.hvNow ∧ h.spots = l := by
  refine ⟨blankHeld (reached s .load n ea) l .load ord .core, by simp [heldLoad], ?_⟩
  simp [blankHeld]
theorem heldStore_mem (s : State) (bs : List Byte) (ord : Ord) (scp : Scp) (ea : Nat) (l : List Spot) : (heldStore s bs ord scp ea l).mem = s.mem := by
  simp [heldStore]
theorem heldStore_held (s : State) (bs : List Byte) (ord : Ord) (scp : Scp) (ea : Nat) (l : List Spot) :
    ∃ h ∈ (heldStore s bs ord scp ea l).held, h.core = s.core.id ∧ h.hv = s.core.hvNow ∧ h.spots = l := by
  refine ⟨{ blankHeld (reached s .store bs.length ea) l .store ord scp with store := some bs }, by simp [heldStore], ?_⟩
  simp [blankHeld]

/-! ### The loads and stores of the CM format (R144, R149, R150) -/

/-- Every load of R149 is `load` of its size and offset, and every store of R150 `store`. -/
theorem loadForms_exec {a b : Opnd} {off : BitVec 5} {ord : Ord} {scp : Scp} {ext : Word} {i : Instr} {n : Nat} {d : Word}
    (h : (i, n, d) ∈ loadForms a b off ord scp ext) (s : State) : exec i s = load i a b n d ord s := by
  have offset : ∀ m, BitVec.ofNat 32 (m * off.toNat) = scaled off m := fun m => by rw [scaled, Nat.mul_comm]
  have byte : BitVec.ofNat 32 off.toNat = scaled off 1 := by rw [scaled, Nat.mul_one]
  simp only [loadForms, List.mem_cons, List.not_mem_nil, or_false, Prod.mk.injEq, offset, byte] at h
  rcases h with ⟨rfl, rfl, rfl⟩ | ⟨rfl, rfl, rfl⟩ | ⟨rfl, rfl, rfl⟩ | ⟨rfl, rfl, rfl⟩ | ⟨rfl, rfl, rfl⟩ | ⟨rfl, rfl, rfl⟩ | ⟨rfl, rfl, rfl⟩ |
    ⟨rfl, rfl, rfl⟩ | ⟨rfl, rfl, rfl⟩ | ⟨rfl, rfl, rfl⟩ <;> rfl
theorem storeForms_exec {a b : Opnd} {off : BitVec 5} {ord : Ord} {scp : Scp} {ext : Word} {i : Instr} {n : Nat} {d : Word}
    (h : (i, n, d) ∈ storeForms a b off ord scp ext) (s : State) : exec i s = store i a b n d ord scp s := by
  have offset : ∀ m, BitVec.ofNat 32 (m * off.toNat) = scaled off m := fun m => by rw [scaled, Nat.mul_comm]
  have byte : BitVec.ofNat 32 off.toNat = scaled off 1 := by rw [scaled, Nat.mul_one]
  simp only [storeForms, List.mem_cons, List.not_mem_nil, or_false, Prod.mk.injEq, offset, byte] at h
  rcases h with ⟨rfl, rfl, rfl⟩ | ⟨rfl, rfl, rfl⟩ | ⟨rfl, rfl, rfl⟩ | ⟨rfl, rfl, rfl⟩ | ⟨rfl, rfl, rfl⟩ | ⟨rfl, rfl, rfl⟩ | ⟨rfl, rfl, rfl⟩ |
    ⟨rfl, rfl, rfl⟩ | ⟨rfl, rfl, rfl⟩ | ⟨rfl, rfl, rfl⟩ <;> rfl

/-- The store of the n low bytes of a row is an access of n bytes. -/
theorem storeAt_rowBytes (r : Row) (n : Nat) (ord : Ord) (scp : Scp) (ea : Nat) (s : State) :
    ∃ go, storeAt (rowBytes r n) ord scp ea s = access s .store ord n ea go := by
  unfold storeAt
  rw [rowBytes_length]
  exact ⟨_, rfl⟩

section
variable {a b : Opnd} {off : BitVec 5} {ord : Ord} {scp : Scp} {ext : Word} {i : Instr} {n : Nat} {d : Word} {s : State}

/-- The waits and traps of a load before its look-up. -/
theorem load_stops {p : CSpec} {ea : Nat} (hp : p = { srcs := [b], dst := some a, late := true }) (hea : ea = (argC0 s p 0 + d).toNat)
    (form : (i, n, d) ∈ loadForms a b off ord scp ext) (h : ReadyC p s) :
    (acqHeld s = true → exec i s = stallC s 100) ∧
    (acqHeld s = false → ea % n ≠ 0 → MustAlign s ord n → exec i s = .next (trapped i s (mkTrap 0x05 0 ea))) := by
  subst hp hea
  rw [loadForms_exec form, load]
  exact ⟨fun held => control_wait h (access_acquireHeld held), fun free hea must => control_trap h (access_al free nofun hea must)⟩

/-- A load that arrives at its look-up stops as its plan says, and one to bytes under another cluster's lock is held. -/
theorem load_looksUp {p : CSpec} {ea : Nat} {l : List Spot} (hp : p = { srcs := [b], dst := some a, late := true })
    (hea : ea = (argC0 s p 0 + d).toNat) (form : (i, n, d) ∈ loadForms a b off ord scp ext) (h : ReadyC p s) :
    (Arrives s .load ord n ea → StopsAs i s (planAccess s (who s) .load ea n)) ∧
    (Passes s .load ord n ea l → lockedThere (reached s .load n ea) .load l = true → HeldAt i s l) := by
  subst hp hea
  have word := loadForms_exec form s
  refine ⟨access_stopsAs h word rfl, fun passes locked => ?_⟩
  obtain ⟨t, ht, done⟩ := control_either (i := i) (f := fun _ => loadAt a ord n _) h (loadAt_held passes (mustHold_locked locked))
  exact heldAt_of_done (word.trans ht) done (heldLoad_mem ..) (heldLoad_held ..)

/-- The waits and traps of a store before its look-up. -/
theorem store_stops {p : CSpec} {ea : Nat} (hp : p = { srcs := [a, b] }) (hea : ea = (argC0 s p 1 + d).toNat)
    (form : (i, n, d) ∈ storeForms a b off ord scp ext) (h : ReadyC p s) :
    (acqHeld s = true → exec i s = stallC s 100) ∧
    (acqHeld s = false → touchesStore s ea n = true → s.core.slot.prv = false → exec i s = .next (trapped i s (mkTrap 0x11 0 0))) ∧
    (acqHeld s = false → (touchesStore s ea n = true → s.core.slot.prv = true) → ea % n ≠ 0 → MustAlign s ord n →
      exec i s = .next (trapped i s (mkTrap 0x05 infoWRO ea))) := by
  subst hp hea
  obtain ⟨go, effect⟩ := storeAt_rowBytes (argC s { srcs := [a, b] } 0) n ord scp (argC0 s { srcs := [a, b] } 1 + d).toNat s
  rw [storeForms_exec form, store]
  refine ⟨fun held => ?_, fun free inStore prv => ?_, fun free priv hea must => ?_⟩
  · exact control_wait h (effect.trans (access_acquireHeld held))
  · exact control_trap h (effect.trans (access_priv free inStore prv))
  · exact control_trap h (effect.trans (access_al free (fun _ => priv) hea must))

/-- A store that arrives at its look-up stops as its plan says, and one to bytes under another cluster's lock is held. -/
theorem store_looksUp {p : CSpec} {ea : Nat} {l : List Spot} (hp : p = { srcs := [a, b] }) (hea : ea = (argC0 s p 1 + d).toNat)
    (form : (i, n, d) ∈ storeForms a b off ord scp ext) (h : ReadyC p s) :
    (Arrives s .store ord n ea → StopsAs i s (planAccess s (who s) .store ea n)) ∧
    (Passes s .store ord n ea l → lockedThere (reached s .store n ea) .store l = true → HeldAt i s l) := by
  subst hp hea
  obtain ⟨go, effect⟩ := storeAt_rowBytes (argC s { srcs := [a, b] } 0) n ord scp (argC0 s { srcs := [a, b] } 1 + d).toNat s
  have word := storeForms_exec form s
  refine ⟨access_stopsAs h word effect, fun passes locked => ?_⟩
  have length := rowBytes_length (argC s { srcs := [a, b] } 0) n
  rw [← length] at passes locked
  obtain ⟨t, ht, done⟩ := control_either (i := i) (f := fun rs => storeAt (rowBytes (nth rs 0) n) ord scp _) h
    (storeAt_held passes (mustHold_locked (scp := scp) locked))
  exact heldAt_of_done (word.trans ht) done (heldStore_mem ..) (heldStore_held ..)

end

/-- Settles O28: the checks before the look-up, then what the plan of the address says. -/
theorem accessTrapsAndWaits : Obligations.AccessTrapsAndWaits := by
  unfold Obligations.AccessTrapsAndWaits
  refine ⟨fun a b off ord scp ext i n d s => ⟨fun form => load_stops rfl rfl form, fun form => ?_⟩,
    fun a b off ord scp ext i n d s l => ⟨fun form => load_looksUp rfl rfl form, fun form => store_looksUp rfl rfl form⟩⟩
  simp only [← touchesStore_iff]
  exact store_stops rfl rfl form

end Sys2Proof.Machine
end

section
/-! PROOFS. Indexed accesses and atomics (O29, O30). -/

namespace Sys2Proof.Machine

/-! ### Bases and effective addresses (R145, R154) -/

section
variable {b c : Row} {n : Nat} {go : Nat → State → CRes} {s : State}

theorem base64_wide (h : 2 ^ 20 ≤ (lane b 1).toNat) : base64 b = none := if_neg (by omega)
theorem base64_fits (h : (lane b 1).toNat < 2 ^ 20) : base64 b = some ((lane b 0).toNat + 2 ^ 32 * (lane b 1).toNat) := if_pos h

/-- The effective address of `ldx` and `stx`, exact. -/
def indexedEa (b c : Row) (n : Nat) : Int := (lane b 0).toNat + 2 ^ 32 * (lane b 1).toNat + (lane c 0).toInt * n

theorem indexed_wide (h : 2 ^ 20 ≤ (lane b 1).toNat) :
    indexed b c n go s = .trap s (mkTrap 0x03 infoDESC ((lane b 1).toNat + 2 ^ 32)) := by
  rw [indexed, base64_wide h]
  rfl

theorem indexed_fits (h : (lane b 1).toNat < 2 ^ 20) : indexed b c n go s =
    if indexedEa b c n < 0 ∨ 2 ^ 52 ≤ indexedEa b c n then .trap s (mkTrap 0x03 infoUNMAP (indexedEa b c n % 2 ^ 52).toNat)
    else go (indexedEa b c n).toNat s := by
  rw [indexed, base64_fits h]
  simp only [indexedEa, Nat.cast_add, Nat.cast_mul, Nat.cast_pow, Nat.cast_ofNat]
  rfl

theorem indexed_outside (h : (lane b 1).toNat < 2 ^ 20) (out : indexedEa b c n < 0 ∨ 2 ^ 52 ≤ indexedEa b c n) :
    indexed b c n go s = .trap s (mkTrap 0x03 infoUNMAP (indexedEa b c n % 2 ^ 52).toNat) := (indexed_fits h).trans (if_pos out)

theorem indexed_within (h : (lane b 1).toNat < 2 ^ 20) (lo : 0 ≤ indexedEa b c n) (hi : indexedEa b c n < 2 ^ 52) :
    indexed b c n go s = go (indexedEa b c n).toNat s := (indexed_fits h).trans (if_neg (by omega))

end

/-- Settles O29: `ldx` and `stx` are words with an indexed effect; what it goes on with is a load or a store. -/
theorem indexedResults : Obligations.IndexedResults := by
  unfold Obligations.IndexedResults
  refine fun a b c size s l => ⟨?_, ?_⟩
  · intro p n lo ea h
    have within := fun w => indexed_within (b := lo) (c := argC s p 1) (n := n) (go := loadAt a .rlx n) (s := s) w
    rw [exec_ldx, execLdx]
    refine ⟨fun w => control_trap h (indexed_wide w), fun w out => control_trap h (indexed_outside w out), fun w lo hi reaches => ?_,
      fun w lo hi passes held => ?_, fun w lo hi free off must => ?_⟩
    · have effect := loadAt_reaches (a := a) reaches
      exact control_either h (within w lo hi ▸ effect)
    · have effect := loadAt_held (a := a) passes held
      exact control_either h (within w lo hi ▸ effect)
    · exact control_trap h ((within w lo hi).trans (access_al free nofun off must))
  · intro p n lo ea h
    have length : (rowBytes (argC s p 0) n).length = n := rowBytes_length _ n
    have within := fun w => indexed_within (b := lo) (c := argC s p 2) (n := n) (go := storeAt (rowBytes (argC s p 0) n) .rlx .core) (s := s) w
    rw [exec_stx, execStx]
    refine ⟨fun w => control_trap h (indexed_wide w), fun w out => control_trap h (indexed_outside w out), fun w lo hi reaches => ?_,
      fun w lo hi passes held => ?_, ?_⟩
    · have effect := storeAt_reaches (length.symm ▸ reaches)
      exact control_either h (within w lo hi ▸ effect)
    · have effect := storeAt_held (bs := rowBytes (argC s p 0) n) (length.symm ▸ passes) (length.symm ▸ held)
      exact control_either h (within w lo hi ▸ effect)
    · intro inStore w lo hi free
      obtain ⟨go, effect⟩ := storeAt_rowBytes (argC s p 0) n .rlx .core ea.toNat s
      have look := (within w lo hi).trans effect
      exact ⟨fun there prv => control_trap h (look.trans (access_priv free (touchesStore_iff.2 there) prv)),
        fun priv off must => control_trap h (look.trans (access_al free (fun _ there => priv (touchesStore_iff.1 there)) off must))⟩

/-! ### Atomics (R155, R156, R324) -/

/-- Each operation of R155 is the one of its name on numbers. -/
theorem amoNew_rules (w x y : Nat) :
    amoNew .add w x y = (x + y) % 2 ^ w ∧ amoNew .and w x y = x &&& y ∧ amoNew .or w x y = x ||| y ∧ amoNew .xor w x y = x ^^^ y ∧
    signedVal w (amoNew .min w x y) = min (signedVal w x) (signedVal w y) ∧
    signedVal w (amoNew .max w x y) = max (signedVal w x) (signedVal w y) ∧
    amoNew .minn w x y = min x y ∧ amoNew .maxn w x y = max x y ∧ amoNew .swap w x y = y := by
  refine ⟨rfl, rfl, rfl, rfl, ?_, ?_, rfl, rfl, rfl⟩
  · rw [min_def, ← apply_ite (signedVal w)]
    rfl
  · rw [max_def, ← apply_ite (signedVal w)]
    rfl

/-- The spots lie in host memory (R324). -/
def AtHost (l : List Spot) : Prop := 2 ^ 53 ≤ spotKey l ∧ spotKey l < 3 * 2 ^ 52

/-- The state once an atomic is performed: v, if any, is written, and the old value goes to the destination (R155, R156). -/
def atomicDone (s : State) (a : Opnd) (scp : Scp) (n ea : Nat) (l : List Spot) (v : Option Nat) : State :=
  let r := reached s .rmw n ea
  (match v with
   | some v => writeSpots l (natBytes v n) (r.modS (fun x => { x with pend := x.pend ++ [pendOf r l scp] }))
   | none => r).modC (fun k => issueLate k a (lanesFor n) (some (BitVec.ofNat 512 (bytesNat (readSpots r r.core.slot.kern l)))) (spotKey l))

section
variable {s : State} {a : Opnd} {op : Option AmoOp} {n : Nat} {ord : Ord} {scp : Scp} {f : Nat → Option Nat} {rmw : Option (AmoOp × DWord)}
  {cas : Option (DWord × DWord)} {ea : Nat} {l : List Spot}

theorem hostCannot_iff : (decide (2 * spaceSize ≤ spotKey l) && isExternal (spotKey l) && !hostAtomic op) = true ↔
    AtHost l ∧ hostAtomic op = false := by
  rw [Bool.and_eq_true, Bool.and_eq_true, isExternal, Bool.and_eq_true, decide_eq_true_iff, decide_eq_true_iff, decide_eq_true_iff,
    Bool.not_eq_true', AtHost, show spaceSize = 2 ^ 52 from rfl]
  exact and_congr_left fun _ => by omega

/-- An atomic at host memory that the host does not carry traps ADDR with PERM (R324). -/
theorem atomicAt_refused (passes : Passes s .rmw ord n ea l) (host : AtHost l) (refused : hostAtomic op = false) :
    atomicAt a op n ord scp f rmw cas ea s = .trap (reached s .rmw n ea) (mkTrap 0x03 infoPERM ea) := by
  rw [atomicAt, access_passes passes]
  exact if_pos (hostCannot_iff.2 ⟨host, refused⟩)

/-- One that passes every check is performed. -/
theorem atomicAt_reaches (reaches : Reaches s .rmw ord scp n ea l) (carried : AtHost l → hostAtomic op = true) :
    let r := reached s .rmw n ea
    let t := atomicDone s a scp n ea l (f (bytesNat (readSpots r r.core.slot.kern l)))
    atomicAt a op n ord scp f rmw cas ea s = .go t 0 none ∨ atomicAt a op n ord scp f rmw cas ea s = .out t 0 := by
  have supported : ¬ (AtHost l ∧ hostAtomic op = false) := fun ⟨host, no⟩ => Bool.noConfusion ((carried host).symm.trans no)
  rw [atomicAt, access_passes reaches.toPasses]
  dsimp only
  rw [if_neg (mt hostCannot_iff.1 supported), if_neg (Bool.eq_false_iff.1 reaches.now)]
  unfold atomicDone
  dsimp only
  cases f (bytesNat (readSpots (reached s .rmw n ea) (reached s .rmw n ea).core.slot.kern l)) with
  | none => exact leaves_either ..
  | some v => exact leaves_either ..

/-- One that something holds back issues, and waits for it. -/
theorem atomicAt_held (passes : Passes s .rmw ord n ea l) (carried : AtHost l → hostAtomic op = true)
    (held : mustHold (reached s .rmw n ea) .rmw ord scp l = true) :
    atomicAt a op n ord scp f rmw cas ea s = .go (heldAtomic s a rmw cas ord scp n ea l) 0 none ∨
    atomicAt a op n ord scp f rmw cas ea s = .out (heldAtomic s a rmw cas ord scp n ea l) 0 := by
  have supported : ¬ (AtHost l ∧ hostAtomic op = false) := fun ⟨host, no⟩ => Bool.noConfusion ((carried host).symm.trans no)
  rw [atomicAt, access_passes passes]
  dsimp only
  rw [if_neg (mt hostCannot_iff.1 supported), if_pos held]
  exact leaves_either ..

/-- A misaligned one traps AL (R146). -/
theorem atomicAt_misaligned (free : acqHeld s = false) (off : ea % n ≠ 0) :
    atomicAt a op n ord scp f rmw cas ea s = .trap s (mkTrap 0x05 infoWRO ea) :=
  access_misaligned free nofun off (.inr (.inr (.inl rfl)))

end

/-- What R155, R156 and R324 ask of a word i with an atomic effect: its base is the row lo, op what the host has to carry, new
the value written over the old one, rmw and cas what a held one keeps. -/
structure AtomicWord (i : Instr) (s : State) (p : CSpec) (lo : Row) (a : Opnd) (op : Option AmoOp) (n : Nat) (ord : Ord) (scp : Scp)
    (new : Nat → Option Nat) (rmw : Option (AmoOp × DWord)) (cas : Option (DWord × DWord)) (ea : Nat) (l : List Spot) : Prop where
  wide : 2 ^ 20 ≤ (lane lo 1).toNat → exec i s = .next (trapped i s (mkTrap 0x03 infoDESC ((lane lo 1).toNat + 2 ^ 32)))
  done : (lane lo 1).toNat < 2 ^ 20 → Reaches s .rmw ord scp n ea l → (AtHost l → hostAtomic op = true) → ∃ t, exec i s = .next t ∧
    DoneC s (atomicDone s a scp n ea l (new (bytesNat (readSpots (reached s .rmw n ea) (reached s .rmw n ea).core.slot.kern l)))) t p 0 none
  misaligned : (lane lo 1).toNat < 2 ^ 20 → acqHeld s = false → ea % n ≠ 0 → exec i s = .next (trapped i s (mkTrap 0x05 infoWRO ea))
  held : (lane lo 1).toNat < 2 ^ 20 → Passes s .rmw ord n ea l → mustHold (reached s .rmw n ea) .rmw ord scp l = true →
    (AtHost l → hostAtomic op = true) → ∃ t, exec i s = .next t ∧ DoneC s (heldAtomic s a rmw cas ord scp n ea l) t p 0 none
  refused : (lane lo 1).toNat < 2 ^ 20 → Passes s .rmw ord n ea l → AtHost l → hostAtomic op = false →
    exec i s = .next (trapped i (reached s .rmw n ea) (mkTrap 0x03 infoPERM ea))

/-- A word that goes from its base to an atomic access is such a word. -/
theorem atomicWord_of {i : Instr} {s : State} {p : CSpec} {g : List Row → State → CRes} {lo : Row} {a : Opnd} {op : Option AmoOp} {n : Nat}
    {ord : Ord} {scp : Scp} {new : Nat → Option Nat} {rmw : Option (AmoOp × DWord)} {cas : Option (DWord × DWord)} {l : List Spot}
    (h : ReadyC p s) (word : exec i s = control i p g s)
    (bad : base64 lo = none → g (readAll (readC s.core) p.srcs []) s = malformed s lo 1)
    (good : ∀ ea, base64 lo = some ea → g (readAll (readC s.core) p.srcs []) s = atomicAt a op n ord scp new rmw cas ea s) :
    AtomicWord i s p lo a op n ord scp new rmw cas ((lane lo 0).toNat + 2 ^ 32 * (lane lo 1).toNat) l := by
  have fits := fun w => good _ (base64_fits (b := lo) w)
  refine ⟨fun w => ?_, fun w reaches carried => ?_, fun w free off => ?_, fun w passes held carried => ?_, fun w passes host no => ?_⟩
  · exact word.trans (control_trap h (bad (base64_wide w)))
  · rw [word]
    exact control_either h (fits w ▸ atomicAt_reaches reaches carried)
  · exact word.trans (control_trap h ((fits w).trans (atomicAt_misaligned free off)))
  · rw [word]
    exact control_either h (fits w ▸ atomicAt_held passes carried held)
  · exact word.trans (control_trap h ((fits w).trans (atomicAt_refused passes host no)))

/-- `amo`. -/
theorem amo_atomic {op : AmoOp} {a b c : Opnd} {ord : Ord} {scp : Scp} {d64 : Bool} {s : State} {p : CSpec} {l : List Spot}
    (hp : p = { srcs := [b, c], dst := some a, late := true }) (h : ReadyC p s) :
    let n := if d64 then 8 else 4
    let y := wide (argC s p 1) 0 d64
    AtomicWord (.amo op a b c ord scp d64) s p (argC s p 0) a (some op) n ord scp (fun old => some (amoNew op (8 * n) old y))
      (some (op, BitVec.ofNat 64 y)) none ((lane (argC s p 0) 0).toNat + 2 ^ 32 * (lane (argC s p 0) 1).toNat) l := by
  subst hp
  refine atomicWord_of h (exec_amo ..) (fun bad => ?_) fun ea good => ?_
  · rw [argC] at bad
    simp only [bad, argC]
  · rw [argC] at good
    simp only [good, argC]

/-- `cas`. -/
theorem cas_atomic {a b c : Opnd} {ord : Ord} {scp : Scp} {d64 : Bool} {s : State} {p : CSpec} {l : List Spot}
    (hp : p = { srcs := [b, c], dst := some a, late := true }) (h : ReadyC p s) :
    let n := if d64 then 8 else 4
    let x := wide (argC s p 1) 0 d64
    let y := wide (argC s p 1) 2 d64
    AtomicWord (.cas a b c ord scp d64) s p (argC s p 0) a none n ord scp (fun old => if old = x then some y else none) none
      (some (BitVec.ofNat 64 x, BitVec.ofNat 64 y)) ((lane (argC s p 0) 0).toNat + 2 ^ 32 * (lane (argC s p 0) 1).toNat) l := by
  subst hp
  refine atomicWord_of h (exec_cas ..) (fun bad => ?_) fun ea good => ?_
  · rw [argC] at bad
    simp only [bad, argC]
  · rw [argC] at good
    simp only [good, argC]
    rfl

/-- Settles O30: `amo` and `cas` are words with an atomic effect at their base. -/
theorem atomicResults : Obligations.AtomicResults := by
  unfold Obligations.AtomicResults
  refine ⟨fun w x y _ _ _ => amoNew_rules w x y, ?_⟩
  intro op a b c ord scp d64 s l p n lo ea r old host done bad perm h
  have amo := amo_atomic (op := op) (ord := ord) (scp := scp) (d64 := d64) (l := l) (p := p) rfl h
  have cas := cas_atomic (ord := ord) (scp := scp) (d64 := d64) (l := l) (p := p) rfl h
  exact ⟨fun w => ⟨amo.wide w, cas.wide w⟩, fun w reaches => ⟨amo.done w reaches, cas.done w reaches⟩,
    fun w free off => ⟨amo.misaligned w free off, cas.misaligned w free off⟩,
    fun w passes held => ⟨amo.held w passes held, cas.held w passes held⟩,
    fun w passes there => ⟨amo.refused w passes there, cas.refused w passes there⟩⟩

end Sys2Proof.Machine
end

section
/-! PROOFS. `cpy`, `cpseal`, `cpwait` and fences (O36). -/

namespace Sys2Proof.Machine

/-! ### `cpy` (R165, R166, R168, R169) -/

section
variable {k : CpyKind} {r : Row} {s : State} {j : Job}

/-- The job that `cpy` makes of a descriptor row, in the lowest free slot of its unit. -/
def copyJob (s : State) (k : CpyKind) (r : Row) : Job := cpyJob s k r (jobFree (getCl s (clIdx s.core.id)).jobs)

/-- The unit that the current core's jobs go to. -/
def ownUnit (s : State) : Cluster := getCl s (clIdx s.core.id)

/-- The job reads bytes that a held store of its own context writes (log 63). -/
def copyReadsHeld (s : State) (k : CpyKind) (j : Job) : Bool :=
  storeHeld s (cpySrcPieces s k j ++ if isReduce k then cpyDstPieces s k j else [])

theorem startCopy_malformed {l : Nat} (bad : cpyBad s k r (copyJob s k r) = some l) : startCopy k r s = malformed s r l := by
  rw [copyJob] at bad
  simp only [startCopy, bad]

theorem startCopy_srcOff (good : cpyBad s k r (copyJob s k r) = none) (off : (copyJob s k r).src % cpyAlign k ≠ 0) :
    startCopy k r s = .trap s (mkTrap 0x05 0 (copyJob s k r).src) := by
  rw [copyJob] at *
  simp only [startCopy, good]
  exact if_pos off

theorem startCopy_dstOff (good : cpyBad s k r (copyJob s k r) = none) (src : (copyJob s k r).src % cpyAlign k = 0)
    (off : (copyJob s k r).dst % cpyAlign k ≠ 0) : startCopy k r s = .trap s (mkTrap 0x05 infoWRO (copyJob s k r).dst) := by
  rw [copyJob] at *
  simp only [startCopy, good]
  rw [if_neg (not_not_intro src)]
  exact if_pos off

/-- A good descriptor of aligned ranges, where no acquire is held (R166, R151). -/
structure CopyFits (s : State) (k : CpyKind) (r : Row) (j : Job) : Prop where
  job : j = copyJob s k r
  good : cpyBad s k r j = none
  src : j.src % cpyAlign k = 0
  dst : j.dst % cpyAlign k = 0
  free : acqHeld s = false

theorem startCopy_full (fits : CopyFits s k r j) (full : jobCap (ownUnit s).id ≤ (ownUnit s).jobs.length) : startCopy k r s = .wait 100 s := by
  obtain ⟨rfl, good, src, dst, free⟩ := fits
  rw [copyJob] at *
  rw [ownUnit] at full
  simp only [startCopy, good]
  rw [if_neg (not_not_intro src), if_neg (not_not_intro dst), free, Bool.false_or]
  exact if_pos (decide_eq_true full)

/-- There is a place for the job (R142). -/
theorem startCopy_room (fits : CopyFits s k r j) (room : (ownUnit s).jobs.length < jobCap (ownUnit s).id) :
    (j.len = 0 → startCopy k r s = .go s (laneRow (jobWord j)) none) ∧
    (∀ page, j.len ≠ 0 → cpyMiss s k j = some page → startCopy k r s = waitPage s page) ∧
    (j.len ≠ 0 → cpyMiss s k j = none → (copyReadsHeld s k j = true ∨ rltRoom s (cpyRegs s k j) = false) → startCopy k r s = .wait 100 s) ∧
    (j.len ≠ 0 → cpyMiss s k j = none → copyReadsHeld s k j = false → rltRoom s (cpyRegs s k j) = true →
      startCopy k r s = .out (enqueue s { j with phase := phaseOf s (lane r 12) } (cpyRegs s k j)) (laneRow (jobWord j))) := by
  obtain ⟨rfl, good, src, dst, free⟩ := fits
  rw [copyJob, copyReadsHeld] at *
  rw [ownUnit] at room
  simp only [startCopy, good]
  rw [if_neg (not_not_intro src), if_neg (not_not_intro dst), free, Bool.false_or, decide_eq_false (Nat.not_le.2 room), if_neg Bool.false_ne_true]
  refine ⟨fun empty => if_pos empty, fun page some miss => ?_, fun some mapped waits => ?_, fun some mapped read room => ?_⟩
  · rw [if_neg some, miss]
  · rw [if_neg some, mapped]
    refine if_pos ?_
    rcases waits with h | h
    · rw [h, Bool.true_or]
    · rw [h, Bool.not_false, Bool.or_true]
  · rw [if_neg some, mapped]
    refine if_neg ?_
    rw [read, room]
    exact Bool.false_ne_true

/-- The identifier of a job (R143). -/
theorem jobWord_copyJob : jobWord (copyJob s k r) = BitVec.ofNat 32 ((chainNow s).opened * 65536 ||| jobFree (ownUnit s).jobs) :=
  congrArg (fun n => BitVec.ofNat 32 (n ||| _)) (Nat.shiftLeft_eq _ 16)

end

/-- `cpseal` (R171, R377). -/
theorem cpseal_rule {a : Opnd} {s : State} (h : ReadyC { dst := some a } s) : ∃ t, exec (.cpseal a) s = .next t ∧
    DoneC s (s.modS (fun x => setChain x { chainNow s with opened := (chainNow s).opened % 65535 + 1, lastSealed := (chainNow s).opened }))
      t { dst := some a } (laneRow (BitVec.ofNat 32 (chainNow s).opened)) none := by
  rw [exec_cpseal, execCpseal]
  exact control_done h rfl

/-! ### Jobs that start again (R173) -/

/-- The state with nothing to start again. -/
def noRetry (s : State) : State := s.modS (fun x => { x with retry := false })

theorem noRetry_eq {s : State} (h : s.core.slot.retry = false) : noRetry s = s := by
  show { s with core := { s.core with slot := { s.core.slot with retry := false } } } = s
  rw [← h]

/-- An issued word clears the mark itself. -/
theorem done_of_noRetry {s s1 t : State} {p : CSpec} {v : Row} {target : Option Word} (h : DoneC s (noRetry s1) t p v target) :
    DoneC s s1 t p v target where
  outside := h.outside
  core := h.core
  slot := h.slot
  pc := h.pc
  header := h.header
  row := h.row
  rows := h.rows
  ofile := h.ofile
  ofiles := h.ofiles
  queue := h.queue
  queues := h.queues
  latch := h.latch
  noLatch := h.noLatch
  chans := h.chans
  joined := h.joined
  unpaired := h.unpaired
  window := h.window

section
variable {s : State} {p : Job → Bool}

theorem modJobs_none {f : Job → Job} (h : ∀ j ∈ allJobs s, p j = false) : modJobs s p f = s := by
  have jobs : ∀ c ∈ s.clusters, ({ c with jobs := c.jobs.map (fun j => if p j then f j else j) } : Cluster) = c := by
    intro c hc
    have kept : c.jobs.map (fun j => if p j then f j else j) = c.jobs :=
      (List.map_congr_left fun j hj => if_neg (Bool.eq_false_iff.1 (h j (List.mem_flatMap.2 ⟨c, hc, hj⟩)))).trans (List.map_id _)
    rw [kept]
  rw [modJobs, mapCls, List.map_congr_left (g := id) jobs, List.map_id]

theorem restart_first (h : s.core.slot.retry = false) : restart s p = s := if_neg (Bool.eq_false_iff.1 h)

theorem restart_again (h : s.core.slot.retry = true) : restart s p =
    modJobs (noRetry s) (fun j => p j && j.isFaulted) (fun j => { j with st := .queued }) := if_pos h

/-- Where no job is waited for, nothing starts again. -/
theorem restart_idle (h : s.core.slot.retry = false ∨ (allJobs s).filter p = []) : restart s p = noRetry s := by
  cases first : s.core.slot.retry with
  | false => rw [restart_first first, noRetry_eq first]
  | true =>
    have none := List.filter_eq_nil_iff.1 (h.resolve_left (by rw [first]; decide))
    rw [restart_again first]
    exact modJobs_none fun j hj => by rw [Bool.eq_false_iff.2 (none j hj), Bool.false_and]

end

/-! ### CPF (R173) -/

theorem lowestSlot_mem {l : List Job} {j : Job} (h : lowestSlot l = some j) : j ∈ l := by
  induction l generalizing j with
  | nil => cases h
  | cons i r ih =>
    rw [lowestSlot] at h
    split at h
    · next k hk =>
      split at h
      · exact List.mem_cons_of_mem _ (ih (hk.trans h))
      · exact Option.some.inj h ▸ List.mem_cons_self
    · exact Option.some.inj h ▸ List.mem_cons_self

theorem cpfTrap_eq {s : State} {l : List Job} {j : Job} {c f : Nat} (lowest : lowestSlot (l.filter Job.isFaulted) = some j)
    (fault : j.st = .faulted c f) : cpfTrap s l = .trap s (mkTrap 0x0E (j.slot <<< 9 ||| c <<< 15) f) := by
  simp only [cpfTrap, lowest, fault]
  rfl

theorem any_isFaulted {l : List Job} {j : Job} (lowest : lowestSlot (l.filter Job.isFaulted) = some j) : l.any Job.isFaulted = true := by
  obtain ⟨listed, faulted⟩ := List.mem_filter.1 (lowestSlot_mem lowest)
  exact List.any_eq_true.2 ⟨j, listed, faulted⟩

theorem any_isFaulted_false {l : List Job} (h : ∀ j ∈ l, j.isFaulted = false) : ¬ l.any Job.isFaulted = true :=
  fun some => let ⟨j, hj, faulted⟩ := List.any_eq_true.1 some; Bool.noConfusion ((h j hj).symm.trans faulted)

/-! ### `cpwait` (R172) -/

section
variable {all : Bool} {b : Nat} {s : State}

/-- The batches of a `cpwait`, and the jobs that it waits for. -/
def coversBatch (s : State) (all : Bool) (b n : Nat) : Bool := if all then n != (chainNow s).opened else n == b
def covers (s : State) (all : Bool) (b : Nat) (j : Job) : Bool := mine s j && coversBatch s all b j.batch

theorem waitBatch_open (h : all = false ∧ b = (chainNow s).opened) : waitBatch all b s = .go s (waitWord b 2) none := by
  obtain ⟨rfl, rfl⟩ := h
  exact if_pos (by simp)

/-- What a `cpwait` for sealed batches does, from the state with its FAULTED jobs started again. -/
theorem waitBatch_sealed (h : all = true ∨ b ≠ (chainNow s).opened) {s1 : State} (hs : restart s (covers s all b) = s1) :
    waitBatch all b s =
      if !((allJobs s1).filter (covers s all b)).all (settled s1) then .wait outside s1
      else if ((allJobs s1).filter (covers s all b)).any Job.isFaulted then cpfTrap s1 ((allJobs s1).filter (covers s all b))
      else .go (if (chainNow s).revoked.any (coversBatch s all b) then
          s1.modS (fun x => setChain x { chainNow s1 with revoked := (chainNow s).revoked.filter (fun n => !coversBatch s all b n) }) else s1)
        (waitWord (if all then (chainNow s).lastSealed else b) (if (chainNow s).revoked.any (coversBatch s all b) then 1 else 0)) none := by
  subst hs
  have sealed : ¬ (!all && b == (chainNow s).opened) = true := by
    rcases h with rfl | h
    · simp
    · simp [h]
  exact if_neg sealed

theorem waitBatch_waits (h : all = true ∨ b ≠ (chainNow s).opened) {s1 : State} (hs : restart s (covers s all b) = s1)
    (open_ : ∃ j ∈ allJobs s1, covers s all b j = true ∧ settled s1 j = false) : waitBatch all b s = .wait 100 s1 := by
  obtain ⟨j, listed, covered, runs⟩ := open_
  rw [waitBatch_sealed h hs]
  refine if_pos ?_
  rw [Bool.not_eq_true', List.all_eq_false]
  exact ⟨j, List.mem_filter.2 ⟨listed, covered⟩, Bool.eq_false_iff.1 runs⟩

theorem waitBatch_faulted (h : all = true ∨ b ≠ (chainNow s).opened) {s1 : State} (hs : restart s (covers s all b) = s1) {j : Job} {c f : Nat}
    (settledAll : ∀ i ∈ (allJobs s1).filter (covers s all b), settled s1 i = true)
    (lowest : lowestSlot (((allJobs s1).filter (covers s all b)).filter Job.isFaulted) = some j) (fault : j.st = .faulted c f) :
    waitBatch all b s = .trap s1 (mkTrap 0x0E (j.slot <<< 9 ||| c <<< 15) f) := by
  rw [waitBatch_sealed h hs, if_neg (by rw [List.all_eq_true.2 settledAll]; decide), if_pos (any_isFaulted lowest)]
  exact cpfTrap_eq lowest fault

/-- Whether a job waits behind a FAULTED one does not depend on what has run before. -/
theorem blocked_noRetry (s : State) (f : Job → Bool) (n : Nat) (j : Job) : blocked (noRetry s) f n j = blocked s f n j := by
  induction n generalizing j with
  | zero => rfl
  | succ n ih =>
    rw [blocked, blocked]
    simp only [ih]
    rfl

theorem settled_noRetry (s : State) (j : Job) : settled (noRetry s) j = settled s j := congrArg (j.isFaulted || ·) (blocked_noRetry ..)

/-- The chain of the context once the revocations that a `cpwait` reports are taken away. -/
def chainReported (s : State) (all : Bool) (b : Nat) : Chain :=
  { chainNow s with revoked := (chainNow s).revoked.filter (fun n => !coversBatch s all b n) }

theorem waitBatch_done (h : all = true ∨ b ≠ (chainNow s).opened) (idle : s.core.slot.retry = false ∨ (allJobs s).filter (covers s all b) = [])
    (settledAll : ∀ i ∈ (allJobs s).filter (covers s all b), settled s i = true)
    (good : ∀ i ∈ (allJobs s).filter (covers s all b), i.isFaulted = false) :
    waitBatch all b s = .go (noRetry (if (chainNow s).revoked.any (coversBatch s all b) then s.modS (fun x => setChain x (chainReported s all b)) else s))
      (waitWord (if all then (chainNow s).lastSealed else b) (if (chainNow s).revoked.any (coversBatch s all b) then 1 else 0)) none := by
  have settledAll' : ∀ i ∈ (allJobs (noRetry s)).filter (covers s all b), settled (noRetry s) i = true :=
    fun i hi => (settled_noRetry s i).trans (settledAll i hi)
  have good' : ∀ i ∈ (allJobs (noRetry s)).filter (covers s all b), i.isFaulted = false := good
  rw [waitBatch_sealed h (restart_idle idle), if_neg (by rw [List.all_eq_true.2 settledAll']; decide), if_neg (any_isFaulted_false good')]
  split <;> rfl

end

/-! ### Fences (R158, R159) -/

section
variable {kind : FKind} {s : State}

/-- An acquire fence waits for the loads alone. -/
theorem waitFence_acq {e : Bool} : waitFence .acq e s = if loadsPending s then .wait 100 s else .go s 0 none := rfl

/-- Any other fence without E waits for the stores as well. -/
theorem waitFence_plain (h : kind ≠ .acq) :
    waitFence kind false s = if loadsPending s || !s.core.slot.pend.isEmpty then .wait 100 s else .go s 0 none := by
  have other : ¬ (kind == FKind.acq) = true := by simpa using h
  refine (if_neg other).trans ?_
  simp only [Bool.false_and, Bool.or_false]
  rfl

/-- What a fence with E waits for, s1 being the state with the FAULTED jobs started again. -/
def fenceOpen (s s1 : State) : Prop :=
  loadsPending s = true ∨ s.core.slot.pend ≠ [] ∨ enginesBusy s1 = true ∨
    ∃ j ∈ allJobs s1, mine s1 j = true ∧ j.isFaulted = false ∧ blocked s1 (mine s1) 64 j = false

/-- A fence with E. -/
theorem waitFence_engines (h : kind ≠ .acq) {s1 : State} (hs : restart s (mine s) = s1) (loads : loadsPending s1 = loadsPending s) :
    (fenceOpen s s1 → waitFence kind true s = .wait 100 s1) ∧
    (¬ fenceOpen s s1 → waitFence kind true s =
      if ((allJobs s1).filter (mine s1)).any Job.isFaulted then cpfTrap s1 ((allJobs s1).filter (mine s1)) else .go s1 0 none) := by
  have other : ¬ (kind == FKind.acq) = true := by simpa using h
  have open_iff : (loadsPending s1 || !s.core.slot.pend.isEmpty || (true && (enginesBusy s1 ||
      !((allJobs s1).filter (mine s1)).all (fun j => j.isFaulted || blocked s1 (mine s1) 64 j)))) = true ↔ fenceOpen s s1 := by
    simp only [fenceOpen, loads, Bool.true_and, Bool.or_eq_true, Bool.not_eq_true', List.isEmpty_eq_false_iff, List.all_eq_false, List.mem_filter,
      not_or, Bool.not_eq_true, or_assoc, and_assoc, ne_eq]
  subst hs
  exact ⟨fun o => (if_neg other).trans (if_pos (open_iff.2 o)), fun c => (if_neg other).trans (if_neg (mt open_iff.1 c))⟩

theorem fenceOpen_noRetry : fenceOpen s (noRetry s) ↔ fenceOpen s s := by
  simp only [fenceOpen, blocked_noRetry]
  rfl

end

/-! ### The obligation -/

theorem waitWord_eq (k st : Nat) : waitWord k st = laneRow (BitVec.ofNat 32 (k % 65536 * 65536 ||| st)) :=
  congrArg (fun n => laneRow (BitVec.ofNat 32 (n ||| st))) (Nat.shiftLeft_eq _ 16)

/-- A `cpwait` reports a revocation where its batches have lost a job. -/
theorem any_coversBatch (s : State) (all : Bool) (b : Nat) : (chainNow s).revoked.any (coversBatch s all b) = true ↔
    if all then ∃ i ∈ (chainNow s).revoked, i ≠ (chainNow s).opened else b ∈ (chainNow s).revoked := by
  cases all <;> simp [coversBatch]

/-- The revocations that it does not report stay. -/
theorem chainReported_eq (s : State) (all : Bool) (b : Nat) : chainReported s all b =
    { chainNow s with revoked := (chainNow s).revoked.filter (fun i => if all then i == (chainNow s).opened else i != b) } := by
  cases all <;> simp [chainReported, coversBatch, bne]

/-- `cpwait`, where the jobs of its batches have left their units. -/
theorem cpwait_done {all : Bool} {a b : Opnd} {s : State} {p : CSpec} {n : Nat} (hp : p = { srcs := if all then [] else [b], dst := some a })
    (h : ReadyC p s) (hn : n = (argC0 s p 0).toNat) (sealedB : all = true ∨ n ≠ (chainNow s).opened)
    (idle : s.core.slot.retry = false ∨ (allJobs s).filter (covers s all n) = [])
    (settledAll : ∀ i ∈ (allJobs s).filter (covers s all n), settled s i = true)
    (good : ∀ i ∈ (allJobs s).filter (covers s all n), i.isFaulted = false) :
    ∃ t, exec (.cpwait all a b) s = .next t ∧
      DoneC s (if (chainNow s).revoked.any (coversBatch s all n) then s.modS (fun x => setChain x (chainReported s all n)) else s) t p
        (waitWord (if all then (chainNow s).lastSealed else n) (if (chainNow s).revoked.any (coversBatch s all n) then 1 else 0)) none := by
  subst hp hn
  obtain ⟨t, ht, done⟩ := control_done (i := .cpwait all a b) (f := fun rs => waitBatch all (lane (nth rs 0) 0).toNat) h
    (waitBatch_done sealedB idle settledAll good)
  exact ⟨t, ht, done_of_noRetry done⟩

/-- Settles O36, an instruction at a time. -/
theorem copyAndFenceResults : Obligations.CopyAndFenceResults := by
  unfold Obligations.CopyAndFenceResults
  refine ⟨⟨?_, fun a s h => cpseal_rule h, ?_⟩, ?_⟩
  · intro k a b s p h r u j reads ident
    rw [exec_cpy, execCpy]
    refine ⟨fun l bad => control_trap h (startCopy_malformed bad), fun good => ⟨fun off => control_trap h (startCopy_srcOff good off),
      fun src off => control_trap h (startCopy_dstOff good src off), fun src dst free => ?_⟩⟩
    have fits : CopyFits s k r j := ⟨rfl, good, src, dst, free⟩
    have room := startCopy_room fits
    rw [show laneRow (jobWord j) = ident from congrArg laneRow jobWord_copyJob] at room
    refine ⟨fun full => control_wait h (startCopy_full fits full), fun place empty => ?_, fun page place some miss => ?_,
      fun place some mapped waits => ?_, fun place some mapped read regs => ?_⟩
    · obtain ⟨nothing, -⟩ := room place
      exact control_done h (nothing empty)
    · obtain ⟨-, walk, -⟩ := room place
      refine ⟨_, control_wait h (walk page some miss), rfl, ?_⟩
      rw [modS_mem, askPage_mem]
    · obtain ⟨-, -, wait, -⟩ := room place
      exact control_wait h (wait some mapped waits)
    · obtain ⟨-, -, -, queued⟩ := room place
      exact control_sent h (queued some mapped read regs)
  · intro all a b s p h n c word cov l rev again
    have effect := fun {s1 : State} {code : Nat} (g : waitBatch all n s = .wait code s1) =>
      control_wait (i := .cpwait all a b) (f := fun rs => waitBatch all (lane (nth rs 0) 0).toNat) h g
    have reports : c.revoked.any (coversBatch s all n) = true ↔ rev := any_coversBatch s all n
    refine ⟨fun one newest => ?_, fun sealedB => ⟨fun idle settledAll good => ?_, fun first runs => ?_, fun j code f first settledAll lowest fault => ?_,
      fun again runs => ?_⟩⟩
    · rw [exec_cpwait, execCpwait]
      exact control_done h ((waitBatch_open ⟨one, newest⟩).trans (congrArg (CRes.go s · none) (waitWord_eq n 2)))
    · obtain ⟨t, ht, done⟩ := cpwait_done rfl h rfl sealedB idle settledAll good
      by_cases hrev : rev
      · rw [if_pos (reports.2 hrev), if_pos (reports.2 hrev), waitWord_eq, chainReported_eq] at done
        exact ⟨t, _, ht, by rw [if_pos hrev]; exact done, absurd hrev, fun _ => rfl⟩
      · rw [if_neg (mt reports.1 hrev), if_neg (mt reports.1 hrev), waitWord_eq] at done
        exact ⟨t, s, ht, by rw [if_neg hrev]; exact done, fun _ => rfl, fun r => absurd r hrev⟩
    · obtain ⟨i, hi, unsettled⟩ := runs
      obtain ⟨listed, covered⟩ := List.mem_filter.1 hi
      exact effect (waitBatch_waits sealedB (restart_first first) ⟨i, listed, covered, unsettled⟩)
    · rw [exec_cpwait, execCpwait]
      exact control_trap h (waitBatch_faulted sealedB (restart_first first) settledAll lowest fault)
    · exact effect (waitBatch_waits sealedB (restart_again again) runs)
  · intro kind scp e s h own again open_
    rw [exec_fence, execFence]
    refine ⟨?_, ?_, ?_, ?_⟩
    · rintro rfl pending
      exact control_wait h (waitFence_acq.trans (if_pos pending))
    · rintro rfl landed
      exact control_done h (waitFence_acq.trans (if_neg (Bool.eq_false_iff.1 landed)))
    · rintro other rfl
      refine ⟨fun waits => ?_, fun landed performed => ?_⟩
      · refine control_wait h ((waitFence_plain other).trans (if_pos ?_))
        rcases waits with w | w <;> simp [w]
      · refine control_done h ((waitFence_plain other).trans (if_neg ?_))
        simp [landed, performed]
    · rintro other rfl
      have first := fun r : s.core.slot.retry = false => waitFence_engines other (restart_first r) rfl
      refine ⟨fun r waits => control_wait h ((first r).1 waits), fun j code f r closed lowest fault => ?_, fun idle closed good => ?_,
        fun r waits => control_wait h ((waitFence_engines other (restart_again r) rfl).1 waits)⟩
      · have effect := ((first r).2 closed).trans (if_pos (any_isFaulted lowest))
        exact control_trap h (effect.trans (cpfTrap_eq lowest fault))
      · have goesOn := (waitFence_engines other (restart_idle idle) rfl).2 (mt fenceOpen_noRetry.1 closed)
        have good' : ∀ j ∈ (allJobs (noRetry s)).filter (mine (noRetry s)), j.isFaulted = false := good
        obtain ⟨t, ht, done⟩ := control_done (i := .fence kind scp true) (f := fun _ => waitFence kind true) h
          (goesOn.trans (if_neg (any_isFaulted_false good')))
        exact ⟨t, ht, done_of_noRetry done⟩

end Sys2Proof.Machine
end

section
/-! PROOFS. Copy jobs start and move, streams carry beats (O45). -/

namespace Sys2Proof.Machine

/-! ### Whose turn it is (R142) -/

theorem lowestSlot_none {l : List Job} (h : lowestSlot l = none) : l = [] := by
  cases l with
  | nil => rfl
  | cons i r =>
    rw [lowestSlot] at h
    split at h
    · split at h <;> cases h
    · cases h

/-- No job lies below the one of the lowest slot. -/
theorem lowestSlot_le {l : List Job} {j k : Job} (h : lowestSlot l = some j) (hk : k ∈ l) : j.slot ≤ k.slot := by
  induction l generalizing j k with
  | nil => cases hk
  | cons i r ih =>
    rw [lowestSlot] at h
    split at h
    · next m hm =>
      split at h
      · next below =>
        obtain rfl := Option.some.inj h
        rcases List.mem_cons.1 hk with rfl | hk
        · exact below.le
        · exact ih hm hk
      · next above =>
        obtain rfl := Option.some.inj h
        rcases List.mem_cons.1 hk with rfl | hk
        · exact le_rfl
        · exact le_trans (Nat.not_lt.1 above) (ih hm hk)
    · next none =>
      obtain rfl := Option.some.inj h
      rw [lowestSlot_none none] at hk
      rw [List.mem_singleton.1 hk]

/-- The next beat goes to the lowest slot above the last one's, or else to the lowest of all. -/
theorem nextBeat_roundRobin {u : Cluster} {j : Job} (h : nextBeat u = some j) : j ∈ u.jobs ∧ j.beats = true ∧
    ∀ k ∈ u.jobs, k.beats = true → k.slot ≠ j.slot →
      (u.rr < j.slot → k.slot < j.slot → k.slot ≤ u.rr) ∧ (j.slot ≤ u.rr → j.slot < k.slot ∧ k.slot ≤ u.rr) := by
  have above : ∀ {k : Job}, k ∈ u.jobs → k.beats = true → u.rr < k.slot → k ∈ u.jobs.filter (fun j => j.beats && decide (u.rr < j.slot)) :=
    fun hk hb hr => List.mem_filter.2 ⟨hk, by rw [hb, decide_eq_true hr]; rfl⟩
  unfold nextBeat at h
  cases first : lowestSlot (u.jobs.filter (fun j => j.beats && decide (u.rr < j.slot))) with
  | some i =>
    rw [first] at h
    obtain rfl := Option.some.inj h
    obtain ⟨listed, turn⟩ := List.mem_filter.1 (lowestSlot_mem first)
    rw [Bool.and_eq_true, decide_eq_true_iff] at turn
    refine ⟨listed, turn.1, fun k hk hb other => ⟨fun _ lower => ?_, fun le => absurd turn.2 (Nat.not_lt.2 le)⟩⟩
    by_contra hr
    exact absurd (lowestSlot_le first (above hk hb (Nat.not_le.1 hr))) (Nat.not_le.2 lower)
  | none =>
    rw [first] at h
    obtain ⟨listed, turn⟩ := List.mem_filter.1 (lowestSlot_mem h)
    have below : ∀ k ∈ u.jobs, k.beats = true → k.slot ≤ u.rr := fun k hk hb => by
      by_contra hr
      exact List.not_mem_nil (lowestSlot_none first ▸ above hk hb (Nat.not_le.1 hr))
    refine ⟨listed, turn, fun k hk hb other => ⟨fun _ _ => below k hk hb, fun _ => ⟨?_, below k hk hb⟩⟩⟩
    exact lt_of_le_of_ne (lowestSlot_le h (List.mem_filter.2 ⟨hk, hb⟩)) (Ne.symm other)

/-! ### Copy jobs (R142, R167, R170, R366) -/

/-- The first job that nothing holds back starts. -/
theorem copyJobStart_rule {s : State} {cl : Nat} {k : Job} (first : (getCl s cl).jobs.find? (startable s) = some k)
    (room : 256 ≤ cl ∨ ((getCl s cl).jobs.filter (fun j => j.st == .running)).length < 8) :
    exec (.copyJobStart cl k.slot) s =
      .next (setCl s { getCl s cl with jobs := (getCl s cl).jobs.map (fun i => if i.slot = k.slot then { i with st := .running } else i) }) := by
  rw [exec_copyJobStart]
  simp only [execCopyJobStart, first]
  refine if_neg ?_
  rw [Bool.or_eq_true, decide_eq_true_iff, Bool.and_eq_true, decide_eq_true_iff, decide_eq_true_iff]
  omega

/-- The state once the turn of a unit's beats has come to a job. -/
def turned (s : State) (cl : Nat) (j : Job) : State := setCl s { getCl s cl with rr := j.slot }

/-- It is the turn of a copy job, and no refresh window holds its beat (R138, R142). -/
structure CopyTurn (s : State) (cl : Nat) (j : Job) (k : CpyKind) : Prop where
  turn : nextBeat (getCl s cl) = some j
  kind : j.kind = .cpy k
  ready : sliceWaits (turned s cl j) j = false ∨ k = .fill

section
variable {s : State} {cl : Nat} {j : Job} {k : CpyKind}

theorem CopyTurn.noWindow (h : CopyTurn s cl j k) : ¬ (sliceWaits (turned s cl j) j && k != .fill) = true := by
  rcases h.ready with ready | rfl
  · rw [ready]
    exact Bool.false_ne_true
  · rw [show (CpyKind.fill != .fill) = false from rfl, Bool.and_false]
    exact Bool.false_ne_true

/-- A beat whose target no link reaches now waits (R365). -/
theorem copyBeat_linksWait (h : CopyTurn s cl j k) (waits : ∃ l ∈ jobLinks (turned s cl j) j, linksWait (turned s cl j) l = true)
    (up : ∀ l ∈ jobLinks (turned s cl j) j, linksCut (turned s cl j) l = false) : exec (.copyBeat cl j.slot false) s = .next (turned s cl j) := by
  have window := h.noWindow
  have goesOn : jobHeld (turned s cl j) j = turned s cl j := by
    have uncut : (jobLinks (turned s cl j) j).any (linksCut (turned s cl j)) = false :=
      List.any_eq_false.2 fun l hl => Bool.eq_false_iff.1 (up l hl)
    rw [jobHeld, linkStop, uncut, Bool.false_and]
    rfl
  rw [exec_copyBeat]
  simp only [execCopyBeat, h.turn, h.kind]
  rw [if_neg (not_not_intro rfl)]
  refine (if_neg window).trans ((if_pos (List.any_eq_true.2 waits)).trans (congrArg _ goesOn))

/-- Links lead to every target of the beat. -/
def LinksUp (s : State) (cl : Nat) (j : Job) : Prop := ∀ l ∈ jobLinks (turned s cl j) j, linksWait (turned s cl j) l = false

theorem LinksUp.none_waits (h : LinksUp s cl j) : ¬ (jobLinks (turned s cl j) j).any (linksWait (turned s cl j)) = true :=
  Bool.eq_false_iff.1 (List.any_eq_false.2 fun l hl => Bool.eq_false_iff.1 (h l hl))

/-- A beat that meets an uncorrectable error stops the job FAULTED with kind 5 (R170). -/
theorem copyBeat_error (h : CopyTurn s cl j k) (up : LinksUp s cl j) (other : k ≠ .fill) :
    exec (.copyBeat cl j.slot true) s = .next (setJob (turned s cl j) cl { j with st := .faulted 5 (beatAddr j k) }) := by
  rw [exec_copyBeat]
  simp only [execCopyBeat, h.turn, h.kind]
  rw [if_neg (not_not_intro rfl)]
  refine (if_neg h.noWindow).trans ((if_neg up.none_waits).trans (if_pos ?_))
  rw [Bool.true_and]
  exact bne_iff_ne.2 other

/-- An address that names nothing or is not allowed stops it with the kind of its fault. -/
theorem beatFault_kind {v : State} {a kind : Nat} {t : Tr} (h : faultKind t = some kind) :
    beatFault v cl j (a, t) = setJob v cl { j with st := .faulted kind a, xl := Xlat.none } := by
  unfold beatFault
  cases t with
  | ok p => cases h
  | miss page => cases h
  | ext r => cases h
  | addr info => simp only [h]
  | extern => simp only [h]

theorem copyBeat_fault (h : CopyTurn s cl j k) (up : LinksUp s cl j) {a kind : Nat} {t : Tr} (beat : cpyBeat (turned s cl j) j k = .error (a, t))
    (fault : faultKind t = some kind) :
    exec (.copyBeat cl j.slot false) s = .next (setJob (turned s cl j) cl { j with st := .faulted kind a, xl := Xlat.none }) := by
  have window := h.noWindow
  have links := up.none_waits
  have stops : exec (.copyBeat cl j.slot false) s = .next (beatFault (turned s cl j) cl j (a, t)) := by
    rw [turned] at *
    rw [exec_copyBeat]
    simp only [execCopyBeat, h.turn, h.kind, beat]
    rw [if_neg (not_not_intro rfl)]
    exact (if_neg window).trans (if_neg links)
  rw [stops, beatFault_kind fault]

/-- The state once a beat has brought the package to s2: its ATC entries and its energy (R325, R351). -/
def beatCounted (v s2 : State) (j : Job) (k : CpyKind) : State :=
  let n := min 64 (j.len - 64 * j.beat)
  let y := chargeN (if k = .fill then 1 else 2) (touchRange j.xl (touchRange j.xl s2 j.who (beatAddr j k) n) j.who (j.dst + 64 * j.beat) n)
    j.core .sram j.ctxid j.proc j.kern
  if beatLeaves v j then charge y j.core .net j.ctxid j.proc j.kern else y

/-- A beat that is performed, before the last one and as the last one. -/
theorem copyBeat_moves (h : CopyTurn s cl j k) (up : LinksUp s cl j) {s2 : State} (beat : cpyBeat (turned s cl j) j k = .ok s2) :
    let z := beatCounted (turned s cl j) s2 j k
    (64 * (j.beat + 1) < j.len → exec (.copyBeat cl j.slot false) s = .next (setJob z cl { j with beat := j.beat + 1, xl := Xlat.none })) ∧
    (j.len ≤ 64 * (j.beat + 1) → exec (.copyBeat cl j.slot false) s = .next (dropJob z cl j)) := by
  have window := h.noWindow
  have links := up.none_waits
  have cost : (if (k == .fill) = true then 1 else 2) = if k = .fill then 1 else 2 := if_congr beq_iff_eq rfl rfl
  have moved : exec (.copyBeat cl j.slot false) s =
      if j.len ≤ 64 * (j.beat + 1) then .next (dropJob (beatCounted (turned s cl j) s2 j k) cl j)
      else .next (setJob (beatCounted (turned s cl j) s2 j k) cl { j with beat := j.beat + 1, xl := Xlat.none }) := by
    rw [turned] at *
    rw [beatCounted, ← cost, exec_copyBeat]
    simp only [execCopyBeat, h.turn, h.kind, beat]
    rw [if_neg (not_not_intro rfl)]
    exact (if_neg window).trans (if_neg links)
  exact ⟨fun more => moved.trans (if_neg (Nat.not_le.2 more)), fun last => moved.trans (if_pos last)⟩

/-- What a beat does where its source and its destination are there (R167, R366). -/
theorem cpyBeat_ok {v : State} {src : List Byte} {ps : List (Place × Nat)} (source : cpySource v j k (64 * j.beat) (min 64 (j.len - 64 * j.beat)) = .ok src)
    (target : jobPlaces v j (if isReduce k then .rmw else .store) (j.dst + 64 * j.beat) (min 64 (j.len - 64 * j.beat)) = .ok ps) :
    cpyBeat v j k = .ok (if isReduce k = false then writePlaces j ps src v
      else if j.beat < expected v j then v
      else writePlaces j ps (combine k (readPlaces v j ps) src) (accepted v j)) := by
  simp only [cpyBeat, source, target]
  cases isReduce k with
  | false => rfl
  | true => exact (apply_ite Except.ok ..).symm

end

/-! ### Streams (R163, R164, R361) -/

section
variable {s : State} {w v : Word} {t : Strm} {b : Beat}

/-- What an update of one core keeps is the same in every core. -/
theorem getCore_modCore_keeps {α : Type} (g : Core → α) {f : Core → Core} (hid : (f (getCore s w)).id = w)
    (hg : g (f (getCore s w)) = g (getCore s w)) : g (getCore (modCore s w f) v) = g (getCore s v) := by
  rw [getCore_modCore s w v f hid]
  split
  · next h => rw [hg, h]
  · rfl

theorem getCore_rltDrop (s : State) (es : List (Nat × Nat)) : getCore (rltDrop s es) w = getCore s w := by
  induction es generalizing s with
  | nil => rfl
  | cons e es ih =>
    refine (ih _).trans (getCore_setCl s _ w ?_)
    dsimp only
    rw [getCl_id]

/-- The energy of work is counted in the activity of a core, and nowhere else (R351). -/
theorem chan_charge (k n : Nat) (x : Word) (cls : AClass) (ctxid proc : Nat) (kern : KRef) :
    chanOf (getCore (chargeN n s x cls ctxid proc kern) v) k = chanOf (getCore s v) k :=
  getCore_modCore_keeps (chanOf · k) (getCore_id s x) rfl
theorem strms_charge (n : Nat) (x : Word) (cls : AClass) (ctxid proc : Nat) (kern : KRef) :
    (getCore (chargeN n s x cls ctxid proc kern) v).strms = (getCore s v).strms :=
  getCore_modCore_keeps Core.strms (getCore_id s x) rfl

/-- A beat joins its channel. -/
def addBeat (t : Strm) (b : Beat) (q : Vector (List Beat) 4) : Vector (List Beat) 4 := q.set! t.ch (q[t.ch]?.getD [] ++ [b])

/-- A beat of a stream of core w leaves it: its energy is counted, and it is in the channel of its destination. -/
def sentBeat (s : State) (w : Word) (t : Strm) (b : Beat) : State :=
  modCore (charge (charge s w .sram t.ctxid t.proc t.kern) w .net t.ctxid t.proc t.kern) t.dest
    (fun d => { d with chans := addBeat t b d.chans, ckpt := d.ckpt.map (fun k => { k with chans := addBeat t b k.chans }) })

/-- The stream of number i once its beat has left: it goes on, or it has ended (R164). -/
def streamMoved (s : State) (w : Word) (i : Nat) (t : Strm) (last : Bool) : State :=
  if last then rltDrop (modCore s w (fun c => { c with strms := c.strms.eraseIdx i })) t.rlt
  else modCore s w (fun c => { c with strms := c.strms.set i { t with i := t.i + 1 } })

theorem sentBeat_chan (hch : t.ch < 4) : chanOf (getCore (sentBeat s w t b) t.dest) t.ch = chanOf (getCore s t.dest) t.ch ++ [b] := by
  have before : ∀ c : Core, chanOf { c with chans := addBeat t b c.chans } t.ch = chanOf c t.ch ++ [b] := fun c => by
    simp only [chanOf, addBeat]
    rw [Vector.set!_eq_setIfInBounds, Vector.getElem?_setIfInBounds, if_pos rfl, if_pos hch]
    rfl
  rw [sentBeat, getCore_modCore _ _ _ _ (getCore_id _ _), if_pos rfl]
  refine (before _).trans (congrArg (· ++ [b]) ?_)
  rw [charge, charge, chan_charge, chan_charge]

theorem sentBeat_strms : (getCore (sentBeat s w t b) v).strms = (getCore s v).strms := by
  rw [sentBeat, getCore_modCore_keeps Core.strms (getCore_id _ _) rfl, charge, charge, strms_charge, strms_charge]

theorem sentBeat_mem : (sentBeat s w t b).mem = s.mem := by simp [sentBeat]
theorem sentBeat_stops : (sentBeat s w t b).stops = s.stops := by simp [sentBeat, charge, chargeN]

variable {i k : Nat} {last : Bool}

theorem streamMoved_chan : chanOf (getCore (streamMoved s w i t last) v) k = chanOf (getCore s v) k := by
  unfold streamMoved
  split
  · rw [getCore_rltDrop]
    exact getCore_modCore_keeps (chanOf · k) (getCore_id s w) rfl
  · exact getCore_modCore_keeps (chanOf · k) (getCore_id s w) rfl
theorem streamMoved_strms : (getCore (streamMoved s w i t last) w).strms =
    if last then (getCore s w).strms.eraseIdx i else (getCore s w).strms.set i { t with i := t.i + 1 } := by
  cases last with
  | false =>
    rw [streamMoved, if_neg Bool.false_ne_true, if_neg Bool.false_ne_true, getCore_modCore _ _ _ _ (getCore_id s w), if_pos rfl]
  | true =>
    rw [streamMoved, if_pos rfl, if_pos rfl, getCore_rltDrop, getCore_modCore _ _ _ _ (getCore_id s w), if_pos rfl]
theorem streamMoved_mem : (streamMoved s w i t last).mem = s.mem := by
  unfold streamMoved; split <;> simp
theorem streamMoved_stops : (streamMoved s w i t last).stops = s.stops := by
  unfold streamMoved
  split
  · rw [rltDrop_frame, modCore_stops]
  · rw [modCore_stops]

/-- The target address of a stream's next beat. -/
def Strm.beatKey (t : Strm) : Nat := ((t.key : Int) + t.off t.i).toNat

/-- Nothing holds the next beat of stream i of core w (R138, R163, R164, R365). -/
structure StreamMoves (s : State) (w : Word) (i : Nat) (t : Strm) : Prop where
  stream : (getCore s w).strms[i]? = some t
  room : (chanOf (getCore s t.dest) t.ch).length < 16
  first : 0 < t.i ∨ channelTaken s w i t = false
  window : (getCore s w).inRefresh = false
  links : linksWait s (linksOf s t.beatKey) = false

/-- The beat that carries a row. -/
def beatWith (w : Word) (t : Strm) (r : Row) : Beat :=
  { strm := t.at_, row := r, last := t.i + 1 == t.beats, kern := t.kern, hv := t.hv, src := w }

/-- The row of the beat: the bytes of its target, or zeros where the page has been lent away or the beat meets an uncorrectable
error ue (R305, R361). -/
def beatRow (s : State) (w : Word) (t : Strm) (ue : Bool) : Row :=
  rowOfBytes (if !ue && reaches s ⟨w, t.hv, t.proc⟩ t.beatKey then kRead s t.kern ⟨t.beatKey, t.enc⟩ 64 else [])

theorem beatRow_good : beatRow s w t false =
    if reaches s ⟨w, t.hv, t.proc⟩ t.beatKey then rowOfBytes (kRead s t.kern ⟨t.beatKey, t.enc⟩ 64) else 0 := apply_ite rowOfBytes ..

/-- Such an error stops the stream's kernel (R361). -/
def streamStopped (s : State) (w : Word) (t : Strm) (ue : Bool) : State :=
  if ue then mchkStop s t.kern w t.hv t.ctxid t.proc (arrayOf t.beatKey <<< 17 ||| 1 <<< 9) (lineAddr t.beatKey) else s

theorem streamStopped_stops : ∃ q, (streamStopped s w t true).stops = s.stops ++ [q] ∧ q.kern = t.kern ∧
    q.lane4 = BitVec.ofNat 32 (0x21 ||| (arrayOf t.beatKey <<< 17 ||| 512)) ∧ q.faddr = lineAddr t.beatKey := ⟨_, rfl, rfl, rfl, rfl⟩

/-- The beat of a stream is sent: with the bytes of its target, or with zeros where it meets an uncorrectable error, which stops
its kernel (R361; log 28). -/
theorem streamBeat_moves {n : Nat} {ue : Bool} (h : StreamMoves s w i t) (hn : n % 4 = i) (hue : decide (4 ≤ n) = ue) :
    exec (.streamBeat w n) s = .next
      (streamMoved (sentBeat (streamStopped s w t ue) w t (beatWith w t (beatRow s w t ue))) w i t (t.i + 1 == t.beats)) := by
  obtain ⟨stream, room, first, window, links⟩ := h
  have goes : ¬ (decide (16 ≤ (chanOf (getCore s t.dest) t.ch).length) || (t.i == 0 && channelTaken s w i t) ||
      (decide (3 * spaceSize ≤ t.beatKey) && decide (t.beatKey < 4 * spaceSize) && (getCore s w).inRefresh)) = true := by
    have turn : (t.i == 0 && channelTaken s w i t) = false := by
      rcases first with later | free
      · rw [beq_false_of_ne (by omega), Bool.false_and]
      · rw [free, Bool.and_false]
    rw [turn, window, decide_eq_false (Nat.not_le.2 room), Bool.and_false]
    exact Bool.false_ne_true
  rw [exec_streamBeat]
  simp only [execStreamBeat, hn, stream, hue]
  refine (if_neg goes).trans ((if_neg (Bool.eq_false_iff.1 links)).trans ?_)
  unfold streamMoved
  exact (apply_ite Host.Outcome.next ..).symm

end

/-- Settles O45: the start of a job, the turn of a beat, a beat of a copy, a beat of a stream. -/
theorem copyEvents : Obligations.CopyEvents := by
  unfold Obligations.CopyEvents
  refine ⟨fun s cl k => copyJobStart_rule, fun u j => nextBeat_roundRobin, ?_, ?_⟩
  · intro s cl j k u v n turn kind ready
    have h : CopyTurn s cl j k := ⟨turn, kind, ready⟩
    refine ⟨copyBeat_linksWait h, fun up => ⟨copyBeat_error h up, fun a t kind beat fault _ => copyBeat_fault h up beat fault, ?_⟩⟩
    intro src ps source target x y z
    exact copyBeat_moves h up (cpyBeat_ok source target)
  · intro s w i t d key b stream hi room hch first window links
    have h : StreamMoves s w i t := ⟨stream, room, first, window, links⟩
    constructor
    · have moves := streamBeat_moves h (Nat.mod_eq_of_lt hi) (decide_eq_false (Nat.not_le.2 hi))
      rw [beatRow_good] at moves
      refine ⟨_, moves, ?_, ?_, ?_, fun more => ?_, fun last => ?_⟩
      · exact streamMoved_chan.trans (sentBeat_chan hch)
      · exact streamMoved_mem.trans sentBeat_mem
      · exact streamMoved_stops.trans sentBeat_stops
      · refine streamMoved_strms.trans ?_
        rw [sentBeat_strms]
        exact if_neg (Bool.eq_false_iff.1 more)
      · refine streamMoved_strms.trans ?_
        rw [sentBeat_strms]
        exact if_pos last
    · have fails := streamBeat_moves (n := i + 4) h (by omega) (decide_eq_true (Nat.le_add_left 4 i))
      obtain ⟨q, stops, stopRecord⟩ := streamStopped_stops (s := s) (w := w) (t := t)
      refine ⟨_, q, fails, ?_, ?_, stopRecord⟩
      · exact streamMoved_chan.trans (sentBeat_chan hch)
      · exact streamMoved_stops.trans (sentBeat_stops.trans stops)

end Sys2Proof.Machine
end

section
/-! PROOFS. Refresh windows, revocation, resuming, harvest dispatch and parked contexts (O48). -/

namespace Sys2Proof.Machine

/-! ### Rows zeroed (R309, R310, R312) -/

/-- A table without some of its entries. -/
theorem look_filter {α : Type} (d : α) (p : Nat → Bool) (l : List (Nat × α)) (n : Nat) :
    look d (l.filter (fun e => p e.1)) n = if p n then look d l n else d := by
  induction l with
  | nil => exact (ite_self d).symm
  | cons e r ih =>
    obtain ⟨k, v⟩ := e
    rw [List.filter_cons]
    by_cases hn : k = n
    · subst hn
      by_cases hp : p k = true
      · rw [if_pos hp, if_pos hp, look, look, if_pos rfl, if_pos rfl]
      · rw [if_neg hp, if_neg hp, ih, if_neg hp]
    · have skip : look d ((k, v) :: r) n = look d r n := if_neg hn
      rw [skip, ← ih]
      by_cases hp : p k = true
      · rw [if_pos hp]
        exact if_neg hn
      · rw [if_neg hp]

theorem row_zeroRows (c : Core) (rb rn n : Nat) : (c.zeroRows rb rn).row n = if rb ≤ n ∧ n < rb + rn then 0 else c.row n := by
  refine (look_filter 0 (fun k => decide (k < rb) || decide (rb + rn ≤ k)) c.regs n).trans ?_
  by_cases h : rb ≤ n ∧ n < rb + rn
  · rw [if_pos h, if_neg (by simp; omega)]
  · rw [if_neg h, if_pos (by simp; omega)]
    rfl

theorem row_zeroLent (c : Core) (f : Foot) (n : Nat) : (c.zeroLent f).row n = if f.rb ≤ n ∧ n < f.rb + f.rn then 0 else c.row n :=
  row_zeroRows _ f.rb f.rn n

/-- No late write is then pending to a lent row. -/
theorem late_zeroLent {c : Core} {f : Foot} {l : Late} (hl : l ∈ (c.zeroLent f).late) {n : Nat} (hd : l.dest = .row n) :
    n < f.rb ∨ f.rb + f.rn ≤ n := by
  obtain ⟨k, -, rfl⟩ := List.mem_map.1 hl
  split at hd
  · next m hm =>
    split at hd
    · cases hd
    · next outside =>
      rw [hm] at hd
      cases hd
      omega
  · next other => exact absurd hd (other n)

/-- The lent pages then read as zero, and every other byte as before. -/
theorem scrubPages_read (s : State) (w : Word) (f : Foot) (k : Nat) : memRead (scrubPages s w f).mem k =
    if scratchKey w (4096 * f.pb) ≤ k ∧ k < scratchKey w (4096 * f.pb) + 4096 * f.pn then 0 else memRead s.mem k :=
  memRead_memZero s.mem _ _ k

/-! ### Refresh windows (R138) -/

theorem refreshWindow_turns {s : State} {w : Word} {opens : Bool} (hw : isMem w = false) (h : opens = decide (refreshPhase s w < 256)) :
    exec (.refreshWindow w opens) s = .next (modCore s w (fun c => { c with inRefresh := opens })) := by
  rw [exec_refreshWindow, execRefreshWindow, hw, ← h, bne_self_eq_false]
  rfl

theorem refreshWindow_stays {s : State} {w : Word} {opens : Bool} (h : opens ≠ decide (refreshPhase s w < 256)) :
    exec (.refreshWindow w opens) s = .next s := by
  rw [exec_refreshWindow, execRefreshWindow, bne_iff_ne.2 h, Bool.or_true]
  rfl

/-! ### Revocation (R309, R310) -/

theorem setHarvest_harvest (c : Core) : c.setHarvest c.harvest = c := by
  unfold Core.setHarvest Core.harvest
  split <;> rfl

theorem mapCores_same {s : State} {f : Core → Core} (h : ∀ c, f c = c) : mapCores s f = s := by
  have same : f = id := funext h
  rw [mapCores, same, List.map_id]
  rfl

/-- Where no harvest context has a job or a stream, none is taken away. -/
theorem abortHarvest_idle {s : State} (jobs : ∀ j ∈ allJobs s, j.hv = false) (streams : ∀ c ∈ allCores s, ∀ x ∈ c.strms, x.hv = false) (f : Foot) :
    abortHarvest s s.core.id f = s := by
  have gone : (allJobs s).filter (fun j => j.hv && j.owner == s.core.id && jobTouches s j (pageSpan s.core.id f)) = [] :=
    List.filter_eq_nil_iff.2 fun j hj => by simp [jobs j hj]
  have dead : (allCores s).flatMap (fun c =>
      (c.strms.filter (fun t => t.hv && t.owner == s.core.id && entriesTouch s t.rlt (pageSpan s.core.id f))).map (fun t => (c.id, t))) = [] :=
    List.flatMap_eq_nil_iff.2 fun c hc => by
      rw [List.filter_eq_nil_iff.2 fun x hx => by simp [streams c hc x hx]]
      rfl
  have chains : modCore s s.core.id (fun c => c.setHarvest c.harvest) = s := by
    rw [modCore_own (by rw [setHarvest_harvest]), setHarvest_harvest]
  unfold abortHarvest
  dsimp only
  rw [gone, List.foldl_nil]
  simp only [List.foldl_nil]
  rw [chains, dead, List.foldl_nil]
  exact mapCores_same fun c => by simp

/-- The writes of harvest contexts that a revocation discards lie outside the cores. -/
theorem dropLentWrites_core (s : State) (w : Word) (f : Foot) : (dropLentWrites s w f).core = s.core := by
  have keeps : ∀ (l : List Img) (u : State),
      (l.foldl (fun s i => modCl s (clIdx i.core) (fun u => { u with imgs := u.imgs ++ [i] })) u).core = u.core := by
    intro l
    induction l with
    | nil => exact fun u => rfl
    | cons i l ih => exact fun u => ih _
  exact keeps _ _

/-- A core whose lending is suspended by a revocation. -/
def suspended (c : Core) : Core := { c with lend := c.lend ||| 0x40000000, revoking := true, ownerDone := false }

theorem lendV_suspended (l : Word) : lendV (l ||| 0x40000000) = lendV l := by
  rw [lendV, lendV, BitVec.getLsbD_or, show (0x40000000 : Word).getLsbD 31 = false from rfl, Bool.or_false]
theorem lendSusp_suspended (l : Word) : lendSusp (l ||| 0x40000000) = true := by
  rw [lendSusp, BitVec.getLsbD_or, show (0x40000000 : Word).getLsbD 30 = true from rfl, Bool.or_true]

/-- A lent core of which the harvest slot is free, without harvest jobs or streams anywhere. -/
structure LentIdle (s : State) : Prop where
  lent : lendV s.core.lend = true
  steady : s.core.revoking = false
  owner : s.core.hvNow = false
  idle : s.core.alt.active = false
  jobs : ∀ j ∈ allJobs s, j.hv = false
  streams : ∀ c ∈ allCores s, ∀ x ∈ c.strms, x.hv = false

/-- Its revocation suspends the lending and zeroes the lent rows and pages. -/
theorem revoke_idle {s : State} (h : LentIdle s) :
    (revoke s s.core.id).core = (suspended s.core).zeroLent (lentFoot s.core) ∧
    (revoke s s.core.id).mem = (scrubPages s s.core.id (lentFoot s.core)).mem := by
  obtain ⟨lent, steady, owner, idle, jobs, streams⟩ := h
  let u : State := { s with core := suspended s.core }
  let v : State := scrubPages (dropLentWrites u s.core.id (lentFoot s.core)) s.core.id (lentFoot s.core)
  have aborted : abortHarvest u s.core.id (lentFoot s.core) = u := abortHarvest_idle (s := u) jobs (by
    intro c hc
    rcases List.mem_cons.1 hc with rfl | hc
    · exact streams s.core List.mem_cons_self
    · exact streams c (List.mem_cons_of_mem _ hc)) _
  have core : v.core = suspended s.core := dropLentWrites_core u _ _
  have free : s.core.harvest.active = false := by rw [Core.harvest, if_neg (Bool.eq_false_iff.1 owner), idle]
  have revoked : revoke s s.core.id = modCore v s.core.id (fun c => c.zeroLent (lentFoot s.core)) := by
    unfold revoke
    rw [getCore_own]
    dsimp only
    rw [lent, steady, free, setCore_own (c := { s.core with lend := s.core.lend ||| 0x40000000, revoking := true, ownerDone := false }) rfl]
    refine (if_neg Bool.false_ne_true).trans ((if_pos rfl).trans ?_)
    exact congrArg (fun x => modCore (scrubPages (dropLentWrites x s.core.id (lentFoot s.core)) s.core.id (lentFoot s.core)) s.core.id
      (fun c => c.zeroLent (lentFoot s.core))) aborted
  have own : modCore v s.core.id (fun c => c.zeroLent (lentFoot s.core)) = { v with core := v.core.zeroLent (lentFoot s.core) } := by
    have same : v.core.id = s.core.id := by rw [core]; rfl
    rw [← same]
    exact modCore_own rfl
  rw [revoked, own, core]
  exact ⟨rfl, congrArg (fun m => memZero m _ _) (dropLentWrites_mem u _ _)⟩

/-- An owner message whose claim overlaps the lent footprint revokes it. -/
theorem revocation_rule {s : State} {w : Word} (active : lendActive (getCore s w).lend = true) (due : revocationDue s (getCore s w) = true) :
    exec (.revocation w) s = .next (revoke s w) := by
  rw [exec_revocation, execRevocation, active, due]
  rfl

theorem revocationComplete_stays {s : State} {w : Word} (h : (getCore s w).revoking = false) : exec (.revocationComplete w) s = .next s := by
  rw [exec_revocationComplete, execRevocationComplete, h]
  rfl

theorem revocationComplete_ends {s : State} {w : Word} (h : (getCore s w).revoking = true) (free : (getCore s w).harvest.active = false) :
    exec (.revocationComplete w) s = .next (planDomain
      (modCore (modCore s w (fun c => c.zeroLent (lentFoot c))) w (fun c => { c with revoking := false })) (clIdx w)) := by
  rw [exec_revocationComplete, execRevocationComplete, h, free]
  rfl

/-! ### Lending resumes (R312) -/

theorem lendActive_resumed {l : Word} (h : lendV l = true) : lendActive (l &&& 0xBFFFFFFF) = true := by
  rw [lendV] at h
  rw [lendActive, lendV, lendSusp, BitVec.getLsbD_and, BitVec.getLsbD_and, h, show (0xBFFFFFFF : Word).getLsbD 31 = true from rfl,
    show (0xBFFFFFFF : Word).getLsbD 30 = false from rfl, Bool.and_false]
  rfl

/-- A core whose lending is active again. -/
def lendingAgain (c : Core) : Core := { c with lend := c.lend &&& 0xBFFFFFFF, ownerDone := false }

theorem lendingResume_rule {s : State} (lent : lendV s.core.lend = true) (susp : lendSusp s.core.lend = true) (steady : s.core.revoking = false)
    (done : s.core.ownerDone = true) (single : pairLend s s.core = false) (none : ownerNext s s.core = none) :
    exec (.lendingResume s.core.id) s = .next (scrubPages { s with core := (lendingAgain s.core).zeroLent (lentFoot s.core) } s.core.id (lentFoot s.core)) := by
  rw [exec_lendingResume, execLendingResume, getCore_own]
  refine (if_neg (by rw [lent, susp, steady, done, single, none]; exact Bool.false_ne_true)).trans ?_
  exact congrArg (fun x => Host.Outcome.next (scrubPages x s.core.id (lentFoot s.core)))
    (setCore_own (c := (lendingAgain s.core).zeroLent (lentFoot s.core)) rfl)

/-! ### Parked contexts resume (R304, R312) -/

/-- The harvest slot of a core that runs no pair is free, in an owner slot's turn (R304, R362). -/
structure HarvestFree (s : State) : Prop where
  owner : s.core.hvNow = false
  active : lendActive s.core.lend = true
  steady : s.core.revoking = false
  idle : s.core.alt.active = false
  single : pairCore s s.core.id = false
  closed : storeOpenAt s s.core.id = false

theorem harvest_ofOwner {c : Core} (h : c.hvNow = false) : c.harvest = c.alt := if_neg (Bool.eq_false_iff.1 h)
theorem setHarvest_ofOwner {c : Core} (h : c.hvNow = false) (x : Slot) : c.setHarvest x = { c with alt := x } := if_neg (Bool.eq_false_iff.1 h)

theorem HarvestFree.free {s : State} (h : HarvestFree s) : harvestIdle s.core = true := by
  rw [harvestIdle, h.active, h.steady, harvest_ofOwner h.owner, h.idle]
  rfl

/-- A settled context of a good bank resumes. -/
theorem tryUnpark_own {s : State} {p : Parked} (h : HarvestFree s) (next : nextParked s s.core = some p)
    (settled : ∀ l ∈ s.core.late, ∀ n, l.dest ≠ .bank p.bank n) (good : bankBroken s.core p = none) :
    tryUnpark s s.core.id = chargeSaggar { s with core := unpark s.core p } s.core.id p := by
  have settledBank : bankSettled s.core p = true := by
    rw [bankSettled, Bool.not_eq_true', List.any_eq_false]
    intro l hl
    split
    · next b n hd =>
      intro same
      exact settled l hl n (hd.trans (by rw [beq_iff_eq.1 same]))
    · exact Bool.false_ne_true
  have same : (unpark s.core p).id = s.core.id := by
    unfold unpark
    dsimp only
    rw [setHarvest_ofOwner (by exact h.owner)]
  unfold tryUnpark
  rw [getCore_own]
  dsimp only
  rw [next]
  dsimp only
  rw [h.free, settledBank, good, setCore_own same]
  exact if_pos rfl

theorem harvestDispatch_unparks {s : State} {p : Parked} (h : HarvestFree s) (next : nextParked s s.core = some p) :
    exec (.harvestDispatch s.core.id) s = .next (tryUnpark s s.core.id) := by
  rw [exec_harvestDispatch, execHarvestDispatch, getCore_own]
  dsimp only
  rw [h.free, h.single, h.closed, next]
  rfl

theorem parkedContextResume_unparks {s : State} (h : HarvestFree s) : exec (.parkedContextResume s.core.id) s = .next (tryUnpark s s.core.id) := by
  rw [exec_parkedContextResume, execParkedContextResume, h.single]
  rfl

/-- The energy of a context that resumes is counted in its core (R306, R352). -/
theorem chargeSaggar_own {s : State} (p : Parked) {w : Word} (hw : w = s.core.id) :
    ∃ a, chargeSaggar s w p = { s with core := { s.core with activity := a } } := by
  subst hw
  rw [chargeSaggar, charge, chargeN, modCore_own rfl]
  exact ⟨_, rfl⟩

/-- What a context finds as it resumes. -/
theorem unpark_alt {c : Core} (h : c.hvNow = false) (p : Parked) : (unpark c p).alt = { p.slot with
    pc := lane (look 0 p.rows p.slot.wb) 2 &&& 0xFFFFFFF8, fetched := [], chains := c.alt.chains, pend := p.slot.pend ++ c.alt.pend } := by
  unfold unpark
  dsimp only
  rw [setHarvest_ofOwner (by exact h), harvest_ofOwner (by exact h)]
  rfl
theorem unpark_slot {c : Core} (h : c.hvNow = false) (p : Parked) : (unpark c p).slot = c.slot := by
  unfold unpark
  dsimp only
  rw [setHarvest_ofOwner (by exact h)]
theorem unpark_parked {c : Core} (h : c.hvNow = false) (p : Parked) : (unpark c p).parked = c.parked.filter (fun q => q.bank != p.bank) := by
  unfold unpark
  dsimp only
  rw [setHarvest_ofOwner (by exact h)]

/-! ### Messages that the harvest slot takes (R279, R304) -/

/-- The core once its harvest slot has taken a message: the slot starts in the lent rows, in a context that the kiln creates. -/
def harvested (s : State) (n : NiSlot) : Core :=
  let c := s.core
  let x := { startHandler s c c.harvest n with pb := lendRB c.lend, pl := lendRN c.lend }
  niRun ((createContext (hdrTag n.msg.hdr) (c.quitOfile c.harvest x.proc)).setHarvest x) n.idx

/-- A late write that goes nowhere any more is all that a change of process leaves of one (R135). -/
theorem quitOfile_core (c : Core) (x : Slot) (proc : Nat) : c.quitOfile x proc = { c with late := (c.quitOfile x proc).late } := by
  unfold Core.quitOfile
  split <;> rfl

/-- The kiln creates a context in the row that the tag names, and nowhere else. -/
theorem createContext_core (t : Nat) (c : Core) : createContext t c = { c with regs := (createContext t c).regs } := by
  unfold createContext
  dsimp only
  split <;> rfl
theorem createContext_header {t : Nat} {c : Core} (h : tagV (tagOf c t) = true) :
    (createContext t c).row (tagWB (tagOf c t)) = startHeader (tagProc (tagOf c t)) t := by
  unfold createContext
  dsimp only
  rw [if_pos h, row_setRow_self]
theorem createContext_row {t : Nat} {c : Core} {q : Nat} (h : q ≠ tagWB (tagOf c t)) : (createContext t c).row q = c.row q := by
  unfold createContext
  dsimp only
  split
  · exact row_setRow_other _ _ _ _ (Ne.symm h)
  · rfl

/-- The regs of the harvesting core are those with the context created. -/
theorem harvested_core {s : State} (h : s.core.hvNow = false) (n : NiSlot) : ∃ late,
    harvested s n = { s.core with
      regs := (createContext (hdrTag n.msg.hdr) { s.core with late := late }).regs, late := late,
      ni := s.core.ni.map (fun q => if q.idx = n.idx then { q with st := .running } else q),
      alt := { startHandler s s.core s.core.alt n with pb := lendRB s.core.lend, pl := lendRN s.core.lend } } := by
  unfold harvested niRun
  dsimp only
  rw [quitOfile_core, createContext_core, setHarvest_ofOwner (by exact h), harvest_ofOwner h]
  exact ⟨_, rfl⟩

theorem harvestDispatch_takes {s : State} {n : NiSlot} (h : HarvestFree s) (parked : nextParked s s.core = none) (next : harvestNext s s.core = some n) :
    exec (.harvestDispatch s.core.id) s = .next (ranOn (setCore s (harvested s n)) s.core.id n.msg.kern) := by
  rw [exec_harvestDispatch, execHarvestDispatch, getCore_own]
  dsimp only
  rw [h.free, h.single, h.closed, parked, next]
  rfl

theorem ranOn_eq (s : State) (w : Word) (k : KRef) : ranOn s w k = { s with kerns := (ranOn s w k).kerns } := by
  unfold ranOn
  split <;> rfl

/-! ### Parked contexts move (R312) -/

/-- A context without a message slot comes off its bank. -/
theorem unbank_noSlot {s : State} {w : Word} {p : Parked} (h : p.slot.msgSlot = none) : unbank s w p =
    (setCore s { getCore s w with parked := (getCore s w).parked.filter (fun q => q.bank != p.bank) }, { p with ni := none }) := by
  simp only [unbank, h]

theorem parkedContextMove_waits {s : State} {w : Word} {b : Nat} {p : Parked} {dest : Option (Word × Nat)} (hb : b < 4)
    (found : (getCore s w).parked.find? (fun q => q.bank == b) = some p) (unsettled : contextSettled (getCore s w) p = false) :
    exec (.parkedContextMove w b dest) s = .next s := by
  rw [exec_parkedContextMove]
  simp only [execParkedContextMove, if_pos hb, found, unsettled]
  exact if_pos rfl

/-- A settled context goes to the save area of its queue. -/
theorem parkedContextMove_saves {s : State} {w : Word} {b : Nat} {p : Parked} (hb : b < 4)
    (found : (getCore s w).parked.find? (fun q => q.bank == b) = some p) (settled : contextSettled (getCore s w) p = true)
    (noSlot : p.slot.msgSlot = none) (bank : bankFaults (deriveBank s w b) w b .read = false) (area : saveFaults s p.slot.kern.queue .write = false) :
    exec (.parkedContextMove w b none) s = .next
      { setCore (deriveBank s w b) { getCore s w with parked := (getCore s w).parked.filter (fun q => q.bank != p.bank) } with
        saved := s.saved ++ [{ core := w, kern := p.slot.kern, ctx := { p with ni := none }, place := 0 }] } := by
  have saves : maySave s (getCore s w) p = true := by rw [maySave, settled, area]; rfl
  rw [exec_parkedContextMove]
  simp only [execParkedContextMove, if_pos hb, found, settled, bank, unbank_noSlot noSlot, saves, setCore_saved]
  rfl

/-! ### The obligation -/

/-- What a harvest dispatch leaves, its core apart from the kernel's mark (R194). -/
theorem harvestDispatch_rule {s : State} {n : NiSlot} (h : HarvestFree s) (parked : nextParked s s.core = none) (next : harvestNext s s.core = some n) :
    ∃ t late, exec (.harvestDispatch s.core.id) s = .next t ∧ t = { ranOn s s.core.id n.msg.kern with core := t.core } ∧
      t.core = { s.core with
        regs := (createContext (hdrTag n.msg.hdr) { s.core with late := late }).regs, late := late,
        ni := s.core.ni.map (fun q => if q.idx = n.idx then { q with st := .running } else q),
        alt := { startHandler s s.core s.core.alt n with pb := lendRB s.core.lend, pl := lendRN s.core.lend } } := by
  obtain ⟨late, core⟩ := harvested_core h.owner n
  have same : (harvested s n).id = s.core.id := by rw [core]
  refine ⟨_, late, harvestDispatch_takes h parked next, ?_, ?_⟩
  · rw [setCore_own same, ranOn_eq]
    unfold ranOn
    split <;> rfl
  · rw [setCore_own same, ranOn_eq]
    exact core

/-- Settles O48, an event at a time. -/
theorem harvestEvents : Obligations.HarvestEvents := by
  unfold Obligations.HarvestEvents
  refine ⟨?_, fun s w => revocation_rule, ?_, fun s w => ⟨revocationComplete_stays, revocationComplete_ends⟩, ?_, ?_, ?_, ?_⟩
  · intro s w opens hw phase
    exact ⟨refreshWindow_turns hw, refreshWindow_stays⟩
  · intro s lent steady owner idle jobs streams f t
    obtain ⟨core, mem⟩ := revoke_idle ⟨lent, steady, owner, idle, jobs, streams⟩
    rw [show t.core = _ from core, show t.mem = _ from mem]
    refine ⟨(lendV_suspended _).trans lent, lendSusp_suspended _, rfl, rfl, rfl, fun n => row_zeroLent _ _ n, fun l hl n hd => late_zeroLent hl hd,
      fun k => scrubPages_read s _ _ k⟩
  · intro s owner lent susp steady done single none f
    exact ⟨_, lendingResume_rule lent susp steady done single none, lendActive_resumed lent, rfl, rfl, fun n => row_zeroLent _ _ n,
      fun k => scrubPages_read { s with core := (lendingAgain s.core).zeroLent f } _ _ k⟩
  · intro s p owner next active steady idle single closed settled good
    have h : HarvestFree s := ⟨owner, active, steady, idle, single, closed⟩
    have same : s.core.id = (unpark s.core p).id := by
      unfold unpark
      dsimp only
      rw [setHarvest_ofOwner (by exact owner)]
    obtain ⟨a, charged⟩ := chargeSaggar_own (s := { s with core := unpark s.core p }) p same
    have resumed := (tryUnpark_own h next settled good).trans charged
    refine ⟨_, (parkedContextResume_unparks h).trans (congrArg _ resumed), (harvestDispatch_unparks h next).trans (congrArg _ resumed), rfl, ?_, ?_, ?_⟩
    · exact unpark_slot owner p
    · exact unpark_parked owner p
    · exact unpark_alt owner p
  · intro s n owner active steady idle single closed parked next e
    have h : HarvestFree s := ⟨owner, active, steady, idle, single, closed⟩
    obtain ⟨t, late, ht, outside, core⟩ := harvestDispatch_rule h parked next
    refine ⟨t, ht, outside, ?_⟩
    rw [core]
    refine ⟨rfl, rfl, rfl, rfl, rfl, rfl, rfl, rfl, fun q hq => ?_, fun valid => ?_⟩
    · exact createContext_row (c := { s.core with late := late }) hq
    · exact createContext_header (c := { s.core with late := late }) valid
  · intro s w b p hb found
    refine ⟨fun unsettled => parkedContextMove_waits hb found unsettled, fun settled noSlot bank area => ?_⟩
    refine ⟨_, _, parkedContextMove_saves hb found settled noSlot bank area, rfl, rfl, rfl, rfl, rfl, ?_⟩
    have bankOf : (p.bank == b) = true := List.find?_some (p := fun q : Parked => q.bank == b) found
    rw [← beq_iff_eq.1 bankOf]
    refine (congrArg Core.parked (getCore_setCore_at (deriveBank s w p.bank) _ w)).trans ?_
    rw [if_pos (getCore_id s w)]

end Sys2Proof.Machine
end

section
/-! PROOFS. Message delivery, handler start, pre-emption and service dispatch (O43). -/

namespace Sys2Proof.Machine

/-! ### Delivery (R202, R204, R287) -/

theorem Msg.far_eq_false {s : State} {m : Msg} (h : ∀ w ∈ m.dest, pkgOf w = ownPkg s) : m.far s = false :=
  List.any_eq_false.2 fun w hw => by simp [h w hw]

theorem Msg.far_eq_true {s : State} {m : Msg} (h : ∃ w ∈ m.dest, pkgOf w ≠ ownPkg s) : m.far s = true := by
  obtain ⟨w, hw, away⟩ := h
  exact List.any_eq_true.2 ⟨w, hw, bne_iff_ne.2 away⟩

/-- The links to the destinations of a message in another package. -/
theorem Msg.mem_farLinks {s : State} {m : Msg} {l : List Nat} :
    l ∈ m.farLinks s ↔ ∃ w ∈ m.dest, pkgOf w ≠ ownPkg s ∧ linksTo s (pkgOf w) = l := by
  simp [Msg.farLinks, and_assoc]

theorem Msg.farLinks_none {s : State} {m : Msg} {p : List Nat → Bool} (h : ∀ w ∈ m.dest, pkgOf w ≠ ownPkg s → p (linksTo s (pkgOf w)) = false) :
    (m.farLinks s).any p = false := by
  refine List.any_eq_false.2 fun l hl => ?_
  obtain ⟨w, hw, away, rfl⟩ := Msg.mem_farLinks.1 hl
  exact Bool.eq_false_iff.1 (h w hw away)

theorem Msg.farLinks_some {s : State} {m : Msg} {p : List Nat → Bool} (h : ∃ w ∈ m.dest, pkgOf w ≠ ownPkg s ∧ p (linksTo s (pkgOf w)) = true) :
    (m.farLinks s).any p = true := by
  obtain ⟨w, hw, away, cut⟩ := h
  exact List.any_eq_true.2 ⟨_, Msg.mem_farLinks.2 ⟨w, hw, away, rfl⟩, cut⟩

theorem goFar_reached {s : State} {m : Msg} (h : (m.farLinks s).any (linksCut s) = false) : goFar m s = { s with outbound := s.outbound ++ [m] } :=
  if_neg (Bool.not_eq_true _ ▸ (congrArg (· && _) h : _ = false))

theorem goFar_cut {s : State} {m : Msg} (h : (m.farLinks s).any (linksCut s) = true) (first : ∀ q ∈ s.stops, q.kern ≠ m.kern) :
    ∃ q, q.kern = m.kern ∧ q.status = 2 ∧ goFar m s = { s with outbound := s.outbound ++ [m], stops := s.stops ++ [q] } := by
  have fresh : s.stops.any (fun r => r.kern == m.kern) = false := List.any_eq_false.2 fun q hq => by simp [first q hq]
  have both : ((m.farLinks s).any (linksCut s) && !s.stops.any (fun r => r.kern == m.kern)) = true := by rw [h, fresh]; rfl
  refine ⟨_, ?_, ?_, if_pos both⟩ <;> rfl

section Delivery
variable {s : State} {i : Nat} {m : Msg}

theorem messageDelivery_held (hm : s.net[i]? = some m) (held : startHeld s m = true) : exec (.messageDelivery i) s = .next s := by
  simp only [exec_messageDelivery, execMessageDelivery, hm, held, if_true]

theorem messageDelivery_refused (hm : s.net[i]? = some m) {w : Word}
    (no : deliverAll m (m.near s) { s with net := s.net.eraseIdx i } = .error w) : exec (.messageDelivery i) s = .next s := by
  simp only [exec_messageDelivery, execMessageDelivery, hm, no, ite_self]

theorem messageDelivery_takes (hm : s.net[i]? = some m) (free : startHeld s m = false) {t : State}
    (yes : deliverAll m (m.near s) { s with net := s.net.eraseIdx i } = .ok t) : exec (.messageDelivery i) s =
      if m.far s then .next (chargeMsg m (goFar m { s with net := s.net.eraseIdx i }))
      else .next (chargeMsg m (if m.kind ≤ 1 then markStarted t m.kern else t)) := by
  simp only [exec_messageDelivery, execMessageDelivery, hm, free, yes, Bool.false_eq_true, if_false]

end Delivery

/-! ### Answers of other packages (R204, R286, R365) -/

section Answers
variable {s : State} {w : Word} {m : Msg} {a : SendAns}

/-- The first slot of the core with a `send` that waits for its answer, by its number. -/
def waitingSend (s : State) (w : Word) : Option (Nat × SendWait) :=
  (getCore s w).slots.findSome? (fun y => y.sendDue.map (fun d => (y.sid, d)))

theorem sendAnswer_waiting (h : a = .accepted ∨ ∃ v, a = .refused v) {sid : Nat} {d : SendWait} (due : waitingSend s w = some (sid, d))
    (up : (d.msg.farLinks s).any (linksWait s) = false) : exec (.sendAnswer w a) s = .next (answerSend (getCore s w) sid d a s) := by
  rw [waitingSend] at due
  obtain rfl | ⟨v, rfl⟩ := h <;> simp only [exec_sendAnswer, execSendAnswer, due, up, Bool.false_eq_true, if_false]

theorem sendAnswer_source (h : a = .accepted ∨ ∃ v, a = .refused v) (unasked : waitingSend s w = none)
    (source : s.outbound.find? (fun q => q.srcw == w) = some m) (free : startHeld s m = false)
    (up : (m.farLinks s).any (linksWait s) = false) : exec (.sendAnswer w a) s = .next (answerSource m a s) := by
  rw [waitingSend] at unasked
  obtain rfl | ⟨v, rfl⟩ := h <;> simp only [exec_sendAnswer, execSendAnswer, unasked, source, free, up, Bool.or_self, Bool.false_eq_true, if_false]

theorem sendAnswer_finished (remote : s.remote.find? (fun q => q.srcw == w) = some m)
    (up : ∀ k ∈ s.remote, (k.farLinks s).any (linksWait s) = false) : exec (.sendAnswer w .finished) s = .next { s with remote := s.remote.erase m } := by
  have same : s.remote.find? (fun q => q.srcw == w && !(q.farLinks s).any (linksWait s)) = some m := by
    rw [← remote]
    exact List.find?_congr fun q hq => by rw [up q hq, Bool.not_false, Bool.and_true]
  simp only [exec_sendAnswer, execSendAnswer, same]

/-- The `send` of the issuing slot is the first that waits. -/
theorem waitingSend_own (h : s.core.slot.sendWait = some ⟨m, none⟩) : waitingSend s s.core.id = some (s.core.slot.sid, ⟨m, none⟩) := by
  have due : s.core.slot.sendDue = some ⟨m, none⟩ := by
    rw [Slot.sendDue, Slot.sends, h]
    rfl
  rw [waitingSend, getCore_own, Core.slots, List.append_assoc, List.cons_append, List.findSome?_cons, due]
  rfl

theorem waitingSend_none (h : ∀ y ∈ (getCore s w).slots, y.sendDue = none) : waitingSend s w = none :=
  List.findSome?_eq_none_iff.2 fun y hy => by rw [h y hy]; rfl

theorem answerSend_own (h : s.core.slot.sendWait = some ⟨m, none⟩) :
    ∃ c : Core, answerSend s.core s.core.slot.sid ⟨m, none⟩ a s = { s with core := c, outbound := s.outbound.erase m } ∧
      c.slot = { s.core.slot with sendWait := some ⟨m, some a⟩, aside := c.slot.aside, waitC := none } := by
  unfold answerSend
  dsimp only
  rw [setCore_own (by rfl)]
  refine ⟨_, rfl, ?_⟩
  unfold Core.mapSlots
  dsimp only
  rw [if_pos rfl, h, Option.map_some, if_pos rfl]

/-- An accepted message that every core of this package takes is on its way to the others until their work ends. -/
theorem answerSource_accepted {t : State} (yes : deliverAll m (m.near s) { s with outbound := s.outbound.erase m } = .ok t) :
    answerSource m .accepted s =
      if m.kind ≤ 1 then markStarted { t with remote := t.remote ++ [m] } m.kern else { t with remote := t.remote ++ [m] } := by
  have near : m.near { s with outbound := s.outbound.erase m } = m.near s := rfl
  simp only [answerSource, near, yes]

theorem answerSource_refused (h : (∃ v, a = .refused v) ∨
      (a = .accepted ∧ ∃ v, deliverAll m (m.near s) { s with outbound := s.outbound.erase m } = .error v)) :
    answerSource m a s = if m.isSend then { s with outbound := s.outbound.erase m }
      else { s with outbound := s.outbound.erase m, net := s.net ++ [m] } := by
  obtain ⟨v, rfl⟩ | ⟨rfl, v, no⟩ := h
  · rfl
  · have near : m.near { s with outbound := s.outbound.erase m } = m.near s := rfl
    simp only [answerSource, near, no]

theorem Msg.isSend_iff : m.isSend = true ↔ m.kind = 2 ∨ m.kind = 3 ∨ m.kind = 6 := by
  simp [Msg.isSend, or_assoc]

end Answers

/-! ### The start of a handler (R135, R206, R279) -/

@[simp] theorem owner_setOwner (c : Core) (x : Slot) : (c.setOwner x).owner = x := by
  unfold Core.setOwner
  split <;> next h => simp [Core.owner, h]

/-- The core as the start of a message's handler leaves it, but for a pair's checkpoint. -/
def handling (s : State) (c : Core) (n : NiSlot) : Core :=
  let y := startHandler s c c.owner n
  niRun ({ createMissing (hdrTag n.msg.hdr) (c.quitOfile c.owner y.proc) with ownerDone := false }.setOwner y) n.idx
/-- The same, with the checkpoint that the core of a pair forms (R363). -/
def handled (s : State) (c : Core) (n : NiSlot) : Core :=
  if (startHandler s c c.owner n).paired then (handling s c n).mark (startHandler s c c.owner n) else handling s c n

theorem handled_core (s : State) (c : Core) (n : NiSlot) : handled s c n = { handling s c n with ckpt := (handled s c n).ckpt } := by
  unfold handled
  split <;> rfl

theorem setOwner_core (c : Core) (x : Slot) : c.setOwner x = { c with slot := (c.setOwner x).slot, alt := (c.setOwner x).alt } := by
  unfold Core.setOwner
  split <;> rfl

theorem createMissing_late (t : Nat) (c : Core) (l : List Late) :
    createMissing t { c with late := l } = { c with regs := (createMissing t c).regs, late := l } := by
  unfold createMissing createContext
  dsimp only
  by_cases zero : c.row (tagWB (tagOf c t)) = 0
  · rw [if_pos (by exact zero), if_pos zero]
    by_cases valid : tagV (tagOf c t) = true
    · rw [if_pos (by exact valid), if_pos valid]
      rfl
    · rw [if_neg (by exact valid), if_neg valid]
  · rw [if_neg (by exact zero), if_neg zero]

theorem createMissing_kept {t : Nat} {c : Core} (h : tagV (tagOf c t) = false ∨ c.row (tagWB (tagOf c t)) ≠ 0) : (createMissing t c).regs = c.regs := by
  unfold createMissing createContext
  dsimp only
  split
  · next zero =>
    rw [if_neg (Bool.eq_false_iff.1 (h.resolve_right (fun no => no zero)))]
  · rfl

/-- Starting a handler changes the rows, the late writes, the NI bank and the slots of the core. -/
theorem handling_core (s : State) (c : Core) (n : NiSlot) : ∃ x z, handling s c n = { c with
    regs := (createMissing (hdrTag n.msg.hdr) c).regs, late := (c.quitOfile c.owner (startHandler s c c.owner n).proc).late,
    ni := (niRun c n.idx).ni, ownerDone := false, slot := x, alt := z } := by
  unfold handling
  dsimp only
  rw [setOwner_core, quitOfile_core, createMissing_late]
  exact ⟨_, _, rfl⟩

@[simp] theorem owner_niRun (c : Core) (i : Nat) : (niRun c i).owner = c.owner := rfl
@[simp] theorem owner_mark (c : Core) (x : Slot) : (c.mark x).owner = c.owner := rfl

theorem handled_owner (s : State) (c : Core) (n : NiSlot) : (handled s c n).owner = startHandler s c c.owner n := by
  have handling_owner : (handling s c n).owner = startHandler s c c.owner n := by rw [handling, owner_niRun, owner_setOwner]
  unfold handled
  split
  · rw [owner_mark, handling_owner]
  · exact handling_owner

theorem handlerStart_takes {s : State} {w : Word} {n : NiSlot} (next : ownerNext s (getCore s w) = some n) (idle : (getCore s w).owner.active = false)
    (claim : claimWaits (getCore s w) n = false) (shadow : (getCore s w).shadow = none ∨ n.cls = 0) (primary : shadowCore s w = false)
    (shut : storeOpenAt s w = false) :
    let s' := ranOn (setCore s (handled s (getCore s w) n)) w n.msg.kern
    exec (.handlerStart w) s = .next (if isMem w then s' else
      modCl s' (clIdx w) (fun u => { u with proc := some (tagProc (tagOf (getCore s w) (hdrTag n.msg.hdr))) })) := by
  have prompt : ((getCore s w).shadow.isSome && n.cls != 0) = false := by
    obtain free | zero := shadow
    · rw [free]; rfl
    · rw [zero, bne_self_eq_false, Bool.and_false]
  simp only [exec_handlerStart, execHandlerStart, next, idle, claim, prompt, primary, shut, Bool.or_self, Bool.false_eq_true, if_false]
  rfl

/-- The state in which a message's handler has started on a core: a compute core gives its cluster the tag's process. -/
def handlerRuns (s : State) (w : Word) (n : NiSlot) : State :=
  let s' := ranOn (setCore s (handled s (getCore s w) n)) w n.msg.kern
  if isMem w then s' else modCl s' (clIdx w) (fun u => { u with proc := some (tagProc (tagOf (getCore s w) (hdrTag n.msg.hdr))) })

theorem handled_id (s : State) (c : Core) (n : NiSlot) : (handled s c n).id = c.id := by
  obtain ⟨x, z, core⟩ := handling_core s c n
  rw [handled_core, core]

theorem getCore_ranOn (s : State) (w v : Word) (k : KRef) : getCore (ranOn s w k) v = getCore s v := by
  rw [ranOn_eq]
  rfl

theorem handlerRuns_core (s : State) (w : Word) (n : NiSlot) : getCore (handlerRuns s w n) w = handled s (getCore s w) n := by
  have stored : getCore (ranOn (setCore s (handled s (getCore s w) n)) w n.msg.kern) w = handled s (getCore s w) n := by
    rw [getCore_ranOn, getCore_setCore_at, if_pos ((handled_id s _ n).trans (getCore_id s w))]
  unfold handlerRuns
  dsimp only
  split
  · exact stored
  · rw [modCl, getCore_setCl]
    · exact stored
    · dsimp only
      rw [getCl_id]

theorem handlerRuns_mem (s : State) (w : Word) (n : NiSlot) : (handlerRuns s w n).mem = s.mem := by
  unfold handlerRuns
  dsimp only
  split <;> simp only [modCl, setCl_mem, ranOn_mem, setCore_mem]

theorem handlerRuns_proc {s : State} {w : Word} {n : NiSlot} (h : isMem w = false) :
    (getCl (handlerRuns s w n) (clIdx w)).proc = some (tagProc (tagOf (getCore s w) (hdrTag n.msg.hdr))) := by
  unfold handlerRuns
  dsimp only
  rw [if_neg (Bool.eq_false_iff.1 h), getCl_modCl _ _ _ _ (getCl_id _ _), if_pos rfl]

/-! What the started core holds, and its slot (R135, R206). -/

section Started
variable {s : State} {c : Core} {n : NiSlot}

theorem handled_ni : (handled s c n).ni = c.ni.map (fun q => if q.idx = n.idx then { q with st := .running } else q) := by
  obtain ⟨x, z, core⟩ := handling_core s c n
  rw [handled_core, core]
  rfl

theorem handled_regs : (handled s c n).regs = (createMissing (hdrTag n.msg.hdr) c).regs := by
  obtain ⟨x, z, core⟩ := handling_core s c n
  rw [handled_core, core]

theorem handled_late : (handled s c n).late = (c.quitOfile c.owner (tagProc (tagOf c (hdrTag n.msg.hdr)))).late := by
  obtain ⟨x, z, core⟩ := handling_core s c n
  rw [handled_core, core]
  rfl

theorem leaves_other {x : Slot} {proc q : Nat} (was : x.lastProc = some q) (other : q ≠ proc) :
    (x.lastProc.isSome && x.lastProc != some proc) = true := by
  rw [was]
  simpa using other

/-- A late write once the slot of a number has changed its process: to its operand file it lands nowhere. -/
def leftBehind (sid : Nat) (l : Late) : Late :=
  match l.dest with
  | .ofile i _ => if i = sid then { l with dest := .none } else l
  | _ => l

theorem quitOfile_left {x : Slot} {proc q : Nat} (was : x.lastProc = some q) (other : q ≠ proc) :
    (c.quitOfile x proc).late = c.late.map (leftBehind x.sid) :=
  congrArg Core.late (if_pos (leaves_other was other))

theorem leftBehind_dest (sid o : Nat) (l : Late) : (leftBehind sid l).dest ≠ .ofile sid o := by
  unfold leftBehind
  split
  · next i _ dest =>
    split
    · exact LDest.noConfusion
    · next other => exact fun no => other (LDest.ofile.inj (dest.symm.trans no)).1
  · next elsewhere => exact elsewhere _ _

theorem forProc_lastProc (x : Slot) (proc : Nat) : (x.forProc proc).lastProc = some proc := by
  unfold Slot.forProc
  dsimp only
  split <;> rfl

/-- A slot that has run the process keeps its operand file, latches and FPM. -/
theorem forProc_same {x : Slot} {proc : Nat} (was : x.lastProc = some proc) :
    (x.forProc proc).ofile = x.ofile ∧ (x.forProc proc).latC = x.latC ∧ (x.forProc proc).latA = x.latA ∧ (x.forProc proc).fpm = x.fpm := by
  unfold Slot.forProc
  dsimp only
  rw [was, bne_self_eq_false, Bool.and_false, if_neg Bool.false_ne_true]
  exact ⟨rfl, rfl, rfl, rfl⟩

/-- One that has run another starts with them zero. -/
theorem forProc_other {x : Slot} {proc q : Nat} (was : x.lastProc = some q) (other : q ≠ proc) :
    (x.forProc proc).ofile = Vector.replicate 8 0 ∧ (x.forProc proc).latC = 0 ∧ (x.forProc proc).latA = 0 ∧ (x.forProc proc).fpm = 0 := by
  unfold Slot.forProc
  dsimp only
  rw [if_pos (leaves_other was other)]
  exact ⟨rfl, rfl, rfl, rfl⟩

end Started

/-! ### Pre-emption (R207, R278) -/

section Preemption
variable {s : State}

theorem owner_ofOwner {c : Core} (h : c.hvNow = false) : c.owner = c.slot := if_neg (Bool.eq_false_iff.1 h)
theorem setOwner_ofOwner {c : Core} (h : c.hvNow = false) (x : Slot) : c.setOwner x = { c with slot := x } := if_neg (Bool.eq_false_iff.1 h)

theorem unissue_slot (x : Slot) : (unissue x).wb = x.wb ∧ (unissue x).ofile = x.ofile := by
  unfold unissue
  split <;> exact ⟨rfl, rfl⟩

/-- The rows of a core whose header row of a window has three lanes set. -/
theorem lane_setThree (r : Row) (u v z : Word) {j : Nat} (hj : j < 16) :
    lane (setLane (setLane (setLane r 2 u) 3 v) 4 z) j = if j = 2 then u else if j = 3 then v else if j = 4 then z else lane r j := by
  rw [lane_setLane _ _ _ _ hj, lane_setLane _ _ _ _ hj, lane_setLane _ _ _ _ hj]
  grind

/-- The set that holds the handler of a slot while another has its place. -/
def shadowOf (c : Core) (x : Slot) : Shadow :=
  { slot := { x with waitC := none, waitA := none, rep := 0 }, l2 := lane (c.row x.wb) 2, l3 := lane (c.row x.wb) 3, l4 := lane (c.row x.wb) 4 }
/-- A slot whose handler has been set aside. -/
def emptied (x : Slot) : Slot :=
  { x.goto 0 with
    active := false, queues := Vector.replicate 4 [], toks := [], msgSlot := none, msgLive := false,
    aside := none, latch := none, sendWait := none, gang := .idle, paired := false, pend := [] }
/-- A core whose owner slot's handler has been pre-empted. -/
def preempted (c : Core) (x : Slot) : Core :=
  { c.setRow x.wb (setLane (setLane (setLane (c.row x.wb) 2 x.pc) 3 (epcAOf x)) 4 0) with slot := emptied x, shadow := some (shadowOf c x) }

theorem preempt_takes {p : NiSlot} (owner : s.core.hvNow = false) (active : (unissue s.core.slot).active = true) (runs : (unissue s.core.slot).halted = false)
    (cls : (unissue s.core.slot).cls ≠ 0) (rep : (unissue s.core.slot).rep = 0) (single : s.core.shadow = none) (trap : (unissue s.core.slot).trapWait = none)
    (landed : s.core.pendingRow (unissue s.core.slot).wb = false) (prompt : pickReady (fun q => ownerMay s s.core q && q.cls == 0) s.core.ni = some p) :
    exec (.preempt s.core.id) s = .next { s with core := preempted s.core (unissue s.core.slot) } := by
  have boundary : ((unissue s.core.slot).cls == 0) = false := beq_eq_false_iff_ne.2 cls
  rw [exec_preempt, execPreempt, getCore_own]
  dsimp only
  rw [owner_ofOwner owner, setOwner_ofOwner (by exact owner), setCore_own (by rfl)]
  refine if_neg ?_
  rw [prompt, active, runs, boundary, rep, single, trap, landed]
  exact Bool.false_ne_true

theorem row_preempted (c : Core) (x : Slot) (q : Nat) : (preempted c x).row q =
    if x.wb = q then setLane (setLane (setLane (c.row x.wb) 2 x.pc) 3 (epcAOf x)) 4 0 else c.row q :=
  row_setRow ..

/-- The slot of a pre-empted handler that goes on where it stood; the operand file is the slot's. -/
def regained (c : Core) (h : Shadow) : Slot :=
  { h.slot with pc := lane (c.row h.slot.wb) 2 &&& 0xFFFFFFF8, ofile := c.slot.ofile, fetched := [], chains := c.slot.chains,
                lastProc := c.slot.lastProc, pend := h.slot.pend ++ c.slot.pend }
/-- The core on which it does. -/
def resumed (c : Core) (h : Shadow) : Core :=
  { c.setRow h.slot.wb (setLane (setLane (setLane (c.row h.slot.wb) 2 h.l2) 3 h.l3) 4 h.l4) with slot := regained c h, shadow := none }

theorem preemptResume_takes {h : Shadow} (owner : s.core.hvNow = false) (idle : s.core.slot.active = false) (held : s.core.shadow = some h)
    (landed : s.core.pendingRow h.slot.wb = false) (serves : stopped s h.slot.kern = false)
    (prompt : pickReady (fun q => ownerMay s s.core q && q.cls == 0) s.core.ni = none) :
    exec (.preemptResume s.core.id) s = .next { s with core := resumed s.core h } := by
  rw [exec_preemptResume, execPreemptResume, getCore_own]
  dsimp only
  rw [held]
  dsimp only
  rw [owner_ofOwner owner, idle, serves, prompt, landed, setOwner_ofOwner (by exact owner), setCore_own (by rfl)]
  rfl

theorem row_resumed (c : Core) (h : Shadow) (q : Nat) : (resumed c h).row q =
    if h.slot.wb = q then setLane (setLane (setLane (c.row h.slot.wb) 2 h.l2) 3 h.l3) 4 h.l4 else c.row q :=
  row_setRow ..

end Preemption

/-! ### Service dispatch (R256) -/

section Service
variable {s : State} {pc : Word} {wb wl pb pl proc : Nat}

theorem windowOk_iff : windowOk wb wl pb pl = true ↔ 1 ≤ wl ∧ wl ≤ 96 ∧ pb ≤ wb ∧ wb + wl ≤ pb + pl ∧ pb + pl ≤ 2048 := by
  simp [windowOk, and_assoc]

/-- The slot in which the kiln's handler starts. -/
def serving (x : Slot) (pc : Word) (wb wl pb pl proc : Nat) : Slot :=
  { ((x.forProc proc).goto (pc &&& 0xFFFFFFF8)) with
    active := true, halted := false, wb := wb, wl := wl, pb := pb, pl := pl, prv := true, queues := Vector.replicate 4 [],
    toks := [], msgSlot := none, msgLive := false, cls := 0, proc := proc, kern := ⟨4096, 0, 0⟩, latch := none, fetched := [],
    aside := none, sendWait := none, gang := .idle, paired := false }

theorem serviceDispatch_takes (owner : s.core.hvNow = false) (idle : s.core.slot.active = false) (here : coreHere s s.core.id = true)
    (primary : shadowCore s s.core.id = false) (fits : windowOk wb wl pb pl = true) :
    exec (.serviceDispatch s.core.id pc wb wl pb pl proc) s = .next { s with core := { s.core with
      slot := serving s.core.slot pc wb wl pb pl proc, ownerDone := false, late := (s.core.quitOfile s.core.slot proc).late } } := by
  rw [exec_serviceDispatch, execServiceDispatch, getCore_own]
  dsimp only
  rw [owner_ofOwner owner, idle, here, primary, fits, quitOfile_core, setOwner_ofOwner (by exact owner), setCore_own (by rfl)]
  rfl

theorem serviceDispatch_stays (h : coreHere s s.core.id = false ∨ shadowCore s s.core.id = true ∨ windowOk wb wl pb pl = false) :
    exec (.serviceDispatch s.core.id pc wb wl pb pl proc) s = .next s := by
  refine if_pos ?_
  obtain away | shadow | bad := h
  · simp only [away, Bool.not_false, Bool.or_true, Bool.true_or]
  · simp only [shadow, Bool.or_true, Bool.true_or]
  · simp only [bad, Bool.not_false, Bool.or_true]

theorem quitOfile_kept {c : Core} {x : Slot} (h : x.lastProc = some proc ∨ x.lastProc = none) : (c.quitOfile x proc).late = c.late := by
  have stays : (x.lastProc.isSome && x.lastProc != some proc) = false := by
    obtain same | fresh := h
    · rw [same, bne_self_eq_false, Bool.and_false]
    · rw [fresh]; rfl
  exact congrArg Core.late (if_neg (Bool.eq_false_iff.1 stays))

end Service

/-- Settles O43: each event's next state, and what the started, pre-empted or resumed slot holds. -/
theorem dispatchEvents : Obligations.DispatchEvents := by
  refine ⟨?delivery, ?answer, ?source, ?finished, ?start, ?preempt, ?resume, ?service⟩
  case delivery =>
    intro s i m hm u own
    refine ⟨messageDelivery_held hm, fun t free yes near => ?_, fun t free yes away => ⟨fun up => ?_, fun cut first => ?_⟩, fun w => messageDelivery_refused hm⟩
    · rw [messageDelivery_takes hm free yes, Msg.far_eq_false near]
      rfl
    · have reached : (m.farLinks u).any (linksCut u) = false := Msg.farLinks_none (s := u) up
      rw [messageDelivery_takes hm free yes, Msg.far_eq_true away, if_pos rfl, goFar_reached reached]
    · obtain ⟨q, kern, status, gone⟩ := goFar_cut (s := u) (Msg.farLinks_some (s := u) (p := linksCut u) cut) first
      refine ⟨q, kern, status, ?_⟩
      rw [messageDelivery_takes hm free yes, Msg.far_eq_true away, if_pos rfl, gone]
  case answer =>
    intro s m a waits ha up
    obtain ⟨c, answered, slot⟩ := answerSend_own (a := a) waits
    refine ⟨{ s with core := c, outbound := s.outbound.erase m }, ?_, rfl, slot⟩
    rw [sendAnswer_waiting ha (waitingSend_own waits) (Msg.farLinks_none up), getCore_own, answered]
  case source =>
    intro s w m a due source free up u own
    refine ⟨fun t accepted yes => ?_, fun refused => ?_⟩
    · subst accepted
      rw [sendAnswer_source (.inl rfl) (waitingSend_none due) source free (Msg.farLinks_none up), answerSource_accepted yes]
    · have ha : a = .accepted ∨ ∃ v, a = .refused v := refused.symm.imp And.left id
      rw [sendAnswer_source ha (waitingSend_none due) source free (Msg.farLinks_none up), answerSource_refused refused]
      exact congrArg _ (if_congr Msg.isSend_iff rfl rfl)
  case finished =>
    exact fun s w m remote up => sendAnswer_finished remote fun k hk => Msg.farLinks_none (up k hk)
  case start =>
    intro s w n c x e proc next idle claim shadow primary shut
    refine ⟨handlerRuns s w n, handlerStart_takes next idle claim shadow primary shut, ?_⟩
    have core : getCore (handlerRuns s w n) w = handled s c n := handlerRuns_core s w n
    have owner : (getCore (handlerRuns s w n) w).owner = startHandler s c x n := core ▸ handled_owner s c n
    rw [owner, core]
    have rows (q : Nat) : (handled s c n).row q = (createMissing (hdrTag n.msg.hdr) c).row q := congrArg (look 0 · q) handled_regs
    refine ⟨handled_ni, handlerRuns_mem s w n, rfl, rfl, rfl, rfl, rfl, rfl, rfl, rfl, rfl, rfl, rfl, rfl, rfl, rfl, rfl, rfl,
      forProc_same, fun _ => forProc_other, handlerRuns_proc, fun valid zero => ?_, fun kept => handled_regs.trans (createMissing_kept kept), fun q o was other l hl => ?_⟩
    · have created : createMissing (hdrTag n.msg.hdr) c = createContext (hdrTag n.msg.hdr) c := if_pos zero
      exact ⟨(rows _).trans (created ▸ createContext_header valid), fun q hq => (rows q).trans (created ▸ createContext_row hq)⟩
    · have left : (handled s c n).late = c.late.map (leftBehind x.sid) := handled_late.trans (quitOfile_left was other)
      rw [left] at hl
      obtain ⟨k, hk, rfl⟩ := List.mem_map.1 hl
      exact leftBehind_dest x.sid o k
  case preempt =>
    intro s p x owner active runs cls rep single trap landed prompt
    obtain ⟨sameWb, sameOfile⟩ := unissue_slot s.core.slot
    have hdr : s.core.hdr = s.core.row x.wb := congrArg s.core.row sameWb.symm
    refine ⟨_, shadowOf s.core x, preempt_takes owner active runs cls rep single trap landed prompt, rfl, rfl, sameOfile, rfl, ?_, ?_, ?_, ?_, ?_, ?_⟩
    · rw [shadowOf, ← rep]
    · rw [hdr]; rfl
    · rw [hdr]; rfl
    · rw [hdr]; rfl
    · exact fun q hq => (row_preempted ..).trans (if_neg (Ne.symm hq))
    · intro j hj
      rw [hdr, ← lane_setThree _ _ _ _ hj]
      exact congrArg (lane · j) ((row_preempted ..).trans (if_pos rfl))
  case resume =>
    intro s h owner idle held landed serves prompt
    refine ⟨_, preemptResume_takes owner idle held landed serves prompt, rfl, rfl, rfl, ?_, ?_⟩
    · exact fun q hq => (row_resumed ..).trans (if_neg (Ne.symm hq))
    · intro j hj
      rw [← lane_setThree _ _ _ _ hj]
      exact congrArg (lane · j) ((row_resumed ..).trans (if_pos rfl))
  case service =>
    intro s pc wb wl pb pl proc owner idle
    refine ⟨fun here primary fits => ?_, fun bad => ?_, fun h => serviceDispatch_stays (h.imp id .inl)⟩
    · exact ⟨_, serviceDispatch_takes owner idle here primary (windowOk_iff.2 fits), rfl, rfl,
        quitOfile_kept, fun _ => quitOfile_left,
        rfl, rfl, rfl, rfl, rfl, rfl, rfl, rfl, forProc_lastProc .., rfl, rfl, forProc_same, fun _ => forProc_other⟩
    · exact serviceDispatch_stays (.inr (.inr (Bool.eq_false_iff.2 fun ok => bad (windowOk_iff.1 ok))))

end Sys2Proof.Machine
end

section
/-! PROOFS. Loads and stores: what they leave, the frame of a store, and the words of a notify page (O26, O27). -/

namespace Sys2Proof.Machine

/-! ### Loads and stores (R144, R149, R150) -/

section
variable {a b : Opnd} {off : BitVec 5} {ord : Ord} {scp : Scp} {ext : Word} {i : Instr} {n : Nat} {d : Word} {s : State} {l : List Spot}

/-- Every store is a word whose effect is `storeAt` of the n low bytes of A, performed at once or held. -/
theorem store_results {p : CSpec} {ea : Nat} (hp : p = { srcs := [a, b] }) (hea : ea = (argC0 s p 1 + d).toNat)
    (form : (i, n, d) ∈ storeForms a b off ord scp ext) (ready : ReadyC p s) :
    (Reaches s .store ord scp n ea l → ∃ t, exec i s = .next t ∧ DoneC s (stored s (rowBytes (argC s p 0) n) scp ea l) t p 0 none) ∧
    (Passes s .store ord n ea l → mustHold (reached s .store n ea) .store ord scp l = true →
      ∃ t, exec i s = .next t ∧ DoneC s (heldStore s (rowBytes (argC s p 0) n) ord scp ea l) t p 0 none) := by
  subst hp hea
  have length := rowBytes_length (argC s { srcs := [a, b] } 0) n
  rw [storeForms_exec form, store]
  refine ⟨fun reaches => ?_, fun passes held => ?_⟩
  · rw [← length] at reaches
    exact control_either (f := fun rs => storeAt (rowBytes (nth rs 0) n) ord scp _) ready (storeAt_reaches reaches)
  · rw [← length] at passes held
    exact control_either (f := fun rs => storeAt (rowBytes (nth rs 0) n) ord scp _) ready (storeAt_held passes held)

end

/-- Settles O26: every load is a word whose effect is `loadAt` at its effective address, performed at once or held. -/
theorem loadResults : Obligations.LoadResults := by
  unfold Obligations.LoadResults
  intro a b off ord scp ext i n d s l form p ea ready
  rw [loadForms_exec form, load]
  exact ⟨fun reaches => control_either ready (loadAt_reaches reaches), fun passes held => control_either ready (loadAt_held passes held)⟩

/-! ### An encrypted line has at most 64 bytes (R329) -/

theorem xorBytes_length_le (x y : List Byte) : (xorBytes x y).length ≤ x.length := by
  rw [xorBytes, List.length_zipWith]
  exact Nat.min_le_left ..

/-- AES gives at most the 16 bytes of a block. -/
theorem aesEnc_length_le (key x : List Byte) : (aesEnc key x).length ≤ 16 := by
  refine (xorBytes_length_le ..).trans_eq ?_
  rw [shiftRows, List.length_map, List.length_range]

theorem xtsBlocks_length_le {f : List Byte → List Byte} (hf : ∀ x, (f x).length ≤ 16) (line : List Byte) (n i : Nat) (t : List Byte) :
    (xtsBlocks f line n i t).length ≤ 16 * n := by
  induction n generalizing i t with
  | zero => exact Nat.le_refl 0
  | succ n ih =>
    have block := (xorBytes_length_le (f (xorBytes ((List.range 16).map (fun j => byteAt line (16 * i + j))) t)) t).trans (hf _)
    have rest := ih (i + 1) (tweakNext t)
    rw [xtsBlocks, List.length_append]
    omega

theorem xtsEnc_length_le (k1 k2 : BitVec 256) (n : Nat) (line : List Byte) : (xtsEnc k1 k2 n line).length ≤ 64 :=
  xtsBlocks_length_le (aesEnc_length_le _) line 4 0 _

/-! ### The bytes that a write leaves alone (R150, R329) -/

theorem memReadN_length (m : Memory) (a n : Nat) : (memReadN m a n).length = n := by
  rw [memReadN_eq, List.length_map, List.length_range]

/-- The bytes before and after a run are as they were. -/
theorem memRead_memWriteN_outside {m : Memory} {a c : Nat} {bs : List Byte} (w : m.wf = true) (out : c < a ∨ a + bs.length ≤ c) :
    memRead (memWriteN m a bs) c = memRead m c := by
  rw [memRead_memWriteN a c bs w, if_neg (by omega)]

section
variable {s : State} {p : Spot} {bs : List Byte} {c : Nat}

/-- Bytes for the spot: no more than it holds, and within its line where it is encrypted. -/
structure FitsSpot (p : Spot) (bs : List Byte) : Prop where
  room : bs.length ≤ p.n
  line : p.enc.isSome = true → p.key % 64 + p.n ≤ 64

theorem FitsSpot.take (line : p.enc.isSome = true → p.key % 64 + p.n ≤ 64) (bs : List Byte) : FitsSpot p (bs.take p.n) :=
  ⟨List.length_take_le .., line⟩

/-- A write to an encrypted place writes its line anew (R329). -/
theorem writePlace_encrypted (s : State) (key slot : Nat) (bs : List Byte) (line : key % 64 + bs.length ≤ 64) :
    ∃ new : List Byte, new.length ≤ 64 ∧ (writePlace s ⟨key, some slot⟩ bs).mem = memWriteN s.mem (key / 64 * 64) new := by
  unfold writePlace
  dsimp only
  split
  · refine ⟨_, ?_, by with_reducible rfl⟩
    exact xtsEnc_length_le ..
  · next unloaded =>
    have whole : (lineOf s key slot).length = 64 := by
      simp only [lineOf, unloaded]
      exact memReadN_length ..
    refine ⟨_, ?_, by with_reducible rfl⟩
    simp only [List.length_append, List.length_take, List.length_drop, whole]
    omega

theorem writePlace_outside (h : Inv s) (fits : FitsSpot p bs) (out : ¬ coveredBy p c) :
    memRead (writePlace s ⟨p.key, p.enc⟩ bs).mem c = memRead s.mem c := by
  obtain ⟨room, line⟩ := fits
  obtain ⟨key, enc, n⟩ := p
  unfold coveredBy at out
  dsimp only at room line out ⊢
  cases enc with
  | none =>
    rw [Option.isSome_none, if_neg Bool.false_ne_true] at out
    have apart : c < key ∨ key + bs.length ≤ c := by omega
    exact memRead_memWriteN_outside h apart
  | some slot =>
    rw [Option.isSome_some, if_pos rfl] at out
    have line := line rfl
    obtain ⟨new, whole, mem⟩ := writePlace_encrypted s key slot bs (by omega)
    rw [mem]
    exact memRead_memWriteN_outside h (by omega)

/-- A write to a notify page changes no memory (R283). -/
theorem plainWrite_outside (h : Inv s) (fits : FitsSpot p bs) (out : ¬ coveredBy p c) :
    memRead (plainWrite s ⟨p.key, p.enc⟩ bs).mem c = memRead s.mem c := by
  unfold plainWrite
  split
  · rw [notifyPut_mem]
  · exact writePlace_outside h fits out

/-- A journalled write changes no memory before it is performed (R367). -/
theorem kWrite_outside {k : KRef} {w : Word} {hv : Bool} {ctxid proc : Nat} (h : Inv s) (fits : FitsSpot p bs) (out : ¬ coveredBy p c) :
    memRead (kWrite s k w hv ctxid proc ⟨p.key, p.enc⟩ bs).mem c = memRead s.mem c := by
  unfold kWrite
  split
  · split
    · split
      · rw [mchkStop_mem]
      · rw [setJournal_mem]
    · exact plainWrite_outside h fits out
  · exact writePlace_outside h fits out

/-- What a core writes into, its undo log kept (R363). -/
def undoKept (s : State) (p : Place) (n : Nat) : State := if s.core.slot.paired then logUndo s s.core.id p n else s

theorem undoKept_mem (s : State) (p : Place) (n : Nat) : (undoKept s p n).mem = s.mem := by
  unfold undoKept
  split
  · exact logUndo_mem ..
  · rfl

theorem coreWrite_outside (h : Inv s) (fits : FitsSpot p bs) (out : ¬ coveredBy p c) :
    memRead (coreWrite s ⟨p.key, p.enc⟩ bs).mem c = memRead s.mem c := by
  have same := undoKept_mem s ⟨p.key, p.enc⟩ bs.length
  exact (kWrite_outside (h.of_mem same) fits out).trans (congrArg (memRead · c) same)

theorem writeSpots_outside {l : List Spot} (h : Inv s) (line : ∀ p ∈ l, p.enc.isSome = true → p.key % 64 + p.n ≤ 64)
    (out : ∀ p ∈ l, ¬ coveredBy p c) : memRead (writeSpots l bs s).mem c = memRead s.mem c := by
  induction l generalizing s bs with
  | nil => rfl
  | cons p ps ih =>
    obtain ⟨lineHead, lineTail⟩ := List.forall_mem_cons.1 line
    obtain ⟨outHead, outTail⟩ := List.forall_mem_cons.1 out
    exact (ih (coreWrite_inv h _ _) lineTail outTail).trans (coreWrite_outside h (.take lineHead bs) outHead)

/-- A write to a plain place of a chip memory puts its bytes there. -/
theorem coreWrite_chip {k : Nat} (chip : k < 4503599627370496) : (coreWrite s ⟨k, none⟩ bs).mem = memWriteN s.mem k bs := by
  have here : isExternal k = false := by
    rw [isExternal, decide_eq_false (show ¬ spaceSize ≤ k from Nat.not_le.2 chip), Bool.false_and]
  unfold coreWrite kWrite
  dsimp only
  rw [here, if_neg Bool.false_ne_true]
  exact congrArg (memWriteN · k bs) (undoKept_mem s ⟨k, none⟩ bs.length)

end

section
variable {s : State} {bs : List Byte} {scp : Scp} {ea : Nat} {l : List Spot}

/-- What a store writes its bytes into: the memory it met, and the store on the list of those not yet performed (R151). -/
def storeBase (s : State) (n : Nat) (scp : Scp) (ea : Nat) (l : List Spot) : State :=
  (reached s .store n ea).modS (fun x => { x with pend := x.pend ++ [pendOf (reached s .store n ea) l scp] })

theorem stored_eq : stored s bs scp ea l = writeSpots l bs (storeBase s bs.length scp ea l) := rfl

theorem storeBase_mem (n : Nat) : (storeBase s n scp ea l).mem = s.mem := (modS_mem ..).trans (reached_mem ..)

/-- The frame of a store (R150, R329). -/
theorem stored_outside {c : Nat} (h : Inv s) (line : ∀ p ∈ l, p.enc.isSome = true → p.key % 64 + p.n ≤ 64)
    (out : ∀ p ∈ l, ¬ coveredBy p c) : memRead (stored s bs scp ea l).mem c = memRead s.mem c := by
  have same := storeBase_mem (s := s) (scp := scp) (ea := ea) (l := l) bs.length
  rw [stored_eq, writeSpots_outside (h.of_mem same) line out, same]

/-- A store to one plain spot of a chip memory leaves there the bytes stored (R150). -/
theorem stored_there {k j : Nat} (h : Inv s) (chip : k < 4503599627370496) (hj : j < bs.length) :
    memRead (stored s bs scp ea [⟨k, none, bs.length⟩]).mem (k + j) = bs.getD j 0 := by
  rw [stored_eq, writeSpots, writeSpots, List.take_length, coreWrite_chip chip, storeBase_mem, memRead_memWriteN _ _ _ h,
    if_pos (by omega), Nat.add_sub_cancel_left]

end

/-! ### The words of a notify page (R283, R285; log 70) -/

section
variable {s : State} {b q off : Nat}

/-- The offset off of the page of queue q in the device's window at b. -/
def notifyKey (b q off : Nat) : Nat := hostKey (b + 4096 * q + off)

theorem notifyAt_notifyKey (bar : s.bar = some b) (hq : q < 4096) (hoff : off < 4096) : notifyAt s (notifyKey b q off) = some (q, off) := by
  have within : hostKey b ≤ notifyKey b q off ∧ notifyKey b q off < hostKey b + 2 ^ 24 := by
    unfold notifyKey hostKey
    omega
  have offset : notifyKey b q off - hostKey b = 4096 * q + off := by
    unfold notifyKey hostKey
    omega
  unfold notifyAt
  rw [bar]
  dsimp only
  rw [if_pos within, offset, show (4096 * q + off) / 4096 = q by omega, show (4096 * q + off) % 4096 = off by omega]

theorem notifyActs_iff {n : Nat} : notifyActs off n = true ↔ off % 4 = 0 ∧ n = 4 := by
  rw [notifyActs, Bool.and_eq_true, beq_iff_eq, beq_iff_eq]

/-- A kernel without a journal reads the page's word (R283, R367). -/
theorem kRead_notifyKey {k : KRef} (bar : s.bar = some b) (hq : q < 4096) (hoff : off < 4096) (n : Nat) (noJournal : journalOf s k = none) :
    kRead s k ⟨notifyKey b q off, none⟩ n =
      if off % 4 = 0 ∧ n = 4 then natBytes (notifyWord s q off).toNat 4 else List.replicate n 0 := by
  have plain : journalled s k (notifyKey b q off) = false := by rw [journalled, noJournal]; rfl
  simp only [kRead, notifyAt_notifyKey bar hq hoff, plain, Bool.false_eq_true, if_false, notifyRead, notifyActs_iff]

theorem plainWrite_notifyKey (bar : s.bar = some b) (hq : q < 4096) (hoff : off < 4096) (bs : List Byte) :
    plainWrite s ⟨notifyKey b q off, none⟩ bs =
      if off % 4 = 0 ∧ bs.length = 4 then notifyWrite s q off (BitVec.ofNat 32 (bytesNat bs)) else s := by
  simp only [plainWrite, notifyAt_notifyKey bar hq hoff, notifyPut, notifyActs_iff]

/-- The words of the page of a queue (R283). -/
theorem notifyWord_queue {x : Queue} (found : queueById s q = some x) :
    notifyWord s q 0 = x.p ∧ notifyWord s q 8 = x.ci ∧ notifyWord s q 12 = x.fcount ∧ notifyWord s q 20 = x.fci ∧
      notifyWord s q 4 = statusWord x := by
  simp only [notifyWord, found, and_self]

theorem notifyWord_noQueue (absent : queueById s q = none) : notifyWord s q off = 0 := by
  simp only [notifyWord, absent]

end

/-- Settles O27: what a store leaves, its frame, and the words of a notify page. -/
theorem storeResults : Obligations.StoreResults := by
  unfold Obligations.StoreResults
  refine ⟨fun a b off ord scp ext i n d s l form => store_results rfl rfl form, fun s bs scp ea l h line => ⟨fun c => ?_, ?_⟩, ?_⟩
  · exact stored_outside h line
  · rintro k rfl chip j hj
    exact stored_there h chip hj
  · intro s b q off k bs n bar hq hoff
    exact ⟨kRead_notifyKey bar hq hoff n, plainWrite_notifyKey bar hq hoff bs, fun _ => notifyWord_queue, notifyWord_noQueue⟩

end Sys2Proof.Machine
end

section
/-! PROOFS. `strm`: the lanes of its descriptor, and the stream that it starts (O35). -/

namespace Sys2Proof.Machine

/-! ### The lane that a descriptor row is refused for (R148, R162) -/

section
variable {r : Row} {j : Nat}

/-- The lowest lane that fails. -/
theorem firstLane_least {p : Nat → Bool} {n : Nat} (hj : j < n) (bad : p j = true) (least : ∀ k, k < j → p k = false) :
    firstLane ((List.range n).map (fun i => (i, p i))) = some j := by
  have found : (List.range n).find? p = some j :=
    List.find?_range_eq_some.2 ⟨bad, List.mem_range.2 hj, fun k hk => by rw [least k hk]; rfl⟩
  rw [firstLane, List.find?_map, Option.map_map]
  exact (congrArg (Option.map _) found).trans rfl

theorem firstLane_none {p : Nat → Bool} {n : Nat} (good : ∀ k, k < n → p k = false) :
    firstLane ((List.range n).map (fun i => (i, p i))) = none := by
  have absent : (List.range n).find? p = none := List.find?_range_eq_none.2 fun k hk => by rw [good k hk]; rfl
  rw [firstLane, List.find?_map, Option.map_map]
  exact congrArg (Option.map _) absent

/-- The bits of a word from k up are 0 just where it is below 2^k. -/
theorem highBits_ne_zero (w : Word) {k : Nat} (hk : k ≤ 32) : w.toNat &&& (2 ^ 32 - 1 - (2 ^ k - 1)) ≠ 0 ↔ 2 ^ k ≤ w.toNat := by
  have pos : 0 < 2 ^ k := Nat.two_pow_pos k
  have mask : 2 ^ 32 - 1 - (2 ^ k - 1) = (2 ^ (32 - k) - 1) <<< k := by
    have whole : 2 ^ (32 - k) * 2 ^ k = 2 ^ 32 := by rw [← Nat.pow_add, Nat.sub_add_cancel hk]
    rw [Nat.shiftLeft_eq, Nat.sub_mul, whole]
    omega
  have kept : w.toNat &&& (2 ^ 32 - 1 - (2 ^ k - 1)) = (w.toNat >>> k) <<< k := by
    rw [mask]
    apply Nat.eq_of_testBit_eq
    intro i
    simp only [Nat.testBit_and, Nat.testBit_shiftLeft, Nat.testBit_two_pow_sub_one, Nat.testBit_shiftRight]
    by_cases low : k ≤ i
    · rw [Nat.add_sub_cancel' low]
      by_cases out : 32 ≤ i
      · rw [Nat.testBit_lt_two_pow (w.isLt.trans_le (Nat.pow_le_pow_right (by decide) out)), Bool.false_and, Bool.and_false]
      · rw [decide_eq_true (show i - k < 32 - k by omega), Bool.and_true, Bool.and_comm]
    · rw [decide_eq_false low, Bool.false_and, Bool.false_and, Bool.and_false]
  rw [kept, Nat.shiftLeft_eq, Nat.shiftRight_eq_div_pow, Nat.mul_ne_zero_iff, Nat.div_ne_zero_iff]
  exact ⟨fun h => h.1.2, fun h => ⟨⟨pos.ne', h⟩, pos.ne'⟩⟩

/-- A lane fails that has a bit beyond its width (R148). -/
theorem reservedLanes_any {widths : List Nat} (narrow : ∀ k ∈ widths, k ≤ 32) :
    (reservedLanes r (widths.map (fun k => 2 ^ k - 1))).any (fun e => e.1 == j && e.2) = true ↔
      ∃ k, widths[j]? = some k ∧ 2 ^ k ≤ (lane r j).toNat := by
  simp only [reservedLanes, List.any_map, List.any_eq_true, Function.comp_apply, Bool.and_eq_true, beq_iff_eq, bne_iff_ne, Prod.exists,
    List.mk_mem_zipIdx_iff_getElem?, List.getElem?_map, Option.map_eq_some_iff]
  constructor
  · rintro ⟨_, i, ⟨k, listed, rfl⟩, rfl, high⟩
    exact ⟨k, listed, (highBits_ne_zero _ (narrow k (List.mem_of_getElem? listed))).1 high⟩
  · rintro ⟨k, listed, high⟩
    exact ⟨_, j, ⟨k, listed, rfl⟩, rfl, (highBits_ne_zero _ (narrow k (List.mem_of_getElem? listed))).2 high⟩

/-- The bits that the lanes of a `strm` descriptor have (R161). -/
def strmWidths : List Nat := [32, 20, 32, 2, 32, 16, 32, 32, 32, 0, 0, 0, 0, 0, 0, 0]

/-- The extents of the pattern (R161). -/
def strmN0 (r : Row) : Nat := (lane r 4).toNat % 65536
def strmN1 (r : Row) : Nat := (lane r 4).toNat / 65536
def strmN2 (r : Row) : Nat := (lane r 5).toNat % 65536

/-- The lane of a `strm` descriptor holds a reserved bit or a field out of range (R161, R162, R362). -/
def StrmBad (s : State) (r : Row) (j : Nat) : Prop :=
  (j = 1 ∧ 2 ^ 20 ≤ (lane r 1).toNat) ∨ (j = 2 ∧ (coreHere s (lane r 2) = false ∨ shadowCore s (lane r 2) = true)) ∨ (j = 3 ∧ 4 ≤ (lane r 3).toNat) ∨
    (j = 4 ∧ (strmN0 r = 0 ∨ strmN1 r = 0)) ∨ (j = 5 ∧ (strmN2 r = 0 ∨ 65536 ≤ (lane r 5).toNat)) ∨ (9 ≤ j ∧ j < 16 ∧ lane r j ≠ 0)

/-- What `strm` tests of lane i. -/
def strmLaneBad (s : State) (r : Row) (i : Nat) : Bool :=
  (reservedLanes r (strmWidths.map (fun k => 2 ^ k - 1)) ++
    [(2, !coreHere s (lane r 2) || shadowCore s (lane r 2)), (4, strmN0 r == 0 || strmN1 r == 0), (5, strmN2 r == 0)]).any
    (fun e => e.1 == i && e.2)

theorem StrmBad.lt {s : State} (h : StrmBad s r j) : j < 16 := by
  unfold StrmBad at h
  omega

theorem strmWidths_wide : (∃ k, strmWidths[j]? = some k ∧ 2 ^ k ≤ (lane r j).toNat) ↔
    (j = 1 ∧ 2 ^ 20 ≤ (lane r 1).toNat) ∨ (j = 3 ∧ 4 ≤ (lane r 3).toNat) ∨ (j = 5 ∧ 65536 ≤ (lane r 5).toNat) ∨
      (9 ≤ j ∧ j < 16 ∧ lane r j ≠ 0) := by
  have full (i : Nat) : (lane r i).toNat < 4294967296 := (lane r i).isLt
  have nonzero : lane r j ≠ 0 ↔ 1 ≤ (lane r j).toNat := by
    rw [Nat.one_le_iff_ne_zero, ne_eq, ← BitVec.toNat_inj]
    rfl
  rw [nonzero]
  by_cases within : j < 16
  · interval_cases j <;> simp [strmWidths, full]
  · rw [List.getElem?_eq_none (show strmWidths.length ≤ j from Nat.not_lt.1 within)]
    simp only [reduceCtorEq, false_and, exists_false, false_iff]
    omega

theorem strmLaneBad_iff {s : State} : strmLaneBad s r j = true ↔ StrmBad s r j := by
  rw [strmLaneBad, List.any_append, Bool.or_eq_true, reservedLanes_any (by decide), strmWidths_wide]
  simp only [List.any_cons, List.any_nil, Bool.or_false, Bool.or_eq_true, Bool.and_eq_true, beq_iff_eq, Bool.not_eq_true', StrmBad]
  simp only [and_or_left, eq_comm (b := j)]
  exact iff_of_eq (by ac_rfl)

theorem strmLane_least {s : State} (bad : StrmBad s r j) (least : ∀ k, k < j → ¬ StrmBad s r k) :
    firstLane ((List.range 16).map (fun i => (i, strmLaneBad s r i))) = some j :=
  firstLane_least bad.lt (strmLaneBad_iff.2 bad) fun k hk => Bool.eq_false_iff.2 fun h => least k hk (strmLaneBad_iff.1 h)

theorem strmLane_none {s : State} (good : ∀ j, ¬ StrmBad s r j) : firstLane ((List.range 16).map (fun i => (i, strmLaneBad s r i))) = none :=
  firstLane_none fun k _ => Bool.eq_false_iff.2 fun h => good k (strmLaneBad_iff.1 h)

end

/-! ### The pattern (R161, R162) -/

/-- The addresses of the pattern's first byte and of its last. -/
def strmFirst (r : Row) : Int :=
  (addr52 r 0 : Int) + dimLo (strmN0 r) (lane r 6).toInt + dimLo (strmN1 r) (lane r 7).toInt + dimLo (strmN2 r) (lane r 8).toInt
def strmLast (r : Row) : Int :=
  (addr52 r 0 : Int) + dimHi (strmN0 r) (lane r 6).toInt + dimHi (strmN1 r) (lane r 7).toInt + dimHi (strmN2 r) (lane r 8).toInt + 63
/-- The bytes from the pattern's first to its last. -/
def strmBytes (r : Row) : Nat := (strmLast r).toNat + 1 - (strmFirst r).toNat
/-- BASE or a stride is no multiple of 64. -/
def StrmOdd (r : Row) : Prop :=
  addr52 r 0 % 64 ≠ 0 ∨ (lane r 6).toNat % 64 ≠ 0 ∨ (lane r 7).toNat % 64 ≠ 0 ∨ (lane r 8).toNat % 64 ≠ 0

theorem dimLo_le_dimHi (n : Nat) (d : Int) : dimLo n d ≤ dimHi n d := (min_le_left ..).trans (le_max_left ..)

/-- The last byte of the pattern, from its first. -/
theorem strmLast_eq (r : Row) : (strmFirst r).toNat + strmBytes r - 1 = (strmLast r).toNat := by
  have below : strmFirst r ≤ strmLast r := by
    have h0 := dimLo_le_dimHi (strmN0 r) (lane r 6).toInt
    have h1 := dimLo_le_dimHi (strmN1 r) (lane r 7).toInt
    have h2 := dimLo_le_dimHi (strmN2 r) (lane r 8).toInt
    unfold strmFirst strmLast
    omega
  unfold strmBytes
  omega

/-- What `strm` tests of BASE and the strides. -/
theorem strmSteps_any {r : Row} :
    [addr52 r 0, (lane r 6).toNat, (lane r 7).toNat, (lane r 8).toNat].any (fun v => v % 64 != 0) = true ↔ StrmOdd r := by
  simp only [List.any_cons, List.any_nil, Bool.or_false, Bool.or_eq_true, bne_iff_ne, StrmOdd]

/-! ### The checks of `strm` in their order (R147, R162) -/

section
variable {s : State} {r : Row}

theorem startStream_malformed {j : Nat} (bad : StrmBad s r j) (least : ∀ k, k < j → ¬ StrmBad s r k) : startStream r s = malformed s r j := by
  unfold startStream
  extract_lets c w base n0 n1 n2 s0 s1 s2 dest first last lo hi reserved named
  have lowest : firstLane ((List.range 16).map fun i => (i, (reserved ++ named).any fun e => e.1 == i && e.2)) = some j :=
    strmLane_least bad least
  rw [lowest]

/-- The checks of a good descriptor's pattern, in their order. -/
theorem startStream_checks (good : ∀ j, ¬ StrmBad s r j) :
    (strmFirst r < 0 → startStream r s = malformed s r 0) ∧
    (0 ≤ strmFirst r →
      (∀ res, streamWait s (who s) (strmFirst r).toNat = some res → startStream r s = res) ∧
      (streamWait s (who s) (strmFirst r).toNat = none →
        (oneRegion s (who s) (strmFirst r).toNat (strmLast r).toNat = false → startStream r s = malformed s r 0) ∧
        (oneRegion s (who s) (strmFirst r).toNat (strmLast r).toNat = true → StrmOdd r →
          startStream r s = .trap s (mkTrap 0x05 0 (addr52 r 0))))) := by
  unfold startStream
  extract_lets c w base n0 n1 n2 s0 s1 s2 dest first last lo hi reserved named steps n
  have lowest : firstLane ((List.range 16).map fun i => (i, (reserved ++ named).any fun e => e.1 == i && e.2)) = none :=
    strmLane_none good
  rw [lowest]
  dsimp only
  refine ⟨fun neg => if_pos neg, fun pos => ?_⟩
  rw [if_neg (show ¬ first < 0 from Int.not_lt.2 pos)]
  refine ⟨fun res waits => ?_, fun ready => ?_⟩
  · rw [show streamWait s w lo = some res from waits]
  · rw [show streamWait s w lo = none from ready]
    dsimp only
    refine ⟨fun spread => ?_, fun one odd => ?_⟩
    · rw [show oneRegion s w lo hi = false from spread]
      rfl
    · rw [show oneRegion s w lo hi = true from one]
      exact if_pos (strmSteps_any.2 odd)

/-- The pattern of a good descriptor lies in one region, aligned and mapped, its first byte at p (R162). -/
structure StrmPlaced (s : State) (r : Row) (p : Place) : Prop where
  good : ∀ j, ¬ StrmBad s r j
  pos : 0 ≤ strmFirst r
  even : ¬ StrmOdd r
  one : oneRegion s (who s) (strmFirst r).toNat (strmLast r).toNat = true
  mapped : rangeBad s (who s) .load (strmBytes r / 4096 + 2) (strmFirst r).toNat (strmBytes r) = none
  place : resolve s (who s) .load (strmFirst r).toNat = .ok p

/-- The ranges that a stream from p registers (R162). -/
def strmRegs (s : State) (r : Row) (p : Place) : List Reg := regsOf s [(p.key, strmBytes r)] false true

/-- Something keeps the stream from starting: a held acquire or store, or no place or entry (R141, R151, R163, R164; log 63). -/
def strmHeld (s : State) (r : Row) (p : Place) : Bool :=
  acqHeld s || storeHeld s [(p.key, strmBytes r)] || decide (4 ≤ s.core.strms.length) || rltReadLocked s (strmRegs s r p) ||
    !rltRoom s (strmRegs s r p)

theorem strmHeld_iff {p : Place} : strmHeld s r p = true ↔
    acqHeld s = true ∨ storeHeld s [(p.key, strmBytes r)] = true ∨ 4 ≤ s.core.strms.length ∨ rltReadLocked s (strmRegs s r p) = true ∨
      rltRoom s (strmRegs s r p) = false := by
  simp only [strmHeld, Bool.or_eq_true, decide_eq_true_eq, Bool.not_eq_true', or_assoc]

theorem strmHeld_free {p : Place} (noAcq : acqHeld s = false) (noStore : storeHeld s [(p.key, strmBytes r)] = false)
    (room : s.core.strms.length < 4) (unlocked : rltReadLocked s (strmRegs s r p) = false) (entry : rltRoom s (strmRegs s r p) = true) :
    strmHeld s r p = false := by
  rw [strmHeld, noAcq, noStore, decide_eq_false (Nat.not_le.2 room), unlocked, entry]
  rfl

/-- The stream of a descriptor, from p, with the range entries es (R161-R164). -/
def strmOf (s : State) (r : Row) (p : Place) (es : List (Nat × Nat)) : Strm :=
  { at_ := s.timer, key := p.key + (addr52 r 0 - (strmFirst r).toNat), n0 := strmN0 r, n1 := strmN1 r, n2 := strmN2 r, s0 := (lane r 6).toInt,
    s1 := (lane r 7).toInt, s2 := (lane r 8).toInt, dest := lane r 2, ch := (lane r 3).toNat % 4, i := 0, lo := p.key, hi := p.key + strmBytes r - 1,
    va := (strmFirst r).toNat, log := (leafLog s (who s) (strmFirst r).toNat).getD 12, enc := p.enc, proc := s.core.slot.proc, owner := s.core.id,
    rlt := es, kern := s.core.slot.kern, ctxid := ctxOf s.core.hdr, hv := s.core.hvNow }

/-- The state with the stream added and its range registered. -/
def strmStarted (s : State) (r : Row) (p : Place) : State :=
  (touchAtc s.core.slot.xl (rltAdd (strmRegs s r p) s).1 (who s) (strmFirst r).toNat).modC
    (fun c => { c with strms := c.strms ++ [strmOf s r p (rltAdd (strmRegs s r p) s).2] })

/-- What `strm` waits for of the translation of its pattern's first byte (R147, R325). -/
theorem streamWait_miss {w : Who} {a page : Nat} (h : resolve s w .load a = .miss page) : streamWait s w a = some (waitPage s page) := by
  simp only [streamWait, h]
theorem streamWait_ext {w : Who} {a : Nat} {q : ExtReq} (h : resolve s w .load a = .ext q) (asked : refused s.core.slot.xl q = false) :
    streamWait s w a = some (waitExt s q a) := by
  simp only [streamWait, h, asked, Bool.false_eq_true, if_false]
theorem streamWait_ok {w : Who} {a : Nat} {p : Place} (h : resolve s w .load a = .ok p) : streamWait s w a = none := by
  simp only [streamWait, h]

/-- A pattern that is placed waits or starts. -/
theorem startStream_placed {p : Place} (placed : StrmPlaced s r p) :
    startStream r s = if strmHeld s r p then .wait 100 s else .out (strmStarted s r p) 0 := by
  obtain ⟨good, pos, even, one, mapped, place⟩ := placed
  unfold startStream
  extract_lets c w base n0 n1 n2 s0 s1 s2 dest first last lo hi reserved named steps n
  have lowest : firstLane ((List.range 16).map fun i => (i, (reserved ++ named).any fun e => e.1 == i && e.2)) = none :=
    strmLane_none good
  have aligned : ¬ steps.any (fun v => v % 64 != 0) = true := fun odd => even (strmSteps_any.1 odd)
  rw [lowest]
  dsimp only
  rw [if_neg (show ¬ first < 0 from Int.not_lt.2 pos), show streamWait s w lo = none from streamWait_ok place,
    show oneRegion s w lo hi = true from one, if_neg aligned, show rangeBad s w .load (n / 4096 + 2) lo n = none from mapped,
    show resolve s w .load lo = .ok p from place]
  rfl

/-- A word that asks for a page waits for it, its memory as it was (R320). -/
theorem control_waitPage {i : Instr} {p : CSpec} {f : List Row → State → CRes} {page : Nat} (ready : ReadyC p s)
    (effect : f (readAll (readC s.core) p.srcs []) s = waitPage s page) :
    ∃ t, control i p f s = stallC t 100 ∧ t.core.slot.xl.page = some page ∧ t.mem = s.mem :=
  ⟨_, control_wait ready effect, rfl, by rw [modS_mem, askPage_mem]⟩

/-- The same where it asks the host (R325). -/
theorem control_waitExt {i : Instr} {p : CSpec} {f : List Row → State → CRes} {q : ExtReq} {a : Nat} (ready : ReadyC p s)
    (asked : refused s.core.slot.xl q = false) (effect : f (readAll (readC s.core) p.srcs []) s = waitExt s q a) :
    ∃ t, control i p f s = stallC t 100 ∧ t.core.slot.xl.page = some q.page ∧ t.mem = s.mem :=
  ⟨_, control_wait ready (effect.trans (if_neg (Bool.eq_false_iff.1 asked))), rfl, by rw [modS_mem, askExt_mem]⟩

end

/-- Settles O35: the lanes of the descriptor, its pattern's checks, then the wait or the start of the stream. -/
theorem streamStart : Obligations.StreamStart := by
  unfold Obligations.StreamStart
  intro a s ready r w base n0 n1 n2 s0 s1 s2 below above first n badLane odd
  rw [exec_strm, execStrm]
  refine ⟨fun j bad least => control_trap ready (startStream_malformed bad least), fun good => ?_⟩
  obtain ⟨below0, checks⟩ := startStream_checks (s := s) (r := r) good
  refine ⟨fun neg => control_trap ready (below0 neg), fun page pos miss => ?_, fun q pos ext asked => ?_, fun pos settled spread => ?_,
    fun pos settled one stray => ?_, fun p pos even one mapped place => ?_⟩
  · obtain ⟨waits, -⟩ := checks pos
    exact control_waitPage ready (waits _ (streamWait_miss miss))
  · obtain ⟨waits, -⟩ := checks pos
    exact control_waitExt ready asked (waits _ (streamWait_ext ext asked))
  · obtain ⟨-, pattern⟩ := checks pos
    obtain ⟨region, -⟩ := pattern settled
    exact control_trap ready (region ((strmLast_eq r).symm ▸ spread))
  · obtain ⟨-, pattern⟩ := checks pos
    obtain ⟨-, aligned⟩ := pattern settled
    exact control_trap ready (aligned ((strmLast_eq r).symm ▸ one) stray)
  · have placed : StrmPlaced s r p := ⟨good, pos, even, (strmLast_eq r).symm ▸ one, mapped, place⟩
    have effect := startStream_placed placed
    refine ⟨fun held => ?_, fun noAcq noStore room unlocked entry => ?_⟩
    · exact control_wait ready (effect.trans (if_pos (strmHeld_iff.2 held)))
    · have free : ¬ strmHeld s r p = true := Bool.eq_false_iff.1 (strmHeld_free noAcq noStore room unlocked entry)
      obtain ⟨t, word, done⟩ := control_sent (i := .strm a) (f := fun rs s => startStream (nth rs 0) s) ready (effect.trans (if_neg free))
      exact ⟨t, _, _, word, rfl, done⟩

end Sys2Proof.Machine
end

section
/-! PROOFS. Decrements, arrivals at barriers and the end of their phases (O44). -/

namespace Sys2Proof.Machine

/-! ### Decrements (R217, R299) -/

section
variable {s : State} {i : Nat} {d : Dec}

theorem linksWait_none (s : State) : linksWait s [] = false := by
  rw [linksWait, List.isEmpty_nil, Bool.not_true, Bool.and_false, Bool.false_and]

/-- No link lies between this package and itself. -/
theorem linksTo_own (s : State) : linksTo s (ownPkg s) = [] := if_pos rfl

/-- A decrement is the next of its context at its DCT, and a link carries it. -/
structure DecDue (s : State) (i : Nat) (d : Dec) : Prop where
  sent : s.decs[i]? = some d
  first : ∀ e ∈ s.decs.take i, ¬ (e.pkg = d.pkg ∧ e.cl = d.cl ∧ e.core = d.core ∧ e.hv = d.hv ∧ e.ctxid = d.ctxid)
  links : linksWait s (linksTo s d.pkg) = false

/-- The state without it. -/
def decTaken (s : State) (i : Nat) : State := { s with decs := s.decs.eraseIdx i }

theorem exec_dctDecrement_due (h : DecDue s i d) : exec (.dctDecrement i) s = .next (decrement (decTaken s i) d) := by
  obtain ⟨sent, first, links⟩ := h
  have alone : (s.decs.take i).any (fun e => e.pkg == d.pkg && e.cl == d.cl && e.core == d.core && e.hv == d.hv && e.ctxid == d.ctxid) = false := by
    refine List.any_eq_false.2 fun e he same => first e he ?_
    simpa [and_assoc] using same
  rw [exec_dctDecrement]
  simp only [execDctDecrement, sent, alone, links]
  rfl

/-- One of an old generation or for another package changes nothing here (R217; log 64). -/
theorem decrement_discarded (gone : d.pkg ≠ ownPkg s ∨ genLive s d.kern = false) : decrement s d = s := by
  refine if_pos ?_
  rcases gone with away | old
  · rw [bne_iff_ne.2 away, Bool.true_or]
  · rw [old, Bool.not_false, Bool.or_true]

/-- What a decrement finds at its entry. -/
def entryOf (s : State) (d : Dec) : Option (Nat × DctEnt) := (getCl s d.cl).dct.find? (fun p => p.1 == d.entry)

/-- A decrement of this package and of a current generation. -/
structure DecLive (s : State) (d : Dec) : Prop where
  own : d.pkg = ownPkg s
  live : genLive s d.kern = true

theorem DecLive.acts (h : DecLive s d) : ¬ (d.pkg != ownPkg s || !genLive s d.kern) = true := by
  rw [h.own, h.live, bne_self_eq_false]
  exact Bool.false_ne_true

variable {n : Nat} {hdr dest : Word} {row : Option Row} {ctx : Nat}

/-- It takes one from the entry's count. -/
theorem decrement_counts (h : DecLive s d) (armed : entryOf s d = some (d.entry, .armed n hdr dest row d.kern ctx)) (more : 1 < n) :
    decrement s d = setDct s d.cl d.entry (some (.armed (n - 1) hdr dest row d.kern ctx)) := by
  rw [entryOf] at armed
  unfold decrement
  simp only [armed, Option.map_some]
  refine (if_neg h.acts).trans ((if_neg ?_).trans (if_neg (Nat.not_le.2 more)))
  simp

/-- The last one frees the entry and sends its message. -/
theorem decrement_last (h : DecLive s d) (armed : entryOf s d = some (d.entry, .armed n hdr dest row d.kern ctx)) (last : n ≤ 1) :
    decrement s d = releaseHeld (setDct s d.cl d.entry none) d.cl d.entry hdr dest row d.kern ctx := by
  rw [entryOf] at armed
  unfold decrement
  simp only [armed, Option.map_some]
  refine (if_neg h.acts).trans ((if_neg ?_).trans (if_pos last))
  simp

/-- At a free or faulted entry it stops a kernel, its own or the one whose fault it is (log 32). -/
theorem decrement_stops (h : DecLive s d) {k : KRef} (ent : entryOf s d = none ∧ k = d.kern ∨ entryOf s d = some (d.entry, .fault k)) :
    decrement s d = kilnStop (setDct s d.cl d.entry (some (.fault k))) k d.core d.hv d.ctxid (procOfKern s k) cDCTF 0
      (dctRef s d.cl d.entry).toNat := by
  rw [entryOf] at ent
  unfold decrement
  rcases ent with ⟨free, rfl⟩ | faulted
  · simp only [free, Option.map_none]
    exact if_neg h.acts
  · simp only [faulted, Option.map_some]
    exact if_neg h.acts

end

/-! ### Barriers (R187, R359) -/

/-- Nothing but the clocks of clusters differs. -/
def OnlyClocks (s t : State) : Prop := t = { s with clusters := t.clusters } ∧ ∀ c, getCl t c = { getCl s c with clock := (getCl t c).clock }

theorem OnlyClocks.refl (s : State) : OnlyClocks s s := ⟨rfl, fun _ => rfl⟩
theorem OnlyClocks.trans {s t u : State} (h : OnlyClocks s t) (g : OnlyClocks t u) : OnlyClocks s u :=
  ⟨g.1.trans (congrArg (fun x : State => { x with clusters := u.clusters }) h.1),
   fun c => (g.2 c).trans (congrArg (fun x : Cluster => { x with clock := (getCl u c).clock }) (h.2 c))⟩

theorem onlyClocks_planDomain (s : State) (cl : Nat) : OnlyClocks s (planDomain s cl) := by
  obtain ⟨frame, clocks, -⟩ := planDomain_rule s cl
  exact ⟨frame, clocks⟩

theorem onlyClocks_joinDomain (s : State) (cl : Nat) : OnlyClocks s (joinDomain s cl) := by
  unfold joinDomain
  split
  · exact onlyClocks_planDomain s cl
  · exact .refl s

theorem onlyClocks_foldl {α : Type} {f : State → α → State} (step : ∀ s a, OnlyClocks s (f s a)) (l : List α) (s : State) :
    OnlyClocks s (l.foldl f s) := by
  induction l generalizing s with
  | nil => exact .refl s
  | cons a r ih => exact (step s a).trans (ih (f s a))

section
variable {s : State} {part grp : Nat} {w : Word}

/-- A member of another package arrives as that package tells. -/
theorem exec_sendAnswer_arrived : exec (.sendAnswer w (.arrived part grp)) s =
    if linksWait s (linksTo s (pkgOf w)) then .next s else .next (arriveAt part grp w s) := rfl

theorem arriveAt_member {p : Part} (known : partById s part = some p) (away : pkgOf w ≠ ownPkg s) (member : w ∈ look [] p.groups grp)
    (fresh : w ∉ (barOf s part grp).arrived) :
    OnlyClocks (setBar s { barOf s part grp with arrived := (barOf s part grp).arrived ++ [w] }) (arriveAt part grp w s) := by
  have comes : (pkgOf w != ownPkg s && (partById s part).any (fun p => (look [] p.groups grp).contains w) && !(barOf s part grp).arrived.contains w) = true := by
    simp [known, away, member, fresh]
  rw [arriveAt, if_pos comes]
  exact onlyClocks_foldl onlyClocks_joinDomain _ _

end

section
variable {s : State} {g : Nat} {b : Bar}

/-- The copies that are counted into a barrier's phase. -/
def countedJobs (s : State) (b : Bar) : List Job :=
  (s.clusters.filter (fun c => (partOfCl s c.id).any (fun p => p.id == b.part))).flatMap (fun c => c.jobs.filter (fun j => j.phase == some (b.grp, b.phase)))

theorem mem_countedJobs {j : Job} : j ∈ countedJobs s b ↔
    ∃ c ∈ s.clusters, (∃ p, partOfCl s c.id = some p ∧ p.id = b.part) ∧ j ∈ c.jobs ∧ j.phase = some (b.grp, b.phase) := by
  simp only [countedJobs, List.mem_flatMap, List.mem_filter, Option.any_eq_true, beq_iff_eq, and_assoc]

/-- The phase of a barrier of the group can complete. -/
def phaseReady (s : State) (g : Nat) (b : Bar) : Bool :=
  b.grp == g && !(barMembers s b).isEmpty && (barMembers s b).all (fun w => b.arrived.contains w) && (countedJobs s b).all (settled s)

theorem mem_barMembers_iff (q : Word → Prop) : (barMembers s b ≠ [] ∧ ∀ w ∈ barMembers s b, q w) ↔
    ∃ p, partById s b.part = some p ∧ look [] p.groups b.grp ≠ [] ∧ ∀ w ∈ look [] p.groups b.grp, q w := by
  unfold barMembers
  split
  · next p known => simp [known]
  · next unknown => simp [unknown]

theorem phaseReady_iff : phaseReady s g b = true ↔ b.grp = g ∧
    (∃ p, partById s b.part = some p ∧ look [] p.groups g ≠ [] ∧ ∀ w ∈ look [] p.groups g, w ∈ b.arrived) ∧
    ∀ c ∈ s.clusters, (∃ p, partOfCl s c.id = some p ∧ p.id = b.part) → ∀ j ∈ c.jobs, j.phase = some (g, b.phase) → settled s j = true := by
  have settles : (countedJobs s b).all (settled s) = true ↔ ∀ c ∈ s.clusters, (∃ p, partOfCl s c.id = some p ∧ p.id = b.part) →
      ∀ j ∈ c.jobs, j.phase = some (b.grp, b.phase) → settled s j = true := by
    rw [List.all_eq_true]
    exact ⟨fun h c hc hp j hj hb => h j (mem_countedJobs.2 ⟨c, hc, hp, hj, hb⟩), fun h j hj => by
      obtain ⟨c, hc, hp, hj, hb⟩ := mem_countedJobs.1 hj
      exact h c hc hp j hj hb⟩
  have arrive : (!(barMembers s b).isEmpty && (barMembers s b).all (fun w => b.arrived.contains w)) = true ↔
      barMembers s b ≠ [] ∧ ∀ w ∈ barMembers s b, w ∈ b.arrived := by simp
  rw [phaseReady, Bool.and_eq_true, Bool.and_assoc, Bool.and_eq_true, beq_iff_eq, arrive, mem_barMembers_iff (· ∈ b.arrived), settles, and_assoc]
  refine and_congr_right fun group => ?_
  rw [group]

/-- A barrier of the group, its phase completed if it can be. -/
def phaseEnded (s : State) (g : Nat) (b : Bar) : Bar := if phaseReady s g b then { b with phase := b.phase + 1, arrived := [] } else b

theorem exec_barrierPhaseComplete_clocks : ∃ t, exec (.barrierPhaseComplete g) s = .next t ∧
    OnlyClocks { s with bars := s.bars.map (phaseEnded s g) } t :=
  ⟨_, rfl, onlyClocks_foldl (f := fun t b => (barClusters s b).foldl planDomain t) (fun t b => onlyClocks_foldl onlyClocks_planDomain (barClusters s b) t)
    (s.bars.filter (phaseReady s g)) { s with bars := s.bars.map (phaseEnded s g) }⟩

end

/-- Settles O44: a decrement by `decrement_counts`, `decrement_last`, `decrement_stops` and `decrement_discarded`; what a barrier
does besides is done to clocks alone. -/
theorem groupEvents : Obligations.GroupEvents := by
  unfold Obligations.GroupEvents
  refine ⟨?_, ?_, ?_, ?_⟩
  · intro s i d sent own live first u ent
    have run := exec_dctDecrement_due ⟨sent, first, own ▸ linksTo_own s ▸ linksWait_none s⟩
    have acts : DecLive u d := ⟨own, live⟩
    refine ⟨fun n hdr dest row ctx armed more => ?_, fun n hdr dest row ctx armed last => ?_, fun k stops => ?_⟩
    · exact run.trans (congrArg _ (decrement_counts acts armed more))
    · exact ⟨_, run.trans (congrArg _ (decrement_last acts armed last)), rfl, rfl, rfl, rfl, rfl, rfl, rfl⟩
    · exact ⟨_, run.trans (congrArg _ (decrement_stops acts stops)), rfl, rfl⟩
  · intro s i d sent gone first links
    exact (exec_dctDecrement_due ⟨sent, first, links⟩).trans (congrArg _ (decrement_discarded (s := decTaken s i) gone))
  · intro s p grp w known away member fresh b
    refine ⟨fun waits => if_pos waits, fun links => ?_⟩
    obtain ⟨frame, clocks⟩ := arriveAt_member known away member fresh
    exact ⟨_, exec_sendAnswer_arrived.trans (if_neg (Bool.eq_false_iff.1 links)), frame, clocks⟩
  · intro s g
    obtain ⟨t, run, frame, clocks⟩ := exec_barrierPhaseComplete_clocks (s := s) (g := g)
    refine ⟨phaseEnded s g, t, run, frame, clocks, fun b _ => ⟨fun full => ?_, fun lacking => ?_⟩⟩
    · exact if_pos (phaseReady_iff.2 full)
    · exact if_neg fun ready => lacking (phaseReady_iff.1 ready)

end Sys2Proof.Machine
end

section
/-! PROOFS. Translations come, go and fail: walks, invalidations, requests to the host (O49). -/

namespace Sys2Proof.Machine

/-! ### What an asker is told (R320) -/

/-- A fold of steps that keep something keeps it. -/
theorem foldl_keeps {α β : Type} (g : State → β) {f : State → α → State} (keeps : ∀ s a, g (f s a) = g s) (l : List α) (s : State) :
    g (l.foldl f s) = g s := by
  induction l generalizing s with
  | nil => rfl
  | cons a r ih => exact (ih (f s a)).trans (keeps s a)

/-- An update of a listed core is the current core's, or leaves the current core alone. -/
theorem modCore_core (s : State) (w : Word) {f : Core → Core} (keeps : ∀ c, (f c).id = c.id) :
    (modCore s w f).core = if s.core.id = w then f s.core else s.core := by
  by_cases own : s.core.id = w
  · subst own
    rw [modCore_own (keeps _), if_pos rfl]
  · rw [modCore, setCore, keeps, getCore_id, if_neg own, if_neg own]

theorem slotOf_now (c : Core) : c.slotOf c.hvNow = c.slot := by
  unfold Core.slotOf Core.harvest Core.owner
  cases c.hvNow <;> rfl

theorem setSlotOf_now (c : Core) (x : Slot) : (if c.hvNow then c.setHarvest x else c.setOwner x) = { c with slot := x } := by
  unfold Core.setHarvest Core.setOwner
  cases c.hvNow <;> rfl

/-- Storing a slot of a core changes its two slots and nothing else. -/
theorem setSlotOf_frame (c : Core) (hv : Bool) (x : Slot) :
    ∃ y z, (if hv then c.setHarvest x else c.setOwner x) = { c with slot := y, alt := z } := by
  unfold Core.setHarvest Core.setOwner
  cases hv <;> cases c.hvNow <;> exact ⟨_, _, rfl⟩

section
variable {f : Xlat → Xlat} {s : State} {w : Word} {who : Asker} {page : Nat}

/-- Telling an asker changes the slots of its core, or a job of its unit. -/
theorem tellAsker_core : ∃ x y, (tellAsker f s w who page).core = { s.core with slot := x, alt := y } := by
  cases who with
  | slot hv =>
    have keeps : ∀ c : Core, ∀ x : Slot, (if hv then c.setHarvest x else c.setOwner x).id = c.id := fun c x => by
      obtain ⟨y, z, h⟩ := setSlotOf_frame c hv x
      rw [h]
    rw [tellAsker, modCore_core s w fun c => keeps c _]
    split
    · exact setSlotOf_frame ..
    · exact ⟨_, _, rfl⟩
  | none => exact ⟨_, _, rfl⟩
  | job n => exact ⟨_, _, rfl⟩

/-- What the slots of a core do not hold stays. -/
theorem tellAsker_keeps {α : Type} (g : Core → α) (keeps : ∀ c x y, g { c with slot := x, alt := y } = g c) :
    g (tellAsker f s w who page).core = g s.core := by
  obtain ⟨x, y, h⟩ := tellAsker_core (f := f) (s := s) (w := w) (who := who) (page := page)
  rw [h, keeps]

@[simp] theorem tellAsker_tlb : (tellAsker f s w who page).core.tlb = s.core.tlb := tellAsker_keeps Core.tlb fun _ _ _ => rfl
@[simp] theorem tellAsker_atc : (tellAsker f s w who page).core.atc = s.core.atc := tellAsker_keeps Core.atc fun _ _ _ => rfl
@[simp] theorem tellAsker_ext : (tellAsker f s w who page).core.ext = s.core.ext := tellAsker_keeps Core.ext fun _ _ _ => rfl
@[simp] theorem tellAsker_misses : (tellAsker f s w who page).misses = s.misses := by
  unfold tellAsker
  split <;> simp

/-- The slot that waits for the page goes on. -/
def told (f : Xlat → Xlat) (s : State) : State :=
  { s with core := { s.core with slot := { s.core.slot with waitC := none, xl := { f s.core.slot.xl with page := none } } } }

theorem tellAsker_own (waits : s.core.slot.xl.page = some page) : tellAsker f s s.core.id (.slot s.core.hvNow) page = told f s := by
  rw [tellAsker, modCore_own]
  · rw [slotOf_now, setSlotOf_now]
    dsimp only
    rw [if_pos waits]
    rfl
  · rw [setSlotOf_now]

end

/-! ### Fills (R320, R321) -/

section
variable {s : State} {t : TlbEnt} {m : Miss}

@[simp] theorem fillL1_misses : (fillL1 t s m).misses = s.misses := by
  unfold fillL1
  rw [tellAsker_misses]
  unfold modCore setCore
  split <;> rfl

/-- A fill of the current core's L1. -/
theorem fillL1_own (here : m.core = s.core.id) :
    fillL1 t s m = tellAsker (fun x => { x with ents := t :: x.ents }) { s with core := { s.core with tlb := tlbFill s.core.tlb 256 t } }
      s.core.id m.asker m.page := by
  rw [fillL1, here, modCore_own rfl]

theorem fillL1_tlb (here : m.core = s.core.id) : (fillL1 t s m).core.tlb = tlbFill s.core.tlb 256 t := by
  rw [fillL1_own here, tellAsker_tlb]

/-- The state after it where the current slot waits for the page: the slot goes on with the translation. -/
def slotFilled (t : TlbEnt) (s : State) : State :=
  told (fun x => { x with ents := t :: x.ents }) { s with core := { s.core with tlb := tlbFill s.core.tlb 256 t } }

theorem fillL1_slot (here : m.core = s.core.id) (asks : m.asker = .slot s.core.hvNow) (waits : s.core.slot.xl.page = some m.page) :
    fillL1 t s m = slotFilled t s := by
  rw [fillL1_own here, asks]
  exact tellAsker_own (s := { s with core := { s.core with tlb := tlbFill s.core.tlb 256 t } }) waits

end

/-! ### Walks (R318, R321) -/

section
variable {s : State} {t : TlbEnt} {m : Miss} {w : Word}

/-- A miss that the cluster's L2 answers. -/
theorem exec_l2HitFill_first (first : s.misses.find? (fun m => m.core == s.core.id && (l2Find s m.core m.proc m.page).isSome) = some m)
    (found : l2Find s s.core.id m.proc m.page = some t) :
    exec (.l2HitFill s.core.id) s = .next (fillL1 t { s with misses := s.misses.erase m } m) := by
  rw [exec_l2HitFill]
  simp only [execL2HitFill, first, found]

/-- A walk of that die gives the miss its translation. -/
def Miss.served (w : Word) (t : TlbEnt) (n : Miss) : Bool := dieOf n.core == dieOf w && n.within t

/-- The L2 of every cluster where one of the misses waits is filled. -/
def l2Filled (t : TlbEnt) (waiting : List Miss) (s : State) : State :=
  (((waiting.filter (fun n => !isMem n.core)).map (fun n => clIdx n.core)).eraseDups).foldl
    (fun s n => modCl s n (fun u => { u with l2 := tlbFill u.l2 4096 t })) s

/-- What no cluster holds stays. -/
theorem l2Filled_keeps {β : Type} (g : State → β) (keeps : ∀ s n f, g (modCl s n f) = g s) (waiting : List Miss) : g (l2Filled t waiting s) = g s := by
  unfold l2Filled
  exact foldl_keeps g (fun s n => keeps s n _) _ s

/-- The L2 of the cluster where one miss waits. -/
theorem l2Filled_one (compute : isMem m.core = false) :
    (getCl (l2Filled t [m] s) (clIdx m.core)).l2 = tlbFill (getCl s (clIdx m.core)).l2 4096 t := by
  have one : l2Filled t [m] s = modCl s (clIdx m.core) (fun u => { u with l2 := tlbFill u.l2 4096 t }) := by
    rw [l2Filled, List.filter_singleton, compute]
    rfl
  rw [one, getCl_modCl _ _ _ _ (getCl_id _ _), if_pos rfl]

/-- What a walk that finds a leaf leaves. -/
def pageFilled (w : Word) (t : TlbEnt) (s : State) : State :=
  (s.misses.filter (Miss.served w t)).foldl (fillL1 t)
    (l2Filled t (s.misses.filter (Miss.served w t)) { s with misses := s.misses.filter (fun n => !Miss.served w t n) })

theorem pageFilled_mem : (pageFilled w t s).mem = s.mem :=
  (foldl_mem (fun _ _ => fillL1_mem ..) _ _).trans (l2Filled_keeps State.mem modCl_mem _)

theorem mem_pageFilled_misses {n : Miss} :
    n ∈ (pageFilled w t s).misses ↔ n ∈ s.misses ∧ ¬ (dieOf n.core = dieOf w ∧ n.within t = true) := by
  have left : (pageFilled w t s).misses = s.misses.filter (fun n => !Miss.served w t n) :=
    (foldl_keeps State.misses (fun _ _ => fillL1_misses) _ _).trans (l2Filled_keeps State.misses modCl_misses _)
  rw [left, List.mem_filter, Miss.served, Bool.not_eq_true', ← Bool.not_eq_true, Bool.and_eq_true, beq_iff_eq]

/-- Where the current slot's is the only miss, the slot goes on, and the L2 of its cluster is filled. -/
theorem pageFilled_only (only : s.misses = [m]) (here : m.core = s.core.id) (asks : m.asker = .slot s.core.hvNow)
    (waits : s.core.slot.xl.page = some m.page) (covered : m.within t = true) :
    pageFilled s.core.id t s = slotFilled t (l2Filled t [m] { s with misses := [] }) := by
  have served : Miss.served s.core.id t m = true := by
    rw [Miss.served, here, covered, beq_self_eq_true]
    rfl
  have filled : pageFilled s.core.id t s = fillL1 t (l2Filled t [m] { s with misses := [] }) m := by
    unfold pageFilled
    rw [only, List.filter_singleton, List.filter_singleton, served]
    rfl
  have core : (l2Filled t [m] { s with misses := [] }).core = s.core := l2Filled_keeps State.core modCl_core _
  rw [← core] at here asks waits
  exact filled.trans (fillL1_slot here asks waits)

/-- The first miss of the core that a walker is at. -/
def WalkDue (s : State) (w : Word) (m : Miss) : Prop :=
  s.misses.find? (fun m => m.core == w && (l2Find s m.core m.proc m.page).isNone && (walking s (dieOf w)).contains (m.proc, m.page)) = some m

theorem WalkDue.here (h : WalkDue s w m) : m.core = w := by
  have due := List.find?_some h
  rw [Bool.and_eq_true, Bool.and_eq_true, beq_iff_eq] at due
  exact due.1.1

theorem exec_pageWalk_leaf (h : WalkDue s w m) {e : DWord} (leaf : walk s m.proc (m.page * 4096) = .leaf e) :
    exec (.pageWalk w) s = .next (pageFilled w (tlbEntry m.proc (m.page * 4096) e) s) := by
  rw [WalkDue] at h
  rw [exec_pageWalk]
  simp only [execPageWalk, h, leaf]
  rfl

/-- The miss waits on that die for the page of m. -/
def Miss.alike (w : Word) (m n : Miss) : Bool := dieOf n.core == dieOf w && n.proc == m.proc && n.page == m.page

/-- A miss is told of the fault of its walk. -/
def tellFault (info : Nat) (s : State) (n : Miss) : State :=
  tellAsker (fun x => { x with bad := (n.proc, n.page, info) :: x.bad }) s n.core n.asker n.page

/-- What a walk that faults leaves. -/
def pageFaulted (w : Word) (m : Miss) (info : Nat) (s : State) : State :=
  (s.misses.filter (Miss.alike w m)).foldl (tellFault info) { s with misses := s.misses.filter (fun n => !Miss.alike w m n) }

theorem pageFaulted_mem {info : Nat} : (pageFaulted w m info s).mem = s.mem := foldl_mem (fun _ _ => tellAsker_mem ..) _ _
theorem pageFaulted_tlb {info : Nat} : (pageFaulted w m info s).core.tlb = s.core.tlb :=
  foldl_keeps (fun s => s.core.tlb) (fun _ _ => tellAsker_tlb) _ _

theorem mem_pageFaulted_misses {info : Nat} {n : Miss} :
    n ∈ (pageFaulted w m info s).misses ↔ n ∈ s.misses ∧ ¬ (dieOf n.core = dieOf w ∧ n.proc = m.proc ∧ n.page = m.page) := by
  have left : (pageFaulted w m info s).misses = s.misses.filter (fun n => !Miss.alike w m n) :=
    foldl_keeps State.misses (fun _ _ => tellAsker_misses) _ _
  rw [left, List.mem_filter, Miss.alike, Bool.not_eq_true', ← Bool.not_eq_true, Bool.and_eq_true, Bool.and_eq_true, beq_iff_eq, beq_iff_eq,
    beq_iff_eq, and_assoc]

theorem pageFaulted_only {info : Nat} (only : s.misses = [m]) (here : m.core = s.core.id) (asks : m.asker = .slot s.core.hvNow)
    (waits : s.core.slot.xl.page = some m.page) :
    pageFaulted s.core.id m info s = told (fun x => { x with bad := (m.proc, m.page, info) :: x.bad }) { s with misses := [] } := by
  have alike : Miss.alike s.core.id m m = true := by simp [Miss.alike, here]
  have faulted : pageFaulted s.core.id m info s = tellFault info { s with misses := [] } m := by
    unfold pageFaulted
    rw [only, List.filter_singleton, List.filter_singleton, alike]
    rfl
  rw [faulted, tellFault, here, asks]
  exact tellAsker_own (s := { s with misses := [] }) waits

theorem exec_pageWalk_fault (h : WalkDue s w m) {f : WalkEnd} (found : walk s m.proc (m.page * 4096) = f) (bad : f = .unmap ∨ f = .fmt) :
    exec (.pageWalk w) s = .next (pageFaulted w m (if f = .fmt then infoFMT else infoUNMAP) s) := by
  rw [WalkDue] at h
  rw [exec_pageWalk]
  rcases bad with rfl | rfl
  · simp only [execPageWalk, h, found]
    rfl
  · simp only [execPageWalk, h, found]
    rfl

end

/-! ### Invalidations (R193, R322, R327) -/

theorem invalHits_iff {proc : Option Nat} {va len a p n : Nat} :
    invalHits proc va len p a n = true ↔ ∀ q, proc = some q → p = q ∧ (len = 0 ∨ (a < va + len ∧ va < a + n)) := by
  cases proc with
  | none => simp [invalHits]
  | some q => simp [invalHits]

/-- The entries that an invalidation leaves of a list. -/
def spared (proc : Option Nat) (va len : Nat) (l : List TlbEnt) : List TlbEnt := l.filter (fun t => !invalHits proc va len t.proc t.va (2 ^ t.log))

theorem mem_spared {proc : Option Nat} {va len : Nat} {l : List TlbEnt} {e : TlbEnt} : e ∈ spared proc va len l ↔
    e ∈ l ∧ ¬ ∀ q, proc = some q → e.proc = q ∧ (len = 0 ∨ (e.va < va + len ∧ va < e.va + 2 ^ e.log)) := by
  rw [spared, List.mem_filter, Bool.not_eq_true', ← Bool.not_eq_true, invalHits_iff]

section
variable {s : State} {part va len : Nat} {proc : Option Nat}

/-- A slot, and a core of the partition, without the entries that an invalidation names. -/
def Slot.spared (proc : Option Nat) (va len : Nat) (x : Slot) : Slot := { x with xl := { x.xl with ents := Machine.spared proc va len x.xl.ents } }
def Core.spared (proc : Option Nat) (va len : Nat) (c : Core) : Core :=
  { c with tlb := Machine.spared proc va len c.tlb }.mapSlots (Slot.spared proc va len)

theorem invalidate_core : (invalidate part proc va len s).core = if inPart s part s.core.id then s.core.spared proc va len else s.core := rfl

/-- A context of the partition that is saved off its core keeps what is left of its entries. -/
theorem invalidate_saved {e : Saved} (listed : e ∈ (invalidate part proc va len s).saved) (inside : inPart s part e.core = true) :
    ∃ l, e.ctx.slot.xl.ents = spared proc va len l := by
  obtain ⟨o, -, rfl⟩ := List.mem_map.1 listed
  dsimp only at inside ⊢
  by_cases saved : inPart s part o.core = true
  · exact ⟨o.ctx.slot.xl.ents, by rw [if_pos (by exact saved)]; rfl⟩
  · rw [if_neg (by exact saved)] at inside
    exact absurd inside saved

theorem exec_tlbInvalidateComplete_first {r : List Inval} (first : s.invals = .tlb part proc va len :: r) :
    exec .tlbInvalidateComplete s = if invalWaits s part proc va len then .next s else .next { s with invals := r } := by
  rw [exec_tlbInvalidateComplete]
  simp only [execTlbInvalidateComplete, first, List.find?_cons, List.erase_cons_head]

end

/-! ### Requests to the host (R325, R326, R337) -/

section
variable {s : State} {q : ExtReq}

/-- The current core without a request. -/
def withoutExt (s : State) (q : ExtReq) : State := { s with core := { s.core with ext := s.core.ext.erase q } }

theorem dropExt_own : dropExt s s.core.id q = withoutExt s q := modCore_own rfl

theorem failExt_own : failExt s s.core.id q =
    tellAsker (fun x => { x with ebad := (q.pasid, q.page, 6) :: x.ebad }) (withoutExt s q) s.core.id q.asker q.page := by
  rw [failExt, dropExt_own]

theorem failExt_ext : (failExt s s.core.id q).core.ext = s.core.ext.erase q := by
  rw [failExt_own, tellAsker_ext]
  rfl

/-- The slot that waits for the page meets the failure. -/
theorem failExt_slot (asks : q.asker = .slot s.core.hvNow) (waits : s.core.slot.xl.page = some q.page) :
    failExt s s.core.id q = told (fun x => { x with ebad := (q.pasid, q.page, 6) :: x.ebad }) (withoutExt s q) := by
  rw [failExt_own, asks]
  exact tellAsker_own (s := withoutExt s q) waits

/-- The translation that a completion brings. -/
def grant (q : ExtReq) (page n : Nat) (r w : Bool) : AtcEnt :=
  { pasid := q.pasid, page := q.page * 4096, log := 12 + n, hpa := page * 4096, r := r, w := w }

/-- The ATC of the current core with it: the newest, in place of those it overlaps. -/
def granted (s : State) (q : ExtReq) (t : AtcEnt) : State :=
  { withoutExt s q with core := { (withoutExt s q).core with
      atc := (t :: s.core.atc.filter (fun e => !(e.pasid == q.pasid && e.page >>> e.log == (q.page * 4096) >>> e.log))).take 1024 } }

theorem exec_translationCompletion_granted (oldest : s.core.ext.find? (fun q => !q.paged) = some q) (page n : Nat) (r w : Bool) :
    exec (.translationCompletion s.core.id true page n r w) s =
      .next (tellAsker id (granted s q (grant q page n r w)) s.core.id q.asker q.page) := by
  rw [exec_translationCompletion]
  simp only [execTranslationCompletion, getCore_own, oldest, if_true]
  rw [dropExt_own]
  exact congrArg (fun u => Host.Outcome.next (tellAsker id u s.core.id q.asker q.page)) (modCore_own (s := withoutExt s q) rfl)

theorem exec_translationCompletion_failed (oldest : s.core.ext.find? (fun q => !q.paged) = some q) (page n : Nat) (r w : Bool) :
    exec (.translationCompletion s.core.id false page n r w) s = .next (failExt s s.core.id q) := by
  rw [exec_translationCompletion]
  simp only [execTranslationCompletion, getCore_own, oldest, Bool.false_eq_true, if_false]

/-- The answer to an abandoned request is discarded (R337). -/
theorem exec_pageResponse_abandoned (oldest : s.core.ext.find? (fun q => q.paged && q.sent) = some q) (nobody : q.asker = .none) (code : PrgCode) :
    exec (.pageRequestGroupResponse s.core.id code) s = .next (withoutExt s q) := by
  rw [exec_pageRequestGroupResponse]
  simp only [execPageRequestGroupResponse, getCore_own, oldest, nobody, if_true]
  rw [dropExt_own]

/-- The answers to one that an asker waits for. -/
theorem exec_pageResponse_awaited (oldest : s.core.ext.find? (fun q => q.paged && q.sent) = some q) (somebody : q.asker ≠ .none) :
    exec (.pageRequestGroupResponse s.core.id .success) s =
      .next (s.modC (fun c => { c with ext := s.core.ext.map (fun e => if e = q then { e with paged := false } else e) })) ∧
    exec (.pageRequestGroupResponse s.core.id .invalid) s = .next (failExt s s.core.id q) ∧
    exec (.pageRequestGroupResponse s.core.id .failure) s = .next { failExt s s.core.id q with priEnabled := false } := by
  simp only [exec_pageRequestGroupResponse, execPageRequestGroupResponse, getCore_own, oldest, if_neg somebody, and_self, and_true]
  exact congrArg _ (modCore_own rfl)

end

/-! ### Invalidations of the host (R327) -/

section
variable {s : State}

/-- An access to host memory is under way. -/
def hostBusy (s : State) : Bool :=
  let host (k : Nat) : Bool := decide (2 * spaceSize ≤ k) && decide (k < 3 * spaceSize)
  s.held.any (fun h => h.spots.any (fun p => host p.key)) ||
    (allCores s).any (fun c => c.late.any (fun l => host l.addr) || c.strms.any (fun t => host t.lo) ||
      c.slots.any (fun x => x.pend.any (fun p => host p.addr))) || s.saved.any (fun e => e.ctx.slot.pend.any (fun p => host p.addr)) ||
    s.clusters.any (fun u => u.imgs.any (fun i => host i.key) || u.jobs.any Job.readBack)

theorem hostBusy_idle (held : s.held = []) (cores : ∀ c ∈ allCores s, c.late = [] ∧ c.strms = [] ∧ ∀ x ∈ c.slots, x.pend = [])
    (saved : ∀ e ∈ s.saved, e.ctx.slot.pend = []) (units : ∀ u ∈ s.clusters, u.imgs = [] ∧ ∀ j ∈ u.jobs, j.kind = .xst → j.msgDue = false) :
    hostBusy s = false := by
  simp only [hostBusy, Bool.or_eq_false_iff, List.any_eq_false, Bool.or_eq_true, not_or]
  refine ⟨⟨⟨fun h hh => ?_, fun c hc => ?_⟩, fun e he => ?_⟩, fun u hu => ?_⟩
  · rw [held] at hh
    cases hh
  · obtain ⟨late, strms, pend⟩ := cores c hc
    rw [late, strms]
    exact ⟨⟨Bool.false_ne_true, Bool.false_ne_true⟩, fun any => by
      obtain ⟨x, hx, busy⟩ := List.any_eq_true.1 any
      rw [pend x hx] at busy
      cases busy⟩
  · rw [saved e he]
    exact Bool.false_ne_true
  · obtain ⟨imgs, jobs⟩ := units u hu
    rw [imgs]
    refine ⟨Bool.false_ne_true, fun any => ?_⟩
    obtain ⟨j, hj, back⟩ := List.any_eq_true.1 any
    rw [Job.readBack, Bool.and_eq_true, beq_iff_eq] at back
    exact absurd back.2 (Bool.eq_false_iff.1 (jobs j hj back.1))

theorem hostBusy_readBack {u : Cluster} {j : Job} (hu : u ∈ s.clusters) (hj : j ∈ u.jobs) (kind : j.kind = .xst) (due : j.msgDue = true) :
    hostBusy s = true := by
  have readBack : u.jobs.any Job.readBack = true := List.any_eq_true.2 ⟨j, hj, by rw [Job.readBack, kind, due]; rfl⟩
  have unit : s.clusters.any (fun u => u.imgs.any (fun i => decide (2 * spaceSize ≤ i.key) && decide (i.key < 3 * spaceSize)) || u.jobs.any Job.readBack) = true :=
    List.any_eq_true.2 ⟨u, hu, by rw [readBack, Bool.or_true]⟩
  exact Bool.or_eq_true_iff.2 (.inr unit)

theorem exec_invalidationCompletion_first {pasid page n : Nat} {r : List Inval} (first : s.invals = .host pasid page n :: r) :
    exec .invalidationCompletion s = if hostBusy s then .next s else .next { s with invals := r } := by
  rw [exec_invalidationCompletion]
  simp only [execInvalidationCompletion, first, List.find?_cons, List.erase_cons_head]
  rfl

theorem exec_invalidationCompletion_busy (busy : hostBusy s = true) : exec .invalidationCompletion s = .next s := by
  rw [exec_invalidationCompletion]
  unfold execInvalidationCompletion
  dsimp only
  split
  · exact if_pos busy
  · rfl

end

/-! ### Completion timeouts (R153, R324, R329) -/

/-- A number chooses one of a list. -/
theorem getElem?_mod_mem {α : Type} {l : List α} (nonempty : l ≠ []) (n : Nat) : ∃ e ∈ l, l[n % l.length]? = some e :=
  have inside : n % l.length < l.length := Nat.mod_lt _ (List.length_pos_iff.2 nonempty)
  ⟨_, List.getElem_mem inside, List.getElem?_eq_getElem inside⟩

theorem arrayOf_external {k : Nat} (out : isExternal k = true) : arrayOf k = 7 := by
  rw [isExternal, Bool.and_eq_true, decide_eq_true_iff, decide_eq_true_iff, spaceSize] at out
  unfold arrayOf spaceSize
  rw [if_neg (by omega), if_neg (by simp; omega), if_neg (by omega), if_neg (by omega)]

section
variable {s : State}

/-- The request that the free value chooses of those that are out (log 5). -/
def timedOut (s : State) : Option ExtOut := (extOut s s.core.id)[(takeFree s).1.toNat % (extOut s s.core.id).length]?

/-- Loads and stores that are out go to external memory. -/
theorem extOut_load {w : Word} {l : Late} (out : .load l ∈ extOut s w) : isExternal l.addr = true := by
  simp only [extOut, List.mem_append, List.mem_map, List.mem_filter, Bool.and_eq_true, List.mem_filterMap, Option.map_eq_some_iff, reduceCtorEq, and_false,
    exists_false, or_false, ExtOut.load.injEq] at out
  obtain ⟨m, ⟨-, far, -⟩, rfl⟩ := out
  exact far
theorem extOut_store {w : Word} {hv : Bool} {p : PendW} (out : .store hv p ∈ extOut s w) : isExternal p.addr = true := by
  simp only [extOut, List.mem_append, List.mem_map, List.mem_filter, Bool.and_eq_true, List.mem_filterMap, Option.map_eq_some_iff, reduceCtorEq, and_false,
    exists_false, or_false, false_or, ExtOut.store.injEq] at out
  rcases out with ⟨m, ⟨-, far, -⟩, -, rfl⟩ | ⟨m, ⟨-, far, -⟩, -, rfl⟩
  · exact far
  · exact far

/-- The stop that a machine check asks for. -/
theorem mchkStop_asks (v : State) (k : KRef) (w : Word) (hv : Bool) (ctxid proc info addr : Nat) :
    ∃ q, mchkStop v k w hv ctxid proc info addr = { v with stops := v.stops ++ [q] } ∧
      q.kern = k ∧ q.lane4 = BitVec.ofNat 32 (0x21 ||| info) ∧ q.faddr = addr := ⟨_, rfl, rfl, rfl, rfl⟩

/-- A load lands zeros, with a machine check. -/
theorem exec_completionTimeout_load {l : Late} (chosen : timedOut s = some (.load l)) (far : isExternal l.addr = true) (plain : s.core.ckpt = none) :
    ∃ q, exec (.completionTimeout s.core.id) s = .next { (takeFree s).2 with core := landIn (withoutLate s l) l 0, stops := s.stops ++ [q] } ∧
      q.kern = l.kern ∧ q.lane4 = BitVec.ofNat 32 (0x21 ||| (7 <<< 17 ||| 512)) ∧ q.faddr = lineAddr l.addr := by
  rw [timedOut] at chosen
  have own : getCore (takeFree s).2 s.core.id = s.core := getCore_own (takeFree s).2
  have noCkpt : (landIn (withoutLate s l) l 0).ckpt = none := (landIn_ckpt ..).trans plain
  have lands : setCore (takeFree s).2 (landCkpt (landIn (withoutLate s l) l 0) l 0) = { (takeFree s).2 with core := landIn (withoutLate s l) l 0 } := by
    rw [landCkpt_none noCkpt]
    exact setCore_own (s := (takeFree s).2) (landIn_id ..)
  obtain ⟨q, stops, record⟩ := mchkStop_asks { (takeFree s).2 with core := landIn (withoutLate s l) l 0 } l.kern s.core.id l.hv l.ctxid l.proc
    (7 <<< 17 ||| 512) (lineAddr l.addr)
  refine ⟨q, Eq.trans ?_ (congrArg _ stops), record⟩
  rw [exec_completionTimeout, ← lands]
  simp only [execCompletionTimeout, chosen, arrayOf_external far, own]
  rfl

/-- A core whose slot is rid of a store. -/
def withoutStore (c : Core) (hv : Bool) (p : PendW) : Core :=
  if hv then c.setHarvest { c.harvest with pend := c.harvest.pend.erase p } else c.setOwner { c.owner with pend := c.owner.pend.erase p }

/-- A store has a machine check. -/
theorem exec_completionTimeout_store {hv : Bool} {p : PendW} (chosen : timedOut s = some (.store hv p)) (far : isExternal p.addr = true) :
    ∃ q, exec (.completionTimeout s.core.id) s =
        .next { setCore (takeFree s).2 (withoutStore s.core hv p) with stops := s.stops ++ [q] } ∧
      q.kern = p.kern ∧ q.lane4 = BitVec.ofNat 32 (0x21 ||| (7 <<< 17 ||| 512)) ∧ q.faddr = lineAddr p.addr := by
  rw [timedOut] at chosen
  have own : getCore (takeFree s).2 s.core.id = s.core := getCore_own (takeFree s).2
  obtain ⟨q, stops, record⟩ := mchkStop_asks (setCore (takeFree s).2 (withoutStore s.core hv p)) p.kern s.core.id hv p.ctxid p.proc
    (7 <<< 17 ||| 512) (lineAddr p.addr)
  rw [setCore_stops] at stops
  refine ⟨q, Eq.trans ?_ (congrArg _ stops), record⟩
  rw [exec_completionTimeout]
  simp only [execCompletionTimeout, chosen, arrayOf_external far, own]
  rfl

/-- A job's beat is FAULTED with kind 7. -/
theorem exec_completionTimeout_beat {j : Job} {a : Nat} (chosen : timedOut s = some (.beat j a)) :
    exec (.completionTimeout s.core.id) s = .next (setJob (takeFree s).2 (clIdx s.core.id) { j with st := .faulted 7 a }) := by
  rw [timedOut] at chosen
  rw [exec_completionTimeout]
  simp only [execCompletionTimeout, chosen]

end

/-! ### Page-table writes (R315, R321) -/

/-- A table lies in a memory-core buffer or in the pool. -/
theorem putEntry_table {s : State} {key : Nat} {e : DWord} (aligned : key % 8 = 0)
    (table : 2 ^ 52 ≤ key ∧ key < 2 ^ 53 ∨ key < 2 ^ 52 ∧ keyKind key = 2) :
    putEntry s key e = { s with mem := memWriteN s.mem key (natBytes e.toNat 8) } := by
  have size : spaceSize = 2 ^ 52 := rfl
  refine if_pos ?_
  simp only [isChip, Bool.and_eq_true, Bool.or_eq_true, decide_eq_true_eq, beq_iff_eq]
  omega

/-- Settles O49, an event at a time: fills and walks by `fillL1_slot`, `pageFilled_only` and `pageFaulted_only`, invalidations by `mem_spared`
and `hostBusy`, the host's answers by what `tellAsker` keeps, timeouts by the kind of the chosen request. -/
theorem pagingEvents : Obligations.PagingEvents := by
  unfold Obligations.PagingEvents
  refine ⟨?_, ?_, ?_, ?_, ?_, ?_, ?_, ?_, ?_, ?_, ?_, ?_, ?_⟩
  · intro s m t first found
    have answered := List.find?_some first
    rw [Bool.and_eq_true, beq_iff_eq] at answered
    obtain ⟨here, -⟩ := answered
    refine ⟨_, exec_l2HitFill_first first found, fillL1_misses, fillL1_mem .., fillL1_tlb here, fun asks waits => ?_⟩
    exact congrArg (fun u : State => u.core.slot) (fillL1_slot (s := { s with misses := s.misses.erase m }) here asks waits)
  · intro s m w first
    have due : WalkDue s w m := first
    have here : m.core = s.core.id := due.here
    constructor
    · intro e leaf t
      refine ⟨_, exec_pageWalk_leaf due leaf, pageFilled_mem, fun n => mem_pageFilled_misses, fun only asks waits covered => ?_⟩
      have core := l2Filled_keeps (t := t) (s := { s with misses := [] }) State.core modCl_core [m]
      rw [pageFilled_only only here asks waits covered]
      refine ⟨?_, fun compute => ?_, ?_⟩
      · exact congrArg (fun c : Core => tlbFill c.tlb 256 t) core
      · rw [show w = m.core from here.symm] at compute ⊢
        exact l2Filled_one (s := { s with misses := [] }) compute
      · exact congrArg (fun c : Core => (slotFilled t { s with core := c }).core.slot) core
    · intro f found bad
      refine ⟨_, exec_pageWalk_fault due found bad, pageFaulted_mem, pageFaulted_tlb, fun n => mem_pageFaulted_misses, fun only asks waits => ?_⟩
      rw [pageFaulted_only only here asks waits]
      rfl
  · intro s part va len proc
    refine ⟨_, exec_tlbInvalidate .., invalidate_mem .., rfl, fun inside => ?_, fun outside => ?_, fun e listed inside x hx => ?_⟩
    · rw [invalidate_core, if_pos inside]
      exact ⟨rfl, rfl, fun e => ⟨mem_spared, mem_spared⟩⟩
    · exact invalidate_core.trans (if_neg (Bool.eq_false_iff.1 outside))
    · obtain ⟨l, left⟩ := invalidate_saved listed inside
      rw [left] at hx
      exact (mem_spared.1 hx).2
  · intro s part va len proc r first
    have run := exec_tlbInvalidateComplete_first first
    exact ⟨fun waits => run.trans (if_pos waits), fun free => run.trans (if_neg (Bool.eq_false_iff.1 free))⟩
  · intro s q oldest
    refine ⟨fun page n rd wr => ?_, exec_translationCompletion_failed oldest⟩
    exact ⟨_, exec_translationCompletion_granted oldest page n rd wr, tellAsker_mem .., tellAsker_ext, congrArg List.head? tellAsker_atc⟩
  · intro s q oldest
    exact ⟨fun c nobody => exec_pageResponse_abandoned oldest nobody c, exec_pageResponse_awaited oldest⟩
  · intro s q asks waits t
    refine ⟨failExt_ext, failExt_mem .., ?_⟩
    exact congrArg (fun u : State => u.core.slot) (failExt_slot asks waits)
  · exact exec_priReenable
  · intro s pasid page n
    refine ⟨_, exec_invalidateRequest .., rfl, rfl, rfl, fun e => ?_⟩
    refine List.mem_filter.trans (and_congr_right fun _ => ?_)
    simp only [Bool.not_eq_true', ← Bool.not_eq_true, Bool.and_eq_true, beq_iff_eq, decide_eq_true_eq, and_assoc]
  · intro s pasid page n r first held cores saved units
    exact (exec_invalidationCompletion_first first).trans (if_neg (Bool.eq_false_iff.1 (hostBusy_idle held cores saved units)))
  · intro s u j hu hj kind due
    exact exec_invalidationCompletion_busy (hostBusy_readBack hu hj kind due)
  · intro s waiting
    obtain ⟨e, out, chosen⟩ := getElem?_mod_mem waiting (takeFree s).1.toNat
    refine ⟨e, out, ?_⟩
    cases e with
    | load l => exact exec_completionTimeout_load chosen (extOut_load out)
    | store hv p =>
      obtain ⟨q, run, record⟩ := exec_completionTimeout_store chosen (extOut_store out)
      exact ⟨_, q, run, rfl, setCore_mem .., record⟩
    | beat j a => exact exec_completionTimeout_beat chosen
  · intro s key e aligned table
    exact congrArg Host.Outcome.next (putEntry_table aligned table)

end Sys2Proof.Machine
end

section
/-! PROOFS. Transfers move, pushes report their end, moulds write their images (O46). -/

namespace Sys2Proof.Machine

/-! ### Beats of a transfer (R332, R333) -/

/-- It is the turn of a transfer (R142). -/
structure XferTurn (s : State) (w : Word) (j : Job) : Prop where
  turn : nextBeat (getCl s (clIdx w)) = some j
  kind : j.kind.isXfer = true

/-- Nothing holds its beat: it owes nothing, a slice that it writes is not in its refresh window, links lead to its target. -/
structure XferMoves (s : State) (w : Word) (j : Job) : Prop extends XferTurn s w j where
  owes : j.msgDue = false
  window : j.kind = .xws → (getCore s j.dest).inRefresh = false
  links : LinksUp s (clIdx w) j

/-- The unit once a beat has brought the package to x: its energy is counted, and the job goes on, owes its message or its
read-back, or is gone (R332, R333, R351). -/
def xferEnded (v : State) (cl : Nat) (j : Job) (x : State) : State :=
  let y := charge (charge x j.core .sram j.ctxid j.proc j.kern) j.core .net j.ctxid j.proc j.kern
  if 64 * j.beat + 64 < j.len then setJob y cl { j with beat := j.beat + 1, xl := Xlat.none }
  else if (j.kind = .xpush ∧ j.hdr ≠ 0) ∨ readsBack v j (64 * j.beat) = true then
    setJob y cl { j with beat := j.beat + 1, xl := Xlat.none, msgDue := true }
  else dropJob y cl j

section
variable {s : State} {w : Word} {j : Job}

theorem XferTurn.mine (h : XferTurn s w j) : ¬ (decide (j.slot ≠ j.slot) || !j.kind.isXfer) = true := by
  rw [h.kind, decide_eq_false (not_not_intro rfl)]
  exact Bool.false_ne_true

/-- The read-back of a job has returned: it is gone. -/
theorem transferBeat_owed (h : XferTurn s w j) (owed : j.msgDue = true) :
    exec (.transferBeat w j.slot false) s = .next (dropJob (turned s (clIdx w) j) (clIdx w) j) := by
  rw [exec_transferBeat]
  simp only [execTransferBeat, h.turn]
  exact (if_neg h.mine).trans (if_pos owed)

/-- A beat that is performed. -/
theorem transferBeat_moves (h : XferMoves s w j) {x : State} (beat : xferBeat (turned s (clIdx w) j) j (64 * j.beat) = .ok x) :
    exec (.transferBeat w j.slot false) s = .next (xferEnded (turned s (clIdx w) j) (clIdx w) j
      (if j.kind == .xld || j.kind == .xst then touchRange j.xl x j.who (j.dst + 64 * j.beat) 64 else x)) := by
  have window : ¬ (j.kind == .xws && (getCore (turned s (clIdx w) j) j.dest).inRefresh) = true := by
    rw [turned, getCore_setCl _ _ _ (by dsimp only; rw [getCl_id]), Bool.and_eq_true, beq_iff_eq]
    exact fun refresh => Bool.eq_false_iff.1 (h.window refresh.1) refresh.2
  have links := h.links.none_waits
  have mine := h.mine
  have owes := Bool.eq_false_iff.1 h.owes
  have stays : (j.kind == .xpush && j.hdr != 0 || readsBack (turned s (clIdx w) j) j (64 * j.beat)) = true ↔
      (j.kind = .xpush ∧ j.hdr ≠ 0) ∨ readsBack (turned s (clIdx w) j) j (64 * j.beat) = true := by simp
  rw [turned] at *
  rw [exec_transferBeat]
  simp only [execTransferBeat, h.turn, beat]
  refine (if_neg mine).trans ((if_neg owes).trans ((if_neg window).trans ((if_neg links).trans ((if_neg Bool.false_ne_true).trans ?_))))
  rw [xferEnded, apply_ite Host.Outcome.next, apply_ite Host.Outcome.next]
  exact if_congr Iff.rfl rfl (if_congr stays rfl rfl)

end

/-! What each kind's beat does. -/

section
variable {v : State} {j : Job} {b : Nat} {p : Place}

theorem xferBeat_xld (kind : j.kind = .xld) (place : resolveX j.xl v j.who .load (j.dst + b) = .ok p) :
    xferBeat v j b = .ok { v with mem := memWriteN v.mem (localKey j.core (j.src + b)) (kRead v j.kern p 64) } := by
  simp only [xferBeat, kind, place]

theorem xferBeat_xst (kind : j.kind = .xst) (place : resolveX j.xl v j.who .store (j.dst + b) = .ok p) :
    xferBeat v j b = .ok (kWrite v j.kern j.core j.hv j.ctxid j.proc p (bufBytes v j b)) := by
  simp only [xferBeat, kind, place]

theorem xferBeat_xws (kind : j.kind = .xws) :
    xferBeat v j b = .ok { v with mem := memWriteN v.mem (sliceKey j.dest (j.dst + b)) (bufBytes v j b) } := by
  simp only [xferBeat, kind]

/-- A push's destination discards a beat that it has accepted (R366). -/
theorem xferBeat_xpush_again (kind : j.kind = .xpush) (again : j.beat < expected v j) : xferBeat v j b = .ok (shrinkEntries v j b) := by
  simp only [xferBeat, kind, if_pos again]

/-- The local memory of a push's destination with a beat of it. -/
def pushed (v : State) (j : Job) (b : Nat) : Memory := memWriteN v.mem (localKey j.dest (j.dst + b)) (bufBytes v j b)

/-- One that it has not accepted lands there, and the word that counts beats, if there is one, goes up by one. -/
theorem xferBeat_xpush_first (kind : j.kind = .xpush) (first : expected v j ≤ j.beat) :
    xferBeat v j b = .ok (shrinkEntries { accepted v j with
      mem := if j.sw = 0xFFFFFFFF then pushed v j b
        else memWriteN (pushed v j b) (localKey j.dest j.sw.toNat) (natBytes ((memNat (pushed v j b) (localKey j.dest j.sw.toNat) 4 + 1) % 2 ^ 32) 4) } j b) := by
  have none : (j.sw.toNat = all32) = (j.sw = 0xFFFFFFFF) := propext ⟨fun h => BitVec.eq_of_toNat_eq h, fun h => h ▸ rfl⟩
  simp only [xferBeat, kind, if_neg (Nat.not_lt.2 first), none, pushed]

/-- An `xst` is read back where its beat went to host memory (R332). -/
theorem readsBack_xst (kind : j.kind = .xst) (place : resolveX j.xl v j.who .store (j.dst + b) = .ok p) :
    readsBack v j b = true ↔ 2 * spaceSize ≤ p.key ∧ p.key < 3 * spaceSize := by
  simp only [readsBack, kind, place, beq_self_eq_true, Bool.true_and, Bool.and_eq_true, decide_eq_true_eq]

end

/-! ### The message of a push (R190, R333) -/

/-- The first lane of a row, and the lanes after it. -/
theorem lane_rowOfLanes_zero (x : Word) (xs : List Word) : lane (rowOfLanes (x :: xs)) 0 = x := by
  refine BitVec.eq_of_getLsbD_eq fun k hk => ?_
  rw [lane, rowOfLanes, BitVec.getLsbD_extractLsb', BitVec.getLsbD_or, BitVec.getLsbD_setWidth, BitVec.getLsbD_shiftLeft,
    Nat.mul_zero, Nat.zero_add, decide_eq_true hk, decide_eq_true (by omega : k < 512)]
  simp

theorem lane_rowOfLanes_succ (x : Word) (xs : List Word) {n : Nat} (inside : n + 1 < 16) : lane (rowOfLanes (x :: xs)) (n + 1) = lane (rowOfLanes xs) n := by
  refine BitVec.eq_of_getLsbD_eq fun k hk => ?_
  have past : x.getLsbD (32 * (n + 1) + k) = false := BitVec.getLsbD_of_ge _ _ (by omega)
  have back : 32 * (n + 1) + k - 32 = 32 * n + k := by omega
  rw [lane, lane, rowOfLanes, BitVec.getLsbD_extractLsb', BitVec.getLsbD_extractLsb', BitVec.getLsbD_or, BitVec.getLsbD_setWidth,
    BitVec.getLsbD_shiftLeft, past, back, decide_eq_true (by omega : 32 * (n + 1) + k < 512), decide_eq_false (by omega : ¬ 32 * (n + 1) + k < 32)]
  simp

/-- The push of a slot that owes its message. -/
def PushDue (s : State) (w : Word) (j : Job) : Prop :=
  (getCl s (clIdx w)).jobs.find? (fun i => i.slot == j.slot && i.kind == .xpush && i.msgDue) = some j

/-- The message that a push owes. -/
def pushMsg (w : Word) (j : Job) : Msg :=
  { hdr := j.hdr, rows := if hdrRows j.hdr = 0 then [] else [rowOfLanes [BitVec.ofNat 32 j.dst, BitVec.ofNat 32 j.len]], dest := [j.dest], srcw := w,
    kind := 5, addr := 0, i0 := 0, i1 := 0, i2 := 0, stab := 0, dent := 0, hvSrc := j.hv, kern := j.kern, ctxid := j.ctxid, stamp := 0, img := none }

theorem exec_pushCompletionMessage_due {s : State} {w : Word} {j : Job} (due : PushDue s w j) :
    exec (.pushCompletionMessage w j.slot) s = if agentBusy s w j.hv (narrowest w [j.dest]) then .next s
      else .next { dropJob s (clIdx w) j with net := s.net ++ [pushMsg w j] } := by
  rw [PushDue] at due
  rw [exec_pushCompletionMessage]
  simp only [execPushCompletionMessage, due]
  rfl

/-! ### Image writes (R141, R180, R248, R365) -/

/-- Nothing holds back the oldest image of a mould: no range lock, no held access of its core, no link. -/
structure ImageFree (s : State) (cl : Nat) (i : Img) (r : List Img) : Prop where
  oldest : (getCl s cl).imgs = i :: r
  unlocked : rltLock s .store i.key = none
  noHeld : ∀ h ∈ s.held, h.core ≠ i.core
  links : linksWait s (linksOf s i.key) = false
  reached : reaches s ⟨i.core, i.hv, i.proc⟩ i.key = true

/-- The state once the mould has taken it, and its energy is counted (R351). -/
def imageTaken (s : State) (cl : Nat) (i : Img) (r : List Img) : State :=
  let t := charge (setCl s { getCl s cl with imgs := r }) i.core .sram i.ctxid i.proc i.kern
  if awayFrom s i.core i.key then charge t i.core .net i.ctxid i.proc i.kern else t

section
variable {s : State} {cl : Nat} {i : Img} {r : List Img}

theorem exec_imageWrite_free (h : ImageFree s cl i r) : exec (.imageWrite cl) s =
    .next (kWrite (imageTaken s cl i r) i.kern i.core i.hv i.ctxid i.proc ⟨i.key, i.enc⟩ i.bytes) := by
  obtain ⟨oldest, unlocked, noHeld, links, reached⟩ := h
  have free : ((rltLock s .store i.key).isNone && !linksWait s (linksOf s i.key) &&
      !s.held.any (fun h => h.core == i.core && decide (h.at_ < i.at_) && spotsMeet h.spots [⟨i.key, i.enc, i.bytes.length⟩])) = true := by
    have none : s.held.any (fun h => h.core == i.core && decide (h.at_ < i.at_) && spotsMeet h.spots [⟨i.key, i.enc, i.bytes.length⟩]) = false :=
      List.any_eq_false.2 fun h hh => by rw [beq_false_of_ne (noHeld h hh), Bool.false_and, Bool.false_and]; exact Bool.false_ne_true
    rw [unlocked, links, none]
    rfl
  rw [exec_imageWrite]
  simp only [execImageWrite, oldest, List.find?_cons, free, List.erase_cons_head, reached, if_true]
  rfl

/-- It changes the images of its cluster, activity, and nothing of memory or queues. -/
theorem imageTaken_keeps : (imageTaken s cl i r).mem = s.mem ∧ (getCl (imageTaken s cl i r) cl).imgs = r ∧ (imageTaken s cl i r).queues = s.queues := by
  have imgs : (getCl (setCl s { getCl s cl with imgs := r }) cl).imgs = r := by
    rw [getCl_setCl_at, if_pos (getCl_id s cl)]
  unfold imageTaken charge chargeN
  dsimp only
  split
  · simp only [modCore_mem, modCore_queues, getCl_modCore]
    exact ⟨rfl, imgs, rfl⟩
  · simp only [modCore_mem, modCore_queues, getCl_modCore]
    exact ⟨rfl, imgs, rfl⟩

/-- An unencrypted write on the chip goes to memory (R329). -/
theorem kWrite_chip {v : State} {k : KRef} {w : Word} {hv : Bool} {ctxid proc key : Nat} {bs : List Byte} (chip : key < 2 ^ 52) :
    kWrite v k w hv ctxid proc ⟨key, none⟩ bs = { v with mem := memWriteN v.mem key bs } := by
  have inside : ¬ isExternal key = true := by
    have size : spaceSize = 2 ^ 52 := rfl
    simp only [isExternal, Bool.and_eq_true, decide_eq_true_eq]
    omega
  exact if_neg inside

end

/-- Settles O46: a beat by `transferBeat_moves` and the lemma about its kind, a push's message, an image of a mould. -/
theorem transferEvents : Obligations.TransferEvents := by
  unfold Obligations.TransferEvents
  refine ⟨?_, ?_, ?_⟩
  · intro s w j u v b bytes turn kind
    have h : XferTurn s w j := ⟨turn, kind⟩
    refine ⟨transferBeat_owed h, fun owes links => ?_⟩
    intro next used
    have free (other : j.kind ≠ .xws) : XferMoves s w j := ⟨h, owes, fun kind => absurd kind other, links⟩
    refine ⟨fun p kind place => ?_, fun p kind place => ⟨readsBack_xst kind place, ?_⟩, fun kind refresh => ?_, fun kind again => ?_,
      fun kind first noWord => ?_, fun kind first word => ?_⟩
    · exact (transferBeat_moves (free (kind ▸ nofun)) (xferBeat_xld kind place)).trans (by rw [kind]; rfl)
    · exact (transferBeat_moves (free (kind ▸ nofun)) (xferBeat_xst kind place)).trans (by rw [kind]; rfl)
    · exact (transferBeat_moves ⟨h, owes, fun _ => refresh, links⟩ (xferBeat_xws kind)).trans (by rw [kind]; rfl)
    · exact (transferBeat_moves (free (kind ▸ nofun)) (xferBeat_xpush_again kind again)).trans (by rw [kind]; rfl)
    · exact (transferBeat_moves (free (kind ▸ nofun)) (xferBeat_xpush_first kind first)).trans (by rw [kind, if_pos noWord]; rfl)
    · exact (transferBeat_moves (free (kind ▸ nofun)) (xferBeat_xpush_first kind first)).trans (by rw [kind, if_neg word]; rfl)
  · intro s w j due
    have run := exec_pushCompletionMessage_due due
    refine ⟨fun busy => run.trans (if_pos busy), fun idle => ?_⟩
    refine ⟨pushMsg w j, run.trans (if_neg (Bool.eq_false_iff.1 idle)), rfl, rfl, rfl, rfl, rfl, fun none => if_pos none, fun some => ?_⟩
    exact ⟨_, if_neg some, lane_rowOfLanes_zero .., (lane_rowOfLanes_succ _ _ (by omega)).trans (lane_rowOfLanes_zero ..)⟩
  · intro s cl i r oldest unlocked noHeld links plain reached chip
    obtain ⟨mem, imgs, queues⟩ := imageTaken_keeps (s := s) (cl := cl) (i := i) (r := r)
    have run := exec_imageWrite_free ⟨oldest, unlocked, noHeld, links, reached⟩
    rw [plain, kWrite_chip chip] at run
    exact ⟨_, run, congrArg (memWriteN · i.key i.bytes) mem, imgs, queues⟩

end Sys2Proof.Machine
end

section
/-! PROOFS. Delivery of a message to a core (O42). -/

namespace Sys2Proof.Machine

/-! ### EN and PEND of a tag entry (R201, R211) -/

theorem getLsbD_one_shiftLeft {k b : Nat} (hk : k < 128) : ((1 : BitVec 128) <<< k).getLsbD b = decide (b = k) := by
  rw [show (1 : BitVec 128) <<< k = BitVec.twoPow 128 k from (BitVec.twoPow_eq ..).symm, BitVec.getLsbD_twoPow, decide_eq_true hk, Bool.true_and]
  exact decide_eq_decide.2 eq_comm

/-- The two bits that are set anew. -/
theorem getLsbD_enPend (b : Nat) : ((3 : BitVec 128) <<< 60).getLsbD b = (decide (b = 60) || decide (b = 61)) := by
  have split : (3 : BitVec 128) <<< 60 = (1 : BitVec 128) <<< 60 ||| (1 : BitVec 128) <<< 61 := by decide
  rw [split, BitVec.getLsbD_or, getLsbD_one_shiftLeft (by decide), getLsbD_one_shiftLeft (by decide)]

theorem getLsbD_ite_zero (c : Bool) (x : BitVec 128) (b : Nat) : (if c then x else 0).getLsbD b = (c && x.getLsbD b) := by
  cases c
  · exact BitVec.getLsbD_zero
  · rfl

theorem getLsbD_tagSetEN (e : BitVec 128) (en pend : Bool) {b : Nat} (hb : b < 128) :
    (tagSetEN e en pend).getLsbD b = if b = 60 then en else if b = 61 then pend else e.getLsbD b := by
  rw [tagSetEN, BitVec.getLsbD_or, BitVec.getLsbD_or, BitVec.getLsbD_and, BitVec.getLsbD_not, getLsbD_enPend, getLsbD_ite_zero, getLsbD_ite_zero,
    getLsbD_one_shiftLeft (by decide), getLsbD_one_shiftLeft (by decide), decide_eq_true hb]
  by_cases h60 : b = 60
  · subst h60; cases en <;> cases pend <;> simp
  · by_cases h61 : b = 61
    · subst h61; cases en <;> cases pend <;> simp
    · simp [h60, h61, -BitVec.getLsbD_eq_getElem]

theorem tagClass_tagSetEN (e : BitVec 128) (en pend : Bool) : tagClass (tagSetEN e en pend) = tagClass e := by
  refine congrArg BitVec.toNat (BitVec.eq_of_getLsbD_eq fun i hi => ?_)
  rw [BitVec.getLsbD_extractLsb', BitVec.getLsbD_extractLsb', getLsbD_tagSetEN _ _ _ (by omega), if_neg (by omega), if_neg (by omega)]

/-! ### The tag of a message that arrives (R202) -/

section Arrival
variable (t : Nat) (c : Core)

theorem arrived_core : arrived t c = { c with tags := (arrived t c).tags } := by
  unfold arrived
  split <;> rfl

theorem arrived_enabled (h : tagEN (tagOf c t) = true) : arrived t c = c := if_pos h

theorem arrived_disabled (h : tagEN (tagOf c t) = false) : arrived t c = { c with tags := put c.tags t (tagSetEN (tagOf c t) false true) } :=
  if_neg (Bool.eq_false_iff.1 h)

theorem tagOf_arrived_disabled (h : tagEN (tagOf c t) = false) : tagOf (arrived t c) t = tagSetEN (tagOf c t) false true := by
  rw [arrived_disabled t c h]
  exact look_put_self ..

theorem tagEN_arrived : tagEN (tagOf (arrived t c) t) = tagEN (tagOf c t) := by
  cases h : tagEN (tagOf c t) with
  | true => rw [arrived_enabled t c h, h]
  | false => rw [tagOf_arrived_disabled t c h]; exact getLsbD_tagSetEN _ _ _ (by decide)

theorem tagPend_arrived (h : tagEN (tagOf c t) = false) : tagPend (tagOf (arrived t c) t) = true := by
  rw [tagOf_arrived_disabled t c h]
  exact getLsbD_tagSetEN _ _ _ (by decide)

theorem tagClass_arrived : tagClass (tagOf (arrived t c) t) = tagClass (tagOf c t) := by
  cases h : tagEN (tagOf c t) with
  | true => rw [arrived_enabled t c h]
  | false => rw [tagOf_arrived_disabled t c h, tagClass_tagSetEN]

end Arrival

/-! ### The slot that a message takes (R203, R205, R210) -/

/-- A message in slot i of a core: ready where its tag is enabled, else waiting (R202, R205). -/
def standing (c : Core) (i : Nat) (keep : Option Nat) (m : Msg) : NiSlot :=
  { idx := i, msg := m, cls := max (hdrClass m.hdr) (tagClass (tagOf c (hdrTag m.hdr))),
    st := if tagEN (tagOf c (hdrTag m.hdr)) then .ready else .waiting, keep := keep }

theorem niPlace_arrived (c : Core) (i : Nat) (keep : Option Nat) (m : Msg) : niPlace (arrived (hdrTag m.hdr) c) i keep m =
    { c with ni := c.ni.filter (fun n => n.idx != i) ++ [standing c i keep m], tags := (arrived (hdrTag m.hdr) c).tags } := by
  have entry : niPlace (arrived (hdrTag m.hdr) c) i keep m = { arrived (hdrTag m.hdr) c with
      ni := (arrived (hdrTag m.hdr) c).ni.filter (fun n => n.idx != i) ++ [standing (arrived (hdrTag m.hdr) c) i keep m] } := rfl
  rw [entry, standing, tagEN_arrived, tagClass_arrived, arrived_core]
  rfl

/-- The lowest slot that holds nothing. -/
theorem niFree_lowest {c : Core} {i : Nat} (hi : i < 16) (below : ∀ j, j < i → ∃ n ∈ c.ni, n.idx = j) (free : ∀ n ∈ c.ni, n.idx ≠ i) :
    niFree c = some i := by
  refine List.find?_range_eq_some.2 ⟨?_, List.mem_range.2 hi, fun j hj => ?_⟩
  · simpa using free
  · simpa using below j hj

theorem niFree_full {c : Core} (full : ∀ i, i < 16 → ∃ n ∈ c.ni, n.idx = i) : niFree c = none := by
  refine List.find?_eq_none.2 fun i hi => ?_
  simpa using full i (List.mem_range.1 hi)

theorem niKept_arrived (t u : Nat) (c : Core) : niKept (arrived t c) u = niKept c u := by
  rw [arrived_core]
  rfl

theorem niFree_arrived (t : Nat) (c : Core) : niFree (arrived t c) = niFree c := by
  rw [arrived_core]
  rfl

theorem niKept_none {c : Core} {t : Nat} (h : ∀ n ∈ c.ni, n.st = .kept → n.keep ≠ some t) : niKept c t = none := by
  refine List.find?_eq_none.2 fun n hn => ?_
  simpa using h n hn

/-! ### Delivery (R202, R203, R204) -/

section Delivers
variable {s : State} {m : Msg} {w : Word}

/-- The work of a message counts, and its tag at the core is valid. -/
structure Arriving (s : State) (m : Msg) (w : Word) : Prop where
  live : kernLive s m.kern = true
  valid : tagV (tagOf (getCore s w) (hdrTag m.hdr)) = true

/-- The message with the time of its arrival, and the core once its tag has recorded it. -/
def stamped (s : State) (m : Msg) : Msg := { m with stamp := s.timer }
def recorded (s : State) (m : Msg) (w : Word) : Core := arrived (hdrTag m.hdr) (getCore s w)

theorem deliverOne_discards (dead : kernLive s m.kern = false) : deliverOne s m w = some s := by
  simp only [deliverOne, dead, Bool.not_false, if_true]

theorem deliverOne_stops (live : kernLive s m.kern = true) (invalid : tagV (tagOf (getCore s w) (hdrTag m.hdr)) = false) : deliverOne s m w =
    some (kilnStop s m.kern m.srcw m.hvSrc m.ctxid (tagProc (tagOf (getCore s w) (hdrTag m.hdr))) cADDR 0 0) := by
  simp only [deliverOne, live, invalid, Bool.not_true, Bool.not_false, Bool.false_eq_true, if_false, if_true]

/-- A slot kept for the tag comes first (R210). -/
theorem deliverOne_kept (h : Arriving s m w) {k : NiSlot} (kept : niKept (getCore s w) (hdrTag m.hdr) = some k) :
    deliverOne s m w = some (setCore s { getCore s w with
      ni := (getCore s w).ni.filter (fun q => q.idx != k.idx) ++ [standing (getCore s w) k.idx k.keep (stamped s m)], tags := (recorded s m w).tags }) := by
  simp only [deliverOne, h.live, h.valid, niKept_arrived, kept, Bool.not_true, Bool.false_eq_true, if_false]
  exact congrArg (fun c => some (setCore s c)) (niPlace_arrived (getCore s w) k.idx k.keep (stamped s m))

/-- Else the lowest free one (R203). -/
theorem deliverOne_free (h : Arriving s m w) (unkept : niKept (getCore s w) (hdrTag m.hdr) = none) {i : Nat} (hi : niFree (getCore s w) = some i)
    (free : ∀ n ∈ (getCore s w).ni, n.idx ≠ i) : deliverOne s m w = some (setCore s { getCore s w with
      ni := (getCore s w).ni ++ [standing (getCore s w) i none (stamped s m)], tags := (recorded s m w).tags }) := by
  have all : (getCore s w).ni.filter (fun q => q.idx != i) = (getCore s w).ni := List.filter_eq_self.2 fun n hn => bne_iff_ne.2 (free n hn)
  simp only [deliverOne, h.live, h.valid, niKept_arrived, niFree_arrived, unkept, hi, Bool.not_true, Bool.false_eq_true, if_false]
  refine (congrArg (fun c => some (setCore s c)) (niPlace_arrived (getCore s w) i none (stamped s m))).trans ?_
  rw [all]
  rfl

/-- A full core leaves the overflow area of its cluster, or refuses (R203, R204). -/
theorem deliverOne_full (h : Arriving s m w) (unkept : niKept (getCore s w) (hdrTag m.hdr) = none) (full : niFree (getCore s w) = none) :
    deliverOne s m w = if (getCl s (clIdx w)).spill.length < spillRoom s (getCl s (clIdx w)).id then
      some (setCl (setCore s { getCore s w with tags := (recorded s m w).tags })
        { getCl s (clIdx w) with spill := (getCl s (clIdx w)).spill ++ [(w, stamped s m)] }) else none := by
  have core : recorded s m w = { getCore s w with tags := (recorded s m w).tags } := arrived_core ..
  rw [← core]
  simp only [deliverOne, h.live, h.valid, niKept_arrived, niFree_arrived, unkept, full, Bool.not_true, Bool.false_eq_true, if_false]
  rfl

end Delivers

/-- Settles O42: what the tag and the slots of the core say picks the lemma about `deliverOne`; the tag table is the one that has
recorded the arrival. -/
theorem deliveryRules : Obligations.DeliveryRules := by
  unfold Obligations.DeliveryRules
  intro s m w c e
  refine ⟨deliverOne_discards, fun live invalid => ?_, fun live valid => ?_⟩
  · exact ⟨_, deliverOne_stops live invalid, rfl, rfl⟩
  · have arriving : Arriving s m w := ⟨live, valid⟩
    refine ⟨(recorded s m w).tags, fun on => ?_, fun off => ?_, ?_⟩
    · exact congrArg Core.tags (arrived_enabled _ _ on)
    · have entry := tagOf_arrived_disabled _ _ off
      refine ⟨?_, tagPend_arrived _ _ off⟩
      refine (congrArg Core.tags (arrived_disabled _ _ off)).trans ?_
      exact congrArg (put c.tags (hdrTag m.hdr)) entry.symm
    · intro placed
      have stands (i : Nat) (keep : Option Nat) : placed (standing c i keep (stamped s m)) i := ⟨rfl, rfl, rfl, rfl⟩
      refine ⟨fun k kept => ⟨_, stands k.idx k.keep, rfl, deliverOne_kept arriving kept⟩, fun others => ?_⟩
      have unkept : niKept c (hdrTag m.hdr) = none := niKept_none others
      refine ⟨fun i hi below free => ⟨_, stands i none, rfl, deliverOne_free arriving unkept (niFree_lowest hi below free) free⟩, fun full => ?_⟩
      have taken := deliverOne_full arriving unkept (niFree_full full)
      exact ⟨fun room => taken.trans (if_pos room), fun spilt => taken.trans (if_neg (Nat.not_lt.2 spilt))⟩

end Sys2Proof.Machine
end

section
/-! PROOFS. `send`, `sendgrp` and `senda` (O31). -/

namespace Sys2Proof.Machine

/-! ### Work that no link carries (R365) -/

section
variable {s : State} {ls : List (List Nat)} {k : KRef} {w : Word} {hv : Bool} {ctxid proc : Nat}

theorem linkStop_reached (up : ls.any (linksCut s) = false) : linkStop s ls k w hv ctxid proc = s := by
  rw [linkStop, up]
  rfl

theorem linkStop_cut (cut : ls.any (linksCut s) = true) (first : ∀ q ∈ s.stops, q.kern ≠ k) :
    ∃ q, linkStop s ls k w hv ctxid proc = { s with stops := s.stops ++ [q] } ∧ q.kern = k ∧ q.core = w ∧ q.status = 2 := by
  have fresh : s.stops.any (fun r => r.kern == k) = false := List.any_eq_false.2 fun q hq => by simp [first q hq]
  rw [linkStop, cut, fresh]
  exact ⟨_, rfl, rfl, rfl, rfl⟩

end

/-! ### The checks of the descriptor row (R219) -/

/-- The course of a send on its descriptor row r: what its effect f on the row is, check by check. -/
structure SendCourse (a b : Opnd) (s : State) (i : Instr) (ds : List Word) (kind addr : Nat) (good : Bool) (reason k : Nat)
    (f : List Row → State → CRes) (r : Row) : Prop where
  word : exec i s = control i { srcs := [a] } f s
  header : hdrBad (lane r 0) = true → f [r] s = laneTrap s 1 r 0
  target : hdrBad (lane r 0) = false → good = false → (reason = 2 ∨ payloadOk s.core.slot b (hdrRows (lane r 0)) = true) →
    f [r] s = laneTrap s reason r k
  payload : hdrBad (lane r 0) = false → (good = true ∨ reason ≠ 2) → payloadOk s.core.slot b (hdrRows (lane r 0)) = false →
    f [r] s = msgTrap s 3 (codeOf b) (hdrRows (lane r 0))
  sends : hdrBad (lane r 0) = false → good = true → payloadOk s.core.slot b (hdrRows (lane r 0)) = true →
    f [r] s = sendMsg (lane r 0) b (seenBy a b) ds kind addr s

theorem nth_singleton (r : Row) : nth [r] 0 = r := rfl

theorem send_course (a b : Opnd) (s : State) (r : Row) : ∃ f, SendCourse a b s (.send a b) [lane r 1] 2 0 (destOk s (lane r 1)) 2 1 f r := by
  refine ⟨_, exec_send a b s, fun bad => ?_, fun ok bad _ => ?_, fun ok good bad => ?_, fun ok good pay => ?_⟩
  · simp only [nth_singleton, bad, if_true]
  · simp only [nth_singleton, ok, bad, Bool.not_false, Bool.false_eq_true, if_false, if_true]
  · have good : destOk s (lane r 1) = true := good.resolve_right fun no => no rfl
    simp only [nth_singleton, ok, good, bad, Bool.not_false, Bool.not_true, Bool.false_eq_true, if_false, if_true]
  · simp only [nth_singleton, ok, good, pay, Bool.not_true, Bool.false_eq_true, if_false]

theorem sendGrp_course (a b : Opnd) (s : State) (r : Row) : ∃ f, SendCourse a b s (.sendGrp a b) (groupOf s ((lane r 1).toNat % 256)) 6 0
    (decide ((lane r 1).toNat < 256) && !(groupOf s ((lane r 1).toNat % 256)).isEmpty) 4 1 f r := by
  have refuses : (decide (256 ≤ (lane r 1).toNat) || (groupOf s ((lane r 1).toNat % 256)).isEmpty) =
      !(decide ((lane r 1).toNat < 256) && !(groupOf s ((lane r 1).toNat % 256)).isEmpty) := by
    rw [Bool.not_and, Bool.not_not, ← decide_not, decide_eq_decide.2 Nat.not_lt]
  refine ⟨_, exec_sendGrp a b s, fun bad => ?_, fun ok bad pay => ?_, fun ok _ bad => ?_, fun ok good pay => ?_⟩
  · simp only [nth_singleton, bad, if_true]
  · have pay := pay.resolve_left (by decide)
    simp only [nth_singleton, ok, pay, Bool.not_true, Bool.false_eq_true, if_false]
    exact if_pos (refuses.trans (congrArg (!·) bad))
  · simp only [nth_singleton, ok, bad, Bool.not_false, Bool.false_eq_true, if_false, if_true]
  · simp only [nth_singleton, ok, pay, Bool.not_true, Bool.false_eq_true, if_false]
    exact if_neg (Bool.eq_false_iff.1 (refuses.trans (congrArg (!·) good)))

theorem senda_course (a b : Opnd) (s : State) (r : Row) {addr : Nat} (ha : addr = (lane r 1).toNat + 2 ^ 32 * (lane r 2).toNat) :
    ∃ f, SendCourse a b s (.senda a b) [ownerCore (hashCores s) addr] 3 addr (decide (addr < 2 ^ 52)) 8 2 f r := by
  subst ha
  refine ⟨_, exec_senda a b s, fun bad => ?_, fun ok bad pay => ?_, fun ok _ bad => ?_, fun ok good pay => ?_⟩
  · simp only [nth_singleton, bad, if_true]
  · have pay := pay.resolve_left (by decide)
    have far := Nat.not_lt.1 (of_decide_eq_false bad)
    simp only [nth_singleton, ok, pay, far, Bool.not_true, Bool.false_eq_true, if_false, if_true]
  · simp only [nth_singleton, ok, bad, Bool.not_false, Bool.false_eq_true, if_false, if_true]
  · have near := Nat.not_le.2 (of_decide_eq_true good)
    simp only [nth_singleton, ok, pay, near, Bool.not_true, Bool.false_eq_true, if_false]

/-- Each of the three sends has its course. -/
theorem sendForms_course {a b : Opnd} {s : State} {r : Row} {i : Instr} {ds : List Word} {kind addr : Nat} {good : Bool} {reason k : Nat}
    (form : (i, ds, kind, addr, good, reason, k) ∈ sendForms a b s r) : ∃ f, SendCourse a b s i ds kind addr good reason k f r := by
  simp only [sendForms, List.mem_cons, List.not_mem_nil, or_false, Prod.mk.injEq] at form
  obtain ⟨rfl, rfl, rfl, rfl, rfl, rfl, rfl⟩ | ⟨rfl, rfl, rfl, rfl, rfl, rfl, rfl⟩ | ⟨rfl, rfl, rfl, rfl, rfl, rfl, rfl⟩ := form
  · exact send_course a b s r
  · exact sendGrp_course a b s r
  · exact senda_course a b s r rfl

/-! ### A send whose operands are good (R151, R204) -/

section
variable {s : State} {b : Opnd} {hdr : Word} {seen : Nat} {ds : List Word} {kind addr : Nat}

/-- It waits for its payload first. -/
theorem sendMsg_payload (fresh : s.core.slot.sendWait = none) (waits : payloadWait s.core b (hdrRows hdr) seen ≠ 0) :
    sendMsg hdr b seen ds kind addr s = .wait (payloadWait s.core b (hdrRows hdr) seen) s := by
  simp only [sendMsg, fresh]

/-- Nothing of a send has begun, its payload is there, and m is its message. -/
structure SendStarts (s : State) (hdr : Word) (b : Opnd) (seen : Nat) (ds : List Word) (kind addr : Nat) (m : Msg) : Prop where
  fresh : s.core.slot.sendWait = none
  payload : payloadWait s.core b (hdrRows hdr) seen = 0
  msg : newMsg s hdr (Machine.payload s.core b (hdrRows hdr) seen) ds kind addr = m

section
variable {m : Msg} (h : SendStarts s hdr b seen ds kind addr m)
include h

theorem sendMsg_release (waits : releaseWaits s (narrowest s.core.id ds) = true) : sendMsg hdr b seen ds kind addr s = .wait outside s := by
  simp only [sendMsg, h.fresh, h.payload, waits, if_true]

/-- Every core of this package that is asked accepts. -/
theorem sendMsg_accepted (free : releaseWaits s (narrowest s.core.id ds) = false) (here : m.far s = false) {u : State}
    (yes : deliverAll m (m.near s) s = .ok u) :
    sendMsg hdr b seen ds kind addr s = .out (u.modC (fun c => popAll c (List.replicate (hdrRows hdr) b))) 0 := by
  simp only [sendMsg, h.fresh, h.payload, h.msg, free, here, yes, Bool.false_eq_true, if_false]

theorem sendMsg_refused (free : releaseWaits s (narrowest s.core.id ds) = false) (here : m.far s = false) {w : Word}
    (no : deliverAll m (m.near s) s = .error w) : sendMsg hdr b seen ds kind addr s = ovfTrap s w (kind == 6) := by
  simp only [sendMsg, h.fresh, h.payload, h.msg, free, here, no, Bool.false_eq_true, if_false]

theorem sendMsg_far (free : releaseWaits s (narrowest s.core.id ds) = false) (away : m.far s = true) :
    sendMsg hdr b seen ds kind addr s = .wait outside (goFar m (s.modS (fun x => { x with sendWait := some ⟨m, none⟩ }))) := by
  simp only [sendMsg, h.fresh, h.payload, h.msg, free, away, Bool.false_eq_true, if_false, if_true]

end

/-- The state in which a send waits for the answer of another package. -/
def sendAsked (s : State) (m : Msg) : State := { s.modS (fun x => { x with sendWait := some ⟨m, none⟩ }) with outbound := s.outbound ++ [m] }

theorem goFar_asked_reached {m : Msg} (up : (m.farLinks s).any (linksCut s) = false) :
    goFar m (s.modS (fun x => { x with sendWait := some ⟨m, none⟩ })) = sendAsked s m := goFar_reached (s := s.modS _) up

theorem goFar_asked_cut {m : Msg} (cut : (m.farLinks s).any (linksCut s) = true) (first : ∀ q ∈ s.stops, q.kern ≠ m.kern) :
    ∃ q, goFar m (s.modS (fun x => { x with sendWait := some ⟨m, none⟩ })) = { sendAsked s m with stops := s.stops ++ [q] } ∧
      q.kern = m.kern ∧ q.core = m.srcw ∧ q.status = 2 :=
  linkStop_cut (s := sendAsked s m) cut first

/-- It goes on waiting for that answer. -/
theorem sendMsg_unanswered {m : Msg} (asked : s.core.slot.sendWait = some ⟨m, none⟩) : sendMsg hdr b seen ds kind addr s = .wait outside s := by
  simp only [sendMsg, asked]

/-- Nothing of the send stands begun any more. -/
def sendOver (s : State) : State := s.modS (fun x => { x with sendWait := none })

/-- The other package refuses, and the cores of this one do not. -/
theorem sendMsg_refusedFar {m : Msg} {w : Word} {v : State} (answer : s.core.slot.sendWait = some ⟨m, some (.refused w)⟩)
    (yes : deliverAll m (m.near s) s = .ok v) : sendMsg hdr b seen ds kind addr s = ovfTrap (sendOver s) w (kind == 6) := by
  simp only [sendMsg, answer, yes]
  rfl

/-- One of this package refuses as well: the lower of the two is named (R204; log 64). -/
theorem sendMsg_refusedBoth {m : Msg} {w q : Word} (answer : s.core.slot.sendWait = some ⟨m, some (.refused w)⟩)
    (no : deliverAll m (m.near s) s = .error q) :
    sendMsg hdr b seen ds kind addr s = ovfTrap (sendOver s) (if q.toNat ≤ w.toNat then q else w) (kind == 6) := by
  simp only [sendMsg, answer, no]
  rfl

/-- The other package accepts, and then the cores of this one are asked (log 64). -/
theorem sendMsg_acceptedFar {m : Msg} {v : State} (answer : s.core.slot.sendWait = some ⟨m, some .accepted⟩)
    (yes : deliverAll m (m.near s) s = .ok v) : sendMsg hdr b seen ds kind addr s =
      .out (sendOver (({ v with remote := v.remote ++ [m] } : State).modC (fun c => popAll c (List.replicate (hdrRows hdr) b)))) 0 := by
  simp only [sendMsg, answer, yes]
  rfl

theorem sendMsg_refusedNear {m : Msg} {w : Word} (answer : s.core.slot.sendWait = some ⟨m, some .accepted⟩)
    (no : deliverAll m (m.near s) s = .error w) : sendMsg hdr b seen ds kind addr s = ovfTrap (sendOver s) w (kind == 6) := by
  simp only [sendMsg, answer, no]
  rfl

end

/-- OVF as the instruction raises it (R204, R271). -/
theorem control_ovf {i : Instr} {p : CSpec} {f : List Row → State → CRes} {s u : State} {w : Word} {kind : Nat} (ready : ReadyC p s)
    (effect : f (readAll (readC s.core) p.srcs []) s = ovfTrap u w (kind == 6)) :
    control i p f s = .next (trapped i u (mkTrap 0x09 (if kind = 6 then 512 else 0) w.toNat)) := by
  have group : (if (kind == 6) = true then 2 ^ 9 else 0 : Nat) = if kind = 6 then 512 else 0 := by simp only [beq_iff_eq]; rfl
  exact control_trap ready (effect.trans (by rw [ovfTrap, group]; rfl))

/-- ADDR as it names a lane of the descriptor row (R219). -/
theorem control_laneTrap {i : Instr} {p : CSpec} {f : List Row → State → CRes} {s : State} {r : Row} {reason k : Nat} (ready : ReadyC p s)
    (effect : f (readAll (readC s.core) p.srcs []) s = laneTrap s reason r k) :
    control i p f s = .next (trapped i s (mkTrap 0x03 (reason <<< 14 ||| infoDESC) ((lane r k).toNat + 2 ^ 32 * k))) :=
  control_trap ready effect

/-- Settles O31: `sendForms_course` gives the effect of each send check by check, and the lemmas about `sendMsg` say how one with
good operands goes on. -/
theorem sendResults : Obligations.SendResults := by
  unfold Obligations.SendResults
  intro a b s i ds kind addr good reason k p r h n seen bad m near took ovf form ready
  obtain ⟨f, word, header, target, pay, sends⟩ := sendForms_course form
  rw [word]
  refine ⟨fun badHdr => control_laneTrap ready (header badHdr), fun ok no room => control_laneTrap ready (target ok no room),
    fun ok yes no => control_trap ready (pay ok yes no), fun ok yes room => ?_⟩
  have effect := sends ok yes room
  refine ⟨fun fresh there => ?_, fun fresh waits => ?_, fun u asked => ?_, fun u w answer => ⟨fun v yes => ?_, fun q no => ?_⟩,
    fun u answer => ⟨fun v yes => ?_, fun w no => ?_⟩⟩
  · have starts : SendStarts s h b seen ds kind addr m := ⟨fresh, there, rfl⟩
    refine ⟨fun waits => control_wait ready (effect.trans (sendMsg_release starts waits)), fun free => ⟨fun own => ?_, fun away => ?_⟩⟩
    · have here : m.far s = false := Msg.far_eq_false own
      refine ⟨fun u yes => ?_, fun w no => ?_⟩
      · exact control_sent ready (effect.trans (sendMsg_accepted starts free here yes))
      · exact control_ovf ready (effect.trans (sendMsg_refused starts free here no))
    · have far := effect.trans (sendMsg_far starts free (Msg.far_eq_true (m := m) away))
      intro v
      refine ⟨fun up => ?_, fun cut first => ?_⟩
      · rw [goFar_asked_reached (Msg.farLinks_none (m := m) up)] at far
        exact control_wait ready far
      · obtain ⟨q, stops, kern, core, status⟩ := goFar_asked_cut (Msg.farLinks_some (m := m) cut) first
        exact ⟨q, control_wait ready (far.trans (congrArg _ stops)), kern, core, status⟩
  · exact control_wait ready (effect.trans (sendMsg_payload fresh waits))
  · exact control_wait ready (effect.trans (sendMsg_unanswered asked))
  · exact control_ovf ready (effect.trans (sendMsg_refusedFar answer yes))
  · exact control_ovf ready (effect.trans (sendMsg_refusedBoth answer no))
  · exact control_sent ready (effect.trans (sendMsg_acceptedFar answer yes))
  · exact control_ovf ready (effect.trans (sendMsg_refusedNear answer no))

end Sys2Proof.Machine
end

section
/-! PROOFS. `dcarm`, `dcdec` and `gbar` (O33). -/

namespace Sys2Proof.Machine

/-! ### `dcarm` (R217, R219) -/

section
variable {s : State} {a b : Opnd} {r : Row}

/-- The state once the decrements of the context that are under way to the entry's DCT have arrived (R299). -/
def armDrained (s : State) (r : Row) : State := drainDecs s (dctCl (lane r 0)) s.core.id s.core.hvNow (ctxOf s.core.hdr)

/-- The first check of R219 that the operand row fails: its reason, and the words of lanes 5 and 6. -/
def armFault (s : State) (b : Opnd) (r : Row) : Option (Nat × Nat × Nat) :=
  let u := armDrained s r
  let ref := lane r 0
  let n := hdrRows (lane r 2)
  if hdrBad (lane r 2) then some (1, (lane r 2).toNat, 2) else if !destOk u (lane r 3) then some (2, (lane r 3).toNat, 3)
  else if n = 1 && !payloadOk s.core.slot b 1 then some (3, b.code.toNat, n)
  else if dctBad u ref || pkgOf ref != ownPkg u || dctCl ref != clIdx s.core.id || isMem s.core.id then some (6, ref.toNat, 0)
  else if 65536 ≤ (lane r 1).toNat then some (6, (lane r 1).toNat, 1)
  else if (getCl u (dctCl ref)).dct.any (fun q => q.1 == ref.toNat % 1024) then some (6, ref.toNat, 0)
  else if 1 < n then some (7, (lane r 2).toNat, 2) else none

/-- The payload row of the message, where it has one. -/
def armRow (s : State) (a b : Opnd) (r : Row) : Option Row := (payload s.core b (hdrRows (lane r 2)) (seenBy a b)).head?

/-- The state once it has taken its payload. -/
def armTook (s : State) (b : Opnd) (r : Row) : State := (armDrained s r).modC (fun c => popAll c (List.replicate (hdrRows (lane r 2)) b))

/-- What `dcarm` then does: for a count of 0 it sends the message, else it arms the entry (R217). -/
def armSends (s : State) (a b : Opnd) (r : Row) : State :=
  releaseHeld (armTook s b r) (dctCl (lane r 0)) (dctEntry (lane r 0)) (lane r 2) (lane r 3) (armRow s a b r) s.core.slot.kern (ctxOf s.core.hdr)
def armCounts (s : State) (a b : Opnd) (r : Row) : State :=
  setDct (armTook s b r) (dctCl (lane r 0)) (dctEntry (lane r 0))
    (some (.armed (lane r 1).toNat (lane r 2) (lane r 3) (armRow s a b r) s.core.slot.kern (ctxOf s.core.hdr)))

/-- The course of `dcarm` on a good operand row: its payload, the release, the entry. -/
def armGood (s : State) (a b : Opnd) (r : Row) : CRes :=
  match payloadWait s.core b (hdrRows (lane r 2)) (seenBy a b) with
  | 0 =>
    if releaseWaits (armDrained s r) .pod then .wait outside (armDrained s r)
    else if (lane r 1).toNat = 0 then .out (armSends s a b r) 0 else .out (armCounts s a b r) 0
  | k => .wait k (armDrained s r)

/-- `dcarm` traps ADDR for the first check that fails, and takes its course where none does (R219). -/
theorem armEntry_eq : armEntry b a r s =
    (armFault s b r).elim (armGood s a b r) (fun why => msgTrap (armDrained s r) why.1 why.2.1 why.2.2) := by
  unfold armFault
  simp only [apply_ite (fun o : Option (Nat × Nat × Nat) => o.elim (armGood s a b r) (fun why => msgTrap (armDrained s r) why.1 why.2.1 why.2.2)),
    Option.elim_some, Option.elim_none]
  unfold armEntry
  simp only [Bool.not_not]
  rfl

theorem armGood_payload (waits : payloadWait s.core b (hdrRows (lane r 2)) (seenBy a b) ≠ 0) :
    armGood s a b r = .wait (payloadWait s.core b (hdrRows (lane r 2)) (seenBy a b)) (armDrained s r) := by
  simp only [armGood]

theorem armGood_release (there : payloadWait s.core b (hdrRows (lane r 2)) (seenBy a b) = 0) (waits : releaseWaits (armDrained s r) .pod = true) :
    armGood s a b r = .wait outside (armDrained s r) := by
  simp only [armGood, there, waits, if_true]

theorem armGood_acts (there : payloadWait s.core b (hdrRows (lane r 2)) (seenBy a b) = 0) (free : releaseWaits (armDrained s r) .pod = false) :
    armGood s a b r = .out (if (lane r 1).toNat = 0 then armSends s a b r else armCounts s a b r) 0 := by
  simp only [armGood, there, free, Bool.false_eq_true, if_false]
  exact (apply_ite (CRes.out · 0) ..).symm

end

/-! ### `dcdec` (R217, R365) -/

section
variable {s : State} {a : Opnd}

/-- The reference that `dcdec` names, and its decrement under way. -/
def decRef (s : State) (a : Opnd) : Word := argC0 s { srcs := [a] } 0
def decSent (s : State) (a : Opnd) : State :=
  { s with decs := s.decs ++ [{ pkg := pkgOf (decRef s a), cl := dctCl (decRef s a), entry := dctEntry (decRef s a), core := s.core.id,
                                ctxid := ctxOf s.core.hdr, kern := s.core.slot.kern, hv := s.core.hvNow }] }

theorem dcdec_malformed (ready : ReadyC { srcs := [a] } s) (bad : dctBad s (decRef s a) = true) :
    exec (.dcdec a) s = .next (trapped (.dcdec a) s (mkTrap 0x03 (6 <<< 14 ||| infoDESC) (decRef s a).toNat)) := by
  rw [exec_dcdec, execDcdec]
  exact control_trap ready (if_pos bad)

theorem dcdec_release (ready : ReadyC { srcs := [a] } s) (good : dctBad s (decRef s a) = false) (waits : releaseWaits s .pod = true) :
    exec (.dcdec a) s = stallC s 100 := by
  rw [exec_dcdec, execDcdec]
  exact control_wait ready ((if_neg (Bool.eq_false_iff.1 good)).trans (if_pos waits))

/-- It is sent, and a kernel that no link serves is to be stopped. -/
theorem dcdec_sends (ready : ReadyC { srcs := [a] } s) (good : dctBad s (decRef s a) = false) (free : releaseWaits s .pod = false) :
    ∃ t, exec (.dcdec a) s = .next t ∧
      DoneC s (linkStop (decSent s a) [linksTo s (pkgOf (decRef s a))] s.core.slot.kern s.core.id s.core.hvNow (ctxOf s.core.hdr) s.core.slot.proc)
        t { srcs := [a] } 0 none := by
  rw [exec_dcdec, execDcdec]
  exact control_sent ready ((if_neg (Bool.eq_false_iff.1 good)).trans (if_neg (Bool.eq_false_iff.1 free)))

end

/-! ### `gbar` (R187, R214, R215) -/

section
variable {s : State} {k : BitVec 2}

/-- The entry of the core's group register k. -/
def grpReg (s : State) (k : BitVec 2) : Word := (s.core.grp[k.toNat]?).getD 0

/-- A group of the register: its entry is valid, and the group has members (R213). -/
structure GoodGroup (s : State) (g : Word) : Prop where
  valid : g.getLsbD 31 = true
  members : groupOf s (grpIndex g) ≠ []

theorem goodGroup_iff (g : Word) : (!g.getLsbD 31 || (groupOf s (grpIndex g)).isEmpty) = false ↔ GoodGroup s g := by
  rw [Bool.or_eq_false_iff, Bool.not_eq_false', List.isEmpty_eq_false_iff]
  exact ⟨fun ⟨valid, members⟩ => ⟨valid, members⟩, fun ⟨valid, members⟩ => ⟨valid, members⟩⟩

theorem gbar_harvest (ready : ReadyC {} s) (harvest : s.core.hvNow = true) :
    exec (.gbar k) s = .next (trapped (.gbar k) s (mkTrap 0x03 (5 <<< 14 ||| infoDESC) (2 ^ 32 * k.toNat))) := by
  rw [exec_gbar, execGbar]
  refine control_trap ready ?_
  simp only [harvest, if_true, msgTrap, Nat.zero_add]
  rfl

theorem gbar_malformed (ready : ReadyC {} s) (owner : s.core.hvNow = false) (bad : ¬ GoodGroup s (grpReg s k)) :
    exec (.gbar k) s = .next (trapped (.gbar k) s (mkTrap 0x03 (5 <<< 14 ||| infoDESC) ((grpReg s k).toNat + 2 ^ 32 * k.toNat))) := by
  have refuses := Bool.eq_true_of_not_eq_false (mt (goodGroup_iff (grpReg s k)).1 bad)
  rw [exec_gbar, execGbar]
  exact control_trap ready ((if_neg (Bool.eq_false_iff.1 owner)).trans (if_pos refuses))

/-- With a good group it goes to its barrier. -/
theorem gbar_effect (owner : s.core.hvNow = false) (good : GoodGroup s (grpReg s k)) {e : CRes} (barrier : waitBarrier (grpIndex (grpReg s k)) s = e) :
    (if s.core.hvNow then msgTrap s 5 0 k.toNat
      else if !(grpReg s k).getLsbD 31 || (groupOf s (grpIndex (grpReg s k))).isEmpty then msgTrap s 5 (grpReg s k).toNat k.toNat
      else waitBarrier (grpIndex (grpReg s k)) s) = e :=
  (if_neg (Bool.eq_false_iff.1 owner)).trans ((if_neg (Bool.eq_false_iff.1 ((goodGroup_iff _).2 good))).trans barrier)

variable {grp : Nat}

theorem waitBarrier_release (fresh : s.core.barArr.find? (fun e => e.1 == grp) = none)
    (waits : releaseWaits s (narrowest s.core.id (barMembers s (barOf s (partNow s) grp))) = true) : waitBarrier grp s = .wait outside s := by
  simp only [waitBarrier, fresh, waits, if_true]

/-- The core arrives, once. -/
theorem waitBarrier_arrives (fresh : s.core.barArr.find? (fun e => e.1 == grp) = none)
    (free : releaseWaits s (narrowest s.core.id (barMembers s (barOf s (partNow s) grp))) = false) : waitBarrier grp s =
      .wait outside (joinDomain (setBar (s.modC (fun c => { c with barArr := c.barArr ++ [(grp, (barOf s (partNow s) grp).phase)] }))
        { barOf s (partNow s) grp with arrived := (barOf s (partNow s) grp).arrived ++ [s.core.id] }) (clIdx s.core.id)) := by
  simp only [waitBarrier, fresh, free, Bool.false_eq_true, if_false]

theorem waitBarrier_waits {e : Nat × Nat} (arrived : s.core.barArr.find? (fun e => e.1 == grp) = some e)
    (now : (barOf s (partNow s) grp).phase ≤ e.2) : waitBarrier grp s = .wait outside s := by
  simp only [waitBarrier, arrived, Nat.not_lt.2 now, if_false]

theorem waitBarrier_returns {e : Nat × Nat} (arrived : s.core.barArr.find? (fun e => e.1 == grp) = some e)
    (past : e.2 < (barOf s (partNow s) grp).phase) : waitBarrier grp s =
      .out (s.modC (fun c => { c with barArr := c.barArr.filter (fun e => e.1 != grp) })) 0 := by
  simp only [waitBarrier, arrived, past, if_true]

end

/-- Settles O33: `armEntry_eq` and the lemmas about `armGood` for `dcarm`, those about `dcdec`, and for `gbar` those about
`waitBarrier`. -/
theorem groupResults : Obligations.GroupResults := by
  unfold Obligations.GroupResults
  refine ⟨?_, ?_, ?_⟩
  · intro a b s ready r ref cnt n seen ctx u taken why row took
    have course : armEntry b a r s = why.elim (armGood s a b r) (fun why => msgTrap u why.1 why.2.1 why.2.2) := armEntry_eq
    have goes (passes : why = none) {e : CRes} (good : armGood s a b r = e) : armEntry b a r s = e :=
      course.trans ((congrArg (Option.elim · _ _) passes).trans good)
    rw [exec_dcarm, execDcarm]
    refine ⟨fun x v w bad => ?_, fun passes waits => ?_, fun passes there waits => ?_, fun passes there free => ?_⟩
    · exact control_trap ready (course.trans (congrArg (Option.elim · _ _) bad))
    · exact control_wait ready (goes passes (armGood_payload waits))
    · exact control_wait ready (goes passes (armGood_release there waits))
    · exact control_sent ready (goes passes (armGood_acts there free))
  · intro a s ready ref
    refine ⟨dcdec_malformed ready, dcdec_release ready, fun good free => ?_⟩
    obtain ⟨t, run, done⟩ := dcdec_sends ready good free
    intro v
    have links (c : Bool) (h : linksCut s (linksTo s (pkgOf ref)) = c) : [linksTo s (pkgOf ref)].any (linksCut v) = c :=
      (Bool.or_false _).trans h
    refine ⟨fun up => ⟨t, run, ?_⟩, fun cut first => ?_⟩
    · exact linkStop_reached (s := v) (links false up) ▸ done
    · obtain ⟨q, stops, kern, core, status⟩ := linkStop_cut (s := v) (hv := s.core.hvNow) (w := s.core.id) (ctxid := ctxOf s.core.hdr)
        (proc := s.core.slot.proc) (links true cut) first
      exact ⟨t, q, run, stops ▸ done, kern, core, status⟩
  · intro k s ready g grp b good
    have group (h : good) : GoodGroup s (grpReg s k) := ⟨h.1, h.2⟩
    refine ⟨gbar_harvest ready, fun owner bad => gbar_malformed ready owner fun h => bad ⟨h.valid, h.members⟩, ?_⟩
    rw [exec_gbar, execGbar]
    refine ⟨fun owner h fresh waits => ?_,
      fun owner h fresh free => ?_, fun e owner h arrived => ⟨fun now => ?_, fun past => ?_⟩⟩
    · exact control_wait ready (gbar_effect owner (group h) (waitBarrier_release fresh waits))
    · exact control_wait ready (gbar_effect owner (group h) (waitBarrier_arrives fresh free))
    · exact control_wait ready (gbar_effect owner (group h) (waitBarrier_waits arrived now))
    · exact control_sent ready (gbar_effect owner (group h) (waitBarrier_returns arrived past))

end Sys2Proof.Machine
end

section
/-! PROOFS. `rls`, `done` and `tagset` (O32). -/

namespace Sys2Proof.Machine

/-! ### Message slots freed (R203, R210) -/

section
variable {s : State}

theorem unspill_none {w : Word} (h : (getCl s (clIdx w)).spill = []) : unspill s w = s := by
  simp only [unspill, h, List.find?_nil]

/-- The core without the message in slot i. -/
def niWithout (i : Nat) (c : Core) : Core := { c with ni := c.ni.filter (fun n => n.idx != i) }

/-- Where no spilled message waits, freeing a slot of the current core changes that slot only. -/
theorem niDrop_own {w : Word} {i : Nat} (own : s.core.id = w) (h : (getCl s (clIdx w)).spill = []) : niDrop s w i = s.modC (niWithout i) := by
  subst own
  have freed : modCore s s.core.id (niWithout i) = s.modC (niWithout i) := by
    rw [modCore, getCore_own]
    exact setCore_own rfl
  refine (unspill_none ?_).trans freed
  rw [getCl_modCore]
  exact h

end

/-! ### `rls` (R210) -/

/-- The slot without its message. -/
def Slot.released (x : Slot) : Slot := { x with msgLive := false, msgSlot := none }

section
variable {s : State}

theorem rls_waits (ready : ReadyC {} s) (outstanding : s.core.slot.backlog ≠ []) : exec .rls s = stallC s 1 := by
  have busy : s.core.slot.backlog.isEmpty = false := Bool.eq_false_iff.2 fun h => outstanding (List.isEmpty_iff.1 h)
  rw [exec_rls, execRls]
  refine control_wait ready ?_
  simp only [busy, Bool.not_false, if_true]

theorem rls_again (ready : ReadyC {} s) (alone : s.core.slot.backlog = []) (gone : s.core.slot.msgLive = false) :
    ∃ t, exec .rls s = .next t ∧ DoneC s s t {} 0 none := by
  rw [exec_rls, execRls]
  refine control_done ready ?_
  simp only [alone, gone, List.isEmpty_nil, Bool.not_true, Bool.not_false, Bool.false_eq_true, if_false, if_true]

theorem rls_frees (ready : ReadyC {} s) (alone : s.core.slot.backlog = []) (live : s.core.slot.msgLive = true) {i : Nat}
    (slot : s.core.slot.msgSlot = some i) (unspilt : (getCl s (clIdx s.core.id)).spill = []) :
    ∃ t, exec .rls s = .next t ∧ DoneC s ((s.modS Slot.released).modC (niWithout i)) t {} 0 none := by
  have freed : niDrop (s.modS Slot.released) s.core.id i = (s.modS Slot.released).modC (niWithout i) := niDrop_own rfl unspilt
  rw [exec_rls, execRls]
  refine control_sent ready ?_
  simp only [alone, live, slot, List.isEmpty_nil, Bool.not_true, Bool.false_eq_true, if_false]
  exact congrArg (CRes.out · 0) freed

end

/-! ### The end of a handler (R174, R210) -/

/-- The header row with an empty loop stack and IT clear. -/
def endedHdr (h : Row) : Row := setIT ((List.range 6).foldl (fun h i => setLane h (8 + i) 0) h) false

theorem lane_foldl_zero (l : List Nat) (h : Row) {j : Nat} (hj : j < 16) :
    lane (l.foldl (fun h i => setLane h (8 + i) 0) h) j = if ∃ i ∈ l, 8 + i = j then 0 else lane h j := by
  induction l generalizing h with
  | nil => simp
  | cons i r ih =>
    rw [List.foldl_cons, ih, lane_setLane _ _ _ _ hj]
    simp only [List.mem_cons, exists_eq_or_imp]
    by_cases rest : ∃ k ∈ r, 8 + k = j
    · rw [if_pos rest, if_pos (.inr rest)]
    · rw [if_neg rest]
      simp only [rest, or_false]

theorem lane_endedHdr (h : Row) {j : Nat} (hj : j < 16) :
    lane (endedHdr h) j = if 8 ≤ j ∧ j ≤ 13 then 0 else if j = 1 then lane h 1 &&& 0xFFBFFFFF else lane h j := by
  have loops (k : Nat) : (∃ i ∈ List.range 6, 8 + i = k) ↔ 8 ≤ k ∧ k ≤ 13 :=
    ⟨fun ⟨i, hi, e⟩ => by rw [List.mem_range] at hi; omega, fun hk => ⟨k - 8, List.mem_range.2 (by omega), by omega⟩⟩
  rw [endedHdr, lane_setIT_false _ _ hj, lane_foldl_zero _ _ hj, lane_foldl_zero _ _ (by decide)]
  simp only [loops]
  by_cases h1 : j = 1
  · subst h1; rfl
  · rw [if_neg h1, if_neg h1]

/-- The slot once its handler has ended. -/
def endedSlot (x : Slot) : Slot :=
  { x.goto x.pc with
    active := false, queues := Vector.replicate 4 [], toks := [], msgSlot := none, msgLive := false, prv := false, aside := none, latch := none,
    gang := .idle, paired := false }

/-- The message slots then: the handler's is free, or kept for its tag (R210). -/
def endedNi (c : Core) : List NiSlot :=
  match c.slot.msgSlot with
  | some i =>
    if c.slot.msgLive && tagKeep (tagOf c c.slot.tag) then
      c.ni.map (fun n => if n.idx = i then { n with st := .kept, keep := some c.slot.tag } else n)
    else c.ni.filter (fun n => n.idx != i)
  | none => c.ni

theorem endedNi_none {c : Core} (h : c.slot.msgSlot = none) : endedNi c = c.ni := by
  rw [endedNi, h]

theorem endedNi_kept {c : Core} {i : Nat} (h : c.slot.msgSlot = some i) (live : c.slot.msgLive = true) (keep : tagKeep (tagOf c c.slot.tag) = true) :
    endedNi c = c.ni.map (fun n => if n.idx = i then { n with st := .kept, keep := some c.slot.tag } else n) := by
  simp only [endedNi, h, live, keep, Bool.and_self, if_true]

theorem endedNi_free {c : Core} {i : Nat} (h : c.slot.msgSlot = some i) (free : c.slot.msgLive = false ∨ tagKeep (tagOf c c.slot.tag) = false) :
    endedNi c = c.ni.filter (fun n => n.idx != i) := by
  have unkept : (c.slot.msgLive && tagKeep (tagOf c c.slot.tag)) = false := Bool.and_eq_false_iff.2 free
  simp only [endedNi, h, unkept, Bool.false_eq_true, if_false]

/-- The core once its handler has ended, its message slot apart; and with it. -/
def endedOwn (c : Core) : Core :=
  { c.setHdr (endedHdr c.hdr) with slot := endedSlot c.slot, ownerDone := c.ownerDone || (!c.hvNow && lendV c.lend) }
def endedCore (c : Core) : Core := { endedOwn c with ni := endedNi c }

/-- The state once the slot of the ended handler's message is free or kept. -/
def slotLeft (s : State) : State :=
  let s1 : State := { s with core := endedOwn s.core }
  match s.core.slot.msgSlot with
  | some i =>
    if s.core.slot.msgLive && tagKeep (tagOf s.core s.core.slot.tag) then
      s1.modC (fun c => { c with ni := c.ni.map (fun n => if n.idx = i then { n with st := .kept, keep := some s.core.slot.tag } else n) })
    else niDrop s1 s.core.id i
  | none => s1

theorem slotLeft_eq {s : State} (unspilt : (getCl s (clIdx s.core.id)).spill = []) : slotLeft s = { s with core := endedCore s.core } := by
  unfold slotLeft
  split
  · next i slot =>
    split
    · next kept =>
      obtain ⟨live, keep⟩ := Bool.and_eq_true_iff.1 kept
      rw [endedCore, endedNi_kept slot live keep]
      rfl
    · next free =>
      rw [endedCore, endedNi_free slot (Bool.and_eq_false_iff.1 (Bool.eq_false_iff.2 free))]
      exact niDrop_own rfl unspilt
  · next slot =>
    rw [endedCore, endedNi_none slot]
    rfl

/-- The state then, before a service dispatch tells the loader; and after (R348). -/
def handlerOver (s : State) : State := { rltDrop s s.core.slot.gangRegs with core := endedCore s.core }
def handlerTold (s : State) : State := if s.core.slot.prv then serviceDone (handlerOver s) s.core.id else handlerOver s

section
variable {s : State}

theorem finishHandler_faulted {j : Job} (faulted : faultedJob s = some j) {k a : Nat} (st : j.st = .faulted k a) :
    finishHandler s = .next (escalate (s.modS unissue) { mkTrap cCPF (j.slot <<< 9 ||| k <<< 15) a with fword := word0Of .done }) := by
  simp only [finishHandler, faulted, st]

theorem finishHandler_pending (good : faultedJob s = none) (pending : queuesPending s.core.slot = true) : finishHandler s = stallC s 100 := by
  simp only [finishHandler, good, pending, if_true]
  rfl

/-- Lane 4 for a trap of the control stream. -/
theorem lane4_mkTrap (cause info faddr : Nat) (w : Word) : Trap.lane4 { mkTrap cause info faddr with fword := w } = BitVec.ofNat 32 (cause ||| info) :=
  congrArg (fun n => BitVec.ofNat 32 (n ||| info)) (Nat.or_zero cause)

/-- With nothing to wait for the handler ends (R210). -/
theorem finishHandler_ends (good : faultedJob s = none) (settled : queuesPending s.core.slot = false)
    (unspilt : (getCl s (clIdx s.core.id)).spill = []) : finishHandler s =
      .next (if s.core.slot.paired || s.core.ckpt.isSome then checkpoint (handlerTold s) else handlerTold s) := by
  have left : rltDrop (slotLeft s) s.core.slot.gangRegs = handlerOver s := by
    rw [slotLeft_eq unspilt]
    exact rltDrop_with_core ..
  have told : (if s.core.slot.prv then serviceDone (rltDrop (slotLeft s) s.core.slot.gangRegs) s.core.id else rltDrop (slotLeft s) s.core.slot.gangRegs) =
      handlerTold s := by
    rw [left]
    rfl
  rw [← told, finishHandler, good]
  exact if_neg (Bool.eq_false_iff.1 settled)

/-- Where a checkpoint forms it changes nothing else (R363). -/
theorem checkpoint_if (forms : Bool) (v : State) : ∃ k, (if forms then checkpoint v else v) = { v with core := { v.core with ckpt := k } } ∧
    (forms = false → k = v.core.ckpt) ∧
    (forms = true → ∃ q, k = some q ∧ q.regs = v.core.regs ∧ q.slot = v.core.slot ∧ q.shadow = v.core.shadow ∧ q.tries = 0 ∧ q.undo = []) := by
  cases forms
  · exact ⟨_, rfl, fun _ => rfl, nofun⟩
  · exact ⟨_, rfl, nofun, fun _ => ⟨_, rfl, rfl, rfl, rfl, rfl, rfl⟩⟩

theorem handlerOver_row {q : Nat} (hq : q ≠ s.core.slot.wb) : (handlerOver s).core.row q = s.core.row q := row_setRow_other _ _ _ _ (Ne.symm hq)
theorem handlerOver_hdr : (handlerOver s).core.row s.core.slot.wb = endedHdr s.core.hdr := row_setRow_self _ _ _

theorem unissue_kern (x : Slot) : (unissue x).kern = x.kern := by
  unfold unissue
  split <;> rfl

/-! ### The course of `done` (R210, R257) -/

/-- Issued, `done` waits for every bundle before it and for a late write to its header row, and then ends the handler. -/
theorem done_issued (issued : s.core.slot.ctlIssued = true) : exec .done s =
    if s.core.slot.backlog = [] then (if s.core.pendingRow s.core.slot.wb = true then stallC s 100 else finishHandler s) else stallC s 1 :=
  afterBundle_issued issued

end

/-! ### `tagset` (R211) -/

section
variable {s : State} (t : BitVec 8) (on : Bool)

/-- The instruction that sets or clears EN of a tag. -/
def tagsetInstr (t : BitVec 8) (on : Bool) : Instr := if on then .tagsetOn t else .tagsetOff t

theorem exec_tagset : exec (tagsetInstr t on) s = tagset (tagsetInstr t on) t on s := by
  cases on <;> rfl

/-- A valid tag of the slot's own process. -/
def OwnTag (s : State) (e : BitVec 128) : Prop := tagV e = true ∧ tagProc e = s.core.slot.proc

theorem ownTag_iff (e : BitVec 128) : (!tagV e || tagProc e != s.core.slot.proc) = false ↔ OwnTag s e := by
  rw [Bool.or_eq_false_iff, Bool.not_eq_false', bne_eq_false_iff_eq]
  rfl

variable {t on}

theorem tagset_foreign (ready : ReadyC {} s) (user : s.core.slot.prv = false) (foreign : ¬ OwnTag s (tagOf s.core t.toNat)) :
    exec (tagsetInstr t on) s = .next (trapped (tagsetInstr t on) s (mkTrap 0x11 0 0)) := by
  have refuses := Bool.eq_true_of_not_eq_false (mt (ownTag_iff _).1 foreign)
  rw [exec_tagset, tagset]
  refine control_trap ready ?_
  simp only [user, refuses, Bool.not_false, Bool.and_self, if_true]
  rfl

theorem tagset_invalid (ready : ReadyC {} s) (priv : s.core.slot.prv = true) (invalid : tagV (tagOf s.core t.toNat) = false) :
    ∃ u, exec (tagsetInstr t on) s = .next u ∧ DoneC s s u {} 0 none := by
  rw [exec_tagset, tagset]
  refine control_done ready ?_
  simp only [priv, invalid, Bool.not_true, Bool.not_false, Bool.false_and, Bool.false_eq_true, if_false, if_true]

theorem tagset_sets (ready : ReadyC {} s) (valid : tagV (tagOf s.core t.toNat) = true)
    (may : s.core.slot.prv = true ∨ OwnTag s (tagOf s.core t.toNat)) :
    ∃ u, exec (tagsetInstr t on) s = .next u ∧ DoneC s (s.modC (fun c => tagEnable c t.toNat on)) u {} 0 none := by
  have admits : (!s.core.slot.prv && (!tagV (tagOf s.core t.toNat) || tagProc (tagOf s.core t.toNat) != s.core.slot.proc)) = false := by
    rcases may with priv | own
    · rw [priv, Bool.not_true, Bool.false_and]
    · rw [(ownTag_iff _).2 own, Bool.and_false]
  have listed : ¬ (!tagV (tagOf s.core t.toNat)) = true := by rw [valid]; exact Bool.false_ne_true
  rw [exec_tagset, tagset]
  exact control_sent ready ((if_neg (Bool.eq_false_iff.1 admits)).trans (if_neg listed))

theorem tagEnable_ni (c : Core) (t : Nat) (on : Bool) : (tagEnable c t on).ni = c.ni.map (fun n =>
    if hdrTag n.msg.hdr = t ∧ n.st = (if on then .waiting else .ready) then { n with st := if on then .ready else .waiting } else n) := by
  refine List.map_congr_left fun n _ => ?_
  by_cases tag : hdrTag n.msg.hdr = t
  · simp only [tag, if_true, true_and]
    cases hn : n.st <;> cases on <;> simp
  · simp only [tag, if_false, false_and]

theorem tagEnable_self (c : Core) (t : Nat) (on : Bool) : tagOf (tagEnable c t on) t = tagSetEN (tagOf c t) on false := look_put_self ..
theorem tagEnable_other (c : Core) {t u : Nat} (on : Bool) (h : u ≠ t) : tagOf (tagEnable c t on) u = tagOf c u :=
  look_put_other _ _ _ _ _ (Ne.symm h)

end

/-- Settles O32: the lemmas about `rls` and `tagset`, and for `done` those about `afterBundle`, which say when it acts, and about
`finishHandler`, which say how. -/
theorem handlerResults : Obligations.HandlerResults := by
  unfold Obligations.HandlerResults
  refine ⟨⟨fun s ready => ⟨rls_waits ready, rls_again ready, fun i alone live slot unspilt => rls_frees ready alone live slot unspilt⟩, ?_⟩, ?_⟩
  · intro s ended finishes
    have finished (run : exec .done s = finishHandler s) : finishes := by
      refine ⟨fun j k a faulted st => ?_, fun good pending => run.trans (finishHandler_pending good pending), fun good settled unspilt => ?_⟩
      · exact ⟨_, _, run.trans (finishHandler_faulted faulted st), rfl, unissue_kern _, lane4_mkTrap .., rfl, rfl, rfl, rfl⟩
      · obtain ⟨k, ends, single, paired⟩ := checkpoint_if (s.core.slot.paired || s.core.ckpt.isSome) (handlerTold s)
        refine ⟨handlerOver s, k, run.trans ((finishHandler_ends good settled unspilt).trans (congrArg _ ends)), fun alone unmarked => ?_, fun pair => ?_,
          rfl, rfl, rfl, fun q hq => handlerOver_row hq, fun j hj => ?_, fun slot => endedNi_none slot, fun i slot live keep => endedNi_kept slot live keep,
          fun i slot free => endedNi_free slot free⟩
        · exact single (by rw [alone, unmarked]; rfl)
        · exact paired (by rcases pair with pair | pair <;> simp [pair, Option.isSome_iff_ne_none])
        · rw [handlerOver_hdr]
          exact lane_endedHdr _ hj
    refine ⟨fun issued outstanding => ?_, fun issued alone pending => ?_, fun issued alone landed => ?_, fun fresh waits => ?_,
      fun w0 w1 fresh free bundle joined => ⟨fun idle alone => ?_, fun other => ?_⟩⟩
    · exact (done_issued issued).trans (if_neg outstanding)
    · exact (done_issued issued).trans ((if_pos alone).trans (if_pos pending))
    · exact finished ((done_issued issued).trans ((if_pos alone).trans (if_neg (Bool.eq_false_iff.1 landed))))
    · exact afterBundle_waits (fin := finishHandler) fresh waits
    · subst idle
      exact finished (afterBundle_idle (fin := finishHandler) fresh free bundle joined alone)
    · have joins := afterBundle_joins (p := { moves := true }) (fin := finishHandler) fresh free bundle joined other
      rw [joinedSlot_eq bundle joined] at joins
      exact ⟨_, joins, rfl, rfl, rfl, List.map_append ..⟩
  · intro k on s ready i e own
    refine ⟨fun user foreign => tagset_foreign ready user foreign, fun priv invalid => tagset_invalid ready priv invalid, fun valid may => ?_⟩
    obtain ⟨t, run, done⟩ := tagset_sets (on := on) ready valid may
    refine ⟨t, _, run, done, rfl, fun j hj => tagEnable_other _ on hj, fun b hb => ?_, tagEnable_ni ..⟩
    exact (congrArg (BitVec.getLsbD · b) (tagEnable_self ..)).trans (getLsbD_tagSetEN _ _ _ hb)

end Sys2Proof.Machine
end

section
/-! PROOFS. Registrations and posts of the gang unit (R140, R225, R226). -/

namespace Sys2Proof.Machine

/-! ### Entries of the range-lock tables -/

section
variable {s : State}

/-- What the storing of one cluster keeps is the same in every cluster. -/
theorem getCl_setCl_keeps {α : Type} (g : Cluster → α) {c : Cluster} {n : Nat} (m : Nat) (hid : c.id = n) (hg : g c = g (getCl s n)) :
    g (getCl (setCl s c) m) = g (getCl s m) := by
  rw [getCl_setCl_at, hid]
  split
  · next h => rw [hg, h]
  · rfl

theorem getCl_rltDrop_keeps {α : Type} (g : Cluster → α) (hg : ∀ c l, g { c with rlt := l } = g c) (es : List (Nat × Nat)) (n : Nat) :
    g (getCl (rltDrop s es) n) = g (getCl s n) := by
  unfold rltDrop
  refine foldl_keeps (fun t => g (getCl t n)) (fun t e => ?_) es s
  exact getCl_setCl_keeps g n (getCl_id t e.1) (hg _ _)

theorem getCl_rltAdd_keeps {α : Type} (g : Cluster → α) (hg : ∀ c l k, g { c with rlt := l, nextOrder := k } = g c) (rs : List Reg) (n : Nat) :
    g (getCl (rltAdd rs s).1 n) = g (getCl s n) := by
  induction rs generalizing s with
  | nil => rfl
  | cons r rs ih =>
    rw [rltAdd, ih]
    exact getCl_setCl_keeps g n (getCl_id s _) (hg _ _ _)

theorem rltAdd_frame (rs : List Reg) : (rltAdd rs s).1 = { s with clusters := (rltAdd rs s).1.clusters } := by
  induction rs generalizing s with
  | nil => rfl
  | cons r rs ih => exact ih

theorem getCore_rltAdd (rs : List Reg) (w : Word) : getCore (rltAdd rs s).1 w = getCore s w := by
  induction rs generalizing s with
  | nil => rfl
  | cons r rs ih =>
    rw [rltAdd, ih]
    refine getCore_setCl s _ w ?_
    dsimp only
    rw [getCl_id]

/-! ### Slots told of their posts -/

theorem tellPost_id (c : Core) (g : GangSt) : (tellPost c g).id = c.id := by
  unfold tellPost
  split
  · unfold Core.setOwner
    split <;> rfl
  · split <;> rfl

theorem modCore_core_id {w : Word} {f : Core → Core} (keeps : ∀ c, (f c).id = c.id) : (modCore s w f).core.id = s.core.id := by
  rw [modCore_core s w keeps]
  split
  · exact keeps _
  · rfl

/-- The owner slot of a core, told, reports what has become of its pending post, and otherwise stands where it stood. -/
theorem tellPost_gang (c : Core) (g : GangSt) : (tellPost c g).owner.gang = if c.owner.gang = .posted then g else c.owner.gang := by
  unfold tellPost Slot.tellGang
  by_cases posted : c.owner.gang = .posted
  · simp only [posted, beq_self_eq_true, if_true, owner_setOwner]
  · rw [if_neg posted, if_neg (fun h => posted (beq_iff_eq.1 h))]
    cases c.owner.aside with
    | none => cases c.shadow <;> rfl
    | some a =>
      dsimp only
      split
      · next x h =>
        split at h
        · obtain rfl := Option.some.inj h
          rw [owner_setOwner]
        · cases h
      · cases c.shadow <;> rfl

/-! ### Withdrawal (R226) -/

/-- Where the `mgang` of the owner slot of a core stands. -/
def ownerGang (s : State) (w : Word) : GangSt := (getCore s w).owner.gang

/-- The cluster once its unit has dropped the posts of some cores. -/
def postsDropped (s : State) (cl : Nat) (l : List Nat) : State :=
  setCl s { getCl s cl with posts := (getCl s cl).posts.filter (fun p => !l.contains p.core) }

/-- A withdrawn post frees its entries, and its core is told. -/
def postWithdrawn (cl : Nat) (g : GangSt) (s : State) (p : Post) : State :=
  modCore (rltDrop s p.rlt) (clCore s cl p.core) (fun c => tellPost c g)

variable {cl : Nat} {l : List Nat} {g : GangSt}

theorem withdraw_eq : withdraw s cl l g =
    ((getCl s cl).posts.filter (fun p => l.contains p.core)).foldl (postWithdrawn cl g) (postsDropped s cl l) := rfl

theorem withdraw_posts : (getCl (withdraw s cl l g) cl).posts = (getCl s cl).posts.filter (fun p => !l.contains p.core) := by
  rw [withdraw_eq, foldl_keeps (fun t => (getCl t cl).posts) (fun t p => ?_), postsDropped, getCl_setCl_at, if_pos (getCl_id s cl)]
  rw [postWithdrawn, getCl_modCore]
  exact getCl_rltDrop_keeps Cluster.posts (fun _ _ => rfl) _ _

theorem postWithdrawn_core_id (p : Post) : (postWithdrawn cl g s p).core.id = s.core.id := by
  unfold postWithdrawn
  rw [modCore_core_id fun c => tellPost_id c g, rltDrop_frame]

theorem withdraw_core_id : (withdraw s cl l g).core.id = s.core.id := by
  rw [withdraw_eq]
  exact foldl_keeps (fun t => t.core.id) (fun t p => postWithdrawn_core_id p) _ _

theorem ownerGang_postWithdrawn (p : Post) (w : Word) : ownerGang (postWithdrawn cl g s p) w =
    if ownerGang s w = .posted ∧ clCore s cl p.core = w then g else ownerGang s w := by
  unfold ownerGang postWithdrawn
  rw [getCore_modCore _ _ _ _ ((tellPost_id _ _).trans (getCore_id _ _)), getCore_rltDrop, getCore_rltDrop]
  by_cases told : clCore s cl p.core = w
  · simp only [told, if_true, and_true, tellPost_gang]
  · rw [if_neg told, if_neg fun h => told h.2]

theorem ownerGang_foldl_postWithdrawn (ps : List Post) (w : Word) : ownerGang (ps.foldl (postWithdrawn cl g) s) w =
    if ownerGang s w = .posted ∧ ∃ p ∈ ps, clCore s cl p.core = w then g else ownerGang s w := by
  induction ps generalizing s with
  | nil => simp
  | cons p ps ih =>
    have same (q : Post) : clCore (postWithdrawn cl g s p) cl q.core = clCore s cl q.core :=
      congrArg (fun i => coreWord (pkgOf i) cl q.core) (postWithdrawn_core_id p)
    rw [List.foldl_cons, ih, ownerGang_postWithdrawn]
    simp only [same, List.mem_cons, exists_eq_or_imp]
    by_cases told : clCore s cl p.core = w <;> by_cases posted : ownerGang s w = .posted <;> simp [told, posted]

/-- A withdrawal tells the cores whose posts it drops, if those are pending, and no other. -/
theorem ownerGang_withdraw (w : Word) : ownerGang (withdraw s cl l g) w =
    if ownerGang s w = .posted ∧ ∃ p ∈ (getCl s cl).posts, p.core ∈ l ∧ clCore s cl p.core = w then g else ownerGang s w := by
  have before : ownerGang (postsDropped s cl l) w = ownerGang s w := by
    unfold ownerGang postsDropped
    rw [getCore_setCl]
    dsimp only
    rw [getCl_id]
  have same (p : Post) : clCore (postsDropped s cl l) cl p.core = clCore s cl p.core := rfl
  rw [withdraw_eq, ownerGang_foldl_postWithdrawn, before]
  simp only [same, List.mem_filter, List.contains_iff_mem, and_assoc]

end

end Sys2Proof.Machine
end

section
/-! PROOFS. Events of the gang unit: starts, timeouts, steps, and the cells of the four semirings (O47). -/

namespace Sys2Proof.Machine

/-! ### The start of a gang (R225, R227) -/

/-- A member of the gang of g, as its core stands at the start. -/
def memberAtStart (s : State) (cl : Nat) (g : GangWord) (q : Post) : Member :=
  let c := getCore s (clCore s cl q.core)
  { core := q.core, a := q.a, b := q.b, scales := if anyFresh c g then some (sclaAt c, sclbAt c) else none, codes := c.codes, rlt := q.rlt,
    kern := q.kern, ctxid := q.ctxid, proc := q.proc }

/-- The member on core k, where that core has posted g. -/
def memberOn (s : State) (cl : Nat) (g : GangWord) (k : Nat) : Option Member :=
  ((getCl s cl).posts.find? (fun q => q.core == k && q.ext == g)).map (memberAtStart s cl g)

def opAtStart (s : State) (cl : Nat) (g : GangWord) : GangOp :=
  { ext := g, members := g.cores.filterMap (memberOn s cl g), step := 0, k := opPlanes s cl g }

/-- The state once a gang has started. -/
def gangStarted (s : State) (cl : Nat) (g : GangWord) : State :=
  let charged := ((opAtStart s cl g).members.filter (fun m => m.scales.isSome)).foldl (chargeScales cl g) s
  let taken := setCl charged { getCl s cl with
    posts := (getCl s cl).posts.filter (fun q => !(g.mask.getLsbD q.core && q.ext == g)), ops := (getCl s cl).ops ++ [opAtStart s cl g] }
  g.cores.foldl (fun t k => modCore t (clCore t cl k) (fun c => tellPost (sampleScales s g c) .started)) taken

section
variable {s : State} {cl : Nat}

theorem exec_gangStart_first {p : Post} (first : (getCl s cl).posts.find? (fun q => complete (getCl s cl) q && !scalesLocked s cl q.ext) = some p) :
    exec (.gangStart cl) s = .next (gangStarted s cl p.ext) := by
  rw [exec_gangStart, execGangStart]
  simp only [first]
  rfl

theorem memberOn_core {g : GangWord} {k : Nat} (posted : ∃ q ∈ (getCl s cl).posts, q.core = k ∧ q.ext = g) :
    ∃ m, memberOn s cl g k = some m ∧ m.core = k := by
  obtain ⟨q, hq, core, ext⟩ := posted
  unfold memberOn
  cases found : (getCl s cl).posts.find? (fun q => q.core == k && q.ext == g) with
  | none => exact absurd (List.find?_eq_none.1 found q hq) (by simp [core, ext])
  | some r =>
    have here := List.find?_some found
    simp only [Bool.and_eq_true, beq_iff_eq] at here
    exact ⟨_, rfl, here.1⟩

theorem complete_posted {p : Post} (h : complete (getCl s cl) p = true) {k : Nat} (named : k ∈ p.ext.cores) :
    ∃ q ∈ (getCl s cl).posts, q.core = k ∧ q.ext = p.ext := by
  obtain ⟨q, hq, here⟩ := List.any_eq_true.1 (List.all_eq_true.1 h k named)
  simp only [Bool.and_eq_true, beq_iff_eq] at here
  exact ⟨q, hq, here⟩

/-- The members of a complete gang are the cores that its mask names. -/
theorem opAtStart_cores {p : Post} (h : complete (getCl s cl) p = true) :
    (opAtStart s cl p.ext).members.map (fun m => m.core) = p.ext.cores := by
  have members : ∀ l : List Nat, (∀ k ∈ l, k ∈ p.ext.cores) → (l.filterMap (memberOn s cl p.ext)).map (fun m => m.core) = l := fun l => by
    induction l with
    | nil => exact fun _ => rfl
    | cons k l ih =>
      intro named
      obtain ⟨m, found, core⟩ := memberOn_core (complete_posted h (named k List.mem_cons_self))
      rw [List.filterMap_cons_some found, List.map_cons, core, ih fun j hj => named j (List.mem_cons_of_mem _ hj)]
  exact members _ fun _ hk => hk

theorem getCl_gangStarted (g : GangWord) : getCl (gangStarted s cl g) cl = { getCl s cl with
    posts := (getCl s cl).posts.filter (fun q => !(g.mask.getLsbD q.core && q.ext == g)), ops := (getCl s cl).ops ++ [opAtStart s cl g] } := by
  unfold gangStarted
  rw [foldl_keeps (fun t => getCl t cl) fun t k => getCl_modCore .., getCl_setCl_at]
  exact if_pos (getCl_id s cl)

theorem gangStarted_mem (g : GangWord) : (gangStarted s cl g).mem = s.mem := by
  unfold gangStarted
  rw [foldl_mem fun t k => modCore_mem .., setCl_mem, foldl_mem fun t m => chargeScales_mem ..]

end

/-! ### The timeout of a post (R226) -/

section
variable {s : State} {w : Word} {p : Post}

theorem gangto_early (found : (getCl s (clIdx w)).posts.find? (fun q => q.core == coreOf w) = some p)
    (early : (getCore s w).cycle.toNat < p.at_ + 1048576) : exec (.gangto w) s = .next s := by
  rw [exec_gangto, execGangto]
  simp only [found]
  exact if_pos early

theorem gangto_withdraws (found : (getCl s (clIdx w)).posts.find? (fun q => q.core == coreOf w) = some p)
    (due : p.at_ + 1048576 ≤ (getCore s w).cycle.toNat) : ∃ m, exec (.gangto w) s = .next (withdraw s (clIdx w) [coreOf w] (.late m)) := by
  have own : p.core = coreOf w := by simpa using List.find?_some found
  rw [exec_gangto, execGangto, ← own]
  rw [← own] at found
  simp only [found]
  exact ⟨_, if_neg (Nat.not_lt.2 due)⟩

end

/-! ### The steps (R229, R232) -/

/-- The state once every member of an operation has made the step it is at, with the machine checks of its operand reads. -/
def stepMade (s : State) (cl ue : Nat) (o : GangOp) : State :=
  o.members.foldl (memberChecks cl ue)
    (o.members.foldl (fun t m => memberStep cl o m (o.members.any (fun n => !(badReads ue n).isEmpty)) t) s)

theorem exec_gangStepRetire_oldest {s : State} {cl ue : Nat} {o : GangOp} {r : List GangOp} (oldest : (getCl s cl).ops = o :: r) :
    exec (.gangStepRetire cl ue) s =
      if o.step + 1 < o.ext.cores.length then .next (modCl (stepMade s cl ue o) cl (fun u => { u with ops := { o with step := o.step + 1 } :: r }))
      else .next (planDomain (rltDrop (modCl (stepMade s cl ue o) cl (fun u => { u with ops := r })) (o.members.flatMap Member.rlt)) cl) := by
  rw [exec_gangStepRetire, execGangStepRetire]
  simp only [oldest]
  rfl

/-! ### The cells (R229) -/

section
variable {g : GangWord} {x : BitVec 48} {as bs : List Int}

theorem foldl_products (as bs : List Int) (x : Int) :
    (as.zip bs).foldl (fun t p => t + p.1 * p.2) x = x + (List.zipWith (fun a b => a * b) as bs).sum := by
  induction as generalizing bs x with
  | nil => exact (Int.add_zero x).symm
  | cons a as ih =>
    cases bs with
    | nil => exact (Int.add_zero x).symm
    | cons b bs =>
      rw [List.zip_cons_cons, List.foldl_cons, ih, List.zipWith_cons_cons, List.sum_cons]
      exact Int.add_assoc ..

theorem cell_pt (h : g.ring = .pt) : (cell g x as bs).1 = BitVec.ofInt 48 (x.toInt + (List.zipWith (fun a b => a * b) as bs).sum) := by
  unfold cell
  rw [h]
  exact congrArg (BitVec.ofInt 48) (foldl_products as bs x.toInt)

theorem cell_ora (h : g.ring = .ora) : (cell g x as bs).1 = if ∃ p ∈ as.zip bs, p.1 ≠ 0 ∧ p.2 ≠ 0 then 1 else x := by
  have pair : ((as.zip bs).any (fun p => p.1 != 0 && p.2 != 0) = true) = ∃ p ∈ as.zip bs, p.1 ≠ 0 ∧ p.2 ≠ 0 := by simp
  unfold cell
  rw [h]
  simp only [pair]

/-- The least of a value and of the terms that are counted. -/
theorem foldl_min_least {α β : Type} [LinearOrder α] (counts : β → Bool) (f : β → α) (l : List β) (x : α) :
    ∃ m, l.foldl (fun t p => if counts p then min t (f p) else t) x = m ∧ m ≤ x ∧ (∀ p ∈ l.filter counts, m ≤ f p) ∧
      (m = x ∨ ∃ p ∈ l.filter counts, m = f p) := by
  induction l generalizing x with
  | nil => exact ⟨x, rfl, le_refl x, nofun, .inl rfl⟩
  | cons p l ih =>
    by_cases hp : counts p = true
    · obtain ⟨m, fold, low, lower, attained⟩ := ih (min x (f p))
      refine ⟨m, by rw [List.foldl_cons, if_pos hp, fold], low.trans (min_le_left _ _), ?_, ?_⟩
      · rw [List.filter_cons_of_pos hp]
        exact List.forall_mem_cons.2 ⟨low.trans (min_le_right _ _), lower⟩
      · rw [List.filter_cons_of_pos hp]
        rcases attained with least | ⟨q, hq, least⟩
        · exact (min_choice x (f p)).imp least.trans fun h => ⟨p, List.mem_cons_self, least.trans h⟩
        · exact .inr ⟨q, List.mem_cons_of_mem _ hq, least⟩
    · rw [List.filter_cons_of_neg hp, List.foldl_cons, if_neg hp]
      exact ih x

theorem foldl_max_greatest {α β : Type} [LinearOrder α] (counts : β → Bool) (f : β → α) (l : List β) (x : α) :
    ∃ m, l.foldl (fun t p => if counts p then max t (f p) else t) x = m ∧ x ≤ m ∧ (∀ p ∈ l.filter counts, f p ≤ m) ∧
      (m = x ∨ ∃ p ∈ l.filter counts, m = f p) :=
  foldl_min_least (α := αᵒᵈ) counts f l x

/-- Bits below the sign of an A value, and of a B value. -/
def aBits (g : GangWord) : Nat := if g.af = .i16 then 15 else 7
def bBits (g : GangWord) : Nat := if g.bf = true then 15 else 7

/-- The pairs that a min-plus cell counts, and those that a max-plus cell counts. -/
def countsMin (g : GangWord) (p : Int × Int) : Bool := p.1 ≠ 2 ^ aBits g - 1 && p.2 ≠ 2 ^ bBits g - 1
def countsMax (g : GangWord) (p : Int × Int) : Bool := p.1 ≠ -2 ^ aBits g && p.2 ≠ -2 ^ bBits g

theorem aBits_eq (g : GangWord) : (if g.af == .i16 then 16 else 8) - 1 = aBits g := by
  unfold aBits
  cases g.af <;> rfl
theorem bBits_eq (g : GangWord) : (if g.bf then 16 else 8) - 1 = bBits g := by
  unfold bBits
  cases g.bf <;> rfl

theorem cell_minp (h : g.ring = .minp) : (cell g x as bs).1 =
    BitVec.ofInt 48 ((as.zip bs).foldl (fun t p => if countsMin g p then min t (p.1 + p.2) else t) x.toInt) := by
  unfold cell
  rw [h]
  simp only [finiteMin, aBits_eq, bBits_eq]
  rfl

theorem cell_maxp (h : g.ring = .maxp) : (cell g x as bs).1 =
    BitVec.ofInt 48 ((as.zip bs).foldl (fun t p => if countsMax g p then max t (p.1 + p.2) else t) x.toInt) := by
  unfold cell
  rw [h]
  simp only [finiteMax, aBits_eq, bBits_eq]
  rfl

end

/-- Settles O47: the start of the first complete gang, the withdrawal of a post whose time is over, the four cells by what their folds
give, and the step of the oldest operation. -/
theorem gangEvents : Obligations.GangEvents := by
  unfold Obligations.GangEvents
  refine ⟨?_, fun s w p found => ⟨gangto_early found, fun due => ?_⟩, fun g x as bs => ⟨cell_pt, cell_ora⟩, ?_, ?_⟩
  · intro s cl p u first
    have full : complete u p = true := (Bool.and_eq_true _ _ ▸ List.find?_some first).1
    have unit := getCl_gangStarted (s := s) (cl := cl) p.ext
    exact ⟨_, _, exec_gangStart_first first, congrArg Cluster.ops unit, rfl, rfl, opAtStart_cores full, congrArg Cluster.posts unit, gangStarted_mem _⟩
  · obtain ⟨m, run⟩ := gangto_withdraws found due
    refine ⟨_, run, withdraw_posts.trans (List.filter_congr fun q _ => ?_)⟩
    rw [List.contains_cons, List.contains_nil, Bool.or_false]
    rfl
  · intro g x as bs wa wb near far
    refine ⟨fun ring => ?_, fun ring => ?_⟩
    · obtain ⟨m, fold, low, lower, attained⟩ := foldl_min_least (countsMin g) (fun p => p.1 + p.2) (as.zip bs) x.toInt
      exact ⟨m, (cell_minp ring).trans (congrArg _ fold), low, lower, attained⟩
    · obtain ⟨m, fold, high, upper, attained⟩ := foldl_max_greatest (countsMax g) (fun p => p.1 + p.2) (as.zip bs) x.toInt
      exact ⟨m, (cell_maxp ring).trans (congrArg _ fold), high, upper, attained⟩
  · intro s cl ue o r oldest v
    exact ⟨fun more => (exec_gangStepRetire_oldest oldest).trans (if_pos more),
      fun last => (exec_gangStepRetire_oldest oldest).trans (if_neg (Nat.not_lt.2 last))⟩

end Sys2Proof.Machine
end

section
/-! PROOFS. The code table, the tiles, and the reading of a tile (O34). -/

namespace Sys2Proof.Machine

/-! ### What bars a matrix instruction (R224, R362) -/

section
variable {s : State}

theorem matrixBar_harvest (h : s.core.hvNow = true) : matrixBar s = some (mkTrap 0x0C (3 <<< 9) 0) := if_pos h
theorem matrixBar_paired (h : s.core.hvNow = false) (pair : s.core.slot.paired = true) : matrixBar s = some (mkTrap 0x0C (4 <<< 9) 0) :=
  (if_neg (Bool.eq_false_iff.1 h)).trans (if_pos pair)
theorem matrixBar_none (h : s.core.hvNow = false) (single : s.core.slot.paired = false) : matrixBar s = none :=
  (if_neg (Bool.eq_false_iff.1 h)).trans (if_neg (Bool.eq_false_iff.1 single))

theorem controlSpec_matrix {a b : Opnd} {g : GangWord} {ring : Ring} {f l : BitVec 4} {conv : Conv} {i : Instr} {p : CSpec}
    (hi : i ∈ [Instr.mgang a b g, .mcode a, .accz ring f l, .accrd conv a b]) (spec : controlSpec s i = some p) : p.bar = matrixBar s := by
  simp only [List.mem_cons, List.not_mem_nil, or_false] at hi
  rcases hi with rfl | rfl | rfl | rfl <;> exact Option.some.inj spec ▸ rfl

/-- A matrix instruction that waits for nothing takes the trap of its bar, whatever its operands. -/
theorem matrix_barred {a b : Opnd} {g : GangWord} {ring : Ring} {f l : BitVec 4} {conv : Conv} {i : Instr} {t : Trap}
    (hi : i ∈ [Instr.mgang a b g, .mcode a, .accz ring f l, .accrd conv a b]) (free : ∃ p, controlSpec s i = some p ∧ cWait s.core p = 0)
    (bar : matrixBar s = some t) : exec i s = .next (trapped i s t) := by
  obtain ⟨p, spec, free⟩ := free
  obtain ⟨effect, course⟩ := control_exec i s p spec
  exact course.trans (control_barred free ((controlSpec_matrix hi spec).trans bar))

/-! ### The plane count (R70, R237) -/

/-- The planes of a table whose largest magnitude is m. -/
def planesOf (m : Nat) : Nat := if m ≤ 1 then 1 else if m ≤ 4 then 2 else if m ≤ 13 then 3 else if m ≤ 40 then 4 else if m ≤ 121 then 5 else 6

/-- k planes code the magnitudes m with 2m + 1 ≤ 3^k, and the planes of m are the fewest that code it. -/
theorem planesOf_fewest {m : Nat} (byte : m ≤ 128) :
    1 ≤ planesOf m ∧ 2 * m + 1 ≤ 3 ^ planesOf m ∧ (1 < planesOf m → 3 ^ (planesOf m - 1) < 2 * m + 1) := by
  unfold planesOf
  split_ifs <;> norm_num <;> omega

/-- The largest magnitude of a table. -/
def largest (l : List Byte) : Nat := l.foldl (fun m b => max m b.toInt.natAbs) 0

theorem planes_eq (l : List Byte) : planes l = planesOf (largest l) := rfl

theorem natAbs_byte (b : Byte) : b.toInt.natAbs ≤ 128 := by
  have lo := b.le_toInt
  have hi := b.toInt_lt
  omega

theorem largest_rule (l : List Byte) : (∀ b ∈ l, b.toInt.natAbs ≤ largest l) ∧ (largest l = 0 ∨ ∃ b ∈ l, largest l = b.toInt.natAbs) := by
  obtain ⟨m, fold, -, upper, attained⟩ := foldl_max_greatest (fun _ => true) (fun b : Byte => b.toInt.natAbs) l 0
  rw [List.filter_true] at upper attained
  obtain rfl : largest l = m := fold
  exact ⟨upper, attained⟩

theorem largest_le (l : List Byte) : largest l ≤ 128 := by
  rcases (largest_rule l).2 with none | ⟨b, -, attained⟩
  · omega
  · exact attained ▸ natAbs_byte b

theorem planes_rule (l : List Byte) : 1 ≤ planes l ∧ (∀ b ∈ l, 2 * b.toInt.natAbs + 1 ≤ 3 ^ planes l) ∧
    (1 < planes l → ∃ b ∈ l, 3 ^ (planes l - 1) < 2 * b.toInt.natAbs + 1) := by
  obtain ⟨upper, attained⟩ := largest_rule l
  obtain ⟨one, codes, fewest⟩ := planesOf_fewest (largest_le l)
  refine ⟨one, fun b hb => ?_, fun several => ?_⟩
  · have := upper b hb
    exact le_trans (by omega) codes
  · have short := fewest several
    rcases attained with zero | ⟨b, hb, attained⟩
    · rw [planes_eq, zero] at several
      exact absurd several (by decide)
    · exact ⟨b, hb, attained ▸ short⟩

/-! ### `mcode` (R237) -/

/-- The code table of a row: byte 0 of each lane. -/
def codeTable (r : Row) : Vector Byte 16 := Vector.ofFn (fun e => (lane r e.val).extractLsb' 0 8)

theorem mcode_done {a : Opnd} (bar : matrixBar s = none) (ready : ReadyC { srcs := [a] } s) : ∃ t, exec (.mcode a) s = .next t ∧
    DoneC s (s.modC (fun c => { c with codes := codeTable (argC s { srcs := [a] } 0), kc := planes (codeTable (argC s { srcs := [a] } 0)).toList })) t
      { srcs := [a] } 0 none := by
  rw [exec_mcode, execMcode, bar]
  exact control_done ready rfl

theorem codeTable_get (r : Row) (e : Fin 16) : (codeTable r)[e] = (lane r e.val).extractLsb' 0 8 := Vector.getElem_ofFn e.isLt

theorem mem_codeTable (r : Row) (b : Byte) : b ∈ (codeTable r).toList ↔ ∃ e : Fin 16, (codeTable r)[e] = b := by
  rw [Vector.mem_toList_iff, Vector.mem_iff_getElem]
  exact ⟨fun ⟨i, hi, h⟩ => ⟨⟨i, hi⟩, h⟩, fun ⟨e, h⟩ => ⟨e.val, e.isLt, h⟩⟩

/-! ### Tables in parts -/

theorem look_append {α : Type} (d : α) (l r : List (Nat × α)) (n : Nat) : look d (l ++ r) n = look (look d r n) l n := by
  induction l with
  | nil => rfl
  | cons e l ih =>
    obtain ⟨k, v⟩ := e
    exact congrArg (fun y => if k = n then v else y) ih

/-- A table of one value over k numbers from lo up. -/
theorem look_span {α : Type} (d v : α) (lo k n : Nat) :
    look d ((List.range k).map (fun i => (lo + i, v))) n = if lo ≤ n ∧ n < lo + k then v else d := by
  induction k generalizing d with
  | zero => exact (if_neg (by omega)).symm
  | succ k ih =>
    have last : look d [(lo + k, v)] n = if lo + k = n then v else d := rfl
    rw [List.range_succ, List.map_append, look_append, List.map_singleton, last, ih]
    grind

/-! ### `accz` (R229, R236) -/

/-- Tiles first to last hold one value, and the others what they held. -/
theorem look_fillTiles {first last : Nat} (ordered : first ≤ last) (acc : List (Nat × BitVec 48)) (v : BitVec 48) (n : Nat) :
    look 0 (fillTiles acc first last v) n = if 1024 * first ≤ n ∧ n < 1024 * (last + 1) then v else look 0 acc n := by
  have middle (d : BitVec 48) : look d ((List.range (1024 * (last + 1 - first))).map (fun i => (1024 * first + i, v))) n =
      if 1024 * first ≤ n ∧ n < 1024 * (last + 1) then v else d := by
    rw [look_span, show 1024 * first + 1024 * (last + 1 - first) = 1024 * (last + 1) by omega]
  have filled : look (if 1024 * (last + 1) ≤ n then look 0 acc n else 0)
      (if v = 0 then [] else (List.range (1024 * (last + 1 - first))).map (fun i => (1024 * first + i, v))) n =
      if 1024 * first ≤ n ∧ n < 1024 * (last + 1) then v else if 1024 * (last + 1) ≤ n then look 0 acc n else 0 := by
    by_cases zero : v = 0
    · rw [if_pos zero, zero, look_nil]
      grind
    · rw [if_neg zero, middle]
  unfold fillTiles
  rw [look_append, look_append, look_filter 0 (fun k => decide (1024 * (last + 1) ≤ k)) acc n,
    look_filter _ (fun k => decide (k < 1024 * first)) acc n]
  simp only [decide_eq_true_eq]
  rw [filled]
  grind

theorem getLsbD_tileMask {first last q : Nat} (ordered : first ≤ last) (hq : q < 16) :
    (tileMask first last).getLsbD q = decide (first ≤ q ∧ q ≤ last) := by
  have shifted : 2 ^ (last + 1) - 2 ^ first = (2 ^ (last + 1 - first) - 1) <<< first := by
    rw [Nat.shiftLeft_eq, Nat.sub_mul, one_mul, ← Nat.pow_add, Nat.sub_add_cancel (by omega)]
  unfold tileMask
  rw [BitVec.getLsbD_ofNat, shifted, Nat.testBit_shiftLeft, Nat.testBit_two_pow_sub_one, decide_eq_true hq, Bool.true_and, Bool.decide_and]
  by_cases below : first ≤ q
  · have top : (q - first < last + 1 - first) = (q ≤ last) := propext (by omega)
    simp only [below, decide_true, Bool.true_and, top]
  · simp only [below, decide_false, Bool.false_and]

/-- A core whose tiles first to last hold one value, sampled scales due and no poison (R236). -/
def tilesFilled (c : Core) (v : BitVec 48) (first last : Nat) : Core :=
  { c with acc := fillTiles c.acc first last v, fresh := c.fresh ||| tileMask first last, poison := c.poison &&& ~~~(tileMask first last) }

theorem accz_waits {ring : Ring} {f l : BitVec 4} (bar : matrixBar s = none) (ready : ReadyC {} s) (busy : tilesBusy s f.toNat l.toNat = true) :
    exec (.accz ring f l) s = stallC s 100 := by
  rw [exec_accz, execAccz, bar]
  exact control_wait ready (if_pos busy)

theorem accz_fills {ring : Ring} {f l : BitVec 4} (bar : matrixBar s = none) (ready : ReadyC {} s) (free : tilesBusy s f.toNat l.toNat = false) :
    ∃ t, exec (.accz ring f l) s = .next t ∧ DoneC s (s.modC (fun c => tilesFilled c (identity ring) f.toNat l.toNat)) t {} 0 none := by
  rw [exec_accz, execAccz, bar]
  exact control_done ready (if_neg (Bool.eq_false_iff.1 free))

variable {c : Core} {v : BitVec 48} {first last q : Nat}

theorem tileAt_tilesFilled (ordered : first ≤ last) {row col : Nat} (hr : row < 32) (hc : col < 32) :
    tileAt (tilesFilled c v first last) q row col = if first ≤ q ∧ q ≤ last then v else tileAt c q row col := by
  have within : (1024 * first ≤ tileKey q row col ∧ tileKey q row col < 1024 * (last + 1)) ↔ (first ≤ q ∧ q ≤ last) := by
    unfold tileKey
    omega
  exact (look_fillTiles ordered ..).trans (if_congr within rfl rfl)

theorem fresh_tilesFilled (ordered : first ≤ last) (hq : q < 16) :
    (tilesFilled c v first last).fresh.getLsbD q = (decide (first ≤ q ∧ q ≤ last) || c.fresh.getLsbD q) := by
  unfold tilesFilled
  rw [BitVec.getLsbD_or, getLsbD_tileMask ordered hq, Bool.or_comm]

theorem poison_tilesFilled (ordered : first ≤ last) (hq : q < 16) :
    (tilesFilled c v first last).poison.getLsbD q = (!decide (first ≤ q ∧ q ≤ last) && c.poison.getLsbD q) := by
  unfold tilesFilled
  rw [BitVec.getLsbD_and, BitVec.getLsbD_not, getLsbD_tileMask ordered hq, decide_eq_true hq, Bool.true_and, Bool.and_comm]

/-! ### `accrd` (R81, R231, R238) -/

/-- The word of `accrd`. -/
def accrdSpec (a b : Opnd) : CSpec := { srcs := [b], dst := some a, late := true, lanes := 16, fpm := true, mstat := true }

/-- Tile, row and half that the selector names. -/
def selTile (w : Word) : Nat := w.toNat % 16
def selRow (w : Word) : Nat := w.toNat / 16 % 32
def selCol (w : Word) (j : Nat) : Nat := 16 * (w.toNat / 512 % 2) + j

/-- Element j of the half row, converted. -/
def readElem (conv : Conv) (c : Core) (w : Word) (j : Nat) : Nat × Exc × Bool :=
  accConvert conv (fpmMode c.slot.fpm) (tileAt c (selTile w) (selRow w) (selCol w j)) (scaleOf c.scaleA (selTile w) (selRow w))
    (scaleOf c.scaleB (selTile w) (selCol w j))

/-- The sixteen of them, the row they make, and the flags that they raise. -/
def readElems (conv : Conv) (c : Core) (w : Word) : List (Nat × Exc × Bool) := (List.range 16).map (readElem conv c w)
def readRow (conv : Conv) (c : Core) (w : Word) : Row := rowOf 32 16 (fun j => ((readElems conv c w).getD j (0, Exc.none, false)).1)
def readFpm (conv : Conv) (c : Core) (w : Word) : Word :=
  fpmRaise c.slot.fpm ((readElems conv c w).foldl (fun e r => e.or r.2.1) Exc.none)
def readMstat (conv : Conv) (c : Core) (w : Word) : Word :=
  if (readElems conv c w).any (fun r => r.2.2) then c.mstat ||| mstatCSAT else c.mstat

variable {conv : Conv} {a b : Opnd} {w : Word}

theorem readTile_waits (fed : tileFed s (selTile w) = true) : readTile conv a w s = .wait 100 s := if_pos fed

theorem readTile_poisoned (settled : tileFed s (selTile w) = false) (poison : s.core.poison.getLsbD (selTile w) = true) :
    ∃ fa, readTile conv a w s =
      .go ((mchkStop (takeFree s).2 s.core.slot.kern s.core.id s.core.hvNow (ctxOf s.core.hdr) s.core.slot.proc (6 <<< 17 ||| 512) fa).modC
        (fun c => issueLate c a 16 (some 0) accKey)) 0 none :=
  ⟨_, (if_neg (Bool.eq_false_iff.1 settled)).trans (if_pos poison)⟩

theorem readTile_reads (settled : tileFed s (selTile w) = false) (good : s.core.poison.getLsbD (selTile w) = false) : readTile conv a w s =
    .go (s.modC (fun c => issueLate { c with mstat := readMstat conv s.core w, slot := { c.slot with fpm := readFpm conv s.core w } } a 16
      (some (readRow conv s.core w)) accKey)) 0 none :=
  (if_neg (Bool.eq_false_iff.1 settled)).trans (if_neg (Bool.eq_false_iff.1 good))

theorem lane_readRow (c : Core) {j : Nat} (hj : j < 16) : (lane (readRow conv c w) j).toNat = (readElem conv c w j).1 % 2 ^ 32 := by
  have element : (readElems conv c w).getD j (0, Exc.none, false) = readElem conv c w j := by
    unfold readElems
    rw [List.getD_eq_getElem _ _ (by simpa using hj), List.getElem_map, List.getElem_range]
  rw [toNat_lane, readRow, elem_rowOf 32 16 _ j hj (by decide), element]

theorem readMstat_eq (c : Core) : readMstat conv c w =
    if (∃ j, j < 16 ∧ (readElem conv c w j).2.2 = true) then c.mstat ||| 4 else c.mstat := by
  have saturates : ((readElems conv c w).any (fun r => r.2.2) = true) = ∃ j, j < 16 ∧ (readElem conv c w j).2.2 = true := by
    simp [readElems]
  unfold readMstat
  simp only [saturates]
  rfl

theorem exec_accrd_course (bar : matrixBar s = none) : exec (.accrd conv a b) s =
    control (.accrd conv a b) (accrdSpec a b) (fun rs s => readTile conv a (lane (nth rs 0) 0) s) s := by
  rw [exec_accrd, execAccrd, bar]
  rfl

end

end Sys2Proof.Machine
end

section
/-! PROOFS. `mgang`: its checks, its post, and the settling of the matrix instructions (O34). -/

namespace Sys2Proof.Machine

/-! ### The checks of an `mgang` (R224, R228) -/

section
variable {s : State} {g : GangWord} {x y v : Nat}

/-- MASK leaves the core out, or names a core that is absent. -/
def MemberAbsent (s : State) (g : GangWord) : Prop :=
  g.mask.getLsbD (coreOf s.core.id) = false ∨
    ∃ c, c < 8 ∧ g.mask.getLsbD c = true ∧ coreHere s (coreWord (ownPkg s) (clIdx s.core.id) c) = false

theorem memberAbsent_iff : (!g.mask.getLsbD (coreOf s.core.id) || g.cores.any (fun k => !coreHere s (clCore s (clIdx s.core.id) k))) = true ↔
    MemberAbsent s g := by
  simp [MemberAbsent, GangWord.cores, clCore]

/-- The first byte of n bytes from v up that local memory does not hold. -/
def localOffence (v n : Nat) : Option Nat := if v < 0x60000 then (if v + n ≤ 0x60000 then none else some 0x60000) else some v

/-- The same for an A range, which may lie in the weight-store slice. -/
def aOffence (v n : Nat) : Option Nat :=
  if 0x1000000 ≤ v ∧ v < 0x1A00000 then (if v + n ≤ 0x1A00000 then none else some 0x1A00000) else localOffence v n

theorem rangeOutside_local (v n : Nat) : rangeOutside [localRange] v n = localOffence v n := by
  unfold rangeOutside localOffence localRange
  by_cases within : v < 0x60000
  · simp [within]
  · simp [within]

theorem rangeOutside_a (v n : Nat) : rangeOutside [localRange, sliceRange] v n = aOffence v n := by
  unfold rangeOutside aOffence localOffence localRange sliceRange
  by_cases slice : 0x1000000 ≤ v ∧ v < 0x1A00000
  · simp [slice, show ¬ v < 0x60000 by omega]
  · by_cases within : v < 0x60000
    · simp [within, slice]
    · simp [within, slice]

theorem lowest_none {p q : Option Nat} (hp : p = none) (hq : q = none) : lowest p q = none := by rw [hp, hq]; rfl

theorem lowest_least {p q : Option Nat} (least : (p = some v ∨ q = some v) ∧ ∀ w, p = some w ∨ q = some w → v ≤ w) : lowest p q = some v := by
  obtain ⟨attained, lower⟩ := least
  cases p with
  | none => exact attained.resolve_left nofun
  | some i =>
    cases q with
    | none => exact attained.resolve_right nofun
    | some j =>
      have hi := lower i (.inl rfl)
      have hj := lower j (.inr rfl)
      simp only [Option.some.injEq] at attained
      exact congrArg some (by omega)

/-- The members of the gang are there, and the operands are aligned. -/
structure GangPlaced (s : State) (g : GangWord) (x y : Nat) : Prop where
  here : ¬ MemberAbsent s g
  a : x % 64 = 0
  b : y % 64 = 0

theorem gangCheck_absent (absent : MemberAbsent s g) : gangCheck s g x y = some (mkTrap 0x0C (2 <<< 9) 0) := if_pos (memberAbsent_iff.2 absent)

theorem gangCheck_alA (here : ¬ MemberAbsent s g) (off : x % 64 ≠ 0) : gangCheck s g x y = some (mkTrap 0x05 0 x) :=
  (if_neg fun h => here (memberAbsent_iff.1 h)).trans (if_pos off)

theorem gangCheck_alB (here : ¬ MemberAbsent s g) (even : x % 64 = 0) (off : y % 64 ≠ 0) : gangCheck s g x y = some (mkTrap 0x05 0 y) :=
  (if_neg fun h => here (memberAbsent_iff.1 h)).trans ((if_neg (not_not.2 even)).trans (if_pos off))

/-- The checks of the ranges of a gang that is placed. -/
theorem gangCheck_placed (placed : GangPlaced s g x y) : gangCheck s g x y =
    match lowest (aOffence x g.aSize) (localOffence y g.bSize) with
    | some v => some (mkTrap 0x03 (1 <<< 10) v)
    | none =>
      if anyFresh s.core g then
        match lowest (localOffence (sclaAt s.core) 128) (localOffence (sclbAt s.core) 1024) with
        | some v => some (mkTrap 0x03 (1 <<< 10) v)
        | none => none
      else none := by
  obtain ⟨here, a, b⟩ := placed
  unfold gangCheck
  dsimp only
  rw [if_neg (fun h => here (memberAbsent_iff.1 h)), if_neg (not_not.2 a), if_neg (not_not.2 b)]
  simp only [rangeOutside_a, rangeOutside_local]
  rfl

theorem gangCheck_range (placed : GangPlaced s g x y) (beyond : lowest (aOffence x g.aSize) (localOffence y g.bSize) = some v) :
    gangCheck s g x y = some (mkTrap 0x03 (1 <<< 10) v) := by rw [gangCheck_placed placed, beyond]

theorem gangCheck_scales (placed : GangPlaced s g x y) (inside : lowest (aOffence x g.aSize) (localOffence y g.bSize) = none)
    (fresh : anyFresh s.core g = true) (beyond : lowest (localOffence (sclaAt s.core) 128) (localOffence (sclbAt s.core) 1024) = some v) :
    gangCheck s g x y = some (mkTrap 0x03 (1 <<< 10) v) := by rw [gangCheck_placed placed, inside, fresh, beyond]; rfl

theorem anyFresh_iff {c : Core} : anyFresh c g = true ↔ ∃ j ∈ g.cores, c.fresh.getLsbD (g.base.toNat + j) = true := by
  simp [anyFresh, GangWord.tiles]

end

/-! ### Where an `mgang` stands (R225, R235) -/

section
variable {s : State} {g : GangWord} {x y m : Nat} {es : List (Nat × Nat)}

/-- The state with the gang state of its current slot set. -/
def withGang (s : State) (h : GangSt) : State := s.modS (fun z => { z with gang := h })

theorem withGang_same {h : GangSt} (same : s.core.slot.gang = h) : withGang s h = s := by subst same; rfl

theorem gangStep_started (h : s.core.slot.gang = .started) : gangStep g x y s = .go (withGang s .idle) 0 none := by
  simp only [gangStep, h]; rfl
theorem gangStep_posted (h : s.core.slot.gang = .posted) : gangStep g x y s = .wait 100 s := by
  simp only [gangStep, h]; rfl
theorem gangStep_clash (h : s.core.slot.gang = .clash m) : gangStep g x y s = .trap (withGang s .idle) (mkTrap 0x0C (1 <<< 9 ||| m <<< 13) 0) := by
  simp only [gangStep, h]; rfl
theorem gangStep_late (h : s.core.slot.gang = .late m) : gangStep g x y s = .trap (withGang s .idle) (mkTrap 0x0D (m <<< 13) 0) := by
  simp only [gangStep, h]; rfl
theorem gangStep_regd (h : s.core.slot.gang = .regd es) : gangStep g x y s = postGang g x y es s := by
  simp only [gangStep, h]
theorem gangStep_fails (h : s.core.slot.gang = .idle) {t : Trap} (fails : gangCheck s g x y = some t) : gangStep g x y s = .trap s t := by
  simp only [gangStep, h, fails]

/-- What an `mgang` waits for before it registers its ranges. -/
theorem gangStep_held (h : s.core.slot.gang = .idle) (good : gangCheck s g x y = none)
    (held : acqHeld s = true ∨ storeHeld s (gangReads s.core g x y) = true) : gangStep g x y s = .wait 100 s := by
  simp only [gangStep, h, good]
  exact if_pos (by rcases held with held | held <;> simp [held])

theorem gangStep_registers (h : s.core.slot.gang = .idle) (good : gangCheck s g x y = none) (acq : acqHeld s = false)
    (stores : storeHeld s (gangReads s.core g x y) = false) (unlocked : rltReadLocked s (gangRegs s g x y) = false)
    (room : rltRoom s (gangRegs s g x y) = true) : gangStep g x y s =
    postGang g x y (rltAdd (gangRegs s g x y) s).2 (withGang (rltAdd (gangRegs s g x y) s).1 (.regd (rltAdd (gangRegs s g x y) s).2)) := by
  simp only [gangStep, h, good, acq, stores, unlocked, room]
  rfl

end

/-! ### The post (R225, R226) -/

/-- A post and g name one another's cores, so that they are compared. -/
def Meets (s : State) (g : GangWord) (q : Post) : Prop := g.mask.getLsbD q.core = true ∨ q.ext.mask.getLsbD (coreOf s.core.id) = true

/-- The core may post: fewer than two started operations of it have not retired, and no post of it is pending. -/
def MayPost (s : State) : Prop :=
  startedOps (ownUnit s) (coreOf s.core.id) < 2 ∧ ∀ q ∈ (ownUnit s).posts, q.core ≠ coreOf s.core.id

/-- The post of an `mgang`. -/
def postOf (s : State) (g : GangWord) (x y : Nat) (es : List (Nat × Nat)) : Post :=
  { core := coreOf s.core.id, ext := g, a := x, b := y, at_ := s.core.cycle.toNat, kern := s.core.slot.kern, ctxid := ctxOf s.core.hdr,
    proc := s.core.slot.proc, rlt := es }

section
variable {s : State} {g : GangWord} {x y : Nat} {es : List (Nat × Nat)}

theorem mayPost_iff : MayPost s ↔
    ¬ (decide (2 ≤ startedOps (ownUnit s) (coreOf s.core.id)) || (ownUnit s).posts.any (fun p => p.core == coreOf s.core.id)) = true := by
  simp [MayPost]

/-- The posts that a new one is compared with. -/
def metPosts (s : State) (g : GangWord) : List Post :=
  (ownUnit s).posts.filter (fun p => g.mask.getLsbD p.core || p.ext.mask.getLsbD (coreOf s.core.id))

theorem mem_metPosts {q : Post} : q ∈ metPosts s g ↔ q ∈ (ownUnit s).posts ∧ Meets s g q := by simp [metPosts, Meets]

/-- The cores that a comparison traps. -/
def clashCores (s : State) (g : GangWord) : List Nat := coreOf s.core.id :: (metPosts s g).map Post.core

theorem mem_clashCores {c : Nat} : c ∈ clashCores s g ↔ c = coreOf s.core.id ∨ ∃ q ∈ (ownUnit s).posts, Meets s g q ∧ q.core = c := by
  simp [clashCores, mem_metPosts, and_assoc]

theorem postGang_waits (full : ¬ MayPost s) : postGang g x y es s = .wait 100 s := if_pos (not_not.1 (mt mayPost_iff.2 full))

theorem postGang_posts (free : MayPost s) (agree : ∀ q ∈ (ownUnit s).posts, Meets s g q → q.ext = g) : postGang g x y es s =
    .wait 100 (setCl (withGang s .posted) { ownUnit s with posts := (ownUnit s).posts ++ [postOf s g x y es] }) := by
  have same : ¬ (metPosts s g).any (fun p => p.ext != g) = true := by
    simpa [mem_metPosts] using agree
  exact (if_neg (mayPost_iff.1 free)).trans (if_neg same)

/-- The state once the posts that met another EXT are withdrawn. -/
def clashed (s : State) (g : GangWord) (es : List (Nat × Nat)) : State :=
  withGang (withdraw (rltDrop s es) (clIdx s.core.id) (clashCores s g) (.clash (maskOf (clashCores s g)))) .idle

theorem postGang_clashes (free : MayPost s) (differs : ∃ q ∈ (ownUnit s).posts, Meets s g q ∧ q.ext ≠ g) : postGang g x y es s =
    .trap (clashed s g es) (mkTrap 0x0C (1 <<< 9 ||| maskOf (clashCores s g) <<< 13) 0) := by
  have other : (metPosts s g).any (fun p => p.ext != g) = true := by
    simpa [mem_metPosts, and_assoc] using differs
  exact (if_neg (mayPost_iff.1 free)).trans (if_pos other)

theorem testBit_maskOf (l : List Nat) (c : Nat) : (maskOf l).testBit c = true ↔ c ∈ l := by
  have folded : ∀ m : Nat, (l.foldl (fun m c => m ||| 2 ^ c) m).testBit c = true ↔ m.testBit c = true ∨ c ∈ l := by
    induction l with
    | nil => simp
    | cons d l ih =>
      intro m
      rw [List.foldl_cons, ih, Nat.testBit_or, Nat.testBit_two_pow, List.mem_cons, Bool.or_eq_true, decide_eq_true_eq, or_assoc, eq_comm (a := d)]
  simpa [maskOf] using folded 0

theorem clashed_mem : (clashed s g es).mem = s.mem := by
  unfold clashed withGang
  rw [modS_mem, withdraw_mem, rltDrop_mem]

theorem clashed_posts (q : Post) : q ∈ (getCl (clashed s g es) (clIdx s.core.id)).posts ↔ q ∈ (ownUnit s).posts ∧ q.core ∉ clashCores s g := by
  have before : (getCl (rltDrop s es) (clIdx s.core.id)).posts = (ownUnit s).posts := getCl_rltDrop_keeps Cluster.posts (fun _ _ => rfl) _ _
  have left : (getCl (clashed s g es) (clIdx s.core.id)).posts = (ownUnit s).posts.filter (fun p => !(clashCores s g).contains p.core) :=
    withdraw_posts.trans (by rw [before])
  simp [left]

theorem ownerGang_withGang {h : GangSt} {w : Word} (other : w ≠ s.core.id) : ownerGang (withGang s h) w = ownerGang s w := by
  unfold ownerGang getCore
  rw [if_neg (show ¬ (withGang s h).core.id = w from other.symm), if_neg other.symm]
  rfl

/-- A core whose post a comparison has withdrawn reports the mask of those that it met. -/
theorem clashed_told {q : Post} (pending : q ∈ (ownUnit s).posts) (met : Meets s g q)
    (posted : ownerGang s (clCore s (clIdx s.core.id) q.core) = .posted) (other : clCore s (clIdx s.core.id) q.core ≠ s.core.id) :
    ownerGang (clashed s g es) (clCore s (clIdx s.core.id) q.core) = .clash (maskOf (clashCores s g)) := by
  have before : (getCl (rltDrop s es) (clIdx s.core.id)).posts = (ownUnit s).posts := getCl_rltDrop_keeps Cluster.posts (fun _ _ => rfl) _ _
  have dropped : (rltDrop s es).core.id = s.core.id := by rw [rltDrop_frame]
  have still : ownerGang (rltDrop s es) (clCore s (clIdx s.core.id) q.core) = .posted :=
    (congrArg (fun c => c.owner.gang) (getCore_rltDrop s es)).trans posted
  have word : clCore (rltDrop s es) (clIdx s.core.id) q.core = clCore s (clIdx s.core.id) q.core :=
    congrArg (fun i => coreWord (pkgOf i) (clIdx s.core.id) q.core) dropped
  unfold clashed
  rw [ownerGang_withGang (by rw [withdraw_core_id, dropped]; exact other), ownerGang_withdraw, if_pos]
  exact ⟨still, q, before ▸ pending, mem_clashCores.2 (.inr ⟨q, pending, met, rfl⟩), word⟩

/-- v is s with ranges registered. -/
structure Registered (s v : State) : Prop where
  frame : v = { s with clusters := v.clusters }
  posts : (getCl v (clIdx s.core.id)).posts = (ownUnit s).posts
  ops : (getCl v (clIdx s.core.id)).ops = (ownUnit s).ops
  cores : ∀ w, getCore v w = getCore s w

theorem registered_self : Registered s s := ⟨rfl, rfl, rfl, fun _ => rfl⟩

theorem registered_rltAdd (rs : List Reg) : Registered s (rltAdd rs s).1 :=
  ⟨rltAdd_frame rs, getCl_rltAdd_keeps Cluster.posts (fun _ _ _ => rfl) _ _, getCl_rltAdd_keeps Cluster.ops (fun _ _ _ => rfl) _ _, getCore_rltAdd rs⟩

/-- What an `mgang` does at its post, its ranges registered in v: it posts; or it traps with the posts that it meets; or it waits. -/
structure PostsAs (i : Instr) (s v : State) (g : GangWord) (x y : Nat) (es : List (Nat × Nat)) : Prop where
  posts : MayPost s → (∀ q ∈ (ownUnit s).posts, Meets s g q → q.ext = g) → exec i s =
    stallC (setCl (withGang v .posted) { getCl v (clIdx s.core.id) with posts := (ownUnit s).posts ++ [postOf s g x y es] }) 100
  clashes : MayPost s → (∃ q ∈ (ownUnit s).posts, Meets s g q ∧ q.ext ≠ g) →
    ∃ w t m, exec i s = .next (trapped i w (mkTrap 0x0C (1 <<< 9 ||| m <<< 13) 0)) ∧ t = getCl w (clIdx s.core.id) ∧
      (∀ q, q ∈ t.posts ↔ q ∈ (ownUnit s).posts ∧ ∀ k ∈ (ownUnit s).posts, Meets s g k → k.core ≠ q.core) ∧ w.core.slot.gang = .idle ∧ w.mem = s.mem ∧
      (∀ c, m.testBit c = true ↔ c = coreOf s.core.id ∨ ∃ q ∈ (ownUnit s).posts, Meets s g q ∧ q.core = c) ∧
      ∀ q ∈ (ownUnit s).posts, Meets s g q → q.core < 8 → ownerGang s (clCore s (clIdx s.core.id) q.core) = .posted →
        ownerGang w (clCore s (clIdx s.core.id) q.core) = .clash m
  waits : ¬ MayPost s → exec i s = stallC (withGang v (.regd es)) 100

/-- The current core, whose `mgang` has no post pending, is none of those that have. -/
theorem posted_other (owner : s.core.hvNow = false) (unposted : s.core.slot.gang ≠ .posted) {w : Word} (posted : ownerGang s w = .posted) :
    w ≠ s.core.id := by
  rintro rfl
  rw [ownerGang, getCore_own, owner_ofOwner owner] at posted
  exact unposted posted

theorem control_postsAs {i : Instr} {p : CSpec} {f : List Row → State → CRes} {v : State} (ready : ReadyC p s) (owner : s.core.hvNow = false)
    (unposted : s.core.slot.gang ≠ .posted) (registered : Registered s v) (course : exec i s = control i p f s)
    (effect : f (readAll (readC s.core) p.srcs []) s = postGang g x y es (withGang v (.regd es))) : PostsAs i s v g x y es := by
  obtain ⟨frame, posts, ops, cores⟩ := registered
  obtain ⟨k, rfl⟩ : ∃ k, v = { s with clusters := k } := ⟨_, frame⟩
  let z := withGang { s with clusters := k } (.regd es)
  have unit : (ownUnit z).posts = (ownUnit s).posts := posts
  have started : startedOps (ownUnit z) (coreOf s.core.id) = startedOps (ownUnit s) (coreOf s.core.id) := by
    unfold startedOps
    rw [show (ownUnit z).ops = (ownUnit s).ops from ops]
  have may : MayPost z ↔ MayPost s := by
    unfold MayPost
    rw [show coreOf z.core.id = coreOf s.core.id from rfl, started, unit]
  refine ⟨fun free agree => ?_, fun free differs => ?_, fun full => ?_⟩
  · have sends := postGang_posts (s := z) (g := g) (x := x) (y := y) (es := es) (may.2 free) (by rw [unit]; exact agree)
    rw [unit] at sends
    exact course.trans (control_wait ready (effect.trans sends))
  · have traps := postGang_clashes (s := z) (g := g) (x := x) (y := y) (es := es) (may.2 free) (by rw [unit]; exact differs)
    have cores' : ∀ c, c ∈ clashCores z g ↔ c = coreOf s.core.id ∨ ∃ q ∈ (ownUnit s).posts, Meets s g q ∧ q.core = c := fun c => by
      rw [mem_clashCores, unit]
      rfl
    refine ⟨_, _, _, course.trans (control_trap ready (effect.trans traps)), rfl, fun q => ?_, rfl, clashed_mem, fun c => ?_, fun q pending met _ posted => ?_⟩
    · refine (clashed_posts q).trans ?_
      rw [unit, cores']
      refine ⟨fun ⟨pending, kept⟩ => ⟨pending, fun r hr met same => kept (.inr ⟨r, hr, met, same⟩)⟩, fun ⟨pending, kept⟩ => ⟨pending, ?_⟩⟩
      rintro (own | ⟨r, hr, met, same⟩)
      · exact free.2 q pending own
      · exact kept r hr met same
    · exact (testBit_maskOf _ _).trans (cores' c)
    · have other := posted_other owner unposted posted
      have still : ownerGang z (clCore s (clIdx s.core.id) q.core) = .posted :=
        (ownerGang_withGang (s := { s with clusters := k }) other).trans ((congrArg (fun c => c.owner.gang) (cores _)).trans posted)
      exact clashed_told (s := z) (unit ▸ pending) met still other
  · exact course.trans (control_wait ready (effect.trans (postGang_waits fun h => full (may.1 h))))

end

/-! ### The obligation -/

section
variable {a b : Opnd} {g : GangWord} {s : State}

/-- The addresses that an `mgang` is given. -/
def aAddr (s : State) (a b : Opnd) : Nat := (argC0 s { srcs := [a, b] } 0).toNat
def bAddr (s : State) (a b : Opnd) : Nat := (argC0 s { srcs := [a, b] } 1).toNat

theorem exec_mgang_course (bar : matrixBar s = none) : exec (.mgang a b g) s =
    control (.mgang a b g) { srcs := [a, b] } (fun rs s => gangStep g (lane (nth rs 0) 0).toNat (lane (nth rs 1) 0).toNat s) s := by
  rw [exec_mgang, execMgang, bar]

theorem mgang_done {s1 : State} (bar : matrixBar s = none) (ready : ReadyC { srcs := [a, b] } s)
    (effect : gangStep g (aAddr s a b) (bAddr s a b) s = .go s1 0 none) :
    ∃ t, exec (.mgang a b g) s = .next t ∧ DoneC s s1 t { srcs := [a, b] } 0 none := by
  rw [exec_mgang_course bar]
  exact control_done ready effect

theorem mgang_waits {s1 : State} (bar : matrixBar s = none) (ready : ReadyC { srcs := [a, b] } s)
    (effect : gangStep g (aAddr s a b) (bAddr s a b) s = .wait 100 s1) : exec (.mgang a b g) s = stallC s1 100 :=
  (exec_mgang_course bar).trans (control_wait ready effect)

theorem mgang_traps {s1 : State} {t : Trap} (bar : matrixBar s = none) (ready : ReadyC { srcs := [a, b] } s)
    (effect : gangStep g (aAddr s a b) (bAddr s a b) s = .trap s1 t) : exec (.mgang a b g) s = .next (trapped (.mgang a b g) s1 t) :=
  (exec_mgang_course bar).trans (control_trap ready effect)

theorem mgang_fails {t : Trap} (bar : matrixBar s = none) (ready : ReadyC { srcs := [a, b] } s) (idle : s.core.slot.gang = .idle)
    (fails : gangCheck s g (aAddr s a b) (bAddr s a b) = some t) : exec (.mgang a b g) s = .next (trapped (.mgang a b g) s t) :=
  mgang_traps bar ready (gangStep_fails idle fails)

end

/-- Settles O34: the bar of the four instructions; the plane count; the tiles filled, and read; and `mgang` by where it stands, its checks in
their order and its post. -/
theorem matrixResults : Obligations.MatrixResults := by
  unfold Obligations.MatrixResults
  refine ⟨fun i a b g ring f l conv s hi free => ⟨fun harvest => matrix_barred hi free (matrixBar_harvest harvest),
    fun owner pair => matrix_barred hi free (matrixBar_paired owner pair)⟩, fun a s owner single ready => ?_,
    fun ring f l s owner single ready => ?_, ?_, ?_⟩
  · obtain ⟨t, run, done⟩ := mcode_done (matrixBar_none owner single) ready
    obtain ⟨one, codes, fewest⟩ := planes_rule (codeTable (argC s { srcs := [a] } 0)).toList
    refine ⟨t, _, _, run, done, rfl, codeTable_get _, one, fun e => codes _ ((mem_codeTable _ _).2 ⟨e, rfl⟩), fun several => ?_⟩
    obtain ⟨b, hb, short⟩ := fewest several
    obtain ⟨e, rfl⟩ := (mem_codeTable _ _).1 hb
    exact ⟨e, short⟩
  · have bar := matrixBar_none owner single
    refine ⟨accz_waits bar ready, fun ordered free => ?_⟩
    obtain ⟨t, run, done⟩ := accz_fills (ring := ring) bar ready free
    refine ⟨t, _, run, done, rfl, fun q r c _ hr hc => ?_, fun q hq => ⟨fresh_tilesFilled ordered hq, poison_tilesFilled ordered hq⟩⟩
    refine (tileAt_tilesFilled ordered hr hc).trans ?_
    cases ring <;> rfl
  · intro conv a b s owner single p ready w q one
    have course := exec_accrd_course (conv := conv) (a := a) (b := b) (matrixBar_none owner single)
    refine ⟨fun fed => course.trans (control_wait ready (readTile_waits fed)), fun settled poison => ?_, fun settled good => ?_⟩
    · obtain ⟨fa, lands⟩ := readTile_poisoned (conv := conv) (a := a) settled poison
      rw [owner] at lands
      obtain ⟨t, run, done⟩ := control_done (i := .accrd conv a b) (f := fun rs s => readTile conv a (lane (nth rs 0) 0) s) ready lands
      exact ⟨t, fa, course.trans run, done⟩
    · obtain ⟨t, run, done⟩ := control_done (i := .accrd conv a b) (f := fun rs s => readTile conv a (lane (nth rs 0) 0) s) ready
        (readTile_reads settled good)
      exact ⟨t, _, _, _, course.trans run, done, fun j hj => lane_readRow _ hj, ⟨_, rfl⟩, readMstat_eq _⟩
  · intro a b g s owner single ready p x y idle u me
    have bar := matrixBar_none owner single
    refine ⟨fun h => mgang_done bar ready (gangStep_started h), fun h => mgang_waits bar ready (gangStep_posted h),
      fun m h => mgang_traps bar ready (gangStep_clash h), fun m h => mgang_traps bar ready (gangStep_late h), ?_⟩
    intro absent near offA fresh least addr post met free posts
    have post_of {v : State} {es : List (Nat × Nat)} (unposted : s.core.slot.gang ≠ .posted) (registered : Registered s v)
        (effect : gangStep g x y s = postGang g x y es (withGang v (.regd es))) : posts v es := by
      obtain ⟨sends, clashes, waits⟩ := control_postsAs ready owner unposted registered (exec_mgang_course bar) effect
      exact ⟨sends, clashes, waits⟩
    refine ⟨fun h => ⟨fun gone => mgang_fails bar ready h (gangCheck_absent gone), fun here => ⟨fun off => mgang_fails bar ready h (gangCheck_alA here off),
      fun even off => mgang_fails bar ready h (gangCheck_alB here even off), fun evenA evenB => ?_⟩⟩, fun es h => ?_, fun h good unlocked room => ?_⟩
    · have placed : GangPlaced s g x y := ⟨here, evenA, evenB⟩
      exact ⟨fun v beyond => mgang_fails bar ready h (gangCheck_range placed (lowest_least beyond)), fun v insideA insideB new beyond =>
        mgang_fails bar ready h (gangCheck_scales placed (lowest_none insideA insideB) (anyFresh_iff.2 new) (lowest_least beyond))⟩
    · exact post_of (by rw [h]; exact nofun) registered_self ((gangStep_regd h).trans (by rw [withGang_same h]))
    · exact ⟨fun held => mgang_waits bar ready (gangStep_held h good held), fun acq stores =>
        post_of (by rw [h]; exact nofun) (registered_rltAdd _) (gangStep_registers h good acq stores unlocked room)⟩

end Sys2Proof.Machine
end

section
/-! PROOFS. `sti`: the plain store, the traps of an imaged one, and its images (O37). -/

namespace Sys2Proof.Machine

/-! ### The held accesses beside a store (R141, R150) -/

section
variable {s : State} {bs : List Byte} {ord : Ord} {scp : Scp} {ea : Nat} {l : List Spot}

theorem coreWrite_held (s : State) (p : Place) (bs : List Byte) : (coreWrite s p bs).held = s.held := by
  have undo : (undoKept s p bs.length).held = s.held := by
    unfold undoKept
    split
    · exact (logUndo_keeps s s.core.id p bs.length s.core.id).1
    · rfl
  exact (congrArg State.held (kWrite_frame (undoKept s p bs.length) ..)).trans undo

theorem writeSpots_held (l : List Spot) (bs : List Byte) (s : State) : (writeSpots l bs s).held = s.held := by
  induction l generalizing bs s with
  | nil => rfl
  | cons p ps ih => exact (ih _ _).trans (coreWrite_held ..)

theorem reached_held (s : State) (k : AKind) (n ea : Nat) : (reached s k n ea).held = s.held := by
  obtain ⟨atc, same⟩ := reached_own s k n ea
  rw [same]

/-- A store that has been performed is not held, and one that something holds back comes last. -/
theorem stored_held : (stored s bs scp ea l).held = s.held :=
  (writeSpots_held l bs (storeBase s bs.length scp ea l)).trans (reached_held ..)
theorem heldStore_held_last : (heldStore s bs ord scp ea l).held =
    s.held ++ [{ blankHeld (reached s .store bs.length ea) l .store ord scp with store := some bs }] := by
  rw [← reached_held s .store bs.length ea]
  exact cutStop_held ..

end

/-! ### Where the images of a store go (R191, R249) -/

section
variable {imgs : List Img} {s u : State}

/-- The images of a store that has been performed are due in the mould of its cluster. -/
theorem queueImages_due (performed : u.held = s.held) :
    queueImages imgs s u = modCl u (clIdx u.core.id) (fun c => { c with imgs := c.imgs ++ imgs }) :=
  if_pos (congrArg List.length performed)

/-- Those of a held store are kept with it. -/
theorem queueImages_kept {h : Held} (last : u.held = s.held ++ [h]) :
    queueImages imgs s u = { u with held := s.held ++ [{ h with imgs := imgs }] } := by
  have longer : ¬ u.held.length = s.held.length := by simp [last]
  have earlier : s.held.mapIdx (fun i h => if i = s.held.length then { h with imgs := imgs } else h) = s.held :=
    List.ext_getElem (List.length_mapIdx ..) fun i hi _ => by
      rw [List.length_mapIdx] at hi
      rw [List.getElem_mapIdx, if_neg hi.ne]
  rw [queueImages, if_neg longer, last, List.mapIdx_concat, earlier, if_pos rfl]

end

/-! ### The row of an imaged store (R244, R248) -/

/-- The 64-byte row at ea meets the imaged output, and lies inside it. -/
def RowMeets (l : ImgLatch) (ea : Nat) : Prop := ¬ (ea + 63 < l.out.base ∨ l.out.base + l.out.size ≤ ea)
def RowInside (l : ImgLatch) (ea : Nat) : Prop := ¬ (ea < l.out.base ∨ l.out.base + l.out.size ≤ ea + 63)

/-- An element of the row lies in another tile than the handler's. -/
def RowStrays (l : ImgLatch) (ea : Nat) : Prop :=
  let o := l.out
  let first := (ea - o.base) / o.esize
  ∃ k, k < 64 / o.esize ∧ ((first + k) / (o.x1 * o.x2) / o.t0 ≠ l.i0 ∨ (first + k) / o.x2 % o.x1 / o.t1 ≠ l.i1 ∨ (first + k) % o.x2 / o.t2 ≠ l.i2)

/-- What the addresses of an imaged store translate to: the row's, then those of its images. -/
def imageTrs (s : State) (l : ImgLatch) (ea : Nat) (r : Row) : List (Nat × Tr) :=
  (ea, resolve s (who s) .store ea) :: (imageWrites l ea r).map (fun w => (w.1, resolve s (who s) .store w.1))

section
variable {r : Row} {ord : Ord} {scp : Scp} {ea : Nat} {s : State} {l : ImgLatch}

theorem RowInside.meets (inside : RowInside l ea) : RowMeets l ea := by
  unfold RowInside at inside
  unfold RowMeets
  omega

/-- The model's own test for an element in another tile. -/
theorem rowStrays_iff : ((List.range (64 / l.out.esize)).any (fun k =>
    !((l.out.elemAt ((ea - l.out.base) / l.out.esize + k)).x0 / l.out.tile.x0 == l.i0 &&
      (l.out.elemAt ((ea - l.out.base) / l.out.esize + k)).x1 / l.out.tile.x1 == l.i1 &&
      (l.out.elemAt ((ea - l.out.base) / l.out.esize + k)).x2 / l.out.tile.x2 == l.i2))) = true ↔ RowStrays l ea := by
  simp only [List.any_eq_true, List.mem_range, Bool.not_eq_true', Bool.and_eq_false_iff, beq_eq_false_iff_ne, or_assoc]
  rfl

/-- Away from the imaged output, `sti` is a plain store. -/
theorem imagedStore_plain (plain : s.core.slot.latch = none ∨
      ∃ l, s.core.slot.latch = some l ∧ (ea + 63 < l.out.base ∨ l.out.base + l.out.size ≤ ea)) :
    imagedStore r ord scp ea s = storeAt (rowBytes r 64) ord scp ea s := by
  obtain latch | ⟨l, latch, away⟩ := plain
  · rw [imagedStore, latch]
  · simp only [imagedStore, latch, Bool.or_eq_true, decide_eq_true_eq, if_pos away]

theorem imagedStore_straddles (latch : s.core.slot.latch = some l) (meets : RowMeets l ea) (out : ¬ RowInside l ea) :
    imagedStore r ord scp ea s = .trap s (mkTrap 0x03 (1 <<< 14 ||| infoDESC) ea) := by
  simp only [RowInside, not_not] at out
  simp only [imagedStore, latch, Bool.or_eq_true, decide_eq_true_eq, if_neg meets, if_pos out]
  rfl

theorem imagedStore_strays (latch : s.core.slot.latch = some l) (inside : RowInside l ea) (strays : RowStrays l ea) :
    imagedStore r ord scp ea s = .trap s (mkTrap 0x03 (2 <<< 14 ||| infoDESC) ea) := by
  simp only [imagedStore, latch, Bool.or_eq_true, decide_eq_true_eq, if_neg inside.meets, if_neg inside, if_pos (rowStrays_iff.2 strays)]
  rfl

theorem imagedStore_misaligned (latch : s.core.slot.latch = some l) (inside : RowInside l ea) (stays : ¬ RowStrays l ea) (odd : ea % 64 ≠ 0) :
    imagedStore r ord scp ea s = .trap s (mkTrap 0x05 infoWRO ea) := by
  simp only [imagedStore, latch, Bool.or_eq_true, decide_eq_true_eq, if_neg inside.meets, if_neg inside,
    if_neg (mt rowStrays_iff.1 stays), if_pos odd]
  rfl

/-- Where every address is good, the row is stored as by a plain store, and its images are queued. -/
theorem imagedStore_stores {u : State} (latch : s.core.slot.latch = some l) (inside : RowInside l ea) (stays : ¬ RowStrays l ea)
    (even : ea % 64 = 0) (good : checkAll s (imageTrs s l ea r) = none)
    (effect : storeAt (rowBytes r 64) ord scp ea s = .go u 0 none ∨ storeAt (rowBytes r 64) ord scp ea s = .out u 0) :
    let v := queueImages (dueImages s scp (imageWrites l ea r)) s u
    imagedStore r ord scp ea s = .go v 0 none ∨ imagedStore r ord scp ea s = .out v 0 := by
  rw [imageTrs] at good
  simp only [imagedStore, latch, Bool.or_eq_true, decide_eq_true_eq, if_neg inside.meets, if_neg inside, if_neg (mt rowStrays_iff.1 stays),
    if_neg (not_not.2 even), good]
  obtain effect | effect := effect
  · exact .inl (by rw [effect])
  · exact .inr (by rw [effect])

end

section
variable {a b : Opnd} {off : BitVec 5} {ord : Ord} {scp : Scp} {ext : Word} {i : Instr} {d : Word}

/-- Both forms of `sti` are the imaged store of A at the effective address (R144, R248). -/
theorem sti_exec (form : (i, d) ∈ [(Instr.sti a b off ord scp, BitVec.ofNat 32 (64 * off.toNat)), (Instr.stiLone a b ord scp ext, ext)])
    (s : State) : exec i s = control i { srcs := [a, b] } (fun rs => imagedStore (nth rs 0) ord scp (eaCM (lane (nth rs 1) 0) d)) s := by
  have offset : BitVec.ofNat 32 (64 * off.toNat) = scaled off 64 := by rw [scaled, Nat.mul_comm]
  simp only [List.mem_cons, List.not_mem_nil, or_false, Prod.mk.injEq, offset] at form
  obtain ⟨rfl, rfl⟩ | ⟨rfl, rfl⟩ := form
  · exact exec_sti ..
  · exact exec_stiLone ..

end

/-- Settles O37: away from the output, across its bounds, outside the tile, misaligned, stored, and held. -/
theorem imagedStoreResults : Obligations.ImagedStoreResults := by
  unfold Obligations.ImagedStoreResults
  intro a b off ord scp ext i d s form p ready r ea plain
  have word := sti_exec form s
  have length : (rowBytes r 64).length = 64 := rowBytes_length r 64
  have issues {v : State} (effect : imagedStore r ord scp ea s = .go v 0 none ∨ imagedStore r ord scp ea s = .out v 0) :
      ∃ t, exec i s = .next t ∧ DoneC s v t p 0 none := word ▸ control_either ready effect
  refine ⟨fun q away reaches => ?_, fun l latch near => ?_⟩
  · have effect := storeAt_reaches (length.symm ▸ reaches)
    exact issues (imagedStore_plain away ▸ effect)
  intro o out first strays ws trs
  have meets : RowMeets l ea := fun away => near (.inr ⟨l, latch, away⟩)
  refine ⟨fun across => ?_, fun inside strays => ?_, fun inside stays odd => ?_, fun q inside stays even good => ⟨fun reaches => ?_,
    fun passes held _ => ?_⟩⟩
  · exact word.trans (control_trap ready (imagedStore_straddles latch meets (not_not.2 across)))
  · exact word.trans (control_trap ready (imagedStore_strays latch inside strays))
  · exact word.trans (control_trap ready (imagedStore_misaligned latch inside stays odd))
  · have effect := imagedStore_stores latch inside stays even good (storeAt_reaches (length.symm ▸ reaches))
    rw [queueImages_due stored_held] at effect
    exact issues effect
  · have effect := imagedStore_stores latch inside stays even good (storeAt_held (length.symm ▸ passes) (length.symm ▸ held))
    rw [queueImages_kept heldStore_held_last, length] at effect
    obtain ⟨t, run, done⟩ := issues effect
    exact ⟨t, _, run, done, rfl⟩

end Sys2Proof.Machine
end

section
/-! PROOFS. The walker, stops and completions of kernels, their signals and their limits (O51). -/

namespace Sys2Proof.Machine

/-! ### Queues by their number -/

section
variable {s : State} {q : Nat} {x : Queue} {f : Queue → Queue}

theorem queueById_id (found : queueById s q = some x) : x.id = q := by simpa using List.find?_some found

/-- An update of the queues that keeps their numbers is seen in the one found. -/
theorem queueById_map (keeps : ∀ y, (f y).id = y.id) (found : queueById s q = some x) :
    queueById { s with queues := s.queues.map f } q = some (f x) := by
  have same : (fun y : Queue => y.id == q) ∘ f = fun y => y.id == q := funext fun y => by rw [Function.comp_apply, keeps]
  rw [queueById] at found
  rw [queueById, List.find?_map, same, found, Option.map_some]

theorem queueById_modQueue (keeps : ∀ y, (f y).id = y.id) (found : queueById s q = some x) :
    queueById (modQueue s q f) q = some (f x) := by
  refine (queueById_map (fun y => ?_) found).trans (congrArg some (if_pos (queueById_id found)))
  split
  · exact keeps y
  · rfl

/-- CI moves, and the next record to start with it; what has retired and the queue's number stay (R283, R287). -/
theorem advanceCi_keeps (n : Nat) (x : Queue) : (advanceCi n x).id = x.id ∧ (advanceCi n x).retired = x.retired := by
  induction n generalizing x with
  | zero => exact ⟨rfl, rfl⟩
  | succ n ih =>
    rw [advanceCi]
    split
    · exact ih _
    · exact ⟨rfl, rfl⟩

/-- A record that retires is the last of those that have (R287). -/
theorem retire_retired (r : Retired) (found : queueById s q = some x) : ∃ y, queueById (retire s q r) q = some y ∧ y.retired = x.retired ++ [r] :=
  ⟨_, queueById_modQueue (fun _ => (advanceCi_keeps ..).1) found, (advanceCi_keeps ..).2⟩

/-- The queue of a kernel that starts goes on to the next record (R287). -/
theorem markStarted_next {k : KRef} (found : queueById s k.queue = some x) (gen : x.gen = k.gen) (ahead : (k.recNo - x.next).toNat < 2 ^ 31) :
    queueById (markStarted s k) k.queue = some { x with next := k.recNo + 1 } := by
  refine (queueById_map (fun y => ?_) found).trans (congrArg some (if_pos ⟨queueById_id found, gen, ahead⟩))
  split <;> rfl

end

/-! ### The walker (R243, R292) -/

section
variable {s u : State} {i : Nat} {w : Walker} {p : Part}

/-- The state once walker i, at its current point w, has k points issued and goes on: to its next point, or away after its last. -/
def walkerPast (u : State) (i : Nat) (w : Walker) (k : Nat) : State :=
  { u with walkers := if w.n0 * w.n1 * w.n2 ≤ w.at_ + 1 then u.walkers.eraseIdx i else u.walkers.set i { w with at_ := w.at_ + 1, issued := k } }

theorem walkerNext_eq (u : State) (i : Nat) (w : Walker) (k : Nat) : walkerNext u i w k = walkerPast u i w k := by
  unfold walkerNext walkerPast
  split <;> rfl

/-- The message of the walker's current point. -/
def walkerMsg (s : State) (w : Walker) (p : Part) : Msg := pointMsg w w.pt (placeOf s w p (s.kerns.any (fun k => k.ref == w.kern && k.pair)) w.pt)

/-- The i-th walker may act: its queue is in service, and no message of it waits at its source (R204, R294). -/
structure WalkerActs (s : State) (i : Nat) (w : Walker) : Prop where
  listed : s.walkers[i]? = some w
  serves : inService s w.kern = true
  free : walkerHeld s w = false

theorem walkerIssue_passes (acts : WalkerActs s i w) (other : canonical w.ext w.elems w.pt = false) :
    exec (.walkerIssue i) s = .next (walkerPast s i w w.issued) := by
  obtain ⟨listed, serves, free⟩ := acts
  simp only [exec_walkerIssue, execWalkerIssue, listed, serves, free, other, Bool.not_true, Bool.not_false, Bool.or_false, Bool.false_eq_true,
    if_false, if_true, walkerNext_eq]

section
variable (acts : WalkerActs s i w) (least : canonical w.ext w.elems w.pt = true) (part : partById s w.part = some p)

include acts least in
theorem walkerIssue_issues : exec (.walkerIssue i) s = .next ((issuePoint s i w).getD s) := by
  obtain ⟨listed, serves, free⟩ := acts
  simp only [exec_walkerIssue, execWalkerIssue, listed, serves, free, least, Bool.not_true, Bool.or_false, Bool.false_eq_true, if_false]

include acts least part

/-- A message that a core of this package refuses is tried again; one that all accept starts its record (R287). -/
theorem walkerIssue_refused {v : Word} (no : deliverAll (walkerMsg s w p) ((walkerMsg s w p).near s) s = .error v) :
    exec (.walkerIssue i) s = .next s := by
  rw [walkerMsg] at no
  simp only [walkerIssue_issues acts least, issuePoint, part, Option.bind_some, no, Option.getD_none]

theorem walkerIssue_accepted (yes : deliverAll (walkerMsg s w p) ((walkerMsg s w p).near s) s = .ok u)
    (here : ∀ v ∈ (walkerMsg s w p).dest, pkgOf v = ownPkg s) :
    exec (.walkerIssue i) s = .next (walkerPast (markStarted u w.kern) i w (w.issued + 1)) := by
  have near : (walkerMsg s w p).far s = false := Msg.far_eq_false here
  rw [walkerMsg] at yes near
  simp only [walkerIssue_issues acts least, issuePoint, part, Option.bind_some, yes, near, Bool.false_eq_true, if_false, Option.getD_some,
    walkerNext_eq]

/-- A message with a destination in another package goes out to it, where links lead there (R365; log 64). -/
theorem walkerIssue_goesFar (yes : deliverAll (walkerMsg s w p) ((walkerMsg s w p).near s) s = .ok u)
    (away : ∃ v ∈ (walkerMsg s w p).dest, pkgOf v ≠ ownPkg s)
    (up : ∀ v ∈ (walkerMsg s w p).dest, pkgOf v ≠ ownPkg s → linksCut s (linksTo s (pkgOf v)) = false) :
    exec (.walkerIssue i) s = .next (walkerPast { s with outbound := s.outbound ++ [walkerMsg s w p] } i w (w.issued + 1)) := by
  have far : (walkerMsg s w p).far s = true := Msg.far_eq_true away
  rw [← goFar_reached (Msg.farLinks_none up)]
  rw [walkerMsg] at yes far ⊢
  simp only [walkerIssue_issues acts least, issuePoint, part, Option.bind_some, yes, far, if_true, Option.getD_some, walkerNext_eq]

end

end

/-! ### Stops (R276, R277, R297) -/

section
variable {s : State} {r : StopReq} {rs : List StopReq}

/-- What the kiln writes for a queue leaves the kernels alone, and so does a fault record. -/
theorem kilnWrite_kerns (s : State) (proc a : Nat) (bs : List Byte) : ((kilnWrite s proc a bs).getD s).kerns = s.kerns := by
  unfold kilnWrite
  cases kilnPlace s proc .store a with
  | none => rfl
  | some p => rw [Option.map_some, Option.getD_some, writePlace_frame]

theorem writeFault_kerns (s : State) (x : Queue) (ws : List Word) : (writeFault s x ws).kerns = s.kerns := by
  unfold writeFault
  dsimp only
  split
  · rfl
  · split
    · rfl
    · exact kilnWrite_kerns ..

/-- The queue of a stopped kernel shows its fault, and the fault area has its record. -/
def stopRecorded (s : State) (r : StopReq) (rs : List StopReq) (x : Queue) : State :=
  writeFault { s with stops := rs, queues := s.queues.map (fun y => if y.id = x.id then { y with fault := r.faultCode } else y) } x (stopWords r)

theorem kernelStop_noQueue (oldest : s.stops = r :: rs) (absent : queueById s r.kern.queue = none) :
    exec .kernelStop s = .next (dropKernel { s with stops := rs } (bareKern r.kern)) := by
  have gone : queueById { s with stops := rs } r.kern.queue = none := absent
  simp only [exec_kernelStop, execKernelStop, oldest, gone]

theorem kernelStop_stale {x : Queue} (oldest : s.stops = r :: rs) (found : queueById s r.kern.queue = some x) (stale : x.gen ≠ r.kern.gen) :
    exec .kernelStop s = .next { s with stops := rs } := by
  have found : queueById { s with stops := rs } r.kern.queue = some x := found
  simp only [exec_kernelStop, execKernelStop, oldest, found, if_pos stale]

theorem kernelStop_stops {x : Queue} {k : Kern} (oldest : s.stops = r :: rs) (found : queueById s r.kern.queue = some x)
    (current : x.gen = r.kern.gen) (runs : s.kerns.find? (fun k => k.ref == r.kern) = some k) :
    exec .kernelStop s = .next (endKernel (stopRecorded s r rs x) k 2 (r.lane4.toNat % 256)) := by
  have found : queueById { s with stops := rs } r.kern.queue = some x := found
  have runs : (stopRecorded s r rs x).kerns.find? (fun k => k.ref == r.kern) = some k := by rw [stopRecorded, writeFault_kerns]; exact runs
  rw [stopRecorded] at runs
  simp only [exec_kernelStop, execKernelStop, oldest, found, if_neg (not_not.2 current), modQueue, runs]
  rfl

end

/-! ### Completion (R286, R288, R291, R367) -/

section
variable {s : State} {q : Nat} {n : Word} {x : Queue} {k : Kern}

section
variable (found : queueById s q = some x)
  (runs : s.kerns.find? (fun k => k.ref.queue == q && k.ref.recNo == n) = some k)
include found runs

theorem kernelComplete_busy (busy : kernBusy s k.ref = true) : exec (.kernelComplete q n) s = .next s := by
  simp only [exec_kernelComplete, execKernelComplete, found, runs, busy, Bool.true_or, if_true]

theorem kernelComplete_commits (idle : kernBusy s k.ref = false) (durable : x.dur = true) (turn : x.ci = n)
    (fresh : n ∉ x.committed) :
    exec (.kernelComplete q n) s = .next (modQueue s q (fun y => { y with committed := y.committed ++ [n] })) := by
  have fresh : x.committed.contains n = false := by simpa using fresh
  simp only [exec_kernelComplete, execKernelComplete, found, runs, idle, durable, turn, fresh, bne_self_eq_false, Bool.and_false, Bool.or_false,
    Bool.not_false, Bool.and_true, Bool.false_eq_true, if_false, if_true]

theorem kernelComplete_finishes (idle : kernBusy s k.ref = false) (plain : x.dur = false) :
    exec (.kernelComplete q n) s = .next (finishKernel (applyJournal s q n) k) := by
  simp only [exec_kernelComplete, execKernelComplete, found, runs, idle, plain, Bool.false_and, Bool.or_false, Bool.false_eq_true, if_false]

end

/-- The last pair of a partition that splits changes cores and memory, and no queue and no kernel (R362). -/
theorem splitPairs_queues (s : State) (part : Nat) : (splitPairs s part).queues = s.queues := by
  unfold splitPairs
  split
  · rfl
  · exact foldl_keeps State.queues (fun _ _ => modCore_queues ..) _ _
theorem splitPairs_kerns (s : State) (part : Nat) : (splitPairs s part).kerns = s.kerns := by
  unfold splitPairs
  split
  · rfl
  · exact foldl_keeps State.kerns (fun _ _ => modCore_kerns ..) _ _

/-- The state in which the record of a kernel that has completed retires. -/
def kernelGone (s : State) (k : Kern) : State :=
  let t : State := { dropGroups s k with kerns := s.kerns.filter (fun r => r.ref != k.ref) }
  if k.pair then splitPairs t k.part else t

theorem finishKernel_eq (s : State) (k : Kern) : finishKernel s k = retire (kernelGone s k) k.ref.queue (k.ending 0 0) := rfl

theorem kernelGone_queues (s : State) (k : Kern) : (kernelGone s k).queues = s.queues := by
  unfold kernelGone
  dsimp only
  split
  · exact splitPairs_queues ..
  · rfl
theorem kernelGone_kerns (s : State) (k : Kern) : (kernelGone s k).kerns = s.kerns.filter (fun r => r.ref != k.ref) := by
  unfold kernelGone
  dsimp only
  split
  · exact splitPairs_kerns ..
  · rfl
theorem kernelGone_mem (single : k.pair = false) : (kernelGone s k).mem = s.mem := by
  rw [kernelGone, single]
  rfl

/-- A kernel that completes leaves its queue with its record retired, with status 0. -/
theorem finishKernel_retires (found : queueById s k.ref.queue = some x) :
    ∃ y, queueById (finishKernel s k) k.ref.queue = some y ∧ y.retired = x.retired ++ [k.ending 0 0] := by
  rw [finishKernel_eq]
  refine retire_retired _ ?_
  rw [queueById, kernelGone_queues]
  exact found

/-- The journal of a record is performed and given back: of a queue without one, nothing is written (R367). -/
def journalDone (n : Word) (x : Queue) : Queue :=
  { x with journal := x.journal.filter (fun e => e.1 != n), committed := x.committed.filter (fun v => v != n) }

theorem applyJournal_none (found : queueById s q = some x) (empty : x.journal = []) : applyJournal s q n = modQueue s q (journalDone n) := by
  simp only [applyJournal, found, empty, List.filter_nil, List.flatMap_nil]
  rfl

/-- A kernel of a queue that is not durable completes once nothing of it is left (R286, R288). -/
theorem kernelComplete_retires (found : queueById s q = some x)
    (runs : s.kerns.find? (fun k => k.ref.queue == q && k.ref.recNo == n) = some k) (idle : kernBusy s k.ref = false) (plain : x.dur = false)
    (empty : x.journal = []) : ∃ t y r, exec (.kernelComplete q n) s = .next t ∧ queueById t q = some y ∧ y.retired = x.retired ++ [r] ∧
      r.recNo = n ∧ r.status = 0 ∧ r.code = 0 ∧ t.kerns = s.kerns.filter (fun j => j.ref != k.ref) ∧ (k.pair = false → t.mem = s.mem) := by
  have named := List.find?_some runs
  simp only [Bool.and_eq_true, beq_iff_eq] at named
  obtain ⟨rfl, rfl⟩ := named
  have done := applyJournal_none (n := k.ref.recNo) found empty
  obtain ⟨y, here, retired⟩ := finishKernel_retires (k := k) (queueById_modQueue (f := journalDone k.ref.recNo) (fun _ => rfl) found)
  refine ⟨_, y, k.ending 0 0, kernelComplete_finishes found runs idle plain, ?_, retired, rfl, rfl, rfl, ?_, fun single => ?_⟩
  · rw [done, here]
  · rw [done, finishKernel_eq]
    exact kernelGone_kerns ..
  · rw [done, finishKernel_eq]
    exact kernelGone_mem single

end

/-! ### Signals (R288, R370) -/

section
variable {s : State} {q : Nat} {x : Queue} {r : Retired}

/-- The queue's next signal has been taken. -/
def signalTaken (s : State) (q : Nat) (r : Retired) : State :=
  { s with queues := s.queues.map (fun y => if y.id = q then { y with retired := y.retired.erase r } else y) }

theorem completionSignal_silent (found : queueById s q = some x) (due : nextSignal x = some r) (silent : r.sig = false) :
    exec (.completionSignal q) s = .next (signalTaken s q r) := by
  simp only [exec_completionSignal, execCompletionSignal, found, due, silent, Bool.not_false, if_true]
  rfl

theorem completionSignal_writes {v : State} (found : queueById s q = some x) (due : nextSignal x = some r) (signals : r.sig = true)
    (written : kilnWrite (signalTaken s q r) x.process r.sigAddr (signalBytes r) = some v) : exec (.completionSignal q) s = .next v := by
  have written : kilnWrite (modQueue s q (fun y => { y with retired := y.retired.erase r })) x.process r.sigAddr (signalBytes r) = some v := written
  simp only [exec_completionSignal, execCompletionSignal, found, due, signals, Bool.not_true, Bool.false_eq_true, if_false, written]

/-- What a leaf of the process maps to host memory, writable, the kiln writes there (R318, R370; log 38). -/
theorem kilnWrite_host {proc a : Nat} {bs : List Byte} {e : DWord} (low : 0x2000000 ≤ a) (high : a < 2 ^ 52) (leaf : walk s proc a = .leaf e)
    (writable : pteW e = true) (host : pteTgt e = 2) : kilnWrite s proc a bs = some (writePlace s ⟨hostKey (leafTarget e a), none⟩ bs) := by
  have inside : (decide (a < 0x2000000) || decide (2 ^ 52 ≤ a)) = false := by
    rw [decide_eq_false (Nat.not_lt.2 low), decide_eq_false (Nat.not_le.2 high), Bool.or_self]
  have permitted : (AKind.store.reads && !pteR e || AKind.store.writes && !pteW e) = false := by rw [writable]; rfl
  have place : kilnPlace s proc .store a = some ⟨hostKey (leafTarget e a), none⟩ := by
    simp only [kilnPlace, inside, leaf, permitted, host, Bool.false_eq_true, if_false]
  rw [kilnWrite, place, Option.map_some]

end

/-! ### Limits (R294, R355) -/

section
variable {s : State} {q : Nat} {n : Word} {k : Kern}

/-- The kernel has run for its TLIMIT, or been charged its CAP. -/
def OverLimit (s : State) (k : Kern) : Prop :=
  (k.tlimit ≠ 0 ∧ k.began + 1100 * k.tlimit ≤ s.timer) ∨ (k.cap ≠ 0 ∧ k.cap ≤ k.charged.toNat)

variable (runs : s.kerns.find? (fun k => k.ref.queue == q && k.ref.recNo == n) = some k)
include runs

theorem tlimitExpiry_over (exceeds : OverLimit s k) :
    exec (.tlimitExpiry q n) s = .next (modQueue s q (startLadder .limit)) := by
  simp only [exec_tlimitExpiry, execTlimitExpiry, ofQueue, runs, Bool.or_eq_true, Bool.and_eq_true, bne_iff_ne, decide_eq_true_eq]
  exact if_pos exceeds

theorem tlimitExpiry_within (within : ¬ OverLimit s k) :
    exec (.tlimitExpiry q n) s = .next s := by
  simp only [exec_tlimitExpiry, execTlimitExpiry, ofQueue, runs, Bool.or_eq_true, Bool.and_eq_true, bne_iff_ne, decide_eq_true_eq]
  exact if_neg within

end

/-- Settles O51: the walker, the start of its record, the kernel stop, the completion, its signal, and the limits. -/
theorem kernelEvents : Obligations.KernelEvents := by
  unfold Obligations.KernelEvents
  refine ⟨fun s i w p listed serves free part => ?_, fun s k x => markStarted_next, fun s r rs oldest => ?_,
    fun s q n x k found runs => ?_, fun s q x r found due => ?_, fun s proc a bs e low high leaf writable host => ?_,
    fun s q n k runs => ⟨tlimitExpiry_over runs, tlimitExpiry_within runs⟩⟩
  · have acts : WalkerActs s i w := ⟨listed, serves, free⟩
    exact ⟨walkerIssue_passes acts, fun least => ⟨fun u => walkerIssue_accepted acts least part, fun u => walkerIssue_goesFar acts least part,
      fun v => walkerIssue_refused acts least part⟩⟩
  · refine ⟨kernelStop_noQueue oldest, fun x => kernelStop_stale oldest, fun x k found current runs => ?_⟩
    have named : k.ref = r.kern := by simpa using List.find?_some runs
    exact ⟨k.ending 2 _, rfl, congrArg KRef.recNo named, rfl, kernelStop_stops oldest found current runs⟩
  · exact ⟨kernelComplete_busy found runs, kernelComplete_commits found runs, fun idle plain empty _ =>
      kernelComplete_retires found runs idle plain empty⟩
  · exact ⟨completionSignal_silent found due, fun v => completionSignal_writes found due⟩
  · exact ⟨_, kilnWrite_host low high leaf writable host, rfl⟩

end Sys2Proof.Machine
end

section
/-! PROOFS. Trap entry, escalation and the wait for the header row (O20, O21). -/

namespace Sys2Proof.Machine

/-! ### The header row of a trap (R273) -/

theorem lane_setIT_true (h : Row) {j : Nat} (hj : j < 16) : lane (setIT h true) j = if j = 1 then lane h 1 ||| 0x400000 else lane h j := by
  unfold setIT
  dsimp only
  rw [lane_setLane _ _ _ _ hj]
  by_cases h1 : j = 1
  · rw [if_pos h1.symm, if_pos h1]; rfl
  · rw [if_neg (Ne.symm h1), if_neg h1]

/-- QSTATE counts the entries of the queues and the tokens (R264). -/
theorem qstate_eq (x : Slot) : qstate x = BitVec.ofNat 32 ((queueOf x 0).length ||| (queueOf x 1).length <<< 5 ||| (queueOf x 2).length <<< 10 |||
    (queueOf x 3).length <<< 15 ||| x.toks.length <<< 20) := by
  simp [qstate, queueOf]

theorem lane_trapHeader (x : Slot) (h : Row) (t : Trap) {j : Nat} (hj : j < 16) : lane (trapHeader x h t) j =
    if j = 1 then lane h 1 ||| 0x400000 else if j = 2 then x.pc else if j = 3 then epcAOf x else if j = 4 then t.lane4
    else if j = 5 then BitVec.ofNat 32 t.faddr else if j = 6 then BitVec.ofNat 32 (t.faddr >>> 32) else if j = 7 then t.fword
    else if j = 14 then qstate x else lane h j := by
  unfold trapHeader
  dsimp only
  rw [lane_setIT_true _ hj]
  by_cases h1 : j = 1
  · simp only [if_pos h1, lane_setLane _ _ _ _ (show 1 < 16 by decide)]
    rfl
  · simp only [if_neg h1, lane_setLane _ _ _ _ hj, eq_comm (b := j)]
    grind

/-! ### Which way a trap goes (R257, R273, R276) -/

section
variable {s : State} {t : Trap}

theorem takeTrap_now (landed : s.core.pendingRow s.core.slot.wb = false) : takeTrap s t = enterTrap s t := by
  simp only [takeTrap, landed, Bool.false_eq_true, if_false]

theorem takeTrap_waits (pending : s.core.pendingRow s.core.slot.wb = true) :
    takeTrap s t = s.modS (fun x => { x with trapWait := some t, waitC := none, waitA := none }) := if_pos pending

theorem unissue_wb (x : Slot) : (unissue x).wb = x.wb := (unissue_slot x).1

/-- The header row is that of the slot's window, whether or not its control word counts as issued (log 31). -/
theorem hdr_unissue (s : State) : (s.modS unissue).core.hdr = s.core.hdr := by
  unfold Core.hdr
  rw [modS_core, unissue_wb]
  rfl

/-- The slot once a trap has been taken at the handler of the header row h (R267, R273). -/
def trapSlot (x : Slot) (h : Row) : Slot :=
  { x.goto (lane h 0 &&& ~~~(7 : Word)) with
    aside := some { backlog := x.backlog, wb := x.wb, wl := x.wl, epcC := x.pc, epcA := epcAOf x, winNext := x.winNext, skipC := x.skipC,
                    skipA := x.skipA, retry := x.retry, gang := x.gang, sendWait := x.sendWait },
    gang := .idle, sendWait := none }

/-- With IT clear and a handler in lane 0 the trap is taken (R273). -/
theorem enterTrap_handler (clear : modeIT (modeOf s.core.hdr) = false) (handler : lane s.core.hdr 0 ≠ 0) :
    enterTrap s t = { s with core :=
      { s.core.setRow s.core.slot.wb (trapHeader (unissue s.core.slot) s.core.hdr t) with slot := trapSlot (unissue s.core.slot) s.core.hdr } } := by
  have taken : (modeIT (modeOf s.core.hdr) || lane s.core.hdr 0 == 0) = false := by
    rw [clear, Bool.false_or, beq_eq_false_iff_ne]; exact handler
  unfold enterTrap
  dsimp only
  rw [hdr_unissue, taken, Core.setHdr, ← unissue_wb s.core.slot]
  rfl

/-- With IT set, or no handler, it escalates (R276). -/
theorem enterTrap_escalates (barred : modeIT (modeOf s.core.hdr) = true ∨ lane s.core.hdr 0 = 0) :
    enterTrap s t = escalate (s.modS unissue) t := by
  have escalates : (modeIT (modeOf s.core.hdr) || lane s.core.hdr 0 == 0) = true := by simpa using barred
  unfold enterTrap
  dsimp only
  rw [hdr_unissue, escalates]
  rfl

end

/-- Settles O20: the header row by `lane_trapHeader`, the rest by what `enterTrap` writes. -/
theorem trapEntry : Obligations.TrapEntry := by
  unfold Obligations.TrapEntry
  intro s t landed clear handler u x epcA
  have epc : epcA = epcAOf x := by cases h : x.backlog <;> simp [epcA, epcAOf, h]
  have entered : u = _ := (takeTrap_now landed).trans (enterTrap_handler clear handler)
  rw [entered, epc, ← qstate_eq]
  refine ⟨rfl, rfl, fun q other => ?_, fun j hj => ?_, _, rfl, rfl⟩
  · exact row_setRow_other _ _ _ _ (unissue_wb s.core.slot ▸ Ne.symm other)
  · rw [unissue_wb, row_with_slot, row_setRow_self]
    exact lane_trapHeader _ _ _ hj

/-- Settles O21: `takeTrap` waits for the header row; where it does not, `enterTrap` escalates. -/
theorem trapEscalatesOrWaits : Obligations.TrapEscalatesOrWaits := by
  unfold Obligations.TrapEscalatesOrWaits
  refine ⟨fun s t landed barred => ?_, fun s t => ⟨takeTrap_waits, fun waits landed => ?_, fun none => ?_⟩⟩
  · rw [takeTrap_now landed, enterTrap_escalates barred]
    exact ⟨_, rfl, unissue_kern _, rfl, rfl, rfl, rfl⟩
  · simp only [exec_trapEntry, execTrapEntry, waits, landed, Bool.false_eq_true, if_false, takeTrap_now landed]
  · simp only [exec_trapEntry, execTrapEntry, none]

end Sys2Proof.Machine
end

section
/-! PROOFS. Windows and bounds (O24, O25). -/

namespace Sys2Proof.Machine

/-! ### `setwin` and `getwin` (R259, R260, R305) -/

section
variable {s : State}

theorem fitsWindow_iff (c : Core) (wb wl : Nat) : FitsWindow c wb wl ↔
    (decide (wb ≥ 2 ^ 11) || decide (wl < 1) || decide (96 < wl) || decide (wb < c.slot.pb) || decide (c.slot.pb + c.slot.pl < wb + wl)) = false ∧
    (c.hvNow && (decide (wb < lendRB c.lend) || decide (lendRB c.lend + lendRN c.lend < wb + wl))) = false := by
  unfold FitsWindow
  cases c.hvNow <;> simp <;> omega

/-- The state in which a window waits for its bundle's arithmetic word (R259). -/
def winAsked (s : State) (wb wl : Nat) : State := s.modS (fun x => { x with winNext := some (wb, wl) })

theorem setWindow_waits {wb wl : Nat} (outstanding : s.core.slot.backlog ≠ []) : setWindow wb wl s = .wait 1 s := by
  have busy : s.core.slot.backlog.isEmpty = false := by simpa using outstanding
  simp only [setWindow, busy, Bool.not_false, if_true]

theorem setWindow_alone {wb wl : Nat} (alone : s.core.slot.backlog = []) :
    (FitsWindow s.core wb wl → setWindow wb wl s = .go (winAsked s wb wl) 0 none) ∧
    (¬ FitsWindow s.core wb wl → setWindow wb wl s = .trap s (mkTrap 0x02 (2 <<< 19) 0)) := by
  rw [fitsWindow_iff]
  simp only [setWindow, winTrap, alone, List.isEmpty_nil, Bool.not_true, Bool.false_eq_true, if_false]
  refine ⟨fun ⟨bound, lent⟩ => ?_, fun bad => ?_⟩
  · simp only [bound, lent, Bool.false_eq_true, if_false]
    rfl
  · split
    · rfl
    · next bound =>
      rw [if_pos]
      · rfl
      · simpa only [bound, true_and, Bool.not_eq_false] using bad

/-- A lone bundle with none before it does not join the backlog (R10). -/
theorem pushBundle_lone {x : Slot} {old : List (Loc × Row × Row)} {w0 w1 : Word} (fetched : bundleAt s x.pc = some (w0, w1))
    (lone : uF w0 = true) (alone : x.backlog = []) : (pushBundle s x old).backlog = [] := by
  simp [pushBundle, fetched, lone, alone]

section
variable {s1 : State} {p : CSpec} {v : Row} {w0 w1 : Word}

theorem slotC_lone (fetched : bundleAt s s1.core.slot.pc = some (w0, w1)) (lone : uF w0 = true) (alone : s1.core.slot.backlog = []) :
    (slotC s s1 p v none).backlog = [] := by
  have joins {old : List (Loc × Row × Row)} : (pushBundle s { (coreC s1.core p v).slot with
      waitC := none, waitA := none, skipC := false, xl := Xlat.none, revoked := false, retry := false } old).backlog = [] :=
    pushBundle_lone (by rw [coreC_core]; exact fetched) lone (by rw [coreC_core]; exact alone)
  unfold slotC
  dsimp only
  split <;> exact joins

theorem slotC_pair (fetched : bundleAt s s1.core.slot.pc = some (w0, w1)) (pair : uF w0 = false) : (slotC s s1 p v none).backlog ≠ [] := by
  intro empty
  have joined := slotC_joined s s1 p v none fetched pair
  simp [empty] at joined

theorem issued_slot : (issued p s s1 v none).core.slot = applyWin (slotC s s1 p v none) := by
  rw [issued, countBundle_eq, issueC_back]

theorem applyWin_outstanding {x : Slot} (h : x.backlog ≠ []) : applyWin x = x := by
  unfold applyWin
  split
  · next none _ => exact absurd none h
  · rfl

theorem applyWin_alone {x : Slot} {b l : Nat} (h : x.backlog = []) (next : x.winNext = some (b, l)) :
    applyWin x = { x with wb := b, wl := l, winNext := none } := by simp only [applyWin, h, next]

/-- A window asked for by a pair waits for the pair's arithmetic word (R259). -/
theorem winAsked_pair {wb wl : Nat} (fetched : bundleAt s s.core.slot.pc = some (w0, w1)) (pair : uF w0 = false) :
    let x := (issued p s (winAsked s wb wl) v none).core.slot
    x.winNext = some (wb, wl) ∧ x.wb = s.core.slot.wb ∧ x.wl = s.core.slot.wl := by
  have outstanding := slotC_pair (s1 := winAsked s wb wl) (p := p) (v := v) fetched pair
  dsimp only
  rw [issued_slot, applyWin_outstanding outstanding, slotC_eq]
  exact ⟨rfl, rfl, rfl⟩

/-- One asked for by a lone word, with no bundle outstanding, takes effect at once (R259). -/
theorem winAsked_lone {wb wl : Nat} (alone : s.core.slot.backlog = []) (fetched : bundleAt s s.core.slot.pc = some (w0, w1)) (lone : uF w0 = true) :
    let x := (issued p s (winAsked s wb wl) v none).core.slot
    x.winNext = none ∧ x.wb = wb ∧ x.wl = wl := by
  have empty := slotC_lone (s1 := winAsked s wb wl) (p := p) (v := v) fetched lone alone
  have waits : (slotC s (winAsked s wb wl) p v none).winNext = some (wb, wl) := by rw [slotC_eq]; rfl
  dsimp only
  rw [issued_slot, applyWin_alone empty waits]
  exact ⟨rfl, rfl, rfl⟩

end

/-- The course of a word that asks for a window: it completes, traps, or waits for the bundles before it (R259). -/
theorem setwin_course {i : Instr} {p : CSpec} {f : List Row → State → CRes} {wb wl : Nat} (ready : ReadyC p s)
    (word : f (readAll (readC s.core) p.srcs []) s = setWindow wb wl s) :
    (s.core.slot.backlog = [] → FitsWindow s.core wb wl → control i p f s = .next (issued p s (winAsked s wb wl) 0 none)) ∧
    (s.core.slot.backlog = [] → ¬ FitsWindow s.core wb wl → control i p f s = .next (trapped i s (mkTrap 0x02 (2 <<< 19) 0))) ∧
    (s.core.slot.backlog ≠ [] → control i p f s = stallC s 1) :=
  ⟨fun alone fits => control_go ready (word.trans ((setWindow_alone alone).1 fits)),
    fun alone bad => control_trap ready (word.trans ((setWindow_alone alone).2 bad)),
    fun outstanding => control_wait ready (word.trans (setWindow_waits outstanding))⟩

/-- A completed arithmetic word, the last outstanding, repeats or opens the window that waits (R26, R259). -/
theorem arith_opens {i : Instr} {t : State} {e : BEnt} {b l : Nat} (arithmetic : (aOps i).isSome = true) (last : s.core.slot.backlog = [e])
    (waits : s.core.slot.winNext = some (b, l)) (run : exec i s = .next t) :
    (∃ n, stallA s n = .next t) ∨ (∃ c info faddr, trapA s (word1Of i) c info faddr = .next t) ∨
      (t.core.slot.rep = s.core.slot.rep + 1 ∧ t.core.slot.winNext = some (b, l) ∧ t.core.slot.wb = s.core.slot.wb) ∨
      (t.core.slot.backlog = [] ∧ t.core.slot.wb = b ∧ t.core.slot.wl = l ∧ t.core.slot.winNext = none) := by
  obtain ⟨a, ops⟩ := Option.isSome_iff_exists.1 arithmetic
  obtain ⟨f, course, narrow⟩ := arith_exec i a ops
  rw [course] at run
  refine (arith_cases run).imp_right (Or.imp_right ?_)
  rintro ⟨_, _, a, s1, v, n, -, -, effect, rfl⟩
  obtain ⟨backlog, rep, next, wb, -⟩ := narrow _ _ _ _ _ _ _ effect
  have done := commitA_done s1 a v n
  by_cases final : streamed a.srcs = false ∨ endBeat s1.core a.srcs = true
  · have empty : (commitA s1 a v n).core.slot.backlog = [] := by rw [(done.retired final).1, backlog, last]; rfl
    exact .inr ⟨empty, done.opens b l (next.trans waits) final empty⟩
  · rw [not_or, Bool.not_eq_false, Bool.not_eq_true] at final
    obtain ⟨again, -, sameWb, -, sameNext⟩ := done.repeats final.1 final.2
    exact .inl ⟨again.trans (by rw [rep]), sameNext.trans (next.trans waits), sameWb.trans wb⟩

theorem anop_opens {e : BEnt} {a : AOps} {b l : Nat} (ready : ReadyA .anop s e a) (last : s.core.slot.backlog = [e])
    (waits : s.core.slot.winNext = some (b, l)) :
    ∃ t, exec .anop s = .next t ∧ t.core.slot.wb = b ∧ t.core.slot.wl = l ∧ t.core.slot.winNext = none := by
  have plain : streamed a.srcs = false := by
    obtain rfl : _ = a := Option.some.inj ready.ops
    rfl
  obtain ⟨t, run, done⟩ := anop_rule ready
  exact ⟨t, run, done.opens b l waits (.inl plain) (by rw [(done.retired (.inl plain)).1, last]; rfl)⟩

end

/-- Settles O24: both forms of `setwin` by `setwin_course`; the window opens with its bundle, which `winAsked_pair`,
`winAsked_lone` and `arith_opens` say. -/
theorem windowResults : Obligations.WindowResults := by
  unfold Obligations.WindowResults
  refine ⟨fun a s ready => ?_, fun b l s ready => ?_, fun a s ready => ?_, fun i s t e b l => arith_opens, fun s e a b l => anop_opens⟩
  · obtain ⟨completes, traps, waits⟩ := setwin_course (i := .setwin a) (f := fun rs s =>
      setWindow (lane (nth rs 0) 0).toNat (lane (nth rs 0) 1).toNat s) ready rfl
    exact ⟨fun alone fits => ⟨_, completes alone fits, issued_done .., fun w0 w1 => winAsked_pair⟩, traps, waits⟩
  · obtain ⟨completes, traps, waits⟩ := setwin_course (i := .setwinLone b l) (f := fun _ s => setWindow b.toNat l.toNat s) ready rfl
    exact ⟨fun alone fits => ⟨_, completes alone fits, issued_done .., fun w0 w1 => winAsked_lone alone⟩, traps, waits⟩
  · rw [exec_getwin, execGetwin]
    exact control_done ready rfl

/-! ### `setbnd` (R256, R261) -/

section
variable {s : State} {a : Opnd}

/-- The row r of `setbnd` asks for a bound that fits and holds the current window (R261). -/
def GoodBound (x : Slot) (r : Row) : Prop :=
  (lane r 0).toNat < 2 ^ 11 ∧ (lane r 1).toNat < 2 ^ 12 ∧ (lane r 2).toNat / 256 % 2 ^ 23 = 0 ∧ 1 ≤ (lane r 1).toNat ∧
    (lane r 0).toNat + (lane r 1).toNat ≤ 2048 ∧
    ((lane r 2).getLsbD 31 = false → (lane r 0).toNat ≤ x.wb ∧ x.wb + x.wl ≤ (lane r 0).toNat + (lane r 1).toNat)

/-- The state with the bound of the row r written: the table's entry, or the slot's. -/
def boundSet (s : State) (r : Row) : State :=
  if (lane r 2).getLsbD 31 then s.modC (fun c => { c with bounds := put c.bounds ((lane r 2).toNat % 256) ((lane r 0).toNat, (lane r 1).toNat) })
  else s.modS (fun x => { x with pb := (lane r 0).toNat, pl := (lane r 1).toNat })

/-- The bits 8 to 30 of a lane are its bits but for the index and the top one. -/
theorem reservedBits_zero (l : Word) : (l.extractLsb' 8 23 != 0) = false ↔ l.toNat / 256 % 2 ^ 23 = 0 := by
  rw [bne_eq_false_iff_eq, ← BitVec.toNat_inj, BitVec.extractLsb'_toNat, Nat.shiftRight_eq_div_pow]
  rfl

/-- The two tests of `setbnd` are those of a good bound. -/
theorem goodBound_iff (x : Slot) (r : Row) : GoodBound x r ↔
    (decide ((lane r 0).toNat ≥ 2 ^ 11) || decide ((lane r 1).toNat ≥ 2 ^ 12) || (lane r 2).extractLsb' 8 23 != 0 ||
      decide ((lane r 1).toNat < 1) || decide (2048 < (lane r 0).toNat + (lane r 1).toNat)) = false ∧
    (!(lane r 2).getLsbD 31 && (decide (x.wb < (lane r 0).toNat) || decide ((lane r 0).toNat + (lane r 1).toNat < x.wb + x.wl))) = false := by
  simp only [Bool.or_eq_false_iff, reservedBits_zero, decide_eq_false_iff_not]
  unfold GoodBound
  cases (lane r 2).getLsbD 31 <;> simp <;> omega

theorem privBar_prv (prv : s.core.slot.prv = true) : privBar s = none := if_pos prv
theorem privBar_user (user : s.core.slot.prv = false) : privBar s = some (mkTrap 0x11 0 0) := if_neg (by simp [user])

theorem setbnd_user (free : cWait s.core { srcs := [a] } = 0) (user : s.core.slot.prv = false) :
    exec (.setbnd a) s = .next (trapped (.setbnd a) s (mkTrap 0x11 0 0)) := by
  rw [exec_setbnd, execSetbnd]
  exact control_barred free (privBar_user user)

section
variable (ready : ReadyC { srcs := [a] } s) (prv : s.core.slot.prv = true)
include ready prv

theorem setbnd_traps (bad : ¬ GoodBound s.core.slot (argC s { srcs := [a] } 0)) :
    exec (.setbnd a) s = .next (trapped (.setbnd a) s (mkTrap 0x02 (3 <<< 19) 0)) := by
  rw [exec_setbnd, execSetbnd, privBar_prv prv]
  refine control_trap ready ?_
  rw [goodBound_iff, argC] at bad
  dsimp only
  split
  · rfl
  · next fits =>
    rw [if_pos]
    · rfl
    · simpa only [fits, true_and, Bool.not_eq_false] using bad

theorem setbnd_waits (good : GoodBound s.core.slot (argC s { srcs := [a] } 0)) (late : s.core.late ≠ []) :
    exec (.setbnd a) s = stallC s 100 := by
  rw [exec_setbnd, execSetbnd, privBar_prv prv]
  have late : s.core.late.isEmpty = false := by simpa using late
  obtain ⟨fits, holds⟩ := (goodBound_iff _ _).1 good
  refine control_wait ready ?_
  rw [argC] at fits holds
  simp only [fits, holds, late, Bool.false_eq_true, if_false, Bool.not_false, if_true]
  rfl

theorem setbnd_sets (good : GoodBound s.core.slot (argC s { srcs := [a] } 0)) (landed : s.core.late = []) :
    ∃ t, exec (.setbnd a) s = .next t ∧ DoneC s (boundSet s (argC s { srcs := [a] } 0)) t { srcs := [a] } 0 none := by
  rw [exec_setbnd, execSetbnd, privBar_prv prv]
  obtain ⟨fits, holds⟩ := (goodBound_iff _ _).1 good
  refine control_done ready ?_
  rw [argC] at fits holds
  simp only [fits, holds, landed, List.isEmpty_nil, Bool.not_true, Bool.false_eq_true, if_false, boundSet, argC]
  exact (apply_ite (CRes.go · 0 none) ..).symm

end

/-- A window operand beyond WL traps WIN before the bound is looked at (R18). -/
theorem setbnd_beyond (free : cWait s.core { srcs := [a] } = 0) (prv : s.core.slot.prv = true) {k : Fin 96} (operand : a = .w k)
    (far : s.core.slot.wl ≤ k.val) : exec (.setbnd a) s = .next (trapped (.setbnd a) s (mkTrap 0x02 0 0)) := by
  rw [exec_setbnd, execSetbnd, privBar_prv prv]
  exact control_meets free (meetsAt_win rfl (by simp [operand]) far)

end

/-- Settles O25: PRIV and WIN first, then the two tests of the bound, then the late writes. -/
theorem boundResults : Obligations.BoundResults := by
  unfold Obligations.BoundResults
  intro a s free r pb pl tbl x ok
  exact ⟨fun prv k => setbnd_beyond free prv, fun ready prv good landed => setbnd_sets ready prv good landed,
    fun ready prv good => setbnd_waits ready prv good, fun ready prv bad => setbnd_traps ready prv bad, setbnd_user free⟩

end Sys2Proof.Machine
end


section
/-! PROOFS. `xld`, `xst`, `xpush` and `xws`: the lanes of the descriptor, its alignment, and the job it queues (O39). -/

namespace Sys2Proof.Machine

/-- A condition of R330 or R331 on lane n of a descriptor fails. -/
def xferBad (s : State) (k : JKind) (r : Row) (n : Nat) : Bool :=
  (reservedLanes r (xferMasks k) ++ xferNamed s k r).any (fun e => e.1 == n && e.2)

/-- The job that the descriptor r describes (R330). -/
def xferJob (s : State) (k : JKind) (r : Row) : Job :=
  { blankJob s k (jobFree (getCl s (clIdx s.core.id)).jobs) with
    src := (lane r 0).toNat, len := (lane r 1).toNat, dst := xferAddr k r, dest := lane r 2, hdr := lane r 4, sw := lane r 5 }

section
variable {s : State} {k : JKind} {r : Row} {n : Nat}

theorem xferBad_iff : xferBad s k r n = true ↔ ∃ e ∈ reservedLanes r (xferMasks k) ++ xferNamed s k r, e.1 = n ∧ e.2 = true := by
  simp only [xferBad, List.any_eq_true, Bool.and_eq_true, beq_iff_eq]

theorem xferBad_false (good : ¬ ∃ e ∈ reservedLanes r (xferMasks k) ++ xferNamed s k r, e.1 = n ∧ e.2 = true) : xferBad s k r n = false := by
  rwa [← xferBad_iff, Bool.not_eq_true] at good

theorem startTransfer_user (xws : k = .xws) (user : s.core.slot.prv = false) : startTransfer k r s = .trap s (mkTrap 0x11 0 0) := by
  subst xws
  exact if_pos (by rw [user]; rfl)

section
variable (allowed : k = .xws → s.core.slot.prv = true)
include allowed

/-- With PRV where it is wanted, a transfer starts with the lanes of its descriptor. -/
theorem startTransfer_allowed : startTransfer k r s =
    match firstLane ((List.range 16).map (fun i => (i, xferBad s k r i))) with
    | some i => malformed s r i
    | none =>
      match [(lane r 0).toNat, (lane r 1).toNat, xferAddr k r].find? (fun v => v % 64 != 0) with
      | some v => .trap s (mkTrap cAL 0 v)
      | none =>
        if acqHeld s || jobCap (getCl s (clIdx s.core.id)).id ≤ (getCl s (clIdx s.core.id)).jobs.length then .wait outside s
        else if (xferJob s k r).len = 0 then .go s 0 none
        else if storeHeld s (xferReads s k (xferJob s k r)) || !rltRoom s (xferRegs k (xferJob s k r)) then .wait outside s
        else .out (enqueue s (xferJob s k r) (xferRegs k (xferJob s k r))) 0 := by
  refine if_neg ?_
  rw [Bool.and_eq_true, beq_iff_eq, Bool.not_eq_true']
  rintro ⟨xws, user⟩
  rw [allowed xws] at user
  cases user

theorem startTransfer_bad (inRow : n < 16) (bad : xferBad s k r n = true) (lowest : ∀ m, m < n → xferBad s k r m = false) :
    startTransfer k r s = malformed s r n := by
  rw [startTransfer_allowed allowed, firstLane_least inRow bad lowest]

section
variable (good : ∀ n, n < 16 → xferBad s k r n = false)
include good

theorem startTransfer_misaligned {v : Nat} (found : [(lane r 0).toNat, (lane r 1).toNat, xferAddr k r].find? (fun v => v % 64 != 0) = some v) :
    startTransfer k r s = .trap s (mkTrap 0x05 0 v) := by
  rw [startTransfer_allowed allowed, firstLane_none good, found]
  rfl

/-- A good descriptor without an acquire in the way: what is left is room, and the stores it waits for. -/
theorem startTransfer_good (src : (lane r 0).toNat % 64 = 0) (len : (lane r 1).toNat % 64 = 0) (dst : xferAddr k r % 64 = 0)
    (free : acqHeld s = false) : startTransfer k r s =
      if jobCap (getCl s (clIdx s.core.id)).id ≤ (getCl s (clIdx s.core.id)).jobs.length then .wait outside s
      else if (xferJob s k r).len = 0 then .go s 0 none
      else if storeHeld s (xferReads s k (xferJob s k r)) || !rltRoom s (xferRegs k (xferJob s k r)) then .wait outside s
      else .out (enqueue s (xferJob s k r) (xferRegs k (xferJob s k r))) 0 := by
  have aligned : [(lane r 0).toNat, (lane r 1).toNat, xferAddr k r].find? (fun v => v % 64 != 0) = none := by
    simp [src, len, dst]
  rw [startTransfer_allowed allowed, firstLane_none good, aligned]
  simp only [free, Bool.false_or, decide_eq_true_eq]

end

end

/-- The address field in the words of R330: XA in lanes 2 and 3 of `xld` and `xst`, OFF in lane 3 of the others. -/
theorem xferAddr_eq : xferAddr k r = if k = .xld ∨ k = .xst then (lane r 2).toNat + 2 ^ 32 * (lane r 3).toNat else (lane r 3).toNat := by
  cases k <;> rfl

end

/-- The four transfer words run `startTransfer` on their descriptor. -/
theorem exec_transfer {a : Opnd} {s : State} {i : Instr} {k : JKind}
    (word : (i, k) ∈ [(Instr.xld a, JKind.xld), (.xst a, .xst), (.xpush a, .xpush), (.xws a, .xws)]) :
    exec i s = control i { srcs := [a] } (fun rs s => startTransfer k (nth rs 0) s) s := by
  simp only [List.mem_cons, List.not_mem_nil, or_false, Prod.mk.injEq] at word
  rcases word with ⟨rfl, rfl⟩ | ⟨rfl, rfl⟩ | ⟨rfl, rfl⟩ | ⟨rfl, rfl⟩
  · exact exec_xld a s
  · exact exec_xst a s
  · exact exec_xpush a s
  · exact exec_xws a s

/-- Settles O39: PRIV, the lowest bad lane, the alignment, and then the engine's queue, in `startTransfer`'s order. -/
theorem transferResults : Obligations.TransferResults := by
  unfold Obligations.TransferResults
  intro a s i k word ready r u far badAt j
  rw [exec_transfer word]
  have isJob : xferJob s k r = j := by rw [xferJob, xferAddr_eq]
  have isDst : xferAddr k r = j.dst := congrArg Job.dst isJob
  refine ⟨fun xws user => control_trap ready (startTransfer_user xws user), fun allowed => ⟨?_, fun good => ?_⟩⟩
  · intro n inRow bad lowest
    exact control_trap ready (startTransfer_bad allowed inRow (xferBad_iff.2 bad) fun m less => xferBad_false (lowest m less))
  · replace good : ∀ n, n < 16 → xferBad s k r n = false := fun n inRow => xferBad_false (good n inRow)
    refine ⟨fun v found => control_trap ready (startTransfer_misaligned allowed good (by rw [isDst]; exact found)), fun src len dst free => ?_⟩
    have course := startTransfer_good allowed good src len (isDst ▸ dst) free
    rw [isJob] at course
    refine ⟨fun full => ?_, fun room empty => ?_, fun room some waits => ?_, fun room some stores place => ?_⟩
    · exact control_wait ready (course.trans (if_pos full))
    · rw [if_neg (Nat.not_le.2 room), if_pos empty] at course
      exact control_done ready course
    · rw [if_neg (Nat.not_le.2 room), if_neg some, if_pos (by simpa only [Bool.or_eq_true, Bool.not_eq_true'] using waits)] at course
      exact control_wait ready course
    · rw [if_neg (Nat.not_le.2 room), if_neg some, stores, place] at course
      exact control_sent ready course

end Sys2Proof.Machine
end


section
/-! PROOFS. `lend`, `reclaim` and `ckpt`: the footprint and its register, the revocation they wait for, and the checkpoint (O38). -/

namespace Sys2Proof.Machine

theorem firstLane_clear {p : Nat → Bool} {n : Nat} (clear : firstLane ((List.range n).map (fun i => (i, p i))) = none) {k : Nat} (hk : k < n) :
    p k = false := by
  rw [firstLane, Option.map_eq_none_iff, List.find?_eq_none] at clear
  exact Bool.eq_false_iff.2 (clear (k, p k) (List.mem_map.2 ⟨k, List.mem_range.2 hk, rfl⟩))

theorem reservedLanes_below {r : Row} {widths : List Nat} {j k : Nat} (narrow : ∀ k ∈ widths, k ≤ 32) (width : widths[j]? = some k)
    (clear : (reservedLanes r (widths.map (fun k => 2 ^ k - 1))).any (fun e => e.1 == j && e.2) = false) : (lane r j).toNat < 2 ^ k := by
  rw [← Bool.not_eq_true, reservedLanes_any narrow] at clear
  exact Nat.lt_of_not_le fun high => clear ⟨k, width, high⟩

/-! ### The footprint's register (R302) -/

/-- A field of a word is the number whose bits it holds. -/
theorem field_toNat {w : Word} {k n v : Nat} (small : v < 2 ^ n) (bits : ∀ i, i < n → w.getLsbD (k + i) = v.testBit i) :
    (w.extractLsb' k n).toNat = v := by
  have same : w.extractLsb' k n = BitVec.ofNat n v := BitVec.eq_of_getLsbD_eq fun i hi => by
    rw [BitVec.getLsbD_extractLsb', BitVec.getLsbD_ofNat, bits i hi]
  rw [same, BitVec.toNat_ofNat, Nat.mod_eq_of_lt small]

/-- The numbers that `lend` takes as a footprint. -/
structure FootFits (f : Foot) : Prop where
  rb : f.rb < 2048
  rn : f.rn ≤ 128
  pb : f.pb < 512
  pn : f.pn < 512
  rbWhole : f.rb % 16 = 0
  rnWhole : f.rn % 16 = 0

/-- The register of a lent footprint, suspended or not (R302, R362). -/
def lentWord (f : Foot) (susp : Bool) : Word := lendWord f.rb f.rn f.pb f.pn ||| (if susp then 0x40000000 else 0)

theorem testBit_beyond {v k i : Nat} (small : v < 2 ^ k) (beyond : k ≤ i) : v.testBit i = false :=
  Nat.testBit_lt_two_pow (small.trans_le (Nat.pow_le_pow_right (by decide) beyond))

theorem suspBit (susp : Bool) (i : Nat) : (if susp then (0x40000000 : Word) else 0).getLsbD i = (susp && decide (i = 30)) := by
  cases susp
  · simp
  · rw [if_pos rfl, show (0x40000000 : Word) = BitVec.twoPow 32 30 from rfl, BitVec.getLsbD_twoPow]
    simp [eq_comm]

/-- Every bit of the register is a bit of the field in which it lies. -/
theorem lentWord_bit (f : Foot) (susp : Bool) {i : Nat} (hi : i < 32) : (lentWord f susp).getLsbD i =
    ((decide (i = 31) || (decide (26 ≤ i) && (f.rn / 16).testBit (i - 26)) || (decide (19 ≤ i) && (f.rb / 16).testBit (i - 19)) ||
      (decide (9 ≤ i) && f.pb.testBit (i - 9)) || f.pn.testBit i) || (susp && decide (i = 30))) := by
  rw [lentWord, BitVec.getLsbD_or, suspBit, lendWord, BitVec.getLsbD_ofNat, decide_eq_true hi, Bool.true_and]
  simp only [Nat.testBit_or, Nat.testBit_shiftLeft, Nat.testBit_two_pow, eq_comm, ge_iff_le]

section
variable {f : Foot} {susp : Bool} (fits : FootFits f)
include fits

theorem lentFoot_lentWord (c : Core) (reg : c.lend = lentWord f susp) : lentFoot c = f := by
  obtain ⟨rb, rn, pb, pn, rbWhole, rnWhole⟩ := fits
  have rows : f.rb / 16 < 2 ^ 7 := by omega
  have count : f.rn / 16 < 2 ^ 4 := by omega
  have rbField : ((lentWord f susp).extractLsb' 19 7).toNat = f.rb / 16 := field_toNat rows fun i hi => by
    rw [lentWord_bit _ _ (by omega), testBit_beyond (k := 9) pb (i := 19 + i - 9) (by omega), testBit_beyond (k := 9) pn (i := 19 + i) (by omega)]
    simp [show ¬ 26 ≤ 19 + i by omega, show ¬ 19 + i = 31 by omega, show ¬ 19 + i = 30 by omega]
  have rnField : ((lentWord f susp).extractLsb' 26 4).toNat = f.rn / 16 := field_toNat count fun i hi => by
    rw [lentWord_bit _ _ (by omega), testBit_beyond rows (i := 26 + i - 19) (by omega), testBit_beyond (k := 9) pb (i := 26 + i - 9) (by omega),
      testBit_beyond (k := 9) pn (i := 26 + i) (by omega)]
    simp [show ¬ 26 + i = 31 by omega, show ¬ 26 + i = 30 by omega]
  have pbField : ((lentWord f susp).extractLsb' 9 9).toNat = f.pb := field_toNat pb fun i hi => by
    rw [lentWord_bit _ _ (by omega), testBit_beyond (k := 9) pn (i := 9 + i) (by omega)]
    simp [show ¬ 26 ≤ 9 + i by omega, show ¬ 19 ≤ 9 + i by omega, show ¬ 9 + i = 31 by omega, show ¬ 9 + i = 30 by omega]
  have pnField : ((lentWord f susp).extractLsb' 0 9).toNat = f.pn := field_toNat pn fun i hi => by
    rw [lentWord_bit _ _ (by omega)]
    simp [show ¬ 26 ≤ i by omega, show ¬ 19 ≤ i by omega, show ¬ 9 ≤ i by omega, show ¬ i = 31 by omega, show ¬ i = 30 by omega]
  rw [lentFoot, lendRB, lendRN, lendPB, lendPN, reg, rbField, rnField, pbField, pnField, Nat.mul_div_cancel' (Nat.dvd_of_mod_eq_zero rbWhole),
    Nat.mul_div_cancel' (Nat.dvd_of_mod_eq_zero rnWhole)]

theorem lendSusp_lentWord : lendSusp (lentWord f susp) = susp := by
  obtain ⟨rb, rn, pb, pn, rbWhole, rnWhole⟩ := fits
  rw [lendSusp, lentWord_bit _ _ (by decide), testBit_beyond (k := 4) (i := 30 - 26) (by omega) (by decide),
    testBit_beyond (k := 7) (i := 30 - 19) (by omega) (by decide), testBit_beyond (k := 9) pb (by decide), testBit_beyond (k := 9) pn (by decide)]
  simp

end

theorem lendV_lentWord (f : Foot) (susp : Bool) : lendV (lentWord f susp) = true := by
  rw [lendV, lentWord_bit _ _ (by decide)]
  simp

/-! ### `lend` (R307) -/

/-- The footprint that a descriptor names. -/
def askedFoot (r : Row) : Foot := ⟨(lane r 0).toNat, (lane r 1).toNat, (lane r 2).toNat, (lane r 3).toNat⟩

/-- The bits of the lanes of a `lend` descriptor (R307). -/
def lendWidths : List Nat := [11, 8, 9, 9] ++ List.replicate 12 0

theorem lendBad_fits {s : State} {r : Row} (good : lendBad s r = none) : FootFits (askedFoot r) := by
  have clear : ∀ k, k < 16 → _ := fun k => firstLane_clear good (k := k)
  have narrow : ∀ k ∈ lendWidths, k ≤ 32 := by decide
  have reserved : reservedLanes r ([2047, 255, 511, 511] ++ List.replicate 12 0) = reservedLanes r (lendWidths.map (fun k => 2 ^ k - 1)) := rfl
  simp only [List.any_append, reserved, Bool.or_eq_false_iff] at clear
  have rows := (clear 0 (by decide)).2
  have count := (clear 1 (by decide)).2
  simp only [List.any_cons, List.any_nil, beq_self_eq_true, Bool.true_and, Bool.or_false, Bool.or_eq_false_iff] at rows count
  obtain ⟨⟨⟨⟨rbWhole, -⟩, -⟩, -⟩, -⟩ := rows
  obtain ⟨-, ⟨⟨rnWhole, -⟩, most⟩, -⟩ := count
  exact ⟨reservedLanes_below narrow rfl (clear 0 (by decide)).1, Nat.le_of_not_lt (of_decide_eq_false most),
    reservedLanes_below narrow rfl (clear 2 (by decide)).1, reservedLanes_below narrow rfl (clear 3 (by decide)).1,
    bne_eq_false_iff_eq.1 rbWhole, bne_eq_false_iff_eq.1 rnWhole⟩

section
variable {s : State} {r : Row}

/-- The state with the footprint lent: its rows and pages zeroed, and the register written (R307). -/
def lentState (s : State) (f : Foot) : State :=
  scrubPages (s.modC (fun c => { c.zeroRows f.rb f.rn with
    lend := lentWord f c.slot.paired, lendKern := some c.slot.kern, ownerDone := false })) s.core.id f

theorem startLend_bad {j : Nat} (bad : lendBad s r = some j) : startLend r s = malformed s r j := by
  rw [startLend, bad]

section
variable (good : lendBad s r = none)
include good

theorem startLend_revokes (needs : needsRevoke s.core = true) :
    startLend r s = .wait outside ((revoke s s.core.id).modS (fun x => { x with revoked := true })) := by
  rw [startLend, good]
  exact if_pos needs

section
variable (revoked : needsRevoke s.core = false)
include revoked

theorem startLend_revoking (under : s.core.revoking = true) : startLend r s = .wait outside s := by
  rw [startLend, good]
  exact (if_neg (Bool.not_eq_true _ ▸ revoked)).trans (if_pos under)

theorem startLend_lends (steady : s.core.revoking = false)
    (pages : ∀ e ∈ (getCl s (clIdx s.core.id)).rlt, spansMeet e.spans (pageSpan s.core.id (askedFoot r)) = false)
    (rows : ∀ l ∈ s.core.late, ∀ n, l.dest = .row n → ¬ ((askedFoot r).rb ≤ n ∧ n < (askedFoot r).rb + (askedFoot r).rn)) :
    startLend r s = .out (lentState s (askedFoot r)) 0 := by
  have noPage : (getCl s (clIdx s.core.id)).rlt.any (fun e => spansMeet e.spans (pageSpan s.core.id (askedFoot r))) = false := by
    simpa only [List.any_eq_false, Bool.not_eq_true] using pages
  have noLate : s.core.late.any (fun l => match l.dest with
      | .row n => decide ((askedFoot r).rb ≤ n) && decide (n < (askedFoot r).rb + (askedFoot r).rn)
      | _ => false) = false := by
    rw [List.any_eq_false]
    intro l pending
    split
    · next n lands => simpa using rows l pending n lands
    · simp
  rw [← Bool.not_eq_true] at revoked steady noPage noLate
  rw [startLend, good]
  exact (if_neg revoked).trans <| (if_neg steady).trans <| (if_neg noPage).trans (if_neg noLate)

end

end

end

/-! ### `reclaim` and `ckpt` (R308, R364) -/

section
variable {s : State}

theorem ownerBar_owner (owner : s.core.hvNow = false) : ownerBar s = none := if_neg (by simp [owner])
theorem ownerBar_harvest (harvest : s.core.hvNow = true) : ownerBar s = some (mkTrap 0x11 0 0) := if_pos harvest

/-- The checkpoint that an issued outbound word of a paired core leaves is of the state after it (R363). -/
theorem issuedOut_mark {s1 : State} {p : CSpec} {v : Row} (paired : s1.core.slot.paired = true) :
    (issuedOut p s s1 v).core.ckpt = ((issuedOut p s s1 v).core.mark (issuedOut p s s1 v).core.slot).ckpt := by
  rw [issuedOut, outbound, if_pos (by rw [issued_paired]; exact paired)]
  rfl

theorem reclaim_course (ready : ReadyC {} s) :
    (s.core.hvNow = false → lendV s.core.lend = false → ∃ t, exec .reclaim s = .next t ∧ DoneC s s t {} 0 none) ∧
    (s.core.hvNow = false → lendV s.core.lend = true → needsRevoke s.core = true →
      exec .reclaim s = stallC ((revoke s s.core.id).modS (fun x => { x with revoked := true })) 100) ∧
    (s.core.hvNow = false → lendV s.core.lend = true → needsRevoke s.core = false → s.core.revoking = true → exec .reclaim s = stallC s 100) ∧
    (s.core.hvNow = false → lendV s.core.lend = true → needsRevoke s.core = false → s.core.revoking = false → ∃ t, exec .reclaim s = .next t ∧
      DoneC s (s.modC (fun c => { c with lend := c.lend &&& 0x3FFFFFFF, lendKern := none })) t {} 0 none) := by
  rw [exec_reclaim, execReclaim]
  refine ⟨fun owner unlent => ?_, fun owner lent needs => ?_, fun owner lent revoked under => ?_, fun owner lent revoked steady => ?_⟩ <;>
    rw [ownerBar_owner owner]
  · exact control_done ready (if_pos (by rw [unlent]; rfl))
  all_goals have held : ¬ (!lendV s.core.lend) = true := by simp [lent]
  · exact control_wait ready ((if_neg held).trans (if_pos needs))
  all_goals rw [← Bool.not_eq_true] at revoked
  · exact control_wait ready ((if_neg held).trans ((if_neg revoked).trans (if_pos under)))
  · rw [← Bool.not_eq_true] at steady
    exact control_sent ready ((if_neg held).trans ((if_neg revoked).trans (if_neg steady)))

/-- A core whose checkpoints `ckpt` forms: of a pair, in its owner slot (R364). -/
def Pairs (s : State) : Prop := s.core.slot.paired = true ∧ s.core.hvNow = false ∧ isMem s.core.id = false

theorem pairs_iff : Pairs s ↔ (!s.core.slot.paired || s.core.hvNow || isMem s.core.id) = false := by
  simp [Pairs, and_assoc]

theorem ckpt_course (ready : ReadyC {} s) :
    (¬ Pairs s → ∃ t, exec .ckpt s = .next t ∧ DoneC s s t {} 0 none) ∧
    (Pairs s → s.core.slot.backlog ≠ [] → exec .ckpt s = stallC s 100) ∧
    (Pairs s → s.core.slot.backlog = [] → exec .ckpt s = .next (issuedOut {} s s 0)) := by
  rw [exec_ckpt, execCkpt, pairs_iff, Bool.not_eq_false]
  refine ⟨fun single => control_done ready (if_pos single), fun pairs outstanding => control_wait ready ?_, fun pairs alone => control_out ready ?_⟩
  · exact (if_neg (by simp [pairs])).trans (if_pos (by simpa using outstanding))
  · exact (if_neg (by simp [pairs])).trans (if_neg (by simp [alone]))

end

/-- Settles O38: `lend` by the lemmas of `startLend`, with the lent state's rows, register and pages; then `reclaim_course` and
`ckpt_course`. -/
theorem lendingResults : Obligations.LendingResults := by
  unfold Obligations.LendingResults
  refine ⟨fun a s harvest => ⟨fun free => ?_, fun free => ?_⟩, fun a s ready => ?_, fun s ready => ?_, fun s ready => ?_⟩
  · rw [exec_lend, execLend]
    exact control_barred free (ownerBar_harvest harvest)
  · rw [exec_reclaim, execReclaim]
    exact control_barred free (ownerBar_harvest harvest)
  · intro r f inRows
    rw [exec_lend, execLend]
    refine ⟨fun j owner bad => ?_, fun owner good needs => ?_, fun owner good revoked under => ?_, fun owner good revoked steady pages rows => ?_⟩ <;>
      rw [ownerBar_owner owner]
    · exact control_trap ready (startLend_bad bad)
    · exact control_wait ready (startLend_revokes good needs)
    · exact control_wait ready (startLend_revoking good revoked under)
    · have fits : FootFits f := lendBad_fits good
      have sent : startLend r s = .out (lentState s f) 0 := startLend_lends good revoked steady pages rows
      obtain ⟨t, run, done⟩ := control_sent (f := fun rs s => startLend (nth rs 0) s) ready sent
      refine ⟨t, lentState s f, run, done, rfl, fun n inside => ?_, fun n outside => ?_, lentFoot_lentWord fits _ rfl, lendV_lentWord f _,
        lendSusp_lentWord fits, scrubPages_read _ _ _⟩
      · exact (row_zeroRows s.core f.rb f.rn n).trans (if_pos inside)
      · exact (row_zeroRows s.core f.rb f.rn n).trans (if_neg outside)
  · exact reclaim_course ready
  · obtain ⟨single, outstanding, alone⟩ := ckpt_course ready
    refine ⟨single, outstanding, fun pairs empty => ⟨_, _, alone pairs empty, issuedOut_done .., issuedOut_mark pairs.1, rfl, rfl, rfl, rfl, rfl, rfl⟩⟩

end Sys2Proof.Machine
end


section
/-! PROOFS. Firmware: a live update and its image slots, power-on, the service stages, signed records, attestation (O54). -/

namespace Sys2Proof.Machine

section
variable {s : State} {f : List Byte} {v o : Nat}

/-! ### Live update (R371) -/

/-- The file of a firmware image ends in a signature block by Prervaec's firmware key that verifies (R346, R371). -/
def ImageVerifies (s : State) (f : List Byte) (o : Nat) : Prop :=
  sigLayoutOk f o = true ∧ firmwareKey s.firm = some (sigKey f o) ∧ sigVerifies f o = true

theorem imageVerifies_iff : ImageVerifies s f o ↔ (sigLayoutOk f o && firmwareKey s.firm == some (sigKey f o) && sigVerifies f o) = true := by
  simp only [ImageVerifies, Bool.and_eq_true, beq_iff_eq, and_assoc]

/-- The image that a verified file puts in a slot (R371). -/
def imageOf (f : List Byte) (v o : Nat) : Image :=
  { version := v, digest := sha3 (f.take o), key := sigKey f o, sig := (f.drop (o + 40)).take 2420 }

/-- A write of the spare slot leaves the active one. -/
theorem setSpare_slots (m : Firm) (i : Option Image) : (setSpare m i).activeB = m.activeB ∧
    (if m.activeB then (setSpare m i).imgA else (setSpare m i).imgB) = i ∧
    (if m.activeB then (setSpare m i).imgB else (setSpare m i).imgA) = if m.activeB then m.imgB else m.imgA := by
  unfold setSpare
  split <;> exact ⟨rfl, rfl, rfl⟩

/-- No queue is in service once the ladder has been started for it. -/
theorem startLadder_phase (g : Trig) (y : Queue) : (startLadder g y).phase ≠ .serving := by
  unfold startLadder
  split
  · exact nofun
  · next off => exact off

section
variable (idle : s.firm.updating = false)
include idle

theorem firmwareUpdate_verified (good : ImageVerifies s f o) : exec (.firmwareUpdate f v o) s = .next { s with
    firm := { setSpare s.firm (some (imageOf f v o)) with pending := some (sha3 (f.take o)), updating := true, handover := none },
    queues := s.queues.map (startLadder .firmware) } := by
  rw [exec_firmwareUpdate, execFirmwareUpdate, idle, if_neg Bool.false_ne_true, imageVerifies_iff.1 good]
  rfl

theorem firmwareUpdate_refused (bad : ¬ ImageVerifies s f o) : exec (.firmwareUpdate f v o) s = .next { s with firm := setSpare s.firm none } := by
  rw [imageVerifies_iff, Bool.not_eq_true] at bad
  rw [exec_firmwareUpdate, execFirmwareUpdate, idle, if_neg Bool.false_ne_true, bad]
  rfl

end

/-- The old image's write of the handover structure, which may fail (R371, step 4; log 82). -/
theorem firmwareUpdate_handsOver (under : s.firm.updating = true) (off : quiet s = true) (unwritten : s.firm.handover = none) :
    exec (.firmwareUpdate f v o) s =
        .next { s with free := s.free + 1, firm := { s.firm with handover := some (handoverOf s), runningB := !s.firm.activeB } } ∨
      exec (.firmwareUpdate f v o) s = .next { s with free := s.free + 1, firm := oldImage s.firm } := by
  have course : exec (.firmwareUpdate f v o) s = .next { s with
      free := s.free + 1
      firm := if (Config.freeValue s.free).getLsbD 0 then { s.firm with handover := some (handoverOf s), runningB := !s.firm.activeB }
        else oldImage s.firm } := by
    rw [exec_firmwareUpdate, execFirmwareUpdate]
    exact (if_pos under).trans (if_pos (by rw [off, unwritten]; rfl))
  rw [course]
  split
  · exact .inl rfl
  · exact .inr rfl

theorem handoverOf_version {i : Image} (runs : runningImage s.firm = some i) : (handoverOf s).version = i.version := by
  rw [handoverOf, runs]
  rfl

theorem accepts_iff {h : Handover} {i : Image} : accepts i h = true ↔ h.version ≤ i.version ∧ h.len = h.body.length ∧ h.digest = sha3 h.body := by
  simp only [accepts, Bool.and_eq_true, decide_eq_true_eq, beq_iff_eq, and_assoc]

section
variable {h : Handover} {i : Image} (under : s.firm.updating = true) (written : s.firm.handover = some h)
include under written

theorem firmwareHeartbeat_course (spare : spareImage s.firm = some i) : exec .firmwareHeartbeat s =
    if accepts i h then .next { s with firm := { oldImage s.firm with activeB := !s.firm.activeB, measured := some i } } else .next s := by
  rw [exec_firmwareHeartbeat, execFirmwareHeartbeat]
  simp only [under, written, spare]

theorem firmwareHeartbeatMiss_returns :
    exec .firmwareHeartbeatMiss s = .next { s with firm := { oldImage s.firm with runningB := s.firm.activeB } } := by
  rw [exec_firmwareHeartbeatMiss, execFirmwareHeartbeatMiss]
  exact if_pos (by rw [under, written]; rfl)

end

/-! ### Power-on and the service stages (R373) -/

/-- The image in slot B, or in slot A. -/
def slotImage (m : Firm) (b : Bool) : Option Image := if b then m.imgB else m.imgA

theorem good_iff {m : Firm} {i : Image} : i.good m = true ↔ firmwareKey m = some i.key ∧ Config.mldsaVerify i.key i.digest i.sig = true := by
  rw [Image.good, Bool.and_eq_true, beq_iff_eq]

/-- The firmware before power-on chooses an image to run: the records accepted are in force. -/
def bootFirm (m : Firm) : Firm := oldImage { m with stage := 0, inForce := m.records, withheld := [], answers := [] }

/-- The image that power-on runs: the active one where it verifies (R371, R373). -/
def bootSlot (m : Firm) : Bool := if (slotImage m m.activeB).any (Image.good (bootFirm m)) then m.activeB else !m.activeB

/-- The firmware after power-on. -/
def bootedFirm (m : Firm) : Firm :=
  { bootFirm m with runningB := bootSlot m, measured := (slotImage m (bootSlot m)).filter (Image.good (bootFirm m)) }

/-- The package after power-on, its partition apart (R373). -/
def bootedState (s : State) : State :=
  { State.reset with core := Core.reset (coreWord (ownPkg s) 0 0), mem := externalMem s.mem, events := s.events, free := s.free,
                     meterings := s.meterings, firm := bootedFirm s.firm }

/-- The partition of the package after power-on. -/
def bootedPart (s : State) : Part := { Part.full with absent := withheldCores (bootedState s) }

theorem bootedPart_whole : (bootedPart s).clusters = List.range 256 ∧ (bootedPart s).memCores = List.range 64 := by
  simp only [bootedPart, Part.full, and_self]

theorem maskedCores_parts (t : State) (l : List Part) : maskedCores { t with parts := l } = maskedCores t := by
  simp only [maskedCores, ownPkg]

/-- No core failed at bring-up yet: the mask in force alone withholds cores. -/
theorem bootedPart_absent : (bootedPart s).absent = maskedCores { bootedState s with parts := [bootedPart s] } := by
  have none : (bootedState s).firm.withheld = [] := rfl
  rw [maskedCores_parts]
  simp only [bootedPart, withheldCores, none, List.nil_append]

theorem powerOn_boots : exec .powerOn s = .next { bootedState s with parts := [bootedPart s] } := rfl

theorem bootedFirm_active {m : Firm} {i : Image} (active : slotImage m m.activeB = some i) (good : i.good (bootFirm m) = true) :
    (bootedFirm m).runningB = m.activeB ∧ (bootedFirm m).measured = slotImage m m.activeB := by
  have runs : bootSlot m = m.activeB := if_pos (by rw [active]; exact good)
  exact ⟨runs, by rw [bootedFirm, runs, active, Option.filter_some, if_pos good]⟩

theorem bootSlot_other {m : Firm} (bad : ∀ j, slotImage m m.activeB = some j → ¬ j.good (bootFirm m) = true) : bootSlot m = !m.activeB := by
  refine if_neg fun found => ?_
  obtain ⟨j, active, good⟩ := Option.any_eq_true .. |>.1 found
  exact bad j active good

theorem bootedFirm_other {m : Firm} {i : Image} (bad : ∀ j, slotImage m m.activeB = some j → ¬ j.good (bootFirm m) = true)
    (other : slotImage m (!m.activeB) = some i) (good : i.good (bootFirm m) = true) :
    (bootedFirm m).runningB = (!m.activeB) ∧ (bootedFirm m).measured = slotImage m (!m.activeB) :=
  ⟨bootSlot_other bad, by rw [bootedFirm, bootSlot_other bad, other, Option.filter_some, if_pos good]⟩

theorem bootedFirm_none {m : Firm} (bad : ∀ b j, slotImage m b = some j → ¬ j.good (bootFirm m) = true) : (bootedFirm m).measured = none :=
  Option.filter_eq_none_iff.2 fun j => bad _ j

/-- The clusters of a list have been put at 550 MHz. -/
theorem slowed_clock (l : List Nat) {c : Nat} (mem : c ∈ l) (s : State) :
    (getCl (l.foldl (fun s c => modCl s c (fun u => { u with clock := 4, choice := 4 })) s) c).clock = 4 := by
  induction l using List.reverseRecOn with
  | nil => cases mem
  | append_singleton l b ih =>
    rw [List.foldl_append, List.foldl_cons, List.foldl_nil, getCl_modCl _ _ _ _ (getCl_id _ _)]
    by_cases last : b = c
    · rw [if_pos last]
    · rw [if_neg last]
      refine ih ((List.mem_append.1 mem).resolve_right ?_)
      simpa using Ne.symm last

theorem modCls_frame (l : List Nat) (f : Cluster → Cluster) (s : State) :
    l.foldl (fun s c => modCl s c f) s = { s with clusters := (l.foldl (fun s c => modCl s c f) s).clusters } := by
  induction l generalizing s with
  | nil => rfl
  | cons c l ih => exact ih (modCl s c f)

/-- The partition of reduced service (R373). -/
def reducedPart (s : State) : Part :=
  { Part.full with clusters := List.range 64, memCores := List.range 8, early := true, absent := withheldCores s }

/-- Stage 1, before die 0's clusters have their clock (R373). -/
def reducedBase (s : State) : State :=
  { s with firm := { s.firm with stage := 1 }, bar := some Config.notifyBar, parts := [reducedPart s] }

theorem reducedService_starts (stage : s.firm.stage = 0) : exec .reducedService s =
    .next ((List.range 64).foldl (fun s c => modCl s c (fun u => { u with clock := 4, choice := 4 })) (reducedBase s)) := by
  rw [exec_reducedService, execReducedService]
  exact if_neg (not_not.2 stage)

theorem reducedService_rule (stage : s.firm.stage = 0) : ∃ t, exec .reducedService s = .next t ∧
    t = { reducedBase s with clusters := t.clusters } ∧ ∀ c, c < 64 → (getCl t c).clock = 4 :=
  ⟨_, reducedService_starts stage, modCls_frame _ _ _, fun _ less => slowed_clock _ (List.mem_range.2 less) _⟩

/-! ### Full service (R365, R373) -/

@[simp] theorem linkOf_id (s : State) (n : Nat) : (linkOf s n).id = n := by
  unfold linkOf
  split
  · next l found => simpa using List.find?_some found
  · rfl

theorem linkOf_setLink (s : State) (l : Link) (n : Nat) : linkOf (setLink s l) n = if l.id = n then l else linkOf s n := by
  unfold linkOf setLink
  by_cases same : l.id = n
  · subst same
    have removed : (s.links.filter (fun k => k.id != l.id)).find? (fun k => k.id == l.id) = none :=
      List.find?_eq_none.2 fun k kept => by simpa using (List.mem_filter.1 kept).2
    simp only [List.find?_append, removed, Option.none_or, List.find?_cons, beq_self_eq_true, if_true]
  · have kept : (s.links.filter (fun k => k.id != l.id)).find? (fun k => k.id == n) = s.links.find? (fun k => k.id == n) := by
      rw [List.find?_filter]
      refine congrArg (List.find? · s.links) (funext fun k => ?_)
      by_cases hit : k.id = n
      · simp [hit, Ne.symm same]
      · simp [hit]
    simp [kept, same]

/-- A link that failed its training carries nothing (R365). -/
def linkDown (s : State) (n : Nat) : State := setLink s { linkOf s n with retrain := false, down := true }

theorem linkDown_down (s : State) (b n : Nat) : (linkOf (linkDown s b) n).down = true ↔ b = n ∨ (linkOf s n).down = true := by
  rw [linkDown, linkOf_setLink]
  dsimp only
  rw [linkOf_id]
  split
  · next same => simp [same]
  · next other => simp [other]

theorem linksDown_down {l : List Nat} {n : Nat} (listed : n ∈ l) (s : State) : (linkOf (l.foldl linkDown s) n).down = true := by
  induction l using List.reverseRecOn with
  | nil => cases listed
  | append_singleton l b ih =>
    rw [List.foldl_append, List.foldl_cons, List.foldl_nil, linkDown_down]
    rcases List.mem_append.1 listed with before | last
    · exact .inr (ih before)
    · exact .inl (List.mem_singleton.1 last).symm

theorem linksDown_frame (l : List Nat) (s : State) : l.foldl linkDown s = { s with links := (l.foldl linkDown s).links } := by
  induction l generalizing s with
  | nil => rfl
  | cons n l ih => exact ih (linkDown s n)

/-- Nothing but cluster clocks differs. -/
def Replanned (s t : State) : Prop := t = { s with clusters := t.clusters } ∧ ∀ c, getCl t c = { getCl s c with clock := (getCl t c).clock }

theorem Replanned.trans {s t u : State} (first : Replanned s t) (second : Replanned t u) : Replanned s u := by
  obtain ⟨frame1, clusters1⟩ := first
  obtain ⟨frame2, clusters2⟩ := second
  refine ⟨?_, fun c => ?_⟩
  · rw [frame2, frame1]
  · rw [clusters2, clusters1]

/-- A cluster below its floor is planned anew (R358, R373). -/
def raise (t : State) (c : Nat) : State := if c < 256 && decide ((getCl t c).clock < clockFloor t c) then planDomain t c else t

theorem raise_replans (t : State) (c : Nat) : Replanned t (raise t c) := by
  unfold raise
  split
  · obtain ⟨frame, clusters, -⟩ := planDomain_rule t c
    exact ⟨frame, clusters⟩
  · exact ⟨rfl, fun _ => rfl⟩

theorem raises_replan (l : List Nat) (t : State) : Replanned t (l.foldl raise t) := by
  induction l generalizing t with
  | nil => exact ⟨rfl, fun _ => rfl⟩
  | cons c l ih => exact (raise_replans t c).trans (ih _)

/-- Stage 2, before the floors are applied (R373). -/
def fullBase (s : State) (d : ServiceDesc) : State := { s with firm := { s.firm with stage := 2, withheld := d.withheld }, pod := d.pod }

theorem fullService_starts {d : ServiceDesc} (stage : s.firm.stage = 1) : exec (.fullService d) s =
    .next (((d.links.foldl linkDown (fullBase s d)).clusters.map Cluster.id).foldl raise (d.links.foldl linkDown (fullBase s d))) := by
  rw [exec_fullService, execFullService]
  exact if_neg (not_not.2 stage)

theorem fullService_rule {d : ServiceDesc} (stage : s.firm.stage = 1) : ∃ t, exec (.fullService d) s = .next t ∧
    t = { fullBase s d with links := t.links, clusters := t.clusters } ∧
    (∀ c, getCl t c = { getCl s c with clock := (getCl t c).clock }) ∧ ∀ n ∈ d.links, (linkOf t n).down = true := by
  refine ⟨_, fullService_starts stage, ?_⟩
  have frame := linksDown_frame d.links (fullBase s d)
  obtain ⟨replanned, clocks⟩ := raises_replan ((d.links.foldl linkDown (fullBase s d)).clusters.map Cluster.id) (d.links.foldl linkDown (fullBase s d))
  have down : ∀ n ∈ d.links, (linkOf (d.links.foldl linkDown (fullBase s d)) n).down = true := fun n listed => linksDown_down listed _
  generalize d.links.foldl linkDown (fullBase s d) = u at *
  generalize (u.clusters.map Cluster.id).foldl raise u = t at *
  refine ⟨?_, fun c => ?_, fun n listed => ?_⟩
  · rw [replanned, frame]
  · rw [clocks, frame]
    rfl
  · rw [replanned]
    exact down n listed

/-! ### Withheld cores and signed records (R1, R374) -/

/-- The core of a bit of the core-disable mask. -/
def maskCore (s : State) (n : Nat) : Word :=
  if n < 2048 then coreWord (ownPkg s) (n / 8) (n % 8) else coreWord (ownPkg s) (256 + n - 2048) 0

theorem withheldCores_mem (s : State) (w : Word) : w ∈ withheldCores s ↔ w ∈ s.firm.withheld ∨
    ∃ n, n < 2112 ∧ n < 8 * (look [] s.firm.inForce 3).length ∧
      ((look [] s.firm.inForce 3).getD (n / 8) 0).getLsbD (n % 8) = true ∧ w = maskCore s n := by
  simp only [withheldCores, maskedCores, List.mem_append, List.mem_filterMap, List.mem_range, Nat.lt_min, Option.ite_none_right_eq_some,
    Option.some.injEq, and_assoc, maskCore, @eq_comm _ w]

/-- A record of a signed file is accepted (R346, R356, R374). -/
structure RecordGood (s : State) (f : List Byte) (type seq n : Nat) : Prop where
  magic : field f 0 4 = 0x01525A44
  low : 1 ≤ type
  high : type ≤ 3
  layout : sigLayoutOk f (16 + n) = true
  verifies : sigVerifies f (16 + n) = true
  key : sigKey f (16 + n) = Config.provisioningKey ∨ (type = 1 ∧ ownerKey s = some (sigKey f (16 + n)))
  fresh : ∀ e, s.firm.seqs.find? (fun e => e.1 == type) = some e → e.2 ≤ seq
  limit : type = 1 → limitOk s ((f.drop 16).take n) = true

/-- No record of the type has been accepted with a higher number (R374). -/
def recordFresh (s : State) (type seq : Nat) : Bool :=
  match s.firm.seqs.find? (fun e => e.1 == type) with
  | some e => decide (e.2 ≤ seq)
  | none => true

theorem recordFresh_iff {type seq : Nat} :
    recordFresh s type seq = true ↔ ∀ e, s.firm.seqs.find? (fun e => e.1 == type) = some e → e.2 ≤ seq := by
  unfold recordFresh
  split
  · next e last => simp [last]
  · next unseen => simp [unseen]

/-- The tests of `signedRecord`, any of which rejects the file. -/
def recordRejected (s : State) (f : List Byte) (type seq n : Nat) : Bool :=
  field f 0 4 != 0x01525A44 || type == 0 || 3 < type || !sigLayoutOk f (16 + n) ||
    !(sigKey f (16 + n) == Config.provisioningKey || (type == 1 && ownerKey s == some (sigKey f (16 + n)))) ||
    !sigVerifies f (16 + n) || !recordFresh s type seq || (type == 1 && !limitOk s ((f.drop 16).take n))

theorem recordGood_iff {type seq n : Nat} : RecordGood s f type seq n ↔ recordRejected s f type seq n = false := by
  simp only [recordRejected, Bool.or_eq_false_iff, bne_eq_false_iff_eq, beq_eq_false_iff_ne, decide_eq_false_iff_not, Nat.not_lt,
    Bool.not_eq_false', Bool.or_eq_true, Bool.and_eq_true, beq_iff_eq, recordFresh_iff, Bool.and_eq_false_imp]
  constructor
  · rintro ⟨magic, low, high, layout, verifies, key, fresh, limit⟩
    exact ⟨⟨⟨⟨⟨⟨⟨magic, Nat.one_le_iff_ne_zero.1 low⟩, high⟩, layout⟩, key⟩, verifies⟩, fresh⟩, limit⟩
  · rintro ⟨⟨⟨⟨⟨⟨⟨magic, low⟩, high⟩, layout⟩, key⟩, verifies⟩, fresh⟩, limit⟩
    exact ⟨magic, Nat.one_le_iff_ne_zero.2 low, high, layout, verifies, key, fresh, limit⟩

theorem signedRecord_course : exec (.signedRecord f) s =
    if recordRejected s f (field f 4 4) (field f 8 4) (field f 12 4) then .next s
    else .next { s with firm := { s.firm with
      records := put s.firm.records (field f 4 4) ((f.drop 16).take (field f 12 4)), seqs := put s.firm.seqs (field f 4 4) (field f 8 4) } } := by
  rw [exec_signedRecord, execSignedRecord]
  rfl

/-! ### Attestation (R375, R376) -/

theorem getMeasurements_one {n : Nat} {d : BitVec 256} (single : n ≠ 255) (listed : (n, d) ∈ measurements s.firm) :
    exec (.getMeasurements n) s = answer s (.measurements [(n, d)]) := by
  have only : (measurements s.firm).filter (fun e => e.1 == n) = [(n, d)] := by
    simp only [measurements, List.mem_cons, Prod.mk.injEq, List.not_mem_nil, or_false] at listed
    rcases listed with ⟨rfl, rfl⟩ | ⟨rfl, rfl⟩ | ⟨rfl, rfl⟩ | ⟨rfl, rfl⟩ | ⟨rfl, rfl⟩ <;> rfl
  rw [exec_getMeasurements, execGetMeasurements, if_neg single, only]
  rfl

theorem getMeasurements_absent {n : Nat} (single : n ≠ 255) (absent : ∀ d, (n, d) ∉ measurements s.firm) :
    exec (.getMeasurements n) s = answer s .error := by
  have none : (measurements s.firm).filter (fun e => e.1 == n) = [] := List.filter_eq_nil_iff.2 fun e listed hit =>
    absent e.2 (eq_of_beq hit ▸ listed)
  rw [exec_getMeasurements, execGetMeasurements, if_neg single, none]
  rfl

theorem getMeasurements_all : exec (.getMeasurements 255) s = answer s (.measurements (measurements s.firm)) := rfl

end

/-- Settles O54: each part by the lemma that says what its event does. -/
theorem firmwareEvents : Obligations.FirmwareEvents := by
  unfold Obligations.FirmwareEvents
  refine ⟨fun s f v o idle => ⟨fun good => ?_, fun bad => ?_⟩, fun s f v o under off unwritten => ?_, fun s h i under written spare => ?_,
    fun s => ?_, fun s stage => ?_, fun s d stage => fullService_rule stage, fun s w => withheldCores_mem s w, fun s f => ?_, fun s sha mldsa nonce n => ?_⟩
  · obtain ⟨active, written, kept⟩ := setSpare_slots s.firm (some (imageOf f v o))
    refine ⟨_, firmwareUpdate_verified idle good, rfl, rfl, active, written, kept, fun y listed => ?_⟩
    obtain ⟨x, -, rfl⟩ := List.mem_map.1 listed
    exact startLadder_phase _ x
  · exact ⟨_, firmwareUpdate_refused idle bad, rfl, (setSpare_slots s.firm none).2.1⟩
  · exact ⟨firmwareUpdate_handsOver under off unwritten, rfl, rfl, fun i runs => handoverOf_version runs⟩
  · have course := firmwareHeartbeat_course under written spare
    refine ⟨fun takes => ⟨_, course.trans (if_pos (accepts_iff.2 takes)), rfl, rfl, rfl, by simp [measurements], by simp [measurements]⟩,
      fun refuses => course.trans (if_neg (refuses ∘ accepts_iff.1)), firmwareHeartbeatMiss_returns under written⟩
  · refine ⟨_, powerOn_boots, rfl, rfl, rfl, rfl, rfl, rfl, rfl, rfl, rfl, rfl, ⟨fun i active good => ?_, fun i bad other good => ?_, fun bad => ?_⟩,
      bootedPart s, rfl, bootedPart_whole.1, bootedPart_whole.2, bootedPart_absent⟩
    · exact bootedFirm_active (m := s.firm) active (good_iff.2 good)
    · exact bootedFirm_other (m := s.firm) (fun j active verifies => bad j active (good_iff.1 verifies)) other (good_iff.2 good)
    · exact bootedFirm_none (m := s.firm) fun b j found verifies => bad b j found (good_iff.1 verifies)
  · obtain ⟨t, run, frame, clocks⟩ := reducedService_rule stage
    exact ⟨t, reducedPart s, run, congrArg State.bar frame, rfl, congrArg State.firm frame, congrArg State.parts frame, rfl, rfl, clocks,
      (congrArg State.mem frame).trans rfl⟩
  · intro type seq n body good
    have accepted : good ↔ RecordGood s f type seq n := ⟨fun ⟨magic, low, high, layout, verifies, key, fresh, limit⟩ =>
      ⟨magic, low, high, layout, verifies, key, fresh, limit⟩,
      fun ⟨magic, low, high, layout, verifies, key, fresh, limit⟩ => ⟨magic, low, high, layout, verifies, key, fresh, limit⟩⟩
    rw [accepted, recordGood_iff, signedRecord_course]
    exact ⟨fun takes => if_neg (Bool.not_eq_true _ ▸ takes), fun rejects => if_pos (Bool.not_eq_false _ ▸ rejects)⟩
  · exact ⟨rfl, rfl, rfl, rfl, rfl, rfl, getMeasurements_all, fun d => getMeasurements_one, getMeasurements_absent⟩

end Sys2Proof.Machine
end


section
/-! PROOFS. A record that retires while its successor has retired before: the next one to start is two on (refutes O50). -/

namespace Sys2Proof.Machine

/-- Queue 0 after a replay, with a ring of two records at 0x3000000: record 0 is to start again, record 1 has retired before it
(R287, R368). -/
def replayedQueue : Queue :=
  { id := 0, ring := 0x3000000, log2n := 1, res := true, dur := false, process := 1, part := 0, farea := 0, flen := 1, p := 2, ci := 0, next := 0,
    fcount := 0, fci := 0, gen := 0, fault := 0, faulted := false, phase := .serving, mapped := true, ladder := none, cleared := false,
    turned := false, engines := [], journal := [], committed := []
    retired := [{ recNo := 1, sig := false, sigAddr := 0, sigVal := 0, status := 0, code := 0, gen := 0 }] }

/-- The tables of the queue's process: two levels, whose leaf maps the first GiB to the CXL pool (R315). The ring there is zeros: records of
TYPE 0, which are malformed (R282). -/
def ringTables : Memory := memWriteN (memWriteN [] (cxlKey 0x1000) (natBytes 0x2103 8)) (cxlKey 0x2000) (natBytes 0x40000179 8)

/-- The package in full service with that queue, whose ring's capability admits it (R369). -/
def replayedState : State :=
  { State.reset with
    firm := { State.reset.firm with stage := 2 }, queues := [replayedQueue], mem := ringTables
    kiln := [(ringGranule 0, ⟨true, capFor false true 0x3000000 256⟩)]
    procs := [{ id := 1, root := cxlKey 0x1000, pasid := 0, part := 0, cone := 0, budget := 0, left := 0, turnCharged := 0, firstLaunch := [],
                lastFirst := 0 }] }

/-- The next record to start of queue 0 in the state that an event leaves. -/
def nextAfter : Out → Option Word
  | .next t => (queueById t 0).map Queue.next
  | _ => none

theorem replayedState_starts : mayStart replayedState replayedQueue = true := by decide +kernel
theorem replayedState_record : recWords replayedState replayedQueue = some (List.replicate 32 0) := by decide +kernel

/-- As record 0 retires, CI passes it and record 1, and so does the next record to start. -/
theorem replayedState_passes : nextAfter (exec (.malformedCommandRecord 0) replayedState) = some 2 := by decide +kernel

/-- Refutes O50: its clause on a malformed record (TYPE 0) wants the record after it to be the next to start; where that one has retired
before, as a replay leaves it, `advanceCi` passes both (`replayedState_passes`). -/
theorem not_queueEvents : ¬ Obligations.QueueEvents := by
  unfold Obligations.QueueEvents
  intro holds
  obtain ⟨-, -, -, -, -, -, -, -, records⟩ := holds replayedState 0 replayedQueue rfl
  obtain ⟨malformed, -⟩ := records (List.replicate 32 0) replayedState_starts replayedState_record (by decide)
  obtain ⟨t, run, y, r, found, next, -⟩ := malformed (.inl (by decide)) (by decide)
  have passes := replayedState_passes
  rw [run, nextAfter, found, Option.map_some, next] at passes
  exact absurd passes (by decide)

end Sys2Proof.Machine
end


section
/-! PROOFS. A durable replay moves CI past the records of the queue that have retired (refutes O52). -/

namespace Sys2Proof.Machine

/-- A durable queue of number 0 with the given retired records (R281, R368). -/
def durableQueue (retired : List Retired) : Queue :=
  { id := 0, ring := 0x3000000, log2n := 5, res := true, dur := true, process := 1, part := 0, farea := 0, flen := 64, p := 2, ci := 0, next := 1,
    fcount := 0, fci := 0, gen := 0, fault := 0, faulted := false, phase := .serving, mapped := true, ladder := none, cleared := false,
    turned := false, engines := [], retired := retired, journal := [], committed := [] }

/-- Two queues of number 0, nothing of which runs; record 0 of the second has retired. -/
def twinState : State :=
  { State.reset with queues := [durableQueue [], durableQueue [{ recNo := 0, sig := false, sigAddr := 0, sigVal := 0, status := 0, code := 0, gen := 0 }]] }

/-- The consumer indices of the queues in the state that an event leaves. -/
def indicesAfter : Out → List Word
  | .next t => t.queues.map Queue.ci
  | _ => []

/-- The replay lets the second queue's CI pass its retired record (R287, R368). -/
theorem twinState_passes : indicesAfter (exec (.durableReplay 0) twinState) = [0, 1] := by decide +kernel

/-- Refutes O52: its clause on a durable replay asks that the queue found at the number has no retired record, yet says that every queue of
that number keeps its CI. In `twinState` the second queue of number 0 has a retired record, which its CI passes. No two queues get one number
by `queueCreate`, but the statement speaks of every state. -/
theorem not_ladderEvents : ¬ Obligations.LadderEvents := by
  unfold Obligations.LadderEvents
  intro holds
  obtain ⟨⟨-, -, ofQueue, -⟩, -⟩ := holds
  obtain ⟨-, -, -, -, -, -, -, -, -, -, -, replay⟩ := ofQueue twinState 0 (durableQueue []) rfl
  obtain ⟨run, -⟩ := replay rfl rfl rfl rfl rfl rfl
  have passes := twinState_passes
  rw [run] at passes
  revert passes
  decide +kernel

end Sys2Proof.Machine
end
